-- ==== Sys2Proof/Word.lean ====
section
/-!
DEFINITION. Words, tags and the closed sets of names that the instruction set and the machine share.
-/
namespace Sys2Proof

/-- A 64-bit register word. -/
abbrev Word := BitVec 64

/-- A byte of memory. -/
abbrev Byte := BitVec 8

/-- A set of the 32 lanes of a warp, lane l being bit l. -/
abbrev Mask := BitVec 32

/-- The tag of a register word (R34). The encoding 0b11 reads as X. -/
inductive Tag where
  | v
  | n
  | x
  deriving DecidableEq, Repr

/-- A 64-bit register word with its tag (R34). -/
structure TWord where
  tag : Tag
  data : Word
  deriving DecidableEq, Repr

/-- A word of tag V. -/
def TWord.valid (d : Word) : TWord := ⟨.v, d⟩

/-- A register that holds 0 with tag V. -/
def TWord.zero : TWord := ⟨.v, 0⟩

/-- The class of an instruction and of a clause (R43, R45). -/
inductive Cls where
  | a
  | m
  | e
  | s
  deriving DecidableEq, Repr

/-- The four counters of outstanding operations of a split (R39). -/
inductive Counter where
  | ld
  | st
  | cp
  | ex
  deriving DecidableEq, Repr

/-- The five rounding modes of R54. -/
inductive Rm where
  | rne
  | rtz
  | rup
  | rdn
  | rna
  deriving DecidableEq, Repr

/-- The fields of an instruction word beside its opcode (R51). -/
structure Fields where
  stall : BitVec 3
  d : BitVec 8
  a : BitVec 8
  b : BitVec 8
  c : BitVec 8
  ty : BitVec 4
  md : BitVec 16
  deriving DecidableEq, Repr

end Sys2Proof
end

