-- ==== Sys2Proof/Syntax.lean ====
section
/-!
DEFINITION. The steps of the Fjarul S4, one constructor per row of the opcode table: 205 instructions, two rows for words that
are no instruction (R64, R66), and 84 steps the device takes by itself or at an outside stimulus.
An instruction carries the fields of its word (R51); the opcode is the constructor. A device step carries the names (numbers)
of what it acts on and the data that arrives from outside.
-/
namespace Sys2Proof

/-- What another member contributes to a collective (R413 to R415): rank, instruction (opcode less 0x1B0), type, operation, rounding
mode, length, bytes; source bytes that failed, as offset and count, with whether a Lost region was met there. -/
structure Contrib where
  rank : Nat
  kind : Nat
  ty : BitVec 4
  op : Nat
  rm : Nat
  len : Nat
  data : Nat
  bad : List (Nat × Nat × Bool)
  deriving DecidableEq, Repr

/-- The key under which the signature of a header's bytes 80 to 143 verifies over its bytes 0 to 79 (R464, R465): none of those the controller
tries, the vendor root key, a customer key. -/
inductive Signer where
  | nobody
  | root
  | customer (key : Nat)
  deriving DecidableEq, Repr

/-- An image in module flash (R464, R465): its 256-byte header as a number, byte 0 lowest; the bytes of its payload, and whether their SHA-512
digest is the header's; its signer; the die that it serves; of a program for the dispatcher, the vector registers that it declares (R14) and the
address of its first clause, of which the spec gives no place (log 7). -/
structure ImageFile where
  header : Nat
  len : Nat
  intact : Bool
  signer : Signer
  die : Nat
  vregs : Nat
  start : Nat
  deriving DecidableEq, Repr

/-- The configuration block (R464, R465): header, payload and signer as of an image; the package id, the least security versions of kinds 1 to 3,
up to four customer keys, the disabled cores (48 die + core), the core clock in MHz, the voltage setting. -/
structure ConfigBlock where
  header : Nat
  len : Nat
  intact : Bool
  signer : Signer
  pkgid : Nat
  minima : List Nat
  keys : List Nat
  disabled : List Nat
  clock : Nat
  volts : Nat
  deriving DecidableEq, Repr

/-- Bytes lo to hi of a header (R464). -/
def headerField (h lo hi : Nat) : Nat := h / 2 ^ (8 * lo) % 2 ^ (8 * (hi + 1 - lo))

def ImageFile.kind (x : ImageFile) : Nat := headerField x.header 4 5
def ImageFile.secver (x : ImageFile) : Nat := headerField x.header 8 11
def ImageFile.digest (x : ImageFile) : Nat := headerField x.header 16 79
def ConfigBlock.secver (x : ConfigBlock) : Nat := headerField x.header 8 11
def ConfigBlock.digest (x : ConfigBlock) : Nat := headerField x.header 16 79

/-- R464: a header's magic, its zero fields and its payload length are as the layout says. -/
def headerFits (h len : Nat) : Bool :=
  decide (headerField h 0 3 = 0x50564D31) && decide (headerField h 6 7 = 0) && decide (headerField h 12 15 = len) && decide (len ≤ 2 ^ 26) &&
    decide (headerField h 144 255 = 0) && decide (h < 2 ^ 2048)

/-- One step of the device: an instruction word that issues, or a step of the device itself. -/
inductive Instr where
  /-- NOP (R78). No operation; delays the split's next issue by its STALL count. -/
  | nop (f : Fields)
  /-- MOV (R90). Copies A to D with its tag decided by R35. -/
  | mov (f : Fields)
  /-- MOVK (R90). Writes A with 16-bit chunk k replaced by the immediate. -/
  | movk (f : Fields)
  /-- ADD (R80). Integer add, wrapping or saturating under .sat. -/
  | add (f : Fields)
  /-- SUB (R80). Integer subtract, wrapping or saturating under .sat. -/
  | sub (f : Fields)
  /-- MUL (R80). Integer multiply keeping the low w bits or clamping under .sat. -/
  | mul (f : Fields)
  /-- MULHI (R80). Upper w bits of the 2w-bit integer product. -/
  | mulhi (f : Fields)
  /-- MAD (R80). Exact integer a × b + c, clamped once under .sat. -/
  | mad (f : Fields)
  /-- DIV (R81). Integer division toward zero; division by zero writes X with cause 0x28. -/
  | div (f : Fields)
  /-- REM (R81). Integer remainder with the dividend's sign; zero divisor writes X. -/
  | rem (f : Fields)
  /-- MIN (R80). Lesser of two integers by TY signedness. -/
  | min (f : Fields)
  /-- MAX (R80). Greater of two integers by TY signedness. -/
  | max (f : Fields)
  /-- ABS (R80). Integer absolute value of a signed type. -/
  | abs (f : Fields)
  /-- NEG (R80). Integer negation of a signed type. -/
  | neg (f : Fields)
  /-- AND (R83). Bitwise AND of all 64 bits. -/
  | and (f : Fields)
  /-- OR (R83). Bitwise OR of all 64 bits. -/
  | or (f : Fields)
  /-- XOR (R83). Bitwise exclusive OR of all 64 bits. -/
  | xor (f : Fields)
  /-- NOT (R83). Bitwise complement of A. -/
  | not (f : Fields)
  /-- ANDN (R83). Computes A AND NOT B. -/
  | andn (f : Fields)
  /-- SHL (R84). Logical left shift within w bits. -/
  | shl (f : Fields)
  /-- SHR (R84). Logical right shift within w bits. -/
  | shr (f : Fields)
  /-- SAR (R84). Arithmetic right shift within w bits. -/
  | sar (f : Fields)
  /-- ROT (R84). Left rotation within w bits. -/
  | rot (f : Fields)
  /-- BFX (R86). Extracts a bit field selected by B. -/
  | bfx (f : Fields)
  /-- BFI (R86). Inserts A's low bits into C at the field selected by B. -/
  | bfi (f : Fields)
  /-- POPC (R85). Counts set bits within w bits. -/
  | popc (f : Fields)
  /-- CLZ (R85). Counts leading zeros within w bits. -/
  | clz (f : Fields)
  /-- CTZ (R85). Counts trailing zeros within w bits. -/
  | ctz (f : Fields)
  /-- BREV (R85). Reverses the order of w bits. -/
  | brev (f : Fields)
  /-- BSWAP (R85). Reverses the byte order of w bits. -/
  | bswap (f : Fields)
  /-- LEA (R87). Forms A plus scaled B modulo 2^64 without checking. -/
  | lea (f : Fields)
  /-- PDOT (R88). Exact packed dot product accumulated into C, clamped once under .sat. -/
  | pdot (f : Fields)
  /-- PRM (R89). Byte permute from a 16-byte pool built of A and B. -/
  | prm (f : Fields)
  /-- SRD (R93). Reads a special register at issue with tag V. -/
  | srd (f : Fields)
  /-- SWR (R93). Writes fcr, fsr or tvec, holding the warp for fcr and tvec writes. -/
  | swr (f : Fields)
  /-- CND (R95). Integer comparison producing a condition (1 V or 0 N). -/
  | cnd (f : Fields)
  /-- FCND (R95). Floating comparison producing a condition. -/
  | fcnd (f : Fields)
  /-- CMP (R95). Integer comparison producing a value 1 or 0 with tag V. -/
  | cmp (f : Fields)
  /-- FCMP (R95). Floating comparison producing a value. -/
  | fcmp (f : Fields)
  /-- GATE (R96). Passes A, or A's data under N, or B's X, by the tag of B. -/
  | gate (f : Fields)
  /-- MRG (R96). Selects A or B by the tag of A, discarding poison with .x. -/
  | mrg (f : Fields)
  /-- SEL (R96). Selects A, B or C by the tag of C. -/
  | sel (f : Fields)
  /-- TGET (R97). Writes the tag of A as 0, 1 or 2. -/
  | tget (f : Fields)
  /-- TSET (R97). Writes A's data with the tag chosen by MOD. -/
  | tset (f : Fields)
  /-- TCHK (R97). Copies A and raises POISON_CONSUMED for lanes whose A is X. -/
  | tchk (f : Fields)
  /-- CAND (R98). Conjunction of conditions by tag. -/
  | cand (f : Fields)
  /-- COR (R98). Disjunction of conditions by tag. -/
  | cor (f : Fields)
  /-- CNOT (R98). Negation of a condition by tag. -/
  | cnot (f : Fields)
  /-- FADD (R110). Floating add rounded once. -/
  | fadd (f : Fields)
  /-- FSUB (R110). Floating subtract rounded once. -/
  | fsub (f : Fields)
  /-- FMUL (R110). Floating multiply rounded once. -/
  | fmul (f : Fields)
  /-- FMA (R110). Fused multiply-add a × b + c rounded once. -/
  | fma (f : Fields)
  /-- FMS (R110). Fused a × b − c rounded once. -/
  | fms (f : Fields)
  /-- FNMA (R110). Fused −(a × b) + c rounded once. -/
  | fnma (f : Fields)
  /-- FNMS (R110). Fused −(a × b) − c rounded once. -/
  | fnms (f : Fields)
  /-- FDIV (R111). Correctly rounded division in the special-function unit. -/
  | fdiv (f : Fields)
  /-- FSQRT (R111). Correctly rounded square root in the special-function unit. -/
  | fsqrt (f : Fields)
  /-- FMIN (R114). minimumNumber of two floating operands. -/
  | fmin (f : Fields)
  /-- FMAX (R114). maximumNumber of two floating operands. -/
  | fmax (f : Fields)
  /-- FMINX (R114). IEEE minimum, propagating NaN. -/
  | fminx (f : Fields)
  /-- FMAXX (R114). IEEE maximum, propagating NaN. -/
  | fmaxx (f : Fields)
  /-- FABS (R115). Clears the sign bit. -/
  | fabs (f : Fields)
  /-- FNEG (R115). Inverts the sign bit. -/
  | fneg (f : Fields)
  /-- FCPS (R115). Replaces the sign bit from B by mode. -/
  | fcps (f : Fields)
  /-- FCLASS (R116). Writes a one-hot class mask of A. -/
  | fclass (f : Fields)
  /-- FRND (R112). Rounds to an integral value in the same format. -/
  | frnd (f : Fields)
  /-- FSCALE (R112). Computes a × 2^n rounded once. -/
  | fscale (f : Fields)
  /-- FEXP (R113). Returns the unbiased exponent of a. -/
  | fexp (f : Fields)
  /-- FMAN (R113). Returns the significand of a in [1, 2). -/
  | fman (f : Fields)
  /-- HDOT (R117). Exact packed half-width dot product accumulated and rounded once. -/
  | hdot (f : Fields)
  /-- CVT (R118). Converts between any two scalar types. -/
  | cvt (f : Fields)
  /-- CVTP (R121). Converts packed elements between adjacent widths. -/
  | cvtp (f : Fields)
  /-- CVTMX (R122). Quantises the split's lanes as an MX block, or expands MX elements. -/
  | cvtmx (f : Fields)
  /-- SFU (R125). Evaluates a special function rounded toward zero. -/
  | sfu (f : Fields)
  /-- BNSET (R132). Writes a Benes control word from three scalars. -/
  | bnset (f : Fields)
  /-- BNSET_GET (R132). Reads part K of a Benes control word. -/
  | bnsetGet (f : Fields)
  /-- BNPERM (R133). Permutes A across lanes through the Benes network. -/
  | bnperm (f : Fields)
  /-- BNC (R134). Computes a control word for requested sources in the routing unit. -/
  | bnc (f : Fields)
  /-- SHFL (R136). Shuffles A across lanes by mode and segment. -/
  | shfl (f : Fields)
  /-- SHFX (R136). Shuffle that nullifies lanes whose source is outside the split. -/
  | shfx (f : Fields)
  /-- VOTE (R138). Ballot, any, all or uniform vote over lane tags. -/
  | vote (f : Fields)
  /-- RED (R140). Reduces the split's lanes over a fixed binary tree. -/
  | red (f : Fields)
  /-- SCAN (R140). Prefix scan over a fixed binary tree. -/
  | scan (f : Fields)
  /-- BCAST (R137). Broadcasts one lane's word to the split. -/
  | bcast (f : Fields)
  /-- MATCH (R139). Mask of lanes holding equal values. -/
  | matchv (f : Fields)
  /-- ELECT (R139). Elects the lowest candidate lane. -/
  | elect (f : Fields)
  /-- LRANK (R139). Counts lower lanes whose A is V. -/
  | lrank (f : Fields)
  /-- BRA (R158). Per-lane branch by the tag of A, dividing the split. -/
  | bra (f : Fields)
  /-- BDV (R159). Per-lane compare-and-branch. -/
  | bdv (f : Fields)
  /-- BANY (R160). Transfers the whole split when any lane holds V. -/
  | bany (f : Fields)
  /-- BALL (R160). Transfers the whole split when every lane holds V. -/
  | ball (f : Fields)
  /-- BNONE (R160). Transfers the whole split when no lane holds V. -/
  | bnone (f : Fields)
  /-- JMP (R161). Sends each lane to its address in A. -/
  | jmp (f : Fields)
  /-- CALL (R162). Writes the return address and transfers the lanes. -/
  | call (f : Fields)
  /-- LOOP_SET (R163). Sets a loop counter, or skips the loop on a zero count. -/
  | loopSet (f : Fields)
  /-- LOOP (R163). Decrements the loop counter and repeats the body. -/
  | loop (f : Fields)
  /-- LEXIT (R164). Lets lanes leave a hardware loop early. -/
  | lexit (f : Fields)
  /-- WAIT (R165). Suspends the split until its counters fall to the given values. -/
  | wait (f : Fields)
  /-- YIELD (R166). Suspends the split until the quarter's next warp choice. -/
  | yield (f : Fields)
  /-- EXIT (R168). Ends the threads of lanes whose A is V. -/
  | exit (f : Fields)
  /-- ECALL (R169). Raises ECALL for every lane of the split. -/
  | ecall (f : Fields)
  /-- BRK (R169). Raises BREAK for every lane of the split. -/
  | brk (f : Fields)
  /-- GROW (R170). Requests growth of registers, tile store or tiles. -/
  | grow (f : Fields)
  /-- NAP (R167). Suspends the split for a number of cycles. -/
  | nap (f : Fields)
  /-- LD (R195). Loads from global memory per lane. -/
  | ld (f : Fields)
  /-- ST (R195). Stores to global memory per lane. -/
  | st (f : Fields)
  /-- LDL (R197). Loads from the block's tile store. -/
  | ldl (f : Fields)
  /-- STL (R197). Stores to the block's tile store. -/
  | stl (f : Fields)
  /-- LDC (R198). Loads from a cluster block's tile store. -/
  | ldc (f : Fields)
  /-- STC (R198). Stores to a cluster block's tile store. -/
  | stc (f : Fields)
  /-- LDQ (R199). Arms a load stream on a queue register. -/
  | ldq (f : Fields)
  /-- STQ (R201). Arms a store stream on a queue register. -/
  | stq (f : Fields)
  /-- LDA (R223). Acquire load at a scope. -/
  | lda (f : Fields)
  /-- STR (R224). Release store at a scope. -/
  | str (f : Fields)
  /-- PRF (R203). Prefetches lines to a cache level without faulting. -/
  | prf (f : Fields)
  /-- WINV (R204). Writes back and invalidates SW lines of a range below a scope. -/
  | winv (f : Fields)
  /-- WBK (R204). Writes back dirty SW bytes of a range below a scope. -/
  | wbk (f : Fields)
  /-- FENCE (R225). Suspends the split until its ordering conditions at the scope hold. -/
  | fence (f : Fields)
  /-- CHOPEN (R229). Opens an ordered channel to a memory die. -/
  | chopen (f : Fields)
  /-- CHST (R230). Stores through an ordered channel. -/
  | chst (f : Fields)
  /-- CHFENCE (R232). Waits until earlier channel stores are performed at package scope. -/
  | chfence (f : Fields)
  /-- CHCLOSE (R232). Drains and closes an ordered channel. -/
  | chclose (f : Fields)
  /-- STMC (R196). Stores to all four replicas of a replicated page. -/
  | stmc (f : Fields)
  /-- VOPEN (R327). Pins a published step and returns its handle. -/
  | vopen (f : Fields)
  /-- LDV (R328). Loads through a version handle from a published step. -/
  | ldv (f : Fields)
  /-- VPUB (R329). Requests publication of the region's working step. -/
  | vpub (f : Fields)
  /-- VCLOSE (R330). Closes a pin on a step. -/
  | vclose (f : Fields)
  /-- VINFO (R331). Reads one value of a versioned region. -/
  | vinfo (f : Fields)
  /-- CKPT (R337). Starts a checkpoint of the newest published step. -/
  | ckpt (f : Fields)
  /-- CKWAIT (R339). Waits for a checkpoint and returns its status. -/
  | ckwait (f : Fields)
  /-- ATOM (R246). Atomic read-modify-write at the die cache or owner L1. -/
  | atom (f : Fields)
  /-- CAS (R247). Compare and swap. -/
  | cas (f : Fields)
  /-- CAS2 (R247). Compare and swap of 16 bytes. -/
  | cas2 (f : Fields)
  /-- ATOML (R250). Atomic update in the tile store. -/
  | atoml (f : Fields)
  /-- FATOM (R246). Far atomic performed at the bank ALU. -/
  | fatom (f : Fields)
  /-- FRED (R248). Sector update of a run of elements in one bank operation. -/
  | fred (f : Fields)
  /-- BAR (R262). Arrives at the block barrier and waits for the phase. -/
  | bar (f : Fields)
  /-- BARR (R262). Arrives at the block barrier without waiting. -/
  | barr (f : Fields)
  /-- BARW (R262). Waits for the block barrier's phase to change. -/
  | barw (f : Fields)
  /-- CBAR (R263). Arrives at the cluster barrier and waits. -/
  | cbar (f : Fields)
  /-- MWAIT (R265). Watches locations until a condition holds or a limit passes. -/
  | mwait (f : Fields)
  /-- AOINIT (R258). Initialises an arrival object once no engine operation names it. -/
  | aoinit (f : Fields)
  /-- AOARR (R259). Arrives on an arrival object and returns the phase. -/
  | aoarr (f : Fields)
  /-- AOEXP (R259). Declares bytes owed to an arrival object. -/
  | aoexp (f : Fields)
  /-- AOWT (R260). Waits for an arrival object's phase and returns its status. -/
  | aowt (f : Fields)
  /-- TDSET (R270). Loads a tensor descriptor slot from the tile store. -/
  | tdset (f : Fields)
  /-- TDGET (R270). Reads a word of a descriptor slot. -/
  | tdget (f : Fields)
  /-- TCPGL (R276). Copies a box from global memory to the tile store. -/
  | tcpgl (f : Fields)
  /-- TCPLG (R276). Copies a box from the tile store to global memory. -/
  | tcplg (f : Fields)
  /-- TCPGG (R276). Copies a box between two global tensors. -/
  | tcpgg (f : Fields)
  /-- TCPMC (R279). Multicasts a box into tile stores of cluster blocks. -/
  | tcpmc (f : Fields)
  /-- TCPRED (R276). Adds a tile-store box into global memory at the bank ALUs. -/
  | tcpred (f : Fields)
  /-- TCPST (R280). Copies a box out and then writes a release stamp. -/
  | tcpst (f : Fields)
  /-- TCPPF (R281). Prefetches the lines of a box. -/
  | tcppf (f : Fields)
  /-- CBINIT (R284). Initialises a circular buffer. -/
  | cbinit (f : Fields)
  /-- CBACQ (R285). Acquires the next filled slot. -/
  | cbacq (f : Fields)
  /-- CBREL (R285). Releases an acquired slot. -/
  | cbrel (f : Fields)
  /-- CBRES (R285). Reserves the next free slot. -/
  | cbres (f : Fields)
  /-- CBCOM (R285). Marks a reserved slot filled. -/
  | cbcom (f : Fields)
  /-- ACZERO (R305). Zeroes enabled rows of an accumulator tile. -/
  | aczero (f : Fields)
  /-- MMX (R297). One matrix step into a tile. -/
  | mmx (f : Fields)
  /-- MMXL (R297). A counted sequence of matrix steps into a tile. -/
  | mmxl (f : Fields)
  /-- ACLD (R306). Loads a tile from memory or the tile store. -/
  | acld (f : Fields)
  /-- ACST (R306). Stores a tile to memory or the tile store. -/
  | acst (f : Fields)
  /-- ACRD (R307). Reads a tile column into a register. -/
  | acrd (f : Fields)
  /-- ACWR (R307). Writes a register into a tile column. -/
  | acwr (f : Fields)
  /-- ACEP (R308). Applies scale, bias and activation to a tile. -/
  | acep (f : Fields)
  /-- MXSTAT (R309). Reads and optionally clears a tile's status word. -/
  | mxstat (f : Fields)
  /-- RTBIND (R389). Sets the warp's ray-traversal context. -/
  | rtbind (f : Fields)
  /-- RTRACE (R390). Launches a ray query per lane. -/
  | rtrace (f : Fields)
  /-- RTRES (R391). Writes each lane's query result. -/
  | rtres (f : Fields)
  /-- RTCAND (R392). Delivers the next any-hit candidate. -/
  | rtcand (f : Fields)
  /-- RTACC (R392). Accepts or rejects the pending candidate. -/
  | rtacc (f : Fields)
  /-- RTBOX (R393). Tests each lane's ray against a box. -/
  | rtbox (f : Fields)
  /-- RTTRI (R393). Tests each lane's ray against a triangle. -/
  | rttri (f : Fields)
  /-- LHTINV (R398). Clears Leaf Hint Table partitions. -/
  | lhtinv (f : Fields)
  /-- LHTSTAT (R398). Reads a partition's Leaf Hint Table counters. -/
  | lhtstat (f : Fields)
  /-- MBRECV (R355). Takes the oldest mailbox packet. -/
  | mbrecv (f : Fields)
  /-- MBSEND (R356). Sends a packet to a die's mailbox. -/
  | mbsend (f : Fields)
  /-- SPAWN (R358). Submits a task node to the DWS. -/
  | spawn (f : Fields)
  /-- RGN (R357). Adds a dependence region to the pending set. -/
  | rgn (f : Fields)
  /-- RALLOC (R368). Requests Record Pool records per lane. -/
  | ralloc (f : Fields)
  /-- RSUB (R369). Submits held records to their nodes' queues. -/
  | rsub (f : Fields)
  /-- RBATCH (R371). Sets a node's batch size and timeout. -/
  | rbatch (f : Fields)
  /-- RFETCH (R372). Reads a batch record's address or the batch count. -/
  | rfetch (f : Fields)
  /-- RFREE (R372). Frees records. -/
  | rfree (f : Fields)
  /-- LVCOORD (R364). Reads a hierarchy coordinate or extent. -/
  | lvcoord (f : Fields)
  /-- HX (R411). Performs a planned halo exchange. -/
  | hx (f : Fields)
  /-- ARX (R413). All-reduce over a group. -/
  | arx (f : Fields)
  /-- AGX (R413). All-gather over a group. -/
  | agx (f : Fields)
  /-- RSX (R413). Reduce-scatter over a group. -/
  | rsx (f : Fields)
  /-- PLSTAT (R424). Reads a pool region's status word. -/
  | plstat (f : Fields)
  /-- PLACK (R424). Acknowledges a pool region loss, moving it to Held. -/
  | plack (f : Fields)
  /-- TRET (R435). Returns from a handler with retry, skip or to an address. -/
  | tret (f : Fields)
  /-- TFIX (R436). Writes a value into the trapped instruction's destination. -/
  | tfix (f : Fields)
  /-- CSRR (R437). Reads a supervisor register. -/
  | csrr (f : Fields)
  /-- CSRW (R437). Writes a supervisor register. -/
  | csrw (f : Fields)
  /-- PGMODE (R439). Changes a page's coherence mode. -/
  | pgmode (f : Fields)
  /-- PGREP (R440). Replicates a page into a replica set. -/
  | pgrep (f : Fields)
  /-- PGCOL (R441). Collapses a replicated page to one copy. -/
  | pgcol (f : Fields)
  /-- TLBINV (R442). Invalidates cached translations throughout the package. -/
  | tlbinv (f : Fields)
  /-- PREEMPT (R443). Saves a resident block into a save slot. -/
  | preempt (f : Fields)
  /-- RESUME (R445). Releases a held saved block to its node. -/
  | resume (f : Fields)
  /-- BLKKILL (R446). Kills a block or every block of a launch. -/
  | blkkill (f : Fields)
  /-- VLOG (R453). Writes a vlog entry to the Vesper log. -/
  | vlog (f : Fields)
  /-- UNASSIGNED_OPCODE (R64). A word with an unassigned opcode reaches issue and traps ILLEGAL_OPCODE. -/
  | unassignedOpcode (op : BitVec 9) (f : Fields)
  /-- EXTENSION_OPCODE (R66). An extension opcode reaches issue and traps EXT_EMULATE. -/
  | extensionOpcode (op : BitVec 9) (f : Fields)
  /-- CLAUSE_START (R46). A split at a clause position has its header checked and becomes ready once its wait fields hold. -/
  | clauseStart (w : Nat) (k : Nat)
  /-- WARP_CHOICE (R148). The quarter ends a warp's turn and chooses the next warp with a ready split. -/
  | warpChoice (core : Nat) (q : Nat)
  /-- STARVE_FORCE (R150). A split's starve count reaches 64 and the split becomes forced. -/
  | starveForce (w : Nat) (k : Nat)
  /-- RECONVERGENCE_HOLD_LIMIT (R152). A held split's rhold reaches 256 and its reconvergence hold ends. -/
  | reconvergenceHoldLimit (w : Nat) (k : Nat)
  /-- SUSPENDED_SPLIT_WAKE (R47). A suspended split's wait is satisfied and it continues at the next word. -/
  | suspendedSplitWake (w : Nat) (k : Nat)
  /-- LOAD_COMPLETE (R185). A load's data returns, its lanes are written and LD decrements. -/
  | loadComplete (op : Nat) (lanes : Mask)
  /-- STORE_PERFORMED (R195). A store or non-returning atomic is performed at its scope and leaves ST. -/
  | storePerformed (op : Nat) (lanes : Mask)
  /-- SFU_START (R128). An instruction leaves the special-function queue and starts in the unit. -/
  | sfuStart (op : Nat)
  /-- SFU_COMPLETE (R128). A special-function instruction completes and writes its results. -/
  | sfuComplete (op : Nat)
  /-- BNC_COMPLETE (R135). The routing unit writes bnN and D for a bnc. -/
  | bncComplete (op : Nat)
  /-- TDSET_COMPLETE (R270). A tdset completes and instructions naming the slot become ready. -/
  | tdsetComplete (op : Nat)
  /-- LOAD_STREAM_FETCH (R199). An armed load stream fetches its next element into the queue. -/
  | loadStreamFetch (w : Nat) (lane : Nat) (q : Nat)
  /-- COPY_ON_WRITE (R321). The Snapshot Engine obtains a working frame for the first write to a page in a step. -/
  | copyOnWrite (vdb : Nat)
  /-- VERSION_FULL (R322). A write stalled for a frame reaches the stall limit and traps. -/
  | versionFull (w : Nat) (k : Nat)
  /-- VPUB_SERVICE (R329). The home die serves a queued vpub and publishes the working step. -/
  | vpubService (op : Nat)
  /-- CHECKPOINT_MANIFEST_WRITE (R338). Once every shard is performed the manifest is written and the checkpoint completes. -/
  | checkpointManifestWrite (region : Nat)
  /-- COPY_COMPLETE (R278). A copy's writes are performed; its object or slot is updated and CP decrements. -/
  | copyComplete (op : Nat)
  /-- MULTICAST_DELIVERY (R279). Multicast data reaches a recipient and is delivered or dropped. -/
  | multicastDelivery (op : Nat) (rank : Nat)
  /-- MATRIX_OP_START (R302). A matrix operation leaves its queue and starts once the tile interlock allows. -/
  | matrixOpStart (op : Nat)
  /-- MATRIX_OP_COMPLETE (R311). A matrix operation completes, signals its object, writes D and decrements EX. -/
  | matrixOpComplete (op : Nat) (err : Nat)
  /-- RAY_QUERY_DONE (R390). A ray query leaves the running state, done or waiting. -/
  | rayQueryDone (w : Nat) (lane : Nat)
  /-- MONITOR_RECHECK (R266). A monitored lane rereads its location on invalidation or every 1,024 cycles. -/
  | monitorRecheck (w : Nat) (k : Nat)
  /-- MWAIT_LIMIT (R265). A monitored lane's cycle limit expires and it writes N. -/
  | mwaitLimit (w : Nat) (k : Nat)
  /-- NAP_EXPIRY (R167). A napping split's cycle count passes and it becomes ready. -/
  | napExpiry (w : Nat) (k : Nat)
  /-- GROW_GRANT (R171). Released resources let a waiting grow request be granted. -/
  | growGrant (core : Nat)
  /-- BLOCK_COMPLETE (R168). A block whose warps and operations have all ended releases its resources and tells the DWS. -/
  | blockComplete (blk : Nat)
  /-- NODE_MATCH (R359). A spawned node enters the Dependence Matcher once room exists. -/
  | nodeMatch (die : Nat)
  /-- BLOCK_DISPATCH (R361). The DWS places the next block of a ready node on a core. -/
  | blockDispatch (die : Nat)
  /-- NODE_RETIRE (R360). A node whose blocks have all ended retires and releases its dependents. -/
  | nodeRetire (die : Nat) (node : Nat)
  /-- MBSEND_DELIVERY (R356). A sent packet is written into the target mailbox once it has room. -/
  | mbsendDelivery (op : Nat)
  /-- MBRECV_RECEIVE (R355). A packet arrives for an outstanding mbrecv. -/
  | mbrecvReceive (die : Nat)
  /-- COLLECTIVE_COMPLETE (R416). A collective's result is written at a member and signalled. -/
  | collectiveComplete (op : Nat) (others : List Contrib)
  /-- WATCHDOG (R451). A warp issues nothing for the watchdog interval and a split traps. -/
  | watchdog (w : Nat)
  /-- FORWARDED_TRAFFIC (R287). Traffic held for a saved block is sent to its new core after resume. -/
  | forwardedTraffic (blk : Nat)
  /-- VERSION_HOME_SERVICE (R327). The region's home die serves a vopen, vclose, vinfo or ckpt request: it pins or unpins the step, reads the value or accepts the checkpoint, and the result returns and EX decrements. -/
  | versionHomeService (op : Nat)
  /-- RECORD_POOL_ARRIVAL (R369). An rsub, rfree or rbatch reaches the Record Pool controller, which commits, frees or re-parameterises records in arrival order. -/
  | recordPoolArrival (op : Nat)
  /-- EX_OPERATION_COMPLETE (R39). A counted operation without a completion step of its own (tdget, rtbox, rttri, rtres from the buffer, lhtstat, rfetch, lvcoord, plstat, plack) completes, writes its destination and leaves its counter. -/
  | exOperationComplete (op : Nat)
  /-- PAGE_REQUEST_POST (R474). A stalled access posts a page request once the ring has room. -/
  | pageRequestPost
  /-- PRQDONE (R474). System software writes prqdone and stalled accesses walk again. -/
  | prqdone (die : Nat) (value : Nat)
  /-- PAGE_REQUEST_GROUP_RESPONSE (R474). The host's page request response arrives and stalled accesses walk again. -/
  | pageRequestGroupResponse (die : Nat) (pasid : Nat) (va : Nat) (ok : Bool)
  /-- CHECKPOINT_PERIOD_ELAPSED (R340). The interval counter runs out its period, arming the next vpub to checkpoint. -/
  | checkpointPeriodElapsed (region : Nat)
  /-- GROW_FAIL (R172). With every block waiting, the youngest block's requests fail with N. -/
  | growFail
  /-- GRAPH_RESERVATION (R373). A graph's batch cores are reserved once free. -/
  | graphReservation
  /-- PRIORITY_PREEMPT (R362). The DWS pre-empts a lower-priority block for a waiting one. -/
  | priorityPreempt
  /-- BATCH_TIMEOUT (R370). A node's batch timer reaches its timeout and cuts every queued record. -/
  | batchTimeout
  /-- RALLOC_GRANT (R368). A waiting record request reaches the head and is granted whole. -/
  | rallocGrant
  /-- REPLAY_CHECK (R449). A quarter re-executes a queued instruction in an idle slot and compares. -/
  | replayCheck (quarter : Nat) (n : Nat) (mismatch : Bool)
  /-- DOORBELL (R462). A host doorbell write submits, rejects or discards a slot's packet. -/
  | doorbell (die : Nat) (slot : Nat)
  /-- HOST_PACKET_ENTRY (R462). A pending host packet enters the mailbox once an entry is free. -/
  | hostPacketEntry
  /-- HOST_CXL_MEM_ACCESS (R460). A host access over CXL.mem reaches device memory. -/
  | hostCxlMemAccess (write : Bool) (pa : Nat) (len : Nat) (value : Nat)
  /-- BISNP (R420). A back-invalidation snoop recalls a pool line and is answered. -/
  | bisnp (region : Nat) (off : Nat) (write : Bool) (value : Nat)
  /-- POOL_LOSS_EVENT (R421). A pool link or device loss puts regions into Lost at their loss point. -/
  | poolLossEvent (device : Nat) (cause : Nat)
  /-- POOL_RESPONSE_TIMEOUT (R421). A BISnp or CXL.mem response times out, putting a device's regions in Lost. -/
  | poolResponseTimeout (device : Nat)
  /-- REGION_CONFIGURE (R457). rcmd configure moves an Absent pool region to Active. -/
  | regionConfigure
  /-- REGION_REACTIVATE (R457). rcmd reactivate moves a Held pool region to Active. -/
  | regionReactivate
  /-- REGION_DECONFIGURE (R457). rcmd deconfigure writes back the region and makes it Absent. -/
  | regionDeconfigure
  /-- PEER_ACCESS_ARRIVAL (R405). A peer access arrives and is checked and performed or refused. -/
  | peerAccessArrival (out : Bool) (src : Nat) (kind : Nat) (op : Nat) (ty : BitVec 4) (pa : Nat) (len : Nat) (value : Nat) (cmp : Nat) (allowed : Bool)
  /-- PEER_ACCESS_TIMEOUT (R405). A peer access undelivered within the halo timeout fails. -/
  | peerAccessTimeout (op : Nat) (lanes : Mask)
  /-- UALINK_LINK_LOST (R404). A UALink port loses its link or takes an uncorrectable flit. -/
  | ualinkLinkLost (port : Nat)
  /-- HALO_BOX_DELIVERY (R411). A halo box arrives, is matched to its receive and written. -/
  | haloBoxDelivery (out : Bool) (peer : Nat) (xid : Nat) (len : Nat) (data : Nat)
  /-- HALO_TIMEOUT (R411). An unwritten halo box is dropped after the halo timeout. -/
  | haloTimeout (out : Bool) (peer : Nat) (xid : Nat)
  /-- COLLECTIVE_TIMEOUT (R415). A collective's group timeout expires at a member. -/
  | collectiveTimeout (op : Nat)
  /-- HARNESS_FLIT_LOST (R451). An uncorrectable protocol flit is lost on the Harness. -/
  | harnessFlitLost (pa : Nat) (owner : Bool)
  /-- SUSPECT_LINE_TIMEOUT (R451). The directory times out after 8,192 H-cycles and poisons a Suspect line. -/
  | suspectLineTimeout (pa : Nat)
  /-- VLOG_WINDOW_RESET (R453). A core's vlog window ends at a cyc multiple of 2^20. -/
  | vlogWindowReset (core : Nat)
  /-- VESPER_ENTRY_CAPTURE (R459). A load of word 0 of a log entry captures the whole entry. -/
  | vesperEntryCapture (thread : Nat) (log : Nat) (entry : Nat)
  /-- PKGID_WRITE (R455). A store to pkgid, ignored while any UALink port is enabled. -/
  | pkgidWrite (value : Nat)
  /-- HALOTMO_WRITE (R455). A store to halotmo, storing 0 as 1. -/
  | halotmoWrite (value : Nat)
  /-- ROUTE_TABLE_WRITE (R456). A store to a route entry changes routes for later packets. -/
  | routeTableWrite (pkg : Nat) (value : Nat)
  /-- RSGO (R458). A write of go starts a region restore unless one runs. -/
  | rsgo
  /-- REGION_RESTORE_DONE (R342). A region restore finishes and reports its state. -/
  | regionRestoreDone
  /-- REGISTER_WRITE (R454). A store to a device register without behaviour of its own. -/
  | registerWrite (off : Nat) (value : Nat)
  /-- READ_LOG (R471). Management command returning entries of a die's Vesper log. -/
  | readLog
  /-- READ_SAVED_LOG (R471). Management command returning entries of the log copy in flash. -/
  | readSavedLog
  /-- ATTEST (R472). Management command writing a signed attestation report. -/
  | attest
  /-- SET_POWER_CAP (R471). Management command setting the module power cap. -/
  | setPowerCap
  /-- RESET (R471). Management command starting a warm or cold reset. -/
  | reset
  /-- STATUS (R471). Management command returning bring-up status. -/
  | status
  /-- COLD_RESET (R467). Cold reset verifies images, trains links and releases the dies. -/
  | coldReset (cfg : ConfigBlock) (images : List ImageFile) (absent : Nat)
  /-- WARM_RESET (R467). Warm reset keeps HBM, logs and flash record and restarts dispatchers. -/
  | warmReset (images : List ImageFile)
  /-- POWER_POLL (R470). Every 1 ms the controller compares power and temperatures and throttles. -/
  | powerPoll (power : Nat) (temps : List Nat)
  /-- HBM_RECALIBRATION (R468). A stack whose temperature moved 5 °C is recalibrated in refresh windows. -/
  | hbmRecalibration (stack : Nat) (temp : Nat)
  /-- CXL_CACHE_SNOOP (R187). A CXL.cache snoop from the host for a host-memory line cached by the device is served and answered. -/
  | cxlCacheSnoop (off : Nat) (write : Bool) (value : Nat)
  /-- LINK_UP (R455). A UALink port or the pool port gains its link, and its linkst bit is set. -/
  | linkUp (port : Nat)
  deriving DecidableEq, Repr

end Sys2Proof
end

