-- ==== Sys2Proof/Decode.lean ====
section
/-!
DEFINITION. The decoder and the encoder of instruction words (R51, R62 to R66). Every 64-bit word decodes: an unassigned opcode and
an extension opcode are instructions with a meaning of their own (a trap), and field checks belong to the issue (R60). Only bytes too
few for a word are rejected, by name.
-/
namespace Sys2Proof

/-- The fields of a word beside its opcode: STALL [63:61], D [51:44], A [43:36], B [35:28], C [27:20], TY [19:16], MOD [15:0] (R51). -/
def fieldsOf (w : Word) : Fields :=
  { stall := w.extractLsb' 61 3, d := w.extractLsb' 44 8, a := w.extractLsb' 36 8, b := w.extractLsb' 28 8, c := w.extractLsb' 20 8,
    ty := w.extractLsb' 16 4, md := w.extractLsb' 0 16 }

/-- The opcode, bits [60:52] (R51). -/
def opcodeOf (w : Word) : BitVec 9 := w.extractLsb' 52 9

/-- A word from its opcode and fields (R51). -/
def wordOf (op : BitVec 9) (f : Fields) : Word := f.stall ++ op ++ f.d ++ f.a ++ f.b ++ f.c ++ f.ty ++ f.md

/-! ### One function for each row of the opcode table of R63; the number counts from the row's first opcode. -/

/-- Opcodes from 0x000 (R63). -/
def decodeInt (n : Nat) (f : Fields) : Option Instr :=
  match n with
  | 0 => some (.nop f)
  | 1 => some (.mov f)
  | 2 => some (.movk f)
  | 3 => some (.add f)
  | 4 => some (.sub f)
  | 5 => some (.mul f)
  | 6 => some (.mulhi f)
  | 7 => some (.mad f)
  | 8 => some (.div f)
  | 9 => some (.rem f)
  | 10 => some (.min f)
  | 11 => some (.max f)
  | 12 => some (.abs f)
  | 13 => some (.neg f)
  | _ => none

/-- Opcodes from 0x010 (R63). -/
def decodeLogic (n : Nat) (f : Fields) : Option Instr :=
  match n with
  | 0 => some (.and f)
  | 1 => some (.or f)
  | 2 => some (.xor f)
  | 3 => some (.not f)
  | 4 => some (.andn f)
  | 5 => some (.shl f)
  | 6 => some (.shr f)
  | 7 => some (.sar f)
  | 8 => some (.rot f)
  | 9 => some (.bfx f)
  | 10 => some (.bfi f)
  | 11 => some (.popc f)
  | 12 => some (.clz f)
  | 13 => some (.ctz f)
  | 14 => some (.brev f)
  | 15 => some (.bswap f)
  | 16 => some (.lea f)
  | 17 => some (.pdot f)
  | 18 => some (.prm f)
  | _ => none

/-- Opcodes from 0x028 (R63). -/
def decodeSpecial (n : Nat) (f : Fields) : Option Instr :=
  match n with
  | 0 => some (.srd f)
  | 1 => some (.swr f)
  | _ => none

/-- Opcodes from 0x030 (R63). -/
def decodeTag (n : Nat) (f : Fields) : Option Instr :=
  match n with
  | 0 => some (.cnd f)
  | 1 => some (.fcnd f)
  | 2 => some (.cmp f)
  | 3 => some (.fcmp f)
  | 4 => some (.gate f)
  | 5 => some (.mrg f)
  | 6 => some (.sel f)
  | 7 => some (.tget f)
  | 8 => some (.tset f)
  | 9 => some (.tchk f)
  | 10 => some (.cand f)
  | 11 => some (.cor f)
  | 12 => some (.cnot f)
  | _ => none

/-- Opcodes from 0x040 (R63). -/
def decodeFloat (n : Nat) (f : Fields) : Option Instr :=
  match n with
  | 0 => some (.fadd f)
  | 1 => some (.fsub f)
  | 2 => some (.fmul f)
  | 3 => some (.fma f)
  | 4 => some (.fms f)
  | 5 => some (.fnma f)
  | 6 => some (.fnms f)
  | 7 => some (.fdiv f)
  | 8 => some (.fsqrt f)
  | 9 => some (.fmin f)
  | 10 => some (.fmax f)
  | 11 => some (.fminx f)
  | 12 => some (.fmaxx f)
  | 13 => some (.fabs f)
  | 14 => some (.fneg f)
  | 15 => some (.fcps f)
  | 16 => some (.fclass f)
  | 17 => some (.frnd f)
  | 18 => some (.fscale f)
  | 19 => some (.fexp f)
  | 20 => some (.fman f)
  | 21 => some (.hdot f)
  | _ => none

/-- Opcodes from 0x060 (R63). -/
def decodeConvert (n : Nat) (f : Fields) : Option Instr :=
  match n with
  | 0 => some (.cvt f)
  | 1 => some (.cvtp f)
  | 2 => some (.cvtmx f)
  | 3 => some (.sfu f)
  | _ => none

/-- Opcodes from 0x070 (R63). -/
def decodeCross (n : Nat) (f : Fields) : Option Instr :=
  match n with
  | 0 => some (if f.md.getLsbD 3 then .bnsetGet f else .bnset f)
  | 1 => some (.bnperm f)
  | 2 => some (.bnc f)
  | 3 => some (.shfl f)
  | 4 => some (.shfx f)
  | 5 => some (.vote f)
  | 6 => some (.red f)
  | 7 => some (.scan f)
  | 8 => some (.bcast f)
  | 9 => some (.matchv f)
  | 10 => some (.elect f)
  | 11 => some (.lrank f)
  | _ => none

/-- Opcodes from 0x080 (R63). -/
def decodeControl (n : Nat) (f : Fields) : Option Instr :=
  match n with
  | 0 => some (.bra f)
  | 1 => some (.bdv f)
  | 2 => some (.bany f)
  | 3 => some (.ball f)
  | 4 => some (.bnone f)
  | 5 => some (.jmp f)
  | 6 => some (.call f)
  | 7 => some (if f.d.getLsbD 2 then .loopSet f else .loop f)
  | 8 => some (.lexit f)
  | 9 => some (.wait f)
  | 10 => some (.yield f)
  | 11 => some (.exit f)
  | 12 => some (.ecall f)
  | 13 => some (.brk f)
  | 14 => some (.grow f)
  | 15 => some (.nap f)
  | _ => none

/-- Opcodes from 0x100 (R63). -/
def decodeMem (n : Nat) (f : Fields) : Option Instr :=
  match n with
  | 0 => some (.ld f)
  | 1 => some (.st f)
  | 2 => some (.ldl f)
  | 3 => some (.stl f)
  | 4 => some (.ldc f)
  | 5 => some (.stc f)
  | 6 => some (.ldq f)
  | 7 => some (.stq f)
  | 8 => some (.lda f)
  | 9 => some (.str f)
  | 10 => some (.prf f)
  | 11 => some (.winv f)
  | 12 => some (.wbk f)
  | _ => none

/-- Opcodes from 0x10D (R63). -/
def decodeOrder (n : Nat) (f : Fields) : Option Instr :=
  match n with
  | 0 => some (.fence f)
  | 1 => some (.chopen f)
  | 2 => some (.chst f)
  | 3 => some (.chfence f)
  | 4 => some (.chclose f)
  | _ => none

/-- Opcodes from 0x112 (R63). -/
def decodeMulticast (n : Nat) (f : Fields) : Option Instr :=
  match n with
  | 0 => some (.stmc f)
  | _ => none

/-- Opcodes from 0x118 (R63). -/
def decodeVersion (n : Nat) (f : Fields) : Option Instr :=
  match n with
  | 0 => some (.vopen f)
  | 1 => some (.ldv f)
  | 2 => some (.vpub f)
  | 3 => some (.vclose f)
  | 4 => some (.vinfo f)
  | 5 => some (.ckpt f)
  | 6 => some (.ckwait f)
  | _ => none

/-- Opcodes from 0x120 (R63). -/
def decodeAtomic (n : Nat) (f : Fields) : Option Instr :=
  match n with
  | 0 => some (.atom f)
  | 1 => some (.cas f)
  | 2 => some (.cas2 f)
  | 3 => some (.atoml f)
  | 4 => some (.fatom f)
  | 5 => some (.fred f)
  | _ => none

/-- Opcodes from 0x130 (R63). -/
def decodeSync (n : Nat) (f : Fields) : Option Instr :=
  match n with
  | 0 => some (.bar f)
  | 1 => some (.barr f)
  | 2 => some (.barw f)
  | 3 => some (.cbar f)
  | 4 => some (.mwait f)
  | 5 => some (.aoinit f)
  | 6 => some (.aoarr f)
  | 7 => some (.aoexp f)
  | 8 => some (.aowt f)
  | _ => none

/-- Opcodes from 0x140 (R63). -/
def decodeCopy (n : Nat) (f : Fields) : Option Instr :=
  match n with
  | 0 => some (.tdset f)
  | 1 => some (.tdget f)
  | 2 => some (.tcpgl f)
  | 3 => some (.tcplg f)
  | 4 => some (.tcpgg f)
  | 5 => some (.tcpmc f)
  | 6 => some (.tcpred f)
  | 7 => some (.tcpst f)
  | 8 => some (.tcppf f)
  | 9 => some (.cbinit f)
  | 10 => some (.cbacq f)
  | 11 => some (.cbrel f)
  | 12 => some (.cbres f)
  | 13 => some (.cbcom f)
  | _ => none

/-- Opcodes from 0x180 (R63). -/
def decodeMatrix (n : Nat) (f : Fields) : Option Instr :=
  match n with
  | 0 => some (.aczero f)
  | 1 => some (.mmx f)
  | 2 => some (.mmxl f)
  | 3 => some (.acld f)
  | 4 => some (.acst f)
  | 5 => some (.acrd f)
  | 6 => some (.acwr f)
  | 7 => some (.acep f)
  | 8 => some (.mxstat f)
  | _ => none

/-- Opcodes from 0x190 (R63). -/
def decodeRay (n : Nat) (f : Fields) : Option Instr :=
  match n with
  | 0 => some (.rtbind f)
  | 1 => some (.rtrace f)
  | 2 => some (.rtres f)
  | 3 => some (.rtcand f)
  | 4 => some (.rtacc f)
  | 5 => some (.rtbox f)
  | 6 => some (.rttri f)
  | 7 => some (.lhtinv f)
  | 8 => some (.lhtstat f)
  | _ => none

/-- Opcodes from 0x1A0 (R63). -/
def decodeLaunch (n : Nat) (f : Fields) : Option Instr :=
  match n with
  | 0 => some (.mbrecv f)
  | 1 => some (.mbsend f)
  | 2 => some (.spawn f)
  | 3 => some (.rgn f)
  | 4 => some (.ralloc f)
  | 5 => some (.rsub f)
  | 6 => some (.rbatch f)
  | 7 => some (.rfetch f)
  | 8 => some (.rfree f)
  | 9 => some (.lvcoord f)
  | _ => none

/-- Opcodes from 0x1B0 (R63). -/
def decodeFabric (n : Nat) (f : Fields) : Option Instr :=
  match n with
  | 0 => some (.hx f)
  | 1 => some (.arx f)
  | 2 => some (.agx f)
  | 3 => some (.rsx f)
  | 4 => some (.plstat f)
  | 5 => some (.plack f)
  | _ => none

/-- Opcodes from 0x1C0 (R63). -/
def decodeSystem (n : Nat) (f : Fields) : Option Instr :=
  match n with
  | 0 => some (.tret f)
  | 1 => some (.tfix f)
  | 2 => some (.csrr f)
  | 3 => some (.csrw f)
  | 4 => some (.pgmode f)
  | 5 => some (.pgrep f)
  | 6 => some (.pgcol f)
  | 7 => some (.tlbinv f)
  | 8 => some (.preempt f)
  | 9 => some (.resume f)
  | 10 => some (.blkkill f)
  | 11 => some (.vlog f)
  | _ => none

/-- The row of an opcode, by the first opcodes of the rows of R63. -/
def decodeRow (n : Nat) (f : Fields) : Option Instr :=
  if n < 0x010 then decodeInt (n - 0x000) f
  else if n < 0x028 then decodeLogic (n - 0x010) f
  else if n < 0x030 then decodeSpecial (n - 0x028) f
  else if n < 0x040 then decodeTag (n - 0x030) f
  else if n < 0x060 then decodeFloat (n - 0x040) f
  else if n < 0x070 then decodeConvert (n - 0x060) f
  else if n < 0x080 then decodeCross (n - 0x070) f
  else if n < 0x100 then decodeControl (n - 0x080) f
  else if n < 0x10D then decodeMem (n - 0x100) f
  else if n < 0x112 then decodeOrder (n - 0x10D) f
  else if n < 0x118 then decodeMulticast (n - 0x112) f
  else if n < 0x120 then decodeVersion (n - 0x118) f
  else if n < 0x130 then decodeAtomic (n - 0x120) f
  else if n < 0x140 then decodeSync (n - 0x130) f
  else if n < 0x180 then decodeCopy (n - 0x140) f
  else if n < 0x190 then decodeMatrix (n - 0x180) f
  else if n < 0x1A0 then decodeRay (n - 0x190) f
  else if n < 0x1B0 then decodeLaunch (n - 0x1A0) f
  else if n < 0x1C0 then decodeFabric (n - 0x1B0) f
  else decodeSystem (n - 0x1C0) f

/-- The instruction of an opcode and its fields: assigned (R63), extension (R66), or unassigned (R64). -/
def decodeOp (op : BitVec 9) (f : Fields) : Instr :=
  if op.toNat ≥ 0x1E0 then .extensionOpcode op f
  else (decodeRow op.toNat f).getD (.unassignedOpcode op f)

/-- The instruction of a 64-bit word. -/
def decode (w : Word) : Instr := decodeOp (opcodeOf w) (fieldsOf w)

/-- Why bytes are no instruction. -/
inductive DecodeError where
  /-- Fewer than eight bytes: every instruction is one 64-bit word (R42). -/
  | truncated
  deriving DecidableEq, Repr

/-- Eight bytes as a word, the first byte the least significant (R3). -/
def wordOfBytes (b0 b1 b2 b3 b4 b5 b6 b7 : Byte) : Word := b7 ++ b6 ++ b5 ++ b4 ++ b3 ++ b2 ++ b1 ++ b0

/-- The instruction at the head of a list of bytes, with the bytes that follow. -/
def decodeBytes : List Byte → Except DecodeError (Instr × List Byte)
  | b0 :: b1 :: b2 :: b3 :: b4 :: b5 :: b6 :: b7 :: r => .ok (decode (wordOfBytes b0 b1 b2 b3 b4 b5 b6 b7), r)
  | _ => .error .truncated

/-- The instruction the decoder reads from a word numbered as the opcode table numbers it: one 64-bit word, the bits above nbits zero.
-/
def decodeTableWord (nbits w : Nat) : Option Instr :=
  let v : Word := BitVec.ofNat 64 (w % 2 ^ nbits)
  match decodeBytes ((List.range 8).map (fun i => v.extractLsb' (8 * i) 8)) with
  | .ok r => some r.1
  | .error _ => none

/-! ### The encoder -/

/-- The opcode and the fields of an instruction; none for a step of the device, which is no word. -/
def opFields : Instr → Option (BitVec 9 × Fields)
  | .nop f => some (0x000, f)
  | .mov f => some (0x001, f)
  | .movk f => some (0x002, f)
  | .add f => some (0x003, f)
  | .sub f => some (0x004, f)
  | .mul f => some (0x005, f)
  | .mulhi f => some (0x006, f)
  | .mad f => some (0x007, f)
  | .div f => some (0x008, f)
  | .rem f => some (0x009, f)
  | .min f => some (0x00A, f)
  | .max f => some (0x00B, f)
  | .abs f => some (0x00C, f)
  | .neg f => some (0x00D, f)
  | .and f => some (0x010, f)
  | .or f => some (0x011, f)
  | .xor f => some (0x012, f)
  | .not f => some (0x013, f)
  | .andn f => some (0x014, f)
  | .shl f => some (0x015, f)
  | .shr f => some (0x016, f)
  | .sar f => some (0x017, f)
  | .rot f => some (0x018, f)
  | .bfx f => some (0x019, f)
  | .bfi f => some (0x01A, f)
  | .popc f => some (0x01B, f)
  | .clz f => some (0x01C, f)
  | .ctz f => some (0x01D, f)
  | .brev f => some (0x01E, f)
  | .bswap f => some (0x01F, f)
  | .lea f => some (0x020, f)
  | .pdot f => some (0x021, f)
  | .prm f => some (0x022, f)
  | .srd f => some (0x028, f)
  | .swr f => some (0x029, f)
  | .cnd f => some (0x030, f)
  | .fcnd f => some (0x031, f)
  | .cmp f => some (0x032, f)
  | .fcmp f => some (0x033, f)
  | .gate f => some (0x034, f)
  | .mrg f => some (0x035, f)
  | .sel f => some (0x036, f)
  | .tget f => some (0x037, f)
  | .tset f => some (0x038, f)
  | .tchk f => some (0x039, f)
  | .cand f => some (0x03A, f)
  | .cor f => some (0x03B, f)
  | .cnot f => some (0x03C, f)
  | .fadd f => some (0x040, f)
  | .fsub f => some (0x041, f)
  | .fmul f => some (0x042, f)
  | .fma f => some (0x043, f)
  | .fms f => some (0x044, f)
  | .fnma f => some (0x045, f)
  | .fnms f => some (0x046, f)
  | .fdiv f => some (0x047, f)
  | .fsqrt f => some (0x048, f)
  | .fmin f => some (0x049, f)
  | .fmax f => some (0x04A, f)
  | .fminx f => some (0x04B, f)
  | .fmaxx f => some (0x04C, f)
  | .fabs f => some (0x04D, f)
  | .fneg f => some (0x04E, f)
  | .fcps f => some (0x04F, f)
  | .fclass f => some (0x050, f)
  | .frnd f => some (0x051, f)
  | .fscale f => some (0x052, f)
  | .fexp f => some (0x053, f)
  | .fman f => some (0x054, f)
  | .hdot f => some (0x055, f)
  | .cvt f => some (0x060, f)
  | .cvtp f => some (0x061, f)
  | .cvtmx f => some (0x062, f)
  | .sfu f => some (0x063, f)
  | .bnset f => some (0x070, f)
  | .bnsetGet f => some (0x070, f)
  | .bnperm f => some (0x071, f)
  | .bnc f => some (0x072, f)
  | .shfl f => some (0x073, f)
  | .shfx f => some (0x074, f)
  | .vote f => some (0x075, f)
  | .red f => some (0x076, f)
  | .scan f => some (0x077, f)
  | .bcast f => some (0x078, f)
  | .matchv f => some (0x079, f)
  | .elect f => some (0x07A, f)
  | .lrank f => some (0x07B, f)
  | .bra f => some (0x080, f)
  | .bdv f => some (0x081, f)
  | .bany f => some (0x082, f)
  | .ball f => some (0x083, f)
  | .bnone f => some (0x084, f)
  | .jmp f => some (0x085, f)
  | .call f => some (0x086, f)
  | .loopSet f => some (0x087, f)
  | .loop f => some (0x087, f)
  | .lexit f => some (0x088, f)
  | .wait f => some (0x089, f)
  | .yield f => some (0x08A, f)
  | .exit f => some (0x08B, f)
  | .ecall f => some (0x08C, f)
  | .brk f => some (0x08D, f)
  | .grow f => some (0x08E, f)
  | .nap f => some (0x08F, f)
  | .ld f => some (0x100, f)
  | .st f => some (0x101, f)
  | .ldl f => some (0x102, f)
  | .stl f => some (0x103, f)
  | .ldc f => some (0x104, f)
  | .stc f => some (0x105, f)
  | .ldq f => some (0x106, f)
  | .stq f => some (0x107, f)
  | .lda f => some (0x108, f)
  | .str f => some (0x109, f)
  | .prf f => some (0x10A, f)
  | .winv f => some (0x10B, f)
  | .wbk f => some (0x10C, f)
  | .fence f => some (0x10D, f)
  | .chopen f => some (0x10E, f)
  | .chst f => some (0x10F, f)
  | .chfence f => some (0x110, f)
  | .chclose f => some (0x111, f)
  | .stmc f => some (0x112, f)
  | .vopen f => some (0x118, f)
  | .ldv f => some (0x119, f)
  | .vpub f => some (0x11A, f)
  | .vclose f => some (0x11B, f)
  | .vinfo f => some (0x11C, f)
  | .ckpt f => some (0x11D, f)
  | .ckwait f => some (0x11E, f)
  | .atom f => some (0x120, f)
  | .cas f => some (0x121, f)
  | .cas2 f => some (0x122, f)
  | .atoml f => some (0x123, f)
  | .fatom f => some (0x124, f)
  | .fred f => some (0x125, f)
  | .bar f => some (0x130, f)
  | .barr f => some (0x131, f)
  | .barw f => some (0x132, f)
  | .cbar f => some (0x133, f)
  | .mwait f => some (0x134, f)
  | .aoinit f => some (0x135, f)
  | .aoarr f => some (0x136, f)
  | .aoexp f => some (0x137, f)
  | .aowt f => some (0x138, f)
  | .tdset f => some (0x140, f)
  | .tdget f => some (0x141, f)
  | .tcpgl f => some (0x142, f)
  | .tcplg f => some (0x143, f)
  | .tcpgg f => some (0x144, f)
  | .tcpmc f => some (0x145, f)
  | .tcpred f => some (0x146, f)
  | .tcpst f => some (0x147, f)
  | .tcppf f => some (0x148, f)
  | .cbinit f => some (0x149, f)
  | .cbacq f => some (0x14A, f)
  | .cbrel f => some (0x14B, f)
  | .cbres f => some (0x14C, f)
  | .cbcom f => some (0x14D, f)
  | .aczero f => some (0x180, f)
  | .mmx f => some (0x181, f)
  | .mmxl f => some (0x182, f)
  | .acld f => some (0x183, f)
  | .acst f => some (0x184, f)
  | .acrd f => some (0x185, f)
  | .acwr f => some (0x186, f)
  | .acep f => some (0x187, f)
  | .mxstat f => some (0x188, f)
  | .rtbind f => some (0x190, f)
  | .rtrace f => some (0x191, f)
  | .rtres f => some (0x192, f)
  | .rtcand f => some (0x193, f)
  | .rtacc f => some (0x194, f)
  | .rtbox f => some (0x195, f)
  | .rttri f => some (0x196, f)
  | .lhtinv f => some (0x197, f)
  | .lhtstat f => some (0x198, f)
  | .mbrecv f => some (0x1A0, f)
  | .mbsend f => some (0x1A1, f)
  | .spawn f => some (0x1A2, f)
  | .rgn f => some (0x1A3, f)
  | .ralloc f => some (0x1A4, f)
  | .rsub f => some (0x1A5, f)
  | .rbatch f => some (0x1A6, f)
  | .rfetch f => some (0x1A7, f)
  | .rfree f => some (0x1A8, f)
  | .lvcoord f => some (0x1A9, f)
  | .hx f => some (0x1B0, f)
  | .arx f => some (0x1B1, f)
  | .agx f => some (0x1B2, f)
  | .rsx f => some (0x1B3, f)
  | .plstat f => some (0x1B4, f)
  | .plack f => some (0x1B5, f)
  | .tret f => some (0x1C0, f)
  | .tfix f => some (0x1C1, f)
  | .csrr f => some (0x1C2, f)
  | .csrw f => some (0x1C3, f)
  | .pgmode f => some (0x1C4, f)
  | .pgrep f => some (0x1C5, f)
  | .pgcol f => some (0x1C6, f)
  | .tlbinv f => some (0x1C7, f)
  | .preempt f => some (0x1C8, f)
  | .resume f => some (0x1C9, f)
  | .blkkill f => some (0x1CA, f)
  | .vlog f => some (0x1CB, f)
  | .unassignedOpcode op f => some (op, f)
  | .extensionOpcode op f => some (op, f)
  | .clauseStart _ _ => none
  | .warpChoice _ _ => none
  | .starveForce _ _ => none
  | .reconvergenceHoldLimit _ _ => none
  | .suspendedSplitWake _ _ => none
  | .loadComplete _ _ => none
  | .storePerformed _ _ => none
  | .sfuStart _ => none
  | .sfuComplete _ => none
  | .bncComplete _ => none
  | .tdsetComplete _ => none
  | .loadStreamFetch _ _ _ => none
  | .copyOnWrite _ => none
  | .versionFull _ _ => none
  | .vpubService _ => none
  | .checkpointManifestWrite _ => none
  | .copyComplete _ => none
  | .multicastDelivery _ _ => none
  | .matrixOpStart _ => none
  | .matrixOpComplete _ _ => none
  | .rayQueryDone _ _ => none
  | .monitorRecheck _ _ => none
  | .mwaitLimit _ _ => none
  | .napExpiry _ _ => none
  | .growGrant _ => none
  | .blockComplete _ => none
  | .nodeMatch _ => none
  | .blockDispatch _ => none
  | .nodeRetire _ _ => none
  | .mbsendDelivery _ => none
  | .mbrecvReceive _ => none
  | .collectiveComplete _ _ => none
  | .watchdog _ => none
  | .forwardedTraffic _ => none
  | .versionHomeService _ => none
  | .recordPoolArrival _ => none
  | .exOperationComplete _ => none
  | .pageRequestPost => none
  | .prqdone _ _ => none
  | .pageRequestGroupResponse _ _ _ _ => none
  | .checkpointPeriodElapsed _ => none
  | .growFail => none
  | .graphReservation => none
  | .priorityPreempt => none
  | .batchTimeout => none
  | .rallocGrant => none
  | .replayCheck _ _ _ => none
  | .doorbell _ _ => none
  | .hostPacketEntry => none
  | .hostCxlMemAccess _ _ _ _ => none
  | .bisnp _ _ _ _ => none
  | .poolLossEvent _ _ => none
  | .poolResponseTimeout _ => none
  | .regionConfigure => none
  | .regionReactivate => none
  | .regionDeconfigure => none
  | .peerAccessArrival _ _ _ _ _ _ _ _ _ _ => none
  | .peerAccessTimeout _ _ => none
  | .ualinkLinkLost _ => none
  | .haloBoxDelivery _ _ _ _ _ => none
  | .haloTimeout _ _ _ => none
  | .collectiveTimeout _ => none
  | .harnessFlitLost _ _ => none
  | .suspectLineTimeout _ => none
  | .vlogWindowReset _ => none
  | .vesperEntryCapture _ _ _ => none
  | .pkgidWrite _ => none
  | .halotmoWrite _ => none
  | .routeTableWrite _ _ => none
  | .rsgo => none
  | .regionRestoreDone => none
  | .registerWrite _ _ => none
  | .readLog => none
  | .readSavedLog => none
  | .attest => none
  | .setPowerCap => none
  | .reset => none
  | .status => none
  | .coldReset _ _ _ => none
  | .warmReset _ => none
  | .powerPoll _ _ => none
  | .hbmRecalibration _ _ => none
  | .cxlCacheSnoop _ _ _ => none
  | .linkUp _ => none

/-- The word of an instruction. -/
def encode (i : Instr) : Option Word := (opFields i).map (fun e => wordOf e.1 e.2)

end Sys2Proof
end

