-- ==== Sys2Proof/Config.lean ====
section
/-!
DEFINITION. What the Fjarul S4 fixes, and the free values: constants without a body, of which nothing can be proved. A free value
is read only where the outcomes it chooses between differ.
-/
namespace Sys2Proof.Config

/-- R10, R11: compute dies of the package. -/
def dies : Nat := 4
/-- R13: cores of a compute die. -/
def coresPerDie : Nat := 48
/-- R16: quarters of a core. -/
def quarters : Nat := 4
/-- R27: warp slots of a quarter. -/
def slotsPerQuarter : Nat := 16
/-- R17: warp-registers of a quarter. -/
def regsPerQuarter : Nat := 1024
/-- R27: resident blocks of a core. -/
def blocksPerCore : Nat := 32
/-- R27: tile-store bytes of a core. -/
def tileStore : Nat := 524288
/-- R27: accumulator tiles of a core. -/
def accTiles : Nat := 192
/-- R27: arrival objects of a core. -/
def arrivalObjects : Nat := 64
/-- R27: circular buffers of a core. -/
def circularBuffers : Nat := 32

/-- FREE VALUE (log 9). Which of several words a register read that comes before a pending write has landed returns (R41, R58):
the choice number and the count of words to choose among. The read takes the remainder. -/
opaque earlyRead : Nat → Nat

/-- FREE VALUE (log 10). Which of the translations of an address, the fresh one and the cached ones that differ from it, an access uses
(R180); which of the words of a code address, the present one and those of the past, a fetch finds (R50). The reader takes the remainder. -/
opaque staleTranslation : Nat → Nat

/-- FREE VALUE (log 20). Whether a cached sector of a SW page has been evicted before the access (R191, R193). -/
opaque evicted : Nat → Bool

/-- FREE VALUE (log 20). The set of a die cache that a line occupies (R193, R448); the reader takes it modulo 4,096. -/
opaque dcSet : Nat → Nat

/-- FREE VALUE (log 77). Whether a peer refuses a write-back of dirty bytes to its memory (R405), for the choice number. -/
opaque peerRefuses : Nat → Bool

/-- FREE VALUE (log 47). Whether an operation of a dual block differs from its shadow's (R450), for the choice number. -/
opaque dualMismatch : Nat → Bool

/-- FREE VALUE (log 29). Which of the pieces of an access still to be performed comes next, for the choice number: the reader takes the
remainder (R190, R196, R206). -/
opaque nextPiece : Nat → Nat

/-- FREE VALUE (log 9). A word of which the spec gives no value, for the choice number. -/
opaque freeWord : Nat → Word

/-- FREE VALUE (log 9). A byte of memory whose contents are no longer defined, for the choice number (R441). -/
opaque freeByte : Nat → Byte

/-- FREE VALUE (log 9). The L2 bank of a physical address, of which the spec gives no mapping; the reader takes it modulo 32. -/
opaque bankOf : Nat → Nat

/-- FREE VALUE (log 11). The SHA-512 digest of bytes, and the Ed25519 signature of a digest under the device identity key (R338, R466,
R472): functions that the spec takes from outside and a key that no agent knows. -/
opaque digest : List Byte → Nat
opaque sign : Nat → Nat

/-- FREE VALUE (log 12). The words of the CXL.io configuration space, of which the spec gives no contents (R460). -/
opaque configSpace : Nat → Word

/-- FREE VALUE (log 78). The errors that the units of a memory die have corrected (R452), for the choice number: unit, address, count. -/
opaque corrected : Nat → List (Nat × Nat × Nat)

/-- FREE VALUE (log 39). The stacks, modules and ports that fail training in a cold reset that the command mailbox starts (R467, R468, R471), for the
choice number. -/
opaque trainFails : Nat → Nat

/-- FREE VALUE (log 19). The sign of a box-test quotient that is exactly zero, for the bits of the bound, the origin and the direction (R382). -/
opaque zeroSign : Nat → Nat → Nat → Bool
/-- FREE VALUE (log 12). The bytes of a pool device, of which the spec gives no figure (R457). -/
opaque poolSize : Nat → Nat

/-- FREE VALUE (log 11). Whether a value is a valid signature of a digest by the identity key of another package (R342). -/
opaque otherSigned : Nat → Nat → Bool

/-- FREE VALUE (log 11). The identity public key (R466). -/
opaque identity : Nat

end Sys2Proof.Config
end

