-- ==== Sys2Proof/Machine/Store.lean ====
section
/-!
DEFINITION. Sparse stores: lists of (key, value) pairs in one canonical form. Keys rise strictly and no entry equals the value
an unlisted key reads as, so that equal contents are equal data. Registers, memory and tables are stores.
-/
namespace Sys2Proof.Machine

variable {β : Type}

/-- The value at key k; an unlisted key reads as d. -/
def sget (d : β) : List (Nat × β) → Nat → β
  | [], _ => d
  | (k', v') :: r, k => if k = k' then v' else if k < k' then d else sget d r k

/-- Drops the leading entries whose keys are at most k. -/
def sdrop (k : Nat) : List (Nat × β) → List (Nat × β)
  | [] => []
  | (k', v') :: r => if k' ≤ k then sdrop k r else (k', v') :: r

/-- Writes v at key k, keeping the canonical form: writing d removes the entry. -/
def sset [DecidableEq β] (d : β) : List (Nat × β) → Nat → β → List (Nat × β)
  | [], k, v => if v = d then [] else [(k, v)]
  | (k', v') :: r, k, v =>
    if k < k' then (if v = d then (k', v') :: r else (k, v) :: (k', v') :: r)
    else if k = k' then (if v = d then sdrop k r else (k, v) :: r)
    else (k', v') :: sset d r k v

/-- Every key of the list is greater than k. -/
def sabove (k : Nat) : List (Nat × β) → Bool
  | [] => true
  | (k', _) :: r => decide (k < k') && sabove k r

/-- The canonical form: keys strictly rising, no entry equal to the default d. -/
def swf [DecidableEq β] (d : β) : List (Nat × β) → Bool
  | [] => true
  | (k, v) :: r => decide (v ≠ d) && sabove k r && swf d r

/-- Removes every entry whose key fails the test. -/
def sfilter (p : Nat → Bool) (m : List (Nat × β)) : List (Nat × β) := m.filter (fun e => p e.1)

/-- Writes a list of (key, value) pairs, the first pair first. -/
def ssetAll [DecidableEq β] (d : β) (m : List (Nat × β)) (ws : List (Nat × β)) : List (Nat × β) :=
  ws.foldl (fun m e => sset d m e.1 e.2) m

/-- Replaces the entries with keys from lo to lo + n - 1 by those of xs, whose keys rise within that range. -/
def sreplace [DecidableEq β] (d : β) (m : List (Nat × β)) (lo n : Nat) (xs : List (Nat × β)) : List (Nat × β) :=
  m.filter (fun e => decide (e.1 < lo)) ++ xs.filter (fun e => decide (e.2 ≠ d)) ++ m.filter (fun e => decide (lo + n ≤ e.1))

end Sys2Proof.Machine
end

