-- ==== Sys2Proof/Machine/State.lean ====
section
/-!
DEFINITION. The state of the Fjarul S4 package as plain data, the reasons a step can stop, and the state after reset.
Registers, memory and tables are sparse stores (Machine/Store.lean). A warp is named w = 32 * block + warp number, so that a
block that moves to another core takes its registers with it unmoved (R28, R32).
-/
namespace Sys2Proof.Machine

/-- What stops the machine. -/
inductive Fault where
  /-- Raised by step when the package has no power after a thermal trip (R470). The spec removes power from the compute dies and
  the HBM; nothing runs until power is applied by a cold reset, which the step COLD_RESET is. Safe. -/
  | poweredOff
  deriving DecidableEq, Repr

/-- What the model declines to give a meaning. -/
inductive Refusal where
  /-- Raised by an arm of exec that has no meaning yet, with the mnemonic of its row. Safe. -/
  | notModelled (mnemonic : String)
  deriving DecidableEq, Repr

/-- Why a split is suspended (R47), beside the wait fields of a header. -/
inductive Wait where
  /-- A counter of the class reads 63 (R39). -/
  | cap (c : Counter)
  /-- Operand queues hold too few entries, or store queues are full (R199, R201): queue and count, queues. -/
  | queue (need : List (Nat × Nat)) (full : List Nat)
  /-- `wait`: each counter is at most the value given, 15 being no wait (R165). -/
  | counters (ld st cp ex : Nat)
  /-- `yield` and `nap 0`: until the quarter's next warp choice (R166). -/
  | choice
  /-- `nap`: until the core's cycle count reaches the value (R167). -/
  | nap (cyc : Nat)
  /-- `grow` (R170): kind, requested total. -/
  | grow (kind total : Nat)
  /-- An outstanding operation completes; its completion continues the split (R434, R355). -/
  | op (id : Nat)
  /-- A page becomes resident (R178, R474): die, whether the host answers, space, addresses of the stalled accesses, access kind of R474. -/
  | page (die : Nat) (host : Bool) (space : Nat) (vas : List Nat) (kind : Nat)
  /-- A working frame is obtained for each page to be written (R321, R322): addresses of VDBs with the lane and the address that need
  them (lane 32 for every lane), and the cycle at which the stall began. -/
  | frame (addrs : List (Nat × Nat × Nat)) (since : Nat)
  /-- `fence` (R225): order, scope. -/
  | fence (ord scope : Nat)
  /-- `chfence` and `chclose` (R232): channel, whether it closes, operations waited for. -/
  | channel (k : Nat) (close : Bool) (ids : List Nat)
  /-- `bar` (R262): object, the phase awaited, scope. -/
  | arrival (obj : Nat) (phase : Bool) (scope : Nat)
  /-- `aowt` and `barw` (R260, R262): object, token, destination, scope. -/
  | token (obj : Nat) (tok : Bool) (d : Option Nat) (scope : Nat)
  /-- The phase awaited has completed: what remains is the acquire and D (R255, R260). -/
  | satisfied (obj : Nat) (d : Option Nat) (scope : Nat)
  /-- `bar`, `barr` or `cbar` by a lane that has arrived in this phase (R261, R263), on ao0 or the cluster barrier. -/
  | again (cluster : Bool)
  /-- `cbar` (R263): the phase awaited, scope. -/
  | cluster (phase : Bool) (scope : Nat)
  /-- `aoinit` (R258): object and count. -/
  | aoinit (obj n : Nat)
  /-- An early commit waits for the block's earlier accesses (R448). -/
  | commit
  /-- A circular buffer (R284 to R286): what is waited for (0 a free slot, 1 a filled slot, 2 no copy into the slot at the offset, 3 no
  copy into the buffer, 4 the threads' earlier accesses). -/
  | buffer (cb what off : Nat)
  /-- `ckwait` (R339): region and sequence number. -/
  | ckwait (region seq : Nat)
  /-- `ralloc` (R368). -/
  | records
  /-- `preempt` (R443): the named block, destination code. -/
  | save (blk d : Nat)
  /-- A block resumed while a split of it waits for a phase of an object (64 the cluster barrier): object, phase, scope. The split's PC is
  already at the next word (R267). -/
  | resumed (obj : Nat) (phase : Bool) (scope : Nat)
  /-- `tlbinv` (R442): copies that hold a removed translation. -/
  | drain (ids : List Nat)
  deriving DecidableEq, Repr

/-- A handler that is active in a split (R429, R435): where and how the split continues. -/
structure Handler where
  /-- The handler runs in supervisor mode (R433). -/
  sup : Bool
  /-- The mode of the split when it trapped. -/
  fromSup : Bool
  /-- The retry set (R430). -/
  retry : Mask
  /-- The lanes of the trap. -/
  tmask : Mask
  /-- Address of the trapped word, words of its clause still to issue (the trapped word included) and already issued, its class
  and extension set (R49). -/
  pc : BitVec 56
  far : BitVec 8
  rem : Nat
  wpos : Nat
  cls : Nat
  ext : Nat
  /-- The trap was raised at a header, and the words its count field gives (R435). -/
  header : Bool
  count : Nat
  /-- The trapped word. -/
  word : Word
  deriving DecidableEq, Repr

/-- One entry of a warp's split table (R144), with the clause context of R49 and the times of R55 and R156. -/
structure Split where
  mask : Mask
  pc : BitVec 56
  age : Nat
  starve : Nat
  rhold : Nat
  rem : Nat
  wpos : Nat
  lc0 : BitVec 32
  lc1 : BitVec 32
  lc2 : BitVec 32
  /-- Class code and extension set of the clause the split is in (R43). -/
  cls : Nat
  ext : Nat
  /-- Supervisor mode (R425). -/
  sup : Bool
  /-- Active handlers, the innermost first. -/
  hs : List Handler
  /-- The wait of a suspended split (R47). -/
  susp : Option Wait
  /-- The cycle before which the split issues nothing (R55, R156). -/
  next : Nat
  /-- The header at pc has been checked and the split waits at it or is ready: its word (R46). -/
  hdr : Option Word
  /-- No E-class or M-class word issues until the operation has completed (R223). -/
  hold : List Nat
  /-- 64 KiB granules of which the host has refused a page request of the waiting instruction (R474). -/
  denied : List Nat
  /-- Bits 63:56 of the address of the next word, which no fetch reaches unless they are 0 (R42, R174). -/
  far : BitVec 8
  /-- The yield bit of the clause the split is in (R43). -/
  yb : Bool
  /-- The counter on which the stalled access of the split's instruction counts (R178). -/
  stalled : Option Counter
  /-- The operands that the suspended instruction read at issue, by register code and lane (R57, R182). -/
  latch : List ((Nat × Nat) × TWord)
  /-- The path on which the suspended instruction issued (R432). -/
  path : Nat := 0
  deriving DecidableEq, Repr

/-- The operands of `rtbind` (R389): root reference, version handle, control word. -/
structure RayCtx where
  root : Word
  handle : Word
  ctl : Word
  deriving DecidableEq, Repr

/-- A member of a hit set, as a result or a candidate (R384, R387), with the reference of its leaf. -/
structure RayHit where
  t : BitVec 32
  prim : Nat
  u : BitVec 32
  v : BitVec 32
  inst : Nat
  kind : Nat
  leaf : Nat
  deriving DecidableEq, Repr

/-- A node that a traversal has still to visit (R377): its reference, its level below the root, the ray in its space (R379), the
interval that the boxes of its path leave (R384), the instance id it lies under (2^32 - 1 for none). -/
structure RayFrame where
  ref : Nat
  depth : Nat
  ray : Nat
  lo : BitVec 32
  hi : BitVec 32
  inst : Nat
  deriving DecidableEq, Repr

/-- A traversal under way (R379, R384, R396): the nodes still to visit, the best hit and the candidates so far, the bound that a hint gave, and the
hint's leaf. -/
structure RayWalk where
  stack : List RayFrame
  best : Option RayHit
  cands : List RayHit
  bound : Option RayHit
  hint : Option Nat
  deriving DecidableEq, Repr

/-- A ray query (R377, R390, R403). -/
structure Query where
  /-- 0 idle, 1 running, 2 waiting, 3 done. -/
  st : Nat
  ray : Nat
  ctx : RayCtx
  any : Bool
  unord : Bool
  opq : Bool
  pred : Bool
  sup : Bool
  /-- The least opaque or accepted hit; the fault. -/
  best : Option RayHit
  fault : Option Word
  /-- The candidate buffer, the pending candidate, the last delivered one, and whether candidates may remain beyond the buffer. -/
  cands : List RayHit
  pending : Option RayHit
  last : Option RayHit
  more : Bool
  /-- The traversal stack of an unordered query that waits. -/
  stack : List RayFrame
  /-- The pass that runs: its nodes are fetched one at a time (R399, R401). -/
  walk : Option RayWalk := none
  /-- `rtres` completes the traversal: every candidate it meets is rejected (R391). -/
  drain : Bool := false
  deriving DecidableEq, Repr

/-- An empty query slot. -/
def Query.idle : Query :=
  { st := 0, ray := 0, ctx := { root := 0, handle := 0, ctl := 0 }, any := false, unord := false, opq := false, pred := false, sup := false, best := none,
    fault := none, cands := [], pending := none, last := none, more := false, stack := [] }

/-- An entry of the Leaf Hint Table (R394): version tag, check, leaf address, confidence. -/
structure LhtWay where
  tag : Nat
  check : Nat
  leaf : Nat
  conf : Nat
  deriving DecidableEq, Repr

/-- An instruction of a quarter's replay queue (R449): warp, word, operands and results by lane. -/
structure Replay where
  w : Nat
  word : Word
  ins : List (Nat × List TWord)
  outs : List (Nat × TWord)
  deriving DecidableEq, Repr

/-- A warp of a resident or saved block (R26). -/
structure Warp where
  /-- The warp exists and has not ended (R168). -/
  live : Bool
  quarter : Nat
  slot : Nat
  /-- The slot of the shadow of a dual warp, in the next quarter (R450). -/
  shadow : Nat
  /-- Vector registers allocated (R27). -/
  vregs : Nat
  /-- fcr and tvec (R92, R426), the user trap registers (R91), the supervisor trap registers and scratch words (R438). -/
  fcr : Word
  tvec : Word
  tcause : Word
  tpc : Word
  tmask : Word
  tinfo : Word
  scause : Word
  spc : Word
  smask : Word
  sinfo : Word
  sstat : Word
  ssave0 : Word
  ssave1 : Word
  ssave2 : Word
  ssave3 : Word
  /-- The split table: entry number and entry (R144). -/
  splits : List (Nat × Split)
  /-- The ray context (R389): as the warp's last `rtbind` left it, as it stood before the cycle of that `rtbind`, and that cycle. -/
  ray : Option RayCtx
  rayPrev : Option RayCtx
  rayCyc : Nat
  /-- Cycles since the warp's last issue that `WATCHDOG` counts (R451). -/
  idle : Nat
  /-- The cycle before which a write to fcr or tvec holds every split of the warp (R93). -/
  held : Nat
  deriving DecidableEq, Repr

/-- A warp that does not exist. -/
def Warp.none : Warp :=
  { live := false, quarter := 0, slot := 0, shadow := 0, vregs := 0, fcr := 0, tvec := 0, tcause := 0, tpc := 0, tmask := 0, tinfo := 0,
    scause := 0, spc := 0, smask := 0, sinfo := 0, sstat := 0, ssave0 := 0, ssave1 := 0, ssave2 := 0, ssave3 := 0,
    splits := [], ray := Option.none, rayPrev := Option.none, rayCyc := 0, idle := 0, held := 0 }

/-- A queue register of a lane with its armed stream (R199 to R202). -/
structure Queue where
  /-- 0 no stream, 1 load stream, 2 store stream. -/
  kind : Nat
  ty : BitVec 4
  /-- The address of the next element to fetch or push. -/
  addr : Word
  stride : Word
  /-- Elements not yet popped (load stream) or pushed (store stream). -/
  left : Nat
  /-- Elements not yet fetched (load stream). -/
  toFetch : Nat
  /-- Operations of the thread that precede the arming (R200). -/
  after : List Nat
  /-- Fetched entries, the oldest first. -/
  entries : List TWord
  /-- 64 KiB granules of which the host has refused a page request of the stream (R474). -/
  denied : List Nat
  deriving DecidableEq, Repr

/-- A queue without a stream. -/
def Queue.idle : Queue := { kind := 0, ty := 0, addr := 0, stride := 0, left := 0, toFetch := 0, after := [], entries := [], denied := [] }

/-- One lane's access to bytes of one target (R206). -/
structure Acc where
  lane : Nat
  va : Nat
  /-- The physical key of the first byte (Machine/Translate.lean). -/
  key : Nat
  /-- Bytes of one word, and words of a vector access. -/
  size : Nat
  n : Nat
  /-- The page is SW (R187). -/
  sw : Bool
  /-- Store data, little-endian; of a load the words read so far. -/
  data : Nat
  /-- The words of the access not yet performed: each is atomic by itself (R190, R206). -/
  left : List Nat := [0]
  /-- Policy (R194), and class of the page (R193). -/
  pol : Nat
  cls : Nat := 0
  /-- Keys of further copies written by the access (`stmc` on a REP page, R196). -/
  also : List Nat
  /-- The stores of its instruction cover the sector of a VER page whole (R321). -/
  whole : Bool := false
  /-- The compare value of `cas` and `cas2` (R247). -/
  cmp : Nat
  /-- A VER page: the address of its VDB and the page offset (R319). -/
  ver : Option (Nat × Nat)
  /-- The handle of an `ldv` of a VER page (R328). -/
  hand : Option Nat
  /-- The word that the lane takes without an access (R185). -/
  given : Option TWord := none
  deriving DecidableEq, Repr

/-- A version operation on its way to its region's home die (R327 to R337). -/
structure VerOp where
  /-- Opcode less 0x118, `.new` or `.full`, the selector of `vinfo`. -/
  kind : Nat
  flag : Bool
  sel : Nat
  /-- The region, none where the request is refused because the page has none. -/
  region : Option Nat
  /-- The step. -/
  step : Nat
  /-- Destination code and lanes. -/
  d : Nat
  lanes : List Nat
  deriving DecidableEq, Repr

/-- A shard named by a manifest (R338). -/
structure CkShard where
  seq : Nat
  die : Nat
  off : Nat
  len : Nat
  digest : Nat
  deriving DecidableEq, Repr

/-- A checkpoint in progress (R337): step, kind, the frozen half of the change map, whether its pin stands in the pin table. -/
structure CkRun where
  step : Nat
  full : Bool
  half : Nat
  pinned : Bool
  deriving DecidableEq, Repr

/-- What the Snapshot Engines keep of a region's checkpoints (R335 to R341): the one in progress, whether the interval trigger is armed. -/
structure CkState where
  run : Option CkRun
  armed : Bool
  deriving DecidableEq, Repr

/-- A region without checkpoints. -/
def CkState.init : CkState := { run := none, armed := false }

/-- The parameters of an atomic operation (R240 to R250). -/
structure AtomArgs where
  /-- 0 atom, 1 cas, 2 cas2, 3 fatom, 4 fred, 5 atoml. -/
  kind : Nat
  op : Nat
  ty : BitVec 4
  /-- Acquire, release, and the scope (R242). -/
  acq : Bool
  rel : Bool
  scope : Nat
  /-- The .c form of cas and cas2. -/
  cond : Bool
  /-- The destination code, none for a non-returning form. -/
  d : Option Nat
  deriving DecidableEq, Repr

/-- One lane of `mwait` (R265): the access, the compare value, the cycle of its limit, the last value read. -/
structure MonLane where
  acc : Acc
  b : Word
  limit : Option Nat
  last : Word
  /-- The location has been read; the result of a resolved lane. -/
  read : Bool
  out : Option TWord
  deriving DecidableEq, Repr

/-- A translation held by a TLB (R180): a leaf as the walk decoded it. -/
structure Leaf where
  /-- Target, coherence mode, and the attributes (R177). -/
  tgt : Nat
  coh : Nat
  ver : Bool
  rep : Bool
  chk : Bool
  cls : Nat
  u : Bool
  x : Bool
  w : Bool
  r : Bool
  /-- Bits of the page's offset. -/
  bits : Nat
  /-- The page's first address in its target; the address of the VDB for VER, the set number for REP. -/
  base : Nat
  /-- Peer package or pool region. -/
  peer : Nat
  /-- Level of the leaf. -/
  level : Nat
  /-- Physical key of the entry, and the bit numbers of accessed and dirty that the walker sets in it. -/
  entry : Nat
  abit : Nat
  dbit : Nat
  deriving DecidableEq, Repr

/-- A copy in flight (R273 to R280). -/
structure CopyOp where
  /-- Opcode less 0x140. -/
  kind : Nat
  /-- The core that issued it (R282) and the mode of its split. -/
  core : Nat
  sup : Bool
  /-- The descriptor of the box, the destination descriptor of `tcpgg` (R270), origins and extents (R271). -/
  desc : Nat
  desc2 : Nat
  org : List Int
  org2 : List Int
  ext : List Nat
  /-- The tile-store offset, the arrival object (0 none), the circular buffer, the rank mask, the scope, the tag (R253). -/
  off : Nat
  obj : Nat
  cb : Option Nat
  mask : Nat
  scope : Nat
  tag : Nat
  /-- Translations of the destination pages, taken at issue (R282), by the page's first address. -/
  pages : List (Nat × Leaf)
  /-- The stamp of `tcpst` (R280). -/
  stamp : Option Acc
  /-- Ranks still to be delivered to; the words delivered, 2^32 rank + word (R279). -/
  todo : List Nat
  sent : List Nat
  /-- The elements handled so far, by number: 1 read, 2 read and failed, 3 written, with the value read (R276, R283). -/
  elems : List (Nat × (Nat × Nat))
  /-- Translations of source pages and of the stamp's page, by first address; none for a page whose translation failed (R282). -/
  srcPages : List (Nat × Option Leaf)
  /-- Status flags so far. -/
  flags : Nat
  deriving DecidableEq, Repr

/-- A matrix operation (R294 to R309). -/
structure MxOp where
  /-- Opcode less 0x180, type and B type, tile. -/
  kind : Nat
  ty : Nat
  bty : Nat
  tile : Nat
  mx : Bool
  sat : Bool
  /-- The mode, fcr[8] and the row mask fixed at issue (R297, R301). -/
  mode : Rm
  ftz : Bool
  rows : Nat
  /-- Steps; offsets of A, B and the scales, with their increments; for `acld` and `acst` address and stride; for `acep` scale and
  bias offset; the column of `acrd` and `acwr`. -/
  count : Nat
  a : Int
  b : Int
  incA : Int
  incB : Int
  sa : Int
  sb : Int
  incSa : Int
  incSb : Int
  /-- Object, scope, tag; tile-store form; mode of the split; destination code; activation, bias, clear. -/
  obj : Nat
  scope : Nat
  tag : Nat
  ts : Bool
  sup : Bool
  d : Nat
  act : Nat
  bias : Bool
  clr : Bool
  /-- Data of `acwr` by lane; translations of destination pages. -/
  data : List (Nat × Nat)
  pages : List (Nat × Leaf)
  /-- The operation has started in its unit; its place in the entry order: issue cycle, quarter and path as one number (R302). -/
  started : Bool
  entry : Nat
  /-- Steps performed; the 8-byte words that the present step has read, with their values, or that the operation has moved (R310, R314). -/
  step : Nat
  got : List (Nat × Nat)
  /-- Status flags so far. -/
  flags : Nat
  deriving DecidableEq, Repr

/-- A `spawn` on its way to the Dependence Matcher (R358, R475). -/
structure SpawnOp where
  /-- Its operands; `.try` and `.nfy`; the regions it consumed; the destination code. -/
  a : Word
  b : Word
  c : Word
  try_ : Bool
  nfy : Bool
  regs : List (Nat × Nat × Nat)
  d : Nat
  /-- The vendor dispatcher spawns the die's share of the record: the packet, and whether it is forwarded to the other dies. -/
  share : Option (List Word × Bool)
  /-- The launch record once it is read and accepted; for a graph the descriptor's header, then each node's entry and record. -/
  rcd : Option Nat
  desc : List Nat
  /-- Dies to which the vendor dispatcher forwards the RETIRE packet (R475). -/
  mask : Nat
  deriving DecidableEq, Repr

/-- An entry of a halo plan (R410): direction, neighbour, exchange id, descriptor, origins, extents; translations of the pages of a
receive box; completed. -/
structure HaloEnt where
  send : Bool
  peer : Nat
  xid : Nat
  /-- The box with what has been read and written of it, as a copy has it (R206, R276). -/
  box : CopyOp
  /-- The bytes of the box that a receive was matched to. -/
  got : Option Nat
  done : Bool
  deriving DecidableEq, Repr

/-- A halo exchange (R411). -/
structure HaloOp where
  ents : List HaloEnt
  obj : Nat
  tag : Nat
  sup : Bool
  deriving DecidableEq, Repr

/-- A halo box in dense order: the other package, exchange id, bytes, flags of its reading (R411). -/
structure HaloBox where
  peer : Nat
  xid : Nat
  len : Nat
  data : Nat
  flags : Nat
  deriving DecidableEq, Repr

/-- A collective at this member (R413 to R415). -/
structure CollOp where
  /-- Opcode less 0x1B0; type, operation, rounding mode; group and tag of the control word; object; the tag of the word. -/
  kind : Nat
  ty : BitVec 4
  op : Nat
  rm : Nat
  group : Nat
  ctag : Nat
  len : Nat
  a : Nat
  b : Nat
  obj : Nat
  tag : Nat
  sup : Bool
  pages : List (Nat × Leaf)
  /-- The members of the group and this member's rank (R407). -/
  n : Nat
  rank : Nat
  /-- Elements of the source read so far, by number: 1 with the value, 2 with the flags of a failure (R413, R418). -/
  elems : List (Nat × (Nat × Nat))
  /-- The result, once every contribution is there: offset, value and validity by element; the 8-byte words still to be written; flags. -/
  res : Option (List (Nat × Nat × Bool))
  left : List Nat
  flags : Nat
  deriving DecidableEq, Repr

/-- An outstanding operation's own data. -/
inductive OpKind where
  /-- Results computed at issue that are written at completion: register code, lane, word (R56). -/
  | result (ws : List (Nat × Nat × TWord))
  /-- An instruction of the special-function unit (R128): results and flags per lane, fixed at issue; the cycles of its start (0 while
  it waits in the queue), occupancy and latency; the split that waits for it with fcr as it was at issue (R93, R108), and the word. -/
  | sfu (ws : List (Nat × Nat × TWord)) (fl : List (Nat × BitVec 6)) (started : Bool) (start occ lat : Nat) (sync : Option (Nat × Word))
      (word : Word)
  /-- A load (R195, R197, R223): lane accesses, type, first destination code, words, the scope at which it acquires. -/
  | load (accs : List Acc) (ty : BitVec 4) (d n : Nat) (acq : Option Nat)
  /-- A store (R195, R224, R230): lane accesses, release scope, channel, queue of a store stream. -/
  | store (accs : List Acc) (rel : Option Nat) (chan : Option Nat) (stream : Option Nat)
  /-- An atomic (R246 to R250). -/
  | atomic (accs : List Acc) (a : AtomArgs)
  /-- `wbk` and `winv` (R204): invalidates, scope, first address, length. -/
  | maint (inv : Bool) (scope va len : Nat)
  /-- `mwait` (R265): lanes not yet resolved, destination, type, condition, scope. -/
  | monitor (lanes : List MonLane) (d : Nat) (ty : BitVec 4) (cc scope : Nat)
  /-- A thread arrival that follows its threads' earlier accesses (R224, R255): object, or 64 for the cluster barrier, count, scope, tag. -/
  | arrive (obj n scope tag : Nat)
  /-- `tdset` (R270): slot and descriptor. -/
  | tdset (slot desc : Nat)
  /-- A copy (R274 to R280). -/
  | copy (c : CopyOp)
  /-- A matrix operation. -/
  | matrix (m : MxOp)
  /-- A version operation. -/
  | version (v : VerOp)
  /-- `spawn` (R358). -/
  | spawn (x : SpawnOp)
  /-- `mbsend` (R356): target die, words. -/
  | mbsend (die : Nat) (words : List Word)
  /-- `mbrecv` (R355): destination code. -/
  | mbrecv (d : Nat)
  /-- `rsub`, `rfree`, `rbatch` (R369, R371, R372): opcode less 0x1A5, graph, record addresses in lane order, operands of `rbatch`. -/
  | record (kind graph : Nat) (vas : List Nat) (a b c : Nat)
  /-- `rtrace`, `rtres` and `rtcand` (R390 to R392): opcode less 0x191, destination code, lanes still to be answered, and the results of
  the others. -/
  | ray (kind d : Nat) (lanes : List Nat) (ws : List (Nat × Nat × TWord))
  /-- `hx`; `arx`, `agx` and `rsx`. -/
  | halo (x : HaloOp)
  | coll (x : CollOp)
  /-- `plstat` and `plack` (R424): acknowledges, destination code, region, epoch. -/
  | pool (ack : Bool) (d region epoch : Nat)
  /-- `bnc` (R134, R135): control-word number, the word to be written, results. -/
  | bnc (n : Nat) (ctl : Option (BitVec 144)) (ws : List (Nat × Nat × TWord))
  deriving DecidableEq, Repr

/-- An operation whose results go to a store stream (R201): the queue, the split entry that waits for them, the word, and the lanes
nullified at issue, each of which skips an element. -/
structure PushTo where
  q : Nat
  k : Nat
  word : Word
  skips : List Nat
  deriving DecidableEq, Repr

/-- An outstanding operation (R39). -/
structure Op where
  id : Nat
  w : Nat
  lanes : Mask
  cls : Option Counter
  /-- Destinations still to be written, register code and lane: a later write removes its own (R57). -/
  dst : List (Nat × Nat)
  /-- D is a queue: where the results are to be pushed (R201). -/
  push : Option PushTo
  /-- 64 KiB granules of which the host has refused a page request of the operation (R474). -/
  denied : List Nat
  kind : OpKind
  /-- The word that started it, its path, and the lanes of its split at issue (R369, R432). -/
  word : Word := 0
  path : Nat := 0
  issuer : Mask := 0
  /-- The cycle at which the stall of its results for a frame of their stream began (R322). -/
  since : Option Nat := none
  /-- The route table at issue: packets already sent keep their route (R456). -/
  routes : List (Nat × Word) := []
  deriving DecidableEq, Repr

/-- A fixed-latency write that has not landed: the word before it and the landing cycle (R56, R58). -/
structure Pend where
  w : Nat
  code : Nat
  lane : Nat
  old : TWord
  land : Nat
  /-- The lanes that the write's word wrote (R59). -/
  by_ : Mask
  deriving DecidableEq, Repr

/-- A write to a control word that has not landed (R129): warp, number, the word before it, landing cycle, the lanes of its split. -/
structure BnPend where
  w : Nat
  n : Nat
  old : BitVec 144
  land : Nat
  by_ : Mask
  deriving DecidableEq, Repr

/-- A block (R26), resident or saved. -/
structure Block where
  /-- 0 none, 1 resident, 2 saved, 3 saved and held. -/
  state : Nat
  die : Nat
  core : Nat
  /-- The die's resident dispatcher (R14, R352). -/
  disp : Bool
  seq : Nat
  lrec : Word
  launchid : Word
  blocklin : Nat
  aspace : BitVec 21
  attempt : Nat
  rst : Bool
  committed : Bool
  dual : Bool
  coop : Bool
  prio : Nat
  rank : Nat
  cluster : Nat
  /-- Blocks of the cluster as launched (R198, R279, R346). -/
  csize : Nat
  node : Nat
  warps : Nat
  /-- A pre-emption of the block is in progress: its warps issue nothing (R443). -/
  saving : Bool
  tsbytes : Nat
  tiles : Nat
  naos : Nat
  ncb : Nat
  /-- Releases performed, and saturation, for race detection (R220, R221). -/
  releases : Nat
  saturated : Bool
  /-- Checked races that were counted and not raised (R221). -/
  races : Nat
  /-- The block has been killed or contained, and its warps issue nothing further (R446, R447). -/
  killed : Bool
  /-- Containment: source (0 none), and containment cause (R447). -/
  csource : Nat
  ccause : Nat
  deriving DecidableEq, Repr

/-- No block. -/
def Block.none : Block :=
  { state := 0, die := 0, core := 0, disp := false, seq := 0, lrec := 0, launchid := 0, blocklin := 0, aspace := 0, attempt := 0,
    rst := false, committed := false, dual := false, coop := false, prio := 0, rank := 0, cluster := 0, csize := 1, node := 0, warps := 0, saving := false,
    tsbytes := 0, tiles := 0, naos := 0, ncb := 0, releases := 0, saturated := false, races := 0, killed := false, csource := 0, ccause := 0 }

/-- A core's own registers and units. -/
structure CoreSt where
  cyc : Nat
  rchk : Word
  wdog : Word
  /-- `vlog` entries written in a window, and the number of that window (R453). -/
  vlogs : Nat
  vwin : Nat
  deriving DecidableEq, Repr

/-- A core at reset (R91, R438). -/
def CoreSt.init : CoreSt := { cyc := 0, rchk := 1, wdog := 0, vlogs := 0, vwin := 0 }

/-- A quarter's turn, interlocks and issue in the current cycle. -/
structure Quarter where
  /-- The warp whose turn it is, and the cycle the turn began (R148). -/
  turn : Option Nat
  start : Nat
  /-- The slot of the warp whose turn ended last, and a warp to be passed over once. -/
  last : Nat
  pass : Option Nat
  /-- The slot of the turn's warp, whether its last issue stood in a clause with the yield bit, and the splits that were ready in the
  last choice and not chosen (R148, R150). -/
  slot : Nat
  yb : Bool
  passed : List Nat
  /-- A `yield` ends the turn's new clauses (R166). -/
  closed : Bool
  /-- The cycle of the last issue, the warp that issued and the number of splits issued in it. -/
  cyc : Nat
  who : Nat
  issued : Nat
  /-- Cycles before which the divider and the reduction tree are busy (R82, R143). -/
  divBusy : Nat
  treeBusy : Nat
  /-- The loop word whose body the loop buffer holds: address space and address (R156). -/
  loopBuf : Option (Nat × Nat)
  /-- The cycle before which the special-function unit is occupied (R128). -/
  sfuBusy : Nat
  deriving DecidableEq, Repr

/-- A quarter at reset. -/
def Quarter.init : Quarter :=
  { turn := none, start := 0, last := 15, pass := none, slot := 0, yb := false, passed := [], closed := false, cyc := 0, who := 0, issued := 0, divBusy := 0, treeBusy := 0, loopBuf := none, sfuBusy := 0 }

/-- A compute die's supervisor registers (R438). -/
structure DieSt where
  dspace : Word
  svec : Word
  evec : Word
  clsq0 : Word
  clsq1 : Word
  clsq2 : Word
  clsq3 : Word
  csave : Word
  ccnt : Word
  vlogq : Word
  deriving DecidableEq, Repr

/-- A die at reset (R438). -/
def DieSt.init : DieSt :=
  { dspace := 0, svec := 0, evec := 0, clsq0 := 16, clsq1 := 16, clsq2 := 16, clsq3 := 16, csave := 0, ccnt := 0, vlogq := 16 }

/-- Package registers (R438, R455). -/
structure Pkg where
  sroot : Word
  rootab : Word
  pasidtab : Word
  rstab : Word
  rscnt : Word
  vrtab : Word
  grptab : Word
  pkgid : Word
  ualen : Word
  halotmo : Word
  poolen : Word
  linkst : Word
  deriving DecidableEq, Repr

/-- Package registers at reset (R438, R455). -/
def Pkg.init : Pkg :=
  { sroot := 0, rootab := 0, pasidtab := 0, rstab := 0, rscnt := 0, vrtab := 0, grptab := 0, pkgid := 0, ualen := 0,
    halotmo := 1000, poolen := 0, linkst := 0 }

/-- A `grow` request that waits (R170, R171): core, warp, split entry, kind, requested total, destination code, word. -/
structure GrowReq where
  core : Nat
  w : Nat
  k : Nat
  kind : Nat
  total : Nat
  d : Nat
  word : Word
  deriving DecidableEq, Repr

/-- What the engines read of a version region when it becomes active (R316). -/
structure RegionLatch where
  keep : Nat
  scope : Nat
  pins : Nat
  cmap : Nat
  vdbs : Nat
  pages : Nat
  pool : Nat
  poolcap : Nat
  /-- Fields that the engines change, as they hold them. -/
  wstep : Nat
  lastck : Nat
  csel : Nat
  deriving DecidableEq, Repr

/-- A pool region's record and status word (R423, R457). -/
structure PoolRegion where
  rdev : Word
  rbase : Word
  rsize : Word
  /-- Result of the last command, and the command that runs (R457). -/
  rcmd : Nat
  cmd : Nat
  status : Word
  deriving DecidableEq, Repr

/-- A pool region at reset: Absent (R421). -/
def PoolRegion.init : PoolRegion := { rdev := 0, rbase := 0, rsize := 0, rcmd := 0, cmd := 0, status := 0 }

/-- The race record of a 32-byte granule (R220): the last plain write and up to four reading blocks, each with the block's release
count; whether it is saturated (R221). -/
structure Granule where
  write : Option (Nat × Nat)
  readers : List (Nat × Nat)
  saturated : Bool
  deriving DecidableEq, Repr

/-- An empty granule record. -/
def Granule.empty : Granule := { write := none, readers := [], saturated := false }

/-- What a release left at a location: the releasing block, its scope, and the release counts it had acquired or performed (R220). -/
structure Mark where
  blk : Nat
  /-- The block's die and cluster. -/
  die : Nat
  cluster : Nat
  scope : Nat
  counts : List (Nat × Nat)
  deriving DecidableEq, Repr

/-- An access that stalls on a page that is not resident (R178, R474): die, whether the host answers, space, address, kind, and the
number of its request once posted. -/
structure Stall where
  die : Nat
  host : Bool
  space : Nat
  va : Nat
  kind : Nat
  req : Option Nat
  deriving DecidableEq, Repr

/-- What the package has signalled to the host: an MSI-X vector (R474, R460), a PCIe Page Request Message with its PASID, address and kind
(R474). -/
inductive HostMsg where
  | msix (vector : Nat)
  | pageRequest (pasid va kind : Nat)
  deriving DecidableEq, Repr

/-- A translation of a TLB (R180): the page's first address and its leaf. -/
structure TlbEnt where
  page : Nat
  leaf : Leaf
  deriving DecidableEq, Repr

/-- A die's page-request ring (R474): prqpost, prqdone, entries of 128 bits. -/
structure PageRing where
  post : Nat
  done : Nat
  ents : List (Nat × Nat)
  deriving DecidableEq, Repr

/-- A ring at reset. -/
def PageRing.init : PageRing := { post := 0, done := 0, ents := [] }

/-- An arrival object (R252): fields, the marks of its releases (R255), and for ao0 the lanes that have arrived (R261). -/
structure AObj where
  expected : Nat
  arrived : Nat
  due : Int
  phase : Bool
  status : Word
  marks : List Mark
  /-- The marks of the last completed phase. -/
  prev : List Mark
  record : List Nat
  /-- Arrivals of threads in the core's latest cycle that had any (R258): the cycle, the arrivals in order with the lanes that they record and
  their marks, and the waits that they ended, by warp and split entry. -/
  cyc : Nat
  arrivals : List (Nat × List Nat × List Mark)
  woken : List (Nat × Nat × Wait)
  deriving DecidableEq, Repr

/-- An arrival object at reset (R252). -/
def AObj.init : AObj := { expected := 1, arrived := 0, due := 0, phase := false, status := 0, marks := [], prev := [], record := [], cyc := 0, arrivals := [], woken := [] }

/-- A slot of a circular buffer (R284): 0 free, 1 reserved, 2 filled, 3 acquired; bytes, status, and the marks of its last release. -/
structure CbSlot where
  st : Nat
  bytes : Nat
  status : Nat
  scope : Nat
  marks : List Mark
  deriving DecidableEq, Repr

/-- A free slot. -/
def CbSlot.init : CbSlot := { st := 0, bytes := 0, status := 0, scope := 1, marks := [] }

/-- A circular buffer (R284); one that is not initialised has no slots. -/
structure CBuf where
  base : Nat
  size : Nat
  res : Nat
  acq : Nat
  slots : List CbSlot
  deriving DecidableEq, Repr

/-- A circular buffer when its block starts. -/
def CBuf.init : CBuf := { base := 0, size := 0, res := 0, acq := 0, slots := [] }

/-- Traffic held for a saved block (R287): an update of an arrival object, a slot update, bytes of the tile store, a half byte of it at a half-byte
position. -/
inductive Fwd where
  | obj (k c n flags tag : Nat) (marks : List Mark)
  | slot (cb off n flags scope : Nat) (marks : List Mark)
  | bytes (off n data : Nat)
  | half (pos data : Nat)
  deriving DecidableEq, Repr

/-- A Vesper log's counts: entries written, `vlog` entries dropped (R459). -/
structure VLog where
  count : Nat
  dropped : Nat
  deriving DecidableEq, Repr

/-- A log at reset. -/
def VLog.init : VLog := { count := 0, dropped := 0 }

/-- A mailbox packet (R351): eight words; the scope and the marks of its send; the mask that the vendor dispatcher keeps for the node
of a RETIRE packet (R475). -/
structure Packet where
  words : List Word
  scope : Nat
  marks : List Mark
  mask : Nat
  deriving DecidableEq, Repr

/-- A task node (R358 to R361). -/
structure Node where
  /-- Node id, die. -/
  id : Nat
  die : Nat
  /-- Launch record: its VA and its bits as read (R358); address space. -/
  lrec : Word
  rcd : Nat
  asid : Nat
  /-- Range of blocks: first, count; the lowest blocklin not yet dispatched; blocks killed before their dispatch. -/
  first : Nat
  count : Nat
  next : Nat
  dropped : List Nat
  attempt : Nat
  avoid : Nat
  nfy : Bool
  /-- Dies to which the vendor dispatcher forwards the RETIRE packet (R475). -/
  mask : Nat
  /-- Regions: base, extent, mode (R357); nodes it still depends on (R359). -/
  regs : List (Nat × Nat × Nat)
  deps : List Nat
  /-- The graph and the node index in it; the records of a batch node, in commit order (R370). -/
  graph : Option Nat
  gidx : Nat
  batch : List Nat
  /-- Releases that the first issue of each block acquires (R348, R360); a node it depended on has retired, which is acquired at die scope. -/
  marks : List Mark
  after : Bool
  /-- Blocks completed and blocks ended; pre-empted blocks, the oldest save first; races; marks of the completed blocks. -/
  done : Nat
  ended : Nat
  saved : List Nat
  races : Nat
  out : List Mark
  /-- Containment cause of the first failed block, 0 none; some block was killed (R360). -/
  code : Nat
  killed : Bool
  /-- 64 KiB granules of which the host has refused a page request of the node's completion record (R474). -/
  denied : List Nat
  deriving DecidableEq, Repr

/-- A queued record (R369): its index, the die's cycle at its commit, the marks of the commit. -/
structure QRec where
  idx : Nat
  at_ : Nat
  marks : List Mark
  deriving DecidableEq, Repr

/-- A record-fed node of a graph (R365 to R371). -/
structure GNode where
  quota : Nat
  /-- Bytes of a record. -/
  size : Nat
  batch : Nat
  timeout : Nat
  lrec : Word
  rcd : Nat
  closed : Bool
  queue : List QRec
  deriving DecidableEq, Repr

/-- A request of `ralloc` that waits (R368): warp, split entry, the node that each asking lane names, destination code. -/
structure RallocReq where
  w : Nat
  k : Nat
  asks : List (Nat × Nat)
  d : Nat
  deriving DecidableEq, Repr

/-- A graph that runs on a die (R365 to R374). -/
structure Graph where
  die : Nat
  /-- The node of the root. -/
  root : Nat
  asid : Nat
  pool : Nat
  rcores : Nat
  /-- The reserved cores are free of other blocks (R373). -/
  ready : Bool
  /-- Nodes 1 upward. -/
  nodes : List GNode
  /-- Records that are not free, key 65536 node + index: state (1 held, 2 queued, 3 batched) and the block that holds it or the node of
  its batch. -/
  recs : List (Nat × (Nat × Nat))
  reqs : List RallocReq
  cuts : Nat
  deriving DecidableEq, Repr

/-- A save slot that holds a block, and the order of its save (R443, R444). -/
structure SaveSlot where
  blk : Nat
  at_ : Nat
  deriving DecidableEq, Repr

/-- A pre-emption in progress (R443): die, blocks with their slots, `.hold`, and the split that issued `preempt`, none for the DWS. -/
structure SaveReq where
  die : Nat
  blks : List (Nat × Nat)
  hold : Bool
  who : Option (Nat × Nat)
  deriving DecidableEq, Repr

/-- A slot of the host's submission window (R461). -/
structure HostSlot where
  words : List Word
  /-- The packet copied at the doorbell (R462). -/
  copy : List Word
  state : Nat
  reason : Nat
  deriving DecidableEq, Repr

/-- A slot at reset. -/
def HostSlot.init : HostSlot := { words := [], copy := [], state := 0, reason := 0 }

/-- A loaded image (R472): kind, die, security version, digest. -/
structure Image where
  kind : Nat
  die : Nat
  secver : Nat
  digest : Nat
  deriving DecidableEq, Repr

/-- The management controller (R464 to R472). -/
structure Mgmt where
  /-- The module has power (R470). -/
  powered : Bool
  /-- Reset step reached, absent stacks, failed verifications, cold resets (R467, R468, R471, R472). -/
  step : Nat
  absent : Nat
  failed : Nat
  colds : Nat
  /-- The power cap in W, the core clock of each die in MHz (R469, R470). -/
  cap : Nat
  clocks : List Nat
  /-- Temperature of each stack at its last calibration, in units of 0.1 C (R468). -/
  calib : List Nat
  /-- Words of the command mailbox by offset / 8, and the code of the command that runs (R471). -/
  mbox : List (Nat × Word)
  running : Option Nat
  /-- The modules and ports that failed training at step 4: bit 0 the UCIe modules of the Harness, bits 16:1 the UALink ports, bit 17 the pool
  port (R467, log 39). -/
  untrained : Nat
  /-- Security version recorded in flash (R465); the accepted configuration block, none after one that was refused (R465, R455); the images that
  are loaded (R466, R472). -/
  secver : Nat
  config : Option ConfigBlock
  images : List Image
  /-- The module flash: the configuration block and the image files (R464, R465). -/
  flashCfg : ConfigBlock
  flashImages : List ImageFile
  deriving DecidableEq, Repr

/-- An image header: magic, kind, security version and payload length (R464). -/
def headerBits (kind secver len digest : Nat) : Nat := 0x50564D31 + kind * 2 ^ 32 + secver * 2 ^ 64 + len * 2 ^ 96 + digest * 2 ^ 128

/-- The configuration block of the model's module flash (log 13): no minimum, no core disabled. -/
def flashConfig : ConfigBlock :=
  { header := headerBits 4 0 64 0, len := 64, intact := true, signer := .root, pkgid := 0, minima := [0, 0, 0], keys := [], disabled := [], clock := 2500, volts := 0 }

/-- An image of the model's module flash (log 13). -/
def flashImage (kind die : Nat) : ImageFile :=
  { header := headerBits kind 0 64 0, len := 64, intact := true, signer := .root, die := die, vregs := 32, start := 0 }

/-- The images of the model's module flash: the management firmware, eight memory-die images, four dispatcher programs (R472, log 13). -/
def flashDefault : List ImageFile :=
  flashImage 1 0xFFFF :: ((List.range 8).map (fun i => flashImage 2 (4 + i)) ++ (List.range 4).map (fun d => flashImage 3 d))

/-- A loaded image as the report names it (R472). -/
def loaded (x : ImageFile) : Image := { kind := x.kind, die := x.die, secver := x.secver, digest := x.digest }
/-- The configuration block as the report names it. -/
def loadedCfg (x : ConfigBlock) : Image := { kind := 4, die := 0xFFFF, secver := x.secver, digest := x.digest }

/-- The management controller after a cold reset (log 13). -/
def Mgmt.init : Mgmt :=
  { powered := true, step := 6, absent := 0, failed := 0, colds := 1, cap := 3400, clocks := [2500, 2500, 2500, 2500],
    calib := [], mbox := [], running := none, untrained := 0, secver := 0, config := some flashConfig,
    images := loadedCfg flashConfig :: flashDefault.map loaded, flashCfg := flashConfig, flashImages := flashDefault }

/-- The issue about to happen: warp, split entry. -/
structure Cur where
  w : Nat
  k : Nat
  deriving DecidableEq, Repr

/-- The state of the package. -/
structure State where
  /-- The model's own: steps of the device about to happen, and the split whose word issues next (log 2). -/
  agenda : List Instr
  cur : Option Cur
  cur2 : Option Cur
  /-- The model's own: the number of the next free value, outstanding operation and block (log 2, 9). -/
  free : Nat
  nextOp : Nat
  nextBlk : Nat
  /-- v registers, key (32 w + lane) 192 + register; s registers, key 32 w + register (R31). -/
  vregs : List (Nat × TWord)
  sregs : List (Nat × TWord)
  /-- fsr, tval and sval per lane, key 32 w + lane (R92, R91, R438). -/
  fsr : List (Nat × BitVec 6)
  tval : List (Nat × Word)
  sval : List (Nat × Word)
  /-- Queue registers, key (32 w + lane) 4 + number (R199). -/
  queues : List (Nat × Queue)
  /-- Benes control words, key 8 w + number (R131). -/
  bn : List (Nat × BitVec 144)
  warps : List (Nat × Warp)
  blocks : List (Nat × Block)
  ops : List Op
  pend : List Pend
  bnPend : List BnPend
  /-- Cores, key 48 die + core; quarters, key 4 core + quarter. -/
  cores : List (Nat × CoreSt)
  quarters : List (Nat × Quarter)
  /-- `grow` requests in order of arrival (R171). -/
  growQ : List GrowReq
  dies : List (Nat × DieSt)
  pkg : Pkg
  /-- Translations held by a die's TLBs, key 2^22 die + space, the one used last first (R180). -/
  tlb : List (Nat × List TlbEnt)
  /-- Owners of PRIV pages by page base: core + 1, 0 for none (R188). -/
  owners : List (Nat × Nat)
  /-- Poisoned sectors by sector number: 1 uncorrectable, 2 by a Suspect line (R186, R451). -/
  poison : List (Nat × Nat)
  /-- Frozen frames by number PA / 2^16 (R320). -/
  frozen : List (Nat × Bool)
  /-- Cached bytes of SW pages with their dirty state, key 2^80 cache + byte key; caches 0-191 are L1s, 192 + d die caches. -/
  swc : List (Nat × Option (Byte × Bool))
  /-- Lines that a die cache holds, by die: line number and class, the one used last first (R193). -/
  dcLru : List (Nat × List (Nat × Nat))
  /-- Pool bytes of HW lines that are dirty in a cache of the package, by key: the byte that the pool device still holds (R422). -/
  poolOld : List (Nat × Option Byte)
  /-- Provisional bytes of restartable blocks, key 2^80 block + byte key (R448). -/
  prov : List (Nat × Option Byte)
  /-- Race records by granule number; release marks by byte key; acquired-from tables, key 2^32 block + source; the marks that a
  thread's later writes carry after a release fence, key 32 w + lane (R220). -/
  granules : List (Nat × Granule)
  marks : List (Nat × List Mark)
  acquired : List (Nat × Nat)
  fenceMarks : List (Nat × List Mark)
  /-- The marks of the SC fences so far, the last of each block and scope first (R226). -/
  scMarks : List Mark
  /-- Marks at the locations a thread has read, which an acquire fence acquires (R211). -/
  seen : List (Nat × List Mark)
  /-- UALink route table (R456). -/
  routes : List (Nat × Word)
  /-- Version regions that are active, and pool regions. -/
  regions : List (Nat × Option RegionLatch)
  /-- Checkpoints by region (R335); what the `vpub` of a step released, key 2^32 region + step (R332). -/
  cks : List (Nat × CkState)
  vmarks : List (Nat × List Mark)
  pools : List (Nat × PoolRegion)
  /-- Memory, one byte a key (Machine/Translate.lean lays out the keys). -/
  mem : List Host.Cell
  /-- Addresses of a block at which a load took poison of a Suspect line: block, VA (R447 source 4). -/
  suspectVas : List (Nat × Nat)
  /-- Provisional sectors that one write covered whole, key as prov (R448). -/
  provFull : List (Nat × Bool)
  /-- Words that stores have replaced, by key, the last first, each with the number of the launch that was next: what a fetch of a launch
  begun before may still read (R50). -/
  icode : List (Nat × List (Word × Nat))
  /-- Stalled accesses and page-request rings (R474). -/
  stalls : List Stall
  prq : List (Nat × PageRing)
  /-- Channels, key 16 block + number: 0 closed, die + 1 open (R228). -/
  chans : List (Nat × Nat)
  /-- Arrival objects, key 64 block + number; cluster barriers by cluster (R252, R263). -/
  aos : List (Nat × AObj)
  cbars : List (Nat × AObj)
  /-- Descriptor slots, key 16 block + number, 0 unloaded (R270); circular buffers, key 32 block + number (R284); traffic held for saved
  blocks, in order of arrival (R287). -/
  tds : List (Nat × Nat)
  cbs : List (Nat × CBuf)
  fwd : List (Nat × Fwd)
  /-- Forwarding entries: core and block (R287). -/
  fwdEnts : List (Nat × Nat)
  /-- Tile status words and poison, key 192 block + tile (R290, R313). -/
  tstat : List (Nat × Word)
  tpois : List (Nat × Bool)
  /-- Vesper logs: entries by 4096 log + position, counts, sequence numbers by 2^16 log + source, captured entries by thread (R452,
  R459); the copies in flash (R470). -/
  vents : List (Nat × Nat)
  vmeta : List (Nat × VLog)
  vseq : List (Nat × Nat)
  vcap : List (Nat × Option (Nat × Nat))
  flashEnts : List (Nat × Nat)
  flashMeta : List (Nat × VLog)
  /-- Mailboxes by die, packets of the DWS that wait for room, pending regions of the dispatchers: base, extent, mode (R351, R357); a
  replacement dispatcher program runs on the die (R14). -/
  mail : List (Nat × List Packet)
  mailOut : List (Nat × List Packet)
  rgns : List (Nat × List (Nat × Nat × Nat))
  ownProg : List (Nat × Bool)
  /-- Task nodes, in the order in which they were matched; graphs; launch sequence numbers by die; the number of the next node and graph
  (R359 to R361, R365, R172). -/
  nodes : List (Nat × Option Node)
  graphs : List (Nat × Option Graph)
  seqs : List (Nat × Nat)
  nextNode : Nat
  /-- Save slots, key 64 die + number; pre-emptions in progress (R443, R444). -/
  sslots : List (Nat × Option SaveSlot)
  saves : List SaveReq
  /-- The host's submission window: slots by 16 die + number, discarded writes by die, pending slots in order (R461, R462). -/
  hslots : List (Nat × HostSlot)
  hdiscard : List (Nat × Nat)
  hostQ : List (Nat × Nat)
  /-- Region restore registers (R458). -/
  rsreg : Word
  rsdesc : Word
  rsstep : Word
  rsstat : Word
  mgmt : Mgmt
  /-- Ray queries, key 32 w + lane (R377); Leaf Hint Tables, key 2048 core + 128 partition + set, the way used last first; their counters
  used and conf, key 16 core + partition (R394, R398). -/
  rays : List (Nat × Query)
  lht : List (Nat × List LhtWay)
  lhtCnt : List (Nat × (Nat × Nat))
  /-- Halo boxes that wait for their receives (R411). -/
  staged : List HaloBox
  /-- Suspect lines by line number, with lost ownership (R451); replay queues by quarter, the youngest first (R449). -/
  suspects : List (Nat × Bool)
  replays : List (Nat × List Replay)
  /-- The model's own: halo boxes sent, the youngest first, and what the last access from outside read (log 12). -/
  sent : List HaloBox
  outRead : Nat
  /-- What the package has signalled to the host, the youngest first (R460, R474). -/
  hostOut : List HostMsg
  deriving DecidableEq, Repr

/-- The block of a die's dispatcher warp, named by the die's number (R14, R352). -/
def Block.dispatcher (d : Nat) : Block := { Block.none with state := 1, die := d, disp := true, warps := 1 }

/-- A die's dispatcher warp: slot 0 of quarter 0 of core 0, 32 vector registers (R14). The vendor program is modelled by what it does
(R475), so that its warp has no split (log 7). -/
def Warp.dispatcher : Warp := { Warp.none with live := true, vregs := 32 }

/-- The package after a cold reset. -/
def State.reset : State :=
  { agenda := [], cur := none, cur2 := none, free := 0, nextOp := 1, nextBlk := 4, vregs := [], sregs := [], fsr := [], tval := [], sval := [],
    queues := [], bn := [],
    warps := [(0, Warp.dispatcher), (32, Warp.dispatcher), (64, Warp.dispatcher), (96, Warp.dispatcher)],
    blocks := [(0, Block.dispatcher 0), (1, Block.dispatcher 1), (2, Block.dispatcher 2), (3, Block.dispatcher 3)],
    ops := [], pend := [], bnPend := [], cores := [], quarters := [], growQ := [], dies := [], pkg := Pkg.init, tlb := [], owners := [], poison := [], frozen := [], swc := [], dcLru := [], poolOld := [], prov := [], granules := [],
    marks := [], acquired := [], fenceMarks := [], routes := [], regions := [], cks := [], vmarks := [], pools := [], mem := [], suspectVas := [],
    scMarks := [], seen := [], provFull := [], icode := [], stalls := [], prq := [], chans := [], aos := [], cbars := [], tds := [], cbs := [], fwd := [], fwdEnts := [], tstat := [], tpois := [], vents := [], vmeta := [], vseq := [],
    vcap := [], flashEnts := [], flashMeta := [], mail := [], mailOut := [], rgns := [], ownProg := [], nodes := [], graphs := [], seqs := [], nextNode := 1, sslots := [], saves := [],
    hslots := [], hdiscard := [], hostQ := [], rsreg := 0, rsdesc := 0, rsstep := 0,
    rsstat := 0, mgmt := Mgmt.init, rays := [], lht := [], lhtCnt := [], staged := [], suspects := [], replays := [],
    sent := [], outRead := 0, hostOut := [] }

end Sys2Proof.Machine
end

