-- ==== Sys2Proof/Machine/Ops.lean ====
section
/-!
DEFINITION. The named operations over registers, warps, splits and time that every instruction uses.
-/
namespace Sys2Proof.Machine

/-! ### Lanes -/

/-- The lanes of a mask in ascending order. -/
def lanesOf (m : Mask) : List Nat := (List.range 32).filter (fun l => m.getLsbD l)

/-- The mask of the lanes that satisfy p. -/
def maskOf (p : Nat → Bool) : Mask := (List.range 32).foldl (fun m l => if p l then m ||| BitVec.twoPow 32 l else m) 0#32

/-- The lowest lane of a mask, 32 for the empty mask. -/
def lowLane (m : Mask) : Nat := ((lanesOf m).head?).getD 32

/-- The lanes of a mask, counted. -/
def laneCount (m : Mask) : Nat := (lanesOf m).length

/-! ### Warps, blocks, splits -/

/-- A split-table entry that is not valid: no lane (R144). -/
def noSplit : Split :=
  { mask := 0, pc := 0, age := 0, starve := 0, rhold := 0, rem := 0, wpos := 0, lc0 := 0, lc1 := 0, lc2 := 0, cls := 0, ext := 0,
    sup := false, hs := [], susp := none, next := 0, hdr := none, hold := [], denied := [], far := 0, yb := false, stalled := none, latch := [] }

def getWarp (s : State) (w : Nat) : Warp := sget Warp.none s.warps w
def setWarp (s : State) (w : Nat) (x : Warp) : State := { s with warps := sset Warp.none s.warps w x }
def getBlock (s : State) (b : Nat) : Block := sget Block.none s.blocks b
def setBlock (s : State) (b : Nat) (x : Block) : State := { s with blocks := sset Block.none s.blocks b x }
def getSplit (s : State) (w k : Nat) : Split := sget noSplit (getWarp s w).splits k
def setSplit (s : State) (w k : Nat) (x : Split) : State :=
  setWarp s w { getWarp s w with splits := sset noSplit (getWarp s w).splits k x }

/-- The block of a warp, and the warp's number within it (R91). -/
def blkOf (w : Nat) : Nat := w / 32
def warpNo (w : Nat) : Nat := w % 32

/-- The package-wide number of the core a warp's block is on. -/
def coreOf (s : State) (w : Nat) : Nat := let b := getBlock s (blkOf w); Config.coresPerDie * b.die + b.core

/-- The die a warp's block is on. -/
def dieOf (s : State) (w : Nat) : Nat := (getBlock s (blkOf w)).die

def getCore (s : State) (n : Nat) : CoreSt := sget CoreSt.init s.cores n
def setCore (s : State) (n : Nat) (x : CoreSt) : State := { s with cores := sset CoreSt.init s.cores n x }

/-- The key of a warp's quarter. -/
def quarterOf (s : State) (w : Nat) : Nat := 4 * coreOf s w + (getWarp s w).quarter

def getQuarter (s : State) (n : Nat) : Quarter := sget Quarter.init s.quarters n
def setQuarter (s : State) (n : Nat) (x : Quarter) : State := { s with quarters := sset Quarter.init s.quarters n x }

/-! ### Registers (R31, R33, R51) -/

def vkey (w lane r : Nat) : Nat := (32 * w + lane) * 192 + r
def skey (w r : Nat) : Nat := 32 * w + r
def lkey (w lane : Nat) : Nat := 32 * w + lane
def qkey (w lane q : Nat) : Nat := (32 * w + lane) * 4 + q

/-- The word a register code names in a lane, a queue and the immediate apart (R33, R51). -/
def rdReg (s : State) (w code lane : Nat) : TWord :=
  if code < 0xC0 then sget TWord.zero s.vregs (vkey w lane code)
  else if code < 0xE0 then sget TWord.zero s.sregs (skey w (code - 0xC0))
  else if code = 0xE5 then TWord.valid (BitVec.ofNat 64 lane)
  else TWord.zero

/-- Writes words to lanes of a vector register. -/
def wrV (s : State) (w code : Nat) (ws : List (Nat × TWord)) : State :=
  { s with vregs := ssetAll TWord.zero s.vregs (ws.map (fun e => (vkey w e.1 code, e.2))) }

/-- Writes a scalar register. -/
def wrS (s : State) (w r : Nat) (v : TWord) : State := { s with sregs := sset TWord.zero s.sregs (skey w r) v }

/-- Writes words to a destination code in the lanes given: a vector register per lane, a scalar register with the first word
(R75), nothing for `zero` (R33). -/
def wrReg (s : State) (w code : Nat) (ws : List (Nat × TWord)) : State :=
  if code < 0xC0 then wrV s w code ws
  else if code < 0xE0 then
    match ws with
    | [] => s
    | e :: _ => wrS s w (code - 0xC0) e.2
  else s

/-- The lane under which a register's pending writes are recorded: a scalar register has one word for all lanes. -/
def regLane (code lane : Nat) : Nat := if code < 0xC0 then lane else 0

/-- R57: a write to lanes of a register discards the writes of earlier outstanding operations to them. -/
def killDst (s : State) (w code : Nat) (ls : List Nat) : State :=
  { s with ops := s.ops.map (fun o => if o.w = w then { o with dst := o.dst.filter (fun d => !(decide (d.1 = code) && ls.contains d.2)) } else o) }

/-- A pending write is to a lane of a register. -/
def Pend.at_ (p : Pend) (w code lane : Nat) : Bool := decide (p.w = w) && decide (p.code = code) && decide (p.lane = lane)

/-- R57: the pending fixed-latency writes to lanes of a register that would land after cycle t are discarded. -/
def killPend (s : State) (w code t : Nat) (ls : List Nat) : State :=
  { s with pend := s.pend.filter (fun p => !(ls.any (fun l => p.at_ w code l) && decide (p.land > t))) }

/-- The word a register holds before a write that lands at cycle t: that of the last write that lands no later (R57). -/
def before (s : State) (w code lane t : Nat) : TWord :=
  (((s.pend.filter (fun p => p.at_ w code (regLane code lane) && decide (p.land > t))).getLast?).map (·.old)).getD (rdReg s w code lane)

/-- R56, R57: a fixed-latency result of latency lat issued at cycle t. The register holds the new word, and the word before it is kept
until the landing cycle; earlier writes that would land later are discarded. -/
def writeFixed (s : State) (w code t lat : Nat) (ws : List (Nat × TWord)) : State :=
  if code < 0xE0 then
    let ls := ws.map (fun e => regLane code e.1)
    let by_ := maskOf (fun l => ws.any (fun e => e.1 = l))
    let ps := ws.map (fun e => { w := w, code := code, lane := regLane code e.1, old := before s w code e.1 (t + lat), land := t + lat, by_ := by_ : Pend })
    let s1 := killPend s w code (t + lat) ls
    killDst (wrReg { s1 with pend := ps ++ s1.pend } w code ws) w code ls
  else s

/-- R56, R39: results written at once, by a completion or for lanes settled at issue. Earlier writes that have not landed are discarded
(R57). -/
def writeNow (s : State) (w code : Nat) (ws : List (Nat × TWord)) : State :=
  let ls := ws.map (fun e => regLane code e.1)
  killDst (wrReg (killPend s w code 0 ls) w code ws) w code ls

/-! ### Reads of registers (R41, R56, R58) -/

/-- Writes to a register in a lane that have not landed by cycle t. -/
def pendingOf (s : State) (w code lane t : Nat) : List Pend :=
  s.pend.filter (fun p => p.at_ w code (regLane code lane) && decide (p.land > t))

/-- A register read at cycle t. One that comes before a pending write has landed gets the old or the new word, by a free choice; a scalar
register answers every lane alike (R58, log 9). -/
def readReg (s : State) (w code lane t : Nat) : TWord :=
  let cur := rdReg s w code lane
  let olds := ((pendingOf s w code lane t).map (·.old)).filter (fun x => x ≠ cur)
  match olds with
  | [] => cur
  | _ :: _ => (cur :: olds).getD (Config.earlyRead (s.free * 2 ^ 13 + code * 32 + regLane code lane) % (olds.length + 1)) cur

/-- Sets sticky flags of lanes (R92, R106). -/
def orFsr (s : State) (w : Nat) (fl : List (Nat × BitVec 6)) : State :=
  { s with fsr := ssetAll 0#6 s.fsr (fl.map (fun e => (lkey w e.1, sget 0#6 s.fsr (lkey w e.1) ||| e.2))) }

/-! ### Time and issue (R55, R148, R149) -/

/-- The cycle at which the split can issue: not before its own time and its core's cycle, and in a cycle in which its quarter has a
path free for its warp (R16). -/
def issueTime (s : State) (w k : Nat) : Nat :=
  let t := max (getCore s (coreOf s w)).cyc (getSplit s w k).next
  let q := getQuarter s (quarterOf s w)
  if q.cyc = t ∧ q.issued > 0 ∧ (q.who ≠ w ∨ q.issued ≥ 2) then t + 1 else t

/-- Moves a core's cycle count to t; pending writes that have landed by then are no longer pending (R56). -/
def setTime (s : State) (core t : Nat) : State :=
  let c := getCore s core
  let s1 := setCore s core { c with cyc := t }
  { s1 with pend := s1.pend.filter (fun p => !(decide (coreOf s1 p.w = core) && decide (p.land ≤ t))),
            bnPend := s1.bnPend.filter (fun p => !(decide (coreOf s1 p.w = core) && decide (p.land ≤ t))) }

/-- Takes the issue slot (of two words of a cycle the later one leaves its yield bit, log 73): the core's time becomes the issue time, and the quarter counts the issue. -/
def takeSlot (s : State) (w k t : Nat) : State :=
  let s1 := setTime s (coreOf s w) t
  let qk := quarterOf s w
  let q := getQuarter s1 qk
  let n := if q.cyc = t ∧ q.who = w ∧ q.issued > 0 then q.issued + 1 else 1
  let s2 := setQuarter s1 qk { q with cyc := t, who := w, issued := n, yb := (getSplit s1 w k).yb }
  setWarp s2 w { getWarp s2 w with idle := 0 }

/-- The path of a word that a warp issues at cycle t: path 1 where the warp has issued one in the cycle (R149). -/
def pathOf (s : State) (w t : Nat) : Nat :=
  let q := getQuarter s (quarterOf s w)
  if q.cyc = t ∧ q.who = w ∧ q.issued > 0 then 1 else 0

/-- What an instruction sees of its own issue. -/
structure Ctx where
  w : Nat
  k : Nat
  /-- The split as it stood at issue. -/
  sp : Split
  /-- The issue cycle and the path (R149). -/
  t : Nat
  path : Nat
  /-- The opcode, the fields and the word. -/
  op : Nat
  f : Fields
  word : Word
  /-- The register codes that the word reads, and the counter it counts on. -/
  reads : List (BitVec 8)
  cnt : Option Counter

/-- The fields of a word put together (R51). -/
def packWord (op : BitVec 9) (f : Fields) : Word :=
  f.stall ++ op ++ f.d ++ f.a ++ f.b ++ f.c ++ f.ty ++ f.md

/-- The core cycles from issue to the next issue of the split under its STALL field (R55). -/
def stallOf (f : Fields) : Nat := max 1 f.stall.toNat

/-- The split after the word at its pc has issued and it goes on to the next word of the clause, or to the clause position that
follows (R44, R47, R144). -/
def stepSplit (sp : Split) : Split :=
  let sp := { sp with starve := 0, susp := none, denied := [], stalled := none, latch := [] }
  if sp.rem ≤ 1 then { sp with pc := sp.pc + 8, rem := 0, wpos := 0, hdr := none }
  else { sp with pc := sp.pc + 8, rem := sp.rem - 1, wpos := sp.wpos + 1 }

/-- Continues the split with the next word, not before cycle t + max(1, STALL) (R55). -/
def advance (c : Ctx) (s : State) : State :=
  let sp := getSplit s c.w c.k
  setSplit s c.w c.k { stepSplit sp with next := c.t + stallOf c.f }

/-- Continues a split that was suspended at an instruction with the next word, in the cycle its core has reached (R47). -/
def wakeAdvance (w k : Nat) (s : State) : State :=
  let sp := getSplit s w k
  setSplit s w k { stepSplit sp with next := max sp.next ((getCore s (coreOf s w)).cyc) }

/-- R474: records the stalled accesses of a wait; one that joins a stall already recorded adds nothing. -/
def addStalls (x : Wait) (s : State) : State :=
  match x with
  | .page die host space vas kind =>
    vas.foldl (fun s v =>
      if s.stalls.any (fun y => decide (y.die = die) && decide (y.host = host) && decide (y.space = space) && decide (y.va / 2 ^ 16 = v / 2 ^ 16)) then s
      else { s with stalls := s.stalls ++ [{ die := die, host := host, space := space, va := v, kind := kind, req := none }] }) s
  | _ => s

/-- A stall of the wait is not resolved. -/
def stallsOpen (s : State) (die : Nat) (host : Bool) (space : Nat) (vas : List Nat) : Bool :=
  s.stalls.any (fun y => decide (y.die = die) && decide (y.host = host) && decide (y.space = space) && vas.any (fun v => decide (v / 2 ^ 16 = y.va / 2 ^ 16)))

/-- The access of a wait has been checked up to its translation: a page that is not resident, a frame to be obtained (R182). -/
def Wait.stalls : Wait → Bool
  | .page _ _ _ _ _ => true
  | .frame _ _ => true
  | _ => false

/-- The instruction has read its operands and keeps them over the wait: it issues again with the words it read (R57). -/
def Wait.keeps : Wait → Bool
  | .page _ _ _ _ _ => true
  | .frame _ _ => true
  | .commit => true
  | .ckwait _ _ => true
  | .buffer _ _ _ => true
  | .queue _ (_ :: _) => true
  | _ => false

/-- A register operand as the issuing instruction read it: from the operands latched when it was suspended, or from the register (R57,
R182). -/
def readC (s : State) (c : Ctx) (code lane : Nat) : TWord :=
  match c.sp.latch.find? (fun e => decide (e.1 = (code, lane))) with
  | some e => e.2
  | none => readReg s c.w code lane c.t

/-- The register operands of the issuing instruction, by code and lane. -/
def latchOf (s : State) (c : Ctx) : List ((Nat × Nat) × TWord) :=
  ((c.reads.filter (fun x => decide (x.toNat < 0xE0))).dedup).flatMap (fun x => (lanesOf c.sp.mask).map (fun l => ((x.toNat, l), readC s c x.toNat l)))

/-- Suspends the split at its instruction (R47). An instruction that issues again keeps its operands (R57), and a stalled access counts on
the instruction's counter (R178, R182). -/
def suspend (c : Ctx) (x : Wait) (s : State) : State :=
  let sp := getSplit s c.w c.k
  let sp := { sp with susp := some x, starve := 0, next := c.t + stallOf c.f, path := c.path }
  addStalls x (setSplit s c.w c.k (if x.keeps then { sp with stalled := if x.stalls then c.cnt else none, latch := latchOf s c } else sp))

/-- Leaves the word unissued and suspends the split: what the word waits for must come before it issues (R39, R47, R199). -/
def park (c : Ctx) (x : Wait) (s : State) : State := setSplit s c.w c.k { getSplit s c.w c.k with susp := some x }

/-- The address of the header of the clause the split is in (R144). -/
def headerOf (sp : Split) : BitVec 56 := sp.pc - BitVec.ofNat 56 (8 * (sp.wpos + 1))

/-- The address of the split's next word, with the bits that a fetch finds non-canonical (R42, R174). -/
def vpc (sp : Split) : Word := sp.far ++ sp.pc

/-- Sends a split to a clause position (R145, R156). -/
def sendTo (sp : Split) (target : BitVec 56) (next : Nat) : Split :=
  { sp with pc := target, rem := 0, wpos := 0, rhold := 0, starve := 0, hdr := none, susp := none, denied := [], next := next, far := 0,
            stalled := none, latch := [] }

/-! ### Division of a split (R145) -/

/-- Entries of a warp's split table that are valid, with their numbers. -/
def validSplits (s : State) (w : Nat) : List (Nat × Split) := (getWarp s w).splits

/-- The lowest entry number not in use. -/
def freeEntry (s : State) (w : Nat) : Nat :=
  ((List.range 32).find? (fun k => (getSplit s w k).mask = 0)).getD 31

/-- Removes an entry; every younger split moves up one rank (R144). -/
def removeSplit (s : State) (w k : Nat) : State :=
  let a := (getSplit s w k).age
  let wp := getWarp s w
  let r := (sset noSplit wp.splits k noSplit).map (fun e => (e.1, if e.2.age > a then { e.2 with age := e.2.age - 1 } else e.2))
  setWarp s w { wp with splits := r }

/-- Adds a split as the youngest of its warp. -/
def addSplit (s : State) (w : Nat) (sp : Split) : State :=
  setSplit s w (freeEntry s w) { sp with age := (validSplits s w).length }

/-- Where a group of lanes goes: the next word of the clause, or a clause position with the value of a loop counter to be cleared. -/
structure Group where
  mask : Mask
  target : Option (BitVec 56)
  clear : Option Nat
  /-- Bits 63:56 of the target. -/
  far : BitVec 8 := 0

/-- Clears a loop counter (R164). -/
def setLc (sp : Split) (i : Nat) (v : BitVec 32) : Split :=
  if i = 0 then { sp with lc0 := v } else if i = 1 then { sp with lc1 := v } else { sp with lc2 := v }

def getLc (sp : Split) (i : Nat) : BitVec 32 := if i = 0 then sp.lc0 else if i = 1 then sp.lc1 else sp.lc2

/-- The earliest issue after a transfer at cycle t: the target's fetch and the STALL count (R156). -/
def transferTime (t : Nat) (f : Fields) (near : Bool) : Nat := if near then t + stallOf f else t + max 4 (stallOf f)

/-- A group's split, made from the split S that divides: fall-through keeps the clause context, a transfer goes to a clause
position (R145, R156). A handler stays active in the entry that is kept alone (R429). -/
def groupSplit (c : Ctx) (near : Bool) (keeps : Bool) (sp : Split) (g : Group) : Split :=
  let base := { sp with mask := g.mask, hs := if keeps then sp.hs else [] }
  let base := match g.clear with
    | some i => setLc base i 0
    | none => base
  match g.target with
  | none =>
    let x := { stepSplit base with next := c.t + stallOf c.f }
    if keeps then x else { x with starve := sp.starve, rhold := 0 }
  | some a =>
    { sendTo base a (transferTime c.t c.f near) with starve := if keeps then 0 else sp.starve, far := g.far }

/-- Groups with one next PC are one group: at the last word of a clause, lanes that fall through and lanes sent to the same address. -/
def joinFall (next : BitVec 56) (gs : List Group) : List Group :=
  let same (g : Group) : Bool := decide (g.target = some next) && g.clear.isNone && decide (g.far = 0)
  match gs.find? (fun g => g.target.isNone), gs.find? same with
  | some a, some b => { b with mask := a.mask ||| b.mask } :: gs.filter (fun g => g.target.isSome && !same g)
  | _, _ => gs

/-- Divides the issuing split into groups (R145). The group that goes on with the next word of the clause keeps the entry; otherwise the
group with the lowest lane does; the others become the youngest splits in ascending order of their lowest lane. No group at all removes the entry. -/
def divide (c : Ctx) (near : Bool) (gs : List Group) (s : State) : State :=
  let sp := getSplit s c.w c.k
  let gs := gs.filter (fun g => g.mask ≠ 0)
  let gs := List.insertionSort (fun a b => lowLane a.mask ≤ lowLane b.mask) (if sp.rem ≤ 1 then joinFall (sp.pc + 8) gs else gs)
  match (if sp.rem > 1 then gs.find? (fun g => g.target.isNone) else none).or gs.head? with
  | none => removeSplit s c.w c.k
  | some g0 =>
    let s1 := setSplit s c.w c.k (groupSplit c near true sp g0)
    (gs.filter (fun g => g.mask ≠ g0.mask)).foldl (fun s g => addSplit s c.w (groupSplit c near false sp g)) s1

/-! ### Counters (R39, R40) -/

/-- Outstanding operations of a class that cover a lane of the mask, those whose access is stalled at issue among them (R178), capped
at 63. -/
def counterOf (s : State) (w : Nat) (m : Mask) (c : Counter) : Nat :=
  min 63 ((s.ops.filter (fun o => decide (o.w = w) && decide (o.cls = some c) && decide (o.lanes &&& m ≠ 0))).length +
    ((validSplits s w).filter (fun e => decide (e.2.stalled = some c) && decide (e.2.mask &&& m ≠ 0))).length)

/-- The word cnt reads (R40). -/
def cntWord (s : State) (w : Nat) (m : Mask) : Word :=
  BitVec.ofNat 64 (counterOf s w m .ex * 2 ^ 24 + counterOf s w m .cp * 2 ^ 16 + counterOf s w m .st * 2 ^ 8 + counterOf s w m .ld)

/-- Starts an outstanding operation. -/
def startOp (s : State) (w : Nat) (lanes : Mask) (cls : Option Counter) (dst : List (Nat × Nat)) (kind : OpKind) : State :=
  { s with ops := s.ops ++ [{ id := s.nextOp, w := w, lanes := lanes, cls := cls, dst := dst, push := none, denied := [], kind := kind, routes := s.routes }],
           nextOp := s.nextOp + 1 }

/-- The operation just started keeps what it needs of its issue: the word, the path, the lanes of its split (R369, R432). -/
def stampOp (c : Ctx) (s : State) : State :=
  { s with ops := s.ops.dropLast ++ (s.ops.getLast?.map (fun o => { o with word := c.word, path := c.path, issuer := c.sp.mask })).toList }

/-- The outstanding operation of a number. -/
def findOp (s : State) (id : Nat) : Option Op := s.ops.find? (fun o => o.id = id)

/-- Ends an outstanding operation. -/
def endOp (s : State) (id : Nat) : State := { s with ops := s.ops.filter (fun o => o.id ≠ id) }

/-- Replaces the data of an outstanding operation. -/
def setOpKind (s : State) (id : Nat) (k : OpKind) : State :=
  { s with ops := s.ops.map (fun o => if o.id = id then { o with kind := k } else o) }

/-- Writes an operation's results to the destinations still its own; writes of the warp that were issued earlier and have not landed are
discarded (R57). -/
def writeDst (s : State) (o : Op) (ws : List (Nat × Nat × TWord)) : State :=
  ws.foldl (fun s e =>
    if o.dst.contains (e.1, regLane e.1 e.2.1) then
      let s1 := wrReg (killPend s o.w e.1 0 [regLane e.1 e.2.1]) o.w e.1 [(e.2.1, e.2.2)]
      { s1 with ops := s1.ops.map (fun p => if p.w = o.w ∧ p.id < o.id then { p with dst := p.dst.filter (fun d => d ≠ (e.1, regLane e.1 e.2.1)) } else p) }
    else s) s

/-- The destinations of an operation: register code and lane. -/
def dstOf (code : Nat) (ls : List Nat) : List (Nat × Nat) :=
  if code < 0xC0 then ls.map (fun l => (code, l)) else if code < 0xE0 then [(code, 0)] else []

end Sys2Proof.Machine
end

