-- ==== Sys2Proof/Machine/Contain.lean ====
section
/-!
DEFINITION. The Vesper log (R452, R459), and killing and containing a block (R446, R447).
-/
namespace Sys2Proof.Machine

/-! ### The Vesper log -/

def getVLog (s : State) (log : Nat) : VLog := sget VLog.init s.vmeta log

/-- The source field of an entry: class and unit (R452). -/
def vsource (cls unit : Nat) : Nat := cls * 4096 + unit % 4096

/-- Writes an entry into log `log`: type, source, the three event words (R452). -/
def vesper (s : State) (log typ source d0 d1 d2 : Nat) : State :=
  let m := getVLog s log
  let seq := sget 0 s.vseq (2 ^ 16 * log + source)
  let e := source + seq % 2 ^ 32 * 2 ^ 16 + typ * 2 ^ 56 + d0 % 2 ^ 64 * 2 ^ 64 + d1 % 2 ^ 64 * 2 ^ 128 + d2 % 2 ^ 64 * 2 ^ 192
  { s with vents := sset 0 s.vents (4096 * log + m.count % 4096) e,
           vmeta := sset VLog.init s.vmeta log { m with count := m.count + 1 },
           vseq := sset 0 s.vseq (2 ^ 16 * log + source) (seq + 1) }

/-! ### Kill and containment -/

/-- R446: the warps of a block issue nothing further. -/
def stopBlock (s : State) (b : Nat) : State :=
  let s1 := setBlock s b { getBlock s b with killed := true }
  { s1 with warps := s1.warps.map (fun e => if blkOf e.1 = b then (e.1, { e.2 with splits := [] }) else e),
            growQ := s1.growQ.filter (fun r => blkOf r.w ≠ b) }

/-- R446, R448: the block's uncommitted provisional sectors are dropped. -/
def dropProv (s : State) (b : Nat) : State :=
  { s with prov := s.prov.filter (fun e => e.1 / 2 ^ 80 ≠ b), provFull := s.provFull.filter (fun e => e.1 / 2 ^ 80 ≠ b) }

/-- R446: kills a block; what remains of it ends at BLOCK_COMPLETE. -/
def killBlock (s : State) (b : Nat) : State := dropProv (stopBlock s b) b

/-- R447: containment of a block, with the source, the containment cause and the address of the record. Its relaunch or failure follows
at BLOCK_COMPLETE. -/
def containBlock (s : State) (b source cause : Nat) (va : Word) : State :=
  let x := getBlock s b
  if x.csource ≠ 0 then s
  else
    let cc := if source = 2 then 0x42 else if source = 3 then 0x43 else if source = 4 then 0x17 else if source = 6 then 0x46 else cause
    let d1 := x.blocklin % 2 ^ 32 + source * 2 ^ 32 + cc * 2 ^ 40 + x.attempt % 4 * 2 ^ 48 + (if x.committed then 1 else 0) * 2 ^ 50
    let s1 := setBlock s b { x with csource := source, ccause := cc }
    killBlock (vesper s1 x.die 0x01 (vsource 5 x.die) x.launchid.toNat d1 va.toNat) b

/-- R447: containment of the block of a warp. -/
def contain (s : State) (w source cause : Nat) (va : Word) : State := containBlock s (blkOf w) source cause va

end Sys2Proof.Machine
end

