-- ==== Sys2Proof/Machine/Trap.lean ====
section
/-!
DEFINITION. Taking a trap, as one operation (R425 to R433).
-/
namespace Sys2Proof.Machine

/-! ### Causes (R427) -/
def causeIllegalOpcode : Nat := 0x01
def causeIllegalOperand : Nat := 0x02
def causeBadClause : Nat := 0x03
def causeExtEmulate : Nat := 0x04
def causePrivileged : Nat := 0x05
def causeStallShort : Nat := 0x06
def causeLoopForm : Nat := 0x07
def causeAlign : Nat := 0x08
def causePoison : Nat := 0x10
def causePageInvalid : Nat := 0x11
def causePagePermission : Nat := 0x12
def causeCollapse : Nat := 0x13
def causeVersionRetired : Nat := 0x14
def causeVersionFrozen : Nat := 0x15
def causePoolLost : Nat := 0x16
def causeMemUe : Nat := 0x17
def causeRace : Nat := 0x18
def causeCohViolation : Nat := 0x19
def causeVersionFull : Nat := 0x1A
def causeFpInvalid : Nat := 0x20
def causeIntDivZero : Nat := 0x28
def causeMcastRange : Nat := 0x30
def causeChannel : Nat := 0x31
def causeRecordPool : Nat := 0x32
def causeWatchdog : Nat := 0x38
/-- The containment cause of source 3, which its source decides (R447). -/
def causeDual : Nat := 0x43
def causeBreak : Nat := 0x3E
def causeEcall : Nat := 0x3F

/-- A trap about to be taken: its cause and subcode, its lanes, its retry set and the lanes' values (R430, R432). -/
structure TrapReq where
  cause : Nat
  sub : Nat
  lanes : Mask
  retry : Mask
  vals : List (Nat × Word)

/-- A trap of every lane of the mask, before any lane took effect (R430). -/
def trapAll (cause sub : Nat) (m : Mask) : TrapReq := { cause := cause, sub := sub, lanes := m, retry := m, vals := [] }

/-- The value of a lane in a trap, 0 where no definition applies (R432). -/
def TrapReq.val (r : TrapReq) (l : Nat) : Word := ((r.vals.find? (fun e => e.1 = l)).map (·.2)).getD 0

/-- The payload cause of an X word (R36). -/
def payloadCause (d : Word) : Nat := (d >>> 56).toNat

/-- An X payload (R36). -/
def payload (cause va : Nat) : Word := BitVec.ofNat 64 (cause * 2 ^ 56 + va % 2 ^ 56)

/-- The lane that decides the detail of POISON_CONSUMED (R432): the lowest lane whose payload cause is 0x16 or 0x17, otherwise the
lowest lane. -/
def detailLane (r : TrapReq) : Option Nat :=
  ((lanesOf r.lanes).find? (fun l => let c := payloadCause (r.val l); c = causePoolLost ∨ c = causeMemUe)).or (lanesOf r.lanes).head?

/-- The detail field of the trap (R432). -/
def trapDetail (r : TrapReq) : Nat :=
  if r.cause = causePoison then
    match detailLane r with
    | some l => payloadCause (r.val l)
    | none => 0
  else 0

/-- tcause and scause (R432). -/
def causeWord (path : Nat) (r : TrapReq) : Word :=
  BitVec.ofNat 64 (path % 2 * 2 ^ 24 + trapDetail r % 256 * 2 ^ 16 + r.sub % 256 * 2 ^ 8 + r.cause % 256)

/-- Where a trap goes. -/
inductive TrapDest where
  | user
  | supervisor
  | emulation
  /-- Containment with a source and a containment cause (R447). -/
  | contain (source cause : Nat)
  deriving DecidableEq, Repr

/-- Causes that R427 sends to the user handler where it is enabled. -/
def userCause (wp : Warp) (r : TrapReq) : Bool :=
  wp.tvec.getLsbD 0 &&
    (r.cause = causeStallShort || r.cause = causeBreak ||
     (r.cause = causeEcall && !((r.val (lowLane r.lanes)).getLsbD 15)) ||
     (r.cause = causePoison && wp.tvec.getLsbD 1) ||
     (r.cause = causeRace && wp.tvec.getLsbD 2) ||
     (causeFpInvalid ≤ r.cause && r.cause ≤ 0x24))

/-- The split runs a user handler. -/
def userActive (sp : Split) : Bool := sp.hs.any (fun h => !h.sup)
/-- The user handler is active in the warp: in whichever of its splits (R429, R433). -/
def warpUser (s : State) (w : Nat) : Bool := (validSplits s w).any (fun e => userActive e.2)

/-- The destination of a trap (R427, R433). -/
def trapDest (s : State) (w : Nat) (sp : Split) (r : TrapReq) : TrapDest :=
  if r.cause = causePoison ∧ (trapDetail r = causePoolLost ∨ trapDetail r = causeMemUe) then
    let va := (((detailLane r).map r.val).getD 0).toNat % 2 ^ 56
    .contain (if s.suspectVas.contains (blkOf w, va) then 4 else 1) (trapDetail r)
  else if sp.sup then .contain 5 r.cause
  else if r.cause = causeExtEmulate then .emulation
  else if userCause (getWarp s w) r && !warpUser s w then .user
  else .supervisor

/-- Writes the user trap registers (R91, R429). -/
def writeUserTrap (s : State) (w : Nat) (pc : Word) (word : Word) (path : Nat) (r : TrapReq) : State :=
  let s1 := setWarp s w { getWarp s w with
    tcause := causeWord path r, tpc := pc, tmask := r.lanes.zeroExtend 64, tinfo := word }
  { s1 with tval := ssetAll 0#64 s1.tval ((List.range 32).map (fun l => (lkey w l, if r.lanes.getLsbD l then r.val l else 0#64))) }

/-- Writes the supervisor trap registers; sstat records the mode of the split and whether the user handler was active
(R429, R438). -/
def writeSupTrap (s : State) (w : Nat) (sp : Split) (pc : Word) (word : Word) (path : Nat) (r : TrapReq) : State :=
  let st : Word := BitVec.ofNat 64 ((if sp.sup then 1 else 0) + (if warpUser s w then 2 else 0))
  let s1 := setWarp s w { getWarp s w with
    scause := causeWord path r, spc := pc, smask := r.lanes.zeroExtend 64, sinfo := word, sstat := st }
  { s1 with sval := ssetAll 0#64 s1.sval ((List.range 32).map (fun l => (lkey w l, if r.lanes.getLsbD l then r.val l else 0#64))) }

/-- The resume point of a trap (R429, R49). -/
def handlerOf (sp : Split) (sup header : Bool) (word : Word) (r : TrapReq) : Handler :=
  { sup := sup, fromSup := sp.sup, retry := r.retry, tmask := r.lanes, pc := sp.pc, far := sp.far, rem := sp.rem, wpos := sp.wpos, cls := sp.cls,
    ext := sp.ext, header := header, count := ((word >>> 48).toNat % 16), word := word }

/-- Sends the split to a handler (R429 steps 2 and 3). Its STALL count is not kept (R59). -/
def enterHandler (s : State) (w k t : Nat) (sp : Split) (h : Handler) (addr : Word) : State :=
  setSplit s w k { sendTo sp (addr.truncate 56) (t + 4) with sup := h.sup, hs := h :: sp.hs, far := addr.extractLsb' 56 8 }

/-- R59: every fixed-latency result of the split with the lanes given has landed before the handler's first instruction. Those of the warp's
other splits are still pending. -/
def landLanes (s : State) (w : Nat) (m : Mask) : State :=
  { s with pend := s.pend.filter (fun p => !(decide (p.w = w) && (if p.code < 0xC0 then m.getLsbD p.lane else decide (p.by_ &&& m ≠ 0)))),
           bnPend := s.bnPend.filter (fun p => !(decide (p.w = w) && decide (p.by_ &&& m ≠ 0))) }

/-- Takes a trap for a split at cycle t: the trap registers, the resume point, the mode and the pc (R429), or containment (R433,
R447). -/
def takeTrap (s : State) (w k t path : Nat) (header : Bool) (word : Word) (r : TrapReq) : State :=
  let sp := getSplit s w k
  let s := landLanes s w sp.mask
  let die := sget DieSt.init s.dies (dieOf s w)
  match trapDest s w sp r with
  | .contain src cause => contain s w src cause (vpc sp)
  | .user =>
    enterHandler (writeUserTrap s w (vpc sp) word path r) w k t sp (handlerOf sp false header word r)
      ((getWarp s w).tvec &&& ~~~7#64)
  | .supervisor =>
    enterHandler (writeSupTrap s w sp (vpc sp) word path r) w k t sp (handlerOf sp true header word r) die.svec
  | .emulation =>
    enterHandler (writeSupTrap s w sp (vpc sp) word path r) w k t sp (handlerOf sp true header word r) die.evec

/-- The issuing instruction traps (R429). -/
def raise (c : Ctx) (r : TrapReq) (s : State) : State := takeTrap s c.w c.k c.t c.path false c.word r

/-- A trap of every active lane. -/
def raiseAll (c : Ctx) (cause sub : Nat) (s : State) : State := raise c (trapAll cause sub c.sp.mask) s

end Sys2Proof.Machine
end

