-- ==== Sys2Proof/Machine/Translate.lean ====
section
/-!
DEFINITION. Physical keys and bytes of memory, page tables, walks and TLBs (R19, R174 to R181, R319).

A physical key names one byte of one target: local physical addresses stand for themselves, device register space from 2^42, host
memory from 2^60, pool device d from 2^64 + 2^59 d, package p from 2^65 + 2^52 p, the tile store of block b from 2^66 + 2^20 b, its accumulator tiles from 2^80.
-/
namespace Sys2Proof.Machine

/-! ### Keys and bytes -/

def hostBase : Nat := 2 ^ 60
def poolBase (dev : Nat) : Nat := 2 ^ 64 + 2 ^ 59 * dev
def peerBase (p : Nat) : Nat := 2 ^ 65 + 2 ^ 52 * p
def tileBase (b : Nat) : Nat := 2 ^ 66 + 2 ^ 20 * b
/-- The first byte of accumulator tile t of a block (R288). -/
def acBase (b t : Nat) : Nat := 2 ^ 80 + (192 * b + t) * 16384
/-- R19: first address of device register space. -/
def regBase : Nat := 2 ^ 42

/-- R19, R468: a local address lies in the populated window of a memory die whose stack is present. -/
def populated (s : State) (pa : Nat) : Bool :=
  decide (pa < regBase) && decide (pa % 2 ^ 39 < 2 ^ 36) && !s.mgmt.absent.testBit (pa / 2 ^ 39)

/-- The byte at a key; one that nothing has written reads 0 (log 4). -/
def rdByte (s : State) (k : Nat) : Byte := sget 0#8 s.mem k

/-- The canonical form of memory: keys strictly rising, no byte listed that is 0, as an unlisted byte reads (log 4). -/
def Memory.wf (m : List Host.Cell) : Bool := swf 0#8 m

/-- n bytes from a key, little-endian (R3). -/
def rdMem (s : State) (k n : Nat) : Nat :=
  (List.range n).foldl (fun v i => v + (rdByte s (k + i)).toNat * 2 ^ (8 * i)) 0

/-- The bytes of a value, little-endian, as memory cells from a key. -/
def cellsOf (k n v : Nat) : List Host.Cell := (List.range n).map (fun i => (k + i, BitVec.ofNat 8 (v / 2 ^ (8 * i))))

/-- Writes n bytes of a value at a key. -/
def wrMem (s : State) (k n v : Nat) : State := { s with mem := ssetAll 0#8 s.mem (cellsOf k n v) }

/-- Bits hi to lo of a number. -/
def bitsOf (v hi lo : Nat) : Nat := v / 2 ^ lo % 2 ^ (hi + 1 - lo)

/-! ### Walks -/

/-- The outcome of a walk (R175, R178). -/
inductive WalkRes where
  | leaf (l : Leaf)
  /-- An invalid mapping with its subcode (R183). -/
  | invalid (sub : Nat)
  /-- Mapped, not resident: whether the walk stopped at a table, and whether the host answers (R178, R474). -/
  | absent (table host : Bool)
  deriving DecidableEq, Repr

/-- Lowest VA bit of a device-format level (R175). -/
def levelShift (lvl : Nat) : Nat := 16 + 10 * lvl

/-- R179: COH, VER and REP allowed for a target. -/
def cohAllowed (tgt coh : Nat) : Bool :=
  if tgt = 0 then decide (coh < 3) else if tgt = 3 then decide (coh = 1) else decide (coh < 2)

/-- A device-format leaf entry (R177, R179), with R319's level rule. -/
def deviceLeaf (s : State) (e lvl at_ va : Nat) : WalkRes :=
  let frame := bitsOf e 51 16
  let tgt := bitsOf e 9 8
  let coh := bitsOf e 7 6
  let ver := e.testBit 11
  let rep := e.testBit 10
  let base := if ver then frame * 64 else if rep then frame else frame * 2 ^ 16
  let pa := base + va % 2 ^ levelShift lvl
  if ver ∧ (lvl = 1 ∨ lvl = 2) then .invalid 0x04
  else if lvl = 3 ∨ (!ver ∧ ((lvl = 1 ∧ frame % 2 ^ 10 ≠ 0) ∨ (lvl = 2 ∧ frame % 2 ^ 20 ≠ 0))) ∨ !cohAllowed tgt coh ∨
      ((ver ∨ rep) ∧ tgt ≠ 0) ∨ (ver ∧ rep) ∨
      (tgt = 0 ∧ !rep ∧ !ver ∧ pa < regBase ∧ !populated s pa) ∨ (ver ∧ !populated s base) then .invalid 0x03
  else .leaf { tgt := tgt, coh := coh, ver := ver, rep := rep, chk := e.testBit 12, cls := bitsOf e 14 13, u := e.testBit 5,
               x := e.testBit 4, w := e.testBit 3, r := e.testBit 2, bits := levelShift lvl, base := base, peer := bitsOf e 61 52,
               level := lvl, entry := at_, abit := 62, dbit := 63 }

/-- Walks device-format tables from a level down (R175 to R179). -/
def walkDevice (s : State) (va : Nat) : Nat → Nat → WalkRes
  | 0, _ => .invalid 0x03
  | n + 1, table =>
    let at_ := table + 8 * bitsOf va (levelShift n + 9) (levelShift n)
    let e := rdMem s at_ 8
    if !e.testBit 0 then (if e.testBit 15 then .absent (decide (n ≠ 0)) false else .invalid 0x01)
    else if e.testBit 1 then deviceLeaf s e n at_ va
    else
      let next := bitsOf e 51 13 * 2 ^ 13
      if n = 0 ∨ bitsOf e 63 52 ≠ 0 ∨ bitsOf e 12 2 ≠ 0 ∨ !populated s next then .invalid 0x03
      else walkDevice s va n next

/-- A host-format leaf (R181). -/
def hostLeaf (fd e lvl at_ : Nat) : WalkRes :=
  let lo := bitsOf fd (128 + 10 * lvl + 5) (128 + 10 * lvl)
  let hpa := bitsOf e (bitsOf fd 37 32) (bitsOf fd 29 24) * 2 ^ bitsOf fd 45 40
  let coh := bitsOf fd 257 256
  let rd := e.testBit (bitsOf fd 61 56)
  let wr := e.testBit (bitsOf fd 69 64)
  if !(bitsOf fd 12 8).testBit lvl ∨ hpa % 2 ^ lo ≠ 0 ∨ coh ≥ 2 ∨ (wr ∧ !rd) ∨ hpa ≥ 2 ^ 52 then .invalid 0x03
  else .leaf { tgt := 1, coh := coh, ver := false, rep := false, chk := fd.testBit 260, cls := bitsOf fd 259 258,
               u := e.testBit (bitsOf fd 85 80), x := e.testBit (bitsOf fd 77 72), w := wr, r := rd, bits := lo, base := hpa,
               peer := 0, level := lvl, entry := at_, abit := bitsOf fd 93 88, dbit := bitsOf fd 101 96 }

/-- Walks host-format tables from a level down (R181). -/
def walkHost (s : State) (fd va : Nat) : Nat → Nat → WalkRes
  | 0, _ => .invalid 0x03
  | n + 1, table =>
    let lo := bitsOf fd (128 + 10 * n + 5) (128 + 10 * n)
    let width := bitsOf fd (128 + 10 * n + 9) (128 + 10 * n + 6)
    let at_ := hostBase + table + 8 * (va / 2 ^ lo % 2 ^ width)
    let e := rdMem s at_ 8
    if !e.testBit (bitsOf fd 53 48) then (if fd.testBit 46 then .invalid 0x01 else .absent (decide (n ≠ 0)) true)
    else if e &&& bitsOf fd 255 192 ≠ 0 then .invalid 0x03
    else if (if fd.testBit 13 then e.testBit (bitsOf fd 61 56) || e.testBit (bitsOf fd 77 72) else e.testBit (bitsOf fd 21 16)) then
      hostLeaf fd e n at_
    else if e.testBit (bitsOf fd 69 64) && !e.testBit (bitsOf fd 61 56) then .invalid 0x03
    else
      let next := bitsOf e (bitsOf fd 37 32) (bitsOf fd 29 24) * 2 ^ bitsOf fd 45 40
      if next ≥ 2 ^ 52 then .invalid 0x03 else walkHost s fd va n next

/-- The format descriptor of a PASID (R181, R438). -/
def formatDesc (s : State) (pasid : Nat) : Nat := rdMem s (rdMem s (s.pkg.pasidtab.toNat + 16 * pasid + 8) 8) 64

/-- A walk of a space (R174, R175, R425, R438): bit 20 of the space says that it is a PASID; the supervisor half uses sroot. -/
def walk (s : State) (space va : Nat) : WalkRes :=
  if va ≥ 2 ^ 56 then .invalid 0x02
  else if va.testBit 55 then walkDevice s va 4 s.pkg.sroot.toNat
  else if space.testBit 20 then
    let pasid := space % 2 ^ 20
    let root := rdMem s (s.pkg.pasidtab.toNat + 16 * pasid) 8
    if !root.testBit 0 then .invalid 0x01
    else
      let fd := formatDesc s pasid
      if root - 1 ≥ 2 ^ 52 then .invalid 0x03 else walkHost s fd va (min 5 (bitsOf fd 3 0)) (root - 1)
  else
    let e := rdMem s (s.pkg.rootab.toNat + 8 * (space % 2 ^ 16)) 8
    if !e.testBit 0 then .invalid 0x01 else walkDevice s va 4 (bitsOf e 51 13 * 2 ^ 13)

/-- The key of a space's TLB entries on a die; the supervisor half has one space (R425). -/
def tlbKey (die space va : Nat) : Nat := 2 ^ 22 * die + (if va.testBit 55 then 2 ^ 21 else space)

/-- The TLB entry holds a translation of the address (R180): its page has the leaf's size. -/
def TlbEnt.covers (e : TlbEnt) (va : Nat) : Bool := decide (va / 2 ^ e.leaf.bits = e.page / 2 ^ e.leaf.bits)

/-- The first address of the page of a leaf that translates the address. -/
def pageOf (l : Leaf) (va : Nat) : Nat := va / 2 ^ l.bits * 2 ^ l.bits

/-- The translation an access uses: a fresh walk, or one of the cached translations of the address that differ from it, by a free choice
(R180, log 10). -/
def lookup (s : State) (die space va : Nat) : WalkRes :=
  let fresh := walk s space va
  match ((sget [] s.tlb (tlbKey die space va)).filter (fun e => e.covers va)).filter (fun e => fresh ≠ .leaf e.leaf) with
  | [] => fresh
  | e :: r => (fresh :: (e :: r).map (fun e => WalkRes.leaf e.leaf)).getD
      (Config.staleTranslation (s.free * 2 ^ 88 + die * 2 ^ 78 + space * 2 ^ 56 + va) % (r.length + 2)) fresh

/-- R180: a walk writes the leaf it has read into the die's TLB. -/
def tlbEnter (s : State) (die space va : Nat) (l : Leaf) : State :=
  let k := tlbKey die space va
  let x : TlbEnt := { page := pageOf l va, leaf := l }
  { s with tlb := sset [] s.tlb k (x :: (sget [] s.tlb k).filter (fun e => e ≠ x)) }

/-- R177, R180, R181: the walker's marks for an access made through a leaf, and the TLB entry. -/
def touchLeaf (s : State) (die space va : Nat) (l : Leaf) (write : Bool) : State :=
  let s := tlbEnter s die space va l
  let e := rdMem s l.entry 8
  let e' := e ||| 2 ^ l.abit ||| (if write then 2 ^ l.dbit else 0)
  if e' = e then s else wrMem s l.entry 8 e'

/-- R181: a host entry whose accessed or dirty bit the access needs is clear, and the walker does not set it. -/
def hostNeedsRequest (s : State) (space va : Nat) (l : Leaf) (write : Bool) : Bool :=
  space.testBit 20 && !va.testBit 55 && !(formatDesc s (space % 2 ^ 20)).testBit 46 &&
    (let e := rdMem s l.entry 8; !e.testBit l.abit || (write && !e.testBit l.dbit))

/-! ### Version Descriptor Blocks (R318, R319) -/

/-- A frame's first address (R318). -/
def frameAddr (f : Nat) : Nat := bitsOf f 22 20 * 2 ^ 39 + bitsOf f 19 0 * 2 ^ 16

/-- A VDB as a number. -/
def rdVdb (s : State) (vdb : Nat) : Nat := rdMem s vdb 64

def slotOf (v j : Nat) : Nat := bitsOf v (32 + 56 * j + 55) (32 + 56 * j)
def slotValid (x : Nat) : Bool := x.testBit 55
def slotStep (x : Nat) : Nat := bitsOf x 54 23
def slotFrame (x : Nat) : Nat := bitsOf x 22 0
def vdbWv (v : Nat) : Bool := v.testBit 15
def vdbWs (v : Nat) : Nat := bitsOf v 14 13
def vdbRegion (v : Nat) : Nat := bitsOf v 11 0

/-- Slots that hold published frames. -/
def publishedSlots (v : Nat) : List Nat :=
  (List.range 4).filter (fun j => slotValid (slotOf v j) && !(vdbWv v && vdbWs v = j))

/-- The slot of the step view of step t: the greatest step at most t (R319). -/
def stepSlot (v t : Nat) : Option Nat :=
  (publishedSlots v).foldl (fun b j =>
    if slotStep (slotOf v j) ≤ t then
      match b with
      | none => some j
      | some i => if slotStep (slotOf v i) < slotStep (slotOf v j) then some j else b
    else b) none

/-- The newest published slot. -/
def newestSlot (v : Nat) : Option Nat := stepSlot v (2 ^ 32)

def getRegion (s : State) (r : Nat) : Option RegionLatch := sget none s.regions r

/-- R319: the VER page of a VDB is well formed, its region's activity apart. -/
def vdbFits (s : State) (vdb : Nat) : Bool :=
  let v := rdVdb s vdb
  (match getRegion s (vdbRegion v) with
    | none => true
    | some l => decide (l.vdbs ≤ vdb ∧ vdb < l.vdbs + 64 * l.pages ∧ (vdb - l.vdbs) % 64 = 0)) && !(publishedSlots v).isEmpty &&
    s.regions.all (fun e => match e.2 with
      | none => true
      | some o => e.1 = vdbRegion v || !decide (o.vdbs ≤ vdb ∧ vdb < o.vdbs + 64 * o.pages))

/-- R319: the VER page of a VDB is well formed and its region is active. -/
def vdbOk (s : State) (vdb : Nat) : Bool := (getRegion s (vdbRegion (rdVdb s vdb))).isSome && vdbFits s vdb

/-- The address of a page offset in the working view (R319). -/
def workingAddr (s : State) (vdb off : Nat) : Nat :=
  let v := rdVdb s vdb
  let j := if vdbWv v && v.testBit (256 + off / 256) then vdbWs v else (newestSlot v).getD 0
  frameAddr (slotFrame (slotOf v j)) + off

/-- The address of a page offset in the step view of step t (R319). -/
def stepAddr (s : State) (vdb off t : Nat) : Option Nat :=
  let v := rdVdb s vdb
  (stepSlot v t).map (fun j => frameAddr (slotFrame (slotOf v j)) + off)

/-! ### Region descriptors and pins (R316, R317) -/

/-- The address of a region's descriptor, and the descriptor. -/
def regionAddr (s : State) (r : Nat) : Nat := s.pkg.vrtab.toNat + 64 * r
/-- The fields of a descriptor that the engines take at activation. -/
def latchFields (d : Nat) : RegionLatch :=
  { keep := bitsOf d 40 39, scope := bitsOf d 38 36, pins := bitsOf d 447 384, cmap := bitsOf d 191 128, vdbs := bitsOf d 127 64, pages := bitsOf d 31 0,
    pool := bitsOf d 255 192, poolcap := bitsOf d 319 288, wstep := bitsOf d 351 320, lastck := bitsOf d 383 352, csel := bitsOf d 42 42 }

/-- A number with bits hi to lo replaced. -/
def putBits (d hi lo v : Nat) : Nat := d - bitsOf d hi lo * 2 ^ lo + v % 2 ^ (hi + 1 - lo) * 2 ^ lo

/-- The descriptor as the engines see it: of an active region the fields that software cannot change are theirs, and a change in memory is
ignored until the region is activated again (R316). -/
def rdRegion (s : State) (r : Nat) : Nat :=
  let d := rdMem s (regionAddr s r) 64
  match getRegion s r with
  | none => d
  | some l => putBits (putBits (putBits (putBits (putBits d 383 352 l.lastck) 351 320 l.wstep) 319 288 l.poolcap) 255 192 l.pool) 42 42 l.csel
def rgWstep (d : Nat) : Nat := bitsOf d 351 320
def rgLastck (d : Nat) : Nat := bitsOf d 383 352
def rgPoolcap (d : Nat) : Nat := bitsOf d 319 288
def rgPoolcnt (d : Nat) : Nat := bitsOf d 287 256
def rgPool (d : Nat) : Nat := bitsOf d 255 192
def rgCsel (d : Nat) : Nat := bitsOf d 42 42
def rgStall (d : Nat) : Nat := bitsOf d 63 48
def rgCkdesc (d : Nat) : Nat := bitsOf d 511 448

/-- The fields of a region as the engines hold them: those taken at activation, or the descriptor's own while it is inactive. -/
def regionView (s : State) (r : Nat) : RegionLatch :=
  (getRegion s r).getD (latchFields (rdRegion s r))

/-- Changes what the engines hold of an active region. -/
def setLatch (s : State) (r : Nat) (g : RegionLatch → RegionLatch) : State :=
  match getRegion s r with
  | some l => { s with regions := sset none s.regions r (some (g l)) }
  | none => s
/-- The engines write wstep, lastck and csel: in the descriptor and in what they hold. -/
def putWstep (s : State) (r t : Nat) : State := setLatch (wrMem s (regionAddr s r + 40) 4 t) r (fun l => { l with wstep := t % 2 ^ 32 })
def putLastck (s : State) (r t : Nat) : State := setLatch (wrMem s (regionAddr s r + 44) 4 t) r (fun l => { l with lastck := t % 2 ^ 32 })
def putCsel (s : State) (r h : Nat) : State :=
  setLatch (wrMem s (regionAddr s r + 5) 1 (putBits (rdMem s (regionAddr s r + 5) 1) 2 2 h)) r (fun l => { l with csel := h })

/-- The pin table: entry number, step, count, of the entries in use (R317). -/
def pinEntries (s : State) (r : Nat) : List (Nat × Nat × Nat) :=
  ((List.range 16).map (fun i => let e := rdMem s ((regionView s r).pins + 8 * i) 8; (i, bitsOf e 31 0, bitsOf e 47 32))).filter (fun e => e.2.2 ≠ 0)

def getCk (s : State) (r : Nat) : CkState := sget CkState.init s.cks r
def setCk (s : State) (r : Nat) (x : CkState) : State := { s with cks := sset CkState.init s.cks r x }

/-- The live steps of a region, in no order: the keep newest published steps, and those that hold a pin (R317). -/
def liveSteps (s : State) (r : Nat) : List Nat :=
  let w := rgWstep (rdRegion s r)
  let k := min (regionView s r).keep w
  (List.range k).map (fun i => w - 1 - i) ++ ((pinEntries s r).map (·.2.1)).filter (fun p => decide (p < w)) ++
    (match (getCk s r).run with | some x => [x.step] | none => [])

/-- A step of a region is live. -/
def stepLive (s : State) (r t : Nat) : Bool := (liveSteps s r).contains t

/-- R318: the pinsv field of a VDB of a region: pin-table entries that resolve to each slot. -/
def pinsvOf (s : State) (v : Nat) : Nat :=
  ((List.range 4).map (fun j => min 15 ((pinEntries s (vdbRegion v)).filter (fun e => stepSlot v e.2.1 = some j)).length * 16 ^ j)).sum

/-- Writes a VDB, as the engines do (R318). -/
def putVdb (s : State) (vdb v : Nat) : State := wrMem s vdb 64 (v / 2 ^ 32 * 2 ^ 32 + pinsvOf s v * 2 ^ 16 + v % 2 ^ 16)

/-! ### Replica sets (R440) -/

/-- A replica-set entry of the level given, when it is in use and well formed. -/
def replicaSet (s : State) (set lvl : Nat) : Option Nat :=
  if set ≥ s.pkg.rscnt.toNat then none
  else
    let e := rdMem s (s.pkg.rstab.toNat + 64 * set) 64
    let ok := e.testBit 0 && decide (bitsOf e 63 4 = 0) && decide (bitsOf e 511 320 = 0) && decide (bitsOf e 3 2 = lvl) &&
      (List.range 4).all (fun q =>
        let f := bitsOf e (64 + 64 * q + 35) (64 + 64 * q)
        decide (bitsOf e (64 + 64 * q + 63) (64 + 64 * q + 36) = 0) && populated s (f * 2 ^ 16) &&
          decide (f * 2 ^ 16 / 2 ^ 39 / 2 = q))
    if ok then some e else none

/-- The address of the quadrant's copy. -/
def replicaAddr (e q off : Nat) : Nat := bitsOf e (64 + 64 * q + 35) (64 + 64 * q) * 2 ^ 16 + off

end Sys2Proof.Machine
end

