-- ==== Sys2Proof/Machine/Cow.lean ====
section
/-!
DEFINITION. Copy-on-write of versioned pages (R318 to R323): recycling frames, the working frame of a page, its sectors, and the key of an
access to it.
-/
namespace Sys2Proof.Machine

/-! ### Accesses (R319, R328) -/

/-- The key of an access now: a VER page resolves when the access is performed, in the working view or in the step view of its handle
(R319, R328). -/
def accKey (s : State) (x : Acc) : Nat :=
  match x.ver, x.hand with
  | some (vdb, off), none => workingAddr s vdb off
  | some (vdb, off), some h => (stepAddr s vdb off (h % 2 ^ 32)).getD x.key
  | none, _ => x.key

/-- R328: the handle of an `ldv` does not name a live step of its page's region. -/
def handleRetired (s : State) (x : Acc) : Bool :=
  match x.ver, x.hand with
  | some (vdb, _), some h =>
    decide (h / 2 ^ 44 ≠ 0) || decide (h / 2 ^ 32 % 4096 ≠ vdbRegion (rdVdb s vdb)) || !stepLive s (h / 2 ^ 32 % 4096) (h % 2 ^ 32)
  | _, _ => false

/-- R323: a load in flight has still to read a byte of a frame. -/
def frameRead (s : State) (f : Nat) : Bool :=
  s.ops.any (fun o => match o.kind with
    | .load accs _ _ _ _ => accs.any (fun x => x.given.isNone && decide (accKey s x / 2 ^ 16 = frameAddr f / 2 ^ 16))
    | _ => false)

/-! ### Frames (R320, R321, R323) -/

/-- R323: a frame is cleaned before it is recycled, once no read of it is in flight: cached copies, race records and the frozen mark go. -/
def cleanFrame (s : State) (f : Nat) : State :=
  let a := frameAddr f
  let inF (k : Nat) : Bool := decide (a ≤ k ∧ k < a + 2 ^ 16)
  { s with swc := s.swc.filter (fun e => !inF (e.1 % 2 ^ 80)), granules := s.granules.filter (fun e => !inF (32 * e.1)),
           frozen := sset false s.frozen (a / 2 ^ 16) false }

/-- Slots of a VDB without a frame. -/
def freeSlots (v : Nat) : List Nat := (List.range 4).filter (fun j => !slotValid (slotOf v j))

/-- Valid slots other than the newest to which no live step resolves (R321). -/
def deadSlots (s : State) (v : Nat) : List Nat :=
  (publishedSlots v).filter (fun j => decide (newestSlot v ≠ some j) && !(liveSteps s (vdbRegion v)).any (fun t => stepSlot v t = some j))

/-- A VDB with slot j replaced. -/
def withSlot (v j x : Nat) : Nat := v - slotOf v j * 2 ^ (32 + 56 * j) + x * 2 ^ (32 + 56 * j)

/-- Pushes dead frames onto the region's pool while it has room. -/
def pushDead (s : State) (v : Nat) : State × Nat :=
  let r := vdbRegion v
  (deadSlots s v).foldl (fun acc j =>
    let d := rdRegion acc.1 r
    let n := rgPoolcnt d
    if n < rgPoolcap d then
      let f := slotFrame (slotOf acc.2 j)
      (wrMem (wrMem (cleanFrame acc.1 f) (rgPool d + 4 * n) 4 f) (regionAddr acc.1 r + 32) 4 (n + 1), withSlot acc.2 j 0)
    else acc) (s, v)

/-- The race records of a page's contents stand under its working frame from then on: the metadata travels with the sectors (R220). -/
def moveRecords (s : State) (src dst : Nat) : State :=
  let mine := s.granules.filter (fun e => decide (frameAddr src ≤ 32 * e.1 ∧ 32 * e.1 < frameAddr src + 2 ^ 16))
  { s with granules := ssetAll Granule.empty s.granules (mine.map (fun e => (e.1 - frameAddr src / 32 + frameAddr dst / 32, e.2))) }

/-- R321: obtains the working frame of a page: the state with the frame in place, or the subcode of the stall (R322), 0 while reads of a frame
to be recycled are in flight (R323) or the page's Snapshot Engine is offline (R468). -/
def allocFrame (s : State) (vdb : Nat) : Except Nat State :=
  let v0 := rdVdb s vdb
  let r := vdbRegion v0
  let w := rgWstep (rdRegion s r)
  let p := pushDead s v0
  let s1 := p.1
  let v := p.2
  let place (s : State) (k f : Nat) : State :=
    let slot := 2 ^ 55 + w * 2 ^ 23 + f
    let v1 := withSlot v k slot % 2 ^ 256
    putVdb (moveRecords s (slotFrame (slotOf v ((newestSlot v).getD 0))) f) vdb (v1 / 2 ^ 16 * 2 ^ 16 + 2 ^ 15 + k * 2 ^ 13 + v1 % 2 ^ 13)
  if !populated s vdb || (deadSlots s v0).any (fun j => frameRead s (slotFrame (slotOf v0 j))) then .error 0
  else match (deadSlots s1 v).head? with
  | some k => .ok (place (cleanFrame s1 (slotFrame (slotOf v k))) k (slotFrame (slotOf v k)))
  | none =>
    let d := rdRegion s1 r
    let n := rgPoolcnt d
    match (freeSlots v).head? with
    | none => .error 0x01
    | some k =>
      if n = 0 then .error 0x02
      else
        let f := rdMem s1 (rgPool d + 4 * (n - 1)) 4 % 2 ^ 23
        .ok (place (wrMem s1 (regionAddr s1 r + 32) 4 (n - 1)) k f)

/-! ### Sectors (R321) -/

/-- R321: a partial write to a sector of a working frame that is not present first fills it from the newest published frame. -/
def verFill (s : State) (vdb off : Nat) (whole : Bool) : State :=
  let v := rdVdb s vdb
  let i := off / 256
  if !vdbWv v || v.testBit (256 + i) then s
  else
    let src := frameAddr (slotFrame (slotOf v ((newestSlot v).getD 0))) + 256 * i
    let dst := frameAddr (slotFrame (slotOf v (vdbWs v))) + 256 * i
    let s1 := if whole then s
      else { s with mem := ssetAll 0#8 s.mem ((List.range 256).map (fun j => (dst + j, rdByte s (src + j)))),
                    poison := sset 0 s.poison (dst / 256) (sget 0 s.poison (src / 256)) }
    putVdb s1 vdb (v ||| 2 ^ (256 + i))

/-- The page of an active region that has a frame as a published step: the address of its VDB (R318, R320). -/
def frameHome (s : State) (frame : Nat) : Option Nat :=
  ((s.mem.filterMap (fun e => (s.regions.find? (fun r => match r.2 with
      | some l => decide (l.vdbs ≤ e.1 ∧ e.1 < l.vdbs + 64 * l.pages)
      | none => false)).bind (fun r => r.2.map (fun l => l.vdbs + (e.1 - l.vdbs) / 64 * 64)))).find? (fun vdb =>
    let v := rdVdb s vdb
    (publishedSlots v).any (fun j => decide (frameAddr (slotFrame (slotOf v j)) / 2 ^ 16 = frame))))

/-- R321: where a write-back that reaches a frozen frame goes: its sector of the working frame, which is obtained and filled for it; none where no
frame can be obtained, so that the bytes stay dirty in their cache. -/
def redirect (s : State) (key : Nat) : Option (State × Nat) :=
  match frameHome s (key / 2 ^ 16) with
  | none => none
  | some vdb =>
    match (if vdbWv (rdVdb s vdb) then .ok s else allocFrame s vdb : Except Nat State) with
    | .error _ => none
    | .ok s1 => let s2 := verFill s1 vdb (key % 2 ^ 16) false; some (s2, workingAddr s2 vdb (key % 2 ^ 16))

end Sys2Proof.Machine
end

