-- ==== Sys2Proof/Machine/Access.lean ====
section
/-!
DEFINITION. One access to memory: the checks of R182 in their order, the race records of R218 to R221, and the bytes as an agent
sees them through SW caches and provisional sectors (R187 to R192, R448).
-/
namespace Sys2Proof.Machine

/-- Who makes an access: die, package-wide core, block, mode, and the space of the user half (R182, R188, R425). -/
structure Agent where
  die : Nat
  core : Nat
  blk : Nat
  sup : Bool
  space : Nat
  /-- Granules of which the host has refused a page request of the access (R474); granules of peer memory, by key, that the peer has
  refused, 2^70 where no route has delivered in time (R405). -/
  denied : List Nat

/-- The agent of a warp's split. The dispatcher's user half is dspace (R438). -/
def agentOf (s : State) (w : Nat) (sup : Bool) : Agent :=
  let b := getBlock s (blkOf w)
  { die := b.die, core := Config.coresPerDie * b.die + b.core, blk := blkOf w, sup := sup,
    space := if b.disp then (sget DieSt.init s.dies b.die).dspace.toNat % 2 ^ 21 else b.aspace.toNat,
    denied := [] }

/-- The kind of an access in the checks of R182 and R183. -/
inductive AKind where
  | load
  | store
  /-- `str`, which is no plain write (R218). -/
  | str
  | stmc
  | fetch
  /-- `atom`, `cas`, `cas2`; and `fatom`, `fred` (R240). -/
  | near
  | far
  deriving DecidableEq, Repr

def AKind.writes : AKind → Bool
  | .load => false
  | .fetch => false
  | _ => true

/-- The outcome of the checks for one lane. -/
inductive ChkRes where
  /-- The access may be made: the leaf and the key of its first byte. -/
  | ok (l : Leaf) (key : Nat)
  /-- The check of the step fails with a cause and a subcode. -/
  | fail (step cause sub : Nat)
  /-- The page is not resident (R178): whether the walk stopped at a table, and whether the host answers. -/
  | stall (table host : Bool)
  deriving DecidableEq, Repr

def getPool (s : State) (r : Nat) : PoolRegion := sget PoolRegion.init s.pools r
/-- The key of an offset of a region: its pool device, from the region's device base on (R419, R457). -/
def poolKey (p : PoolRegion) (off : Nat) : Nat := poolBase (p.rdev.toNat % 16) + (p.rbase.toNat + off) % 2 ^ 59
/-- A region is configured and holds the key (R419). -/
def PoolRegion.holds (p : PoolRegion) (key : Nat) : Bool :=
  decide (p.status.toNat % 4 ≠ 0) && decide (poolBase (p.rdev.toNat % 16) + p.rbase.toNat ≤ key) &&
    decide (key < poolBase (p.rdev.toNat % 16) + p.rbase.toNat + p.rsize.toNat)
/-- The pool region of a key, when one that is configured holds it. -/
def poolOf (s : State) (key : Nat) : Option Nat :=
  if poolBase 0 ≤ key ∧ key < peerBase 0 then (s.pools.find? (fun e => e.2.holds key)).map (·.1) else none
/-- R421: 0 Absent, 1 Active, 2 Lost, 3 Held. -/
def poolState (s : State) (r : Nat) : Nat := (getPool s r).status.toNat % 4

/-- R404, R456: package p is reachable. -/
def peerPresent (s : State) (p : Nat) : Bool :=
  (sget 0#64 s.routes p).getLsbD 8 && decide (p ≠ s.pkg.pkgid.toNat % 1024)

/-- The UALink port of the route to a package (R456). -/
def portOf (s : State) (p : Nat) : Nat := (sget 0#64 s.routes p).toNat % 16
/-- The port's link is up (R404, R455). -/
def portUp (s : State) (port : Nat) : Bool := s.pkg.linkst.getLsbD port
/-- This package's number. -/
def selfId (s : State) : Nat := s.pkg.pkgid.toNat % 1024

/-- The package and address of a key of peer memory. -/
def peerOf (key : Nat) : Option (Nat × Nat) :=
  if peerBase 0 ≤ key ∧ key < peerBase 1024 then some ((key - peerBase 0) / 2 ^ 52, (key - peerBase 0) % 2 ^ 52) else none

/-- R404, R456: the link of the port that carries packets to the target, by a route table, is down: they are held until it recovers, or another
route is given. -/
def peerHeld (s : State) (routes : List (Nat × Word)) (key : Nat) : Bool :=
  match peerOf key with
  | some (p, _) => !portUp s ((sget 0#64 routes p).toNat % 16)
  | none => false

/-- A write of this package, or of a peer to this one, that was dropped (R405, R452). -/
def logDropped (s : State) (port pa sender : Nat) : State := vesper s 12 0x05 (vsource 3 port) pa sender 0

/-- The key of the first byte an access reaches (R179, R195, R319). -/
def leafKey (s : State) (die : Nat) (l : Leaf) (va : Nat) : Nat :=
  let off := va % 2 ^ l.bits
  if l.ver then workingAddr s l.base off
  else if l.rep then replicaAddr ((replicaSet s l.base l.level).getD 0) die off
  else if l.tgt = 0 then l.base + off
  else if l.tgt = 1 then hostBase + l.base + off
  else if l.tgt = 2 then poolKey (getPool s l.peer) (l.base + off)
  else peerBase l.peer + l.base + off

/-- The leaf names device register space (R179). -/
def leafRegs (l : Leaf) (va : Nat) : Bool := decide (l.tgt = 0) && !l.ver && !l.rep && decide (l.base + va % 2 ^ l.bits ≥ regBase)

/-- R183: the permission subcode of an access, in its order. -/
def permission (l : Leaf) (sup regs : Bool) (k : AKind) : Option Nat :=
  if !sup && (!l.u || regs) then some 0x04
  else match k with
    | .load => if l.r then none else some 0x01
    | .fetch => if l.x then none else some 0x03
    | _ => if l.w then none else some 0x02

/-- R240: an atomic that the page's target and mode do not allow. -/
def atomicRefused (l : Leaf) (regs : Bool) (k : AKind) : Bool :=
  match k with
  | .near => regs || (decide (l.tgt = 1 ∨ l.tgt = 2) && decide (l.coh = 1))
  | .far => regs || decide (l.tgt = 1 ∨ l.tgt = 2)
  | _ => false

/-- The name under which the die cache records the owner of a PRIV page (R188): its base, apart for VER and REP pages. -/
def ownerKey (l : Leaf) : Nat := if l.ver then 2 ^ 48 + l.base else if l.rep then 2 ^ 49 + l.base else l.base

/-- Steps 3 to 6 of R182 for a leaf. -/
def checkLeaf (s : State) (a : Agent) (va size : Nat) (k : AKind) (l : Leaf) : ChkRes :=
  let regs := leafRegs l va
  let set := replicaSet s l.base l.level
  if l.ver && !vdbOk s l.base then .fail 3 causePageInvalid 0x04
  else if l.rep && set.isNone then .fail 3 causePageInvalid 0x03
  else if l.tgt = 2 ∧ poolState s l.peer = 0 then .fail 3 causePageInvalid 0x05
  else if l.tgt = 3 ∧ !peerPresent s l.peer then .fail 3 causePageInvalid 0x05
  else match permission l a.sup regs k with
  | some sub => .fail 4 causePagePermission sub
  | none =>
    let key := leafKey s a.die l va
    if k = .stmc ∧ l.rep ∧ !(set.getD 0).testBit 1 then .fail 4 causePagePermission 0x05
    else if atomicRefused l regs k then .fail 4 causePagePermission 0x06
    else if k.writes ∧ l.tgt = 0 ∧ !l.ver ∧ (if l.rep then (List.range 4).any (fun q => sget false s.frozen (replicaAddr (set.getD 0) q (va % 2 ^ l.bits) / 2 ^ 16))
        else sget false s.frozen (key / 2 ^ 16)) then .fail 4 causeVersionFrozen 0x01
    else if regs ∧ k ≠ .fetch ∧ (size ≠ 8 ∨ va % 8 ≠ 0) then .fail 4 causeAlign 0
    else if l.tgt = 0 ∧ l.coh = 2 ∧ sget 0 s.owners (ownerKey l) ≠ 0 ∧ sget 0 s.owners (ownerKey l) ≠ a.core + 1 then
      .fail 5 causeCohViolation 0x01
    else if l.rep ∧ k.writes ∧ k ≠ .stmc then .fail 6 causeCollapse 0
    else if l.tgt = 3 ∧ a.denied.contains (key / 2 ^ 16) then .fail 4 causePagePermission 0x07
    else if l.tgt = 3 ∧ a.denied.contains (2 ^ 70) then .fail 4 causeMemUe 0
    else .ok l key

/-- Steps 3 to 6 of R182. -/
def checkAddr (s : State) (a : Agent) (va size : Nat) (k : AKind) : ChkRes :=
  if va ≥ 2 ^ 56 then .fail 3 causePageInvalid 0x02
  else if !a.sup && va.testBit 55 then .fail 4 causePagePermission 0x04
  else match lookup s a.die a.space va with
  | .invalid sub => .fail 3 causePageInvalid sub
  | .absent table host => if host && a.denied.contains (va / 2 ^ 16) then .fail 3 causePageInvalid 0x01 else .stall table host
  | .leaf l =>
    if hostNeedsRequest s a.space va l k.writes then
      (if a.denied.contains (va / 2 ^ 16) then .fail 3 causePageInvalid 0x01 else .stall false true)
    else checkLeaf s a va size k l

/-- The marks an access leaves once it is certain to be made: walker bits, TLB entry, PRIV owner (R177, R180, R188). -/
def touch (s : State) (a : Agent) (va : Nat) (l : Leaf) (write : Bool) : State :=
  let s := touchLeaf s a.die a.space va l write
  if l.tgt = 0 ∧ l.coh = 2 then { s with owners := sset 0 s.owners (ownerKey l) (a.core + 1) } else s

/-- R180: an access that a check refuses has walked its page, and the leaf stands in the TLB. -/
def walked (s : State) (a : Agent) (va : Nat) : State :=
  if va ≥ 2 ^ 56 ∨ (!a.sup && va.testBit 55) then s
  else match lookup s a.die a.space va with
  | .leaf l => tlbEnter s a.die a.space va l
  | _ => s

/-- The walks of accesses that were refused. -/
def walkedAll (s : State) (a : Agent) (vas : List Nat) : State := vas.foldl (fun s v => walked s a v) s

/-! ### Race detection (R218 to R221) -/

/-- R220: a recorded access of a block with its release count is ordered before an access of block b. -/
def orderedBefore (s : State) (b : Nat) (e : Nat × Nat) : Bool :=
  decide (e.1 = b) || decide (sget 0 s.acquired (2 ^ 32 * b + e.1) ≥ e.2)

def getGranule (s : State) (key : Nat) : Granule := sget Granule.empty s.granules (key / 32)

/-- The checked races that an access of block b would be (R218, R219), the record of the write first: subcode and the earlier block.
`write` says that it writes, `plain` that it is a plain write. -/
def races (s : State) (b key : Nat) (write plain : Bool) : List (Nat × Nat) :=
  let g := getGranule s key
  (g.write.toList.filter (fun e => !orderedBefore s b e)).map (fun e => (if write then 0x01 else 0x02, e.1)) ++
    (if plain then (g.readers.filter (fun r => !orderedBefore s b r)).map (fun r => (0x03, r.1)) else [])

/-- R221: a race with an earlier block's access involves a saturated granule or block, and is counted and not raised. -/
def raceSaturated (s : State) (b key : Nat) (e : Nat × Nat) : Bool :=
  (getGranule s key).saturated || (getBlock s b).saturated || (getBlock s e.2).saturated

/-- The checked races of an access by its kind: `str` is a write and no plain write, an atomic is checked as a read (R218, R243). -/
def racesOf (s : State) (b key : Nat) (l : Leaf) (k : AKind) : List (Nat × Nat) :=
  if !l.chk then []
  else match k with
    | .fetch => []
    | .store => races s b key true true
    | .stmc => races s b key true true
    | .str => races s b key true false
    | _ => races s b key false false

/-- The subcode of the race trap of an access, if any (R219). -/
def raceTrap (s : State) (b key : Nat) (l : Leaf) (k : AKind) : Option Nat :=
  (((racesOf s b key l k).filter (fun e => !raceSaturated s b key e)).head?).map (·.1)

/-- The key under which an access through a leaf is checked and recorded: of a VER page with a working frame its place there, whether its sector
is filled yet or not (R220, R319). -/
def raceSpot (s : State) (l : Leaf) (va key : Nat) : Nat :=
  if l.ver then
    let v := rdVdb s l.base
    if vdbWv v then frameAddr (slotFrame (slotOf v (vdbWs v))) + va % 2 ^ 16 else key
  else key

/-- The keys under which an access is checked and recorded: its place, and the further copies that an `stmc` writes (R196, R218). -/
def raceKeys (s : State) (l : Leaf) (x : Acc) : List Nat := raceSpot s l x.va x.key :: x.also

/-- Adds a reader to a granule record (R220, R221). -/
def addReader (g : Granule) (b c : Nat) : Granule :=
  if g.readers.any (fun r => r.1 = b) then { g with readers := g.readers.map (fun r => if r.1 = b then (b, c) else r) }
  else if g.readers.length ≥ 4 then { g with saturated := true }
  else { g with readers := g.readers ++ [(b, c)] }

/-- Counts n races of a block that are not raised (R221). -/
def countRaces (s : State) (b n : Nat) : State :=
  if n = 0 then s else let x := getBlock s b; setBlock s b { x with races := min (2 ^ 32 - 1) (x.races + n) }

/-- Records an access of block b at its granule (R220, R221). -/
def noteAccess (s : State) (b key : Nat) (k : AKind) : State :=
  let c := (getBlock s b).releases + 1
  match k with
  | .store => { s with granules := sset Granule.empty s.granules (key / 32) { write := some (b, c), readers := [], saturated := false } }
  | .stmc => { s with granules := sset Granule.empty s.granules (key / 32) { write := some (b, c), readers := [], saturated := false } }
  | .load => { s with granules := sset Granule.empty s.granules (key / 32) (addReader (getGranule s key) b c) }
  | _ => s

/-- Records a thread's access, counting the races that a saturated state hides (R220, R221). -/
def raceRecord (s : State) (b key : Nat) (l : Leaf) (k : AKind) : State :=
  if !l.chk then s
  else noteAccess (countRaces s b ((racesOf s b key l k).filter (fun e => raceSaturated s b key e)).length) b key k

/-- What an access leaves that is certain to be made: the walker's marks, and its race records (R177, R180, R220). -/
def noteAcc (s : State) (a : Agent) (k : AKind) (l : Leaf) (x : Acc) : State :=
  (raceKeys s l x).foldl (fun s q => raceRecord s a.blk q l k) (touch s a x.va l k.writes)

/-- The subcode of the race trap of an access at any of its copies (R218, R219). -/
def raceAcc (s : State) (a : Agent) (k : AKind) (l : Leaf) (x : Acc) : Option Nat :=
  (raceKeys s l x).findSome? (fun q => raceTrap s a.blk q l k)

/-- R209: the scope instances of a mark's release and of an operation of block b contain each other. -/
def scopeMatch (s : State) (m : Mark) (b sc : Nat) : Bool :=
  let y := getBlock s b
  let inside (sc : Nat) : Bool :=
    if sc ≤ 1 then decide (m.blk = b) else if sc = 2 then decide (m.blk = b) || decide (m.cluster = y.cluster)
    else if sc = 3 then decide (m.die = y.die) else true
  inside m.scope && inside sc

/-- The release counts block b passes on with a release: its own and those it has acquired (R220). -/
def releaseCounts (s : State) (b : Nat) : List (Nat × Nat) :=
  (b, (getBlock s b).releases) ::
    (s.acquired.filter (fun e => e.1 / 2 ^ 32 = b)).map (fun e => (e.1 % 2 ^ 32, e.2))

/-- R220: block b performs a release; its count rises, and the mark that its write carries is returned. -/
def performRelease (s : State) (b scope : Nat) : State × Mark :=
  let bl := getBlock s b
  let s := setBlock s b { bl with releases := bl.releases + 1 }
  (s, { blk := b, die := bl.die, cluster := bl.cluster, scope := scope, counts := releaseCounts s b })

/-- R220, R221: block b acquires the counts of a mark; a 65th entry saturates the block. -/
def acquireMark (s : State) (b scope : Nat) (m : Mark) : State :=
  if m.blk = b ∨ !scopeMatch s m b scope then s
  else m.counts.foldl (fun s e =>
    if e.1 = b then s
    else
      let k := 2 ^ 32 * b + e.1
      let old := sget 0 s.acquired k
      if old ≥ e.2 then s
      else if old = 0 ∧ (s.acquired.filter (fun x => x.1 / 2 ^ 32 = b)).length ≥ 64 then
        setBlock s b { getBlock s b with saturated := true }
      else { s with acquired := sset 0 s.acquired k e.2 }) s

/-- The marks that a thread's writes carry after its release fences (R211). -/
def laneMarks (s : State) (w lane : Nat) : List Mark := sget [] s.fenceMarks (lkey w lane)

/-- The cache number of a core's L1 and of a die cache. -/
def l1Of (core : Nat) : Nat := core
def dcOf (die : Nat) : Nat := 192 + die
def swKey (cache key : Nat) : Nat := 2 ^ 80 * cache + key

def swByte (s : State) (cache key : Nat) : Option (Byte × Bool) := sget none s.swc (swKey cache key)

/-- The key of the marks of a byte as a cache holds it; the home's marks stand under the byte's own key. -/
def cacheMark (cache key : Nat) : Nat := 2 ^ 100 + swKey cache key

/-- Copies the marks of bytes from one holder to another. -/
def copyMarks (s : State) (src dst : Nat → Nat) (ks : List Nat) : State :=
  if s.marks.isEmpty then s else { s with marks := ssetAll [] s.marks (ks.map (fun k => (dst k, sget [] s.marks (src k)))) }

/-- The marks a write leaves at its bytes: those of its own release and of the thread's earlier release fences; a read-modify-write
keeps those of the release sequence (R211). -/
def writeMarks (s : State) (key n : Nat) (keep : Bool) (m : List Mark) : State :=
  if s.marks.isEmpty ∧ m = [] then s
  else { s with marks := ssetAll [] s.marks ((List.range n).map (fun i => (key + i, (m ++ (if keep then sget [] s.marks (key + i) else [])).dedup))) }

/-- The marks at bytes of the home. -/
def marksAt (s : State) (key n : Nat) : List Mark :=
  if s.marks.isEmpty then [] else ((List.range n).flatMap (fun i => sget [] s.marks (key + i))).dedup

/-- Acquires a list of marks. -/
def acquireAll (s : State) (b scope : Nat) (ms : List Mark) : State := ms.foldl (fun s m => acquireMark s b scope m) s

/-- The marks an acquire finds at the bytes it read. -/
def acquireAt (s : State) (b scope key n : Nat) : State := acquireAll s b scope (marksAt s key n)

/-- The marks of bytes as a load of a core reads them: those of the copy that answers (R187, R211). -/
def viewMarks (s : State) (core : Nat) (sw : Bool) (key n : Nat) : List Mark :=
  if s.marks.isEmpty then []
  else ((List.range n).flatMap (fun i =>
    let k := key + i
    let die := core / Config.coresPerDie
    sget [] s.marks (if sw && (swByte s (l1Of core) k).isSome then cacheMark (l1Of core) k
      else if sw && (swByte s (dcOf die) k).isSome then cacheMark (dcOf die) k else k))).dedup

/-- A read records the marks it saw, for a later acquire fence of the thread (R211). -/
def seeMarks (s : State) (w lane : Nat) (ms : List Mark) : State :=
  match ms with
  | [] => s
  | ms => { s with seen := sset [] s.seen (lkey w lane) (ms ++ sget [] s.seen (lkey w lane)).dedup }

/-! ### Bytes as an agent sees them -/

def provByte (s : State) (b key : Nat) : Option Byte := sget none s.prov (2 ^ 80 * b + key)

/-- A byte below the L1: the die cache's copy or the home's (R187). -/
def dieByte (s : State) (die key : Nat) : Byte := ((swByte s (dcOf die) key).map (·.1)).getD (rdByte s key)

/-- A byte as a load of the agent reads it. -/
def viewByte (s : State) (a : Agent) (sw : Bool) (key : Nat) : Byte :=
  match provByte s a.blk key with
  | some b => b
  | none =>
    if sw then
      match swByte s (l1Of a.core) key with
      | some b => b.1
      | none => dieByte s a.die key
    else rdByte s key

/-- n bytes as a load of the agent reads them, little-endian. -/
def viewMem (s : State) (a : Agent) (sw : Bool) (key n : Nat) : Nat :=
  (List.range n).foldl (fun v i => v + (viewByte s a sw (key + i)).toNat * 2 ^ (8 * i)) 0

/-- The keys of the sector of a byte (R21). -/
def sectorKeys (key : Nat) : List Nat := (List.range 256).map (fun i => key / 256 * 256 + i)

/-- Fills the sector of a key into a cache from the values and marks given, keeping bytes already there. -/
def fillSector (s : State) (cache : Nat) (key : Nat) (below : Nat → Byte) (src : Nat → Nat) : State :=
  let ks := (sectorKeys key).filter (fun k => (swByte s cache k).isNone)
  { copyMarks s src (cacheMark cache) ks with swc := ssetAll none s.swc (ks.map (fun k => (swKey cache k, some (below k, false)))) }

/-- Drops the clean bytes of a sector from a cache. -/
def dropClean (s : State) (cache key : Nat) : State :=
  { s with swc := ssetAll none s.swc (((sectorKeys key).filter (fun k => match swByte s cache k with | some b => !b.2 | none => false)).map
      (fun k => (swKey cache k, none))) }

/-- R191, R193: cached clean bytes that differ from the level below may have been evicted, by a free choice (log 20). -/
def evictStale (s : State) (a : Agent) (key n : Nat) : State :=
  let stale := (List.range n).any (fun i => match swByte s (l1Of a.core) (key + i) with
    | some b => !b.2 && decide (b.1 ≠ dieByte s a.die (key + i))
    | none => false)
  let s1 := if stale && Config.evicted (2 * s.free) then dropClean s (l1Of a.core) key else s
  let stale2 := (List.range n).any (fun i => match swByte s1 (dcOf a.die) (key + i) with
    | some b => !b.2 && decide (b.1 ≠ rdByte s1 (key + i))
    | none => false)
  if stale2 && Config.evicted (2 * s.free + 1) then dropClean s1 (dcOf a.die) key else s1

/-- The way limit of a class on a die (R193). -/
def wayLimit (s : State) (die cls : Nat) : Nat :=
  let d := sget DieSt.init s.dies die
  (if cls = 0 then d.clsq0 else if cls = 1 then d.clsq1 else if cls = 2 then d.clsq2 else d.clsq3).toNat % 32

/-- R193: the way limit of a page's class on a die is 0, so that its lines are allocated nowhere. -/
def classBarred (s : State) (die cls : Nat) : Bool := decide (wayLimit s die cls = 0)

/-- The writes of a block are provisional (R448). -/
def provisional (s : State) (b : Nat) : Bool := let x := getBlock s b; x.rst && !x.committed

/-- R316, R320: the engines take a version region's fields when its act bit becomes 1, and leave it when the bit becomes 0. The frames that its
pages hold as published steps are frozen from then on. The region descriptors that a write to memory touched are examined. -/
def syncRegion (s : State) (r : Nat) : State :=
  let d := rdMem s (s.pkg.vrtab.toNat + 64 * r) 64
  if d.testBit 41 then
    match getRegion s r with
    | some _ => s
    | none =>
      let s1 := { s with regions := sset none s.regions r (some (latchFields d)) }
      { s1 with frozen := ssetAll false s1.frozen ((List.range (latchFields d).pages).flatMap (fun j =>
          let v := rdVdb s1 ((latchFields d).vdbs + 64 * j)
          (publishedSlots v).map (fun k => (frameAddr (slotFrame (slotOf v k)) / 2 ^ 16, true)))) }
  else { s with regions := sset none s.regions r none }

def syncRegions (s : State) (key n : Nat) : State :=
  let v := s.pkg.vrtab.toNat
  if v ≠ 0 ∧ key + n > v ∧ key < v + 64 * 4096 then
    let lo := (key - v) / 64
    let hi := min 4095 ((key + n - 1 - v) / 64)
    (List.range (hi + 1 - lo)).foldl (fun s i => syncRegion s (lo + i)) s
  else s

/-- The region descriptors of a table that memory lists are examined: those of a table whose base is written. -/
def syncTable (s : State) : State :=
  let v := s.pkg.vrtab.toNat
  let s0 := { s with regions := [] }
  if v = 0 then s0
  else (((s0.mem.filter (fun e => decide (v ≤ e.1 ∧ e.1 < v + 64 * 4096))).map (fun e => (e.1 - v) / 64)).dedup).foldl syncRegion s0

/-- R320: a memory die refuses a write to a frozen frame, but for the Snapshot Engine's own. -/
def frozenKey (s : State) (key : Nat) : Bool := decide (key < regBase) && sget false s.frozen (key / 2 ^ 16)

/-- R50: the words among those given that differ in a later memory, with the number of the next launch: a launch begun before may still
fetch them. -/
def noteWords (s s' : State) (ws : List Nat) : State :=
  let ks := ws.filter (fun k => rdMem s k 8 ≠ rdMem s' k 8)
  { s with icode := ssetAll [] s.icode (ks.map (fun k => (k, (BitVec.ofNat 64 (rdMem s k 8), s.nextNode) :: sget [] s.icode k))) }

/-- R50: the words that a write to n bytes from a key replaces. -/
def notePast (s : State) (key n v : Nat) : State :=
  noteWords s (wrMem s key n v) ((List.range ((key + n - 1) / 8 + 1 - key / 8)).map (fun i => key / 8 * 8 + 8 * i))

/-- Writes bytes at the home; SW copies stay as they are (R187). -/
def writeRaw (s : State) (key n v : Nat) : State := syncRegions (wrMem (notePast s key n v) key n v) key n

/-- The distinct numbers of a rising list. -/
def runs : List Nat → List Nat
  | [] => []
  | [x] => [x]
  | x :: y :: r => if x = y then runs (y :: r) else x :: runs (y :: r)

/-- The 8-byte words of cells whose keys rise. -/
def wordsOf (cs : List Host.Cell) : List Nat := runs (cs.map (fun e => e.1 / 8 * 8))

/-- The region descriptors that writes to words touch are examined (R316). -/
def syncWords (s : State) (ws : List Nat) : State := ws.foldl (fun s k => syncRegions s k 8) s

/-- Writes cells at the home, as one write (R50). -/
def writeCells (s : State) (cs : List Host.Cell) : State :=
  let s1 : State := { s with mem := ssetAll 0#8 s.mem cs }
  syncWords { s1 with icode := (noteWords s s1 (wordsOf cs)).icode } (wordsOf cs)

/-- Provisional sectors of a block, by number (R448). -/
def provSectors (s : State) (b : Nat) : List Nat :=
  runs ((s.prov.filter (fun e => e.1 / 2 ^ 80 = b)).map (fun e => e.1 % 2 ^ 80 / 256))

/-- R448: the block's held writes are performed in one step, and it is no longer restartable. A sector that one held write covered
whole loses its poison. -/
def commitBlock (s : State) (b : Nat) : State :=
  let ws := ((s.prov.filter (fun e => e.1 / 2 ^ 80 = b)).filterMap (fun e => e.2.map (fun x => (e.1 % 2 ^ 80, x)))).filter (fun e => !frozenKey s e.1)
  let full := (s.provFull.filter (fun e => e.1 / 2 ^ 80 = b)).map (fun e => e.1 % 2 ^ 80)
  let s1 := { s with mem := ssetAll 0#8 s.mem ws,
                     poison := full.foldl (fun p x => sset 0 p x 0) s.poison,
                     prov := s.prov.filter (fun e => e.1 / 2 ^ 80 ≠ b), provFull := s.provFull.filter (fun e => e.1 / 2 ^ 80 ≠ b) }
  let s2 := syncWords { s1 with icode := (noteWords s s1 (wordsOf ws)).icode } (wordsOf ws)
  setBlock s2 b { getBlock s2 b with committed := true }

/-- R448: a write by another agent to a line with provisional sectors of a block makes the block commit first. Agent 0 + b is block b;
other agents pass a number no block has. -/
def foreignCommit (s : State) (who key n : Nat) : State :=
  if s.prov.isEmpty then s
  else
    let owners := ((s.prov.filter (fun e => decide (e.1 / 2 ^ 80 ≠ who) && decide (key / 1024 ≤ e.1 % 2 ^ 80 / 1024) &&
      decide (e.1 % 2 ^ 80 / 1024 ≤ (key + n - 1) / 1024))).map (fun e => e.1 / 2 ^ 80)).dedup
    owners.foldl commitBlock s

/-- Writes bytes at the home by an agent that is no block, or a block's committed write; a frozen frame takes none (R320, log 64). -/
def writeHome (s : State) (who key n v : Nat) : State :=
  let s1 := foreignCommit s who key n
  if frozenKey s1 key then s1 else writeRaw s1 key n v

/-- A write of an agent outside the package's cores: its bytes carry no release (R211). -/
def writeOutside (s : State) (key n v : Nat) : State := writeMarks (writeHome s (2 ^ 40) key n v) key n false []

/-- R422: a write to a HW line of the pool leaves the line dirty in the package: the device keeps its bytes until the write-back. -/
def keepOld (s : State) (key n : Nat) : State :=
  if poolBase 0 ≤ key ∧ key < peerBase 0 then
    { s with poolOld := ssetAll none s.poolOld ((((List.range n).map (key + ·)).filter (fun k => (sget none s.poolOld k).isNone)).map (fun k => (k, some (rdByte s k)))) }
  else s

/-- R420, R457: the dirty bytes of HW pool lines that satisfy p have reached the device. -/
def flushOld (s : State) (p : Nat → Bool) : State := { s with poolOld := s.poolOld.filter (fun e => !p e.1) }

/-- A write to a HW page at its coherence point: the home as every agent sees it, with the dirty state of a pool line (R187, R422). -/
def writeHw (s : State) (who key n v : Nat) : State := writeHome (keepOld s key n) who key n v

/-- Holds bytes provisionally; a block that exceeds 256 KiB, or brings its die above 16 MiB, commits (R448). -/
def writeProv (s : State) (b key n v : Nat) : State :=
  let s := foreignCommit s b key n
  let s1 := { s with prov := ssetAll none s.prov ((cellsOf key n v).map (fun e => (2 ^ 80 * b + e.1, some e.2))),
                     provFull := if key % 256 = 0 ∧ n = 256 then sset false s.provFull (2 ^ 80 * b + key / 256) true else s.provFull }
  let die := (getBlock s b).die
  let onDie : Nat := (s1.blocks.filter (fun e => e.2.die = die)).foldl (fun (k : Nat) e => k + (provSectors s1 e.1).length) 0
  if (provSectors s1 b).length > 1024 ∨ onDie > 65536 then commitBlock s1 b else s1

/-- Writes bytes of a SW page at a level: 0 the L1, 1 the die cache, 2 the home. Copies above the level take the new bytes. -/
def swPut (s : State) (a : Agent) (level key n v : Nat) : State :=
  let cs := cellsOf key n v
  let upd (cache : Nat) (s : State) : State :=
    { s with swc := ssetAll none s.swc ((cs.filter (fun e => (swByte s cache e.1).isSome)).map (fun e => (swKey cache e.1, some (e.2, false)))) }
  let put (cache : Nat) (s : State) : State := { s with swc := ssetAll none s.swc (cs.map (fun e => (swKey cache e.1, some (e.2, true)))) }
  match level with
  | 0 => put (l1Of a.core) s
  | 1 => put (dcOf a.die) (upd (l1Of a.core) s)
  | _ => writeHome (upd (dcOf a.die) (upd (l1Of a.core) s)) a.blk key n v

/-- The level at which a write with a policy lands: a hit at any level is used, and a class of limit 0 is allocated nowhere (R193, R195). -/
def polLevel (s : State) (a : Agent) (cls pol key : Nat) : Nat :=
  if (swByte s (l1Of a.core) key).isSome then 0
  else if pol = 2 ∨ classBarred s a.die cls then (if (swByte s (dcOf a.die) key).isSome then 1 else 2)
  else if pol = 1 then 1 else 0

/-- The level of a scope (R192). -/
def scopeLevel (scope : Nat) : Nat := if scope ≤ 1 then 0 else if scope ≤ 3 then 1 else 2

/-- Writes bytes for an agent: held provisionally, in a SW page at a level, or at the home (R187, R195, R448). -/
def writeAt (s : State) (a : Agent) (sw : Bool) (level key n v : Nat) : State :=
  if provisional s a.blk ∧ key < regBase then writeProv s a.blk key n v
  else if sw then swPut s a level key n v
  else writeHw s a.blk key n v

/-- Writes bytes for an agent with a policy. -/
def writeFor (s : State) (a : Agent) (sw : Bool) (cls pol key n v : Nat) : State := writeAt s a sw (polLevel s a cls pol key) key n v

/-- The holder of a byte written at a level, for its marks: the home, or the cache of the level. -/
def levelMark (a : Agent) (sw : Bool) (level key : Nat) : Nat :=
  if sw && decide (level = 0) then cacheMark (l1Of a.core) key else if sw && decide (level = 1) then cacheMark (dcOf a.die) key else key

/-! ### Lost pool regions -/

/-- R186, R423: a write to a Lost region is discarded and counted. -/
def poolDiscard (s : State) (r : Nat) : State :=
  let p := getPool s r
  let d := min 65535 (p.status.toNat / 2 ^ 48 + 1)
  { s with pools := sset PoolRegion.init s.pools r { p with status := BitVec.ofNat 64 (d * 2 ^ 48 + p.status.toNat % 2 ^ 48 / 8 * 8 + 4 + p.status.toNat % 4) } }

/-- The key lies in a pool region that is Lost or Held (R423). -/
def lostKey (s : State) (key : Nat) : Bool := match poolOf s key with | some r => decide (poolState s r ≥ 2) | none => false

/-! ### Write-back and invalidation of SW lines (R192, R204) -/

/-- Dirty bytes of a cache that satisfy p. -/
def dirtyOf (s : State) (cache : Nat) (p : Nat → Bool) : List (Nat × Byte) :=
  s.swc.filterMap (fun e => match e.2 with
    | some (b, true) => if e.1 / 2 ^ 80 = cache ∧ p (e.1 % 2 ^ 80) then some (e.1 % 2 ^ 80, b) else none
    | _ => none)

/-- Writes the dirty bytes of an L1 back to its die cache. -/
def wbL1 (p : Nat → Bool) (s : State) (core : Nat) : State :=
  let ds := dirtyOf s (l1Of core) p
  let dc := dcOf (core / Config.coresPerDie)
  let s := copyMarks s (cacheMark (l1Of core)) (cacheMark dc) (ds.map (·.1))
  { s with swc := ssetAll none s.swc (ds.map (fun e => (swKey (l1Of core) e.1, some (e.2, false))) ++
      ds.map (fun e => (swKey dc e.1, some (e.2, true)))) }

/-- A dirty byte does not reach its peer: no link carries the write-back, or the peer refuses it (R404, R405, log 77). -/
def peerLoses (s : State) (key : Nat) : Bool :=
  match peerOf key with
  | some (p, _) => !(peerPresent s p && portUp s (portOf s p)) || Config.peerRefuses (s.free * 2 ^ 90 + key / 256)
  | none => false

/-- A dirty byte of a die cache that reaches a frozen frame is redirected into the working frame of its page (R321). -/
def wbFrozen (die : Nat) (s : State) (e : Nat × Byte) : State :=
  match redirect s e.1 with
  | none => s
  | some (s1, k) => writeCells { s1 with swc := sset none s1.swc (swKey (dcOf die) e.1) none } [(k, e.2)]

/-- Writes the dirty bytes of a die cache back to their homes; those of a Lost pool region are discarded, each sector counted (R238), and those
that do not reach a peer are discarded and recorded (R405). -/
def wbDc (p : Nat → Bool) (s : State) (die : Nat) : State :=
  let ds := dirtyOf s (dcOf die) p
  let live := ds.filter (fun e => !frozenKey s e.1)
  let lost := live.filter (fun e => lostKey s e.1)
  let cut := live.filter (fun e => peerLoses s e.1)
  let kept := live.filter (fun e => !lostKey s e.1 && !peerLoses s e.1)
  let s1 := copyMarks s (cacheMark (dcOf die)) id (kept.map (·.1))
  let s2 : State := { s1 with swc := ssetAll none s1.swc (live.map (fun e => (swKey (dcOf die) e.1, some (e.2, false)))) }
  let s3 := (runs (lost.map (fun e => e.1 / 256))).foldl (fun s k => poolDiscard s ((poolOf s (256 * k)).getD 0)) s2
  let s4 := (runs (cut.map (fun e => e.1 / 256))).foldl (fun s k => match peerOf (256 * k) with
    | some (q, pa) => logDropped s (portOf s q) pa (selfId s)
    | none => s) s3
  let s5 := writeCells (kept.foldl (fun s e => foreignCommit s (2 ^ 40) e.1 1) s4) kept
  (ds.filter (fun e => frozenKey s e.1)).foldl (wbFrozen die) s5

/-- Drops a cache's bytes that satisfy p. -/
def dropCache (p : Nat → Bool) (s : State) (cache : Nat) : State :=
  { s with swc := s.swc.filter (fun e => !(decide (e.1 / 2 ^ 80 = cache) && p (e.1 % 2 ^ 80))) }

/-! ### Lines of a die cache (R193, R448) -/

/-- The blocks of a die that hold provisional bytes in a line. -/
def lineProv (s : State) (die line : Nat) : List Nat :=
  (runs ((s.prov.filter (fun e => e.1 % 2 ^ 80 / 1024 = line)).map (fun e => e.1 / 2 ^ 80))).filter (fun b => (getBlock s b).die = die)

/-- The line that a fill of a class evicts from its set: the one used last longest ago of the class where the class holds its limit, otherwise
that of a full set; one that holds provisional sectors only where every candidate does (R193, R448). -/
def victimLine (s : State) (die cls line : Nat) : Option Nat :=
  let set := ((sget [] s.dcLru die).filter (fun e => decide (e.1 ≠ line ∧ Config.dcSet e.1 % 4096 = Config.dcSet line % 4096)))
  let mine := set.filter (fun e => e.2 = cls)
  let from_ := (if mine.length ≥ wayLimit s die cls then mine else if set.length ≥ 16 then set else []).reverse
  ((from_.find? (fun e => (lineProv s die e.1).isEmpty)).or from_.head?).map (·.1)

/-- Evicts a line from a die cache: blocks whose provisional sectors it holds commit early, and its dirty bytes are written back (R193, R448). -/
def evictLine (s : State) (die line : Nat) : State :=
  let s1 := (lineProv s die line).foldl commitBlock s
  dropCache (fun k => decide (k / 1024 = line)) (wbDc (fun k => decide (k / 1024 = line)) s1 die) (dcOf die)

/-- An access of a die uses or fills a line of its cache: policy 2 allocates nothing, policy 3 places the line next for eviction, and a class of
limit 0 is not allocated (R193, R195). -/
def dcTouch (s : State) (die cls pol key : Nat) : State :=
  let line := key / 1024
  let xs := sget [] s.dcLru die
  let hit := xs.any (fun e => e.1 = line)
  if key ≥ tileBase 0 ∨ (!hit ∧ (pol = 2 ∨ classBarred s die cls)) then s
  else
    let victim := if hit then none else victimLine s die cls line
    let rest := xs.filter (fun e => decide (e.1 ≠ line ∧ some e.1 ≠ victim))
    let s1 : State := { s with dcLru := sset [] s.dcLru die (if pol = 3 then rest ++ [(line, cls)] else (line, cls) :: rest) }
    if s.swc.isEmpty && s.prov.isEmpty then s1
    else match victim with
      | some v => evictLine s1 die v
      | none => s1

/-- Reads bytes for an agent: the bytes, their marks, and SW sectors allocated by the policy, of a class that may be allocated (R187, R193,
R195). -/
def readFor (s : State) (a : Agent) (sw : Bool) (cls pol key n : Nat) : State × Nat × List Mark :=
  let s := dcTouch s a.die cls pol key
  if sw then
    let s := evictStale s a key n
    let v := viewMem s a true key n
    let ms := viewMarks s a.core true key n
    let none_ := decide (pol = 2) || classBarred s a.die cls
    let s := if none_ then s else fillSector s (dcOf a.die) key (rdByte s) id
    let s := if none_ || decide (pol = 1) then s
      else fillSector s (l1Of a.core) key (dieByte s a.die) (fun k => if (swByte s (dcOf a.die) k).isSome then cacheMark (dcOf a.die) k else k)
    (s, v, ms)
  else (s, viewMem s a false key n, viewMarks s a.core false key n)

/-! ### Scopes -/

/-- The L1s and die caches below a scope (R192). -/
def l1sBelow (die scope : Nat) : List Nat :=
  if scope ≤ 1 then [] else if scope ≤ 3 then (List.range 48).map (fun c => 48 * die + c) else List.range 192
def dcsBelow (scope : Nat) : List Nat := if scope ≤ 3 then [] else List.range 4

/-- Writes back the dirty SW bytes that satisfy p from the caches below a scope. -/
def wbScope (s : State) (die scope : Nat) (p : Nat → Bool) : State :=
  if s.swc.isEmpty then s
  else (dcsBelow scope).foldl (wbDc p) ((l1sBelow die scope).foldl (wbL1 p) s)

/-- Writes back, then invalidates, the SW bytes that satisfy p in the caches below a scope. -/
def invScope (s : State) (die scope : Nat) (p : Nat → Bool) : State :=
  if s.swc.isEmpty then s
  else
    let s := wbScope s die scope p
    (dcsBelow scope).foldl (fun s d => dropCache p s (dcOf d)) ((l1sBelow die scope).foldl (fun s c => dropCache p s (l1Of c)) s)

/-- R235, R241, R246, R283: before an operation is performed at the home of bytes of a SW page, performed stores to them that still lie in
caches of the package are written back. The copies that caches hold are not updated. -/
def settleSw (s : State) (a : Agent) (key n : Nat) : State :=
  let p (k : Nat) : Bool := decide (key ≤ k) && decide (k < key + n)
  if s.swc.any (fun e => p (e.1 % 2 ^ 80)) then wbScope s a.die 7 p else s

/-! ### Data faults and poison (R182 step 8, R186) -/

/-- A sector is poisoned for a block: one that a held write of the block covered whole is not (R448). Other agents pass a number no
block has. -/
def poisonFor (s : State) (who sec : Nat) : Bool := decide (sget 0 s.poison sec ≠ 0) && !sget false s.provFull (2 ^ 80 * who + sec)

/-- The cause of a data fault of a load at a key (R182 step 8). -/
def dataFault (s : State) (who key n : Nat) : Option Nat :=
  if lostKey s key then some causePoolLost
  else if poisonFor s who (key / 256) || poisonFor s who ((key + n - 1) / 256) then some causeMemUe
  else none

end Sys2Proof.Machine
end

