-- ==== Sys2Proof/Machine/Checks.lean ====
section
/-!
DEFINITION. The checks of an instruction word in decoding order (R51 to R54, R60, R61). Each field has a check that answers the
subcode of the ILLEGAL_OPERAND trap it raises, or none.
-/
namespace Sys2Proof.Machine

/-- What the checks read beside the word: the state of the warp, the block and the split that bear on encodings. -/
structure Env where
  f : Fields
  /-- The warp's vector registers (R27). -/
  vregs : Nat
  /-- fcr[2:0] (R54). -/
  rm : Nat
  /-- A queue has an armed load stream, or an armed store stream, in every active lane (R51). -/
  ldq : Nat → Bool
  stq : Nat → Bool
  /-- Units allocated to the block (R32). -/
  naos : Nat
  ncb : Nat
  tiles : Nat
  /-- The split runs in supervisor mode (R425); the warp is a dispatcher (R352). -/
  sup : Bool
  disp : Bool

/-- The most permissive surroundings a word can meet. -/
def Env.permissive (f : Fields) : Env :=
  { f := f, vregs := 192, rm := 0, ldq := fun _ => true, stq := fun _ => true, naos := 64, ncb := 32, tiles := 192, sup := true,
    disp := true }

/-- A field's check: the subcode of ILLEGAL_OPERAND (R61). -/
abbrev Chk := Env → Option Nat

/-- The first of two checks that fails. -/
def Chk.and (p q : Chk) : Chk := fun e => (p e).or (q e)

/-- No check. -/
def chkAny : Chk := fun _ => none

/-- A condition that holds, or the subcode. -/
def chkIf (sub : Nat) (p : Env → Bool) : Chk := fun e => if p e then none else some sub

/-! ### Register codes (R51) -/

def isV (x : BitVec 8) : Bool := decide (x.toNat < 0xC0)
def isS (x : BitVec 8) : Bool := decide (0xC0 ≤ x.toNat ∧ x.toNat < 0xE0)
def isQ (x : BitVec 8) : Bool := decide (0xE0 ≤ x.toNat ∧ x.toNat < 0xE4)
def isZ (x : BitVec 8) : Bool := decide (x = 0xE4#8)
def isL (x : BitVec 8) : Bool := decide (x = 0xE5#8)
def isImm (x : BitVec 8) : Bool := decide (x = 0xFF#8)
/-- A scalar register or `zero`. -/
def isSZ (x : BitVec 8) : Bool := isS x || isZ x

/-- R51: the register codes that every source field refuses. -/
def badReg (e : Env) (x : BitVec 8) : Option Nat :=
  if 0xE6 ≤ x.toNat ∧ x.toNat < 0xFF then some 0x01
  else if isV x ∧ x.toNat ≥ e.vregs then some 0x02
  else none

/-- R75: under a scalar destination a source is a scalar register, `zero` or the immediate. -/
def scalarRule (e : Env) (x : BitVec 8) : Option Nat :=
  if isS e.f.d && (isV x || isQ x || isL x) then some 0x04 else none

/-- A read of a queue needs an armed load stream (R51). -/
def queueRead (e : Env) (x : BitVec 8) : Option Nat :=
  if isQ x && !(e.ldq (x.toNat - 0xE0)) then some 0x09 else none

/-- A field that the instruction does not use (R52). -/
def unusedOf (x : BitVec 8) : Option Nat := if isZ x then none else some 0x04

/-- A source field that takes no immediate; `sub` is the subcode for 0xFF. Where several checks of the one field fail, the register's range comes
first, then the scalar rule, then the queue: the spec orders no checks within a field (DESIGN CHOICE, log 68). -/
def srcOf (sub : Nat) (r75 : Bool) (get : Fields → BitVec 8) : Chk := fun e =>
  let x := get e.f
  if isImm x then some sub
  else (badReg e x).or (((if r75 then scalarRule e x else none)).or (queueRead e x))

/-- A source field that takes the immediate. -/
def srcImmOf (r75 : Bool) (get : Fields → BitVec 8) : Chk := fun e =>
  if isImm (get e.f) then none else srcOf 0x03 r75 get e

def unusedD : Chk := fun e => unusedOf e.f.d
def unusedA : Chk := fun e => unusedOf e.f.a
def unusedB : Chk := fun e => unusedOf e.f.b
def unusedC : Chk := fun e => unusedOf e.f.c

/-- A destination (R51). -/
def dstD : Chk := fun e =>
  let x := e.f.d
  if isImm x || isL x then some 0x03
  else (badReg e x).or (if isQ x && !(e.stq (x.toNat - 0xE0)) then some 0x09 else none)

/-- A under the scalar rule of R75, and without it. -/
def srcA : Chk := srcOf 0x03 true (·.a)
def srcA' : Chk := srcOf 0x03 false (·.a)
/-- B and C with the immediate allowed. -/
def immB : Chk := srcImmOf true (·.b)
def immB' : Chk := srcImmOf false (·.b)
def immC : Chk := srcImmOf true (·.c)
def immC' : Chk := srcImmOf false (·.c)
/-- B and C where "Imm" is "no": 0xFF is a field not in its required state (R78). -/
def srcB : Chk := srcOf 0x04 true (·.b)
def srcB' : Chk := srcOf 0x04 false (·.b)
def srcC' : Chk := srcOf 0x04 false (·.c)

/-- A field that must be a scalar register or `zero`; anything else has subcode 0x04. -/
def scalarOf (get : Fields → BitVec 8) : Chk := fun e =>
  let x := get e.f
  if isImm x then some 0x04 else (badReg { e with vregs := 192 } x).or (if isSZ x then none else some 0x04)

/-- A of an instruction whose operands must be scalar: 0xFF in A has subcode 0x03 (R51). -/
def scalarA : Chk := fun e => if isImm e.f.a then some 0x03 else scalarOf (·.a) e
def scalarB : Chk := scalarOf (·.b)
def scalarC : Chk := scalarOf (·.c)
/-- B as a scalar register, `zero` or the immediate. -/
def scalarImmB : Chk := fun e => if isImm e.f.b then none else scalarOf (·.b) e

/-- A field with a code or unit number of its own that satisfies p. -/
def codeOf (get : Fields → BitVec 8) (p : Nat → Bool) : Chk := fun e => if p (get e.f).toNat then none else some 0x04

/-! ### TY (R52, R53) -/

/-- TY is one of the operand types whose bit is set in the set. -/
def tyIn (set : Nat) : Chk := fun e => if set.testBit e.f.ty.toNat then none else some 0x05
/-- TY is a selector, or unused where the set is {0}. -/
def tySel (set : Nat) : Chk := fun e => if set.testBit e.f.ty.toNat then none else some 0x04
def tyZero : Chk := tySel 1
/-- i8 to n64. -/
def tyInt : Chk := tyIn 0xFF
/-- f64, f32, f16, bf16. -/
def tyFp : Chk := tyIn 0xF00
/-- Every type but e2m1. -/
def tyMem : Chk := tyIn 0xBFFF

/-! ### MOD (R52, R54) -/

/-- The word is in the immediate form. -/
def immForm (f : Fields) : Bool := isImm f.b || isImm f.c

/-- MOD as the instruction reads it: zero in the immediate form (R52). -/
def modOf (f : Fields) : BitVec 16 := if immForm f then 0 else f.md

/-- Only the bits of the set may be set, unless the word is in the immediate form. -/
def mdBits (set : BitVec 16) : Chk := fun e => if immForm e.f || e.f.md &&& ~~~set = 0 then none else some 0x04
def mdZero : Chk := mdBits 0

/-- R54: the rounding code in MOD[2:0]; conv allows RNA. -/
def mdRm (conv : Bool) : Chk := fun e =>
  let c := (modOf e.f).toNat % 8
  if c = 5 then (if e.rm ≥ 5 ∨ (e.rm = 4 ∧ !conv) then some 0x07 else none)
  else if c ≥ 6 ∨ (c = 4 ∧ !conv) then some 0x06
  else none

/-- The immediate form is not accepted (R52). -/
def noImm : Chk := fun e => if immForm e.f then some 0x08 else none

/-! ### One instruction's row of the encoding tables -/

/-- How an instruction is encoded and what it checks before it acts. -/
structure OpSpec where
  op : BitVec 9
  cls : Cls
  /-- The subcode of PRIVILEGED, where the instruction may not be run (R60 step 5). -/
  priv : Chk
  d : Chk
  a : Chk
  b : Chk
  c : Chk
  ty : Chk
  md : Chk
  /-- The register codes the word reads, in order (R57, R58). -/
  reads : Fields → List (BitVec 8)
  /-- The control word it reads (R129). -/
  bn : Fields → Option Nat
  /-- The counter the instruction counts on (R39). -/
  cnt : Option Counter

/-- R60 steps 6 to 8: the subcode of the first field that fails. -/
def OpSpec.check (sp : OpSpec) (e : Env) : Option Nat :=
  (sp.d e).or ((sp.a e).or ((sp.b e).or ((sp.c e).or ((sp.ty e).or (sp.md e)))))

/-! ### Forms shared by many rows -/

/-- The registers that a word reads. -/
def rdNone : Fields → List (BitVec 8) := fun _ => []
def rdA : Fields → List (BitVec 8) := fun f => [f.a]
def rdAB : Fields → List (BitVec 8) := fun f => [f.a, f.b]
def rdABC : Fields → List (BitVec 8) := fun f => [f.a, f.b, f.c]

/-- A row without any operand. -/
def specNone (op : BitVec 9) : OpSpec :=
  { op := op, cls := .a, priv := chkAny, d := unusedD, a := unusedA, b := unusedB, c := unusedC, ty := tyZero, md := mdZero,
    reads := rdNone, bn := fun _ => none, cnt := none }

/-- D and A. -/
def specA (op : BitVec 9) (ty md : Chk) : OpSpec := { specNone op with d := dstD, a := srcA, ty := ty, md := md, reads := rdA }
/-- D, A and B with the immediate. -/
def specAB (op : BitVec 9) (ty md : Chk) : OpSpec := { specA op ty md with b := immB, reads := rdAB }
/-- D, A, B and C with the immediate. -/
def specABC (op : BitVec 9) (ty md : Chk) : OpSpec := { specAB op ty md with c := immC, reads := rdABC }

end Sys2Proof.Machine
end

