-- ==== Sys2Proof/Machine/Operands.lean ====
section
/-!
DEFINITION. Issuing an instruction word: the decoding order of R60, the scoreboard, the operand forms of R51 with queue pops, the tag
rule of R35, and store-stream pushes (R201).
-/
namespace Sys2Proof.Machine

/-! ### Queues (R199, R201) -/

def getQueue (s : State) (w lane q : Nat) : Queue := sget Queue.idle s.queues (qkey w lane q)
def setQueue (s : State) (w lane q : Nat) (x : Queue) : State := { s with queues := sset Queue.idle s.queues (qkey w lane q) x }

/-- How many of the codes name queue q. -/
def popCount (codes : List (BitVec 8)) (q : Nat) : Nat := (codes.filter (fun x => x.toNat = 0xE0 + q)).length

/-- The queues that the codes name. -/
def queuesOf (codes : List (BitVec 8)) : List Nat := (List.range 4).filter (fun q => popCount codes q ≠ 0)

/-- Pops n entries (R199); after the count has been popped the queue is disarmed. -/
def popQueue (x : Queue) (n : Nat) : Queue :=
  if x.left ≤ n then Queue.idle else { x with entries := x.entries.drop n, left := x.left - n }

/-- Pops the queues an instruction reads, in every active lane (R57). -/
def popAll (s : State) (w : Nat) (m : Mask) (codes : List (BitVec 8)) : State :=
  (queuesOf codes).foldl (fun s q =>
    (lanesOf m).foldl (fun s l => setQueue s w l q (popQueue (getQueue s w l q) (popCount codes q))) s) s

/-- A lane's queue holds too few entries for the word (R199). -/
def queueShort (s : State) (w : Nat) (m : Mask) (codes : List (BitVec 8)) : Bool :=
  (queuesOf codes).any (fun q => (lanesOf m).any (fun l => decide ((getQueue s w l q).entries.length < popCount codes q)))

/-! ### The scoreboard (R58) -/

/-- A pending variable-latency write to a register in a lane (R58). -/
def variablePending (s : State) (w code lane : Nat) : Bool :=
  s.ops.any (fun o => decide (o.w = w) && o.dst.contains (code, regLane code lane))

/-- The lanes that read a register not yet written, and whether a variable-latency write is among the pending ones (R58). Of a routed word it
names the source lanes whose own operand is pending, not the lanes that read them (R129; DESIGN CHOICE, log 72). -/
def shortLanes (s : State) (w t : Nat) (m : Mask) (codes : List (BitVec 8)) : Mask × Bool :=
  let fx := fun l => codes.any (fun x => decide (x.toNat < 0xE0) && !(pendingOf s w x.toNat l t).isEmpty)
  let vr := fun l => codes.any (fun x => decide (x.toNat < 0xE0) && variablePending s w x.toNat l)
  (maskOf (fun l => m.getLsbD l && (fx l || vr l)), (lanesOf m).any vr)

/-- The control word read is not yet written: by a fixed-latency write, by a `bnc` (R129, R135). -/
def bnShort (s : State) (w t : Nat) (n : Option Nat) : Bool × Bool :=
  match n with
  | none => (false, false)
  | some n =>
    (s.bnPend.any (fun p => decide (p.w = w) && decide (p.n = n) && decide (p.land > t)),
     s.ops.any (fun o => decide (o.w = w) && (match o.kind with | .bnc n' _ _ => decide (n' = n) | _ => false)))

/-! ### Issue (R60) -/

/-- The surroundings of a word for its checks. -/
def envOf (s : State) (w : Nat) (sp : Split) (codes : List (BitVec 8)) (f : Fields) : Env :=
  let wp := getWarp s w
  let b := getBlock s (blkOf w)
  { f := f, vregs := wp.vregs, rm := wp.fcr.toNat % 8,
    ldq := fun q => (lanesOf sp.mask).all (fun l => let x := getQueue s w l q; decide (x.kind = 1 ∧ popCount codes q ≤ x.left)),
    stq := fun q => (lanesOf sp.mask).all (fun l => decide ((getQueue s w l q).kind = 2)),
    naos := b.naos, ncb := b.ncb, tiles := b.tiles, sup := sp.sup, disp := b.disp }

/-- The code of a class in a clause header (R43). -/
def clsCode : Cls → Nat
  | .a => 0
  | .m => 1
  | .e => 2
  | .s => 3

/-- R45: an instruction of the class may stand in a clause of the class code. -/
def clsAllowed (c : Cls) (clause : Nat) : Bool := decide (c = .a) || decide (clsCode c = clause)

/-- The outcome of steps 4 to 9 of R60 for a word about to issue. -/
inductive Gate where
  | ok
  | trap (r : TrapReq)
  /-- The word cannot issue yet (R39, R199). -/
  | wait (x : Wait)

/-- Steps 4 to 9 of R60. -/
def gate (spec : OpSpec) (c : Ctx) (s : State) : Gate :=
  let m := c.sp.mask
  let codes := spec.reads c.f
  let env := envOf s c.w c.sp codes c.f
  if !clsAllowed spec.cls c.sp.cls then .trap (trapAll causeIllegalOpcode 0x02 m)
  else match spec.priv env with
  | some sub => .trap (trapAll causePrivileged sub m)
  | none =>
    match spec.check env with
    | some sub => .trap (trapAll causeIllegalOperand sub m)
    | none =>
      let short := shortLanes s c.w c.t m codes
      let bsh := bnShort s c.w c.t (spec.bn c.f)
      if (getWarp s c.w).fcr.getLsbD 9 && (decide (short.1 ≠ 0) || bsh.1 || bsh.2) then
        .trap { cause := causeStallShort, sub := if short.2 || bsh.2 then 0x02 else 0x01,
                lanes := if bsh.1 || bsh.2 || codes.any (fun x => isS x && (!(pendingOf s c.w x.toNat 0 c.t).isEmpty || variablePending s c.w x.toNat 0)) then m
                  else short.1,
                retry := m, vals := [] }
      else if isQ c.f.d && decide (c.op ≠ 0x106 ∧ c.op ≠ 0x107) && decide (counterOf s c.w m .st ≥ 63) then .wait (.cap .st)
      else if queueShort s c.w m codes then .wait (.queue ((queuesOf codes).map (fun q => (q, popCount codes q))) [])
      else match spec.cnt with
        | some k => if counterOf s c.w m k ≥ 63 then .wait (.cap k) else .ok
        | none => .ok

/-- The context of the issuing word, at the issue time of the current split. -/
def ctxOf (spec : OpSpec) (f : Fields) (s : State) (cu : Cur) : Ctx :=
  let t := issueTime s cu.w cu.k
  { w := cu.w, k := cu.k, sp := getSplit s cu.w cu.k, t := t,
    path := pathOf s cu.w t, op := spec.op.toNat, f := f, word := packWord spec.op f,
    reads := spec.reads f, cnt := spec.cnt }

/-- The state in which a word is decided: no split is current, time is the issue time, a free value is used up. -/
def startIssue (s : State) (cu : Cur) (t : Nat) : State :=
  takeSlot { s with cur := none, free := s.free + 1 } cu.w cu.k t

/-- Leaves a word unissued until the cycle given: its split is not ready (R82, R147). -/
def holdUntil (busy : Nat) (s : State) (cu : Cur) : State :=
  let sp := getSplit s cu.w cu.k
  setSplit { s with cur := none } cu.w cu.k { sp with next := max sp.next busy }

/-- R223: an acquire of the split has not completed, and the word is of class M or E. -/
def acquireHolds (s : State) (cls : Cls) (sp : Split) : Bool :=
  (decide (cls = .m) || decide (cls = .e)) && sp.hold.any (fun id => (findOp s id).isSome)

/-- R431: a trap of the split on path 1 while the split on path 0 has trapped in the same cycle: the word counts as not issued. -/
def pathRule (c : Ctx) (s0 s' : State) : State :=
  let other := (validSplits s0 c.w).any (fun e => decide (e.1 ≠ c.k) && !e.2.hs.isEmpty)
  if c.path = 1 ∧ other ∧ ((getSplit s' c.w c.k).hs ≠ c.sp.hs ∨ (getBlock s' (blkOf c.w)).killed) then { s0 with cur := none } else s'

/-! ### Operand values -/

/-- The immediate (R51). -/
def immOf (f : Fields) : Word := f.md.signExtend 64

/-- An operand in a lane; `before` is how many entries of its queue the word's earlier fields pop (R199). -/
def operand (s : State) (c : Ctx) (x : BitVec 8) (before : List (BitVec 8)) (lane : Nat) : TWord :=
  if isImm x then TWord.valid (immOf c.f)
  else if isQ x then
    ((getQueue s c.w lane (x.toNat - 0xE0)).entries.getD (popCount before (x.toNat - 0xE0)) TWord.zero)
  else readC s c x.toNat lane

def opA (s : State) (c : Ctx) (lane : Nat) : TWord := operand s c c.f.a [] lane
def opB (s : State) (c : Ctx) (lane : Nat) : TWord := operand s c c.f.b [c.f.a] lane
def opC (s : State) (c : Ctx) (lane : Nat) : TWord := operand s c c.f.c [c.f.a, c.f.b] lane

/-! ### Issue -/

/-- The word has a fixed latency (R24): an arithmetic, tag or cross-lane word that no counter counts, `call` with its D, `barr` or `aoarr`. -/
def fixedWord (spec : OpSpec) : Bool :=
  spec.cnt.isNone && (decide (spec.op.toNat < 0x80) || decide (spec.op = 0x86#9 ∨ spec.op = 0x131#9 ∨ spec.op = 0x136#9))

/-- R449: a fixed-latency word that has issued, and has neither trapped nor been suspended, joins its quarter's replay queue of 16, with the words
of its operands and of its destination by lane. -/
def keepReplay (spec : OpSpec) (c : Ctx) (s s' : State) : State :=
  let sp := getSplit s' c.w c.k
  if fixedWord spec && (getCore s (coreOf s c.w)).rchk.getLsbD 0 && sp.susp.isNone && decide (sp.hs = c.sp.hs) then
    let q := quarterOf s c.w
    let r : Replay := { w := c.w, word := c.word, ins := (lanesOf c.sp.mask).map (fun l => (l, [opA s c l, opB s c l, opC s c l])),
                        outs := (lanesOf c.sp.mask).map (fun l => (l, rdReg s' c.w c.f.d.toNat l)) }
    { s' with replays := sset [] s'.replays q (r :: (sget [] s'.replays q).take 15) }
  else s'

/-- R450: the word is an operation that is compared before it leaves the core: a store, also by a store stream, an atomic, a copy, a matrix, ray,
fabric or dispatch operation. -/
def leavesCore (spec : OpSpec) (f : Fields) : Bool :=
  let op := spec.op.toNat
  [0x101, 0x105, 0x109, 0x10F, 0x112].contains op || decide (0x120 ≤ op ∧ op ≤ 0x124) || decide (0x142 ≤ op ∧ op ≤ 0x148) ||
    decide (0x180 ≤ op ∧ op < 0x1C0) || (isQ f.d && decide (op ≠ 0x106 ∧ op ≠ 0x107))

/-- R450: the operation of a dual block's warp differs from its shadow's. The shadow is a second execution of the same words in other circuits, and
differs from the leader by a fault of the circuits alone: a free choice (log 47). -/
def shadowDiffers (spec : OpSpec) (c : Ctx) (s : State) : Bool :=
  (getBlock s (blkOf c.w)).dual && leavesCore spec c.f && Config.dualMismatch s.free

/-- Issues a word of the current split: its gate, then its body. An operation that differs from the shadow's does not take effect (R450). A word whose access has stalled has passed its gate (R182). With no current
split there is nothing to issue. -/
def issue (spec : OpSpec) (f : Fields) (s : State) (body : Ctx → State → State) : Host.Outcome State Fault Refusal :=
  match s.cur with
  | none => .next s
  | some cu =>
    let c := ctxOf spec f s cu
    if acquireHolds s spec.cls c.sp then .next (holdUntil (c.t + 1) s cu)
    else
      let s1 := startIssue s cu c.t
      match (if c.sp.stalled.isSome || !c.sp.latch.isEmpty then Gate.ok else gate spec c s1) with
      | .ok => .next (pathRule c s (if shadowDiffers spec c s1 then contain s1 c.w 3 causeDual (vpc c.sp) else keepReplay spec c s1 (body c s1)))
      | .trap r => .next (pathRule c s (raise c r s1))
      | .wait x => .next (park c x { s with cur := none })

/-- A word that traps whatever its other fields hold: its opcode alone is checked (R60 steps 2 and 3, R64). -/
def opcodeTrap (spec : OpSpec) (cause sub : Nat) (f : Fields) (s : State) : Host.Outcome State Fault Refusal :=
  match s.cur with
  | none => .next s
  | some cu =>
    let c := ctxOf spec f s cu
    .next (pathRule c s (raiseAll c cause sub (startIssue s cu c.t)))

/-- Issues a word, unless an interlock named in its description holds it: its split is not ready (R147). -/
def issueUnless (spec : OpSpec) (held : Ctx → State → Bool) (f : Fields) (s : State) (body : Ctx → State → State) :
    Host.Outcome State Fault Refusal :=
  match s.cur with
  | none => .next s
  | some cu =>
    let c := ctxOf spec f s cu
    if held c s then .next (holdUntil (c.t + 1) s cu) else issue spec f s body

/-! ### The tag rule (R35) -/

/-- How R35 settles a lane before its operation: N, X with a payload, or all V. -/
inductive TagRule where
  | nullified
  | poisoned (payload : Word)
  | normal
  deriving DecidableEq, Repr

/-- R35 over the operands an instruction reads, in order A, B, C. -/
def tagRule (xs : List TWord) : TagRule :=
  if xs.any (fun x => x.tag = .n) then .nullified
  else match xs.find? (fun x => x.tag = .x) with
  | some x => .poisoned x.data
  | none => .normal

/-! ### Results of a lane -/

/-- What a lane's operation yields: the word written, flags raised, and a trap of the lane. -/
structure LaneRes where
  val : TWord
  fl : BitVec 6
  trap : Option (Nat × Word)
  deriving DecidableEq, Repr

/-- A result without flags. -/
def LaneRes.ok (v : TWord) : LaneRes := { val := v, fl := 0, trap := none }
/-- A V result. -/
def LaneRes.word (v : Word) : LaneRes := LaneRes.ok (TWord.valid v)

/-- R35 for a computation of words: N keeps the old data, X passes its payload. -/
def r35 (old : TWord) (xs : List TWord) (r : Unit → LaneRes) : LaneRes :=
  match tagRule xs with
  | .nullified => LaneRes.ok ⟨.n, old.data⟩
  | .poisoned p => LaneRes.ok ⟨.x, p⟩
  | .normal => r ()

/-! ### Early commit (R448) -/

/-- Operations of a block that access memory are outstanding. -/
def blockBusy (s : State) (b : Nat) : Bool :=
  s.ops.any (fun o => decide (blkOf o.w = b) && (match o.kind with
    | .load .. => true
    | .store .. => true
    | .atomic .. => true
    | .maint .. => true
    | .copy .. => true
    | .matrix .. => true
    | .arrive .. => true
    | _ => false))

/-- R448: an instruction that makes its block commit waits for the block's earlier accesses, then commits before its effect. -/
def withCommit (c : Ctx) (yes : Bool) (s0 s : State) (go : State → State) : State :=
  let b := blkOf c.w
  if yes && provisional s b then
    if blockBusy s b then suspend c .commit s0 else go (commitBlock s b)
  else go s

/-! ### Store-stream pushes (R201) -/

/-- Unperformed elements of a lane's store stream. -/
def streamCount (s : State) (w lane q : Nat) : Nat :=
  (s.ops.filter (fun o => decide (o.w = w) && (match o.kind with
    | .store accs _ _ (some q') => decide (q' = q) && accs.any (fun a => a.lane = lane)
    | _ => false))).length

/-- The width in bytes of a type (R53). -/
def tyBytes (ty : BitVec 4) : Nat :=
  match ty.toNat with
  | 0 => 1 | 1 => 2 | 2 => 4 | 3 => 8 | 4 => 1 | 5 => 2 | 6 => 4 | 7 => 8 | 8 => 8 | 9 => 4 | 10 => 2 | 11 => 2 | 12 => 1 | 13 => 1
  | _ => 1

/-- The check of one pushed element: nothing to write, a trap, a wait, or the access. -/
inductive PushRes where
  | skip
  | trap (step cause sub : Nat) (val : Word)
  | wait (x : Wait)
  | store (l : Leaf) (acc : Acc)

/-- R178: the wait of accesses to pages that are not resident; kind 5 is a walk that stopped at a table (R474). -/
def pageWait (a : Agent) (vas : List Nat) (kind : Nat) (table host : Bool) : Wait :=
  .page a.die host a.space vas (if table then 5 else kind)

/-- The agent of the issuing split. -/
def agentC (c : Ctx) (s : State) : Agent := { agentOf s c.w c.sp.sup with denied := c.sp.denied }

/-- R201: the check of an element pushed to a lane's stream. -/
def pushCheck (s : State) (w : Nat) (a : Agent) (q lane : Nat) (v : TWord) : PushRes :=
  let x := getQueue s w lane q
  let va := x.addr.toNat
  let n := tyBytes x.ty
  match v.tag with
  | .n => .skip
  | .x => .trap 1 causePoison 0 v.data
  | .v =>
    if va % n ≠ 0 then .trap 2 causeAlign 0 x.addr
    else match checkAddr s a va n .store with
    | .fail st cause sub => .trap st cause sub x.addr
    | .stall table host => .wait (pageWait a [va] 1 table host)
    | .ok l key =>
      let acc : Acc := { lane := lane, va := va, key := key, size := n, n := 1, sw := decide (l.coh = 1), pol := 0, cls := l.cls, also := [],
                         cmp := 0, ver := if l.ver then some (l.base, va % 2 ^ 16) else none, hand := none, data := v.data.toNat % 2 ^ (8 * n) }
      if l.ver && !vdbWv (rdVdb s l.base) then .wait (.frame [(l.base, lane, va)] (getCore s a.core).cyc)
      else match raceAcc s a .store l acc with
        | some sub => .trap 7 causeRace sub x.addr
        | none => .store l acc

/-- The stream after a push: the address advances, and the count runs down (R201). -/
def pushedQueue (x : Queue) : Queue :=
  if x.left ≤ 1 then Queue.idle else { x with addr := x.addr + x.stride, left := x.left - 1 }

/-- The trap that stands earliest in the order of R182 among lanes: its lanes are those that fail that check, its cause and subcode those of
the lowest of them (R184). -/
def firstTrap (m : Mask) (fs : List (Nat × Nat × Nat × Nat × Word)) : Option TrapReq :=
  match fs.foldl (fun b e => match b with
    | none => some e.2.1
    | some x => some (min x e.2.1)) none with
  | none => none
  | some st =>
    let hit := fs.filter (fun e => e.2.1 = st)
    match hit.head? with
    | none => none
    | some h =>
      some { cause := h.2.2.1, sub := h.2.2.2.1, lanes := maskOf (fun l => hit.any (fun e => e.1 = l)), retry := m,
             vals := hit.map (fun e => (e.1, e.2.2.2.2)) }

/-- The traps among checked pushes, as R184 orders them. -/
def pushTraps (ps : List (Nat × PushRes)) : List (Nat × Nat × Nat × Nat × Word) :=
  ps.filterMap (fun e => match e.2 with
    | .trap st cause sub v => some (e.1, st, cause, sub, v)
    | _ => none)

/-- Two waits of one instruction as one: pages of one kind, or frames, together. -/
def joinWait (x y : Wait) : Wait :=
  match x, y with
  | .page d h sp g k, .page d' h' sp' g' _ => if d = d' ∧ h = h' ∧ sp = sp' then .page d h sp (g ++ g') k else x
  | .frame xs t, .frame ys _ => .frame (xs ++ ys) t
  | _, _ => x

/-- The addresses of the lanes that a trap's checks refused once their pages had been walked (R180, R182). -/
def trapVas (ts : List (Nat × Nat × Nat × Nat × Word)) : List Nat :=
  (ts.filter (fun e => decide (e.2.1 ≥ 3))).map (fun e => e.2.2.2.2.toNat)

/-- The wait of the checked pushes that stall. -/
def pushWaits (ps : List (Nat × PushRes)) : Option Wait :=
  ps.foldl (fun b e => match e.2 with
    | .wait y => match b with | none => some y | some x => some (joinWait x y)
    | _ => b) none

/-- A checked push writes outside local HBM, so that a restartable block commits before it (R448). -/
def pushesOut (ps : List (Nat × PushRes)) : Bool := ps.any (fun e => match e.2 with | .store _ acc => decide (acc.key ≥ regBase) | _ => false)

/-- Performs the pushes of lanes whose checks passed: each written element is a store of its own (R201). -/
def pushLanes (s : State) (w : Nat) (sup : Bool) (q : Nat) (vs : List (Nat × PushRes)) : State :=
  vs.foldl (fun s e =>
    let s := setQueue s w e.1 q (pushedQueue (getQueue s w e.1 q))
    match e.2 with
    | .store l acc =>
      let s := noteAcc s (agentOf s w sup) .store l acc
      startOp s w (BitVec.twoPow 32 e.1) (some .st) [] (.store [acc] none none (some q))
    | _ => s) s

/-! ### Writing the results of an A-class word -/

/-- The enabled exceptions of fcr[7:3] (R92). -/
def fpEnables (fcr : Word) : BitVec 6 := (fcr >>> 3).truncate 6 &&& 0x1F

/-- The trap of a lane under the enables of fcr (R107), or the lane's own. -/
def laneTraps (fcr : Word) (r : LaneRes) : Bool := r.trap.isSome || decide (r.fl &&& fpEnables fcr ≠ 0)

/-- R107: cause of the highest-priority enabled exception. -/
def fpCause (x : BitVec 6) : Nat :=
  if x.getLsbD 0 then 0x20 else if x.getLsbD 1 then 0x21 else if x.getLsbD 2 then 0x22 else if x.getLsbD 3 then 0x23 else 0x24

/-- The trap of the lanes that trap: the lanes' own trap first (R97), otherwise the enabled exceptions (R107). -/
def lanesTrap (fcr : Word) (rs : List (Nat × LaneRes)) : Option TrapReq :=
  let bad := rs.filter (fun e => laneTraps fcr e.2)
  match bad with
  | [] => none
  | _ :: _ =>
    let tm := maskOf (fun l => bad.any (fun e => e.1 = l))
    match bad.findSome? (fun e => e.2.trap) with
    | some (cause, _) =>
      some { cause := cause, sub := 0, lanes := tm, retry := tm, vals := bad.map (fun e => (e.1, match e.2.trap with | some x => x.2 | none => e.2.val.data)) }
    | none =>
      let un := bad.foldl (fun x e => x ||| (e.2.fl &&& fpEnables fcr)) 0#6
      some { cause := fpCause un, sub := un.toNat, lanes := tm, retry := tm, vals := bad.map (fun e => (e.1, e.2.val.data)) }

/-- The lane numbers an A-class word computes for: every active lane, or one for a scalar destination (R75). -/
def computeLanes (c : Ctx) : List Nat := if isS c.f.d then (lanesOf c.sp.mask).take 1 else lanesOf c.sp.mask

/-- Under a scalar destination the one result stands for every active lane (R75). -/
def spreadLanes (c : Ctx) (rs : List (Nat × LaneRes)) : List (Nat × LaneRes) :=
  if isS c.f.d then
    match rs with
    | [] => []
    | e :: _ => (lanesOf c.sp.mask).map (fun l => (l, e.2))
  else rs

/-- Writes lane results of latency lat: flags, destinations of the lanes that do not trap, then the trap or the next word (R75, R76,
R106, R107). What the word popped from queues stays popped, also in the lanes that trap (DESIGN CHOICE, log 71). -/
def finishFixed (c : Ctx) (lat : Nat) (rs : List (Nat × LaneRes)) (s : State) : State :=
  let fcr := (getWarp s c.w).fcr
  let all := spreadLanes c rs
  let s1 := orFsr s c.w ((all.filter (fun e => e.2.fl ≠ 0)).map (fun e => (e.1, e.2.fl)))
  let good := all.filter (fun e => !laneTraps fcr e.2)
  let s2 := writeFixed s1 c.w c.f.d.toNat c.t lat (good.map (fun e => (e.1, e.2.val)))
  match lanesTrap fcr all with
  | some r => raise c r s2
  | none => advance c s2

/-- R201: pushes words to the stream that D names, each a store of its own, and goes on. A check that fails traps before any effect, that
is in s0; a full stream waits. -/
def pushResults (c : Ctx) (rs : List (Nat × TWord)) (s0 s : State) (go : State → State) : State :=
  let q := c.f.d.toNat - 0xE0
  if rs.any (fun e => decide (e.2.tag = .v) && decide (streamCount s c.w e.1 q ≥ 8)) then suspend c (.queue [] [q]) s0
  else
    let ps := rs.map (fun e => (e.1, pushCheck s c.w (agentC c s) q e.1 e.2))
    match firstTrap c.sp.mask (pushTraps ps) with
    | some r => raise c r (walkedAll s0 (agentC c s0) (trapVas (pushTraps ps)))
    | none =>
      match pushWaits ps with
      | some x => suspend c x s0
      | none => withCommit c (pushesOut ps) s0 s (fun s1 => go (pushLanes s1 c.w c.sp.sup q ps))

/-- Writes lane results to a store stream: the lanes that do not trap push their elements, then the flags, the trap or the next word (R106,
R107, R201). -/
def finishPush (c : Ctx) (rs : List (Nat × LaneRes)) (s0 s : State) : State :=
  let fcr := (getWarp s c.w).fcr
  let good := rs.filter (fun e => !laneTraps fcr e.2)
  pushResults c (good.map (fun e => (e.1, e.2.val))) s0 s (fun s1 =>
    let s2 := orFsr s1 c.w ((rs.filter (fun e => e.2.fl ≠ 0)).map (fun e => (e.1, e.2.fl)))
    match lanesTrap fcr rs with
    | some r => raise c r s2
    | none => advance c s2)

/-- The results of an A-class word: operands read, queues popped, each lane computed from its operands and the old word of its
destination. -/
def laneResults (c : Ctx) (s : State) (g : TWord → TWord → TWord → TWord → LaneRes) : List (Nat × LaneRes) :=
  (computeLanes c).map (fun l => (l, g (opA s c l) (opB s c l) (opC s c l) (rdReg s c.w c.f.d.toNat l)))

/-- Runs an A-class word that computes each lane from its own operands. -/
def laneBody (spec : OpSpec) (lat : Nat) (g : Ctx → State → TWord → TWord → TWord → TWord → LaneRes) (c : Ctx) (s : State) : State :=
  let rs := laneResults c s (g c s)
  let s1 := popAll s c.w c.sp.mask (spec.reads c.f)
  if isQ c.f.d then finishPush c rs s s1 else finishFixed c lat rs s1

/-- An A-class instruction of fixed latency. -/
def laneExec (spec : OpSpec) (lat : Nat) (g : Ctx → State → TWord → TWord → TWord → TWord → LaneRes) (f : Fields) (s : State) :
    Host.Outcome State Fault Refusal :=
  issue spec f s (laneBody spec lat g)

/-! ### Variable-latency results (R39, R56, R201) -/

/-- The check of the stream that the results of a variable-latency word will be pushed to, in the lanes that are not nullified: a failing
lane traps at the word, before the operation starts. -/
def pushGate (c : Ctx) (lanes : List Nat) (s0 : State) (go : State) : State :=
  if !isQ c.f.d then go
  else pushResults c (lanes.map (fun l => (l, TWord.valid 0))) s0 s0 (fun _ => go)

/-- Where the results of an operation that writes D in the lanes given are pushed: the other lanes were nullified at issue. -/
def pushTo (c : Ctx) (lanes : List Nat) : Option PushTo :=
  if isQ c.f.d then
    some { q := c.f.d.toNat - 0xE0, k := c.k, word := c.word, skips := (lanesOf c.sp.mask).filter (fun l => !lanes.contains l) }
  else none

/-- Starts an operation that writes D in the lanes given, and goes on with the next word; a split whose D is a queue waits for the
results (log 14). -/
def startVar (c : Ctx) (cls : Counter) (mask : Mask) (lanes : List Nat) (kind : OpKind) (s : State) : State :=
  let s2 := { s with ops := s.ops ++ [{ id := s.nextOp, w := c.w, lanes := mask, cls := some cls, dst := dstOf c.f.d.toNat lanes, push := pushTo c lanes,
                                        denied := [], kind := kind, word := c.word, path := c.path, issuer := c.sp.mask, routes := s.routes }],
                     nextOp := s.nextOp + 1 }
  if isQ c.f.d then suspend c (.op s.nextOp) s2 else advance c s2

/-- The checks of late results at their stream: skipped elements of nullified lanes among them. -/
def lateChecks (s : State) (o : Op) (p : PushTo) (ws : List (Nat × Nat × TWord)) : List (Nat × PushRes) :=
  ws.map (fun e => (e.2.1, pushCheck s o.w { agentOf s o.w (getSplit s o.w p.k).sup with denied := o.denied } p.q e.2.1 e.2.2)) ++
    p.skips.map (fun l => (l, PushRes.skip))

/-- Pushes late results to a queue for the split that waits, which goes on by `go`: a check that fails, X among them, traps at its word
(R201). -/
def pushLate (s : State) (o : Op) (p : PushTo) (ws : List (Nat × Nat × TWord)) (go : State → State) : State :=
  let sp := getSplit s o.w p.k
  let ps := lateChecks s o p ws
  match firstTrap sp.mask (pushTraps ps) with
  | some r => takeTrap s o.w p.k (getCore s (coreOf s o.w)).cyc sp.path false p.word r
  | none => go (pushLanes (if pushesOut ps && provisional s (blkOf o.w) then commitBlock s (blkOf o.w) else s) o.w sp.sup p.q ps)

/-- Late results wait for a page (R178), or for a frame: the stall for a frame begins (R322). -/
def stallLate (s : State) (o : Op) (x : Wait) : State :=
  match x with
  | .frame _ _ => { s with ops := s.ops.map (fun e => if e.id = o.id then { e with since := e.since.or (some (getCore s (coreOf s o.w)).cyc) } else e) }
  | _ => addStalls x s

/-- Late results can be pushed, or their stall can be recorded: their block is resident, no stall already recorded is open, and a block that
would have to commit has no access in flight (R448). -/
def pushOpen (s : State) (o : Op) (ws : List (Nat × Nat × TWord)) : Bool :=
  match o.push with
  | none => true
  | some p =>
    let ps := lateChecks s o p ws
    decide ((getBlock s (blkOf o.w)).state = 1) && (match pushWaits ps with
      | some (.page d h sp vs _) => !stallsOpen s d h sp vs
      | some (.frame _ _) => o.since.isNone
      | _ => !(pushesOut ps && provisional s (blkOf o.w) && blockBusy s (blkOf o.w)))

/-- Ends an operation with its late results, or keeps it while they cannot be pushed. -/
def finishLate (s : State) (o : Op) (p : PushTo) (ws : List (Nat × Nat × TWord)) (keep go : State → State) : State :=
  if !pushOpen s o ws then keep s
  else match pushWaits (lateChecks s o p ws) with
  | some x => stallLate (keep s) o x
  | none => pushLate (endOp s o.id) o p ws go

/-- Writes an operation's results and ends it (R39, R57). Results that cannot be pushed yet are kept until they can (R178, R322). -/
def finishOp (s : State) (o : Op) (ws : List (Nat × Nat × TWord)) : State :=
  match o.push with
  | none => writeDst (endOp s o.id) o ws
  | some p => finishLate s o p ws (fun s => setOpKind s o.id (.result ws)) (wakeAdvance o.w p.k)

/-- Lanes that R35 settles at issue are written at issue (R56). Where D is a queue the operation that starts skips their elements. -/
def settleNow (c : Ctx) (ws : List (Nat × TWord)) (s : State) : State :=
  if isQ c.f.d then s else writeNow s c.w c.f.d.toNat ws

/-- A word of which R35 settles every lane: it is done, and each nullified lane of a stream skips an element (R56, R201). -/
def settleAll (c : Ctx) (ws : List (Nat × TWord)) (s : State) : State :=
  if isQ c.f.d then advance c (pushLanes s c.w c.sp.sup (c.f.d.toNat - 0xE0) (ws.map (fun e => (e.1, PushRes.skip))))
  else advance c (writeNow s c.w c.f.d.toNat ws)

/-- The answer of a suspending word that is ready at once: D takes its words, or its stream the elements, and the split goes on (R24, R201). -/
def answerNow (c : Ctx) (ws : List (Nat × TWord)) (s0 s : State) (go : State → State) : State :=
  if isQ c.f.d then pushResults c ws s0 s go else go (writeNow s c.w c.f.d.toNat ws)

/-- A word whose D is a queue and whose lane is settled X at issue traps there (R201). -/
def settledPoison (c : Ctx) (ws : List (Nat × TWord)) : Option TrapReq :=
  let xs := ws.filter (fun e => e.2.tag = .x)
  if isQ c.f.d && !xs.isEmpty then
    some { cause := causePoison, sub := 0, lanes := maskOf (fun l => xs.any (fun e => e.1 = l)), retry := c.sp.mask,
           vals := xs.map (fun e => (e.1, e.2.data)) }
  else none

end Sys2Proof.Machine
end

