-- ==== Sys2Proof/Machine/Integer.lean ====
section
/-!
DEFINITION. The integer, logic, address and byte instructions 0x000 to 0x022 (R74 to R90).
-/
namespace Sys2Proof.Machine

/-! ### Typed integers (R74) -/

/-- The width of an integer type in bits (R53). -/
def tyWidth (ty : BitVec 4) : Nat := 8 * 2 ^ (ty.toNat % 4)
/-- The type is signed. -/
def tySigned (ty : BitVec 4) : Bool := decide (ty.toNat < 4)

/-- The integer of width w read from the low bits of a word. -/
def rdInt (w : Nat) (signed : Bool) (x : Word) : Int :=
  let u := x.toNat % 2 ^ w
  if signed && decide (u ≥ 2 ^ (w - 1)) then (u : Int) - 2 ^ w else u

/-- The word of the w-bit pattern e mod 2^w, extended (R74). -/
def extInt (w : Nat) (signed : Bool) (e : Int) : Word :=
  let u := (e % (2 ^ w : Int)).toNat
  if signed && decide (u ≥ 2 ^ (w - 1)) then BitVec.ofInt 64 ((u : Int) - 2 ^ w) else BitVec.ofNat 64 u

/-- rd(x, TY) and ext(e, TY) of R74. -/
def rdTy (ty : BitVec 4) (x : Word) : Int := rdInt (tyWidth ty) (tySigned ty) x
def extTy (ty : BitVec 4) (e : Int) : Word := extInt (tyWidth ty) (tySigned ty) e

/-- lo and hi of a width and signedness. -/
def loInt (w : Nat) (signed : Bool) : Int := if signed then -(2 ^ (w - 1)) else 0
def hiInt (w : Nat) (signed : Bool) : Int := if signed then 2 ^ (w - 1) - 1 else 2 ^ w - 1

/-- The saturation flag fsr[5] (R76). -/
def flSat : BitVec 6 := 0x20

/-- A result clamped once under .sat, or wrapped (R76). -/
def satRes (sat : Bool) (w : Nat) (signed : Bool) (e : Int) : LaneRes :=
  if sat && decide (e > hiInt w signed) then { val := TWord.valid (extInt w signed (hiInt w signed)), fl := flSat, trap := none }
  else if sat && decide (e < loInt w signed) then { val := TWord.valid (extInt w signed (loInt w signed)), fl := flSat, trap := none }
  else LaneRes.word (extInt w signed e)

/-- The .sat modifier, MOD[0]. -/
def satOf (f : Fields) : Bool := (modOf f).getLsbD 0

/-- A typed binary or ternary integer operation with .sat (R80). -/
def intOp (h : Int → Int → Int → Int) (n : Nat) (c : Ctx) (_ : State) (a b d old : TWord) : LaneRes :=
  let ty := c.f.ty
  r35 old ([a, b, d].take n) fun _ =>
    satRes (satOf c.f) (tyWidth ty) (tySigned ty) (h (rdTy ty a.data) (rdTy ty b.data) (rdTy ty d.data))

/-- An operation on whole words with R35 over the first n operands. -/
def wordOp (h : Fields → Word → Word → Word → Word) (n : Nat) (c : Ctx) (_ : State) (a b d old : TWord) : LaneRes :=
  r35 old ([a, b, d].take n) fun _ => LaneRes.word (h c.f a.data b.data d.data)

/-! ### 0x000 to 0x00D -/

def specNop : OpSpec := specNone 0x000
def specMov : OpSpec := specA 0x001 tyZero mdZero
def specMovk : OpSpec :=
  { specA 0x002 (tySel 0xF) chkAny with b := chkIf 0x04 (fun e => isImm e.f.b), c := unusedC }
def specAdd : OpSpec := specAB 0x003 tyInt (mdBits 1)
def specSub : OpSpec := specAB 0x004 tyInt (mdBits 1)
def specMul : OpSpec := specAB 0x005 tyInt (mdBits 1)
def specMulhi : OpSpec := specAB 0x006 tyInt mdZero
def specMad : OpSpec := specABC 0x007 tyInt (mdBits 1)
def specDiv : OpSpec := specAB 0x008 tyInt mdZero
def specRem : OpSpec := specAB 0x009 tyInt mdZero
def specMin : OpSpec := specAB 0x00A tyInt mdZero
def specMax : OpSpec := specAB 0x00B tyInt mdZero
def specAbs : OpSpec := specA 0x00C (tyIn 0xF) (mdBits 1)
def specNeg : OpSpec := specA 0x00D (tyIn 0xF) (mdBits 1)

/-- nop (R55, R78). -/
def execNop (f : Fields) (s : State) := issue specNop f s fun c s => advance c s
/-- mov (R90). -/
def execMov (f : Fields) (s : State) := laneExec specMov 2 (wordOp (fun _ a _ _ => a) 1) f s

/-- A with bits [16k+15:16k] replaced by the immediate (R90). -/
def movkWord (f : Fields) (a _ _ : Word) : Word :=
  let k := 16 * (f.ty.toNat % 4)
  (a &&& ~~~((0xFFFF : Word) <<< k)) ||| ((f.md.zeroExtend 64 : Word) <<< k)
/-- movk (R90). -/
def execMovk (f : Fields) (s : State) := laneExec specMovk 3 (wordOp movkWord 1) f s

/-- add, sub, mul, mad (R80). -/
def execAdd (f : Fields) (s : State) := laneExec specAdd 3 (intOp (fun a b _ => a + b) 2) f s
def execSub (f : Fields) (s : State) := laneExec specSub 3 (intOp (fun a b _ => a - b) 2) f s
def execMul (f : Fields) (s : State) := laneExec specMul 3 (intOp (fun a b _ => a * b) 2) f s
def execMad (f : Fields) (s : State) := laneExec specMad 3 (intOp (fun a b d => a * b + d) 3) f s

/-- The upper w bits of the product (R80). -/
def mulhiRes (c : Ctx) (_ : State) (a b _ old : TWord) : LaneRes :=
  let ty := c.f.ty
  r35 old [a, b] fun _ => LaneRes.word (extTy ty ((rdTy ty a.data * rdTy ty b.data) / 2 ^ tyWidth ty))
/-- mulhi (R80). -/
def execMulhi (f : Fields) (s : State) := laneExec specMulhi 3 mulhiRes f s

/-- min, max, abs, neg (R80). -/
def execMin (f : Fields) (s : State) := laneExec specMin 3 (intOp (fun a b _ => min a b) 2) f s
def execMax (f : Fields) (s : State) := laneExec specMax 3 (intOp (fun a b _ => max a b) 2) f s
def execAbs (f : Fields) (s : State) := laneExec specAbs 3 (intOp (fun a _ _ => (a.natAbs : Int)) 1) f s
def execNeg (f : Fields) (s : State) := laneExec specNeg 3 (intOp (fun a _ _ => -a) 1) f s

/-- div and rem (R81): division toward zero; a divisor of 0 gives X with cause 0x28 and the word's address. -/
def divRes (rem : Bool) (c : Ctx) (_ : State) (a b _ old : TWord) : LaneRes :=
  let ty := c.f.ty
  r35 old [a, b] fun _ =>
    let y := rdTy ty b.data
    if y = 0 then LaneRes.ok ⟨.x, payload causeIntDivZero c.sp.pc.toNat⟩
    else
      let q := (rdTy ty a.data).tdiv y
      LaneRes.word (extTy ty (if rem then rdTy ty a.data - y * q else q))

/-- R82: the quarter's divider is busy until the cycle. -/
def divFree (s : State) (cu : Cur) : Nat := (getQuarter s (quarterOf s cu.w)).divBusy

/-- The divider takes 8 cycles at width 64 and 4 below (R82). -/
def divTake (c : Ctx) (s : State) : State :=
  let qk := quarterOf s c.w
  setQuarter s qk { getQuarter s qk with divBusy := c.t + (if tyWidth c.f.ty = 64 then 8 else 4) }

/-- Issues a word that uses the quarter's divider. -/
def divExec (spec : OpSpec) (rem : Bool) (f : Fields) (s : State) : Host.Outcome State Fault Refusal :=
  match s.cur with
  | none => .next s
  | some cu =>
    if issueTime s cu.w cu.k < divFree s cu then .next (holdUntil (divFree s cu) s cu)
    else issue spec f s (fun c s => laneBody spec 3 (divRes rem) c (divTake c s))

def execDiv (f : Fields) (s : State) := divExec specDiv false f s
def execRem (f : Fields) (s : State) := divExec specRem true f s

/-! ### Logic, shifts, bit fields 0x010 to 0x01F (R83 to R86) -/

def specAnd : OpSpec := specAB 0x010 tyZero mdZero
def specOr : OpSpec := specAB 0x011 tyZero mdZero
def specXor : OpSpec := specAB 0x012 tyZero mdZero
def specNot : OpSpec := specA 0x013 tyZero mdZero
def specAndn : OpSpec := specAB 0x014 tyZero mdZero
def specShl : OpSpec := specAB 0x015 tyInt mdZero
def specShr : OpSpec := specAB 0x016 tyInt mdZero
def specSar : OpSpec := specAB 0x017 tyInt mdZero
def specRot : OpSpec := specAB 0x018 tyInt mdZero
def specBfx : OpSpec := specAB 0x019 (tyIn 0x88) mdZero
def specBfi : OpSpec := specABC 0x01A tyZero mdZero
def specPopc : OpSpec := specA 0x01B tyInt mdZero
def specClz : OpSpec := specA 0x01C tyInt mdZero
def specCtz : OpSpec := specA 0x01D tyInt mdZero
def specBrev : OpSpec := specA 0x01E tyInt mdZero
def specBswap : OpSpec := specA 0x01F tyInt mdZero

def execAnd (f : Fields) (s : State) := laneExec specAnd 3 (wordOp (fun _ a b _ => a &&& b) 2) f s
def execOr (f : Fields) (s : State) := laneExec specOr 3 (wordOp (fun _ a b _ => a ||| b) 2) f s
def execXor (f : Fields) (s : State) := laneExec specXor 3 (wordOp (fun _ a b _ => a ^^^ b) 2) f s
def execNot (f : Fields) (s : State) := laneExec specNot 3 (wordOp (fun _ a _ _ => ~~~a) 1) f s
def execAndn (f : Fields) (s : State) := laneExec specAndn 3 (wordOp (fun _ a b _ => a &&& ~~~b) 2) f s

/-- The pattern of width w in a word. -/
def lowPat (w : Nat) (x : Word) : Nat := x.toNat % 2 ^ w

/-- The shifts of R84, each answering the w result bits. -/
def shlBits (w : Nat) (x : Word) (n : Nat) : Nat := if n ≥ w then 0 else lowPat w x * 2 ^ n % 2 ^ w
def shrBits (w : Nat) (x : Word) (n : Nat) : Nat := if n ≥ w then 0 else lowPat w x / 2 ^ n
def sarInt (w : Nat) (x : Word) (n : Nat) : Int := rdInt w true x / 2 ^ (min n w)
def rotBits (w : Nat) (x : Word) (n : Nat) : Nat :=
  let p := lowPat w x
  p * 2 ^ (n % w) % 2 ^ w + p / 2 ^ (w - n % w)

/-- A typed operation on the low pattern, extended by TY. -/
def patOp (h : Nat → Word → Word → Int) (n : Nat) (c : Ctx) (_ : State) (a b _ old : TWord) : LaneRes :=
  r35 old ([a, b].take n) fun _ => LaneRes.word (extTy c.f.ty (h (tyWidth c.f.ty) a.data b.data))

def execShl (f : Fields) (s : State) := laneExec specShl 3 (patOp (fun w a b => shlBits w a b.toNat) 2) f s
def execShr (f : Fields) (s : State) := laneExec specShr 3 (patOp (fun w a b => shrBits w a b.toNat) 2) f s
def execSar (f : Fields) (s : State) := laneExec specSar 3 (patOp (fun w a b => sarInt w a b.toNat) 2) f s
def execRot (f : Fields) (s : State) := laneExec specRot 3 (patOp (fun w a b => rotBits w a b.toNat) 2) f s

/-- Position and effective length of a bit field (R86). -/
def bfPos (b : Word) : Nat := b.toNat % 64
def bfLen (b : Word) : Nat := min (min (b.toNat / 256 % 128) 64) (64 - bfPos b)

/-- bfx (R86). -/
def bfxWord (f : Fields) (a b _ : Word) : Word :=
  let n := bfLen b
  let x := a.toNat / 2 ^ bfPos b % 2 ^ n
  if n = 0 then 0 else extInt n (tySigned f.ty) x
/-- bfi (R86). -/
def bfiWord (_ : Fields) (a b c : Word) : Word :=
  let m : Word := BitVec.ofNat 64 ((2 ^ bfLen b - 1) * 2 ^ bfPos b)
  (c &&& ~~~m) ||| ((a <<< bfPos b) &&& m)
def execBfx (f : Fields) (s : State) := laneExec specBfx 3 (wordOp bfxWord 2) f s
def execBfi (f : Fields) (s : State) := laneExec specBfi 3 (wordOp bfiWord 3) f s

/-- Bit counts of R85 over the low w bits. -/
def popcNat (w : Nat) (x : Word) : Nat := ((List.range w).filter (fun i => x.getLsbD i)).length
def clzNat (w : Nat) (x : Word) : Nat := ((List.range w).findIdx? (fun i => x.getLsbD (w - 1 - i))).getD w
def ctzNat (w : Nat) (x : Word) : Nat := ((List.range w).findIdx? (fun i => x.getLsbD i)).getD w
def brevNat (w : Nat) (x : Word) : Nat :=
  (List.range w).foldl (fun v i => if x.getLsbD i then v + 2 ^ (w - 1 - i) else v) 0
def bswapNat (w : Nat) (x : Word) : Nat :=
  (List.range (w / 8)).foldl (fun v i => v + x.toNat / 2 ^ (8 * i) % 256 * 2 ^ (w - 8 - 8 * i)) 0

/-- A count, zero-extended whatever the type (R85). -/
def countOp (h : Nat → Word → Nat) (c : Ctx) (_ : State) (a _ _ old : TWord) : LaneRes :=
  r35 old [a] fun _ => LaneRes.word (BitVec.ofNat 64 (h (tyWidth c.f.ty) a.data))

def execPopc (f : Fields) (s : State) := laneExec specPopc 3 (countOp popcNat) f s
def execClz (f : Fields) (s : State) := laneExec specClz 3 (countOp clzNat) f s
def execCtz (f : Fields) (s : State) := laneExec specCtz 3 (countOp ctzNat) f s
def execBrev (f : Fields) (s : State) := laneExec specBrev 3 (patOp (fun w a _ => brevNat w a) 1) f s
def execBswap (f : Fields) (s : State) := laneExec specBswap 3 (patOp (fun w a _ => bswapNat w a) 1) f s

/-! ### lea, pdot, prm (R87 to R89) -/

def specLea : OpSpec := specAB 0x020 (tyIn 0xCC) (mdBits 7)
def specPdot : OpSpec := specABC 0x021 (tyIn 0x33) (mdBits 3)
def specPrm : OpSpec := specABC 0x022 tyZero mdZero

/-- A + B' * S mod 2^64 (R87). -/
def leaWord (f : Fields) (a b _ : Word) : Word :=
  a + BitVec.ofInt 64 (rdTy f.ty b) * BitVec.ofNat 64 (2 ^ ((modOf f).toNat % 8))
def execLea (f : Fields) (s : State) := laneExec specLea 3 (wordOp leaWord 2) f s

/-- The exact packed dot product (R88). -/
def pdotInt (ty : BitVec 4) (a b : Word) : Int :=
  let w := tyWidth ty
  (List.range (64 / w)).foldl (fun t i => t + rdTy ty (a >>> (w * i)) * rdTy ty (b >>> (w * i))) 0
/-- pdot (R88): accumulator width 32, or 64 with MOD[1]. -/
def pdotRes (c : Ctx) (_ : State) (a b d old : TWord) : LaneRes :=
  let sg := tySigned c.f.ty
  let w := if (modOf c.f).getLsbD 1 then 64 else 32
  r35 old [a, b, d] fun _ => satRes (satOf c.f) w sg (rdInt w sg d.data + pdotInt c.f.ty a.data b.data)
def execPdot (f : Fields) (s : State) := laneExec specPdot 3 pdotRes f s

/-- prm (R89): byte k of the result is byte C[4k+3:4k] of the pool of A and B. -/
def prmWord (_ : Fields) (a b c : Word) : Word :=
  let pool := a.toNat + b.toNat * 2 ^ 64
  BitVec.ofNat 64 ((List.range 8).foldl (fun v k => v + pool / 2 ^ (8 * (c.toNat / 2 ^ (4 * k) % 16)) % 256 * 2 ^ (8 * k)) 0)
def execPrm (f : Fields) (s : State) := laneExec specPrm 3 (wordOp prmWord 3) f s

end Sys2Proof.Machine
end

