-- ==== Sys2Proof/Machine/Float.lean ====
section
/-!
DEFINITION. Floating-point formats, exact values and the one rounding (R99 to R106, R119).
-/
namespace Sys2Proof.Machine

/-! ### Formats (R99) -/

/-- A format: width, fraction bits, bias, the bits of the largest finite magnitude, and whether it has infinities. -/
structure Fmt where
  w : Nat
  f : Nat
  bias : Nat
  maxBits : Nat
  inf : Bool
  deriving DecidableEq, Repr

def fmtF64 : Fmt := { w := 64, f := 52, bias := 1023, maxBits := 0x7FEFFFFFFFFFFFFF, inf := true }
def fmtF32 : Fmt := { w := 32, f := 23, bias := 127, maxBits := 0x7F7FFFFF, inf := true }
def fmtF16 : Fmt := { w := 16, f := 10, bias := 15, maxBits := 0x7BFF, inf := true }
def fmtBf16 : Fmt := { w := 16, f := 7, bias := 127, maxBits := 0x7F7F, inf := true }
def fmtE4m3 : Fmt := { w := 8, f := 3, bias := 7, maxBits := 0x7E, inf := false }
def fmtE5m2 : Fmt := { w := 8, f := 2, bias := 15, maxBits := 0x7B, inf := true }
def fmtE2m1 : Fmt := { w := 4, f := 1, bias := 1, maxBits := 0x7, inf := false }

/-- The format of a type code (R53). -/
def fmtOf (ty : Nat) : Fmt :=
  match ty with
  | 8 => fmtF64 | 9 => fmtF32 | 10 => fmtF16 | 11 => fmtBf16 | 12 => fmtE4m3 | 13 => fmtE5m2 | _ => fmtE2m1

/-- The default NaN of a format (R101); e2m1 has none, and 0 stands for it (R119). -/
def defaultNaN (k : Fmt) : Nat :=
  if k.inf then k.maxBits + 1 + 2 ^ (k.f - 1) else if k.w = 8 then 0x7F else 0

/-- fcr[8] bears on a format (R105). -/
def ftzFmt (k : Fmt) : Bool := decide (k.w ≥ 32)

/-! ### Values (R100) -/

/-- A value read from a format. A finite value is (-1)^neg * m * 2^x. -/
inductive FVal where
  | nan (neg quiet : Bool) (frac : Nat)
  | inf (neg : Bool)
  | fin (neg : Bool) (m : Nat) (x : Int)
  deriving DecidableEq, Repr

/-- The exponent of the last place of the subnormals of a format. -/
def Fmt.ulpMin (k : Fmt) : Int := 1 - (k.bias : Int) - k.f

/-- Reads a value (R100). -/
def unpack (k : Fmt) (bits : Nat) : FVal :=
  let b := bits % 2 ^ k.w
  let neg := b.testBit (k.w - 1)
  let mag := b % 2 ^ (k.w - 1)
  let e := mag / 2 ^ k.f
  let f := mag % 2 ^ k.f
  if mag > k.maxBits then
    if k.inf && decide (mag = k.maxBits + 1) then .inf neg
    else .nan neg (!k.inf || f.testBit (k.f - 1)) f
  else if e = 0 then .fin neg f k.ulpMin
  else .fin neg (2 ^ k.f + f) (k.ulpMin + e - 1)

/-- Reads an operand, a subnormal as zero under fcr[8] (R105). -/
def unpackZ (k : Fmt) (ftz : Bool) (bits : Nat) : FVal :=
  match unpack k bits with
  | .fin neg m x => if ftz && ftzFmt k && decide (m < 2 ^ k.f) then .fin neg 0 k.ulpMin else .fin neg m x
  | v => v

def FVal.isNan : FVal → Bool
  | .nan .. => true
  | _ => false
def FVal.isSnan : FVal → Bool
  | .nan _ q _ => !q
  | _ => false
def FVal.isZero : FVal → Bool
  | .fin _ m _ => decide (m = 0)
  | _ => false
def FVal.neg : FVal → Bool
  | .nan n _ _ => n
  | .inf n => n
  | .fin n _ _ => n

/-! ### Flags (R106) -/

def flIv : BitVec 6 := 0x01
def flDz : BitVec 6 := 0x02
def flOf : BitVec 6 := 0x04
def flUf : BitVec 6 := 0x08
def flIx : BitVec 6 := 0x10

/-- A result: the bits of its format and the flags raised. -/
structure FRes where
  bits : Nat
  fl : BitVec 6
  deriving DecidableEq, Repr

/-- The sign bit of a format. -/
def Fmt.sign (k : Fmt) (neg : Bool) : Nat := if neg then 2 ^ (k.w - 1) else 0

/-! ### The one rounding (R102) -/

/-- Whether a magnitude rounds up: the last place kept is odd, twice the remainder against the whole (as an order), and inexactness. -/
def roundsUp (mode : Rm) (neg odd : Bool) (twice whole : Nat) : Bool :=
  match mode with
  | .rne => decide (twice > whole) || (decide (twice = whole) && odd)
  | .rtz => false
  | .rup => !neg && decide (twice > 0)
  | .rdn => neg && decide (twice > 0)
  | .rna => decide (twice ≥ whole) && decide (twice > 0)

/-- m * 2^x as a multiple of 2^q, rounded: the multiple and whether it is inexact. -/
def roundAt (mode : Rm) (neg : Bool) (m : Nat) (x q : Int) : Nat × Bool :=
  if x ≥ q then (m * 2 ^ (x - q).toNat, false)
  else
    let d := 2 ^ (q - x).toNat
    let k := m / d
    let r := m % d
    (if roundsUp mode neg (k % 2 = 1) (2 * r) d then k + 1 else k, decide (r ≠ 0))

/-- The rounding of a nonzero magnitude m * 2^x into a format: magnitude bits (above maxBits for an overflow), inexact, tiny (R102, R106). -/
def roundMag (k : Fmt) (mode : Rm) (neg : Bool) (m : Nat) (x : Int) : Nat × Bool × Bool :=
  let e : Int := (Nat.log2 m : Int) + x
  let q0 := e - k.f
  let q := max q0 k.ulpMin
  let r := roundAt mode neg m x q
  let r0 := roundAt mode neg m x q0
  let tiny := decide (q0 < k.ulpMin) && decide ((Nat.log2 r0.1 : Int) + q0 < k.ulpMin + k.f)
  ((q - k.ulpMin).toNat * 2 ^ k.f + r.1, r.2, tiny)

/-- The overflowed magnitude of a mode: the largest finite, or infinity (R102). -/
def overflowMag (k : Fmt) (mode : Rm) (neg : Bool) : Nat :=
  let top := match mode with
    | .rne => true
    | .rna => true
    | .rtz => false
    | .rup => !neg
    | .rdn => neg
  if top then k.maxBits + 1 else k.maxBits

/-- Rounds a finite nonzero magnitude to a format with infinities (R102, R105, R106). -/
def roundFin (k : Fmt) (mode : Rm) (ftz neg : Bool) (m : Nat) (x : Int) : FRes :=
  let r := roundMag k mode neg m x
  if r.1 > k.maxBits then { bits := k.sign neg + overflowMag k mode neg, fl := flOf ||| flIx }
  else if ftz && ftzFmt k && r.2.2 then { bits := k.sign neg, fl := flUf ||| flIx }
  else { bits := k.sign neg + r.1, fl := (if r.2.1 then flIx else 0) ||| (if r.2.1 && r.2.2 then flUf else 0) }

/-- A zero with a sign. -/
def zeroRes (k : Fmt) (neg : Bool) : FRes := { bits := k.sign neg, fl := 0 }
/-- An infinity. -/
def infRes (k : Fmt) (neg : Bool) : FRes := { bits := k.sign neg + k.maxBits + 1, fl := 0 }
/-- The default NaN with invalid (R104). -/
def invalidRes (k : Fmt) : FRes := { bits := defaultNaN k, fl := flIv }

/-- A NaN carried into a format and quieted (R104): fraction bits aligned at the most significant end. -/
def carryNaN (src dst : Fmt) (neg : Bool) (frac : Nat) : Nat :=
  if dst.inf then
    let fr := if dst.f ≥ src.f then frac * 2 ^ (dst.f - src.f) else frac / 2 ^ (src.f - dst.f)
    dst.sign neg + dst.maxBits + 1 + (fr ||| 2 ^ (dst.f - 1))
  else if dst.w = 8 then dst.sign neg + 0x7F
  else 0

/-- The first NaN among operands, with invalid if any NaN is signalling (R104); e4m3's NaN is carried as a quiet NaN. -/
def firstNaN (src dst : Fmt) (vs : List FVal) : Option FRes :=
  match vs.find? FVal.isNan with
  | some (.nan neg _ fr) => some { bits := carryNaN src dst neg fr, fl := if vs.any FVal.isSnan then flIv else 0 }
  | _ => none

/-- The exact product of two values that are no NaNs; none for zero times infinity. -/
def mulVal (a b : FVal) : Option FVal :=
  match a, b with
  | .inf n, .inf p => some (.inf (n ^^ p))
  | .inf n, .fin p m _ => if m = 0 then none else some (.inf (n ^^ p))
  | .fin n m _, .inf p => if m = 0 then none else some (.inf (n ^^ p))
  | .fin n m x, .fin p l y => some (.fin (n ^^ p) (m * l) (x + y))
  | v, _ => some v

/-- A value negated. -/
def negVal : FVal → FVal
  | .nan n q f => .nan n q f
  | .inf n => .inf !n
  | .fin n m x => .fin (!n) m x

/-- The least exponent of finite terms. -/
def minExp (ts : List FVal) : Int :=
  ts.foldl (fun x t => match t with
    | .fin _ m y => if m = 0 then x else min x y
    | _ => x) 100000

/-- The exact sum of finite terms at exponent x. -/
def sumAt (ts : List FVal) (x : Int) : Int :=
  ts.foldl (fun v t => match t with
    | .fin n m y => if m = 0 then v else
        let z : Int := ((m * 2 ^ (y - x).toNat : Nat) : Int)
        if n then v - z else v + z
    | _ => v) 0

/-- The sign of an exact zero sum (R103). -/
def zeroSign (mode : Rm) (ts : List FVal) : Bool :=
  if ts.all (fun t => t.neg) then true else if ts.all (fun t => !t.neg) then false else decide (mode = .rdn)

/-- Rounds the exact sum of terms that are no NaNs (R102, R103, R104). -/
def roundSum (k : Fmt) (mode : Rm) (ftz : Bool) (ts : List FVal) : FRes :=
  let pinf := ts.any (fun t => t = .inf false)
  let ninf := ts.any (fun t => t = .inf true)
  if pinf && ninf then invalidRes k
  else if pinf || ninf then infRes k ninf
  else
    let x := minExp ts
    let v := sumAt ts x
    if v = 0 then zeroRes k (zeroSign mode ts) else roundFin k mode ftz (decide (v < 0)) v.natAbs x

/-! ### Division and square root (R111) -/

/-- The integer square root, by digits from 2^n down. -/
def isqrt (v : Nat) : Nat → Nat → Nat
  | 0, r => if (r + 1) * (r + 1) ≤ v then r + 1 else r
  | n + 1, r => isqrt v n (if (r + 2 ^ (n + 1)) * (r + 2 ^ (n + 1)) ≤ v then r + 2 ^ (n + 1) else r)

/-- A magnitude just above or at m * 2^x: eight times finer, with a sticky last place. -/
def sticky (m : Nat) (inexact : Bool) : Nat := 8 * m + (if inexact then 1 else 0)

/-- The quotient of nonzero magnitudes, with enough places for one rounding to a fraction of f bits: m and x. -/
def quotMag (f m : Nat) (x : Int) (l : Nat) (y : Int) : Nat × Int :=
  let sh := f + 4 + Nat.log2 l
  (sticky (m * 2 ^ sh / l) (decide (m * 2 ^ sh % l ≠ 0)), x - y - sh - 3)

/-- The square root of a nonzero magnitude, likewise. -/
def sqrtMag (f m : Nat) (x : Int) : Nat × Int :=
  let odd : Nat := (x % 2).toNat
  let sh := 2 * (f + 4)
  let v := m * 2 ^ (sh + odd)
  let r := isqrt v (Nat.log2 v / 2 + 1) 0
  (sticky r (decide (r * r ≠ v)), (x - odd - sh) / 2 - 3)

/-- fdiv (R111) of values that are no NaNs. -/
def divVal (k : Fmt) (mode : Rm) (ftz : Bool) (a b : FVal) : FRes :=
  let neg := a.neg ^^ b.neg
  match a, b with
  | .inf _, .inf _ => invalidRes k
  | .inf _, _ => infRes k neg
  | _, .inf _ => zeroRes k neg
  | .fin _ m x, .fin _ l y =>
    if l = 0 then (if m = 0 then invalidRes k else { infRes k neg with fl := flDz })
    else if m = 0 then zeroRes k neg
    else
      let q := quotMag k.f m x l y
      roundFin k mode ftz neg q.1 q.2
  | _, _ => invalidRes k

/-- fsqrt (R111) of a value that is no NaN. -/
def sqrtVal (k : Fmt) (mode : Rm) (ftz : Bool) (a : FVal) : FRes :=
  match a with
  | .inf neg => if neg then invalidRes k else infRes k false
  | .fin neg m x =>
    if m = 0 then zeroRes k neg
    else if neg then invalidRes k
    else
      let q := sqrtMag k.f m x
      roundFin k mode ftz false q.1 q.2
  | _ => invalidRes k

/-! ### Integral rounding (R112, R120) -/

/-- m * 2^x rounded to an integer, and whether it is inexact. -/
def roundInt (mode : Rm) (neg : Bool) (m : Nat) (x : Int) : Nat × Bool := roundAt mode neg m x 0

/-! ### Conversion to a format (R118, R119) -/

/-- A finite value rounded into a destination of `cvt`: IEEE formats by R102, the MX formats by R119. fcr[8] flushes a tiny f32 or f64 result, also of
a widening form (R105; DESIGN CHOICE, log 69). -/
def convFin (k : Fmt) (mode : Rm) (ftz sat neg : Bool) (m : Nat) (x : Int) : FRes :=
  if m = 0 then zeroRes k neg
  else if k.w ≥ 16 then roundFin k mode ftz neg m x
  else
    let r := roundMag k mode neg m x
    if r.1 > k.maxBits then
      if sat then { bits := k.sign neg + k.maxBits, fl := flSat ||| flIx }
      else
        let top := overflowMag k mode neg
        let mag := if top = k.maxBits then k.maxBits
          else if k.inf then k.maxBits + 1 else if k.w = 8 then 0x7F else k.maxBits
        { bits := k.sign neg + mag, fl := flOf ||| flIx }
    else { bits := k.sign neg + r.1, fl := (if r.2.1 then flIx else 0) ||| (if r.2.1 && r.2.2 then flUf else 0) }

/-- An infinity converted (R119). -/
def convInf (k : Fmt) (sat neg : Bool) : FRes :=
  if k.w ≥ 16 then infRes k neg
  else if sat then { bits := k.sign neg + k.maxBits, fl := flSat }
  else if k.inf then infRes k neg
  else { bits := k.sign neg + (if k.w = 8 then 0x7F else k.maxBits), fl := flIv }

/-- A NaN converted (R104, R119). -/
def convNaN (src dst : Fmt) (neg quiet : Bool) (fr : Nat) : FRes :=
  if dst.w = 4 then { bits := 0, fl := flIv }
  else { bits := carryNaN src dst neg fr, fl := if quiet then 0 else flIv }

/-- A floating value converted to a floating format (R118, R119). -/
def convVal (src dst : Fmt) (mode : Rm) (ftz sat : Bool) (v : FVal) : FRes :=
  match v with
  | .nan neg q fr => convNaN src dst neg q fr
  | .inf neg => convInf dst sat neg
  | .fin neg m x => convFin dst mode ftz sat neg m x

/-! ### Modes (R54) -/

/-- The mode of a code. -/
def rmOf (code : Nat) : Rm :=
  match code with
  | 1 => .rtz | 2 => .rup | 3 => .rdn | 4 => .rna | _ => .rne

/-- The mode an instruction rounds by: MOD[2:0], or fcr[2:0] for DYN. -/
def modeOf (f : Fields) (fcr : Word) : Rm :=
  let c := (modOf f).toNat % 8
  if c = 5 then rmOf (fcr.toNat % 8) else rmOf c

end Sys2Proof.Machine
end

