-- ==== Sys2Proof/Machine/Sfu.lean ====
section
/-!
DEFINITION. The special functions of R125 and R126: the exact value rounded toward zero, found by integer bounds whose precision
grows until both bounds truncate to the same value.

A bound pair (lo, hi) at precision p stands for lo / 2^p <= v <= hi / 2^p.
-/
namespace Sys2Proof.Machine

/-- The truncated rounding of a magnitude, with the flags of R125: no inexact, underflow for a tiny inexact result. -/
def sfuRound (k : Fmt) (ftz neg : Bool) (m : Nat) (x : Int) : FRes :=
  let r := roundMag k .rtz neg m x
  if r.1 > k.maxBits then { infRes k neg with fl := flOf }
  else if ftz && ftzFmt k && r.2.2 then { bits := k.sign neg, fl := flUf }
  else { bits := k.sign neg + r.1, fl := if r.2.1 && r.2.2 then flUf else 0 }

/-- A magnitude just below m * 2^x. -/
def justBelow (k : Fmt) (ftz neg : Bool) (m : Nat) (x : Int) : FRes := sfuRound k ftz neg (m * 2 ^ (k.f + 4) - 1) (x - (k.f + 4))

/-- The result when both bounds, times 2^x, truncate alike. -/
def sfuAgree (k : Fmt) (ftz neg : Bool) (b : Nat × Nat) (x : Int) : Option FRes :=
  if b.1 = 0 then none
  else
    let r := sfuRound k ftz neg (sticky b.1 true) (x - 3)
    let q := sfuRound k ftz neg (sticky b.2 false - 1) (x - 3)
    if r = q then some r else none

/-- Tries precisions that double, from p, n + 1 times; the last bound is taken if none agrees. -/
def sfuSearch (k : Fmt) (ftz neg : Bool) (v : Nat → Nat × Nat) (x : Nat → Int) : Nat → Nat → FRes
  | 0, p => sfuRound k ftz neg (sticky (v p).1 true) (x p - 3)
  | n + 1, p =>
    match sfuAgree k ftz neg (v p) (x p) with
    | some r => r
    | none => sfuSearch k ftz neg v x n (2 * p)

/-! ### Constants -/

/-- Bounds of ln 2 at precision p: the sum of 1 / (k 2^k). -/
def ln2Bounds (p : Nat) : Nat × Nat :=
  let s := (List.range p).foldl (fun v i => v + 2 ^ p / ((i + 1) * 2 ^ (i + 1))) 0
  (s, s + p + 2)

/-- Lower bound and error count of arctan(1/n) at precision p, by its alternating series. -/
def atanInv (n p : Nat) : Int :=
  (List.range (p / 2 + 2)).foldl (fun v i =>
    let t : Int := ((2 ^ p / ((2 * i + 1) * n ^ (2 * i + 1)) : Nat) : Int)
    if i % 2 = 0 then v + t else v - t) 0

/-- Bounds of pi at precision p: 16 arctan(1/5) - 4 arctan(1/239). -/
def piBounds (p : Nat) : Nat × Nat :=
  let v := 16 * atanInv 5 p - 4 * atanInv 239 p
  let e : Int := 20 * ((p / 2 + 4 : Nat) : Int)
  ((v - e).toNat, (v + e).toNat)

/-! ### Series -/

/-- Bounds of e^y for 0 <= y < 1, y between the bounds at precision p: Taylor terms by downward and upward division. -/
def expTerms (y p up : Nat) : Nat → Nat → Nat → Nat → Nat
  | 0, _, _, s => s
  | n + 1, i, t, s =>
    let t' := t * y / 2 ^ p / i + up
    expTerms y p up n (i + 1) t' (s + t')

/-- e^y: the lower sum rounds down; the upper sum rounds up and adds the tail, below the unit 2^-p for p terms. -/
def expBounds (y : Nat × Nat) (p : Nat) : Nat × Nat :=
  (expTerms y.1 p 0 p 1 (2 ^ p) (2 ^ p), expTerms y.2 p 1 p 1 (2 ^ p) (2 ^ p) + 2)

/-- ln m for 1 <= m < 2, m = n / 2^f: 2 artanh((n - 2^f) / (n + 2^f)), bounds at precision p. -/
def lnSeries (z p up : Nat) : Nat → Nat → Nat → Nat → Nat
  | 0, _, _, s => s
  | n + 1, i, t, s => lnSeries z p up n (i + 2) (t * z / 2 ^ p * z / 2 ^ p + 2 * up) (s + t / i + up)

def lnBounds (n d p : Nat) : Nat × Nat :=
  let z := (n - d) * 2 ^ p / (n + d)
  (2 * lnSeries z p 0 p 1 z 0, 2 * (lnSeries (z + 1) p 1 p 1 (z + 1) 0) + 2)

/-- sin(pi r) / r for 0 < r <= 1/2, r = m 2^x: pi times the alternating series of u = (pi r)^2. The pair holds
the sum that the next term joins, then the other; up = 0 gives lower and up = 1 upper terms. -/
def altTerms (u p up : Nat) : Nat → Nat → Nat → Nat × Nat → Nat × Nat
  | 0, _, _, s => s
  | n + 1, i, t, s =>
    let t' := t * u / 2 ^ p / (i * (i + 1)) + up
    altTerms u p up n (i + 2) t' (s.2, s.1 + t')

/-- The alternating sums 1 - u/(i(i+1)) + u^2/(i(i+1)(i+2)(i+3)) - ...: bounds at precision p for u within its bounds. -/
def altBounds (u : Nat × Nat) (i p : Nat) : Nat × Nat :=
  let n := 2 * (p / 4 + 8)
  let lo := altTerms u.1 p 0 n i (2 ^ p) (0, 2 ^ p)
  let hi := altTerms u.2 p 1 n i (2 ^ p) (0, 2 ^ p)
  (lo.2 - hi.1 - 2, hi.2 - lo.1 + 2)

/-- Bounds of (pi r)^2 at precision p for r = m 2^x, x <= 0. -/
def piSquare (m : Nat) (x : Int) (p : Nat) : Nat × Nat :=
  let b := piBounds p
  let d := 2 ^ (p + 2 * (-x).toNat)
  (b.1 * b.1 * m * m / d, b.2 * b.2 * m * m / d + 1)

/-- Bounds of sin(pi r) / r. -/
def sinOverR (m : Nat) (x : Int) (p : Nat) : Nat × Nat :=
  let s := altBounds (piSquare m x p) 2 p
  let b := piBounds p
  (b.1 * s.1 / 2 ^ p, b.2 * s.2 / 2 ^ p + 1)

/-- Bounds of cos(pi r). -/
def cosBounds (m : Nat) (x : Int) (p : Nat) : Nat × Nat := altBounds (piSquare m x p) 1 p

/-! ### The functions -/

/-- The integer part and the fraction, a numerator over 2^(-x), of a magnitude m 2^x. -/
def splitInt (m : Nat) (x : Int) : Nat × Nat × Nat :=
  if x ≥ 0 then (m * 2 ^ x.toNat, 0, 0) else (m / 2 ^ (-x).toNat, m % 2 ^ (-x).toNat, (-x).toNat)

/-- 2^a for a finite nonzero a. -/
def sfuExp2 (k : Fmt) (ftz neg : Bool) (m : Nat) (x : Int) : FRes :=
  let e := (Nat.log2 m : Int) + x
  if e ≥ 12 then (if neg then sfuRound k ftz false 1 (-5000) else { infRes k false with fl := flOf })
  else if e < -(k.f : Int) - 2 then (if neg then justBelow k ftz false 1 0 else { bits := 2 ^ k.f * k.bias, fl := 0 })
  else
    let i := splitInt m x
    let whole : Int := if neg then (if i.2.1 = 0 then -(i.1 : Int) else -(i.1 : Int) - 1) else i.1
    let num := if neg ∧ i.2.1 ≠ 0 then 2 ^ i.2.2 - i.2.1 else i.2.1
    if num = 0 then sfuRound k ftz false 1 whole
    else
      sfuSearch k ftz false
        (fun p => let l := ln2Bounds p; expBounds (num * l.1 / 2 ^ i.2.2, num * l.2 / 2 ^ i.2.2 + 1) p)
        (fun p => whole - p) 6 (2 * k.f + 40)

/-- log2 a for a finite a > 0: the exponent plus ln m / ln 2. -/
def sfuLog2 (k : Fmt) (ftz : Bool) (m : Nat) (x : Int) : FRes :=
  let n := Nat.log2 m
  let e : Int := (n : Int) + x
  if m = 2 ^ n then (if e = 0 then zeroRes k false else sfuRound k ftz (decide (e < 0)) e.natAbs 0)
  else
    sfuSearch k ftz (decide (e < 0))
      (fun p =>
        let l := lnBounds m (2 ^ n) p
        let c := ln2Bounds p
        let lo := l.1 * 2 ^ p / c.2
        let hi := l.2 * 2 ^ p / c.1 + 1
        if e < 0 then ((((-e).toNat * 2 ^ p) - hi), ((-e).toNat * 2 ^ p) - lo) else (e.toNat * 2 ^ p + lo, e.toNat * 2 ^ p + hi))
      (fun p => -(p : Int)) 6 (2 * k.f + 60)

/-- sin(pi r) for 0 < r <= 1/2, r = m 2^x. -/
def sfuSinCore (k : Fmt) (ftz neg : Bool) (m : Nat) (x : Int) : FRes :=
  if (m : Int) * 2 = 2 ^ (-x).toNat then { bits := k.sign neg + 2 ^ k.f * k.bias, fl := 0 }
  else
    sfuSearch k ftz neg (fun p => let b := sinOverR m x p; (m * b.1, m * b.2)) (fun p => x - p) 6 (2 * k.f + 40)

/-- cos(pi r) for 0 <= r < 1/2, r = m 2^x. -/
def sfuCosCore (k : Fmt) (ftz neg : Bool) (m : Nat) (x : Int) : FRes :=
  let d := 2 ^ (-x).toNat
  if m = 0 then { bits := k.sign neg + 2 ^ k.f * k.bias, fl := 0 }
  else if (Nat.log2 m : Int) + x < -((k.f : Int) / 2) - 4 then justBelow k ftz neg 1 0
  else if 4 * m ≤ d then sfuSearch k ftz neg (fun p => cosBounds m x p) (fun p => -(p : Int)) 6 (2 * k.f + 40)
  else sfuSinCore k ftz neg (d - 2 * m) (x - 1)

/-- sin(pi a) for a finite nonzero a that is no integer (R126). -/
def sfuSinpi (k : Fmt) (ftz neg : Bool) (m : Nat) (x : Int) : FRes :=
  let i := splitInt m x
  if i.2.1 = 0 then zeroRes k neg
  else
    let d := 2 ^ i.2.2
    let r := if 2 * i.2.1 ≤ d then i.2.1 else d - i.2.1
    sfuSinCore k ftz (neg ^^ decide (i.1 % 2 = 1)) r (-(i.2.2 : Int))

/-- cos(pi a) for a finite a (R126). -/
def sfuCospi (k : Fmt) (ftz : Bool) (m : Nat) (x : Int) : FRes :=
  let i := splitInt m x
  let d := 2 ^ i.2.2
  let odd := decide (i.1 % 2 = 1)
  if 2 * i.2.1 = d then zeroRes k false
  else if 2 * i.2.1 < d then sfuCosCore k ftz odd i.2.1 (-(i.2.2 : Int))
  else sfuCosCore k ftz (!odd) (d - i.2.1) (-(i.2.2 : Int))

/-- tanh of a magnitude: (E - 1) / (E + 1) with E = e^(2a) = 2^n e^r. -/
def sfuTanh (k : Fmt) (ftz neg : Bool) (m : Nat) (x : Int) : FRes :=
  let e := (Nat.log2 m : Int) + x
  if e < -((k.f : Int) / 2) - 4 then justBelow k ftz neg m x
  else if e ≥ 5 then justBelow k ftz neg 1 0
  else
    sfuSearch k ftz neg
      (fun p =>
        let y := if x + 1 ≥ 0 then m * 2 ^ (x + 1).toNat * 2 ^ p else m * 2 ^ p / 2 ^ (-(x + 1)).toNat
        let yh := if x + 1 ≥ 0 then y else y + 1
        let l := ln2Bounds p
        let n := y / l.2
        let r := expBounds (y - n * l.2, yh - n * l.1) p
        let lo := r.1 * 2 ^ n
        let hi := r.2 * 2 ^ n
        ((lo - 2 ^ p) * 2 ^ p / (lo + 2 ^ p), (hi - 2 ^ p) * 2 ^ p / (hi + 2 ^ p) + 1))
      (fun p => -(p : Int)) 6 (3 * k.f + 80)

/-- sfu (R125, R126): function code, value, with fcr[8] applied by the reading. -/
def sfuVal (k : Fmt) (ftz : Bool) (fn : Nat) (v : FVal) : FRes :=
  match v with
  | .nan neg q fr => { bits := carryNaN k k neg fr, fl := if q then 0 else flIv }
  | .inf neg =>
    match fn with
    | 0 => if neg then zeroRes k false else infRes k false
    | 1 => if neg then invalidRes k else infRes k false
    | 2 => invalidRes k
    | 3 => invalidRes k
    | 4 => zeroRes k neg
    | 5 => if neg then invalidRes k else zeroRes k false
    | _ => { bits := k.sign neg + 2 ^ k.f * k.bias, fl := 0 }
  | .fin neg m x =>
    if m = 0 then
      match fn with
      | 0 => { bits := 2 ^ k.f * k.bias, fl := 0 }
      | 1 => { infRes k true with fl := flDz }
      | 2 => zeroRes k neg
      | 3 => { bits := 2 ^ k.f * k.bias, fl := 0 }
      | 4 => { infRes k neg with fl := flDz }
      | 5 => { infRes k neg with fl := flDz }
      | _ => zeroRes k neg
    else
      match fn with
      | 0 => sfuExp2 k ftz neg m x
      | 1 => if neg then invalidRes k else sfuLog2 k ftz m x
      | 2 => sfuSinpi k ftz neg m x
      | 3 => sfuCospi k ftz m x
      | 4 => let q := quotMag k.f 1 0 m x; sfuRound k ftz neg q.1 q.2
      | 5 =>
        if neg then invalidRes k
        else
          let odd : Nat := (x % 2).toNat
          let sh := 2 * (k.f + 4 + Nat.log2 m)
          let n := 2 ^ sh / (m * 2 ^ odd)
          let r := isqrt n (Nat.log2 n / 2 + 1) 0
          sfuRound k ftz false (sticky r (decide (r * r * (m * 2 ^ odd) ≠ 2 ^ sh))) (-(x - odd) / 2 - sh / 2 - 3)
      | _ => sfuTanh k ftz neg m x

end Sys2Proof.Machine
end

