-- ==== Sys2Proof/Machine/FloatOps.lean ====
section
/-!
DEFINITION. The floating-point, conversion and special-function instructions 0x040 to 0x063 (R104 to R128).
-/
namespace Sys2Proof.Machine

/-! ### Rows (R109) -/

/-- MOD[2:0] is the rounding code; the other bits of the set may be set. -/
def mdRmBits (conv : Bool) (set : BitVec 16) : Chk := Chk.and (mdBits (set ||| 7)) (mdRm conv)

def specF2 (op : BitVec 9) : OpSpec := specAB op tyFp (mdRmBits false 0)
def specF3 (op : BitVec 9) : OpSpec := specABC op tyFp (mdRmBits false 0)
def specFadd : OpSpec := specF2 0x040
def specFsub : OpSpec := specF2 0x041
def specFmul : OpSpec := specF2 0x042
def specFma : OpSpec := specF3 0x043
def specFms : OpSpec := specF3 0x044
def specFnma : OpSpec := specF3 0x045
def specFnms : OpSpec := specF3 0x046
def specFdiv : OpSpec := { specF2 0x047 with cnt := some .ld }
def specFsqrt : OpSpec := { specA 0x048 tyFp (mdRmBits false 0) with cnt := some .ld }
def specFmin : OpSpec := specAB 0x049 tyFp mdZero
def specFmax : OpSpec := specAB 0x04A tyFp mdZero
def specFminx : OpSpec := specAB 0x04B tyFp mdZero
def specFmaxx : OpSpec := specAB 0x04C tyFp mdZero
def specFabs : OpSpec := specA 0x04D (tyIn 0x7F00) mdZero
def specFneg : OpSpec := specA 0x04E (tyIn 0x7F00) mdZero
def specFcps : OpSpec := specAB 0x04F (tyIn 0x7F00) (Chk.and (mdBits 3) (chkIf 0x04 (fun e => decide ((modOf e.f).toNat % 4 ≠ 3))))
def specFclass : OpSpec := specA 0x050 (tyIn 0x7F00) mdZero
def specFrnd : OpSpec := specA 0x051 tyFp (mdRmBits true 0x8)
def specFscale : OpSpec := specAB 0x052 tyFp (mdRmBits false 0)
def specFexp : OpSpec := specA 0x053 tyFp mdZero
def specFman : OpSpec := specA 0x054 tyFp mdZero
def specHdot : OpSpec := specABC 0x055 (tyIn 0x3C00) (mdRmBits false 0x8)

/-- The source type of a conversion, MOD[7:4]. -/
def styOf (f : Fields) : Nat := (modOf f).toNat / 16 % 16
/-- cvt: TY or sty of 15 has subcode 0x05 (R118). -/
def specCvt : OpSpec :=
  specA 0x060 (Chk.and (tyIn 0x7FFF) (chkIf 0x05 (fun e => decide (styOf e.f ≠ 15)))) (mdRmBits true 0xF8)

/-- cvtp's narrowing and widening pairs (R121). -/
def cvtpNarrow (s d : Nat) : Bool :=
  (s = 8 && d = 9) || (s = 9 && (d = 10 || d = 11)) || ((s = 10 || s = 11) && (d = 12 || d = 13)) || ((s = 12 || s = 13) && d = 14)
def cvtpWiden (s d : Nat) : Bool :=
  (s = 9 && d = 8) || ((s = 10 || s = 11) && d = 9) || ((s = 12 || s = 13) && (d = 10 || d = 11)) || (s = 14 && d = 12)
/-- A widening `cvtp`: sty is bits [7:4] of MOD as they stand, also where MOD holds an immediate (DESIGN CHOICE, log 70). -/
def isWiden (f : Fields) : Bool := cvtpWiden (f.md.toNat / 16 % 16) f.ty.toNat
/-- B of cvtp and cvtmx: read in the narrowing or expanding form, where 0xFF has subcode 0x08; otherwise unused (R109, R121). -/
def optB (reads : Fields → Bool) : Chk := fun e =>
  if reads e.f then srcOf 0x08 true (·.b) e else unusedB e
def specCvtp : OpSpec :=
  { specA 0x061 (chkIf 0x05 (fun e => let s := e.f.md.toNat / 16 % 16; cvtpNarrow s e.f.ty.toNat || cvtpWiden s e.f.ty.toNat))
      (Chk.and (chkIf 0x04 (fun e => e.f.md &&& 0xFE00 = 0 && (if isWiden e.f then !e.f.md.getLsbD 3 else !e.f.md.getLsbD 8))) (mdRm true)) with
    b := optB (fun f => !isWiden f), reads := fun f => if isWiden f then [f.a] else [f.a, f.b] }

/-- cvtmx's forms (R122). -/
def mxFloat (t : Nat) : Bool := decide (8 ≤ t ∧ t ≤ 11)
def mxElem (t : Nat) : Bool := decide (12 ≤ t ∧ t ≤ 14)
/-- The expand form: sty, bits [7:4] of MOD as they stand, also where MOD holds an immediate (DESIGN CHOICE, log 70). -/
def isExpand (f : Fields) : Bool := mxElem (f.md.toNat / 16 % 16)
def specCvtmx : OpSpec :=
  { specA 0x062 (chkIf 0x05 (fun e => let s := e.f.md.toNat / 16 % 16; (mxElem e.f.ty.toNat && mxFloat s) || (mxFloat e.f.ty.toNat && mxElem s)))
      (Chk.and (chkIf 0x04 (fun e => e.f.md &&& 0xFF08 = 0)) (mdRm true)) with
    b := optB isExpand, reads := fun f => if isExpand f then [f.a, f.b] else [f.a], cnt := some .ld }
def specSfu : OpSpec :=
  { specA 0x063 (tyIn 0x300) (Chk.and (mdBits 0xF) (chkIf 0x04 (fun e => decide ((modOf e.f).toNat % 16 ≤ 6)))) with cnt := some .ld }

/-! ### Lanes -/

/-- fcr[8] (R92). -/
def ftzOf (s : State) (c : Ctx) : Bool := (getWarp s c.w).fcr.getLsbD 8
/-- The rounding mode of the word (R54). -/
def rmNow (s : State) (c : Ctx) : Rm := modeOf c.f (getWarp s c.w).fcr

/-- A floating result in its register word, bits above the width zero (R101). -/
def fRes (r : FRes) : LaneRes := { val := TWord.valid (BitVec.ofNat 64 r.bits), fl := r.fl, trap := none }

/-- Latency 4, or 5 for f64 (R24). -/
def fLat (f : Fields) : Nat := if f.ty = 8 then 5 else 4

/-- An operation on values of TY: NaNs by R104, otherwise the function. -/
def fOp (n : Nat) (h : Fmt → Rm → Bool → FVal → FVal → FVal → FRes) (c : Ctx) (s : State) (a b d old : TWord) : LaneRes :=
  r35 old ([a, b, d].take n) fun _ =>
    let k := fmtOf c.f.ty.toNat
    let ftz := ftzOf s c
    let va := unpackZ k ftz a.data.toNat
    let vb := unpackZ k ftz b.data.toNat
    let vd := unpackZ k ftz d.data.toNat
    match firstNaN k k ([va, vb, vd].take n) with
    | some r => fRes r
    | none => fRes (h k (rmNow s c) ftz va vb vd)

/-- ±(a * b) ± c, exact and rounded once (R110). -/
def fmaVal (np nc : Bool) (k : Fmt) (mode : Rm) (ftz : Bool) (a b d : FVal) : FRes :=
  match mulVal a b with
  | none => invalidRes k
  | some p => roundSum k mode ftz [if np then negVal p else p, if nc then negVal d else d]

/-- a * b (R110). -/
def fmulVal (k : Fmt) (mode : Rm) (ftz : Bool) (a b _ : FVal) : FRes :=
  match mulVal a b with
  | none => invalidRes k
  | some p => roundSum k mode ftz [p]

def fExec (spec : OpSpec) (n : Nat) (h : Fmt → Rm → Bool → FVal → FVal → FVal → FRes) (f : Fields) (s : State) :=
  laneExec spec (fLat f) (fOp n h) f s

def execFadd (f : Fields) (s : State) := fExec specFadd 2 (fun k m z a b _ => roundSum k m z [a, b]) f s
def execFsub (f : Fields) (s : State) := fExec specFsub 2 (fun k m z a b _ => roundSum k m z [a, negVal b]) f s
def execFmul (f : Fields) (s : State) := fExec specFmul 2 fmulVal f s
def execFma (f : Fields) (s : State) := fExec specFma 3 (fmaVal false false) f s
def execFms (f : Fields) (s : State) := fExec specFms 3 (fmaVal false true) f s
def execFnma (f : Fields) (s : State) := fExec specFnma 3 (fmaVal true false) f s
def execFnms (f : Fields) (s : State) := fExec specFnms 3 (fmaVal true true) f s

/-! ### The special-function unit (R108, R128) -/

/-- p of R128: cycles of occupancy per group of eight lanes; unloaded latency. -/
def sfuCost (op : Nat) (f : Fields) : Nat × Nat :=
  let d := decide (f.ty = 8)
  if op = 0x063 then (if d then (4, 26) else (1, 14))
  else if op = 0x062 then (if isExpand f then (1, 6) else (1, 8))
  else (if d then (8, 34) else (2, 18))

/-- The special-function operations of a quarter. -/
def sfuOps (s : State) (qk : Nat) : List Op :=
  s.ops.filter (fun o => decide (quarterOf s o.w = qk) && (match o.kind with | .sfu .. => true | _ => false))

/-- Operations of a quarter that wait in the unit's queue, in issue order. -/
def sfuQueue (s : State) (qk : Nat) : List Op :=
  (sfuOps s qk).filter (fun o => match o.kind with | .sfu _ _ st _ _ _ _ _ => !st | _ => false)

/-- The flags of fcr[7:3] are set: the instruction completes before its split goes on (R108). -/
def sfuSync (s : State) (c : Ctx) : Bool := decide (fpEnables (getWarp s c.w).fcr ≠ 0)

/-- Issues results to the special-function unit: lanes settled by R35 are written at once; the others at completion (R56, R128). For a
scalar D, which is computed once, the lanes with V operands are every active lane (DESIGN CHOICE, log 57). -/
def sfuIssue (c : Ctx) (settled : List (Nat × TWord)) (rs : List (Nat × LaneRes)) (s : State) : State :=
  let code := c.f.d.toNat
  match rs with
  | [] => settleAll c settled s
  | _ :: _ =>
    let s := settleNow c settled s
    let qk := quarterOf s c.w
    let q := getQuarter s qk
    let cost := sfuCost c.op c.f
    let groups := ((spreadLanes c rs).length + 7) / 8
    let occ := groups * cost.1
    let lat := cost.2 + (groups - 1) * cost.1
    let idle := (sfuQueue s qk).isEmpty && decide (q.sfuBusy ≤ c.t)
    let sync := sfuSync s c
    let mask := maskOf (fun l => rs.any (fun e => e.1 = l) || isS c.f.d && c.sp.mask.getLsbD l)
    let all := spreadLanes c rs
    let s1 := if idle then setQuarter s qk { q with sfuBusy := c.t + occ } else s
    let s2 := startVar c .ld mask (rs.map (·.1))
      (.sfu (all.map (fun e => (code, e.1, e.2.val))) (all.map (fun e => (e.1, e.2.fl))) idle c.t occ lat (if sync then some (c.k, (getWarp s c.w).fcr) else none) c.word) s1
    if sync then suspend c (.op s1.nextOp) (setSplit s2 c.w c.k (getSplit s c.w c.k)) else s2

/-- How R35 settles each lane that the word computes from its first n operands, with the word its destination holds. -/
def sfuTags (n : Nat) (c : Ctx) (s : State) : List (Nat × TagRule × TWord) :=
  (computeLanes c).map (fun l => (l, tagRule (([opA s c l, opB s c l]).take n), rdReg s c.w c.f.d.toNat l))

/-- The word needs an entry of its unit's queue and finds all four taken: it is not ready (R128). -/
def sfuFull (n : Nat) (c : Ctx) (s : State) : Bool :=
  (sfuTags n c s).any (fun e => decide (e.2.1 = .normal)) && decide ((sfuQueue s (quarterOf s c.w)).length ≥ 4)

/-- Issues a word of the special-function unit, unless the queue is full. -/
def sfuIssueWord (spec : OpSpec) (n : Nat) (f : Fields) (s : State) (body : Ctx → State → State) : Host.Outcome State Fault Refusal :=
  match s.cur with
  | none => .next s
  | some cu =>
    let c := ctxOf spec f s cu
    if sfuFull n c s then .next (holdUntil (c.t + 1) s cu) else issue spec f s body

/-- Runs a word of the special-function unit lane by lane. -/
def sfuBody (spec : OpSpec) (n : Nat) (g : Ctx → State → TWord → TWord → TWord → TWord → LaneRes) (c : Ctx) (s : State) : State :=
  let tags := sfuTags n c s
  let settled := tags.filterMap (fun e => match e.2.1 with
    | .nullified => some (e.1, (⟨.n, e.2.2.data⟩ : TWord))
    | .poisoned p => some (e.1, ⟨.x, p⟩)
    | .normal => none)
  let live := tags.filterMap (fun e => if e.2.1 = .normal then some e.1 else none)
  match settledPoison c settled with
  | some r => raise c r s
  | none =>
    pushGate c live s <|
    let rs := live.map (fun l => (l, g c s (opA s c l) (opB s c l) (opC s c l) (rdReg s c.w c.f.d.toNat l)))
    sfuIssue c settled rs (popAll s c.w c.sp.mask (spec.reads c.f))

def sfuExec (spec : OpSpec) (n : Nat) (g : Ctx → State → TWord → TWord → TWord → TWord → LaneRes) (f : Fields) (s : State) :=
  sfuIssueWord spec n f s (sfuBody spec n g)

def execFdiv (f : Fields) (s : State) := sfuExec specFdiv 2 (fOp 2 (fun k m z a b _ => divVal k m z a b)) f s
def execFsqrt (f : Fields) (s : State) := sfuExec specFsqrt 1 (fOp 1 (fun k m z a _ _ => sqrtVal k m z a)) f s

/-! ### Minimum, maximum, sign, class (R114 to R116) -/

/-- a lies below b, with -0 below +0 (R114). -/
def fBelow (a b : FVal) : Bool :=
  match a, b with
  | .inf n, .inf p => n && !p
  | .inf n, _ => n
  | _, .inf p => !p
  | .fin n m x, .fin p l y =>
    if n ≠ p then n
    else
      let z := min x y
      let u := m * 2 ^ (x - z).toNat
      let v := l * 2 ^ (y - z).toNat
      if n then decide (u > v) else decide (u < v)
  | _, _ => false

/-- The bits of a value of the format, for the values an operand can hold. -/
def packVal (k : Fmt) (v : FVal) : Nat :=
  match v with
  | .nan neg _ fr => k.sign neg + (if k.inf then k.maxBits + 1 + fr else 0x7F)
  | .inf neg => k.sign neg + k.maxBits + 1
  | .fin neg m x => if m = 0 then k.sign neg else k.sign neg + (roundMag k .rtz neg m x).1

/-- minimumNumber, maximumNumber and minimum, maximum of IEEE 754-2019 (R114). -/
def minmaxVal (isMax strict : Bool) (k : Fmt) (va vb : FVal) : FRes :=
  let iv : BitVec 6 := if va.isSnan || vb.isSnan then flIv else 0
  match firstNaN k k [va, vb] with
  | some r => if !strict && !(va.isNan && vb.isNan) then { bits := packVal k (if va.isNan then vb else va), fl := iv } else r
  | none => { bits := packVal k (if fBelow va vb then (if isMax then vb else va) else if isMax then va else vb), fl := 0 }

/-- fmin, fmax, fminx, fmaxx of a lane. -/
def minmaxRes (isMax strict : Bool) (c : Ctx) (s : State) (a b _ old : TWord) : LaneRes :=
  r35 old [a, b] fun _ =>
    let k := fmtOf c.f.ty.toNat
    fRes (minmaxVal isMax strict k (unpackZ k (ftzOf s c) a.data.toNat) (unpackZ k (ftzOf s c) b.data.toNat))

def execFmin (f : Fields) (s : State) := laneExec specFmin (fLat f) (minmaxRes false false) f s
def execFmax (f : Fields) (s : State) := laneExec specFmax (fLat f) (minmaxRes true false) f s
def execFminx (f : Fields) (s : State) := laneExec specFminx (fLat f) (minmaxRes false true) f s
def execFmaxx (f : Fields) (s : State) := laneExec specFmaxx (fLat f) (minmaxRes true true) f s

/-- A sign operation: the new sign bit from A's and B's (R115). -/
def signRes (n : Nat) (h : Fields → Bool → Bool → Bool) (c : Ctx) (_ : State) (a b _ old : TWord) : LaneRes :=
  r35 old ([a, b].take n) fun _ =>
    let k := fmtOf c.f.ty.toNat
    let sg := h c.f (a.data.getLsbD (k.w - 1)) (b.data.getLsbD (k.w - 1))
    LaneRes.word (BitVec.ofNat 64 (a.data.toNat % 2 ^ (k.w - 1) + k.sign sg))

/-- fcps's modes (R115). -/
def fcpsSign (f : Fields) (x y : Bool) : Bool :=
  match (modOf f).toNat % 4 with
  | 0 => y
  | 1 => !y
  | _ => x ^^ y
def execFabs (f : Fields) (s : State) := laneExec specFabs (fLat f) (signRes 1 (fun _ _ _ => false)) f s
def execFneg (f : Fields) (s : State) := laneExec specFneg (fLat f) (signRes 1 (fun _ x _ => !x)) f s
def execFcps (f : Fields) (s : State) := laneExec specFcps (fLat f) (signRes 2 fcpsSign) f s

/-- The class bit of a value (R116). -/
def classBit (k : Fmt) (v : FVal) : Nat :=
  match v with
  | .nan _ q _ => if q then 9 else 8
  | .inf n => if n then 0 else 7
  | .fin n m _ => if m = 0 then (if n then 3 else 4) else if m < 2 ^ k.f then (if n then 2 else 5) else if n then 1 else 6
def classRes (c : Ctx) (_ : State) (a _ _ old : TWord) : LaneRes :=
  r35 old [a] fun _ => let k := fmtOf c.f.ty.toNat; LaneRes.word (BitVec.ofNat 64 (2 ^ classBit k (unpack k a.data.toNat)))
def execFclass (f : Fields) (s : State) := laneExec specFclass (fLat f) classRes f s

/-! ### frnd, fscale, fexp, fman (R112, R113) -/

/-- frnd: integral rounding, the sign kept; .x raises inexact. -/
def frndVal (f : Fields) (k : Fmt) (mode : Rm) (_ : Bool) (a _ _ : FVal) : FRes :=
  match a with
  | .fin neg m x =>
    let r := roundInt mode neg m x
    { bits := if r.1 = 0 then k.sign neg else k.sign neg + (roundMag k .rtz neg r.1 0).1,
      fl := if r.2 && (modOf f).getLsbD 3 then flIx else 0 }
  | .inf neg => infRes k neg
  | _ => invalidRes k
def execFrnd (f : Fields) (s : State) := fExec specFrnd 1 (frndVal f) f s

/-- fscale: a * 2^n, n the signed 64-bit integer of B, bounded where every result is decided. -/
def fscaleRes (c : Ctx) (s : State) (a b _ old : TWord) : LaneRes :=
  r35 old [a, b] fun _ =>
    let k := fmtOf c.f.ty.toNat
    let ftz := ftzOf s c
    let va := unpackZ k ftz a.data.toNat
    match firstNaN k k [va] with
    | some r => fRes r
    | none =>
      match va with
      | .fin neg m x => if m = 0 then fRes (zeroRes k neg)
        else fRes (roundFin k (rmNow s c) ftz neg m (x + max (-5000) (min 5000 b.data.toInt)))
      | .inf neg => fRes (infRes k neg)
      | _ => fRes (invalidRes k)
def execFscale (f : Fields) (s : State) := laneExec specFscale (fLat f) fscaleRes f s

/-- fexp: the unbiased exponent (R113). -/
def fexpRes (c : Ctx) (s : State) (a _ _ old : TWord) : LaneRes :=
  r35 old [a] fun _ =>
    let least : Word := BitVec.ofInt 64 (-(2 ^ 63))
    match unpackZ (fmtOf c.f.ty.toNat) (ftzOf s c) a.data.toNat with
    | .fin _ m x => if m = 0 then { val := TWord.valid least, fl := flDz, trap := none }
      else LaneRes.word (BitVec.ofInt 64 ((Nat.log2 m : Int) + x))
    | .inf _ => { val := TWord.valid (BitVec.ofInt 64 (2 ^ 63 - 1)), fl := flIv, trap := none }
    | .nan .. => { val := TWord.valid least, fl := flIv, trap := none }
def execFexp (f : Fields) (s : State) := laneExec specFexp (fLat f) fexpRes f s

/-- fman: the significand in [1, 2) (R113). -/
def fmanVal (k : Fmt) (_ : Rm) (_ : Bool) (a _ _ : FVal) : FRes :=
  match a with
  | .fin neg m _ => if m = 0 then zeroRes k neg else { bits := k.sign neg + (roundMag k .rtz neg m (-(Nat.log2 m : Int))).1, fl := 0 }
  | .inf neg => infRes k neg
  | _ => invalidRes k
def execFman (f : Fields) (s : State) := fExec specFman 1 fmanVal f s

/-! ### hdot (R117) -/

/-- The elements of a packed word (R101). -/
def elemsOf (k : Fmt) (x : Word) : List FVal := (List.range (64 / k.w)).map (fun i => unpack k (x.toNat / 2 ^ (k.w * i)))

/-- hdot: the exact sum of products and C, rounded once to the accumulator format. fcr[8] flushes a tiny result too, as R105 says of f32 and f64
results (DESIGN CHOICE, log 69). -/
def hdotRes (c : Ctx) (s : State) (a b d old : TWord) : LaneRes :=
  r35 old [a, b, d] fun _ =>
    let k := fmtOf c.f.ty.toNat
    let acc := if (modOf c.f).getLsbD 3 then fmtF64 else fmtF32
    let ea := elemsOf k a.data
    let eb := elemsOf k b.data
    let vd := unpackZ acc (ftzOf s c) d.data.toNat
    let sig : BitVec 6 := if (ea ++ eb ++ [vd]).any FVal.isSnan then flIv else 0
    match firstNaN k acc (ea ++ eb), firstNaN acc acc [vd] with
    | some r, _ => fRes { r with fl := sig }
    | none, some r => fRes { r with fl := sig }
    | none, none =>
      let ps := (ea.zip eb).map (fun e => mulVal e.1 e.2)
      if ps.any Option.isNone then fRes (invalidRes acc)
      else fRes (roundSum acc (rmNow s c) (ftzOf s c) (ps.filterMap id ++ [vd]))
def execHdot (f : Fields) (s : State) := laneExec specHdot (if (modOf f).getLsbD 3 then 5 else 4) hdotRes f s

/-! ### Conversions (R118 to R121) -/

/-- A floating value converted to an integer type (R120). -/
def toIntRes (ty : BitVec 4) (mode : Rm) (sat : Bool) (v : FVal) : LaneRes :=
  let out (e : Int) : LaneRes := { val := TWord.valid (extTy ty e), fl := if sat then flSat else flIv, trap := none }
  let hi := hiInt (tyWidth ty) (tySigned ty)
  let lo := loInt (tyWidth ty) (tySigned ty)
  match v with
  | .nan .. => { val := TWord.valid 0, fl := flIv, trap := none }
  | .inf neg => out (if neg then lo else hi)
  | .fin neg m x =>
    let r := roundInt mode neg m x
    let e : Int := if neg then -(r.1 : Int) else r.1
    if e > hi then out hi else if e < lo then out lo
    else { val := TWord.valid (extTy ty e), fl := if r.2 then flIx else 0, trap := none }

/-- cvt (R118). -/
def cvtWord (sty : Nat) (dty : BitVec 4) (mode : Rm) (ftz sat : Bool) (x : Word) : LaneRes :=
  if sty < 8 then
    let e := rdTy (BitVec.ofNat 4 sty) x
    if dty.toNat < 8 then satRes sat (tyWidth dty) (tySigned dty) e
    else fRes (convFin (fmtOf dty.toNat) mode ftz sat (decide (e < 0)) e.natAbs 0)
  else
    let k := fmtOf sty
    let v := unpackZ k ftz x.toNat
    if dty.toNat < 8 then toIntRes dty mode sat v else fRes (convVal k (fmtOf dty.toNat) mode ftz sat v)
def cvtRes (c : Ctx) (s : State) (a _ _ old : TWord) : LaneRes :=
  r35 old [a] fun _ => cvtWord (styOf c.f) c.f.ty (rmNow s c) (ftzOf s c) ((modOf c.f).getLsbD 3) a.data
/-- R127: 5 cycles when either type is f64, i64 or n64. -/
def cvtLat (f : Fields) : Nat :=
  let wide (t : Nat) : Bool := t = 3 || t = 7 || t = 8
  if wide f.ty.toNat || wide (styOf f) then 5 else 4
def execCvt (f : Fields) (s : State) := laneExec specCvt (cvtLat f) cvtRes f s

/-- Packed conversion of elements in order (R121). -/
def cvtPack (src dst : Fmt) (mode : Rm) (ftz sat : Bool) (es : List Nat) : LaneRes :=
  let rs := es.map (fun b => convVal src dst mode ftz sat (unpackZ src ftz b))
  let v := (rs.zipIdx).foldl (fun v e => v + e.1.bits * 2 ^ (dst.w * e.2)) 0
  { val := TWord.valid (BitVec.ofNat 64 v), fl := rs.foldl (fun x r => x ||| r.fl) 0, trap := none }

/-- The raw elements of a packed word. -/
def rawElems (w : Nat) (x : Word) : List Nat := (List.range (64 / w)).map (fun i => x.toNat / 2 ^ (w * i) % 2 ^ w)

def cvtpRes (c : Ctx) (s : State) (a b _ old : TWord) : LaneRes :=
  let src := fmtOf (styOf c.f)
  let dst := fmtOf c.f.ty.toNat
  let ftz := ftzOf s c
  let sat := (modOf c.f).getLsbD 3
  if isWiden c.f then
    r35 old [a] fun _ =>
      let n := 64 / dst.w
      let es := (rawElems src.w a.data).drop (if (modOf c.f).getLsbD 8 then n else 0)
      cvtPack src dst (rmNow s c) ftz sat (es.take n)
  else
    r35 old [a, b] fun _ => cvtPack src dst (rmNow s c) ftz sat (rawElems src.w a.data ++ rawElems src.w b.data)
def execCvtp (f : Fields) (s : State) := laneExec specCvtp (cvtLat f) cvtpRes f s

/-! ### MX blocks (R122 to R124) -/

/-- emax of R123. -/
def mxEmax (k : Fmt) : Int := if k.w = 4 then 2 else if k.f = 3 then 8 else 15

/-- The value's exponent floor(log2 |v|). -/
def valExp (m : Nat) (x : Int) : Int := (Nat.log2 m : Int) + x

/-- The shared scale of a block of values (R123): 0xFF when some value is no finite number. -/
def mxScale (k : Fmt) (vs : List FVal) : Nat :=
  if vs.any (fun v => match v with | .fin .. => false | _ => true) then 0xFF
  else
    let e := vs.foldl (fun e v => match v with
      | .fin _ m x => if m = 0 then e else match e with
        | none => some (valExp m x)
        | some y => some (max y (valExp m x))
      | _ => e) (none : Option Int)
    match e with
    | none => 0
    | some y => (max (-127) (min 127 (y - mxEmax k)) + 127).toNat

/-- One element quantised under a scale (R123). -/
def mxQuant (k : Fmt) (mode : Rm) (scale : Nat) (v : FVal) : LaneRes :=
  if scale = 0xFF then
    { val := TWord.valid 0xFF00, fl := match v with | .fin .. => 0 | _ => flIv, trap := none }
  else
    match v with
    | .fin neg m x =>
      if m = 0 then LaneRes.word (BitVec.ofNat 64 (scale * 256 + k.sign neg))
      else
        let r := roundMag k mode neg m (x - ((scale : Int) - 127))
        if r.1 > k.maxBits then { val := TWord.valid (BitVec.ofNat 64 (scale * 256 + k.sign neg + k.maxBits)), fl := flSat ||| (if r.2.1 then flIx else 0), trap := none }
        else { val := TWord.valid (BitVec.ofNat 64 (scale * 256 + k.sign neg + r.1)),
               fl := (if r.2.1 then flIx else 0) ||| (if r.2.1 && r.2.2 then flUf else 0), trap := none }
    | _ => LaneRes.word 0

/-- The expand form of one lane (R124). -/
def mxExpand (src dst : Fmt) (mode : Rm) (ftz : Bool) (e scale : Nat) : FRes :=
  match unpack src e with
  | .nan _ q _ => { bits := defaultNaN dst, fl := if q then 0 else flIv }
  | .inf neg => if scale = 0xFF then { bits := defaultNaN dst, fl := 0 } else infRes dst neg
  | .fin neg m x =>
    if scale = 0xFF then { bits := defaultNaN dst, fl := 0 }
    else if m = 0 then zeroRes dst neg
    else roundFin dst mode ftz neg m (x + (scale : Int) - 127)

/-- cvtmx: the quantise form sees every V lane of the split; the expand form is lane-wise. -/
def cvtmxBody (c : Ctx) (s : State) : State :=
  let f := c.f
  let ftz := ftzOf s c
  if isExpand f then
    sfuBody specCvtmx 2 (fun c s a b _ _ => fRes (mxExpand (fmtOf (styOf c.f)) (fmtOf c.f.ty.toNat) (rmNow s c) ftz a.data.toNat (b.data.toNat % 256))) c s
  else
    let src := fmtOf (styOf f)
    let dst := fmtOf f.ty.toNat
    let vs := (computeLanes c).filterMap (fun l => let a := opA s c l; if a.tag = .v then some (unpackZ src ftz a.data.toNat) else none)
    let scale := mxScale dst vs
    sfuBody specCvtmx 1 (fun c s a _ _ _ => mxQuant dst (rmNow s c) scale (unpackZ src ftz a.data.toNat)) c s
def execCvtmx (f : Fields) (s : State) := sfuIssueWord specCvtmx (if isExpand f then 2 else 1) f s cvtmxBody

/-- sfu (R125, R126). -/
def sfuRes (c : Ctx) (s : State) (a _ _ _ : TWord) : LaneRes :=
  let k := fmtOf c.f.ty.toNat
  let ftz := ftzOf s c
  fRes (sfuVal k ftz ((modOf c.f).toNat % 16) (unpackZ k ftz a.data.toNat))
def execSfu (f : Fields) (s : State) := sfuExec specSfu 1 sfuRes f s

/-! ### SFU_START and SFU_COMPLETE (R128) -/

/-- The oldest waiting operation of its quarter starts once the unit is free. -/
def startSfu (id : Nat) (s : State) : State :=
  match findOp s id with
  | some o =>
    match o.kind with
    | .sfu ws fl false _ occ lat sync word =>
      let qk := quarterOf s o.w
      let q := getQuarter s qk
      let cyc := (getCore s (coreOf s o.w)).cyc
      if (sfuQueue s qk).head?.map (·.id) = some id ∧ q.sfuBusy ≤ cyc then
        setQuarter (setOpKind s id (.sfu ws fl true cyc occ lat sync word)) qk { q with sfuBusy := cyc + occ }
      else s
    | _ => s
  | none => s

/-- The results of a special-function operation with their flags. -/
def sfuRows (ws : List (Nat × Nat × TWord)) (fl : List (Nat × BitVec 6)) : List (Nat × LaneRes) :=
  ws.map (fun e => (e.2.1, { val := e.2.2, fl := ((fl.find? (fun x => x.1 = e.2.1)).map (·.2)).getD 0, trap := none }))

/-- The results that a special-function operation delivers under the enables of its issue: those of the lanes that do not trap (R107, R108). -/
def sfuGood (ws : List (Nat × Nat × TWord)) (fl : List (Nat × BitVec 6)) (sync : Option (Nat × Word)) : List (Nat × Nat × TWord) :=
  match sync with
  | none => ws
  | some (_, fcr) => ws.filter (fun e => (sfuRows ws fl).any (fun r => decide (r.1 = e.2.1) && !laneTraps fcr r.2))

/-- How the split goes on that waits for a special-function operation: by the trap of the lanes whose enabled exceptions it raised, or with
the next word (R93, R107, R108). -/
def sfuGoes (o : Op) (ws : List (Nat × Nat × TWord)) (fl : List (Nat × BitVec 6)) (fcr : Word) (k : Nat) (word : Word) (s : State) : State :=
  match lanesTrap fcr (sfuRows ws fl) with
  | some r => takeTrap s o.w k (getCore s (coreOf s o.w)).cyc (getSplit s o.w k).path false word r
  | none => wakeAdvance o.w k s

/-- Completes a special-function operation: destinations and flags are written; under enabled traps the split's trap is decided now, by the
enables of its issue (R93, R107, R108). It is taken at once, also while a handler is active in another split of the warp (DESIGN CHOICE,
log 58). Results that cannot be pushed to their stream yet are kept until they can (R178, R322). -/
def completeSfu (id : Nat) (s : State) : State :=
  match findOp s id with
  | some o =>
    match o.kind with
    | .sfu ws fl true start _ lat sync word =>
      let raised (s : State) : State := orFsr s o.w (fl.filter (fun e => e.2 ≠ 0))
      let good := sfuGood ws fl sync
      if (getCore s (coreOf s o.w)).cyc < start + lat then s
      else match o.push, sync with
      | none, none => writeDst (endOp (raised s) id) o ws
      | none, some (k, fcr) => sfuGoes o ws fl fcr k word (writeDst (endOp (raised s) id) o good)
      | some p, none => finishLate s o p good (fun s => s) (fun s => wakeAdvance o.w p.k (raised s))
      | some p, some (_, fcr) => finishLate s o p good (fun s => s) (fun s => sfuGoes o ws fl fcr p.k word (raised s))
    | _ => s
  | none => s

/-- SFU_START. -/
def execSfuStart (id : Nat) (s : State) : Host.Outcome State Fault Refusal := .next (startSfu id s)
/-- SFU_COMPLETE. -/
def execSfuComplete (id : Nat) (s : State) : Host.Outcome State Fault Refusal := .next (completeSfu id s)

end Sys2Proof.Machine
end

