-- ==== Sys2Proof/Machine/Tags.lean ====
section
/-!
DEFINITION. Special registers and the condition and tag instructions 0x028 to 0x03C (R91 to R98).
-/
namespace Sys2Proof.Machine

/-! ### srd and swr (R91 to R94) -/

/-- The number of a special register that is held per lane (R91). -/
def srLane (n : Nat) : Bool := decide (n = 0x00 ∨ n = 0x0A ∨ n = 0x10)
/-- The number is assigned (R91). -/
def srKnown (n : Nat) : Bool := decide (n ≤ 0x18 ∧ n ≠ 0x07)

/-- srd: an unassigned number, or a per-lane register read into a scalar, has subcode 0x04 (R93). -/
def specSrd : OpSpec :=
  { specNone 0x028 with
    d := dstD,
    md := chkIf 0x04 (fun e => let n := e.f.md.toNat; srKnown n && !(srLane n && isS e.f.d)) }

/-- swr: fcr, fsr and tvec; A of fcr and tvec is a scalar or `zero`, of fsr a vector, a scalar or `zero` (R93). A vector register at or above the
allocation fails with 0x02 before the kind of register fails with 0x04 (DESIGN CHOICE, log 68). -/
def specSwr : OpSpec :=
  { specNone 0x029 with
    a := fun e => if isImm e.f.a then some 0x03 else (badReg e e.f.a).or
      (if isSZ e.f.a || (isV e.f.a && decide (e.f.md.toNat = 0x0A)) then none else some 0x04),
    md := chkIf 0x04 (fun e => decide (e.f.md.toNat = 0x09 ∨ e.f.md.toNat = 0x0A ∨ e.f.md.toNat = 0x0B)),
    reads := rdA }

/-- The value of a special register in a lane (R91, R92). -/
def srValue (s : State) (c : Ctx) (n lane : Nat) : Word :=
  let wp := getWarp s c.w
  let b := getBlock s (blkOf c.w)
  match n with
  | 0x00 => BitVec.ofNat 64 lane
  | 0x01 => BitVec.ofNat 64 (warpNo c.w)
  | 0x02 => BitVec.ofNat 64 b.blocklin
  | 0x03 => BitVec.ofNat 64 b.core
  | 0x04 => BitVec.ofNat 64 (6 * b.die + b.core / 8)
  | 0x05 => BitVec.ofNat 64 b.die
  | 0x06 => s.pkg.pkgid &&& 0x3FF
  | 0x08 => BitVec.ofNat 64 (getCore s (coreOf s c.w)).cyc
  | 0x09 => wp.fcr
  | 0x0A => (sget 0#6 s.fsr (lkey c.w lane)).zeroExtend 64
  | 0x0B => wp.tvec
  | 0x0C => wp.tcause
  | 0x0D => wp.tpc
  | 0x0E => wp.tmask
  | 0x0F => wp.tinfo
  | 0x10 => sget 0#64 s.tval (lkey c.w lane)
  | 0x11 => BitVec.ofNat 64 (validSplits s c.w).length
  | 0x12 => cntWord s c.w c.sp.mask
  | 0x13 => 1
  | 0x14 => 1
  | 0x15 => BitVec.ofNat 64 wp.vregs
  | 0x16 => BitVec.ofNat 64 b.tsbytes
  | 0x17 => BitVec.ofNat 64 b.tiles
  | 0x18 => b.launchid
  | _ => 0

/-- R93: an outstanding special-function instruction of the split has flags to determine. -/
def flagsPending (s : State) (w : Nat) (m : Mask) : Bool :=
  s.ops.any (fun o => decide (o.w = w) && decide (o.lanes &&& m ≠ 0) && (match o.kind with | .sfu .. => true | _ => false))

/-- The lanes' values of srd. -/
def srdLanes (c : Ctx) (s : State) : List (Nat × LaneRes) :=
  (computeLanes c).map (fun l => (l, LaneRes.word (srValue s c c.f.md.toNat l)))

/-- R93: a word that names fsr is held while flags of its split's earlier instructions are not determined. -/
def flagsHold (c : Ctx) (s : State) : Bool := decide (c.f.md.toNat = 0x0A) && flagsPending s c.w c.sp.mask

def srdBody (c : Ctx) (s : State) : State :=
  if isQ c.f.d then finishPush c (srdLanes c s) s s else finishFixed c 3 (srdLanes c s) s
def execSrd (f : Fields) (s : State) := issueUnless specSrd flagsHold f s srdBody

/-- R93: a write to fcr or tvec holds every split of the warp until t + 3; a word of the same cycle issues on the other path (R75). -/
def holdWarp (s : State) (w t : Nat) : State :=
  let wp := getWarp s w
  setWarp s w { wp with held := max wp.held t }

/-- swr (R92, R93, R426): an N source nullifies, an X source leaves the register unchanged. -/
def swrBody (c : Ctx) (s : State) : State :=
  let n := c.f.md.toNat
  if n = 0x0A then
    let ws := (lanesOf c.sp.mask).filterMap (fun l =>
      let a := opA s c l
      if a.tag = .v then some (lkey c.w l, a.data.truncate 6) else none)
    advance c { popAll s c.w c.sp.mask [c.f.a] with fsr := ssetAll 0#6 s.fsr ws }
  else
    let a := opA s c (lowLane c.sp.mask)
    if a.tag ≠ .v then advance c s
    else
      let wp := getWarp s c.w
      let wp' := if n = 0x09 then { wp with fcr := a.data &&& 0x3FF } else { wp with tvec := a.data &&& (2 ^ 56 - 1 : Nat) }
      holdWarp (advance c (setWarp s c.w wp')) c.w (c.t + 3)
def execSwr (f : Fields) (s : State) := issueUnless specSwr flagsHold f s swrBody

/-! ### Comparisons (R79, R95) -/

/-- C of a comparison holds the condition code, up to a greatest code (R79). -/
def condC (top : Nat) : Chk := codeOf (·.c) (fun x => decide (x ≤ top))
/-- MOD of a comparison: the immediate form stands in B only. -/
def mdCmp : Chk := fun e => if isImm e.f.b || e.f.md = 0 then none else some 0x04
def specCmpI (op : BitVec 9) : OpSpec := { specAB op tyInt mdCmp with c := condC 5 }
def specCmpF (op : BitVec 9) : OpSpec := { specAB op tyFp mdCmp with c := condC 7 }
def specCnd : OpSpec := specCmpI 0x030
def specFcnd : OpSpec := specCmpF 0x031
def specCmp : OpSpec := specCmpI 0x032
def specFcmp : OpSpec := specCmpF 0x033

/-- A comparison's outcome by code, for less, equal, greater, unordered (R79). -/
def ccHolds (cc : Nat) (lt eq gt un : Bool) : Bool :=
  match cc with
  | 0 => eq
  | 1 => lt || gt || un
  | 2 => lt
  | 3 => lt || eq
  | 4 => gt
  | 5 => gt || eq
  | 6 => un
  | _ => lt || eq || gt

/-- The integer comparison of TY (R79). -/
def intHolds (cc : Nat) (ty : BitVec 4) (a b : Word) : Bool :=
  let x := rdTy ty a
  let y := rdTy ty b
  ccHolds cc (decide (x < y)) (decide (x = y)) (decide (x > y)) false

/-- a and b are equal values; +0 and -0 are equal (R95). -/
def fEqual (a b : FVal) : Bool :=
  match a, b with
  | .inf n, .inf p => n == p
  | .fin _ m _, .fin _ l _ => if m = 0 ∧ l = 0 then true else !fBelow a b && !fBelow b a
  | _, _ => false

/-- The floating comparison and its invalid flag (R79, R95). -/
def floatHolds (cc : Nat) (a b : FVal) : Bool × Bool :=
  let un := a.isNan || b.isNan
  let sig := a.isSnan || b.isSnan
  let iv := sig || (un && decide (2 ≤ cc ∧ cc ≤ 5))
  if un then (ccHolds cc false false false true, iv)
  else
    let eq := fEqual a b
    (ccHolds cc (!eq && fBelow a b) eq (!eq && fBelow b a) false, iv)

/-- The outcome of a comparison instruction: conditions write V or N, values write V (R95). -/
def condRes (isCnd : Bool) (old a b : TWord) (r : Unit → Bool × Bool) : LaneRes :=
  match tagRule [a, b] with
  | .nullified => if isCnd then LaneRes.ok ⟨.n, 0⟩ else LaneRes.ok ⟨.n, old.data⟩
  | .poisoned p => LaneRes.ok ⟨.x, p⟩
  | .normal =>
    let h := r ()
    { val := if h.1 then TWord.valid 1 else if isCnd then ⟨.n, 0⟩ else TWord.valid 0, fl := if h.2 then flIv else 0, trap := none }

def cmpIRes (isCnd : Bool) (c : Ctx) (_ : State) (a b _ old : TWord) : LaneRes :=
  condRes isCnd old a b fun _ => (intHolds c.f.c.toNat c.f.ty a.data b.data, false)
def cmpFRes (isCnd : Bool) (c : Ctx) (s : State) (a b _ old : TWord) : LaneRes :=
  condRes isCnd old a b fun _ =>
    let k := fmtOf c.f.ty.toNat
    floatHolds c.f.c.toNat (unpackZ k (ftzOf s c) a.data.toNat) (unpackZ k (ftzOf s c) b.data.toNat)

def execCnd (f : Fields) (s : State) := laneExec specCnd 3 (cmpIRes true) f s
def execCmp (f : Fields) (s : State) := laneExec specCmp 3 (cmpIRes false) f s
def execFcnd (f : Fields) (s : State) := laneExec specFcnd (fLat f) (cmpFRes true) f s
def execFcmp (f : Fields) (s : State) := laneExec specFcmp (fLat f) (cmpFRes false) f s

/-! ### Selection by tag (R96) -/

def specGate : OpSpec := specAB 0x034 tyZero mdZero
def specMrg : OpSpec := specAB 0x035 tyZero (mdBits 1)
def specSel : OpSpec := specABC 0x036 tyZero mdZero

def gateRes (_ : Ctx) (_ : State) (a b _ _ : TWord) : LaneRes :=
  LaneRes.ok (match b.tag with | .v => a | .n => ⟨.n, a.data⟩ | .x => b)
def mrgRes (c : Ctx) (_ : State) (a b _ _ : TWord) : LaneRes :=
  LaneRes.ok (match a.tag with | .v => a | .n => b | .x => if (modOf c.f).getLsbD 0 then b else a)
def selRes (_ : Ctx) (_ : State) (a b d _ : TWord) : LaneRes :=
  LaneRes.ok (match d.tag with | .v => a | .n => b | .x => d)

def execGate (f : Fields) (s : State) := laneExec specGate 2 gateRes f s
def execMrg (f : Fields) (s : State) := laneExec specMrg 2 mrgRes f s
def execSel (f : Fields) (s : State) := laneExec specSel 2 selRes f s

/-! ### Tags (R97) -/

def specTget : OpSpec := specA 0x037 tyZero mdZero
def specTset : OpSpec := specA 0x038 tyZero (Chk.and (mdBits 3) (chkIf 0x04 (fun e => decide (e.f.md.toNat % 4 ≠ 3))))
def specTchk : OpSpec := specA 0x039 tyZero mdZero

/-- The encoding of a tag (R34). -/
def tagCode : Tag → Nat
  | .v => 0
  | .n => 1
  | .x => 2
/-- The tag of an encoding; 0b11 reads as X (R34). -/
def tagOf (n : Nat) : Tag := match n % 4 with | 0 => .v | 1 => .n | _ => .x

def tgetRes (_ : Ctx) (_ : State) (a _ _ _ : TWord) : LaneRes := LaneRes.word (BitVec.ofNat 64 (tagCode a.tag))
def tsetRes (c : Ctx) (_ : State) (a _ _ _ : TWord) : LaneRes := LaneRes.ok ⟨tagOf c.f.md.toNat, a.data⟩
/-- tchk: lanes of tag X raise POISON_CONSUMED and are not written (R97). -/
def tchkRes (_ : Ctx) (_ : State) (a _ _ _ : TWord) : LaneRes :=
  match a.tag with
  | .x => { val := a, fl := 0, trap := some (causePoison, a.data) }
  | _ => LaneRes.ok a

def execTget (f : Fields) (s : State) := laneExec specTget 2 tgetRes f s
def execTset (f : Fields) (s : State) := laneExec specTset 2 tsetRes f s
def execTchk (f : Fields) (s : State) := laneExec specTchk 2 tchkRes f s

/-! ### Conditions combined (R98) -/

def specCand : OpSpec := specAB 0x03A tyZero mdZero
def specCor : OpSpec := specAB 0x03B tyZero mdZero
def specCnot : OpSpec := specA 0x03C tyZero mdZero

/-- True is 1 with tag V, false is 0 with tag N (R98). -/
def condTrue : TWord := TWord.valid 1
def condFalse : TWord := ⟨.n, 0⟩
/-- The first X operand, or the value given. -/
def firstX (xs : List TWord) (d : TWord) : TWord := (xs.find? (fun x => x.tag = .x)).getD d

def candRes (_ : Ctx) (_ : State) (a b _ _ : TWord) : LaneRes :=
  LaneRes.ok (if a.tag = .n ∨ b.tag = .n then condFalse else firstX [a, b] condTrue)
def corRes (_ : Ctx) (_ : State) (a b _ _ : TWord) : LaneRes :=
  LaneRes.ok (if a.tag = .v ∨ b.tag = .v then condTrue else firstX [a, b] condFalse)
def cnotRes (_ : Ctx) (_ : State) (a _ _ _ : TWord) : LaneRes :=
  LaneRes.ok (match a.tag with | .x => a | .n => condTrue | .v => condFalse)

def execCand (f : Fields) (s : State) := laneExec specCand 2 candRes f s
def execCor (f : Fields) (s : State) := laneExec specCor 2 corRes f s
def execCnot (f : Fields) (s : State) := laneExec specCnot 2 cnotRes f s

end Sys2Proof.Machine
end

