-- ==== Sys2Proof/Machine/Control.lean ====
section
/-!
DEFINITION. The control instructions 0x080 to 0x08F (R154 to R173); `exit` stands with the barriers in Machine/Sync.lean.
-/
namespace Sys2Proof.Machine

/-! ### Rows (R154) -/

/-- C holds 0xFF and IMM16 is a signed word offset. -/
def offC : Chk := chkIf 0x04 (fun e => isImm e.f.c)
/-- D holds a control code that satisfies p. -/
def codeD (p : Nat → Bool) : Chk := codeOf (·.d) p

def specBranch (op : BitVec 9) (d : Chk) : OpSpec := { specNone op with d := d, a := srcA', c := offC, md := chkAny, reads := rdA }
def specBra : OpSpec := specBranch 0x080 (codeD (fun x => decide (x ≤ 1)))
def specBdv : OpSpec := { specBranch 0x081 (codeD (fun x => decide (x ≤ 5))) with b := srcB', ty := tyInt, reads := rdAB }
def specBany : OpSpec := specBranch 0x082 unusedD
def specBall : OpSpec := specBranch 0x083 unusedD
def specBnone : OpSpec := specBranch 0x084 unusedD
def specJmp : OpSpec := { specNone 0x085 with a := srcA', reads := rdA }
/-- call: relative with A = 0xE4 and C = 0xFF, indirect with C = 0xE4. -/
def specCall : OpSpec :=
  { specNone 0x086 with
    d := dstD, a := fun e => if isImm e.f.c then unusedA e else srcA e,
    c := chkIf 0x04 (fun e => isImm e.f.c || isZ e.f.c),
    md := fun e => if isImm e.f.c || e.f.md = 0 then none else some 0x04,
    reads := fun f => if isImm f.c then [] else [f.a] }
def specLoopSet : OpSpec := { specBranch 0x087 (codeD (fun x => decide (4 ≤ x ∧ x ≤ 6))) with a := scalarA }
def specLoop : OpSpec := { specBranch 0x087 (codeD (fun x => decide (x ≤ 2))) with a := unusedA, reads := rdNone }
def specLexit : OpSpec := specBranch 0x088 (codeD (fun x => decide (x ≤ 6 ∧ x % 4 ≠ 3)))
def specWait : OpSpec := { specNone 0x089 with md := chkAny }
def specYield : OpSpec := specNone 0x08A
def specEcall : OpSpec := { specNone 0x08C with md := chkAny }
def specBrk : OpSpec := { specNone 0x08D with md := chkAny }
def specGrow : OpSpec :=
  { specNone 0x08E with d := dstD, a := scalarA, b := scalarImmB, ty := tyIn 0x7, reads := rdAB }
def specNap : OpSpec := { specNone 0x08F with md := chkAny }

/-! ### Branches (R155 to R161) -/

/-- The branch target: the word's address plus 8 times the offset (R155). -/
def branchTarget (c : Ctx) : BitVec 56 := c.sp.pc + (c.f.md.signExtend 56) * 8

/-- POISON_CONSUMED of the lanes given, no lane of the split taking effect (R37, R157, R432). -/
def poisonTrap (m : Mask) (xs : List (Nat × Word)) : TrapReq :=
  { cause := causePoison, sub := 0, lanes := maskOf (fun l => xs.any (fun e => e.1 = l)), retry := m, vals := xs }

/-- The active lanes whose word has tag X, with their payloads. -/
def poisonLanes (m : Mask) (v : Nat → TWord) : List (Nat × Word) :=
  (lanesOf m).filterMap (fun l => if (v l).tag = .x then some (l, (v l).data) else none)

/-- Sends the lanes of `taken` to the target and the others on (R145). -/
def branchLanes (c : Ctx) (taken : Mask) (clear : Option Nat) (s : State) : State :=
  divide c false [{ mask := c.sp.mask &&& ~~~taken, target := none, clear := none },
    { mask := c.sp.mask &&& taken, target := some (branchTarget c), clear := clear }] s

/-- A branch that decides by the tags of A: X traps, otherwise the lanes that satisfy p are taken. -/
def tagBranch (spec : OpSpec) (p : Ctx → Mask → Mask) (clear : Fields → Option Nat) (f : Fields) (s : State) :=
  issue spec f s fun c s =>
    match poisonLanes c.sp.mask (opA s c) with
    | x :: xs => raise c (poisonTrap c.sp.mask (x :: xs)) s
    | [] =>
      branchLanes c (p c (maskOf (fun l => c.sp.mask.getLsbD l && decide ((opA s c l).tag = .v)))) (clear f)
        (popAll s c.w c.sp.mask (spec.reads c.f))

/-- The V lanes, or with .f the others (R158). -/
def senseMask (inv : Bool) (c : Ctx) (v : Mask) : Mask := if inv then c.sp.mask &&& ~~~v else v

/-- bra (R158). -/
def execBra (f : Fields) (s : State) := tagBranch specBra (fun c v => senseMask (c.f.d.getLsbD 0) c v) (fun _ => none) f s
/-- bany, ball, bnone (R160). -/
def execBany (f : Fields) (s : State) := tagBranch specBany (fun c v => if v ≠ 0 then c.sp.mask else 0) (fun _ => none) f s
def execBall (f : Fields) (s : State) := tagBranch specBall (fun c v => if v = c.sp.mask then c.sp.mask else 0) (fun _ => none) f s
def execBnone (f : Fields) (s : State) := tagBranch specBnone (fun c v => if v = 0 then c.sp.mask else 0) (fun _ => none) f s
/-- lexit (R164): the lanes that leave clear their loop counter. -/
def execLexit (f : Fields) (s : State) :=
  tagBranch specLexit (fun c v => senseMask (c.f.d.getLsbD 2) c v) (fun f => some (f.d.toNat % 4)) f s

/-- bdv (R159): a lane with an N operand does not transfer. -/
def bdvBody (c : Ctx) (s : State) : State :=
  let rule := fun l => tagRule [opA s c l, opB s c l]
  let bad := (lanesOf c.sp.mask).filterMap (fun l => match rule l with | .poisoned p => some (l, p) | _ => none)
  match bad with
  | x :: xs => raise c (poisonTrap c.sp.mask (x :: xs)) s
  | [] =>
    let taken := maskOf (fun l => c.sp.mask.getLsbD l && decide (rule l = .normal) &&
      intHolds c.f.d.toNat c.f.ty (opA s c l).data (opB s c l).data)
    branchLanes c taken none (popAll s c.w c.sp.mask (specBdv.reads c.f))
def execBdv (f : Fields) (s : State) := issue specBdv f s bdvBody

/-- The groups of an indirect transfer: N lanes fall through, the others are grouped by target, whose bits 63:56 the fetch there will look at
(R161, R174). -/
def jumpGroups (m : Mask) (v : Nat → TWord) : List Group :=
  let stay := maskOf (fun l => m.getLsbD l && decide ((v l).tag = .n))
  let targets := ((lanesOf m).filter (fun l => (v l).tag ≠ .n)).map (fun l => (v l).data)
  { mask := stay, target := none, clear := none } ::
    targets.dedup.map (fun a =>
      { mask := maskOf (fun l => m.getLsbD l && decide ((v l).tag ≠ .n) && decide ((v l).data = a)), target := some (a.truncate 56), clear := none,
        far := a.extractLsb' 56 8 })

/-- The checks of an indirect target: X, then alignment (R157, R161). -/
def jumpTrap (m : Mask) (v : Nat → TWord) : Option TrapReq :=
  match poisonLanes m v with
  | x :: xs => some (poisonTrap m (x :: xs))
  | [] =>
    let bad := maskOf (fun l => m.getLsbD l && decide ((v l).tag = .v) && decide ((v l).data.toNat % 8 ≠ 0))
    if bad ≠ 0 then some { cause := causeAlign, sub := 0, lanes := bad, retry := m, vals := [] } else none

/-- jmp (R161). -/
def jmpBody (c : Ctx) (s : State) : State :=
  match jumpTrap c.sp.mask (opA s c) with
  | some r => raise c r s
  | none => divide c false (jumpGroups c.sp.mask (opA s c)) (popAll s c.w c.sp.mask (specJmp.reads c.f))
def execJmp (f : Fields) (s : State) := issue specJmp f s jmpBody

/-- The clause position that follows the call's clause (R162). -/
def returnAddr (sp : Split) : BitVec 56 := headerOf sp + BitVec.ofNat 56 (8 * (sp.rem + sp.wpos + 1))

/-- call (R162): the lanes that transfer get the return address, nullified lanes keep their data under N; a stream in D takes the words as
elements (R201). -/
def callBody (c : Ctx) (s : State) : State :=
  let rel := isImm c.f.c
  let v : Nat → TWord := if rel then fun _ => TWord.valid ((branchTarget c).zeroExtend 64) else opA s c
  match jumpTrap c.sp.mask v with
  | some r => raise c r s
  | none =>
    let ra := TWord.valid ((returnAddr c.sp).zeroExtend 64)
    let old := fun l => rdReg s c.w c.f.d.toNat l
    let ws := (lanesOf c.sp.mask).map (fun l => (l, if (v l).tag = .n then (⟨.n, (old l).data⟩ : TWord) else ra))
    let ws := if isS c.f.d then ws.take 1 else ws
    let s1 := popAll s c.w c.sp.mask (specCall.reads c.f)
    let go := divide c false (jumpGroups c.sp.mask v)
    if isQ c.f.d then pushResults c ws s s1 go else go (writeFixed s1 c.w c.f.d.toNat c.t 3 ws)
def execCall (f : Fields) (s : State) := issue specCall f s callBody

/-! ### Loops (R163) -/

/-- loop.set: a count of 0 leaves to the label; N nullifies; X traps. -/
def loopSetBody (c : Ctx) (s : State) : State :=
  let a := opA s c (lowLane c.sp.mask)
  let k := c.f.d.toNat % 4
  match a.tag with
  | .n => advance c s
  | .x => raise c (poisonTrap c.sp.mask ((lanesOf c.sp.mask).map (fun l => (l, a.data)))) s
  | .v =>
    let n : BitVec 32 := a.data.truncate 32
    let s1 := setSplit s c.w c.k (setLc (getSplit s c.w c.k) k n)
    if n = 0 then branchLanes c c.sp.mask none s1 else advance c s1
def execLoopSet (f : Fields) (s : State) := issue specLoopSet f s loopSetBody

/-- R156: the loop buffer holds this loop word's body. A taken loop with a body of at most 256 words captures it. -/
def loopNear (c : Ctx) (s : State) : Bool × State :=
  let qk := quarterOf s c.w
  let q := getQuarter s qk
  let me := ((getBlock s (blkOf c.w)).aspace.toNat, c.sp.pc.toNat)
  let len := (c.sp.pc - branchTarget c).toNat / 8 + 1
  if q.loopBuf = some me then (true, s)
  else if len ≤ 256 then (false, setQuarter s qk { q with loopBuf := some me })
  else (false, s)

/-- loop (R163). -/
def loopBody (c : Ctx) (s : State) : State :=
  let k := c.f.d.toNat % 4
  let n := getLc c.sp k
  if c.f.md.toInt > 0 then raiseAll c causeLoopForm 0x01 s
  else if n = 0 then raiseAll c causeLoopForm 0x02 s
  else if n.toNat > 1 then
    let r := loopNear c s
    let s1 := setSplit r.2 c.w c.k (setLc (getSplit r.2 c.w c.k) k (n - 1))
    divide c r.1 [{ mask := c.sp.mask, target := some (branchTarget c), clear := none }] s1
  else advance c (setSplit s c.w c.k (setLc (getSplit s c.w c.k) k 0))
def execLoop (f : Fields) (s : State) := issue specLoop f s loopBody

/-! ### wait, yield, nap (R165 to R167) -/

/-- The counters of a split are at most the values given, 15 being no wait (R46, R165). -/
def countersMet (s : State) (w : Nat) (m : Mask) (ld st cp ex : Nat) : Bool :=
  let ok (c : Counter) (n : Nat) : Bool := decide (n = 15) || decide (counterOf s w m c ≤ n)
  ok .ld ld && ok .st st && ok .cp cp && ok .ex ex

/-- wait (R165). -/
def waitBody (c : Ctx) (s : State) : State :=
  let m := c.f.md.toNat
  let ld := m / 4096 % 16
  let st := m / 256 % 16
  let cp := m / 16 % 16
  let ex := m % 16
  if countersMet s c.w c.sp.mask ld st cp ex then advance c s else suspend c (.counters ld st cp ex) s
def execWait (f : Fields) (s : State) := issue specWait f s waitBody

/-- yield (R166): no new clause of the warp begins in this turn, after which the warp is passed over once (R148). -/
def yieldBody (c : Ctx) (s : State) : State :=
  let qk := quarterOf s c.w
  suspend c .choice (setQuarter s qk { getQuarter s qk with closed := true })
def execYield (f : Fields) (s : State) := issue specYield f s yieldBody

/-- nap (R167). -/
def napBody (c : Ctx) (s : State) : State :=
  if c.f.md = 0 then yieldBody c s else suspend c (.nap (c.t + c.f.md.toNat)) s
def execNap (f : Fields) (s : State) := issue specNap f s napBody

/-! ### ecall, brk (R169) -/

/-- A trap of every active lane whose tval is the code. -/
def codeTrap (cause : Nat) (c : Ctx) (s : State) : State :=
  raise c { cause := cause, sub := 0, lanes := c.sp.mask, retry := c.sp.mask,
            vals := (lanesOf c.sp.mask).map (fun l => (l, c.f.md.zeroExtend 64)) } s
def execEcall (f : Fields) (s : State) := issue specEcall f s (codeTrap causeEcall)
def execBrk (f : Fields) (s : State) := issue specBrk f s (codeTrap causeBreak)

/-! ### grow (R170 to R173) -/

/-- Resident blocks of a core: names and records. -/
def coreBlocks (s : State) (core : Nat) : List (Nat × Block) :=
  s.blocks.filter (fun e => decide (e.2.state = 1) && decide (48 * e.2.die + e.2.core = core))

/-- A warp whose lanes have all exited and whose operations have completed has ended (R168); the dispatcher warp stays. -/
def warpEnded (s : State) (e : Nat × Warp) : Bool :=
  !e.2.live || (e.2.splits.isEmpty && !(getBlock s (blkOf e.1)).disp && !s.ops.any (fun o => o.w = e.1))

/-- Warps that have not ended on a core. -/
def coreWarps (s : State) (core : Nat) : List (Nat × Warp) :=
  s.warps.filter (fun e => !warpEnded s e && decide ((getBlock s (blkOf e.1)).state = 1) && decide (coreOf s e.1 = core))

/-- Warp-registers in use in a quarter, shadows of dual warps included (R17, R450). -/
def regsUsed (s : State) (core q : Nat) : Nat :=
  (coreWarps s core).foldl (fun n e =>
    n + (if e.2.quarter = q then e.2.vregs else 0) +
      (if (getBlock s (blkOf e.1)).dual && decide ((e.2.quarter + 1) % 4 = q) then e.2.vregs else 0)) 0

/-- Tile-store bytes and accumulator tiles in use on a core (R27). -/
def tileStoreUsed (s : State) (core : Nat) : Nat := (coreBlocks s core).foldl (fun n e => n + e.2.tsbytes) 0
def tilesUsed (s : State) (core : Nat) : Nat := (coreBlocks s core).foldl (fun n e => n + e.2.tiles) 0

/-- The current allocation of a kind (R170). -/
def growCurrent (s : State) (w kind : Nat) : Nat :=
  if kind = 0 then (getWarp s w).vregs else if kind = 1 then (getBlock s (blkOf w)).tsbytes else (getBlock s (blkOf w)).tiles

/-- A legal total of a kind (R170). -/
def growLegal (kind total : Nat) : Bool :=
  if kind = 0 then decide (8 ≤ total ∧ total ≤ 192 ∧ total % 8 = 0)
  else if kind = 1 then decide (total ≤ 524288 ∧ total % 1024 = 0)
  else decide (total ≤ 192)

/-- The added units are free on the core (R171). -/
def growFits (s : State) (r : GrowReq) : Bool :=
  let add := r.total - growCurrent s r.w r.kind
  let q := (getWarp s r.w).quarter
  if r.kind = 0 then
    decide (regsUsed s r.core q + add ≤ 1024) &&
      (!(getBlock s (blkOf r.w)).dual || decide (regsUsed s r.core ((q + 1) % 4) + add ≤ 1024))
  else if r.kind = 1 then decide (tileStoreUsed s r.core + add ≤ 524288)
  else decide (tilesUsed s r.core + add ≤ 192)

/-- One word for every lane that D has (R75, R170). -/
def wordsD (c : Ctx) (v : Nat → TWord) : List (Nat × TWord) := (computeLanes c).map (fun l => (l, v l))

/-- Holds the split until cycle t (R24): D is written before its next word. -/
def notBefore (c : Ctx) (t : Nat) (s : State) : State :=
  let sp := getSplit s c.w c.k
  setSplit s c.w c.k { sp with next := max sp.next t }

/-- D takes a result of latency 3, and the split is ready when it has landed (R24, R170). -/
def answerLate (c : Ctx) (v : TWord) (s : State) : State :=
  let go := fun s => notBefore c (c.t + 3) (advance c s)
  if isQ c.f.d then pushResults c (wordsD c fun _ => v) s s go else go (writeFixed s c.w c.f.d.toNat c.t 3 (wordsD c fun _ => v))

/-- grow (R170). -/
def growBody (c : Ctx) (s : State) : State :=
  let l := lowLane c.sp.mask
  let a := opA s c l
  let b := opB s c l
  match tagRule [a, b] with
  | .nullified => answerNow c (wordsD c fun l => ⟨.n, (rdReg s c.w c.f.d.toNat l).data⟩) s s (advance c)
  | .poisoned p => answerNow c (wordsD c fun _ => ⟨.x, p⟩) s s (advance c)
  | .normal =>
    let kind := c.f.ty.toNat
    let total := a.data.toNat + b.data.toNat
    let cur := growCurrent s c.w kind
    if !growLegal kind total then answerNow c (wordsD c fun _ => ⟨.n, 0⟩) s s (advance c)
    else if total ≤ cur then answerLate c (TWord.valid (BitVec.ofNat 64 cur)) s
    else
      pushGate c (computeLanes c) s <|
        suspend c (.grow kind total)
          { s with growQ := s.growQ ++ [{ core := coreOf s c.w, w := c.w, k := c.k, kind := kind, total := total, d := c.f.d.toNat, word := c.word }] }
def execGrow (f : Fields) (s : State) := issue specGrow f s growBody

/-- Answers a waiting request: D, and the warp's splits ready from cycle t + 3, each not before its own time (R55, R170). The words of a store
stream are pushed as those of an operation that completes (R201). -/
def growAnswer (s : State) (r : GrowReq) (v : TWord) : State :=
  let sp := getSplit s r.w r.k
  let t := (getCore s r.core).cyc + 3
  let s1 := { holdWarp s r.w t with growQ := s.growQ.filter (fun x => x ≠ r) }
  if 0xE0 ≤ r.d ∧ r.d < 0xE4 then
    let s2 := { s1 with ops := s1.ops ++ [{ id := s1.nextOp, w := r.w, lanes := sp.mask, cls := none, dst := [],
                                            push := some { q := r.d - 0xE0, k := r.k, word := r.word, skips := [] }, denied := [],
                                            kind := .result ((lanesOf sp.mask).map (fun l => (r.d, l, v))) }], nextOp := s1.nextOp + 1 }
    setSplit s2 r.w r.k { sp with susp := some (.op s1.nextOp), next := max sp.next t }
  else
    let ls := if r.d ≥ 0xC0 then [0] else lanesOf sp.mask
    let s2 := writeNow s1 r.w r.d (ls.map (fun l => (l, v)))
    setSplit s2 r.w r.k { stepSplit sp with next := max sp.next t }

/-- Grants a request that fits (R170, R171). -/
def growGrant (s : State) (r : GrowReq) : State :=
  let b := getBlock s (blkOf r.w)
  let s1 := if r.kind = 0 then setWarp s r.w { getWarp s r.w with vregs := max r.total (getWarp s r.w).vregs }
    else if r.kind = 1 then setBlock s (blkOf r.w) { b with tsbytes := max r.total b.tsbytes }
    else setBlock s (blkOf r.w) { b with tiles := max r.total b.tiles }
  growAnswer s1 r (TWord.valid (BitVec.ofNat 64 r.total))

/-- GROW_GRANT (R171): every waiting request of the core that fits, in order of arrival. -/
def execGrowGrant (core : Nat) (s : State) : Host.Outcome State Fault Refusal :=
  .next (s.growQ.foldl (fun s r => if r.core = core ∧ growFits s r then growGrant s r else s) s)

/-- A warp sleeps in `grow`. -/
def warpSleeps (s : State) (w : Nat) : Bool := s.growQ.any (fun r => r.w = w)

/-- A split waits in `bar` on the block's barrier object: for its phase, before or after a resume, or for the phase in which its lanes have
already arrived (R172, R261, R264). -/
def splitAtBar (s : State) (w : Nat) (sp : Split) : Bool :=
  match sp.susp with
  | some (.arrival 0 _ _) => true
  | some (.resumed 0 p _) => decide ((sget AObj.init s.aos (64 * blkOf w)).phase = p)
  | some (.again false) => true
  | _ => false

/-- A warp waits in `bar` in all its splits (R172). -/
def warpAtBar (s : State) (w : Nat) : Bool :=
  let sps := validSplits s w
  !sps.isEmpty && sps.all (fun e => splitAtBar s w e.2)

/-- A block waits: each of its warps that has not ended sleeps in `grow` or waits in `bar` (R172). A block whose warps have all ended is
about to complete and waits for nothing. -/
def blockWaits (s : State) (core b : Nat) : Bool :=
  let ws := (coreWarps s core).filter (fun e => blkOf e.1 = b)
  !ws.isEmpty && ws.all (fun e => warpSleeps s e.1 || warpAtBar s e.1)

/-- R172: every block of a core waits, a request is pending and none can be granted. The dispatcher is no block for this rule. -/
def growStuck (s : State) (core : Nat) : Bool :=
  let reqs := s.growQ.filter (fun r => r.core = core)
  reqs.any (fun r => !(getBlock s (blkOf r.w)).disp) && !reqs.any (growFits s) &&
    ((coreBlocks s core).filter (fun e => !e.2.disp)).all (fun e => blockWaits s core e.1)

/-- GROW_FAIL (R172): on the first such core the requests of the youngest block that has one fail. -/
def execGrowFail (s : State) : Host.Outcome State Fault Refusal :=
  match (s.growQ.map (fun r => r.core)).find? (growStuck s) with
  | none => .next s
  | some core =>
    let mine := s.growQ.filter (fun r => decide (r.core = core) && !(getBlock s (blkOf r.w)).disp)
    let young := mine.foldl (fun b r => if (getBlock s (blkOf r.w)).seq ≥ (getBlock s b).seq then blkOf r.w else b) (blkOf ((mine.head?.map (·.w)).getD 0))
    .next (mine.foldl (fun s r => if blkOf r.w = young then growAnswer s r ⟨.n, 0⟩ else s) s)

end Sys2Proof.Machine
end

