-- ==== Sys2Proof/Machine/Cross.lean ====
section
/-!
DEFINITION. The cross-lane instructions 0x070 to 0x07B and BNC_COMPLETE (R129 to R143).
-/
namespace Sys2Proof.Machine

/-! ### Rows (R130) -/

/-- D may not be scalar (R129). -/
def dstNoScalar : Chk := Chk.and dstD (chkIf 0x04 (fun e => !isS e.f.d))
/-- D and A without the scalar rule of R75. -/
def specLaneA (op : BitVec 9) (ty md : Chk) : OpSpec := { specNone op with d := dstD, a := srcA', ty := ty, md := md, reads := rdA }

def bnNo (f : Fields) : Nat := f.md.toNat % 8
def specBnset : OpSpec :=
  { specNone 0x070 with a := scalarA, b := scalarB, c := scalarC, md := mdBits 7, reads := rdABC }
def specBnsetGet : OpSpec :=
  { specNone 0x070 with
    d := dstD, md := Chk.and (mdBits 0x3F) (chkIf 0x04 (fun e => e.f.md.getLsbD 3 && decide (e.f.md.toNat / 16 % 4 ≠ 3))),
    bn := fun f => some (bnNo f) }
def specBnperm : OpSpec := { specLaneA 0x071 tyZero (mdBits 7) with d := dstNoScalar, bn := fun f => some (bnNo f) }
def specBnc : OpSpec := { specLaneA 0x072 tyZero (mdBits 7) with d := dstNoScalar, cnt := some .ld }
/-- C of shfl and shfx: mode and segment code (R136). -/
def shflC : Chk := codeOf (·.c) (fun x => decide (x < 32 ∧ x / 4 ≤ 4))
def specShuffle (op : BitVec 9) : OpSpec :=
  { specLaneA op tyZero mdCmp with d := dstNoScalar, b := immB', c := shflC, reads := rdAB }
def specShfl : OpSpec := specShuffle 0x073
def specShfx : OpSpec := specShuffle 0x074
def specVote : OpSpec := specLaneA 0x075 tyZero (mdBits 3)

/-- MOD of red and scan (R141). -/
def redMd (bits : BitVec 16) : Chk :=
  Chk.and (mdBits bits) (Chk.and (chkIf 0x04 (fun e =>
      let op := e.f.md.toNat / 16 % 8
      let int := decide (e.f.ty.toNat < 8)
      decide (op ≤ 5) && (decide (op < 3) || decide (e.f.ty = 0)) && (!e.f.md.getLsbD 3 || (int && decide (op = 0))) &&
        (!int || decide (e.f.md.toNat % 8 = 0))))
    (fun e => if e.f.ty.toNat < 8 then none else mdRm false e))
def specRed : OpSpec := specLaneA 0x076 (tyIn 0xFFF) (redMd 0x7F)
def specScan : OpSpec := { specLaneA 0x077 (tyIn 0xFFF) (redMd 0xFF) with d := dstNoScalar }
def specBcast : OpSpec := { specLaneA 0x078 tyZero mdZero with b := scalarImmB, reads := rdAB }
def specMatchv : OpSpec := { specLaneA 0x079 tyInt mdZero with d := dstNoScalar }
def specElect : OpSpec := specLaneA 0x07A tyZero mdZero
def specLrank : OpSpec := { specLaneA 0x07B tyZero mdZero with d := dstNoScalar }

/-! ### Lanes -/

/-- The word of A in a lane that may lie outside the split (R129). A queue without an entry there has no word that the spec states: a
free value (log 9). -/
def routedA (s : State) (c : Ctx) (lane : Nat) : TWord :=
  if isQ c.f.a && (getQueue s c.w lane (c.f.a.toNat - 0xE0)).entries.isEmpty then
    TWord.valid (Config.freeWord (s.free * 32 + lane))
  else opA s c lane

/-- Runs a word whose lanes' results are given by g, with a fixed latency. -/
def crossBody (spec : OpSpec) (lat : Nat) (g : Ctx → State → Nat → LaneRes) (c : Ctx) (s : State) : State :=
  let rs := (computeLanes c).map (fun l => (l, g c s l))
  let s1 := popAll s c.w c.sp.mask (spec.reads c.f)
  if isQ c.f.d then finishPush c rs s s1 else finishFixed c lat rs s1
def crossExec (spec : OpSpec) (lat : Nat) (g : Ctx → State → Nat → LaneRes) (f : Fields) (s : State) :=
  issue spec f s (crossBody spec lat g)

/-- The old word of D in a lane. -/
def oldD (s : State) (c : Ctx) (l : Nat) : TWord := rdReg s c.w c.f.d.toNat l
/-- The active lanes. -/
def actives (c : Ctx) : List Nat := lanesOf c.sp.mask
/-- The lowest active lane whose A is X. -/
def lowestX (c : Ctx) (s : State) : Option TWord := ((actives c).map (opA s c)).find? (fun x => x.tag = .x)

/-! ### The Benes network (R131 to R133) -/

def bnKey (w n : Nat) : Nat := 8 * w + n
def getBn (s : State) (w n : Nat) : BitVec 144 := sget 0#144 s.bn (bnKey w n)

/-- The position p of switch j of a stage of distance d: bit d of p is 0. -/
def bnPos (d j : Nat) : Nat := j / 2 ^ d * 2 ^ (d + 1) + j % 2 ^ d
/-- sw(p, d) of R131. -/
def bnSw (p d : Nat) : Nat := p / 2 ^ (d + 1) * 2 ^ d + p % 2 ^ d
/-- d(s) = |s - 4|. -/
def bnDist (st : Nat) : Nat := if st ≤ 4 then 4 - st else st - 4

/-- One stage: each position takes its own value, or its partner's where the switch exchanges. -/
def bnStage (ctl : BitVec 144) (st : Nat) (x : List TWord) : List TWord :=
  let d := bnDist st
  (List.range 32).map (fun p =>
    let lowp := if p.testBit d then p - 2 ^ d else p
    let other := if p.testBit d then p - 2 ^ d else p + 2 ^ d
    if ctl.getLsbD (16 * st + bnSw lowp d) then x.getD other TWord.zero else x.getD p TWord.zero)

/-- The nine stages (R131). -/
def bnRun (ctl : BitVec 144) (x : List TWord) : List TWord := (List.range 9).foldl (fun x st => bnStage ctl st x) x

/-- A control word as read at the issue: while a write is pending, the previous or the new word by a free choice (R129, R58). -/
def readBn (s : State) (c : Ctx) (n : Nat) : BitVec 144 :=
  let cur := getBn s c.w n
  let olds := ((s.bnPend.filter (fun p => decide (p.w = c.w) && decide (p.n = n) && decide (p.land > c.t))).map (·.old)).filter (fun x => x ≠ cur)
  match olds with
  | [] => cur
  | _ :: _ => (cur :: olds).getD (Config.earlyRead (s.free * 2 ^ 13 + 2 ^ 12 + n) % (olds.length + 1)) cur

/-- bnset (R132): A, B and C[15:0]; a word of tag N or X leaves bnN unchanged. The write of an outstanding bnc to bnN is discarded: it is
then an operation on number 8, which names no control word (R57). -/
def bnsetBody (c : Ctx) (s : State) : State :=
  let l := lowLane c.sp.mask
  let a := opA s c l
  let b := opB s c l
  let d := opC s c l
  let n := bnNo c.f
  if tagRule [a, b, d] ≠ .normal then advance c s
  else
    let v : BitVec 144 := (d.data.truncate 16 : BitVec 16) ++ b.data ++ a.data
    advance c { s with
      bnPend := { w := c.w, n := n, old := getBn s c.w n, land := c.t + 3, by_ := c.sp.mask } :: s.bnPend,
      bn := sset 0#144 s.bn (bnKey c.w n) v,
      ops := s.ops.map (fun o => match o.kind with
        | .bnc n' _ ws => if o.w = c.w ∧ n' = n then { o with kind := .bnc 8 none ws } else o
        | _ => o) }
def execBnset (f : Fields) (s : State) := issue specBnset f s bnsetBody

/-- bnset.get (R132). -/
def bnGetRes (c : Ctx) (s : State) (_ : Nat) : LaneRes :=
  let v := readBn s c (bnNo c.f)
  let k := c.f.md.toNat / 16 % 4
  LaneRes.word (if k = 0 then v.extractLsb' 0 64 else if k = 1 then v.extractLsb' 64 64 else (v.extractLsb' 128 16).zeroExtend 64)
def execBnsetGet (f : Fields) (s : State) := crossExec specBnsetGet 3 bnGetRes f s

/-- bnperm (R133). -/
def bnpermRes (c : Ctx) (s : State) (l : Nat) : LaneRes :=
  let x := (bnRun (readBn s c (bnNo c.f)) ((List.range 32).map (routedA s c))).getD l TWord.zero
  r35 (oldD s c l) [x] fun _ => LaneRes.ok x
def execBnperm (f : Fields) (s : State) := crossExec specBnperm 6 bnpermRes f s

/-! ### bnc (R134, R135) -/

/-- Where a value stands in a list of positions, 0 if nowhere. -/
def findPos (p : List Nat) (v : Nat) : Nat := (p.findIdx? (fun x => x = v)).getD 0

/-- The inner while of R134: follows the chain of partners from u until u has a side. -/
def bncChain (pi : List Nat) (d : Nat) : Nat → Nat → List (Option Bool) → List (Option Bool)
  | 0, _, side => side
  | n + 1, u, side =>
    if (side.getD u none).isSome then side
    else
      let v := findPos pi ((pi.getD u 0) ^^^ 2 ^ d)
      bncChain pi d n (v ^^^ 2 ^ d) ((side.set u (some false)).set v (some true))

/-- The side of every position of T. -/
def bncSides (pi : List Nat) (d : Nat) (ts : List Nat) : List (Option Bool) :=
  (ts.filter (fun t => !t.testBit d)).foldl (fun sd t => bncChain pi d 33 t sd) (List.replicate 32 none)

/-- p with bit d set to b. -/
def withBit (p d : Nat) (b : Bool) : Nat := if p.testBit d then (if b then p else p - 2 ^ d) else if b then p + 2 ^ d else p

/-- route of R134: the switches that T sets, as bit numbers. -/
def bncRoute : Nat → List Nat → List Nat → List Nat
  | 0, _, _ => []
  | 1, ts, pi => (ts.filter (fun p => !p.testBit 0)).filterMap (fun p => if (pi.getD p 0).testBit 0 then some (64 + bnSw p 0) else none)
  | k + 2, ts, pi =>
    let d := k + 1
    let side := bncSides pi d ts
    let sd (p : Nat) : Bool := (side.getD p none).getD false
    let lows := ts.filter (fun p => !p.testBit d)
    let sets := lows.filterMap (fun p => if sd (findPos pi p) then some (16 * (5 - (k + 2)) + bnSw p d) else none) ++
      lows.filterMap (fun p => if sd p then some (16 * (3 + (k + 2)) + bnSw p d) else none)
    let pi' := ts.foldl (fun q t => q.set (withBit t d (sd t)) (withBit (pi.getD t 0) d (sd t))) pi
    sets ++ bncRoute (k + 1) lows pi' ++ bncRoute (k + 1) (ts.filter (fun p => p.testBit d)) pi'

/-- The control word that routes a permutation. -/
def bncWord (pi : List Nat) : BitVec 144 :=
  (bncRoute 5 (List.range 32) pi).foldl (fun v b => v ||| BitVec.twoPow 144 b) 0#144

/-- Step 3 of R134: the permutation that the requests complete to. -/
def bncComplete (reqs : List (Nat × Nat)) : List Nat :=
  let freeSrc := (List.range 32).filter (fun x => !reqs.any (fun r => r.2 = x))
  ((List.range 32).foldl (fun (acc : List Nat × List Nat) t =>
    match reqs.find? (fun r => r.1 = t) with
    | some r => (acc.1 ++ [r.2], acc.2)
    | none => (acc.1 ++ [acc.2.headD 0], acc.2.tail)) ([], freeSrc)).1

/-- The routing unit of the warp's quarter is busy (R135). -/
def bncBusy (s : State) (w : Nat) : Bool :=
  s.ops.any (fun o => decide (quarterOf s o.w = quarterOf s w) && (match o.kind with | .bnc .. => true | _ => false))

/-- bnc (R134). -/
def bncBody (c : Ctx) (s : State) : State :=
  let ls := actives c
  let a := fun l => opA s c l
  let n := bnNo c.f
  let code := c.f.d.toNat
  let xs := ls.filter (fun l => (a l).tag = .x)
  let settled := (if xs.isEmpty then ls.filter (fun l => (a l).tag = .n) else xs).map (fun l =>
    (l, match (a l).tag with | .n => (⟨.n, (oldD s c l).data⟩ : TWord) | _ => ⟨.x, (a l).data⟩))
  let live := ls.filter (fun l => !settled.any (fun e => e.1 = l))
  let reqs := (ls.filter (fun l => (a l).tag = .v)).map (fun l => (l, (a l).data.toNat))
  let refused := reqs.any (fun r => decide (r.2 ≥ 32)) || !decide ((reqs.map (·.2)).Nodup)
  let good := xs.isEmpty && !refused
  let res : TWord := if good then TWord.valid 1 else ⟨.n, 0⟩
  match settledPoison c settled with
  | some r => raise c r s
  | none => pushGate c live s <|
    startVar c .ld (maskOf (fun l => c.sp.mask.getLsbD l && (live.contains l || live.isEmpty))) live
      (.bnc n (if good then some (bncWord (bncComplete reqs)) else none) (live.map (fun l => (code, l, res))))
      (settleNow c settled (popAll s c.w c.sp.mask (specBnc.reads c.f)))
def execBnc (f : Fields) (s : State) : Host.Outcome State Fault Refusal :=
  match s.cur with
  | none => .next s
  | some cu => if bncBusy s cu.w then .next (holdUntil (issueTime s cu.w cu.k + 1) s cu) else issue specBnc f s bncBody

/-- BNC_COMPLETE (R135): bnN and D are written in the same cycle. -/
def execBncComplete (id : Nat) (s : State) : Host.Outcome State Fault Refusal :=
  match findOp s id with
  | some o =>
    match o.kind with
    | .bnc n ctl ws =>
      let s1 := match ctl with
        | some v => { s with bn := sset 0#144 s.bn (bnKey o.w n) v, bnPend := s.bnPend.filter (fun p => !(decide (p.w = o.w) && decide (p.n = n))) }
        | none => s
      .next (finishOp s1 o ws)
    | _ => .next s
  | none => .next s

/-! ### Shuffles and broadcast (R136, R137) -/

/-- src(l) of R136. -/
def shflSrc (cc l b : Nat) : Nat :=
  let w := 2 ^ (5 - cc / 4)
  let base := l - l % w
  match cc % 4 with
  | 0 => base + b % w
  | 1 => if b ≤ l - base then l - b else l
  | 2 => if l + b < base + w then l + b else l
  | _ => l ^^^ (b % w)

/-- shfl and shfx: B decides first, then the routed word (R129, R136). -/
def shflRes (inside : Bool) (c : Ctx) (s : State) (l : Nat) : LaneRes :=
  let b := opB s c l
  r35 (oldD s c l) [b] fun _ =>
    let src := shflSrc c.f.c.toNat l b.data.toNat
    if inside && !c.sp.mask.getLsbD src then LaneRes.ok ⟨.n, (oldD s c l).data⟩
    else let x := routedA s c src; r35 (oldD s c l) [x] fun _ => LaneRes.ok x
def execShfl (f : Fields) (s : State) := crossExec specShfl 6 (shflRes false) f s
def execShfx (f : Fields) (s : State) := crossExec specShfx 6 (shflRes true) f s

/-- bcast: the routed word is written with its tag and its data (R35, R137). -/
def bcastRes (c : Ctx) (s : State) (l : Nat) : LaneRes :=
  let b := opB s c (lowLane c.sp.mask)
  r35 (oldD s c l) [b] fun _ => LaneRes.ok (routedA s c (b.data.toNat % 32))
def execBcast (f : Fields) (s : State) := crossExec specBcast 6 bcastRes f s

/-! ### Lane masks (R138, R139) -/

/-- The mask as a word. -/
def maskWord (m : Mask) : Word := m.zeroExtend 64
/-- The active lanes whose A is V. -/
def validA (c : Ctx) (s : State) : Mask := maskOf (fun l => c.sp.mask.getLsbD l && decide ((opA s c l).tag = .v))

/-- vote (R138). -/
def voteRes (c : Ctx) (s : State) (_ : Nat) : LaneRes :=
  let v := validA c s
  match lowestX c s with
  | some x => LaneRes.ok ⟨.x, x.data⟩
  | none =>
    let yes (b : Bool) : LaneRes := LaneRes.ok (if b then condTrue else condFalse)
    match c.f.md.toNat % 4 with
    | 0 => LaneRes.word (maskWord v)
    | 1 => yes (decide (v ≠ 0))
    | 2 => yes (decide (v = c.sp.mask))
    | _ => yes (decide (v = c.sp.mask) && decide (((actives c).map (fun l => (opA s c l).data)).dedup.length ≤ 1))
def execVote (f : Fields) (s : State) := crossExec specVote 3 voteRes f s

/-- match (R139). -/
def matchRes (c : Ctx) (s : State) (l : Nat) : LaneRes :=
  let a := opA s c l
  let w := tyWidth c.f.ty
  r35 (oldD s c l) [a] fun _ =>
    LaneRes.word (maskWord (maskOf (fun k => c.sp.mask.getLsbD k && decide ((opA s c k).tag = .v) &&
      decide (lowPat w (opA s c k).data = lowPat w a.data))))
def execMatchv (f : Fields) (s : State) := crossExec specMatchv 3 matchRes f s

/-- elect (R139). -/
def electRes (c : Ctx) (s : State) (l : Nat) : LaneRes :=
  let v := validA c s
  if isS c.f.d then
    if v ≠ 0 then LaneRes.word (BitVec.ofNat 64 (lowLane v))
    else LaneRes.ok (match lowestX c s with | some x => ⟨.x, x.data⟩ | none => ⟨.n, (oldD s c l).data⟩)
  else
    let a := opA s c l
    LaneRes.ok (if a.tag = .x then a else if v ≠ 0 ∧ l = lowLane v then condTrue else condFalse)
def execElect (f : Fields) (s : State) := crossExec specElect 2 electRes f s

/-- lrank (R139). -/
def lrankRes (c : Ctx) (s : State) (l : Nat) : LaneRes :=
  r35 (oldD s c l) [opA s c l] fun _ => LaneRes.word (BitVec.ofNat 64 ((lanesOf (validA c s)).filter (fun k => k < l)).length)
def execLrank (f : Fields) (s : State) := crossExec specLrank 3 lrankRes f s

/-! ### Reductions and scans (R140 to R143) -/

/-- A node of the tree: absent, or a word with the exact sum of its leaves, their number, and the flags raised below it. -/
structure RNode where
  word : Option TWord
  sum : Int
  leaves : Nat
  fl : BitVec 6

def redCode (f : Fields) : Nat := f.md.toNat / 16 % 8

/-- op of two words that are neither absent nor X (R141); integer addition is taken from the sums. -/
def redOp (c : Ctx) (s : State) (a b : TWord) (sum : Int) : LaneRes :=
  let ty := c.f.ty
  match redCode c.f with
  | 0 => if ty.toNat < 8 then LaneRes.word (extTy ty sum) else fOp 2 (fun k m z x y _ => roundSum k m z [x, y]) c s a b TWord.zero TWord.zero
  | 1 => if ty.toNat < 8 then LaneRes.word (extTy ty (min (rdTy ty a.data) (rdTy ty b.data))) else minmaxRes false false c s a b TWord.zero TWord.zero
  | 2 => if ty.toNat < 8 then LaneRes.word (extTy ty (max (rdTy ty a.data) (rdTy ty b.data))) else minmaxRes true false c s a b TWord.zero TWord.zero
  | 3 => LaneRes.word (a.data &&& b.data)
  | 4 => LaneRes.word (a.data ||| b.data)
  | _ => LaneRes.word (a.data ^^^ b.data)

/-- The node of two children (R140). -/
def redJoin (c : Ctx) (s : State) (p q : RNode) : RNode :=
  match p.word, q.word with
  | none, _ => { q with fl := p.fl ||| q.fl }
  | some _, none => { p with fl := p.fl ||| q.fl }
  | some a, some b =>
    let sum := p.sum + q.sum
    if a.tag = .x then { word := some a, sum := sum, leaves := p.leaves + q.leaves, fl := p.fl ||| q.fl }
    else if b.tag = .x then { word := some b, sum := sum, leaves := p.leaves + q.leaves, fl := p.fl ||| q.fl }
    else
      let r := redOp c s a b sum
      { word := some r.val, sum := sum, leaves := p.leaves + q.leaves, fl := p.fl ||| q.fl ||| r.fl }

/-- The word of a leaf: the lane's value of TY, flushed under fcr[8] where TY is floating (R141, R142). -/
def leafWord (c : Ctx) (s : State) (d : Word) : Word :=
  let ty := c.f.ty
  if redCode c.f ≥ 3 then d
  else if ty.toNat < 8 then extTy ty (rdTy ty d)
  else
    let k := fmtOf ty.toNat
    let n := d.toNat % 2 ^ k.w
    match unpackZ k (ftzOf s c) n with
    | .fin neg 0 _ => BitVec.ofNat 64 (if neg then 2 ^ (k.w - 1) else 0)
    | _ => BitVec.ofNat 64 n

/-- The leaf of a lane. -/
def redLeaf (c : Ctx) (s : State) (l : Nat) : RNode :=
  let a := opA s c l
  if c.sp.mask.getLsbD l && decide (a.tag ≠ .n) then
    { word := some (if a.tag = .v then { a with data := leafWord c s a.data } else a), sum := rdTy c.f.ty a.data, leaves := 1, fl := 0 }
  else { word := none, sum := 0, leaves := 0, fl := 0 }

/-- The node at level v that begins at a lane. -/
def redNode (c : Ctx) (s : State) : Nat → Nat → RNode
  | 0, l => redLeaf c s l
  | v + 1, l => redJoin c s (redNode c s v l) (redNode c s v (l + 2 ^ v))

/-- The maximal aligned nodes that cover the first n lanes: level and first lane (R140). -/
def prefNodes (n : Nat) : List (Nat × Nat) :=
  ((List.range 6).reverse.foldl (fun (acc : List (Nat × Nat) × Nat) v =>
    if n.testBit v then (acc.1 ++ [(v, acc.2)], acc.2 + 2 ^ v) else acc) ([], 0)).1

/-- The fold of the nodes that cover the first n lanes. -/
def redPref (c : Ctx) (s : State) (n : Nat) : RNode :=
  ((prefNodes n).map (fun e => redNode c s e.1 e.2)).foldl (redJoin c s) { word := none, sum := 0, leaves := 0, fl := 0 }

/-- A lane's result: absent nullifies; .sat clamps the exact sum once (R142). -/
def redFinish (c : Ctx) (s : State) (l : Nat) (r : RNode) : LaneRes :=
  match r.word with
  | none => LaneRes.ok ⟨.n, (oldD s c l).data⟩
  | some w =>
    if c.f.md.getLsbD 3 && decide (w.tag = .v) && decide (r.leaves ≥ 2) then satRes true (tyWidth c.f.ty) (tySigned c.f.ty) r.sum
    else LaneRes.ok w

/-- Takes the quarter's tree (R143). -/
def treeTake (c : Ctx) (s : State) : State :=
  let qk := quarterOf s c.w
  let wide := decide (c.f.ty.toNat = 8 ∨ c.f.ty.toNat = 3 ∨ c.f.ty.toNat = 7)
  setQuarter s qk { getQuarter s qk with treeBusy := c.t + (if wide then 8 else 4) }

/-- red and scan: the flags of every node evaluated are set in every active lane (R141). -/
def redBody (spec : OpSpec) (node : Ctx → Nat → Nat) (c : Ctx) (s : State) : State :=
  let s := treeTake c s
  let rs := (computeLanes c).map (fun l => (l, redPref c s (node c l)))
  let fl := rs.foldl (fun x e => x ||| e.2.fl) 0#6
  let outs := rs.map (fun e => (e.1, let r := redFinish c s e.1 e.2; { r with fl := r.fl ||| fl }))
  let s1 := popAll s c.w c.sp.mask (spec.reads c.f)
  if isQ c.f.d then finishPush c outs s s1 else finishFixed c 6 outs s1

/-- Issues a word that uses the quarter's reduction tree (R143). -/
def treeExec (spec : OpSpec) (node : Ctx → Nat → Nat) (f : Fields) (s : State) : Host.Outcome State Fault Refusal :=
  match s.cur with
  | none => .next s
  | some cu =>
    let busy := (getQuarter s (quarterOf s cu.w)).treeBusy
    if issueTime s cu.w cu.k < busy then .next (holdUntil busy s cu) else issue spec f s (redBody spec node)

def execRed (f : Fields) (s : State) := treeExec specRed (fun _ _ => 32) f s
def execScan (f : Fields) (s : State) := treeExec specScan (fun c l => if c.f.md.getLsbD 7 then l else l + 1) f s

end Sys2Proof.Machine
end

