-- ==== Sys2Proof/Machine/Memory.lean ====
section
/-!
DEFINITION. The memory-access instructions at issue: rows, checks and the operations they start (R182 to R204, R222 to R232). The
accesses themselves are performed by the steps of Machine/Perform.lean.
-/
namespace Sys2Proof.Machine

/-! ### Fields (R194) -/

/-- Words of a vector access: MOD[3:2]. -/
def vecN (f : Fields) : Nat := match (modOf f).toNat / 4 % 4 with | 1 => 2 | 2 => 4 | _ => 1
def isVec (f : Fields) : Bool := decide (vecN f > 1)
/-- The policy, MOD[1:0]. -/
def polOf (f : Fields) : Nat := (modOf f).toNat % 4
/-- The scope, MOD[2:0]. -/
def scopeOf (f : Fields) : Nat := (modOf f).toNat % 8

/-- The vector register group of a `.v2` or `.v4` form. -/
def groupOk (get : Fields → BitVec 8) : Chk := fun e =>
  let x := get e.f
  if !isVec e.f then none
  else if isS x || isQ x || isZ x || isL x then some 0x04
  else if isV x ∧ x.toNat + vecN e.f - 1 ≥ e.vregs then some 0x02 else none
/-- TY of a vector form is i64, n64 or f64. -/
def tyVec : Chk := fun e => if isVec e.f && !(0x188).testBit e.f.ty.toNat then some 0x05 else none
/-- The vector count 3 is not assigned. -/
def vnOk : Chk := chkIf 0x04 (fun e => decide ((modOf e.f).toNat / 4 % 4 ≠ 3))
/-- The codes of a register group. -/
def groupCodes (x : BitVec 8) (n : Nat) : List (BitVec 8) := (List.range n).map (fun j => x + BitVec.ofNat 8 j)
/-- Registers read by a store. -/
def rdStore (f : Fields) : List (BitVec 8) := [f.a, f.b] ++ groupCodes f.c (vecN f)

def specMem (op : BitVec 9) : OpSpec := { specNone op with cls := .m }
/-- ld, ldl, ldc. -/
def specLoad (op : BitVec 9) (bits : BitVec 16) : OpSpec :=
  { specMem op with d := Chk.and (groupOk (·.d)) dstD, a := srcA, b := immB, ty := Chk.and tyMem tyVec, md := Chk.and (mdBits bits) vnOk,
                    reads := rdAB, cnt := some .ld }
/-- st, stl, stc. -/
def specStore (op : BitVec 9) (bits : BitVec 16) : OpSpec :=
  { specMem op with a := srcA, b := immB, c := Chk.and (groupOk (·.c)) immC, ty := Chk.and tyMem tyVec, md := Chk.and (mdBits bits) vnOk,
                    reads := rdStore, cnt := some .st }
def specLd : OpSpec := specLoad 0x100 0xF
def specSt : OpSpec := specStore 0x101 0xF
def specLdl : OpSpec := specLoad 0x102 0xC
def specStl : OpSpec := specStore 0x103 0xC
def specLdc : OpSpec := specLoad 0x104 0xC
def specStc : OpSpec := specStore 0x105 0xC
/-- One word per lane: the vector count does not exist. -/
def specLoad1 (op : BitVec 9) (bits : BitVec 16) : OpSpec :=
  { specMem op with d := dstD, a := srcA, b := immB, ty := tyMem, md := mdBits bits, reads := rdAB, cnt := some .ld }
def specStore1 (op : BitVec 9) (bits : BitVec 16) : OpSpec :=
  { specMem op with a := srcA, b := immB, c := immC, ty := tyMem, md := mdBits bits, reads := rdABC, cnt := some .st }
def specLda : OpSpec := specLoad1 0x108 7
def specStr : OpSpec := specStore1 0x109 7
def specChst : OpSpec := specStore1 0x10F 0xF
def specStmc : OpSpec := specStore1 0x112 0
/-- ldq and stq: D is a queue code. -/
def specArm (op : BitVec 9) : OpSpec :=
  { specMem op with d := chkIf 0x04 (fun e => isQ e.f.d), a := srcA', b := immB', c := immC', ty := tyMem, md := mdZero, reads := rdABC }
def specLdq : OpSpec := specArm 0x106
def specStq : OpSpec := specArm 0x107
def specPrf : OpSpec :=
  { specMem 0x10A with a := srcA', b := immB', md := Chk.and (mdBits 3) (chkIf 0x04 (fun e => decide ((modOf e.f).toNat % 4 ≠ 3))), reads := rdAB }
/-- C as a scalar register, `zero` or the immediate. -/
def scalarImmC : Chk := fun e => if isImm e.f.c then none else scalarC e
/-- winv and wbk: scalar operands, no immediate form (subcode 0x08). -/
def specMaint (op : BitVec 9) : OpSpec :=
  { specMem op with a := scalarA, b := scalarImmB, c := scalarImmC, md := Chk.and noImm (mdBits 7), reads := rdABC, cnt := some .st }
def specWinv : OpSpec := specMaint 0x10B
def specWbk : OpSpec := specMaint 0x10C

/-! ### Lane checks (R182) -/

/-- How the checks decide a lane. -/
inductive LaneChk where
  /-- Written at issue, or with nothing to do. -/
  | settled (w : Option TWord)
  | trap (step cause sub : Nat) (val : Word)
  | wait (x : Wait)
  /-- A load lane that takes X at steps 3 and 4: it belongs to the operation (R185). -/
  | late (acc : Acc)
  | ok (l : Leaf) (acc : Acc)

/-- The access kind number of a page request (R474). -/
def reqKind (k : AKind) : Nat := match k with | .load => 0 | .fetch => 2 | _ => 1

/-- Further copies that an `stmc` writes (R196). -/
def otherCopies (s : State) (a : Agent) (l : Leaf) (va : Nat) (k : AKind) : List Nat :=
  if k = .stmc ∧ l.rep then
    ((List.range 4).filter (fun q => q ≠ a.die)).map (fun q => replicaAddr ((replicaSet s l.base l.level).getD 0) q (va % 2 ^ l.bits))
  else []

/-- A lane's place in an operation to which it makes no access: the word it takes (R185). -/
def givenAcc (lane va n : Nat) (x : TWord) : Acc :=
  { lane := lane, va := va, key := 2 ^ 120 + 64 * lane, size := 1, n := n, sw := false, pol := 0, data := 0, also := [], cmp := 0, ver := none,
    hand := none, given := some x }

/-- Steps 2 to 7 of R182 for one lane of n words of size bytes. -/
def chkLane (s : State) (a : Agent) (k : AKind) (lane : Nat) (addr : Word) (size n pol data cmp : Nat) : LaneChk :=
  let va := addr.toNat
  if va % (size * n) ≠ 0 then .trap 2 causeAlign 0 addr
  else match checkAddr s a va (size * n) k with
  | .fail st cause sub =>
    if k = .load ∧ st ≤ 4 ∧ cause ≠ causeAlign then .late (givenAcc lane va n ⟨.x, payload cause va⟩) else .trap st cause sub addr
  | .stall table host => .wait (pageWait a [va] (reqKind k) table host)
  | .ok l key =>
    let also := otherCopies s a l va k
    let acc : Acc := { lane := lane, va := va, key := key, size := size, n := n, sw := decide (l.coh = 1), pol := pol, cls := l.cls, data := data,
                       left := List.range (n + also.length), also := also, cmp := cmp, ver := if l.ver then some (l.base, va % 2 ^ 16) else none, hand := none }
    if k.writes && l.ver && !vdbWv (rdVdb s l.base) then .wait (.frame [(l.base, lane, va)] (getCore s a.core).cyc)
    else match raceAcc s a k l acc with
      | some sub => .trap 7 causeRace sub addr
      | none => .ok l acc

/-- The traps among lanes, as R184 orders them. -/
def trapsOf (rs : List (Nat × LaneChk)) : List (Nat × Nat × Nat × Nat × Word) :=
  rs.filterMap (fun e => match e.2 with | .trap st cause sub v => some (e.1, st, cause, sub, v) | _ => none)

/-- The addresses of the lanes that a check has refused once their pages had been walked (R180). -/
def refusedVas (rs : List (Nat × LaneChk)) : List Nat :=
  trapVas (trapsOf rs) ++ rs.filterMap (fun e => match e.2 with | .late a => some a.va | _ => none)

/-- The wait of the lanes that stall, pages before frames. -/
def waitOf (rs : List (Nat × LaneChk)) : Option Wait :=
  rs.foldl (fun b e => match e.2 with
    | .wait y => match b with | none => some y | some x => some (joinWait x y)
    | _ => b) none

/-- The accesses of the lanes that pass. -/
def accsOf (rs : List (Nat × LaneChk)) : List (Leaf × Acc) :=
  rs.filterMap (fun e => match e.2 with | .ok l a => some (l, a) | _ => none)

/-- The accesses of an operation: of the lanes that pass, and of those that take X without one. -/
def opAccs (rs : List (Nat × LaneChk)) : List Acc :=
  rs.filterMap (fun e => match e.2 with | .ok _ a => some a | .late a => some a | _ => none)

/-- The lanes written at issue. -/
def settledOf (rs : List (Nat × LaneChk)) : List (Nat × TWord) :=
  rs.filterMap (fun e => match e.2 with | .settled (some w) => some (e.1, w) | _ => none)

/-- Decides an instruction from its lanes: a trap, a wait, or its effect (R184). -/
def decideLanes (c : Ctx) (s0 : State) (rs : List (Nat × LaneChk)) (go : State) : State :=
  match firstTrap c.sp.mask (trapsOf rs) with
  | some r => raise c r s0
  | none => match waitOf rs with
    | some x => suspend c x s0
    | none => go

/-- Marks of the accesses about to be made: walker bits, TLB, PRIV owner, race records. -/
def touchAll (s : State) (a : Agent) (k : AKind) (xs : List (Leaf × Acc)) : State :=
  xs.foldl (fun s e => noteAcc s a k e.1 e.2) s

/-! ### Loads -/

/-- A word of n bytes as a register word: extended by TY (R195). -/
def loadWord (ty : BitVec 4) (v : Nat) : Word := if ty.toNat < 8 then extTy ty v else BitVec.ofNat 64 (v % 2 ^ (8 * tyBytes ty))

/-- Writes a settled word to each register of a group; N keeps each register's data. -/
def settleGroup (c : Ctx) (n : Nat) (ws : List (Nat × TWord)) (s : State) : State :=
  (List.range n).foldl (fun s j =>
    let code := c.f.d.toNat + j
    writeNow s c.w code (ws.map (fun e => (e.1, if e.2.tag = .n then (⟨.n, (rdReg s c.w code e.1).data⟩ : TWord) else e.2)))) s

/-- The acquire of a completed load or atomic: SW lines, and the releases it reads (R220, R223). -/
def acquireNow (s : State) (w scope : Nat) : State := invScope s (dieOf s w) scope (fun _ => true)

/-- Starts a load of lanes whose accesses passed, and goes on. -/
def startLoad (c : Ctx) (n : Nat) (accs : List Acc) (kind : OpKind) (acq : Option Nat) (s : State) : State :=
  let ls := accs.map (·.lane)
  let codes := (List.range n).map (fun j => c.f.d.toNat + j)
  let mask := if isS c.f.d then c.sp.mask else maskOf (fun l => ls.contains l)
  let id := s.nextOp
  let s2 := { s with ops := s.ops ++ [{ id := id, w := c.w, lanes := mask, cls := some .ld, dst := codes.flatMap (fun code => dstOf code ls),
                                        push := pushTo c ls, denied := [], kind := kind, word := c.word, path := c.path, issuer := c.sp.mask,
                                        routes := s.routes }], nextOp := id + 1 }
  let s3 := if acq.isSome then setSplit s2 c.w c.k { getSplit s2 c.w c.k with hold := id :: (getSplit s2 c.w c.k).hold } else s2
  if isQ c.f.d then suspend c (.op id) s3 else advance c s3

/-- Finishes the issue of a load whose lanes are decided. -/
def issueLoad (c : Ctx) (n : Nat) (acq : Option Nat) (kind : List Acc → OpKind) (a : Agent) (rs : List (Nat × LaneChk)) (s0 s : State) : State :=
  let settled := settledOf rs
  let s0 := walkedAll s0 a (refusedVas rs)
  let s := walkedAll s a (refusedVas rs)
  decideLanes c s0 rs <|
  match settledPoison c settled with
  | some r => raise c r s0
  | none =>
    let xs := opAccs rs
    pushGate c (xs.map (·.lane)) s0 <|
    let s1 := touchAll s a .load (accsOf rs)
    match xs with
    | [] =>
      let s2 := match acq with
        | some sc => if settled.any (fun e => e.2.tag = .x) then acquireNow s1 c.w sc else s1
        | none => s1
      if isQ c.f.d then settleAll c settled s2 else advance c (settleGroup c n settled s2)
    | _ :: _ => startLoad c n xs (kind xs) acq (if isQ c.f.d then s1 else settleGroup c n settled s1)

/-- A lane of a load from its operand words: R35 first, then the checks. -/
def loadLane (s : State) (c : Ctx) (xs : List TWord) (lane : Nat) (go : Unit → LaneChk) : LaneChk :=
  match tagRule xs with
  | .nullified => .settled (some ⟨.n, (rdReg s c.w c.f.d.toNat lane).data⟩)
  | .poisoned p => .settled (some ⟨.x, p⟩)
  | .normal => go ()

/-- The address A + B of a lane. -/
def addrOf (s : State) (c : Ctx) (l : Nat) : Word := (opA s c l).data + (opB s c l).data

/-- ld and lda (R195, R223). -/
def ldBody (spec : OpSpec) (n pol : Nat) (acq : Option Nat) (c : Ctx) (s : State) : State :=
  let a := agentC c s
  let rs := (computeLanes c).map (fun l => (l, loadLane s c [opA s c l, opB s c l] l (fun _ =>
    chkLane s a .load l (addrOf s c l) (tyBytes c.f.ty) n pol 0 0)))
  issueLoad c n acq (fun accs => .load accs c.f.ty c.f.d.toNat n acq) a rs s (popAll s c.w c.sp.mask (spec.reads c.f))
def execLd (f : Fields) (s : State) := issue specLd f s (ldBody specLd (vecN f) (polOf f) none)
def execLda (f : Fields) (s : State) := issue specLda f s (ldBody specLda 1 0 (some (scopeOf f)))

/-! ### Stores -/

/-- The data words of a store in a lane. -/
def dataWords (s : State) (c : Ctx) (n l : Nat) : List TWord :=
  if n = 1 then [opC s c l] else (List.range n).map (fun j => readC s c (c.f.c.toNat + j) l)

/-- The bytes of data words. -/
def packData (size : Nat) (ws : List TWord) : Nat :=
  (ws.zipIdx).foldl (fun v e => v + e.1.data.toNat % 2 ^ (8 * size) * 2 ^ (8 * size * e.2)) 0

/-- A lane of a store from its operand words: N nullifies, X traps (R182 step 1). -/
def storeLane (xs : List TWord) (go : Unit → LaneChk) : LaneChk :=
  match tagRule xs with
  | .nullified => .settled none
  | .poisoned p => .trap 1 causePoison 0 p
  | .normal => go ()

/-- Starts a store of lanes whose accesses passed, and goes on. -/
def startStore (c : Ctx) (accs : List Acc) (kind : OpKind) (s : State) : State :=
  match accs with
  | [] => advance c s
  | _ :: _ => advance c (stampOp c (startOp s c.w (maskOf (fun l => accs.any (fun a => a.lane = l))) (some .st) [] kind))

/-- An access outside local HBM makes a restartable block commit (R448). -/
def outside (xs : List (Leaf × Acc)) : Bool := xs.any (fun e => decide (e.2.key ≥ regBase))

/-- The accesses of one instruction write every byte of the sector of an access to a VER page (R321). -/
def wholeSector (accs : List Acc) (x : Acc) : Bool :=
  match x.ver with
  | some (vdb, off) => (List.range 256).all (fun i => accs.any (fun y => match y.ver with
      | some (v, o) => decide (v = vdb) && decide (o ≤ off / 256 * 256 + i) && decide (off / 256 * 256 + i < o + y.size * y.n)
      | none => false))
  | none => false

/-- The accesses of a store, with whether it covers their sectors. -/
def markWhole (accs : List Acc) : List Acc := accs.map (fun x => { x with whole := wholeSector accs x })

/-- st, str and stmc (R195, R196, R224). -/
def stBody (spec : OpSpec) (k : AKind) (n pol : Nat) (rel : Option Nat) (c : Ctx) (s : State) : State :=
  let a := agentC c s
  let size := tyBytes c.f.ty
  let rs := (actives c).map (fun l =>
    let ws := dataWords s c n l
    (l, storeLane ([opA s c l, opB s c l] ++ ws) (fun _ => chkLane s a k l (addrOf s c l) size n pol (packData size ws) 0)))
  let s := walkedAll s a (refusedVas rs)
  decideLanes c s rs <|
    let xs := accsOf rs
    let commits := outside xs || decide (k = .stmc) || (match rel with | some sc => decide (sc > 1) | none => false)
    withCommit c (commits && !xs.isEmpty) s (popAll s c.w c.sp.mask (spec.reads c.f)) (fun s1 =>
      startStore c (xs.map (·.2)) (.store (markWhole (xs.map (·.2))) rel none none) (touchAll s1 a k xs))
def execSt (f : Fields) (s : State) := issue specSt f s (stBody specSt .store (vecN f) (polOf f) none)
def execStr (f : Fields) (s : State) := issue specStr f s (stBody specStr .str 1 0 (some (scopeOf f)))
def execStmc (f : Fields) (s : State) := issue specStmc f s (stBody specStmc .stmc 1 0 none)

/-! ### Tile store and cluster (R197, R198) -/

/-- The live block of a rank in the cluster of block b (R198). -/
def clusterBlock (s : State) (b rank : Nat) : Option Nat :=
  let x := getBlock s b
  if x.rank = rank then some b
  else ((s.blocks.filter (fun e => decide (e.2.state ≠ 0) && !e.2.killed && decide (e.2.cluster = x.cluster) && decide (e.2.die = x.die) &&
    decide (e.2.rank = rank) && decide (x.cluster ≠ 0))).head?).map (·.1)

/-- The check of a lane's tile-store access: alignment, then range (R197, R198). -/
def tileLane (s : State) (c : Ctx) (remote : Bool) (lane : Nat) (addr : Word) (size n data : Nat) : LaneChk :=
  let off := addr.toNat
  let w := size * n
  let out : LaneChk := .trap 3 causeIllegalOperand 0x02 addr
  if off % w ≠ 0 then .trap 2 causeAlign 0 addr
  else
    let tgt := if remote then (if off ≥ 2 ^ 22 then none else clusterBlock s (blkOf c.w) (off / 2 ^ 19)) else some (blkOf c.w)
    match tgt with
    | none => out
    | some b =>
      let o := if remote then off % 2 ^ 19 else off
      if o + w > (getBlock s b).tsbytes then out
      else .ok { tgt := 0, coh := 0, ver := false, rep := false, chk := false, cls := 0, u := true, x := false, w := true, r := true,
                 bits := 19, base := 0, peer := 0, level := 0, entry := 0, abit := 0, dbit := 0 }
               { lane := lane, va := off, key := tileBase b + o, size := size, n := n, sw := false, pol := 0, data := data, left := List.range n, also := [], cmp := 0, ver := none, hand := none }

/-- ldl and ldc. -/
def ldlBody (spec : OpSpec) (remote : Bool) (c : Ctx) (s : State) : State :=
  let n := vecN c.f
  let rs := (computeLanes c).map (fun l => (l, loadLane s c [opA s c l, opB s c l] l (fun _ =>
    tileLane s c remote l (addrOf s c l) (tyBytes c.f.ty) n 0)))
  let settled := settledOf rs
  decideLanes c s rs <|
  match settledPoison c settled with
  | some r => raise c r s
  | none =>
    let accs := opAccs rs
    pushGate c (accs.map (·.lane)) s <|
    let s1 := popAll s c.w c.sp.mask (spec.reads c.f)
    if accs.isEmpty then (if isQ c.f.d then settleAll c settled s1 else advance c (settleGroup c n settled s1))
    else startLoad c n accs (.load accs c.f.ty c.f.d.toNat n none) none (if isQ c.f.d then s1 else settleGroup c n settled s1)
def execLdl (f : Fields) (s : State) := issue specLdl f s (ldlBody specLdl false)
def execLdc (f : Fields) (s : State) := issue specLdc f s (ldlBody specLdc true)

/-- stl and stc. -/
def stlBody (spec : OpSpec) (remote : Bool) (c : Ctx) (s : State) : State :=
  let n := vecN c.f
  let size := tyBytes c.f.ty
  let rs := (actives c).map (fun l =>
    let ws := dataWords s c n l
    (l, storeLane ([opA s c l, opB s c l] ++ ws) (fun _ => tileLane s c remote l (addrOf s c l) size n (packData size ws))))
  decideLanes c s rs <|
    let accs := (accsOf rs).map (·.2)
    startStore c accs (.store accs none none none) (popAll s c.w c.sp.mask (spec.reads c.f))
def execStl (f : Fields) (s : State) := issue specStl f s (stlBody specStl false)
def execStc (f : Fields) (s : State) := issue specStc f s (stlBody specStc true)

/-! ### Streams (R199 to R201) -/

/-- Outstanding operations of a lane. -/
def laneOps (s : State) (w lane : Nat) : List Nat := (s.ops.filter (fun o => decide (o.w = w) && o.lanes.getLsbD lane)).map (·.id)

/-- The queue a lane holds after ldq or stq, if it changes. -/
def armQueue (s : State) (c : Ctx) (kind lane : Nat) : Option Queue :=
  let a := opA s c lane
  let b := opB s c lane
  let d := opC s c lane
  match tagRule [a, b, d] with
  | .nullified => none
  | .poisoned p => some { Queue.idle with kind := 1, ty := c.f.ty, left := 1, entries := [⟨.x, p⟩] }
  | .normal =>
    let n := d.data.toNat % 2 ^ 32
    if n = 0 then some Queue.idle
    else some { kind := kind, ty := c.f.ty, addr := a.data, stride := b.data, left := n, toFetch := if kind = 1 then n else 0,
                after := laneOps s c.w lane, entries := [], denied := [] }

/-- ldq and stq: X traps in stq; a base or a stride that is no multiple of the element size traps (R199, R201). -/
def armBody (kind : Nat) (c : Ctx) (s : State) : State :=
  let q := c.f.d.toNat - 0xE0
  let size := tyBytes c.f.ty
  let rs := (actives c).map (fun l =>
    let a := opA s c l
    let b := opB s c l
    (l, match tagRule [a, b, opC s c l] with
      | .nullified => LaneChk.settled none
      | .poisoned p => if kind = 2 then .trap 1 causePoison 0 p else .settled none
      | .normal => if a.data.toNat % size ≠ 0 ∨ b.data.toNat % size ≠ 0 then .trap 2 causeAlign 0 a.data else .settled none))
  decideLanes c s rs <|
    let qs := (actives c).filterMap (fun l => (armQueue s c kind l).map (fun x => (l, x)))
    advance c (qs.foldl (fun s e => setQueue s c.w e.1 q e.2) (popAll s c.w c.sp.mask [c.f.a, c.f.b, c.f.c]))
def execLdq (f : Fields) (s : State) := issue specLdq f s (armBody 1)
def execStq (f : Fields) (s : State) := issue specStq f s (armBody 2)

/-! ### prf, winv, wbk (R203, R204) -/

/-- prf has no effect on any value read (R203). -/
def execPrf (f : Fields) (s : State) := issue specPrf f s fun c s => advance c (popAll s c.w c.sp.mask (specPrf.reads c.f))

/-- winv and wbk: an operation on ST over the range [A + B, A + B + C[31:0]). -/
def maintBody (inv : Bool) (c : Ctx) (s : State) : State :=
  let l := lowLane c.sp.mask
  match tagRule [opA s c l, opB s c l, opC s c l] with
  | .nullified => advance c s
  | .poisoned p => raise c (poisonTrap c.sp.mask ((actives c).map (fun l => (l, p)))) s
  | .normal =>
    let len := (opC s c l).data.toNat % 2 ^ 32
    if len = 0 then advance c s
    else advance c (startOp s c.w c.sp.mask (some .st) [] (.maint inv (scopeOf c.f) (addrOf s c l).toNat len))
def execWinv (f : Fields) (s : State) := issue specWinv f s (maintBody true)
def execWbk (f : Fields) (s : State) := issue specWbk f s (maintBody false)

/-! ### Fences (R225, R226) -/

/-- Order in MOD[5:4]. -/
def specFence : OpSpec := { specMem 0x10D with md := mdBits 0x37 }

/-- Operations of a split's threads that are plain accesses, atomics or maintenance; loads and returning atomics among them (R225). -/
def accessOps (s : State) (w : Nat) (m : Mask) : List Op :=
  s.ops.filter (fun o => decide (o.w = w) && decide (o.lanes &&& m ≠ 0) && (match o.kind with
    | .load .. => true
    | .store .. => true
    | .atomic .. => true
    | .maint .. => true
    | _ => false))
def loadOps (s : State) (w : Nat) (m : Mask) : List Op := (accessOps s w m).filter (fun o => decide (o.cls = some .ld))

def fenceRel (ord : Nat) : Bool := decide (ord ≠ 0)
def fenceAcq (ord : Nat) : Bool := decide (ord ≠ 1)

/-- The conditions of the fence hold. -/
def fenceMet (s : State) (w : Nat) (m : Mask) (ord : Nat) : Bool :=
  if fenceRel ord then (accessOps s w m).isEmpty else (loadOps s w m).isEmpty

/-- R226: an SC fence comes after every SC fence before it: it acquires their marks, and its own mark joins them. -/
def scAfter (s : State) (b scope : Nat) : State := acquireAll s b scope s.scMarks

/-- What the fence does once its conditions hold: write-back and invalidation of SW lines, and its part in the race tables. What it acquires,
from loads of its threads or from earlier SC fences, its release passes on (R211, R212, R220, R225). Its place in the SC order is the order of
these steps (R226). -/
def fenceDo (s : State) (w : Nat) (m : Mask) (ord scope : Nat) : State :=
  let die := dieOf s w
  let b := blkOf w
  let s := if fenceRel ord then wbScope s die scope (fun _ => true) else s
  let s := if fenceAcq ord then
      acquireAll (invScope s die scope (fun _ => true)) b scope ((lanesOf m).flatMap (fun l => sget [] s.seen (lkey w l))).dedup
    else s
  let s := if ord = 3 then scAfter s b scope else s
  if fenceRel ord then
    let r := performRelease s b scope
    let s1 := { r.1 with fenceMarks := ssetAll [] r.1.fenceMarks ((lanesOf m).map (fun l => (lkey w l, r.2 :: laneMarks r.1 w l))) }
    if ord = 3 then { s1 with scMarks := r.2 :: s1.scMarks.filter (fun x => !(decide (x.blk = b) && decide (x.scope = scope))) } else s1
  else s

/-- fence (R225). A release wider than block makes a restartable block commit (R448). -/
def fenceBody (c : Ctx) (s : State) : State :=
  let ord := c.f.md.toNat / 16 % 4
  let scope := c.f.md.toNat % 8
  withCommit c (fenceRel ord && decide (scope > 1)) s s fun s =>
    if fenceMet s c.w c.sp.mask ord then advance c (fenceDo s c.w c.sp.mask ord scope) else suspend c (.fence ord scope) s
def execFence (f : Fields) (s : State) := issue specFence f s fenceBody

/-! ### Channels (R228 to R232) -/

def chanNo (f : Fields) : Nat := (modOf f).toNat % 16
def chanKey (w k : Nat) : Nat := 16 * blkOf w + k
/-- 0 closed, die + 1 open. -/
def getChan (s : State) (w k : Nat) : Nat := sget 0 s.chans (chanKey w k)
def setChan (s : State) (w k v : Nat) : State := { s with chans := sset 0 s.chans (chanKey w k) v }

def specChopen : OpSpec := { specMem 0x10E with a := scalarA, md := mdBits 0xF, reads := rdA }
def specChfence : OpSpec := { specMem 0x110 with md := mdBits 0xF }
def specChclose : OpSpec := { specMem 0x111 with md := mdBits 0xF }

/-- chopen (R229). -/
def chopenBody (c : Ctx) (s : State) : State :=
  let a := opA s c (lowLane c.sp.mask)
  match a.tag with
  | .n => advance c s
  | .x => raise c (poisonTrap c.sp.mask ((actives c).map (fun l => (l, a.data)))) s
  | .v =>
    if a.data.toNat ≥ 8 then raiseAll c causeChannel 0x04 s
    else if getChan s c.w (chanNo c.f) ≠ 0 then raiseAll c causeChannel 0x02 s
    else advance c (setChan s c.w (chanNo c.f) (a.data.toNat + 1))
def execChopen (f : Fields) (s : State) := issue specChopen f s chopenBody

/-- A lane of chst: the page must be HW, local, without REP and VER, and homed on the channel's die; this check stands between steps 4
and 5 of R182, which the doubled step numbers leave room for (R230). -/
def chstLane (die : Nat) (r : LaneChk) : LaneChk :=
  match r with
  | .ok l acc =>
    if l.coh ≠ 0 ∨ l.tgt ≠ 0 ∨ l.rep ∨ l.ver ∨ acc.key / 2 ^ 39 % 8 ≠ die then .trap 9 causeChannel 0x03 (BitVec.ofNat 64 acc.va) else r
  | .trap st cause sub v => .trap (2 * st) cause sub v
  | _ => r

/-- The page of a lane, if its leaf is read without a trap, for the channel check when a later step fails. -/
def chstPage (s : State) (a : Agent) (die va : Nat) : Bool :=
  match lookup s a.die a.space va with
  | .leaf l => decide (l.coh = 0) && decide (l.tgt = 0) && !l.rep && !l.ver && decide (leafKey s a.die l va / 2 ^ 39 % 8 = die)
  | _ => true

/-- chst (R230). -/
def chstBody (c : Ctx) (s : State) : State :=
  let a := agentC c s
  let k := chanNo c.f
  let size := tyBytes c.f.ty
  let ch := getChan s c.w k
  if ch = 0 then raiseAll c causeChannel 0x01 s
  else
    let rs := (actives c).map (fun l =>
      let d := opC s c l
      (l, match chstLane (ch - 1) (storeLane [opA s c l, opB s c l, d] (fun _ => chkLane s a .store l (addrOf s c l) size 1 0 (packData size [d]) 0)) with
        | .trap st cause sub v => if st > 9 ∧ !chstPage s a (ch - 1) v.toNat then LaneChk.trap 9 causeChannel 0x03 v else .trap st cause sub v
        | .wait (.frame ..) => .trap 9 causeChannel 0x03 (addrOf s c l)
        | r => r))
    let s := walkedAll s a (((trapsOf rs).filter (fun e => decide (e.2.1 ≥ 6))).map (fun e => e.2.2.2.2.toNat))
    decideLanes c s rs <|
      let xs := accsOf rs
      withCommit c (!xs.isEmpty) s (popAll s c.w c.sp.mask (specChst.reads c.f)) (fun s1 =>
        startStore c (xs.map (·.2)) (.store (xs.map (·.2)) none (some k) none) (touchAll s1 a .store xs))
def execChst (f : Fields) (s : State) := issue specChst f s chstBody

/-- Outstanding stores of a block's channel. -/
def chanOps (s : State) (b k : Nat) : List Nat :=
  (s.ops.filter (fun o => decide (blkOf o.w = b) && (match o.kind with | .store _ _ (some k') _ => decide (k' = k) | _ => false))).map (·.id)

/-- chfence and chclose (R232). -/
def chfenceBody (close : Bool) (c : Ctx) (s : State) : State :=
  let k := chanNo c.f
  if getChan s c.w k = 0 then raiseAll c causeChannel 0x01 s
  else
    match chanOps s (blkOf c.w) k with
    | [] => advance c (if close then setChan s c.w k 0 else s)
    | ids => suspend c (.channel k close ids) s
def execChfence (f : Fields) (s : State) := issue specChfence f s (chfenceBody false)
def execChclose (f : Fields) (s : State) := issue specChclose f s (chfenceBody true)

end Sys2Proof.Machine
end

