-- ==== Sys2Proof/Machine/Atomic.lean ====
section
/-!
DEFINITION. The atomic instructions 0x120 to 0x125 at issue, and the update they perform (R240 to R251).
-/
namespace Sys2Proof.Machine

/-! ### Rows (R244) -/

def atomOpCode (f : Fields) : Nat := (modOf f).toNat / 256 % 16
def ordAcq (f : Fields) : Bool := (modOf f).getLsbD 4
def ordRel (f : Fields) : Bool := (modOf f).getLsbD 5

/-- TY of an update: and, or, xor take integers only, with subcode 0x05 (R245). -/
def tyAtom : Chk := Chk.and (tyIn 0x3CC) (chkIf 0x05 (fun e => !(decide (3 ≤ atomOpCode e.f ∧ atomOpCode e.f ≤ 5) && decide (e.f.ty.toNat ≥ 8))))
/-- The op field holds an assigned code. -/
def opAssigned : Chk := chkIf 0x04 (fun e => decide (atomOpCode e.f ≤ 6))
/-- The counter: LD, or ST for the non-returning form. -/
def atomCnt (f : Fields) : Option Counter := if isZ f.d then some .st else some .ld

def specAtomRow (op : BitVec 9) (bits : BitVec 16) : OpSpec :=
  { specMem op with d := dstD, a := srcA, b := immB, c := immC, ty := tyAtom, md := Chk.and (mdBits bits) opAssigned, reads := rdABC, cnt := some .ld }
def specAtom : OpSpec := specAtomRow 0x120 0xF37
def specAtoml : OpSpec := specAtomRow 0x123 0xF00
def specFatom : OpSpec := specAtomRow 0x124 0xF37
/-- B and C that read registers and let the immediate form through to its own subcode 0x08. -/
def specCas : OpSpec :=
  { specMem 0x121 with d := dstD, a := srcA, b := immB, c := immC, ty := tyIn 0xCC, md := Chk.and noImm (mdBits 0x77), reads := rdABC, cnt := some .ld }

/-- The first register of a pair (R244). -/
def pairOf (dst : Bool) (get : Fields → BitVec 8) : Chk := fun e =>
  let x := get e.f
  if isImm x then (if dst then some 0x03 else none)
  else (badReg e x).or
    (if isV x then (if x.toNat + 1 ≥ e.vregs then some 0x02 else if isS e.f.d then some 0x04 else none)
     else if isZ x then none
     else if isS x ∧ x.toNat ≤ 0xDE then none else some 0x04)
/-- The codes of a pair. -/
def pairCodes (x : BitVec 8) : List (BitVec 8) := if isZ x then [x] else [x, x + 1]
def specCas2 : OpSpec :=
  { specMem 0x122 with
    d := pairOf true (·.d), a := srcA, b := pairOf false (·.b), c := pairOf false (·.c), ty := tyIn 0x80, md := Chk.and noImm (mdBits 0x77),
    reads := fun f => [f.a] ++ pairCodes f.b ++ pairCodes f.c, cnt := some .ld }
/-- fred: A scalar, D and B unused, ord 0 or 2 (R244, R248). -/
def specFred : OpSpec :=
  { specMem 0x125 with
    a := scalarA, b := fun e => if isImm e.f.b then none else unusedB e, c := immC', ty := tyAtom,
    md := Chk.and noImm (Chk.and (mdBits 0xF37) (Chk.and opAssigned (chkIf 0x04 (fun e => !ordAcq e.f)))),
    reads := fun f => [f.a, f.c], cnt := some .st }

/-! ### The update (R245) -/

/-- New value bits from the old and the operand, over the width of TY. -/
def atomNew (op : Nat) (ty : BitVec 4) (old c : Nat) : Nat :=
  let w := 8 * tyBytes ty
  let fp := decide (ty.toNat ≥ 8)
  let k := fmtOf ty.toNat
  let vo := unpack k old
  let vc := unpack k c
  let lesser := if fp then (minmaxVal false false k vo vc).bits
    else if rdTy ty (BitVec.ofNat 64 old) ≤ rdTy ty (BitVec.ofNat 64 c) then old else c
  let greater := if fp then (minmaxVal true false k vo vc).bits
    else if rdTy ty (BitVec.ofNat 64 old) ≥ rdTy ty (BitVec.ofNat 64 c) then old else c
  let sum := if fp then (match firstNaN k k [vo, vc] with | some r => r.bits | none => (roundSum k .rne false [vo, vc]).bits) else old + c
  (match op with
    | 0 => sum
    | 1 => lesser
    | 2 => greater
    | 3 => old &&& c
    | 4 => old ||| c
    | 5 => old ^^^ c
    | _ => c) % 2 ^ w

/-! ### Issue -/

/-- A lane of an atomic: N nullifies, keeping D's data under N; X traps (R243). -/
def atomLane (s : State) (c : Ctx) (xs : List TWord) (lane : Nat) (go : Unit → LaneChk) : LaneChk :=
  match tagRule xs with
  | .nullified => .settled (if isZ c.f.d then none else some ⟨.n, (rdReg s c.w c.f.d.toNat lane).data⟩)
  | .poisoned p => .trap 1 causePoison 0 p
  | .normal => go ()

/-- Starts an atomic: on LD with D, or on ST. -/
def startAtomic (c : Ctx) (n : Nat) (accs : List Acc) (a : AtomArgs) (s : State) : State :=
  if accs.isEmpty then advance c s
  else if isZ c.f.d then
    let id := s.nextOp
    let s1 := stampOp c (startOp s c.w (maskOf (fun l => accs.any (fun x => x.lane = l))) (some .st) [] (.atomic accs a))
    advance c (if a.acq then setSplit s1 c.w c.k { getSplit s1 c.w c.k with hold := id :: (getSplit s1 c.w c.k).hold } else s1)
  else startLoad c n accs (.atomic accs a) (if a.acq then some a.scope else none) s

/-- The lanes of an atomic: every active lane of a non-returning form. -/
def atomLanes (c : Ctx) : List Nat := computeLanes c

/-- The arguments of the word's atomic. -/
def atomArgs (c : Ctx) (kind : Nat) : AtomArgs :=
  { kind := kind, op := atomOpCode c.f, ty := c.f.ty, acq := ordAcq c.f, rel := ordRel c.f, scope := scopeOf c.f,
    cond := decide (kind = 1 ∨ kind = 2) && c.f.md.getLsbD 6, d := if isZ c.f.d then none else some c.f.d.toNat }

/-- Finishes the issue of an atomic. An atomic on global memory makes a restartable block commit (R448). -/
def issueAtomic (spec : OpSpec) (c : Ctx) (n : Nat) (k : AKind) (glob : Bool) (args : AtomArgs) (rs : List (Nat × LaneChk)) (s : State) : State :=
  let a := agentC c s
  let s := if glob then walkedAll s a (refusedVas rs) else s
  decideLanes c s rs <|
    let xs := accsOf rs
    let go := withCommit c (glob && !xs.isEmpty) s (popAll s c.w c.sp.mask (spec.reads c.f)) (fun s1 =>
      let s2 := if glob then touchAll s1 a k xs else s1
      let ws := settledOf rs
      if isQ c.f.d && xs.isEmpty then settleAll c ws s2
      else startAtomic c n (xs.map (·.2)) args (if isZ c.f.d || isQ c.f.d then s2 else settleGroup c n ws s2))
    if isZ c.f.d then go else pushGate c (xs.map (·.2.lane)) s go

/-- atom and fatom (R246). -/
def atomBody (spec : OpSpec) (kind : Nat) (k : AKind) (c : Ctx) (s : State) : State :=
  let a := agentC c s
  let size := tyBytes c.f.ty
  let rs := (atomLanes c).map (fun l =>
    let d := opC s c l
    (l, atomLane s c [opA s c l, opB s c l, d] l (fun _ => chkLane s a k l (addrOf s c l) size 1 0 (packData size [d]) 0)))
  issueAtomic spec c 1 k true (atomArgs c kind) rs s
def execAtom (f : Fields) (s : State) := issue { specAtom with cnt := atomCnt f } f s (atomBody specAtom 0 .near)
def execFatom (f : Fields) (s : State) := issue { specFatom with cnt := atomCnt f } f s (atomBody specFatom 3 .far)

/-- atoml (R250). -/
def atomlBody (c : Ctx) (s : State) : State :=
  let size := tyBytes c.f.ty
  let rs := (atomLanes c).map (fun l =>
    let d := opC s c l
    (l, atomLane s c [opA s c l, opB s c l, d] l (fun _ => tileLane s c false l (addrOf s c l) size 1 (packData size [d]))))
  issueAtomic specAtoml c 1 .near false (atomArgs c 5) rs s
def execAtoml (f : Fields) (s : State) := issue { specAtoml with cnt := atomCnt f } f s atomlBody

/-- The words of a pair in a lane: `zero` is a 128-bit zero (R244). -/
def pairWords (s : State) (c : Ctx) (x : BitVec 8) (l : Nat) : List TWord :=
  if isZ x then [TWord.zero, TWord.zero] else [readC s c x.toNat l, readC s c (x.toNat + 1) l]

/-- cas (R247). -/
def casBody (c : Ctx) (s : State) : State :=
  let a := agentC c s
  let size := tyBytes c.f.ty
  let rs := (atomLanes c).map (fun l =>
    let x := opA s c l
    let b := opB s c l
    let d := opC s c l
    (l, atomLane s c [x, b, d] l (fun _ => chkLane s a .near l x.data size 1 0 (packData size [d]) (packData size [b]))))
  issueAtomic specCas c 1 .near true (atomArgs c 1) rs s
def execCas (f : Fields) (s : State) := issue { specCas with cnt := atomCnt f } f s casBody

/-- cas2 (R247): 16 bytes, D and D + 1, or D alone with .c. -/
def cas2Body (c : Ctx) (s : State) : State :=
  let a := agentC c s
  let args := atomArgs c 2
  let rs := (atomLanes c).map (fun l =>
    let x := opA s c l
    let b := pairWords s c c.f.b l
    let d := pairWords s c c.f.c l
    (l, atomLane s c (x :: (b ++ d)) l (fun _ => chkLane s a .near l x.data 8 2 0 (packData 8 d) (packData 8 b))))
  issueAtomic specCas2 c (if args.cond then 1 else 2) .near true args rs s
def execCas2 (f : Fields) (s : State) := issue { specCas2 with cnt := atomCnt f } f s cas2Body

/-- fred (R248): A is scalar and its tag counts for every lane (R35, R243); lane l supplies the element at A + l w/8; A is aligned to 32 elements. -/
def fredBody (c : Ctx) (s : State) : State :=
  let a := agentC c s
  let size := tyBytes c.f.ty
  let x := opA s c (lowLane c.sp.mask)
  let rs := (actives c).map (fun l =>
    let d := opC s c l
    (l, storeLane [x, d] (fun _ =>
      if x.data.toNat % (32 * size) ≠ 0 then .trap 2 causeAlign 0 x.data
      else chkLane s a .far l (x.data + BitVec.ofNat 64 (l * size)) size 1 0 (packData size [d]) 0)))
  issueAtomic specFred c 1 .far true (atomArgs c 4) rs s
def execFred (f : Fields) (s : State) := issue specFred f s fredBody

end Sys2Proof.Machine
end

