-- ==== Sys2Proof/Machine/Objects.lean ====
section
/-!
DEFINITION. Arrival objects and barriers: the updates of an object, the completion of a phase and the waits it satisfies (R252 to
R255, R261, R263), and the end of threads (R168).
-/
namespace Sys2Proof.Machine

def aoKey (b k : Nat) : Nat := 64 * b + k
def getAo (s : State) (b k : Nat) : AObj := sget AObj.init s.aos (aoKey b k)
def setAo (s : State) (b k : Nat) (o : AObj) : State := { s with aos := sset AObj.init s.aos (aoKey b k) o }
def getCbar (s : State) (cl : Nat) : AObj := sget AObj.init s.cbars cl
def setCbar (s : State) (cl : Nat) (o : AObj) : State := { s with cbars := sset AObj.init s.cbars cl o }

/-! ### One object (R253, R254) -/

/-- Sets status bits of one operation with its tag; an operation that sets any of bits 15:13 or 11:8 counts once as failed (R253). -/
def aoFlag (st : Word) (flags tag : Nat) : Word :=
  let v := st.toNat
  let bits := (v % 2 ^ 16 ||| (flags &&& 0xFF00)) / 256 % 256
  let fails := v % 256
  let failed := decide (flags &&& 0xEF00 ≠ 0)
  let optag := if failed ∧ fails = 0 then tag % 2 ^ 32 else v / 2 ^ 32
  BitVec.ofNat 64 (optag * 2 ^ 32 + bits * 256 + (if failed then min 255 (fails + 1) else fails))

/-- Completes the phase when the arrivals are in and nothing is owed (R254). -/
def aoTest (o : AObj) : AObj :=
  if o.arrived = o.expected ∧ o.due = 0 then
    { o with phase := !o.phase, arrived := 0, prev := o.marks, marks := [], record := [] }
  else o

/-- One indivisible update: c arrivals, a change of due, flags and the tag of the operation (R254). -/
def aoUpdate (o : AObj) (c : Nat) (n : Int) (flags tag : Nat) (marks : List Mark) : AObj :=
  let above := decide (o.arrived + c > o.expected)
  let d := o.due + n
  let out := decide (d < -2 ^ 31 ∨ 2 ^ 31 ≤ d)
  let f := if above || out then flags ||| 0x8000 else flags
  aoTest { o with arrived := min o.expected (o.arrived + c), due := max (-2 ^ 31) (min (2 ^ 31 - 1) d), status := aoFlag o.status f tag,
                  marks := (marks ++ o.marks).dedup }

/-- The tag of an instruction word (R253). -/
def opTag (pc : BitVec 56) : Nat := pc.toNat / 8 % 2 ^ 32

/-! ### Waits (R255, R260 to R263) -/

/-- The wait of a split after the object's phase: satisfied with its scope, or as it is. -/
def waitAfter (k : Nat) (o : AObj) (sp : Split) (w : Nat) : Split × Option Nat :=
  match sp.susp with
  | some (.arrival k' p sc) => if k' = k ∧ p ≠ o.phase then ({ sp with susp := some (.satisfied k none sc) }, some sc) else (sp, none)
  | some (.token k' t d sc) => if k' = k ∧ t ≠ o.phase then ({ sp with susp := some (.satisfied k d sc) }, some sc) else (sp, none)
  | some (.cluster p sc) => if k = 64 ∧ p ≠ o.phase then ({ sp with susp := some (.satisfied k none sc) }, some sc) else (sp, none)
  | some (.resumed k' p sc) => if k' = k ∧ p ≠ o.phase then (sp, some sc) else (sp, none)
  | some (.again cl) =>
    if k = (if cl then 64 else 0) ∧ !(lanesOf sp.mask).any (fun l => o.record.contains (lkey w l)) then ({ sp with susp := none }, none)
    else (sp, none)
  | _ => (sp, none)

/-- Ends the waits of a block's splits that an object's phase satisfies; each acquires what the phase released (R255). -/
def wakeWaits (s : State) (b k : Nat) (o : AObj) : State :=
  let mine := s.warps.filter (fun e => blkOf e.1 = b)
  let scopes := mine.flatMap (fun e => e.2.splits.filterMap (fun x => (waitAfter k o x.2 e.1).2))
  let s1 := { s with warps := s.warps.map (fun e =>
    if blkOf e.1 = b then (e.1, { e.2 with splits := e.2.splits.map (fun x => (x.1, (waitAfter k o x.2 e.1).1)) }) else e) }
  scopes.foldl (fun s sc => acquireAll s b sc o.prev) s1

/-- Blocks of a cluster. -/
def clusterBlocks (s : State) (cl : Nat) : List Nat := (s.blocks.filter (fun e => decide (e.2.cluster = cl) && decide (e.2.state ≠ 0))).map (·.1)

/-- Puts an object back after an update and ends the waits it satisfies. -/
def putAo (s : State) (b k : Nat) (o : AObj) : State := wakeWaits (setAo s b k o) b k o
def putCbar (s : State) (cl : Nat) (o : AObj) : State := (clusterBlocks s cl).foldl (fun s b => wakeWaits s b 64 o) (setCbar s cl o)

/-- An engine completion at object K of block b: arrivals, bytes, flags, tag, and the marks of the release of its writes (R254, R255).
The object of a block that has been killed takes no update (R446). -/
def aoEngine (s : State) (b k c n flags tag : Nat) (ms : List Mark) : State :=
  let x := getBlock s b
  if x.state = 0 ∨ x.killed then s else putAo s b k (aoUpdate (getAo s b k) c (-(n : Int)) flags tag ms)

/-- A block is saved, or traffic held for it is still to be applied (R287). -/
def heldFor (s : State) (b : Nat) : Bool := decide ((getBlock s b).state ≥ 2) || s.fwd.any (fun e => e.1 = b)

/-- An engine completion, held for a saved block (R267, R287). -/
def aoSignal (s : State) (b k c n flags tag : Nat) (ms : List Mark) : State :=
  if heldFor s b then { s with fwd := s.fwd ++ [(b, .obj k c n flags tag ms)] } else aoEngine s b k c n flags tag ms

/-- Bytes for a block's tile store, held for a saved block. -/
def tileSend (s : State) (b off n data : Nat) : State :=
  if heldFor s b then { s with fwd := s.fwd ++ [(b, .bytes off n data)] } else wrMem s (tileBase b + off) n data

/-- A half byte placed in a byte. -/
def putHalf (old : Nat) (k v : Nat) : Nat := if k % 2 = 0 then old / 16 * 16 + v % 16 else v % 16 * 16 + old % 16

/-- Writes a half byte of a block's tile store. -/
def writeHalf (s : State) (b pos data : Nat) : State :=
  wrMem s (tileBase b + pos / 2) 1 (putHalf (rdByte s (tileBase b + pos / 2)).toNat pos data)

/-- A half byte for a block's tile store, held for a saved block. -/
def halfSend (s : State) (b pos data : Nat) : State :=
  if heldFor s b then { s with fwd := s.fwd ++ [(b, .half pos data)] } else writeHalf s b pos data

/-- A registration at issue (R254). -/
def aoRegister (s : State) (b k n tag : Nat) : State := putAo s b k (aoUpdate (getAo s b k) 0 (n : Int) 0 tag [])

/-! ### Thread arrivals -/

/-- The object an arrival names: 64 is the cluster barrier of the block. -/
def objOf (s : State) (b k : Nat) : AObj := if k = 64 then getCbar s (getBlock s b).cluster else getAo s b k
def putObj (s : State) (b k : Nat) (o : AObj) : State := if k = 64 then putCbar s (getBlock s b).cluster o else putAo s b k o

/-- Notes an arrival of a cycle, which an initialisation in the same cycle comes before (R258). -/
def aoNote (o : AObj) (t n : Nat) (ls : List Nat) (ms : List Mark) : AObj :=
  if o.cyc = t then { o with arrivals := o.arrivals ++ [(n, ls, ms)] } else { o with cyc := t, arrivals := [(n, ls, ms)], woken := [] }

/-- The waits of a block's splits that an object's phase ends, by warp and split entry. -/
def endedWaits (s : State) (b k : Nat) (o : AObj) : List (Nat × Nat × Wait) :=
  (s.warps.filter (fun e => blkOf e.1 = b)).flatMap (fun e => e.2.splits.filterMap (fun x =>
    if (waitAfter k o x.2 e.1).1.susp = x.2.susp then none else x.2.susp.map (fun y => (e.1, x.1, y))))

/-- Performs an arrival: a release of its threads at its scope, then the count (R255). -/
def arriveNow (s : State) (w : Nat) (m : Mask) (k n scope tag : Nat) : State :=
  let b := blkOf w
  let r := performRelease (wbScope s (dieOf s w) scope (fun _ => true)) b scope
  let ms := r.2 :: (lanesOf m).flatMap (fun l => laneMarks r.1 w l)
  let o := aoUpdate (aoNote (objOf r.1 b k) (getCore s (coreOf s w)).cyc n (if k = 0 then (lanesOf m).map (lkey w) else []) ms) n 0 0 tag ms
  putObj r.1 b k { o with woken := o.woken ++ endedWaits r.1 b k o }

/-- Performs the arrivals whose threads' earlier accesses are done (R224). -/
def settleArrivals (s : State) : State :=
  (s.ops.filter (fun o => match o.kind with | .arrive .. => true | _ => false)).foldl (fun s o =>
    match o.kind with
    | .arrive k n scope tag =>
      if (accessOps s o.w o.lanes).any (fun e => decide (e.id < o.id)) then s
      else arriveNow (endOp s o.id) o.w o.lanes k (if k = 0 ∨ k = 64 then min n (laneCount o.lanes) else n) scope tag
    | _ => s) s

/-- Makes an arrival of a split: at once when none of its threads' accesses is outstanding, otherwise after them. Lanes that arrive
at a barrier are recorded (R261). -/
def arrive (s : State) (w : Nat) (m : Mask) (k n scope tag : Nat) : State :=
  let b := blkOf w
  let s := if k = 0 ∨ k = 64 then
      let o := objOf s b k
      (if k = 64 then setCbar s (getBlock s b).cluster { o with record := (lanesOf m).map (lkey w) ++ o.record }
       else setAo s b k { o with record := (lanesOf m).map (lkey w) ++ o.record })
    else s
  if (accessOps s w m).isEmpty then arriveNow s w m k n scope tag
  else startOp s w m none [] (.arrive k n scope tag)

/-! ### The end of threads (R168, R261, R263) -/

/-- One thread leaves a barrier's count: its arrival of the phase is withdrawn, whether performed or still to be (R261). -/
def leaveObj (s : State) (w k lane : Nat) : State :=
  let b := blkOf w
  let o := objOf s b k
  let pending (x : Op) : Bool := decide (x.w = w) && x.lanes.getLsbD lane && (match x.kind with | .arrive k' .. => decide (k' = k) | _ => false)
  let had := o.record.contains (lkey w lane)
  let wasPending := s.ops.any pending
  let s1 := { s with ops := s.ops.map (fun x => if pending x then { x with lanes := x.lanes &&& ~~~(BitVec.twoPow 32 lane) } else x) }
  putObj s1 b k (aoTest { o with expected := o.expected - 1, record := o.record.filter (fun e => e ≠ lkey w lane),
                                 arrived := if had && !wasPending then o.arrived - 1 else o.arrived })

/-- A warp without splits and without outstanding operations ends (R168). -/
def endWarp (s : State) (w : Nat) : State :=
  let wp := getWarp s w
  if wp.live && wp.splits.isEmpty && !(getBlock s (blkOf w)).disp && !s.ops.any (fun o => o.w = w) then setWarp s w { wp with live := false } else s

/-- The lanes given leave the barriers of their block and cluster. -/
def leaveLanes (s : State) (w : Nat) (m : Mask) : State :=
  (lanesOf m).foldl (fun s l => leaveObj (leaveObj s w 0 l) w 64 l) s

/-! ### Engine operations that name an object -/

/-- The object an engine operation names (R254, R258). -/
def kindObj (k : OpKind) : Option Nat :=
  match k with
  | .copy c => if c.obj ≠ 0 then some c.obj else none
  | .matrix m => if m.obj ≠ 0 then some m.obj else none
  | .halo x => if x.obj ≠ 0 then some x.obj else none
  | .coll x => if x.obj ≠ 0 then some x.obj else none
  | _ => none

/-- An engine operation of the block that names object K is outstanding (R258). -/
def engineNames (s : State) (b k : Nat) : Bool := s.ops.any (fun o => decide (blkOf o.w = b) && decide (kindObj o.kind = some k))

end Sys2Proof.Machine
end

