-- ==== Sys2Proof/Machine/Regs.lean ====
section
/-!
DEFINITION. Device register space (R454 to R459, R471, R474) and the host's submission window (R461): reads, and writes with their
immediate effects. The steps that a write starts are events of their own.
-/
namespace Sys2Proof.Machine

/-! ### Blocks of the space -/

def ringOf (s : State) (die : Nat) : PageRing := sget PageRing.init s.prq die
def setRing (s : State) (die : Nat) (r : PageRing) : State := { s with prq := sset PageRing.init s.prq die r }
def mboxOf (s : State) (i : Nat) : Word := sget 0#64 s.mgmt.mbox i

/-- Word i of a Vesper entry, as the log holds it. -/
def vword (e i : Nat) : Word := BitVec.ofNat 64 (e / 2 ^ (64 * i))

/-- A load of word i of entry position pos of a log by a thread: word 0 captures the entry, and words 1 to 3 of the captured entry come
from the capture (R459). -/
def vesperRead (s : State) (thread log pos i : Nat) : State × Word :=
  let k := 4096 * log + pos
  let live := sget 0 s.vents k
  if i = 0 then ({ s with vcap := sset none s.vcap thread (some (k, live)) }, vword live 0)
  else match sget none s.vcap thread with
    | some (k', e) => (s, vword (if k' = k then e else live) i)
    | none => (s, vword live i)

/-- A pool region's register (R457). -/
def poolWord (s : State) (r i : Nat) : Word :=
  let p := getPool s r
  match i with
  | 0 => p.rdev
  | 1 => p.rbase
  | 2 => p.rsize
  | 3 => BitVec.ofNat 64 p.rcmd
  | 4 => p.status
  | _ => 0

/-- A load of the register at an offset by a thread (R454). Unassigned offsets read 0. -/
def regRead (s : State) (thread off : Nat) : State × Word :=
  if off < 0x1000 then
    (s, match off with
      | 0x000 => s.pkg.pkgid
      | 0x008 => s.pkg.ualen
      | 0x010 => s.pkg.halotmo
      | 0x018 => s.pkg.poolen
      | 0x020 => s.pkg.linkst
      | _ => 0)
  else if 0x10000 ≤ off ∧ off < 0x11000 then (s, mboxOf s ((off - 0x10000) / 8))
  else if 0x20000 ≤ off ∧ off < 0x22000 then (s, sget 0#64 s.routes ((off - 0x20000) / 8))
  else if 0x40000 ≤ off ∧ off < 0x50000 then (s, poolWord s ((off - 0x40000) / 64) ((off - 0x40000) / 8 % 8))
  else if 0x80000 ≤ off ∧ off < 0x81000 then
    (s, match off - 0x80000 with
      | 0x00 => s.rsreg
      | 0x08 => s.rsdesc
      | 0x10 => s.rsstep
      | 0x20 => s.rsstat
      | _ => 0)
  else if 0xC0000 ≤ off ∧ off < 0xC4000 then
    let r := ringOf s ((off - 0xC0000) / 0x1000)
    let o := off % 0x1000
    (s, if o < 0x400 then BitVec.ofNat 64 (sget 0 r.ents (o / 16) / 2 ^ (64 * (o / 8 % 2)))
      else if o = 0x400 then BitVec.ofNat 64 r.post else if o = 0x408 then BitVec.ofNat 64 r.done else 0)
  else if 0x100000 ≤ off ∧ off < 0x100000 + 13 * 0x40000 then
    let log := (off - 0x100000) / 0x40000
    let o := off % 0x40000
    if o < 0x20000 then vesperRead s thread log (o / 32) (o / 8 % 4)
    else (s, if o = 0x20000 then BitVec.ofNat 64 (getVLog s log).count
      else if o = 0x20008 then BitVec.ofNat 64 (if log < 4 then (getVLog s log).dropped else 0) else 0)
  else (s, 0)

/-! ### Writes -/

def setPkg (s : State) (p : Pkg) : State := { s with pkg := p }

/-- pkgid: ignored while a UALink port is enabled (R455). -/
def writePkgid (s : State) (v : Word) : State :=
  if s.pkg.ualen &&& 0xFFFF = 0 then setPkg s { s.pkg with pkgid := v &&& 0x3FF } else s
/-- halotmo: 0 is stored as 1 (R455). -/
def writeHalotmo (s : State) (v : Word) : State :=
  setPkg s { s.pkg with halotmo := if v &&& 0xFFFF = 0 then 1 else v &&& 0xFFFF }
/-- A route entry (R456): reserved bits read as zero. -/
def writeRoute (s : State) (p : Nat) (v : Word) : State := { s with routes := sset 0#64 s.routes p (v &&& 0x10F) }

/-- A word of a pool region record: rdev, rbase and rsize while Absent, also while a command runs; rcmd starts a command unless one runs (R457). -/
def writePool (s : State) (r i : Nat) (v : Word) : State :=
  let p := getPool s r
  let put (q : PoolRegion) : State := { s with pools := sset PoolRegion.init s.pools r q }
  let idle := decide (p.status.toNat % 4 = 0)
  match i with
  | 0 => if idle then put { p with rdev := v &&& 0xF } else s
  | 1 => if idle then put { p with rbase := v } else s
  | 2 => if idle then put { p with rsize := v } else s
  | 3 =>
    if p.cmd ≠ 0 then s
    else
      let c := v.toNat % 4
      put (if 1 ≤ c then { p with rcmd := 3, cmd := c } else { p with rcmd := 2 })
  | _ => s

/-- rsgo: go starts a restore unless one runs (R458). -/
def startRestore (s : State) : State := if s.rsstat.toNat % 256 = 1 then s else { s with rsstat := 1 }

/-- A word of the command mailbox. A write of the command word with go starts a command; while one runs it answers busy (R471). -/
def writeMbox (s : State) (i : Nat) (v : Word) : State :=
  let m := s.mgmt
  if i = 0 then
    if v.getLsbD 8 then
      match m.running with
      | some _ => { s with mgmt := { m with mbox := sset 0#64 m.mbox 8 0x0200 } }
      | none =>
        let c := v.toNat % 256
        if c = 0 ∨ c > 6 then { s with mgmt := { m with mbox := sset 0#64 (sset 0#64 m.mbox 0 v) 8 0x0101 } }
        else { s with mgmt := { m with mbox := sset 0#64 (sset 0#64 m.mbox 0 v) 8 0, running := some c } }
    else { s with mgmt := { m with mbox := sset 0#64 m.mbox 0 v } }
  else if i < 8 then { s with mgmt := { m with mbox := sset 0#64 m.mbox i v } }
  else s

/-- prqdone (R474): every access stalled on a request numbered at or below the value walks again. -/
def writePrqdone (s : State) (die v : Nat) : State :=
  let s1 := setRing s die { ringOf s die with done := v }
  { s1 with stalls := s1.stalls.filter (fun y => !(decide (y.die = die) && !y.host && (match y.req with | some n => decide (n ≤ v) | none => false))) }

def getSlot (s : State) (die k : Nat) : HostSlot := sget HostSlot.init s.hslots (16 * die + k)
def setSlot (s : State) (die k : Nat) (x : HostSlot) : State := { s with hslots := sset HostSlot.init s.hslots (16 * die + k) x }
/-- R462: a discarded host write is counted, saturating. -/
def countDiscard (s : State) (die : Nat) : State :=
  { s with hdiscard := sset 0 s.hdiscard die (min (2 ^ 32 - 1) (sget 0 s.hdiscard die + 1)) }

/-- R462: a packet word 0 that the window accepts: type 0x01 or 0x10 to 0xFF, bits [63:11] zero. Answers the reason of a rejection. -/
def packetReason (w0 : Word) : Nat :=
  let t := w0.toNat % 256
  if t ≠ 0x01 ∧ t < 0x10 then 1 else if w0.toNat / 2 ^ 11 ≠ 0 then 2 else 0

/-- A doorbell (R462). Before the window is enabled it is discarded (R467). -/
def ringDoorbell (s : State) (die k : Nat) : State :=
  let x := getSlot s die k
  if x.state = 1 ∨ s.mgmt.step < 6 then countDiscard s die
  else
    let why := packetReason (x.words.getD 0 0)
    if why ≠ 0 then setSlot s die k { x with state := 3, reason := why }
    else
      let s1 := setSlot s die k { x with state := 1, reason := 0, copy := (List.range 8).map (fun i => x.words.getD i 0) }
      { s1 with hostQ := s1.hostQ ++ [(die, k)] }

/-- A host write to the window region: packet words and doorbells (R461, R462). -/
def writeWindow (s : State) (off : Nat) (v : Word) : State :=
  let die := off / 0x4000
  let o := off % 0x4000
  let k := o / 0x80
  let i := o % 0x80 / 8
  if die ≥ 4 ∨ o ≥ 0x800 then s
  else
    let x := getSlot s die k
    if x.state = 1 then countDiscard s die
    else if i < 8 then setSlot s die k { x with words := ((List.range 8).map (fun j => x.words.getD j 0)).set i v }
    else if i = 8 then (if v.getLsbD 0 then ringDoorbell s die k else s)
    else s

/-- Where a step of the host names its window region, its management region and its configuration space: they are no part of device register
space (R460, log 12). -/
def windowBase : Nat := 2 ^ 60
def managementBase : Nat := 2 ^ 60 + 2 ^ 20
def configBase : Nat := 2 ^ 60 + 2 ^ 21

/-- A store to the register at an offset (R454). Stores to read-only and unassigned offsets are ignored. -/
def regWrite (s : State) (off : Nat) (v : Word) : State :=
  if off < 0x1000 then
    match off with
    | 0x000 => writePkgid s v
    | 0x008 => setPkg s { s.pkg with ualen := v &&& 0xFFFF }
    | 0x010 => writeHalotmo s v
    | 0x018 => setPkg s { s.pkg with poolen := v &&& 1 }
    | _ => s
  else if 0x10000 ≤ off ∧ off < 0x11000 then writeMbox s ((off - 0x10000) / 8) v
  else if 0x20000 ≤ off ∧ off < 0x22000 then writeRoute s ((off - 0x20000) / 8) v
  else if 0x40000 ≤ off ∧ off < 0x50000 then writePool s ((off - 0x40000) / 64) ((off - 0x40000) / 8 % 8) v
  else if 0x80000 ≤ off ∧ off < 0x81000 then
    match off - 0x80000 with
    | 0x00 => { s with rsreg := v &&& 0xFFF }
    | 0x08 => { s with rsdesc := v }
    | 0x10 => { s with rsstep := v &&& 0x1FFFFFFFF }
    | 0x18 => if v.getLsbD 0 then startRestore s else s
    | _ => s
  else if 0xC0000 ≤ off ∧ off < 0xC4000 ∧ off % 0x1000 = 0x408 then writePrqdone s ((off - 0xC0000) / 0x1000) v.toNat
  else s

/-! ### The steps of register writes (R454 to R458, R462, R474) -/

def execPkgidWrite (v : Nat) (s : State) : Host.Outcome State Fault Refusal := .next (writePkgid s (BitVec.ofNat 64 v))
def execHalotmoWrite (v : Nat) (s : State) : Host.Outcome State Fault Refusal := .next (writeHalotmo s (BitVec.ofNat 64 v))
def execRouteTableWrite (p v : Nat) (s : State) : Host.Outcome State Fault Refusal := .next (writeRoute s (p % 1024) (BitVec.ofNat 64 v))
def execRsgo (s : State) : Host.Outcome State Fault Refusal := .next (startRestore s)
/-- A write of the host over CXL.io: the window region, the management region, or its configuration space, on which no effect is stated (R460). -/
def hostIoWrite (s : State) (off : Nat) (v : Word) : State :=
  if off < windowBase then s
  else if off < windowBase + 0x10000 then writeWindow s (off - windowBase) v
  else if managementBase ≤ off ∧ off < managementBase + 0x1000 then writeMbox s ((off - managementBase) / 8) v
  else s

/-- REGISTER_WRITE: a write by the management controller to a register, or by the host to one of its regions (log 12). -/
def execRegisterWrite (off v : Nat) (s : State) : Host.Outcome State Fault Refusal :=
  .next (if off ≥ windowBase then hostIoWrite s (off / 8 * 8) (BitVec.ofNat 64 v) else regWrite s (off / 8 * 8) (BitVec.ofNat 64 v))
/-- VESPER_ENTRY_CAPTURE: a thread's load of word 0 of an entry (R459). -/
def execVesperEntryCapture (thread log entry : Nat) (s : State) : Host.Outcome State Fault Refusal :=
  .next (vesperRead s thread (log % 13) (entry % 4096) 0).1
def execDoorbell (die slot : Nat) (s : State) : Host.Outcome State Fault Refusal := .next (ringDoorbell s (die % 4) (slot % 16))
def execPrqdone (die v : Nat) (s : State) : Host.Outcome State Fault Refusal := .next (writePrqdone s (die % 4) v)

/-! ### Page requests (R474) -/

/-- A stalled access can post its request: a device-format space needs room in the ring, a host-shared space sends a message (R474). -/
def canPost (s : State) (y : Stall) : Bool := y.req.isNone && (y.host || decide ((ringOf s y.die).post < (ringOf s y.die).done + 64))

/-- PAGE_REQUEST_POST: the oldest stalled access that has none posts its request: an entry of its die's ring with MSI-X vector d, or a PCIe
Page Request Message. -/
def execPageRequestPost (s : State) : Host.Outcome State Fault Refusal :=
  match s.stalls.zipIdx.find? (fun e => canPost s e.1) with
  | none => .next s
  | some (y, j) =>
    if y.host then
      .next { s with stalls := s.stalls.set j { y with req := some 0 }, hostOut := .pageRequest (y.space % 2 ^ 20) y.va y.kind :: s.hostOut }
    else
      let r := ringOf s y.die
      let n := r.post + 1
      let e := n % 2 ^ 32 * 2 ^ 96 + y.kind % 8 * 2 ^ 85 + y.space % 2 ^ 20 * 2 ^ 64 + y.va % 2 ^ 56
      let s1 := setRing s y.die { r with post := n, ents := sset 0 r.ents ((n - 1) % 64) e }
      .next { s1 with stalls := s1.stalls.set j { y with req := some n }, hostOut := .msix y.die :: s1.hostOut }

end Sys2Proof.Machine
end

