-- ==== Sys2Proof/Machine/Box.lean ====
section
/-!
DEFINITION. Tensor descriptors, boxes and the memory side of engine operations (R235, R268 to R272, R276, R277).
Element addresses and tile-store positions are counted in half bytes, for the type e2m1.
-/
namespace Sys2Proof.Machine

/-! ### Descriptors (R268, R269) -/

def tdBase (d : Nat) : Nat := d % 2 ^ 64
def tdEty (d : Nat) : Nat := bitsOf d 67 64
def tdRank (d : Nat) : Nat := bitsOf d 71 68
def tdFillNan (d : Nat) : Bool := d.testBit 72
def tdWrap (d i : Nat) : Bool := d.testBit (73 + i)
def tdExtent (d i : Nat) : Nat := bitsOf d (128 + 64 * i + 23) (128 + 64 * i)
def tdStride (d i : Nat) : Int := (BitVec.ofNat 40 (bitsOf d (128 + 64 * i + 63) (128 + 64 * i + 24))).toInt

/-- Half bytes of an element (R269). -/
def halfBytes (ety : Nat) : Nat := if ety = 14 then 1 else 2 * tyBytes (BitVec.ofNat 4 ety)

/-- R269: the descriptor is valid. -/
def tdValid (d : Nat) : Bool :=
  let r := tdRank d
  decide (bitsOf d 1023 896 = 0) && decide (bitsOf d 127 85 = 0) && decide (bitsOf d 63 56 = 0) && decide (1 ≤ r ∧ r ≤ 12) &&
    (List.range 12).all (fun i =>
      if i < r then decide (tdExtent d i ≠ 0) else decide (tdExtent d i = 0) && decide (tdStride d i = 0) && !tdWrap d i) &&
    decide (2 * tdBase d % halfBytes (tdEty d) = 0) &&
    (decide (tdEty d ≠ 14) || (decide (tdStride d 0 = 1) && !(tdWrap d 0 && decide (tdExtent d 0 % 2 = 1)))) &&
    !(tdFillNan d && decide (tdEty d < 8 ∨ tdEty d = 14))

/-- The fill value of a descriptor (R276). -/
def tdFill (d : Nat) : Nat :=
  if tdFillNan d then (if tdEty d = 15 then 0xFF else defaultNaN (fmtOf (tdEty d))) else 0

/-! ### Boxes (R271, R272) -/

/-- Elements of a box. -/
def boxCount (ext : List Nat) : Nat := ext.foldl (· * ·) 1
/-- Half bytes of a box. -/
def boxHalf (d : Nat) (ext : List Nat) : Nat := halfBytes (tdEty d) * boxCount ext
/-- Bytes of a box. -/
def boxBytes (d : Nat) (ext : List Nat) : Nat := boxHalf d ext / 2

/-- The coordinates of the j-th element of a box, dimension 0 fastest. -/
def boxCoords : List Int → List Nat → Nat → List Int
  | o :: os, e :: es, j => (o + (j % e : Nat)) :: boxCoords os es (j / e)
  | _, _, _ => []

/-- The sum of coordinate times stride of the reduced element, or none when it is out of bounds (R269). -/
def elemSum (d : Nat) : Nat → List Int → Option Int
  | _, [] => some 0
  | i, x :: xs =>
    let n : Int := tdExtent d i
    let y := if tdWrap d i then x % n else x
    if 0 ≤ y ∧ y < n then (elemSum d (i + 1) xs).map (fun r => r + y * tdStride d i) else none

/-- The half-byte address of the j-th element of a box (R269). -/
def elemAddr (d : Nat) (org : List Int) (ext : List Nat) (j : Nat) : Option Nat :=
  (elemSum d 0 (boxCoords org ext j)).map (fun x => ((2 * (tdBase d : Int) + (halfBytes (tdEty d) : Int) * x) % 2 ^ 65).toNat)

/-- Addresses of every element of a box, in order. -/
def boxAddrs (d : Nat) (org : List Int) (ext : List Nat) : List (Option Nat) := (List.range (boxCount ext)).map (elemAddr d org ext)

/-! ### Elements in memory -/

/-- A value of sz half bytes at a half-byte key. -/
def rdHalf (s : State) (k sz : Nat) : Nat := if sz = 1 then (rdByte s (k / 2)).toNat / 16 ^ (k % 2) % 16 else rdMem s (k / 2) (sz / 2)

/-- The tile-store elements of a box that lies at an offset of a block (R272). -/
def tileElems (s : State) (b off sz n : Nat) : List Nat := (List.range n).map (fun j => rdHalf s (2 * (tileBase b + off) + sz * j) sz)

/-- Elements packed densely (R272). -/
def packElems (sz : Nat) (vs : List Nat) : Nat := (vs.zipIdx).foldl (fun v e => v + e.1 % 16 ^ sz * 16 ^ (sz * e.2)) 0

/-- Bytes of a page for an agent's address. -/
def pageUnit (a : Agent) (va : Nat) : Nat := if a.space.testBit 20 ∧ !va.testBit 55 then 2 ^ 12 else 2 ^ 16

/-- The first address of the page of an agent's address. -/
def pageStart (a : Agent) (va : Nat) : Nat := va / pageUnit a va * pageUnit a va

/-! ### Global sources (R277) -/

/-- Status flags of a completion (R253). -/
def flRange : Nat := 0x8000
def flPoolLost : Nat := 0x4000
def flMcMiss : Nat := 0x2000
def flOob : Nat := 0x1000
def flSrcPois : Nat := 0x0800
def flAcUe : Nat := 0x0400

/-- Granules of pages that are mapped and not resident among the addresses an engine reads; whether a table and the host answer. -/
def engineStall (s : State) (a : Agent) (k : AKind) (vas : List Nat) : Option Wait :=
  vas.findSome? (fun va => match checkAddr s a va 1 k with
    | .stall table host => some (pageWait a [va] (if k.writes then 4 else 3) table host)
    | _ => none)

/-- R219, R221: an engine access on a CHK page is recorded; its races are counted and not raised. -/
def raceEngine (s : State) (b key : Nat) (l : Leaf) (k : AKind) : State :=
  if !l.chk then s else noteAccess (countRaces s b (racesOf s b key l k).length) b key k

/-- A source element that an engine reads for a block, by the outcome of its checks: its value and the flags of its failure. -/
def engineReadAt (s : State) (a : Agent) (r : ChkRes) (addr sz : Nat) : State × Nat × Nat :=
  let va := addr / 2
  let n := max 1 (sz / 2)
  match r with
  | .ok l key =>
    match dataFault s a.blk key n with
    | some cause => (s, 0, if cause = causePoolLost then flSrcPois ||| flPoolLost else flSrcPois)
    | none =>
      let s1 := raceEngine (touch s a va l false) a.blk (raceSpot s l va key) l .load
      let v := if key ≥ regBase ∧ key < hostBase then (regRead s1 0 (key - regBase)).2.toNat else viewMem s1 a (decide (l.coh = 1)) key n
      (s1, if sz = 1 then v / 16 ^ (addr % 2) % 16 else v, 0)
  | _ => (walked s a va, 0, flSrcPois)

/-- The checks of an engine's read. -/
def engineChk (s : State) (a : Agent) (addr sz : Nat) : ChkRes := checkAddr s a (addr / 2) (max 1 (sz / 2)) .load

/-- A source element read by an engine for a block. -/
def engineRead (s : State) (a : Agent) (addr sz : Nat) : State × Nat × Nat := engineReadAt s a (engineChk s a addr sz) addr sz

/-! ### Global destinations -/

/-- The check of the pages of global destination addresses (R274 step 8, R296): a trap with its address, a wait, or the translations by
page address. -/
inductive WalkDst where
  | trap (cause sub : Nat) (va : Nat)
  | wait (x : Wait)
  | ok (pages : List (Nat × Leaf))

/-- The access kind 4 of a request for an engine's write. -/
def engineWait (a : Agent) (va : Nat) (table host : Bool) : Wait := pageWait a [va] 4 table host

/-- Walks destination addresses in order, each page once. -/
def walkDst (s : State) (a : Agent) (k : AKind) (size : Nat) : List Nat → List (Nat × Leaf) → Option Wait → WalkDst
  | [], pages, none => .ok pages
  | [], _, some x => .wait x
  | va :: r, pages, w =>
    let pg := pageStart a va
    if pages.any (fun e => e.1 = pg) then walkDst s a k size r pages w
    else
      match checkAddr s a va size k with
      | .fail _ cause sub => .trap cause (if cause = causeVersionFrozen then 0x02 else sub) va
      | .stall table host => walkDst s a k size r pages (some (match w with | none => engineWait a va table host | some x => joinWait x (engineWait a va table host)))
      | .ok l _ =>
        if l.ver && !vdbWv (rdVdb s l.base) then
          let x := Wait.frame [(l.base, 32, va)] (getCore s a.core).cyc
          walkDst s a k size r ((pg, l) :: pages) (some (match w with | none => x | some y => joinWait y x))
        else walkDst s a k size r ((pg, l) :: pages) w

/-- The translation of a destination address, and its key now. -/
def dstLeaf (pages : List (Nat × Leaf)) (a : Agent) (va : Nat) : Option Leaf := (pages.find? (fun e => e.1 = pageStart a va)).map (·.2)

/-- Writes bytes of an engine at a destination (R235, R448): SW lines are written at the home. Its bytes carry no release (R211). -/
def engineWrite (s : State) (b key n v : Nat) : State :=
  if key ≥ regBase ∧ key < hostBase then regWrite s (key - regBase) (BitVec.ofNat 64 v)
  else
    let s1 := writeMarks s key n false []
    match poolOf s key with
    | some r => if poolState s r ≥ 2 then poolDiscard s r else writeHw s1 b key n v
    | none => if provisional s b ∧ key < regBase then writeProv s1 b key n v else writeHw s1 b key n v

/-- R421: a destination page is of a Lost pool region. -/
def lostPages (s : State) (pages : List (Nat × Leaf)) : Nat :=
  if pages.any (fun e => decide (e.2.tgt = 2) && decide (poolState s e.2.peer ≥ 2)) then flPoolLost else 0

/-- Writes a destination element. -/
def putElem (s : State) (a : Agent) (pages : List (Nat × Leaf)) (addr sz v : Nat) : State :=
  let va := addr / 2
  let n := max 1 (sz / 2)
  match dstLeaf pages a va with
  | none => s
  | some l =>
    let s1 := if l.ver then verFill s l.base (va % 2 ^ 16) false else s
    let key := leafKey s1 a.die l va
    let s2 := raceEngine (if l.coh = 1 then settleSw s1 a key n else s1) a.blk key l .store
    let old := (viewByte s2 a false key).toNat
    engineWrite s2 a.blk key n (if sz = 1 then putHalf old addr v else v)

/-- The sectors of destination elements, with whether one operation covered them whole and whether a failed element reached them
(R186, R277): addresses, size, and whether the element is valid. -/
def settlePoison (s : State) (a : Agent) (pages : List (Nat × Leaf)) (sz : Nat) (es : List (Nat × Bool)) : State :=
  let keyed := es.filterMap (fun e => (dstLeaf pages a (e.1 / 2)).map (fun l => (2 * leafKey s a.die l (e.1 / 2) + e.1 % 2, e.2)))
  let secs := (keyed.map (fun e => e.1 / 512)).dedup
  { s with poison := ssetAll 0 s.poison (secs.filterMap (fun x =>
      let here := keyed.filter (fun e => e.1 / 512 = x)
      if here.any (fun e => !e.2) then some (x, 1)
      else if (here.map (·.1)).dedup.length * sz = 512 then some (x, 0) else none)) }

/-! ### Rows of accumulator tiles (R289, R301, R306) -/

/-- Rows, columns and element bytes of a layout. -/
def mxLayoutRows (ty : Nat) : Nat := if ty = 8 then 32 else 64
def tileElemBytes (ty : Nat) : Nat := if ty = 8 then 8 else 4
/-- Bytes of a row. -/
def mxRowBytes (m : MxOp) : Nat := 64 * tileElemBytes m.ty
/-- Enabled rows. -/
def mxRows (m : MxOp) : List Nat := (List.range (mxLayoutRows m.ty)).filter (fun r => m.rows.testBit r)
/-- The address of a row in memory. -/
def mxRowVa (m : MxOp) (r : Nat) : Nat := ((m.a + (r : Int) * m.b) % 2 ^ 64).toNat

/-! ### Lines owned by engines (R234) -/

/-- The agent of a copy: the engine of the core that issued it, also after its block has moved (R188, R287). -/
def copyAgent (s : State) (o : Op) (c : CopyOp) : Agent := { agentOf s o.w c.sup with denied := o.denied, core := c.core }

/-- A page lies in a peer whose link is down: nothing is read from it or written to it (R404). -/
def linkHeld (s : State) (o : Op) (l : Leaf) : Bool := decide (l.tgt = 3) && !portUp s ((sget 0#64 o.routes l.peer).toNat % 16)

/-- Destination addresses of a copy, in half bytes. -/
def copyDst (c : CopyOp) : List (Option Nat) :=
  match c.kind with
  | 3 => boxAddrs c.desc c.org c.ext
  | 4 => boxAddrs c.desc2 c.org2 c.ext
  | 6 => boxAddrs c.desc c.org c.ext
  | 7 => boxAddrs c.desc c.org c.ext
  | _ => []

/-- Destination bytes of a collective at this member (R413). -/
def collBytes (x : CollOp) : Nat := if x.kind = 2 then x.n * x.len else if x.kind = 3 then x.len / x.n else x.len

/-- Bytes of an element as a source is read. -/
def collUnit (x : CollOp) : Nat := if x.kind = 2 then 8 else tyBytes x.ty

/-- Elements of a collective's source that are still to be read; the 8-byte words they stand in. -/
def collWaiting (x : CollOp) : List Nat := (List.range (x.len / collUnit x)).filter (fun i => decide ((sget (0, 0) x.elems i).1 = 0))
def collUnread (x : CollOp) : List Nat := ((collWaiting x).map (fun i => (x.a + collUnit x * i) / 8)).dedup

/-- The agent of a collective. -/
def collAgent (s : State) (o : Op) (x : CollOp) : Agent := { agentOf s o.w x.sup with denied := o.denied }

/-- Element j of a copy: 0 not yet read, 1 read, 2 read and failed, 3 written. -/
def elemSt (c : CopyOp) (j : Nat) : Nat := (sget (0, 0) c.elems j).1

/-- The 8-byte words of the rows that a matrix operation moves, by number: row and word of the row. -/
def mxRowWords (m : MxOp) : List Nat := (mxRows m).flatMap (fun r => (List.range (mxRowBytes m / 8)).map (fun i => 64 * r + i))
/-- The address of such a word. -/
def mxWordVa (m : MxOp) (i : Nat) : Nat := (mxRowVa m (i / 64) + 8 * (i % 64)) % 2 ^ 64

/-- Key ranges of the HW destination lines of a box of which a byte has still to be written (R234). -/
def boxOwned (s : State) (o : Op) (c : CopyOp) : List (Nat × Nat) :=
  if c.pages.any (fun e => decide (e.2.coh = 0)) then
    let a := copyAgent s o c
    ((copyDst c).zipIdx).filterMap (fun e => match e.1 with
      | some x => if elemSt c e.2 = 3 then none else match dstLeaf c.pages a (x / 2) with
        | some l => if l.coh = 0 then some (leafKey s a.die l (x / 2), max 1 (halfBytes (tdEty c.desc) / 2)) else none
        | none => none
      | none => none)
  else []

/-- Key ranges of the HW destination lines that an engine operation owns: those of which it has still to write a byte (R234). A receive owns
its lines once its box is matched (R412). -/
def ownedRanges (s : State) (o : Op) : List (Nat × Nat) :=
  match o.kind with
  | .copy c => boxOwned s o c
  | .halo x => x.ents.flatMap (fun e => if e.got.isSome && !e.done then boxOwned s o e.box else [])
  | .matrix m =>
    if m.pages.any (fun e => decide (e.2.coh = 0)) then
      let a := { agentOf s o.w m.sup with denied := o.denied }
      (mxRowWords m).filterMap (fun i =>
        let va := mxWordVa m i
        if m.got.any (fun e => e.1 = i) then none else match dstLeaf m.pages a va with
        | some l => if l.coh = 0 then some (leafKey s a.die l va, 8) else none
        | none => none)
    else []
  | .coll x =>
    let a := collAgent s o x
    (x.pages.filter (fun e => e.2.coh = 0)).map (fun e =>
      let u := pageUnit a x.b
      let lo := max x.b e.1
      (leafKey s a.die e.2 lo, min (x.b + collBytes x) (e.1 + u) - lo))
  | _ => []

/-- An engine operation owns a line of the range, so that an access waits (R234). -/
def ownedRange (s : State) (key n : Nat) : Bool :=
  s.ops.any (fun o => (ownedRanges s o).any (fun r => decide (r.1 / 1024 ≤ (key + n - 1) / 1024 ∧ key / 1024 ≤ (r.1 + r.2 - 1) / 1024)))

end Sys2Proof.Machine
end

