-- ==== Sys2Proof/Machine/Perform.lean ====
section
/-!
DEFINITION. How outstanding loads, stores and atomics are performed: LOAD_COMPLETE, STORE_PERFORMED, LOAD_STREAM_FETCH (R185, R190,
R195, R199, R206 to R249).
-/
namespace Sys2Proof.Machine

/-! ### When an access may be performed -/

/-- The accesses of an operation. -/
def accsOfOp (o : Op) : List Acc :=
  match o.kind with
  | .load accs _ _ _ _ => accs
  | .store accs _ _ _ => accs
  | .atomic accs _ => accs
  | _ => []

/-- Two accesses touch a common byte: by key, or by page offset on one VER page. -/
def overlap (x y : Acc) : Bool :=
  let meet (a n b m : Nat) : Bool := decide (a < b + m) && decide (b < a + n)
  if x.hand.isSome || y.hand.isSome then false else
  match x.ver, y.ver with
  | some (v, i), some (u, j) => decide (v = u) && meet i (x.size * x.n) j (y.size * y.n)
  | _, _ => meet x.key (x.size * x.n) y.key (y.size * y.n)

/-- The scope of the operation's release, if it is one. -/
def relOf (o : Op) : Option Nat :=
  match o.kind with
  | .store _ rel _ _ => rel
  | .atomic _ a => if a.rel then some a.scope else none
  | _ => none

/-- The channel of a channel store. -/
def chanOfOp (o : Op) : Option Nat := match o.kind with | .store _ _ ch _ => ch | _ => none

/-- The operation is a plain access, an atomic or maintenance, which a release waits for (R224). -/
def isAccess (o : Op) : Bool :=
  match o.kind with
  | .load .. => true
  | .store .. => true
  | .atomic .. => true
  | .maint .. => true
  | _ => false

/-- A piece of the access has been performed. -/
def accBegun (x : Acc) : Bool := decide (x.left.length < x.n + x.also.length)

/-- An engine operation of another thread, or an earlier one of this thread, owns a line that the access touches (R234). An access of which a
word has been performed came before the operation took the line. -/
def ownedAgainst (s : State) (o : Op) (x : Acc) : Bool :=
  !accBegun x && s.ops.any (fun e => (decide (e.id < o.id) || decide (e.w ≠ o.w) || !e.lanes.getLsbD x.lane) &&
    (ownedRanges s e).any (fun r => decide (r.1 / 1024 ≤ (accKey s x + x.size * x.n - 1) / 1024) && decide (accKey s x / 1024 ≤ (r.1 + r.2 - 1) / 1024)))

/-- The operation acquires (R223, R242). -/
def isAcquire (o : Op) : Bool :=
  match o.kind with
  | .load _ _ _ _ (some _) => true
  | .atomic _ a => a.acq
  | _ => false

/-- The tile store that the access reaches belongs to a block that has ended (R198). -/
def tileGone (s : State) (x : Acc) : Bool :=
  decide (x.key ≥ tileBase 0) && decide (x.key < acBase 0 0) && (let b := getBlock s ((x.key - tileBase 0) / 2 ^ 20); decide (b.state = 0) || b.killed)

/-- The tile store that the access reaches belongs to a block that is saved (R198). -/
def tileSaved (s : State) (x : Acc) : Bool :=
  decide (x.key ≥ tileBase 0) && decide ((getBlock s ((x.key - tileBase 0) / 2 ^ 20)).state ≥ 2)

/-- The offset of a key in device register space. -/
def regOff (key : Nat) : Option Nat := if regBase ≤ key ∧ key < hostBase then some (key - regBase) else none

/-- The access of an operation may be performed: the thread's earlier accesses to its bytes have been (R190), a release follows all of
its thread's earlier accesses (R224), no access comes before an earlier acquire of its lane (R223), a thread's accesses to device registers
keep their order (R454), a channel store the channel's earlier ones (R231), and a packet to a peer waits while its link is down (R404). -/
def accReady (s : State) (o : Op) (x : Acc) : Bool :=
  let before := s.ops.filter (fun e => decide (e.id < o.id))
  !(before.any (fun e => decide (e.w = o.w) && (accsOfOp e).any (fun y => decide (y.lane = x.lane) && overlap x y))) &&
    !((relOf o).isSome && before.any (fun e => decide (e.w = o.w) && e.lanes.getLsbD x.lane && isAccess e)) &&
    !(before.any (fun e => decide (e.w = o.w) && e.lanes.getLsbD x.lane && isAcquire e)) &&
    !(match chanOfOp o with
      | some k => before.any (fun e => decide (blkOf e.w = blkOf o.w) && decide (chanOfOp e = some k))
      | none => false) &&
    !((regOff x.key).isSome && before.any (fun e => decide (e.w = o.w) && (accsOfOp e).any (fun y => decide (y.lane = x.lane) && (regOff y.key).isSome))) &&
    !ownedAgainst s o x && !tileSaved s x && !peerHeld s o.routes x.key &&
    !(match x.ver with | some (vdb, _) => (match o.kind with | .load .. => false | _ => !vdbWv (rdVdb s vdb)) | none => false)

/-- The accesses of the lanes asked for of which a piece may be performed: among lanes of one instruction that write a common byte, and
among the lanes of a channel store, the lower lane has been performed first (R190, R231, R241). -/
def selectAccs (s : State) (o : Op) (lanes : Mask) : List Acc :=
  let accs := accsOfOp o
  let writes := match o.kind with | .load .. => false | _ => true
  accs.foldl (fun sel x =>
    if lanes.getLsbD x.lane && accReady s o x &&
        !(writes && accs.any (fun y => decide (y.lane < x.lane) && (overlap x y || (chanOfOp o).isSome) &&
          !sel.any (fun z => decide (z.lane = y.lane) && decide (z.left.length ≤ 1))))
    then sel ++ [x] else sel) []

/-! ### One access -/

/-- A block's name for accesses made by its instructions. -/
def opAgent (s : State) (o : Op) : Agent := agentOf s o.w false

/-- The payload of a data fault, noting poison that came from a Suspect line (R447 source 4). -/
def dataPoison (s : State) (b cause va key : Nat) : State × TWord :=
  let s := if cause = causeMemUe ∧ sget 0 s.poison (key / 256) = 2 then { s with suspectVas := (b, va % 2 ^ 56) :: s.suspectVas } else s
  (s, ⟨.x, payload cause va⟩)

/-- The words of n elements of a value read. -/
def splitWords (ty : BitVec 4) (size n v : Nat) : List TWord :=
  (List.range n).map (fun j => TWord.valid (loadWord ty (v / 2 ^ (8 * size * j) % 2 ^ (8 * size))))

/-- The piece of an access that is performed next: a word, or the write to one of the copies. With several left it is a free choice
(R190, R196, R206, log 29). -/
def pieceOf (s : State) (o : Op) (x : Acc) : Nat :=
  match x.left with
  | [] => 0
  | [j] => j
  | j :: r => (j :: r).getD (Config.nextPiece (s.free * 2 ^ 40 + o.id * 2 ^ 10 + x.lane * 8 + r.length) % (r.length + 1)) j

/-- The bytes from piece j of a load: the words not yet read. -/
def pieceKey (x : Acc) (key j : Nat) : Nat := key + x.size * j

/-- The acquire of a lane that has read marks: SW lines below the scope, and the releases (R211, R220, R223). -/
def acquireRead (s : State) (o : Op) (b : Nat) (acq : Option Nat) (lane : Nat) (ms : List Mark) : State :=
  let s := seeMarks s o.w lane ms
  match acq with | some sc => acquireAll s b sc ms | none => s

/-- Reads a piece of one lane's access: what is left of it, and its words once it is complete, or X (R182 step 8, R185, R195). A lane that
takes X still acquires (R223). -/
def readAcc (s : State) (o : Op) (ty : BitVec 4) (acq : Option Nat) (x : Acc) : State × Acc × List TWord :=
  let a := opAgent s o
  let key := accKey s x
  let total := x.size * x.n
  let s1 := match acq with | some sc => acquireNow s o.w sc | none => s
  match x.given, regOff key with
  | some v, _ => (s1, { x with left := [] }, List.replicate x.n v)
  | none, some off => let r := regRead s1 (lkey o.w x.lane) off; (r.1, { x with left := [] }, [TWord.valid r.2])
  | none, none =>
    match (if handleRetired s x then some causeVersionRetired else dataFault s a.blk key total) with
    | some cause => let r := dataPoison s1 a.blk cause x.va key; (r.1, { x with left := [] }, List.replicate x.n r.2)
    | none =>
      let j := pieceOf s o x
      let r := readFor s1 a x.sw x.cls x.pol (pieceKey x key j) x.size
      let y := { x with left := x.left.filter (fun i => i ≠ j), data := x.data + r.2.1 * 2 ^ (8 * x.size * j) }
      (acquireRead r.1 o a.blk acq x.lane r.2.2, y, if y.left.isEmpty then splitWords ty x.size x.n y.data else [])

/-- Performs a piece of one lane's store, a word or the write to one copy (R195, R196, R206, R224, R321). -/
def writeAcc (s : State) (o : Op) (rel : Option Nat) (x : Acc) : State × Acc :=
  let a := opAgent s o
  let j := pieceOf s o x
  let y := { x with left := x.left.filter (fun i => i ≠ j) }
  let key0 := accKey s x
  let s1 := match rel with | some sc => wbScope s a.die sc (fun _ => true) | none => s
  let r := match rel with | some sc => let r := performRelease s1 a.blk sc; (r.1, [r.2]) | none => (s1, [])
  match regOff key0 with
  | some off => (regWrite r.1 off (BitVec.ofNat 64 x.data), y)
  | none =>
    if lostKey s key0 then (poolDiscard r.1 ((poolOf s key0).getD 0), y)
    else if x.ver.isNone && frozenKey s key0 then (r.1, y)
    else if j ≥ x.n then
      let copy := x.also.getD (j - x.n) key0
      (writeMarks (writeHw r.1 a.blk copy x.size x.data) copy x.size false (r.2 ++ laneMarks r.1 o.w x.lane), y)
    else
      let s2 := match x.ver with | some (vdb, off) => verFill r.1 vdb off false | none => r.1
      let key := pieceKey x (accKey s2 x) j
      let s2 := dcTouch s2 a.die x.cls x.pol key
      let v := x.data / 2 ^ (8 * x.size * j) % 2 ^ (8 * x.size)
      let level := match rel with
        | some sc => if x.sw then scopeLevel sc else 0
        | none => polLevel s2 a x.cls x.pol key
      let s3 := writeAt s2 a x.sw level key x.size v
      (writeMarks s3 (levelMark a x.sw level key) x.size false (r.2 ++ laneMarks s3 o.w x.lane), y)

/-! ### Atomics (R240 to R250) -/

/-- The point of performance is a bank ALU (R240). -/
def atBank (a : AtomArgs) (x : Acc) : Bool := x.sw || decide (a.kind = 3 ∨ a.kind = 4)

/-- R243: a discarded non-returning atomic is recorded by the unit at its point of performance; a peer's bank records it in the peer. -/
def logDiscard (s : State) (o : Op) (a : AtomArgs) (x : Acc) (key : Nat) : State :=
  let b := getBlock s (blkOf o.w)
  if atBank a x then
    if key < regBase then vesper s (4 + key / 2 ^ 39) 0x04 (vsource 1 (Config.bankOf key % 32)) x.va b.launchid.toNat 0 else s
  else vesper s b.die 0x04 (vsource 0 b.core) x.va b.launchid.toNat 0

/-- The old value is compared with B (R247). -/
def casHit (a : AtomArgs) (old : Nat) (x : Acc) : Bool := decide (old = x.cmp) && decide (a.kind = 1 ∨ a.kind = 2)

/-- What a returning atomic writes to D from the old value (R246, R247). -/
def atomResult (a : AtomArgs) (old : Nat) (x : Acc) : List TWord :=
  if a.cond then [if casHit a old x then TWord.valid 1 else ⟨.n, 0⟩]
  else if a.kind = 2 then [TWord.valid (BitVec.ofNat 64 old), TWord.valid (BitVec.ofNat 64 (old / 2 ^ 64))]
  else [TWord.valid (loadWord a.ty old)]

/-- Performs one lane of an atomic indivisibly. `whole` says that a fred.mov covers its sector (R248). A write of another block's
provisional line makes that block commit before the old value is read (R241, R448). -/
def atomAcc (s : State) (o : Op) (a : AtomArgs) (whole : Bool) (x : Acc) : State × List TWord :=
  let ag := opAgent s o
  let total := x.size * x.n
  let key0 := accKey s x
  let mov := decide (a.kind = 4 ∧ a.op = 6)
  match (if mov ∧ (poolOf s key0).isNone then none else dataFault s ag.blk key0 total) with
  | some cause =>
    let s := if a.acq then acquireNow s o.w a.scope else s
    if a.d.isSome then
      let r := dataPoison s ag.blk cause x.va key0
      (r.1, List.replicate (if a.kind = 2 ∧ !a.cond then 2 else 1) r.2)
    else
      let s1 := match poolOf s key0 with | some r => poolDiscard s r | none => s
      (logDiscard s1 o a x key0, [])
  | none =>
    let s0 := if a.acq then acquireNow s o.w a.scope else s
    let s1 := if a.rel then wbScope s0 ag.die a.scope (fun _ => true) else s0
    let s2 := match x.ver with | some (vdb, off) => verFill s1 vdb off whole | none => s1
    let key := accKey s2 x
    let s2 := foreignCommit (if x.sw then settleSw s2 ag key total else s2) ag.blk key total
    let old := if x.sw then rdMem s2 key total else viewMem s2 ag false key total
    let cmpOp := decide (a.kind = 1 ∨ a.kind = 2)
    let writes := !cmpOp || casHit a old x
    let new := if cmpOp then x.data else atomNew a.op a.ty old x.data
    let s3 := if writes then writeHw s2 ag.blk key total new else s2
    let s4 := if whole then { s3 with poison := sset 0 s3.poison (key / 256) 0 } else s3
    let r := if a.rel && writes then let r := performRelease s4 ag.blk a.scope; (r.1, [r.2]) else (s4, [])
    let s5 := acquireRead r.1 o ag.blk (if a.acq then some a.scope else none) x.lane (marksAt r.1 key total)
    (if writes then writeMarks s5 key total true (r.2 ++ laneMarks s5 o.w x.lane) else s5, atomResult a old x)

/-- R248: a fred.mov of a 64-bit type with all 32 lanes supplying writes its whole sector. -/
def fredWhole (o : Op) : Bool :=
  match o.kind with
  | .atomic accs a => decide (a.kind = 4 ∧ a.op = 6 ∧ tyBytes a.ty = 8 ∧ accs.length = 32)
  | _ => false

/-! ### The steps -/

/-- The kind of an operation with the accesses that remain. -/
def restKind (k : OpKind) (accs : List Acc) : OpKind :=
  match k with
  | .load _ ty d n acq => .load accs ty d n acq
  | .store _ rel ch st => .store accs rel ch st
  | .atomic _ a => .atomic accs a
  | k => k

/-- The page and sector of an access to a VER page. -/
def verSector (x : Acc) : Option (Nat × Nat) := x.ver.map (fun e => (e.1, e.2 / 256))

/-- The sector of a VER page is present in the working frame (R321). -/
def sectorPresent (s : State) (x : Acc) : Bool :=
  match x.ver with
  | some (vdb, off) => let v := rdVdb s vdb; vdbWv v && v.testBit (256 + off / 256)
  | none => true

/-- Only a sector that was not present when the store reached it is written whole without a fill: of one that is present, or that another write
has filled, a plain store clears no poison (R186, R321). -/
def unwhole (s : State) (accs : List Acc) : List Acc :=
  let begun (x : Acc) : Bool := !wholeSector accs x || accs.any (fun y => decide (verSector y = verSector x) && accBegun y)
  accs.map (fun x => { x with whole := x.whole && (begun x || !sectorPresent s x) })

/-- A store has written the whole sector of a VER page: the sector keeps no poison of the frame it was filled from (R321). Bytes that lie in
caches reach their home with it; bytes held provisionally clear the poison at their commit (R448). -/
def coverWhole (a : Agent) (rest : List Acc) (s : State) (x : Acc) : State :=
  if x.whole && !rest.any (fun y => y.whole && decide (verSector y = verSector x)) then
    let sec := accKey s x / 256
    if provisional s a.blk then { s with provFull := sset false s.provFull (2 ^ 80 * a.blk + sec) true }
    else
      let s1 := if x.sw then settleSw s a (256 * sec) 256 else s
      { s1 with poison := sset 0 s1.poison sec 0 }
  else s

/-- Ends an operation whose accesses are all done, or keeps what remains: accesses of which no piece or some pieces have been performed. -/
def settleOp (s : State) (o : Op) (done : List Acc) (ws : List (Nat × Nat × TWord)) : State :=
  let rest := ((accsOfOp o).map (fun x => (done.find? (fun y => y.lane = x.lane)).getD x)).filter (fun x => !x.left.isEmpty)
  let s := done.foldl (coverWhole (opAgent s o) rest) s
  if rest.isEmpty then finishOp s o ws
  else setOpKind (writeDst s o ws) o.id (restKind o.kind rest)

/-- The results of a lane's words at the registers of a group. -/
def groupWrites (d lane : Nat) (ws : List TWord) : List (Nat × Nat × TWord) := (ws.zipIdx).map (fun e => (d + e.2, lane, e.1))

/-- Lanes whose results go to a queue, and the elements of a fred, are performed together. -/
def together (o : Op) (sel : List Acc) : List Acc :=
  let all := o.push.isSome || (match o.kind with | .atomic _ a => decide (a.kind = 4) | _ => false)
  if all && decide (sel.length ≠ (accsOfOp o).length) then [] else sel

/-- What performing accesses leaves: the state, the accesses as they stand after it, the results of those that are complete. -/
abbrev Performed := State × List Acc × List (Nat × Nat × TWord)

/-- Performs a piece of each of the selected accesses, collecting the results. -/
def performAll (s : State) (o : Op) (sel : List Acc) : Performed :=
  match o.kind with
  | .load _ ty d _ acq =>
    sel.foldl (fun r x => let p := readAcc r.1 o ty acq x; (p.1, r.2.1 ++ [p.2.1], r.2.2 ++ groupWrites d x.lane p.2.2)) (s, [], [])
  | .store _ rel _ _ => sel.foldl (fun r x => let p := writeAcc r.1 o rel x; (p.1, r.2.1 ++ [p.2], [])) (s, [], [])
  | .atomic _ a =>
    sel.foldl (fun r x =>
      let p := atomAcc r.1 o a (fredWhole o) x
      (p.1, r.2.1 ++ [{ x with left := [] }], r.2.2 ++ (match a.d with | some d => groupWrites d x.lane p.2 | none => []))) (s, [], [])
  | _ => (s, [], [])

/-- R198: accesses to the tile store of a block that has ended trap at their split, which goes on at its next word or ends its wait there
(log 56). -/
def trapGone (s : State) (o : Op) (gone : List Acc) : State :=
  match gone with
  | [] => s
  | _ :: _ =>
    let rest := (accsOfOp o).filter (fun x => !gone.any (fun y => y.lane = x.lane))
    let s1 := if rest.isEmpty then endOp s o.id else setOpKind s o.id (restKind o.kind rest)
    (validSplits s1 o.w).foldl (fun s e =>
      let hit := gone.filter (fun x => e.2.mask.getLsbD x.lane)
      if hit.isEmpty then s
      else takeTrap s o.w e.1 (getCore s (coreOf s o.w)).cyc o.path false o.word
        { cause := causeIllegalOperand, sub := 0x02, lanes := maskOf (fun l => hit.any (fun x => x.lane = l)), retry := e.2.mask,
          vals := hit.map (fun x => (x.lane, BitVec.ofNat 64 x.va)) }) s1

/-! ### wbk and winv (R204) -/

/-- The keys of a range within one SW page: of a VER page each sector stands where the working view has it (R204, R319). -/
def pageRanges (s : State) (die : Nat) (l : Leaf) (va len : Nat) : List (Nat × Nat) :=
  if l.ver then
    let off := va % 2 ^ 16
    (List.range ((off + len - 1) / 256 + 1 - off / 256)).map (fun i => (workingAddr s l.base ((off / 256 + i) * 256), 256))
  else [(leafKey s die l va, len)]

/-- The lines of SW pages in a range, as ranges of keys. -/
def maintRanges (s : State) (a : Agent) : Nat → Nat → Nat → List (Nat × Nat)
  | 0, _, _ => []
  | n + 1, va, len =>
    if len = 0 then []
    else
      let pg := if a.space.testBit 20 ∧ !va.testBit 55 then 2 ^ 12 else 2 ^ 16
      let k := min len (pg - va % pg)
      let here := match lookup s a.die a.space (va % 2 ^ 64) with
        | .leaf l => if l.coh = 1 then pageRanges s a.die l va k else []
        | _ => []
      here ++ maintRanges s a n (va + k) (len - k)

/-- Performs wbk or winv. -/
def performMaint (s : State) (o : Op) (inv : Bool) (scope va len : Nat) : State :=
  if s.swc.isEmpty then s
  else
    let a := opAgent s o
    let rs := maintRanges s a (len / 2 ^ 12 + 2) va len
    let p (k : Nat) : Bool := rs.any (fun r => decide (r.1 / 1024 ≤ k / 1024) && decide (k / 1024 ≤ (r.1 + r.2 - 1) / 1024))
    if inv then invScope s a.die scope p else wbScope s a.die scope p

/-- wbk and winv follow their threads' earlier stores. -/
def maintReady (s : State) (o : Op) : Bool :=
  !s.ops.any (fun e => decide (e.id < o.id) && decide (e.w = o.w) && decide (e.lanes &&& o.lanes ≠ 0) && (match e.kind with | .store .. => true | _ => false))

/-! ### Events -/

/-- The lanes of an operation that could be performed now. -/
def readyLanes (s : State) (o : Op) : Mask :=
  let sel := together o (selectAccs s o 0xFFFFFFFF#32)
  maskOf (fun l => sel.any (fun x => x.lane = l))

/-- Performs an operation, or the lanes of it that can be; arrivals that waited for it follow (R224). -/
def performOp (s : State) (o : Op) (lanes : Mask) : State :=
  match o.kind with
  | .maint inv scope va len => if maintReady s o then settleArrivals (endOp (performMaint s o inv scope va len) o.id) else s
  | _ =>
    let o := match o.kind with
      | .store accs rel ch st => { o with kind := .store (unwhole s accs) rel ch st }
      | _ => o
    match together o (selectAccs s o lanes) with
    | [] => s
    | sel =>
      match sel.filter (tileGone s) with
      | [] => let r := performAll s o sel; settleArrivals (settleOp r.1 o r.2.1 r.2.2)
      | gone => settleArrivals (trapGone s o gone)

/-- LOAD_COMPLETE (R185): lanes of a load or a returning atomic. -/
def execLoadComplete (id : Nat) (lanes : Mask) (s : State) : Host.Outcome State Fault Refusal :=
  match findOp s id with
  | some o => if o.cls = some .ld then .next (performOp s o lanes) else .next s
  | none => .next s

/-- STORE_PERFORMED (R195): lanes of a store or a non-returning atomic, or a wbk or winv. -/
def execStorePerformed (id : Nat) (lanes : Mask) (s : State) : Host.Outcome State Fault Refusal :=
  match findOp s id with
  | some o => if o.cls = some .st then .next (performOp s o lanes) else .next s
  | none => .next s

/-! ### Load streams (R199, R200) -/

/-- A lane runs in supervisor mode: the mode of the split that holds it. -/
def laneSup (s : State) (w lane : Nat) : Bool := (validSplits s w).any (fun e => e.2.mask.getLsbD lane && e.2.sup)

/-- The stream of a queue can fetch: a load stream with elements to fetch, room, and the accesses before its arming done. -/
def fetchReady (s : State) (w lane q : Nat) : Bool :=
  let x := getQueue s w lane q
  decide (x.kind = 1) && decide (x.toFetch > 0) && decide (x.entries.length < 8) && !x.after.any (fun i => (findOp s i).isSome)

/-- The access of the next element as an operation of its own. -/
def streamOp (s : State) (w lane : Nat) (x : Queue) (acc : Acc) : Op :=
  { id := s.nextOp, w := w, lanes := BitVec.twoPow 32 lane, cls := none, dst := [], push := none, denied := [], kind := .load [acc] x.ty 0 1 none,
    routes := s.routes }

/-- LOAD_STREAM_FETCH: the next element is checked and read; a failure is entered as X (R199). -/
def execLoadStreamFetch (w lane q : Nat) (s : State) : Host.Outcome State Fault Refusal :=
  if !fetchReady s w lane q then .next s
  else
    let x := getQueue s w lane q
    let a := { agentOf s w (laneSup s w lane) with denied := x.denied }
    let va := x.addr.toNat
    let size := tyBytes x.ty
    let enter (s : State) (v : TWord) : State :=
      setQueue s w lane q { x with entries := x.entries ++ [v], addr := x.addr + x.stride, toFetch := x.toFetch - 1, denied := [] }
    match chkLane s a .load lane x.addr size 1 0 0 0 with
    | .settled (some v) => .next (enter s v)
    | .settled none => .next s
    | .trap _ cause _ _ => .next (enter s ⟨.x, payload cause va⟩)
    | .wait y => .next (addStalls y s)
    | .late acc => .next (enter (walked s a va) (acc.given.getD TWord.zero))
    | .ok l acc =>
      let o := streamOp s w lane x acc
      if ownedAgainst s o acc || peerHeld s s.routes acc.key then .next s
      else
        let r := readAcc (touchAll s a .load [(l, acc)]) o x.ty none acc
        .next (enter r.1 (r.2.2.headD TWord.zero))

end Sys2Proof.Machine
end

