-- ==== Sys2Proof/Machine/Sync.lean ====
section
/-!
DEFINITION. `exit`, the barriers, the arrival-object instructions and the monitored wait (R168, R256 to R266).
-/
namespace Sys2Proof.Machine

/-! ### exit (R168) -/

def specExit : OpSpec := { specNone 0x08B with a := srcA', reads := rdA }

/-- exit: the V lanes end, the N lanes go on with the next word; X traps. -/
def exitBody (c : Ctx) (s : State) : State :=
  match poisonLanes c.sp.mask (opA s c) with
  | x :: xs => raise c (poisonTrap c.sp.mask (x :: xs)) s
  | [] =>
    let gone := maskOf (fun l => c.sp.mask.getLsbD l && decide ((opA s c l).tag = .v))
    let s1 := popAll s c.w c.sp.mask (specExit.reads c.f)
    let s2 := divide c false [{ mask := c.sp.mask &&& ~~~gone, target := none, clear := none }] s1
    endWarp (leaveLanes s2 c.w gone) c.w
def execExit (f : Fields) (s : State) := issue specExit f s exitBody

/-! ### Rows (R256) -/

/-- The scope in MOD[2:0] with the lowest allowed. -/
def mdScope (low : Nat) : Chk := Chk.and (mdBits 7) (chkIf 0x04 (fun e => decide (scopeOf e.f ≥ low)))
/-- C holds object number K in C[5:0], with a try bit in C[6] where allowed. -/
def objC (tryBit : Bool) : Chk := fun e =>
  let x := e.f.c.toNat
  if x ≥ 128 ∨ (x ≥ 64 ∧ !tryBit) ∨ x % 64 = 0 then some 0x04
  else if x % 64 ≥ e.naos then some 0x02 else none
/-- The scope in TY[2:0], block at least. -/
def tyScope : Chk := tySel 0xFE

def specBar : OpSpec := { specMem 0x130 with md := mdScope 1 }
def specBarr : OpSpec := { specMem 0x131 with d := dstD, md := mdScope 1 }
def specBarw : OpSpec := { specMem 0x132 with a := scalarA, md := mdScope 1, reads := rdA }
def specCbar : OpSpec := { specMem 0x133 with md := mdScope 2 }
def specMwait : OpSpec :=
  { specMem 0x134 with
    d := dstD, a := srcA, b := immB, c := immC, ty := tyIn 0xCC,
    md := Chk.and noImm (Chk.and (mdBits 0x77) (chkIf 0x04 (fun e => decide ((modOf e.f).toNat / 16 % 8 ≤ 5)))), reads := rdABC }
def specAoinit : OpSpec := { specMem 0x135 with b := scalarImmB, c := objC false, reads := fun f => [f.b] }
def specAoarr : OpSpec := { specMem 0x136 with d := dstD, b := scalarImmB, c := objC false, ty := tyScope, reads := fun f => [f.b] }
def specAoexp : OpSpec := { specMem 0x137 with b := scalarImmB, c := objC false, reads := fun f => [f.b] }
def specAowt : OpSpec := { specMem 0x138 with d := dstD, b := scalarImmB, c := objC true, ty := tyScope, reads := fun f => [f.b] }

def objNo (f : Fields) : Nat := f.c.toNat % 64
def tyScopeOf (f : Fields) : Nat := f.ty.toNat % 8

/-! ### Barriers (R261 to R263) -/

/-- The lanes of the split that have arrived in the phase of the barrier. -/
def arrivedLanes (s : State) (c : Ctx) (k : Nat) : Mask :=
  maskOf (fun l => c.sp.mask.getLsbD l && (objOf s (blkOf c.w) k).record.contains (lkey c.w l))

/-- Lanes that have arrived in the phase are held at the word until it completes (R261): all of the split, or those alone, which leave it as
a split of their own (log 59). The others go on with the word. -/
def barHold (k : Nat) (c : Ctx) (s : State) (go : Ctx → State → State) : State :=
  let held := arrivedLanes s c k
  let sp := getSplit s c.w c.k
  if held = 0 then go c s
  else if held = c.sp.mask then suspend c (.again (decide (k = 64))) s
  else
    let s1 := setSplit s c.w c.k { sp with mask := sp.mask &&& ~~~held }
    go { c with sp := { c.sp with mask := c.sp.mask &&& ~~~held } }
      (addSplit s1 c.w { sp with mask := held, hs := [], susp := some (.again (decide (k = 64))) })

/-- Arrives with every lane of the split, then suspends it for the phase it arrived in. -/
def arriveAndWait (c : Ctx) (k scope : Nat) (s : State) : State :=
  let p := (objOf s (blkOf c.w) k).phase
  let wt : Wait := if k = 64 then .cluster p scope else .arrival 0 p scope
  arrive (suspend c wt s) c.w c.sp.mask k (laneCount c.sp.mask) scope (opTag c.sp.pc)

/-- bar and cbar. A release wider than block makes a restartable block commit (R448). -/
def barBody (k : Nat) (c : Ctx) (s : State) : State :=
  withCommit c (decide (scopeOf c.f > 1)) s s (fun s => barHold k c s (fun c s => arriveAndWait c k (scopeOf c.f) s))
def execBar (f : Fields) (s : State) := issue specBar f s (barBody 0)
def execCbar (f : Fields) (s : State) := issue specCbar f s (barBody 64)

/-- The phase as a word. -/
def phaseWord (p : Bool) : TWord := TWord.valid (if p then 1 else 0)

/-- A word at every active lane of D, at latency 3, or pushed to a store stream. -/
def writePhase (c : Ctx) (v : TWord) (s0 s : State) : State :=
  let rs := (computeLanes c).map (fun l => (l, LaneRes.ok v))
  if isQ c.f.d then finishPush c rs s0 s else finishFixed c 3 rs s

/-- D's old word under N at every active lane. -/
def writeOldN (c : Ctx) (lat : Nat) (s : State) : State :=
  let rs := (computeLanes c).map (fun l => (l, LaneRes.ok (⟨.n, (rdReg s c.w c.f.d.toNat l).data⟩ : TWord)))
  if isQ c.f.d then finishPush c rs s s else finishFixed c lat rs s

/-- The split went on to its next word. -/
def wentOn (c : Ctx) (s : State) : Bool :=
  let sp := getSplit s c.w c.k
  decide (sp.hs = c.sp.hs) && !(getBlock s (blkOf c.w)).killed && sp.susp.isNone

/-- barr: D takes the phase before the arrival. -/
def barrBody (c : Ctx) (s : State) : State :=
  withCommit c (decide (scopeOf c.f > 1)) s s fun s => barHold 0 c s fun c s1 =>
    let s2 := writePhase c (phaseWord (objOf s1 (blkOf c.w) 0).phase) s1 s1
    if wentOn c s2 then arrive s2 c.w c.sp.mask 0 (laneCount c.sp.mask) (scopeOf c.f) (opTag c.sp.pc) else s2
def execBarr (f : Fields) (s : State) := issue specBarr f s barrBody

/-- Acquires at a scope from the last completed phase of an object (R223, R255). -/
def acquireObj (s : State) (w k scope : Nat) : State :=
  acquireAll (acquireNow s w scope) (blkOf w) scope (objOf s (blkOf w) k).prev

/-- barw. -/
def barwBody (c : Ctx) (s : State) : State :=
  let a := opA s c (lowLane c.sp.mask)
  match a.tag with
  | .v =>
    let o := getAo s (blkOf c.w) 0
    if o.phase ≠ a.data.getLsbD 0 then advance c (acquireObj s c.w 0 (scopeOf c.f))
    else suspend c (.token 0 o.phase none (scopeOf c.f)) s
  | _ => advance c s
def execBarw (f : Fields) (s : State) := issue specBarw f s barwBody

/-! ### Arrival objects (R258 to R260) -/

/-- B by its tag: nullified, poisoned, or its value in a range (R256, R257). -/
def withCount (c : Ctx) (lo hi : Nat) (nul : State → State) (s : State) (go : Nat → State) : State :=
  let b := opB s c (lowLane c.sp.mask)
  match b.tag with
  | .n => nul s
  | .x => raise c (poisonTrap c.sp.mask ((actives c).map (fun l => (l, b.data)))) s
  | .v => if b.data.toNat < lo ∨ b.data.toNat > hi then raiseAll c causeIllegalOperand 0x0A s else go b.data.toNat

/-- A wait that an arrival has ended stands again, where its split has not gone on. -/
def restoreWait (k : Nat) (s : State) (e : Nat × Nat × Wait) : State :=
  let sp := getSplit s e.1 e.2.1
  match sp.susp with
  | some (.satisfied k' _ _) => if k' = k then setSplit s e.1 e.2.1 { sp with susp := some e.2.2 } else s
  | _ => s

/-- An arrival of the cycle of an initialisation is applied after it (R258). -/
def arriveAgain (b k : Nat) (s : State) (e : Nat × List Nat × List Mark) : State :=
  let x := getAo s b k
  let o := aoUpdate { x with record := e.2.1 ++ x.record } e.1 0 0 0 e.2.2
  putAo s b k { o with woken := o.woken ++ endedWaits s b k o }

/-- Initialises an object at cycle t: waiters test the new phase. Arrivals of other threads in the same cycle come after it, each by itself, and the
waits that they have ended in the old phase stand again (R258). -/
def initObj (s : State) (b k n t : Nat) : State :=
  let o := getAo s b k
  let x := { AObj.init with expected := n, prev := o.prev }
  if o.cyc = t ∧ o.arrivals ≠ [] then
    o.arrivals.foldl (arriveAgain b k) (putAo (o.woken.foldl (restoreWait k) s) b k { x with cyc := t, arrivals := o.arrivals })
  else putAo s b k x

/-- aoinit. -/
def aoinitBody (c : Ctx) (s : State) : State :=
  withCount c 1 65535 (advance c) s fun n =>
    if engineNames s (blkOf c.w) (objNo c.f) then suspend c (.aoinit (objNo c.f) n) s
    else advance c (initObj s (blkOf c.w) (objNo c.f) n c.t)
def execAoinit (f : Fields) (s : State) := issue specAoinit f s aoinitBody

/-- aoarr. -/
def aoarrBody (c : Ctx) (s : State) : State :=
  withCount c 0 65535 (writeOldN c 3) s fun n =>
    withCommit c (decide (n ≠ 0 ∧ tyScopeOf c.f > 1)) s s fun s1 =>
      let s2 := writePhase c (phaseWord (getAo s1 (blkOf c.w) (objNo c.f)).phase) s1 s1
      if n ≠ 0 ∧ wentOn c s2 then arrive s2 c.w c.sp.mask (objNo c.f) n (tyScopeOf c.f) (opTag c.sp.pc) else s2
def execAoarr (f : Fields) (s : State) := issue specAoarr f s aoarrBody

/-- aoexp. -/
def aoexpBody (c : Ctx) (s : State) : State :=
  withCount c 0 (2 ^ 31 - 1) (advance c) s fun n =>
    advance c (putAo s (blkOf c.w) (objNo c.f) (aoUpdate (getAo s (blkOf c.w) (objNo c.f)) 0 (n : Int) 0 (opTag c.sp.pc) []))
def execAoexp (f : Fields) (s : State) := issue specAoexp f s aoexpBody

/-- aowt. -/
def aowtBody (c : Ctx) (s : State) : State :=
  let b := opB s c (lowLane c.sp.mask)
  let k := objNo c.f
  let o := getAo s (blkOf c.w) k
  match b.tag with
  | .n => writeOldN c 1 s
  | .x => let rs := (computeLanes c).map (fun l => (l, LaneRes.ok (⟨.x, b.data⟩ : TWord)))
          if isQ c.f.d then finishPush c rs s s else finishFixed c 1 rs s
  | .v =>
    if o.phase ≠ b.data.getLsbD 0 then
      let s1 := acquireObj s c.w k (tyScopeOf c.f)
      let rs := (computeLanes c).map (fun l => (l, LaneRes.ok (TWord.valid o.status)))
      if isQ c.f.d then finishPush c rs s s1 else finishFixed c 1 rs s1
    else if c.f.c.getLsbD 6 then writeOldN c 1 s
    else suspend c (.token k o.phase (some c.f.d.toNat) (tyScopeOf c.f)) s
def execAowt (f : Fields) (s : State) := issue specAowt f s aowtBody

/-- The end of a satisfied wait: the acquire, D, the next word; a queue D is written by a fresh issue (R255, R260). -/
def wakeSatisfied (s : State) (w k obj : Nat) (d : Option Nat) (scope : Nat) : State :=
  let s1 := acquireNow s w scope
  let sp := getSplit s w k
  match d with
  | none => wakeAdvance w k s1
  | some code =>
    if 0xE0 ≤ code ∧ code < 0xE4 then setSplit s1 w k { sp with susp := none }
    else
      let ls := if code ≥ 0xC0 then [0] else lanesOf sp.mask
      wakeAdvance w k (writeNow s1 w code (ls.map (fun l => (l, TWord.valid (getAo s (blkOf w) obj).status))))

/-- The end of aoinit's wait (R258). -/
def wakeAoinit (s : State) (w k obj n : Nat) : State := wakeAdvance w k (initObj s (blkOf w) obj n (getCore s (coreOf s w)).cyc)

/-! ### mwait (R265, R266) -/

/-- v cc B under the signedness of TY (R265). -/
def monHolds (cc : Nat) (ty : BitVec 4) (v b : Word) : Bool := intHolds cc ty v b

/-- Reads the location of a lane, at the level of the scope: its word and whether the lane is resolved. The condition makes it acquire; a data
fault resolves it with X, which still acquires (R223, R265). -/
def monRead (s : State) (o : Op) (ty : BitVec 4) (cc scope : Nat) (m : MonLane) : State × MonLane × Option TWord :=
  if !accReady s o m.acc then (s, m, none)
  else
    let key := accKey s m.acc
    let r := readAcc (invScope s (dieOf s o.w) scope (fun k => decide (key ≤ k) && decide (k < key + m.acc.size))) o ty none m.acc
    let v := r.2.2.headD TWord.zero
    let m' := { m with last := v.data, read := true }
    if v.tag = .x then (acquireNow r.1 o.w scope, m', some v)
    else if monHolds cc ty v.data m.b then
      (acquireRead (acquireNow r.1 o.w scope) o (blkOf o.w) (some scope) m.acc.lane (marksAt r.1 key m.acc.size), m', some v)
    else (r.1, m', none)

/-- A read of a lane's location would resolve it or return another value than the last one (R266). -/
def monDue (s : State) (o : Op) (ty : BitVec 4) (cc scope : Nat) (m : MonLane) : Bool :=
  m.out.isNone && (let r := monRead s o ty cc scope m; r.2.2.isSome || decide (r.2.1 ≠ m))

/-- Reads every lane of a monitor that is not resolved, or resolves those whose limit has passed with N. -/
def monLane (s : State) (o : Op) (ty : BitVec 4) (cc scope : Nat) (limits : Bool) (m : MonLane) : State × MonLane :=
  if m.out.isSome then (s, m)
  else
    let p := if limits then (s, m, none) else monRead s o ty cc scope m
    let late := p.2.1.read && (match m.limit with | some x => decide (x ≤ (getCore s (coreOf s o.w)).cyc) | none => false)
    (p.1, { p.2.1 with out := p.2.2.or (if late then some ⟨.n, p.2.1.last⟩ else none) })

/-- A step of a monitor: D is written, or a queue D pushed, once every lane is resolved, so that a wait that is abandoned leaves no
effect (R451). -/
def monStep (s : State) (o : Op) (limits : Bool) : State :=
  match o.kind with
  | .monitor lanes d ty cc scope =>
    let r := lanes.foldl (fun (acc : State × List MonLane) m =>
      let p := monLane acc.1 o ty cc scope limits m
      (p.1, acc.2 ++ [p.2])) (s, [])
    if r.2.any (fun m => m.out.isNone) then setOpKind r.1 o.id (.monitor r.2 d ty cc scope)
    else finishOp r.1 o (r.2.filterMap (fun m => m.out.map (fun v => (d, m.acc.lane, v))))
  | _ => s

/-- mwait. -/
def mwaitBody (c : Ctx) (s : State) : State :=
  let a := agentC c s
  let cc := (modOf c.f).toNat / 16 % 8
  let size := tyBytes c.f.ty
  let rs := (computeLanes c).map (fun l => (l, loadLane s c [opA s c l, opB s c l, opC s c l] l (fun _ =>
    chkLane s a .load l (opA s c l).data size 1 0 0 0)))
  let settled := settledOf rs
  let s := walkedAll s a (refusedVas rs)
  decideLanes c s rs <|
  match settledPoison c settled with
  | some r => raise c r s
  | none =>
    let xs := opAccs rs
    pushGate c (xs.map (·.lane)) s <|
    let s1 := touchAll (popAll s c.w c.sp.mask (specMwait.reads c.f)) a .load (accsOf rs)
    let mons := xs.map (fun x =>
      let n := (opC s c x.lane).data.toNat % 2 ^ 32
      { acc := x, b := (opB s c x.lane).data, limit := if n = 2 ^ 32 - 1 then none else some (c.t + n), last := 0, read := false, out := none : MonLane })
    if mons.isEmpty then settleAll c settled s1
    else
      let id := s1.nextOp
      let ls := mons.map (·.acc.lane)
      let o : Op := { id := id, w := c.w, lanes := maskOf (fun l => ls.contains l), cls := none, dst := dstOf c.f.d.toNat ls,
                      push := pushTo c ls, denied := [], kind := .monitor mons c.f.d.toNat c.f.ty cc (scopeOf c.f), word := c.word, path := c.path,
                      issuer := c.sp.mask, routes := s.routes }
      let s2 := settleNow c settled s1
      let s3 := monStep (suspend c (.op id) { s2 with ops := s2.ops ++ [o], nextOp := id + 1 }) o false
      if (findOp s3 id).isNone ∧ o.push.isNone then advance c s3 else s3
def execMwait (f : Fields) (s : State) := issue specMwait f s mwaitBody

/-- The monitor that a split waits for. -/
def monOf (s : State) (w k : Nat) : Option Op :=
  match (getSplit s w k).susp with
  | some (.op id) => (findOp s id).bind (fun o => match o.kind with | .monitor .. => some o | _ => none)
  | _ => none

/-- A monitor step of a split; a split whose monitor is done continues with the next word. -/
def monEvent (s : State) (w k : Nat) (limits : Bool) : State :=
  match monOf s w k with
  | none => s
  | some o =>
    let s1 := monStep s o limits
    if (findOp s1 o.id).isNone ∧ o.push.isNone then wakeAdvance w k s1 else s1

/-- MONITOR_RECHECK (R266). -/
def execMonitorRecheck (w k : Nat) (s : State) : Host.Outcome State Fault Refusal := .next (monEvent s w k false)
/-- MWAIT_LIMIT (R265). -/
def execMwaitLimit (w k : Nat) (s : State) : Host.Outcome State Fault Refusal := .next (monEvent s w k true)

end Sys2Proof.Machine
end

