-- ==== Sys2Proof/Machine/Copies.lean ====
section
/-!
DEFINITION. Tensor descriptors, copies and circular buffers: the instructions 0x140 to 0x14D and the steps TDSET_COMPLETE,
COPY_COMPLETE, MULTICAST_DELIVERY and FORWARDED_TRAFFIC (R268 to R287).
-/
namespace Sys2Proof.Machine

/-! ### tdset and tdget (R270) -/

def tdKey (b n : Nat) : Nat := 16 * b + n
def getTd (s : State) (b n : Nat) : Nat := sget 0 s.tds (tdKey b n)

def specTdset : OpSpec := { specMem 0x140 with a := scalarA, b := scalarImmB, ty := tySel 0xFFFF, reads := rdAB }
def specTdget : OpSpec := { specMem 0x141 with d := dstD, b := scalarImmB, ty := tySel 0xFFFF, reads := fun f => [f.b], cnt := some .ld }

/-- A `tdset` of one of the slots has not completed. -/
def tdBusy (s : State) (b : Nat) (slots : List Nat) : Bool :=
  s.ops.any (fun o => decide (blkOf o.w = b) && (match o.kind with | .tdset n _ => slots.contains n | _ => false))

/-- Issues a word that names descriptor slots: it is not ready while a `tdset` of one of them runs. -/
def tdIssue (slots : Nat → List Nat) (spec : OpSpec) (f : Fields) (s : State) (body : Ctx → State → State) : Host.Outcome State Fault Refusal :=
  match s.cur with
  | none => .next s
  | some cu => if tdBusy s (blkOf cu.w) (slots (blkOf cu.w)) then .next (holdUntil (issueTime s cu.w cu.k + 1) s cu) else issue spec f s body

/-- Tile-store accesses of the split's threads are outstanding. -/
def tileAccesses (s : State) (w : Nat) (m : Mask) : Bool :=
  (accessOps s w m).any (fun o => (match o.kind with
    | .load accs _ _ _ _ => accs.any (fun x => decide (x.key ≥ tileBase 0))
    | .store accs _ _ _ => accs.any (fun x => decide (x.key ≥ tileBase 0))
    | .atomic accs _ => accs.any (fun x => decide (x.key ≥ tileBase 0))
    | _ => false))

/-- R37: an X operand of a word that acts once for its split. -/
def raisePoison (c : Ctx) (p : Word) (s : State) : State := raise c (poisonTrap c.sp.mask ((actives c).map (fun l => (l, p)))) s

/-- tdset. -/
def tdsetBody (c : Ctx) (s : State) : State :=
  let l := lowLane c.sp.mask
  let b := blkOf c.w
  match tagRule [opA s c l, opB s c l] with
  | .nullified => advance c s
  | .poisoned p => raisePoison c p s
  | .normal =>
    let off := (addrOf s c l).toNat
    if off % 128 ≠ 0 then raiseAll c causeAlign 0 s
    else if off + 128 > (getBlock s b).tsbytes then raiseAll c causeIllegalOperand 0x02 s
    else
      let d := rdMem s (tileBase b + off) 128
      if !tdValid d then raiseAll c causeIllegalOperand 0x0B s
      else advance c (startOp s c.w c.sp.mask none [] (.tdset c.f.ty.toNat d))
/-- tdset waits for the split's earlier tile-store accesses. -/
def execTdset (f : Fields) (s : State) : Host.Outcome State Fault Refusal :=
  match s.cur with
  | none => .next s
  | some cu =>
    if tileAccesses s cu.w (getSplit s cu.w cu.k).mask then .next (holdUntil (issueTime s cu.w cu.k + 1) s cu)
    else tdIssue (fun _ => [f.ty.toNat]) specTdset f s tdsetBody

/-- tdget: a result computed at issue and written at completion; X traps (R37, R270). -/
def tdgetBody (c : Ctx) (s : State) : State :=
  let b := opB s c (lowLane c.sp.mask)
  let settle (v : Nat → TWord) : State :=
    let ws := (computeLanes c).map (fun l => (l, v l))
    match settledPoison c ws with
    | some r => raise c r s
    | none => settleAll c ws s
  match b.tag with
  | .n => settle (fun l => ⟨.n, (rdReg s c.w c.f.d.toNat l).data⟩)
  | .x => raisePoison c b.data s
  | .v =>
    let d := getTd s (blkOf c.w) c.f.ty.toNat
    if d = 0 then raiseAll c causeIllegalOperand 0x0B s
    else pushGate c (computeLanes c) s <|
      let v := TWord.valid (BitVec.ofNat 64 (d / 2 ^ (64 * (b.data.toNat % 16))))
      let ls := computeLanes c
      startVar c .ld c.sp.mask ls (.result (ls.map (fun l => (c.f.d.toNat, l, v)))) s
def execTdget (f : Fields) (s : State) := tdIssue (fun _ => [f.ty.toNat]) specTdget f s tdgetBody

/-- TDSET_COMPLETE (R270). -/
def execTdsetComplete (id : Nat) (s : State) : Host.Outcome State Fault Refusal :=
  match findOp s id with
  | some o =>
    match o.kind with
    | .tdset n d => .next { endOp s id with tds := sset 0 s.tds (tdKey (blkOf o.w) n) d }
    | _ => .next s
  | none => .next s

/-! ### Rows of the copies (R271, R273) -/

def mdN (f : Fields) : Nat := f.md.toNat % 16
def mdK (f : Fields) : Nat := f.md.toNat / 16 % 64
def mdCb (f : Fields) : Bool := f.md.getLsbD 10
def mdScopeC (f : Fields) : Nat := f.md.toNat / 4096 % 8

/-- A group of n scalar registers; the origin group may be `zero`, and any other code has subcode 0x04 (R271). The immediate in B or C has
subcode 0x08 by MOD's check (R273). -/
def groupOf (get : Fields → BitVec 8) (inA zeroOk : Bool) (n : Nat) : Chk := fun e =>
  let x := get e.f
  if isImm x && !inA then none
  else if isS x && decide (x.toNat - 0xC0 + n ≤ 32) then none else if zeroOk && isZ x then none else some 0x04
/-- The codes of a group. -/
def groupRegs (x : BitVec 8) (n : Nat) : List (BitVec 8) := if isZ x then List.replicate n x else groupCodes x n

def orgRegs (rank : Nat) : Nat := (rank + 1) / 2
def extRegs (rank : Nat) : Nat := (rank + 3) / 4

/-- MOD of a copy: allowed bits and the least scope. -/
def mdCopy (cb : Bool) (low : Nat) : Chk :=
  Chk.and noImm (Chk.and (mdBits (if cb then 0x77FF else 0x73FF))
    (chkIf 0x04 (fun e => decide (mdScopeC e.f ≥ low))))
/-- With .cbK, K is a buffer number. -/
def mdCbK : Chk := chkIf 0x04 (fun e => !mdCb e.f || decide (mdK e.f < 32))

/-- A copy whose first descriptor has the rank given: A is an offset, B the origin group, C the extent group. -/
def specCopy (op : BitVec 9) (rank : Nat) (md : Chk) : OpSpec :=
  { specMem op with
    a := scalarA, b := groupOf (·.b) false true (orgRegs rank), c := groupOf (·.c) false false (extRegs rank), md := md,
    reads := fun f => f.a :: (groupRegs f.b (orgRegs rank) ++ groupRegs f.c (extRegs rank)), cnt := some .cp }
def specTcpgl (rank : Nat) : OpSpec := specCopy 0x142 rank (Chk.and (mdCopy true 1) mdCbK)
def specTcplg (rank : Nat) : OpSpec := specCopy 0x143 rank (mdCopy false 1)
/-- tcpgg: A is the origin group of the destination, whose descriptor is TY. -/
def specTcpgg (rank rank2 : Nat) : OpSpec :=
  { specCopy 0x144 rank (mdCopy false 1) with
    a := groupOf (·.a) true true (orgRegs rank2), ty := tySel 0xFFFF,
    reads := fun f => groupRegs f.a (orgRegs rank2) ++ groupRegs f.b (orgRegs rank) ++ groupRegs f.c (extRegs rank) }
/-- tcpmc: D is the rank mask, TY the buffer of the recipients. -/
def specTcpmc (rank : Nat) : OpSpec :=
  { specCopy 0x145 rank (mdCopy true 2) with d := chkAny, ty := chkIf 0x04 (fun e => mdCb e.f || decide (e.f.ty = 0)) }
def specTcpred (rank : Nat) : OpSpec := specCopy 0x146 rank (mdCopy false 1)
/-- D as the stamp pair: two scalar registers, or `zero` (R273). -/
def stampD : Chk := fun e =>
  if isImm e.f.d then some 0x03
  else if isL e.f.d then some 0x04
  else (badReg { e with vregs := 192 } e.f.d).or (if isZ e.f.d || (isS e.f.d && decide (e.f.d.toNat ≤ 0xDE)) then none else some 0x04)
def specTcpst (rank : Nat) : OpSpec :=
  { specCopy 0x147 rank (mdCopy false 1) with
    d := stampD,
    reads := fun f => f.a :: (groupRegs f.b (orgRegs rank) ++ groupRegs f.c (extRegs rank) ++ groupRegs f.d 2) }
/-- tcppf: no offset, no scope, no counter. -/
def specTcppf (rank : Nat) : OpSpec :=
  { specCopy 0x148 rank (Chk.and noImm (Chk.and (mdBits 0x3F) (chkIf 0x04 (fun e => decide (e.f.md.toNat / 16 % 4 ≤ 1))))) with
    a := unusedA, reads := fun f => groupRegs f.b (orgRegs rank) ++ groupRegs f.c (extRegs rank), cnt := none }

/-- The rank of a slot, 1 while it is unloaded: the operand groups of an unloaded slot are taken as one register (the word traps in any
case, R274 step 2). -/
def slotRank (s : State) (b n : Nat) : Nat := let d := getTd s b n; if d = 0 then 1 else tdRank d

/-! ### Issue (R274, R275) -/

/-- The words of a group. -/
def groupWords (s : State) (c : Ctx) (x : BitVec 8) (n : Nat) : List TWord :=
  (groupRegs x n).map (fun r => if isZ r then TWord.zero else readC s c r.toNat 0)

/-- Origins from a group (R271). -/
def originsOf (rank : Nat) (ws : List TWord) : List Int :=
  (List.range rank).map (fun i => (BitVec.ofNat 32 ((ws.getD (i / 2) TWord.zero).data.toNat / 2 ^ (32 * (i % 2)))).toInt)
/-- Extents from a group (R271). -/
def extentsOf (rank : Nat) (ws : List TWord) : List Nat :=
  (List.range rank).map (fun i => (ws.getD (i / 4) TWord.zero).data.toNat / 2 ^ (16 * (i % 4)) % 2 ^ 16)

/-- The words a copy reads (R274 step 1). -/
def copyWords (kind : Nat) (s : State) (c : Ctx) : List TWord :=
  let b := blkOf c.w
  let r := slotRank s b (mdN c.f)
  let box := groupWords s c c.f.b (orgRegs r) ++ groupWords s c c.f.c (extRegs r)
  match kind with
  | 4 => groupWords s c c.f.a (orgRegs (slotRank s b c.f.ty.toNat)) ++ box
  | 7 => opA s c 0 :: (box ++ groupWords s c c.f.d 2)
  | 8 => box
  | _ => opA s c 0 :: box

/-- The copy that a word describes (R271, R273). -/
def copyOf (kind : Nat) (s : State) (c : Ctx) : CopyOp :=
  let b := blkOf c.w
  let d := getTd s b (mdN c.f)
  let d2 := getTd s b c.f.ty.toNat
  let cb := (kind = 2 || kind = 5) && mdCb c.f
  { kind := kind, core := coreOf s c.w, sup := c.sp.sup, desc := d, desc2 := if kind = 4 then d2 else 0,
    org := originsOf (tdRank d) (groupWords s c c.f.b (orgRegs (tdRank d))),
    org2 := if kind = 4 then originsOf (tdRank d2) (groupWords s c c.f.a (orgRegs (tdRank d2))) else [],
    ext := extentsOf (tdRank d) (groupWords s c c.f.c (extRegs (tdRank d))),
    off := if kind = 4 ∨ kind = 8 then 0 else (opA s c 0).data.toNat,
    obj := if kind = 2 ∧ cb then 0 else if kind = 8 then 0 else mdK c.f,
    cb := if cb then some (if kind = 2 then mdK c.f else c.f.ty.toNat) else none,
    mask := if kind = 5 then c.f.d.toNat else 0, scope := mdScopeC c.f, tag := opTag c.sp.pc, pages := [], stamp := none,
    todo := if kind = 5 then (List.range 8).filter (fun r => c.f.d.getLsbD r) else [], sent := [], elems := [], srcPages := [], flags := 0 }

def getCb (s : State) (b k : Nat) : CBuf := sget CBuf.init s.cbs (32 * b + k)
def setCb (s : State) (b k : Nat) (x : CBuf) : State := { s with cbs := sset CBuf.init s.cbs (32 * b + k) x }

/-- The slot that starts at an offset (R284). -/
def slotAt (x : CBuf) (off : Nat) : Option Nat :=
  if x.size = 0 ∨ off < x.base ∨ (off - x.base) % x.size ≠ 0 ∨ (off - x.base) / x.size ≥ x.slots.length then none else some ((off - x.base) / x.size)
def slotState (x : CBuf) (i : Nat) : CbSlot := x.slots.getD i CbSlot.init

/-- Blocks that a cluster has. -/
def clusterSize (s : State) (b : Nat) : Nat := (getBlock s b).csize

/-- Whether a side of the copy is a tile store. -/
def usesTile (kind : Nat) : Bool := decide (kind ≠ 4 ∧ kind ≠ 8)

/-- Steps 2 to 7 of R274. -/
def copyFault (s : State) (c : Ctx) (x : CopyOp) : Option (Nat × Nat) :=
  let b := blkOf c.w
  let bl := getBlock s b
  let ety := tdEty x.desc
  let bytes := boxBytes x.desc x.ext
  let bad (p : Bool) (cause sub : Nat) : Option (Nat × Nat) := if p then some (cause, sub) else none
  let gg := decide (x.kind = 4)
  (bad (decide (x.desc = 0) || (gg && decide (x.desc2 = 0))) causeIllegalOperand 0x0B).or <|
  (bad (decide (x.obj ≠ 0 ∧ x.obj ≥ bl.naos) || (match x.cb with | some k => decide (k ≥ bl.ncb) | none => false)) causeIllegalOperand 0x02).or <|
  (bad (x.ext.any (fun e => decide (e = 0)) || (usesTile x.kind && decide (boxHalf x.desc x.ext > 2 ^ 20)) || (gg && decide (boxHalf x.desc x.ext > 2 ^ 33)) ||
      (decide (ety = 14) && decide (x.org.headD 0 % 2 ≠ 0 ∨ x.ext.headD 0 % 2 ≠ 0)) ||
      (gg && (decide (halfBytes ety ≠ halfBytes (tdEty x.desc2)) || decide (tdRank x.desc ≠ tdRank x.desc2) ||
        (decide (ety = 14 ∨ tdEty x.desc2 = 14) && decide (ety ≠ tdEty x.desc2)) || (decide (ety = 14) && decide (x.org2.headD 0 % 2 ≠ 0)))))
    causeIllegalOperand 0x0A).or <|
  (bad (decide (x.kind = 6) && !(0x3CC).testBit ety) causeIllegalOperand 0x05).or <|
  (bad (usesTile x.kind && decide (x.off % 16 ≠ 0)) causeAlign 0).or <|
  (bad (usesTile x.kind && decide (x.off + bytes > bl.tsbytes)) causeIllegalOperand 0x02).or <|
  (bad (decide (x.kind = 5) && decide (x.mask / 2 ^ clusterSize s b ≠ 0)) causeMcastRange 0x01).or <|
  (bad (decide (x.kind = 5 ∧ x.mask = 0)) causeIllegalOperand 0x04).or <|
  (match x.cb, decide (x.kind = 2) with
    | some k, true =>
      let cb := getCb s b k
      match slotAt cb x.off with
      | some i => bad (decide ((slotState cb i).st ≠ 1 ∨ bytes > cb.size)) causeIllegalOperand 0x0A
      | none => some (causeIllegalOperand, 0x0A)
    | _, _ => none)

/-- Copies of a core in flight (R282). -/
def coreCopies (s : State) (core : Nat) : Nat :=
  (s.ops.filter (fun o => match o.kind with | .copy x => decide (x.core = core) | _ => false)).length

/-- The bytes a copy registers on its object at issue (R254, R279). -/
def copyRegisters (s : State) (b : Nat) (x : CopyOp) : Nat :=
  if x.obj = 0 then 0
  else if x.kind = 5 then (if x.cb.isNone && x.mask.testBit (getBlock s b).rank then boxBytes x.desc x.ext else 0)
  else boxBytes x.desc x.ext

/-- A page cause names its address in every lane (R274). -/
def raiseVa (c : Ctx) (cause sub va : Nat) (s : State) : State :=
  raise c { cause := cause, sub := sub, lanes := c.sp.mask, retry := c.sp.mask, vals := (actives c).map (fun l => (l, BitVec.ofNat 64 va)) } s

/-- Step 8 of R274: the pages of the global destination, and the stamp. -/
def copyWalk (s : State) (a : Agent) (x : CopyOp) (stamp : Option (Nat × Nat)) : WalkDst × Option (Leaf × Acc) :=
  let n := max 1 (halfBytes (tdEty x.desc) / 2)
  let dst := walkDst s a (if x.kind = 6 then .far else .store) n (((copyDst x).filterMap id).map (· / 2)) [] none
  match dst, stamp with
  | .ok pages, some (va, v) =>
    if va % 8 ≠ 0 then (.trap causeAlign 0 va, none)
    else match walkDst s a .store 8 [va] [] none with
      | .ok _ =>
        match checkAddr s a va 8 .store with
        | .ok l key => (.ok pages, some (l, { lane := 0, va := va, key := key, size := 8, n := 1, sw := decide (l.coh = 1), data := v, pol := 0, also := [],
                                              cmp := 0, ver := if l.ver then some (l.base, va % 2 ^ 16) else none, hand := none }))
        | _ => (.ok pages, none)
      | r => (r, none)
  | r, _ => (r, none)

/-- Fills the four sectors of a line of a SW page into a die cache (R21, R281). -/
def fillLine (s : State) (die key : Nat) : State :=
  (List.range 4).foldl (fun s i => fillSector s (dcOf die) (key / 1024 * 1024 + 256 * i) (rdByte s) id) s

/-- tcppf `.dc`: the lines of in-bounds elements come into the die cache, those of pages that fail translation apart; only SW bytes can lie there
otherwise than at their home (R187, R281). `.l2` has no effect on any value read. -/
def prefetchBox (s : State) (a : Agent) (x : CopyOp) (lvl : Nat) : State :=
  let hits := ((boxAddrs x.desc x.org x.ext).filterMap id).filterMap (fun h => match checkAddr s a (h / 2) 1 .load with
    | .ok l key => some (h / 2, l, key)
    | _ => none)
  hits.foldl (fun s e =>
    let s1 := touch s a e.1 e.2.1 false
    if lvl ≠ 0 ∨ classBarred s a.die e.2.1.cls then s1
    else let s2 := dcTouch s1 a.die e.2.1.cls 0 e.2.2; if e.2.1.coh = 1 then fillLine s2 a.die e.2.2 else s2) s

/-- Issues a copy (R274). -/
def copyBody (kind : Nat) (c : Ctx) (s : State) : State :=
  let b := blkOf c.w
  match tagRule (copyWords kind s c) with
  | .nullified => advance c s
  | .poisoned p => raisePoison c p s
  | .normal =>
    let x := copyOf kind s c
    match copyFault s c x with
    | some e => raiseAll c e.1 e.2 s
    | none =>
      if kind = 8 then advance c (prefetchBox s (agentC c s) x (c.f.md.toNat / 16 % 4))
      else
        let a := agentC c s
        let sw := groupWords s c c.f.d 2
        let w := copyWalk s a x (if kind = 7 then some ((sw.getD 0 TWord.zero).data.toNat, (sw.getD 1 TWord.zero).data.toNat) else none)
        match w.1 with
        | .trap cause sub va => raiseVa c cause sub va (walked s a va)
        | .wait y => suspend c y s
        | .ok pages =>
          let far := pages.any (fun e => decide (leafKey s a.die e.2 e.1 ≥ regBase)) || (match w.2 with | some e => decide (e.2.key ≥ regBase) | none => false)
          let commits := decide (kind = 6) || far || (decide (x.scope > 1) && (decide (x.obj ≠ 0) || x.cb.isSome || decide (kind = 7)))
          withCommit c commits s s fun s1 =>
            let s2 := pages.foldl (fun s e => touch s a e.1 e.2 true) s1
            let s3 := match w.2 with | some e => touch s2 a e.2.va e.1 true | none => s2
            let n := copyRegisters s3 b x
            let s4 := stampOp c (startOp s3 c.w c.sp.mask (some .cp) []
              (.copy { x with pages := pages, stamp := w.2.map (·.2), srcPages := (w.2.map (fun e => (pageStart a e.2.va, some e.1))).toList }))
            advance c (if n ≠ 0 then aoRegister s4 b x.obj n x.tag else s4)

/-- A copy issues unless its core's engine is full or a slot it names is being loaded (R270, R274). -/
def copyExec (kind : Nat) (spec : OpSpec) (f : Fields) (s : State) : Host.Outcome State Fault Refusal :=
  match s.cur with
  | none => .next s
  | some cu =>
    if kind ≠ 8 ∧ coreCopies s (coreOf s cu.w) ≥ 64 then .next (holdUntil (issueTime s cu.w cu.k + 1) s cu)
    else tdIssue (fun _ => if kind = 4 then [mdN f, f.ty.toNat] else [mdN f]) spec f s (copyBody kind)

/-- The rank of the descriptor that a word about to issue names. -/
def curRank (s : State) (n : Nat) : Nat := match s.cur with | some cu => slotRank s (blkOf cu.w) n | none => 1

def execTcpgl (f : Fields) (s : State) := copyExec 2 (specTcpgl (curRank s (mdN f))) f s
def execTcplg (f : Fields) (s : State) := copyExec 3 (specTcplg (curRank s (mdN f))) f s
def execTcpgg (f : Fields) (s : State) := copyExec 4 (specTcpgg (curRank s (mdN f)) (curRank s f.ty.toNat)) f s
def execTcpmc (f : Fields) (s : State) := copyExec 5 (specTcpmc (curRank s (mdN f))) f s
def execTcpred (f : Fields) (s : State) := copyExec 6 (specTcpred (curRank s (mdN f))) f s
def execTcpst (f : Fields) (s : State) := copyExec 7 (specTcpst (curRank s (mdN f))) f s
/-- tcppf (R281). -/
def execTcppf (f : Fields) (s : State) := copyExec 8 (specTcppf (curRank s (mdN f))) f s

/-! ### When an engine may act (R234, R283) -/

/-- An access of which a word has been performed, and a word has not, touches a range of keys: the range is taken after it (R234). -/
def begunOver (s : State) (mine : List (Nat × Nat)) : Bool :=
  s.ops.any (fun e => (accsOfOp e).any (fun x => accBegun x && x.given.isNone && mine.any (fun q =>
    decide (accKey s x / 1024 ≤ (q.1 + q.2 - 1) / 1024) && decide (q.1 / 1024 ≤ (accKey s x + x.size * x.n - 1) / 1024))))

/-- An engine operation may be performed: its threads' earlier accesses are done, earlier owners of its lines are done, no access has been
performed at them in part, its versioned destination pages have a working frame, and the links to its destinations are up (R234, R283, R404). -/
def engineFree (s : State) (o : Op) (pages : List (Nat × Leaf)) : Bool :=
  !s.ops.any (fun e => decide (e.id < o.id) && decide (e.w = o.w) && decide (e.lanes &&& o.lanes ≠ 0) && isAccess e) &&
    !pages.any (fun e => (e.2.ver && !vdbWv (rdVdb s e.2.base)) || linkHeld s o e.2) &&
    (let mine := ownedRanges s o
     mine.isEmpty || !begunOver s mine && !s.ops.any (fun e => decide (e.id < o.id) && (ownedRanges s e).any (fun r => mine.any (fun q =>
       decide (r.1 / 1024 ≤ (q.1 + q.2 - 1) / 1024) && decide (q.1 / 1024 ≤ (r.1 + r.2 - 1) / 1024)))))

/-! ### The pieces of a copy (R206, R276, R283)

A copy reads its source and writes its destination by 8-byte words, in an order that the engine chooses. -/

/-- The source is in global memory; the destination is in the issuing block's tile store; the source is. -/
def fromGlobal (x : CopyOp) : Bool := decide (x.kind = 2 ∨ x.kind = 4 ∨ x.kind = 5)
def toTile (x : CopyOp) : Bool := decide (x.kind = 2)
def fromTile (x : CopyOp) : Bool := decide (x.kind = 3 ∨ x.kind = 6 ∨ x.kind = 7)

/-- Where element j stands in a tile store, in half bytes from its start. -/
def tileHalf (x : CopyOp) (j : Nat) : Nat := 2 * x.off + halfBytes (tdEty x.desc) * j

/-- The half-byte address of element j's source, none out of bounds; of its destination. -/
def srcHalf (x : CopyOp) (j : Nat) : Option Nat := if fromGlobal x then elemAddr x.desc x.org x.ext j else some (tileHalf x j)
def dstHalf (x : CopyOp) (j : Nat) : Option Nat :=
  if toTile x then some (tileHalf x j) else if x.kind = 4 then elemAddr x.desc2 x.org2 x.ext j else elemAddr x.desc x.org x.ext j

/-- The 8-byte word of an element's place; an element out of bounds stands alone. -/
def wordOf (h : Option Nat) (j : Nat) : Nat := match h with | some a => a / 16 | none => 2 ^ 100 + j

/-- Elements of a word. -/
def srcElems (x : CopyOp) (w : Nat) : List Nat := (List.range (boxCount x.ext)).filter (fun j => wordOf (srcHalf x j) j = w)
def dstElems (x : CopyOp) (w : Nat) : List Nat := (List.range (boxCount x.ext)).filter (fun j => wordOf (dstHalf x j) j = w)

/-- Words whose elements are still to be read; words whose elements have all been read and are still to be written. -/
def unread (x : CopyOp) : List Nat :=
  (((List.range (boxCount x.ext)).filter (fun j => elemSt x j = 0)).map (fun j => wordOf (srcHalf x j) j)).dedup
def unwritten (x : CopyOp) : List Nat :=
  if x.kind = 5 then []
  else ((((List.range (boxCount x.ext)).filter (fun j => elemSt x j = 1 ∨ elemSt x j = 2)).map (fun j => wordOf (dstHalf x j) j)).dedup).filter
    (fun w => (dstElems x w).all (fun j => elemSt x j ≠ 0))

/-- Every element has been read; every element has been written. -/
def allRead (x : CopyOp) : Bool := (List.range (boxCount x.ext)).all (fun j => elemSt x j ≠ 0)
def allWritten (x : CopyOp) : Bool := (List.range (boxCount x.ext)).all (fun j => elemSt x j = 3)

/-- The outcome of the checks of a source address: through the translation that the copy holds of its page, or a fresh one (R282). -/
def srcChk (s : State) (a : Agent) (x : CopyOp) (addr : Nat) : ChkRes :=
  let va := addr / 2
  let sz := halfBytes (tdEty x.desc)
  match x.srcPages.find? (fun e => e.1 = pageStart a va) with
  | some (_, some l) => checkLeaf s a va (max 1 (sz / 2)) .load l
  | some (_, none) => .fail 3 causePageInvalid 0x01
  | none => engineChk s a addr sz

/-- The page that a source element stalls on. -/
def readStall (s : State) (a : Agent) (x : CopyOp) (w : Nat) : Option Wait :=
  if !fromGlobal x then none
  else (srcElems x w).findSome? (fun j => match srcHalf x j with
    | some h => (match srcChk s a x h with | .stall table host => some (pageWait a [h / 2] 3 table host) | _ => none)
    | none => none)

/-- A source element of a word lies in a peer whose link is down (R404). -/
def readHeld (s : State) (o : Op) (a : Agent) (x : CopyOp) (w : Nat) : Bool :=
  fromGlobal x && (srcElems x w).any (fun j => match srcHalf x j with
    | some h => (match srcChk s a x h with | .ok l _ => linkHeld s o l | _ => false)
    | none => false)

/-- A piece of a copy that can be performed next: whether it writes, and its word. Several are in no order (log 29). -/
def copyPieces (s : State) (o : Op) (x : CopyOp) : List (Bool × Nat) :=
  let a := copyAgent s o x
  ((unread x).filter (fun w => (readStall s a x w).isNone && !readHeld s o a x w)).map (fun w => (false, w)) ++ (unwritten x).map (fun w => (true, w))

/-- The pages that stall a copy of which nothing can be performed. -/
def copyStall (s : State) (o : Op) (x : CopyOp) : Option Wait :=
  if !(copyPieces s o x).isEmpty then none else (unread x).findSome? (readStall s (copyAgent s o x) x)

/-- The piece that comes next, by a free choice. -/
def nextPieceOf (s : State) (o : Op) (x : CopyOp) : Option (Bool × Nat) :=
  match copyPieces s o x with
  | [] => none
  | p :: r => some ((p :: r).getD (Config.nextPiece ((s.free * 2 ^ 40 + o.id) * 2 ^ 40 + x.elems.length * 2 + 1) % (r.length + 1)) p)

/-- A copy may go on. -/
def copyFree (s : State) (o : Op) (x : CopyOp) : Bool := engineFree s o x.pages

/-- Reads one element: the copy with it. -/
def readElem (s : State) (b : Nat) (a : Agent) (x : CopyOp) (j : Nat) : State × CopyOp :=
  let sz := halfBytes (tdEty x.desc)
  match srcHalf x j with
  | none => (s, { x with elems := sset (0, 0) x.elems j (1, tdFill x.desc), flags := x.flags ||| flOob })
  | some h =>
    if fromGlobal x then
      let r := srcChk s a x h
      let e := engineReadAt s a r h sz
      let pg := pageStart a (h / 2)
      let held := if x.srcPages.any (fun p => p.1 = pg) then x.srcPages else (pg, match r with | .ok l _ => some l | _ => none) :: x.srcPages
      (e.1, { x with elems := sset (0, 0) x.elems j (if e.2.2 = 0 then (1, e.2.1) else (2, tdFill x.desc)), flags := x.flags ||| e.2.2, srcPages := held })
    else (s, { x with elems := sset (0, 0) x.elems j (1, rdHalf s (2 * tileBase b + h) sz) })

/-- Reads the elements of a word. -/
def readWord (s : State) (b : Nat) (a : Agent) (x : CopyOp) (w : Nat) : State × CopyOp :=
  ((srcElems x w).filter (fun j => elemSt x j = 0)).foldl (fun r j => readElem r.1 b a r.2 j) (s, x)

/-! ### Circular-buffer slots (R285) -/

/-- A copy's bytes arrive in a slot. -/
def slotUpdate (x : CBuf) (off n flags scope : Nat) (ms : List Mark) : CBuf :=
  match slotAt x off with
  | none => x
  | some i =>
    let e := slotState x i
    if e.st ≠ 1 then x
    else
      let bytes := e.bytes + n
      let f := if bytes > x.size then flags ||| flRange else flags
      { x with slots := x.slots.set i { st := if bytes ≥ x.size then 2 else 1, bytes := bytes, status := (aoFlag (BitVec.ofNat 64 e.status) f 0).toNat % 2 ^ 16,
                                        scope := max e.scope scope, marks := (ms ++ e.marks).dedup } }

/-- A slot update, held for a saved block. -/
def cbSignal (s : State) (b k off n flags scope : Nat) (ms : List Mark) : State :=
  if heldFor s b then { s with fwd := s.fwd ++ [(b, .slot k off n flags scope ms)] }
  else setCb s b k (slotUpdate (getCb s b k) off n flags scope ms)

/-! ### Completion (R278 to R280) -/

/-- The release of an operation's writes at its scope. -/
def engineRelease (s : State) (b scope : Nat) : State × List Mark := let r := performRelease s b scope; (r.1, [r.2])

/-- What a block that still holds its writes does before an engine poisons a sector: it commits (R448 leaves an early commit open). -/
def commitFor (s : State) (b : Nat) (bad : Bool) : State := if bad && provisional s b then commitBlock s b else s

/-- The sectors that an operation's elements covered, once all are written: the poison of failed elements, and the end of the poison of a sector
written whole with valid data (R186, R277, R448). -/
def coverSectors (s : State) (a : Agent) (pages : List (Nat × Leaf)) (sz : Nat) (es : List (Nat × Bool)) : State :=
  if provisional s a.blk then
    let full := es.filterMap (fun e => (dstLeaf pages a (e.1 / 2)).map (fun l => 2 * leafKey s a.die l (e.1 / 2) + e.1 % 2))
    let secs := ((full.map (· / 512)).dedup).filter (fun k => decide (((full.filter (fun e => e / 512 = k)).dedup).length * sz = 512))
    { s with provFull := ssetAll false s.provFull (secs.map (fun k => (2 ^ 80 * a.blk + k, true))) }
  else settlePoison s a pages sz es

/-- Adds an element to memory, as `fred` add does (R245, R248, R276). -/
def redElem (s : State) (a : Agent) (x : CopyOp) (addr v : Nat) : State :=
  let ty : BitVec 4 := BitVec.ofNat 4 (tdEty x.desc)
  let n := tyBytes ty
  match dstLeaf x.pages a (addr / 2) with
  | none => s
  | some l =>
    let s1 := if l.ver then verFill s l.base (addr / 2 % 2 ^ 16) false else s
    let key := leafKey s1 a.die l (addr / 2)
    match dataFault s1 a.blk key n with
    | some _ =>
      match poolOf s1 key with
      | some r => poolDiscard s1 r
      | none => if key < regBase then vesper s1 (4 + key / 2 ^ 39) 0x04 (vsource 1 (Config.bankOf key % 32)) (addr / 2) (getBlock s a.blk).launchid.toNat 0 else s1
    | none =>
      let s2 := foreignCommit (raceEngine (if l.coh = 1 then settleSw s1 a key n else s1) a.blk key l .far) a.blk key n
      writeHw s2 a.blk key n (atomNew 0 ty (rdMem s2 key n) v)

/-- Writes one element that has been read (R276, R277): the copy without it. A sector that takes a failed element is poisoned. -/
def writeElem (s : State) (b : Nat) (a : Agent) (x : CopyOp) (j : Nat) : State × CopyOp :=
  let sz := halfBytes (tdEty x.desc)
  let e := sget (0, 0) x.elems j
  let done := { x with elems := sset (0, 0) x.elems j (3, if e.1 = 2 then 1 else 0) }
  match dstHalf x j with
  | none => (s, { done with flags := done.flags ||| flOob })
  | some h =>
    if toTile x then
      (if sz = 1 then halfSend s b h e.2 else tileSend s b (h / 2) (sz / 2) e.2, done)
    else if x.kind = 6 then (redElem s a x h e.2, { done with flags := done.flags ||| lostPages s x.pages })
    else
      let s1 := putElem (commitFor s a.blk (decide (e.1 = 2))) a x.pages h sz e.2
      (if e.1 = 2 then settlePoison s1 a x.pages sz [(h, false)] else s1, { done with flags := done.flags ||| lostPages s x.pages })

/-- Writes the elements of a word, the later ones in box order last. -/
def writeWord (s : State) (b : Nat) (a : Agent) (x : CopyOp) (w : Nat) : State × CopyOp :=
  ((dstElems x w).filter (fun j => elemSt x j ≠ 3)).foldl (fun r j => writeElem r.1 b a r.2 j) (s, x)

/-- The sectors of a copy whose elements are all written. -/
def copyCover (s : State) (o : Op) (x : CopyOp) : State :=
  if x.kind = 3 ∨ x.kind = 4 ∨ x.kind = 7 then
    coverSectors s (copyAgent s o x) x.pages (halfBytes (tdEty x.desc))
      ((List.range (boxCount x.ext)).filterMap (fun j => (dstHalf x j).map (fun h => (h, decide ((sget (0, 0) x.elems j).2 = 0)))))
  else s

/-- The stamp of `tcpst` (R280). -/
def writeStamp (s : State) (o : Op) (x : CopyOp) (flags : Nat) : State :=
  match x.stamp with
  | some acc => if flags &&& 0xEF00 = 0 then (writeAcc s o (some x.scope) acc).1 else s
  | none => s

/-- The signal of a copy's completion: object or slot (R278). -/
def copySignal (s : State) (o : Op) (x : CopyOp) (flags : Nat) : State :=
  let b := blkOf o.w
  let n := boxBytes x.desc x.ext
  if x.kind = 5 then
    if x.obj = 0 then s
    else
      let r := engineRelease s b x.scope
      aoSignal r.1 b x.obj 0 (if x.cb.isNone && x.mask.testBit (getBlock s b).rank then n else 0) flags x.tag r.2
  else match x.cb with
    | some k => let r := engineRelease s b x.scope; cbSignal r.1 b k x.off n flags 1 r.2
    | none => if x.obj = 0 then s else let r := engineRelease s b x.scope; aoSignal r.1 b x.obj 0 n flags x.tag r.2

/-- Performs the next piece of a copy, or completes one of which nothing is left. -/
def copyStep (s : State) (o : Op) (x : CopyOp) : State :=
  let b := blkOf o.w
  let a := copyAgent s o x
  match nextPieceOf s o x with
  | some (w, k) =>
    let r := if w then writeWord s b a x k else readWord s b a x k
    setOpKind r.1 o.id (.copy r.2)
  | none =>
    match copyStall s o x with
    | some w => addStalls w s
    | none => if x.todo.isEmpty && (unread x).isEmpty then endOp (copySignal (writeStamp (copyCover s o x) o x x.flags) o x x.flags) o.id else s

/-- COPY_COMPLETE (R278): what remains of a copy is performed word by word, and then it completes. A copy whose source stalls posts its
stall. -/
def execCopyComplete (id : Nat) (s : State) : Host.Outcome State Fault Refusal :=
  match findOp s id with
  | some o =>
    match o.kind with
    | .copy x => .next (if copyFree s o x then copyStep s o x else s)
    | _ => .next s
  | none => .next s

/-! ### Multicast (R279) -/

/-- The box of a multicast that has been read, as dense bytes. -/
def mcData (x : CopyOp) : Nat := packElems (halfBytes (tdEty x.desc)) ((List.range (boxCount x.ext)).map (fun j => (sget (0, 0) x.elems j).2))

/-- The recipient of a rank, unless it is dropped: the block that has started and not ended, with room for the box and the object or the
reserved slot. -/
def mcTarget (s : State) (o : Op) (x : CopyOp) (rank : Nat) : Option Nat :=
  match clusterBlock s (blkOf o.w) rank with
  | none => none
  | some b =>
    let bl := getBlock s b
    let free := match x.cb with
      | some k => decide (k < bl.ncb) && (let cb := getCb s b k; match slotAt cb x.off with | some i => decide ((slotState cb i).st = 1) | none => false)
      | none => decide (x.obj = 0 ∨ x.obj < bl.naos)
    if x.off + boxBytes x.desc x.ext > bl.tsbytes ∨ !free then none else some b

/-- Words of a rank still to be delivered. -/
def mcLeft (x : CopyOp) (rank : Nat) : List Nat :=
  (List.range ((boxBytes x.desc x.ext + 7) / 8)).filter (fun w => !x.sent.contains (2 ^ 32 * rank + w))

/-- Signals a recipient that has all its bytes: its slot, or its object unless it is the issuer's own, with the source flags. -/
def mcSignal (s : State) (o : Op) (x : CopyOp) (b : Nat) : State :=
  let me := blkOf o.w
  let n := boxBytes x.desc x.ext
  let f := x.flags &&& (0xFFFF - flMcMiss)
  let r := engineRelease s me x.scope
  match x.cb with
  | some k => cbSignal r.1 b k x.off n f 2 r.2
  | none => if x.obj = 0 ∨ b = me then s else aoSignal r.1 b x.obj 0 n f x.tag r.2

/-- Delivers the next word to a rank, by a free choice, or drops the rank. -/
def mcDeliver (s : State) (o : Op) (x : CopyOp) (rank : Nat) : State × CopyOp :=
  let left := mcLeft x rank
  let rest := { x with todo := x.todo.filter (· ≠ rank) }
  match mcTarget s o x rank with
  | none => (s, { rest with flags := rest.flags ||| flMcMiss })
  | some b =>
    let w := left.getD (Config.nextPiece ((s.free * 2 ^ 40 + o.id) * 2 ^ 40 + x.sent.length * 2 + 1) % left.length) 0
    let n := boxBytes x.desc x.ext
    let s1 := tileSend s b (x.off + 8 * w) (min 8 (n - 8 * w)) (mcData x / 2 ^ (64 * w))
    if left.length ≤ 1 then (mcSignal s1 o rest b, rest) else (s1, { x with sent := (2 ^ 32 * rank + w) :: x.sent })

/-- MULTICAST_DELIVERY (R279): the next word of a box that has been read, for one rank. -/
def execMulticastDelivery (id rank : Nat) (s : State) : Host.Outcome State Fault Refusal :=
  match findOp s id with
  | some o =>
    match o.kind with
    | .copy x =>
      if !x.todo.contains rank || !copyFree s o x || !allRead x then .next s
      else let d := mcDeliver s o x rank; .next (setOpKind d.1 id (.copy d.2))
    | _ => .next s
  | none => .next s

/-! ### Traffic for blocks that were saved (R287) -/

def applyFwd (s : State) (b : Nat) (x : Fwd) : State :=
  match x with
  | .obj k c n flags tag ms => aoEngine s b k c n flags tag ms
  | .slot k off n flags scope ms => setCb s b k (slotUpdate (getCb s b k) off n flags scope ms)
  | .bytes off n data => wrMem s (tileBase b + off) n data
  | .half pos data => writeHalf s b pos data

/-- FORWARDED_TRAFFIC: what was held for a block is applied, in the order it reached the old core, once the block is resident. -/
def execForwardedTraffic (b : Nat) (s : State) : Host.Outcome State Fault Refusal :=
  if (getBlock s b).state ≠ 1 then .next s
  else
    let mine := s.fwd.filter (fun e => e.1 = b)
    .next (mine.foldl (fun s e => applyFwd s b e.2) { s with fwd := s.fwd.filter (fun e => e.1 ≠ b) })

/-! ### Circular buffers (R284 to R286) -/

def mdBuf (f : Fields) : Nat := f.md.toNat % 32
/-- The buffer lies within the allocation (R32). -/
def mdBufOk (bits : BitVec 16) : Chk := Chk.and (mdBits bits) (chkIf 0x02 (fun e => decide (mdBuf e.f < e.ncb)))
/-- D as a scalar register or `zero` (R285). -/
def scalarD : Chk := fun e =>
  if isImm e.f.d then some 0x03 else (badReg { e with vregs := 192 } e.f.d).or (if isSZ e.f.d then none else some 0x04)

def specCbinit : OpSpec :=
  { specMem 0x149 with
    a := scalarA, b := fun e => if isImm e.f.b then none else scalarB e, c := fun e => if isImm e.f.c then none else scalarC e,
    md := Chk.and noImm (mdBufOk 0x1F), reads := rdABC }
def specCbTake (op : BitVec 9) : OpSpec := { specMem op with d := scalarD, md := mdBufOk 0x3F }
def specCbPut (op : BitVec 9) : OpSpec := { specMem op with a := scalarA, md := mdBufOk 0x1F, reads := rdA }
def specCbacq : OpSpec := specCbTake 0x14A
def specCbrel : OpSpec := specCbPut 0x14B
def specCbres : OpSpec := specCbTake 0x14C
def specCbcom : OpSpec := specCbPut 0x14D

/-- Copies in flight that fill a buffer of the block, or one of its slots (R284, R285): the block's own, and multicasts of its
cluster. -/
def bufferBusy (s : State) (b k : Nat) (off : Option Nat) : Bool :=
  s.ops.any (fun o => match o.kind with
    | .copy x =>
      decide (x.cb = some k) && (match off with | some z => decide (x.off = z) | none => true) &&
        (if x.kind = 5 then decide ((getBlock s (blkOf o.w)).cluster = (getBlock s b).cluster) && x.todo.contains (getBlock s b).rank else decide (blkOf o.w = b))
    | _ => false)

/-- The condition of a wait on a buffer holds. -/
def bufferReady (s : State) (w : Nat) (m : Mask) (k what off : Nat) : Bool :=
  let b := blkOf w
  let x := getCb s b k
  match what with
  | 0 => decide ((slotState x x.res).st = 0)
  | 1 => decide ((slotState x x.acq).st = 2)
  | 2 => !bufferBusy s b k (some off) && (accessOps s w m).isEmpty
  | 3 => !bufferBusy s b k none
  | _ => (accessOps s w m).isEmpty

/-- cbinit (R284). -/
def cbinitBody (c : Ctx) (s : State) : State :=
  let l := lowLane c.sp.mask
  let b := blkOf c.w
  match tagRule [opA s c l, opB s c l, opC s c l] with
  | .nullified => advance c s
  | .poisoned p => raisePoison c p s
  | .normal =>
    let base := (opA s c l).data.toNat
    let size := (opB s c l).data.toNat
    let n := (opC s c l).data.toNat
    if base % 128 ≠ 0 then raiseAll c causeAlign 0 s
    else if size % 128 ≠ 0 ∨ size < 128 ∨ size > 524288 ∨ n < 1 ∨ n > 64 then raiseAll c causeIllegalOperand 0x0A s
    else if base + size * n > (getBlock s b).tsbytes then raiseAll c causeIllegalOperand 0x02 s
    else if bufferBusy s b (mdBuf c.f) none then suspend c (.buffer (mdBuf c.f) 3 0) s
    else advance c (setCb s b (mdBuf c.f) { base := base, size := size, res := 0, acq := 0, slots := List.replicate n CbSlot.init })
def execCbinit (f : Fields) (s : State) := issue specCbinit f s cbinitBody

/-- Takes the slot at an index: D, and the split ready at t + 3 (R285). -/
def takeSlotCb (c : Ctx) (x : CBuf) (i : Nat) (e : CbSlot) (v : Nat) (s : State) : State :=
  answerLate c (TWord.valid (BitVec.ofNat 64 v)) (setCb s (blkOf c.w) (mdBuf c.f) { x with slots := x.slots.set i e })

/-- cbres and cbacq (R285, R286). -/
def cbTakeBody (acq : Bool) (c : Ctx) (s : State) : State :=
  let b := blkOf c.w
  let x := getCb s b (mdBuf c.f)
  let i := if acq then x.acq else x.res
  let e := slotState x i
  if x.slots.isEmpty then raiseAll c causeIllegalOperand 0x0A s
  else if e.st ≠ (if acq then 2 else 0) then
    if c.f.md.getLsbD 5 then answerNow c (wordsD c fun l => ⟨.n, (rdReg s c.w c.f.d.toNat l).data⟩) s s (advance c) else suspend c (.buffer (mdBuf c.f) (if acq then 1 else 0) 0) s
  else
    let s1 := acquireAll (acquireNow s c.w e.scope) b e.scope e.marks
    let next := (i + 1) % x.slots.length
    if acq then takeSlotCb c { x with acq := next } i { e with st := 3 } (e.status * 2 ^ 32 + x.base + i * x.size) s1
    else takeSlotCb c { x with res := next } i { CbSlot.init with st := 1 } (x.base + i * x.size) s1
def execCbacq (f : Fields) (s : State) := issue specCbacq f s (cbTakeBody true)
def execCbres (f : Fields) (s : State) := issue specCbres f s (cbTakeBody false)

/-- The effect of cbcom and cbrel on a slot: a release, at block scope, or at cluster scope when a multicast filled it (R286). A slot that a copy
has filled meanwhile stays as it is (R285). -/
def cbPut (com : Bool) (w : Nat) (m : Mask) (buf i : Nat) (s : State) : State :=
  let b := blkOf w
  let e := slotState (getCb s b buf) i
  let r := engineRelease (wbScope s (dieOf s w) e.scope (fun _ => true)) b e.scope
  let x := getCb r.1 b buf
  let ms := (r.2 ++ (lanesOf m).flatMap (fun l => laneMarks r.1 w l) ++ (if com then e.marks else [])).dedup
  let st := if com then (if e.st = 1 then 2 else e.st) else 0
  setCb r.1 b buf { x with slots := x.slots.set i { e with st := st, marks := ms } }

/-- A cbcom that has waited for copies into its slot goes on (R285). -/
def wakePut (com : Bool) (w k buf off : Nat) (s : State) : State :=
  match slotAt (getCb s (blkOf w) buf) off with
  | some i => wakeAdvance w k (cbPut com w (getSplit s w k).mask buf i s)
  | none => wakeAdvance w k s

/-- cbcom and cbrel: releases, after the threads' earlier accesses (R224, R285, R286). -/
def cbPutBody (com : Bool) (c : Ctx) (s : State) : State :=
  let a := opA s c (lowLane c.sp.mask)
  let b := blkOf c.w
  match a.tag with
  | .n => advance c s
  | .x => raisePoison c a.data s
  | .v =>
    let x := getCb s b (mdBuf c.f)
    match slotAt x a.data.toNat with
    | none => raiseAll c causeIllegalOperand 0x0A s
    | some i =>
      if (slotState x i).st ≠ (if com then 1 else 3) then raiseAll c causeIllegalOperand 0x0A s
      else
        let what := if com then 2 else 4
        if !bufferReady s c.w c.sp.mask (mdBuf c.f) what a.data.toNat then suspend c (.buffer (mdBuf c.f) what a.data.toNat) s
        else advance c (cbPut com c.w c.sp.mask (mdBuf c.f) i s)
def execCbcom (f : Fields) (s : State) := issue specCbcom f s (cbPutBody true)
def execCbrel (f : Fields) (s : State) := issue specCbrel f s (cbPutBody false)

end Sys2Proof.Machine
end

