-- ==== Sys2Proof/Machine/Fetch.lean ====
section
/-!
DEFINITION. Fetching code words and checking clause headers (R42 to R46, R50).
-/
namespace Sys2Proof.Machine

/-- The outcome of a fetch: a word, or a trap, with the marks its walk leaves; a stall; a link that is down, which holds it (R404). -/
inductive FetchRes where
  | word (w : Word) (s : State)
  | trap (cause sub : Nat) (s : State)
  | stall (x : Wait)
  | held

/-- A code word at a key: the present one, or one that a store has replaced since the block's launch began, by a free choice (R50). -/
def codeWord (s : State) (b key : Nat) : Word :=
  let fresh : Word := BitVec.ofNat 64 (rdMem s key 8)
  match ((sget [] s.icode key).filter (fun e => decide ((getBlock s b).node < e.2) && decide (e.1 ≠ fresh))).map (·.1) with
  | [] => fresh
  | old :: r => (fresh :: old :: r).getD (Config.staleTranslation (s.free * 2 ^ 88 + key) % (r.length + 2)) fresh

/-- Fetches the word at a split's pc (R42, R60 step 1). -/
def fetch (s : State) (w : Nat) (sp : Split) : FetchRes :=
  let a := { agentOf s w sp.sup with denied := sp.denied }
  let va := (vpc sp).toNat
  match checkAddr s a va 8 .fetch with
  | .fail _ cause sub => .trap cause sub (walked s a va)
  | .stall table host => .stall (pageWait a [va] 2 table host)
  | .ok l key =>
    if peerHeld s s.routes key then .held else .word (codeWord s a.blk key) (touch s a va l false)

/-- The trap of a failed fetch: every lane of the split, each with the address (R183). -/
def fetchTrap (sp : Split) (cause sub : Nat) : TrapReq :=
  { cause := cause, sub := sub, lanes := sp.mask, retry := sp.mask, vals := (lanesOf sp.mask).map (fun l => (l, vpc sp)) }

/-- Suspends a split at a clause position or at its word for a fetch that stalls. -/
def fetchStall (s : State) (w k : Nat) (x : Wait) : State := addStalls x (setSplit s w k { getSplit s w k with susp := some x })

/-- A fetch whose link is down is tried again in the next cycle (R404). -/
def fetchLater (s : State) (w k t : Nat) : State := setSplit s w k { getSplit s w k with next := t + 1 }

/-! ### Headers (R43, R46) -/

def hdrClass (h : Word) : Nat := h.toNat / 2 ^ 52 % 16
def hdrCount (h : Word) : Nat := h.toNat / 2 ^ 48 % 16 + 1
def hdrWait (h : Word) (i : Nat) : Nat := h.toNat / 2 ^ (44 - 4 * i) % 16
def hdrYield (h : Word) : Bool := h.getLsbD 31
def hdrRcv (h : Word) : Bool := h.getLsbD 30
def hdrExt (h : Word) : Nat := h.toNat / 2 ^ 24 % 64

/-- The first check of a header that fails: cause and subcode. No extension set is present (R68). -/
def headerFault (h : Word) : Option (Nat × Nat) :=
  if h.toNat / 2 ^ 56 ≠ 0xC5 then some (causeBadClause, 0x01)
  else if hdrClass h ≥ 4 then some (causeBadClause, 0x02)
  else if h.toNat % 2 ^ 24 ≠ 0 then some (causeBadClause, 0x03)
  else if hdrExt h ≠ 0 then some (causeExtEmulate, 0x01)
  else none

/-- The wait fields of a header hold for a split (R46). -/
def headerMet (s : State) (w : Nat) (sp : Split) (h : Word) : Bool :=
  countersMet s w sp.mask (hdrWait h 0) (hdrWait h 1) (hdrWait h 2) (hdrWait h 3)

/-- Another split of the warp runs a handler, and this one is held (R429). -/
def handlerElsewhere (s : State) (w k : Nat) : Bool := (validSplits s w).any (fun e => decide (e.1 ≠ k) && !e.2.hs.isEmpty)

/-- Nothing beside the split's own state holds it: its block is resident, its warp does not sleep, no other split runs a handler. -/
def canRun (s : State) (w k : Nat) : Bool :=
  let b := getBlock s (blkOf w)
  decide (b.state = 1) && !b.killed && !b.saving && !warpSleeps s w && !handlerElsewhere s w k

/-- A split that has reached a clause position whose header is still to be checked. -/
def atHeader (s : State) (w k : Nat) : Bool :=
  let sp := getSplit s w k
  decide (sp.mask ≠ 0) && decide (sp.rem = 0) && sp.susp.isNone && sp.hdr.isNone && canRun s w k

/-- CLAUSE_START (R46): the header is fetched and checked; a header that passes makes the split wait for its counters. A header whose fetch fails
leaves 0 in tinfo or sinfo (R61; DESIGN CHOICE, log 67). -/
def execClauseStart (w k : Nat) (s : State) : Host.Outcome State Fault Refusal :=
  if !atHeader s w k then .next s
  else
    let sp := getSplit s w k
    let t := max (getCore s (coreOf s w)).cyc sp.next
    match fetch s w sp with
    | .stall x => .next (fetchStall s w k x)
    | .held => .next (fetchLater s w k t)
    | .trap cause sub s1 => .next (takeTrap s1 w k t 0 true 0 (fetchTrap sp cause sub))
    | .word h s1 =>
      match headerFault h with
      | some e => .next (takeTrap s1 w k t 0 true h (trapAll e.1 e.2 sp.mask))
      | none => .next (setSplit s1 w k { sp with hdr := some h })

/-- The split enters the clause of its header: the first word is next (R43, R144). -/
def beginClause (sp : Split) (h : Word) : Split :=
  { sp with pc := sp.pc + 8, rem := hdrCount h, wpos := 0, rhold := 0, cls := hdrClass h, ext := hdrExt h, hdr := none, yb := hdrYield h }

end Sys2Proof.Machine
end

