-- ==== Sys2Proof/Machine/Versions.lean ====
section
/-!
DEFINITION. Versioned regions: the instructions 0x118 to 0x11E, copy-on-write, publication and checkpoints (R315 to R341, R344).
-/
namespace Sys2Proof.Machine

/-! ### Rows (R326) -/

/-- D is written; A is a scalar register or `zero`. -/
def specVer (op : BitVec 9) (ty md : Chk) : OpSpec :=
  { specMem op with d := dstD, a := scalarA, ty := ty, md := md, reads := rdA, cnt := some .ex }
/-- `.new`, `.full`, `.try`. -/
def mdFlag (f : Fields) : Bool := (modOf f).getLsbD 0
def specVopen : OpSpec :=
  { specVer 0x118 tyZero (mdBits 1) with
    b := Chk.and scalarImmB (chkIf 0x04 (fun e => !mdFlag e.f || isZ e.f.b)), reads := rdAB }
/-- C is a scalar or a vector register. -/
def specLdv : OpSpec :=
  { specLoad 0x119 0xC with
    c := fun e => if isImm e.f.c then some 0x04 else (badReg e e.f.c).or (if isV e.f.c || isS e.f.c then scalarRule e e.f.c else some 0x04), reads := rdABC }
def specVpub : OpSpec := specVer 0x11A tyZero mdZero
def specVclose : OpSpec := { specVer 0x11B tyZero mdZero with d := unusedD }
def specVinfo : OpSpec := { specVer 0x11C (tyIn 0x7F) mdZero with b := scalarImmB, reads := rdAB }
def specCkpt : OpSpec := specVer 0x11D tyZero (mdBits 1)
def specCkwait : OpSpec := { specVer 0x11E tyZero (mdBits 1) with cnt := none }

/-! ### The page of an operand (R327, R329, R331) -/

/-- Steps 2 to 4 of R182 for a one-byte access of a version instruction. -/
inductive VerPage where
  | fail (cause sub : Nat)
  | wait (x : Wait)
  /-- The leaf, and the VDB of a VER page. -/
  | page (l : Leaf)

/-- A VER page whose region is inactive is no failure (R319); the checks from step 5 on do not apply. -/
def verPage (s : State) (a : Agent) (va : Nat) (k : AKind) : VerPage :=
  let inactive : VerPage := match lookup s a.die a.space va with
    | .leaf l =>
      if l.ver && vdbFits s l.base then (match permission l a.sup false k with | some sub => .fail causePagePermission sub | none => .page l)
      else .fail causePageInvalid 0x04
    | _ => .fail causePageInvalid 0x04
  match checkAddr s a va 1 k with
  | .ok l _ => .page l
  | .stall table host => .wait (pageWait a [va] (reqKind k) table host)
  | .fail st cause sub =>
    if st = 3 ∧ sub = 0x04 then inactive
    else if st ≥ 5 then (match lookup s a.die a.space va with | .leaf l => .page l | _ => .fail cause sub)
    else .fail cause sub

/-- The region of a leaf, when the page is VER. -/
def leafRegion (s : State) (l : Leaf) : Option Nat := if l.ver then some (vdbRegion (rdVdb s l.base)) else none
/-- The region, when it is active. -/
def activeRegion (s : State) (r : Option Nat) : Option Nat := r.filter (fun x => (getRegion s x).isSome)

/-- Writes D at issue in the lanes of the word, or pushes it (R56, R201). -/
def settleD (c : Ctx) (v : Nat → TWord) (s : State) : State :=
  let rs := (computeLanes c).map (fun l => (l, LaneRes.ok (v l)))
  if isQ c.f.d then finishPush c rs s s else advance c (settleNow c (rs.map (fun e => (e.1, e.2.val))) s)
/-- Tag N over the old data of D. -/
def settleN (c : Ctx) (s : State) : State := settleD c (fun l => ⟨.n, (rdReg s c.w c.f.d.toNat l).data⟩) s
/-- X in D. -/
def settleX (c : Ctx) (p : Word) (s : State) : State := settleD c (fun _ => ⟨.x, p⟩) s

/-- Sends a version operation to the home die. -/
def startVer (c : Ctx) (kind : Nat) (flag : Bool) (sel : Nat) (region : Option Nat) (step : Nat) (s : State) : State :=
  let ls := computeLanes c
  pushGate c ls s (startVar c .ex c.sp.mask ls (.version { kind := kind, flag := flag, sel := sel, region := region, step := step, d := c.f.d.toNat, lanes := ls }) s)

/-- R35 for an instruction performed once per split that writes D. -/
def splitTags (c : Ctx) (xs : List TWord) (s : State) (go : Unit → State) : State :=
  match tagRule xs with
  | .nullified => settleN c s
  | .poisoned p => settleX c p s
  | .normal => go ()

/-! ### Issue -/

/-- vopen: an acquire at the region's scope (R327, R332). -/
def vopenBody (c : Ctx) (s : State) : State :=
  let l := lowLane c.sp.mask
  let av := opA s c l
  let bv := opB s c l
  splitTags c [av, bv] s fun _ =>
    if !mdFlag c.f && decide (bv.data.toNat ≥ 2 ^ 32) then raiseAll c causeIllegalOperand 0x0A s
    else
      let a := agentC c s
      match verPage s a av.data.toNat .load with
      | .wait x => suspend c x s
      | .fail cause _ => settleX c (payload cause av.data.toNat) s
      | .page lf =>
        withCommit c true s s fun s1 =>
          let s2 := touch s1 a av.data.toNat lf false
          let s3 := startVer c 0 (mdFlag c.f) 0 (activeRegion s2 (leafRegion s2 lf)) bv.data.toNat s2
          if s3.nextOp = s2.nextOp then s3
          else setSplit s3 c.w c.k { getSplit s3 c.w c.k with hold := s2.nextOp :: (getSplit s3 c.w c.k).hold }
def execVopen (f : Fields) (s : State) := issue specVopen f s vopenBody

/-- A lane of ldv (R328): the checks of `ld` for a page without VER; for a VER page steps 2 to 4. -/
def ldvLane (s : State) (a : Agent) (lane : Nat) (addr : Word) (size n hand : Nat) : LaneChk :=
  match chkLane s a .load lane addr size n 0 0 0 with
  | .ok l acc => if l.ver then .ok { l with chk := false } { acc with hand := some hand, sw := false } else .ok l acc
  | .trap st cause sub v =>
    (match st, checkAddr s a addr.toNat (size * n) .load with
      | 7, .ok l key => if l.ver then .ok { l with chk := false }
          { lane := lane, va := addr.toNat, key := key, size := size, n := n, sw := false, pol := 0, cls := l.cls, data := 0,
            left := List.range n, also := [], cmp := 0,
            ver := some (l.base, addr.toNat % 2 ^ 16), hand := some hand } else .trap st cause sub v
      | _, _ => .trap st cause sub v)
  | r => r
def ldvBody (c : Ctx) (s : State) : State :=
  let a := agentC c s
  let n := vecN c.f
  let rs := (computeLanes c).map (fun l => (l, loadLane s c [opA s c l, opB s c l, opC s c l] l (fun _ =>
    ldvLane s a l (addrOf s c l) (tyBytes c.f.ty) n (opC s c l).data.toNat)))
  issueLoad c n none (fun accs => .load accs c.f.ty c.f.d.toNat n none) a rs s (popAll s c.w c.sp.mask (specLdv.reads c.f))
def execLdv (f : Fields) (s : State) := issue specLdv f s ldvBody

/-- A trap whose value is the address in every lane (R184, R432). -/
def raiseAddr (c : Ctx) (cause sub : Nat) (v : Word) (s : State) : State :=
  raise c { cause := cause, sub := sub, lanes := c.sp.mask, retry := c.sp.mask, vals := (actives c).map (fun l => (l, v)) } s

/-- A `vpub` of a region waits while earlier ones on their way may take the last step: it decides between its service and its trap when they
have been served (R329, log 65). -/
def stepsTaken (s : State) (r : Nat) : Bool :=
  let n := (s.ops.filter (fun o => match o.kind with | .version v => decide (v.kind = 2 ∧ v.region = some r) | _ => false)).length
  decide (n ≠ 0 ∧ rgWstep (rdRegion s r) + n ≥ 2 ^ 32 - 1)

/-- The word issues again in the next cycle. -/
def againNext (c : Ctx) (s : State) : State := setSplit s c.w c.k { getSplit s c.w c.k with next := c.t + 1 }

/-- vpub (R329). -/
def vpubBody (c : Ctx) (s : State) : State :=
  let av := opA s c (lowLane c.sp.mask)
  splitTags c [av] s fun _ =>
    let a := agentC c s
    match verPage s a av.data.toNat .store with
    | .wait x => suspend c x s
    | .fail cause sub => raiseAddr c cause sub av.data s
    | .page lf =>
      let r := activeRegion s (leafRegion s lf)
      if (match r with | some x => decide (rgWstep (rdRegion s x) = 2 ^ 32 - 1) | none => false) then raiseAddr c causeVersionFull 0x03 av.data s
      else if (match r with | some x => stepsTaken s x | none => false) then againNext c s
      else withCommit c true s s fun s1 => startVer c 2 false 0 r 0 (touch s1 a av.data.toNat lf false)
def execVpub (f : Fields) (s : State) := issue specVpub f s vpubBody

/-- A handle that names no active region (R330, R337). -/
def badHandle (s : State) (h : Word) : Bool := decide (h.toNat / 2 ^ 44 ≠ 0) || (getRegion s (h.toNat / 2 ^ 32)).isNone

/-- vclose (R330): an X operand has no effect. -/
def vcloseBody (c : Ctx) (s : State) : State :=
  let av := opA s c (lowLane c.sp.mask)
  match tagRule [av] with
  | .normal =>
    if badHandle s av.data then raiseAll c causeIllegalOperand 0x0A s
    else withCommit c true s s fun s1 => advance c (startOp s1 c.w c.sp.mask (some .ex) []
      (.version { kind := 3, flag := false, sel := 0, region := some (av.data.toNat / 2 ^ 32), step := av.data.toNat % 2 ^ 32, d := 0xE4, lanes := [] }))
  | _ => advance c s
def execVclose (f : Fields) (s : State) := issue specVclose f s vcloseBody

/-- vinfo (R331). -/
def vinfoBody (c : Ctx) (s : State) : State :=
  let l := lowLane c.sp.mask
  let av := opA s c l
  let bv := opB s c l
  splitTags c [av, bv] s fun _ =>
    let a := agentC c s
    match verPage s a av.data.toNat .load with
    | .wait x => suspend c x s
    | .fail cause _ => settleX c (payload cause av.data.toNat) s
    | .page lf => startVer c 4 false c.f.ty.toNat (leafRegion s lf) (bv.data.toNat % 2 ^ 32) (touch s a av.data.toNat lf false)
def execVinfo (f : Fields) (s : State) := issue specVinfo f s vinfoBody

/-- ckpt (R337). -/
def ckptBody (c : Ctx) (s : State) : State :=
  let av := opA s c (lowLane c.sp.mask)
  splitTags c [av] s fun _ =>
    if badHandle s av.data then raiseAll c causeIllegalOperand 0x0A s
    else withCommit c true s s fun s1 => startVer c 5 (mdFlag c.f) 0 (some (av.data.toNat / 2 ^ 32)) (av.data.toNat % 2 ^ 32) s1
def execCkpt (f : Fields) (s : State) := issue specCkpt f s ckptBody

/-! ### Checkpoint descriptors (R335) -/

def ckDesc (s : State) (r : Nat) : Nat := rdMem s (rgCkdesc (rdRegion s r)) 64
def ckCseq (d : Nat) : Nat := bitsOf d 255 224
def ckKind (d : Nat) : Nat := bitsOf d 1 0
def ckDest (d : Nat) : Nat := bitsOf d 11 2
def ckBase (d : Nat) : Nat := bitsOf d 127 64
def ckSize (d : Nat) : Nat := bitsOf d 191 128
/-- Writes fields of the checkpoint descriptor: its bytes 0 to 3 with busy, cseq, status. -/
def putCkBusy (s : State) (r : Nat) (busy : Bool) : State :=
  let at_ := rgCkdesc (rdRegion s r)
  let w := rdMem s at_ 4
  wrMem s at_ 4 (bitsOf w 31 14 * 2 ^ 14 + (if busy then 2 ^ 13 else 0) + bitsOf w 12 0)
def putCkSeq (s : State) (r n : Nat) : State := wrMem s (rgCkdesc (rdRegion s r) + 28) 4 n
def putCkStatus (s : State) (r v : Nat) : State := wrMem s (rgCkdesc (rdRegion s r) + 32) 8 v

/-- A checkpoint of the region is in progress: one that runs, or the busy bit of the descriptor as the engine finds it (R316, R335). -/
def ckActive (s : State) (r : Nat) : Bool := (getCk s r).run.isSome || (decide (rgCkdesc (rdRegion s r) ≠ 0) && (ckDesc s r).testBit 13)

/-- A ticket's outcome: its status word once the checkpoint has ended (R339). -/
def ckStatus (s : State) (r seq : Nat) : Option Word :=
  let d := ckDesc s r
  if seq < ckCseq d then some 5 else if ckActive s r then none else some (BitVec.ofNat 64 (bitsOf d 319 256))

/-- ckwait (R339). -/
def ckwaitBody (c : Ctx) (s : State) : State :=
  let av := opA s c (lowLane c.sp.mask)
  splitTags c [av] s fun _ =>
    let r := av.data.toNat / 2 ^ 32 % 4096
    let seq := av.data.toNat % 2 ^ 32
    if av.data.toNat / 2 ^ 44 ≠ 0 ∨ rgCkdesc (rdRegion s r) = 0 ∨ seq > ckCseq (ckDesc s r) then raiseAll c causeIllegalOperand 0x0A s
    else match ckStatus s r seq with
      | some v => settleD c (fun _ => TWord.valid v) s
      | none => if mdFlag c.f then settleN c s else suspend c (.ckwait r seq) s
def execCkwait (f : Fields) (s : State) := issue specCkwait f s ckwaitBody

/-! ### Pins (R317) -/

/-- Adds a pin of a step: in its entry or in a free one; none when neither has room. -/
def addPin (s : State) (r t : Nat) : Option State :=
  let at_ (i : Nat) : Nat := (regionView s r).pins + 8 * i
  match (pinEntries s r).find? (fun e => e.2.1 = t) with
  | some e => if e.2.2 ≥ 65535 then none else some (wrMem s (at_ e.1) 8 (t + (e.2.2 + 1) * 2 ^ 32))
  | none => ((List.range 16).find? (fun i => !(pinEntries s r).any (fun e => e.1 = i))).map (fun i => wrMem s (at_ i) 8 (t + 2 ^ 32))

/-- Removes a pin of a step; a step without an entry has none (R330). -/
def dropPin (s : State) (r t : Nat) : State :=
  match (pinEntries s r).find? (fun e => e.2.1 = t) with
  | some e => wrMem s ((regionView s r).pins + 8 * e.1) 8 (if e.2.2 ≤ 1 then 0 else t + (e.2.2 - 1) * 2 ^ 32)
  | none => s

/-! ### Checkpoints (R336 to R341) -/

/-- The entry of a page in half h of the change map. -/
def cmapAt (s : State) (r j h : Nat) : Nat := (regionView s r).cmap + 64 * j + 32 * h

/-- A checkpoint is accepted (R336, R337): the step is pinned, the change map's halves swap, cseq rises. -/
def ckAccept (s : State) (r t : Nat) (full : Bool) : State × Nat :=
  let d := rdRegion s r
  let k := ckDesc s r
  let x := getCk s r
  let seq := (ckCseq k + 1) % 2 ^ 32
  let fresh := decide (rgLastck d = 2 ^ 32 - 1)
  let isFull := full || fresh
  let p := addPin s r t
  let s1 := p.getD s
  let s2 := putCkSeq (putCkBusy s1 r true) r seq
  (setCk (putCsel s2 r (1 - rgCsel d)) r { x with run := some { step := t, full := isFull, half := rgCsel d, pinned := p.isSome } }, seq)

/-- R337: why the home die refuses a checkpoint. -/
def ckRefusal (s : State) (r t : Nat) : Option Nat :=
  let d := rdRegion s r
  if t + 1 ≠ rgWstep d then some 1
  else if ckActive s r then some 2
  else if rgCkdesc d = 0 ∨ ckKind (ckDesc s r) = 0 then some 3
  else none

/-- R341: a checkpoint ends without success: the frozen half merges back, status records the state, the pin is closed. -/
def ckFail (s : State) (r state : Nat) : State :=
  let x := getCk s r
  match x.run with
  | none => s
  | some run =>
    let s1 := (List.range (regionView s r).pages).foldl (fun s j =>
      let m := rdMem s (cmapAt s r j run.half) 32
      if m = 0 then s
      else wrMem (wrMem s (cmapAt s r j (1 - run.half)) 32 (rdMem s (cmapAt s r j (1 - run.half)) 32 ||| m)) (cmapAt s r j run.half) 32 0) s
    let s2 := putCkBusy (putCkStatus s1 r (run.step * 2 ^ 32 + (if run.full then 2 ^ 8 else 0) + state)) r false
    let s3 := if run.pinned then dropPin s2 r run.step else s2
    setCk s3 r { x with run := none }

/-- The sectors of a page that a checkpoint streams (R337). -/
def ckSectors (s : State) (r j : Nat) (run : CkRun) (full : Bool) : Nat := if full then 2 ^ 256 - 1 else rdMem s (cmapAt s r j run.half) 32

/-- The bytes of n little-endian bytes of a value. -/
def leBytes (n v : Nat) : List Byte := (List.range n).map (fun i => BitVec.ofNat 8 (v / 2 ^ (8 * i)))

/-- The record of a page: its bytes, and its poisoned sectors (R338). -/
def ckRecord (s : State) (j frame sectors : Nat) : List Byte × Nat :=
  let secs := (List.range 256).filter (fun i => sectors.testBit i)
  let bad (i : Nat) : Bool := decide (sget 0 s.poison ((frameAddr frame + 256 * i) / 256) ≠ 0)
  let pm := (secs.filter bad).foldl (fun m i => m + 2 ^ i) 0
  (leBytes 8 j ++ leBytes 32 sectors ++ leBytes 32 pm ++ leBytes 8 0 ++
    secs.flatMap (fun i => if bad i then leBytes 256 0 else leBytes 256 (rdMem s (frameAddr frame + 256 * i) 256)), (secs.filter bad).length)

/-- The shard of a memory die (R338); the Snapshot Engine of an absent stack streams none (R468). -/
def ckShardOf (s : State) (r die : Nat) (run : CkRun) (full : Bool) : List Byte × Nat :=
  let rs := (List.range (regionView s r).pages).filterMap (fun j =>
    let v := rdVdb s ((regionView s r).vdbs + 64 * j)
    match stepSlot v run.step with
    | some k =>
      let f := slotFrame (slotOf v k)
      let m := ckSectors s r j run full
      if f / 2 ^ 20 = die ∧ m ≠ 0 ∧ !s.mgmt.absent.testBit die then some (ckRecord s j f m) else none
    | none => none)
  (rs.flatMap (·.1), (rs.map (·.2)).sum)

/-- Two ranges of a circular log of len bytes meet. -/
def logMeet (len a n b m : Nat) : Bool :=
  decide (n > 0 ∧ m > 0) && (decide ((b + len - a) % len < n) || decide ((a + len - b) % len < m))

/-- The key of a byte of the target area. -/
def ckTarget (s : State) (d off : Nat) : Nat :=
  if ckKind d = 1 then peerBase (ckDest d) + ckBase d + off else poolKey (getPool s (ckDest d)) (ckBase d + off)

/-! ### Manifests (R338) -/

/-- A manifest slot as read: sequence, step, region, signed, the shards it names. -/
structure Manifest where
  seq : Nat
  step : Nat
  region : Nat
  signed : Bool
  shards : List CkShard

/-- n bytes of the target area from an offset. -/
def targetNum (s : State) (d off n : Nat) : Nat := rdMem s (ckTarget s d off) n

/-- The manifest in slot i of a target area; none where the slot's bytes are no manifest. -/
def readManifest (s : State) (d i : Nat) : Option Manifest :=
  let at_ := 2 ^ 16 * i
  let num (o n : Nat) : Nat := targetNum s d (at_ + o) n
  let info := num 8 8
  let flags := num 16 8
  let count := info / 2 ^ 48
  if num 0 8 = 0 ∨ num 24 40 ≠ 0 ∨ flags / 4 ≠ 0 ∨ bitsOf info 47 44 ≠ 0 ∨ 64 + 96 * count + 64 > 2 ^ 16 then none
  else some
    { seq := num 0 8, step := info % 2 ^ 32, region := bitsOf info 43 32, signed := flags.testBit 0,
      shards := (List.range count).map (fun j =>
        let e := 64 + 96 * j
        { seq := num e 8, die := num (e + 8) 8, off := num (e + 16) 8, len := num (e + 24) 8, digest := num (e + 32) 64 }) }

/-- Bytes of the circular log of a target area. -/
def logLen (d : Nat) : Nat := ckSize d - 2 ^ 17

/-- The shards that a manifest slot names, and those of the manifest with the higher sequence: the current chain. -/
def slotShards (s : State) (d i : Nat) : List CkShard := match readManifest s d i with | some m => m.shards | none => []
def ckChain (s : State) (d : Nat) : List CkShard :=
  match readManifest s d 0, readManifest s d 1 with
  | some a, some b => if a.seq < b.seq then b.shards else a.shards
  | some a, none => a.shards
  | none, some b => b.shards
  | none, none => []

/-- Delta checkpoints of a chain. -/
def chainDeltas (es : List CkShard) : Nat := (es.map (·.seq)).dedup.length - 1

/-- Where the next shard goes: after the last one of the chain. -/
def logHead (s : State) (d : Nat) : Nat := match (ckChain s d).getLast? with | some e => (e.off + e.len) % max 1 (logLen d) | none => 0

/-- n bytes from the head of the log are free of the shards that the manifest slots of the target name (R337, R341). -/
def logFits (s : State) (d n : Nat) : Bool :=
  decide (n ≤ logLen d) && !(slotShards s d 0 ++ slotShards s d 1).any (fun e => logMeet (logLen d) (logHead s d) n e.off e.len)

/-- The shards with their bytes, placed one after another from the head of the log. -/
def placeShards (seq len : Nat) : Nat → List (Nat × List Byte) → List (CkShard × List Byte)
  | _, [] => []
  | off, (die, bs) :: r => ({ seq := seq, die := die, off := off % len, len := bs.length, digest := Config.digest bs }, bs) :: placeShards seq len (off + bs.length) r

/-- The bytes of a manifest (R338). -/
def manifestBytes (seq t r : Nat) (sign full : Bool) (es : List CkShard) : List Byte :=
  let body := leBytes 8 seq ++ leBytes 8 (t + r * 2 ^ 32 + es.length * 2 ^ 48) ++
    leBytes 8 ((if sign then 1 else 0) + (if full then 2 else 0)) ++ leBytes 40 0 ++
    es.flatMap (fun e => leBytes 8 e.seq ++ leBytes 8 e.die ++ leBytes 8 e.off ++ leBytes 8 e.len ++ leBytes 64 e.digest)
  if sign then body ++ leBytes 64 (Config.sign (Config.digest body)) else body

/-- The target can be reached: a buddy over a port whose link is up, a pool region that is Active (R337, R339, R341). -/
def ckReachable (s : State) (d : Nat) : Bool :=
  if ckKind d = 1 then peerPresent s (ckDest d) && s.pkg.linkst.getLsbD (portOf s (ckDest d)) else decide (ckKind d = 2) && decide (poolState s (ckDest d) = 1)

/-- Writes bytes from a target offset on. -/
def putBytes (s : State) (key : Nat → Nat) (bs : List Byte) : State :=
  { s with mem := ssetAll 0#8 s.mem ((bs.zipIdx).map (fun e => (key e.2, e.1))) }

/-- CHECKPOINT_MANIFEST_WRITE (R338, R339): the shards have been performed at the target, then the manifest is, and the checkpoint has
ended; or it ends with state 2 or 3. A delta whose chain is full, or that does not fit the log, is streamed as a full checkpoint (R337). -/
def execCheckpointManifestWrite (r : Nat) (s : State) : Host.Outcome State Fault Refusal :=
  let x := getCk s r
  match x.run with
  | none => .next s
  | some run =>
    let d := ckDesc s r
    let len := logLen d
    let shards (full : Bool) : List (Nat × (List Byte × Nat)) := (List.range 8).map (fun die => (die, ckShardOf s r die run full))
    let total (l : List (Nat × (List Byte × Nat))) : Nat := (l.map (fun e => e.2.1.length)).sum
    let chain := ckChain s d
    let full := run.full || decide (chainDeltas chain ≥ bitsOf d 19 16) || !logFits s d (total (shards false))
    let sh := shards full
    if !ckReachable s d then .next (ckFail s r 2)
    else if !logFits s d (total sh) then .next (ckFail (setCk s r { x with run := some { run with full := full } }) r 3)
    else
      let seq := ckCseq d
      let placed := placeShards seq len (logHead s d) (sh.map (fun e => (e.1, e.2.1)))
      let s1 := placed.foldl (fun t e => putBytes t (fun i => ckTarget s d (2 ^ 17 + (e.1.off + i) % len)) e.2) s
      let es := (if full then [] else chain) ++ placed.map (·.1)
      let sign := d.testBit 12
      let s2 := putBytes s1 (fun i => ckTarget s d (2 ^ 16 * (seq % 2) + i)) (manifestBytes seq run.step r sign full es)
      let poisoned := min 65535 ((sh.map (fun e => e.2.2)).sum)
      let s3 := putLastck s2 r run.step
      let s4 := putCkStatus (putCkBusy s3 r false) r (run.step * 2 ^ 32 + poisoned * 2 ^ 16 + (if sign then 2 ^ 9 else 0) + (if full then 2 ^ 8 else 0) + 1)
      let s5 := if run.pinned then dropPin s4 r run.step else s4
      let s6 := (List.range (regionView s r).pages).foldl (fun s j =>
        if rdMem s (cmapAt s r j run.half) 32 = 0 then s else wrMem s (cmapAt s r j run.half) 32 0) s5
      .next (setCk s6 r { x with run := none })

/-- CHECKPOINT_PERIOD_ELAPSED (R340): the next vpub starts a checkpoint. -/
def execCheckpointPeriodElapsed (r : Nat) (s : State) : Host.Outcome State Fault Refusal :=
  if (getRegion s r).isSome ∧ rgCkdesc (rdRegion s r) ≠ 0 ∧ bitsOf (ckDesc s r) 223 192 ≠ 0 then .next (setCk s r { getCk s r with armed := true })
  else .next s

/-- R340: the triggers at the publication of a step. A trigger that finds a checkpoint in progress is skipped and logged. -/
def ckTrigger (s : State) (r t : Nat) : State :=
  if rgCkdesc (rdRegion s r) = 0 ∨ ckKind (ckDesc s r) = 0 then s
  else
    let iv := bitsOf (ckDesc s r) 63 32
    let x := getCk s r
    let timed := x.armed && decide (bitsOf (ckDesc s r) 223 192 ≠ 0)
    if (iv ≠ 0 ∧ t % iv = 0) ∨ timed then
      if ckActive s r then vesper (setCk s r { x with armed := false }) (4 + regionAddr s r / 2 ^ 39 % 8) 0x07 (vsource 1 32) r t 0
      else (ckAccept (setCk s r { x with armed := false }) r t false).1
    else s

/-! ### Frames that are wanted (R321, R322) -/

/-- The VDBs of pages that an operation in flight has still to write. -/
def opVdbs (o : Op) : List Nat :=
  match o.kind with
  | .store accs _ _ _ => accs.filterMap (fun x => x.ver.map (·.1))
  | .atomic accs _ => accs.filterMap (fun x => x.ver.map (·.1))
  | .copy c => (c.pages.filter (fun e => e.2.ver)).map (·.2.base) ++ (match c.stamp with | some x => (x.ver.map (·.1)).toList | none => [])
  | .matrix m => (m.pages.filter (fun e => e.2.ver)).map (·.2.base)
  | .halo x => x.ents.flatMap (fun e => if e.done then [] else (e.box.pages.filter (fun p => p.2.ver)).map (·.2.base))
  | .coll x => (x.pages.filter (fun e => e.2.ver)).map (·.2.base)
  | _ => []

/-- The frames that late results on their way to a store stream wait for (R201, R322): as of a wait. -/
def lateFrames (s : State) (o : Op) : List (Nat × Nat × Nat) :=
  match o.kind, o.push with
  | .result ws, some p =>
    if o.since.isSome && decide ((getBlock s (blkOf o.w)).state = 1) then
      match pushWaits (lateChecks s o p ws) with
      | some (.frame as _) => as
      | _ => []
    else []
  | _, _ => []

/-- The VDBs that waiting writes need a frame of: instructions at issue, late results, and operations in flight. -/
def framesWanted (s : State) : List Nat :=
  let waits := s.warps.flatMap (fun e => if (getBlock s (blkOf e.1)).state = 1 then
    e.2.splits.flatMap (fun x => match x.2.susp with | some (.frame as _) => as.map (·.1) | _ => []) else [])
  ((waits ++ s.ops.flatMap (fun o => opVdbs o ++ (lateFrames s o).map (·.1))).filter (fun v => !vdbWv (rdVdb s v) && vdbOk s v)).dedup

/-- COPY_ON_WRITE (R321). -/
def execCopyOnWrite (vdb : Nat) (s : State) : Host.Outcome State Fault Refusal :=
  if (framesWanted s).contains vdb then (match allocFrame s vdb with | .ok s1 => .next s1 | .error _ => .next s) else .next s

/-- The stall limit of a page's region has passed for a wait that began at the cycle given (R322). -/
def stallOver (s : State) (vdb since now : Nat) : Bool := decide (since + 1024 * rgStall (rdRegion s (vdbRegion (rdVdb s vdb))) ≤ now)

/-- The pages of a wait that can get no frame, with the subcode; none of a page whose Snapshot Engine waits for reads, or is offline. -/
def framesFull (s : State) (as : List (Nat × Nat × Nat)) : List (Nat × Nat × Nat × Nat) :=
  as.filterMap (fun e =>
    if vdbWv (rdVdb s e.1) then none
    else match allocFrame s e.1 with
      | .error 0 => none
      | .error sub => some (sub, e)
      | .ok _ => none)

/-- Those of them whose limit has passed: subcode, lane (32 for every lane), address. -/
def framesOver (s : State) (as : List (Nat × Nat × Nat)) (since now : Nat) : List (Nat × Nat × Nat) :=
  ((framesFull s as).filter (fun e => stallOver s e.2.1 since now)).map (fun e => (e.1, e.2.2.1, e.2.2.2))

/-- The wait of a split for frames: what it waits for, and since when; the operation whose late results wait. -/
def frameWait (s : State) (sp : Split) : Option (List (Nat × Nat × Nat) × Nat × Option Op) :=
  match sp.susp with
  | some (.frame as since) => some (as, since, none)
  | some (.op id) =>
    match findOp s id with
    | some o => o.since.map (fun t => (lateFrames s o, t, some o))
    | none => none
  | _ => none

/-- The trap of a wait that has lasted too long: every stalled lane with its address. -/
def fullTrap (sp : Split) (sub : Nat) (stalled : List (Nat × Nat × Nat × Nat)) : TrapReq :=
  match stalled.find? (fun y => y.2.2.1 = 32) with
  | some y => { cause := causeVersionFull, sub := sub, lanes := sp.mask, retry := sp.mask, vals := (lanesOf sp.mask).map (fun l => (l, BitVec.ofNat 64 y.2.2.2)) }
  | none =>
    { cause := causeVersionFull, sub := sub, lanes := maskOf (fun l => stalled.any (fun y => y.2.2.1 = l)), retry := sp.mask,
      vals := stalled.map (fun y => (y.2.2.1, BitVec.ofNat 64 y.2.2.2)) }

/-- VERSION_FULL (R322): the instruction that waits traps. -/
def execVersionFull (w k : Nat) (s : State) : Host.Outcome State Fault Refusal :=
  let sp := getSplit s w k
  let t := (getCore s (coreOf s w)).cyc
  match frameWait s sp with
  | none => .next s
  | some (as, since, op) =>
    match framesOver s as since t with
    | [] => .next s
    | e :: _ =>
      if (getBlock s (blkOf w)).state ≠ 1 then .next s
      else
        let req := fullTrap sp e.1 (framesFull s as)
        match op with
        | some o => .next (takeTrap (endOp s o.id) w k t sp.path false o.word req)
        | none =>
          match fetch s w sp with
          | .word x s1 => .next (takeTrap s1 w k t sp.path false x req)
          | _ => .next (takeTrap s w k t sp.path false 0 req)

/-! ### The home die (R327, R329 to R331, R337) -/

/-- The results of a version operation: one word in each of its lanes. -/
def verResult (v : VerOp) (x : TWord) : List (Nat × Nat × TWord) := v.lanes.map (fun l => (v.d, l, x))

/-- A refusal's code, under tag N. -/
def refusal (n : Nat) : TWord := ⟨.n, BitVec.ofNat 64 n⟩

/-- vopen at the home die (R327): the pin and the acquire. -/
def vopenAt (s : State) (w : Nat) (v : VerOp) : State × TWord :=
  match activeRegion s v.region with
  | none => (s, refusal 4)
  | some r =>
    let ws := rgWstep (rdRegion s r)
    let t := if v.flag then ws - 1 else v.step
    if t ≥ ws then (s, refusal 1)
    else if !stepLive s r t then (s, refusal 2)
    else match addPin s r t with
      | none => (s, refusal 3)
      | some s1 =>
        let sc := (regionView s r).scope
        (acquireAll (acquireNow s1 w sc) (blkOf w) sc (sget [] s.vmarks (2 ^ 32 * r + t)), TWord.valid (BitVec.ofNat 64 (r * 2 ^ 32 + t)))

/-- vinfo at the home die (R331). -/
def vinfoAt (s : State) (v : VerOp) : TWord :=
  match v.region with
  | none => ⟨.n, 0⟩
  | some r =>
    let d := rdRegion s r
    TWord.valid (BitVec.ofNat 64 (match v.sel with
      | 0 => rgWstep d
      | 1 => rgWstep d - 1
      | 2 => (liveSteps s r).foldl min (2 ^ 32 - 1)
      | 3 => rgPoolcnt d
      | 4 => ((pinEntries s r).filter (fun e => e.2.1 = v.step)).map (·.2.2) |>.sum
      | 5 => rgLastck d
      | _ => r + (if (getRegion s r).isSome then 2 ^ 12 else 0) + (if ckActive s r then 2 ^ 13 else 0)))

/-- The Snapshot Engine of the home die of a version operation works: one of an absent stack is offline (R468). -/
def homeOn (s : State) (v : VerOp) : Bool := v.region.all (fun r => populated s (regionAddr s r))

/-- VERSION_HOME_SERVICE: a vopen, vclose, vinfo or ckpt is served, and its result returns. -/
def execVersionHomeService (id : Nat) (s : State) : Host.Outcome State Fault Refusal :=
  match findOp s id with
  | some o =>
    match o.kind with
    | .version v =>
      if !homeOn s v then .next s
      else match v.kind with
      | 0 => let p := vopenAt s o.w v; .next (finishOp p.1 o (verResult v p.2))
      | 3 => .next (endOp (dropPin s (v.region.getD 0) v.step) id)
      | 4 => .next (finishOp s o (verResult v (vinfoAt s v)))
      | 5 =>
        let r := v.region.getD 0
        match ckRefusal s r v.step with
        | some n => .next (finishOp s o (verResult v (refusal n)))
        | none => let p := ckAccept s r v.step v.flag; .next (finishOp p.1 o (verResult v (TWord.valid (BitVec.ofNat 64 (r * 2 ^ 32 + p.2)))))
      | _ => .next s
    | _ => .next s
  | none => .next s

/-- The pages of a region that have a working frame: page index and address of the VDB. -/
def workingPages (s : State) (r : Nat) : List (Nat × Nat) :=
  ((List.range (regionView s r).pages).map (fun j => (j, (regionView s r).vdbs + 64 * j))).filter (fun e => vdbWv (rdVdb s e.2))

/-- R329: one page is published: missing sectors are filled, the change map takes the present bits, the frame is frozen. -/
def publishPage (r : Nat) (s : State) (e : Nat × Nat) : State :=
  let v := rdVdb s e.2
  let present := v / 2 ^ 256
  let f := slotFrame (slotOf v (vdbWs v))
  let s1 := (List.range 256).foldl (fun s i => verFill s e.2 (256 * i) false) s
  let m := cmapAt s1 r e.1 (rgCsel (rdRegion s1 r))
  let s2 := wrMem s1 m 32 (rdMem s1 m 32 ||| present)
  let v' := v % 2 ^ 256
  { putVdb s2 e.2 (v' - 2 ^ 15) with frozen := sset false s2.frozen (frameAddr f / 2 ^ 16) true }

/-- A key lies in the working frame of a page. -/
def inWorking (s : State) (ps : List (Nat × Nat)) (k : Nat) : Bool :=
  ps.any (fun e => let v := rdVdb s e.2; let a := frameAddr (slotFrame (slotOf v (vdbWs v))); decide (a ≤ k ∧ k < a + 2 ^ 16))

/-- R332: each publication of a region happens before the next: the publisher takes the releases of the one before, whatever their scope. -/
def afterLast (s : State) (b r : Nat) : State :=
  acquireAll s b 7 ((sget [] s.vmarks (2 ^ 32 * r + rgWstep (rdRegion s r) - 1)).map (fun m => { m with scope := 7 }))

/-- R329: the working step of a region is published. -/
def publish (s : State) (w r : Nat) (ls : List Nat) : State :=
  let b := blkOf w
  let sc := (regionView s r).scope
  let s0 := wbScope (afterLast s b r) (dieOf s w) sc (fun _ => true)
  let p := performRelease s0 b sc
  let marks := (p.2 :: ls.flatMap (laneMarks p.1 w)).dedup
  let ps := workingPages p.1 r
  let s1 := wbScope p.1 (dieOf s w) 4 (inWorking p.1 ps)
  let owners := ((s1.prov.filter (fun e => inWorking s1 ps (e.1 % 2 ^ 80))).map (fun e => e.1 / 2 ^ 80)).dedup
  let s2 := owners.foldl commitBlock s1
  let s3 := ps.foldl (publishPage r) s2
  let t := rgWstep (rdRegion s r)
  let s4 := putWstep s3 r (t + 1)
  ckTrigger { s4 with vmarks := sset [] s4.vmarks (2 ^ 32 * r + t) marks } r t

/-- A working frame for each page of a list; none where one cannot be had. -/
def frameAll (s : State) : List Nat → Option State
  | [] => some s
  | v :: r => if vdbWv (rdVdb s v) then frameAll s r else match allocFrame s v with | .ok s1 => frameAll s1 r | .error _ => none

/-- The publication, and copy-on-write for the writes of the region that are in flight: they land in the next step. Where one of them could get
no frame the publication waits until they have landed in its own (R322, R329, log 65). -/
def publishAll (s : State) (w r : Nat) (ls : List Nat) : Option State :=
  let vs := ((s.ops.flatMap opVdbs).filter (fun v => decide (vdbRegion (rdVdb s v) = r) && vdbOk s v)).dedup
  frameAll (publish s w r ls) vs

/-- A store of several words to the region has been performed in part: its lane lands wholly in the step of its first word (R332). -/
def partStored (s : State) (r : Nat) : Bool :=
  s.ops.any (fun o => match o.kind with
    | .store accs _ _ _ => accs.any (fun x => decide (x.left.length < x.n + x.also.length) && !x.left.isEmpty &&
        (match x.ver with | some v => decide (vdbRegion (rdVdb s v.1) = r) | none => false))
    | _ => false)

/-- A `vpub` can be served: the accesses before it are performed, and no lane's store to the region is in part. -/
def vpubReady (s : State) (o : Op) (v : VerOp) : Bool :=
  !(accessOps s o.w o.lanes).any (fun e => decide (e.id < o.id)) && homeOn s v && !v.region.any (partStored s) &&
    (match activeRegion s v.region with | some r => (publishAll s o.w r (lanesOf o.lanes)).isSome | none => true)

/-- VPUB_SERVICE (R329): once the accesses before it are performed, the home die serves a vpub. -/
def execVpubService (id : Nat) (s : State) : Host.Outcome State Fault Refusal :=
  match findOp s id with
  | some o =>
    match o.kind with
    | .version v =>
      if v.kind ≠ 2 ∨ !vpubReady s o v then .next s
      else match activeRegion s v.region with
        | none => .next (finishOp s o (verResult v (refusal 4)))
        | some r =>
          let t := rgWstep (rdRegion s r)
          let s1 := (publishAll s o.w r (lanesOf o.lanes)).getD s
          .next (finishOp s1 o (verResult v (TWord.valid (BitVec.ofNat 64 t))))
    | _ => .next s
  | none => .next s

end Sys2Proof.Machine
end

