-- ==== Sys2Proof/Machine/Place.lean ====
section
/-!
DEFINITION. Whether a core admits a block, and where its warps go (R14, R17, R27, R450).
-/
namespace Sys2Proof.Machine

/-- What a block takes of a core: vector registers of each warp by warp number, dual mode, tile-store bytes, tiles, arrival objects,
circular buffers. -/
structure Need where
  warps : List (Nat × Nat)
  dual : Bool
  ts : Nat
  tiles : Nat
  aos : Nat
  cbs : Nat

/-- What a core has free: warp-registers and occupied slots of each quarter, blocks, and the units of `Need`. -/
structure Room where
  quarters : List (Nat × List Nat)
  blks : Nat
  ts : Nat
  tiles : Nat
  aos : Nat
  cbs : Nat

/-- Where a warp goes: warp number, quarter, slot, slot of its shadow. -/
structure Spot where
  warp : Nat
  quarter : Nat
  slot : Nat
  shadow : Nat

/-- An empty core; core 0 holds the dispatcher warp (R14). -/
def emptyRoom (core0 : Bool) : Room :=
  { quarters := [if core0 then (992, [0]) else (1024, []), (1024, []), (1024, []), (1024, [])], blks := 32, ts := 524288, tiles := 192,
    aos := 64, cbs := 32 }

/-- Slots in use in a quarter, those of shadows included. -/
def slotsUsed (ws : List (Nat × Warp)) (s : State) (q : Nat) : List Nat :=
  ws.flatMap (fun e => (if e.2.quarter = q then [e.2.slot] else []) ++
    (if (getBlock s (blkOf e.1)).dual && decide ((e.2.quarter + 1) % 4 = q) then [e.2.shadow] else []))

/-- A core that the configuration block disables (R465). -/
def coreOff (s : State) (core : Nat) : Bool :=
  match s.mgmt.config with
  | some c => c.disabled.contains core
  | none => false

/-- The room on a core as it would be without some of its blocks; a disabled core has none (R465). -/
def coreRoom (s : State) (core : Nat) (without : List Nat) : Room :=
  if coreOff s core then { quarters := List.replicate 4 (0, List.range 16), blks := 0, ts := 0, tiles := 0, aos := 0, cbs := 0 }
  else
  let ws := (coreWarps s core).filter (fun e => !without.contains (blkOf e.1))
  let bs := (coreBlocks s core).filter (fun e => !without.contains e.1)
  let regs (q : Nat) : Nat := (ws.map (fun e => (if e.2.quarter = q then e.2.vregs else 0) +
    (if (getBlock s (blkOf e.1)).dual && decide ((e.2.quarter + 1) % 4 = q) then e.2.vregs else 0))).sum
  { quarters := (List.range 4).map (fun q => (1024 - regs q, slotsUsed ws s q)), blks := 32 - (bs.filter (fun e => !e.2.disp)).length,
    ts := 524288 - (bs.map (fun e => e.2.tsbytes)).sum, tiles := 192 - (bs.map (fun e => e.2.tiles)).sum,
    aos := 64 - (bs.map (fun e => e.2.naos)).sum, cbs := 32 - (bs.map (fun e => e.2.ncb)).sum }

/-- The lowest free slot of a quarter. -/
def freeSlot (qs : List (Nat × List Nat)) (q : Nat) : Option Nat :=
  (List.range 16).find? (fun i => !(qs.getD q (0, [])).2.contains i)

def freeRegs (qs : List (Nat × List Nat)) (q : Nat) : Nat := (qs.getD q (0, [])).1

/-- Takes a slot and registers of a quarter. -/
def takeQuarter (qs : List (Nat × List Nat)) (q n slot : Nat) : List (Nat × List Nat) :=
  qs.set q (freeRegs qs q - n, slot :: (qs.getD q (0, [])).2)

/-- R17, R450: the quarter of the next warp: of those with a free slot, and with room for the shadow in the next quarter, the one with
the most free capacity, the lowest-numbered on ties. -/
def placeWarp (qs : List (Nat × List Nat)) (dual : Bool) (wn n : Nat) : Option (Spot × List (Nat × List Nat)) :=
  let cands := (List.range 4).filter (fun q => (freeSlot qs q).isSome &&
    (!dual || ((freeSlot qs ((q + 1) % 4)).isSome && decide (freeRegs qs ((q + 1) % 4) ≥ n))))
  match cands.foldl (fun (b : Option Nat) q => match b with
    | none => some q
    | some x => if freeRegs qs q > freeRegs qs x then some q else some x) none with
  | none => none
  | some q =>
    if freeRegs qs q < n then none
    else
      let a := (freeSlot qs q).getD 0
      let h := (freeSlot qs ((q + 1) % 4)).getD 0
      let qs1 := takeQuarter qs q n a
      some ({ warp := wn, quarter := q, slot := a, shadow := if dual then h else 0 }, if dual then takeQuarter qs1 ((q + 1) % 4) n h else qs1)

/-- Places warps in ascending order. -/
def placeWarps (dual : Bool) : List (Nat × Nat) → List (Nat × List Nat) → Option (List Spot × List (Nat × List Nat))
  | [], qs => some ([], qs)
  | (wn, n) :: r, qs =>
    match placeWarp qs dual wn n with
    | none => none
    | some (sp, qs1) => (placeWarps dual r qs1).map (fun x => (sp :: x.1, x.2))

/-- R27: the core admits the block: where its warps go, and what room is left. -/
def admitBlock (r : Room) (n : Need) : Option (List Spot × Room) :=
  if r.blks = 0 ∨ r.ts < n.ts ∨ r.tiles < n.tiles ∨ r.aos < n.aos ∨ r.cbs < n.cbs then none
  else (placeWarps n.dual n.warps r.quarters).map (fun x =>
    (x.1, { quarters := x.2, blks := r.blks - 1, ts := r.ts - n.ts, tiles := r.tiles - n.tiles, aos := r.aos - n.aos, cbs := r.cbs - n.cbs }))

/-- A placement: the core within its die, and where the warps go. -/
abbrev Placed := Nat × List Spot

/-- Blocks placed one per core, each on the lowest-numbered core that lets the rest be placed. -/
def assign : List Need → List (Nat × Room) → Option (List (Placed × Room))
  | [], _ => some []
  | n :: r, rooms => rooms.findSome? (fun e =>
    match admitBlock e.2 n with
    | none => none
    | some (sp, room) => (assign r (rooms.filter (fun x => x.1 ≠ e.1))).map (fun x => ((e.1, sp), room) :: x))

/-- R361: a block goes to the lowest-numbered core, the blocks of a cluster together to the lowest cluster. -/
def placeGroup (cluster : Bool) (ns : List Need) (rooms : List (Nat × Room)) : Option (List (Placed × Room)) :=
  if cluster then (List.range 6).findSome? (fun k => assign ns (rooms.filter (fun e => e.1 / 8 = k))) else assign ns rooms

/-- The rooms after a placement. -/
def roomsAfter (rooms : List (Nat × Room)) (ps : List (Placed × Room)) : List (Nat × Room) :=
  rooms.map (fun e => match ps.find? (fun p => p.1.1 = e.1) with | some p => (e.1, p.2) | none => e)

/-- Groups placed one after another; the groups that could be placed, and the first that could not with the rooms it met. -/
def placeAll (cluster : Bool) : List (List Need) → List (Nat × Room) → List Placed × Option (List Need × List (Nat × Room))
  | [], _ => ([], none)
  | g :: r, rooms =>
    match placeGroup cluster g rooms with
    | none => ([], some (g, rooms))
    | some ps => let x := placeAll cluster r (roomsAfter rooms ps); (ps.map (·.1) ++ x.1, x.2)

end Sys2Proof.Machine
end

