-- ==== Sys2Proof/Machine/Launch.lean ====
section
/-!
DEFINITION. Launch records, mailboxes, the dispatcher and the matching of task nodes (R345 to R359, R475, R476).
-/
namespace Sys2Proof.Machine

/-! ### Launch records (R345 to R347) -/

def rcEntry (r : Nat) : Nat := bitsOf r 63 0
def rcPrio (r : Nat) : Nat := bitsOf r 65 64
def rcCoop (r : Nat) : Bool := r.testBit 66
def rcRst (r : Nat) : Bool := r.testBit 67
def rcDual (r : Nat) : Bool := r.testBit 68
def rcGraph (r : Nat) : Bool := r.testBit 69
def rcNlev (r : Nat) : Nat := bitsOf r 79 72
def rcNargs (r : Nat) : Nat := bitsOf r 87 80
def rcAsid (r : Nat) : Nat := bitsOf r 111 96
def rcRegs (r : Nat) : Nat := 8 * bitsOf r 132 128
def rcTsk (r : Nat) : Nat := bitsOf r 142 133
def rcTiles (r : Nat) : Nat := bitsOf r 150 143
def rcNaos (r : Nat) : Nat := bitsOf r 157 151
def rcNcb (r : Nat) : Nat := bitsOf r 163 158
def rcStart (r d : Nat) : Nat := bitsOf r (448 + 64 * d + 31) (448 + 64 * d)
def rcEnd (r d : Nat) : Nat := bitsOf r (448 + 64 * d + 63) (448 + 64 * d + 32)
def rcPbase (r : Nat) : Nat := bitsOf r 735 704
def rcPcount (r : Nat) : Nat := bitsOf r 767 736
def rcCrec (r : Nat) : Nat := bitsOf r 831 768
def rcLaunchid (r : Nat) : Nat := bitsOf r 895 832
def rcGdesc (r : Nat) : Nat := bitsOf r 959 896
def rcArg (r j : Nat) : Nat := bitsOf r (1024 + 64 * j + 63) (1024 + 64 * j)
/-- Level k: domain, scope, extent. -/
def rcLevel (r k : Nat) : Nat × Nat × Nat :=
  let v := bitsOf r (192 + 32 * k + 31) (192 + 32 * k)
  (bitsOf v 29 27, bitsOf v 26 24, bitsOf v 23 0)
def rcLevels (r : Nat) : List (Nat × Nat × Nat) := (List.range (min 8 (rcNlev r))).map (rcLevel r)

/-- The scope of the launch's outermost level. -/
def rcScope (r : Nat) : Nat := (rcLevel r 0).2.1
/-- Some level has the domain. -/
def rcHas (r dom : Nat) : Bool := (rcLevels r).any (fun l => l.1 = dom)
/-- The extent of the level of a domain, 1 without one. -/
def rcExtent (r dom : Nat) : Nat := (((rcLevels r).find? (fun l => l.1 = dom)).map (·.2.2)).getD 1
/-- Warps of a block, blocks of the launch (R346), blocks of a cluster (1 without a cluster level). -/
def rcWarps (r : Nat) : Nat := rcExtent r 1
def rcBlocks (r : Nat) : Nat := (((rcLevels r).filter (fun l => decide (2 ≤ l.1 ∧ l.1 ≤ 6))).map (·.2.2)).prod
def rcCluster (r : Nat) : Nat := if rcHas r 3 then rcExtent r 2 else 1

/-- R30: lowest scope and extents of a domain; `within` is the enclosing level's domain. -/
def levelOk (within : Option Nat) (l : Nat × Nat × Nat) : Bool :=
  let x := l.2.2
  match l.1 with
  | 0 => decide (l.2.1 = 0 ∧ x = 32)
  | 1 => decide (1 ≤ x ∧ x ≤ 32)
  | 2 => decide (1 ≤ l.2.1 ∧ 1 ≤ x) && (!decide (within = some 3) || decide (x ≤ 8))
  | 3 => decide (2 ≤ l.2.1 ∧ 1 ≤ x)
  | 4 => decide (3 ≤ l.2.1 ∧ 1 ≤ x ∧ x ≤ 4)
  | 5 => decide (4 ≤ l.2.1 ∧ 1 ≤ x ∧ x ≤ 1024)
  | 6 => decide (5 ≤ l.2.1 ∧ x = 1)
  | _ => decide (3 ≤ l.2.1 ∧ x = 1)

/-- R30: the levels from one on: domains strictly decrease, and the innermost is a lane level. -/
def levelsOk : Option Nat → List (Nat × Nat × Nat) → Bool
  | w, [] => decide (w = some 0)
  | w, l :: r => (match w with | some d => decide (l.1 < d) | none => true) && levelOk w l && levelsOk (some l.1) r

/-- Code 1 (R349): the hierarchy, and its agreement with the graph bit. -/
def hierarchyOk (r : Nat) : Bool :=
  decide (1 ≤ rcNlev r ∧ rcNlev r ≤ 8) && levelsOk none (rcLevels r) && decide (rcGraph r = decide ((rcLevel r 0).1 = 7))

/-- What a block of the launch takes of a core (R27). -/
def rcNeed (r : Nat) : Need :=
  { warps := (List.range (rcWarps r)).map (fun w => (w, rcRegs r)), dual := rcDual r, ts := 1024 * rcTsk r, tiles := rcTiles r, aos := rcNaos r, cbs := rcNcb r }

/-- Code 2 (R349): resources, which an empty core must be able to hold (R17, R27), arguments, entry and reserved bits. -/
def resourcesOk (r : Nat) : Bool :=
  decide (8 ≤ rcRegs r ∧ rcRegs r ≤ 192 ∧ rcTsk r ≤ 512 ∧ rcTiles r ≤ 192 ∧ 1 ≤ rcNaos r ∧ rcNaos r ≤ 64 ∧ rcNcb r ≤ 32 ∧
    rcNargs r ≤ 16 ∧ rcEntry r % 8 = 0 ∧ rcEntry r < 2 ^ 56) && !(rcDual r && decide (rcWarps r > 16)) && (admitBlock (emptyRoom false) (rcNeed r)).isSome && (rcGraph r || decide (rcGdesc r = 0)) &&
    decide (bitsOf r 71 70 = 0 ∧ bitsOf r 95 88 = 0 ∧ bitsOf r 127 112 = 0 ∧ bitsOf r 191 164 = 0 ∧ bitsOf r 1023 960 = 0) &&
    (List.range 8).all (fun k => decide (bitsOf r (192 + 32 * k + 31) (192 + 32 * k + 30) = 0))

/-- The launch has a level of domain 4 or 5, and so a partition (R347). R30 says `a die level or a wider one`: where a fabric level is the only one
wider than a cluster the two differ, and the model follows R347, so that such a launch has none (DESIGN CHOICE, log 66). -/
def rcParted (r : Nat) : Bool := rcHas r 4 || rcHas r 5

/-- The blocks of a die: first, and end, exclusive (R347). -/
def rcShare (r d : Nat) : Nat × Nat := if rcParted r then (rcStart r d, rcEnd r d) else (rcPbase r, rcPbase r + rcPcount r)

/-- Code 3 (R347): the partition. -/
def partitionOk (r : Nat) : Bool :=
  let lo := rcPbase r
  let hi := lo + rcPcount r
  let ds := (List.range 4).filter (fun d => rcStart r d ≠ rcEnd r d)
  decide (hi ≤ rcBlocks r) &&
    (if rcParted r then
      ds.all (fun d => decide (lo ≤ rcStart r d ∧ rcStart r d < rcEnd r d ∧ rcEnd r d ≤ hi)) &&
      ds.all (fun d => ds.all (fun e => decide (d = e ∨ rcEnd r d ≤ rcStart r e ∨ rcEnd r e ≤ rcStart r d))) &&
      decide ((ds.map (fun d => rcEnd r d - rcStart r d)).sum = rcPcount r) &&
      (List.range 4).all (fun d => decide (rcStart r d % rcCluster r = 0 ∧ rcEnd r d % rcCluster r = 0))
    else decide (bitsOf r 703 448 = 0))

/-- A range of blocks in groups that are placed together: the blocks of one cluster. -/
def groupsOf (csize : Nat) : List Nat → List (List Nat)
  | [] => []
  | x :: r => match groupsOf csize r with
    | (y :: g) :: t => if x / csize = y / csize then (x :: y :: g) :: t else [x] :: (y :: g) :: t
    | t => [x] :: t

/-- Code 4 (R349): the die admits a cooperative share when it is empty. -/
def coopFits (r d : Nat) : Bool :=
  let sh := rcShare r d
  let gs := groupsOf (rcCluster r) ((List.range (sh.2 - sh.1)).map (sh.1 + ·))
  !rcCoop r || (placeAll (rcHas r 3) (gs.map (fun g => g.map (fun _ => rcNeed r))) ((List.range 48).map (fun c => (c, emptyRoom (decide (c = 0)))))).2.isNone

/-! ### What the DWS reads and writes (R476) -/

/-- Why the DWS cannot go on: a refusal code, or a page that is not resident. -/
inductive DwsStop where
  | code (n : Nat)
  | stall (x : Wait)

/-- The DWS of a die in a space, in user mode. -/
def dwsAgent (die space : Nat) (denied : List Nat) : Agent :=
  { die := die, core := 48 * die, blk := die, sup := false, space := space, denied := denied }

/-- The pieces of a range, each within 4 KiB. -/
def pieces : Nat → Nat → Nat → List (Nat × Nat)
  | 0, _, _ => []
  | fuel + 1, va, n => if n = 0 then [] else let k := min n (4096 - va % 4096); (va, k) :: pieces fuel (va + k) (n - k)

/-- The leaf, address and key of each piece of a range, or why there is none. -/
def dwsPieces (s : State) (a : Agent) (k : AKind) (va n : Nat) : Except DwsStop (List (Leaf × Nat × Nat × Nat)) :=
  (pieces (n / 4096 + 2) va n).foldr (fun e acc =>
    match acc with
    | .error x => (match checkAddr s a e.1 e.2 k, x with
      | .fail .., _ => .error (.code 5)
      | .stall t h, .stall _ => .error (.stall (pageWait a [e.1] (reqKind k) t h))
      | _, x => .error x)
    | .ok l => match checkAddr s a e.1 e.2 k with
      | .fail .. => .error (.code 5)
      | .stall t h => .error (.stall (pageWait a [e.1] (reqKind k) t h))
      | .ok lf key => .ok ((lf, e.1, key, e.2) :: l)) (.ok [])

/-- Marks the pages of a range as accessed. -/
def dwsTouch (s : State) (a : Agent) (write : Bool) (ps : List (Leaf × Nat × Nat × Nat)) : State :=
  ps.foldl (fun s p => touch s a p.2.1 p.1 write) s

/-- n bytes as the DWS reads them at their home; bytes that a data fault covers cannot be read. -/
def dwsRead (s : State) (a : Agent) (va n : Nat) : Except DwsStop (State × Nat) :=
  match dwsPieces s a .load va n with
  | .error x => .error x
  | .ok ps =>
    if ps.any (fun p => (dataFault s (2 ^ 40) p.2.2.1 p.2.2.2).isSome) then .error (.code 5)
    else .ok (dwsTouch s a false ps,
      (ps.foldr (fun p (v : Nat) => rdMem s p.2.2.1 p.2.2.2 + 2 ^ (8 * p.2.2.2) * v) 0))

/-- Writes n bytes of a value piece by piece at the home. -/
def dwsWrite (s : State) (a : Agent) (ps : List (Leaf × Nat × Nat × Nat)) (v : Nat) (ms : List Mark) : State :=
  (ps.foldl (fun (acc : State × Nat) p =>
    (writeMarks (writeHome acc.1 (2 ^ 40) p.2.2.1 p.2.2.2 (acc.2 % 2 ^ (8 * p.2.2.2))) p.2.2.1 p.2.2.2 true ms, acc.2 / 2 ^ (8 * p.2.2.2)))
    (dwsTouch s a true ps, v)).1

/-- R350: updates the die's section of a completion record: blocks and races are added, relaunches counted, the state raised, a first code
kept, as a release at the launch's outermost scope. A record that fails translation is not updated (R476). -/
def crecUpdate (s : State) (die rec : Nat) (denied : List Nat) (blocks races relaunch state code : Nat) (ms : List Mark) : Except Wait State :=
  if rcCrec rec = 0 then .ok s
  else
    let a := dwsAgent die (rcAsid rec) denied
    match dwsPieces s a .store (rcCrec rec + 16 * die) 16 with
    | .error (.stall x) => .error x
    | .error (.code _) => .ok s
    | .ok ps =>
      let old := ps.foldr (fun p (v : Nat) => rdMem s p.2.2.1 p.2.2.2 + 2 ^ (8 * p.2.2.2) * v) 0
      let new := (bitsOf old 31 0 + blocks) % 2 ^ 32 + max (bitsOf old 39 32) state * 2 ^ 32 +
        (if bitsOf old 47 40 = 0 then code % 256 else bitsOf old 47 40) * 2 ^ 40 + (bitsOf old 63 48 + relaunch) % 2 ^ 16 * 2 ^ 48 +
        min (2 ^ 32 - 1) (bitsOf old 95 64 + races) * 2 ^ 64 + bitsOf old 127 96 * 2 ^ 96
      .ok (dwsWrite (wbScope s die (rcScope rec) (fun _ => true)) a ps new (ms.map (fun m => { m with scope := rcScope rec })))

/-! ### Mailboxes (R351) -/

def getMail (s : State) (d : Nat) : List Packet := sget [] s.mail d
def setMail (s : State) (d : Nat) (ps : List Packet) : State := { s with mail := sset [] s.mail d ps }

/-- The source of a packet. -/
def packetSource (p : Packet) : Nat := (p.words.getD 0 0).toNat / 2 ^ 8 % 8
def packetType (p : Packet) : Nat := (p.words.getD 0 0).toNat % 256

/-- A host or mbsend packet has room: 240 entries, sixteen being kept for the DWS. -/
def mailOpen (s : State) (d : Nat) : Bool := decide (((getMail s d).filter (fun p => packetSource p ≠ 5)).length < 240)
def putMail (s : State) (d : Nat) (p : Packet) : State := setMail s d (getMail s d ++ [p])

/-- Moves packets of the DWS that wait into the sixteen entries kept for them (R351, log 60). -/
def drainOut (s : State) (d : Nat) : State :=
  let n := 16 - ((getMail s d).filter (fun p => packetSource p = 5)).length
  let out := sget [] s.mailOut d
  { setMail s d (getMail s d ++ out.take n) with mailOut := sset [] s.mailOut d (out.drop n) }

/-- A packet of the DWS to its own mailbox; without room it waits. -/
def postDws (s : State) (d : Nat) (words : List Nat) (mask : Nat) : State :=
  let p : Packet := { words := (List.range 8).map (fun i => BitVec.ofNat 64 (words.getD i 0)), scope := 3, marks := [], mask := mask }
  drainOut { s with mailOut := sset [] s.mailOut d (sget [] s.mailOut d ++ [p]) } d

/-! ### Rows (R353) -/

def isDispatcher : Chk := chkIf 0x02 (fun e => e.disp)
def vecOnly (get : Fields → BitVec 8) : Chk := fun e => let x := get e.f; if isImm x then some 0x04 else (badReg e x).or (if isV x then none else some 0x04)
/-- A vector or a scalar register. -/
def vecScalarA : Chk := fun e => let x := e.f.a; if isImm x then some 0x03 else (badReg e x).or (if isV x || isS x then none else some 0x04)
def vectorD : Chk := Chk.and dstD (chkIf 0x04 (fun e => isV e.f.d))

def specDws (op : BitVec 9) : OpSpec := { specNone op with cls := .e, cnt := some .ex }
def specMbrecv : OpSpec := { specDws 0x1A0 with priv := isDispatcher, d := vectorD }
def specMbsend : OpSpec := { specDws 0x1A1 with a := scalarA, b := vecOnly (·.b), reads := rdAB }
def specSpawn : OpSpec :=
  { specDws 0x1A2 with priv := isDispatcher, d := scalarD, a := scalarA, b := scalarB, c := scalarC, md := mdBits 3, reads := rdABC }
def specRgn : OpSpec :=
  { specDws 0x1A3 with
    priv := isDispatcher, a := scalarA, b := scalarImmB,
    md := Chk.and noImm (Chk.and (mdBits 3) (chkIf 0x04 (fun e => decide ((modOf e.f).toNat % 4 ≠ 0)))), reads := rdAB, cnt := none }

/-! ### mbrecv, mbsend, spawn, rgn at issue (R355 to R358) -/

/-- Lanes 0 to 7 are active. -/
def lowEight (c : Ctx) : Bool := (List.range 8).all (fun l => c.sp.mask.getLsbD l)

/-- mbrecv. -/
def mbrecvBody (c : Ctx) (s : State) : State :=
  if !lowEight c then raiseAll c causeIllegalOperand 0x0A s
  else startVar c .ex c.sp.mask (List.range 8) (.mbrecv c.f.d.toNat) s
def execMbrecv (f : Fields) (s : State) := issue specMbrecv f s mbrecvBody

/-- mbsend. -/
def mbsendBody (c : Ctx) (s : State) : State :=
  let av := opA s c (lowLane c.sp.mask)
  let bs := ((List.range 8).filter (fun l => c.sp.mask.getLsbD l)).map (fun l => opB s c l)
  match tagRule (av :: bs) with
  | .normal =>
    let typ := (opB s c 0).data.toNat % 256
    if av.data.toNat ≥ 4 ∨ !lowEight c ∨ typ = 0 ∨ (4 ≤ typ ∧ typ < 0x10) ∨
        ((typ = 2 ∨ typ = 3) ∧ !(getBlock s (blkOf c.w)).disp) then raiseAll c causeIllegalOperand 0x0A s
    else
      let w0 : Word := BitVec.ofNat 64 (typ + dieOf s c.w * 2 ^ 8)
      withCommit c true s s fun s1 =>
        advance c (startOp s1 c.w c.sp.mask (some .ex) [] (.mbsend av.data.toNat (w0 :: (List.range 7).map (fun i => (opB s c (i + 1)).data))))
  | _ => advance c s
def execMbsend (f : Fields) (s : State) := issue specMbsend f s mbsendBody

/-- rgn. -/
def rgnBody (c : Ctx) (s : State) : State :=
  let l := lowLane c.sp.mask
  let av := opA s c l
  let bv := opB s c l
  let die := dieOf s c.w
  let rs := sget [] s.rgns die
  match tagRule [av, bv] with
  | .normal =>
    if bv.data.toNat = 0 ∨ bv.data.toNat > 2 ^ 48 ∨ rs.length ≥ 8 then raiseAll c causeIllegalOperand 0x0A s
    else advance c { s with rgns := sset [] s.rgns die (rs ++ [(av.data.toNat, bv.data.toNat, (modOf c.f).toNat % 4)]) }
  | _ => advance c s
def execRgn (f : Fields) (s : State) := issue specRgn f s rgnBody

/-- spawn. -/
def spawnBody (c : Ctx) (s : State) : State :=
  let l := lowLane c.sp.mask
  let av := opA s c l
  let bv := opB s c l
  let cv := opC s c l
  let die := dieOf s c.w
  let cleared : State := { s with rgns := sset [] s.rgns die [] }
  match tagRule [av, bv, cv] with
  | .nullified => settleN c cleared
  | .poisoned p => settleX c p s
  | .normal =>
    let x := cv.data.toNat
    if x / 2 ^ 10 ≠ 0 ∨ x / 2 ^ 5 % 8 ≠ 0 ∨ x / 2 ^ 8 % 4 = 3 then raiseAll c causeIllegalOperand 0x0A s
    else startVar c .ex c.sp.mask (computeLanes c)
      (.spawn { a := av.data, b := bv.data, c := cv.data, try_ := (modOf c.f).getLsbD 0, nfy := (modOf c.f).getLsbD 1, regs := sget [] s.rgns die,
                d := c.f.d.toNat, share := none, rcd := none, desc := [], mask := 0 }) cleared
def execSpawn (f : Fields) (s : State) := issue specSpawn f s spawnBody

/-! ### MBSEND_DELIVERY and MBRECV_RECEIVE (R355, R356, R475) -/

/-- The packet of an mbsend can be written: the accesses before it are performed, the sender's earlier packets to that mailbox are
delivered, and the mailbox has room. -/
def sendReady (s : State) (o : Op) : Bool :=
  match o.kind with
  | .mbsend d _ =>
    mailOpen s d && !s.ops.any (fun e => decide (e.id < o.id) && decide (e.w = o.w) &&
      (match e.kind with | .mbsend d' _ => decide (d' = d) | _ => isAccess e && decide (e.lanes &&& o.lanes ≠ 0)))
  | _ => false

/-- MBSEND_DELIVERY: the packet is written, as a release at die scope for the own die and at package scope otherwise. -/
def execMbsendDelivery (id : Nat) (s : State) : Host.Outcome State Fault Refusal :=
  match findOp s id with
  | some o =>
    match o.kind with
    | .mbsend d ws =>
      if !sendReady s o then .next s
      else
        let sc := if d = dieOf s o.w then 3 else 4
        let p := performRelease (wbScope s (dieOf s o.w) sc (fun _ => true)) (blkOf o.w) sc
        let marks := (p.2 :: (lanesOf o.lanes).flatMap (laneMarks p.1 o.w)).dedup
        .next (putMail (endOp p.1 id) d { words := ws, scope := sc, marks := marks, mask := 0 })
    | _ => .next s
  | none => .next s

/-- R453: writes an entry of type 0x09, or counts it as dropped where the core has used up its window. -/
def vlogWrite (s : State) (core : Nat) (launchid : Nat) (a b : Word) : State :=
  let die := core / 48
  let c := getCore s core
  let n := if c.vwin = c.cyc / 2 ^ 20 then c.vlogs else 0
  if n ≥ (sget DieSt.init s.dies die).vlogq.toNat % 2 ^ 16 then
    { s with vmeta := sset VLog.init s.vmeta die { getVLog s die with dropped := (getVLog s die).dropped + 1 } }
  else vesper (setCore s core { c with vlogs := n + 1, vwin := c.cyc / 2 ^ 20 }) die 0x09 (vsource 7 (core % 48)) a.toNat b.toNat launchid

/-- An operation of the vendor dispatcher (R475), which has no split. -/
def vendorOp (s : State) (die : Nat) (k : OpKind) : State := startOp s (32 * die) 1 (some .ex) [] k

/-- A spawn by the vendor dispatcher. -/
def vendorSpawn (s : State) (die : Nat) (a b c : Word) (share : Option (List Word × Bool)) : State :=
  vendorOp s die (.spawn { a := a, b := b, c := c, try_ := false, nfy := false, regs := [], d := 0xE4, share := share, rcd := none, desc := [], mask := 0 })

/-- A copy of a packet, as the vendor dispatcher of a die sends it. -/
def forwardWords (die : Nat) (ws : List Word) : List Word := BitVec.ofNat 64 ((ws.getD 0 0).toNat % 256 + die * 2 ^ 8) :: ws.drop 1

/-- R475: what the vendor dispatcher does with a packet. -/
def vendorPacket (s : State) (die : Nat) (p : Packet) : State :=
  let w (i : Nat) : Nat := (p.words.getD i 0).toNat
  match packetType p with
  | 1 => vendorSpawn s die (p.words.getD 1 0) 0 0 (some (p.words, decide (packetSource p = 4)))
  | 2 => vendorSpawn s die (p.words.getD 1 0) (BitVec.ofNat 64 (w 2 % 2 ^ 32 + 2 ^ 32)) (BitVec.ofNat 64 (w 2 / 2 ^ 40 % 32 + w 2 / 2 ^ 32 % 4 * 2 ^ 8)) none
  | 3 => ((List.range 4).filter (fun d => decide (d ≠ die) && p.mask.testBit d)).foldl (fun s d => vendorOp s die (.mbsend d (forwardWords die p.words))) s
  | _ => vlogWrite s (48 * die) 0 (p.words.getD 0 0) (p.words.getD 1 0)

/-- The dispatcher receives a packet: the acquire that matches its send (R356). -/
def takePacket (s : State) (die : Nat) (p : Packet) (rest : List Packet) : State :=
  drainOut (acquireAll (acquireNow (setMail s die rest) (32 * die) p.scope) die p.scope p.marks) die

/-- The oldest outstanding mbrecv of a die. -/
def oldestRecv (s : State) (die : Nat) : Option Op :=
  s.ops.find? (fun o => decide (dieOf s o.w = die) && (match o.kind with | .mbrecv _ => true | _ => false))

/-- A packet can be received: the die is out of reset. -/
def recvReady (s : State) (die : Nat) : Bool :=
  decide ((getBlock s die).state = 1) && !(getMail s die).isEmpty && (!sget false s.ownProg die || (oldestRecv s die).isSome)

/-- MBRECV_RECEIVE: the oldest packet goes to the oldest mbrecv; a die that runs the vendor program handles it as R475 says. -/
def execMbrecvReceive (die : Nat) (s : State) : Host.Outcome State Fault Refusal :=
  if !recvReady s die then .next s
  else match getMail s die with
  | [] => .next s
  | p :: rest =>
    if !sget false s.ownProg die then .next (vendorPacket (takePacket s die p rest) die p)
    else match oldestRecv s die with
      | none => .next s
      | some o =>
        match o.kind with
        | .mbrecv d => .next (finishOp (takePacket s die p rest) o ((List.range 8).map (fun i => (d, i, TWord.valid (p.words.getD i 0)))))
        | _ => .next s

/-! ### Reading a launch (R349, R358, R365) -/

/-- Records of a graph's node entry (R365): 64-byte units of a record, batch, quota, timeout, launch record. -/
def geQuota (e : Nat) : Nat := bitsOf e 79 64
def geSize (e : Nat) : Nat := 64 * (bitsOf e 81 80 + 1)
def geBatch (e : Nat) : Nat := bitsOf e 87 82
def geTimeout (e : Nat) : Nat := bitsOf e 127 96
def geLrec (e : Nat) : Nat := bitsOf e 63 0
/-- Fields of the header. -/
def ghPool (h : Nat) : Nat := bitsOf h 63 0
def ghNodes (h : Nat) : Nat := bitsOf h 67 64
def ghRcores (h : Nat) : Nat := bitsOf h 77 72

/-- R365: the record of a record-fed node. -/
def nodeRecordOk (r : Nat) : Bool :=
  hierarchyOk r && resourcesOk r && !rcGraph r && decide (rcBlocks r = 1) && !(rcHas r 3 || rcHas r 4 || rcHas r 5 || rcHas r 6) &&
    (admitBlock (emptyRoom false) (rcNeed r)).isSome

/-- The node entries and records of a graph, from node j on, in pairs. -/
def readNodes (s : State) (a : Agent) (g : Nat) : Nat → Nat → Except DwsStop (State × List Nat)
  | 0, _ => .ok (s, [])
  | n + 1, j =>
    match dwsRead s a (g + 64 + 64 * j) 64 with
    | .error x => .error x
    | .ok (s1, e) =>
      if bitsOf e 511 128 ≠ 0 ∨ bitsOf e 95 88 ≠ 0 ∨ geQuota e = 0 then .error (.code 6)
      else match dwsRead s1 a (geLrec e) 256 with
        | .error x => .error x
        | .ok (s2, r) =>
          if !nodeRecordOk r then .error (.code 6)
          else (readNodes s2 a g n (j + 1)).map (fun x => (x.1, e :: r :: x.2))

/-- Bytes of the Record Pool (R366). -/
def poolBytes : List Nat → Nat
  | e :: _ :: r => geQuota e * geSize e + poolBytes r
  | _ => 0

/-- The pool's pages are local HBM pages of HW mode. -/
def poolPages (s : State) (a : Agent) (pool n : Nat) : Except DwsStop Unit :=
  ((List.range ((n + 65535) / 65536)).map (fun i => pool + 65536 * i)).foldr (fun va acc =>
    match acc, checkAddr s a va 1 .store with
    | .error (.code x), _ => .error (.code x)
    | _, .fail .. => .error (.code 6)
    | _, .stall t h => .error (.stall (pageWait a [va] 1 t h))
    | acc, .ok l _ => if l.tgt ≠ 0 ∨ l.coh ≠ 0 ∨ l.rep ∨ leafRegs l va then .error (.code 6) else acc) (.ok ())

/-- The graph descriptor at gdesc: the header, then each node's entry and record. -/
def readGraph (s : State) (a : Agent) (g : Nat) : Except DwsStop (State × List Nat) :=
  match dwsRead s a g 128 with
  | .error x => .error x
  | .ok (s1, v) =>
    let h := v % 2 ^ 512
    let e0 := v / 2 ^ 512
    if h / 2 ^ 78 ≠ 0 ∨ bitsOf h 71 68 ≠ 0 ∨ ghNodes h = 0 ∨ ghRcores h = 0 ∨ ghRcores h > 47 ∨ ghPool h % 65536 ≠ 0 ∨
        bitsOf e0 511 128 ≠ 0 ∨ bitsOf e0 95 88 ≠ 0 ∨ geQuota e0 ≠ 0 ∨ geLrec e0 ≠ 0 then .error (.code 6)
    else match readNodes s1 a g (ghNodes h) 1 with
      | .error x => .error x
      | .ok (s2, ns) =>
        match poolPages s2 a (ghPool h) (poolBytes ns) with
        | .error x => .error x
        | .ok _ => .ok (s2, h :: ns)

/-- The first code of R349 that a record read by a spawn of a range fails, codes 1 to 4. -/
def recordCode (r d first count : Nat) : Option Nat :=
  let sh := rcShare r d
  if !hierarchyOk r then some 1
  else if !resourcesOk r then some 2
  else if !partitionOk r ∨ count = 0 ∨ first < sh.1 ∨ first + count > sh.2 then some 3
  else if !coopFits r d then some 4
  else none

/-- Reads what a spawn reads: its descriptor, accepted, or why not; the record where it could be read. -/
def readLaunch (s : State) (die rec : Nat) (x : SpawnOp) (denied : List Nat) : Except DwsStop (State × List Nat) :=
  let a := dwsAgent die (rcAsid rec) denied
  match recordCode rec die (x.b.toNat % 2 ^ 32) (x.b.toNat / 2 ^ 32) with
  | some n => .error (.code n)
  | none =>
    match (if rcGraph rec then readGraph s a (rcGdesc rec) else .ok (s, [])) with
    | .error e => .error e
    | .ok (s1, desc) =>
      if rcCrec rec = 0 then .ok (s1, desc)
      else match dwsPieces s1 a .store (rcCrec rec) 64 with
        | .error e => .error e
        | .ok _ => .ok (s1, desc)

/-- R475: the share of the die that the vendor dispatcher spawns, whether the node's retirement is notified, and the copies it
forwards. -/
def vendorShare (s : State) (die rec : Nat) (x : SpawnOp) : State × SpawnOp :=
  match x.share with
  | none => (s, x)
  | some (ws, fwd) =>
    let mask := (ws.getD 2 0).toNat % 16
    let sh := rcShare rec die
    let others := (List.range 4).filter (fun d => decide (d ≠ die) && rcParted rec && decide (rcStart rec d ≠ rcEnd rec d))
    (if fwd then others.foldl (fun s d => vendorOp s die (.mbsend d (forwardWords die ws))) s else s,
      { x with b := BitVec.ofNat 64 (sh.1 + (sh.2 - sh.1) * 2 ^ 32), nfy := rcHas rec 4 || decide (mask ≠ 0), mask := mask, share := none })

/-- A spawn is refused: D, and the completion record of a record that could be read (R350, R358). -/
def refuseSpawn (s : State) (o : Op) (x : SpawnOp) (rec : Option Nat) (n : Nat) : Except Wait State :=
  match (match rec with | some r => crecUpdate s (dieOf s o.w) r o.denied 0 0 0 4 n [] | none => .ok s) with
  | .error w => .error w
  | .ok s1 => .ok (finishOp s1 o [(x.d, 0, refusal n)])

/-- The DWS reads what a spawn names: the spawn is accepted, refused, or waits for a page. -/
def readSpawn (s : State) (o : Op) (x : SpawnOp) : Except Wait State :=
  let die := dieOf s o.w
  match dwsRead s { agentOf s o.w false with denied := o.denied } x.a.toNat 256 with
  | .error (.stall w) => .error w
  | .error (.code n) => refuseSpawn s o x none n
  | .ok (s1, rec) =>
    let v := vendorShare s1 die rec x
    if x.share.isSome && decide (v.2.b.toNat / 2 ^ 32 = 0) && hierarchyOk rec && partitionOk rec then .ok (endOp v.1 o.id)
    else match readLaunch v.1 die rec v.2 o.denied with
      | .error (.stall w) => .error w
      | .error (.code n) => refuseSpawn v.1 o v.2 (some rec) n
      | .ok (s2, desc) => .ok (setOpKind s2 o.id (.spawn { v.2 with rcd := some rec, desc := desc }))

/-! ### The Dependence Matcher (R359, R361, R365, R373) -/

/-- The nodes and graphs of a die, with their numbers. -/
def dieNodes (s : State) (d : Nat) : List (Nat × Node) :=
  s.nodes.filterMap (fun e => match e.2 with | some n => if n.die = d then some (e.1, n) else none | none => none)
def dieGraphs (s : State) (d : Nat) : List (Nat × Graph) :=
  s.graphs.filterMap (fun e => match e.2 with | some g => if g.die = d then some (e.1, g) else none | none => none)
def getNode (s : State) (n : Nat) : Option Node := sget none s.nodes n
def setNode (s : State) (n : Nat) (x : Option Node) : State := { s with nodes := sset none s.nodes n x }
def getGraph (s : State) (g : Nat) : Option Graph := sget none s.graphs g
def setGraph (s : State) (g : Nat) (x : Option Graph) : State := { s with graphs := sset none s.graphs g x }

/-- A batch node (R370). -/
def isBatch (n : Node) : Bool := n.graph.isSome && decide (n.gidx ≠ 0)

/-- The Ready Pool and the Matcher have room for a node with its regions (R359, R361). -/
def nodeRoom (s : State) (d regs : Nat) : Bool :=
  let ns := dieNodes s d
  decide (ns.length < 1024) && decide ((ns.filter (fun e => !isBatch e.2)).length < 960) && decide ((ns.map (fun e => e.2.regs.length)).sum + regs ≤ 4096)

/-- Two regions overlap, and one of them is written. -/
def conflict (x y : Nat × Nat × Nat) : Bool :=
  decide (x.1 < y.1 + y.2.1) && decide (y.1 < x.1 + x.2.1) && (x.2.2.testBit 1 || y.2.2.testBit 1)

/-- The node on which a new node depends (R359). -/
def dependsOn (p : Node) (asid : Nat) (regs : List (Nat × Nat × Nat)) : Bool :=
  decide (p.asid = asid) && regs.any (fun x => p.regs.any (fun y => conflict x y))

/-- The lowest node id of a die that is not in use. -/
def freeId (s : State) (d : Nat) : Nat := ((List.range 1024).find? (fun i => !(dieNodes s d).any (fun e => e.2.id = i))).getD 0

/-- The record-fed nodes of a descriptor. -/
def graphNodes : List Nat → List GNode
  | e :: r :: t => { quota := geQuota e, size := geSize e, batch := geBatch e, timeout := geTimeout e, lrec := BitVec.ofNat 64 (geLrec e), rcd := r,
                     closed := false, queue := [] } :: graphNodes t
  | _ => []

/-- A node enters; the launch is a release that its blocks acquire (R348, R359). -/
def enterNode (s : State) (o : Op) (x : SpawnOp) (rec : Nat) : State :=
  let die := dieOf s o.w
  let p := performRelease (wbScope s die (rcScope rec) (fun _ => true)) (blkOf o.w) 7
  let s1 := p.1
  let n := s1.nextNode
  let id := freeId s1 die
  let c := x.c.toNat
  let deps := ((dieNodes s1 die).filter (fun e => dependsOn e.2 (rcAsid rec) x.regs)).map (·.1)
  let node : Node :=
    { id := id, die := die, lrec := x.a, rcd := rec, asid := rcAsid rec, first := x.b.toNat % 2 ^ 32, count := x.b.toNat / 2 ^ 32,
      next := x.b.toNat % 2 ^ 32, dropped := [], attempt := c / 2 ^ 8 % 4, avoid := c % 32, nfy := x.nfy, mask := x.mask, regs := x.regs, deps := deps,
      graph := if rcGraph rec then some n else none, gidx := 0, batch := [], marks := [p.2], after := false, done := 0, ended := 0, saved := [], races := 0, out := [],
      code := 0, killed := false, denied := [] }
  let s2 := setNode { s1 with nextNode := n + 1 } n (some node)
  let s3 := match x.desc with
    | h :: ns => setGraph s2 n (some { die := die, root := n, asid := rcAsid rec, pool := ghPool h, rcores := ghRcores h, ready := false, nodes := graphNodes ns,
                                       recs := [], reqs := [], cuts := 0 })
    | [] => s2
  finishOp s3 o [(x.d, 0, TWord.valid (BitVec.ofNat 64 id))]

/-- The spawns of a die, the oldest first. -/
def spawnOps (s : State) (d : Nat) : List (Op × SpawnOp) :=
  s.ops.filterMap (fun o => match o.kind with | .spawn x => if dieOf s o.w = d then some (o, x) else none | _ => none)

/-- The first accepted spawn that enters, or is answered 7: a spawn that is still to be read or without room keeps the later ones back (R359), a
graph that waits for its cores does not. -/
def matchSpawn (s : State) (d : Nat) : List (Op × SpawnOp) → Option State
  | [] => none
  | (o, x) :: r =>
    match x.rcd with
    | none => none
    | some rec =>
      if !nodeRoom s d x.regs.length then (if x.try_ then some (finishOp s o [(x.d, 0, refusal 7)]) else none)
      else if rcGraph rec && !(dieGraphs s d).isEmpty then matchSpawn s d r
      else some (enterNode s o x rec)

/-- The next spawn to be read, once its split's earlier accesses are performed: read, or its stall recorded. Spawns are read in their order (R359). -/
def readSpawns (s : State) (xs : List (Op × SpawnOp)) : Option State :=
  match xs.find? (fun e => e.2.rcd.isNone) with
  | none => none
  | some (o, x) =>
    if (accessOps s o.w o.lanes).any (fun e => decide (e.id < o.id)) then none
    else match readSpawn s o x with
      | .ok s1 => some s1
      | .error (.page die h sp g k) => if stallsOpen s die h sp g then none else some (addStalls (.page die h sp g k) s)
      | .error _ => none

/-- NODE_MATCH (R358, R359): a spawn of the die is matched, or read. -/
def nodeMatch (d : Nat) (s : State) : Option State := (matchSpawn s d (spawnOps s d)).or (readSpawns s (spawnOps s d))
def execNodeMatch (die : Nat) (s : State) : Host.Outcome State Fault Refusal := .next ((nodeMatch die s).getD s)

end Sys2Proof.Machine
end

