-- ==== Sys2Proof/Machine/Graph.lean ====
section
/-!
DEFINITION. Work graphs: the Record Pool, batches, and the instructions that use them (R353, R364 to R373).
-/
namespace Sys2Proof.Machine

/-! ### Rows (R353) -/

def specRalloc : OpSpec := { specDws 0x1A4 with d := vectorD, a := vecScalarA, md := mdBits 1, reads := rdA, cnt := none }
def specRsub : OpSpec := { specDws 0x1A5 with a := vecScalarA, reads := rdA }
def specRbatch : OpSpec := { specDws 0x1A6 with a := scalarA, b := scalarImmB, c := scalarImmC, reads := rdABC }
/-- `.n` takes no A; a scalar D takes a scalar A (R75). -/
def fetchN (f : Fields) : Bool := (modOf f).getLsbD 0
def specRfetch : OpSpec :=
  { specDws 0x1A7 with
    d := dstD,
    a := fun e => if fetchN e.f then unusedOf e.f.a
      else if isL e.f.a then (if isS e.f.d then some 0x04 else none)
      else (vecScalarA e).or (if isS e.f.d && isV e.f.a then some 0x04 else none),
    md := mdBits 1, reads := fun f => if fetchN f then [] else [f.a] }
def specRfree : OpSpec := { specDws 0x1A8 with a := vecScalarA, reads := rdA }
def specLvcoord : OpSpec := { specDws 0x1A9 with d := dstD, md := mdBits 0xF }

/-! ### The block's node and graph -/

def blockNode (s : State) (b : Nat) : Option Node := getNode s (getBlock s b).node
/-- The graph of a block, with its number. -/
def blockGraph (s : State) (b : Nat) : Option (Nat × Graph) :=
  match (blockNode s b).bind (fun n => n.graph) with
  | some g => (getGraph s g).map (fun x => (g, x))
  | none => none

/-! ### Records (R366) -/

/-- Node j of a graph, from 1 on. -/
def gnode (g : Graph) (j : Nat) : Option GNode := if j = 0 then none else g.nodes[j - 1]?
def setGnode (g : Graph) (j : Nat) (x : GNode) : Graph := { g with nodes := g.nodes.set (j - 1) x }

/-- The VA of the first record of node j. -/
def recordBase (g : Graph) (j : Nat) : Nat := g.pool + ((g.nodes.take (j - 1)).map (fun n => n.quota * n.size)).sum
def recordVa (g : Graph) (j i : Nat) : Nat := recordBase g j + i * ((gnode g j).map (fun n => n.size)).getD 64
def recKey (j i : Nat) : Nat := 65536 * j + i

/-- The record that starts at a VA. -/
def recordAt (g : Graph) (va : Nat) : Option (Nat × Nat) :=
  (List.range g.nodes.length).findSome? (fun x =>
    match gnode g (x + 1) with
    | some n =>
      let b := recordBase g (x + 1)
      if b ≤ va ∧ va < b + n.quota * n.size ∧ (va - b) % n.size = 0 then some (x + 1, (va - b) / n.size) else none
    | none => none)

/-- A record's state: (0, 0) free, (1, block) held, (2, 0) queued, (3, node) batched. -/
def recState (g : Graph) (j i : Nat) : Nat × Nat := sget (0, 0) g.recs (recKey j i)
def setRec (g : Graph) (j i : Nat) (x : Nat × Nat) : Graph := { g with recs := sset (0, 0) g.recs (recKey j i) x }

/-- The lowest free record of a node. -/
def freeRecord (g : Graph) (j : Nat) : Option Nat :=
  (List.range (((gnode g j).map (fun n => n.quota)).getD 0)).find? (fun i => recState g j i = (0, 0))
/-- Free records of a node. -/
def freeCount (g : Graph) (j : Nat) : Nat :=
  ((gnode g j).map (fun n => n.quota)).getD 0 - (g.recs.filter (fun e => e.1 / 65536 = j)).length

/-! ### ralloc (R368) -/

/-- The records asked for of a node. -/
def asked (asks : List (Nat × Nat)) (j : Nat) : Nat := (asks.filter (fun e => e.2 = j)).length

/-- Every node has the records that the request asks for. -/
def canGrant (g : Graph) (asks : List (Nat × Nat)) : Bool := asks.all (fun e => decide (asked asks e.2 ≤ freeCount g e.2))

/-- Grants a request: each lane in ascending order takes the lowest free record of its node. -/
def takeRecords (g : Graph) (blk : Nat) (asks : List (Nat × Nat)) : Graph × List (Nat × Nat) :=
  asks.foldl (fun acc e =>
    match freeRecord acc.1 e.2 with
    | some i => (setRec acc.1 e.2 i (1, blk), acc.2 ++ [(e.1, recordVa acc.1 e.2 i)])
    | none => acc) (g, [])

/-- The traps of the record instructions: the lanes that fail, each with its operand (R354). -/
def recordTrap (c : Ctx) (sub : Nat) (ls : List (Nat × Word)) (s : State) : State :=
  raise c { cause := causeRecordPool, sub := sub, lanes := maskOf (fun l => ls.any (fun e => e.1 = l)), retry := c.sp.mask, vals := ls } s

/-- The first check of R368 that fails: its subcode and lanes. -/
def rallocCheck (g : Option (Nat × Graph)) (own : Nat) (vs : List (Nat × Word)) : Option (Nat × List (Nat × Word)) :=
  match g with
  | none => some (1, vs)
  | some (_, g) =>
    match vs.filter (fun e => decide (e.2.toNat = 0 ∨ e.2.toNat > g.nodes.length ∨ e.2.toNat ≤ own)) with
    | x :: xs => some (2, x :: xs)
    | [] =>
      match vs.filter (fun e => decide (asked (vs.map (fun y => (y.1, y.2.toNat))) e.2.toNat > ((gnode g e.2.toNat).map (fun n => n.quota)).getD 0)) with
      | x :: xs => some (4, x :: xs)
      | [] => none

/-- A request waits that is still its split's (R368). -/
def liveReq (s : State) (r : RallocReq) : Bool :=
  decide ((getSplit s r.w r.k).susp = some .records) && decide ((getBlock s (blkOf r.w)).state = 1) && !(getBlock s (blkOf r.w)).killed

/-- ralloc. -/
def rallocBody (c : Ctx) (s : State) : State :=
  let all := (actives c).map (fun l => (l, opA s c l))
  let vs := (all.filter (fun e => e.2.tag = .v)).map (fun e => (e.1, e.2.data))
  let d := c.f.d.toNat
  let old (l : Nat) : TWord := ⟨.n, (rdReg s c.w d l).data⟩
  let rest := (all.filter (fun e => e.2.tag ≠ .v)).map (fun e => (e.1, if e.2.tag = .x then (⟨.x, e.2.data⟩ : TWord) else old e.1))
  let asks := vs.map (fun e => (e.1, e.2.toNat))
  if vs.isEmpty then advance c (writeNow s c.w d rest)
  else
    let bg := blockGraph s (blkOf c.w)
    match rallocCheck bg (((blockNode s (blkOf c.w)).map (fun n => n.gidx)).getD 0) vs, bg with
    | some (sub, ls), _ => recordTrap c sub ls s
    | none, none => s
    | none, some (gid, g) =>
      let s1 := writeNow s c.w d rest
      if (modOf c.f).getLsbD 0 then
        if g.reqs.any (liveReq s) || !canGrant g asks then advance c (writeNow s1 c.w d (vs.map (fun e => (e.1, old e.1))))
        else
          let p := takeRecords g (blkOf c.w) asks
          notBefore c (c.t + 3) (advance c (writeFixed (setGraph s1 gid (some p.1)) c.w d c.t 3 (p.2.map (fun e => (e.1, TWord.valid (BitVec.ofNat 64 e.2))))))
      else
        let reqs := g.reqs.filter (fun r => !(decide (r.w = c.w) && decide (r.k = c.k)))
        suspend c .records (setGraph s1 gid (some { g with reqs := reqs ++ [{ w := c.w, k := c.k, asks := asks, d := d }] }))
def execRalloc (f : Fields) (s : State) := issue specRalloc f s rallocBody

/-- The request at the head of a graph's queue. -/
def headReq (s : State) (g : Graph) : Option RallocReq := g.reqs.find? (liveReq s)

/-- The first graph whose head request can be granted. -/
def grantable (s : State) : Option (Nat × Graph × RallocReq) :=
  s.graphs.findSome? (fun e => match e.2 with
    | some g => (match headReq s g with | some r => if canGrant g r.asks then some (e.1, g, r) else none | none => none)
    | none => none)

/-- RALLOC_GRANT (R368): the request is granted whole; the split is ready three cycles later. -/
def execRallocGrant (s : State) : Host.Outcome State Fault Refusal :=
  match grantable s with
  | none => .next s
  | some (gid, g, r) =>
    let p := takeRecords { g with reqs := g.reqs.filter (fun x => liveReq s x && decide (x ≠ r)) } (blkOf r.w) r.asks
    let t := (getCore s (coreOf s r.w)).cyc
    let s1 := writeFixed (setGraph s gid (some p.1)) r.w r.d t 3 (p.2.map (fun e => (e.1, TWord.valid (BitVec.ofNat 64 e.2))))
    .next (setSplit s1 r.w r.k { stepSplit (getSplit s1 r.w r.k) with next := max (getSplit s1 r.w r.k).next (t + 3) })

/-! ### rsub, rfree, rbatch at issue (R369, R371, R372) -/

/-- Records named by operations of the graph that have not reached the controller. -/
def namedRecords (s : State) (gid : Nat) : List Nat :=
  s.ops.flatMap (fun o => match o.kind with | .record k g vas _ _ _ => if g = gid ∧ k ≠ 1 then vas else [] | _ => [])

/-- The record at a lane's operand may be submitted, or freed. -/
def recordUsable (s : State) (gid : Nat) (g : Graph) (b : Nat) (free : Bool) (va : Nat) : Bool :=
  match recordAt g va with
  | none => false
  | some (j, i) =>
    let st := recState g j i
    !(namedRecords s gid).contains va && (decide (st = (1, b)) || (free && decide (st = (3, (getBlock s b).node))))

/-- Lanes that fail: a record that cannot be used, or one named by a lower lane. -/
def badRecords (ok : Nat → Bool) : List Nat → List (Nat × Word) → List (Nat × Word)
  | _, [] => []
  | seen, e :: r => (if !ok e.2.toNat || seen.contains e.2.toNat then [e] else []) ++ badRecords ok (e.2.toNat :: seen) r

/-- rsub and rfree: the kind is the opcode less 0x1A5. -/
def recordBody (kind : Nat) (c : Ctx) (s : State) : State :=
  let vs := ((actives c).map (fun l => (l, opA s c l))).filterMap (fun e => if e.2.tag = .v then some (e.1, e.2.data) else none)
  if vs.isEmpty then advance c s
  else match blockGraph s (blkOf c.w) with
  | none => recordTrap c 1 vs s
  | some (gid, g) =>
    match badRecords (recordUsable s gid g (blkOf c.w) (decide (kind = 3))) [] vs with
    | x :: xs => recordTrap c 3 (x :: xs) s
    | [] => withCommit c (decide (kind = 0)) s s fun s1 =>
        advance c (stampOp c (startOp s1 c.w (maskOf (fun l => vs.any (fun e => e.1 = l))) (some .ex) [] (.record kind gid (vs.map (·.2.toNat)) 0 0 0)))
def execRsub (f : Fields) (s : State) := issue specRsub f s (recordBody 0)
def execRfree (f : Fields) (s : State) := issue specRfree f s (recordBody 3)

/-- The graph that rbatch changes: the block's, or for the dispatcher the oldest that runs on its die. -/
def batchGraph (s : State) (w : Nat) : Option (Nat × Graph) :=
  if (getBlock s (blkOf w)).disp then (dieGraphs s (dieOf s w)).head? else blockGraph s (blkOf w)

/-- rbatch. -/
def rbatchBody (c : Ctx) (s : State) : State :=
  let l := lowLane c.sp.mask
  let av := opA s c l
  let bv := opB s c l
  let cv := opC s c l
  match tagRule [av, bv, cv] with
  | .normal =>
    let every := (actives c).map (fun l => (l, av.data))
    (match batchGraph s c.w with
    | none => recordTrap c 1 every s
    | some (gid, g) =>
      if av.data.toNat = 0 ∨ av.data.toNat > g.nodes.length then recordTrap c 2 every s
      else if bv.data.toNat = 0 ∨ bv.data.toNat > 64 ∨ cv.data.toNat ≥ 2 ^ 32 then raiseAll c causeIllegalOperand 0x0A s
      else withCommit c true s s fun s1 =>
        advance c (stampOp c (startOp s1 c.w c.sp.mask (some .ex) [] (.record 1 gid [] av.data.toNat bv.data.toNat cv.data.toNat))))
  | _ => advance c s
def execRbatch (f : Fields) (s : State) := issue specRbatch f s rbatchBody

/-! ### Batches and closes (R367, R370) -/

/-- The cycles of a die, of which each core counts those it has passed. -/
def dieCyc (s : State) (d : Nat) : Nat := (s.cores.filter (fun e => e.1 / 48 = d)).foldl (fun t e => max t e.2.cyc) 0

/-- The batch nodes of a graph's node whose block has not ended. -/
def batchesAlive (s : State) (gid j : Nat) : Bool :=
  s.nodes.any (fun e => match e.2 with | some n => decide (n.graph = some gid ∧ n.gidx = j ∧ n.ended < n.count) | none => false)

/-- Every block of node 0 has ended. -/
def rootDone (s : State) (g : Graph) : Bool := match getNode s g.root with | some n => decide (n.ended ≥ n.count) | none => true

/-- Node j may close (R367). -/
def mayClose (s : State) (gid : Nat) (g : Graph) (j : Nat) : Bool :=
  rootDone s g && (List.range j).all (fun i => decide (i = 0) ||
    ((match gnode g i with | some n => n.closed && n.queue.isEmpty | none => true) && !batchesAlive s gid i))

/-- Cuts the n oldest records of node j into a batch node (R370). -/
def cutBatch (s : State) (gid : Nat) (g : Graph) (j n : Nat) : State :=
  match gnode g j with
  | none => s
  | some x =>
    let recs := x.queue.take n
    let num := s.nextNode
    let root := getNode s g.root
    let g1 := setGnode g j { x with queue := x.queue.drop n }
    let g2 := recs.foldl (fun g r => setRec g j r.idx (3, num)) { g1 with cuts := g.cuts + 1 }
    let first := rcPcount ((root.map (fun r => r.rcd)).getD 0) + g.cuts
    let node : Node :=
      { id := freeId s g.die, die := g.die, lrec := x.lrec, rcd := x.rcd, asid := g.asid, first := first, count := 1, next := first, dropped := [],
        attempt := 0, avoid := 0, nfy := false, mask := 0, regs := [], deps := [], graph := some gid, gidx := j, batch := recs.map (fun r => r.idx),
        marks := (recs.flatMap (fun r => r.marks)).dedup, after := false, done := 0, ended := 0, saved := [], races := 0, out := [], code := 0, killed := false, denied := [] }
    setGraph (setNode { s with nextNode := num + 1 } num (some node)) gid (some g2)

/-- The records that the rules other than the timer's cut from node j's queue now. -/
def cutSize (x : GNode) : Nat :=
  if x.queue.length ≥ x.batch + 1 then x.batch + 1 else if x.closed then x.queue.length else 0

/-- One cut or one close of a graph; none when nothing is due. -/
def graphChange (s : State) (gid : Nat) (g : Graph) : Option State :=
  (if (dieNodes s g.die).length < 1024 then
    (List.range g.nodes.length).findSome? (fun i => match gnode g (i + 1) with
      | some x => if cutSize x > 0 then some (cutBatch s gid g (i + 1) (cutSize x)) else none
      | none => none)
   else none).or
  ((List.range g.nodes.length).findSome? (fun i => match gnode g (i + 1) with
    | some x => if !x.closed && mayClose s gid g (i + 1) then some (setGraph s gid (some (setGnode g (i + 1) { x with closed := true }))) else none
    | none => none))

/-- Every cut and close of a graph that is due. -/
def graphTick (gid : Nat) : Nat → State → State
  | 0, s => s
  | n + 1, s =>
    match getGraph s gid with
    | none => s
    | some g => match graphChange s gid g with
      | none => s
      | some s1 => graphTick gid n s1

/-- Steps that suffice for the cuts and closes of a graph. -/
def tickFuel (g : Graph) : Nat := 2 * g.nodes.length + (g.nodes.map (fun x => x.queue.length)).sum

def tickGraph (s : State) (gid : Nat) : State := match getGraph s gid with | some g => graphTick gid (tickFuel g) s | none => s

/-- Every node is closed with an empty queue and no blocks (R367). -/
def graphDone (s : State) (gid : Nat) (g : Graph) : Bool :=
  rootDone s g && g.nodes.all (fun x => x.closed && x.queue.isEmpty) &&
    (List.range g.nodes.length).all (fun i => !batchesAlive s gid (i + 1))

/-- Node j of a graph whose timer has run out. -/
def timedOut (s : State) : Option (Nat × Graph × Nat × Nat) :=
  s.graphs.findSome? (fun e => match e.2 with
    | some g => (List.range g.nodes.length).findSome? (fun i => match gnode g (i + 1) with
      | some x => match x.queue with
        | [] => none
        | r :: _ => if x.timeout ≠ 0 ∧ r.at_ + x.timeout ≤ dieCyc s g.die ∧ (dieNodes s g.die).length < 1024 then some (e.1, g, i + 1, x.queue.length) else none
      | none => none)
    | none => none)

/-- BATCH_TIMEOUT (R370): every queued record of the node is cut. -/
def execBatchTimeout (s : State) : Host.Outcome State Fault Refusal :=
  match timedOut s with
  | none => .next s
  | some (gid, g, j, n) => .next (tickGraph (cutBatch s gid g j n) gid)

/-! ### RECORD_POOL_ARRIVAL (R369, R371, R372) -/

/-- Two operations of one warp are of one split: of the lanes of the split that issued each, some are common (R369). -/
def sameSplit (x y : Op) : Bool := decide (x.w = y.w) && decide (x.issuer &&& y.issuer ≠ 0)

/-- The operation reaches the controller: after the record operations of its split before it, and an `rsub` after the accesses of its lanes
before it, which its release orders (R369). -/
def recordReady (s : State) (o : Op) : Bool :=
  !s.ops.any (fun e => decide (e.id < o.id) &&
    ((match e.kind with | .record .. => sameSplit e o | _ => false) ||
     (match o.kind with | .record 0 .. => isAccess e && decide (e.w = o.w) && decide (e.lanes &&& o.lanes ≠ 0) | _ => false)))

/-- Commits records to their nodes' queues. -/
def commitRecords (s : State) (g : Graph) (marks : List Mark) (vas : List Nat) : Graph :=
  vas.foldl (fun g va => match recordAt g va with
    | some (j, i) => (match gnode g j with
      | some x => setRec (setGnode g j { x with queue := x.queue ++ [{ idx := i, at_ := dieCyc s g.die, marks := marks }] }) j i (2, 0)
      | none => g)
    | none => g) g

/-- Frees records. -/
def freeRecords (g : Graph) (vas : List Nat) : Graph :=
  vas.foldl (fun g va => match recordAt g va with | some (j, i) => setRec g j i (0, 0) | none => g) g

def execRecordPoolArrival (id : Nat) (s : State) : Host.Outcome State Fault Refusal :=
  match findOp s id with
  | some o =>
    match o.kind with
    | .record kind gid vas a b c =>
      if !recordReady s o then .next s
      else if (getBlock s (blkOf o.w)).killed then .next (endOp s id)
      else match getGraph s gid with
        | none => .next (endOp s id)
        | some g =>
          match kind with
          | 0 =>
            let p := performRelease (wbScope s (dieOf s o.w) 3 (fun _ => true)) (blkOf o.w) 3
            let marks := (p.2 :: (lanesOf o.lanes).flatMap (laneMarks p.1 o.w)).dedup
            .next (tickGraph (setGraph (endOp p.1 id) gid (some (commitRecords p.1 g marks vas))) gid)
          | 3 => .next (setGraph (endOp s id) gid (some (freeRecords g vas)))
          | _ =>
            match gnode g a with
            | some x => .next (tickGraph (setGraph (endOp s id) gid (some (setGnode g a { x with batch := b - 1, timeout := c }))) gid)
            | none => .next (endOp s id)
    | _ => .next s
  | none => .next s

/-- The records that a block which ends still holds or has batched are freed (R372). -/
def releaseRecords (s : State) (b : Nat) : State :=
  match blockGraph s b with
  | none => s
  | some (gid, g) =>
    let n := (getBlock s b).node
    setGraph s gid (some { g with recs := g.recs.filter (fun e => !(decide (e.2 = (1, b)) || decide (e.2 = (3, n)))), reqs := g.reqs.filter (fun r => blkOf r.w ≠ b) })

/-! ### GRAPH_RESERVATION (R373) -/

/-- A core is reserved by a running graph of its die, for the batch nodes of that graph. -/
def reservedBy (s : State) (core : Nat) : List Nat :=
  ((dieGraphs s (core / 48)).filter (fun e => decide (core % 48 ≥ 48 - e.2.rcores))).map (·.1)

/-- The first graph that waits for its reserved cores and finds them free of other blocks. -/
def reservable (s : State) : Option (Nat × Graph) :=
  s.graphs.findSome? (fun e => match e.2 with
    | some g => if !g.ready && (List.range g.rcores).all (fun i => ((coreBlocks s (48 * g.die + 47 - i)).filter (fun x => !x.2.disp)).isEmpty) then some (e.1, g) else none
    | none => none)

def execGraphReservation (s : State) : Host.Outcome State Fault Refusal :=
  match reservable s with
  | some (gid, g) => .next (setGraph s gid (some { g with ready := true }))
  | none => .next s

/-! ### rfetch and lvcoord (R364, R372) -/

/-- Starts an operation whose result is fixed at issue: lanes that a tag settles are written at once, or pushed with the others (R39,
R56). -/
def startResult (c : Ctx) (settled live : List (Nat × TWord)) (s : State) : State :=
  let code := c.f.d.toNat
  let ws (l : List (Nat × TWord)) : List (Nat × Nat × TWord) := l.map (fun e => (code, e.1, e.2))
  if isQ c.f.d then
    match settledPoison c settled with
    | some r => raise c r s
    | none => pushGate c (lanesOf c.sp.mask) s (startVar c .ex c.sp.mask (lanesOf c.sp.mask) (.result (ws (settled ++ live))) s)
  else if live.isEmpty then settleAll c settled s
  else startVar c .ex c.sp.mask (live.map (·.1)) (.result (ws live)) (settleNow c settled s)

/-- rfetch: a lane whose operand has tag N or X is settled; outside a batch the others trap (R353, R372). -/
def rfetchBody (c : Ctx) (s : State) : State :=
  let ls := computeLanes c
  match (blockNode s (blkOf c.w)).filter isBatch, blockGraph s (blkOf c.w) with
  | some n, some (_, g) =>
    if fetchN c.f then startResult c [] (ls.map (fun l => (l, TWord.valid (BitVec.ofNat 64 n.batch.length)))) s
    else
      let at_ (l : Nat) : Option TWord :=
        let a := opA s c l
        if a.tag = .x then some ⟨.x, a.data⟩
        else if a.tag = .n ∨ a.data.toNat ≥ n.batch.length then some ⟨.n, (rdReg s c.w c.f.d.toNat l).data⟩ else none
      startResult c (ls.filterMap (fun l => (at_ l).map (fun v => (l, v))))
        ((ls.filter (fun l => (at_ l).isNone)).map (fun l => (l, TWord.valid (BitVec.ofNat 64 (recordVa g n.gidx (n.batch.getD (opA s c l).data.toNat 0)))))) s
  | _, _ =>
    let old (l : Nat) : TWord := ⟨.n, (rdReg s c.w c.f.d.toNat l).data⟩
    let at_ (l : Nat) : Option TWord := if fetchN c.f then none else let a := opA s c l; if a.tag = .x then some ⟨.x, a.data⟩ else if a.tag = .n then some (old l) else none
    match (actives c).filter (fun l => (at_ l).isNone) with
    | [] => startResult c (ls.filterMap (fun l => (at_ l).map (fun v => (l, v)))) [] s
    | live => recordTrap c 1 (live.map (fun l => (l, if fetchN c.f then 0 else (opA s c l).data))) s
def execRfetch (f : Fields) (s : State) := issue specRfetch f s rfetchBody

/-- The coordinate of a block at level k: a digit of blocklin (R346). -/
def blockCoord (r lin k : Nat) : Nat :=
  let inner := ((List.range (rcNlev r)).filter (fun j => decide (j > k ∧ 2 ≤ (rcLevel r j).1 ∧ (rcLevel r j).1 ≤ 6))).map (fun j => (rcLevel r j).2.2)
  lin / inner.prod % (rcLevel r k).2.2

/-- lvcoord. -/
def lvcoordBody (c : Ctx) (s : State) : State :=
  let r := ((blockNode s (blkOf c.w)).map (fun n => n.rcd)).getD 0
  let k := (modOf c.f).toNat % 8
  let lv := rcLevel r k
  if k ≥ rcNlev r then raiseAll c causeIllegalOperand 0x0A s
  else if isS c.f.d ∧ lv.1 = 0 then raiseAll c causeIllegalOperand 0x04 s
  else
    let v (l : Nat) : Nat :=
      if (modOf c.f).getLsbD 3 then lv.2.2 else if lv.1 = 0 then l else if lv.1 = 1 then warpNo c.w else if lv.1 = 7 then 0
      else blockCoord r (getBlock s (blkOf c.w)).blocklin k
    startResult c [] ((computeLanes c).map (fun l => (l, TWord.valid (BitVec.ofNat 64 (v l))))) s
def execLvcoord (f : Fields) (s : State) := issue specLvcoord f s lvcoordBody

end Sys2Proof.Machine
end

