-- ==== Sys2Proof/Machine/Matrix.lean ====
section
/-!
DEFINITION. The matrix instructions 0x180 to 0x188 and the steps MATRIX_OP_START and MATRIX_OP_COMPLETE (R288 to R314).
-/
namespace Sys2Proof.Machine

/-! ### Rows (R294, R295) -/

/-- A tile number. -/
def tileOf (get : Fields → BitVec 8) : Chk := chkIf 0x04 (fun e => isV (get e.f))
def mxTy : Chk := tyIn 0x304
def mdObj (f : Fields) : Nat := f.md.toNat / 2 ^ 10
def mdBty (f : Fields) : Nat := f.md.toNat / 16 % 16
def mdSat (f : Fields) : Bool := f.md.getLsbD 8
def mdMx (f : Fields) : Bool := f.md.getLsbD 9
/-- B or C that lets the immediate form through to its own subcode. -/
def thruImm (p : Chk) (get : Fields → BitVec 8) : Chk := fun e => if isImm (get e.f) then none else p e

def specE (op : BitVec 9) : OpSpec := { specNone op with cls := .e, cnt := some .ex }

/-- MOD of mmx and mmxl. -/
def mdMm : Chk := fun e =>
  let f := e.f
  let ty := f.ty.toNat
  if immForm f then some 0x08
  else if f.md &&& 8 ≠ 0 then some 0x04
  else if mdSat f && !(decide (ty = 0 ∨ ty = 4)) then some 0x04
  else if mdMx f && !(decide (ty = 12 ∨ ty = 13 ∨ ty = 14)) then some 0x04
  else if ty = 8 then mdRm false e
  else if f.md.toNat % 8 ≠ 0 then some 0x06 else none

/-- C of mmx: a scalar register with .mx, unused without. -/
def mmxC : Chk := thruImm (fun e => if mdMx e.f then (badReg { e with vregs := 192 } e.f.c).or (if isS e.f.c then none else some 0x04) else unusedC e) (·.c)
/-- C of mmxl: s_c, with two more registers under .mx. -/
def mmxlC : Chk :=
  thruImm (fun e => (badReg { e with vregs := 192 } e.f.c).or
    (if isS e.f.c && decide (e.f.c.toNat - 0xC0 ≤ (if mdMx e.f then 29 else 31)) then none else some 0x04)) (·.c)

def specMmx : OpSpec :=
  { specE 0x181 with
    d := tileOf (·.d), a := scalarA, b := thruImm scalarB (·.b), c := mmxC, ty := tyIn 0x7D11, md := mdMm,
    reads := fun f => [f.a, f.b] ++ (if mdMx f then [f.c] else []) }
def specMmxl : OpSpec :=
  { specE 0x182 with
    d := tileOf (·.d), a := scalarA, b := thruImm scalarB (·.b), c := mmxlC, ty := tyIn 0x7D11, md := mdMm,
    reads := fun f => [f.a, f.b] ++ groupCodes f.c (if mdMx f then 3 else 1) }
def specAczero : OpSpec := { specE 0x180 with d := tileOf (·.d), ty := mxTy }
def specAcMove (op : BitVec 9) : OpSpec :=
  { specE op with
    d := tileOf (·.d), a := scalarA, b := thruImm scalarB (·.b), ty := mxTy, reads := rdAB,
    md := Chk.and noImm (Chk.and (mdBits 0xFC71) (chkIf 0x04 (fun e => decide (e.f.md.toNat / 16 % 8 ≠ 0)))) }
def specAcld : OpSpec := specAcMove 0x183
def specAcst : OpSpec := specAcMove 0x184
def specAcrd : OpSpec :=
  { specE 0x185 with
    d := Chk.and dstD (chkIf 0x04 (fun e => !isS e.f.d)), a := tileOf (·.a), b := scalarImmB, ty := mxTy, reads := fun f => [f.b] }
def specAcwr : OpSpec :=
  { specE 0x186 with d := tileOf (·.d), b := scalarImmB, c := srcC', ty := mxTy, reads := fun f => [f.b, f.c] }
def specAcep : OpSpec :=
  { specE 0x187 with
    d := tileOf (·.d), a := scalarA,
    b := thruImm (fun e => if e.f.md.getLsbD 3 then scalarB e else unusedB e) (·.b), ty := tyIn 0x300,
    md := Chk.and noImm (Chk.and (mdBits 0x7F) (Chk.and (chkIf 0x04 (fun e => decide (e.f.md.toNat / 16 % 8 ≤ 3))) (mdRm false))),
    reads := rdAB }
def specMxstat : OpSpec := { specE 0x188 with d := dstD, a := tileOf (·.a), md := mdBits 1 }

/-! ### Shapes (R289, R291 to R293) -/

/-- K of a step. -/
def mxK (ty : Nat) : Nat := if ty = 8 then 4 else if ty = 10 ∨ ty = 11 then 32 else if ty = 14 then 128 else 64
/-- The tile layout of an A type. -/
def mxLayout (ty : Nat) : Nat := if ty = 8 then 8 else if ty = 0 ∨ ty = 4 then 2 else 9
/-- R291: the pairing is accepted. -/
def mxPair (aty bty : Nat) : Bool :=
  let fp8 (t : Nat) : Bool := decide (t = 12 ∨ t = 13)
  let int (t : Nat) : Bool := decide (t = 0 ∨ t = 4)
  (decide (aty = bty) && decide (aty = 8 ∨ aty = 10 ∨ aty = 11 ∨ aty = 14)) || (fp8 aty && fp8 bty) || (int aty && int bty)
/-- Bytes of the A block, and bytes up to the last that a step reads of the B block: for e2m1 the element (k, n) at nibble 128k + n reaches
beyond the 4,096 bytes that the table counts, and every byte of a step is checked (R292; DESIGN CHOICE, log 63). -/
def mxBytesA (ty : Nat) : Nat := if ty = 8 then 1024 else 4096
def mxBytesB (ty : Nat) : Nat := if ty = 8 then 2048 else if ty = 14 then 8160 else 4096
/-- Scale bytes of a row or column (R293). -/
def mxQ (ty : Nat) : Nat := mxK ty / 32

/-- The row mask of the active lanes (R301). -/
def rowMask (m : Mask) (layout : Nat) : Nat :=
  (List.range (mxLayoutRows layout)).foldl (fun r i => if m.getLsbD (if layout = 8 then i else i / 2) then r + 2 ^ i else r) 0
/-- Every row is enabled. -/
def allRows (m : MxOp) (layout : Nat) : Bool := decide (m.rows = 2 ^ mxLayoutRows layout - 1)

/-! ### Tiles -/

def tileNo (b t : Nat) : Nat := 192 * b + t
def getTstat (s : State) (b t : Nat) : Word := sget 0#64 s.tstat (tileNo b t)
def tilePoisoned (s : State) (b t : Nat) : Bool := sget false s.tpois (tileNo b t)
/-- Sets status bits; acue poisons the tile (R290, R313). -/
def markTile (s : State) (b t bits : Nat) : State :=
  if bits = 0 then s
  else
    let s1 := { s with tstat := sset 0#64 s.tstat (tileNo b t) (getTstat s b t ||| BitVec.ofNat 64 bits) }
    if bits.testBit 10 then { s1 with tpois := sset false s1.tpois (tileNo b t) true } else s1
/-- Clears the status word and the poison of a tile. -/
def cleanTile (s : State) (b t : Nat) : State :=
  { s with tstat := sset 0#64 s.tstat (tileNo b t) 0, tpois := sset false s.tpois (tileNo b t) false }
/-- The key of element (r, n) in a layout (R289). -/
def elemKey (b t layout r n : Nat) : Nat := acBase b t + (64 * r + n) * tileElemBytes layout
def rdElem (s : State) (b t layout r n : Nat) : Nat := rdMem s (elemKey b t layout r n) (tileElemBytes layout)
def wrElem (s : State) (b t layout r n v : Nat) : State := wrMem s (elemKey b t layout r n) (tileElemBytes layout) v

/-! ### One step (R298 to R300) -/

def stNan : Nat := 2
def stOvf : Nat := 4
def stSat : Nat := 1

/-- Terms of a step's element: the values of A's row and B's column (R292). -/
def mxTerms (s : State) (b : Nat) (ty : Nat) (m n : Nat) (a bo : Nat) : List (Nat × Nat) :=
  let k := mxK ty
  let sz := halfBytes ty
  (List.range k).map (fun j =>
    (rdHalf s (2 * (tileBase b + a) + sz * (k * m + j)) sz, rdHalf s (2 * (tileBase b + bo) + sz * ((if ty = 14 then k else 64) * j + n)) sz))

/-- The f64 step of an element (R298): the new pattern and status bits. -/
def stepF64 (mode : Rm) (ftz : Bool) (old : Nat) (ts : List (Nat × Nat)) : Nat × Nat :=
  let k := fmtF64
  let one (c : Nat) (e : Nat × Nat) : Nat :=
    let vs := [unpackZ k ftz e.1, unpackZ k ftz e.2, unpackZ k ftz c]
    match firstNaN k k vs with
    | some r => r.bits
    | none => (fmaVal false false k mode ftz (unpackZ k ftz e.1) (unpackZ k ftz e.2) (unpackZ k ftz c)).bits
  let r := ts.foldl one old
  let isInf (x : Nat) : Bool := match unpack k x with | .inf _ => true | _ => false
  let bits := match unpack k r with
    | .nan .. => stNan
    | .inf _ => if isInf old || ts.any (fun e => isInf e.1 || isInf e.2) then 0 else stOvf
    | _ => 0
  (r, bits)

/-- A product under block scales, exactly; none for NaN or 0 times infinity (R299). -/
def mxProduct (fa fb : Fmt) (e : Nat × Nat) (sa sb : Nat) : Option FVal :=
  let a := unpack fa e.1
  let b := unpack fb e.2
  if a.isNan || b.isNan || sa = 0xFF || sb = 0xFF then none
  else match mulVal a b with
    | some (.fin neg m x) => some (.fin neg m (x + ((sa : Int) - 127) + ((sb : Int) - 127)))
    | r => r

/-- The low-precision step of an element (R299). -/
def stepLow (old : Nat) (ps : List (Option FVal)) : Nat × Nat :=
  let k := fmtF32
  let t := unpack k old
  let terms := t :: ps.filterMap id
  let pinf := terms.any (fun v => v = .inf false)
  let ninf := terms.any (fun v => v = .inf true)
  if ps.any Option.isNone || terms.any FVal.isNan || (pinf && ninf) then (0x7FC00000, stNan)
  else
    let r := (roundSum k .rne false terms).bits
    (r, if !(pinf || ninf) && (match unpack k r with | .inf _ => true | _ => false) then stOvf else 0)

/-- The integer step of an element (R300). -/
def stepInt (aty bty : Nat) (sat : Bool) (old : Nat) (ts : List (Nat × Nat)) : Nat × Nat :=
  let rd (ty x : Nat) : Int := if ty = 0 then (BitVec.ofNat 8 x).toInt else x
  let v := (BitVec.ofNat 32 old).toInt + ts.foldl (fun z e => z + rd aty e.1 * rd bty e.2) 0
  let w := if sat then max (-2 ^ 31) (min (2 ^ 31 - 1) v) else v
  ((w % 2 ^ 32).toNat, if w ≠ v then stSat else 0)

/-- One step of mmx on one element of the tile in s, on the operands that v shows. -/
def mxElemStep (s v : State) (b : Nat) (x : MxOp) (a bo sa sb : Nat) (m n : Nat) : Nat × Nat :=
  let layout := mxLayout x.ty
  let old := rdElem s b x.tile layout m n
  let ts := mxTerms v b x.ty m n a bo
  if x.ty = 8 then stepF64 x.mode x.ftz old ts
  else if layout = 2 then stepInt x.ty x.bty x.sat old ts
  else
    let q := mxQ x.ty
    let scale (base i j : Nat) : Nat := if x.mx then (rdByte v (tileBase b + base + q * i + j / 32)).toNat else 127
    stepLow old ((ts.zipIdx).map (fun e => mxProduct (fmtOf x.ty) (fmtOf x.bty) e.1 (scale sa m e.2) (scale sb n e.2)))

/-- An offset at step i. -/
def mxAt (o inc : Int) (i : Nat) : Nat := (o + (i : Int) * inc).toNat

/-- One step of mmx on the enabled rows, on the operands that v shows. -/
def mxStep (s v : State) (b : Nat) (x : MxOp) (i : Nat) : State :=
  let layout := mxLayout x.ty
  ((List.range (mxLayoutRows layout)).filter (fun r => x.rows.testBit r)).foldl (fun s m =>
    (List.range 64).foldl (fun s n =>
      let r := mxElemStep s v b x (mxAt x.a x.incA i) (mxAt x.b x.incB i) (mxAt x.sa x.incSa i) (mxAt x.sb x.incSb i) m n
      markTile (wrElem s b x.tile layout m n r.1) b x.tile r.2) s) s

/-! ### The other operations (R305 to R309) -/

/-- The word of row r and number i of a tile row that the operation moves: its key in the tile, its key in the block's tile store. -/
def mxTileWord (b : Nat) (x : MxOp) (i : Nat) : Nat := elemKey b x.tile x.ty (i / 64) 0 + 8 * (i % 64)
def mxStoreOff (x : MxOp) (i : Nat) : Nat := (x.a + (i / 64 : Nat) * x.b).toNat + 8 * (i % 64)

/-- acld moves a word from memory or the tile store; a failed one writes zero (R306). -/
def mxLoadWord (s : State) (a : Agent) (b : Nat) (x : MxOp) (i : Nat) : State × Nat :=
  if x.ts then (wrMem s (mxTileWord b x i) 8 (rdMem s (tileBase b + mxStoreOff x i) 8), 0)
  else
    let e := engineRead s a (2 * mxWordVa x i) 16
    (wrMem e.1 (mxTileWord b x i) 8 (if e.2.2 = 0 then e.2.1 else 0), e.2.2)

/-- acst moves a word to memory or the tile store; a word of a poisoned tile poisons its sector (R186, R306). -/
def mxStoreWord (s : State) (a : Agent) (b : Nat) (x : MxOp) (i : Nat) : State × Nat :=
  let v := rdMem s (mxTileWord b x i) 8
  if x.ts then (tileSend s b (mxStoreOff x i) 8 v, 0)
  else
    let bad := tilePoisoned s b x.tile
    let s1 := putElem (commitFor s a.blk bad) a x.pages (2 * mxWordVa x i) 16 v
    (if bad then settlePoison s1 a x.pages 16 [(2 * mxWordVa x i, false)] else s1, lostPages s x.pages)

/-- The sectors of an acst all of whose words are written; the poison of each is kept with it. -/
def mxCover (s : State) (a : Agent) (x : MxOp) : State :=
  coverSectors s a x.pages 16 (x.got.map (fun e => (2 * mxWordVa x e.1, decide (e.2 = 0))))

/-- acep on one element: scale, bias, activation (R308). -/
def epElem (x : MxOp) (v scale bias : Nat) : Nat × Nat :=
  let k := fmtOf x.ty
  let u := unpackZ k x.ftz v
  let c := unpackZ k x.ftz scale
  let d := unpackZ k x.ftz bias
  let vs := if x.bias then [u, c, d] else [u, c]
  let y := match firstNaN k k vs with
    | some r => r.bits
    | none => if x.bias then (fmaVal false false k x.mode x.ftz u c d).bits else (fmulVal k x.mode x.ftz u c d).bits
  let yv := unpack k y
  let neg := match yv with | .fin ng m _ => ng || decide (m = 0) | .inf ng => ng | _ => false
  let six : Nat := if x.ty = 8 then 0x4018000000000000 else 0x40C00000
  let gt6 := match yv with | .fin false _ _ => decide (y > six) | .inf ng => !ng | _ => false
  let z := match x.act with
    | 1 => if neg then 0 else y
    | 2 => (sfuVal k x.ftz 6 (unpackZ k x.ftz y)).bits
    | 3 => if neg then 0 else if gt6 then six else y
    | _ => y
  let isInf (p : Nat) : Bool := match unpack k p with | .inf _ => true | _ => false
  (z, match unpack k z with
    | .nan .. => stNan
    | .inf _ => if isInf v || isInf scale || (x.bias && isInf bias) then 0 else stOvf
    | _ => 0)

/-- acep on the enabled rows, with the biases that v shows. -/
def mxEpilogue (s v : State) (b : Nat) (x : MxOp) : State :=
  let n := tileElemBytes x.ty
  (mxRows x).foldl (fun s r => (List.range 64).foldl (fun s i =>
    let e := epElem x (rdElem s b x.tile x.ty r i) x.a.toNat (rdMem v (tileBase b + x.b.toNat + n * i) n)
    markTile (wrElem s b x.tile x.ty r i e.1) b x.tile e.2) s) s

/-- The row of a lane under a column select (R307). -/
def selRow (x : MxOp) (l : Nat) : Nat := if x.ty = 8 then l else 2 * l + x.b.toNat / 64 % 2
def selCol (x : MxOp) : Nat := x.b.toNat % 64

/-- acrd: the words of the lanes. -/
def mxRead (s : State) (b : Nat) (x : MxOp) (l : Nat) : TWord :=
  if tilePoisoned s b x.tile then ⟨.x, payload causeMemUe 0⟩
  else
    let v := rdElem s b x.tile x.ty (selRow x l) (selCol x)
    TWord.valid (if x.ty = 2 then (BitVec.ofNat 32 v).signExtend 64 else BitVec.ofNat 64 v)

/-! ### Issue (R296, R297) -/

/-- A scalar operand. -/
def sreg (s : State) (c : Ctx) (x : BitVec 8) : TWord := if isZ x then TWord.zero else readC s c x.toNat 0
/-- Two 32-bit halves: an offset, a signed increment. -/
def loHalf (v : Word) : Nat := v.toNat % 2 ^ 32
def hiHalf (v : Word) : Nat := v.toNat / 2 ^ 32
def hiStep (v : Word) : Int := (BitVec.ofNat 32 (hiHalf v)).toInt
def loStep (v : Word) : Int := (BitVec.ofNat 32 (loHalf v)).toInt

/-- The scalar operands a word reads (R296 order 1). -/
def mxWords (kind : Nat) (s : State) (c : Ctx) : List TWord :=
  let f := c.f
  match kind with
  | 0 => []
  | 1 => [sreg s c f.a, sreg s c f.b] ++ (if mdMx f then [sreg s c f.c] else [])
  | 2 => [sreg s c f.a, sreg s c f.b] ++ (groupCodes f.c (if mdMx f then 3 else 1)).map (sreg s c)
  | 5 => [opB s c (lowLane c.sp.mask)]
  | 6 => [opB s c (lowLane c.sp.mask)]
  | 8 => []
  | _ => [sreg s c f.a, sreg s c f.b]

/-- The operation that a word describes. -/
def mxOf (kind : Nat) (s : State) (c : Ctx) : MxOp :=
  let f := c.f
  let mm := decide (kind = 1 ∨ kind = 2)
  let a := (sreg s c f.a).data
  let b := (sreg s c f.b).data
  let ld := decide (kind = 3 ∨ kind = 4)
  let cs := (groupCodes f.c 3).map (fun x => (sreg s c x).data)
  let scales := if kind = 1 then cs.getD 0 0 else cs.getD 1 0
  let layout := if mm then mxLayout f.ty.toNat else f.ty.toNat
  { kind := kind, ty := f.ty.toNat, bty := if mm then mdBty f else f.ty.toNat, tile := if kind = 5 ∨ kind = 8 then f.a.toNat else f.d.toNat,
    mx := mm && mdMx f, sat := mm && mdSat f, mode := rmNow s c, ftz := ftzOf s c, rows := rowMask c.sp.mask layout,
    count := if kind = 2 then (cs.getD 0 0).toNat else 1,
    a := if ld ∨ kind = 7 then a.toNat else loHalf a,
    b := if ld then b.toInt else if kind = 7 then (if f.md.getLsbD 3 then (b.toNat : Int) else 0)
      else if kind = 5 ∨ kind = 6 then ((opB s c (lowLane c.sp.mask)).data.toNat : Int) else loHalf b,
    incA := if kind = 2 then hiStep a else 0, incB := if kind = 2 then hiStep b else 0,
    sa := if mm && mdMx f then loHalf scales else 0, sb := if mm && mdMx f then hiHalf scales else 0,
    incSa := if kind = 2 && mdMx f then loStep (cs.getD 2 0) else 0, incSb := if kind = 2 && mdMx f then hiStep (cs.getD 2 0) else 0,
    obj := if mm ∨ ld then mdObj f else 0, scope := if ld then f.md.toNat / 16 % 8 else 1, tag := opTag c.sp.pc, ts := ld && f.md.getLsbD 0,
    sup := c.sp.sup, d := f.d.toNat, act := if kind = 7 then f.md.toNat / 16 % 8 else 0, bias := decide (kind = 7) && f.md.getLsbD 3,
    clr := decide (kind = 8) && f.md.getLsbD 0,
    data := if kind = 6 then (actives c).filterMap (fun l => let v := opC s c l; if v.tag = .n then none else some (l, v.data.toNat)) else [],
    pages := [], started := false, entry := ((c.t * 4 + (getWarp s c.w).quarter) * 2 + c.path) * 2 ^ 12 + 2 ^ 11, step := 0, got := [], flags := 0 }

/-- A range [o, o + n) for every step lies below the block's tile store. -/
def stepRange (ts count : Nat) (o inc : Int) (n : Nat) : Bool :=
  (List.range count).all (fun i => let x := o + (i : Int) * inc; decide (0 ≤ x ∧ x + n ≤ ts))

/-- Orders 2 to 5 of R296. -/
def mxFault (s : State) (c : Ctx) (x : MxOp) : Option (Nat × Nat) :=
  let bl := getBlock s (blkOf c.w)
  let ts := bl.tsbytes
  let bad (p : Bool) (cause sub : Nat) : Option (Nat × Nat) := if p then some (cause, sub) else none
  let mm := decide (x.kind = 1 ∨ x.kind = 2)
  let sel := decide (x.kind = 5 ∨ x.kind = 6)
  let ld := decide (x.kind = 3 ∨ x.kind = 4)
  let cw := (sreg s c c.f.c).data.toNat
  let q := 64 * mxQ x.ty
  (bad (decide (x.tile ≥ bl.tiles) || decide (x.obj ≠ 0 ∧ x.obj ≥ bl.naos)) causeIllegalOperand 0x02).or <|
  (bad (mm && !mxPair x.ty x.bty) causeIllegalOperand 0x05).or <|
  (bad ((decide (x.kind = 2) && decide (cw < 1 ∨ cw > 4096)) || (sel && (decide (x.b.toNat ≥ 128) || (decide (x.ty = 8) && decide (x.b.toNat ≥ 64)))))
    causeIllegalOperand 0x0A).or <|
  (bad ((mm && decide (x.a % 128 ≠ 0 ∨ x.b % 128 ≠ 0 ∨ x.incA % 128 ≠ 0 ∨ x.incB % 128 ≠ 0)) ||
      (x.mx && decide (x.sa % 64 ≠ 0 ∨ x.sb % 64 ≠ 0 ∨ x.incSa % 64 ≠ 0 ∨ x.incSb % 64 ≠ 0)) ||
      (ld && decide (x.a % 256 ≠ 0 ∨ x.b % 256 ≠ 0)) || (x.bias && decide (x.b % 256 ≠ 0))) causeAlign 0).or <|
  (bad ((mm && !(stepRange ts x.count x.a x.incA (mxBytesA x.ty) && stepRange ts x.count x.b x.incB (mxBytesB x.ty))) ||
      (x.mx && !(stepRange ts x.count x.sa x.incSa q && stepRange ts x.count x.sb x.incSb q)) ||
      (x.ts && !(mxRows x).all (fun r => let o := x.a + (r : Int) * x.b; decide (0 ≤ o ∧ o + mxRowBytes x ≤ ts))) ||
      (x.bias && decide (x.b + 64 * tileElemBytes x.ty > ts))) causeIllegalOperand 0x02)

/-! ### The units and their queues (R302, R303, R314) -/

def isArray (k : Nat) : Bool := decide (k = 1 ∨ k = 2)
/-- The operation o entered before the one with an entry and an identity. -/
def entered (m : MxOp) (o : Nat) (entry id : Nat) : Bool := decide (m.entry < entry ∨ (m.entry = entry ∧ o < id))
/-- Operations of a unit of a core. -/
def unitOps (s : State) (core : Nat) (arr : Bool) : List (Op × MxOp) :=
  s.ops.filterMap (fun o => match o.kind with
    | .matrix m => if coreOf s o.w = core && decide ((getBlock s (blkOf o.w)).state = 1) && (isArray m.kind == arr) then some (o, m) else none
    | _ => none)
/-- Every matrix operation of a block, with its data. -/
def blockMx (s : State) (b : Nat) : List (Op × MxOp) :=
  s.ops.filterMap (fun o => match o.kind with | .matrix m => if blkOf o.w = b then some (o, m) else none | _ => none)

/-- The operation still occupies its unit: words or steps remain; one without any has its effect as its one step. -/
def mxBusy (m : MxOp) : Bool := decide (m.step < m.count)
/-- An `mmxl` of a block that is saved stops at a K-step boundary, unless a later operation on its tile must retire (R303, R314). -/
def mxStops (s : State) (o : Op) (m : MxOp) : Bool :=
  decide (m.kind = 2) && m.got.isEmpty && mxBusy m &&
    !(blockMx s (blkOf o.w)).any (fun e => entered m o.id e.2.entry e.1.id && decide (e.2.tile = m.tile) && decide (e.2.kind ≠ 2))
/-- The operation has stopped for the save of its block. -/
def mxStopped (s : State) (o : Op) (m : MxOp) : Bool := (getBlock s (blkOf o.w)).saving && mxStops s o m

/-- The unit serves an operation. -/
def unitBusy (s : State) (core : Nat) (arr : Bool) : Bool :=
  (unitOps s core arr).any (fun e => e.2.started && mxBusy e.2 && !mxStopped s e.1 e.2)
/-- An earlier operation on the tile has not retired (R303). -/
def tileBusy (s : State) (o : Op) (m : MxOp) : Bool :=
  (blockMx s (blkOf o.w)).any (fun e => decide (e.2.tile = m.tile) && entered e.2 e.1.id m.entry o.id)
/-- Operations that wait in the queue of a unit, and whether one is the next of them. -/
def mxWaiting (s : State) (core : Nat) (arr : Bool) : List (Op × MxOp) :=
  (unitOps s core arr).filter (fun e => !e.2.started && !mxStopped s e.1 e.2)
/-- The operation is the next of its unit, the unit is idle and the tile is free. -/
def mxNext (s : State) (o : Op) (m : MxOp) : Bool :=
  let core := coreOf s o.w
  let arr := isArray m.kind
  !m.started && !mxStopped s o m && !unitBusy s core arr && !tileBusy s o m &&
    !(mxWaiting s core arr).any (fun e => entered e.2 e.1.id m.entry o.id)
/-- The queue of the unit is full: an operation that starts at issue takes no entry. -/
def mxQueueFull (s : State) (core kind : Nat) : Bool :=
  decide (((mxWaiting s core (isArray kind)).filter (fun e => !mxNext s e.1 e.2)).length ≥ (if isArray kind then 8 else 16))

/-- Starts the operation and goes on; acrd and mxstat write D at completion. -/
def mxStart (c : Ctx) (x : MxOp) (s : State) : State :=
  let k := OpKind.matrix x
  if x.kind = 5 ∨ x.kind = 8 then startVar c .ex c.sp.mask (computeLanes c) k s
  else advance c (startOp s c.w c.sp.mask (some .ex) [] k)

/-- Issues a matrix operation (R296). -/
def mxBody (kind : Nat) (c : Ctx) (s : State) : State :=
  match tagRule (mxWords kind s c) with
  | .nullified =>
    if kind = 5 then
      let ws := (actives c).map (fun l => (l, (⟨.n, (rdReg s c.w c.f.d.toNat l).data⟩ : TWord)))
      settleAll c ws s
    else advance c s
  | .poisoned p => raisePoison c p s
  | .normal =>
    let x := mxOf kind s c
    match mxFault s c x with
    | some e => raiseAll c e.1 e.2 s
    | none =>
      match (if kind = 6 then poisonLanes c.sp.mask (opC s c) else []) with
      | y :: ys => raise c (poisonTrap c.sp.mask (y :: ys)) s
      | [] =>
        let s1 := popAll s c.w c.sp.mask (if kind = 6 then [c.f.c] else [])
        if kind = 4 ∧ !x.ts then
          let a := agentC c s
          let vas := (mxRows x).flatMap (fun r => (List.range (mxRowBytes x / 256)).map (fun i => (mxRowVa x r + 256 * i) % 2 ^ 64))
          match walkDst s a .store (tileElemBytes x.ty) vas [] none with
          | .trap cause sub va => raiseVa c cause sub va s
          | .wait y => suspend c y s
          | .ok pages =>
            let far := pages.any (fun e => decide (leafKey s a.die e.2 e.1 ≥ regBase))
            withCommit c (far || (decide (x.scope > 1) && decide (x.obj ≠ 0))) s s1 fun s2 =>
              mxStart c { x with pages := pages } (pages.foldl (fun s e => touch s a e.1 e.2 true) s2)
        else
          withCommit c (decide (x.scope > 1) && decide (x.obj ≠ 0)) s s1 fun s2 =>
            if kind = 5 ∨ kind = 8 then pushGate c (computeLanes c) s (mxStart c x s2) else mxStart c x s2

/-- Issues a matrix word unless the queue of its unit is full (R302). -/
def mxExec (kind : Nat) (spec : OpSpec) (f : Fields) (s : State) : Host.Outcome State Fault Refusal :=
  match s.cur with
  | none => .next s
  | some cu => if mxQueueFull s (coreOf s cu.w) kind then .next (holdUntil (issueTime s cu.w cu.k + 1) s cu) else issue spec f s (mxBody kind)

def execAczero (f : Fields) (s : State) := mxExec 0 specAczero f s
def execMmx (f : Fields) (s : State) := mxExec 1 specMmx f s
def execMmxl (f : Fields) (s : State) := mxExec 2 specMmxl f s
def execAcld (f : Fields) (s : State) := mxExec 3 specAcld f s
def execAcst (f : Fields) (s : State) := mxExec 4 specAcst f s
def execAcrd (f : Fields) (s : State) := mxExec 5 specAcrd f s
def execAcwr (f : Fields) (s : State) := mxExec 6 specAcwr f s
def execAcep (f : Fields) (s : State) := mxExec 7 specAcep f s
def execMxstat (f : Fields) (s : State) := mxExec 8 specMxstat f s

/-! ### MATRIX_OP_START and MATRIX_OP_COMPLETE (R302, R303, R310, R311, R313) -/

/-- The operation may start: every word of its issue cycle has entered, so that the order of entry is settled (R302). -/
def mxCanStart (s : State) (o : Op) (m : MxOp) : Bool :=
  mxNext s o m && decide (m.entry / 2 ^ 15 < (getCore s (coreOf s o.w)).cyc)

def execMatrixOpStart (id : Nat) (s : State) : Host.Outcome State Fault Refusal :=
  match findOp s id with
  | some o =>
    match o.kind with
    | .matrix m => if mxCanStart s o m then .next (setOpKind s id (.matrix { m with started := true })) else .next s
    | _ => .next s
  | none => .next s

def mxAgent (s : State) (o : Op) (m : MxOp) : Agent := { agentOf s o.w m.sup with denied := o.denied }

/-- The words that step i reads in the block's tile store, by byte offset over 8 (R292, R293, R308). -/
def mxStepWords (m : MxOp) (i : Nat) : List Nat :=
  let run (o n : Nat) : List Nat := (List.range (n / 8)).map (fun j => o / 8 + j)
  if isArray m.kind then
    run (mxAt m.a m.incA i) (mxBytesA m.ty) ++ run (mxAt m.b m.incB i) (mxBytesB m.ty) ++
      (if m.mx then run (mxAt m.sa m.incSa i) (64 * mxQ m.ty) ++ run (mxAt m.sb m.incSb i) (64 * mxQ m.ty) else [])
  else if m.bias then run m.b.toNat (64 * tileElemBytes m.ty)
  else []

/-- A word of a step as `got` names it, and the words of a step that are still to be read. -/
def mxKeyOf (i w : Nat) : Nat := 2 ^ 12 * w + i
def mxUnread (m : MxOp) (i : Nat) : List Nat := ((mxStepWords m i).dedup).filter (fun w => !m.got.any (fun e => e.1 = mxKeyOf i w))
/-- The words of the rows that are still to be moved. -/
def mxUnmoved (m : MxOp) : List Nat := (mxRowWords m).filter (fun i => !m.got.any (fun e => e.1 = i))

/-- The engine's choice among words that may come next. -/
def mxChoice (s : State) (o : Op) (m : MxOp) : Nat := Config.nextPiece ((s.free * 2 ^ 40 + o.id) * 2 ^ 40 + (m.step * 2 ^ 20 + m.got.length) * 2 + 1)

/-- The stall of the source pages of acld: a word whose page is not resident, when no other can be moved. -/
def mxWordStall (s : State) (a : Agent) (m : MxOp) (i : Nat) : Option Wait := engineStall s a .load [mxWordVa m i]
def mxOpenWords (s : State) (a : Agent) (m : MxOp) : List Nat :=
  if m.kind = 3 ∧ !m.ts then (mxUnmoved m).filter (fun i => (mxWordStall s a m i).isNone) else mxUnmoved m
def mxStall (s : State) (o : Op) (m : MxOp) : Option Wait :=
  let a := mxAgent s o m
  if m.kind = 3 ∧ !m.ts ∧ mxBusy m ∧ (mxOpenWords s a m).isEmpty then (mxUnmoved m).findSome? (mxWordStall s a m) else none

def mxCanComplete (s : State) (o : Op) (m : MxOp) : Bool :=
  m.started && !mxStopped s o m && decide ((getBlock s (blkOf o.w)).state = 1) && engineFree s o m.pages

/-- The tile store with the words that step i has read as they were read (R310). -/
def mxView (s : State) (b : Nat) (m : MxOp) (i : Nat) : State :=
  (m.got.filter (fun e => e.1 % 2 ^ 12 = i)).foldl (fun s e => wrMem s (tileBase b + 8 * (e.1 / 2 ^ 12)) 8 e.2) s

/-- The effect of the step whose words have all been read, of the ones that read the tile store, and of the others at once. -/
def mxEffect (s : State) (b : Nat) (m : MxOp) : State :=
  match m.kind with
  | 0 =>
    let s1 := (mxRows m).foldl (fun s r => wrMem s (elemKey b m.tile m.ty r 0) (mxRowBytes m) 0) s
    if allRows m m.ty then cleanTile s1 b m.tile else s1
  | 1 => mxStep s (mxView s b m m.step) b m m.step
  | 2 => mxStep s (mxView s b m m.step) b m m.step
  | 6 => m.data.foldl (fun s e => wrElem s b m.tile m.ty (selRow m e.1) (selCol m) e.2) s
  | 7 => mxEpilogue s (mxView s b m 0) b m
  | _ => s

/-- The step that reads the next word: any that is left, or the present one while the block is saved (R314). -/
def mxReadStep (s : State) (o : Op) (m : MxOp) : Nat :=
  if (getBlock s (blkOf o.w)).saving then m.step
  else
    let i := m.step + mxChoice s o m % (m.count - m.step)
    if (mxUnread m i).isEmpty then m.step else i

/-- Performs the next piece of an operation: a word moved or read, or a step whose words have been read. -/
def mxPiece (s : State) (o : Op) (m : MxOp) : State :=
  let b := blkOf o.w
  let a := mxAgent s o m
  if m.kind = 3 ∨ m.kind = 4 then
    match mxOpenWords s a m with
    | [] => setOpKind s o.id (.matrix { m with step := m.count })
    | i :: r =>
      let k := (i :: r).getD (mxChoice s o m % (r.length + 1)) i
      let e := if m.kind = 3 then mxLoadWord s a b m k else mxStoreWord s a b m k
      let bad : Nat := if m.kind = 4 && tilePoisoned s b m.tile then 1 else 0
      setOpKind e.1 o.id (.matrix { m with got := (k, bad) :: m.got, flags := m.flags ||| e.2 })
  else if (mxUnread m m.step).isEmpty then
    setOpKind (mxEffect s b m) o.id (.matrix { m with step := m.step + 1, got := m.got.filter (fun e => e.1 % 2 ^ 12 ≠ m.step) })
  else
    let i := mxReadStep s o m
    let ws := mxUnread m i
    let w := ws.getD (mxChoice s o m / 2 ^ 12 % ws.length) 0
    setOpKind s o.id (.matrix { m with got := (mxKeyOf i w, rdMem s (tileBase b + 8 * w) 8) :: m.got })

/-- The operation reads words of the tile store; its tile (R313). -/
def readsStore (m : MxOp) : Bool := isArray m.kind || (decide (m.kind = 3) && m.ts) || (decide (m.kind = 7) && m.bias)
def readsTile (kind : Nat) : Bool := decide (kind = 1 ∨ kind = 2 ∨ kind = 4 ∨ kind = 5 ∨ kind = 7)

/-- The errors that the hardware could not repair among those that an event names and that can befall the operation (R313): bit 8 operand
parity, bit 9 residue, bit 10 an uncorrectable error in the tile. -/
def mxErr (m : MxOp) (err : Nat) : Nat :=
  (if readsStore m then err / 2 ^ 8 % 2 * 2 ^ 8 else 0) + (if isArray m.kind then err / 2 ^ 9 % 2 * 2 ^ 9 else 0) +
    (if readsTile m.kind then err / 2 ^ 10 % 2 * 2 ^ 10 else 0)

/-- Words for D. -/
def mxWordsD (s : State) (o : Op) (m : MxOp) : List (Nat × Nat × TWord) :=
  let b := blkOf o.w
  let lanes := (lanesOf o.lanes).take (if m.d ≥ 0xC0 ∧ m.d < 0xE0 then 1 else 32)
  match m.kind with
  | 5 => lanes.map (fun l => (m.d, l, mxRead s b m l))
  | 8 => lanes.map (fun l => (m.d, l, TWord.valid (getTstat s b m.tile)))
  | _ => []

/-- What the tile's status takes at the end: the word of `mxstat.clr` and of a clean acld of every row cleared, and the errors of the
operation, which poison it. -/
def mxSettle (s : State) (b : Nat) (m : MxOp) : State :=
  let src := decide (m.kind = 3) && decide (m.flags &&& (flSrcPois ||| flPoolLost) ≠ 0)
  let s1 := if m.clr then { s with tstat := sset 0#64 s.tstat (tileNo b m.tile) 0 }
    else if m.kind = 3 ∧ !src ∧ allRows m m.ty then cleanTile s b m.tile else s
  markTile s1 b m.tile ((m.flags &&& 0x300) ||| (if src || decide (m.flags &&& 0x300 ≠ 0) then flAcUe else 0))

/-- Completes a matrix operation: the tile settles, the object is signalled, D is written and the counter falls (R311, R313). -/
def mxComplete (s : State) (o : Op) (m : MxOp) : State :=
  let b := blkOf o.w
  let a := mxAgent s o m
  let fl := m.flags ||| (if readsTile m.kind && tilePoisoned s b m.tile then flAcUe else 0)
  let ws := mxWordsD s o m
  let s0 := mxSettle (if m.kind = 4 ∧ !m.ts then mxCover s a m else s) b m
  finishOp (if m.obj = 0 then s0 else let e := engineRelease s0 b m.scope; aoSignal e.1 b m.obj 1 0 fl m.tag e.2) o ws

/-- MATRIX_OP_COMPLETE: the next piece of an operation in its unit, or the completion of one that has left it. An error befalls the piece
with the event; one in the tile poisons it before the piece. -/
def execMatrixOpComplete (id err : Nat) (s : State) : Host.Outcome State Fault Refusal :=
  match findOp s id with
  | some o =>
    match o.kind with
    | .matrix m =>
      if !mxCanComplete s o m then .next s
      else match mxStall s o m with
        | some w => .next (addStalls w s)
        | none =>
          if mxBusy m then
            let e := mxErr m err
            .next (mxPiece (markTile s (blkOf o.w) m.tile (e / 2 ^ 10 * 2 ^ 10)) o { m with flags := m.flags ||| e })
          else .next (mxComplete s o m)
    | _ => .next s
  | none => .next s

end Sys2Proof.Machine
end

