-- ==== Sys2Proof/Machine/Save.lean ====
section
/-!
DEFINITION. Saving the context of a block and restoring it (R153, R202, R239, R267, R287, R314, R375, R403, R418, R443 to R445).
-/
namespace Sys2Proof.Machine

/-! ### When a block can be saved -/

/-- The operation may stand while its block is saved: a copy that reads no tile store or has read all it needs of it (R287), a stopped `mmxl`, a
monitor (R267), results whose stores to a stream stall for a frame (R344), an exchange or a collective that has read its sources (R418). -/
def opStays (s : State) (o : Op) : Bool :=
  match o.kind with
  | .copy c => decide (c.kind ≠ 3 ∧ c.kind ≠ 6 ∧ c.kind ≠ 7) || allRead c
  | .matrix m => mxStops s o m
  | .monitor .. => true
  | .result _ => o.push.isSome && o.since.isSome
  | .halo x => x.ents.all (fun e => !e.send || e.done || allRead e.box)
  | .coll x => (collUnread x).isEmpty
  | _ => false

/-- A split of the block waits for a page, so that the save waits for system software (R178, R202), or for a pre-emption of its own. -/
def splitHolds (sp : Split) : Bool := match sp.susp with | some (.page ..) => true | some (.save ..) => true | _ => false

/-- What is still on its way to a block: bytes of its tile store, updates of its objects and slots (R287). -/
def towards (s : State) (b : Nat) : Bool :=
  s.ops.any (fun o => match o.kind with
    | .copy c =>
      (decide (blkOf o.w = b) && (decide (c.obj ≠ 0) || (decide (c.kind = 2) && !allWritten c) || c.cb.isSome)) ||
        (decide (c.kind = 5 ∧ (getBlock s (blkOf o.w)).cluster = (getBlock s b).cluster) && c.todo.contains (getBlock s b).rank)
    | .halo x => decide (blkOf o.w = b) && decide (x.obj ≠ 0)
    | .coll x => decide (blkOf o.w = b) && decide (x.obj ≠ 0 ∨ x.kind = 1)
    | _ => decide (blkOf o.w ≠ b) && (accsOfOp o).any (fun x => decide (x.key ≥ tileBase b ∧ x.key < tileBase (b + 1))))

/-- The core of the block has a forwarding entry for it (R287). -/
def entryFree (s : State) (b : Nat) : Bool :=
  let core := 48 * (getBlock s b).die + (getBlock s b).core
  !towards s b || decide ((s.fwdEnts.filter (fun e => decide (e.1 = core) && towards s e.2)).length < 16)

/-- The block is quiet: everything that completes before a save has completed. -/
def blockQuiet (s : State) (b : Nat) : Bool :=
  (getBlock s b).killed ||
    (s.ops.all (fun o => decide (blkOf o.w ≠ b) || opStays s o) &&
     s.warps.all (fun e => decide (blkOf e.1 ≠ b) || e.2.splits.all (fun x => !splitHolds x.2)) && entryFree s b)

/-! ### Splits at the save (R153, R267) -/

/-- The wait of a split that is saved: the end of a wait that is satisfied, or the split as the context holds it. A split in `bar` or
`cbar` keeps its wait with its PC at the next word, one whose results stall on their way to a stream waits on for them (log 77); every other
waiting split stands at its instruction and issues it again. -/
def saveSplit (w k : Nat) (s : State) : State :=
  let sp := getSplit s w k
  let go (x : Split) : State := setSplit s w k x
  match sp.susp with
  | none => s
  | some (.arrival obj p sc) => go { stepSplit sp with susp := some (.resumed obj p sc) }
  | some (.cluster p sc) => go { stepSplit sp with susp := some (.resumed 64 p sc) }
  | some (.satisfied obj d sc) => wakeSatisfied s w k obj d sc
  | some (.resumed ..) => s
  | some (.nap _) => wakeAdvance w k s
  | some .choice => wakeAdvance w k s
  | some (.op id) => if (findOp s id).any (fun o => o.push.isSome) then s else go { sp with susp := none, stalled := none, latch := [] }
  | _ => go { sp with susp := none, stalled := none, latch := [] }

/-- A split leaves the queues of `grow` and `ralloc` (R170, R375). -/
def withdraw (s : State) (p : Nat → Nat → Bool) : State :=
  { s with growQ := s.growQ.filter (fun r => !p r.w r.k),
           graphs := s.graphs.map (fun e => (e.1, e.2.map (fun g => { g with reqs := g.reqs.filter (fun r => !p r.w r.k) }))) }

/-- The warps of a block. -/
def blockWarps (s : State) (b : Nat) : List (Nat × Warp) := s.warps.filter (fun e => blkOf e.1 = b)

/-- The splits of a block as its context holds them. -/
def saveSplits (s : State) (b : Nat) : State :=
  let s1 := withdraw s (fun w _ => decide (blkOf w = b))
  let s2 : State := { s1 with ops := (s1.ops.filter (fun o => !(decide (blkOf o.w = b) && (match o.kind with | .monitor .. => true | _ => false)))).map (fun o =>
    if blkOf o.w = b then { o with since := none } else o) }
  (blockWarps s2 b).foldl (fun s e => e.2.splits.foldl (fun s x => saveSplit e.1 x.1 s) s) s2

/-! ### The save area (R444) -/

def ctxBase (s : State) (die slot : Nat) : Nat := (sget DieSt.init s.dies die).csave.toNat + slot * 2 ^ 23
/-- Save slots of a die. -/
def slotCount (s : State) (die : Nat) : Nat := min 64 (sget DieSt.init s.dies die).ccnt.toNat

/-- The bytes at a key become those of a value. -/
def fillMem (s : State) (lo n v : Nat) : State := { s with mem := sreplace 0#8 s.mem lo n (cellsOf lo n v) }
/-- n bytes are copied from one key to another. -/
def copyMem (s : State) (src dst n : Nat) : State :=
  { s with mem := sreplace 0#8 s.mem dst n ((s.mem.filter (fun e => decide (src ≤ e.1 ∧ e.1 < src + n))).map (fun e => (e.1 - src + dst, e.2))) }

/-- The header of a context. -/
def ctxHeader (s : State) (b : Nat) (held : Bool) : Nat :=
  let x := getBlock s b
  let bit (v : Bool) (i : Nat) : Nat := if v then 2 ^ i else 0
  x.lrec.toNat * 2 ^ 192 + x.launchid.toNat * 2 ^ 128 + x.seq % 2 ^ 32 * 2 ^ 96 + x.blocklin % 2 ^ 32 * 2 ^ 64 + x.tsbytes / 1024 * 2 ^ 54 +
    x.tiles * 2 ^ 46 + x.naos * 2 ^ 39 + x.ncb * 2 ^ 33 + x.warps * 2 ^ 27 + x.rank * 2 ^ 24 + bit x.dual 7 + bit (x.rst && !x.committed) 6 +
    x.attempt * 2 ^ 4 + bit held 3 + bit ((blockNode s b).any (fun n => rcHas n.rcd 3)) 2 + 2

/-- An entry of the split table (R144). -/
def splitBits (sp : Split) : Nat :=
  if sp.mask = 0 then 0
  else sp.lc2.toNat * 2 ^ 224 + sp.lc1.toNat * 2 ^ 192 + sp.lc0.toNat * 2 ^ 160 + sp.mask.toNat * 2 ^ 128 + sp.pc.toNat * 2 ^ 64 +
    sp.age % 32 * 2 ^ 48 + sp.starve % 128 * 2 ^ 41 + sp.rhold % 512 * 2 ^ 32 + sp.rem % 32 * 2 ^ 27 + sp.wpos % 32 * 2 ^ 22 + 1

/-- A split from its entry; what the entry does not hold stays as the block has it. -/
def splitFrom (old : Split) (e : Nat) : Split :=
  if e % 2 = 0 then noSplit
  else { old with lc2 := BitVec.ofNat 32 (e / 2 ^ 224), lc1 := BitVec.ofNat 32 (e / 2 ^ 192), lc0 := BitVec.ofNat 32 (e / 2 ^ 160), mask := BitVec.ofNat 32 (e / 2 ^ 128),
                  pc := BitVec.ofNat 56 (e / 2 ^ 64), age := bitsOf e 52 48, starve := bitsOf e 47 41, rhold := bitsOf e 40 32, rem := bitsOf e 31 27,
                  wpos := bitsOf e 26 22, next := 0, hdr := none }

/-- Words of 8 bytes, and tags of 2 bits, as one value. -/
def joinWords (ws : List TWord) : Nat := ws.foldr (fun x v => x.data.toNat + 2 ^ 64 * v) 0
def joinTags (ws : List TWord) : Nat := ws.foldr (fun x v => tagCode x.tag + 4 * v) 0
/-- Word i of values so joined. -/
def wordAt (vs ts i : Nat) : TWord := ⟨tagOf (ts / 4 ^ i), BitVec.ofNat 64 (vs / 2 ^ (64 * i))⟩

/-- The stream of a queue of one lane, as 96 bytes (R202): address; stride; remaining count, kind, type and number of entries; the entries; their
tags (log 18). -/
def queueBits (x : Queue) : Nat :=
  x.addr.toNat + x.stride.toNat * 2 ^ 64 + (x.left % 2 ^ 32 + x.kind * 2 ^ 32 + x.ty.toNat * 2 ^ 34 + x.entries.length * 2 ^ 38) * 2 ^ 128 +
    joinWords x.entries * 2 ^ 192 + joinTags x.entries * 2 ^ 704
/-- A stream from its 96 bytes: elements that are not entries are fetched again. -/
def queueFrom (x : Queue) (v : Nat) : Queue :=
  let n := min 8 (bitsOf v 170 166)
  { x with kind := bitsOf v 161 160 % 3, ty := BitVec.ofNat 4 (bitsOf v 165 162), addr := BitVec.ofNat 64 v, stride := BitVec.ofNat 64 (v / 2 ^ 64), left := bitsOf v 159 128,
           toFetch := if bitsOf v 161 160 % 3 = 1 then bitsOf v 159 128 - n else 0, after := [],
           entries := (List.range n).map (wordAt (bitsOf v 703 192) (bitsOf v 719 704)) }

/-- Fields of the widths given, the first lowest. -/
def packBits (fs : List (Nat × Nat)) : Nat := fs.foldr (fun e v => e.2 % 2 ^ e.1 + 2 ^ e.1 * v) 0

/-- What is left of a warp's section: the registers that R444 lists at 0xCC00, in its order, the handlers and waits by split entry (log 18). -/
def warpBits (s : State) (w : Nat) : Nat :=
  let p := getWarp s w
  let lanes (g : Nat → Nat × Nat) : List (Nat × Nat) := (List.range 32).map g
  packBits ([(64, p.vregs), (64, p.fcr.toNat), (64, p.tvec.toNat)] ++ lanes (fun l => (8, (sget 0 s.fsr (lkey w l)).toNat)) ++
    (List.range 8).map (fun n => (144, (sget 0 s.bn (8 * w + n)).toNat)) ++
    [(64, p.tcause.toNat), (64, p.tpc.toNat), (64, p.tmask.toNat), (64, p.tinfo.toNat)] ++ lanes (fun l => (64, (sget 0 s.tval (lkey w l)).toNat)) ++
    [(64, p.scause.toNat), (64, p.spc.toNat), (64, p.smask.toNat), (64, p.sinfo.toNat), (64, p.sstat.toNat), (64, p.ssave0.toNat), (64, p.ssave1.toNat),
     (64, p.ssave2.toNat), (64, p.ssave3.toNat)] ++ lanes (fun l => (64, (sget 0 s.sval (lkey w l)).toNat)) ++
    lanes (fun k => let h := (getSplit s w k).hs; (8, if h.isEmpty then 0 else if h.any (fun x => x.sup) then 3 else 1)) ++
    lanes (fun k => match (getSplit s w k).susp with
      | some (.resumed obj phase sc) => (24, 1 + 2 * (if phase then 1 else 0) + 4 * (obj % 128) + 2 ^ 12 * (sc % 8))
      | _ => (24, 0)))

/-- Writes a warp's section: registers, tags, split table, the rest of its registers, queue streams. -/
def saveWarp (s : State) (base w : Nat) : State :=
  let a := base + 0x1000 + 0x10000 * warpNo w
  let wp := getWarp s w
  let vs (r : Nat) : List TWord := (List.range 32).map (fun l => sget TWord.zero s.vregs (vkey w l r))
  let ss := (List.range 32).map (fun r => sget TWord.zero s.sregs (skey w r))
  let s1 := (List.range wp.vregs).foldl (fun t r => fillMem (fillMem t (a + 256 * r) 256 (joinWords (vs r))) (a + 0xC000 + 8 * r) 8 (joinTags (vs r))) s
  let s2 := fillMem (fillMem s1 (a + 0xC600) 256 (joinWords ss)) (a + 0xC700) 8 (joinTags ss)
  let s3 := (List.range 32).foldl (fun t k => fillMem t (a + 0xC800 + 32 * k) 32 (splitBits (getSplit s w k))) s2
  let s4 := fillMem s3 (a + 0xCC00) 1024 (warpBits s w)
  (List.range 128).foldl (fun t i => fillMem t (a + 0xD000 + 96 * i) 96 (queueBits (getQueue s w (i / 4) (i % 4)))) s4

/-- Reads a warp's section back. What holds its splits for cycles of its old core has passed (R93, R389). -/
def loadWarp (s : State) (base w : Nat) : State :=
  let a := base + 0x1000 + 0x10000 * warpNo w
  let wp := getWarp s w
  let rows := (List.range wp.vregs).map (fun r => (r, rdMem s (a + 256 * r) 256, rdMem s (a + 0xC000 + 8 * r) 8))
  let vw := (List.range 32).flatMap (fun l => rows.map (fun e => (vkey w l e.1, wordAt e.2.1 e.2.2 l)))
  let ws := rdMem s (a + 0xC600) 256
  let ts := rdMem s (a + 0xC700) 8
  let sw := (List.range 32).map (fun r => (skey w r, wordAt ws ts r))
  let sps := (List.range 32).map (fun k => (k, splitFrom (getSplit s w k) (rdMem s (a + 0xC800 + 32 * k) 32)))
  let s1 : State := { s with vregs := sreplace TWord.zero s.vregs (vkey w 0 0) (32 * 192) vw, sregs := sreplace TWord.zero s.sregs (skey w 0) 32 sw }
  let s2 := (List.range 128).foldl (fun t i => setQueue t w (i / 4) (i % 4) (queueFrom (getQueue s w (i / 4) (i % 4)) (rdMem s (a + 0xD000 + 96 * i) 96))) s1
  setWarp s2 w { wp with splits := sps.filter (fun e => decide (e.2 ≠ noSplit)), held := 0, rayPrev := wp.ray, rayCyc := 0 }

/-- An arrival object's bytes (R252). -/
def aoBits (o : AObj) : Nat :=
  o.status.toNat * 2 ^ 128 + (if o.phase then 2 ^ 64 else 0) + (o.due % 2 ^ 32).toNat * 2 ^ 32 + o.arrived % 2 ^ 16 * 2 ^ 16 + o.expected % 2 ^ 16

/-- An arrival object from its bytes; its record and marks stay as the block has them. -/
def aoFrom (o : AObj) (v : Nat) : AObj :=
  { o with status := BitVec.ofNat 64 (v / 2 ^ 128 % 2 ^ 16 + v / 2 ^ 160 % 2 ^ 32 * 2 ^ 32), phase := v.testBit 64, due := (BitVec.ofNat 32 (v / 2 ^ 32)).toInt, arrived := bitsOf v 31 16, expected := bitsOf v 15 0 }

/-- A circular buffer in 1 KiB (R284, R444). -/
def cbBits (x : CBuf) : Nat :=
  packBits ([(32, x.base), (32, x.size), (32, x.slots.length), (32, x.res), (32, x.acq), (96, 0)] ++ x.slots.flatMap (fun e => [(16, e.st), (16, e.status), (32, e.bytes)]))

/-- A stopped `mmxl` in 64 bytes (R314). -/
def mxBits (m : MxOp) : Nat :=
  let i (v : Int) : Nat × Nat := (32, (v % 2 ^ 32).toNat)
  packBits [(8, m.tile), (4, m.ty), (4, m.bty), (1, if m.mx then 1 else 0), (1, if m.sat then 1 else 0), (1, if m.ftz then 1 else 0), (5, m.obj), (3, m.mode.ctorIdx), (5, 0),
    (32, m.rows), (32, m.count - m.step), i (m.a + m.step * m.incA), i (m.b + m.step * m.incB), i (m.sa + m.step * m.incSa), i (m.sb + m.step * m.incSb), i m.incA, i m.incB,
    i m.incSa, i m.incSb]

/-- A ray context in 32 bytes (R389). -/
def rayBits (x : Option RayCtx) : Nat := match x with | some c => packBits [(64, c.root.toNat), (64, c.handle.toNat), (64, c.ctl.toNat), (64, 1)] | none => 0

/-- A ray query slot in 1 KiB (R403). -/
def queryBits (q : Query) : Nat :=
  let bit (v : Bool) : Nat × Nat := (1, if v then 1 else 0)
  let hit (h : Option RayHit) : List (Nat × Nat) := match h with
    | some h => [(32, h.t.toNat), (32, h.prim), (32, h.u.toNat), (32, h.v.toNat), (32, h.inst), (8, h.kind), (24, 1)]
    | none => [(192, 0)]
  packBits ([(2, q.st), bit q.any, bit q.unord, bit q.opq, bit q.pred, bit q.sup, bit q.more, bit q.fault.isSome, (7, q.cands.length), (48, q.stack.length)] ++
    [(64, (q.fault.getD 0).toNat), (256, q.ray), (64, q.ctx.root.toNat), (64, q.ctx.handle.toNat), (64, q.ctx.ctl.toNat)] ++ hit q.best ++ hit q.pending ++ hit q.last ++
    (List.range 16).flatMap (fun i => match q.cands[i]? with
      | some h => [(32, h.t.toNat), (32, h.prim), (32, h.u.toNat), (32, h.v.toNat), (32, h.inst)]
      | none => [(160, 0)]) ++ (q.stack.take 64).map (fun f => (56, f.ref)))

/-- Writes the parts of the context at 0x21_0000 and 0x22_0000, in the order of R444 (log 18). -/
def saveUnits (s : State) (b base : Nat) : State :=
  let x := getBlock s b
  let at_ := base + 0x210000
  let s1 := (List.range x.naos).foldl (fun t k => fillMem t (at_ + 32 * k) 32 (aoBits (getAo s b k))) s
  let s2 := (List.range x.ncb).foldl (fun t k => fillMem t (at_ + 0x800 + 1024 * k) 1024 (cbBits (sget CBuf.init s.cbs (32 * b + k)))) s1
  let s3 := (List.range 16).foldl (fun t k => fillMem t (at_ + 0x8800 + 128 * k) 128 (sget 0 s.tds (16 * b + k))) s2
  let s4 := fillMem s3 (at_ + 0x9000) 128 (packBits ((List.range 16).map (fun k => (64, sget 0 s.chans (16 * b + k)))))
  let s5 := ((blockMx s b).zipIdx).foldl (fun t e => fillMem t (at_ + 0x9080 + 64 * e.2) 64 (mxBits e.1.2)) s4
  let s6 := (blockWarps s b).foldl (fun t e => fillMem t (at_ + 0xF000 + 32 * warpNo e.1) 32 (rayBits e.2.ray)) s5
  (blockWarps s b).foldl (fun t e => (List.range 32).foldl (fun t l => match sget Query.idle s.rays (lkey e.1 l) with
    | q => fillMem t (base + 0x220000 + 1024 * (32 * warpNo e.1 + l)) 1024 (queryBits q)) t) s6

/-- Writes the context of a block in a slot. -/
def saveCtx (s : State) (b slot : Nat) (held : Bool) : State :=
  let x := getBlock s b
  let base := ctxBase s x.die slot
  let s1 := fillMem s base 32 (ctxHeader s b held)
  let s2 := (blockWarps s b).foldl (fun t e => saveWarp t base e.1) s1
  let s3 := saveUnits s2 b base
  let s4 := copyMem s3 (tileBase b) (base + 0x320000) x.tsbytes
  let s5 := (List.range x.tiles).foldl (fun t k => fillMem t (base + 0x3A0000 + 8 * k) 8 (sget 0 s.tstat (192 * b + k)).toNat) s4
  copyMem s5 (acBase b 0) (base + 0x400000) (16384 * x.tiles)

/-- Reads the context back: the parts whose layout the spec gives; the others stay as the block has them (log 18). -/
def loadCtx (s : State) (b slot : Nat) : State :=
  let x := getBlock s b
  let base := ctxBase s x.die slot
  let s1 := (blockWarps s b).foldl (fun t e => loadWarp t base e.1) s
  let s2 := (List.range x.naos).foldl (fun t k => setAo t b k (aoFrom (getAo t b k) (rdMem s (base + 0x210000 + 32 * k) 32))) s1
  let s2 : State := { s2 with tds := ssetAll 0 s2.tds ((List.range 16).map (fun k => (16 * b + k, rdMem s (base + 0x210000 + 0x8800 + 128 * k) 128))) }
  let s3 := copyMem s2 (base + 0x320000) (tileBase b) x.tsbytes
  let s4 : State := { s3 with tstat := ssetAll 0 s3.tstat ((List.range x.tiles).map (fun k => (192 * b + k, BitVec.ofNat 64 (rdMem s (base + 0x3A0000 + 8 * k) 8) &&& 0x707#64))) }
  copyMem s4 (base + 0x400000) (acBase b 0) (16384 * x.tiles)

/-- A split table is consistent: masks disjoint and not empty, ranks 0 to n - 1, rem + wpos at most 16 (R144, R153). -/
def tableOk (sps : List Split) : Bool :=
  sps.all (fun x => decide (x.mask ≠ 0) && decide (x.rem + x.wpos ≤ 16) && decide (x.pc.toNat % 8 = 0)) &&
    (List.range sps.length).all (fun i => sps.any (fun x => x.age = i)) && decide ((sps.map (fun x => laneCount x.mask)).sum = laneCount (sps.foldl (fun m x => m ||| x.mask) 0))

/-- The context in a slot is consistent: the split table of each of the block's warps. -/
def ctxOk (s : State) (b slot : Nat) : Bool :=
  let base := ctxBase s (getBlock s b).die slot
  (blockWarps s b).all (fun e => tableOk (((List.range 32).map (fun k => rdMem s (base + 0x1000 + 0x10000 * warpNo e.1 + 0xC800 + 32 * k) 32)).filterMap
    (fun v => if v % 2 = 1 then some (splitFrom noSplit v) else none)))

/-! ### Pre-emptions (R443) -/

/-- Save slots of a die that hold nothing and that no pre-emption has taken, the lowest first. -/
def openSlots (s : State) (die : Nat) : List Nat :=
  (List.range (slotCount s die)).filter (fun k => (sget none s.sslots (64 * die + k)).isNone &&
    !s.saves.any (fun r => decide (r.die = die) && r.blks.any (fun e => e.2 = k)))

/-- The blocks that are saved with a block: those of its cluster, in ascending rank (R267). -/
def matesOf (s : State) (b : Nat) : List Nat :=
  let x := getBlock s b
  ((s.blocks.filter (fun e => decide (e.2.state = 1) && !e.2.killed && !e.2.disp && decide (e.2.cluster = x.cluster) && decide (e.2.die = x.die))).insertionSort
    (fun a c => a.2.rank ≤ c.2.rank)).map (·.1)

/-- Begins the pre-emption of a block and its mates; none where too few slots are free. -/
def beginSave (s : State) (b : Nat) (hold : Bool) (who : Option (Nat × Nat)) : Option State :=
  let bs := matesOf s b
  let die := (getBlock s b).die
  let ks := openSlots s die
  if ks.length < bs.length then none
  else some (bs.foldl (fun s x => setBlock s x { getBlock s x with saving := true }) { s with saves := s.saves ++ [{ die := die, blks := bs.zip ks, hold := hold, who := who }] })

/-- Saves one block: its fixed-latency results have landed (R59), its L1 is written back and its SW lines dropped (R239), and its resources return to
the core. -/
def saveBlock (s : State) (b slot : Nat) (hold : Bool) : State :=
  let x := getBlock s b
  if x.killed then s
  else
    let s : State := { s with pend := s.pend.filter (fun p => blkOf p.w ≠ b), bnPend := s.bnPend.filter (fun p => blkOf p.w ≠ b) }
    let core := 48 * x.die + x.core
    let s1 := dropCache (fun _ => true) (wbL1 (fun _ => true) (saveSplits s b) core) (l1Of core)
    let s2 := saveCtx s1 b slot hold
    let ents := (s2.fwdEnts.filter (fun e => towards s2 e.2)) ++ (if towards s2 b then [(core, b)] else [])
    let s3 := setBlock { s2 with fwdEnts := ents, sslots := sset none s2.sslots (64 * x.die + slot) (some { blk := b, at_ := s2.nextOp }), nextOp := s2.nextOp + 1 } b
      { x with state := if hold then 3 else 2, saving := false }
    if hold then s3
    else match getNode s3 x.node with
      | some n => setNode s3 x.node (some { n with saved := n.saved ++ [b] })
      | none => s3

/-- A pre-emption whose blocks are all quiet. -/
def saveReady (s : State) (r : SaveReq) : Bool := r.blks.all (fun e => blockQuiet s e.1)

/-- Finishes a pre-emption. -/
def finishSave (s : State) (r : SaveReq) : State :=
  r.blks.foldl (fun s e => saveBlock s e.1 e.2 r.hold) { s with saves := s.saves.filter (fun x => x ≠ r) }

/-- The pre-emption that a split waits for. -/
def saveOf (s : State) (w k : Nat) : Option SaveReq := s.saves.find? (fun r => r.who = some (w, k))

/-- The end of `preempt`: the block is saved and D takes the number of its slot (R443); a block that was killed meanwhile was not
resident. -/
def wakeSave (s : State) (w k b d : Nat) : State :=
  match saveOf s w k with
  | none => s
  | some r =>
    let gone := (getBlock s b).killed
    let v : TWord := if gone then ⟨.n, 1⟩ else TWord.valid (BitVec.ofNat 64 (((r.blks.find? (fun e => e.1 = b)).map (·.2)).getD 0))
    let s1 := finishSave s r
    let ls := if d ≥ 0xC0 then [0] else lanesOf (getSplit s1 w k).mask
    wakeAdvance w k (writeNow s1 w d (ls.map (fun l => (l, v))))

end Sys2Proof.Machine
end

