-- ==== Sys2Proof/Machine/Blocks.lean ====
section
/-!
DEFINITION. The life of blocks and nodes: completion, dispatch, resumption, pre-emption by priority, retirement (R168, R348, R350,
R360 to R363, R446, R447).
-/
namespace Sys2Proof.Machine

/-! ### BLOCK_COMPLETE (R168, R446, R447) -/

/-- An exchange or a collective that has read its sources, or which sends nothing: a killed block does not wait for it, and it runs to completion
after the block (R412, R446). -/
def outlives (s : State) (o : Op) : Bool := match o.kind with | .halo _ => opStays s o | .coll _ => opStays s o | _ => false

/-- An operation that a killed block does not wait for. -/
def opAbandoned (s : State) (o : Op) : Bool :=
  (getBlock s (blkOf o.w)).killed && (outlives s o || (match o.kind with | .monitor .. => true | _ => false))

/-- Every warp of the block has ended and its operations have completed. -/
def blockOver (s : State) (b : Nat) : Bool :=
  let x := getBlock s b
  decide (x.state ≠ 0) && !x.disp && (blockWarps s b).all (fun e => e.2.splits.isEmpty) &&
    s.ops.all (fun o => decide (blkOf o.w ≠ b) || opAbandoned s o)

/-- Drops the n keys from lo: they read as unlisted keys do, and the others as before. -/
def dropKeys : List (Nat × β) → Nat → Nat → List (Nat × β)
  | [], _, _ => []
  | (k, v) :: r, lo, n => if k < lo ∨ lo + n ≤ k then (k, v) :: dropKeys r lo n else sdrop k (dropKeys r lo n)

/-- Everything that belongs to a block alone is gone, its tile store and tiles included. While an exchange or a collective outlives it, where it ran
and its space are kept. -/
def eraseBlock (s : State) (b : Nat) : State :=
  let kept := s.ops.any (fun o => decide (blkOf o.w = b) && outlives s o)
  { s with
    vregs := dropKeys s.vregs (vkey (32 * b) 0 0) (32 * 32 * 192), sregs := dropKeys s.sregs (skey (32 * b) 0) (32 * 32),
    fsr := dropKeys s.fsr (lkey (32 * b) 0) 1024, tval := dropKeys s.tval (lkey (32 * b) 0) 1024, sval := dropKeys s.sval (lkey (32 * b) 0) 1024,
    fenceMarks := dropKeys s.fenceMarks (lkey (32 * b) 0) 1024, seen := dropKeys s.seen (lkey (32 * b) 0) 1024, vcap := dropKeys s.vcap (lkey (32 * b) 0) 1024,
    rays := dropKeys s.rays (lkey (32 * b) 0) 1024, queues := dropKeys s.queues (qkey (32 * b) 0 0) 4096, bn := dropKeys s.bn (256 * b) 256,
    pend := s.pend.filter (fun p => blkOf p.w ≠ b), bnPend := s.bnPend.filter (fun p => blkOf p.w ≠ b),
    aos := dropKeys s.aos (aoKey b 0) 64, chans := dropKeys s.chans (16 * b) 16, tds := dropKeys s.tds (16 * b) 16, cbs := dropKeys s.cbs (32 * b) 32,
    tstat := dropKeys s.tstat (192 * b) 192, tpois := dropKeys s.tpois (192 * b) 192, acquired := dropKeys s.acquired (2 ^ 32 * b) (2 ^ 32),
    prov := dropKeys s.prov (2 ^ 80 * b) (2 ^ 80), provFull := dropKeys s.provFull (2 ^ 80 * b) (2 ^ 80),
    suspectVas := s.suspectVas.filter (fun e => e.1 ≠ b), fwd := s.fwd.filter (fun e => e.1 ≠ b), fwdEnts := s.fwdEnts.filter (fun e => e.2 ≠ b),
    sslots := s.sslots.filter (fun e => match e.2 with | some x => decide (x.blk ≠ b) | none => false),
    ops := s.ops.filter (fun o => decide (blkOf o.w ≠ b) || outlives s o), mem := dropKeys (dropKeys s.mem (tileBase b) (2 ^ 20)) (acBase b 0) (192 * 16384),
    warps := dropKeys s.warps (32 * b) 32, blocks := sset Block.none s.blocks b (if kept then { getBlock s b with state := 0, killed := true } else Block.none) }

/-- The live lanes of a block. -/
def liveLanes (s : State) (b : Nat) : Nat := ((blockWarps s b).flatMap (fun e => e.2.splits.map (fun x => laneCount x.2.mask))).sum

/-- The cluster barrier once a block has gone: the threads of the other blocks remain, and the block's own arrivals are withdrawn; the
barrier ends with its last block. -/
def leaveCluster (s : State) (b cl : Nat) : State :=
  match (clusterBlocks s cl).filter (fun x => x ≠ b) with
  | [] => { s with cbars := sset AObj.init s.cbars cl AObj.init }
  | bs =>
    let o := getCbar s cl
    let mine := o.record.filter (fun r => r / 1024 = b)
    putCbar s cl (aoTest { o with expected := (bs.map (liveLanes s)).sum, arrived := o.arrived - mine.length, record := o.record.filter (fun r => r / 1024 ≠ b) })

/-- A contained block is relaunched (R447). -/
def relaunches (x : Block) : Bool := decide (x.csource ≠ 0) && x.rst && !x.committed && decide (x.attempt < 2)

/-- The KILL packet of a contained block (R351, R447). -/
def killPacket (s : State) (x : Block) : State :=
  postDws s x.die [0x502, x.lrec.toNat, x.blocklin % 2 ^ 32 + (x.attempt + 1) * 2 ^ 32 + (x.die * 6 + x.core / 8 + 1) * 2 ^ 40, x.ccause + x.csource * 2 ^ 8, 0, 0, 0, 0] 0

/-- What the end of a block leaves in its node (R360, R447). -/
def nodeAfter (n : Node) (b : Nat) (x : Block) (ms : List Mark) : Node :=
  { n with ended := n.ended + 1, done := if x.killed then n.done else n.done + 1, races := n.races + x.races, out := (ms ++ n.out).dedup, saved := n.saved.filter (fun y => y ≠ b),
           code := if x.csource ≠ 0 ∧ !relaunches x ∧ n.code = 0 then x.ccause else n.code }

/-- The launch record whose completion record a node updates: that of its graph's root for a batch (R350, R353). -/
def launchRec (s : State) (n : Node) : Nat :=
  if isBatch n then
    match (n.graph.bind (getGraph s)).bind (fun g => getNode s g.root) with | some r => r.rcd | none => n.rcd
  else n.rcd

/-- Ends a block; the relaunch count of a completion record may wait for a page. -/
def endBlock (s : State) (b : Nat) : Except Wait State :=
  let x := getBlock s b
  let node := getNode s x.node
  match (if relaunches x then crecUpdate s x.die ((node.map (launchRec s)).getD 0) ((node.map (fun n => n.denied)).getD []) 0 0 1 0 0 [] else .ok s) with
  | .error w => .error w
  | .ok s0 =>
    let s1 := if relaunches x then killPacket s0 x else s0
    let s2 := if !x.killed && provisional s1 b then commitBlock s1 b else s1
    let p := if x.killed then (s2, []) else let r := performRelease s2 b 7; (r.1, [r.2])
    let s3 := releaseRecords p.1 b
    let s4 := match getNode s3 x.node with | some n => setNode s3 x.node (some (nodeAfter n b x p.2)) | none => s3
    let s5 := eraseBlock (leaveCluster s4 b x.cluster) b
    .ok (match node.bind (fun n => n.graph) with | some g => tickGraph s5 g | none => s5)

/-- BLOCK_COMPLETE. -/
def execBlockComplete (blk : Nat) (s : State) : Host.Outcome State Fault Refusal :=
  if !blockOver s blk then .next s
  else match endBlock s blk with
    | .ok s1 => .next s1
    | .error w => .next (addStalls w s)

/-! ### Dispatch and resumption (R348, R361, R363) -/

/-- The priority of a node: that of the root for a record-fed one (R365). -/
def nodePrio (s : State) (n : Node) : Nat :=
  if isBatch n then
    match (n.graph.bind (getGraph s)).bind (fun g => getNode s g.root) with | some r => rcPrio r.rcd | none => rcPrio n.rcd
  else rcPrio n.rcd

/-- A node is ready (R359, R373). -/
def nodeReady (s : State) (n : Node) : Bool :=
  n.deps.isEmpty && (isBatch n || (match n.graph with | some g => ((getGraph s g).map (fun x => x.ready)).getD true | none => true))

/-- Blocks of the node still to be dispatched, those killed before it left out. -/
def undispatched (n : Node) : List Nat := ((List.range (n.first + n.count - n.next)).map (n.next + ·)).filter (fun b => !n.dropped.contains b)

/-- The cores on which the DWS may place blocks of the node (R361). -/
def allowedCores (s : State) (n : Node) : List Nat :=
  (List.range 48).filter (fun c =>
    let core := 48 * n.die + c
    (reservedBy s core).all (fun g => isBatch n && decide (n.graph = some g)) &&
      !(decide (n.avoid ≠ 0) && decide (n.die * 6 + c / 8 + 1 = n.avoid)) && !s.growQ.any (fun r => r.core = core))

def roomsOf (s : State) (n : Node) (without : List Nat) : List (Nat × Room) :=
  (allowedCores s n).map (fun c => (c, coreRoom s (48 * n.die + c) without))

/-- What a saved block takes of a core. -/
def savedNeed (s : State) (b : Nat) : Need :=
  let x := getBlock s b
  { warps := ((blockWarps s b).filter (fun e => !warpEnded s e)).map (fun e => (warpNo e.1, e.2.vregs)), dual := x.dual, ts := x.tsbytes, tiles := x.tiles,
    aos := x.naos, cbs := x.ncb }

/-- The saved blocks of a node that may be resumed: blocks of a cluster are resident together, so one with a mate still held waits (R28). -/
def savedReady (s : State) (n : Node) : List Nat :=
  n.saved.filter (fun b => !s.blocks.any (fun e => decide (e.2.state = 3) && !e.2.killed && decide (e.2.cluster = (getBlock s b).cluster) &&
    decide (e.2.die = n.die)))

/-- The saved blocks that are resumed together: the first saved block of a node and its cluster, in ascending rank (R267). -/
def resumeGroup (s : State) (n : Node) : List Nat :=
  match savedReady s n with
  | [] => []
  | b :: _ => (n.saved.filter (fun y => decide ((getBlock s y).cluster = (getBlock s b).cluster))).insertionSort (fun x y => (getBlock s x).rank ≤ (getBlock s y).rank)

/-- The groups of new blocks that are placed together: the next cluster, or the whole of a cooperative share (R361, R363). -/
def newGroups (n : Node) : List (List Nat) :=
  let gs := groupsOf (rcCluster n.rcd) (undispatched n)
  if rcCoop n.rcd && !isBatch n then gs else gs.take 1

/-- What the next blocks of a node need, group by group. -/
def nextNeeds (s : State) (n : Node) : List (List Need) :=
  if (savedReady s n).isEmpty then (newGroups n).map (fun g => g.map (fun _ => rcNeed n.rcd)) else [(resumeGroup s n).map (savedNeed s)]

/-- A block may be dispatched, or resumed, of the node. -/
def hasBlocks (s : State) (n : Node) : Bool := !(savedReady s n).isEmpty || !(undispatched n).isEmpty

/-- Where the next blocks of a node go; none where they find no room. -/
def placeNext (s : State) (n : Node) : Option (List Placed) :=
  let r := placeAll (rcHas n.rcd 3) (nextNeeds s n) (roomsOf s n [])
  if r.2.isNone ∧ !r.1.isEmpty then some r.1 else none

/-- The ready nodes of a die with blocks left, in the order in which the DWS looks at them; the batch nodes of a graph stand by node
index (R373). -/
def readyNodes (s : State) (die : Nat) : List (Nat × Node) :=
  let ns := (dieNodes s die).filter (fun e => nodeReady s e.2 && hasBlocks s e.2)
  let before (a b : Nat × Node) : Bool :=
    decide (nodePrio s a.2 > nodePrio s b.2) || (decide (nodePrio s a.2 = nodePrio s b.2) && decide (a.1 ≤ b.1))
  let sorted := ns.insertionSort (fun a b => before a b)
  let batch (g : Option Nat) : List (Nat × Node) := (sorted.filter (fun e => isBatch e.2 && decide (e.2.graph = g))).insertionSort (fun a b => a.2.gidx ≥ b.2.gidx)
  sorted.foldl (fun acc e =>
    if isBatch e.2 then acc ++ ((batch e.2.graph)[(acc.filter (fun x => isBatch x.2 && decide (x.2.graph = e.2.graph))).length]?).toList else acc ++ [e]) []

/-- The first node that places blocks; the search ends at a cooperative node (R361). -/
def findPlace (s : State) : List (Nat × Node) → Option (Nat × Node × List Placed)
  | [] => none
  | e :: r =>
    match placeNext s e.2 with
    | some ps => some (e.1, e.2, ps)
    | none => if rcCoop e.2.rcd && !isBatch e.2 then none else findPlace s r

/-- The warp of a new block, with one split of all its lanes (R144, R348). -/
def newWarp (r : Nat) (sp : Spot) : Warp :=
  { Warp.none with live := true, quarter := sp.quarter, slot := sp.slot, shadow := sp.shadow, vregs := rcRegs r,
                   splits := [(0, { noSplit with mask := 0xFFFFFFFF, pc := BitVec.ofNat 56 (rcEntry r) })] }

/-- Puts a new block on its core; blocks of a cluster share the name of their cluster, and the cluster barrier expects the threads of those
that have started (R263). The launch is acquired at the scope of its outermost level (R348), the nodes it depended on at die scope (R360). -/
def startBlock (s : State) (num : Nat) (n : Node) (cl lin : Nat) (p : Placed) : State :=
  let b := s.nextBlk
  let r := n.rcd
  let seq := sget 0 s.seqs n.die
  let x : Block :=
    { Block.none with state := 1, die := n.die, core := p.1, seq := seq, lrec := n.lrec, launchid := BitVec.ofNat 64 (rcLaunchid r), blocklin := lin,
                      aspace := BitVec.ofNat 21 n.asid, attempt := n.attempt, rst := rcRst r, dual := rcDual r, coop := rcCoop r && !isBatch n, prio := nodePrio s n,
                      rank := lin % rcCluster r, cluster := cl, csize := rcCluster r, node := num, warps := rcWarps r, tsbytes := 1024 * rcTsk r, tiles := rcTiles r, naos := rcNaos r,
                      ncb := rcNcb r }
  let args := (List.range (rcNargs r)).map (fun j => TWord.valid (BitVec.ofNat 64 (rcArg r j)))
  let s1 := setBlock { s with nextBlk := b + 1, seqs := sset 0 s.seqs n.die (seq + 1) } b x
  let s2 := p.2.foldl (fun s sp =>
    { setWarp s (32 * b + sp.warp) (newWarp r sp) with
      sregs := ssetAll TWord.zero s.sregs ((args.zipIdx).map (fun e => (skey (32 * b + sp.warp) e.2, e.1))) }) s1
  let s3 := setAo s2 b 0 { AObj.init with expected := 32 * rcWarps r }
  let c := if cl = b then { AObj.init with expected := 0 } else getCbar s3 cl
  let s4 := setCbar s3 cl { c with expected := c.expected + 32 * rcWarps r }
  acquireAll (acquireNow s4 (32 * b) (max (if n.after then 3 else 0) (rcScope (launchRec s n)))) b 7 n.marks

/-- Starts the blocks of a group. -/
def startGroup (s : State) (num : Nat) (n : Node) (g : List (Nat × Placed)) : State :=
  g.foldl (fun (acc : State) e => startBlock acc num n s.nextBlk e.1 e.2) s

/-- R314: the stopped matrix operations of a block enter the engine of its new core, in their order. -/
def reenterMx (s : State) (b : Nat) : State :=
  let t := (getCore s (coreOf s (32 * b))).cyc
  let order := ((blockMx s b).insertionSort (fun x y => x.2.entry < y.2.entry ∨ (x.2.entry = y.2.entry ∧ x.1.id ≤ y.1.id))).map (fun e => e.1.id)
  { s with ops := s.ops.map (fun o => match o.kind with
      | .matrix m => if blkOf o.w = b then { o with kind := .matrix { m with started := false, entry := t * 2 ^ 15 + order.idxOf o.id } } else o
      | _ => o) }

/-- Puts a saved block back on a core: its context is checked and read (R445). The SW lines of the core's L1 go, which may be older than what the
block has written and read (R239). -/
def restoreBlock (s : State) (b cl : Nat) (p : Placed) : State :=
  let x := getBlock s b
  match s.sslots.find? (fun e => match e.2 with | some y => decide (y.blk = b) | none => false) with
  | none => s
  | some e =>
    let slot := e.1 % 64
    let core := 48 * x.die + p.1
    let s := dropCache (fun _ => true) (wbL1 (fun _ => true) s core) (l1Of core)
    let s1 := setBlock { s with sslots := sset none s.sslots e.1 none } b { x with state := 1, core := p.1, cluster := cl }
    let s2 := p.2.foldl (fun s sp => setWarp s (32 * b + sp.warp) { getWarp s (32 * b + sp.warp) with quarter := sp.quarter, slot := sp.slot, shadow := sp.shadow }) s1
    if !ctxOk s2 b slot then containBlock s2 b 6 0x46 0
    else fillMem (reenterMx (loadCtx s2 b slot) b) (ctxBase s2 x.die slot) 32 (rdMem s2 (ctxBase s2 x.die slot) 32 / 4 * 4 + rdMem s2 (ctxBase s2 x.die slot) 32 % 2)

/-- Places the next blocks of a node. -/
def dispatchNode (s : State) (num : Nat) (n : Node) (ps : List Placed) : State :=
  if (savedReady s n).isEmpty then
    let gs := newGroups n
    let lins := gs.flatten
    let s1 := setNode s num (some { n with next := (lins.getLast?.getD n.next) + 1 })
    (gs.foldl (fun (acc : State × List Placed) g => (startGroup acc.1 num n (g.zip acc.2), acc.2.drop g.length)) (s1, ps)).1
  else
    let bs := resumeGroup s n
    let s1 := setNode s num (some { n with saved := n.saved.filter (fun y => !bs.contains y) })
    ((bs.zip ps).foldl (fun s e => restoreBlock s e.1 (getBlock s e.1).cluster e.2) s1)

/-- BLOCK_DISPATCH (R361): the next blocks of a die, if some can be placed. -/
def blockDispatch (die : Nat) (s : State) : Option State :=
  (findPlace s (readyNodes s die)).map (fun e => dispatchNode s e.1 e.2.1 e.2.2)
def execBlockDispatch (die : Nat) (s : State) : Host.Outcome State Fault Refusal := .next ((blockDispatch die s).getD s)

/-! ### PRIORITY_PREEMPT (R362) -/

/-- How many of the blocks of a group find a core of their own, one after another. -/
def fitCount : List Need → List (Nat × Room) → Nat
  | [], _ => 0
  | n :: r, rooms =>
    match rooms.find? (fun e => (admitBlock e.2 n).isSome) with
    | some e => fitCount r (rooms.filter (fun x => x.1 ≠ e.1)) + 1
    | none => 0

/-- How far the next blocks of a node fit without some blocks of the die: blocks placed in whole groups, and blocks of the next group. -/
def fitReach (s : State) (n : Node) (without : List Nat) : Nat × Nat :=
  let cl := rcHas n.rcd 3
  let r := placeAll cl (nextNeeds s n) (roomsOf s n without)
  (r.1.length, match r.2 with
    | none => 0
    | some (g, rooms) => if cl then ((List.range 6).map (fun k => fitCount g (rooms.filter (fun e => e.1 / 8 = k)))).foldl max 0 else fitCount g rooms)

/-- The removal of a block and its mates lets the waiting block of the node fit: the first that finds no core. -/
def letsFit (s : State) (n : Node) (b : Nat) : Bool :=
  let old := fitReach s n []
  let new := fitReach s n (matesOf s b)
  decide (old.1 < new.1) || (decide (old.1 = new.1) && decide (old.2 < new.2))

/-- The block that is pre-empted for a node: the lowest priority, then the highest sequence number. -/
def victimOf (s : State) (n : Node) : Option Nat :=
  let p := nodePrio s n
  let cands := s.blocks.filter (fun e => decide (e.2.state = 1) && decide (e.2.die = n.die) && !e.2.disp && !e.2.coop && !e.2.killed && !e.2.saving &&
    decide (e.2.prio < p) && (matesOf s e.1).all (fun m => !(getBlock s m).coop && decide ((getBlock s m).prio < p)) && letsFit s n e.1)
  (cands.foldl (fun (v : Option (Nat × Block)) e => match v with
    | none => some e
    | some x => if e.2.prio < x.2.prio ∨ (e.2.prio = x.2.prio ∧ e.2.seq > x.2.seq) then some e else some x) none).map (·.1)

/-- A pre-emption of the DWS, or one whose split has gone, that can be finished. -/
def dwsSave (s : State) : Option SaveReq :=
  s.saves.find? (fun r => saveReady s r && (match r.who with
    | none => true
    | some (w, k) => (match (getSplit s w k).susp with | some (.save _ _) => false | _ => true)))

/-- The nodes for which the DWS of a die would pre-empt: ready nodes without room, up to a cooperative one. -/
def waitingNodes (s : State) : List (Nat × Node) → List Node
  | [] => []
  | e :: r => (if (placeNext s e.2).isNone then [e.2] else []) ++ (if rcCoop e.2.rcd && !isBatch e.2 then [] else waitingNodes s r)

/-- The victim on a die, where no pre-emption of the DWS is in progress. -/
def preemptOn (s : State) (die : Nat) : Option Nat :=
  if s.saves.any (fun r => decide (r.die = die) && r.who.isNone) then none
  else (waitingNodes s (readyNodes s die)).findSome? (victimOf s)

/-- A pre-emption to be finished or started. -/
def priorityPreempt (s : State) : Option State :=
  match dwsSave s with
  | some r => some (finishSave s r)
  | none => (List.range 4).findSome? (fun d => (preemptOn s d).bind (fun b => beginSave s b false none))
def execPriorityPreempt (s : State) : Host.Outcome State Fault Refusal := .next ((priorityPreempt s).getD s)

/-! ### NODE_RETIRE (R350, R360, R373) -/

/-- Every block of the node has ended; a root node's graph is complete and its batches have retired, whose blocks the completion record
counts (R350, R367). -/
def nodeOver (s : State) (n : Node) : Bool :=
  decide (n.ended ≥ n.count) &&
    (isBatch n || (match n.graph with
      | some g => (match getGraph s g with
        | some x => graphDone s g x && s.nodes.all (fun e => match e.2 with | some m => !(isBatch m && decide (m.graph = some g)) | none => true)
        | none => true)
      | none => true))

/-- The state of a node that retires (R360). -/
def nodeState (n : Node) : Nat := if n.killed then 3 else if n.code ≠ 0 then 2 else 1

/-- A node's retirement releases its dependents (R360). -/
def releaseDeps (s : State) (num : Nat) (n : Node) : State :=
  { s with nodes := s.nodes.map (fun e => (e.1, e.2.map (fun m => if m.deps.contains num then { m with deps := m.deps.filter (fun d => d ≠ num), marks := (n.out ++ m.marks).dedup, after := true } else m))) }

/-- Retires a node: a release at die scope, or at the wider scope of the completion record's update (R350, R360). -/
def retireNode (s : State) (num : Nat) (n : Node) : Except Wait State :=
  let code := if nodeState n = 2 then n.code else 0
  match crecUpdate (wbScope s n.die (max 3 (rcScope (launchRec s n))) (fun _ => true)) n.die (launchRec s n) n.denied n.done n.races 0 (nodeState n) code n.out with
  | .error w => .error w
  | .ok s1 =>
    let s2 := if n.nfy then postDws s1 n.die [0x503, n.id, rcLaunchid n.rcd, nodeState n, 0, 0, 0, 0] n.mask else s1
    let s3 := setNode (releaseDeps s2 num n) num none
    .ok (if isBatch n then (match n.graph with | some g => tickGraph s3 g | none => s3)
         else match n.graph with | some g => setGraph s3 g none | none => s3)

/-- The node of an id on a die. -/
def nodeById (s : State) (die id : Nat) : Option (Nat × Node) := (dieNodes s die).find? (fun e => e.2.id = id)

/-- NODE_RETIRE. -/
def execNodeRetire (die node : Nat) (s : State) : Host.Outcome State Fault Refusal :=
  match nodeById s die node with
  | none => .next s
  | some (num, n) =>
    if !nodeOver s n then .next s
    else match retireNode s num n with
      | .ok s1 => .next s1
      | .error w => .next (addStalls w s)

/-! ### What the DWS and the cores do next by themselves (log 2) -/

/-- An update of a completion record that does not wait for a page. -/
def notStalled (s : State) (r : Except Wait State) : Bool :=
  match r with
  | .error (.page d h sp g _) => !stallsOpen s d h sp g
  | _ => true

def pickBlocks (s : State) : Option Instr :=
  ((s.blocks.find? (fun e => blockOver s e.1 && notStalled s (endBlock s e.1))).map (fun e => Instr.blockComplete e.1)).or <|
  ((s.nodes.findSome? (fun e => match e.2 with
    | some n => if nodeOver s n && notStalled s (retireNode s e.1 n) then some (Instr.nodeRetire n.die n.id) else none
    | none => none))).or <|
  ((s.fwd.find? (fun e => (getBlock s e.1).state = 1)).map (fun e => Instr.forwardedTraffic e.1)).or <|
  (if (dwsSave s).isSome then some .priorityPreempt else none).or <|
  ((List.range 4).findSome? (fun d => if recvReady s d then some (Instr.mbrecvReceive d) else none)).or <|
  (if (reservable s).isSome then some .graphReservation else none).or <|
  (if (grantable s).isSome then some .rallocGrant else none).or <|
  (if (timedOut s).isSome then some .batchTimeout else none).or <|
  ((List.range 4).findSome? (fun d => if (nodeMatch d s).isSome then some (Instr.nodeMatch d) else none)).or <|
  ((List.range 4).findSome? (fun d => if (findPlace s (readyNodes s d)).isSome then some (Instr.blockDispatch d) else none)).or <|
  (if (priorityPreempt s).isSome then some .priorityPreempt else none)

end Sys2Proof.Machine
end

