-- ==== Sys2Proof/Machine/RayMath.lean ====
section
/-!
DEFINITION. The arithmetic of the Ray Traversal Unit: rays, box and triangle tests, instances, keys of hits and of hints (R378 to
R384, R395).
-/
namespace Sys2Proof.Machine

/-! ### binary32 (R379, R382, R383) -/

def rVal (x : Nat) : FVal := unpack fmtF32 x
def rNan (x : Nat) : Bool := (rVal x).isNan
/-- One rounding step with RNE; a NaN operand gives a NaN. -/
def rAdd (a b : Nat) : Nat := if rNan a || rNan b then defaultNaN fmtF32 else (roundSum fmtF32 .rne false [rVal a, rVal b]).bits
def rSub (a b : Nat) : Nat := if rNan a || rNan b then defaultNaN fmtF32 else (roundSum fmtF32 .rne false [rVal a, negVal (rVal b)]).bits
def rMul (a b : Nat) : Nat := if rNan a || rNan b then defaultNaN fmtF32 else (fmulVal fmtF32 .rne false (rVal a) (rVal b) (rVal b)).bits
def rDiv (a b : Nat) : Nat := if rNan a || rNan b then defaultNaN fmtF32 else (divVal fmtF32 .rne false (rVal a) (rVal b)).bits
def rAbs (a : Nat) : Nat := a % 2 ^ 31
def rOne : Nat := 0x3F800000

/-- a < b and a ≤ b as numbers: zeros are equal, a NaN fails. -/
def vLt (a b : FVal) : Bool := !a.isNan && !b.isNan && !(a.isZero && b.isZero) && fBelow a b
def rLt (a b : Nat) : Bool := vLt (rVal a) (rVal b)
def rLe (a b : Nat) : Bool := !rNan a && !rNan b && !rLt b a
/-- The greater and the lesser, with -0 below +0 (R114). -/
def rMax (a b : Nat) : Nat := if fBelow (rVal a) (rVal b) then b else a
def rMin (a b : Nat) : Nat := if fBelow (rVal b) (rVal a) then b else a

/-! ### Rays (R381) -/

/-- Component i of a ray of eight binary32 values: origin 0 to 2, tmin 3, direction 4 to 6, tmax 7. -/
def rayAt (r i : Nat) : Nat := r / 2 ^ (32 * i) % 2 ^ 32
def rayO (r i : Nat) : Nat := rayAt r i
def rayD (r i : Nat) : Nat := rayAt r (4 + i)
def rayMin (r : Nat) : Nat := rayAt r 3
def rayMax (r : Nat) : Nat := rayAt r 7
def packRay (vs : List Nat) : Nat := vs.foldr (fun x v => x % 2 ^ 32 + 2 ^ 32 * v) 0
def rFinite (x : Nat) : Bool := match rVal x with | .fin .. => true | _ => false

def rayValid (r : Nat) : Bool :=
  (List.range 3).all (fun i => rFinite (rayO r i) && rFinite (rayD r i)) && !(List.range 3).all (fun i => (rVal (rayD r i)).isZero) &&
    rFinite (rayMin r) && rLe 0 (rayMin r) && !rNan (rayMax r) && rLe (rayMin r) (rayMax r)

/-! ### Box test (R382) -/

/-- (bound - o) / d rounded in a direction; none where it is no number. A quotient that is zero has the sign the machine gives it (log 19). -/
def boxQuot (mode : Rm) (bound o d : Nat) : Option Nat :=
  let diff := match rVal bound, rVal o with
    | .nan .., _ => none
    | _, .nan .. => none
    | .inf n, .inf p => if n = p then none else some (FVal.inf n)
    | .inf n, _ => some (.inf n)
    | _, .inf p => some (.inf !p)
    | a, b => let ts := [a, negVal b]; let x := minExp ts; let v := sumAt ts x; some (.fin (decide (v < 0)) v.natAbs x)
  match diff, rVal d with
  | none, _ => none
  | _, .nan .. => none
  | some (.inf _), .inf _ => none
  | some u, v => if u.isZero || (match v with | .inf _ => true | _ => false) then some (fmtF32.sign (Config.zeroSign bound o d)) else some (divVal fmtF32 mode false u v).bits

/-- The interval of one axis; none for a miss. -/
def boxAxis (lo hi o d : Nat) : Option (Nat × Nat) :=
  if rNan lo || rNan hi || rLt hi lo || rNan d || rNan o then none
  else if (rVal d).isZero then (if rLe lo o && rLe o hi then some (0xFF800000, 0x7F800000) else none)
  else
    match boxQuot .rdn lo o d, boxQuot .rdn hi o d, boxQuot .rup lo o d, boxQuot .rup hi o d with
    | some a, some b, some a', some b' => some (rMin a b, rMax a' b')
    | _, _, _, _ => none

/-- The box test of a ray: entry and exit; none where some axis misses by itself. A box is six values: lo, then hi. -/
def boxTest (r box : Nat) : Option (Nat × Nat) :=
  (List.range 3).foldl (fun acc i =>
    match acc, boxAxis (rayAt box i) (rayAt box (3 + i)) (rayO r i) (rayD r i) with
    | some (e, x), some (n, f) => some (rMax e n, rMin x f)
    | _, _ => none) (some (rayMin r, rayMax r))

def boxHit (t : Nat × Nat) : Bool := rLe t.1 t.2

/-! ### Triangle test (R383) -/

def vSub (a b : List Nat) : List Nat := List.zipWith rSub a b
def cross (a b : List Nat) : List Nat :=
  let c (i j : Nat) : Nat := rSub (rMul (a.getD i 0) (b.getD j 0)) (rMul (a.getD j 0) (b.getD i 0))
  [c 1 2, c 2 0, c 0 1]
def dot (a b : List Nat) : Nat :=
  rAdd (rAdd (rMul (a.getD 0 0) (b.getD 0 0)) (rMul (a.getD 1 0) (b.getD 1 0))) (rMul (a.getD 2 0) (b.getD 2 0))

/-- t, u and v of a triangle of nine values; none where the determinant decides a miss. -/
def triTest (r tri : Nat) : Option (Nat × Nat × Nat) :=
  let vert (k : Nat) : List Nat := (List.range 3).map (fun i => rayAt tri (3 * k + i))
  let o := (List.range 3).map (rayO r)
  let d := (List.range 3).map (rayD r)
  let e1 := vSub (vert 1) (vert 0)
  let e2 := vSub (vert 2) (vert 0)
  let s := vSub o (vert 0)
  let p := cross d e2
  let q := cross s e1
  let det := dot e1 p
  if rNan det || (rVal det).isZero then none
  else
    let inv := rDiv rOne det
    some (rMul (dot e2 q) inv, rMul (dot s p) inv, rMul (dot d q) inv)

/-- The hit over [lo, hi]. -/
def triHit (lo hi : Nat) (x : Nat × Nat × Nat) : Bool :=
  rLe 0 x.2.1 && rLe 0 x.2.2 && rLe (rAdd x.2.1 x.2.2) rOne && rLe lo x.1 && rLe x.1 hi

/-! ### Instances (R379) -/

/-- The ray in the space below an instance node whose matrix has twelve values. -/
def objectRay (m r : Nat) : Nat :=
  let e (i j : Nat) : Nat := rayAt m (4 * i + j)
  let lin (i : Nat) (f : Nat → Nat) : Nat := rAdd (rAdd (rMul (e i 0) (f 0)) (rMul (e i 1) (f 1))) (rMul (e i 2) (f 2))
  packRay ((List.range 3).map (fun i => rAdd (lin i (rayO r)) (e i 3)) ++ [rayMin r] ++ (List.range 3).map (fun i => lin i (rayD r)) ++ [rayMax r])

/-! ### Keys of hits (R384) -/

/-- Key (t, primitive, instance) of a lies below that of b. -/
def hitBelow (a b : RayHit) : Bool :=
  rLt a.t.toNat b.t.toNat || (!rLt b.t.toNat a.t.toNat && (decide (a.prim < b.prim) || (decide (a.prim = b.prim) && decide (a.inst < b.inst))))

/-- The lesser of a hit and the best so far. -/
def leastHit (b : Option RayHit) (h : RayHit) : Option RayHit :=
  match b with
  | none => some h
  | some x => if hitBelow h x then some h else some x

/-- A result or a candidate in its three words (R387). -/
def hitWords (h : RayHit) : List TWord :=
  [TWord.valid (BitVec.ofNat 64 (h.t.toNat + h.prim * 2 ^ 32)), TWord.valid (BitVec.ofNat 64 (h.u.toNat + h.v.toNat * 2 ^ 32)),
   TWord.valid (BitVec.ofNat 64 (h.inst + h.kind * 2 ^ 32))]
/-- A miss. -/
def missWords : List TWord := [⟨.n, 0xFFFFFFFF7F800000⟩, ⟨.n, 0⟩, ⟨.n, 0xFFFFFFFF⟩]

/-! ### Keys of hints (R395) -/

/-- floor(x * 2^(-k)) of a finite value. -/
def floorScaled (x : Nat) (k : Int) : Int :=
  match rVal x with
  | .fin neg m e =>
    let y := e - k
    if y ≥ 0 then (let v : Int := ((m * 2 ^ y.toNat : Nat) : Int); if neg then -v else v)
    else
      let q := m / 2 ^ (-y).toNat
      if neg then (if m % 2 ^ (-y).toNat = 0 then -(q : Int) else -(q : Int) - 1) else (q : Int)
  | _ => 0

def clampInt (lo hi v : Int) : Int := max lo (min hi v)

/-- x with the sign of y, the sign of a zero being +1. -/
def timesSgn (x y : Nat) : Nat := if rLt y 0 then rMul x 0xBF800000 else x

/-- The set within its partition, and the check. -/
def hintKey (r : Nat) (k : Int) : Nat × Nat :=
  let c (i : Nat) : Int := clampInt (-2 ^ 31) (2 ^ 31 - 1) (floorScaled (rayO r i) k)
  let dx := rayD r 0
  let dy := rayD r 1
  let dz := rayD r 2
  let n := rAdd (rAdd (rAbs dx) (rAbs dy)) (rAbs dz)
  let p0 := rDiv dx n
  let q0 := rDiv dy n
  let fold := rLt dz 0
  let p := if fold then timesSgn (rSub rOne (rAbs q0)) p0 else p0
  let q := if fold then timesSgn (rSub rOne (rAbs p0)) q0 else q0
  let u (x : Nat) : Int := clampInt 0 255 (floorScaled (rMul (rAdd x rOne) 0x42FF0000) 0)
  let h := ((c 0 * 0x9E3B + c 1 * 0x7F4D + c 2 * 0x3C6F + (256 * u p + u q) * 0x1B8F) % 2 ^ 32).toNat
  (h % 128, h / 128 % 2 ^ 16)

end Sys2Proof.Machine
end

