-- ==== Sys2Proof/Machine/Ray.lean ====
section
/-!
DEFINITION. The ray-traversal instructions, the queries of the Ray Traversal Unit and the Leaf Hint Table (R377 to R403).
-/
namespace Sys2Proof.Machine

/-! ### Rows (R388) -/

/-- A group of n vector registers below the warp's allocation; `sub` is the subcode for 0xFF (R51, R61). -/
def rayGroup (sub : Nat) (get : Fields → BitVec 8) (n : Nat) : Chk := fun e =>
  let x := get e.f
  if isImm x then some sub
  else if 0xE6 ≤ x.toNat then some 0x01
  else if !isV x then some 0x04 else if x.toNat + n - 1 ≥ e.vregs then some 0x02 else none

def specRay (op : BitVec 9) : OpSpec := { specNone op with cls := .e, cnt := some .ex }
def specRtbind : OpSpec := { specRay 0x190 with a := scalarA, b := scalarB, c := scalarC, reads := rdABC, cnt := none }
def specRtrace : OpSpec :=
  { specRay 0x191 with
    a := rayGroup 0x03 (·.a) 4, md := Chk.and (mdBits 0xF) (chkIf 0x04 (fun e => decide ((modOf e.f).toNat % 4 ≠ 2))), reads := fun f => groupCodes f.a 4 }
def specRtres : OpSpec := { specRay 0x192 with d := rayGroup 0x03 (·.d) 3 }
def specRtcand : OpSpec := { specRay 0x193 with d := rayGroup 0x03 (·.d) 3 }
def specRtacc : OpSpec := { specRay 0x194 with a := vecScalarA, reads := rdA, cnt := none }
def specRtbox : OpSpec :=
  { specRay 0x195 with
    d := dstD, a := Chk.and (rayGroup 0x03 (·.a) 4) (scalarRule · 0), b := Chk.and (rayGroup 0x04 (·.b) 3) (scalarRule · 0), reads := fun f => groupCodes f.a 4 ++ groupCodes f.b 3 }
def specRttri : OpSpec :=
  { specRay 0x196 with
    d := rayGroup 0x03 (·.d) 2, a := rayGroup 0x03 (·.a) 4, b := rayGroup 0x04 (·.b) 5, reads := fun f => groupCodes f.a 4 ++ groupCodes f.b 5 }
def specLhtinv : OpSpec :=
  { specRay 0x197 with md := Chk.and (mdBits 0x1F) (chkIf 0x04 (fun e => decide ((modOf e.f).toNat % 32 ≤ 16))), cnt := none }
def specLhtstat : OpSpec := { specRay 0x198 with d := Chk.and dstD (chkIf 0x04 (fun e => isV e.f.d || isS e.f.d)), md := mdBits 0x1F }

/-! ### Contexts (R389) -/

def ctlPart (c : RayCtx) : Nat := c.ctl.toNat % 16
def ctlExp (c : RayCtx) : Int := ((c.ctl >>> 4).truncate 5 : BitVec 5).toInt
def ctlPred (c : RayCtx) : Bool := c.ctl.getLsbD 9
def ctlVer (c : RayCtx) : Bool := c.ctl.getLsbD 10
/-- The version tag of the context. -/
def ctxTag (c : RayCtx) : Nat := if ctlVer c then c.handle.toNat % 2 ^ 16 else c.ctl.toNat / 2 ^ 16 % 2 ^ 16

/-- A reference without reserved bits (R378). -/
def refClean (r : Nat) : Bool := decide (r / 2 ^ 56 = 0 ∧ r / 8 % 8 = 0 ∧ r % 8 < 4)

/-- The operands of rtbind are malformed. -/
def bindBad (a b c : Nat) : Bool :=
  !refClean a || decide (a % 8 = 0) || decide (c / 2 ^ 32 ≠ 0) || decide (c / 2 ^ 11 % 32 ≠ 0) || (c.testBit 10 && decide (b / 2 ^ 44 ≠ 0))

/-- rtbind. -/
def rtbindBody (c : Ctx) (s : State) : State :=
  let l := lowLane c.sp.mask
  let av := opA s c l
  let bv := opB s c l
  let cv := opC s c l
  let vs := if cv.tag = .v ∧ cv.data.getLsbD 10 = false then [av, cv] else [av, bv, cv]
  match vs.find? (fun x => x.tag = .x) with
  | some x => raise c (poisonTrap c.sp.mask ((actives c).map (fun l => (l, x.data)))) s
  | none =>
    if vs.any (fun x => x.tag = .n) then advance c s
    else if bindBad av.data.toNat bv.data.toNat cv.data.toNat then raiseAll c causeIllegalOperand 0x0A s
    else
      let wp := getWarp s c.w
      advance c (setWarp s c.w { wp with ray := some { root := av.data, handle := bv.data, ctl := cv.data },
                                         rayPrev := if wp.rayCyc = c.t then wp.rayPrev else wp.ray, rayCyc := c.t })
def execRtbind (f : Fields) (s : State) := issue specRtbind f s rtbindBody

/-- The context that a ray instruction issued in a cycle uses. -/
def boundCtx (wp : Warp) (t : Nat) : Option RayCtx := if wp.rayCyc = t then wp.rayPrev else wp.ray

/-! ### Node fetches (R380, R399, R400) -/

inductive NodeRes where
  | node (v : Nat) (l : Leaf) (key : Nat)
  | fault (cause va : Nat)
  | stall (w : Wait)
  /-- An engine owns the node's line (R399), or the link to its package is down (R404). -/
  | held

/-- A byte as the unit reads it: the block's provisional byte, a dirty byte of the core's L1 on a SW page, the die cache's or the home's. -/
def nodeByte (s : State) (a : Agent) (sw : Bool) (key : Nat) : Byte :=
  match provByte s a.blk key with
  | some b => b
  | none =>
    if sw then
      match swByte s (l1Of a.core) key with
      | some (b, true) => b
      | _ => dieByte s a.die key
    else rdByte s key

/-- The 64 bytes of a node, read at one instant. -/
def fetchNode (s : State) (a : Agent) (routes : List (Nat × Word)) (ctx : RayCtx) (va : Nat) : NodeRes :=
  match checkAddr s a va 64 .load with
  | .fail _ cause _ => .fault cause va
  | .stall table host => .stall (pageWait a [va] 3 table host)
  | .ok l key0 =>
    let h := ctx.handle.toNat
    let view := l.ver && ctlVer ctx
    let step := if view ∧ h / 2 ^ 32 % 4096 = vdbRegion (rdVdb s l.base) ∧ stepLive s (h / 2 ^ 32 % 4096) (h % 2 ^ 32) then stepAddr s l.base (va % 2 ^ 16) (h % 2 ^ 32) else none
    match (if view then step else some key0) with
    | none => .fault causeVersionRetired va
    | some key =>
      if ownedRange s key 64 || peerHeld s routes key then .held
      else match dataFault s a.blk key 64 with
      | some cause => .fault cause va
      | none =>
        let sw := decide (l.coh = 1) && !view
        .node ((List.range 64).foldl (fun v i => v + (nodeByte s a sw (key + i)).toNat * 2 ^ (8 * i)) 0) (if view then { l with chk := false } else l) key

/-- What a fetch leaves: the marks of its page, and its record on a CHK page (R219). -/
def noteFetch (s : State) (a : Agent) (va : Nat) (l : Leaf) (key : Nat) : State :=
  let k := raceSpot s l va key
  raceEngine (raceEngine (touch s a va l false) a.blk k l .load) a.blk (k + 32) l .load

/-! ### Traversal (R379, R380, R384 to R386) -/

def frameVa (f : RayFrame) : Nat := f.ref / 64 % 2 ^ 50 * 64

/-- What a node gives: the frames to visit next, a hit, or a fault at the node. -/
inductive VisitRes where
  | go (push : List RayFrame) (hit : Option (RayHit × Bool))
  | fault

/-- The frame of a child whose box the ray meets. -/
def childFrame (f : RayFrame) (ref box : Nat) : List RayFrame :=
  if ref % 8 = 0 then []
  else match boxTest f.ray box with
    | none => []
    | some t => if boxHit t then [{ f with ref := ref, depth := f.depth + 1, lo := BitVec.ofNat 32 (rMax f.lo.toNat t.1), hi := BitVec.ofNat 32 (rMin f.hi.toNat t.2) }] else []

/-- The leaf's hit in the frame, with its opaque flag; none for a miss. -/
def leafHit (f : RayFrame) (v : Nat) : Option (RayHit × Bool) :=
  match triTest f.ray v with
  | none => none
  | some x =>
    if triHit (rayMin f.ray) (rayMax f.ray) x && rLe f.lo.toNat x.1 && rLe x.1 f.hi.toNat then
      some ({ t := BitVec.ofNat 32 x.1, prim := bitsOf v 319 288, u := BitVec.ofNat 32 x.2.1, v := BitVec.ofNat 32 x.2.2, inst := f.inst, kind := 0, leaf := f.ref },
            v.testBit 320)
    else none

/-- A node of 64 bytes met in a frame. -/
def visitNode (f : RayFrame) (v : Nat) : VisitRes :=
  match f.ref % 8 with
  | 1 =>
    let r0 := bitsOf v 447 384
    let r1 := bitsOf v 511 448
    if refClean r0 && refClean r1 then .go (childFrame f r0 (v % 2 ^ 192) ++ childFrame f r1 (v / 2 ^ 192 % 2 ^ 192)) none else .fault
  | 2 => if v / 2 ^ 352 ≠ 0 ∨ bitsOf v 351 321 ≠ 0 then .fault else .go [] (leafHit f v)
  | 3 =>
    let root := bitsOf v 447 384
    if !refClean root ∨ root % 8 = 0 ∨ root % 8 = 3 ∨ bitsOf v 511 480 ≠ 0 then .fault
    else .go [{ f with ref := root, depth := f.depth + 1, ray := objectRay (v % 2 ^ 384) f.ray, inst := bitsOf v 479 448 }] none
  | _ => .fault

/-- How a pass goes on with a hit: the best, and the candidates. -/
def takeHit (q : Query) (best : Option RayHit) (cands : List RayHit) (h : RayHit) (flag : Bool) : Option RayHit × List RayHit :=
  if flag || q.opq then (leastHit best { h with kind := 1 }, cands)
  else if !q.any then (leastHit best { h with kind := 3 }, cands)
  else
    let x := { h with kind := 3 }
    if q.unord then (best, if q.drain || best.any (fun b => hitBelow b x) then cands else cands ++ [x])
    else (best, if q.last.any (fun b => !hitBelow b x) then cands else cands ++ [x])

/-- The frame of the root. -/
def rootFrame (q : Query) : RayFrame :=
  { ref := q.ctx.root.toNat, depth := 0, ray := q.ray, lo := BitVec.ofNat 32 (rayMin q.ray), hi := BitVec.ofNat 32 (rayMax q.ray), inst := 2 ^ 32 - 1 }

/-! ### The Leaf Hint Table (R394 to R398) -/

def getQuery (s : State) (w lane : Nat) : Query := sget Query.idle s.rays (lkey w lane)
def setQuery (s : State) (w lane : Nat) (q : Query) : State := { s with rays := sset Query.idle s.rays (lkey w lane) q }

def lhtKey (core part set_ : Nat) : Nat := 2048 * core + 128 * part + set_
def lhtWays (s : State) (key : Nat) : List LhtWay := sget [] s.lht key
def setWays (s : State) (key : Nat) (ws : List LhtWay) : State := { s with lht := sset [] s.lht key ws }
def lhtCount (s : State) (core part : Nat) : Nat × Nat := sget (0, 0) s.lhtCnt (16 * core + part)
def bumpCount (s : State) (core part used conf : Nat) : State :=
  let x := lhtCount s core part
  { s with lhtCnt := sset (0, 0) s.lhtCnt (16 * core + part) (min (2 ^ 24 - 1) (x.1 + used), min (2 ^ 24 - 1) (x.2 + conf)) }

/-- The set and the check of a query on a core. -/
def queryKey (core : Nat) (q : Query) : Nat × Nat :=
  let h := hintKey q.ray (ctlExp q.ctx)
  (lhtKey core (ctlPart q.ctx) h.1, h.2)
def matchWay (q : Query) (check : Nat) (x : LhtWay) : Bool := decide (x.check = check ∧ x.tag = ctxTag q.ctx)

/-- What a lookup gives: the state, the bound and its leaf. -/
inductive PredRes where
  | ok (s : State) (bound : Option RayHit) (hint : Option Nat)
  | held

/-- R396 step 1: the leaf that the lookup finds is fetched and tested; an opaque one that is hit gives the bound. A leaf whose page is not resident,
or whose fetch fails, gives none (log 44). -/
def predict (s : State) (a : Agent) (routes : List (Nat × Word)) (q : Query) : PredRes :=
  if !q.pred then .ok s none none
  else
    let k := queryKey a.core q
    let ws := lhtWays s k.1
    match ws.find? (fun x => matchWay q k.2 x && decide (x.conf ≥ 1)) with
    | none => .ok s none none
    | some x =>
      let s1 := setWays s k.1 (x :: ws.filter (fun y => y ≠ x))
      match fetchNode s1 a routes q.ctx x.leaf with
      | .held => .held
      | .node v l key =>
        let s2 := noteFetch s1 a x.leaf l key
        (match visitNode { rootFrame q with ref := x.leaf + 2 } v with
          | .go _ (some (h, flag)) => if flag || q.opq then .ok (bumpCount s2 a.core (ctlPart q.ctx) 1 0) (some h) (some x.leaf) else .ok s2 none none
          | _ => .ok s2 none none)
      | _ => .ok s1 none none

/-- R396: records the leaf of a result. -/
def recordLeaf (s : State) (a : Agent) (q : Query) (used : Option Nat) (best : Option RayHit) : State :=
  match q.pred, best with
  | true, some h =>
    if h.inst ≠ 2 ^ 32 - 1 then s
    else
      let leaf := h.leaf / 64 % 2 ^ 50 * 64
      let s1 := if used = some leaf then bumpCount s a.core (ctlPart q.ctx) 0 1 else s
      let k := queryKey a.core q
      let ws := lhtWays s1 k.1
      (match ws.find? (matchWay q k.2) with
        | some x =>
          let y := if x.leaf = leaf then { x with conf := min 3 (x.conf + 1) } else if x.conf ≤ 1 then { x with leaf := leaf, conf := 1 } else { x with conf := x.conf - 1 }
          setWays s1 k.1 (y :: ws.filter (fun z => z ≠ x))
        | none => setWays s1 k.1 (({ tag := ctxTag q.ctx, check := k.2, leaf := leaf, conf := 1 } : LhtWay) :: ws.take 3))
  | _, _ => s

/-! ### Passes of a query (R385, R386, R390 to R392, R396) -/

/-- The query ends in a fault. -/
def faultQuery (q : Query) (cause va : Nat) : Query :=
  { q with st := 3, fault := some (payload cause va), cands := [], pending := none, more := false, stack := [], walk := none, drain := false }

/-- A query whose every candidate has been rejected, and which is done (R391). -/
def closeQuery (q : Query) : Query := { q with st := 3, cands := [], pending := none, more := false, stack := [], walk := none, drain := false }

/-- The buffer of an ordered query after a pass: the 16 least candidates below O. -/
def bufferOf (q : Query) (o : Option RayHit) (cands : List RayHit) : Query :=
  let cs := (cands.filter (fun h => o.all (fun b => hitBelow h b))).insertionSort (fun x y => !hitBelow y x)
  { q with cands := cs.take 16, more := decide (cs.length > 16), walk := none }

/-- A pass from the root. -/
def rootWalk (q : Query) (bound : Option RayHit) (hint : Option Nat) : RayWalk :=
  { stack := [rootFrame q], best := none, cands := [], bound := bound, hint := hint }

/-- The pass of a waiting query: from the root in order, or the continued traversal (R385, R386). -/
def waitWalk (q : Query) : RayWalk :=
  if q.unord then { stack := q.stack, best := q.best, cands := [], bound := none, hint := none } else rootWalk q none none

/-- R396 step 2: a box whose entry exceeds the least of the bound's t and the best t is skipped. -/
def culled (k : RayWalk) (f : RayFrame) : Bool :=
  match k.bound with
  | none => false
  | some b => !rLe f.lo.toNat b.t.toNat || k.best.any (fun h => !rLe f.lo.toNat h.t.toNat)

/-- The pass with the boxes that it skips taken off. -/
def trim (k : RayWalk) : RayWalk := { k with stack := k.stack.dropWhile (culled k) }

/-- No node is left to visit, or the buffer of an unordered query is full. -/
def walkOver (q : Query) (k : RayWalk) : Bool := k.stack.isEmpty || (q.unord && !q.drain && decide (k.cands.length ≥ 16))

/-- R396 step 3: the pass has reached no member at or below its bound. -/
def boundMissed (k : RayWalk) : Bool := k.bound.any (fun b => !k.best.any (fun h => !hitBelow b h))

/-- What the end of a pass makes of a running query, and of a waiting one. -/
def endRun (q : Query) (k : RayWalk) : Query :=
  if !q.any then { q with st := 3, best := k.best, walk := none }
  else if q.unord then { q with st := 2, best := k.best, cands := k.cands, stack := k.stack, more := !k.stack.isEmpty, walk := none }
  else bufferOf { q with st := 2, best := k.best } k.best k.cands
def endWait (q : Query) (k : RayWalk) : Query :=
  if q.drain then closeQuery { q with best := k.best }
  else if q.unord then { q with best := k.best, cands := k.cands, stack := k.stack, more := !k.stack.isEmpty, walk := none }
  else bufferOf q q.best k.cands

/-- A query after a visit: its pass goes on, begins anew without its bound, or ends. -/
def afterVisit (s : State) (a : Agent) (q : Query) (k : RayWalk) : State × Query :=
  if !walkOver q k then (s, { q with walk := some k })
  else if boundMissed k then (s, { q with walk := some (rootWalk q none k.hint) })
  else if q.st = 1 then (if q.unord then s else recordLeaf s a q k.hint k.best, endRun q k)
  else (s, endWait q k)

/-- What a step of a query gives: the query after it, a page it waits for, or nothing yet. -/
inductive QueryRes where
  | ok (s : State) (q : Query)
  | stall (w : Wait)
  | held

/-- One node of a pass is visited: the last on the stack (R377, R380). -/
def visitTop (s : State) (a : Agent) (routes : List (Nat × Word)) (q : Query) (k : RayWalk) : QueryRes :=
  match k.stack with
  | [] => .ok (afterVisit s a q k).1 (afterVisit s a q k).2
  | f :: r =>
    if f.depth > 64 then .ok s (faultQuery q causeIllegalOperand (frameVa f))
    else match fetchNode s a routes q.ctx (frameVa f) with
      | .held => .held
      | .stall w => .stall w
      | .fault cause va => .ok (walked s a va) (faultQuery q cause va)
      | .node v l key =>
        let s1 := noteFetch s a (frameVa f) l key
        match visitNode f v with
        | .fault => .ok s1 (faultQuery q causeIllegalOperand (frameVa f))
        | .go push hit =>
          let x := match hit with
            | some (h, flag) => takeHit q k.best k.cands h flag
            | none => (k.best, k.cands)
          let e := afterVisit s1 a q (trim { k with stack := push ++ r, best := x.1, cands := x.2 })
          .ok e.1 e.2

/-- The next step of a query's pass: it begins, with the lookup of a predicted one, or visits a node. -/
def passStep (s : State) (a : Agent) (routes : List (Nat × Word)) (q : Query) : QueryRes :=
  match q.walk with
  | some k => visitTop s a routes q k
  | none =>
    if q.st = 1 then
      match predict s a routes q with
      | .held => .held
      | .ok s1 bound hint => .ok s1 { q with walk := some (rootWalk q bound hint) }
    else .ok s { q with walk := some (waitWalk q) }

/-! ### Results (R387, R391, R392) -/

/-- The words of a query's result. -/
def resultWords (q : Query) (old : List TWord) : List TWord :=
  if q.st ≠ 3 then old.map (fun x => ⟨.n, x.data⟩)
  else match q.fault, q.best with
    | some p, _ => List.replicate 3 ⟨.x, p⟩
    | none, some h => hitWords h
    | none, none => missWords

/-- The old words of three registers under N. -/
def oldThree (s : State) (w d lane : Nat) : List TWord := (List.range 3).map (fun j => ⟨.n, (rdReg s w (d + j) lane).data⟩)

/-- The next candidate of a waiting query whose buffer need not be filled: the query after it, and the words. -/
def takeCand (q : Query) (old : List TWord) : Query × List TWord :=
  match q.fault with
  | some p => (q, List.replicate 3 ⟨.x, p⟩)
  | none =>
    if q.st ≠ 2 ∨ !q.any then (q, old)
    else match q.cands with
      | h :: r => ({ q with cands := r, pending := some h, last := some h }, hitWords h)
      | [] => ({ q with st := 3, pending := none }, old)

/-- `rtcand` of the lane needs a pass. -/
def candWaits (q : Query) : Bool := decide (q.st = 2) && q.fault.isNone && q.cands.isEmpty && q.more

/-- The words of a lane at the registers of its group. -/
def laneWrites (d lane : Nat) (ws : List TWord) : List (Nat × Nat × TWord) := groupWrites d lane ws

/-! ### rtrace (R390) -/

/-- A lane's ray words. -/
def rayWords (s : State) (c : Ctx) (lane : Nat) : List TWord := (List.range 4).map (fun j => readReg s c.w (c.f.a.toNat + j) lane c.t)
def joinRay (ws : List TWord) : Nat := ws.foldr (fun x v => x.data.toNat + 2 ^ 64 * v) 0

/-- A launched lane's earlier query leaves nothing behind. -/
def abandonLane (s : State) (w lane : Nat) : State :=
  { s with ops := s.ops.filterMap (fun o => match o.kind with
    | .ray k d ls ws =>
      if o.w = w ∧ ls.contains lane then
        (let r := ls.filter (fun l => l ≠ lane)
         if r.isEmpty ∧ k = 0 then none
         else some { o with kind := .ray k d r ws, dst := o.dst.filter (fun e => !(decide (e.2 = lane) && decide (k ≠ 0))) })
      else some o
    | _ => some o) }

def rtraceBody (c : Ctx) (s : State) : State :=
  let rays := (actives c).map (fun l => (l, rayWords s c l))
  match rays.filterMap (fun e => (e.2.find? (fun x => x.tag = .x)).map (fun x => (e.1, x.data))) with
  | x :: xs => raise c (poisonTrap c.sp.mask (x :: xs)) s
  | [] =>
    match boundCtx (getWarp s c.w) c.t with
    | none => raiseAll c causeIllegalOperand 0x0C s
    | some ctx =>
      let go := rays.filter (fun e => !e.2.any (fun x => x.tag = .n))
      let md := (modOf c.f).toNat
      let mk (ws : List TWord) : Query :=
        let ray := joinRay ws
        { Query.idle with st := if rayValid ray then 1 else 3, ray := ray, ctx := ctx, any := md.testBit 0, unord := md.testBit 1, opq := md.testBit 3,
                          pred := ctlPred ctx && !md.testBit 1 && !md.testBit 2, sup := c.sp.sup }
      let s1 := go.foldl (fun s e => setQuery (abandonLane s c.w e.1) c.w e.1 (mk e.2)) s
      let run := (go.filter (fun e => (mk e.2).st = 1)).map (·.1)
      advance c (if run.isEmpty then s1 else stampOp c (startOp s1 c.w (maskOf (fun l => run.contains l)) (some .ex) [] (.ray 0 0 run [])))
def execRtrace (f : Fields) (s : State) := issue specRtrace f s rtraceBody

/-- An access of the lane's thread before the operation is outstanding (R399). -/
def rayEarlier (s : State) (o : Op) (lane : Nat) : Bool :=
  s.ops.any (fun e => decide (e.id < o.id) && decide (e.w = o.w) && e.lanes.getLsbD lane && isAccess e)

/-- The agent of a query's fetches. -/
def rayAgent (s : State) (o : Op) (q : Query) : Agent := { agentOf s o.w q.sup with denied := o.denied }

/-- The oldest ray operation that has the lane to answer, with its kind: 0 rtrace, 1 rtres, 2 rtcand. -/
def laneOp (s : State) (w lane : Nat) : Option (Op × Nat) :=
  s.ops.findSome? (fun o => match o.kind with
    | .ray k _ ls _ => if o.w = w ∧ ls.contains lane then some (o, k) else none
    | _ => none)

/-- An earlier ray operation still has the lane to answer. -/
def lanePending (s : State) (w lane : Nat) (before : Nat) : Bool :=
  s.ops.any (fun o => decide (o.id < before) && decide (o.w = w) && (match o.kind with | .ray _ _ ls _ => ls.contains lane | _ => false))

/-- The answer of the operation needs a pass of the query: the one that runs, one that `rtcand` calls for, or the rest of an unordered traversal. -/
def passDue (q : Query) (kind : Nat) : Bool :=
  decide (q.st = 1) || (decide (kind = 2) && candWaits q) || (decide (kind = 1 ∧ q.st = 2) && q.unord && !(q.stack.isEmpty && q.walk.isNone))

/-- A query whose candidates `rtres` has rejected (R391). -/
def rejectAll (q : Query) : Query :=
  if q.st ≠ 2 then q
  else if q.unord && !(q.stack.isEmpty && q.walk.isNone) then { q with cands := [], pending := none, drain := true }
  else closeQuery q

/-- The lane has left the running state, and the rtrace ends with its last lane. -/
def leaveLane (s : State) (o : Op) (lane : Nat) : State :=
  match o.kind with
  | .ray 0 d ls ws =>
    let r := ls.filter (fun l => l ≠ lane)
    if r.isEmpty then endOp s o.id else setOpKind s o.id (.ray 0 d r ws)
  | _ => s

/-- The next step of a lane's pass, for the oldest ray operation of the lane. -/
def laneStep (s : State) (o : Op) (kind lane : Nat) : QueryRes :=
  let q := getQuery s o.w lane
  let q := if kind = 1 then rejectAll q else q
  if !passDue q kind || (decide (kind = 0) && rayEarlier s o lane) then .held
  else passStep s (rayAgent s o q) o.routes q

/-- RAY_QUERY_DONE: one step of the lane's query (R399): the pass that it ends may end the query. -/
def execRayQueryDone (w lane : Nat) (s : State) : Host.Outcome State Fault Refusal :=
  match laneOp s w lane with
  | none => .next s
  | some (o, kind) =>
    match laneStep s o kind lane with
    | .held => .next s
    | .stall x => .next (addStalls x s)
    | .ok s1 q => .next (if kind = 0 ∧ q.st ≠ 1 then leaveLane (setQuery s1 w lane q) o lane else setQuery s1 w lane q)

/-! ### rtres, rtcand, rtacc (R391, R392) -/

/-- Starts an operation that writes a group of n registers in lanes. -/
def startGroupVar (c : Ctx) (n : Nat) (lanes : List Nat) (kind : OpKind) (s : State) : State :=
  let codes := (List.range n).map (fun j => c.f.d.toNat + j)
  let s1 := codes.foldl (fun s x => killDst s c.w x lanes) s
  advance c { s1 with ops := s1.ops ++ [{ id := s1.nextOp, w := c.w, lanes := c.sp.mask, cls := some .ex, dst := codes.flatMap (fun x => dstOf x lanes),
                                          push := none, denied := [], kind := kind, word := c.word, path := c.path, issuer := c.sp.mask,
                                          routes := s1.routes }], nextOp := s1.nextOp + 1 }

/-- What an rtres (1) or an rtcand (2) leaves of a lane's query, and the lane's words. -/
def laneAnswer (s : State) (w d kind lane : Nat) : State × List (Nat × Nat × TWord) :=
  let old := oldThree s w d lane
  let q := getQuery s w lane
  let x : Query × List TWord := if kind = 1 then (let r := rejectAll q; (r, resultWords r old)) else takeCand { q with pending := none } old
  (setQuery s w lane x.1, laneWrites d lane x.2)

/-- The lane is not answered at issue: an earlier operation of the lane, or a pass, comes first. -/
def laneLate (s : State) (w kind lane before : Nat) : Bool :=
  let q := getQuery s w lane
  (decide (kind = 1) || q.any) && (lanePending s w lane before || passDue q kind)

/-- What an rtres or an rtcand does at issue to the query of a lane that it answers later: its candidates are rejected. -/
def laneReject (s : State) (w kind lane : Nat) : State :=
  let q := getQuery s w lane
  setQuery s w lane (if kind = 1 ∧ !lanePending s w lane s.nextOp then rejectAll q else { q with pending := none })

/-- rtres and rtcand: the lanes that need nothing more are answered at once. -/
def rayTake (kind : Nat) (c : Ctx) (s : State) : State :=
  let d := c.f.d.toNat
  let late := (actives c).filter (fun l => laneLate s c.w kind l s.nextOp)
  let s1 := late.foldl (fun s l => laneReject s c.w kind l) s
  let r := ((actives c).filter (fun l => !laneLate s c.w kind l s.nextOp)).foldl (fun (acc : State × List (Nat × Nat × TWord)) l =>
    let x := laneAnswer acc.1 c.w d kind l
    (x.1, acc.2 ++ x.2)) (s1, [])
  startGroupVar c 3 (actives c) (.ray kind d late r.2) r.1

/-- rtres. -/
def rtresBody (c : Ctx) (s : State) : State := rayTake 1 c s
def execRtres (f : Fields) (s : State) := issue specRtres f s rtresBody

/-- rtcand. -/
def rtcandBody (c : Ctx) (s : State) : State := rayTake 2 c s
def execRtcand (f : Fields) (s : State) := issue specRtcand f s rtcandBody

/-- The next step of an rtres or rtcand: a lane whose turn has come and that needs no pass is answered; the operation ends when no lane remains. -/
def rayAnswer (s : State) (o : Op) : Option State :=
  match o.kind with
  | .ray k d ls ws =>
    if k = 0 then none
    else if ls.isEmpty then some (finishOp s o ws)
    else (ls.find? (fun l => !lanePending s o.w l o.id && !passDue (getQuery s o.w l) k)).map (fun l =>
      let x := laneAnswer s o.w d k l
      setOpKind x.1 o.id (.ray k d (ls.filter (fun y => y ≠ l)) (ws ++ x.2)))
  | _ => none

/-- rtacc: the pending candidate of each lane by the tag of A. A candidate that an rtres or rtcand under way has rejected is none. -/
def rtaccBody (c : Ctx) (s : State) : State :=
  let vs := (actives c).map (fun l => (l, opA s c l))
  match poisonLanes c.sp.mask (opA s c) with
  | x :: xs => raise c (poisonTrap c.sp.mask (x :: xs)) s
  | [] =>
    advance c (vs.foldl (fun s e =>
      let q := getQuery s c.w e.1
      match (if lanePending s c.w e.1 s.nextOp then none else q.pending) with
      | none => s
      | some h =>
        if e.2.tag ≠ .v then setQuery s c.w e.1 { q with pending := none }
        else
          let k := { h with kind := 2 }
          if q.unord then setQuery s c.w e.1 { q with pending := none, best := leastHit q.best k, cands := q.cands.filter (fun x => !hitBelow k x) }
          else setQuery s c.w e.1 { q with st := 3, best := some k, cands := [], pending := none, more := false }) s)
def execRtacc (f : Fields) (s : State) := issue specRtacc f s rtaccBody

/-! ### rtbox and rttri (R393) -/

/-- The words of a group in a lane. -/
def groupVals (s : State) (c : Ctx) (x : BitVec 8) (n lane : Nat) : List TWord := (List.range n).map (fun j => readReg s c.w (x.toNat + j) lane c.t)

/-- The lanes whose operands hold an X, and then the lanes by their words. -/
def rayOperands (c : Ctx) (n : Nat) (s : State) (go : List (Nat × List TWord × List TWord) → State) : State :=
  let vs := (actives c).map (fun l => (l, rayWords s c l, groupVals s c c.f.b n l))
  match vs.filterMap (fun e => ((e.2.1 ++ e.2.2).find? (fun x => x.tag = .x)).map (fun x => (e.1, x.data))) with
  | x :: xs => raise c (poisonTrap c.sp.mask (x :: xs)) s
  | [] => go vs

def hasN (e : Nat × List TWord × List TWord) : Bool := (e.2.1 ++ e.2.2).any (fun x => x.tag = .n)

/-- The word of rtbox: entry and exit, V on a hit; a miss that gives no interval leaves them open. -/
def boxWord (s : State) (lane ray box : Nat) : TWord :=
  match (if rayValid ray then boxTest ray box else none) with
  | some t => ⟨if boxHit t then .v else .n, BitVec.ofNat 64 (t.1 + t.2 * 2 ^ 32)⟩
  | none => ⟨.n, Config.freeWord (s.free * 32 + lane)⟩

/-- rtbox. -/
def rtboxBody (c : Ctx) (s : State) : State :=
  rayOperands c 3 s fun vs =>
    startResult c ((vs.filter hasN).map (fun e => (e.1, (⟨.n, (rdReg s c.w c.f.d.toNat e.1).data⟩ : TWord))))
      ((vs.filter (fun e => !hasN e)).map (fun e => (e.1, boxWord s e.1 (joinRay e.2.1) (joinRay e.2.2)))) s
def execRtbox (f : Fields) (s : State) := issue specRtbox f s rtboxBody

/-- The words of rttri: t, u and v, V on a hit; a miss that the determinant decides leaves them open. -/
def triWords (s : State) (lane ray tri : Nat) : List TWord :=
  match (if rayValid ray then triTest ray tri else none) with
  | some x =>
    let tg : Tag := if triHit (rayMin ray) (rayMax ray) x then .v else .n
    [⟨tg, BitVec.ofNat 64 (x.1 + x.2.1 * 2 ^ 32)⟩, ⟨tg, BitVec.ofNat 64 x.2.2⟩]
  | none => [⟨.n, Config.freeWord (s.free * 64 + lane)⟩, ⟨.n, Config.freeWord (s.free * 64 + 32 + lane) &&& 0xFFFFFFFF⟩]

/-- rttri. -/
def rttriBody (c : Ctx) (s : State) : State :=
  rayOperands c 5 s fun vs =>
    let d := c.f.d.toNat
    let nul := (vs.filter hasN).map (·.1)
    let s1 := (List.range 2).foldl (fun t j => writeNow t c.w (d + j) (nul.map (fun l => (l, (⟨.n, (rdReg s c.w (d + j) l).data⟩ : TWord))))) s
    let live := vs.filter (fun e => !hasN e)
    if live.isEmpty then advance c s1
    else startGroupVar c 2 (live.map (·.1)) (.result (live.flatMap (fun e => groupWrites d e.1 (triWords s e.1 (joinRay e.2.1) (joinRay e.2.2))))) s1
def execRttri (f : Fields) (s : State) := issue specRttri f s rttriBody

/-! ### lhtinv and lhtstat (R398) -/

def clearPart (s : State) (core part : Nat) : State :=
  { s with lht := dropKeys s.lht (lhtKey core part 0) 128, lhtCnt := sset (0, 0) s.lhtCnt (16 * core + part) (0, 0) }

/-- lhtinv. -/
def lhtinvBody (c : Ctx) (s : State) : State :=
  let md := (modOf c.f).toNat
  let core := coreOf s c.w
  advance c (if md.testBit 4 then (List.range 16).foldl (fun s p => clearPart s core p) s else clearPart s core (md % 16))
def execLhtinv (f : Fields) (s : State) := issue specLhtinv f s lhtinvBody

/-- lhtstat. -/
def lhtstatBody (c : Ctx) (s : State) : State :=
  let md := (modOf c.f).toNat
  let core := coreOf s c.w
  let p := md % 16
  let valid := ((s.lht.filter (fun e => decide (e.1 / 128 = lhtKey core p 0 / 128))).map (fun e => e.2.length)).sum
  let x := lhtCount s core p
  let v := TWord.valid (BitVec.ofNat 64 (x.2 * 2 ^ 40 + x.1 * 2 ^ 16 + valid))
  startResult c [] ((computeLanes c).map (fun l => (l, v))) (if md.testBit 4 then { s with lhtCnt := sset (0, 0) s.lhtCnt (16 * core + p) (0, 0) } else s)
def execLhtstat (f : Fields) (s : State) := issue specLhtstat f s lhtstatBody

/-! ### What the unit does next by itself (log 2) -/

/-- A step of a ray operation that does not wait for a page. -/
def rayOpen (s : State) (w : Wait) : Bool := match w with | .page d h sp g _ => !stallsOpen s d h sp g | _ => true

/-- A lane of a ray operation whose query can take a step. -/
def rayStepLane (s : State) (o : Op) (k : Nat) (ls : List Nat) : Option Nat :=
  ls.find? (fun l => !lanePending s o.w l o.id && (match laneStep s o k l with | .ok _ _ => true | .stall x => rayOpen s x | .held => false))

def pickRay (s : State) (o : Op) : Option Instr :=
  match o.kind with
  | .ray k _ ls _ =>
    match rayStepLane s o k ls with
    | some l => some (.rayQueryDone o.w l)
    | none => if (rayAnswer s o).isSome then some (.exOperationComplete o.id) else none
  | _ => none

end Sys2Proof.Machine
end

