-- ==== Sys2Proof/Machine/Fabric.lean ====
section
/-!
DEFINITION. Peer memory, halo exchange, collectives and the memory pool: the instructions 0x1B0 to 0x1B5 and the steps of the fabric
(R404 to R424, R455 to R457), with EX_OPERATION_COMPLETE.
-/
namespace Sys2Proof.Machine

/-! ### Rows (R408) -/

/-- A scalar operand whose immediate form is refused with subcode 0x08. -/
def scalarNoImm (get : Fields → BitVec 8) : Chk := fun e => if isImm (get e.f) then none else scalarOf get e
def specFab (op : BitVec 9) : OpSpec := { specNone op with cls := .e, a := scalarA, cnt := some .ex }
def specHx : OpSpec := { specFab 0x1B0 with b := scalarImmB, md := mdBits 0xFC00, reads := rdAB }
def specColl (op : BitVec 9) (ty md : Chk) : OpSpec :=
  { specFab op with b := scalarNoImm (·.b), c := scalarNoImm (·.c), ty := ty, md := Chk.and noImm md, reads := rdABC }

/-- The object, the operation and the rounding mode of MOD. -/
def fabObj (f : Fields) : Nat := (modOf f).toNat / 1024
def fabOp (f : Fields) : Nat := (modOf f).toNat / 16 % 8
def fabRm (f : Fields) : Nat := (modOf f).toNat % 8

/-- op and rm of arx and rsx. -/
def mdReduce : Chk :=
  Chk.and (mdBits 0xFC77) <| fun e =>
    let fp := decide (e.f.ty.toNat ≥ 8)
    if fabOp e.f ≥ 6 ∨ (fabOp e.f ≥ 3 ∧ fp) then some 0x04
    else if fp then (if fabRm e.f ≥ 4 then some 0x06 else none) else if fabRm e.f ≠ 0 then some 0x04 else none
def specArx : OpSpec := specColl 0x1B1 (tyIn 0x3CC) mdReduce
def specAgx : OpSpec := specColl 0x1B2 tyZero (mdBits 0xFC00)
def specRsx : OpSpec := specColl 0x1B3 (tyIn 0x3CC) mdReduce
/-- D is a vector or a scalar register. -/
def vecScalarD : Chk := Chk.and dstD (chkIf 0x04 (fun e => isV e.f.d || isS e.f.d))
def specPlstat : OpSpec := { specFab 0x1B4 with d := vecScalarD, reads := rdA }
def specPlack : OpSpec := { specFab 0x1B5 with priv := chkIf 0x03 (fun e => e.sup), d := vecScalarD, b := scalarImmB, reads := rdAB }

/-! ### The package, its peers and its groups (R404, R407) -/

def groupEntry (s : State) (g : Nat) : Nat := rdMem s (s.pkg.grptab.toNat + 192 * g) 192
def grMember (d p : Nat) : Bool := d.testBit (512 + p)
/-- Members of the group, and those below a package. -/
def grCount (d : Nat) : Nat := ((List.range 1024).filter (grMember d)).length
def grRank (d p : Nat) : Nat := ((List.range p).filter (grMember d)).length

/-- Operations of the Collective Engine in flight (R409). -/
def fabricCount (s : State) : Nat := (s.ops.filter (fun o => match o.kind with | .halo _ => true | .coll _ => true | _ => false)).length

/-- Issues a word of the Collective Engine: it is not ready while the table is full, or while what it reads in the tile store and the
descriptor slots is still to be written. -/
def fabricExec (spec : OpSpec) (f : Fields) (s : State) (body : Ctx → State → State) : Host.Outcome State Fault Refusal :=
  match s.cur with
  | none => .next s
  | some cu =>
    if fabricCount s ≥ 64 ∨ tileAccesses s cu.w (getSplit s cu.w cu.k).mask ∨ tdBusy s (blkOf cu.w) (List.range 16) then
      .next (holdUntil (issueTime s cu.w cu.k + 1) s cu)
    else issue spec f s body

/-! ### The plan of a halo exchange (R410) -/

def planSlot (e : Nat) : Nat := bitsOf e 19 16

/-- The box of an entry as a copy: one that reads global memory by the source rules of `tcpgl`, or writes it by the destination rules of `tcplg`
(R411). -/
def haloBox (send sup : Bool) (core d : Nat) (org : List Int) (ext : List Nat) : CopyOp :=
  { kind := if send then 5 else 3, core := core, sup := sup, desc := d, desc2 := 0, org := org, org2 := [], ext := ext, off := 0, obj := 0, cb := none,
    mask := 0, scope := 5, tag := 0, pages := [], stamp := none, todo := [], sent := [], elems := [], srcPages := [], flags := 0 }

/-- An entry of the plan, from its bits and its descriptor. -/
def planEnt (s : State) (b e : Nat) (sup : Bool) : HaloEnt :=
  let d := getTd s b (planSlot e)
  let r := tdRank d
  let send := !e.testBit 20
  { send := send, peer := bitsOf e 9 0, xid := bitsOf e 63 32,
    box := haloBox send sup (coreOf s (32 * b)) d ((List.range r).map (fun i => (BitVec.ofNat 32 (e / 2 ^ (64 + 32 * i))).toInt))
      ((List.range r).map (fun i => e / 2 ^ (256 + 16 * i) % 2 ^ 16)),
    got := none, done := false }

/-- A field of an entry is out of range, or its peer is absent. -/
def planBad (s : State) (b e : Nat) : Bool :=
  let x := planEnt s b e false
  decide (bitsOf e 511 352 ≠ 0) || decide (bitsOf e 31 21 ≠ 0) || decide (bitsOf e 15 10 ≠ 0) || !peerPresent s x.peer ||
    (decide (x.box.desc ≠ 0) && (decide (tdRank x.box.desc > 6) || x.box.ext.any (fun n => n = 0) ||
      (decide (tdEty x.box.desc = 14) && decide (x.box.org.headD 0 % 2 ≠ 0 ∨ x.box.ext.headD 0 % 2 ≠ 0))))

/-- Check 3 of R409 over the entries of a plan. -/
def planFault (s : State) (b : Nat) (es : List Nat) : Bool :=
  let xs := es.map (fun e => planEnt s b e false)
  es.any (planBad s b) || decide ((xs.map (·.peer)).dedup.length > 26) ||
    decide ((xs.map (fun x => (x.send, x.peer, x.xid))).dedup.length < xs.length)

def haloBytes (e : HaloEnt) : Nat := boxBytes e.box.desc e.box.ext

/-- The destination pages of the receive boxes, in the order of the plan. -/
def walkEnts (s : State) (a : Agent) : List HaloEnt → WalkDst × List HaloEnt
  | [] => (.ok [], [])
  | e :: r =>
    if e.send then let x := walkEnts s a r; (x.1, e :: x.2)
    else match walkDst s a .store (max 1 (halfBytes (tdEty e.box.desc) / 2)) (((copyDst e.box).filterMap id).map (· / 2)) [] none with
      | .trap cause sub va => (.trap cause sub va, [])
      | .wait w =>
        (match walkEnts s a r with
          | (.wait v, _) => (.wait (joinWait w v), [])
          | (.trap cause sub va, _) => (.trap cause sub va, [])
          | _ => (.wait w, []))
      | .ok pages => let x := walkEnts s a r; (x.1, { e with box := { e.box with pages := pages } } :: x.2)

/-- Translations of destination pages at the time of a write: one that a `tlbinv` or `pgmode` has removed is walked again, and a page that
is mapped no longer is not written (R442). -/
def freshPages (s : State) (a : Agent) (pages : List (Nat × Leaf)) : List (Nat × Leaf) :=
  pages.filterMap (fun e => match lookup s a.die a.space e.1 with | .leaf l => some (e.1, l) | _ => none)

/-! ### hx (R409 to R411) -/

/-- Marks the destination pages of an engine operation. -/
def touchPages (s : State) (a : Agent) (pages : List (Nat × Leaf)) : State :=
  pages.foldl (fun s e => touch s a e.1 e.2 true) s

def hxBody (c : Ctx) (s : State) : State :=
  let l := lowLane c.sp.mask
  let b := blkOf c.w
  let bl := getBlock s b
  match tagRule [opA s c l, opB s c l] with
  | .nullified => advance c s
  | .poisoned p => raisePoison c p s
  | .normal =>
    let off := (opA s c l).data.toNat
    let n := (opB s c l).data.toNat
    let obj := fabObj c.f
    if obj ≠ 0 ∧ obj ≥ bl.naos then raiseAll c causeIllegalOperand 0x02 s
    else if n = 0 ∨ n > 52 then raiseAll c causeIllegalOperand 0x0A s
    else
      let offs := (List.range n).map (fun i => off + 64 * i)
      let es := (offs.filter (fun o => decide (o + 64 ≤ bl.tsbytes))).map (fun o => rdMem s (tileBase b + o) 64)
      if planFault s b es then raiseAll c causeIllegalOperand 0x0A s
      else if off % 64 ≠ 0 then raiseAll c causeAlign 0 s
      else if off + 64 * n > bl.tsbytes then raiseAll c causeIllegalOperand 0x02 s
      else if es.any (fun e => getTd s b (planSlot e) = 0) then raiseAll c causeIllegalOperand 0x0B s
      else
        let a := agentC c s
        match walkEnts s a (es.map (fun e => planEnt s b e c.sp.sup)) with
        | (.trap cause sub va, _) => raiseVa c cause sub va (walked s a va)
        | (.wait y, _) => suspend c y s
        | (.ok _, xs) =>
          withCommit c true s s fun s1 =>
            let s2 := xs.foldl (fun s e => touchPages s a e.box.pages) s1
            let tag := opTag c.sp.pc
            let s3 := stampOp c (startOp s2 c.w c.sp.mask (some .ex) [] (.halo { ents := xs, obj := obj, tag := tag, sup := c.sp.sup }))
            advance c (if obj = 0 then s3 else aoRegister s3 b obj (xs.map haloBytes).sum tag)
def execHx (f : Fields) (s : State) := fabricExec specHx f s hxBody

/-! ### Halo boxes (R411, R412) -/

def haloAgent (s : State) (o : Op) (x : HaloOp) : Agent := { agentOf s o.w x.sup with denied := o.denied }

/-- Ends an entry: its object is signalled, and the operation ends with its last entry. -/
def endEntry (s : State) (o : Op) (x : HaloOp) (i flags : Nat) : State :=
  match x.ents[i]? with
  | none => s
  | some e =>
    let es := x.ents.set i { e with done := true }
    let s1 := setOpKind s o.id (.halo { x with ents := es })
    let s2 := if x.obj = 0 then s1
      else let r := engineRelease s1 (blkOf o.w) 5; aoSignal r.1 (blkOf o.w) x.obj 0 (haloBytes e) flags x.tag r.2
    if es.all (fun e => e.done) then endOp s2 o.id else s2

/-- Elements of a receive box that a box of n bytes reaches: the shorter byte count governs. -/
def reachOf (e : HaloEnt) (n : Nat) : Nat := 2 * min (haloBytes e) n / halfBytes (tdEty e.box.desc)

/-- Two byte counts differ; elements of the receive box stand out of bounds. -/
def matchFlags (e : HaloEnt) (n : Nat) : Nat := if n ≠ haloBytes e then flRange else 0

/-- A receive entry matched to a box: its elements wait to be written, those that the box does not reach apart. -/
def giveBox (e : HaloEnt) (box : HaloBox) : HaloEnt :=
  let sz := halfBytes (tdEty e.box.desc)
  let n := reachOf e box.len
  { e with got := some box.len,
           box := { e.box with flags := matchFlags e box.len,
                               elems := ssetAll (0, 0) [] ((List.range (boxCount e.box.ext)).map (fun j =>
                                 (j, if j < n then (1, box.data / 16 ^ (sz * j) % 16 ^ sz) else (3, 0)))) } }

/-- The first receive of an operation that a staged box matches, with the box. -/
def matchBox (s : State) (x : HaloOp) : Option (Nat × HaloEnt × HaloBox) :=
  x.ents.zipIdx.findSome? (fun e =>
    if e.1.send || e.1.done || e.1.got.isSome then none
    else (s.staged.find? (fun b => decide (b.peer = e.1.peer ∧ b.xid = e.1.xid))).map (fun b => (e.2, e.1, b)))

/-- The staged box that a receive of the operation takes. -/
def takeBox (s : State) (o : Op) : Option State :=
  match o.kind with
  | .halo x => (matchBox s x).map (fun m =>
      setOpKind { s with staged := s.staged.erase m.2.2 } o.id (.halo { x with ents := x.ents.set m.1 (giveBox m.2.1 m.2.2) }))
  | _ => none

/-- A word of an entry's box can be read or written. -/
def entWork (s : State) (o : Op) (e : HaloEnt) : Bool :=
  !e.done && (e.send || e.got.isSome) && engineFree s o (if e.send then [] else e.box.pages) && (nextPieceOf s o e.box).isSome

/-- Reads or writes the next word of an entry's box, through translations of its own (R442). -/
def entStep (s : State) (o : Op) (x : HaloOp) (e : HaloEnt) : State × HaloEnt :=
  let b := blkOf o.w
  let a := haloAgent s o x
  match nextPieceOf s o e.box with
  | some (true, k) => let r := writeWord s b a { e.box with pages := freshPages s a e.box.pages } k; (r.1, { e with box := { r.2 with pages := e.box.pages } })
  | some (false, k) => let r := readWord s b a { e.box with srcPages := [] } k; (r.1, { e with box := { r.2 with srcPages := [] } })
  | none => (s, e)

/-- A receive whose words are all written. -/
def entWritten (e : HaloEnt) : Bool := !e.send && !e.done && e.got.isSome && allWritten e.box

/-- The sectors of a receive box. -/
def entCover (s : State) (o : Op) (x : HaloOp) (e : HaloEnt) : State :=
  let a := haloAgent s o x
  coverSectors s a (freshPages s a e.box.pages) (halfBytes (tdEty e.box.desc))
    ((List.range (reachOf e (e.got.getD 0))).filterMap (fun j => (dstHalf e.box j).map (fun h => (h, true))))

/-- The page that the sources of an exchange stall on. -/
def haloStall (s : State) (o : Op) (x : HaloOp) : Option Wait :=
  x.ents.findSome? (fun e => if e.send && !e.done then copyStall s o e.box else none)

/-- A step of an exchange: a word is read or written, in no order among entries; a receive that is written ends; a box is taken; a stall is
recorded (R206, R411). -/
def haloStep (s : State) (o : Op) (x : HaloOp) : State :=
  let work := x.ents.zipIdx.filter (fun e => entWork s o e.1)
  match work with
  | w :: r =>
    let e := (w :: r).getD (Config.nextPiece ((s.free * 2 ^ 40 + o.id) * 2 ^ 40 + 2 ^ 39) % (r.length + 1)) w
    let t := entStep s o x e.1
    setOpKind t.1 o.id (.halo { x with ents := x.ents.set e.2 t.2 })
  | [] =>
    match x.ents.zipIdx.find? (fun e => entWritten e.1) with
    | some e => endEntry (entCover s o x e.1) o x e.2 (e.1.box.flags ||| lostPages s e.1.box.pages)
    | none =>
      match takeBox s o with
      | some t => t
      | none => match haloStall s o x with
        | some w => addStalls w s
        | none => s

/-- A step of an exchange is due. -/
def haloDue (s : State) (o : Op) (x : HaloOp) : Bool :=
  x.ents.any (entWork s o) || x.ents.any entWritten || (matchBox s x).isSome ||
    (match haloStall s o x with | some (.page d h sp vs _) => !stallsOpen s d h sp vs | _ => false)

/-- The send entry of this package for a peer and exchange id. -/
def sendEntry (s : State) (peer xid : Nat) : Option (Op × HaloOp × Nat × HaloEnt) :=
  s.ops.findSome? (fun o => match o.kind with
    | .halo x => (x.ents.zipIdx.find? (fun e => e.1.send && !e.1.done && decide (e.1.peer = peer ∧ e.1.xid = xid))).map (fun e => (o, x, e.2, e.1))
    | _ => none)

/-- R412, R416: what the issuing thread's accesses left in caches reaches its home before other packages see the operation: a release of SW bytes
at fabric scope. -/
def shareWrites (s : State) (o : Op) : State := wbScope s (dieOf s o.w) 5 (fun _ => true)

/-- The link that an operation's packets to a package take is up (R404, R456). -/
def routeUp (s : State) (o : Op) (p : Nat) : Bool := portUp s ((sget 0#64 o.routes p).toNat % 16)

/-- The box of a send entry is at its receiver, once it has been read; the entry completes with the flags of the reading. -/
def sendBox (s : State) (o : Op) (x : HaloOp) (i : Nat) (e : HaloEnt) : State :=
  if !allRead e.box || !routeUp s o e.peer then s
  else let s := shareWrites s o; endEntry { s with sent := { peer := e.peer, xid := e.xid, len := haloBytes e, data := mcData e.box, flags := e.box.flags } :: s.sent } o x i e.box.flags

/-- Bytes of the boxes that wait in the staging area. -/
def stagedBytes (s : State) : Nat := (s.staged.map (·.len)).sum

/-- Some UALink port has its link (R404). -/
def anyLink (s : State) : Bool := decide (s.pkg.linkst &&& 0xFFFF ≠ 0)

/-- A box arrives from a peer: a posted receive takes it, or the staging area of 64 MiB holds it. -/
def arriveBox (s : State) (box : HaloBox) : State :=
  let s1 := { s with staged := s.staged ++ [box] }
  match s.ops.findSome? (takeBox s1) with
  | some t => t
  | none => if stagedBytes s1 ≤ 2 ^ 26 then s1 else s

/-- HALO_BOX_DELIVERY (R411): a box of this package is written at its receiver, or a box of a peer arrives. -/
def execHaloBoxDelivery (out : Bool) (peer xid len data : Nat) (s : State) : Host.Outcome State Fault Refusal :=
  if out then
    match sendEntry s peer xid with
    | some e => .next (sendBox s e.1 e.2.1 e.2.2.1 e.2.2.2)
    | none => .next s
  else if !anyLink s then .next s
  else .next (arriveBox s { peer := peer % 1024, xid := xid % 2 ^ 32, len := len, data := data % 2 ^ (8 * len), flags := 0 })

/-- HALO_TIMEOUT (R411): a box that was not written in time is dropped, and its sender sets mcmiss beside the flags of its reading. -/
def execHaloTimeout (out : Bool) (peer xid : Nat) (s : State) : Host.Outcome State Fault Refusal :=
  if out then
    match sendEntry s peer xid with
    | some e => .next (endEntry s e.1 e.2.1 e.2.2.1 (e.2.2.2.box.flags ||| flMcMiss))
    | none => .next s
  else
    match s.staged.find? (fun b => decide (b.peer = peer ∧ b.xid = xid)) with
    | some b => .next { s with staged := s.staged.erase b }
    | none => .next s

/-! ### Collectives at issue (R409, R413) -/

/-- Lengths of R413. -/
def collLenBad (kind sz n len : Nat) : Bool :=
  match kind with
  | 1 => decide (len < sz ∨ len > 4096 ∨ len % sz ≠ 0)
  | 2 => decide (len % 8 ≠ 0 ∨ n * len ≥ 2 ^ 40)
  | _ => decide (len % (n * sz) ≠ 0)

/-- The addresses at which the pages of a range begin, the first of them the range's own start. -/
def rangePages (u va len : Nat) : List Nat :=
  if len = 0 then [] else va :: (List.range ((va + len - 1) / u - va / u)).map (fun i => (va / u + i + 1) * u)

def collBody (kind : Nat) (c : Ctx) (s : State) : State :=
  let l := lowLane c.sp.mask
  let b := blkOf c.w
  let bl := getBlock s b
  match tagRule [opA s c l, opB s c l, opC s c l] with
  | .nullified => advance c s
  | .poisoned p => raisePoison c p s
  | .normal =>
    let ctl := (opC s c l).data.toNat
    let g := bitsOf ctl 37 32
    let d := groupEntry s g
    let x : CollOp :=
      { kind := kind, ty := c.f.ty, op := fabOp c.f, rm := fabRm c.f, group := g, ctag := bitsOf ctl 63 40, len := ctl % 2 ^ 32,
        a := (opA s c l).data.toNat, b := (opB s c l).data.toNat, obj := fabObj c.f, tag := opTag c.sp.pc, sup := c.sp.sup, pages := [],
        n := grCount d, rank := grRank d (selfId s), elems := [], res := none, left := [], flags := 0 }
    let sz := tyBytes c.f.ty
    if x.obj ≠ 0 ∧ x.obj ≥ bl.naos then raiseAll c causeIllegalOperand 0x02 s
    else if !d.testBit 16 ∨ !grMember d (selfId s) ∨ bitsOf ctl 39 38 ≠ 0 ∨
        s.ops.any (fun o => match o.kind with | .coll y => decide (y.group = g ∧ y.ctag = x.ctag) | _ => false) then
      raiseAll c causeIllegalOperand 0x0A s
    else if collLenBad kind sz x.n x.len then raiseAll c causeIllegalOperand 0x0A s
    else if x.a % 8 ≠ 0 ∨ x.b % 8 ≠ 0 then raiseAll c causeAlign 0 s
    else if kind = 1 ∧ (x.a + x.len > bl.tsbytes ∨ x.b + x.len > bl.tsbytes) then raiseAll c causeIllegalOperand 0x02 s
    else
      let a := agentC c s
      match (if kind = 1 then .ok [] else walkDst s a .store 8 (rangePages (pageUnit a x.b) x.b (collBytes x)) [] none) with
      | .trap cause sub va => raiseVa c cause sub va (walked s a va)
      | .wait y => suspend c y s
      | .ok pages =>
        withCommit c true s s fun s1 =>
          advance c (stampOp c (startOp (touchPages s1 a pages) c.w c.sp.mask (some .ex) [] (.coll { x with pages := pages })))

def execArx (f : Fields) (s : State) := fabricExec specArx f s (collBody 1)
def execAgx (f : Fields) (s : State) := fabricExec specAgx f s (collBody 2)
def execRsx (f : Fields) (s : State) := fabricExec specRsx f s (collBody 3)

/-! ### Contributions (R413, R418) -/

/-- The stall of a word of the source. -/
def collStall (s : State) (o : Op) (x : CollOp) (w : Nat) : Option Wait :=
  if x.kind = 1 then none else engineStall s (collAgent s o x) .load [8 * w % 2 ^ 64]

/-- The words of the source that can be read next. -/
def collOpen (s : State) (o : Op) (x : CollOp) : List Nat := (collUnread x).filter (fun w => (collStall s o x w).isNone)

/-- Reads the elements of a word of the source. -/
def collRead (s : State) (o : Op) (x : CollOp) (w : Nat) : State × CollOp :=
  let k := collUnit x
  ((collWaiting x).filter (fun i => decide ((x.a + k * i) / 8 = w))).foldl (fun r i =>
    if x.kind = 1 then (r.1, { r.2 with elems := sset (0, 0) r.2.elems i (1, rdMem r.1 (tileBase (blkOf o.w) + x.a + k * i) k) })
    else
      let e := engineRead r.1 (collAgent s o x) (2 * ((x.a + k * i) % 2 ^ 64)) (2 * k)
      (e.1, { r.2 with elems := sset (0, 0) r.2.elems i (if e.2.2 = 0 then (1, e.2.1) else (2, e.2.2)) })) (s, x)

/-- This member's contribution, of the elements read. -/
def collSource (x : CollOp) : Contrib :=
  let k := collUnit x
  { rank := x.rank, kind := x.kind, ty := x.ty, op := x.op, rm := x.rm, len := x.len,
    data := ((x.elems.filter (fun e => decide (e.2.1 = 1))).map (fun e => e.2.2 * 2 ^ (8 * k * e.1))).sum,
    bad := (x.elems.filter (fun e => decide (e.2.1 = 2))).map (fun e => (k * e.1, k, decide (e.2.2 ≠ flSrcPois))) }

/-- A failed part of a contribution reaches bytes of it. -/
def badAt (c : Contrib) (off n : Nat) : Bool := c.bad.any (fun e => decide (e.1 < off + n ∧ off < e.1 + e.2.1))
/-- A part that failed for a Lost region reaches them. -/
def lostAt (c : Contrib) (off n : Nat) : Bool := c.bad.any (fun e => e.2.2 && decide (e.1 < off + n ∧ off < e.1 + e.2.1))
/-- n bytes of a contribution. -/
def partOf (c : Contrib) (off n : Nat) : Nat := c.data / 2 ^ (8 * off) % 2 ^ (8 * n)

/-! ### Reduction (R414) -/

/-- op of two elements. -/
def reduceTwo (op : Nat) (ty : BitVec 4) (rm a b : Nat) : Nat :=
  if op = 0 ∧ ty.toNat ≥ 8 then
    let k := fmtOf ty.toNat
    match firstNaN k k [unpack k a, unpack k b] with
    | some r => r.bits
    | none => (roundSum k (rmOf rm) false [unpack k a, unpack k b]).bits
  else atomNew op ty a b

/-- The node at a level that begins at a rank; ranks n and above are absent. -/
def reduceNode (op : Nat) (ty : BitVec 4) (rm n : Nat) (v : Nat → Nat) : Nat → Nat → Option Nat
  | 0, r => if r < n then some (v r) else none
  | l + 1, r =>
    match reduceNode op ty rm n v l r, reduceNode op ty rm n v l (r + 2 ^ l) with
    | none, q => q
    | p, none => p
    | some a, some b => some (reduceTwo op ty rm a b)

/-- The root of the tree over the contributions, in order of rank. -/
def reduceAll (op : Nat) (ty : BitVec 4) (rm : Nat) (vs : List Nat) : Nat := (reduceNode op ty rm vs.length (fun r => vs.getD r 0) 10 0).getD 0

/-- The elements a member writes: offset in its destination, value, validity; contributions in order of rank (R413). -/
def collResult (x : CollOp) (cs : List Contrib) : List (Nat × Nat × Bool) :=
  let k := collUnit x
  if x.kind = 2 then cs.zipIdx.flatMap (fun e => (List.range (x.len / k)).map (fun i => (e.2 * x.len + k * i, partOf e.1 (k * i) k, !badAt e.1 (k * i) k)))
  else
    let base := if x.kind = 3 then x.rank * (x.len / x.n) else 0
    (List.range (collBytes x / k)).map (fun i =>
      (k * i, reduceAll x.op x.ty x.rm (cs.map (fun c => partOf c (base + k * i) k)), !cs.any (fun c => badAt c (base + k * i) k)))

/-- The bytes of a contribution that reach the member: its segment of an `rsx`, all of them otherwise. -/
def segment (x : CollOp) : Nat × Nat := if x.kind = 3 then (x.rank * (x.len / x.n), x.len / x.n) else (0, x.len)

/-! ### The end of a collective (R415, R416) -/

/-- The object is signalled, then the counter falls. -/
def endColl (s : State) (o : Op) (x : CollOp) (flags : Nat) : State :=
  let b := blkOf o.w
  let s1 := if x.obj = 0 then s else let r := engineRelease s b 5; aoSignal r.1 b x.obj 1 0 flags x.tag r.2
  endOp s1 o.id

/-- The others' contributions are one from each other rank. -/
def oneEach (x : CollOp) (others : List Contrib) : Bool :=
  decide (others.length + 1 = x.n) && ((List.range x.n).filter (fun r => r ≠ x.rank)).all (fun r => others.any (fun c => c.rank = r))

/-- Every member contributes with equal instruction, L, TY, op and rm. -/
def agreed (x : CollOp) (others : List Contrib) : Bool :=
  others.all (fun c => decide (c.kind = x.kind ∧ c.len = x.len ∧ c.ty = x.ty ∧ c.op = x.op ∧ c.rm = x.rm))

/-- The 8-byte word of the destination in which an element of the result stands. -/
def resWord (x : CollOp) (e : Nat × Nat × Bool) : Nat := (x.b + e.1) / 8

/-- Writes the elements of a word of the destination. -/
def writeRes (s : State) (o : Op) (x : CollOp) (es : List (Nat × Nat × Bool)) (w : Nat) : State :=
  let k := collUnit x
  let mine := es.filter (fun e => decide (resWord x e = w))
  let a := collAgent s o x
  if x.kind = 1 then mine.foldl (fun s e => tileSend s (blkOf o.w) (x.b + e.1) k e.2.1) s
  else mine.foldl (fun s e => putElem s a (freshPages s a x.pages) (2 * ((x.b + e.1) % 2 ^ 64)) (2 * k) e.2.1)
    (commitFor s a.blk (mine.any (fun e => !e.2.2)))

/-- The sectors of a result in global memory, those that failed elements reach poisoned. -/
def coverRes (s : State) (o : Op) (x : CollOp) (es : List (Nat × Nat × Bool)) : State :=
  let a := collAgent s o x
  if x.kind = 1 then s
  else coverSectors s a (freshPages s a x.pages) (2 * collUnit x) (es.map (fun e => (2 * ((x.b + e.1) % 2 ^ 64), e.2.2)))

/-- The contributions in order of rank. -/
def byRank (x : CollOp) (me : Contrib) (others : List Contrib) : List Contrib :=
  (List.range x.n).filterMap (fun r => if r = x.rank then some me else others.find? (fun c => c.rank = r))

/-- The collective with its result, whose words are still to be written. -/
def withResult (x : CollOp) (cs : List Contrib) : CollOp :=
  let es := collResult x cs
  let g := segment x
  { x with res := some es, left := (es.map (resWord x)).dedup,
           flags := (if cs.any (fun c => badAt c g.1 g.2) then flSrcPois else 0) ||| (if cs.any (fun c => lostAt c g.1 g.2) then flPoolLost else 0) }

/-- COLLECTIVE_COMPLETE (R415): the contributions of the other members are there, and this member has read its own. What the members agree
on is then written word by word (R206). -/
def execCollectiveComplete (id : Nat) (others : List Contrib) (s : State) : Host.Outcome State Fault Refusal :=
  match findOp s id with
  | some o =>
    match o.kind with
    | .coll x =>
      if !oneEach x others || x.res.isSome || !(collUnread x).isEmpty then .next s
      else if !agreed x others then .next (endColl (shareWrites s o) o x flRange)
      else .next (setOpKind (shareWrites s o) id (.coll (withResult x (byRank x (collSource x) others))))
    | _ => .next s
  | none => .next s

/-- A step of a collective: a word of its source is read, a word of its result is written, or it completes; words are in no order. -/
def collStep (s : State) (o : Op) (x : CollOp) : State :=
  let pick (xs : List Nat) : Nat := xs.getD (Config.nextPiece ((s.free * 2 ^ 40 + o.id) * 2 ^ 40 + xs.length * 2 + 1) % xs.length) 0
  if !engineFree s o x.pages then s
  else if !(collUnread x).isEmpty then
    match collOpen s o x with
    | [] => (match (collUnread x).findSome? (collStall s o x) with | some w => addStalls w s | none => s)
    | w :: r => let t := collRead (shareWrites s o) o x (pick (w :: r)); setOpKind t.1 o.id (.coll t.2)
  else match x.res with
    | none => s
    | some es =>
      match x.left with
      | [] => endColl (coverRes s o x es) o x (x.flags ||| lostPages s x.pages)
      | w :: r => let k := pick (w :: r); setOpKind (writeRes s o x es k) o.id (.coll { x with left := x.left.filter (fun i => i ≠ k) })

/-- A step of a collective is due. -/
def collDue (s : State) (o : Op) (x : CollOp) : Bool :=
  engineFree s o x.pages &&
    (if !(collUnread x).isEmpty then
      !(collOpen s o x).isEmpty || (match (collUnread x).findSome? (collStall s o x) with | some (.page d h sp vs _) => !stallsOpen s d h sp vs | _ => false)
     else x.res.isSome)

/-- COLLECTIVE_TIMEOUT (R415): the group's timeout expires at this member. -/
def execCollectiveTimeout (id : Nat) (s : State) : Host.Outcome State Fault Refusal :=
  match findOp s id with
  | some o =>
    match o.kind with
    | .coll x => if x.res.isSome then .next s else .next (endColl s o x flMcMiss)
    | _ => .next s
  | none => .next s

/-! ### The pool (R421 to R424, R457) -/

def setPool (s : State) (r : Nat) (p : PoolRegion) : State := { s with pools := sset PoolRegion.init s.pools r p }

/-- The fields of a status word (R423). -/
def stDropped (v : Word) : Nat := v.toNat / 2 ^ 48
def stEpoch (v : Word) : Nat := v.toNat / 2 ^ 32 % 2 ^ 16
def stCause (v : Word) : Nat := v.toNat / 2 ^ 8 % 2 ^ 8
def statusOf (dropped epoch cause state : Nat) : Word :=
  BitVec.ofNat 64 (dropped * 2 ^ 48 + epoch % 2 ^ 16 * 2 ^ 32 + cause * 2 ^ 8 + (if dropped ≠ 0 then 4 else 0) + state)

/-- Cached bytes of a pool region. -/
def inRegion (s : State) (r key : Nat) : Bool := decide (poolOf s key = some r)

/-- Checkpoints whose target cannot be reached any longer fail (R341). -/
def failUnreached (s : State) : State :=
  s.cks.foldl (fun s e => if e.2.run.isSome && !ckReachable s (ckDesc s e.1) then ckFail s e.1 2 else s) s

/-- R422: the dirty bytes of HW lines that had not been written back when their caches dropped them: whether a sector had been is a free choice
(log 75). -/
def lostOld (s : State) (p : Nat → Bool) : List (Nat × Byte) :=
  (s.poolOld.filter (fun e => p e.1 && !Config.evicted (2 ^ 90 * (s.free + 1) + e.1 / 256))).filterMap (fun e => e.2.map (fun b => (e.1, b)))

/-- The pool bytes that satisfy p are again what their device holds. -/
def dropOld (s : State) (p : Nat → Bool) : State := flushOld { s with mem := ssetAll 0#8 s.mem (lostOld s p) } p

/-- R422: a region enters Lost: its cached lines are dropped, and the dirty sectors among them counted, those of HW lines too. -/
def enterLost (s : State) (r cause : Nat) : State :=
  let p := getPool s r
  if p.status.toNat % 4 ≠ 1 then s
  else
    let mine := s.swc.filter (fun e => inRegion s r (e.1 % 2 ^ 80))
    let dirty := ((mine.filter (fun e => match e.2 with | some b => b.2 | none => false)).map (fun e => e.1 / 256)).dedup.length +
      (runs ((lostOld s (inRegion s r)).map (fun e => e.1 / 256))).length
    let st := statusOf (min 65535 (stDropped p.status + dirty)) (stEpoch p.status + 1) cause 2
    let s1 := setPool (dropOld { s with swc := s.swc.filter (fun e => !inRegion s r (e.1 % 2 ^ 80)) } (inRegion s r)) r { p with status := st }
    vesper s1 12 0x06 (vsource 4 1) r st.toNat 0

/-- Regions that satisfy p enter Lost, each at its loss point. -/
def loseRegions (s : State) (p : PoolRegion → Bool) (cause : Nat) : State :=
  failUnreached ((s.pools.filter (fun e => p e.2)).foldl (fun s e => enterLost s e.1 cause) s)

/-- POOL_LOSS_EVENT (R421): causes 1 and 2 are the port's, 3 and 4 a device's. -/
def execPoolLossEvent (device cause : Nat) (s : State) : Host.Outcome State Fault Refusal :=
  if cause = 1 ∨ cause = 2 then
    let s1 := if cause = 1 then setPkg s { s.pkg with linkst := s.pkg.linkst &&& ~~~0x10000#64 } else s
    .next (loseRegions s1 (fun _ => true) cause)
  else if cause = 3 ∨ cause = 4 then .next (loseRegions s (fun p => p.rdev.toNat % 16 = device) cause)
  else .next s

/-- POOL_RESPONSE_TIMEOUT (R421). -/
def execPoolResponseTimeout (device : Nat) (s : State) : Host.Outcome State Fault Refusal :=
  .next (loseRegions s (fun p => p.rdev.toNat % 16 = device) 5)

/-- BISNP (R420): another requester of the pool takes a line once no engine operation holds it: its dirty sectors are written back, and it is
written where the other requester writes; value is the line after the access. -/
def execBisnp (region off : Nat) (write : Bool) (value : Nat) (s : State) : Host.Outcome State Fault Refusal :=
  let key := poolKey (getPool s (region % 1024)) (off / 1024 * 1024)
  if ownedRange s key 1024 then .next s
  else
    let s1 := flushOld s (fun k => decide (k / 1024 = key / 1024))
    if write then .next (writeOutside s1 key 1024 value) else .next s1

/-- The first region that runs the command. -/
def commandRegion (s : State) (cmd : Nat) : Option (Nat × PoolRegion) := s.pools.find? (fun e => e.2.cmd = cmd)

/-- Ends a region's command: result 1 done, 2 refused. -/
def endCommand (s : State) (r : Nat) (p : PoolRegion) (ok : Bool) : State := setPool s r { p with cmd := 0, rcmd := if ok then 1 else 2 }

/-- The check of a configuration: base and size are multiples of 64 MiB, and the range lies within the device and meets no other
configured region of it. -/
def regionFits (s : State) (r : Nat) (p : PoolRegion) : Bool :=
  let lo := p.rbase.toNat
  let hi := lo + p.rsize.toNat
  decide (lo % 2 ^ 26 = 0 ∧ p.rsize.toNat % 2 ^ 26 = 0 ∧ p.rsize.toNat ≠ 0) && decide (hi ≤ Config.poolSize (p.rdev.toNat % 16) ∧ hi ≤ 2 ^ 59) &&
    !s.pools.any (fun e => decide (e.1 ≠ r ∧ e.2.status.toNat % 4 ≠ 0 ∧ e.2.rdev.toNat % 16 = p.rdev.toNat % 16) &&
      decide (lo < e.2.rbase.toNat + e.2.rsize.toNat ∧ e.2.rbase.toNat < hi))

/-- The status word with another state. -/
def withState (v : Word) (st : Nat) : Word := BitVec.ofNat 64 (v.toNat / 4 * 4 + st)

/-- REGION_CONFIGURE (R457). -/
def execRegionConfigure (s : State) : Host.Outcome State Fault Refusal :=
  match commandRegion s 1 with
  | none => .next s
  | some (r, p) =>
    if p.status.toNat % 4 = 0 ∧ regionFits s r p then .next (endCommand s r { p with status := withState p.status 1 } true)
    else .next (endCommand s r p false)

/-- REGION_REACTIVATE (R424, R457): dropped and loss are cleared. -/
def execRegionReactivate (s : State) : Host.Outcome State Fault Refusal :=
  match commandRegion s 2 with
  | none => .next s
  | some (r, p) =>
    if p.status.toNat % 4 = 3 then .next (endCommand s r { p with status := statusOf 0 (stEpoch p.status) (stCause p.status) 1 } true)
    else .next (endCommand s r p false)

/-- REGION_DECONFIGURE (R457): every cached line is written back and invalidated. -/
def execRegionDeconfigure (s : State) : Host.Outcome State Fault Refusal :=
  match commandRegion s 3 with
  | none => .next s
  | some (r, p) =>
    if p.status.toNat % 4 = 1 ∨ p.status.toNat % 4 = 3 then
      .next (endCommand (flushOld (invScope s 0 7 (inRegion s r)) (inRegion s r)) r { p with status := withState p.status 0 } true)
    else .next (endCommand s r p false)

/-! ### plstat and plack (R424) -/

/-- The region operand: nullified, poisoned, too large, or the operation. -/
def poolBody (ack : Bool) (c : Ctx) (s : State) : State :=
  let l := lowLane c.sp.mask
  let a := opA s c l
  let ws := if ack then [a, opB s c l] else [a]
  match tagRule ws with
  | .nullified => settleAll c ((computeLanes c).map (fun l => (l, (⟨.n, (rdReg s c.w c.f.d.toNat l).data⟩ : TWord)))) s
  | .poisoned p => raisePoison c p s
  | .normal =>
    if a.data.toNat ≥ 1024 then raiseAll c causeIllegalOperand 0x0A s
    else startVar c .ex c.sp.mask (computeLanes c) (.pool ack c.f.d.toNat a.data.toNat ((opB s c l).data.toNat % 2 ^ 16)) s
def execPlstat (f : Fields) (s : State) := issue specPlstat f s (poolBody false)
def execPlack (f : Fields) (s : State) := issue specPlack f s (poolBody true)

/-- What plstat and plack do at their completion: the word for D. -/
def poolEffect (s : State) (ack : Bool) (r epoch : Nat) : State × TWord :=
  let p := getPool s r
  if !ack then (s, TWord.valid p.status)
  else if p.status.toNat % 4 = 2 ∧ stEpoch p.status = epoch then (setPool s r { p with status := withState p.status 3 }, TWord.valid 1)
  else (s, ⟨.n, 0⟩)

/-! ### EX_OPERATION_COMPLETE (R39) -/

/-- The completion, or a step towards it, of an operation on EX that has no step of its own. -/
def exComplete (s : State) (o : Op) : State :=
  match o.kind with
  | .result ws => finishOp s o ws
  | .pool ack d r epoch => let x := poolEffect s ack r epoch; finishOp x.1 o ((lanesOf o.lanes).map (fun l => (d, l, x.2)))
  | .halo x => haloStep s o x
  | .coll x => collStep s o x
  | .ray .. => (rayAnswer s o).getD s
  | _ => s

def execExOperationComplete (id : Nat) (s : State) : Host.Outcome State Fault Refusal :=
  match findOp s id with
  | some o => .next (exComplete s o)
  | none => .next s

/-! ### Peer memory (R404, R405) -/

/-- A write from outside to a frozen frame (R320). -/
def logFrozen (s : State) (pa sender : Nat) : State := vesper s (4 + pa / 2 ^ 39) 0x05 (vsource 1 33) pa sender 0

/-- The port that carries an operation's packets to a package: packets already sent keep their route (R456). -/
def routePort (o : Op) (p : Nat) : Nat := (sget 0#64 o.routes p).toNat % 16

/-- Accesses of an operation that do not reach their peer: loads and returning lanes take X, and writes are discarded and recorded. -/
def dropAccs (s : State) (o : Op) (cause : Nat) (sel : List Acc) : State :=
  let x (a : Acc) : TWord := ⟨.x, payload cause a.va⟩
  let cut := sel.map (fun a => { a with left := [], whole := false })
  match o.kind with
  | .load _ _ d n _ => settleOp s o cut (sel.flatMap (fun a => groupWrites d a.lane (List.replicate n (x a))))
  | .store .. | .atomic .. =>
    let s1 := sel.foldl (fun s a => match peerOf a.key with | some (p, pa) => logDropped s (routePort o p) pa (selfId s) | none => s) s
    let ws := match o.kind with
      | .atomic _ a => (match a.d with
        | some d => sel.flatMap (fun y => groupWrites d y.lane (List.replicate (if a.kind = 2 ∧ !a.cond then 2 else 1) (x y)))
        | none => [])
      | _ => []
    settleOp s1 o cut ws
  | _ => s

/-- Destination pages of peer memory that an engine operation loses; a write to them is discarded and recorded once a page. -/
def dropPages (s : State) (o : Op) (p : Leaf → Bool) (mark : Nat) : State :=
  let gone (e : Nat × Leaf) : Bool := decide (e.2.tgt = 3) && p e.2
  let pages : List (Nat × Leaf) := match o.kind with
    | .copy c => c.pages
    | .matrix m => m.pages
    | .coll x => x.pages
    | .halo x => x.ents.flatMap (fun e => e.box.pages)
    | _ => []
  let cut (l : List (Nat × Leaf)) : List (Nat × Leaf) := l.filter (fun e => !gone e)
  let kind : OpKind := match o.kind with
    | .copy c => .copy { c with pages := cut c.pages }
    | .matrix m => .matrix { m with pages := cut m.pages }
    | .coll x => .coll { x with pages := cut x.pages }
    | .halo x => .halo { x with ents := x.ents.map (fun e => { e with box := { e.box with pages := cut e.box.pages } }) }
    | k => k
  let s1 := (pages.filter gone).foldl (fun s e => logDropped s (routePort o e.2.peer) e.2.base (selfId s)) s
  { s1 with ops := s1.ops.map (fun q => if q.id = o.id then { q with kind := kind, denied := mark :: q.denied } else q) }

/-- An operation of a copy, matrix or collective engine. -/
def isEngine (o : Op) : Bool := match o.kind with | .copy _ => true | .matrix _ => true | .coll _ => true | .halo _ => true | _ => false

/-- An access of another package to this package's memory (R405): kind 0 a read, 1 a write, 2 an update by op, 3 a compare and swap. What
it reads goes to outRead (log 12). -/
def serveOutside (s : State) (sender kind op : Nat) (ty : BitVec 4) (pa len value cmp : Nat) : State :=
  let old := rdMem s pa len
  let none_ : Nat := 2 ^ (8 * len)
  if (dataFault s (2 ^ 40) pa len).isSome ∧ kind ≠ 1 then { s with outRead := none_ }
  else if kind = 0 then { s with outRead := old }
  else if sget false s.frozen (pa / 2 ^ 16) then logFrozen { s with outRead := none_ } pa sender
  else
    let new := if kind = 1 then value else if kind = 3 then (if old = cmp then value else old) else atomNew op ty old value
    if kind = 1 then writeOutside { s with outRead := old } pa len new else writeHome { s with outRead := old } (2 ^ 40) pa len new

/-! An access to a peer that is under way is named by a number (log 77): an outstanding operation by its own; a load stream by 2^40 and its queue's
key; the fetch of a split by 2^41, 64 for each warp, and its entry. -/

def streamName (w lane q : Nat) : Nat := 2 ^ 40 + qkey w lane q
def fetchName (w k : Nat) : Nat := 2 ^ 41 + 64 * w + k

/-- The lanes of a monitor that satisfy p take X; the monitor ends with its last lane (R265, R405). -/
def dropMons (s : State) (o : Op) (cause : Nat) (p : Acc → Bool) : State :=
  match o.kind with
  | .monitor ls d ty cc scope =>
    let s1 := setOpKind s o.id (.monitor (ls.map (fun m => if m.out.isNone && p m.acc then { m with out := some ⟨.x, payload cause m.acc.va⟩ } else m)) d ty cc scope)
    match (validSplits s1 o.w).find? (fun e => decide (e.2.susp = some (.op o.id))) with
    | some e => monEvent s1 o.w e.1 false
    | none => s1
  | _ => s

/-- The address of the next element of a load stream, where its translation satisfies p. -/
def streamAt (s : State) (w lane q : Nat) (p : Nat → Bool) : Option Nat :=
  let x := getQueue s w lane q
  if !fetchReady s w lane q then none
  else match checkAddr s { agentOf s w (laneSup s w lane) with denied := x.denied } x.addr.toNat (tyBytes x.ty) .load with
  | .ok _ key => if p key then some x.addr.toNat else none
  | _ => none

/-- The next element of a load stream that does not reach its peer is entered as X (R199, R405). -/
def dropStream (s : State) (w lane q cause : Nat) (p : Nat → Bool) : State :=
  match streamAt s w lane q p with
  | some va =>
    let x := getQueue s w lane q
    setQueue s w lane q { x with entries := x.entries ++ [⟨.x, payload cause va⟩], addr := x.addr + x.stride, toFetch := x.toFetch - 1, denied := [] }
  | none => s

/-- An access under way that does not reach its peer: the lanes whose keys satisfy p take X, or their writes are discarded; what an engine, a ray
query or a fetch finds there is refused under a mark. -/
def dropPeer (s : State) (name cause mark : Nat) (lanes : Mask) (p : Nat → Bool) (leaf : Leaf → Bool) : State :=
  if name ≥ 2 ^ 41 then
    let w := (name - 2 ^ 41) / 64
    let k := (name - 2 ^ 41) % 64
    let sp := getSplit s w k
    if sp.mask = 0 then s else setSplit s w k { sp with denied := mark :: sp.denied }
  else if name ≥ 2 ^ 40 then
    let q := name - 2 ^ 40
    dropStream s (q / 128) (q / 4 % 32) (q % 4) cause p
  else match findOp s name with
  | none => s
  | some o =>
    if isEngine o then dropPages s o leaf mark
    else match o.kind with
    | .ray .. => { s with ops := s.ops.map (fun e => if e.id = o.id then { e with denied := mark :: e.denied } else e) }
    | .monitor .. => dropMons s o cause (fun a => lanes.getLsbD a.lane && p a.key)
    | _ => dropAccs s o cause (together o ((accsOfOp o).filter (fun a => lanes.getLsbD a.lane && p a.key)))

/-- PEER_ACCESS_ARRIVAL (R405). Inward, an access of package src arrives here and is served or refused. Outward, the access named src arrives at
package kind, whose memory holds value at the address; it is performed or refused. Of an engine operation or a ray query the arrival says only
what is refused. An arrival takes a link that is up (R404). -/
def execPeerAccessArrival (out : Bool) (src kind op : Nat) (ty : BitVec 4) (pa len value cmp : Nat) (allowed : Bool) (s : State) :
    Host.Outcome State Fault Refusal :=
  if out then
    let key := peerBase kind + pa
    let hit (k : Nat) : Bool := decide (k = key)
    let up := match findOp s src with | some o => routeUp s o kind | none => portUp s (portOf s kind)
    if !up then .next s
    else if !allowed then
      .next (dropPeer s src causePagePermission (key / 2 ^ 16) 0xFFFFFFFF#32 hit (fun l => decide (l.peer = kind ∧ l.base ≤ pa ∧ pa < l.base + 2 ^ l.bits)))
    else
      let there (s : State) : State := if len = 0 then s else wrMem s key len value
      match findOp s src with
      | none => .next (if src ≥ 2 ^ 40 then there s else s)
      | some o =>
        let sel := (accsOfOp o).filter (fun a => hit a.key)
        if isEngine o then .next s
        else if sel.isEmpty then .next (match o.kind with | .monitor .. => there s | _ => s)
        else .next (performOp (there s) o (maskOf (fun l => sel.any (fun a => a.lane = l))))
  else if len = 0 ∨ !populated s pa ∨ !populated s (pa + len - 1) ∨ ownedRange s pa len ∨ !anyLink s then .next s
  else if allowed then .next (serveOutside s src kind op ty pa len value cmp)
  else .next (if kind = 0 then { s with outRead := 2 ^ (8 * len) } else logDropped { s with outRead := 2 ^ (8 * len) } (portOf s src) pa src)

/-- PEER_ACCESS_TIMEOUT (R405): no route delivers the accesses of the lanes, or those of an engine operation, in time. -/
def execPeerAccessTimeout (id : Nat) (lanes : Mask) (s : State) : Host.Outcome State Fault Refusal :=
  .next (dropPeer s id causeMemUe (2 ^ 70) lanes (fun k => (peerOf k).isSome) (fun _ => true))

/-- UALINK_LINK_LOST (R404): the port's link is down; a checkpoint that streams over it fails (R341). -/
def execUalinkLinkLost (port : Nat) (s : State) : Host.Outcome State Fault Refusal :=
  let s1 := setPkg s { s.pkg with linkst := s.pkg.linkst &&& ~~~(BitVec.ofNat 64 (2 ^ (port % 16))) }
  .next (s1.cks.foldl (fun s e =>
    if e.2.run.isSome && decide (ckKind (ckDesc s e.1) = 1 ∧ portOf s (ckDest (ckDesc s e.1)) = port % 16) then ckFail s e.1 2 else s) s1)

/-- LINK_UP (R455): UALink port 0 to 15, or 16 for the pool port. -/
def execLinkUp (port : Nat) (s : State) : Host.Outcome State Fault Refusal :=
  .next (setPkg s { s.pkg with linkst := s.pkg.linkst ||| BitVec.ofNat 64 (2 ^ (port % 17)) })

/-! ### What the engine does next by itself (log 2) -/

/-- A wait that is not on a page whose stall is recorded: the step that meets a new one records it (R474). -/
def pageOpen (s : State) (w : Option Wait) : Bool := match w with | some (.page d h sp g _) => !stallsOpen s d h sp g | _ => true

def pickFabric (s : State) (o : Op) : Option Instr :=
  match o.kind with
  | .pool .. => some (.exOperationComplete o.id)
  | .halo x => if haloDue s o x then some (.exOperationComplete o.id) else none
  | .coll x =>
    if collDue s o x then some (.exOperationComplete o.id)
    else if x.n = 1 ∧ x.res.isNone ∧ (collUnread x).isEmpty then some (.collectiveComplete o.id []) else none
  | _ => none

/-- A command of a pool region that runs. -/
def pickRegion (s : State) : Option Instr :=
  if (commandRegion s 1).isSome then some .regionConfigure
  else if (commandRegion s 2).isSome then some .regionReactivate
  else if (commandRegion s 3).isSome then some .regionDeconfigure else none

end Sys2Proof.Machine
end

