-- ==== Sys2Proof/Machine/Restore.lean ====
section
/-!
DEFINITION. Restoring a version region from a checkpoint: REGION_RESTORE_DONE (R342, R458).
-/
namespace Sys2Proof.Machine

/-! ### Manifests (R338) -/

/-- n bytes of the log from an offset. -/
def logBytes (s : State) (d off n : Nat) : List Byte := (List.range n).map (fun i => rdByte s (ckTarget s d (2 ^ 17 + (off + i) % logLen d)))

/-- The shards of a manifest verify by their digests, and the manifest by its signature when it is signed (R342). -/
def verifies (s : State) (d i : Nat) (m : Manifest) : Bool :=
  m.shards.all (fun e => decide (e.off < logLen d ∧ e.len ≤ logLen d) && decide (Config.digest (logBytes s d e.off e.len) % 2 ^ 512 = e.digest)) &&
    (!m.signed ||
      (let n := 64 + 96 * m.shards.length
       let g := Config.digest (leBytes n (targetNum s d (2 ^ 16 * i) n))
       let x := targetNum s d (2 ^ 16 * i + n) 64
       decide (x = Config.sign g % 2 ^ 512) || Config.otherSigned g x))

/-- The manifest that a restore takes, or the state that ends it. -/
def chooseManifest (s : State) (d : Nat) (any : Bool) (step : Nat) : Except Nat Manifest :=
  let ms := (List.range 2).filterMap (fun i => (readManifest s d i).map (fun m => (i, m)))
  let held := if any then ms else ms.filter (fun e => e.2.step = step)
  let good := (held.filter (fun e => verifies s d e.1 e.2)).insertionSort (fun a b => a.2.seq ≥ b.2.seq)
  match good with
  | e :: _ => .ok e.2
  | [] => .error (if !any && held.isEmpty then 5 else 3)

/-! ### Pages -/

/-- A sector of a page: page index, sector, contents, poisoned. -/
structure CkSector where
  page : Nat
  sector : Nat
  data : Nat
  bad : Bool

/-- A little-endian number. -/
def leNum (bs : List Byte) : Nat := bs.foldr (fun b v => b.toNat + 256 * v) 0

/-- The records of a shard (R338); n bounds their number. -/
def shardSectors : Nat → List Byte → List CkSector
  | 0, _ => []
  | n + 1, bs =>
    if bs.length < 80 then []
    else
      let page := leNum (bs.take 8)
      let map := leNum ((bs.drop 8).take 32)
      let bad := leNum ((bs.drop 40).take 32)
      let secs := (List.range 256).filter (fun i => map.testBit i)
      let body := bs.drop 80
      secs.zipIdx.map (fun e => { page := page, sector := e.1, data := leNum ((body.drop (256 * e.2)).take 256), bad := bad.testBit e.1 }) ++
        shardSectors n (body.drop (256 * secs.length))

/-- The sectors of a manifest's step, a later record over an earlier one. -/
def manifestSectors (s : State) (d : Nat) (m : Manifest) : List CkSector :=
  m.shards.flatMap (fun e => shardSectors (e.len / 80) (logBytes s d e.off e.len))

/-- The VDB of a page about to take a frame as step t: slots that hold a working frame or a frame of step t or later are emptied, their
frames going to the pool while it has room. -/
def clearLater (s : State) (r v t : Nat) : State × Nat :=
  ((List.range 4).filter (fun j => slotValid (slotOf v j) && ((vdbWv v && decide (vdbWs v = j)) || decide (slotStep (slotOf v j) ≥ t)))).foldl (fun acc j =>
    let d := rdRegion acc.1 r
    let n := rgPoolcnt d
    let f := slotFrame (slotOf acc.2 j)
    if n < rgPoolcap d then
      (wrMem (wrMem (cleanFrame acc.1 f) (rgPool d + 4 * n) 4 f) (regionAddr acc.1 r + 32) 4 (n + 1), withSlot acc.2 j 0)
    else (acc.1, withSlot acc.2 j 0)) (s, v)

/-- One page in a fresh frame as published step t (R342). -/
def restorePage (r t : Nat) (secs : List CkSector) (s : State) (j : Nat) : State :=
  let vdb := (regionView s r).vdbs + 64 * j
  let d := rdRegion s r
  let n := rgPoolcnt d
  let f := rdMem s (rgPool d + 4 * (n - 1)) 4 % 2 ^ 23
  let s1 := cleanFrame (wrMem s (regionAddr s r + 32) 4 (n - 1)) f
  let s2 := (secs.filter (fun e => e.page = j)).foldl (fun s e =>
    let a := frameAddr f + 256 * e.sector
    { wrMem s a 256 e.data with poison := sset 0 s.poison (a / 256) (if e.bad then 1 else 0) }) s1
  let c := clearLater s2 r (rdVdb s2 vdb) t
  let k := (freeSlots c.2).headD 0
  let v := withSlot c.2 k (2 ^ 55 + t * 2 ^ 23 + f) % 2 ^ 256
  let s3 := putVdb c.1 vdb (v / 2 ^ 16 * 2 ^ 16 + v % 2 ^ 13)
  { s3 with frozen := sset false s3.frozen (frameAddr f / 2 ^ 16) true }

/-! ### The restore (R342, R458) -/

/-- The region is deactivated; a checkpoint in progress ends with state 4. -/
def deactivate (s : State) (r : Nat) : State :=
  let s1 := ckFail s r 4
  let b := rdMem s1 (regionAddr s1 r + 5) 1
  let s2 := wrMem s1 (regionAddr s1 r + 5) 1 (b / 4 * 4 + b % 2)
  { s2 with regions := sset none s2.regions r none }

/-- Ends the restore with a state. -/
def endRestore (s : State) (step state : Nat) : State := { s with rsstat := BitVec.ofNat 64 (step % 2 ^ 32 * 2 ^ 32 + state) }

/-- Writes the pages, the change map, wstep and lastck, and activates the region. -/
def restoreRegion (s : State) (r : Nat) (m : Manifest) (secs : List CkSector) (pages : List Nat) : State :=
  let s1 := pages.foldl (restorePage r m.step secs) s
  let s2 := (List.range (regionView s1 r).pages).foldl (fun s j => fillZero s ((regionView s r).cmap + 64 * j) 64) s1
  let s3 := wrMem (wrMem s2 (regionAddr s2 r + 40) 4 (m.step + 1)) (regionAddr s2 r + 44) 4 m.step
  let b := rdMem s3 (regionAddr s3 r + 5) 1
  let s4 := syncRegion (wrMem s3 (regionAddr s3 r + 5) 1 (b / 4 * 4 + 2 + b % 2)) r
  endRestore (setCk s4 r CkState.init) m.step 2
where
  /-- n bytes become 0. -/
  fillZero (s : State) (lo n : Nat) : State := { s with mem := sreplace 0#8 s.mem lo n [] }

/-- The restore that the registers name. -/
def restore (s0 : State) : State :=
  let r := s0.rsreg.toNat % 4096
  let d := rdMem s0 s0.rsdesc.toNat 64
  let s := deactivate s0 r
  let pages := (regionView s r).pages
  if s.pkg.vrtab = 0 ∨ pages = 0 then endRestore s0 0 7
  else if !ckReachable s d then endRestore s 0 4
  else
    match chooseManifest s d (s0.rsstep.getLsbD 32) (s0.rsstep.toNat % 2 ^ 32) with
    | .error n => endRestore s 0 n
    | .ok m =>
      let secs := manifestSectors s d m
      let js := ((secs.map (·.page)).dedup).insertionSort (fun a b => a ≤ b)
      if js.any (fun j => decide (j ≥ pages)) then endRestore s 0 7
      else if rgPoolcnt (rdRegion s r) < js.length then endRestore s 0 6
      else restoreRegion s r m secs js

/-- REGION_RESTORE_DONE (R342, R458): the restore that runs ends. -/
def execRegionRestoreDone (s : State) : Host.Outcome State Fault Refusal :=
  if s.rsstat.toNat % 256 = 1 then .next (restore s) else .next s

end Sys2Proof.Machine
end

