-- ==== Sys2Proof/Machine/System.lean ====
section
/-!
DEFINITION. Words that are no instruction (R64, R66), and the system instructions 0x1C0 to 0x1CB (R434 to R446, R453), each performed
whole at its issue unless something it waits for is outstanding.
-/
namespace Sys2Proof.Machine

/-! ### Unassigned and extension opcodes -/

/-- A word that traps by its opcode, whatever its fields hold. -/
def specAny (op : BitVec 9) : OpSpec :=
  { specNone op with d := chkAny, a := chkAny, b := chkAny, c := chkAny, ty := chkAny, md := chkAny }

/-- UNASSIGNED_OPCODE (R60 step 2, R64). -/
def execUnassignedOpcode (op : BitVec 9) (f : Fields) (s : State) := opcodeTrap (specAny op) causeIllegalOpcode 0x01 f s
/-- EXTENSION_OPCODE (R60 step 3, R66): no extension set is present. -/
def execExtensionOpcode (op : BitVec 9) (f : Fields) (s : State) := opcodeTrap (specAny op) causeExtEmulate 0x02 f s

/-! ### Rows (R434) -/

/-- D: a vector or scalar register, or `zero`; any other operand has subcode 0x04. -/
def sysD : Chk := fun e => (badReg e e.f.d).or (if isV e.f.d || isSZ e.f.d then none else some 0x04)
/-- A: a scalar register or `zero`. -/
def sysA : Chk := scalarOf (·.a)
def specSys (op : BitVec 9) (sup : Bool) : OpSpec :=
  { specNone op with cls := .s, priv := chkIf 0x01 (fun e => e.sup || !sup) }
def tretMode (f : Fields) : Nat := f.md.toNat % 4
def specTret : OpSpec :=
  { specSys 0x1C0 false with
    a := fun e => if tretMode e.f = 2 then sysA e else unusedA e, md := Chk.and (mdBits 3) (chkIf 0x04 (fun e => decide (tretMode e.f ≠ 3))),
    reads := fun f => if tretMode f = 2 then [f.a] else [] }
def specTfix : OpSpec :=
  { specSys 0x1C1 false with
    a := fun e => (badReg e e.f.a).or (if isV e.f.a || isSZ e.f.a then none else some 0x04), md := mdBits 3, reads := rdA }

/-- The number of a supervisor register. -/
def csrNum (f : Fields) : Nat := f.md.toNat % 4096
/-- The supervisor registers (R438), and those that may be written. -/
def csrKnown (n : Nat) : Bool :=
  decide (n ≤ 5) || decide (8 ≤ n ∧ n ≤ 0x0B) || decide (n = 0x10 ∨ n = 0x11) || decide (0x20 ≤ n ∧ n ≤ 0x24) || decide (0x28 ≤ n ∧ n ≤ 0x2B) ||
    decide (0x30 ≤ n ∧ n ≤ 0x33) || decide (n = 0x38 ∨ n = 0x39) || decide (0x40 ≤ n ∧ n ≤ 0x42)
def csrWritable (n : Nat) : Bool := csrKnown n && decide (n ≥ 5)
def specCsrr : OpSpec :=
  { specSys 0x1C2 true with
    d := sysD, md := Chk.and (mdBits 0xFFF) (chkIf 0x04 (fun e => csrKnown (csrNum e.f) && !(decide (csrNum e.f = 4) && isS e.f.d))) }
def specCsrw : OpSpec :=
  { specSys 0x1C3 true with a := sysA, md := Chk.and (mdBits 0xFFF) (chkIf 0x04 (fun e => csrWritable (csrNum e.f))), reads := rdA }
def specPage (op : BitVec 9) (md : Chk) : OpSpec := { specSys op true with d := sysD, a := sysA, b := scalarB, md := md, reads := rdAB }
def specPgmode : OpSpec := specPage 0x1C4 (Chk.and (mdBits 3) (chkIf 0x04 (fun e => decide (e.f.md.toNat % 4 ≠ 3))))
def specPgrep : OpSpec := { specPage 0x1C5 mdZero with c := scalarC, reads := rdABC }
def specPgcol : OpSpec := { specPage 0x1C6 (mdBits 4) with c := scalarC, reads := rdABC }
def specTlbinv : OpSpec := { specPage 0x1C7 (Chk.and (mdBits 3) (chkIf 0x04 (fun e => decide (e.f.md.toNat % 4 ≠ 3)))) with d := unusedD }
def specPreempt : OpSpec := specPage 0x1C8 (mdBits 1)
def specResume : OpSpec := { specSys 0x1C9 true with d := sysD, a := sysA, reads := rdA }
def specBlkkill : OpSpec := specPage 0x1CA (mdBits 1)
def specVlog : OpSpec := { specSys 0x1CB false with a := sysA, b := scalarB, reads := rdAB }

/-! ### Operands and results -/

/-- Issues a system word, not before what it waits for is over. -/
def sysExec (spec : OpSpec) (hold : Ctx → State → Bool) (f : Fields) (s : State) (body : Ctx → State → State) : Host.Outcome State Fault Refusal :=
  issueUnless spec hold f s body

/-- The word of a scalar operand. -/
def scalarWord (s : State) (c : Ctx) (get : State → Ctx → Nat → TWord) : Word := (get s c (lowLane c.sp.mask)).data

/-- Writes a word to D in every active lane (R434). -/
def sysWrite (c : Ctx) (v : TWord) (s : State) : State := writeNow s c.w c.f.d.toNat ((computeLanes c).map (fun l => (l, v)))

/-- A completed instruction: D takes the word with tag V. -/
def sysDone (c : Ctx) (v : Word) (s : State) : State := advance c (sysWrite c (TWord.valid v) s)
/-- A refusal: the reason with tag N (R434). -/
def sysRefuse (c : Ctx) (code : Nat) (s : State) : State := advance c (sysWrite c ⟨.n, BitVec.ofNat 64 code⟩ s)

/-- The tags of the operands read (R434): N nullifies, X traps. -/
def sysTags (c : Ctx) (ws : List TWord) (s : State) (go : State) : State :=
  match tagRule ws with
  | .nullified => settleAll c ((computeLanes c).map (fun l => (l, (⟨.n, (rdReg s c.w c.f.d.toNat l).data⟩ : TWord)))) s
  | .poisoned p => raisePoison c p s
  | .normal => go

/-- The words of A, B and C in the lowest active lane. -/
def sysABC (c : Ctx) (s : State) (n : Nat) : List TWord :=
  let l := lowLane c.sp.mask
  [opA s c l, opB s c l, opC s c l].take n

/-! ### tret (R435) -/

/-- The split after the word at an address, with what remains of its clause there; after the last word it stands at the clause position
that follows. -/
def afterWord (sp : Split) (pc : BitVec 56) (rem wpos cls ext : Nat) : Split :=
  if rem ≤ 1 then { sp with pc := pc + 8, rem := 0, wpos := 0, hdr := none, susp := none }
  else { sp with pc := pc + 8, rem := rem - 1, wpos := wpos + 1, cls := cls, ext := ext, hdr := none, susp := none }

/-- The split back at the trapped word or header. -/
def atWord (sp : Split) (h : Handler) : Split :=
  { sp with pc := h.pc, far := h.far, rem := h.rem, wpos := h.wpos, cls := h.cls, ext := h.ext, hdr := none, susp := none }

/-- The split where a skip continues: after the word, or after the clause of a header. -/
def afterTrap (sp : Split) (h : Handler) : Split :=
  if h.header then { sp with pc := h.pc + BitVec.ofNat 56 (8 * (h.count + 2)), far := h.far, rem := 0, wpos := 0, hdr := none, susp := none }
  else afterWord { sp with far := h.far } h.pc h.rem h.wpos h.cls h.ext

/-- The mode after a handler: the one its trap recorded, which sstat holds for a supervisor handler (R438). -/
def modeAfter (s : State) (w : Nat) (h : Handler) : Bool := if h.sup then (getWarp s w).sstat.getLsbD 0 else h.fromSup

/-- The end of a handler: the split without it, in its former mode, at the cycle of a control transfer (R156). -/
def leaveHandler (c : Ctx) (s : State) (h : Handler) (rest : List Handler) : Split :=
  { getSplit s c.w c.k with hs := rest, sup := modeAfter s c.w h, rhold := 0, starve := c.sp.starve, denied := [], next := transferTime c.t c.f false }

/-- retry: lanes outside the retry set go on after the trapped word, as the youngest split. -/
def tretRetry (c : Ctx) (h : Handler) (rest : List Handler) (s : State) : State :=
  let sp := leaveHandler c s h rest
  let again := sp.mask &&& h.retry
  let on := sp.mask &&& ~~~h.retry
  if on = 0 then setSplit s c.w c.k (atWord sp h)
  else if again = 0 then setSplit s c.w c.k (afterTrap sp h)
  else addSplit (setSplit s c.w c.k (atWord { sp with mask := again } h)) c.w (afterTrap { sp with mask := on, hs := [] } h)

/-- tret: the handler's fixed-latency results have landed when the split goes on (R59). -/
def tretBody (c : Ctx) (s : State) : State :=
  let ws := if tretMode c.f = 2 then sysABC c s 1 else []
  sysTags c ws s <|
    match c.sp.hs with
    | [] => raiseAll c causeIllegalOperand 0x0D s
    | h :: rest =>
      let a := scalarWord s c opA
      let s := landLanes s c.w c.sp.mask
      match tretMode c.f with
      | 0 => tretRetry c h rest s
      | 1 => setSplit s c.w c.k (afterTrap (leaveHandler c s h rest) h)
      | _ =>
        if a.toNat % 8 ≠ 0 then raiseAll c causeAlign 0 s
        else setSplit s c.w c.k { leaveHandler c s h rest with pc := a.truncate 56, far := a.extractLsb' 56 8, rem := 0, wpos := 0, hdr := none, susp := none }
def execTret (f : Fields) (s : State) := issue specTret f s tretBody

/-! ### tfix (R436) -/

/-- The fields of an instruction word (R51). -/
def trapOp (w : Word) : Nat := w.toNat / 2 ^ 52 % 2 ^ 9
def trapD (w : Word) : Nat := w.toNat / 2 ^ 44 % 2 ^ 8
def trapImm (w : Word) : Bool := decide (w.toNat / 2 ^ 28 % 2 ^ 8 = 0xFF ∨ w.toNat / 2 ^ 20 % 2 ^ 8 = 0xFF)
def trapMod (w : Word) : Nat := if trapImm w then 0 else w.toNat % 2 ^ 16

/-- The registers of the destination group of an instruction word (R194, R247, R326, R387, R393). -/
def groupSize (w : Word) : Nat :=
  match trapOp w with
  | 0x100 => if trapMod w / 4 % 4 = 1 then 2 else if trapMod w / 4 % 4 = 2 then 4 else 1
  | 0x102 => if trapMod w / 4 % 4 = 1 then 2 else if trapMod w / 4 % 4 = 2 then 4 else 1
  | 0x104 => if trapMod w / 4 % 4 = 1 then 2 else if trapMod w / 4 % 4 = 2 then 4 else 1
  | 0x119 => if trapMod w / 4 % 4 = 1 then 2 else if trapMod w / 4 % 4 = 2 then 4 else 1
  | 0x122 => if (trapMod w).testBit 6 then 1 else 2
  | 0x192 => 3
  | 0x193 => 3
  | 0x196 => 2
  | _ => 1

def tfixBody (c : Ctx) (s : State) : State :=
  match c.sp.hs with
  | [] => raiseAll c causeIllegalOperand 0x0D s
  | h :: _ =>
    let wp := getWarp s c.w
    let word := if h.sup then wp.sinfo else wp.tinfo
    let lanes := lanesOf ((if h.sup then wp.smask else wp.tmask).truncate 32)
    let k := (modOf c.f).toNat % 4
    let d := trapD word
    let r := d + k
    if d = 0xE4 then advance c s
    else if k ≥ groupSize word then raiseAll c causeIllegalOperand 0x0A s
    else if r < wp.vregs then advance c (writeFixed s c.w r c.t 3 (lanes.map (fun l => (l, opA s c l))))
    else if 0xC0 ≤ r ∧ r < 0xE0 then
      (if isV c.f.a then raiseAll c causeIllegalOperand 0x04 s
       else advance c (writeFixed s c.w r c.t 3 [(lowLane c.sp.mask, opA s c (lowLane c.sp.mask))]))
    else raiseAll c causeIllegalOperand 0x0A s
def execTfix (f : Fields) (s : State) := issue specTfix f s tfixBody

/-! ### csrr and csrw (R437, R438) -/

def getDie (s : State) (d : Nat) : DieSt := sget DieSt.init s.dies d
def setDie (s : State) (d : Nat) (x : DieSt) : State := { s with dies := sset DieSt.init s.dies d x }

/-- A supervisor register as a warp's lane reads it. -/
def csrRead (s : State) (w n lane : Nat) : Word :=
  let wp := getWarp s w
  let d := getDie s (dieOf s w)
  let k := getCore s (coreOf s w)
  match n with
  | 0x00 => wp.scause
  | 0x01 => wp.spc
  | 0x02 => wp.smask
  | 0x03 => wp.sinfo
  | 0x04 => sget 0#64 s.sval (lkey w lane)
  | 0x05 => wp.sstat
  | 0x08 => wp.ssave0
  | 0x09 => wp.ssave1
  | 0x0A => wp.ssave2
  | 0x0B => wp.ssave3
  | 0x10 => (getBlock s (blkOf w)).aspace.zeroExtend 64
  | 0x11 => d.dspace
  | 0x20 => d.svec
  | 0x21 => d.evec
  | 0x22 => s.pkg.sroot
  | 0x23 => s.pkg.rootab
  | 0x24 => s.pkg.pasidtab
  | 0x28 => d.clsq0
  | 0x29 => d.clsq1
  | 0x2A => d.clsq2
  | 0x2B => d.clsq3
  | 0x30 => s.pkg.rstab
  | 0x31 => s.pkg.rscnt
  | 0x32 => s.pkg.vrtab
  | 0x33 => s.pkg.grptab
  | 0x38 => d.csave
  | 0x39 => d.ccnt
  | 0x40 => k.rchk
  | 0x41 => k.wdog
  | 0x42 => d.vlogq
  | _ => 0

def csrrBody (c : Ctx) (s : State) : State :=
  advance c (writeNow s c.w c.f.d.toNat ((computeLanes c).map (fun l => (l, TWord.valid (csrRead s c.w (csrNum c.f) l)))))
def execCsrr (f : Fields) (s : State) := issue specCsrr f s csrrBody

/-- A write to a supervisor register; reserved bits are not kept (R4). -/
def csrWrite (s : State) (w n : Nat) (v : Word) : State :=
  let wp := getWarp s w
  let dn := dieOf s w
  let d := getDie s dn
  let kn := coreOf s w
  let k := getCore s kn
  match n with
  | 0x05 => setWarp s w { wp with sstat := v &&& 3 }
  | 0x08 => setWarp s w { wp with ssave0 := v }
  | 0x09 => setWarp s w { wp with ssave1 := v }
  | 0x0A => setWarp s w { wp with ssave2 := v }
  | 0x0B => setWarp s w { wp with ssave3 := v }
  | 0x10 => setBlock s (blkOf w) { getBlock s (blkOf w) with aspace := v.truncate 21 }
  | 0x11 => setDie s dn { d with dspace := v &&& 0x1FFFFF }
  | 0x20 => setDie s dn { d with svec := v }
  | 0x21 => setDie s dn { d with evec := v }
  | 0x22 => setPkg s { s.pkg with sroot := v }
  | 0x23 => setPkg s { s.pkg with rootab := v }
  | 0x24 => setPkg s { s.pkg with pasidtab := v }
  | 0x28 => setDie s dn { d with clsq0 := v &&& 0x1F }
  | 0x29 => setDie s dn { d with clsq1 := v &&& 0x1F }
  | 0x2A => setDie s dn { d with clsq2 := v &&& 0x1F }
  | 0x2B => setDie s dn { d with clsq3 := v &&& 0x1F }
  | 0x30 => setPkg s { s.pkg with rstab := v }
  | 0x31 => setPkg s { s.pkg with rscnt := v }
  | 0x32 => syncTable (setPkg s { s.pkg with vrtab := v })
  | 0x33 => setPkg s { s.pkg with grptab := v }
  | 0x38 => setDie s dn { d with csave := v }
  | 0x39 => setDie s dn { d with ccnt := v }
  | 0x40 => setCore s kn { k with rchk := v &&& 1 }
  | 0x41 => setCore s kn { k with wdog := v &&& 0xFFFFFFFF }
  | 0x42 => setDie s dn { d with vlogq := v &&& 0xFFFF }
  | _ => s

def csrwBody (c : Ctx) (s : State) : State :=
  sysTags c (sysABC c s 1) s (advance c (csrWrite s c.w (csrNum c.f) (scalarWord s c opA)))
def execCsrw (f : Fields) (s : State) := issue specCsrw f s csrwBody

/-! ### Pages (R189, R439 to R441) -/

/-- The space that B names; none where its other bits are not zero (R439). -/
def spaceOf (b : Word) : Option Nat :=
  let x := b.toNat
  if x / 2 ^ 21 ≠ 0 ∨ (!x.testBit 20 ∧ x / 2 ^ 16 ≠ 0) then none else some x

/-- The bytes of a page: its frames, its copies, or its range. -/
def inPage (s : State) (l : Leaf) (k : Nat) : Bool :=
  if l.ver then
    let v := rdVdb s l.base
    (List.range 4).any (fun j => slotValid (slotOf v j) && decide (frameAddr (slotFrame (slotOf v j)) / 2 ^ 16 = k / 2 ^ 16))
  else if l.rep then
    let e := (replicaSet s l.base l.level).getD 0
    (List.range 4).any (fun q => let a := replicaAddr e q 0; decide (a ≤ k ∧ k < a + 2 ^ l.bits))
  else let a := leafKey s 0 l 0; decide (a ≤ k ∧ k < a + 2 ^ l.bits)

/-- Step 2 of R189 has to wait: an access to the page is outstanding, or an engine holds a translation of it or owns a line of it. -/
def pageBusy (s : State) (l : Leaf) : Bool :=
  s.ops.any (fun o =>
    (accsOfOp o).any (fun x => inPage s l (accKey s x) || x.also.any (inPage s l)) ||
    (match o.kind with
      | .copy x => x.pages.any (fun e => e.2.entry = l.entry) || x.srcPages.any (fun e => match e.2 with | some y => decide (y.entry = l.entry) | none => false)
      | .matrix x => x.pages.any (fun e => e.2.entry = l.entry)
      | _ => (ownedRanges s o).any (fun r => inPage s l r.1)))

/-- The leaf of a page about to be changed, and whether the change must wait. -/
def pageHold (c : Ctx) (s : State) : Bool :=
  match spaceOf (scalarWord s c opB) with
  | none => false
  | some sp => match walk s sp (scalarWord s c opA).toNat with
    | .leaf l => pageBusy s l
    | _ => false

/-- The space of a TLB key. -/
def keySpace (k : Nat) : Nat := k % 2 ^ 22

/-- R221: the race metadata of a page of which a dropped translation and the present entry differ in CHK is discarded. -/
def dropGranules (s : State) (space : Nat) (e : TlbEnt) : State :=
  match walk s space e.page with
  | .leaf l =>
    if l.chk = e.leaf.chk then s
    else { s with granules := s.granules.filter (fun g => !(inPage s e.leaf (32 * g.1) || inPage s l (32 * g.1))) }
  | _ => if e.leaf.chk then { s with granules := s.granules.filter (fun g => !inPage s e.leaf (32 * g.1)) } else s

/-- R442: the covered translations are dropped. -/
def dropTlb (s : State) (p : Nat → Nat → Leaf → Bool) : State :=
  let gone := s.tlb.flatMap (fun e => (e.2.filter (fun x => p (keySpace e.1) x.page x.leaf)).map (fun x => (keySpace e.1, x)))
  let s1 := gone.foldl (fun s e => dropGranules s e.1 e.2) s
  { s1 with tlb := (s1.tlb.map (fun e => (e.1, e.2.filter (fun x => !p (keySpace e.1) x.page x.leaf)))).filter (fun e => !e.2.isEmpty) }

/-- Step 1 of R189: no TLB keeps a translation made from the leaf. -/
def shootDown (s : State) (l : Leaf) : State := dropTlb s (fun _ _ x => decide (x.entry = l.entry))

/-- Step 2 of R189, by the mode that is left. HW lines are at their home. -/
def cleanMode (s : State) (l : Leaf) : State :=
  if l.coh = 1 then invScope s 0 7 (inPage s l)
  else if l.coh = 2 then { s with owners := sset 0 s.owners (ownerKey l) 0 } else s

/-- Writes a leaf entry at package scope. -/
def putLeaf (s : State) (l : Leaf) (e : Nat) : State := writeHome s (2 ^ 40) l.entry 8 e

/-- The space and the leaf that A and B name, where B has its form. -/
def pageWalk (c : Ctx) (s : State) (n : Nat) (go : Nat → WalkRes → State) : State :=
  sysTags c (sysABC c s n) s <|
    match spaceOf (scalarWord s c opB) with
    | none => raiseAll c causeIllegalOperand 0x0A s
    | some sp => go sp (walk s sp (scalarWord s c opA).toNat)

def pgmodeBody (c : Ctx) (s : State) : State :=
  pageWalk c s 2 fun sp r =>
    let m := (modOf c.f).toNat % 4
    match r with
    | .leaf l =>
      if !cohAllowed l.tgt m ∨ (m = 2 ∧ l.ver) then sysRefuse c 2 s
      else if l.rep then sysRefuse c 3 s
      else if sp.testBit 20 then sysRefuse c 4 s
      else
        let e := rdMem s l.entry 8
        sysDone c (BitVec.ofNat 64 e) (putLeaf (cleanMode (shootDown s l) l) l (e - bitsOf e 7 6 * 2 ^ 6 + m * 2 ^ 6))
    | _ => sysRefuse c 1 s
def execPgmode (f : Fields) (s : State) := sysExec specPgmode pageHold f s pgmodeBody

/-- An entry with its frame field and REP replaced. -/
def repEntry (e frame : Nat) (rep : Bool) : Nat :=
  e - bitsOf e 51 16 * 2 ^ 16 - bitsOf e 10 10 * 2 ^ 10 + frame * 2 ^ 16 + (if rep then 2 ^ 10 else 0)

/-- Copies a page, with the poison of its sectors. -/
def copyPage (s : State) (src dst n : Nat) : State :=
  let s1 := copyMem s src dst n
  let bad := (s.poison.filter (fun e => decide (src / 256 ≤ e.1 ∧ e.1 < src / 256 + n / 256))).map (fun e => (e.1 - src / 256 + dst / 256, e.2))
  { s1 with poison := sreplace 0 s1.poison (dst / 256) (n / 256) bad }

def pgrepBody (c : Ctx) (s : State) : State :=
  pageWalk c s 3 fun _ r =>
    match r with
    | .leaf l =>
      let set := (scalarWord s c opC).toNat % 2 ^ 36
      if l.tgt ≠ 0 ∨ l.coh ≥ 2 ∨ l.ver ∨ l.rep then sysRefuse c 2 s
      else
        let q := l.base / 2 ^ 40
        match replicaSet s set l.level with
        | none => sysRefuse c 3 s
        | some e =>
          if q ≥ 4 ∨ replicaAddr e q 0 ≠ l.base then sysRefuse c 3 s
          else
            let old := rdMem s l.entry 8
            let s1 := cleanMode (shootDown s l) l
            let s2 := ((List.range 4).filter (fun i => i ≠ q)).foldl (fun s i => copyPage s l.base (replicaAddr e i 0) (2 ^ l.bits)) s1
            sysDone c (BitVec.ofNat 64 old) (putLeaf s2 l (repEntry old set true))
    | _ => sysRefuse c 1 s
def execPgrep (f : Fields) (s : State) := sysExec specPgrep pageHold f s pgrepBody

/-- The bytes of a frame whose contents are no longer defined: free values. -/
def loosePage (s : State) (a n : Nat) : State :=
  { s with mem := sreplace 0#8 s.mem a n ((List.range n).map (fun i => (a + i, Config.freeByte (s.free * 2 ^ 44 + a + i)))) }

def pgcolBody (c : Ctx) (s : State) : State :=
  pageWalk c s 3 fun _ r =>
    match r with
    | .leaf l =>
      match (if l.rep then replicaSet s l.base l.level else none) with
      | none => sysRefuse c 1 s
      | some e =>
        let old := rdMem s l.entry 8
        let keep := if (modOf c.f).getLsbD 2 then (scalarWord s c opC).toNat % 4 else dieOf s c.w
        let s1 := cleanMode (shootDown s l) l
        let s2 := putLeaf s1 l (repEntry old (replicaAddr e keep 0 / 2 ^ 16) false)
        let s3 := ((List.range 4).filter (fun q => q ≠ keep)).foldl (fun s q => loosePage s (replicaAddr e q 0) (2 ^ l.bits)) s2
        sysDone c (BitVec.ofNat 64 l.base) s3
    | _ => sysRefuse c 1 s
def execPgcol (f : Fields) (s : State) := sysExec specPgcol pageHold f s pgcolBody

/-! ### tlbinv (R442) -/

/-- A held translation of a TLB entry or of an engine is covered: die apart, by the space and the page. -/
def coveredBy (kind sp va : Nat) (space pageVa : Nat) (l : Leaf) : Bool :=
  kind = 2 || (decide (kind = 1) && decide (space = sp) && !pageVa.testBit 55) ||
    (decide (kind = 0) && (decide (space = sp) || pageVa.testBit 55) && decide (va / 2 ^ l.bits = pageVa / 2 ^ l.bits))

/-- Copies and matrix operations that hold a covered translation: of a destination page, of a stamp, of a source page that has been read (R282). -/
def holders (s : State) (p : Nat → Nat → Leaf → Bool) : List Nat :=
  (s.ops.filter (fun o =>
    let sp := (agentOf s o.w false).space
    match o.kind with
    | .copy x => x.pages.any (fun e => p sp e.1 e.2) || x.srcPages.any (fun e => match e.2 with | some l => p sp e.1 l | none => false)
    | .matrix x => x.pages.any (fun e => p sp e.1 e.2)
    | _ => false)).map (·.id)

def tlbinvBody (c : Ctx) (s : State) : State :=
  let kind := (modOf c.f).toNat % 4
  sysTags c (sysABC c s 2) s <|
    match (if kind = 2 ∧ !(isZ c.f.a && isZ c.f.b) then none else spaceOf (scalarWord s c opB)) with
    | none => raiseAll c causeIllegalOperand 0x0A s
    | some sp =>
      let va := (scalarWord s c opA).toNat
      let p := coveredBy kind sp va
      let s1 := dropTlb s p
      match holders s1 p with
      | [] => advance c s1
      | ids => suspend c (.drain ids) s1
def execTlbinv (f : Fields) (s : State) := issue specTlbinv f s tlbinvBody

/-! ### preempt, resume, blkkill (R443 to R446) -/

/-- The launch identifier of a node: that of its graph's root for a record-fed one. -/
def nodeLaunch (s : State) (n : Node) : Nat :=
  match (n.graph.bind (getGraph s)).bind (fun g => getNode s g.root) with
  | some r => rcLaunchid r.rcd
  | none => rcLaunchid n.rcd

/-- The block belongs to a launch of the identifier on a die. -/
def blockOf (s : State) (die : Nat) (launch : Word) (x : Block) : Bool :=
  decide (x.state ≠ 0 ∧ x.die = die) && !x.disp && !x.killed &&
    decide ((match getNode s x.node with | some n => nodeLaunch s n | none => x.launchid.toNat) = launch.toNat)

/-- The resident block that `preempt` names: of several launches, the one with the lowest sequence number. -/
def preemptTarget (s : State) (die : Nat) (launch : Word) (lin : Nat) : Option (Nat × Block) :=
  (s.blocks.filter (fun e => blockOf s die launch e.2 && decide (e.2.state = 1 ∧ e.2.blocklin % 2 ^ 32 = lin) && !e.2.saving)).foldl
    (fun (v : Option (Nat × Block)) e => match v with
      | none => some e
      | some x => if e.2.seq < x.2.seq then some e else some x) none

def preemptBody (c : Ctx) (s : State) : State :=
  sysTags c (sysABC c s 2) s <|
    match preemptTarget s (dieOf s c.w) (scalarWord s c opA) ((scalarWord s c opB).toNat % 2 ^ 32) with
    | none => sysRefuse c 1 s
    | some (b, x) =>
      if x.coop then sysRefuse c 2 s
      else
        let own := (matesOf s b).contains (blkOf c.w)
        match beginSave s b ((modOf c.f).getLsbD 0) (if own then none else some (c.w, c.k)) with
        | none => sysRefuse c 3 s
        | some s1 =>
          if own then
            let slot := ((s1.saves.getLast?.bind (fun r => r.blks.find? (fun e => e.1 = b))).map (·.2)).getD 0
            sysDone c (BitVec.ofNat 64 slot) s1
          else suspend c (.save b c.f.d.toNat) s1
def execPreempt (f : Fields) (s : State) := issue specPreempt f s preemptBody

def resumeBody (c : Ctx) (s : State) : State :=
  sysTags c (sysABC c s 1) s <|
    let a := (scalarWord s c opA).toNat
    let die := dieOf s c.w
    if a / 64 ≠ 0 then raiseAll c causeIllegalOperand 0x0A s
    else match sget none s.sslots (64 * die + a) with
      | none => sysRefuse c 1 s
      | some x =>
        let b := x.blk
        let bl := getBlock s b
        if bl.state ≠ 3 ∨ bl.killed then sysRefuse c 1 s
        else if !ctxOk s b a then sysRefuse c 2 s
        else
          let base := ctxBase s die a
          let h := rdMem s base 32
          let s1 := fillMem (setBlock s b { bl with state := 2 }) base 32 (h - bitsOf h 3 3 * 8)
          sysDone c 1 (match getNode s1 bl.node with
            | some n => setNode s1 bl.node (some { n with saved := n.saved ++ [b] })
            | none => s1)
def execResume (f : Fields) (s : State) := issue specResume f s resumeBody

/-- Kills a block of its node (R446). -/
def killOne (s : State) (b : Nat) : State :=
  let x := getBlock s b
  let s1 := match getNode s x.node with | some n => setNode s x.node (some { n with killed := true }) | none => s
  killBlock s1 b

/-- Kills blocks of a node before their dispatch; the records of a batch block are freed (R372). -/
def killAhead (s : State) (num : Nat) (n : Node) (lins : List Nat) : State :=
  if lins.isEmpty then s
  else
    let s1 := setNode s num (some { n with killed := true, dropped := n.dropped ++ lins, ended := n.ended + lins.length })
    match n.graph.bind (fun g => (getGraph s1 g).map (fun x => (g, x))) with
    | some (gid, g) => tickGraph (if isBatch n then setGraph s1 gid (some { g with recs := g.recs.filter (fun e => e.2 ≠ (3, num)) }) else s1) gid
    | none => s1

def blkkillBody (c : Ctx) (s : State) : State :=
  sysTags c (sysABC c s 2) s <|
    let all := (modOf c.f).getLsbD 0
    let b := (scalarWord s c opB).toNat
    let die := dieOf s c.w
    let launch := scalarWord s c opA
    if all ∧ b ≠ 0 then raiseAll c causeIllegalOperand 0x0A s
    else
      let want (lin : Nat) : Bool := all || decide (lin % 2 ^ 32 = b % 2 ^ 32)
      let bs := (s.blocks.filter (fun e => blockOf s die launch e.2 && want e.2.blocklin)).map (·.1)
      let ns := (dieNodes s die).filterMap (fun e =>
        if nodeLaunch s e.2 = launch.toNat then some (e.1, (undispatched e.2).filter want) else none)
      let n := bs.length + (ns.map (fun e => e.2.length)).sum
      let s1 := advance c (sysWrite c (if n = 0 then ⟨.n, 0⟩ else TWord.valid (BitVec.ofNat 64 n)) s)
      let s2 := ns.foldl (fun s e => match getNode s e.1 with | some x => killAhead s e.1 x e.2 | none => s) s1
      bs.foldl killOne s2
def execBlkkill (f : Fields) (s : State) := issue specBlkkill f s blkkillBody

/-! ### vlog (R453) -/

def vlogBody (c : Ctx) (s : State) : State :=
  sysTags c (sysABC c s 2) s
    (advance c (vlogWrite s (coreOf s c.w) (getBlock s (blkOf c.w)).launchid.toNat (scalarWord s c opA) (scalarWord s c opB)))
def execVlog (f : Fields) (s : State) := issue specVlog f s vlogBody

/-- VLOG_WINDOW_RESET: the count of a window that has ended is dropped. -/
def execVlogWindowReset (core : Nat) (s : State) : Host.Outcome State Fault Refusal :=
  let c := getCore s core
  if c.vwin ≠ c.cyc / 2 ^ 20 then .next (setCore s core { c with vlogs := 0, vwin := c.cyc / 2 ^ 20 }) else .next s

/-! ### Integrity (R449, R451) -/

/-- REPLAY_CHECK: entry n of a quarter's replay queue is executed again; a mismatch contains the block that issued it. -/
def execReplayCheck (quarter n : Nat) (mismatch : Bool) (s : State) : Host.Outcome State Fault Refusal :=
  match (sget [] s.replays quarter)[n]? with
  | none => .next s
  | some r =>
    if mismatch ∧ (getCore s (quarter / 4)).rchk.getLsbD 0 ∧ (getBlock s (blkOf r.w)).state = 1 then
      .next (contain { s with free := s.free + 1 } r.w 2 0 (Config.freeWord s.free))
    else .next s

/-- HARNESS_FLIT_LOST: the line of a directory update or an acknowledgement that was lost is Suspect. -/
def execHarnessFlitLost (pa : Nat) (owner : Bool) (s : State) : Host.Outcome State Fault Refusal :=
  if populated s pa then .next { s with suspects := s.suspects.filter (fun e => e.1 ≠ pa / 1024) ++ [(pa / 1024, owner)] } else .next s

/-- SUSPECT_LINE_TIMEOUT: holders drop the line; where ownership was lost the sectors at the home are poisoned. -/
def execSuspectLineTimeout (pa : Nat) (s : State) : Host.Outcome State Fault Refusal :=
  let line := pa / 1024
  match s.suspects.find? (fun e => e.1 = line) with
  | none => .next s
  | some (_, owner) =>
    let s1 := { s with suspects := s.suspects.filter (fun e => e.1 ≠ line), free := s.free + 1 }
    let s2 := if owner then
        { s1 with poison := ssetAll 0 s1.poison ((List.range 4).map (fun i => (4 * line + i, 2))),
                  prov := s1.prov.filter (fun e => e.1 % 2 ^ 80 / 1024 ≠ line), provFull := s1.provFull.filter (fun e => e.1 % 2 ^ 80 / 4 ≠ line) }
      else s1
    .next (vesper s2 (4 + pa / 2 ^ 39) 0x03 (vsource 2 0) (1024 * line) (Config.freeWord s.free).toNat (if owner then 1 else 0))

end Sys2Proof.Machine
end

