-- ==== Sys2Proof/Machine/Host.lean ====
section
/-!
DEFINITION. The host port, the management controller and its commands, and the resets (R460 to R474).
-/
namespace Sys2Proof.Machine

/-! ### The host's packets and accesses (R460 to R463) -/

/-- The first pending packet of each die, where its mailbox has room. -/
def packetReady (s : State) : Option (Nat × Nat) :=
  s.hostQ.find? (fun e => (s.hostQ.find? (fun x => x.1 = e.1)) = some e && mailOpen s e.1)

/-- HOST_PACKET_ENTRY (R462, R463): the packet enters the mailbox with source 4. -/
def execHostPacketEntry (s : State) : Host.Outcome State Fault Refusal :=
  match packetReady s with
  | none => .next s
  | some (die, k) =>
    let x := getSlot s die k
    let w0 : Word := BitVec.ofNat 64 ((x.copy.getD 0 0).toNat % 256 + 4 * 2 ^ 8)
    let p : Packet := { words := w0 :: (List.range 7).map (fun i => x.copy.getD (i + 1) 0), scope := 7, marks := [], mask := 0 }
    .next (putMail (setSlot { s with hostQ := s.hostQ.erase (die, k) } die k { x with state := 2 }) die p)

/-- Slot status and die status of the window (R461). -/
def slotStatus (x : HostSlot) : Word := BitVec.ofNat 64 (x.state % 4 + (if x.state = 3 then x.reason % 256 * 2 ^ 8 else 0))
def dieStatus (s : State) (d : Nat) : Word :=
  BitVec.ofNat 64 (240 - ((getMail s d).filter (fun p => packetSource p ≠ 5)).length + sget 0 s.hdiscard d % 2 ^ 32 * 2 ^ 16)

/-- A word of the window region (R461). -/
def readWindow (s : State) (off : Nat) : Word :=
  let d := off / 0x4000
  let o := off % 0x4000
  let x := getSlot s d (o / 0x80)
  let i := o % 0x80 / 8
  if o / 8 * 8 = 0x1000 then dieStatus s d
  else if o ≥ 0x800 then 0
  else if i < 8 then x.words.getD i 0
  else if i = 9 then slotStatus x
  else 0

/-- A word that the host reads over CXL.io: the window region, the management region, or configuration space (R460, log 12). -/
def hostIoRead (s : State) (off : Nat) : Word :=
  if off < windowBase + 0x10000 then readWindow s (off - windowBase)
  else if managementBase ≤ off ∧ off < managementBase + 0x1000 then (if (off - managementBase) / 8 < 64 then mboxOf s ((off - managementBase) / 8) else 0)
  else if configBase ≤ off then Config.configSpace (off - configBase)
  else 0

/-- HOST_CXL_MEM_ACCESS (R460, R320): a host access to a byte range of the package's HBM, or to one of its CXL.io regions; what it reads goes to
outRead (log 12). -/
def execHostCxlMemAccess (write : Bool) (pa len value : Nat) (s : State) : Host.Outcome State Fault Refusal :=
  if pa ≥ windowBase then
    .next (if write then hostIoWrite s (pa / 8 * 8) (BitVec.ofNat 64 value) else { s with outRead := (hostIoRead s (pa / 8 * 8)).toNat })
  else if len = 0 ∨ !populated s pa ∨ !populated s (pa + len - 1) ∨ ownedRange s pa len then .next s
  else .next (serveOutside s (selfId s) (if write then 1 else 0) 0 0 pa len value 0)

/-- CXL_CACHE_SNOOP (R187, R420): the host takes a line of its memory from the device and leaves value in it where it writes. The line's
HW copies are at the host already. -/
def execCxlCacheSnoop (off : Nat) (write : Bool) (value : Nat) (s : State) : Host.Outcome State Fault Refusal :=
  let key := hostBase + off % 2 ^ 52 / 1024 * 1024
  if ownedRange s key 1024 then .next s
  else if write then .next (writeOutside s key 1024 value) else .next s

/-! ### The command mailbox (R471) -/

/-- Argument word i, and a result word. -/
def cmdArg (s : State) (i : Nat) : Nat := (mboxOf s (i + 1)).toNat
def setMbox (s : State) (i v : Nat) : State := { s with mgmt := { s.mgmt with mbox := sset 0#64 s.mgmt.mbox i (BitVec.ofNat 64 v) } }
/-- Writes result words from 0x100 on. -/
def putResults (s : State) (vs : List Nat) : State := vs.zipIdx.foldl (fun s e => setMbox s (32 + e.2) e.1) s
/-- The command completes: done and its status. -/
def finishCmd (s : State) (status : Nat) : State :=
  let s1 := setMbox s 8 (1 + 2 ^ 8 * status)
  { s1 with mgmt := { s1.mgmt with running := none } }
/-- Performs a command when it is the one that runs. -/
def runCmd (code : Nat) (go : State → State) (s : State) : Host.Outcome State Fault Refusal :=
  if s.mgmt.running = some code then .next (go s) else .next s

/-- The words that a log read returns: the entry count, then up to seven entries from index i. -/
def logWords (ents : List (Nat × Nat)) (count log i : Nat) : List Nat :=
  count :: (List.range 7).flatMap (fun j => (List.range 4).map (fun k =>
    if i + j < count then sget 0 ents (4096 * log + (i + j) % 4096) / 2 ^ (64 * k) % 2 ^ 64 else 0))

def readLogCmd (ents : List (Nat × Nat)) (metas : List (Nat × VLog)) (s : State) : State :=
  let log := cmdArg s 0
  if log > 12 then finishCmd s 1
  else finishCmd (putResults s (logWords ents (sget VLog.init metas log).count log (cmdArg s 1))) 0

/-- READ_LOG. -/
def execReadLog (s : State) : Host.Outcome State Fault Refusal := runCmd 1 (readLogCmd s.vents s.vmeta) s
/-- READ_SAVED_LOG: from the copy in flash. -/
def execReadSavedLog (s : State) : Host.Outcome State Fault Refusal := runCmd 2 (readLogCmd s.flashEnts s.flashMeta) s

/-- The bytes of an attestation report (R472). -/
def attestBytes (s : State) : List Byte :=
  let e := s.mgmt.images
  let len := 88 + 80 * e.length + 64
  let nonce := (List.range 4).flatMap (fun i => leBytes 8 (cmdArg s i))
  let body := leBytes 4 0x50564152 ++ leBytes 4 len ++ nonce ++ leBytes 32 Config.identity ++ leBytes 8 s.mgmt.colds ++ leBytes 4 e.length ++ leBytes 4 0 ++
    e.flatMap (fun x => leBytes 2 x.kind ++ leBytes 2 x.die ++ leBytes 4 x.secver ++ leBytes 8 0 ++ leBytes 64 x.digest)
  body ++ leBytes 64 (Config.sign (Config.digest body))

/-- Bytes of the report. -/
def attestLen (s : State) : Nat := 88 + 80 * s.mgmt.images.length + 64

/-- The management controller writes a word of 8 bytes; a frozen frame refuses it (R320). -/
def controllerWrite (s : State) (pa v : Nat) : State :=
  if sget false s.frozen (pa / 2 ^ 16) then logFrozen s pa (selfId s) else writeOutside s pa 8 v

/-- The report as words. -/
def attestWords (s : State) : List Nat :=
  let bs := attestBytes s
  (List.range (attestLen s / 8)).map (fun i => leNum ((bs.drop (8 * i)).take 8))

def attestCmd (s : State) : State :=
  let pa := cmdArg s 4
  let n := cmdArg s 5
  let len := attestLen s
  if n < len then finishCmd (putResults s [len]) 1
  else if pa % 8 ≠ 0 ∨ !populated s pa ∨ !populated s (pa + len - 1) ∨ pa / 2 ^ 39 ≠ (pa + len - 1) / 2 ^ 39 then finishCmd s 1
  else finishCmd (putResults ((attestWords s).zipIdx.foldl (fun s e => controllerWrite s (pa + 8 * e.2) e.1) s) [len]) 0

/-- ATTEST (R472). -/
def execAttest (s : State) : Host.Outcome State Fault Refusal := runCmd 3 attestCmd s

/-- SET_POWER_CAP (R469, R471). -/
def setCapCmd (s : State) : State :=
  let w := cmdArg s 0
  if w < 1500 ∨ w > 3400 then finishCmd (putResults s [s.mgmt.cap]) 1
  else finishCmd (putResults { s with mgmt := { s.mgmt with cap := w } } [w]) 0
def execSetPowerCap (s : State) : Host.Outcome State Fault Refusal := runCmd 4 setCapCmd s

/-- STATUS (R471). -/
def statusCmd (s : State) : State := finishCmd (putResults s [s.mgmt.step, s.mgmt.absent, s.mgmt.failed]) 0
def execStatus (s : State) : Host.Outcome State Fault Refusal := runCmd 6 statusCmd s

/-- The command that runs. -/
def pickCommand (s : State) : Option Instr :=
  match s.mgmt.running with
  | some 1 => some .readLog
  | some 2 => some .readSavedLog
  | some 3 => some .attest
  | some 4 => some .setPowerCap
  | some 5 => some .reset
  | some 6 => some .status
  | _ => none

/-! ### Images (R464, R465) -/

/-- The controller accepts an image for a kind and a die under the accepted configuration block (R464, R465, R14). -/
def imageAccepted (cfg : ConfigBlock) (kind die : Nat) (x : ImageFile) : Bool :=
  headerFits x.header x.len && decide (x.kind = kind) && decide (x.die = die) && x.intact &&
    (match x.signer with
     | .nobody => false
     | .root => true
     | .customer k => decide (kind = 3) && (cfg.keys.take 4).contains k) &&
    decide (x.secver ≥ cfg.minima.getD (kind - 1) 0) && (decide (kind ≠ 3) || decide (x.vregs ≤ 32))

/-- The controller accepts a configuration block against the security version of its flash record (R464, R465). -/
def configAccepted (cfg : ConfigBlock) (secver : Nat) : Bool :=
  headerFits cfg.header cfg.len && decide (headerField cfg.header 4 5 = 4) && cfg.intact && decide (cfg.signer = .root) && decide (cfg.secver ≥ secver)

/-- The image accepted for a kind and a die. -/
def findImage (cfg : ConfigBlock) (xs : List ImageFile) (kind die : Nat) : Option ImageFile := xs.find? (imageAccepted cfg kind die)

/-- Releases a compute die from reset with its program (R14, R467): the vendor program is modelled by what it does, another one by a
split at its first clause. -/
def releaseDie (s : State) (d : Nat) (x : ImageFile) : State :=
  let sp : Split := { noSplit with mask := 0xFFFFFFFF, pc := BitVec.ofNat 56 x.start }
  let own := decide (x.signer = .root)
  let w := if own then Warp.dispatcher else { Warp.dispatcher with splits := [(0, sp)] }
  { s with warps := sset Warp.none s.warps (32 * d) w, blocks := sset Block.none s.blocks d (Block.dispatcher d), ownProg := sset false s.ownProg d (!own) }

/-- Steps 5 and 6 of R467: each die whose program is accepted leaves reset, and the host window is enabled. Every image but the configuration
block that is not loaded is a failed verification. -/
def startDies (cfg : ConfigBlock) (s : State) : State :=
  let good := (List.range 4).filterMap (fun d => (findImage cfg s.mgmt.flashImages 3 d).map (fun x => (d, x)))
  let s1 := good.foldl (fun s e => releaseDie s e.1 e.2) s
  let imgs := s1.mgmt.images ++ good.map (fun e => loaded e.2)
  { s1 with mgmt := { s1.mgmt with step := 6, failed := 14 - imgs.length, images := imgs } }

/-- The package in reset: every die's state is gone, with the dirty lines of the pool in its caches (R422); the model's own counters go on, and
memory that is not the package's stays. -/
def inReset (s : State) : State :=
  let s := dropOld s (fun _ => true)
  { State.reset with
    free := s.free + 1, nextOp := s.nextOp, nextBlk := s.nextBlk, nextNode := s.nextNode, sent := s.sent, outRead := s.outRead, warps := [], blocks := [],
    mem := s.mem.filter (fun e => decide (hostBase ≤ e.1 ∧ e.1 < tileBase 0)), flashEnts := s.flashEnts, flashMeta := s.flashMeta }

/-- What a reset makes of the management controller: its flash record and its flash stay (R465, R467). -/
def resetMgmt (m : Mgmt) : Mgmt :=
  { Mgmt.init with step := 0, colds := m.colds, secver := m.secver, config := none, images := [], flashCfg := m.flashCfg, flashImages := m.flashImages }

/-- COLD_RESET (R465, R467, R468): the configuration block and the images in module flash; bits 7:0 of the last argument are the stacks that fail
training, the bits above them the modules and ports of step 4 that do. -/
def coldReset (cfg : ConfigBlock) (xs : List ImageFile) (absent : Nat) (s : State) : State :=
  let m : Mgmt := { resetMgmt s.mgmt with colds := s.mgmt.colds + 1, flashCfg := cfg, flashImages := xs }
  let base := inReset s
  if !configAccepted cfg s.mgmt.secver then { base with mgmt := { m with failed := 1 } }
  else
    let own := findImage cfg xs 1 0xFFFF
    let mds := (List.range 8).map (fun i => findImage cfg xs 2 (4 + i))
    let down := ((List.range 8).filter (fun i => absent.testBit i || ((mds[i]?).getD none).isNone)).foldl (fun v i => v + 2 ^ i) 0
    startDies cfg { base with
      pkg := { base.pkg with pkgid := BitVec.ofNat 64 (cfg.pkgid % 1024) },
      mgmt := { m with absent := down, untrained := absent / 2 ^ 8 % 2 ^ 18, secver := cfg.secver, config := some cfg, clocks := List.replicate 4 cfg.clock,
                       images := loadedCfg cfg :: (own.toList ++ mds.filterMap id).map loaded } }

def execColdReset (cfg : ConfigBlock) (xs : List ImageFile) (absent : Nat) (s : State) : Host.Outcome State Fault Refusal :=
  .next (coldReset cfg xs absent s)

/-- A reset ends every checkpoint in progress (R341, log 61). -/
def abortCks (s : State) : State := s.cks.foldl (fun s e => ckFail s e.1 2) s

/-- WARM_RESET (R467): HBM contents with their poison, the Vesper logs with their counts and the flash record are kept; steps 5 and 6
run where the configuration block was accepted. -/
def warmReset (xs : List ImageFile) (s : State) : State :=
  let s := abortCks s
  let base := inReset s
  let kept := { base with
    mem := (dropOld s (fun _ => true)).mem.filter (fun e => decide (e.1 < tileBase 0)), poison := s.poison.filter (fun e => decide (e.1 < regBase / 256)), frozen := s.frozen, vents := s.vents, vmeta := s.vmeta,
    vseq := s.vseq, mgmt := { resetMgmt s.mgmt with absent := s.mgmt.absent, untrained := s.mgmt.untrained, flashImages := xs } }
  match s.mgmt.config with
  | none => { kept with mgmt := { kept.mgmt with failed := 1 } }
  | some cfg =>
    startDies cfg { kept with
      pkg := { base.pkg with pkgid := BitVec.ofNat 64 (cfg.pkgid % 1024) },
      mgmt := { kept.mgmt with config := some cfg, clocks := List.replicate 4 cfg.clock, images := s.mgmt.images.filter (fun x => x.kind ≠ 3) } }

/-- A package without power is started by a cold reset alone (R470). -/
def execWarmReset (xs : List ImageFile) (s : State) : Host.Outcome State Fault Refusal :=
  if s.mgmt.powered then .next (warmReset xs s) else .next s

/-- RESET (R471): the command completes and the package is reset, with what stands in module flash; which stacks and modules then fail their
training is a free value (log 39). -/
def resetCmd (s : State) : State :=
  let s1 := finishCmd s 0
  match cmdArg s 0 with
  | 0 => warmReset s1.mgmt.flashImages s1
  | 1 => coldReset s1.mgmt.flashCfg s1.mgmt.flashImages (Config.trainFails s1.free) s1
  | _ => finishCmd s 1
def execReset (s : State) : Host.Outcome State Fault Refusal := runCmd 5 resetCmd s

/-! ### Power and temperature (R468 to R470) -/

/-- Throttle and trip points of a sensor, in units of 0.1 °C. -/
def throttleAt (k : Nat) : Nat := if 4 ≤ k ∧ k < 12 then 850 else 950
def tripAt (k : Nat) : Nat := if 4 ≤ k ∧ k < 12 then 950 else 1050

/-- The compute dies that a sensor concerns: its own die, the die of the memory die's quadrant, or every die for the Harness. -/
def sensorDies (k : Nat) : List Nat := if k < 4 then [k] else if k < 12 then [(k - 4) / 2] else [0, 1, 2, 3]

/-- The clock of a die after a poll, in MHz. -/
def nextClock (hot : Bool) (clk : Nat) : Nat := if hot then max 1000 (clk - 100) else min 2500 (clk + 100)

/-- A thermal trip (R470). -/
def trip (s : State) (k temp power : Nat) : State :=
  let s1 := { s with flashEnts := s.vents, flashMeta := s.vmeta, cur := none, cur2 := none, agenda := [] }
  let s2 := vesper s1 12 0x0A (vsource 6 0) k temp power
  { s2 with mgmt := { s2.mgmt with powered := false } }

/-- POWER_POLL (R470): module power in W, and the temperatures of sensors 0 to 12 in units of 0.1 °C. -/
def execPowerPoll (power : Nat) (temps : List Nat) (s : State) : Host.Outcome State Fault Refusal :=
  if !s.mgmt.powered then .next s
  else
    let ts := (List.range 13).map (fun k => (k, temps.getD k 0))
    match ts.find? (fun e => e.2 ≥ tripAt e.1) with
    | some e => .next (trip s e.1 e.2 power)
    | none =>
      let hot (d : Nat) : Bool := decide (power > s.mgmt.cap) || ts.any (fun e => decide (e.2 > throttleAt e.1) && (sensorDies e.1).contains d)
      .next { s with mgmt := { s.mgmt with clocks := (List.range 4).map (fun d => nextClock (hot d) (s.mgmt.clocks.getD d 2500)) } }

/-- R452: a unit of a memory die reports the errors that it has corrected at an address. -/
def logCorrected (stack : Nat) (s : State) (e : Nat × Nat × Nat) : State :=
  if e.1 < 34 then vesper s (4 + stack) 0x02 (vsource 1 e.1) e.1 e.2.1 e.2.2 else s

/-- The errors that the units of a stack's memory die have corrected since they were last reported: unit, address, count (log 78). -/
def correctedErrors (s : State) (stack : Nat) : List (Nat × Nat × Nat) :=
  Config.corrected ((s.free * 2 ^ 64 + (getVLog s (4 + stack)).count) * 8 + stack)

/-- HBM_RECALIBRATION (R468): a stack whose temperature has moved by 5 °C is calibrated anew; the errors corrected since are reported (R452,
log 78). -/
def execHbmRecalibration (stack temp : Nat) (s : State) : Host.Outcome State Fault Refusal :=
  if stack ≥ 8 then .next s
  else
    let old := s.mgmt.calib.getD stack 0
    .next { (correctedErrors s stack).foldl (logCorrected stack) s with
      mgmt := if temp ≥ old + 50 ∨ old ≥ temp + 50 then
        { s.mgmt with calib := ((List.range 8).map (fun i => s.mgmt.calib.getD i 0)).set stack temp } else s.mgmt }

end Sys2Proof.Machine
end

