-- ==== Sys2Proof/Machine/Ready.lean ====
section
/-!
DEFINITION. What the next word of a split says of its readiness: the interlocks named in the descriptions of instructions and the counter of
its class (R39, R147).
-/
namespace Sys2Proof.Machine

/-- The word a split issues next: the one at its pc inside a clause, the one after the header at a clause position; none where its fetch
gives no word. -/
def wordAhead (s : State) (w : Nat) (sp : Split) : Option Word :=
  match fetch s w (if sp.rem = 0 then { sp with pc := sp.pc + 8 } else sp) with
  | .word v _ => some v
  | _ => none

/-- The opcodes that count on LD, ST, CP and EX whatever their fields are. -/
def ldOps : List Nat := [0x47, 0x48, 0x62, 0x63, 0x72, 0x100, 0x102, 0x104, 0x108, 0x119, 0x141]
def stOps : List Nat := [0x101, 0x103, 0x105, 0x109, 0x10B, 0x10C, 0x10F, 0x112, 0x125]
def cpOps : List Nat := [0x142, 0x143, 0x144, 0x145, 0x146, 0x147]
def exOps : List Nat := [0x118, 0x11A, 0x11B, 0x11C, 0x11D, 0x180, 0x181, 0x182, 0x183, 0x184, 0x185, 0x186, 0x187, 0x188, 0x191, 0x192, 0x193,
  0x195, 0x196, 0x198, 0x1A0, 0x1A1, 0x1A2, 0x1A5, 0x1A6, 0x1A7, 0x1A8, 0x1A9, 0x1B0, 0x1B1, 0x1B2, 0x1B3, 0x1B4, 0x1B5]

/-- The counter that a word counts on (R39). -/
def wordCounter (op : Nat) (f : Fields) : Option Counter :=
  if ldOps.contains op then some .ld
  else if stOps.contains op then some .st
  else if cpOps.contains op then some .cp
  else if exOps.contains op then some .ex
  else if 0x120 ≤ op ∧ op ≤ 0x124 then atomCnt f
  else none

/-- A split whose access has stalled has passed the checks of its word (R182). -/
def passedGate (sp : Split) : Bool := sp.stalled.isSome || !sp.latch.isEmpty

/-- The counter of the class of the split's next word reads 63, or that of the stores which its stream makes (R39, R201). -/
def capHeld (s : State) (w : Nat) (sp : Split) : Bool :=
  !passedGate sp && (match wordAhead s w sp with
    | none => false
    | some v =>
      let f := fieldsOf v
      let op := (opcodeOf v).toNat
      (match wordCounter op f with | some c => decide (counterOf s w sp.mask c ≥ 63) | none => false) ||
        (isQ f.d && decide (op ≠ 0x106 ∧ op ≠ 0x107) && (match decode v with | .unassignedOpcode .. => false | .extensionOpcode .. => false | _ => true) &&
          decide (counterOf s w sp.mask .st ≥ 63)))

/-- The interlock of a word that names descriptor slots, or whose engine has no room (R270, R274, R409). -/
def copyHeld (s : State) (w : Nat) (sp : Split) (op : Nat) (f : Fields) : Bool :=
  (decide (op = 0x140) && tileAccesses s w sp.mask) ||
  (decide (op = 0x140 ∨ op = 0x141) && tdBusy s (blkOf w) [f.ty.toNat]) ||
  (decide (0x142 ≤ op ∧ op ≤ 0x148) && tdBusy s (blkOf w) (if op = 0x144 then [mdN f, f.ty.toNat] else [mdN f])) ||
  (decide (0x142 ≤ op ∧ op ≤ 0x147) && decide (coreCopies s (coreOf s w) ≥ 64)) ||
  (decide (0x1B0 ≤ op ∧ op ≤ 0x1B3) && (decide (fabricCount s ≥ 64) || tileAccesses s w sp.mask || tdBusy s (blkOf w) (List.range 16)))

/-- The class of an opcode whose words an acquire holds (R62, R223). -/
def acquireOps (op : Nat) : Cls := if op < 0x100 then .a else if op < 0x180 then .m else if op < 0x1C0 then .e else .s

/-- A word that writes a leaf waits for the accesses through it (R188, R236). -/
def leafWaits (s : State) (w k : Nat) (op : BitVec 9) (f : Fields) : Bool :=
  decide (0x1C4 ≤ op.toNat ∧ op.toNat ≤ 0x1C6) && pageHold (ctxOf { specPgmode with op := op } f s { w := w, k := k }) s

/-- An interlock named in the description of the split's next word holds it (R128, R134, R147, R223). -/
def interlocked (s : State) (w k : Nat) (sp : Split) : Bool :=
  !passedGate sp && (match wordAhead s w sp with
    | none => false
    | some v =>
      let f := fieldsOf v
      let op := (opcodeOf v).toNat
      let sfu (n : Nat) (spec : OpSpec) : Bool := sfuFull n (ctxOf spec f s { w := w, k := k }) s
      acquireHolds s (acquireOps op) sp ||
      (decide (op = 0x28 ∨ op = 0x29) && decide (f.md.toNat = 0x0A) && flagsPending s w sp.mask) ||
      (decide (op = 0x47) && sfu 2 specFdiv) || (decide (op = 0x48) && sfu 1 specFsqrt) ||
      (decide (op = 0x62) && sfu (if isExpand f then 2 else 1) specCvtmx) || (decide (op = 0x63) && sfu 1 specSfu) ||
      (decide (op = 0x72) && bncBusy s w) || copyHeld s w sp op f ||
      (decide (0x180 ≤ op ∧ op ≤ 0x188) && mxQueueFull s (coreOf s w) (op - 0x180)) || leafWaits s w k (opcodeOf v) f)

/-- The cycle before which the divider or the reduction tree of the quarter holds the split's next word (R82, R143). -/
def unitFree (s : State) (w : Nat) (sp : Split) : Nat :=
  match wordAhead s w sp with
  | none => 0
  | some v =>
    let op := (opcodeOf v).toNat
    let q := getQuarter s (quarterOf s w)
    if op = 0x08 ∨ op = 0x09 then q.divBusy else if op = 0x76 ∨ op = 0x77 then q.treeBusy else 0

/-- The cycle before which nothing but its interlock's timing, its STALL count, its transfer or a write to fcr or tvec holds the split
(R55, R93, R147). -/
def heldTill (s : State) (w : Nat) (sp : Split) : Nat := max (max sp.next (getWarp s w).held) (unitFree s w sp)

end Sys2Proof.Machine
end

