-- ==== Sys2Proof/Machine/Sched.lean ====
section
/-!
DEFINITION. Choosing warps and splits, merging splits, waking suspended ones, and the passing of time (R146 to R152, R165 to R167).
-/
namespace Sys2Proof.Machine

/-! ### Ready splits (R147) -/

def atPosition (sp : Split) : Bool := decide (sp.rem = 0)

/-- R152: the split is held at a reconvergence header. -/
def rcvHeld (s : State) (w k : Nat) (sp : Split) : Bool :=
  match sp.hdr with
  | some h => atPosition sp && hdrRcv h && decide (sp.rhold < 256) && (validSplits s w).any (fun e => decide (e.1 ≠ k) && decide (e.2.pc < sp.pc))
  | none => false

/-- The split is ready once cycle `heldTill` is reached. -/
def readyBut (s : State) (w k : Nat) (sp : Split) : Bool :=
  decide (sp.mask ≠ 0) && sp.susp.isNone && canRun s w k && !capHeld s w sp && !interlocked s w k sp &&
    (!atPosition sp || (match sp.hdr with | some h => headerMet s w sp h && !rcvHeld s w k sp | none => false))

def readyAt (s : State) (w k : Nat) (sp : Split) (t : Nat) : Bool := decide (heldTill s w sp ≤ t) && readyBut s w k sp

/-- Ready splits of a warp at a cycle. -/
def readySplits (s : State) (w t : Nat) : List (Nat × Split) := (validSplits s w).filter (fun e => readyAt s w e.1 e.2 t)

/-- A split is engaged: it is inside a clause and has not stopped there for a cause other than its STALL count or an interlock (R47,
R148). A split held for another split's handler (R429), of a warp that sleeps in `grow`, or whose counter reads 63 (R39), has stopped. -/
def engaged (s : State) (w k : Nat) (sp : Split) : Bool := !atPosition sp && sp.susp.isNone && canRun s w k && !capHeld s w sp

/-- More lanes, then lower PC, then older (R149). -/
def splitBefore (a b : Nat × Split) : Bool :=
  let x := laneCount a.2.mask
  let y := laneCount b.2.mask
  decide (x > y) || (decide (x = y) && (decide (a.2.pc < b.2.pc) || (decide (a.2.pc = b.2.pc) && decide (a.2.age ≤ b.2.age))))

def sortSplits (xs : List (Nat × Split)) : List (Nat × Split) := xs.insertionSort (fun a b => splitBefore a b)

/-- The splits of the turn's warp that issue in a cycle, path 0 first (R148, R149). -/
def chooseSplits (s : State) (q : Quarter) (w t : Nat) : List (Nat × Split) :=
  let ready := readySplits s w t
  let eng := (sortSplits (ready.filter (fun e => !atPosition e.2))).take 2
  let room := 2 - ((validSplits s w).filter (fun e => engaged s w e.1 e.2)).length
  let news := if q.closed then [] else ready.filter (fun e => atPosition e.2)
  let forced := ((news.filter (fun e => e.2.starve ≥ 64)).insertionSort (fun a b => a.2.age ≤ b.2.age)).take 1
  let rest := if t < q.start + 32 then sortSplits (news.filter (fun e => !forced.any (fun x => x.1 = e.1))) else []
  let begun := (forced ++ rest).take (min room (2 - eng.length))
  sortSplits (eng ++ begun)

/-! ### WARP_CHOICE -/

/-- Warps of a quarter, with their slots. -/
def quarterWarps (s : State) (core q : Nat) : List (Nat × Warp) := (coreWarps s core).filter (fun e => e.2.quarter = q)

/-- R148: the turn ends. -/
def turnOver (s : State) (q : Quarter) (w t : Nat) : Bool :=
  !(validSplits s w).any (fun e => engaged s w e.1 e.2) && (decide (t ≥ q.start + 32) || (readySplits s w t).isEmpty)

/-- A split of the quarter waits for the next warp choice (R166). -/
def choiceWaits (s : State) (core q : Nat) : Bool :=
  (quarterWarps s core q).any (fun e => e.2.splits.any (fun x => x.2.susp = some .choice))

/-- Ends the waits of `yield` in a quarter. -/
def endYields (s : State) (core q : Nat) : State :=
  (quarterWarps s core q).foldl (fun s e => e.2.splits.foldl (fun s x => if x.2.susp = some .choice then wakeAdvance e.1 x.1 s else s) s) s

/-- The warp a choice takes: the first in slot order after the last turn's with a ready split, one warp passed over where another
qualifies (R148). -/
def chooseWarp (s : State) (core q : Nat) (x : Quarter) (t : Nat) : Option Nat :=
  let cands := ((quarterWarps s core q).filter (fun e => !(readySplits s e.1 t).isEmpty)).insertionSort
    (fun a b => (a.2.slot + 15 - x.last) % 16 ≤ (b.2.slot + 15 - x.last) % 16)
  match cands with
  | [] => none
  | a :: r => if x.pass = some a.1 then (match r with | b :: _ => some b.1 | [] => some a.1) else some a.1

/-- Begins the clause of a chosen split that stands at a clause position. -/
def engage (s : State) (w : Nat) (e : Nat × Split) : State :=
  match e.2.hdr with
  | some h =>
    if atPosition e.2 then setSplit s w e.1 (beginClause e.2 h) else s
  | none => s

/-- R150: a count that reaches 64 makes the split forced. -/
def starveForce (w k : Nat) (s : State) : State :=
  let sp := getSplit s w k
  if sp.starve = 63 then setSplit s w k { sp with starve := 64 } else s

/-- R150: a split that was ready and not chosen in a cycle in which its warp issued counts. -/
def starveSplit (w : Nat) (s : State) (k : Nat) : State :=
  let sp := getSplit s w k
  if sp.mask = 0 ∨ sp.starve ≥ 64 then s
  else if sp.starve = 63 then starveForce w k s
  else setSplit s w k { sp with starve := sp.starve + 1 }

/-- The counts of R150 at the end of the cycle of a core, for the quarters that issued in it. -/
def countStarve (s : State) (core : Nat) : State :=
  (List.range 4).foldl (fun s i =>
    let q := getQuarter s (4 * core + i)
    if q.cyc = (getCore s core).cyc ∧ q.issued > 0 then
      q.passed.foldl (starveSplit q.who) (setQuarter s (4 * core + i) { q with passed := [] })
    else s) s

/-- Issues for the turn's warp: up to two splits. -/
def issueTurn (s : State) (qk w t : Nat) : State :=
  match chooseSplits s (getQuarter s qk) w t with
  | [] => s
  | a :: r =>
    let chosen := a :: r
    let passed := ((readySplits s w t).filter (fun e => !chosen.any (fun x => x.1 = e.1))).map (·.1)
    let s1 := chosen.foldl (fun s e => engage s w e) (setQuarter s qk { getQuarter s qk with passed := passed })
    { s1 with cur := some { w := w, k := a.1 }, cur2 := r.head?.map (fun e => { w := w, k := e.1 }) }

/-- The quarter has used its issue slots of the cycle. -/
def slotUsed (s : State) (qk t : Nat) : Bool := let q := getQuarter s qk; decide (q.cyc = t) && decide (q.issued > 0)

/-- WARP_CHOICE (R148, R149): ends a turn that is over, makes the next choice, and names the splits that issue. -/
def warpChoice (core q : Nat) (s : State) : State :=
  let qk := 4 * core + q
  let t := (getCore s core).cyc
  if s.cur.isSome ∨ s.cur2.isSome ∨ slotUsed s qk t then s
  else
    let x := getQuarter s qk
    let s1 := match x.turn with
      | some w =>
        if turnOver s x w t then
          setQuarter s qk { x with turn := none, last := x.slot, pass := if x.yb || x.closed then some w else none, closed := false, yb := false }
        else s
      | none => s
    match (getQuarter s1 qk).turn with
    | some w => issueTurn s1 qk w t
    | none =>
      let y := getQuarter s1 qk
      let s2 := endYields s1 core q
      match chooseWarp s1 core q y t with
      | none => setQuarter s2 qk { y with pass := none }
      | some w => issueTurn (setQuarter s2 qk { y with turn := some w, start := t, slot := (getWarp s w).slot, pass := none }) qk w t

def execWarpChoice (core q : Nat) (s : State) : Host.Outcome State Fault Refusal := .next (warpChoice core (q % 4) s)

/-- STARVE_FORCE (R150). -/
def execStarveForce (w k : Nat) (s : State) : Host.Outcome State Fault Refusal := .next (starveForce w k s)

/-- RECONVERGENCE_HOLD_LIMIT (R152). -/
def execReconvergenceHoldLimit (w k : Nat) (s : State) : Host.Outcome State Fault Refusal :=
  let sp := getSplit s w k
  if sp.rhold = 255 ∧ rcvHeld s w k sp then .next (setSplit s w k { sp with rhold := 256 }) else .next s

/-! ### SUSPENDED_SPLIT_WAKE and NAP_EXPIRY (R47, R165, R167) -/

/-- A wait is over: the split issues its word again. -/
def retryWord (s : State) (w k : Nat) : State :=
  let sp := getSplit s w k
  setSplit s w k { sp with susp := none, next := max sp.next ((getCore s (coreOf s w)).cyc) }

/-- Lanes' queues hold the entries a word needs, and its store queues have room. -/
def queuesReady (s : State) (w : Nat) (m : Mask) (need : List (Nat × Nat)) (full : List Nat) : Bool :=
  (lanesOf m).all (fun l =>
    need.all (fun e => let x := getQueue s w l e.1; decide (x.kind ≠ 1) || decide (x.entries.length ≥ e.2)) &&
      full.all (fun q => decide (streamCount s w l q < 8)))

/-- How a suspended split goes on once its wait is satisfied; none while it is not. -/
def wakeOf (s : State) (w k : Nat) : Option (State → State) :=
  let sp := getSplit s w k
  let m := sp.mask
  let again : Option (State → State) := some (fun s => retryWord s w k)
  match sp.susp with
  | none => none
  | some x =>
    match x with
    | .cap c => if counterOf s w m c < 63 then again else none
    | .queue need full => if queuesReady s w m need full then again else none
    | .counters ld st cp ex => if countersMet s w m ld st cp ex then some (wakeAdvance w k) else none
    | .choice => none
    | .nap c => if (getCore s (coreOf s w)).cyc ≥ c then some (wakeAdvance w k) else none
    | .grow _ _ => none
    | .op _ => none
    | .page die host space vas _ =>
      if !stallsOpen s die host space vas || vas.any (fun v => sp.denied.contains (v / 2 ^ 16)) then again else none
    | .frame addrs _ => if addrs.all (fun e => vdbWv (rdVdb s e.1) || !vdbOk s e.1) then again else none
    | .ckwait region seq => if (ckStatus s region seq).isSome then again else none
    | .fence ord scope => if fenceMet s w m ord then some (fun s => wakeAdvance w k (fenceDo s w m ord scope)) else none
    | .channel ch close ids =>
      if ids.any (fun i => (findOp s i).isSome) then none
      else some (fun s => wakeAdvance w k (if close then setChan s w ch 0 else s))
    | .arrival _ _ _ => none
    | .token _ _ _ _ => none
    | .satisfied obj d scope => some (fun s => wakeSatisfied s w k obj d scope)
    | .again _ => none
    | .cluster _ _ => none
    | .aoinit obj n => if engineNames s (blkOf w) obj then none else some (fun s => wakeAoinit s w k obj n)
    | .commit => if blockBusy s (blkOf w) then none else again
    | .buffer cb what off =>
      if !bufferReady s w m cb what off then none
      else if what = 2 ∨ what = 4 then some (wakePut (decide (what = 2)) w k cb off)
      else again
    | .records => none
    | .save b d => if (saveOf s w k).any (saveReady s) then some (fun s => wakeSave s w k b d) else none
    | .drain ids => if ids.any (fun i => (findOp s i).isSome) then none else some (wakeAdvance w k)
    | .resumed obj p scope =>
      if (objOf s (blkOf w) obj).phase ≠ p then some (fun s => retryWord (acquireNow s w scope) w k) else none

/-- SUSPENDED_SPLIT_WAKE (R47). -/
def execSuspendedSplitWake (w k : Nat) (s : State) : Host.Outcome State Fault Refusal :=
  match wakeOf s w k with
  | some g => if (getBlock s (blkOf w)).state = 1 then .next (g s) else .next s
  | none => .next s

/-- NAP_EXPIRY (R167). -/
def execNapExpiry (w k : Nat) (s : State) : Host.Outcome State Fault Refusal :=
  match (getSplit s w k).susp with
  | some (.nap c) => if (getCore s (coreOf s w)).cyc ≥ c then .next (wakeAdvance w k s) else .next s
  | _ => .next s

/-! ### The end of a cycle (R146, R152) -/

/-- The split stands at its clause position: nothing else suspends it than the page of its header (R146, R267). -/
def standsAt (sp : Split) : Bool :=
  atPosition sp && (match sp.susp with | none => true | some (.page _ _ _ _ _) => true | some _ => false)

/-- R146: two splits merge. Splits of different modes do not: a merged split has one mode (R425, log 62). -/
def canMerge (a b : Split) : Bool :=
  standsAt a && standsAt b && decide (a.pc = b.pc) && decide (a.far = b.far) && decide (a.lc0 = b.lc0) && decide (a.lc1 = b.lc1) &&
    decide (a.lc2 = b.lc2) && decide (a.sup = b.sup) && (a.hs.isEmpty || b.hs.isEmpty)

/-- The merged split. -/
def mergeSplits (a b : Split) : Split :=
  { a with mask := a.mask ||| b.mask, age := min a.age b.age, starve := max a.starve b.starve, rhold := max a.rhold b.rhold,
           next := max a.next b.next, hdr := a.hdr.or b.hdr,
           susp := if (a.hdr.or b.hdr).isSome then none else a.susp.or b.susp, hs := a.hs ++ b.hs, hold := a.hold ++ b.hold, denied := a.denied ++ b.denied }

/-- A pair of splits of the warp that merge: the older one's entry first. -/
def mergePair (xs : List (Nat × Split)) : Option (Nat × Nat) :=
  xs.findSome? (fun a => (xs.find? (fun b => decide (a.2.age < b.2.age) && canMerge a.2 b.2)).map (fun b => (a.1, b.1)))

/-- Merges the splits of a warp until none do. -/
def mergeWarp (w : Nat) : Nat → State → State
  | 0, s => s
  | n + 1, s =>
    match mergePair (validSplits s w) with
    | none => s
    | some (i, j) =>
      let m := mergeSplits (getSplit s w i) (getSplit s w j)
      mergeWarp w n (removeSplit (setSplit s w i m) w j)

/-- Counts the cycles of held splits; one that reaches the limit is released by the step RECONVERGENCE_HOLD_LIMIT. -/
def countHolds (w d : Nat) (s : State) : State :=
  (validSplits s w).foldl (fun s e =>
    if rcvHeld s w e.1 e.2 then
      let n := min 255 (e.2.rhold + d)
      let s1 := setSplit s w e.1 { e.2 with rhold := n }
      if e.2.rhold + d ≥ 256 then { s1 with agenda := s1.agenda ++ [.reconvergenceHoldLimit w e.1] } else s1
    else s) s

/-- A supervisor or emulation handler is active in the warp (R451). -/
def supActive (wp : Warp) : Bool := wp.splits.any (fun e => e.2.hs.any (fun h => h.sup))

/-- Counts cycles in which a warp issues nothing (R451). -/
def countIdle (w d : Nat) (s : State) : State :=
  let wp := getWarp s w
  if supActive wp then s else setWarp s w { wp with idle := wp.idle + d }

/-- The cycles without an issue after which the warp traps; none when the watchdog of its core is off. -/
def watchLimit (s : State) (w : Nat) : Option Nat :=
  let n := (getCore s (coreOf s w)).wdog.toNat
  if n = 0 then none else some (1024 * n)

/-- The cycle at which the warp's count reaches its limit. -/
def watchTime (s : State) (w : Nat) : Option Nat :=
  let wp := getWarp s w
  let b := getBlock s (blkOf w)
  if supActive wp || b.state ≠ 1 || b.killed || b.saving || wp.splits.isEmpty then none
  else (watchLimit s w).map (fun n => (getCore s (coreOf s w)).cyc + (n - wp.idle))

/-- Ends cycles of a core: splits that were passed over count, splits merge, holds count, and the core's time becomes t. -/
def endCycle (s : State) (core t : Nat) : State :=
  let ws := (coreWarps s core).map (·.1)
  let d := t - (getCore s core).cyc
  setTime (ws.foldl (fun s w => countIdle w d (countHolds w d (mergeWarp w 32 s))) (countStarve s core)) core t

/-! ### Time -/

/-- Cores with a resident block. -/
def activeCores (s : State) : List Nat :=
  ((s.blocks.filter (fun e => decide (e.2.state = 1) && !e.2.killed)).map (fun e => 48 * e.2.die + e.2.core)).dedup

/-- A quarter has something to choose in the current cycle. -/
def choiceDue (s : State) (core q : Nat) : Bool :=
  let t := (getCore s core).cyc
  let x := getQuarter s (4 * core + q)
  !slotUsed s (4 * core + q) t &&
    (match x.turn with
     | some w => turnOver s x w t || !(chooseSplits s x w t).isEmpty
     | none => choiceWaits s core q || (quarterWarps s core q).any (fun e => !(readySplits s e.1 t).isEmpty))

/-- The cycles after the present one at which something of a split can happen. -/
def splitTimes (s : State) (w k : Nat) (sp : Split) (t : Nat) : List Nat :=
  match sp.susp with
  | some .choice => [t + 1]
  | some (.nap c) => [c]
  | some (.frame as since) => as.map (fun e => since + 1024 * rgStall (rdRegion s (vdbRegion (rdVdb s e.1))))
  | some (.op id) =>
    (match frameWait s sp with
     | some (as, since, _) => as.map (fun e => since + 1024 * rgStall (rdRegion s (vdbRegion (rdVdb s e.1))))
     | none => []) ++
    (match (findOp s id).map Op.kind with
     | some (.monitor lanes _ _ _ _) => lanes.filterMap (fun m => if m.out.isNone then m.limit else none)
     | _ => [])
  | some _ => []
  | none => if rcvHeld s w k sp then [t + (256 - sp.rhold)] else if readyBut s w k sp || atHeader s w k then [max (t + 1) (heldTill s w sp)] else []

/-- The cycles at which the special-function units have something to do. -/
def sfuTimes (s : State) (core : Nat) : List Nat :=
  s.ops.flatMap (fun o => match o.kind with
    | .sfu _ _ st start _ lat _ _ => if coreOf s o.w = core then (if st then [start + lat] else [(getQuarter s (quarterOf s o.w)).sfuBusy]) else []
    | _ => [])

/-- The cycles at which batch timers of a die run out, which core 0 stands for (R370). -/
def batchTimes (s : State) (core : Nat) : List Nat :=
  if core % 48 ≠ 0 then []
  else s.graphs.flatMap (fun e => match e.2 with
    | some g => if g.die = core / 48 then g.nodes.filterMap (fun x => match x.queue with
        | r :: _ => if x.timeout ≠ 0 then some (r.at_ + x.timeout) else none
        | [] => none) else []
    | none => [])

/-- The cycles after which a matrix operation can enter its unit: it starts in no earlier cycle than the one that follows its issue (R302). -/
def matrixTimes (s : State) (core : Nat) : List Nat :=
  s.ops.filterMap (fun o => match o.kind with
    | .matrix m => if coreOf s o.w = core ∧ mxNext s o m then some (m.entry / 2 ^ 15 + 1) else none
    | _ => none)

/-- The least of a list. -/
def least (xs : List Nat) : Option Nat := xs.foldl (fun b x => match b with | none => some x | some y => some (min x y)) none

/-- The next cycle of a core at which something can happen. -/
def nextTime (s : State) (core : Nat) : Option Nat :=
  let t := (getCore s core).cyc
  least (((coreWarps s core).flatMap (fun e => e.2.splits.flatMap (fun x => splitTimes s e.1 x.1 x.2 t) ++ (watchTime s e.1).toList) ++ sfuTimes s core ++
    matrixTimes s core ++ batchTimes s core).filter (fun x => decide (x > t)))

/-- The core whose time passes next: the one whose next cycle is earliest. -/
def nextCore (s : State) : Option (Nat × Nat) :=
  (activeCores s).foldl (fun b core =>
    match nextTime s core with
    | none => b
    | some t => match b with
      | none => some (core, t)
      | some (c, u) => if t < u then some (core, t) else some (c, u)) none

/-- Time passes on one core; nothing changes when nothing waits for it. -/
def passTime (s : State) : State :=
  match nextCore s with
  | some (core, t) => endCycle s core t
  | none => s

/-! ### What happens next by itself (log 2) -/

/-- The splits of resident blocks. -/
def liveSplits (s : State) : List (Nat × Nat × Split) :=
  s.warps.flatMap (fun e => if (getBlock s (blkOf e.1)).state = 1 then e.2.splits.map (fun x => (e.1, x.1, x.2)) else [])

/-- The header of a split is one at which it stands held, before its STALL count or transfer has passed (R152). -/
def heldEarly (s : State) (w k : Nat) (sp : Split) : Bool :=
  match fetch s w sp with
  | .word h _ => (headerFault h).isNone && rcvHeld s w k { sp with hdr := some h }
  | _ => false

/-- A header to be checked: the split has reached it, or stands held there. -/
def pickHeader (s : State) : Option Instr :=
  ((liveSplits s).find? (fun e => atHeader s e.1 e.2.1 &&
    (decide (e.2.2.next ≤ (getCore s (coreOf s e.1)).cyc) || heldEarly s e.1 e.2.1 e.2.2))).map (fun e => .clauseStart e.1 e.2.1)

/-- The step of a split's wait that can be taken. -/
def pickWake (s : State) : Option Instr :=
  (liveSplits s).findSome? (fun e =>
    match e.2.2.susp with
    | none => none
    | some (.op id) =>
      match (findOp s id).map Op.kind with
      | some (.monitor lanes _ ty cc scope) =>
        match findOp s id with
        | some o =>
          if lanes.any (monDue s o ty cc scope) then some (.monitorRecheck e.1 e.2.1)
          else if lanes.any (fun m => m.out.isNone && m.read && (match m.limit with | some x => decide (x ≤ (getCore s (coreOf s e.1)).cyc) | none => false)) then
            some (.mwaitLimit e.1 e.2.1)
          else none
        | none => none
      | _ => none
    | some (.nap _) => if (wakeOf s e.1 e.2.1).isSome then some (.napExpiry e.1 e.2.1) else none
    | some _ => if (wakeOf s e.1 e.2.1).isSome then some (.suspendedSplitWake e.1 e.2.1) else none)

/-- The step of an outstanding operation. -/
def pickOp (s : State) (o : Op) : Option Instr :=
  match o.kind with
  | .load .. => let m := readyLanes s o; if m ≠ 0 then some (.loadComplete o.id m) else none
  | .store .. => let m := readyLanes s o; if m ≠ 0 then some (.storePerformed o.id m) else none
  | .atomic .. =>
    let m := readyLanes s o
    if m = 0 then none else if o.cls = some .ld then some (.loadComplete o.id m) else some (.storePerformed o.id m)
  | .maint .. => if maintReady s o then some (.storePerformed o.id 0) else none
  | .sfu ws fl st start _ lat sync _ =>
    let t := (getCore s (coreOf s o.w)).cyc
    if st then (if start + lat ≤ t ∧ pushOpen s o (sfuGood ws fl sync) then some (.sfuComplete o.id) else none)
    else if (sfuQueue s (quarterOf s o.w)).head?.map (·.id) = some o.id ∧ (getQuarter s (quarterOf s o.w)).sfuBusy ≤ t then some (.sfuStart o.id) else none
  | .bnc .. => some (.bncComplete o.id)
  | .result ws => if pushOpen s o ws then some (.exOperationComplete o.id) else none
  | .version v =>
    if v.kind = 2 then (if vpubReady s o v then some (.vpubService o.id) else none)
    else if homeOn s v then some (.versionHomeService o.id) else none
  | .tdset .. => some (.tdsetComplete o.id)
  | .copy x =>
    if !copyFree s o x then none
    else if (nextPieceOf s o x).isSome then some (.copyComplete o.id)
    else if !pageOpen s (copyStall s o x) then none
    else match x.todo with
      | r :: _ => if allRead x then some (.multicastDelivery o.id r) else some (.copyComplete o.id)
      | [] => some (.copyComplete o.id)
  | .matrix m =>
    if !m.started then (if mxCanStart s o m then some (.matrixOpStart o.id) else none)
    else if mxCanComplete s o m && pageOpen s (mxStall s o m) then some (.matrixOpComplete o.id 0)
    else none
  | .mbsend .. => if sendReady s o then some (.mbsendDelivery o.id) else none
  | .record .. => if recordReady s o then some (.recordPoolArrival o.id) else none
  | _ => (pickRay s o).or (pickFabric s o)

/-- The next element of a load stream can be entered, or its stall recorded. -/
def streamOpen (s : State) (w l : Nat) (x : Queue) : Bool :=
  match chkLane s { agentOf s w (laneSup s w l) with denied := x.denied } .load l x.addr (tyBytes x.ty) 1 0 0 0 with
  | .wait y => pageOpen s (some y)
  | .settled none => false
  | .ok _ acc => !ownedAgainst s (streamOp s w l x acc) acc && !peerHeld s s.routes acc.key
  | _ => true

/-- A load stream that can fetch. -/
def pickStream (s : State) : Option Instr :=
  (s.queues.find? (fun e => let w := e.1 / 128; let l := e.1 / 4 % 32; let q := e.1 % 4
    fetchReady s w l q && decide ((getBlock s (blkOf w)).state = 1) && streamOpen s w l e.2)).map
    (fun e => .loadStreamFetch (e.1 / 128) (e.1 / 4 % 32) (e.1 % 4))

/-! ### PAGE_REQUEST_GROUP_RESPONSE (R474) -/

/-- A wait names a granule of a host-shared space. -/
def waitsOn (x : Option Wait) (die space gran : Nat) : Bool :=
  match x with
  | some (.page d h sp vas _) => decide (d = die) && h && decide (sp = space) && vas.any (fun v => decide (v / 2 ^ 16 = gran))
  | _ => false

/-- The pages on which an outstanding operation's accesses stall. -/
def opStalls (s : State) (o : Op) : List Wait :=
  let late (ws : List (Nat × Nat × TWord)) : List Wait := match o.push with
    | some p => (pushWaits (lateChecks s o p ws)).toList
    | none => []
  match o.kind with
  | .copy x => (copyStall s o x).toList
  | .matrix m => (mxStall s o m).toList
  | .halo x => (haloStall s o x).toList
  | .coll x => (collUnread x).filterMap (collStall s o x)
  | .result ws => late ws
  | .sfu ws fl _ _ _ _ sync _ => late (sfuGood ws fl sync)
  | .ray k _ ls _ => ls.filterMap (fun l => match laneStep s o k l with | .stall w => some w | _ => none)
  | .spawn x => if x.rcd.isSome then [] else match readSpawn s o x with | .error w => [w] | .ok _ => []
  | _ => []

/-- The page on which the next element of a load stream stalls. -/
def streamStall (s : State) (e : Nat × Queue) : Option Wait :=
  let w := e.1 / 128
  let l := e.1 / 4 % 32
  if !fetchReady s w l (e.1 % 4) || decide ((getBlock s (blkOf w)).state ≠ 1) then none
  else match chkLane s { agentOf s w (laneSup s w l) with denied := e.2.denied } .load l e.2.addr (tyBytes e.2.ty) 1 0 0 0 with
  | .wait y => some y
  | _ => none

/-- The page on which the update of a node's completion record stalls: for its retirement, or for a relaunch of a block. -/
def nodeStall (s : State) (num : Nat) (n : Node) : Option Wait :=
  if nodeOver s n || s.blocks.any (fun e => decide (e.2.node = num) && blockOver s e.1) then
    match crecUpdate s n.die (launchRec s n) n.denied 0 0 0 0 0 [] with
    | .error w => some w
    | .ok _ => none
  else none

/-- The accesses that stall on the granule become invalid mappings (R178). -/
def denyGranule (s : State) (die space gran : Nat) : State :=
  let hit (x : Option Wait) : Bool := waitsOn x die space gran
  { s with
    warps := s.warps.map (fun e => (e.1, { e.2 with splits := e.2.splits.map (fun k =>
      (k.1, if hit k.2.susp then { k.2 with denied := gran :: k.2.denied } else k.2)) })),
    queues := s.queues.map (fun e => if hit (streamStall s e) then (e.1, { e.2 with denied := gran :: e.2.denied }) else e),
    ops := s.ops.map (fun o => if (opStalls s o).any (fun w => hit (some w)) then { o with denied := gran :: o.denied } else o),
    nodes := s.nodes.map (fun e => (e.1, e.2.map (fun n => if hit (nodeStall s e.1 n) then { n with denied := gran :: n.denied } else n))) }

/-- PAGE_REQUEST_GROUP_RESPONSE: the host's answer for a page; a failure makes the accesses stalled on it invalid mappings. -/
def execPageRequestGroupResponse (die pasid va : Nat) (ok : Bool) (s : State) : Host.Outcome State Fault Refusal :=
  let space := 2 ^ 20 + pasid % 2 ^ 20
  let gran := va / 2 ^ 16
  let hit (y : Stall) : Bool := decide (y.die = die) && y.host && decide (y.space = space) && decide (y.va / 2 ^ 16 = gran) && y.req.isSome
  if !s.stalls.any hit then .next s
  else
    let s1 := { s with stalls := s.stalls.filter (fun y => !hit y) }
    .next (if ok then s1 else denyGranule s1 die space gran)

/-- A waiting `grow` that can be answered. -/
def pickGrow (s : State) : Option Instr :=
  match s.growQ.find? (growFits s) with
  | some r => some (.growGrant r.core)
  | none => if s.growQ.any (fun r => growStuck s r.core) then some .growFail else none

/-- A working frame to be obtained, a stall for one that has lasted too long, or a checkpoint to be completed. -/
def pickVersion (s : State) : Option Instr :=
  (((framesWanted s).find? (fun v => match allocFrame s v with | .ok _ => true | .error _ => false)).map Instr.copyOnWrite).or <|
  ((liveSplits s).findSome? (fun e => match frameWait s e.2.2 with
    | some (as, since, _) => if (framesOver s as since (getCore s (coreOf s e.1)).cyc).isEmpty then none else some (.versionFull e.1 e.2.1)
    | none => none)).or <|
  ((s.cks.find? (fun e => e.2.run.isSome)).map (fun e => Instr.checkpointManifestWrite e.1))

/-- A step of the package's own units that register writes and host packets started. -/
def pickPackage (s : State) : Option Instr :=
  (pickRegion s).or <| (pickCommand s).or <| (if (packetReady s).isSome then some .hostPacketEntry else none).or <|
    (if s.rsstat.toNat % 256 = 1 then some .regionRestoreDone else none)

/-- A page request to be posted. -/
def pickPage (s : State) : Option Instr := if s.stalls.any (canPost s) then some .pageRequestPost else none

/-- A warp choice in the current cycle of the core that is furthest behind. -/
def pickChoice (s : State) : Option Instr :=
  let due := (activeCores s).filterMap (fun c => ((List.range 4).find? (choiceDue s c)).map (fun q => (c, q)))
  let best := due.foldl (fun (b : Option (Nat × Nat)) e => match b with
    | none => some e
    | some x => if (getCore s e.1).cyc < (getCore s x.1).cyc then some e else some x) none
  match best, nextCore s with
  | some e, some (_, t) => if t < (getCore s e.1).cyc then none else some (.warpChoice e.1 e.2)
  | some e, none => some (.warpChoice e.1 e.2)
  | none, _ => none

end Sys2Proof.Machine
end

