-- ==== Sys2Proof/Machine/Watch.lean ====
section
/-!
DEFINITION. WATCHDOG: the trap of a warp that issues nothing (R451).
-/
namespace Sys2Proof.Machine

/-- The splits that may take the trap: those of the warp, or while a user handler is active the handler's alone. -/
def watchSplits (s : State) (w : Nat) : List (Nat × Split) :=
  let xs := validSplits s w
  if xs.any (fun e => userActive e.2) then xs.filter (fun e => userActive e.2) else xs

/-- The split stands: suspended, waiting or held at a header, or past its STALL count at a word of its clause. -/
def standing (t : Nat) (e : Nat × Split) : Bool := e.2.susp.isSome || atPosition e.2 || decide (e.2.next ≤ t)

/-- The split that takes the trap: the oldest that is not ready, otherwise the oldest. -/
def watchPick (s : State) (w t : Nat) : Option (Nat × Split) :=
  let xs := (watchSplits s w).insertionSort (fun a b => a.2.age ≤ b.2.age)
  (xs.find? (fun e => !readyAt s w e.1 e.2 t && standing t e)).or (xs.find? (standing t))

/-- The watchdog of a warp is due: its limit is reached and none of its waits is already over. -/
def watchDue (s : State) (w : Nat) : Bool :=
  (match watchTime s w with | some t => decide (t ≤ (getCore s (coreOf s w)).cyc) | none => false) &&
    !(validSplits s w).any (fun e => (wakeOf s w e.1).isSome)

/-- The arrival of a barrier that is abandoned is withdrawn: what is recorded of the split's lanes, and what was counted of them. -/
def unarrive (s : State) (w : Nat) (m : Mask) (k : Nat) : State :=
  let b := blkOf w
  let mine (o : Op) : Bool := decide (o.w = w) && decide (o.lanes &&& m ≠ 0) && (match o.kind with | .arrive j .. => decide (j = k) | _ => false)
  let waits := ((s.ops.filter mine).map (fun o => laneCount (o.lanes &&& m))).sum
  let s1 : State := { s with ops := s.ops.filter (fun o => !mine o) }
  let o := objOf s1 b k
  let here := (lanesOf m).filter (fun l => o.record.contains (lkey w l))
  let o1 := { o with record := o.record.filter (fun e => !(here.map (lkey w)).contains e), arrived := o.arrived - (here.length - waits) }
  putObj s1 b k o1

/-- The wait of a split is abandoned: its instruction has no effect (R184, R451). -/
def abandonWait (s : State) (w k : Nat) : State :=
  let sp := getSplit s w k
  let s1 := withdraw s (fun a b => decide (a = w) && decide (b = k))
  match sp.susp with
  | some (.op id) => endOp s1 id
  | some (.arrival obj p _) => if (objOf s1 (blkOf w) obj).phase = p then unarrive s1 w sp.mask obj else s1
  | some (.cluster p _) => if (objOf s1 (blkOf w) 64).phase = p then unarrive s1 w sp.mask 64 else s1
  | some (.save ..) =>
    match saveOf s1 w k with
    | some r => r.blks.foldl (fun s e => setBlock s e.1 { getBlock s e.1 with saving := false }) { s1 with saves := s1.saves.filter (fun x => x ≠ r) }
    | none => s1
  | _ => s1

/-- The word where the split stands, 0 where its fetch does not succeed. -/
def wordHere (s : State) (w : Nat) (sp : Split) : Word := match fetch s w sp with | .word x _ => x | _ => 0

/-- WATCHDOG (R451): the trap, and the record of it (R452). -/
def execWatchdog (w : Nat) (s : State) : Host.Outcome State Fault Refusal :=
  let t := (getCore s (coreOf s w)).cyc
  if !watchDue s w then .next s
  else
    match watchPick s w t with
    | none => .next s
    | some (k, sp) =>
      let x := wordHere s w sp
      let s1 := takeTrap (abandonWait s w k) w k t (if sp.susp.isSome then sp.path else 0) (atPosition sp) x (trapAll causeWatchdog 0 sp.mask)
      let b := getBlock s (blkOf w)
      .next (vesper s1 b.die 0x08 (vsource 0 b.core) b.launchid.toNat b.blocklin (vpc sp).toNat)

end Sys2Proof.Machine
end

