-- ==== Sys2Proof/Machine/Dispatch.lean ====
section
/-!
DEFINITION. One arm for each constructor of Instr: a direct call of its meaning.
-/
namespace Sys2Proof.Machine

/-- What one step of the table does in a state. -/
def exec (i : Instr) (s : State) : Host.Outcome State Fault Refusal :=
  match i with
  | .nop f => Sys2Proof.Machine.execNop f s
  | .mov f => Sys2Proof.Machine.execMov f s
  | .movk f => Sys2Proof.Machine.execMovk f s
  | .add f => Sys2Proof.Machine.execAdd f s
  | .sub f => Sys2Proof.Machine.execSub f s
  | .mul f => Sys2Proof.Machine.execMul f s
  | .mulhi f => Sys2Proof.Machine.execMulhi f s
  | .mad f => Sys2Proof.Machine.execMad f s
  | .div f => Sys2Proof.Machine.execDiv f s
  | .rem f => Sys2Proof.Machine.execRem f s
  | .min f => Sys2Proof.Machine.execMin f s
  | .max f => Sys2Proof.Machine.execMax f s
  | .abs f => Sys2Proof.Machine.execAbs f s
  | .neg f => Sys2Proof.Machine.execNeg f s
  | .and f => Sys2Proof.Machine.execAnd f s
  | .or f => Sys2Proof.Machine.execOr f s
  | .xor f => Sys2Proof.Machine.execXor f s
  | .not f => Sys2Proof.Machine.execNot f s
  | .andn f => Sys2Proof.Machine.execAndn f s
  | .shl f => Sys2Proof.Machine.execShl f s
  | .shr f => Sys2Proof.Machine.execShr f s
  | .sar f => Sys2Proof.Machine.execSar f s
  | .rot f => Sys2Proof.Machine.execRot f s
  | .bfx f => Sys2Proof.Machine.execBfx f s
  | .bfi f => Sys2Proof.Machine.execBfi f s
  | .popc f => Sys2Proof.Machine.execPopc f s
  | .clz f => Sys2Proof.Machine.execClz f s
  | .ctz f => Sys2Proof.Machine.execCtz f s
  | .brev f => Sys2Proof.Machine.execBrev f s
  | .bswap f => Sys2Proof.Machine.execBswap f s
  | .lea f => Sys2Proof.Machine.execLea f s
  | .pdot f => Sys2Proof.Machine.execPdot f s
  | .prm f => Sys2Proof.Machine.execPrm f s
  | .srd f => Sys2Proof.Machine.execSrd f s
  | .swr f => Sys2Proof.Machine.execSwr f s
  | .cnd f => Sys2Proof.Machine.execCnd f s
  | .fcnd f => Sys2Proof.Machine.execFcnd f s
  | .cmp f => Sys2Proof.Machine.execCmp f s
  | .fcmp f => Sys2Proof.Machine.execFcmp f s
  | .gate f => Sys2Proof.Machine.execGate f s
  | .mrg f => Sys2Proof.Machine.execMrg f s
  | .sel f => Sys2Proof.Machine.execSel f s
  | .tget f => Sys2Proof.Machine.execTget f s
  | .tset f => Sys2Proof.Machine.execTset f s
  | .tchk f => Sys2Proof.Machine.execTchk f s
  | .cand f => Sys2Proof.Machine.execCand f s
  | .cor f => Sys2Proof.Machine.execCor f s
  | .cnot f => Sys2Proof.Machine.execCnot f s
  | .fadd f => Sys2Proof.Machine.execFadd f s
  | .fsub f => Sys2Proof.Machine.execFsub f s
  | .fmul f => Sys2Proof.Machine.execFmul f s
  | .fma f => Sys2Proof.Machine.execFma f s
  | .fms f => Sys2Proof.Machine.execFms f s
  | .fnma f => Sys2Proof.Machine.execFnma f s
  | .fnms f => Sys2Proof.Machine.execFnms f s
  | .fdiv f => Sys2Proof.Machine.execFdiv f s
  | .fsqrt f => Sys2Proof.Machine.execFsqrt f s
  | .fmin f => Sys2Proof.Machine.execFmin f s
  | .fmax f => Sys2Proof.Machine.execFmax f s
  | .fminx f => Sys2Proof.Machine.execFminx f s
  | .fmaxx f => Sys2Proof.Machine.execFmaxx f s
  | .fabs f => Sys2Proof.Machine.execFabs f s
  | .fneg f => Sys2Proof.Machine.execFneg f s
  | .fcps f => Sys2Proof.Machine.execFcps f s
  | .fclass f => Sys2Proof.Machine.execFclass f s
  | .frnd f => Sys2Proof.Machine.execFrnd f s
  | .fscale f => Sys2Proof.Machine.execFscale f s
  | .fexp f => Sys2Proof.Machine.execFexp f s
  | .fman f => Sys2Proof.Machine.execFman f s
  | .hdot f => Sys2Proof.Machine.execHdot f s
  | .cvt f => Sys2Proof.Machine.execCvt f s
  | .cvtp f => Sys2Proof.Machine.execCvtp f s
  | .cvtmx f => Sys2Proof.Machine.execCvtmx f s
  | .sfu f => Sys2Proof.Machine.execSfu f s
  | .bnset f => Sys2Proof.Machine.execBnset f s
  | .bnsetGet f => Sys2Proof.Machine.execBnsetGet f s
  | .bnperm f => Sys2Proof.Machine.execBnperm f s
  | .bnc f => Sys2Proof.Machine.execBnc f s
  | .shfl f => Sys2Proof.Machine.execShfl f s
  | .shfx f => Sys2Proof.Machine.execShfx f s
  | .vote f => Sys2Proof.Machine.execVote f s
  | .red f => Sys2Proof.Machine.execRed f s
  | .scan f => Sys2Proof.Machine.execScan f s
  | .bcast f => Sys2Proof.Machine.execBcast f s
  | .matchv f => Sys2Proof.Machine.execMatchv f s
  | .elect f => Sys2Proof.Machine.execElect f s
  | .lrank f => Sys2Proof.Machine.execLrank f s
  | .bra f => Sys2Proof.Machine.execBra f s
  | .bdv f => Sys2Proof.Machine.execBdv f s
  | .bany f => Sys2Proof.Machine.execBany f s
  | .ball f => Sys2Proof.Machine.execBall f s
  | .bnone f => Sys2Proof.Machine.execBnone f s
  | .jmp f => Sys2Proof.Machine.execJmp f s
  | .call f => Sys2Proof.Machine.execCall f s
  | .loopSet f => Sys2Proof.Machine.execLoopSet f s
  | .loop f => Sys2Proof.Machine.execLoop f s
  | .lexit f => Sys2Proof.Machine.execLexit f s
  | .wait f => Sys2Proof.Machine.execWait f s
  | .yield f => Sys2Proof.Machine.execYield f s
  | .exit f => Sys2Proof.Machine.execExit f s
  | .ecall f => Sys2Proof.Machine.execEcall f s
  | .brk f => Sys2Proof.Machine.execBrk f s
  | .grow f => Sys2Proof.Machine.execGrow f s
  | .nap f => Sys2Proof.Machine.execNap f s
  | .ld f => Sys2Proof.Machine.execLd f s
  | .st f => Sys2Proof.Machine.execSt f s
  | .ldl f => Sys2Proof.Machine.execLdl f s
  | .stl f => Sys2Proof.Machine.execStl f s
  | .ldc f => Sys2Proof.Machine.execLdc f s
  | .stc f => Sys2Proof.Machine.execStc f s
  | .ldq f => Sys2Proof.Machine.execLdq f s
  | .stq f => Sys2Proof.Machine.execStq f s
  | .lda f => Sys2Proof.Machine.execLda f s
  | .str f => Sys2Proof.Machine.execStr f s
  | .prf f => Sys2Proof.Machine.execPrf f s
  | .winv f => Sys2Proof.Machine.execWinv f s
  | .wbk f => Sys2Proof.Machine.execWbk f s
  | .fence f => Sys2Proof.Machine.execFence f s
  | .chopen f => Sys2Proof.Machine.execChopen f s
  | .chst f => Sys2Proof.Machine.execChst f s
  | .chfence f => Sys2Proof.Machine.execChfence f s
  | .chclose f => Sys2Proof.Machine.execChclose f s
  | .stmc f => Sys2Proof.Machine.execStmc f s
  | .vopen f => Sys2Proof.Machine.execVopen f s
  | .ldv f => Sys2Proof.Machine.execLdv f s
  | .vpub f => Sys2Proof.Machine.execVpub f s
  | .vclose f => Sys2Proof.Machine.execVclose f s
  | .vinfo f => Sys2Proof.Machine.execVinfo f s
  | .ckpt f => Sys2Proof.Machine.execCkpt f s
  | .ckwait f => Sys2Proof.Machine.execCkwait f s
  | .atom f => Sys2Proof.Machine.execAtom f s
  | .cas f => Sys2Proof.Machine.execCas f s
  | .cas2 f => Sys2Proof.Machine.execCas2 f s
  | .atoml f => Sys2Proof.Machine.execAtoml f s
  | .fatom f => Sys2Proof.Machine.execFatom f s
  | .fred f => Sys2Proof.Machine.execFred f s
  | .bar f => Sys2Proof.Machine.execBar f s
  | .barr f => Sys2Proof.Machine.execBarr f s
  | .barw f => Sys2Proof.Machine.execBarw f s
  | .cbar f => Sys2Proof.Machine.execCbar f s
  | .mwait f => Sys2Proof.Machine.execMwait f s
  | .aoinit f => Sys2Proof.Machine.execAoinit f s
  | .aoarr f => Sys2Proof.Machine.execAoarr f s
  | .aoexp f => Sys2Proof.Machine.execAoexp f s
  | .aowt f => Sys2Proof.Machine.execAowt f s
  | .tdset f => Sys2Proof.Machine.execTdset f s
  | .tdget f => Sys2Proof.Machine.execTdget f s
  | .tcpgl f => Sys2Proof.Machine.execTcpgl f s
  | .tcplg f => Sys2Proof.Machine.execTcplg f s
  | .tcpgg f => Sys2Proof.Machine.execTcpgg f s
  | .tcpmc f => Sys2Proof.Machine.execTcpmc f s
  | .tcpred f => Sys2Proof.Machine.execTcpred f s
  | .tcpst f => Sys2Proof.Machine.execTcpst f s
  | .tcppf f => Sys2Proof.Machine.execTcppf f s
  | .cbinit f => Sys2Proof.Machine.execCbinit f s
  | .cbacq f => Sys2Proof.Machine.execCbacq f s
  | .cbrel f => Sys2Proof.Machine.execCbrel f s
  | .cbres f => Sys2Proof.Machine.execCbres f s
  | .cbcom f => Sys2Proof.Machine.execCbcom f s
  | .aczero f => Sys2Proof.Machine.execAczero f s
  | .mmx f => Sys2Proof.Machine.execMmx f s
  | .mmxl f => Sys2Proof.Machine.execMmxl f s
  | .acld f => Sys2Proof.Machine.execAcld f s
  | .acst f => Sys2Proof.Machine.execAcst f s
  | .acrd f => Sys2Proof.Machine.execAcrd f s
  | .acwr f => Sys2Proof.Machine.execAcwr f s
  | .acep f => Sys2Proof.Machine.execAcep f s
  | .mxstat f => Sys2Proof.Machine.execMxstat f s
  | .rtbind f => Sys2Proof.Machine.execRtbind f s
  | .rtrace f => Sys2Proof.Machine.execRtrace f s
  | .rtres f => Sys2Proof.Machine.execRtres f s
  | .rtcand f => Sys2Proof.Machine.execRtcand f s
  | .rtacc f => Sys2Proof.Machine.execRtacc f s
  | .rtbox f => Sys2Proof.Machine.execRtbox f s
  | .rttri f => Sys2Proof.Machine.execRttri f s
  | .lhtinv f => Sys2Proof.Machine.execLhtinv f s
  | .lhtstat f => Sys2Proof.Machine.execLhtstat f s
  | .mbrecv f => Sys2Proof.Machine.execMbrecv f s
  | .mbsend f => Sys2Proof.Machine.execMbsend f s
  | .spawn f => Sys2Proof.Machine.execSpawn f s
  | .rgn f => Sys2Proof.Machine.execRgn f s
  | .ralloc f => Sys2Proof.Machine.execRalloc f s
  | .rsub f => Sys2Proof.Machine.execRsub f s
  | .rbatch f => Sys2Proof.Machine.execRbatch f s
  | .rfetch f => Sys2Proof.Machine.execRfetch f s
  | .rfree f => Sys2Proof.Machine.execRfree f s
  | .lvcoord f => Sys2Proof.Machine.execLvcoord f s
  | .hx f => Sys2Proof.Machine.execHx f s
  | .arx f => Sys2Proof.Machine.execArx f s
  | .agx f => Sys2Proof.Machine.execAgx f s
  | .rsx f => Sys2Proof.Machine.execRsx f s
  | .plstat f => Sys2Proof.Machine.execPlstat f s
  | .plack f => Sys2Proof.Machine.execPlack f s
  | .tret f => Sys2Proof.Machine.execTret f s
  | .tfix f => Sys2Proof.Machine.execTfix f s
  | .csrr f => Sys2Proof.Machine.execCsrr f s
  | .csrw f => Sys2Proof.Machine.execCsrw f s
  | .pgmode f => Sys2Proof.Machine.execPgmode f s
  | .pgrep f => Sys2Proof.Machine.execPgrep f s
  | .pgcol f => Sys2Proof.Machine.execPgcol f s
  | .tlbinv f => Sys2Proof.Machine.execTlbinv f s
  | .preempt f => Sys2Proof.Machine.execPreempt f s
  | .resume f => Sys2Proof.Machine.execResume f s
  | .blkkill f => Sys2Proof.Machine.execBlkkill f s
  | .vlog f => Sys2Proof.Machine.execVlog f s
  | .unassignedOpcode op f => Sys2Proof.Machine.execUnassignedOpcode op f s
  | .extensionOpcode op f => Sys2Proof.Machine.execExtensionOpcode op f s
  | .clauseStart w k => Sys2Proof.Machine.execClauseStart w k s
  | .warpChoice core q => Sys2Proof.Machine.execWarpChoice core q s
  | .starveForce w k => Sys2Proof.Machine.execStarveForce w k s
  | .reconvergenceHoldLimit w k => Sys2Proof.Machine.execReconvergenceHoldLimit w k s
  | .suspendedSplitWake w k => Sys2Proof.Machine.execSuspendedSplitWake w k s
  | .loadComplete op lanes => Sys2Proof.Machine.execLoadComplete op lanes s
  | .storePerformed op lanes => Sys2Proof.Machine.execStorePerformed op lanes s
  | .sfuStart op => Sys2Proof.Machine.execSfuStart op s
  | .sfuComplete op => Sys2Proof.Machine.execSfuComplete op s
  | .bncComplete op => Sys2Proof.Machine.execBncComplete op s
  | .tdsetComplete op => Sys2Proof.Machine.execTdsetComplete op s
  | .loadStreamFetch w lane q => Sys2Proof.Machine.execLoadStreamFetch w lane q s
  | .copyOnWrite vdb => Sys2Proof.Machine.execCopyOnWrite vdb s
  | .versionFull w k => Sys2Proof.Machine.execVersionFull w k s
  | .vpubService op => Sys2Proof.Machine.execVpubService op s
  | .checkpointManifestWrite region => Sys2Proof.Machine.execCheckpointManifestWrite region s
  | .copyComplete op => Sys2Proof.Machine.execCopyComplete op s
  | .multicastDelivery op rank => Sys2Proof.Machine.execMulticastDelivery op rank s
  | .matrixOpStart op => Sys2Proof.Machine.execMatrixOpStart op s
  | .matrixOpComplete op err => Sys2Proof.Machine.execMatrixOpComplete op err s
  | .rayQueryDone w lane => Sys2Proof.Machine.execRayQueryDone w lane s
  | .monitorRecheck w k => Sys2Proof.Machine.execMonitorRecheck w k s
  | .mwaitLimit w k => Sys2Proof.Machine.execMwaitLimit w k s
  | .napExpiry w k => Sys2Proof.Machine.execNapExpiry w k s
  | .growGrant core => Sys2Proof.Machine.execGrowGrant core s
  | .blockComplete blk => Sys2Proof.Machine.execBlockComplete blk s
  | .nodeMatch die => Sys2Proof.Machine.execNodeMatch die s
  | .blockDispatch die => Sys2Proof.Machine.execBlockDispatch die s
  | .nodeRetire die node => Sys2Proof.Machine.execNodeRetire die node s
  | .mbsendDelivery op => Sys2Proof.Machine.execMbsendDelivery op s
  | .mbrecvReceive die => Sys2Proof.Machine.execMbrecvReceive die s
  | .collectiveComplete op others => Sys2Proof.Machine.execCollectiveComplete op others s
  | .watchdog w => Sys2Proof.Machine.execWatchdog w s
  | .forwardedTraffic blk => Sys2Proof.Machine.execForwardedTraffic blk s
  | .versionHomeService op => Sys2Proof.Machine.execVersionHomeService op s
  | .recordPoolArrival op => Sys2Proof.Machine.execRecordPoolArrival op s
  | .exOperationComplete op => Sys2Proof.Machine.execExOperationComplete op s
  | .pageRequestPost => Sys2Proof.Machine.execPageRequestPost s
  | .prqdone die value => Sys2Proof.Machine.execPrqdone die value s
  | .pageRequestGroupResponse die pasid va ok => Sys2Proof.Machine.execPageRequestGroupResponse die pasid va ok s
  | .checkpointPeriodElapsed region => Sys2Proof.Machine.execCheckpointPeriodElapsed region s
  | .growFail => Sys2Proof.Machine.execGrowFail s
  | .graphReservation => Sys2Proof.Machine.execGraphReservation s
  | .priorityPreempt => Sys2Proof.Machine.execPriorityPreempt s
  | .batchTimeout => Sys2Proof.Machine.execBatchTimeout s
  | .rallocGrant => Sys2Proof.Machine.execRallocGrant s
  | .replayCheck quarter n mismatch => Sys2Proof.Machine.execReplayCheck quarter n mismatch s
  | .doorbell die slot => Sys2Proof.Machine.execDoorbell die slot s
  | .hostPacketEntry => Sys2Proof.Machine.execHostPacketEntry s
  | .hostCxlMemAccess write pa len value => Sys2Proof.Machine.execHostCxlMemAccess write pa len value s
  | .bisnp region off write value => Sys2Proof.Machine.execBisnp region off write value s
  | .poolLossEvent device cause => Sys2Proof.Machine.execPoolLossEvent device cause s
  | .poolResponseTimeout device => Sys2Proof.Machine.execPoolResponseTimeout device s
  | .regionConfigure => Sys2Proof.Machine.execRegionConfigure s
  | .regionReactivate => Sys2Proof.Machine.execRegionReactivate s
  | .regionDeconfigure => Sys2Proof.Machine.execRegionDeconfigure s
  | .peerAccessArrival out src kind op ty pa len value cmp allowed => Sys2Proof.Machine.execPeerAccessArrival out src kind op ty pa len value cmp allowed s
  | .peerAccessTimeout op lanes => Sys2Proof.Machine.execPeerAccessTimeout op lanes s
  | .ualinkLinkLost port => Sys2Proof.Machine.execUalinkLinkLost port s
  | .haloBoxDelivery out peer xid len data => Sys2Proof.Machine.execHaloBoxDelivery out peer xid len data s
  | .haloTimeout out peer xid => Sys2Proof.Machine.execHaloTimeout out peer xid s
  | .collectiveTimeout op => Sys2Proof.Machine.execCollectiveTimeout op s
  | .harnessFlitLost pa owner => Sys2Proof.Machine.execHarnessFlitLost pa owner s
  | .suspectLineTimeout pa => Sys2Proof.Machine.execSuspectLineTimeout pa s
  | .vlogWindowReset core => Sys2Proof.Machine.execVlogWindowReset core s
  | .vesperEntryCapture thread log entry => Sys2Proof.Machine.execVesperEntryCapture thread log entry s
  | .pkgidWrite value => Sys2Proof.Machine.execPkgidWrite value s
  | .halotmoWrite value => Sys2Proof.Machine.execHalotmoWrite value s
  | .routeTableWrite pkg value => Sys2Proof.Machine.execRouteTableWrite pkg value s
  | .rsgo => Sys2Proof.Machine.execRsgo s
  | .regionRestoreDone => Sys2Proof.Machine.execRegionRestoreDone s
  | .registerWrite off value => Sys2Proof.Machine.execRegisterWrite off value s
  | .readLog => Sys2Proof.Machine.execReadLog s
  | .readSavedLog => Sys2Proof.Machine.execReadSavedLog s
  | .attest => Sys2Proof.Machine.execAttest s
  | .setPowerCap => Sys2Proof.Machine.execSetPowerCap s
  | .reset => Sys2Proof.Machine.execReset s
  | .status => Sys2Proof.Machine.execStatus s
  | .coldReset cfg images absent => Sys2Proof.Machine.execColdReset cfg images absent s
  | .warmReset images => Sys2Proof.Machine.execWarmReset images s
  | .powerPoll power temps => Sys2Proof.Machine.execPowerPoll power temps s
  | .hbmRecalibration stack temp => Sys2Proof.Machine.execHbmRecalibration stack temp s
  | .cxlCacheSnoop off write value => Sys2Proof.Machine.execCxlCacheSnoop off write value s
  | .linkUp port => Sys2Proof.Machine.execLinkUp port s

end Sys2Proof.Machine
end

