-- ==== Sys2Proof/Machine/Pick.lean ====
section
/-!
DEFINITION. What a step does beside running an instruction: fetching the word that issues, the step that happens next by itself, and
the state with a word placed for the next step.
-/
namespace Sys2Proof.Machine

/-- What the fetch of the issuing split leaves. -/
inductive NextWord where
  /-- The word issues in a state. -/
  | word (w : Word) (s : State)
  /-- Nothing issues. -/
  | done (s : State)

/-- The word of the split that issues (R42, R47). Where its fetch fails no word is available, and tinfo or sinfo takes 0 (R61; DESIGN CHOICE,
log 67). A trap beside one of the split on path 0 counts as not raised (R431). -/
def nextWord (s : State) (cu : Cur) : NextWord :=
  let sp := getSplit s cu.w cu.k
  if sp.mask = 0 ∨ sp.rem = 0 ∨ sp.susp.isSome ∨ (getBlock s (blkOf cu.w)).killed then .done { s with cur := none }
  else
    let t := issueTime s cu.w cu.k
    match fetch s cu.w sp with
    | .word w s1 => .word w s1
    | .held => .done (fetchLater { s with cur := none } cu.w cu.k t)
    | .trap cause sub s1 =>
      if handlerElsewhere s cu.w cu.k then .done { s with cur := none }
      else .done (takeTrap { s1 with cur := none } cu.w cu.k t (pathOf s cu.w t) false 0 (fetchTrap sp cause sub))
    | .stall x => .done (fetchStall { s with cur := none } cu.w cu.k x)

/-- The second split of the cycle issues. -/
def takeSecond (s : State) (cu : Cur) : State := { s with cur := some cu, cur2 := none }

/-- A watchdog that is due. -/
def pickWatch (s : State) : Option Instr := (s.warps.find? (fun e => watchDue s e.1)).map (fun e => Instr.watchdog e.1)

/-- The step that happens next by itself. -/
def pickEvent (s : State) : Option Instr :=
  (pickHeader s).or <| (s.ops.findSome? (pickOp s)).or <| (pickWake s).or <| (pickStream s).or <| (pickGrow s).or <| (pickVersion s).or <|
    (pickPage s).or <| (pickPackage s).or <| (pickBlocks s).or <| (pickWatch s).or <| pickChoice s

/-! ### A word placed for the next step (log 8) -/

/-- Physical addresses of the page tables and of the code page of the placed word, and its virtual address. -/
def placeRoot : Nat := 0x100000
def placeTable (i : Nat) : Nat := 0x102000 + 0x2000 * i
def placePage : Nat := 0x110000
def placeVa : Nat := 0x10008

/-- The class code of a clause that may hold an opcode (R62). -/
def placeClass (op : Nat) : Nat := if op < 0x100 then 0 else if op < 0x180 then 1 else if op < 0x1C0 then 2 else 3

/-- Memory with the tables and the word. -/
def placeMem (s : State) (w : Nat) : State :=
  let s := wrMem s placeRoot 8 (placeTable 0 + 1)
  let s := wrMem s (placeTable 0) 8 (placeTable 1 + 1)
  let s := wrMem s (placeTable 1) 8 (placeTable 2 + 1)
  let s := wrMem s (placeTable 2) 8 (placeTable 3 + 1)
  let s := wrMem s (placeTable 3 + 8) 8 (2 ^ 62 + placePage + 0x3F)
  wrMem s (placePage + 8) 8 w

/-- A resident block of one warp with one split of 32 lanes at the word, inside a clause of one word. -/
def placeWord (s : State) (w : Nat) : State :=
  let b := s.nextBlk
  let s := placeMem { s with pkg := { s.pkg with rootab := BitVec.ofNat 64 placeRoot } } w
  let sp : Split := { noSplit with mask := 0xFFFFFFFF, pc := BitVec.ofNat 56 placeVa, rem := 1, cls := placeClass (w / 2 ^ 52 % 2 ^ 9) }
  let blk : Block := { Block.none with state := 1, cluster := b, warps := 1, tsbytes := 65536, tiles := 16, naos := 16, ncb := 16 }
  { s with
    agenda := [], cur := some { w := 32 * b, k := 0 }, cur2 := none, nextBlk := b + 1, tlb := [], frozen := [], mgmt := { s.mgmt with powered := true },
    warps := sset Warp.none s.warps (32 * b) { Warp.none with live := true, vregs := 192, splits := [(0, sp)] },
    blocks := sset Block.none s.blocks b blk,
    aos := sset AObj.init s.aos (aoKey b 0) { AObj.init with expected := 32 } }

end Sys2Proof.Machine
end

