-- ==== Sys2Proof/Machine/Step.lean ====
section
/-!
DEFINITION. One step of the package: the device step that is due, the word that issues, or the step that happens next by itself
(log 2).
-/
namespace Sys2Proof.Machine

/-- One step. -/
def step (s : State) : Host.Outcome State Fault Refusal :=
  if !s.mgmt.powered then .fault .poweredOff
  else
    match s.agenda with
    | e :: r => exec e { s with agenda := r }
    | [] =>
      match s.cur with
      | some cu =>
        match nextWord s cu with
        | .word w s1 => exec (decode w) s1
        | .done s1 => .next s1
      | none =>
        match s.cur2 with
        | some cu => .next (takeSecond s cu)
        | none =>
          match pickEvent s with
          | some e => exec e s
          | none => .next (passTime s)

/-- The state with an instruction placed where the next step fetches it (log 8). -/
def State.withFetchWord (s : State) (nbits w : Nat) : State := placeWord s (w % 2 ^ min nbits 64)

end Sys2Proof.Machine
end

