-- ==== Sys2Proof/Safety.lean ====
section
/-!
DEFINITION. What counts as a safe run, and when a word has its own effect.
-/
namespace Sys2Proof

/-- The first k steps from a state all answer a next state. -/
def SafeFor : Nat → Machine.State → Prop
  | 0, _ => True
  | k + 1, s => ∃ t, Machine.step s = .next t ∧ SafeFor k t

namespace Machine

/-- The scoreboard raises nothing for the word at the state: fcr[9] is clear, or every register and control word it reads has been
written (R58, R129). -/
def readsSettled (spec : OpSpec) (c : Ctx) (s : State) : Bool :=
  !(getWarp s c.w).fcr.getLsbD 9 ||
    (decide ((shortLanes s c.w c.t c.sp.mask (spec.reads c.f)).1 = 0) && !(bnShort s c.w c.t (spec.bn c.f)).1 &&
      !(bnShort s c.w c.t (spec.bn c.f)).2)

/-- The counter on which the word counts is below its cap (R40), and so is ST where D is a store stream (R201). -/
def counterFree (spec : OpSpec) (c : Ctx) (s : State) : Bool :=
  (match spec.cnt with
    | some k => decide (counterOf s c.w c.sp.mask k < 63)
    | none => true) &&
    !(isQ c.f.d && decide (c.op ≠ 0x106 ∧ c.op ≠ 0x107) && decide (counterOf s c.w c.sp.mask .st ≥ 63))

/-- What R60 asks before a word acts is met: the current split is `cu` and has lanes, no acquire of the split holds the word (R223), the class is
allowed in the clause (R45), the split may run the word (R425), every field passes its check (R51 to R54), its reads are settled, its
queues hold the entries it reads (R199), its counter is free, it does not issue beside a trapped split on path 1 (R431), and in a dual block it does as its shadow does (R450). -/
def issues (spec : OpSpec) (f : Fields) (s : State) (cu : Cur) : Bool :=
  let c := ctxOf spec f s cu
  let s1 := startIssue s cu c.t
  let env := envOf s1 c.w c.sp (spec.reads f) f
  decide (s.cur = some cu) && !acquireHolds s spec.cls c.sp && clsAllowed spec.cls c.sp.cls && (spec.priv env).isNone &&
    (spec.check env).isNone && readsSettled spec c s1 && !queueShort s1 c.w c.sp.mask (spec.reads f) && counterFree spec c s1 &&
    !(decide (c.path = 1) && (validSplits s c.w).any (fun e => decide (e.1 ≠ c.k) && !e.2.hs.isEmpty)) && decide (c.sp.mask ≠ 0) &&
    !shadowDiffers spec c s1

/-- The state in which a word that issues is decided: it is at its issue time. -/
def atIssue (s : State) (cu : Cur) : State := startIssue s cu (issueTime s cu.w cu.k)

/-- The words of A, B and C that a lane's operands name when the word issues (R51, R57). -/
def inA (spec : OpSpec) (f : Fields) (s : State) (cu : Cur) (l : Nat) : TWord := opA (atIssue s cu) (ctxOf spec f s cu) l
def inB (spec : OpSpec) (f : Fields) (s : State) (cu : Cur) (l : Nat) : TWord := opB (atIssue s cu) (ctxOf spec f s cu) l
def inC (spec : OpSpec) (f : Fields) (s : State) (cu : Cur) (l : Nat) : TWord := opC (atIssue s cu) (ctxOf spec f s cu) l

/-- The word that D holds in a lane before the instruction. -/
def oldOf (f : Fields) (s : State) (cu : Cur) (l : Nat) : TWord := rdReg s cu.w f.d.toNat l

/-- The active lanes of a split. -/
def activeLanes (s : State) (cu : Cur) : List Nat := lanesOf (getSplit s cu.w cu.k).mask

/-- One result a lane; under a scalar destination every lane has the result of the lowest active lane (R75). -/
def perLane (f : Fields) (s : State) (cu : Cur) (g : Nat → LaneRes) : List (Nat × LaneRes) :=
  (activeLanes s cu).map (fun l => (l, g (if isS f.d then lowLane (getSplit s cu.w cu.k).mask else l)))

/-- A lane is active in the split. -/
def activeIn (s : State) (cu : Cur) (l : Nat) : Bool := (getSplit s cu.w cu.k).mask.getLsbD l

/-- R55, R144: no warp but the split's own changes, its warp changes in its split table and its count of idle turns only, the split goes on
with the next word after its STALL count, and no other split changes. -/
structure Goes (f : Fields) (s : State) (cu : Cur) (t : State) : Prop where
  others : ∀ w, w ≠ cu.w → getWarp t w = getWarp s w
  warp : getWarp t cu.w = { getWarp s cu.w with idle := 0, splits := (getWarp t cu.w).splits }
  split : getSplit t cu.w cu.k = { stepSplit (getSplit s cu.w cu.k) with next := issueTime s cu.w cu.k + stallOf f }
  rest : ∀ k, k ≠ cu.k → getSplit t cu.w k = getSplit s cu.w k

/-- Registers, in the lanes that exist, keep their words but for the register `code`: of a vector register, its active lanes. -/
def KeepsRegs (code : Nat) (s : State) (cu : Cur) (t : State) : Prop :=
  ∀ w r l, l < 32 → ¬(w = cu.w ∧ r = code ∧ (code < 0xC0 → activeIn s cu l = true)) → rdReg t w r l = rdReg s w r l

/-- R199: the queues that the word reads are popped in the active lanes, and no other queue changes. -/
def PopsQueues (reads : List (BitVec 8)) (s : State) (cu : Cur) (t : State) : Prop :=
  ∀ w l q, l < 32 → q < 4 → getQueue t w l q =
    if w = cu.w ∧ activeIn s cu l = true ∧ popCount reads q ≠ 0 then popQueue (getQueue s cu.w l q) (popCount reads q) else getQueue s w l q

/-- Outstanding operations stay as they are, but for destinations that the word writes (R57). -/
def KeepsOps (s t : State) : Prop := t.ops.map (fun o => { o with dst := [] }) = s.ops.map (fun o => { o with dst := [] })

/-- An operation without the destinations that are still its own (R57). -/
def Op.bare (o : Op) : Op := { o with dst := [] }

/-- The word has started one outstanding operation, the youngest, that covers the lanes given and counts on `cls` (R39). Other operations
stay, but for destinations that the word writes. -/
structure Starts (cls : Option Counter) (lanes : Mask) (p : Op → Prop) (s : State) (cu : Cur) (t : State) : Prop where
  op : ∃ old o, t.ops = old ++ [o] ∧ old.map Op.bare = s.ops.map Op.bare ∧ o.id = s.nextOp ∧ o.w = cu.w ∧ o.lanes = lanes ∧ o.cls = cls ∧
    o.push = none ∧ p o
  fresh : t.nextOp = s.nextOp + 1

/-- The operation has ended, and its results stand in the destinations that were still its own; no other register changes, and other
operations stay, but for destinations that the results take from them (R39, R57). -/
structure Completes (o : Op) (ws : List (Nat × Nat × TWord)) (s t : State) : Prop where
  value : (∀ e ∈ ws, e.2.1 < 32) → ∀ e ∈ ws, e.1 < 0xE0 → o.dst.contains (e.1, regLane e.1 e.2.1) = true →
    (∀ x ∈ ws, x.1 = e.1 → regLane x.1 x.2.1 = regLane e.1 e.2.1 → x.2.2 = e.2.2) → rdReg t o.w e.1 e.2.1 = e.2.2
  regs : (∀ e ∈ ws, e.2.1 < 32) → ∀ w r l, l < 32 →
    ¬(w = o.w ∧ o.dst.contains (r, regLane r l) = true ∧ ∃ e ∈ ws, e.1 = r ∧ regLane e.1 e.2.1 = regLane r l) → rdReg t w r l = rdReg s w r l
  ops : t.ops.map Op.bare = (s.ops.filter (fun e => decide (e.id ≠ o.id))).map Op.bare

/-- What a fixed-latency word with a register, or `zero`, in D leaves when no lane traps: the result of each lane in D, its flags, and
nothing else but the operands' queues and the split's own progress. -/
structure LaneDone (reads : List (BitVec 8)) (f : Fields) (s : State) (cu : Cur) (rs : List (Nat × LaneRes)) (t : State) : Prop where
  value : ∀ e ∈ rs, f.d.toNat < 0xE0 → rdReg t cu.w f.d.toNat e.1 = e.2.val
  regs : KeepsRegs f.d.toNat s cu t
  flags : ∀ e ∈ rs, sget 0#6 t.fsr (lkey cu.w e.1) = sget 0#6 s.fsr (lkey cu.w e.1) ||| e.2.fl
  otherFlags : ∀ w l, l < 32 → ¬(w = cu.w ∧ activeIn s cu l = true) → sget 0#6 t.fsr (lkey w l) = sget 0#6 s.fsr (lkey w l)
  queues : PopsQueues reads s cu t
  ops : KeepsOps s t
  goes : Goes f s cu t
  /-- Every other part of the state, memory among them, is as it was. -/
  frame : t = { s with cur := none, free := s.free + 1, vregs := t.vregs, sregs := t.sregs, fsr := t.fsr, queues := t.queues, ops := t.ops,
                       pend := t.pend, bnPend := t.bnPend, warps := t.warps, cores := t.cores, quarters := t.quarters, replays := t.replays }

end Machine

end Sys2Proof
end

