-- ==== Sys2Proof/WellFormed.lean ====
section
/-!
DEFINITION. Which instructions are written by a word of their own: the constructor is the one that the word's opcode and fields name.
And which of them are well-formed: every field passes the checks of R60 in the most permissive surroundings, so that a split of a block
with every unit, every vector register and armed queues could run the word.
-/
namespace Sys2Proof

/-- R64: an unassigned opcode. -/
def unassignedOp (n : Nat) : Bool :=
  decide (n < 0x1E0) && (decodeRow n { stall := 0, d := 0, a := 0, b := 0, c := 0, ty := 0, md := 0 }).isNone

/-- R66: an extension opcode. -/
def extensionOp (n : Nat) : Bool := decide (0x1E0 ≤ n)

/-- The instruction is the one that its own word names: two rows share an opcode and are told apart by a field (R132, R163), and a
word that is no instruction has an opcode outside the base map. -/
def Instr.coded : Instr → Bool
  | .loopSet f => f.d.getLsbD 2
  | .loop f => !f.d.getLsbD 2
  | .bnsetGet f => f.md.getLsbD 3
  | .bnset f => !f.md.getLsbD 3
  | .unassignedOpcode op _ => unassignedOp op.toNat
  | .extensionOpcode op _ => extensionOp op.toNat
  | i => (opFields i).isSome

open Machine in
/-- The encoding rows that an instruction may follow, with its fields: one, but for the copies, whose operand fields depend on the ranks
of their descriptors (R271); none for a word that is no instruction and for a device step. -/
def specsOf : Instr → List (OpSpec × Fields)
  | .nop f => [(specNop, f)]
  | .mov f => [(specMov, f)]
  | .movk f => [(specMovk, f)]
  | .add f => [(specAdd, f)]
  | .sub f => [(specSub, f)]
  | .mul f => [(specMul, f)]
  | .mulhi f => [(specMulhi, f)]
  | .mad f => [(specMad, f)]
  | .div f => [(specDiv, f)]
  | .rem f => [(specRem, f)]
  | .min f => [(specMin, f)]
  | .max f => [(specMax, f)]
  | .abs f => [(specAbs, f)]
  | .neg f => [(specNeg, f)]
  | .and f => [(specAnd, f)]
  | .or f => [(specOr, f)]
  | .xor f => [(specXor, f)]
  | .not f => [(specNot, f)]
  | .andn f => [(specAndn, f)]
  | .shl f => [(specShl, f)]
  | .shr f => [(specShr, f)]
  | .sar f => [(specSar, f)]
  | .rot f => [(specRot, f)]
  | .bfx f => [(specBfx, f)]
  | .bfi f => [(specBfi, f)]
  | .popc f => [(specPopc, f)]
  | .clz f => [(specClz, f)]
  | .ctz f => [(specCtz, f)]
  | .brev f => [(specBrev, f)]
  | .bswap f => [(specBswap, f)]
  | .lea f => [(specLea, f)]
  | .pdot f => [(specPdot, f)]
  | .prm f => [(specPrm, f)]
  | .srd f => [(specSrd, f)]
  | .swr f => [(specSwr, f)]
  | .cnd f => [(specCnd, f)]
  | .fcnd f => [(specFcnd, f)]
  | .cmp f => [(specCmp, f)]
  | .fcmp f => [(specFcmp, f)]
  | .gate f => [(specGate, f)]
  | .mrg f => [(specMrg, f)]
  | .sel f => [(specSel, f)]
  | .tget f => [(specTget, f)]
  | .tset f => [(specTset, f)]
  | .tchk f => [(specTchk, f)]
  | .cand f => [(specCand, f)]
  | .cor f => [(specCor, f)]
  | .cnot f => [(specCnot, f)]
  | .fadd f => [(specFadd, f)]
  | .fsub f => [(specFsub, f)]
  | .fmul f => [(specFmul, f)]
  | .fma f => [(specFma, f)]
  | .fms f => [(specFms, f)]
  | .fnma f => [(specFnma, f)]
  | .fnms f => [(specFnms, f)]
  | .fdiv f => [(specFdiv, f)]
  | .fsqrt f => [(specFsqrt, f)]
  | .fmin f => [(specFmin, f)]
  | .fmax f => [(specFmax, f)]
  | .fminx f => [(specFminx, f)]
  | .fmaxx f => [(specFmaxx, f)]
  | .fabs f => [(specFabs, f)]
  | .fneg f => [(specFneg, f)]
  | .fcps f => [(specFcps, f)]
  | .fclass f => [(specFclass, f)]
  | .frnd f => [(specFrnd, f)]
  | .fscale f => [(specFscale, f)]
  | .fexp f => [(specFexp, f)]
  | .fman f => [(specFman, f)]
  | .hdot f => [(specHdot, f)]
  | .cvt f => [(specCvt, f)]
  | .cvtp f => [(specCvtp, f)]
  | .cvtmx f => [(specCvtmx, f)]
  | .sfu f => [(specSfu, f)]
  | .bnset f => [(specBnset, f)]
  | .bnsetGet f => [(specBnsetGet, f)]
  | .bnperm f => [(specBnperm, f)]
  | .bnc f => [(specBnc, f)]
  | .shfl f => [(specShfl, f)]
  | .shfx f => [(specShfx, f)]
  | .vote f => [(specVote, f)]
  | .red f => [(specRed, f)]
  | .scan f => [(specScan, f)]
  | .bcast f => [(specBcast, f)]
  | .matchv f => [(specMatchv, f)]
  | .elect f => [(specElect, f)]
  | .lrank f => [(specLrank, f)]
  | .bra f => [(specBra, f)]
  | .bdv f => [(specBdv, f)]
  | .bany f => [(specBany, f)]
  | .ball f => [(specBall, f)]
  | .bnone f => [(specBnone, f)]
  | .jmp f => [(specJmp, f)]
  | .call f => [(specCall, f)]
  | .loopSet f => [(specLoopSet, f)]
  | .loop f => [(specLoop, f)]
  | .lexit f => [(specLexit, f)]
  | .wait f => [(specWait, f)]
  | .yield f => [(specYield, f)]
  | .exit f => [(specExit, f)]
  | .ecall f => [(specEcall, f)]
  | .brk f => [(specBrk, f)]
  | .grow f => [(specGrow, f)]
  | .nap f => [(specNap, f)]
  | .ld f => [(specLd, f)]
  | .st f => [(specSt, f)]
  | .ldl f => [(specLdl, f)]
  | .stl f => [(specStl, f)]
  | .ldc f => [(specLdc, f)]
  | .stc f => [(specStc, f)]
  | .ldq f => [(specLdq, f)]
  | .stq f => [(specStq, f)]
  | .lda f => [(specLda, f)]
  | .str f => [(specStr, f)]
  | .prf f => [(specPrf, f)]
  | .winv f => [(specWinv, f)]
  | .wbk f => [(specWbk, f)]
  | .fence f => [(specFence, f)]
  | .chopen f => [(specChopen, f)]
  | .chst f => [(specChst, f)]
  | .chfence f => [(specChfence, f)]
  | .chclose f => [(specChclose, f)]
  | .stmc f => [(specStmc, f)]
  | .vopen f => [(specVopen, f)]
  | .ldv f => [(specLdv, f)]
  | .vpub f => [(specVpub, f)]
  | .vclose f => [(specVclose, f)]
  | .vinfo f => [(specVinfo, f)]
  | .ckpt f => [(specCkpt, f)]
  | .ckwait f => [(specCkwait, f)]
  | .atom f => [(specAtom, f)]
  | .cas f => [(specCas, f)]
  | .cas2 f => [(specCas2, f)]
  | .atoml f => [(specAtoml, f)]
  | .fatom f => [(specFatom, f)]
  | .fred f => [(specFred, f)]
  | .bar f => [(specBar, f)]
  | .barr f => [(specBarr, f)]
  | .barw f => [(specBarw, f)]
  | .cbar f => [(specCbar, f)]
  | .mwait f => [(specMwait, f)]
  | .aoinit f => [(specAoinit, f)]
  | .aoarr f => [(specAoarr, f)]
  | .aoexp f => [(specAoexp, f)]
  | .aowt f => [(specAowt, f)]
  | .tdset f => [(specTdset, f)]
  | .tdget f => [(specTdget, f)]
  | .tcpgl f => (List.range 5).map (fun r => (specTcpgl (r + 1), f))
  | .tcplg f => (List.range 5).map (fun r => (specTcplg (r + 1), f))
  | .tcpgg f => ((List.range 5).flatMap (fun r => (List.range 5).map (fun q => (specTcpgg (r + 1) (q + 1), f))))
  | .tcpmc f => (List.range 5).map (fun r => (specTcpmc (r + 1), f))
  | .tcpred f => (List.range 5).map (fun r => (specTcpred (r + 1), f))
  | .tcpst f => (List.range 5).map (fun r => (specTcpst (r + 1), f))
  | .tcppf f => (List.range 5).map (fun r => (specTcppf (r + 1), f))
  | .cbinit f => [(specCbinit, f)]
  | .cbacq f => [(specCbacq, f)]
  | .cbrel f => [(specCbrel, f)]
  | .cbres f => [(specCbres, f)]
  | .cbcom f => [(specCbcom, f)]
  | .aczero f => [(specAczero, f)]
  | .mmx f => [(specMmx, f)]
  | .mmxl f => [(specMmxl, f)]
  | .acld f => [(specAcld, f)]
  | .acst f => [(specAcst, f)]
  | .acrd f => [(specAcrd, f)]
  | .acwr f => [(specAcwr, f)]
  | .acep f => [(specAcep, f)]
  | .mxstat f => [(specMxstat, f)]
  | .rtbind f => [(specRtbind, f)]
  | .rtrace f => [(specRtrace, f)]
  | .rtres f => [(specRtres, f)]
  | .rtcand f => [(specRtcand, f)]
  | .rtacc f => [(specRtacc, f)]
  | .rtbox f => [(specRtbox, f)]
  | .rttri f => [(specRttri, f)]
  | .lhtinv f => [(specLhtinv, f)]
  | .lhtstat f => [(specLhtstat, f)]
  | .mbrecv f => [(specMbrecv, f)]
  | .mbsend f => [(specMbsend, f)]
  | .spawn f => [(specSpawn, f)]
  | .rgn f => [(specRgn, f)]
  | .ralloc f => [(specRalloc, f)]
  | .rsub f => [(specRsub, f)]
  | .rbatch f => [(specRbatch, f)]
  | .rfetch f => [(specRfetch, f)]
  | .rfree f => [(specRfree, f)]
  | .lvcoord f => [(specLvcoord, f)]
  | .hx f => [(specHx, f)]
  | .arx f => [(specArx, f)]
  | .agx f => [(specAgx, f)]
  | .rsx f => [(specRsx, f)]
  | .plstat f => [(specPlstat, f)]
  | .plack f => [(specPlack, f)]
  | .tret f => [(specTret, f)]
  | .tfix f => [(specTfix, f)]
  | .csrr f => [(specCsrr, f)]
  | .csrw f => [(specCsrw, f)]
  | .pgmode f => [(specPgmode, f)]
  | .pgrep f => [(specPgrep, f)]
  | .pgcol f => [(specPgcol, f)]
  | .tlbinv f => [(specTlbinv, f)]
  | .preempt f => [(specPreempt, f)]
  | .resume f => [(specResume, f)]
  | .blkkill f => [(specBlkkill, f)]
  | .vlog f => [(specVlog, f)]
  | .unassignedOpcode _ _ => []
  | .extensionOpcode _ _ => []
  | .clauseStart _ _ => []
  | .warpChoice _ _ => []
  | .starveForce _ _ => []
  | .reconvergenceHoldLimit _ _ => []
  | .suspendedSplitWake _ _ => []
  | .loadComplete _ _ => []
  | .storePerformed _ _ => []
  | .sfuStart _ => []
  | .sfuComplete _ => []
  | .bncComplete _ => []
  | .tdsetComplete _ => []
  | .loadStreamFetch _ _ _ => []
  | .copyOnWrite _ => []
  | .versionFull _ _ => []
  | .vpubService _ => []
  | .checkpointManifestWrite _ => []
  | .copyComplete _ => []
  | .multicastDelivery _ _ => []
  | .matrixOpStart _ => []
  | .matrixOpComplete _ _ => []
  | .rayQueryDone _ _ => []
  | .monitorRecheck _ _ => []
  | .mwaitLimit _ _ => []
  | .napExpiry _ _ => []
  | .growGrant _ => []
  | .blockComplete _ => []
  | .nodeMatch _ => []
  | .blockDispatch _ => []
  | .nodeRetire _ _ => []
  | .mbsendDelivery _ => []
  | .mbrecvReceive _ => []
  | .collectiveComplete _ _ => []
  | .watchdog _ => []
  | .forwardedTraffic _ => []
  | .versionHomeService _ => []
  | .recordPoolArrival _ => []
  | .exOperationComplete _ => []
  | .pageRequestPost => []
  | .prqdone _ _ => []
  | .pageRequestGroupResponse _ _ _ _ => []
  | .checkpointPeriodElapsed _ => []
  | .growFail => []
  | .graphReservation => []
  | .priorityPreempt => []
  | .batchTimeout => []
  | .rallocGrant => []
  | .replayCheck _ _ _ => []
  | .doorbell _ _ => []
  | .hostPacketEntry => []
  | .hostCxlMemAccess _ _ _ _ => []
  | .bisnp _ _ _ _ => []
  | .poolLossEvent _ _ => []
  | .poolResponseTimeout _ => []
  | .regionConfigure => []
  | .regionReactivate => []
  | .regionDeconfigure => []
  | .peerAccessArrival _ _ _ _ _ _ _ _ _ _ => []
  | .peerAccessTimeout _ _ => []
  | .ualinkLinkLost _ => []
  | .haloBoxDelivery _ _ _ _ _ => []
  | .haloTimeout _ _ _ => []
  | .collectiveTimeout _ => []
  | .harnessFlitLost _ _ => []
  | .suspectLineTimeout _ => []
  | .vlogWindowReset _ => []
  | .vesperEntryCapture _ _ _ => []
  | .pkgidWrite _ => []
  | .halotmoWrite _ => []
  | .routeTableWrite _ _ => []
  | .rsgo => []
  | .regionRestoreDone => []
  | .registerWrite _ _ => []
  | .readLog => []
  | .readSavedLog => []
  | .attest => []
  | .setPowerCap => []
  | .reset => []
  | .status => []
  | .coldReset _ _ _ => []
  | .warmReset _ => []
  | .powerPoll _ _ => []
  | .hbmRecalibration _ _ => []
  | .cxlCacheSnoop _ _ _ => []
  | .linkUp _ => []

/-- Every field of the word passes its check (R51 to R54, R60). -/
def Instr.fieldsOk (i : Instr) : Bool :=
  (specsOf i).any (fun e => (e.1.check (Machine.Env.permissive e.2)).isNone)

/-- A well-formed instruction: coded by its own word, with fields that pass the checks. -/
def Instr.wf (i : Instr) : Bool := i.coded && i.fieldsOk

end Sys2Proof
end

