-- ==== Sys2Proof/Certificates/Slice0/Obligations.lean ====
section
/-!
DEFINITION. The statements about the machine. Every statement that rests on a rule of the specification names it in OBLIGATIONS.json.
-/
open Sys2Proof Sys2Proof.Machine

namespace Sys2Proof.Claims

/-! ### Integer words -/

/-- The integer that an operand word stands for under a type (R74). -/
def intOf (ty : BitVec 4) (x : Word) : Int :=
  if ty.toNat < 4 then (x.setWidth (tyWidth ty)).toInt else ((x.setWidth (tyWidth ty)).toNat : Int)

/-- A result of the type's width in a 64-bit word: sign-extended for an i type, zero-extended for an n type (R74). -/
def extBits (ty : BitVec 4) (v : BitVec (tyWidth ty)) : Word := if ty.toNat < 4 then v.signExtend 64 else v.setWidth 64

/-- The exact integer of `lo(TY)` and `hi(TY)` (R74). -/
def loOf (ty : BitVec 4) : Int := if ty.toNat < 4 then -2 ^ (tyWidth ty - 1) else 0
def hiOf (ty : BitVec 4) : Int := if ty.toNat < 4 then 2 ^ (tyWidth ty - 1) - 1 else 2 ^ tyWidth ty - 1

/-- The lane result of an exact integer: clamped once with fsr[5] under .sat, otherwise wrapped (R76). -/
def intRes (sat : Bool) (ty : BitVec 4) (e : Int) : LaneRes :=
  if sat = true ∧ hiOf ty < e then { val := TWord.valid (extBits ty (BitVec.ofInt _ (hiOf ty))), fl := 0x20, trap := none }
  else if sat = true ∧ e < loOf ty then { val := TWord.valid (extBits ty (BitVec.ofInt _ (loOf ty))), fl := 0x20, trap := none }
  else { val := TWord.valid (extBits ty (BitVec.ofInt _ e)), fl := 0, trap := none }

/-- A V result without flags. -/
def wordRes (v : Word) : LaneRes := { val := TWord.valid v, fl := 0, trap := none }

/-- R35 for a word that reads the operands xs: the first N operand nullifies, keeping the data of D; otherwise the first X operand passes
its payload; otherwise the result stands. -/
def byTags (old : TWord) (xs : List TWord) (r : LaneRes) : LaneRes :=
  if xs.any (fun x => decide (x.tag = .n)) then { val := ⟨.n, old.data⟩, fl := 0, trap := none }
  else match xs.find? (fun x => decide (x.tag = .x)) with
    | some x => { val := ⟨.x, x.data⟩, fl := 0, trap := none }
    | none => r

/-- The typed integer instructions of R80 but mulhi: encoding row, operands read, exact result. -/
def integerRows (f : Fields) : List (Instr × OpSpec × Nat × (Int → Int → Int → Int)) :=
  [(.add f, specAdd, 2, fun a b _ => a + b),
   (.sub f, specSub, 2, fun a b _ => a - b),
   (.mul f, specMul, 2, fun a b _ => a * b),
   (.mad f, specMad, 3, fun a b c => a * b + c),
   (.min f, specMin, 2, fun a b _ => if a ≤ b then a else b),
   (.max f, specMax, 2, fun a b _ => if a ≤ b then b else a),
   (.abs f, specAbs, 1, fun a _ _ => if a < 0 then -a else a),
   (.neg f, specNeg, 1, fun a _ _ => -a)]

/-- The instructions on whole words: encoding row, operands read, result (R83, R87, R90 and the others named there). -/
def wholeRows (f : Fields) : List (Instr × OpSpec × Nat × (Word → Word → Word → Word)) :=
  [(.mov f, specMov, 1, fun a _ _ => a),
   (.movk f, specMovk, 1, fun a _ _ =>
      let k := 16 * (f.ty.toNat % 4)
      (a &&& ~~~(0xFFFF#64 <<< k)) ||| (f.md.setWidth 64 <<< k)),
   (.and f, specAnd, 2, fun a b _ => a &&& b),
   (.or f, specOr, 2, fun a b _ => a ||| b),
   (.xor f, specXor, 2, fun a b _ => a ^^^ b),
   (.not f, specNot, 1, fun a _ _ => ~~~a),
   (.andn f, specAndn, 2, fun a b _ => a &&& ~~~b),
   (.lea f, specLea, 2, fun a b _ =>
      a + BitVec.ofInt 64 (intOf f.ty b) * BitVec.ofNat 64 (2 ^ (if isImm f.b || isImm f.c then 0 else f.md.toNat % 8))),
   (.bfi f, specBfi, 3, fun a b c =>
      let pos := b.toNat % 64
      let n := min (min (b.toNat / 256 % 128) 64) (64 - pos)
      let m : Word := BitVec.ofNat 64 (2 ^ n - 1) <<< pos
      (c &&& ~~~m) ||| ((a <<< pos) &&& m)),
   (.prm f, specPrm, 3, fun a b c =>
      BitVec.ofNat 64 ((List.range 8).map (fun k =>
        let j := c.toNat / 16 ^ k % 16
        (if j < 8 then a.toNat / 256 ^ j % 256 else b.toNat / 256 ^ (j - 8) % 256) * 256 ^ k)).sum)]

/-- The shifts and bit operations: encoding row, operands read, result (R84 to R86). -/
def shiftRows (f : Fields) : List (Instr × OpSpec × Nat × (Word → Word → Word)) :=
  [(.shl f, specShl, 2, fun a b => extBits f.ty (if tyWidth f.ty ≤ b.toNat then 0 else a.setWidth _ <<< b.toNat)),
   (.shr f, specShr, 2, fun a b => extBits f.ty (if tyWidth f.ty ≤ b.toNat then 0 else a.setWidth _ >>> b.toNat)),
   (.sar f, specSar, 2, fun a b => extBits f.ty ((a.setWidth _).sshiftRight (min b.toNat (tyWidth f.ty)))),
   (.rot f, specRot, 2, fun a b => extBits f.ty ((a.setWidth _).rotateLeft b.toNat)),
   (.bfx f, specBfx, 2, fun a b =>
      let pos := b.toNat % 64
      let n := min (min (b.toNat / 256 % 128) 64) (64 - pos)
      let x : BitVec n := a.extractLsb' pos n
      if f.ty.toNat < 4 then x.signExtend 64 else x.setWidth 64),
   (.popc f, specPopc, 1, fun a _ => BitVec.ofNat 64 ((List.range (tyWidth f.ty)).countP (fun i => a.getLsbD i))),
   (.clz f, specClz, 1, fun a _ =>
      BitVec.ofNat 64 ((List.range (tyWidth f.ty)).takeWhile (fun i => !a.getLsbD (tyWidth f.ty - 1 - i))).length),
   (.ctz f, specCtz, 1, fun a _ =>
      BitVec.ofNat 64 ((List.range (tyWidth f.ty)).takeWhile (fun i => !a.getLsbD i)).length),
   (.brev f, specBrev, 1, fun a _ =>
      extBits f.ty (BitVec.ofNat _ ((List.range (tyWidth f.ty)).map (fun i => if a.getLsbD i then 2 ^ (tyWidth f.ty - 1 - i) else 0)).sum)),
   (.bswap f, specBswap, 1, fun a _ =>
      extBits f.ty (BitVec.ofNat _ ((List.range (tyWidth f.ty / 8)).map
        (fun i => a.toNat / 256 ^ i % 256 * 256 ^ (tyWidth f.ty / 8 - 1 - i))).sum))]

/-- The type of the accumulator of pdot: 32 or 64 bits with the signedness of TY (R88). -/
def pdotTy (f : Fields) : BitVec 4 :=
  BitVec.ofNat 4 ((if f.ty.toNat < 4 then 0 else 4) + (if !(isImm f.b || isImm f.c) && f.md.getLsbD 1 then 3 else 2))

/-- mulhi, div, rem and pdot: encoding row, operands read, result at an issue whose word lies at pc (R80, R81, R88). -/
def productRows (f : Fields) : List (Instr × OpSpec × Nat × (BitVec 56 → Word → Word → Word → LaneRes)) :=
  [(.mulhi f, specMulhi, 2, fun _ a b _ =>
      wordRes (extBits f.ty (BitVec.ofInt _ (Int.fdiv (intOf f.ty a * intOf f.ty b) (2 ^ tyWidth f.ty))))),
   (.div f, specDiv, 2, fun pc a b _ =>
      if intOf f.ty b = 0 then { val := ⟨.x, 0x28#8 ++ pc⟩, fl := 0, trap := none }
      else wordRes (extBits f.ty (BitVec.ofInt _ (Int.tdiv (intOf f.ty a) (intOf f.ty b))))),
   (.rem f, specRem, 2, fun pc a b _ =>
      if intOf f.ty b = 0 then { val := ⟨.x, 0x28#8 ++ pc⟩, fl := 0, trap := none }
      else wordRes (extBits f.ty (BitVec.ofInt _ (Int.tmod (intOf f.ty a) (intOf f.ty b))))),
   (.pdot f, specPdot, 3, fun _ a b c =>
      intRes (!(isImm f.b || isImm f.c) && f.md.getLsbD 0) (pdotTy f) (intOf (pdotTy f) c +
        ((List.range (64 / tyWidth f.ty)).map (fun i => intOf f.ty (a >>> (tyWidth f.ty * i)) * intOf f.ty (b >>> (tyWidth f.ty * i)))).sum))]

/-! ### Conditions and tags -/

/-- A lane result that is a word with its tag. -/
def tagRes (v : TWord) : LaneRes := { val := v, fl := 0, trap := none }

/-- The integer comparison of R79. -/
def cmpHolds (cc : Nat) (a b : Int) : Bool :=
  (cc = 0 && decide (a = b)) || (cc = 1 && decide (a ≠ b)) || (cc = 2 && decide (a < b)) || (cc = 3 && decide (a ≤ b)) ||
    (cc = 4 && decide (a > b)) || (cc = 5 && decide (a ≥ b))

/-- A condition: 1 with tag V, or 0 with tag N (R98). -/
def condWord (h : Bool) : TWord := if h then ⟨.v, 1⟩ else ⟨.n, 0⟩

/-- The first X word of a list, or the word given. -/
def poisonOr (xs : List TWord) (v : TWord) : TWord :=
  match xs.find? (fun x => decide (x.tag = .x)) with
  | some x => ⟨.x, x.data⟩
  | none => v

/-- The condition and tag instructions on integers and tags, with the word of each lane from the words of A, B and C and the old word of D
(R95 to R98). -/
def tagRows (f : Fields) : List (Instr × OpSpec × (TWord → TWord → TWord → TWord → TWord)) :=
  [(.cnd f, specCnd, fun a b _ _ =>
      if a.tag = .n ∨ b.tag = .n then ⟨.n, 0⟩
      else poisonOr [a, b] (condWord (cmpHolds f.c.toNat (intOf f.ty a.data) (intOf f.ty b.data)))),
   (.cmp f, specCmp, fun a b _ old =>
      if a.tag = .n ∨ b.tag = .n then ⟨.n, old.data⟩
      else poisonOr [a, b] ⟨.v, if cmpHolds f.c.toNat (intOf f.ty a.data) (intOf f.ty b.data) then 1 else 0⟩),
   (.gate f, specGate, fun a b _ _ => if b.tag = .v then a else if b.tag = .n then ⟨.n, a.data⟩ else b),
   (.mrg f, specMrg, fun a b _ _ =>
      if a.tag = .v then a else if a.tag = .n then b else if !(isImm f.b || isImm f.c) && f.md.getLsbD 0 then b else a),
   (.sel f, specSel, fun a b c _ => if c.tag = .v then a else if c.tag = .n then b else c),
   (.tget f, specTget, fun a _ _ _ => ⟨.v, if a.tag = .v then 0 else if a.tag = .n then 1 else 2⟩),
   (.tset f, specTset, fun a _ _ _ =>
      ⟨(if f.md.toNat % 4 = 0 then .v else if f.md.toNat % 4 = 1 then .n else .x), a.data⟩),
   (.tchk f, specTchk, fun a _ _ _ => a),
   (.cand f, specCand, fun a b _ _ => if a.tag = .n ∨ b.tag = .n then condWord false else poisonOr [a, b] (condWord true)),
   (.cor f, specCor, fun a b _ _ => if a.tag = .v ∨ b.tag = .v then condWord true else poisonOr [a, b] (condWord false)),
   (.cnot f, specCnot, fun a _ _ _ => poisonOr [a] (condWord (decide (a.tag = .n))))]

/-! ### Fixed-latency words whose lane results the model's functions give -/

/-- A lane function of operand words as a function of lanes. -/
def ofWords (g : Ctx → State → TWord → TWord → TWord → TWord → LaneRes) (c : Ctx) (s : State) (l : Nat) : LaneRes :=
  g c s (opA s c l) (opB s c l) (opC s c l) (rdReg s c.w c.f.d.toNat l)

/-- Floating-point instructions and conversions of fixed latency (R102 to R121), comparisons of floating values (R95). -/
def floatRows (f : Fields) : List (Instr × OpSpec × (Ctx → State → Nat → LaneRes)) :=
  [(.fcnd f, specFcnd, ofWords (cmpFRes true)),
   (.fcmp f, specFcmp, ofWords (cmpFRes false)),
   (.fadd f, specFadd, ofWords (fOp 2 (fun k m z a b _ => roundSum k m z [a, b]))),
   (.fsub f, specFsub, ofWords (fOp 2 (fun k m z a b _ => roundSum k m z [a, negVal b]))),
   (.fmul f, specFmul, ofWords (fOp 2 fmulVal)),
   (.fma f, specFma, ofWords (fOp 3 (fmaVal false false))),
   (.fms f, specFms, ofWords (fOp 3 (fmaVal false true))),
   (.fnma f, specFnma, ofWords (fOp 3 (fmaVal true false))),
   (.fnms f, specFnms, ofWords (fOp 3 (fmaVal true true))),
   (.fmin f, specFmin, ofWords (minmaxRes false false)),
   (.fmax f, specFmax, ofWords (minmaxRes true false)),
   (.fminx f, specFminx, ofWords (minmaxRes false true)),
   (.fmaxx f, specFmaxx, ofWords (minmaxRes true true)),
   (.fabs f, specFabs, ofWords (signRes 1 (fun _ _ _ => false))),
   (.fneg f, specFneg, ofWords (signRes 1 (fun _ x _ => !x))),
   (.fcps f, specFcps, ofWords (signRes 2 fcpsSign)),
   (.fclass f, specFclass, ofWords classRes),
   (.frnd f, specFrnd, ofWords (fOp 1 (frndVal f))),
   (.fscale f, specFscale, ofWords fscaleRes),
   (.fexp f, specFexp, ofWords fexpRes),
   (.fman f, specFman, ofWords (fOp 1 fmanVal)),
   (.hdot f, specHdot, ofWords hdotRes),
   (.cvt f, specCvt, ofWords cvtRes),
   (.cvtp f, specCvtp, ofWords cvtpRes)]

/-- Cross-lane instructions of fixed latency but the reductions (R132 to R139). -/
def crossRows (f : Fields) : List (Instr × OpSpec × (Ctx → State → Nat → LaneRes)) :=
  [(.bnsetGet f, specBnsetGet, bnGetRes),
   (.bnperm f, specBnperm, bnpermRes),
   (.shfl f, specShfl, shflRes false),
   (.shfx f, specShfx, shflRes true),
   (.vote f, specVote, voteRes),
   (.bcast f, specBcast, bcastRes),
   (.matchv f, specMatchv, matchRes),
   (.elect f, specElect, electRes),
   (.lrank f, specLrank, lrankRes)]

/-- The remaining fixed-latency instructions that compute lane by lane. -/
def plainRows (f : Fields) : List (Instr × OpSpec × (Ctx → State → Nat → LaneRes)) :=
  [(.mov f, specMov, ofWords (wordOp (fun _ a _ _ => a) 1)),
   (.movk f, specMovk, ofWords (wordOp movkWord 1)),
   (.add f, specAdd, ofWords (intOp (fun a b _ => a + b) 2)),
   (.sub f, specSub, ofWords (intOp (fun a b _ => a - b) 2)),
   (.mul f, specMul, ofWords (intOp (fun a b _ => a * b) 2)),
   (.mulhi f, specMulhi, ofWords mulhiRes),
   (.mad f, specMad, ofWords (intOp (fun a b d => a * b + d) 3)),
   (.min f, specMin, ofWords (intOp (fun a b _ => min a b) 2)),
   (.max f, specMax, ofWords (intOp (fun a b _ => max a b) 2)),
   (.abs f, specAbs, ofWords (intOp (fun a _ _ => (a.natAbs : Int)) 1)),
   (.neg f, specNeg, ofWords (intOp (fun a _ _ => -a) 1)),
   (.and f, specAnd, ofWords (wordOp (fun _ a b _ => a &&& b) 2)),
   (.or f, specOr, ofWords (wordOp (fun _ a b _ => a ||| b) 2)),
   (.xor f, specXor, ofWords (wordOp (fun _ a b _ => a ^^^ b) 2)),
   (.not f, specNot, ofWords (wordOp (fun _ a _ _ => ~~~a) 1)),
   (.andn f, specAndn, ofWords (wordOp (fun _ a b _ => a &&& ~~~b) 2)),
   (.shl f, specShl, ofWords (patOp (fun w a b => shlBits w a b.toNat) 2)),
   (.shr f, specShr, ofWords (patOp (fun w a b => shrBits w a b.toNat) 2)),
   (.sar f, specSar, ofWords (patOp (fun w a b => sarInt w a b.toNat) 2)),
   (.rot f, specRot, ofWords (patOp (fun w a b => rotBits w a b.toNat) 2)),
   (.bfx f, specBfx, ofWords (wordOp bfxWord 2)),
   (.bfi f, specBfi, ofWords (wordOp bfiWord 3)),
   (.popc f, specPopc, ofWords (countOp popcNat)),
   (.clz f, specClz, ofWords (countOp clzNat)),
   (.ctz f, specCtz, ofWords (countOp ctzNat)),
   (.brev f, specBrev, ofWords (patOp (fun w a _ => brevNat w a) 1)),
   (.bswap f, specBswap, ofWords (patOp (fun w a _ => bswapNat w a) 1)),
   (.lea f, specLea, ofWords (wordOp leaWord 2)),
   (.pdot f, specPdot, ofWords pdotRes),
   (.prm f, specPrm, ofWords (wordOp prmWord 3)),
   (.cnd f, specCnd, ofWords (cmpIRes true)),
   (.cmp f, specCmp, ofWords (cmpIRes false)),
   (.gate f, specGate, ofWords gateRes),
   (.mrg f, specMrg, ofWords mrgRes),
   (.sel f, specSel, ofWords selRes),
   (.tget f, specTget, ofWords tgetRes),
   (.tset f, specTset, ofWords tsetRes),
   (.tchk f, specTchk, ofWords tchkRes),
   (.cand f, specCand, ofWords candRes),
   (.cor f, specCor, ofWords corRes),
   (.cnot f, specCnot, ofWords cnotRes)]

end Sys2Proof.Claims

open Sys2Proof.Claims

/-- R80, R76, R74, R35: the typed integer instructions write, in every active lane, the exact result clamped once under .sat or wrapped,
and nothing else changes but fsr[5] of the clamped lanes and the issue's own progress. -/
def Obligations.IntegerArithmetic : Prop :=
  ∀ f i spec n h s cu, (i, spec, n, h) ∈ integerRows f → issues spec f s cu = true → isQ f.d = false →
    ∃ t, exec i s = .next t ∧ LaneDone (spec.reads f) f s cu (perLane f s cu fun l =>
      let a := inA spec f s cu l
      let b := inB spec f s cu l
      let c := inC spec f s cu l
      byTags (oldOf f s cu l) ([a, b, c].take n)
        (intRes (!(isImm f.b || isImm f.c) && f.md.getLsbD 0) f.ty (h (intOf f.ty a.data) (intOf f.ty b.data) (intOf f.ty c.data)))) t

/-- R83, R86, R87, R89, R90: the instructions on whole words. -/
def Sys2Proof.Claims.WholeWordInstructions : Prop :=
  ∀ f i spec n h s cu, (i, spec, n, h) ∈ wholeRows f → issues spec f s cu = true → isQ f.d = false →
    ∃ t, exec i s = .next t ∧ LaneDone (spec.reads f) f s cu (perLane f s cu fun l =>
      let a := inA spec f s cu l
      let b := inB spec f s cu l
      let c := inC spec f s cu l
      byTags (oldOf f s cu l) ([a, b, c].take n) (wordRes (h a.data b.data c.data))) t

/-- R84, R85, R86: shifts, bit fields and bit counts. -/
def Sys2Proof.Claims.ShiftsAndBitCounts : Prop :=
  ∀ f i spec n h s cu, (i, spec, n, h) ∈ shiftRows f → issues spec f s cu = true → isQ f.d = false →
    ∃ t, exec i s = .next t ∧ LaneDone (spec.reads f) f s cu (perLane f s cu fun l =>
      let a := inA spec f s cu l
      let b := inB spec f s cu l
      byTags (oldOf f s cu l) ([a, b].take n) (wordRes (h a.data b.data))) t

/-- R83 to R87, R89, R90: the instructions on whole words, shifts, bit fields and bit counts. -/
def Obligations.WordAndBitInstructions : Prop := Claims.WholeWordInstructions ∧ Claims.ShiftsAndBitCounts

/-- R80, R81, R82, R88: high products, quotients and remainders, packed dot products. A divider that is busy holds div and rem (R82). -/
def Obligations.ProductsAndQuotients : Prop :=
  ∀ f i spec n h s cu, (i, spec, n, h) ∈ productRows f → issues spec f s cu = true → isQ f.d = false →
    (getQuarter s (quarterOf s cu.w)).divBusy ≤ issueTime s cu.w cu.k →
    ∃ t, exec i s = .next t ∧ LaneDone (spec.reads f) f s cu (perLane f s cu fun l =>
      let a := inA spec f s cu l
      let b := inB spec f s cu l
      let c := inC spec f s cu l
      byTags (oldOf f s cu l) ([a, b, c].take n) (h (getSplit s cu.w cu.k).pc a.data b.data c.data)) t

/-- R95 to R98: conditions, comparisons of integers, selection by tag, tags. tchk answers in the lanes whose A is not X. -/
def Obligations.ConditionsAndTags : Prop :=
  ∀ f i spec h s cu, (i, spec, h) ∈ tagRows f → issues spec f s cu = true → isQ f.d = false →
    (i = .tchk f → ∀ l ∈ activeLanes s cu, (inA spec f s cu l).tag ≠ .x) →
    ∃ t, exec i s = .next t ∧ LaneDone (spec.reads f) f s cu (perLane f s cu fun l =>
      tagRes (h (inA spec f s cu l) (inB spec f s cu l) (inC spec f s cu l) (oldOf f s cu l))) t

/-- R95, R99 to R121, R129 to R139: floating-point and cross-lane instructions of fixed latency, in a word none of whose lanes traps. -/
def Sys2Proof.Claims.LaneFunctions : Prop :=
  ∀ f i spec g s cu, (i, spec, g) ∈ floatRows f ++ crossRows f → issues spec f s cu = true → isQ f.d = false →
    (∀ e ∈ perLane f s cu (g (ctxOf spec f s cu) (atIssue s cu)), laneTraps (getWarp s cu.w).fcr e.2 = false) →
    ∃ t, exec i s = .next t ∧ LaneDone (spec.reads f) f s cu (perLane f s cu (g (ctxOf spec f s cu) (atIssue s cu))) t

namespace Sys2Proof.Claims

/-! ### Floating-point values by their bits -/

/-- Width and fraction bits of a floating-point type (R99). -/
def floatWidth (ty : BitVec 4) : Nat := if ty = 8 then 64 else if ty = 9 then 32 else if ty.toNat < 12 then 16 else if ty.toNat < 14 then 8 else 4
def fracBits (ty : BitVec 4) : Nat := if ty = 8 then 52 else if ty = 9 then 23 else if ty = 10 then 10 else 7

/-- The magnitude bits [w-2:0] and the sign bit [w-1] of a value (R99). -/
def magBits (ty : BitVec 4) (x : Word) : Nat := x.toNat % 2 ^ (floatWidth ty - 1)
def signOf (ty : BitVec 4) (x : Word) : Bool := x.getLsbD (floatWidth ty - 1)

/-- The magnitude bits of an infinity: the exponent all ones, the fraction 0 (R100). -/
def infMag (ty : BitVec 4) : Nat := 2 ^ (floatWidth ty - 1) - 2 ^ fracBits ty

/-- A word of magnitude bits and a sign, zero above the width (R101). -/
def floatWord (ty : BitVec 4) (neg : Bool) (mag : Nat) : Word := BitVec.ofNat 64 (mag + if neg then 2 ^ (floatWidth ty - 1) else 0)

/-- NaNs of f64, f32, f16 and bf16 and the signalling ones: the quiet bit is the top fraction bit (R99, R100). -/
def isNaN (ty : BitVec 4) (x : Word) : Bool := decide (infMag ty < magBits ty x)
def isSNaN (ty : BitVec 4) (x : Word) : Bool := isNaN ty x && !x.getLsbD (fracBits ty - 1)

/-- A NaN with its quiet bit set (R104). -/
def quieted (ty : BitVec 4) (x : Word) : Word := floatWord ty (signOf ty x) (magBits ty x) ||| BitVec.ofNat 64 (2 ^ (fracBits ty - 1))

/-- An operand's magnitude bits as it is read: a subnormal of f32 or f64 as zero under fcr[8] (R105). -/
def readMag (ftz : Bool) (ty : BitVec 4) (x : Word) : Nat :=
  if ftz && decide (ty.toNat < 10) && decide (magBits ty x < 2 ^ fracBits ty) then 0 else magBits ty x

/-- The order of non-NaN values by their bits: sign and magnitude, both zeros being 0 (R95). -/
def orderOf (ftz : Bool) (ty : BitVec 4) (x : Word) : Int := if signOf ty x then -(readMag ftz ty x : Int) else readMag ftz ty x

/-- As `orderOf`, with -0 below +0 (R114). -/
def strictOrder (ftz : Bool) (ty : BitVec 4) (x : Word) : Int := if signOf ty x then -(readMag ftz ty x : Int) - 1 else readMag ftz ty x

/-- fabs, fneg and fcps: encoding row, operands read, the new sign from A's and B's (R115). -/
def signRows (f : Fields) : List (Instr × OpSpec × Nat × (Bool → Bool → Bool)) :=
  [(.fabs f, specFabs, 1, fun _ _ => false),
   (.fneg f, specFneg, 1, fun a _ => !a),
   (.fcps f, specFcps, 2, fun a b =>
      if isImm f.b || isImm f.c || f.md.toNat % 4 = 0 then b else if f.md.toNat % 4 = 1 then !b else a ^^ b)]

/-- The float comparison of R79: less, equal, greater, unordered. -/
def floatCmpHolds (cc : Nat) (nan : Bool) (a b : Int) : Bool :=
  if nan then decide (cc = 1 ∨ cc = 6)
  else decide ((cc = 0 ∧ a = b) ∨ (cc = 1 ∧ a ≠ b) ∨ (cc = 2 ∧ a < b) ∨ (cc = 3 ∧ a ≤ b) ∨ (cc = 4 ∧ b < a) ∨ (cc = 5 ∧ b ≤ a) ∨ cc = 7)

/-- The lane result of fcnd or fcmp on two words (R79, R95). -/
def floatCmp (ftz cnd : Bool) (f : Fields) (old a b : TWord) : LaneRes :=
  let nan := isNaN f.ty a.data || isNaN f.ty b.data
  let holds := floatCmpHolds f.c.toNat nan (orderOf ftz f.ty a.data) (orderOf ftz f.ty b.data)
  let bad := isSNaN f.ty a.data || isSNaN f.ty b.data || (nan && decide (2 ≤ f.c.toNat ∧ f.c.toNat ≤ 5))
  if a.tag = .n ∨ b.tag = .n then tagRes ⟨.n, if cnd then 0 else old.data⟩
  else if a.tag = .x ∨ b.tag = .x then tagRes (poisonOr [a, b] a)
  else { val := if holds then ⟨.v, 1⟩ else ⟨if cnd then .n else .v, 0⟩, fl := if bad then 1 else 0, trap := none }

/-- The result of a selection of two V words: the operand chosen as it is read, or a NaN (R114). -/
def selected (ftz isMax strict : Bool) (ty : BitVec 4) (a b : Word) : LaneRes :=
  let asRead x := floatWord ty (signOf ty x) (readMag ftz ty x)
  let v :=
    if isNaN ty a then (if strict || isNaN ty b then quieted ty a else asRead b)
    else if isNaN ty b then (if strict then quieted ty b else asRead a)
    else if strictOrder ftz ty a ≤ strictOrder ftz ty b then asRead (if isMax then b else a) else asRead (if isMax then a else b)
  { val := ⟨.v, v⟩, fl := if isSNaN ty a || isSNaN ty b then 1 else 0, trap := none }

/-- The four selections: encoding row, whether the larger is taken, and whether a NaN operand decides (R114). -/
def selectRows (f : Fields) : List (Instr × OpSpec × Bool × Bool) :=
  [(.fmin f, specFmin, false, false), (.fmax f, specFmax, true, false), (.fminx f, specFminx, false, true), (.fmaxx f, specFmaxx, true, true)]

/-! ### Cross-lane values -/

/-- The source lane of R136. -/
def sourceLane (c : BitVec 8) (l b : Nat) : Nat :=
  let w := 2 ^ (5 - c.toNat / 4)
  let base := l / w * w
  if c.toNat % 4 = 0 then base + b % w
  else if c.toNat % 4 = 1 then (if b ≤ l - base then l - b else l)
  else if c.toNat % 4 = 2 then (if l + b < base + w then l + b else l)
  else l ^^^ (b % w)

/-- The cross-lane instructions that read the tags or the words of A over the lanes: encoding row and the word of lane l from the words of A, of
the lane's B and of its D (R136 to R139). No operand is a stream. -/
def exchangeRows (f : Fields) (s : State) (cu : Cur) : List (Instr × OpSpec × ((Nat → TWord) → (Nat → TWord) → Nat → TWord → LaneRes)) :=
  let active := activeLanes s cu
  let valids (a : Nat → TWord) := active.filter (fun l => decide ((a l).tag = .v))
  let lowX (a : Nat → TWord) := (active.map a).find? (fun x => decide (x.tag = .x))
  let mask (ls : List Nat) : Word := BitVec.ofNat 64 (ls.map (fun l => 2 ^ l)).sum
  [(.shfl f, specShfl, fun a b l old => byTags old [b l] (let x := a (sourceLane f.c l (b l).data.toNat); byTags old [x] (tagRes x))),
   (.shfx f, specShfx, fun a b l old => byTags old [b l] (let k := sourceLane f.c l (b l).data.toNat
      if activeIn s cu k then byTags old [a k] (tagRes (a k)) else tagRes ⟨.n, old.data⟩)),
   (.bcast f, specBcast, fun a b l old => byTags old [b l] (tagRes (a ((b l).data.toNat % 32)))),
   (.vote f, specVote, fun a _ _ _ => tagRes (match lowX a with
      | some x => ⟨.x, x.data⟩
      | none =>
        let mode := if isImm f.b || isImm f.c then 0 else f.md.toNat % 4
        let every := active.all (fun l => decide ((a l).tag = .v))
        if mode = 0 then ⟨.v, mask (valids a)⟩
        else if mode = 1 then condWord (decide (valids a ≠ []))
        else if mode = 2 then condWord every
        else condWord (every && active.all (fun l => active.all (fun m => decide ((a l).data = (a m).data)))))),
   (.matchv f, specMatchv, fun a _ l old => byTags old [a l] (wordRes (mask ((valids a).filter (fun m =>
      decide ((a m).data.toNat % 2 ^ tyWidth f.ty = (a l).data.toNat % 2 ^ tyWidth f.ty)))))),
   (.elect f, specElect, fun a _ l old =>
      if isS f.d then (match valids a with
        | m :: _ => wordRes (BitVec.ofNat 64 m)
        | [] => tagRes (match lowX a with | some x => ⟨.x, x.data⟩ | none => ⟨.n, old.data⟩))
      else tagRes (if (a l).tag = .x then a l else condWord (decide ((valids a).head? = some l)))),
   (.lrank f, specLrank, fun a _ l old => byTags old [a l] (wordRes (BitVec.ofNat 64 ((valids a).countP (fun m => decide (m < l))))))]

end Sys2Proof.Claims

/-- R115, R99, R101: fabs, fneg and fcps copy the bits of A below its sign, whatever the value, and raise nothing. -/
def Sys2Proof.Claims.SignOperations : Prop :=
  ∀ f i spec n h s cu, (i, spec, n, h) ∈ signRows f → issues spec f s cu = true → isQ f.d = false →
    ∃ t, exec i s = .next t ∧ LaneDone (spec.reads f) f s cu (perLane f s cu fun l =>
      let a := inA spec f s cu l
      let b := inB spec f s cu l
      byTags (oldOf f s cu l) ([a, b].take n)
        (wordRes (floatWord f.ty (h (signOf f.ty a.data) (signOf f.ty b.data)) (magBits f.ty a.data)))) t

/-- R79, R95, R104, R105, R114: comparisons and selections by the bits of the operands, with invalid (fcr[3]) not trapping. -/
def Sys2Proof.Claims.ComparisonsAndSelections : Prop :=
  ∀ f s cu, isQ f.d = false → (getWarp s cu.w).fcr.getLsbD 3 = false →
    let ftz := (getWarp s cu.w).fcr.getLsbD 8
    (∀ i spec cnd, (i, spec, cnd) ∈ [(Instr.fcnd f, specFcnd, true), (.fcmp f, specFcmp, false)] → issues spec f s cu = true →
      ∃ t, exec i s = .next t ∧ LaneDone (spec.reads f) f s cu (perLane f s cu fun l =>
        floatCmp ftz cnd f (oldOf f s cu l) (inA spec f s cu l) (inB spec f s cu l)) t) ∧
    (∀ i spec isMax strict, (i, spec, isMax, strict) ∈ selectRows f → issues spec f s cu = true →
      ∃ t, exec i s = .next t ∧ LaneDone (spec.reads f) f s cu (perLane f s cu fun l =>
        byTags (oldOf f s cu l) [inA spec f s cu l, inB spec f s cu l]
          (selected ftz isMax strict f.ty (inA spec f s cu l).data (inB spec f s cu l).data)) t)

/-- R136 to R139: shuffles, broadcast, votes, matches, elections and ranks, from the words of A over the lanes; A is no stream. -/
def Sys2Proof.Claims.CrossLaneValues : Prop :=
  ∀ f i spec h s cu, (i, spec, h) ∈ exchangeRows f s cu → issues spec f s cu = true → isQ f.d = false → isQ f.a = false →
    ∃ t, exec i s = .next t ∧ LaneDone (spec.reads f) f s cu (perLane f s cu fun l =>
      h (inA spec f s cu) (inB spec f s cu) l (oldOf f s cu l)) t

/-- R79, R95, R99 to R121, R129 to R139: floating-point and cross-lane instructions of fixed latency: each lane's own result stands in D, with
its flags, and nothing else changes; of sign operations, comparisons, selections and the cross-lane instructions the result is given by the
bits of the operands. -/
def Obligations.FloatingAndCrossLane : Prop :=
  Claims.LaneFunctions ∧ Claims.SignOperations ∧ Claims.ComparisonsAndSelections ∧ Claims.CrossLaneValues

namespace Sys2Proof.Claims

/-- What a word leaves alone that changes at most its warp's split, the queues it reads and the parts named: everything but the issue's own
record of time and replay. -/
def issueFrame (s t : State) : State :=
  { s with cur := none, free := s.free + 1, warps := t.warps, cores := t.cores, quarters := t.quarters, pend := t.pend, bnPend := t.bnPend,
           replays := t.replays }

/-- The reduction instructions: encoding row and the number of leading lanes that lane l folds (R140, R142). -/
def treeRows (f : Fields) : List (Instr × OpSpec × (Nat → Nat)) :=
  [(.red f, specRed, fun _ => 32), (.scan f, specScan, fun l => if f.md.getLsbD 7 then l else l + 1)]

/-- The context and the state in which a reduction's nodes are evaluated. -/
def treeState (spec : OpSpec) (f : Fields) (s : State) (cu : Cur) : State := treeTake (ctxOf spec f s cu) (atIssue s cu)

/-- The flags that a reduction sets in every lane: those of every node evaluated (R141). -/
def treeFlags (spec : OpSpec) (f : Fields) (s : State) (cu : Cur) (n : Nat → Nat) : BitVec 6 :=
  (if isS f.d then (activeLanes s cu).take 1 else activeLanes s cu).foldl
    (fun x l => x ||| (redPref (ctxOf spec f s cu) (treeState spec f s cu) (n l)).fl) 0#6

/-- The result of a reduction in a lane. -/
def treeResult (spec : OpSpec) (f : Fields) (s : State) (cu : Cur) (n : Nat → Nat) (l : Nat) : LaneRes :=
  let r := redFinish (ctxOf spec f s cu) (treeState spec f s cu) l (redPref (ctxOf spec f s cu) (treeState spec f s cu) (n l))
  { r with fl := r.fl ||| treeFlags spec f s cu n }

end Sys2Proof.Claims

/-- R140 to R143: reductions and scans with a register in D, the quarter's tree being free by the issue. -/
def Obligations.ReductionsAndScans : Prop :=
  ∀ f i spec n s cu, (i, spec, n) ∈ treeRows f → issues spec f s cu = true → isQ f.d = false →
    (getQuarter s (quarterOf s cu.w)).treeBusy ≤ issueTime s cu.w cu.k →
    (∀ e ∈ perLane f s cu (treeResult spec f s cu n), laneTraps (getWarp s cu.w).fcr e.2 = false) →
    ∃ t, exec i s = .next t ∧ LaneDone (spec.reads f) f s cu (perLane f s cu (treeResult spec f s cu n)) t

/-- R201: a fixed-latency word whose D is a store stream pushes each lane's element: a V element that passes the checks of a store becomes
a store of its own, and every active lane's stream moves on. Of a provisional block these are the pushes to memory-mapped registers; R448 holds
the others as provisional stores. -/
def Obligations.PushesToStoreStream : Prop :=
  ∀ f i spec g s cu, (i, spec, g) ∈ plainRows f ++ floatRows f ++ crossRows f → issues spec f s cu = true → isQ f.d = true →
    let c := ctxOf spec f s cu
    let u := popAll (atIssue s cu) cu.w (getSplit s cu.w cu.k).mask (spec.reads f)
    let q := f.d.toNat - 0xE0
    let pushed l := pushCheck u cu.w (agentC c u) q l (g c (atIssue s cu) l).val
    (provisional s (blkOf cu.w) = false ∨ ∀ l ∈ activeLanes s cu, ∀ leaf acc, pushed l = .store leaf acc → regBase ≤ acc.key) →
    (∀ l ∈ activeLanes s cu, laneTraps (getWarp s cu.w).fcr (g c (atIssue s cu) l) = false ∧ streamCount s cu.w l q < 8 ∧
      ((∃ leaf acc, pushed l = .store leaf acc) ∨ pushed l = .skip)) →
    ∃ t, exec i s = .next t ∧
      (∀ l ∈ activeLanes s cu, getQueue t cu.w l q = pushedQueue (getQueue u cu.w l q) ∧
        ∀ leaf acc, pushed l = .store leaf acc → ∃ o ∈ t.ops, o.w = cu.w ∧ o.lanes = BitVec.twoPow 32 l ∧ o.cls = some .st ∧
          o.kind = .store [acc] none none (some q)) ∧
      KeepsRegs 0xFF s cu t ∧ Goes f s cu t

/-- R97, R107: a word in which some lane traps writes the lanes that do not, leaves D as it was in those that do, and then takes the trap
of the trapping lanes. -/
def Obligations.TrappingLanesKeepDestination : Prop :=
  ∀ f i spec g s cu, (i, spec, g) ∈ plainRows f ++ floatRows f ++ crossRows f → issues spec f s cu = true → isQ f.d = false →
    let c := ctxOf spec f s cu
    let rs := perLane f s cu (g c (atIssue s cu))
    ∀ r, lanesTrap (getWarp s cu.w).fcr rs = some r →
      ∃ u, exec i s = .next (keepReplay spec c (atIssue s cu) (raise c r u)) ∧
        (∀ e ∈ rs, isV f.d = true → rdReg u cu.w f.d.toNat e.1 =
          if laneTraps (getWarp s cu.w).fcr e.2 then rdReg s cu.w f.d.toNat e.1 else e.2.val) ∧
        KeepsRegs f.d.toNat s cu u

/-- R55, R78, R203: nop and prf advance the pc and change no register, flag or byte. -/
def Sys2Proof.Claims.NopAndPrefetch : Prop :=
  ∀ f s cu,
    (issues specNop f s cu = true → ∃ t, exec (.nop f) s = .next t ∧ Goes f s cu t ∧ t = issueFrame s t) ∧
    (issues specPrf f s cu = true → ∃ t, exec (.prf f) s = .next t ∧ Goes f s cu t ∧ PopsQueues (rdAB f) s cu t ∧
      t = { issueFrame s t with queues := t.queues })

/-- R91 to R93: srd writes the special register's value of each lane; flags still to be set by a special-function instruction of the split
hold a read of fsr. -/
def Sys2Proof.Claims.SpecialRegisterRead : Prop :=
  ∀ f s cu, issues specSrd f s cu = true → isQ f.d = false →
    (f.md.toNat = 0x0A → flagsPending s cu.w (getSplit s cu.w cu.k).mask = false) →
    ∃ t, exec (.srd f) s = .next t ∧
      LaneDone [] f s cu (perLane f s cu fun l => wordRes (srValue (atIssue s cu) (ctxOf specSrd f s cu) f.md.toNat l)) t

/-- R92, R93, R426: swr to fcr and tvec writes the defined bits of a V source, leaves the register under another tag, and holds the warp's
splits for three cycles; swr to fsr writes the flags of the lanes whose source is V. -/
def Sys2Proof.Claims.SpecialRegisterWrite : Prop :=
  ∀ f s cu, issues specSwr f s cu = true →
    (f.md.toNat = 0x0A → flagsPending s cu.w (getSplit s cu.w cu.k).mask = false) →
    let a := inA specSwr f s cu (lowLane (getSplit s cu.w cu.k).mask)
    ∃ t, exec (.swr f) s = .next t ∧ t = { issueFrame s t with fsr := t.fsr } ∧
      (∀ w, w ≠ cu.w → getWarp t w = getWarp s w) ∧
      (getSplit t cu.w cu.k).pc = (getSplit s cu.w cu.k).pc + 8 ∧
      (getWarp t cu.w).fcr = (if f.md.toNat = 0x09 ∧ a.tag = .v then a.data &&& 0x3FF else (getWarp s cu.w).fcr) ∧
      (getWarp t cu.w).tvec = (if f.md.toNat = 0x0B ∧ a.tag = .v then a.data &&& 0xFFFFFFFFFFFFFF else (getWarp s cu.w).tvec) ∧
      (getWarp t cu.w).held = (if f.md.toNat ≠ 0x0A ∧ a.tag = .v then max (getWarp s cu.w).held (issueTime s cu.w cu.k + 3)
        else (getWarp s cu.w).held) ∧
      (∀ w l, l < 32 → sget 0#6 t.fsr (lkey w l) =
        if f.md.toNat = 0x0A ∧ w = cu.w ∧ activeIn s cu l = true ∧ (inA specSwr f s cu l).tag = .v
        then (inA specSwr f s cu l).data.truncate 6 else sget 0#6 s.fsr (lkey w l))

/-- R91 to R93, R426: srd and swr. -/
def Obligations.SpecialRegisters : Prop := Claims.SpecialRegisterRead ∧ Claims.SpecialRegisterWrite

/-- R132: bnset writes C[15:0], B and A of the lowest active lane to the control word; a word of tag N or X leaves it. -/
def Sys2Proof.Claims.ControlWordSet : Prop :=
  ∀ f s cu, issues specBnset f s cu = true →
    let l := lowLane (getSplit s cu.w cu.k).mask
    let a := inA specBnset f s cu l
    let b := inB specBnset f s cu l
    let c := inC specBnset f s cu l
    ∃ t, exec (.bnset f) s = .next t ∧ Goes f s cu t ∧ t = { issueFrame s t with bn := t.bn, ops := t.ops } ∧
      t.ops.map (fun o => (o.id, o.w, o.lanes, o.cls, o.dst)) = s.ops.map (fun o => (o.id, o.w, o.lanes, o.cls, o.dst)) ∧
      ∀ w n, n < 8 → getBn t w n =
        if w = cu.w ∧ n = f.md.toNat % 8 ∧ a.tag = .v ∧ b.tag = .v ∧ c.tag = .v
        then (c.data.truncate 16 : BitVec 16) ++ b.data ++ a.data else getBn s w n

namespace Sys2Proof.Claims

/-- The active lanes whose word of A has tag V. -/
def lanesV (spec : OpSpec) (f : Fields) (s : State) (cu : Cur) : Mask :=
  maskOf (fun l => activeIn s cu l && decide ((inA spec f s cu l).tag = .v))

/-- The address that a relative branch names: its own address plus 8 times the signed offset (R155). -/
def branchAddr (f : Fields) (s : State) (cu : Cur) : BitVec 56 := (getSplit s cu.w cu.k).pc + f.md.signExtend 56 * 8

/-- Branches that decide by the tags of A: encoding row, the lanes taken from the active lanes and those whose A is V, the loop counter
that a taken lane clears (R158, R160, R164). -/
def branchRows (f : Fields) : List (Instr × OpSpec × (Mask → Mask → Mask) × Option Nat) :=
  [(.bra f, specBra, (fun m v => if f.d.getLsbD 0 then m &&& ~~~v else v), none),
   (.bany f, specBany, (fun m v => if v = 0 then 0 else m), none),
   (.ball f, specBall, (fun m v => if v = m then m else 0), none),
   (.bnone f, specBnone, (fun m v => if v = 0 then m else 0), none),
   (.lexit f, specLexit, (fun m v => if f.d.getLsbD 2 then m &&& ~~~v else v), some (f.d.toNat % 4))]

/-- A split with its loop counter cleared, where one is named. -/
def clearedLc (sp : Split) : Option Nat → Split
  | none => sp
  | some i => setLc sp i 0

/-- What R145 asks of a branch that sends the lanes `taken` of the current split to `target`, whose bits 63:56 are `far`: with no lane taken,
or every lane, the split stays whole; otherwise the two groups become two splits, of which one keeps the entry and the other takes a free
one: before the clause ends the lanes that fall through keep it, at its end the group with the lowest lane does. The kept entry keeps its
age, the new one is the youngest (R144), and both have the loop counters of the split, those of the taken lanes with the one named cleared
(R164). Lanes that fall through where the clause ends and lanes sent to that very address are one group. -/
structure Branches (f : Fields) (s : State) (cu : Cur) (taken : Mask) (target : BitVec 56) (far : BitVec 8) (clear : Option Nat) (t : State) :
    Prop where
  others : ∀ w, w ≠ cu.w → getWarp t w = getWarp s w
  none_taken : taken = 0 → getSplit t cu.w cu.k = { stepSplit (getSplit s cu.w cu.k) with next := issueTime s cu.w cu.k + stallOf f } ∧
    ∀ k, k ≠ cu.k → getSplit t cu.w k = getSplit s cu.w k
  all_taken : taken = (getSplit s cu.w cu.k).mask → taken ≠ 0 →
    getSplit t cu.w cu.k = { clearedLc (getSplit s cu.w cu.k) clear with
      pc := target, far := far, rem := 0, wpos := 0, rhold := 0, starve := 0, hdr := none, susp := none, denied := [], stalled := none,
      latch := [], next := issueTime s cu.w cu.k + max 4 (stallOf f) } ∧ ∀ k, k ≠ cu.k → getSplit t cu.w k = getSplit s cu.w k
  some_taken : taken ≠ 0 → taken ≠ (getSplit s cu.w cu.k).mask →
    ¬((getSplit s cu.w cu.k).rem ≤ 1 ∧ target = (getSplit s cu.w cu.k).pc + 8 ∧ clear = none ∧ far = 0) →
    (∃ k < 32, (getSplit s cu.w k).mask = 0) →
    ∃ a b, (getSplit t cu.w a).mask = (getSplit s cu.w cu.k).mask &&& ~~~taken ∧ (getSplit t cu.w a).pc = (getSplit s cu.w cu.k).pc + 8 ∧
      (getSplit t cu.w b).mask = taken ∧ (getSplit t cu.w b).pc = target ∧ (getSplit t cu.w b).far = far ∧
      (a = cu.k ∧ (getSplit s cu.w b).mask = 0 ∨ b = cu.k ∧ (getSplit s cu.w a).mask = 0) ∧
      (swf noSplit (getWarp s cu.w).splits = true →
        (getSplit t cu.w (if a = cu.k then b else a)).age = (validSplits s cu.w).length) ∧
      (getSplit t cu.w cu.k).age = (getSplit s cu.w cu.k).age ∧
      (a = cu.k ↔ 1 < (getSplit s cu.w cu.k).rem ∨ lowLane ((getSplit s cu.w cu.k).mask &&& ~~~taken) < lowLane taken) ∧
      (∀ i, getLc (getSplit t cu.w a) i = getLc (getSplit s cu.w cu.k) i) ∧
      (∀ i, getLc (getSplit t cu.w b) i = getLc (clearedLc (getSplit s cu.w cu.k) clear) i) ∧
      (getSplit t cu.w a).sup = (getSplit s cu.w cu.k).sup ∧ (getSplit t cu.w b).sup = (getSplit s cu.w cu.k).sup ∧
      ∀ k, k ≠ a → k ≠ b → getSplit t cu.w k = getSplit s cu.w k

end Sys2Proof.Claims

/-- R145, R155, R157, R158, R160, R164: where no lane's word is X, the branches that decide by tags send the lanes they take to the
label and let the others go on. No register, flag or byte changes. -/
def Sys2Proof.Claims.BranchesByTag : Prop :=
  ∀ f i spec p clear s cu, (i, spec, p, clear) ∈ branchRows f → issues spec f s cu = true →
    (∀ l ∈ activeLanes s cu, (inA spec f s cu l).tag ≠ .x) →
    ∃ t, exec i s = .next t ∧ PopsQueues [f.a] s cu t ∧ t = { issueFrame s t with queues := t.queues } ∧
      Branches f s cu (p (getSplit s cu.w cu.k).mask (lanesV spec f s cu)) (branchAddr f s cu) 0 clear t

/-- R159: where no lane without an N operand has an X one, bdv sends the lanes whose operands are V and compare by the code in D to the label, and
the others go on. -/
def Sys2Proof.Claims.BranchesByComparison : Prop :=
  ∀ f s cu, issues specBdv f s cu = true →
    (∀ l ∈ activeLanes s cu, (inA specBdv f s cu l).tag = .n ∨ (inB specBdv f s cu l).tag = .n ∨
      ((inA specBdv f s cu l).tag = .v ∧ (inB specBdv f s cu l).tag = .v)) →
    ∃ t, exec (.bdv f) s = .next t ∧ PopsQueues [f.a, f.b] s cu t ∧ t = { issueFrame s t with queues := t.queues } ∧
      Branches f s cu (maskOf (fun l => activeIn s cu l && decide ((inA specBdv f s cu l).tag = .v) && decide ((inB specBdv f s cu l).tag = .v) &&
        cmpHolds f.d.toNat (intOf f.ty (inA specBdv f s cu l).data) (intOf f.ty (inB specBdv f s cu l).data))) (branchAddr f s cu) 0 none t

/-- R145, R155, R157 to R160, R164: the branches. -/
def Obligations.ConditionalBranches : Prop := Claims.BranchesByTag ∧ Claims.BranchesByComparison

/-- R157, R161, R162: jmp and call send lanes that name one aligned target there, lanes nullified by A go on; call leaves the address of
the clause position that follows its clause in D of the lanes that transfer, and the old data under N in the others. -/
def Obligations.JumpsAndCalls : Prop :=
  ∀ f s cu (a : Word), a.toNat % 8 = 0 →
    (issues specJmp f s cu = true →
      (∀ l ∈ activeLanes s cu, (inA specJmp f s cu l).tag = .n ∨ ((inA specJmp f s cu l).tag = .v ∧ (inA specJmp f s cu l).data = a)) →
      ∃ t, exec (.jmp f) s = .next t ∧ PopsQueues [f.a] s cu t ∧ t = { issueFrame s t with queues := t.queues } ∧
        Branches f s cu (lanesV specJmp f s cu) (a.truncate 56) (a.extractLsb' 56 8) none t) ∧
    (issues specCall f s cu = true → isQ f.d = false →
      (if isImm f.c then a = (branchAddr f s cu).setWidth 64
       else ∀ l ∈ activeLanes s cu, (inA specCall f s cu l).tag = .n ∨ ((inA specCall f s cu l).tag = .v ∧ (inA specCall f s cu l).data = a)) →
      ∃ t, exec (.call f) s = .next t ∧
        (∀ l ∈ activeLanes s cu, isV f.d = true → rdReg t cu.w f.d.toNat l =
          if isImm f.c = true ∨ (inA specCall f s cu l).tag = .v
          then ⟨.v, ((headerOf (getSplit s cu.w cu.k) + BitVec.ofNat 56 (8 * ((getSplit s cu.w cu.k).rem + (getSplit s cu.w cu.k).wpos + 1))).setWidth 64)⟩
          else ⟨.n, (oldOf f s cu l).data⟩) ∧
        KeepsRegs f.d.toNat s cu t ∧ t.fsr = s.fsr ∧ t.mem = s.mem ∧
        Branches f s cu (if isImm f.c then (getSplit s cu.w cu.k).mask else lanesV specCall f s cu) (a.truncate 56) (a.extractLsb' 56 8) none t)

/-- R163: loop.set writes a V count to the loop counter, a count of 0 leaves to the label, a count of tag N does nothing. -/
def Sys2Proof.Claims.LoopSetsCounter : Prop :=
  ∀ f s cu, issues specLoopSet f s cu = true →
    let a := inA specLoopSet f s cu (lowLane (getSplit s cu.w cu.k).mask)
    let n : BitVec 32 := a.data.truncate 32
    a.tag ≠ .x →
    ∃ t, exec (.loopSet f) s = .next t ∧ t = issueFrame s t ∧ (∀ w, w ≠ cu.w → getWarp t w = getWarp s w) ∧
      (∀ k, k ≠ cu.k → getSplit t cu.w k = getSplit s cu.w k) ∧
      (a.tag = .n → getSplit t cu.w cu.k = { stepSplit (getSplit s cu.w cu.k) with next := issueTime s cu.w cu.k + stallOf f }) ∧
      (a.tag = .v → n ≠ 0 → getSplit t cu.w cu.k =
        { stepSplit (setLc (getSplit s cu.w cu.k) (f.d.toNat % 4) n) with next := issueTime s cu.w cu.k + stallOf f }) ∧
      (a.tag = .v → n = 0 → (getSplit t cu.w cu.k).pc = branchAddr f s cu ∧ (getSplit t cu.w cu.k).mask = (getSplit s cu.w cu.k).mask ∧
        getLc (getSplit t cu.w cu.k) (f.d.toNat % 4) = 0)

/-- R163: loop with a backward label counts down and goes to the label while the count exceeds 1; at 1 it clears the counter and goes on. -/
def Sys2Proof.Claims.LoopCountsDown : Prop :=
  ∀ f s cu, issues specLoop f s cu = true →
    let n := getLc (getSplit s cu.w cu.k) (f.d.toNat % 4)
    f.md.toInt ≤ 0 → n ≠ 0 →
    ∃ t, exec (.loop f) s = .next t ∧ t = issueFrame s t ∧ (∀ w, w ≠ cu.w → getWarp t w = getWarp s w) ∧
      (∀ k, k ≠ cu.k → getSplit t cu.w k = getSplit s cu.w k) ∧
      (n = 1 → getSplit t cu.w cu.k =
        { stepSplit (setLc (getSplit s cu.w cu.k) (f.d.toNat % 4) 0) with next := issueTime s cu.w cu.k + stallOf f }) ∧
      (1 < n.toNat → (getSplit t cu.w cu.k).pc = branchAddr f s cu ∧ (getSplit t cu.w cu.k).mask = (getSplit s cu.w cu.k).mask ∧
        getLc (getSplit t cu.w cu.k) (f.d.toNat % 4) = n - 1 ∧ (getSplit t cu.w cu.k).rem = 0)

/-- R163: loop.set and loop. -/
def Obligations.Loops : Prop := Claims.LoopSetsCounter ∧ Claims.LoopCountsDown

/-- R165 to R167: wait goes on when the split's counters are at most the values given, 15 being no limit, and waits for them otherwise;
yield, and nap 0, leave the split until its warp's next choice, and let no further clause of the warp begin in the turn; nap sleeps until the
cycle of its issue plus the count. -/
def Sys2Proof.Claims.WaitYieldNap : Prop :=
  ∀ f s cu,
    let m := f.md.toNat
    let held (x : Wait) : Split :=
      { getSplit s cu.w cu.k with susp := some x, starve := 0, next := issueTime s cu.w cu.k + stallOf f,
                                  path := pathOf s cu.w (issueTime s cu.w cu.k) }
    (issues specWait f s cu = true → ∃ t, exec (.wait f) s = .next t ∧ t = issueFrame s t ∧
      if countersMet (atIssue s cu) cu.w (getSplit s cu.w cu.k).mask (m / 4096) (m / 256 % 16) (m / 16 % 16) (m % 16) then Goes f s cu t
      else getSplit t cu.w cu.k = held (.counters (m / 4096) (m / 256 % 16) (m / 16 % 16) (m % 16))) ∧
    (issues specYield f s cu = true → ∃ t, exec (.yield f) s = .next t ∧ t = issueFrame s t ∧ getSplit t cu.w cu.k = held .choice ∧
      (getQuarter t (quarterOf s cu.w)).closed = true) ∧
    (issues specNap f s cu = true → ∃ t, exec (.nap f) s = .next t ∧ t = issueFrame s t ∧
      getSplit t cu.w cu.k = held (if f.md = 0 then .choice else .nap (issueTime s cu.w cu.k + m)))

/-- R55, R78, R165 to R167, R203: nop, prf, wait, yield and nap. -/
def Obligations.NopAndWaits : Prop := Claims.NopAndPrefetch ∧ Claims.WaitYieldNap

namespace Sys2Proof.Claims

/-- A waiting request has been answered with a word (R170): D holds it in the lanes of the split, no other register changes, and the
split goes on with the next word from the third cycle. -/
structure Answered (r : GrowReq) (v : TWord) (s t : State) : Prop where
  value : ∀ l < 32, (getSplit s r.w r.k).mask.getLsbD l = true → r.d < 0xE0 → rdReg t r.w r.d l = v
  regs : ∀ w x l, l < 32 → ¬(w = r.w ∧ x = r.d ∧ (r.d < 0xC0 → (getSplit s r.w r.k).mask.getLsbD l = true)) → rdReg t w x l = rdReg s w x l
  split : getSplit t r.w r.k =
    { stepSplit (getSplit s r.w r.k) with next := max (getSplit s r.w r.k).next ((getCore s r.core).cyc + 3) }
  held : (getWarp t r.w).held = max (getWarp s r.w).held ((getCore s r.core).cyc + 3)
  queue : t.growQ = []
  frame : t = { s with vregs := t.vregs, sregs := t.sregs, ops := t.ops, growQ := t.growQ, warps := t.warps, blocks := t.blocks, pend := t.pend }

/-- The operation by which a request whose D is a store stream has its word pushed (R201). -/
def pushedAnswer (r : GrowReq) (v : TWord) (s : State) : Op :=
  let m := (getSplit s r.w r.k).mask
  { id := s.nextOp, w := r.w, lanes := m, cls := none, dst := [], push := some { q := r.d - 0xE0, k := r.k, word := r.word, skips := [] }, denied := [],
    kind := .result ((lanesOf m).map (fun l => (r.d, l, v))) }

end Sys2Proof.Claims

/-- R171, R172: with one request waiting, the grant of its core raises the allocation to the total asked and answers it where the added
units are free, and does nothing where they are not; when every block of the core waits and the request cannot be granted it fails with N.
An answer to a store stream becomes an operation that pushes it. -/
def Sys2Proof.Claims.GrowRequestsAnswered : Prop :=
  ∀ s r, s.growQ = [r] →
    let stream := 0xE0 ≤ r.d ∧ r.d < 0xE4
    let answered (v : TWord) (t : State) : Prop :=
      (¬stream → Answered r v s t) ∧ (stream → t.ops = s.ops ++ [pushedAnswer r v s] ∧ t.growQ = [] ∧ t.vregs = s.vregs ∧ t.sregs = s.sregs)
    (growFits s r = true → ∃ t, exec (.growGrant r.core) s = .next t ∧ answered (TWord.valid (BitVec.ofNat 64 r.total)) t ∧
      growCurrent t r.w r.kind = max r.total (growCurrent s r.w r.kind)) ∧
    (growFits s r = false → exec (.growGrant r.core) s = .next s) ∧
    (growStuck s r.core = true → ∃ t, exec .growFail s = .next t ∧ answered ⟨.n, 0⟩ t ∧ t.blocks = s.blocks) ∧
    (growStuck s r.core = false → exec .growFail s = .next s)

/-- R170: grow answers N for an illegal total and the current total where it already suffices; a result of latency 3 lands before the split's
next word (R24). Otherwise its request waits in the order of arrival (R171). -/
def Sys2Proof.Claims.GrowRequests : Prop :=
  ∀ f s cu, issues specGrow f s cu = true → isQ f.d = false →
    let l := lowLane (getSplit s cu.w cu.k).mask
    let a := inA specGrow f s cu l
    let b := inB specGrow f s cu l
    let total := a.data.toNat + b.data.toNat
    let now := growCurrent s cu.w f.ty.toNat
    a.tag = .v → b.tag = .v →
    ∃ t, exec (.grow f) s = .next t ∧ KeepsRegs f.d.toNat s cu t ∧ t.mem = s.mem ∧
      (growLegal f.ty.toNat total = false → Goes f s cu t ∧
        ∀ l ∈ activeLanes s cu, f.d.toNat < 0xE0 → rdReg t cu.w f.d.toNat l = ⟨.n, 0⟩) ∧
      (growLegal f.ty.toNat total = true → total ≤ now →
        getSplit t cu.w cu.k =
          { stepSplit (getSplit s cu.w cu.k) with next := max (issueTime s cu.w cu.k + stallOf f) (issueTime s cu.w cu.k + 3) } ∧
        ∀ l ∈ activeLanes s cu, f.d.toNat < 0xE0 → rdReg t cu.w f.d.toNat l = ⟨.v, BitVec.ofNat 64 now⟩) ∧
      (growLegal f.ty.toNat total = true → now < total → (getSplit t cu.w cu.k).susp = some (.grow f.ty.toNat total) ∧
        t.growQ = s.growQ ++ [{ core := coreOf s cu.w, w := cu.w, k := cu.k, kind := f.ty.toNat, total := total, d := f.d.toNat,
                                word := (ctxOf specGrow f s cu).word }])

/-- R170 to R172: grow, its grants and its failures. -/
def Obligations.ResourceGrowth : Prop := Claims.GrowRequests ∧ Claims.GrowRequestsAnswered

namespace Sys2Proof.Claims

/-- R425, R429, R432: what taking a trap at the current word does to its split when it enters a handler at `vec`: the handler's mode and
address, the resume point, and the cause, address, lanes and values in the trap registers of that handler. Registers, flags and memory stay. -/
structure Enters (sup : Bool) (vec : Word) (r : TrapReq) (s : State) (cu : Cur) (t : State) : Prop where
  pc : vpc (getSplit t cu.w cu.k) = vec
  mode : (getSplit t cu.w cu.k).sup = sup
  mask : (getSplit t cu.w cu.k).mask = (getSplit s cu.w cu.k).mask
  resume : ∃ h, (getSplit t cu.w cu.k).hs = h :: (getSplit s cu.w cu.k).hs ∧ h.sup = sup ∧ h.fromSup = (getSplit s cu.w cu.k).sup ∧
    h.pc = (getSplit s cu.w cu.k).pc ∧ h.far = (getSplit s cu.w cu.k).far ∧ h.rem = (getSplit s cu.w cu.k).rem ∧
    h.wpos = (getSplit s cu.w cu.k).wpos ∧ h.retry = r.retry
  cause : (if sup then (getWarp t cu.w).scause else (getWarp t cu.w).tcause).toNat % 2 ^ 16 = r.sub % 256 * 256 + r.cause % 256
  address : (if sup then (getWarp t cu.w).spc else (getWarp t cu.w).tpc) = vpc (getSplit s cu.w cu.k)
  lanes : (if sup then (getWarp t cu.w).smask else (getWarp t cu.w).tmask) = r.lanes.setWidth 64
  values : ∀ l, l < 32 → sget 0#64 (if sup then t.sval else t.tval) (lkey cu.w l) = if r.lanes.getLsbD l then r.val l else 0
  regs : KeepsRegs 0xFF s cu t
  flags : t.fsr = s.fsr
  memory : t.mem = s.mem
  others : ∀ w, w ≠ cu.w → getWarp t w = getWarp s w
  rest : ∀ k, k ≠ cu.k → getSplit t cu.w k = getSplit s cu.w k

/-- The address of the supervisor handler and of the emulation handler of the split's die (R425), and of the warp's user handler (R92). -/
def supVec (s : State) (cu : Cur) : Word := (sget DieSt.init s.dies (dieOf s cu.w)).svec
def emuVec (s : State) (cu : Cur) : Word := (sget DieSt.init s.dies (dieOf s cu.w)).evec
def userVec (s : State) (cu : Cur) : Word := (getWarp s cu.w).tvec &&& ~~~7#64

/-- A trap of every active lane, with one value for each. -/
def trapOf (s : State) (cu : Cur) (cause sub : Nat) (v : Nat → Word) : TrapReq :=
  { cause := cause, sub := sub, lanes := (getSplit s cu.w cu.k).mask, retry := (getSplit s cu.w cu.k).mask,
    vals := (activeLanes s cu).map (fun l => (l, v l)) }

end Sys2Proof.Claims

/-- R169, R427, R429: ecall and brk of a split in user mode enter a handler, with the code as every active lane's value and the word itself as
the resume point: the user handler for brk, and for a code below 32768, where it is enabled and no split of the warp has one active; else the supervisor handler. -/
def Obligations.CallsToHandlers : Prop :=
  ∀ f s cu i spec cause, (i, spec, cause) ∈ [(Instr.ecall f, specEcall, causeEcall), (Instr.brk f, specBrk, causeBreak)] →
    issues spec f s cu = true → (getSplit s cu.w cu.k).sup = false →
    let toUser := (getWarp s cu.w).tvec.getLsbD 0 && (decide (cause = causeBreak) || decide (f.md.toNat < 2 ^ 15)) && !warpUser s cu.w
    ∃ t, exec i s = .next t ∧
      Enters (!toUser) (if toUser then userVec s cu else supVec s cu) (trapOf s cu cause 0 (fun _ => f.md.setWidth 64)) s cu t

/-- R45, R60, R64, R66, R425, R429: in user mode an unassigned opcode enters the supervisor handler and an extension opcode the emulation
handler, in every clause. A word of class M, E or S in a clause of another class, a word that the split may not run, and one with a malformed
field enter the supervisor handler, in this order; in supervisor mode an unassigned opcode contains the block instead (R433). -/
def Obligations.WordsThatTrap : Prop :=
  (∀ op f s cu, s.cur = some cu → pathOf s cu.w (issueTime s cu.w cu.k) = 0 → (getSplit s cu.w cu.k).sup = false →
    (∃ t, exec (.unassignedOpcode op f) s = .next t ∧ Enters true (supVec s cu) (trapAll causeIllegalOpcode 0x01 (getSplit s cu.w cu.k).mask) s cu t) ∧
    (∃ t, exec (.extensionOpcode op f) s = .next t ∧ Enters true (emuVec s cu) (trapAll causeExtEmulate 0x02 (getSplit s cu.w cu.k).mask) s cu t)) ∧
  (∀ op f s cu, s.cur = some cu → pathOf s cu.w (issueTime s cu.w cu.k) = 0 → (getSplit s cu.w cu.k).sup = true → (getBlock s (blkOf cu.w)).csource = 0 →
    ∃ t, exec (.unassignedOpcode op f) s = .next t ∧ (getBlock t (blkOf cu.w)).killed = true ∧ (getBlock t (blkOf cu.w)).csource = 5 ∧
      (getBlock t (blkOf cu.w)).ccause = causeIllegalOpcode ∧ (getWarp t cu.w).splits = []) ∧
  (∀ f i spec s cu cause sub, (i, spec) ∈ [(Instr.ld f, specLd), (.st f, specSt), (.atom f, specAtom), (.rtrace f, specRtrace), (.mmx f, specMmx),
      (.spawn f, specSpawn), (.csrr f, specCsrr), (.csrw f, specCsrw), (.tret f, specTret), (.resume f, specResume)] →
    s.cur = some cu → (getSplit s cu.w cu.k).sup = false → acquireHolds s spec.cls (getSplit s cu.w cu.k) = false → (ctxOf spec f s cu).path = 0 →
    (getSplit s cu.w cu.k).stalled = none → (getSplit s cu.w cu.k).latch = [] → (i = .mmx f → mxQueueFull s (coreOf s cu.w) 1 = false) →
    let env := envOf (atIssue s cu) cu.w (getSplit s cu.w cu.k) (spec.reads f) f
    ((clsAllowed spec.cls (getSplit s cu.w cu.k).cls = false ∧ cause = causeIllegalOpcode ∧ sub = 0x02) ∨
     (clsAllowed spec.cls (getSplit s cu.w cu.k).cls = true ∧ cause = causePrivileged ∧ spec.priv env = some sub) ∨
     (clsAllowed spec.cls (getSplit s cu.w cu.k).cls = true ∧ spec.priv env = none ∧ cause = causeIllegalOperand ∧ spec.check env = some sub)) →
    ∃ t, exec i s = .next t ∧ Enters true (supVec s cu) (trapAll cause sub (getSplit s cu.w cu.k).mask) s cu t)

/-- R168: exit ends the lanes whose A is V and lets the others go on. With every lane gone the split's entry is free. -/
def Obligations.ExitEndsLanes : Prop :=
  ∀ f s cu, issues specExit f s cu = true → (∀ l ∈ activeLanes s cu, (inA specExit f s cu l).tag ≠ .x) →
    let rest := (getSplit s cu.w cu.k).mask &&& ~~~lanesV specExit f s cu
    ∃ t, exec (.exit f) s = .next t ∧ KeepsRegs 0xFF s cu t ∧ t.mem = s.mem ∧ t.fsr = s.fsr ∧ (getSplit t cu.w cu.k).mask = rest ∧
      (rest ≠ 0 → (getSplit t cu.w cu.k).pc = (getSplit s cu.w cu.k).pc + 8)

/-! ### The special-function unit, the Benes routing unit -/

namespace Sys2Proof.Claims

/-- A lane of cvtmx: expanded with its scale, or quantised with the scale of the V lanes (R122 to R124). -/
def cvtmxRes (c : Ctx) (s : State) (a b _ _ : TWord) : LaneRes :=
  if isExpand c.f then fRes (mxExpand (fmtOf (styOf c.f)) (fmtOf c.f.ty.toNat) (rmNow s c) (ftzOf s c) a.data.toNat (b.data.toNat % 256))
  else
    let src := fmtOf (styOf c.f)
    let vs := (computeLanes c).filterMap (fun l => if (opA s c l).tag = .v then some (unpackZ src (ftzOf s c) (opA s c l).data.toNat) else none)
    mxQuant (fmtOf c.f.ty.toNat) (rmNow s c) (mxScale (fmtOf c.f.ty.toNat) vs) (unpackZ src (ftzOf s c) a.data.toNat)

/-- Instructions of the special-function unit: encoding row, operands read, result of a lane of V operands. -/
def sfuRows (f : Fields) : List (Instr × OpSpec × Nat × (Ctx → State → TWord → TWord → TWord → TWord → LaneRes)) :=
  [(.fdiv f, specFdiv, 2, fOp 2 (fun k m z a b _ => divVal k m z a b)),
   (.fsqrt f, specFsqrt, 1, fOp 1 (fun k m z a _ _ => sqrtVal k m z a)),
   (.sfu f, specSfu, 1, sfuRes),
   (.cvtmx f, specCvtmx, if isExpand f then 2 else 1, cvtmxRes)]

/-- The lanes a word computes: every active lane, under a scalar destination the lowest (R75). -/
def lanesNow (f : Fields) (s : State) (cu : Cur) : List Nat := if isS f.d then (activeLanes s cu).take 1 else activeLanes s cu

/-- The operands read of a lane are all V. -/
def allV (spec : OpSpec) (f : Fields) (s : State) (cu : Cur) (n l : Nat) : Bool :=
  ([inA spec f s cu l, inB spec f s cu l].take n).all (fun x => decide (x.tag = .v))

end Sys2Proof.Claims

/-- R107, R108, R113, R122 to R128: with the traps of fcr disabled and room in the unit's queue, a special-function word settles its lanes
of N and X operands at once and starts an operation that holds the results of the others (R56). -/
def Sys2Proof.Claims.SpecialFunctionsQueue : Prop :=
  ∀ f i spec n g s cu, (i, spec, n, g) ∈ sfuRows f → issues spec f s cu = true → isQ f.d = false →
    fpEnables (getWarp s cu.w).fcr = 0 → (sfuQueue (atIssue s cu) (quarterOf s cu.w)).length < 4 →
    let c := ctxOf spec f s cu
    let live := (lanesNow f s cu).filter (allV spec f s cu n)
    let res l := g c (atIssue s cu) (inA spec f s cu l) (inB spec f s cu l) (inC spec f s cu l) (oldOf f s cu l)
    let all := if isS f.d then live.flatMap (fun l => (activeLanes s cu).map (fun k => (k, res l))) else live.map (fun l => (l, res l))
    ∃ t, exec i s = .next t ∧ Goes f s cu t ∧ t.mem = s.mem ∧ t.fsr = s.fsr ∧ PopsQueues (spec.reads f) s cu t ∧
      KeepsRegs f.d.toNat s cu t ∧
      (∀ l ∈ lanesNow f s cu, f.d.toNat < 0xE0 → rdReg t cu.w f.d.toNat l =
        if allV spec f s cu n l then oldOf f s cu l
        else (byTags (oldOf f s cu l) ([inA spec f s cu l, inB spec f s cu l].take n) (wordRes 0)).val) ∧
      (live = [] → t.ops.map Op.bare = s.ops.map Op.bare) ∧
      (live ≠ [] → Starts (some .ld) (maskOf (fun l => activeIn s cu l && (isS f.d || live.contains l))) (fun o =>
        o.dst = dstOf f.d.toNat live ∧ ∃ st occ lat, o.kind = .sfu (all.map (fun e => (f.d.toNat, e.1, e.2.val))) (all.map (fun e => (e.1, e.2.fl)))
          st (issueTime s cu.w cu.k) occ lat none c.word) s cu t)

/-- R128, R106: SFU_START takes the oldest waiting operation once the unit is free, for as long as it occupies the unit; SFU_COMPLETE, at
the end of its latency, sets the flags and writes the results, and the operation is over. -/
def Sys2Proof.Claims.SpecialFunctionsComplete : Prop :=
  ∀ s (o : Op), findOp s o.id = some o → o.push = none →
    (∀ ws fl b occ lat sync word, o.kind = .sfu ws fl false b occ lat sync word →
      (sfuQueue s (quarterOf s o.w)).head?.map Op.id = some o.id →
      (getQuarter s (quarterOf s o.w)).sfuBusy ≤ (getCore s (coreOf s o.w)).cyc →
      ∃ t, exec (.sfuStart o.id) s = .next t ∧ t = { s with ops := t.ops, quarters := t.quarters } ∧
        findOp t o.id = some { o with kind := .sfu ws fl true (getCore s (coreOf s o.w)).cyc occ lat sync word } ∧
        (getQuarter t (quarterOf s o.w)).sfuBusy = (getCore s (coreOf s o.w)).cyc + occ) ∧
    (∀ ws fl start occ lat word, o.kind = .sfu ws fl true start occ lat none word → start + lat ≤ (getCore s (coreOf s o.w)).cyc →
      ∃ t, exec (.sfuComplete o.id) s = .next t ∧ Completes o ws s t ∧ t.mem = s.mem ∧ t.warps = s.warps ∧
        ((fl.map (·.1)).Nodup → (∀ e ∈ fl, e.1 < 32) → ∀ e ∈ fl, sget 0#6 t.fsr (lkey o.w e.1) = sget 0#6 s.fsr (lkey o.w e.1) ||| e.2))

namespace Sys2Proof.Claims

/-- The default NaN (R101). -/
def defaultNaNWord (ty : BitVec 4) : Word := floatWord ty false (infMag ty + 2 ^ (fracBits ty - 1))

/-- A quotient that no rounding decides, with its flags: NaN operands (R104) and the table of R111; a zero over a nonzero is that zero. -/
def quotientCase (ftz : Bool) (ty : BitVec 4) (a b : Word) : Option (Word × BitVec 6) :=
  let m := readMag ftz ty a
  let n := readMag ftz ty b
  let neg := signOf ty a ^^ signOf ty b
  let iv : BitVec 6 := if isSNaN ty a || isSNaN ty b then 1 else 0
  if isNaN ty a then some (quieted ty a, iv)
  else if isNaN ty b then some (quieted ty b, iv)
  else if (m = 0 ∧ n = 0) ∨ (m = infMag ty ∧ n = infMag ty) then some (defaultNaNWord ty, 1)
  else if m = infMag ty then some (floatWord ty neg (infMag ty), 0)
  else if n = infMag ty ∨ m = 0 then some (floatWord ty neg 0, 0)
  else if n = 0 then some (floatWord ty neg (infMag ty), 2)
  else none

/-- A square root that no rounding decides, with its flags (R104, R111). -/
def rootCase (ftz : Bool) (ty : BitVec 4) (a : Word) : Option (Word × BitVec 6) :=
  let m := readMag ftz ty a
  if isNaN ty a then some (quieted ty a, if isSNaN ty a then 1 else 0)
  else if m = 0 then some (floatWord ty (signOf ty a) 0, 0)
  else if signOf ty a then some (defaultNaNWord ty, 1)
  else if m = infMag ty then some (floatWord ty false (infMag ty), 0)
  else none

end Sys2Proof.Claims

/-- R104, R111: the operation that fdiv or fsqrt starts holds, for a lane whose operands decide the result without rounding, that result. -/
def Sys2Proof.Claims.QuotientsAndRoots : Prop :=
  ∀ f i spec n h s cu,
    (i, spec, n, h) ∈ [(Instr.fdiv f, specFdiv, 2, fun z a b => quotientCase z f.ty a b), (.fsqrt f, specFsqrt, 1, fun z a _ => rootCase z f.ty a)] →
    issues spec f s cu = true → isV f.d = true → fpEnables (getWarp s cu.w).fcr = 0 →
    (sfuQueue (atIssue s cu) (quarterOf s cu.w)).length < 4 → (∃ l ∈ activeLanes s cu, allV spec f s cu n l = true) →
    ∃ t, exec i s = .next t ∧ Starts (some .ld) (maskOf (fun l => activeIn s cu l && allV spec f s cu n l)) (fun o =>
      ∃ ws fls st begin occ lat, o.kind = .sfu ws fls st begin occ lat none (packWord spec.op f) ∧
        ∀ l ∈ activeLanes s cu, allV spec f s cu n l = true → ∀ v fl,
          h ((getWarp s cu.w).fcr.getLsbD 8) (inA spec f s cu l).data (inB spec f s cu l).data = some (v, fl) →
          (f.d.toNat, l, ⟨.v, v⟩) ∈ ws ∧ (l, fl) ∈ fls) s cu t

/-- R104, R107, R108, R111, R113, R122 to R128: special-function words are queued, and the unit starts and completes them; the quotients and
roots that no rounding decides are given by the bits of the operands. -/
def Obligations.SpecialFunctions : Prop := Claims.SpecialFunctionsQueue ∧ Claims.SpecialFunctionsComplete ∧ Claims.QuotientsAndRoots

/-- R134, R135: bnc, with its unit free, starts an operation whose completion writes D, and bnN where no operand is X and the requests of the
V lanes name distinct lanes. At issue an X operand stands in D of its lane, every other lane being left to 0 with tag N; where there is none, a
lane of tag N keeps its data under N, and the V lanes are left to 1, or to 0 with tag N where their requests are refused. The operation counts on
LD although every lane is settled (log 27). -/
def Sys2Proof.Claims.BenesRoutingQueues : Prop :=
  ∀ f s cu, issues specBnc f s cu = true → isQ f.d = false → bncBusy s cu.w = false →
    let tag l := (inA specBnc f s cu l).tag
    let reqs := ((activeLanes s cu).filter (fun l => tag l = .v)).map (fun l => (l, (inA specBnc f s cu l).data.toNat))
    let anyX := (activeLanes s cu).any (fun l => decide (tag l = .x))
    let good := !anyX && reqs.all (fun r => decide (r.2 < 32)) && decide ((reqs.map (·.2)).Nodup)
    let live := (activeLanes s cu).filter (fun l => if anyX then tag l ≠ .x else tag l = .v)
    ∃ t, exec (.bnc f) s = .next t ∧ Goes f s cu t ∧ t.mem = s.mem ∧ t.fsr = s.fsr ∧ t.bn = s.bn ∧ PopsQueues [f.a] s cu t ∧
      KeepsRegs f.d.toNat s cu t ∧
      (∀ l ∈ activeLanes s cu, isV f.d = true → rdReg t cu.w f.d.toNat l =
        if live.contains l then oldOf f s cu l
        else if anyX then ⟨.x, (inA specBnc f s cu l).data⟩ else ⟨.n, (oldOf f s cu l).data⟩) ∧
      Starts (some .ld) (maskOf (fun l => activeIn s cu l && (live.contains l || live.isEmpty))) (fun o =>
        o.dst = dstOf f.d.toNat live ∧ o.kind = .bnc (f.md.toNat % 8) (if good then some (bncWord (bncComplete reqs)) else none)
          (live.map (fun l => (f.d.toNat, l, if good then ⟨.v, 1⟩ else ⟨.n, 0⟩)))) s cu t

/-- R135: BNC_COMPLETE writes bnN and D. -/
def Sys2Proof.Claims.BenesRoutingCompletes : Prop :=
  ∀ s (o : Op) n ctl ws, findOp s o.id = some o → o.push = none → o.kind = .bnc n ctl ws → n < 8 →
    ∃ t, exec (.bncComplete o.id) s = .next t ∧ Completes o ws s t ∧ t.mem = s.mem ∧ t.warps = s.warps ∧ t.fsr = s.fsr ∧
      ∀ w m, m < 8 → getBn t w m = if w = o.w ∧ m = n then ctl.getD (getBn s w m) else getBn s w m

/-- R132, R134, R135: bnset writes a control word; bnc is routed and writes one. -/
def Obligations.BenesRouting : Prop := Claims.ControlWordSet ∧ Claims.BenesRoutingQueues ∧ Claims.BenesRoutingCompletes

/-! ### Accesses to memory -/

namespace Sys2Proof.Claims

/-- Bytes of memory other than those of the page-table entries named keep their values. -/
def KeepsMem (s t : State) (own : Nat → Prop) : Prop := ∀ a, ¬own a → rdByte t a = rdByte s a

/-- R55: as `Goes`, with operations that the split's later words of class M and E wait for (R223). -/
structure GoesHeld (held : List Nat) (f : Fields) (s : State) (cu : Cur) (t : State) : Prop where
  others : ∀ w, w ≠ cu.w → getWarp t w = getWarp s w
  warp : getWarp t cu.w = { getWarp s cu.w with idle := 0, splits := (getWarp t cu.w).splits }
  split : getSplit t cu.w cu.k = { stepSplit (getSplit s cu.w cu.k) with
    next := issueTime s cu.w cu.k + stallOf f, hold := held ++ (getSplit s cu.w cu.k).hold }
  rest : ∀ k, k ≠ cu.k → getSplit t cu.w k = getSplit s cu.w k

/-- A row of the table of accesses: the instruction, its encoding row, the counter it counts on, the registers of D each lane writes (none
for a store), its lanes, how a lane is decided, the operation it starts from its lanes' accesses, whether it acquires, whether it goes
through a page. -/
structure AccRow where
  i : Instr
  spec : OpSpec
  cls : Counter
  regs : Nat
  lane : Ctx → State → Nat → LaneChk
  kind : Ctx → List Acc → OpKind
  acq : Bool
  page : Bool

/-- A load: its data words, its policy, the scope of its acquire (R195, R197, R198, R223, R328). -/
def loadRows (f : Fields) : List AccRow :=
  let n := vecN f
  let ld (i : Instr) (spec : OpSpec) (g : Ctx → State → Nat → LaneChk) (page : Bool) : AccRow :=
    { i := i, spec := spec, cls := .ld, regs := n, lane := fun c u l => loadLane u c [opA u c l, opB u c l] l (fun _ => g c u l),
      kind := fun _ xs => .load xs f.ty f.d.toNat n none, acq := false, page := page }
  [ld (.ld f) specLd (fun c u l => chkLane u (agentC c u) .load l (addrOf u c l) (tyBytes f.ty) n (polOf f) 0 0) true,
   ld (.ldl f) specLdl (fun c u l => tileLane u c false l (addrOf u c l) (tyBytes f.ty) n 0) false,
   ld (.ldc f) specLdc (fun c u l => tileLane u c true l (addrOf u c l) (tyBytes f.ty) n 0) false,
   { i := .ldv f, spec := specLdv, cls := .ld, regs := n, acq := false, page := true, kind := fun _ xs => .load xs f.ty f.d.toNat n none,
     lane := fun c u l => loadLane u c [opA u c l, opB u c l, opC u c l] l (fun _ =>
       ldvLane u (agentC c u) l (addrOf u c l) (tyBytes f.ty) n (opC u c l).data.toNat) },
   { i := .lda f, spec := specLda, cls := .ld, regs := 1, acq := true, page := true,
     kind := fun _ xs => .load xs f.ty f.d.toNat 1 (some (scopeOf f)),
     lane := fun c u l => loadLane u c [opA u c l, opB u c l] l (fun _ =>
       chkLane u (agentC c u) .load l (addrOf u c l) (tyBytes f.ty) 1 0 0 0) }]

/-- A store (R195 to R198, R224, R230). -/
def storeRows (f : Fields) : List AccRow :=
  let st (i : Instr) (spec : OpSpec) (n : Nat) (rel : Option Nat) (page : Bool) (g : Ctx → State → Nat → Nat → LaneChk) : AccRow :=
    { i := i, spec := spec, cls := .st, regs := 0, acq := false, page := page,
      kind := fun _ xs => .store (if page then markWhole xs else xs) rel none none,
      lane := fun c u l => storeLane ([opA u c l, opB u c l] ++ dataWords u c n l) (fun _ => g c u l (packData (tyBytes f.ty) (dataWords u c n l))) }
  [st (.st f) specSt (vecN f) none true (fun c u l v => chkLane u (agentC c u) .store l (addrOf u c l) (tyBytes f.ty) (vecN f) (polOf f) v 0),
   st (.str f) specStr 1 (some (scopeOf f)) true (fun c u l v => chkLane u (agentC c u) .str l (addrOf u c l) (tyBytes f.ty) 1 0 v 0),
   st (.stmc f) specStmc 1 none true (fun c u l v => chkLane u (agentC c u) .stmc l (addrOf u c l) (tyBytes f.ty) 1 0 v 0),
   st (.stl f) specStl (vecN f) none false (fun c u l v => tileLane u c false l (addrOf u c l) (tyBytes f.ty) (vecN f) v),
   st (.stc f) specStc (vecN f) none false (fun c u l v => tileLane u c true l (addrOf u c l) (tyBytes f.ty) (vecN f) v),
   { i := .chst f, spec := specChst, cls := .st, regs := 0, acq := false, page := true, kind := fun _ xs => .store xs none (some (chanNo f)) none,
     lane := fun c u l =>
       if getChan u c.w (chanNo f) = 0 then .trap 9 causeChannel 0x01 0
       else chstLane (getChan u c.w (chanNo f) - 1) (storeLane [opA u c l, opB u c l, opC u c l] (fun _ =>
         chkLane u (agentC c u) .store l (addrOf u c l) (tyBytes f.ty) 1 0 (packData (tyBytes f.ty) [opC u c l]) 0)) }]

/-- An atomic: with `zero` in D it returns nothing and counts on ST (R240 to R250). -/
def atomicRows (f : Fields) : List AccRow :=
  let at_ (i : Instr) (spec : OpSpec) (kind n : Nat) (page : Bool) (xs : Ctx → State → Nat → List TWord) (g : Ctx → State → Nat → LaneChk) : AccRow :=
    { i := i, spec := { spec with cnt := atomCnt f }, cls := if isZ f.d then .st else .ld, regs := if isZ f.d then 0 else n, page := page,
      acq := ordAcq f, kind := fun c as => .atomic as (atomArgs c kind), lane := fun c u l => atomLane u c (xs c u l) l (fun _ => g c u l) }
  let abc c u l := [opA u c l, opB u c l, opC u c l]
  let one k c u l := chkLane u (agentC c u) k l (addrOf u c l) (tyBytes f.ty) 1 0 (packData (tyBytes f.ty) [opC u c l]) 0
  [at_ (.atom f) specAtom 0 1 true abc (one .near),
   at_ (.fatom f) specFatom 3 1 true abc (one .far),
   at_ (.atoml f) specAtoml 5 1 false abc (fun c u l => tileLane u c false l (addrOf u c l) (tyBytes f.ty) 1 (packData (tyBytes f.ty) [opC u c l])),
   at_ (.cas f) specCas 1 1 true abc (fun c u l =>
     chkLane u (agentC c u) .near l (opA u c l).data (tyBytes f.ty) 1 0 (packData (tyBytes f.ty) [opC u c l]) (packData (tyBytes f.ty) [opB u c l])),
   at_ (.cas2 f) specCas2 2 (if f.md.getLsbD 6 then 1 else 2) true (fun c u l => opA u c l :: (pairWords u c f.b l ++ pairWords u c f.c l)) (fun c u l =>
     chkLane u (agentC c u) .near l (opA u c l).data 8 2 0 (packData 8 (pairWords u c f.c l)) (packData 8 (pairWords u c f.b l))),
   { i := .fred f, spec := specFred, cls := .st, regs := 0, page := true, acq := ordAcq f, kind := fun c as => .atomic as (atomArgs c 4),
     lane := fun c u l =>
       let x := opA u c (lowLane c.sp.mask)
       storeLane [x, opC u c l] (fun _ =>
         if x.data.toNat % (32 * tyBytes f.ty) ≠ 0 then .trap 2 causeAlign 0 x.data
         else chkLane u (agentC c u) .far l (x.data + BitVec.ofNat 64 (l * tyBytes f.ty)) (tyBytes f.ty) 1 0 (packData (tyBytes f.ty) [opC u c l]) 0) }]

end Sys2Proof.Claims

namespace Sys2Proof.Claims

/-- The checks have decided the lane, without a trap and without a wait (R182). -/
def laneDecided : LaneChk → Bool
  | .settled _ => true
  | .late _ => true
  | .ok _ _ => true
  | _ => false

/-- The lane's place in the operation: its access, or the X word it takes because a check failed (R185). -/
def laneAcc : LaneChk → Option Acc
  | .late x => some x
  | .ok _ x => some x
  | _ => none

/-- The leaf that translated the lane's access. -/
def laneLeaf : LaneChk → Option Leaf
  | .ok leaf _ => some leaf
  | _ => none

/-- The word that R35 gives the lane at issue. -/
def laneWord : LaneChk → Option TWord
  | .settled w => w
  | _ => none

/-- The payload with which a lane of a store or an atomic consumes poison (R182 step 1). -/
def lanePoison : LaneChk → Option Word
  | .trap _ cause sub v => if cause = causePoison ∧ sub = 0 then some v else none
  | _ => none

/-- The lanes whose operands an access instruction looks at: under a scalar destination the lowest active lane (R75). -/
def accessLanes (r : AccRow) (f : Fields) (s : State) (cu : Cur) : List Nat :=
  if isS f.d ∧ r.cls = .ld then (activeLanes s cu).take 1 else activeLanes s cu

/-- How the checks decide a lane of the word at its issue. -/
def howLane (r : AccRow) (f : Fields) (s : State) (cu : Cur) (l : Nat) : LaneChk := r.lane (ctxOf r.spec f s cu) (atIssue s cu) l

end Sys2Proof.Claims

/-- R35, R37, R39, R56, R182, R184, R185, R195 to R198, R223, R224, R230, R240 to R250, R328: an access instruction none of whose lanes traps or
waits settles at issue the lanes of N operands, and the load lanes of X operands, and starts one operation that holds the accesses of the
others, among them the load lanes whose translation gave X. With no such lane it starts none. It changes no byte of memory but those of the
entries that translated it, whose accessed and dirty bits it sets (R179). -/
def Sys2Proof.Claims.AccessesBegin : Prop :=
  ∀ f r s cu, r ∈ loadRows f ++ storeRows f ++ atomicRows f →
    issues r.spec f s cu = true → (isQ f.d = true → r.cls = .st) → provisional s (blkOf cu.w) = false →
    let c := ctxOf r.spec f s cu
    let lanes := accessLanes r f s cu
    let how := howLane r f s cu
    let live := lanes.filter (fun l => (laneAcc (how l)).isSome)
    (∀ l ∈ lanes, laneDecided (how l) = true ∧ ∀ x, laneAcc (how l) = some x → x.lane = l) →
    (r.acq = true → live = [] → s.swc = []) →
    ∃ t, exec r.i s = .next t ∧ t.fsr = s.fsr ∧ PopsQueues (r.spec.reads f) s cu t ∧
      GoesHeld (if r.acq && !live.isEmpty then [s.nextOp] else []) f s cu t ∧
      (∀ l ∈ lanes, ∀ w, laneWord (how l) = some w → ∀ j < r.regs, f.d.toNat + j < 0xE0 →
        rdReg t cu.w (f.d.toNat + j) l = if w.tag = .n then ⟨.n, (rdReg s cu.w (f.d.toNat + j) l).data⟩ else w) ∧
      (∀ w x l, l < 32 → ¬(w = cu.w ∧ (∃ j < r.regs, x = f.d.toNat + j) ∧ ∃ k ∈ lanes, (laneWord (how k)).isSome ∧ (x < 0xC0 → k = l)) →
        rdReg t w x l = rdReg s w x l) ∧
      (live = [] → t.ops.map Op.bare = s.ops.map Op.bare ∧ t.nextOp = s.nextOp) ∧
      (live ≠ [] → Starts (some r.cls) (if isS f.d ∧ r.cls = .ld then (getSplit s cu.w cu.k).mask else maskOf (fun l => live.contains l)) (fun o =>
        o.dst = (List.range r.regs).flatMap (fun j => dstOf (f.d.toNat + j) live) ∧
        o.kind = r.kind c (lanes.filterMap (fun l => laneAcc (how l)))) s cu t) ∧
      KeepsMem s t (fun a => r.page = true ∧ ∃ l ∈ lanes, ∃ leaf, laneLeaf (how l) = some leaf ∧ leaf.entry ≤ a ∧ a < leaf.entry + 8)

/-- R182 step 1, R184, R427: a store or an atomic that finds an X operand in some lane traps before any lane is performed, with POISON_CONSUMED, those
lanes and their payloads; where no warning handler takes it and no payload names a lost region or an uncorrectable error, in the supervisor. -/
def Sys2Proof.Claims.PoisonedAccesses : Prop :=
  ∀ f r s cu, r ∈ storeRows f ++ atomicRows f → issues r.spec f s cu = true → (getSplit s cu.w cu.k).sup = false →
    let how := howLane r f s cu
    let bad := (accessLanes r f s cu).filter (fun l => (lanePoison (how l)).isSome)
    let v l := (lanePoison (how l)).getD 0
    bad ≠ [] → (∀ l ∈ bad, payloadCause (v l) ≠ causePoolLost ∧ payloadCause (v l) ≠ causeMemUe) →
    ((getWarp s cu.w).tvec.getLsbD 0 && (getWarp s cu.w).tvec.getLsbD 1) = false →
    ∃ t, exec r.i s = .next t ∧ Enters true (supVec s cu)
      { cause := causePoison, sub := 0, lanes := maskOf (fun l => bad.contains l), retry := (getSplit s cu.w cu.k).mask,
        vals := bad.map (fun l => (l, v l)) } s cu t

/-- R35, R37, R39, R56, R182, R184, R185, R195 to R198, R223, R224, R230, R240 to R250, R328, R427: access instructions begin, and those that
write trap on an X operand. -/
def Obligations.AccessesStart : Prop := Claims.AccessesBegin ∧ Claims.PoisonedAccesses

namespace Sys2Proof.Claims

/-- The event that performs lanes of an access operation (R185, R195). -/
def performEvent (o : Op) (lanes : Mask) (s : State) : Host.Outcome State Fault Refusal :=
  if o.cls = some .ld then exec (.loadComplete o.id lanes) s else exec (.storePerformed o.id lanes) s

/-- No arrival waits for accesses (R224): performing one then does not make arrivals follow. -/
def noArrivals (s : State) : Prop := ∀ e ∈ s.ops, match e.kind with | .arrive .. => False | _ => True

/-- An access to memory, not to a register or a tile store that has gone, by its address. -/
def plainAcc (s : State) (x : Acc) : Prop :=
  regOff (accKey s x) = none ∧ tileGone s x = false ∧ x.given = none ∧ handleRetired s x = false

/-- The state in which word j of an access is performed, after the line of the die cache has been used or filled (R193). -/
def lineUsed (s : State) (o : Op) (x : Acc) (j : Nat) : State :=
  dcTouch s (opAgent s o).die x.cls x.pol (accKey s x + x.size * j)

end Sys2Proof.Claims

/-- R185, R187, R190, R193, R195, R206: LOAD_COMPLETE of a load of one lane reads one of the words it has not read yet: of a SW page the bytes
that the core's caches hold, else those below. The last one ends the load: D takes the words of its address, extended by its type. A data
fault ends it at once, with X and the fault's payload. Memory changes only where the line that a fill evicts is written back. -/
def Sys2Proof.Claims.LoadsComplete : Prop :=
  ∀ s (o : Op) x ty d n lanes, findOp s o.id = some o → o.kind = .load [x] ty d n none → o.cls = some .ld → o.push = none →
    selectAccs s o lanes = [x] → plainAcc s x → x.left ≠ [] → noArrivals s →
    ∃ t, exec (.loadComplete o.id lanes) s = .next t ∧ t.warps = s.warps ∧ t.fsr = s.fsr ∧ (s.swc = [] → s.prov = [] → t.mem = s.mem) ∧
      match dataFault s (blkOf o.w) (accKey s x) (x.size * x.n) with
      | some cause => t.mem = s.mem ∧ Completes o (groupWrites d x.lane (List.replicate x.n (⟨.x, payload cause x.va⟩ : TWord))) s t
      | none => ∃ j ∈ x.left,
        let a := opAgent s o
        let k := accKey s x + x.size * j
        let u := lineUsed s o x j
        let v := if x.sw then viewMem (evictStale u a k x.size) a true k x.size else viewMem u a false k x.size
        let y := { x with left := x.left.filter (fun i => i ≠ j), data := x.data + v * 2 ^ (8 * x.size * j) }
        t.mem = u.mem ∧
        if y.left = [] then Completes o (groupWrites d x.lane (splitWords ty x.size x.n y.data)) s t
        else findOp t o.id = some { o with kind := .load [y] ty d n none } ∧ t.vregs = s.vregs ∧ t.sregs = s.sregs

/-- R185, R195: LOAD_COMPLETE of several lanes of a one-word load whose bytes lie at home alone writes to D in each lane what memory holds
there. -/
def Sys2Proof.Claims.ManyLanesLoad : Prop :=
  ∀ s (o : Op) accs ty d lanes, findOp s o.id = some o → o.kind = .load accs ty d 1 none → o.cls = some .ld → o.push = none →
    selectAccs s o lanes = accs → accs ≠ [] → (accs.map Acc.lane).Nodup → s.swc = [] → s.prov = [] → noArrivals s →
    (∀ x ∈ accs, plainAcc s x ∧ x.sw = false ∧ x.n = 1 ∧ x.left = [0] ∧ x.data = 0 ∧ x.also = [] ∧ x.lane < 32 ∧
      dataFault s (blkOf o.w) (accKey s x) x.size = none) →
    ∃ t, exec (.loadComplete o.id lanes) s = .next t ∧ t.warps = s.warps ∧ t.fsr = s.fsr ∧ t.mem = s.mem ∧
      Completes o (accs.map (fun x => (d, x.lane, TWord.valid (loadWord ty (rdMem s (accKey s x) x.size))))) s t

namespace Sys2Proof.Claims

/-- The bytes from key k are those of v from byte number `from_` on. -/
def HoldsBytes (t : State) (k n v from_ : Nat) : Prop := ∀ i, i < n → rdByte t (k + i) = BitVec.ofNat 8 (v / 2 ^ (8 * (from_ + i)))

/-- Where piece j of a store is written: a word of the access, or one of the further copies of a page that `stmc` writes (R196). -/
def pieceAt (x : Acc) (j : Nat) : Nat := if j < x.n then x.key + x.size * j else x.also.getD (j - x.n) x.key

/-- The state in which piece j of a store is written. -/
def pieceBase (s : State) (o : Op) (x : Acc) (j : Nat) : State := if j < x.n then lineUsed s o x j else s

/-- A store of one lane, to a page that is no VER page and no frozen frame, in a block none of whose writes are held: of a release the SW caches
hold nothing. -/
def StoreMet (s : State) (o : Op) (x : Acc) (rel ch : Option Nat) (st : Option Nat) (lanes : Mask) : Prop :=
  findOp s o.id = some o ∧ o.kind = .store [x] rel ch st ∧ o.cls = some .st ∧ o.push = none ∧ selectAccs s o lanes = [x] ∧
    plainAcc s x ∧ x.ver = none ∧ x.left ≠ [] ∧ s.prov = [] ∧ frozenKey s x.key = false ∧ lostKey s x.key = false ∧
    (rel.isSome = true → s.swc = []) ∧
    (∀ j ∈ x.left, frozenKey (pieceBase s o x j) (pieceAt x j) = false ∧
      (j < x.n → provisional s (blkOf o.w) = true → regBase ≤ pieceAt x j)) ∧ noArrivals s

/-- What a performed piece j leaves of its store, and of the releases of its block (R211, R220, R224). -/
def StoreGoes (s : State) (o : Op) (x : Acc) (rel ch : Option Nat) (st : Option Nat) (j : Nat) (t : State) : Prop :=
  t.vregs = s.vregs ∧ t.sregs = s.sregs ∧ t.warps = s.warps ∧ t.fsr = s.fsr ∧
    (rel.isSome = true → (getBlock t (blkOf o.w)).releases = (getBlock s (blkOf o.w)).releases + 1) ∧
    if x.left.filter (fun i => i ≠ j) = [] then t.ops = s.ops.filter (fun e => decide (e.id ≠ o.id))
    else findOp t o.id = some { o with kind := .store [{ x with left := x.left.filter (fun i => i ≠ j) }] rel ch st }

end Sys2Proof.Claims

/-- R189, R190, R193, R195, R196, R206, R224, R231: STORE_PERFORMED of a store of one lane (st, str, chst, stmc, an element of a store stream) to a
HW page writes the bytes of one of its words, or of one further copy of its word, that are not written yet. No other byte changes but those of a line that a fill
evicts. The last one ends the store. -/
def Sys2Proof.Claims.StoresPerform : Prop :=
  ∀ s (o : Op) x rel ch st lanes, StoreMet s o x rel ch st lanes → x.sw = false →
    ∃ t, exec (.storePerformed o.id lanes) s = .next t ∧ ∃ j ∈ x.left,
      HoldsBytes t (pieceAt x j) x.size x.data (if j < x.n then x.size * j else 0) ∧
      KeepsMem (pieceBase s o x j) t (fun a => pieceAt x j ≤ a ∧ a < pieceAt x j + x.size) ∧
      (s.swc = [] → KeepsMem s t (fun a => pieceAt x j ≤ a ∧ a < pieceAt x j + x.size)) ∧ StoreGoes s o x rel ch st j t

/-- R187, R192, R195, R224: STORE_PERFORMED of a word of a store to a SW page writes at the level that its policy, or the scope of its release,
asks for: in the core's L1, in the die cache, both holding it as dirty, or at home. -/
def Sys2Proof.Claims.StoresToSwPages : Prop :=
  ∀ s (o : Op) x rel ch st lanes, StoreMet s o x rel ch st lanes → x.sw = true → x.whole = false → provisional s (blkOf o.w) = false →
    (∀ j ∈ x.left, j < x.n) →
    ∃ t, exec (.storePerformed o.id lanes) s = .next t ∧ ∃ j ∈ x.left,
      let a := opAgent s o
      let u := pieceBase s o x j
      let k := pieceAt x j
      let b i : Byte := BitVec.ofNat 8 (x.data / 2 ^ (8 * (x.size * j + i)))
      let level := match rel with | some sc => scopeLevel sc | none => polLevel u a x.cls x.pol k
      StoreGoes s o x rel ch st j t ∧
      (level = 0 → (∀ i, i < x.size → swByte t (l1Of a.core) (k + i) = some (b i, true)) ∧ t.mem = u.mem) ∧
      (level = 1 → (∀ i, i < x.size → swByte t (dcOf a.die) (k + i) = some (b i, true)) ∧ t.mem = u.mem) ∧
      (2 ≤ level → (∀ i, i < x.size → rdByte t (k + i) = b i) ∧ KeepsMem u t (fun e => k ≤ e ∧ e < k + x.size))

/-- R190, R195: STORE_PERFORMED of several lanes of a one-word store, whose lanes write bytes apart from each other and from the version region
table, writes every lane's bytes and no others. -/
def Sys2Proof.Claims.ManyLanesStore : Prop :=
  ∀ s (o : Op) accs ch st lanes, findOp s o.id = some o → o.kind = .store accs none ch st → o.cls = some .st → o.push = none →
    selectAccs s o lanes = accs → accs ≠ [] → (accs.map Acc.lane).Nodup → s.swc = [] → s.prov = [] → provisional s (blkOf o.w) = false →
    noArrivals s → (∀ x ∈ accs, ∀ y ∈ accs, x.lane ≠ y.lane → x.key + x.size ≤ y.key ∨ y.key + y.size ≤ x.key) →
    (∀ x ∈ accs, plainAcc s x ∧ x.sw = false ∧ x.ver = none ∧ x.whole = false ∧ x.n = 1 ∧ x.left = [0] ∧ x.also = [] ∧
      frozenKey s x.key = false ∧ lostKey s x.key = false ∧
      (s.pkg.vrtab = 0 ∨ x.key + x.size ≤ s.pkg.vrtab.toNat ∨ s.pkg.vrtab.toNat + 64 * 4096 ≤ x.key)) →
    ∃ t, exec (.storePerformed o.id lanes) s = .next t ∧ t.vregs = s.vregs ∧ t.sregs = s.sregs ∧ t.warps = s.warps ∧ t.fsr = s.fsr ∧
      t.ops = s.ops.filter (fun e => decide (e.id ≠ o.id)) ∧ (∀ x ∈ accs, HoldsBytes t x.key x.size x.data 0) ∧
      KeepsMem s t (fun a => ∃ x ∈ accs, x.key ≤ a ∧ a < x.key + x.size)

namespace Sys2Proof.Claims

/-- The new value of an update of an integer type: the operation by its code (R245). -/
def updateOf (op : Nat) (ty : BitVec 4) (old c : Nat) : Nat :=
  (match op with
    | 0 => old + c
    | 1 => if intOf ty (BitVec.ofNat 64 old) ≤ intOf ty (BitVec.ofNat 64 c) then old else c
    | 2 => if intOf ty (BitVec.ofNat 64 c) ≤ intOf ty (BitVec.ofNat 64 old) then old else c
    | 3 => old &&& c
    | 4 => old ||| c
    | 5 => old ^^^ c
    | _ => c) % 2 ^ tyWidth ty

end Sys2Proof.Claims

/-- R240, R245 to R250: an atomic of one lane to a HW page or a tile store reads the old value, writes the new one at the same instant, and
answers. atom, atoml, fatom and fred write the operation of the old value and C; cas and cas2 write C where the old value equals B and leave
memory as it is where it does not. D takes the old value, of cas2 in two registers, or with .c whether B was found; a non-returning form
writes no register. -/
def Sys2Proof.Claims.AtomicsPerform : Prop :=
  ∀ s (o : Op) x (a : AtomArgs) lanes, findOp s o.id = some o → o.kind = .atomic [x] a → o.push = none → (o.cls = some .ld ∨ o.cls = some .st) →
    selectAccs s o lanes = [x] → tileGone s x = false → x.sw = false → x.ver = none → s.swc = [] → s.prov = [] → frozenKey s x.key = false →
    dataFault s (blkOf o.w) x.key (x.size * x.n) = none → noArrivals s →
    let cmp := decide (a.kind = 1) || decide (a.kind = 2)
    (cmp = false → a.ty.toNat < 8) →
    let old := rdMem s x.key (x.size * x.n)
    let hit := cmp && decide (old = x.cmp)
    let new := if cmp then x.data else updateOf a.op a.ty old x.data
    ∃ t, performEvent o lanes s = .next t ∧ t.warps = s.warps ∧ t.fsr = s.fsr ∧
      (cmp = true → hit = false → t.mem = s.mem) ∧
      (cmp = false ∨ hit = true → HoldsBytes t x.key (x.size * x.n) new 0 ∧
        KeepsMem s t (fun e => x.key ≤ e ∧ e < x.key + x.size * x.n)) ∧
      match a.d with
      | none => t.ops = s.ops.filter (fun e => decide (e.id ≠ o.id)) ∧ t.vregs = s.vregs ∧ t.sregs = s.sregs
      | some d => Completes o (groupWrites d x.lane
          (if a.cond then [condWord hit]
           else if a.kind = 2 then [TWord.valid (BitVec.ofNat 64 old), TWord.valid (BitVec.ofNat 64 (old / 2 ^ 64))]
           else [TWord.valid (loadWord a.ty old)])) s t

/-- R185, R187, R189, R190, R192, R193, R195, R196, R206, R224, R231, R240, R245 to R250: a load reads, a store writes, and an atomic does both, when
it is performed. -/
def Obligations.LoadsAndStores : Prop :=
  Claims.LoadsComplete ∧ Claims.ManyLanesLoad ∧ Claims.StoresPerform ∧ Claims.StoresToSwPages ∧ Claims.ManyLanesStore ∧ Claims.AtomicsPerform

/-! ### Streams, maintenance, fences, channels -/

/-- R199, R201: ldq and stq with V operands, and a base and a stride that are multiples of the element size, arm the queue of each active
lane, which loses the stream it had; a count of 0 leaves it without one. -/
def Sys2Proof.Claims.StreamsArm : Prop :=
  ∀ f i spec kind s cu, (i, spec, kind) ∈ [(Instr.ldq f, specLdq, 1), (Instr.stq f, specStq, 2)] → issues spec f s cu = true →
    (∀ l ∈ activeLanes s cu, (inA spec f s cu l).tag = .v ∧ (inB spec f s cu l).tag = .v ∧ (inC spec f s cu l).tag = .v ∧
      (inA spec f s cu l).data.toNat % tyBytes f.ty = 0 ∧ (inB spec f s cu l).data.toNat % tyBytes f.ty = 0) →
    let q := f.d.toNat - 0xE0
    ∃ t, exec i s = .next t ∧ Goes f s cu t ∧ t = { issueFrame s t with queues := t.queues } ∧
      (∀ l ∈ activeLanes s cu, getQueue t cu.w l q =
        let n := (inC spec f s cu l).data.toNat % 2 ^ 32
        if n = 0 then Queue.idle
        else { kind := kind, ty := f.ty, addr := (inA spec f s cu l).data, stride := (inB spec f s cu l).data, left := n,
               toFetch := if kind = 1 then n else 0, after := laneOps s cu.w l, entries := [], denied := [] }) ∧
      (∀ w l p, l < 32 → p < 4 → ¬(w = cu.w ∧ activeIn s cu l = true ∧ p = q) → getQueue t w l p =
        if w = cu.w ∧ activeIn s cu l = true ∧ popCount (rdABC f) p ≠ 0 then popQueue (getQueue s w l p) (popCount (rdABC f) p) else getQueue s w l p)

/-- R199, R200: LOAD_STREAM_FETCH of an element that passes the checks and lies in plain memory enters its word at the end of the lane's
queue and moves the stream on by its stride; an element that raises a data fault enters as X. -/
def Sys2Proof.Claims.StreamFetches : Prop :=
  ∀ s w lane q leaf acc, fetchReady s w lane q = true →
    let x := getQueue s w lane q
    let a := { agentOf s w (laneSup s w lane) with denied := x.denied }
    let u := touchAll s a .load [(leaf, acc)]
    let o := streamOp s w lane x acc
    let v := dcTouch u a.die acc.cls acc.pol (accKey u acc)
    chkLane s a .load lane x.addr (tyBytes x.ty) 1 0 0 0 = .ok leaf acc → ownedAgainst s o acc = false → peerHeld s s.routes acc.key = false →
    acc.sw = false → regOff (accKey u acc) = none → handleRetired u acc = false →
    ∃ t, exec (.loadStreamFetch w lane q) s = .next t ∧
      getQueue t w lane q = { x with
        entries := x.entries ++ [match dataFault u (blkOf w) (accKey u acc) (tyBytes x.ty) with
          | some cause => ⟨.x, payload cause acc.va⟩
          | none => ⟨.v, loadWord x.ty (viewMem v (opAgent u o) false (accKey u acc) (tyBytes x.ty) % 2 ^ (8 * tyBytes x.ty))⟩],
        addr := x.addr + x.stride, toFetch := x.toFetch - 1, denied := [] } ∧
      (∀ w' l p, qkey w' l p ≠ qkey w lane q → getQueue t w' l p = getQueue s w' l p) ∧
      t.vregs = s.vregs ∧ t.sregs = s.sregs ∧ t.warps = s.warps ∧ t.ops = s.ops ∧
      (s.swc = [] → s.prov = [] → KeepsMem s t (fun k => leaf.entry ≤ k ∧ k < leaf.entry + 8))

/-- R199 to R201: ldq and stq arm streams, and load streams fetch their elements. -/
def Obligations.Streams : Prop := Claims.StreamsArm ∧ Claims.StreamFetches

/-- R204: winv and wbk over a range that is not empty start an operation on ST over it; over an empty range they do nothing. -/
def Sys2Proof.Claims.MaintenanceStarts : Prop :=
  ∀ f i spec inv s cu, (i, spec, inv) ∈ [(Instr.winv f, specWinv, true), (Instr.wbk f, specWbk, false)] → issues spec f s cu = true →
    let l := lowLane (getSplit s cu.w cu.k).mask
    let n := (inC spec f s cu l).data.toNat % 2 ^ 32
    (inA spec f s cu l).tag = .v → (inB spec f s cu l).tag = .v → (inC spec f s cu l).tag = .v →
    ∃ t, exec i s = .next t ∧ Goes f s cu t ∧ t = { issueFrame s t with ops := t.ops, nextOp := t.nextOp } ∧
      (n = 0 → t.ops = s.ops) ∧
      (n ≠ 0 → Starts (some .st) (getSplit s cu.w cu.k).mask (fun o => o.dst = [] ∧
        o.kind = .maint inv (scopeOf f) ((inA spec f s cu l).data + (inB spec f s cu l).data).toNat n) s cu t)

/-- R225: a fence in a block whose writes are not provisional goes on once the accesses before it are performed, all for a release and
loads and returning atomics for an acquire alone, and waits for them otherwise. Where no cache holds a line of a SW page it changes no
byte. -/
def Sys2Proof.Claims.FencesOrder : Prop :=
  ∀ f s cu, issues specFence f s cu = true → provisional s (blkOf cu.w) = false →
    let ord := f.md.toNat / 16 % 4
    ∃ t, exec (.fence f) s = .next t ∧ KeepsRegs 0xFF s cu t ∧ t.fsr = s.fsr ∧ t.ops = s.ops ∧ (s.swc = [] → t.mem = s.mem) ∧
      (fenceMet (atIssue s cu) cu.w (getSplit s cu.w cu.k).mask ord = true → Goes f s cu t) ∧
      (fenceMet (atIssue s cu) cu.w (getSplit s cu.w cu.k).mask ord = false →
        (getSplit t cu.w cu.k).susp = some (.fence ord (f.md.toNat % 8)) ∧ (getSplit t cu.w cu.k).pc = (getSplit s cu.w cu.k).pc ∧
        t = issueFrame s t)

/-- R204, R225: winv and wbk start, and fences order. -/
def Obligations.MaintenanceAndFences : Prop := Claims.MaintenanceStarts ∧ Claims.FencesOrder

/-- R229, R232: chopen opens a closed channel on the die of A, which is below 8; chfence and chclose on an open channel without outstanding
stores go on, and chclose closes it; with outstanding stores they wait for them. -/
def Obligations.ChannelsOpenAndClose : Prop :=
  ∀ f s cu,
    (issues specChopen f s cu = true →
      let a := inA specChopen f s cu (lowLane (getSplit s cu.w cu.k).mask)
      a.tag = .v → a.data.toNat < 8 → getChan s cu.w (chanNo f) = 0 →
      ∃ t, exec (.chopen f) s = .next t ∧ Goes f s cu t ∧ t = { issueFrame s t with chans := t.chans } ∧
        ∀ w k, k < 16 → getChan t w k = if blkOf w = blkOf cu.w ∧ k = chanNo f then a.data.toNat + 1 else getChan s w k) ∧
    (∀ i spec close, (i, spec, close) ∈ [(Instr.chfence f, specChfence, false), (Instr.chclose f, specChclose, true)] →
      issues spec f s cu = true → getChan s cu.w (chanNo f) ≠ 0 →
      ∃ t, exec i s = .next t ∧ t = { issueFrame s t with chans := t.chans } ∧
        (chanOps s (blkOf cu.w) (chanNo f) = [] → Goes f s cu t ∧
          ∀ w k, k < 16 → getChan t w k = if close = true ∧ blkOf w = blkOf cu.w ∧ k = chanNo f then 0 else getChan s w k) ∧
        (chanOps s (blkOf cu.w) (chanNo f) ≠ [] → t.chans = s.chans ∧
          (getSplit t cu.w cu.k).susp = some (.channel (chanNo f) close (chanOps s (blkOf cu.w) (chanNo f)))))

/-! ### Barriers, arrival objects, waits -/

namespace Sys2Proof.Claims

/-- R254: what n arrivals and a change of due make of an object: the phase completes when every expected arrival is in and nothing is due. -/
structure ArrivesAs (o o' : AObj) (n : Nat) (d : Int) : Prop where
  expected : o'.expected = o.expected
  due : o'.due = o.due + d
  completes : o.arrived + n = o.expected → o.due + d = 0 → o'.phase = !o.phase ∧ o'.arrived = 0
  waits : ¬(o.arrived + n = o.expected ∧ o.due + d = 0) → o'.phase = o.phase ∧ o'.arrived = o.arrived + n

/-- The split goes on with its next word after the STALL count (R55). -/
def Advances (f : Fields) (s : State) (cu : Cur) (t : State) : Prop :=
  getSplit t cu.w cu.k = { stepSplit (getSplit s cu.w cu.k) with next := issueTime s cu.w cu.k + stallOf f }

/-- The block of the split is resident, has not been killed, and its writes are not provisional; no access of the split's threads is
outstanding, and none of them has arrived in the object's present phase. -/
def Arrives (s : State) (cu : Cur) (k : Nat) : Prop :=
  (getBlock s (blkOf cu.w)).state = 1 ∧ (getBlock s (blkOf cu.w)).killed = false ∧ provisional s (blkOf cu.w) = false ∧
    accessOps s cu.w (getSplit s cu.w cu.k).mask = [] ∧
    ∀ l ∈ activeLanes s cu, (objOf s (blkOf cu.w) k).record.contains (lkey cu.w l) = false

end Sys2Proof.Claims

/-- R261, R263, R254: bar and cbar count one arrival for each active lane at the barrier of the block or the cluster and suspend the split
for the phase they arrived in; where they complete it, the wait is satisfied. -/
def Sys2Proof.Claims.BarriersArrive : Prop :=
  ∀ f i spec k s cu, (i, spec, k) ∈ [(Instr.bar f, specBar, 0), (Instr.cbar f, specCbar, 64)] → issues spec f s cu = true → Arrives s cu k →
    let o := objOf s (blkOf cu.w) k
    let n := laneCount (getSplit s cu.w cu.k).mask
    o.arrived + n ≤ o.expected → -2 ^ 31 ≤ o.due → o.due < 2 ^ 31 →
    ∃ t, exec i s = .next t ∧ ArrivesAs o (objOf t (blkOf cu.w) k) n 0 ∧ KeepsRegs 0xFF s cu t ∧ t.fsr = s.fsr ∧ (s.swc = [] → t.mem = s.mem) ∧
      (getSplit t cu.w cu.k).pc = (getSplit s cu.w cu.k).pc ∧ (getSplit t cu.w cu.k).mask = (getSplit s cu.w cu.k).mask ∧
      (getSplit t cu.w cu.k).susp = some (
        if o.arrived + n = o.expected ∧ o.due = 0 then .satisfied k none (scopeOf f)
        else if k = 64 then .cluster o.phase (scopeOf f) else .arrival 0 o.phase (scopeOf f))

/-- R259, R262: barr and aoarr write the phase before their arrival to D and go on; barr arrives with every active lane, aoarr with the
count in B, of which 0 is no arrival. -/
def Sys2Proof.Claims.ArrivalsReturnPhase : Prop :=
  ∀ f i spec s cu k n, (i, spec) ∈ [(Instr.barr f, specBarr), (Instr.aoarr f, specAoarr)] → issues spec f s cu = true → isQ f.d = false →
    (i = .barr f → k = 0 ∧ n = laneCount (getSplit s cu.w cu.k).mask ∧ Arrives s cu 0) →
    (i = .aoarr f → k = f.c.toNat % 64 ∧ (inB spec f s cu (lowLane (getSplit s cu.w cu.k).mask)).tag = .v ∧
      (inB spec f s cu (lowLane (getSplit s cu.w cu.k).mask)).data.toNat = n ∧ n ≤ 65535 ∧ k ≠ 0 ∧
      (getBlock s (blkOf cu.w)).state = 1 ∧ (getBlock s (blkOf cu.w)).killed = false ∧ provisional s (blkOf cu.w) = false ∧
      accessOps s cu.w (getSplit s cu.w cu.k).mask = []) →
    let o := getAo s (blkOf cu.w) k
    o.arrived + n ≤ o.expected → -2 ^ 31 ≤ o.due → o.due < 2 ^ 31 →
    ∃ t, exec i s = .next t ∧ Advances f s cu t ∧ (i = .aoarr f → n = 0 → getAo t (blkOf cu.w) k = o) ∧ (n ≠ 0 → ArrivesAs o (getAo t (blkOf cu.w) k) n 0) ∧
      (∀ l ∈ activeLanes s cu, f.d.toNat < 0xE0 → rdReg t cu.w f.d.toNat l = ⟨.v, if o.phase then 1 else 0⟩) ∧
      KeepsRegs f.d.toNat s cu t ∧ (s.swc = [] → t.mem = s.mem)

/-- R254, R259, R261 to R263: bar, cbar, barr and aoarr arrive. -/
def Obligations.Arrivals : Prop := Claims.BarriersArrive ∧ Claims.ArrivalsReturnPhase

/-- R258, R259: aoinit makes an object of the count given, in phase 0, with nothing due and no arrival but those of its own cycle, where they are
fewer than the count; aoexp adds to what is due. -/
def Sys2Proof.Claims.ObjectsSetUp : Prop :=
  ∀ f s cu,
    (issues specAoinit f s cu = true →
      let b := inB specAoinit f s cu (lowLane (getSplit s cu.w cu.k).mask)
      b.tag = .v → 1 ≤ b.data.toNat → b.data.toNat ≤ 65535 → engineNames s (blkOf cu.w) (f.c.toNat % 64) = false →
      let was := getAo s (blkOf cu.w) (f.c.toNat % 64)
      let now := if was.cyc = issueTime s cu.w cu.k then (was.arrivals.map (fun e => e.1)).sum else 0
      now < b.data.toNat →
      ∃ t, exec (.aoinit f) s = .next t ∧ Advances f s cu t ∧ KeepsRegs 0xFF s cu t ∧ t.mem = s.mem ∧
        let o := getAo t (blkOf cu.w) (f.c.toNat % 64)
        o.expected = b.data.toNat ∧ o.arrived = now ∧ o.due = 0 ∧ o.phase = false ∧ o.status = 0) ∧
    (issues specAoexp f s cu = true →
      let b := inB specAoexp f s cu (lowLane (getSplit s cu.w cu.k).mask)
      let o := getAo s (blkOf cu.w) (f.c.toNat % 64)
      b.tag = .v → b.data.toNat < 2 ^ 31 → -2 ^ 31 ≤ o.due + b.data.toNat → o.due + b.data.toNat < 2 ^ 31 → o.arrived ≤ o.expected →
      ∃ t, exec (.aoexp f) s = .next t ∧ Advances f s cu t ∧ KeepsRegs 0xFF s cu t ∧ t.mem = s.mem ∧
        ArrivesAs o (getAo t (blkOf cu.w) (f.c.toNat % 64)) 0 b.data.toNat)

/-- R260, R262: barw and aowt go on when the phase of their token has completed, aowt with the object's status in D; otherwise aowt.try
nullifies D and the others wait for the phase. A token of tag N lets barw go on. -/
def Sys2Proof.Claims.PhaseWaits : Prop :=
  ∀ f s cu,
    (issues specBarw f s cu = true →
      let a := inA specBarw f s cu (lowLane (getSplit s cu.w cu.k).mask)
      let o := getAo s (blkOf cu.w) 0
      a.tag ≠ .x →
      ∃ t, exec (.barw f) s = .next t ∧ KeepsRegs 0xFF s cu t ∧
        ((a.tag = .n ∨ o.phase ≠ a.data.getLsbD 0) → Advances f s cu t) ∧
        (a.tag = .v → o.phase = a.data.getLsbD 0 → (getSplit t cu.w cu.k).susp = some (.token 0 o.phase none (scopeOf f)) ∧
          (getSplit t cu.w cu.k).pc = (getSplit s cu.w cu.k).pc)) ∧
    (issues specAowt f s cu = true → isQ f.d = false →
      let b := inB specAowt f s cu (lowLane (getSplit s cu.w cu.k).mask)
      let k := f.c.toNat % 64
      let o := getAo s (blkOf cu.w) k
      b.tag = .v →
      ∃ t, exec (.aowt f) s = .next t ∧ KeepsRegs f.d.toNat s cu t ∧
        (o.phase ≠ b.data.getLsbD 0 → Advances f s cu t ∧
          ∀ l ∈ activeLanes s cu, f.d.toNat < 0xE0 → rdReg t cu.w f.d.toNat l = ⟨.v, o.status⟩) ∧
        (o.phase = b.data.getLsbD 0 → f.c.getLsbD 6 = true → Advances f s cu t ∧
          ∀ l ∈ activeLanes s cu, isV f.d = true → rdReg t cu.w f.d.toNat l = ⟨.n, (oldOf f s cu l).data⟩) ∧
        (o.phase = b.data.getLsbD 0 → f.c.getLsbD 6 = false →
          (getSplit t cu.w cu.k).susp = some (.token k o.phase (some f.d.toNat) (f.ty.toNat % 8)) ∧
          (getSplit t cu.w cu.k).pc = (getSplit s cu.w cu.k).pc))

/-- R258 to R260, R262: aoinit and aoexp set an object up; barw and aowt wait for a phase. -/
def Obligations.ArrivalObjects : Prop := Claims.ObjectsSetUp ∧ Claims.PhaseWaits

namespace Sys2Proof.Claims

/-- A split that was suspended goes on with its next word (R47). The cycle of the wake is the model's choice (log 22): the cycle that its core
has reached. -/
def Resumes (s : State) (w k : Nat) (t : State) : Prop :=
  getSplit t w k = { stepSplit (getSplit s w k) with next := max (getSplit s w k).next (getCore s (coreOf s w)).cyc }

/-- The monitor of a lane of mwait, before its first read. -/
def monitorOf (f : Fields) (s : State) (cu : Cur) (acc : Acc) (l : Nat) : MonLane :=
  let n := (inC specMwait f s cu l).data.toNat % 2 ^ 32
  { acc := acc, b := (inB specMwait f s cu l).data, limit := if n = 2 ^ 32 - 1 then none else some (issueTime s cu.w cu.k + n), last := 0,
    read := false, out := none }

/-- A lane of a monitor whose location lies at home alone and may be read (R265). -/
def plainMon (s : State) (o : Op) (m : MonLane) : Prop :=
  m.out = none ∧ plainAcc s m.acc ∧ m.acc.sw = false ∧ m.acc.n = 1 ∧ m.acc.left = [0] ∧ m.acc.data = 0 ∧ m.acc.also = [] ∧ m.acc.lane < 32 ∧
    accReady s o m.acc = true ∧ dataFault s (blkOf o.w) (accKey s m.acc) m.acc.size = none

/-- R265: a lane after a read in a cycle: a word that compares with B resolves it, with tag V, and so does a limit that has passed, with tag N. -/
def monAfter (s : State) (cyc : Nat) (ty : BitVec 4) (cc : Nat) (m : MonLane) : MonLane :=
  let v := loadWord ty (rdMem s (accKey s m.acc) m.acc.size)
  { m with last := v, read := true,
           out := if cmpHolds cc (intOf ty v) (intOf ty m.b) then some ⟨.v, v⟩
                  else if m.limit.any (fun x => decide (x ≤ cyc)) then some ⟨.n, v⟩ else none }

end Sys2Proof.Claims

/-- R265, R266: mwait of a warp without outstanding operations reads its locations at issue. Where that resolves every lane the words stand in D and the
split goes on; otherwise it waits with what was read. Each monitor step of several lanes reads every location alike, and ends the wait with its
last lane. -/
def Sys2Proof.Claims.MonitorsRead : Prop :=
  (∀ f s cu (leaf : Nat → Leaf) (acc : Nat → Acc), issues specMwait f s cu = true → isQ f.d = false → s.ops = [] → s.swc = [] → s.prov = [] →
    let c := ctxOf specMwait f s cu
    let cc := (modOf f).toNat / 16 % 8
    (∀ l ∈ lanesNow f s cu, loadLane (atIssue s cu) c [inA specMwait f s cu l, inB specMwait f s cu l, inC specMwait f s cu l] l (fun _ =>
      chkLane (atIssue s cu) (agentC c (atIssue s cu)) .load l (inA specMwait f s cu l).data (tyBytes f.ty) 1 0 0 0) = .ok (leaf l) (acc l) ∧
      (acc l).lane = l ∧ (acc l).sw = false ∧ (acc l).ver = none ∧ (acc l).key < regBase ∧
      dataFault s (blkOf cu.w) (acc l).key (tyBytes f.ty) = none) →
    ∃ t, exec (.mwait f) s = .next t ∧ KeepsMem s t (fun a => ∃ l ∈ lanesNow f s cu, (leaf l).entry ≤ a ∧ a < (leaf l).entry + 8) ∧
      let ms := (lanesNow f s cu).map (fun l => monAfter t (issueTime s cu.w cu.k) f.ty cc (monitorOf f s cu (acc l) l))
      if ms.all (fun m => m.out.isSome) then
        t.ops = [] ∧ KeepsRegs f.d.toNat s cu t ∧
        getSplit t cu.w cu.k = { stepSplit (getSplit s cu.w cu.k) with
          next := issueTime s cu.w cu.k + stallOf f, path := pathOf s cu.w (issueTime s cu.w cu.k) } ∧
        ∀ m ∈ ms, f.d.toNat < 0xE0 → some (rdReg t cu.w f.d.toNat m.acc.lane) = m.out
      else
        KeepsRegs 0xFF s cu t ∧ (getSplit t cu.w cu.k).susp = some (.op s.nextOp) ∧ (getSplit t cu.w cu.k).pc = (getSplit s cu.w cu.k).pc ∧
        ∃ o ∈ t.ops, o.id = s.nextOp ∧ o.w = cu.w ∧ o.kind = .monitor ms f.d.toNat f.ty cc (scopeOf f)) ∧
  (∀ s w k (o : Op) ms d ty cc scope, (getSplit s w k).susp = some (.op o.id) → findOp s o.id = some o → o.push = none → o.w = w →
    o.kind = .monitor ms d ty cc scope → ms ≠ [] → (ms.map (fun m => m.acc.lane)).Nodup → cc ≤ 5 → ty.toNat < 8 → s.swc = [] → s.prov = [] →
    (∀ m ∈ ms, plainMon s o m) →
    let ns := ms.map (monAfter s (getCore s (coreOf s w)).cyc ty cc)
    ∃ t, exec (.monitorRecheck w k) s = .next t ∧ t.mem = s.mem ∧
      if ns.all (fun m => m.out.isSome) then
        Completes o (ns.filterMap (fun m => m.out.map (fun v => (d, m.acc.lane, v)))) s t ∧ Resumes s w k t
      else getSplit t w k = getSplit s w k ∧ t.vregs = s.vregs ∧ t.sregs = s.sregs ∧
        findOp t o.id = some { o with kind := .monitor ns d ty cc scope })

/-- R265, R266: mwait whose every lane passes its checks, and whose locations earlier accesses of its threads still hold back, waits with one
monitor a lane; at a recheck, a lane whose location compares with B takes its word and acquires, and one whose limit has passed takes N.
With its last lane resolved, the words stand in D and the split goes on. -/
def Sys2Proof.Claims.MonitoredWaits : Prop :=
  (∀ f s cu (leaf : Nat → Leaf) (acc : Nat → Acc), issues specMwait f s cu = true → isQ f.d = false →
    let c := ctxOf specMwait f s cu
    (∀ l ∈ lanesNow f s cu, loadLane (atIssue s cu) c [inA specMwait f s cu l, inB specMwait f s cu l, inC specMwait f s cu l] l (fun _ =>
      chkLane (atIssue s cu) (agentC c (atIssue s cu)) .load l (inA specMwait f s cu l).data (tyBytes f.ty) 1 0 0 0) = .ok (leaf l) (acc l) ∧
      (acc l).lane = l ∧ ∃ e ∈ s.ops, e.id < s.nextOp ∧ e.w = cu.w ∧ ∃ y ∈ accsOfOp e, y.lane = l ∧ overlap (acc l) y = true) →
    ∃ t, exec (.mwait f) s = .next t ∧ KeepsRegs 0xFF s cu t ∧ (getSplit t cu.w cu.k).susp = some (.op s.nextOp) ∧
      (getSplit t cu.w cu.k).pc = (getSplit s cu.w cu.k).pc ∧
      (∃ o ∈ t.ops, o.id = s.nextOp ∧ o.w = cu.w ∧ o.cls = none ∧ o.dst = dstOf f.d.toNat (lanesNow f s cu) ∧
        o.kind = .monitor ((lanesNow f s cu).map (fun l => monitorOf f s cu (acc l) l)) f.d.toNat f.ty ((modOf f).toNat / 16 % 8) (scopeOf f)) ∧
      KeepsMem s t (fun a => ∃ l ∈ lanesNow f s cu, (leaf l).entry ≤ a ∧ a < (leaf l).entry + 8)) ∧
  (∀ s w k (o : Op) m d ty cc scope, (getSplit s w k).susp = some (.op o.id) → findOp s o.id = some o → o.push = none → o.w = w →
    o.kind = .monitor [m] d ty cc scope → m.out = none → m.acc.lane < 32 →
    (∀ v, (monRead s o ty cc scope m).2.2 = some v → ∃ t, exec (.monitorRecheck w k) s = .next t ∧
      Completes o [(d, m.acc.lane, v)] (monRead s o ty cc scope m).1 t ∧ Resumes s w k t) ∧
    ((monRead s o ty cc scope m).2.2 = none → (∀ x, m.limit = some x → (getCore s (coreOf s w)).cyc < x) →
      ∃ t, exec (.monitorRecheck w k) s = .next t ∧ getSplit t w k = getSplit s w k ∧ t.vregs = s.vregs ∧ t.sregs = s.sregs ∧
        findOp t o.id = some { o with kind := .monitor [(monRead s o ty cc scope m).2.1] d ty cc scope }) ∧
    (∀ x, m.read = true → m.limit = some x → x ≤ (getCore s (coreOf s w)).cyc → ∃ t, exec (.mwaitLimit w k) s = .next t ∧
      Completes o [(d, m.acc.lane, ⟨.n, m.last⟩)] s t ∧ Resumes s w k t ∧ t.mem = s.mem))

/-- R47, R165, R167: a suspended split of a resident block goes on once its wait is satisfied: past its word when the wait was its effect, and
at its word when the word could not issue. Until then nothing changes. -/
def Sys2Proof.Claims.WaitsEnd : Prop :=
  ∀ s w k,
    ((getBlock s (blkOf w)).state = 1 →
      (∀ a b c d, (getSplit s w k).susp = some (.counters a b c d) →
        (countersMet s w (getSplit s w k).mask a b c d = true → ∃ t, exec (.suspendedSplitWake w k) s = .next t ∧ Resumes s w k t ∧ t = { s with warps := t.warps }) ∧
        (countersMet s w (getSplit s w k).mask a b c d = false → exec (.suspendedSplitWake w k) s = .next s)) ∧
      (∀ c, (getSplit s w k).susp = some (.cap c) →
        (counterOf s w (getSplit s w k).mask c < 63 → ∃ t, exec (.suspendedSplitWake w k) s = .next t ∧ t = { s with warps := t.warps } ∧
          getSplit t w k = { getSplit s w k with susp := none, next := max (getSplit s w k).next (getCore s (coreOf s w)).cyc }) ∧
        (¬counterOf s w (getSplit s w k).mask c < 63 → exec (.suspendedSplitWake w k) s = .next s))) ∧
    (∀ c, (getSplit s w k).susp = some (.nap c) →
      (c ≤ (getCore s (coreOf s w)).cyc → ∃ t, exec (.napExpiry w k) s = .next t ∧ Resumes s w k t ∧ t = { s with warps := t.warps }) ∧
      ((getCore s (coreOf s w)).cyc < c → exec (.napExpiry w k) s = .next s))

namespace Sys2Proof.Claims

/-- The waits whose end SUSPENDED_SPLIT_WAKE decides, other than counters, caps and naps: what ends them. -/
def waitMet (s : State) (w k : Nat) : Wait → Option Bool
  | .queue need full => some ((lanesOf (getSplit s w k).mask).all (fun l =>
      need.all (fun e => decide ((getQueue s w l e.1).kind ≠ 1) || decide (e.2 ≤ (getQueue s w l e.1).entries.length)) &&
        full.all (fun q => decide (streamCount s w l q < 8))))
  | .page die host space vas _ =>
      some (!stallsOpen s die host space vas || vas.any (fun v => (getSplit s w k).denied.contains (v / 2 ^ 16)))
  | .frame addrs _ => some (addrs.all (fun e => vdbWv (rdVdb s e.1) || !vdbOk s e.1))
  | .ckwait region seq => some (ckStatus s region seq).isSome
  | .commit => some (!blockBusy s (blkOf w))
  | .resumed obj p _ => some (decide ((objOf s (blkOf w) obj).phase ≠ p))
  | .fence ord _ => some (if ord = 0 then (loadOps s w (getSplit s w k).mask).isEmpty else (accessOps s w (getSplit s w k).mask).isEmpty)
  | .channel _ _ ids => some (ids.all (fun i => (findOp s i).isNone))
  | .drain ids => some (ids.all (fun i => (findOp s i).isNone))
  | .aoinit obj _ => some (!engineNames s (blkOf w) obj)
  | .satisfied _ _ _ => some true
  | _ => none

/-- The waits of words that could not issue yet: the word issues again (R39, R47, R199, R267, R322). -/
def issuesAgain : Wait → Bool
  | .queue _ _ => true
  | .page _ _ _ _ _ => true
  | .frame _ _ => true
  | .ckwait _ _ => true
  | .commit => true
  | .resumed _ _ _ => true
  | _ => false

end Sys2Proof.Claims

/-- R47, R178, R199, R201, R225, R232, R258, R260, R267, R322, R339, R442, R448: the other waits. A split whose word could not issue issues it again once
nothing holds it up; one whose word was waiting for its effect goes on with the next word, after the effect: a satisfied wait for an object has
the object's status in D, a closing channel is closed. While the wait is not over nothing changes. -/
def Sys2Proof.Claims.OtherWaitsEnd : Prop :=
  ∀ s w k x, (getBlock s (blkOf w)).state = 1 → (getSplit s w k).susp = some x →
    (waitMet s w k x = some false → exec (.suspendedSplitWake w k) s = .next s) ∧
    (waitMet s w k x = some true → ∃ t, exec (.suspendedSplitWake w k) s = .next t ∧ (s.swc = [] → t.mem = s.mem) ∧ t.fsr = s.fsr ∧
      (issuesAgain x = true → t.vregs = s.vregs ∧ t.sregs = s.sregs ∧
        getSplit t w k = { getSplit s w k with susp := none, next := max (getSplit s w k).next (getCore s (coreOf s w)).cyc }) ∧
      (issuesAgain x = false → (∀ obj d scope, x = .satisfied obj (some d) scope → d < 0xE0) → Resumes s w k t) ∧
      (∀ ch ids, x = .channel ch true ids → getChan t w ch = 0) ∧
      (∀ obj d scope, x = .satisfied obj (some d) scope → d < 0xE0 → ∀ l < 32, (getSplit s w k).mask.getLsbD l = true →
        rdReg t w d l = ⟨.v, (getAo s (blkOf w) obj).status⟩))

/-- R47, R165, R167, R178, R199, R201, R225, R232, R258, R260, R265 to R267, R322, R339: mwait, and how the waits of suspended splits end. The cycle in which
a split goes on is the model's (log 22). -/
def Obligations.Waits : Prop := Claims.MonitoredWaits ∧ Claims.MonitorsRead ∧ Claims.WaitsEnd ∧ Claims.OtherWaitsEnd

/-! ### Descriptors, copies, circular buffers -/

/-- R270: tdset reads a valid descriptor from the tile store once the split's accesses to it are over, and TDSET_COMPLETE puts it into its slot;
tdget starts an operation whose result is word B of the descriptor of a loaded slot. -/
def Obligations.DescriptorSlots : Prop :=
  (∀ f s cu, issues specTdset f s cu = true → tileAccesses s cu.w (getSplit s cu.w cu.k).mask = false →
    tdBusy s (blkOf cu.w) [f.ty.toNat] = false →
    let l := lowLane (getSplit s cu.w cu.k).mask
    let off := ((inA specTdset f s cu l).data + (inB specTdset f s cu l).data).toNat
    let d := rdMem s (tileBase (blkOf cu.w) + off) 128
    (inA specTdset f s cu l).tag = .v → (inB specTdset f s cu l).tag = .v → off % 128 = 0 →
    off + 128 ≤ (getBlock s (blkOf cu.w)).tsbytes → tdValid d = true →
    ∃ t, exec (.tdset f) s = .next t ∧ Goes f s cu t ∧ t = { issueFrame s t with ops := t.ops, nextOp := t.nextOp } ∧
      Starts none (getSplit s cu.w cu.k).mask (fun o => o.dst = [] ∧ o.kind = .tdset f.ty.toNat d) s cu t) ∧
  (∀ s (o : Op) n d, findOp s o.id = some o → o.kind = .tdset n d → n < 16 →
    ∃ t, exec (.tdsetComplete o.id) s = .next t ∧ t = { s with ops := s.ops.filter (fun e => decide (e.id ≠ o.id)), tds := t.tds } ∧
      ∀ b m, m < 16 → getTd t b m = if b = blkOf o.w ∧ m = n then d else getTd s b m) ∧
  (∀ f s cu, issues specTdget f s cu = true → isQ f.d = false → tdBusy s (blkOf cu.w) [f.ty.toNat] = false →
    let b := inB specTdget f s cu (lowLane (getSplit s cu.w cu.k).mask)
    let d := getTd s (blkOf cu.w) f.ty.toNat
    b.tag = .v → d ≠ 0 →
    ∃ t, exec (.tdget f) s = .next t ∧ Goes f s cu t ∧ KeepsRegs 0xFF s cu t ∧ t.mem = s.mem ∧
      Starts (some .ld) (getSplit s cu.w cu.k).mask (fun o => o.dst = dstOf f.d.toNat (lanesNow f s cu) ∧
        o.kind = .result ((lanesNow f s cu).map (fun l => (f.d.toNat, l, ⟨.v, BitVec.ofNat 64 (d / 2 ^ (64 * (b.data.toNat % 16)))⟩)))) s cu t)

namespace Sys2Proof.Claims

/-- The copies, with their encoding rows at the state and their numbers (R273). -/
def copyRows (f : Fields) (s : State) : List (Instr × OpSpec × Nat) :=
  [(.tcpgl f, specTcpgl (curRank s (mdN f)), 2), (.tcplg f, specTcplg (curRank s (mdN f)), 3),
   (.tcpgg f, specTcpgg (curRank s (mdN f)) (curRank s f.ty.toNat), 4), (.tcpmc f, specTcpmc (curRank s (mdN f)), 5),
   (.tcpred f, specTcpred (curRank s (mdN f)), 6), (.tcpst f, specTcpst (curRank s (mdN f)), 7), (.tcppf f, specTcppf (curRank s (mdN f)), 8)]

/-- No cache holds a byte of a SW page that differs from its home by a store (R191). -/
def holdsClean (s : State) : Prop := ∀ e ∈ s.swc, ∀ b, e.2 ≠ some (b, true)

end Sys2Proof.Claims

/-- R273 to R275, R281, R282, R254: a copy whose words are V, which passes the checks of R274 and whose engine has room, starts an operation
that owns the copy, registers its bytes on its arrival object, and goes on; tcppf has no effect beyond its checks, the entries that translate
the box, which it marks accessed (R177), and, with .dc, the lines that it brings into the die cache. Where no cache holds a dirty byte of a SW
page, no other byte of memory changes; a fill that evicts a dirty line writes it back (R193). -/
def Sys2Proof.Claims.CopiesStart : Prop :=
  ∀ f i spec kind s cu pages stamp, (i, spec, kind) ∈ copyRows f s → issues spec f s cu = true → coreCopies s (coreOf s cu.w) < 64 →
    tdBusy s (blkOf cu.w) (if kind = 4 then [mdN f, f.ty.toNat] else [mdN f]) = false → provisional s (blkOf cu.w) = false →
    let c := ctxOf spec f s cu
    let u := atIssue s cu
    let x := copyOf kind u c
    let n := copyRegisters s (blkOf cu.w) x
    let sw := groupWords u c f.d 2
    (∀ v ∈ copyWords kind u c, v.tag = .v) → copyFault u c x = none →
    (kind = 8 → ∃ t, exec i s = .next t ∧ Goes f s cu t ∧ KeepsRegs 0xFF s cu t ∧ t.fsr = s.fsr ∧ t.ops = s.ops ∧ t.nextOp = s.nextOp ∧
      (f.md.toNat / 16 % 4 ≠ 0 → t = { issueFrame s t with mem := t.mem, tlb := t.tlb, owners := t.owners }) ∧
      (f.md.toNat / 16 % 4 ≠ 0 ∨ (holdsClean s ∧ s.prov = []) →
        t = { issueFrame s t with mem := t.mem, tlb := t.tlb, owners := t.owners, swc := t.swc, marks := t.marks, dcLru := t.dcLru } ∧
        (∀ k, rdByte t k ||| rdByte s k = rdByte t k) ∧
        KeepsMem s t (fun a => ∃ h, some h ∈ boxAddrs x.desc x.org x.ext ∧ ∃ l key, checkAddr u (agentC c u) (h / 2) 1 .load = .ok l key ∧
          l.entry ≤ a ∧ a < l.entry + 8))) ∧
    (kind ≠ 8 →
      copyWalk u (agentC c u) x (if kind = 7 then some ((sw.getD 0 TWord.zero).data.toNat, (sw.getD 1 TWord.zero).data.toNat) else none) =
        (.ok pages, stamp) →
      ∃ t, exec i s = .next t ∧ Advances f s cu t ∧ KeepsRegs 0xFF s cu t ∧ t.fsr = s.fsr ∧
        Starts (some .cp) (getSplit s cu.w cu.k).mask (fun o => o.dst = [] ∧ o.kind = .copy { x with
          pages := pages, stamp := stamp.map (·.2),
          srcPages := (stamp.map (fun e => (pageStart (agentC c u) e.2.va, some e.1))).toList }) s cu t ∧
        (n = 0 → t.aos = s.aos) ∧
        (n ≠ 0 → getAo t (blkOf cu.w) x.obj = aoUpdate (getAo s (blkOf cu.w) x.obj) 0 n 0 x.tag []) ∧
        KeepsMem s t (fun a => (∃ e ∈ pages, e.2.entry ≤ a ∧ a < e.2.entry + 8) ∨ ∃ e, stamp = some e ∧ e.1.entry ≤ a ∧ a < e.1.entry + 8))

/-- R206, R276, R278, R254: COPY_COMPLETE performs one 8-byte word of a copy at a time. A word of a tile-store source is read; a word of a box whose
destination is the tile store of a resident block is written there; when nothing is left, the arrival object has the bytes of the box less to
come, and the copy is over. Where a copy may not be performed yet nothing changes. -/
def Sys2Proof.Claims.CopiesComplete : Prop :=
  ∀ s (o : Op) x, findOp s o.id = some o → o.kind = .copy x →
    let b := blkOf o.w
    let sz := halfBytes (tdEty x.desc)
    (copyFree s o x = false → exec (.copyComplete o.id) s = .next s) ∧
    (∀ k, copyFree s o x = true → nextPieceOf s o x = some (false, k) → fromTile x = true →
      ∃ t y, exec (.copyComplete o.id) s = .next t ∧ t = { s with ops := t.ops } ∧ findOp t o.id = some { o with kind := .copy y } ∧
        y = { x with elems := y.elems } ∧
        ∀ j, sget (0, 0) y.elems j =
          if (srcElems x k).contains j ∧ elemSt x j = 0 then (1, rdHalf s (2 * tileBase b + tileHalf x j) sz) else sget (0, 0) x.elems j) ∧
    (∀ k, copyFree s o x = true → nextPieceOf s o x = some (true, k) → x.kind = 2 → heldFor s b = false →
      ∃ t y, exec (.copyComplete o.id) s = .next t ∧ t = { s with ops := t.ops, mem := t.mem } ∧ findOp t o.id = some { o with kind := .copy y } ∧
        y = { x with elems := y.elems } ∧ (∀ j, elemSt y j = if (dstElems x k).contains j then 3 else elemSt x j) ∧
        (∀ j ∈ dstElems x k, elemSt x j ≠ 3 → rdHalf t (2 * tileBase b + tileHalf x j) sz = (sget (0, 0) x.elems j).2 % 16 ^ sz) ∧
        KeepsMem s t (fun a => ∃ j ∈ dstElems x k, elemSt x j ≠ 3 ∧ tileBase b + tileHalf x j / 2 ≤ a ∧
          a < tileBase b + tileHalf x j / 2 + max 1 (sz / 2))) ∧
    (copyFree s o x = true → nextPieceOf s o x = none → copyStall s o x = none → x.todo = [] → unread x = [] → x.kind = 2 → x.cb = none → x.stamp = none →
      heldFor s b = false → (getBlock s b).state = 1 → (getBlock s b).killed = false →
      let n := boxBytes x.desc x.ext
      let a := getAo s b x.obj
      ∃ t, exec (.copyComplete o.id) s = .next t ∧ t.vregs = s.vregs ∧ t.sregs = s.sregs ∧ t.mem = s.mem ∧
        t.ops = s.ops.filter (fun e => decide (e.id ≠ o.id)) ∧
        (x.obj ≠ 0 → a.arrived ≤ a.expected → -2 ^ 31 ≤ a.due - n → a.due - n < 2 ^ 31 → ArrivesAs a (getAo t b x.obj) 0 (-(n : Int))))

/-- R254, R273 to R276, R278, R281, R282: copies start and complete. -/
def Obligations.Copies : Prop := Claims.CopiesStart ∧ Claims.CopiesComplete

/-- R206, R279, R287: of a box that has been read, MULTICAST_DELIVERY delivers to one rank the next 8-byte word that it has not had; with its last
word the rank is served and its object has the box less to come, and a rank without a recipient is dropped and noted. FORWARDED_TRAFFIC
applies what was held for a block once it is resident. -/
def Obligations.CopyDeliveries : Prop :=
  (∀ s (o : Op) x rank, findOp s o.id = some o → o.kind = .copy x → x.todo.contains rank = true → copyFree s o x = true → allRead x = true →
    let rest := x.todo.filter (fun q => decide (q ≠ rank))
    let n := boxBytes x.desc x.ext
    (mcTarget s o x rank = none → ∃ t, exec (.multicastDelivery o.id rank) s = .next t ∧ t = { s with ops := t.ops } ∧
      findOp t o.id = some { o with kind := .copy { x with todo := rest, flags := x.flags ||| flMcMiss } }) ∧
    (∀ b, mcTarget s o x rank = some b → heldFor s b = false → mcLeft x rank ≠ [] →
      ∃ t, ∃ w ∈ mcLeft x rank, exec (.multicastDelivery o.id rank) s = .next t ∧ t.vregs = s.vregs ∧ t.sregs = s.sregs ∧
        (∀ i, i < min 8 (n - 8 * w) → rdByte t (tileBase b + (x.off + 8 * w) + i) = BitVec.ofNat 8 (mcData x / 2 ^ (64 * w) / 2 ^ (8 * i))) ∧
        KeepsMem s t (fun a => tileBase b + (x.off + 8 * w) ≤ a ∧ a < tileBase b + (x.off + 8 * w) + min 8 (n - 8 * w)) ∧
        (1 < (mcLeft x rank).length →
          findOp t o.id = some { o with kind := .copy { x with sent := (2 ^ 32 * rank + w) :: x.sent } } ∧ t = { s with ops := t.ops, mem := t.mem }) ∧
        ((mcLeft x rank).length = 1 → findOp t o.id = some { o with kind := .copy { x with todo := rest } } ∧
          let a := getAo s b x.obj
          (x.cb = none → x.obj ≠ 0 → b ≠ blkOf o.w → (getBlock s b).state = 1 → (getBlock s b).killed = false → a.arrived ≤ a.expected →
            -2 ^ 31 ≤ a.due - n → a.due - n < 2 ^ 31 → ArrivesAs a (getAo t b x.obj) 0 (-(n : Int)))))) ∧
  (∀ s b, (getBlock s b).state ≠ 1 → exec (.forwardedTraffic b) s = .next s) ∧
  (∀ s b, (getBlock s b).state = 1 →
    ∃ t, exec (.forwardedTraffic b) s = .next t ∧ t.fwd = s.fwd.filter (fun e => decide (e.1 ≠ b)) ∧ t.vregs = s.vregs ∧ t.sregs = s.sregs ∧
      (∀ off n data, s.fwd.filter (fun e => decide (e.1 = b)) = [(b, .bytes off n data)] → t.warps = s.warps ∧
        (∀ i, i < n → rdByte t (tileBase b + off + i) = BitVec.ofNat 8 (data / 2 ^ (8 * i))) ∧
        KeepsMem s t (fun a => tileBase b + off ≤ a ∧ a < tileBase b + off + n)) ∧
      (∀ k off n flags scope ms, s.fwd.filter (fun e => decide (e.1 = b)) = [(b, .slot k off n flags scope ms)] → t.mem = s.mem ∧
        getCb t b k = slotUpdate (getCb s b k) off n flags scope ms) ∧
      (∀ k c n flags tag ms, s.fwd.filter (fun e => decide (e.1 = b)) = [(b, .obj k c n flags tag ms)] → (getBlock s b).killed = false → t.mem = s.mem ∧
        getAo t b k = aoUpdate (getAo s b k) c (-(n : Int)) flags tag ms))

/-- R284 to R286: cbinit makes a ring of free slots; cbres takes the next free slot and cbacq the next filled one, with its offset, and for
cbacq its status, in D; cbcom and cbrel pass the slot at an offset on, reserved to filled, acquired to free. A slot that is not in the state
asked for makes .try nullify D and the others wait. -/
def Obligations.CircularBuffers : Prop :=
  ∀ f s cu,
    let b := blkOf cu.w
    let k := f.md.toNat % 32
    let x := getCb s b k
    (issues specCbinit f s cu = true →
      let l := lowLane (getSplit s cu.w cu.k).mask
      let base := (inA specCbinit f s cu l).data.toNat
      let size := (inB specCbinit f s cu l).data.toNat
      let n := (inC specCbinit f s cu l).data.toNat
      (inA specCbinit f s cu l).tag = .v → (inB specCbinit f s cu l).tag = .v → (inC specCbinit f s cu l).tag = .v →
      base % 128 = 0 → size % 128 = 0 → 128 ≤ size → size ≤ 524288 → 1 ≤ n → n ≤ 64 → base + size * n ≤ (getBlock s b).tsbytes →
      bufferBusy s b k none = false →
      ∃ t, exec (.cbinit f) s = .next t ∧ Goes f s cu t ∧ t = { issueFrame s t with cbs := t.cbs } ∧
        ∀ b' j, j < 32 → getCb t b' j =
          if b' = b ∧ j = k then { base := base, size := size, res := 0, acq := 0, slots := List.replicate n CbSlot.init } else getCb s b' j) ∧
    (∀ i spec acq, (i, spec, acq) ∈ [(Instr.cbres f, specCbres, false), (Instr.cbacq f, specCbacq, true)] → issues spec f s cu = true → x.slots ≠ [] →
      let j := if acq then x.acq else x.res
      let e := slotState x j
      (e.st = (if acq then 2 else 0) → ∃ t, exec i s = .next t ∧ KeepsRegs f.d.toNat s cu t ∧ (s.swc = [] → t.mem = s.mem) ∧
        getSplit t cu.w cu.k = { stepSplit (getSplit s cu.w cu.k) with next := issueTime s cu.w cu.k + max 3 (stallOf f) } ∧
        (∀ l, isS f.d = true → rdReg t cu.w f.d.toNat l =
          ⟨.v, BitVec.ofNat 64 ((if acq then e.status * 2 ^ 32 else 0) + x.base + j * x.size)⟩) ∧
        getCb t b k = { x with
          acq := if acq then (j + 1) % x.slots.length else x.acq, res := if acq then x.res else (j + 1) % x.slots.length,
          slots := x.slots.set j (if acq then { e with st := 3 } else { CbSlot.init with st := 1 }) }) ∧
      (e.st ≠ (if acq then 2 else 0) → f.md.getLsbD 5 = true → ∃ t, exec i s = .next t ∧ KeepsRegs f.d.toNat s cu t ∧ Goes f s cu t ∧ t.cbs = s.cbs ∧
        ∀ l ∈ activeLanes s cu, isS f.d = true → (rdReg t cu.w f.d.toNat l).tag = .n) ∧
      (e.st ≠ (if acq then 2 else 0) → f.md.getLsbD 5 = false → ∃ t, exec i s = .next t ∧ t = issueFrame s t ∧
        (getSplit t cu.w cu.k).susp = some (.buffer k (if acq then 1 else 0) 0))) ∧
    (∀ i spec com j, (i, spec, com) ∈ [(Instr.cbcom f, specCbcom, true), (Instr.cbrel f, specCbrel, false)] → issues spec f s cu = true →
      let a := inA spec f s cu (lowLane (getSplit s cu.w cu.k).mask)
      a.tag = .v → slotAt x a.data.toNat = some j → (slotState x j).st = (if com then 1 else 3) → j < x.slots.length →
      bufferReady s cu.w (getSplit s cu.w cu.k).mask k (if com then 2 else 4) a.data.toNat = true →
      ∃ t, exec i s = .next t ∧ Goes f s cu t ∧ KeepsRegs 0xFF s cu t ∧ (s.swc = [] → t.mem = s.mem) ∧
        (slotState (getCb t b k) j).st = (if com then 2 else 0) ∧ (slotState (getCb t b k) j).bytes = (slotState x j).bytes ∧
        (∀ m, m ≠ j → slotState (getCb t b k) m = slotState x m) ∧ (getCb t b k).res = x.res ∧ (getCb t b k).acq = x.acq)

/-! ### Matrix operations -/

namespace Sys2Proof.Claims

/-- The matrix instructions with their numbers (R294). -/
def matrixRows (f : Fields) : List (Instr × OpSpec × Nat) :=
  [(.aczero f, specAczero, 0), (.mmx f, specMmx, 1), (.mmxl f, specMmxl, 2), (.acld f, specAcld, 3), (.acst f, specAcst, 4), (.acrd f, specAcrd, 5),
   (.acwr f, specAcwr, 6), (.acep f, specAcep, 7), (.mxstat f, specMxstat, 8)]

end Sys2Proof.Claims

/-- R296, R297, R302: a matrix word whose scalars are V, which passes the checks of R296 and whose unit's queue has room, enters its operation in
the unit and goes on: only acrd and mxstat have a register destination, which their completion writes. -/
def Sys2Proof.Claims.MatrixOperationsStart : Prop :=
  ∀ f i spec kind s cu pages, (i, spec, kind) ∈ matrixRows f → issues spec f s cu = true → (kind = 5 ∨ kind = 8 → isQ f.d = false) →
    mxQueueFull s (coreOf s cu.w) kind = false → provisional s (blkOf cu.w) = false →
    let c := ctxOf spec f s cu
    let u := atIssue s cu
    let x := mxOf kind u c
    (∀ v ∈ mxWords kind u c, v.tag = .v) → mxFault u c x = none → (kind = 6 → ∀ l ∈ activeLanes s cu, (inC spec f s cu l).tag ≠ .x) →
    (if kind = 4 ∧ x.ts = false then
      walkDst u (agentC c u) .store (tileElemBytes x.ty)
        ((mxRows x).flatMap (fun r => (List.range (mxRowBytes x / 256)).map (fun i => (mxRowVa x r + 256 * i) % 2 ^ 64))) [] none = .ok pages
     else pages = []) →
    ∃ t, exec i s = .next t ∧ Goes f s cu t ∧ KeepsRegs 0xFF s cu t ∧ t.fsr = s.fsr ∧
      Starts (some .ex) (getSplit s cu.w cu.k).mask (fun o =>
        o.dst = (if kind = 5 ∨ kind = 8 then dstOf f.d.toNat (lanesNow f s cu) else []) ∧
        o.kind = .matrix { x with pages := pages }) s cu t ∧
      KeepsMem s t (fun a => ∃ e ∈ pages, e.2.entry ≤ a ∧ a < e.2.entry + 8)

/-- R302, R303, R305 to R311: MATRIX_OP_START starts the next operation of its unit once the unit is idle and its tile free. MATRIX_OP_COMPLETE, in a
block that is resident, reads one word of the tile store, or moves one word, or performs a step whose words have all been read: aczero clears
the enabled rows, acwr writes its column, mmx, mmxl and acep perform their step. An operation without anything left writes D and is over. -/
def Sys2Proof.Claims.MatrixOperationsComplete : Prop :=
  ∀ s (o : Op) m, findOp s o.id = some o → o.kind = .matrix m →
    let b := blkOf o.w
    let n := tileElemBytes m.ty
    let lanes := (lanesOf o.lanes).take (if m.d ≥ 0xC0 ∧ m.d < 0xE0 then 1 else 32)
    let left (m' : MxOp) (t : State) : Prop := findOp t o.id = some { o with kind := .matrix m' }
    (mxCanStart s o m = true → ∃ t, exec (.matrixOpStart o.id) s = .next t ∧ t = { s with ops := t.ops } ∧ left { m with started := true } t) ∧
    (mxCanStart s o m = false → exec (.matrixOpStart o.id) s = .next s) ∧
    (mxCanComplete s o m = true → mxStall s o m = none →
      (mxBusy m = true → m.kind ≠ 3 → m.kind ≠ 4 → mxUnread m m.step ≠ [] →
        ∃ t i w, exec (.matrixOpComplete o.id 0) s = .next t ∧ t = { s with ops := t.ops } ∧ m.step ≤ i ∧ i < m.count ∧ w ∈ mxUnread m i ∧
          left { m with got := (mxKeyOf i w, rdMem s (tileBase b + 8 * w) 8) :: m.got } t) ∧
      (mxBusy m = true → m.kind ≠ 3 → m.kind ≠ 4 → mxUnread m m.step = [] →
        ∃ t, exec (.matrixOpComplete o.id 0) s = .next t ∧ t.vregs = s.vregs ∧ t.sregs = s.sregs ∧
          left { m with step := m.step + 1, got := m.got.filter (fun e => e.1 % 2 ^ 12 ≠ m.step) } t ∧
          (m.kind = 0 → (∀ r ∈ mxRows m, ∀ i, i < mxRowBytes m → rdByte t (elemKey b m.tile m.ty r 0 + i) = 0) ∧
            KeepsMem s t (fun a => ∃ r ∈ mxRows m, elemKey b m.tile m.ty r 0 ≤ a ∧ a < elemKey b m.tile m.ty r 0 + mxRowBytes m)) ∧
          (m.kind = 1 ∨ m.kind = 2 → t.mem = (mxStep s (mxView s b m m.step) b m m.step).mem ∧
            t.tstat = (mxStep s (mxView s b m m.step) b m m.step).tstat) ∧
          (m.kind = 6 → ((m.data.map (·.1)).Nodup → ∀ e ∈ m.data, rdElem t b m.tile m.ty (selRow m e.1) (selCol m) = e.2 % 2 ^ (8 * n)) ∧
            KeepsMem s t (fun a => ∃ e ∈ m.data, elemKey b m.tile m.ty (selRow m e.1) (selCol m) ≤ a ∧
              a < elemKey b m.tile m.ty (selRow m e.1) (selCol m) + n)) ∧
          (m.kind = 7 → t.mem = (mxEpilogue s (mxView s b m 0) b m).mem)) ∧
      (mxBusy m = true → m.kind = 3 ∨ m.kind = 4 → m.ts = true → heldFor s b = false → tilePoisoned s b m.tile = false → mxUnmoved m ≠ [] →
        ∃ t, ∃ k ∈ mxUnmoved m, exec (.matrixOpComplete o.id 0) s = .next t ∧ t.vregs = s.vregs ∧ t.sregs = s.sregs ∧
          left { m with got := (k, 0) :: m.got } t ∧
          let src := if m.kind = 3 then tileBase b + mxStoreOff m k else mxTileWord b m k
          let dst := if m.kind = 3 then mxTileWord b m k else tileBase b + mxStoreOff m k
          rdMem t dst 8 = rdMem s src 8 ∧ KeepsMem s t (fun a => dst ≤ a ∧ a < dst + 8)) ∧
      (mxBusy m = false → m.obj = 0 → o.push = none → tilePoisoned s b m.tile = false → m.flags = 0 →
        ∃ t, exec (.matrixOpComplete o.id 0) s = .next t ∧ (m.kind ≠ 4 → t.mem = s.mem) ∧
          (m.kind = 5 → Completes o (lanes.map (fun l => (m.d, l,
            let v := rdElem s b m.tile m.ty (selRow m l) (selCol m)
            (⟨.v, if m.ty = 2 then (BitVec.ofNat 32 v).signExtend 64 else BitVec.ofNat 64 v⟩ : TWord)))) s t) ∧
          (m.kind = 8 → Completes o (lanes.map (fun l => (m.d, l, (⟨.v, getTstat s b m.tile⟩ : TWord)))) s t ∧
            ∀ b' n, n < 192 → m.tile < 192 → getTstat t b' n = if m.clr = true ∧ b' = b ∧ n = m.tile then 0 else getTstat s b' n) ∧
          (m.kind ≠ 5 → m.kind ≠ 8 → t.vregs = s.vregs ∧ t.sregs = s.sregs ∧ t.ops = s.ops.filter (fun e => decide (e.id ≠ o.id)))))

/-- R296, R297, R302, R303, R305 to R311: matrix operations are entered, start and complete. -/
def Obligations.MatrixOperations : Prop := Claims.MatrixOperationsStart ∧ Claims.MatrixOperationsComplete

/-! ### Version regions and checkpoints -/

namespace Sys2Proof.Claims

/-- The requests to a region's home die: instruction, encoding row, the operation it sends, what its page and operands must be, whether it
acquires, whether it goes through a page (R327, R329 to R331, R337). -/
def versionRows (f : Fields) (s : State) (cu : Cur) (lf : Leaf) : List (Instr × OpSpec × VerOp × Prop × Bool × Bool) :=
  let l := lowLane (getSplit s cu.w cu.k).mask
  let u := atIssue s cu
  let op (kind : Nat) (flag : Bool) (sel : Nat) (region : Option Nat) (step : Nat) : VerOp :=
    { kind := kind, flag := flag, sel := sel, region := region, step := step, d := f.d.toNat, lanes := lanesNow f s cu }
  let agent (spec : OpSpec) := agentC (ctxOf spec f s cu) u
  let va (spec : OpSpec) := (inA spec f s cu l).data.toNat
  let after (spec : OpSpec) := touch u (agent spec) (va spec) lf false
  [(.vopen f, specVopen, op 0 (mdFlag f) 0 (activeRegion (after specVopen) (leafRegion (after specVopen) lf)) (inB specVopen f s cu l).data.toNat,
    (inA specVopen f s cu l).tag = .v ∧ (inB specVopen f s cu l).tag = .v ∧ (mdFlag f = true ∨ (inB specVopen f s cu l).data.toNat < 2 ^ 32) ∧
      verPage u (agent specVopen) (va specVopen) .load = .page lf, true, true),
   (.vpub f, specVpub, op 2 false 0 (activeRegion u (leafRegion u lf)) 0,
    (inA specVpub f s cu l).tag = .v ∧ verPage u (agent specVpub) (va specVpub) .store = .page lf ∧
      (∀ r, activeRegion u (leafRegion u lf) = some r → rgWstep (rdRegion u r) ≠ 2 ^ 32 - 1 ∧ stepsTaken u r = false), false, true),
   (.vclose f, specVclose,
    { kind := 3, flag := false, sel := 0, region := some (va specVclose / 2 ^ 32), step := va specVclose % 2 ^ 32, d := 0xE4, lanes := [] },
    (inA specVclose f s cu l).tag = .v ∧ badHandle u (inA specVclose f s cu l).data = false, false, false),
   (.vinfo f, specVinfo, op 4 false f.ty.toNat (leafRegion u lf) ((inB specVinfo f s cu l).data.toNat % 2 ^ 32),
    (inA specVinfo f s cu l).tag = .v ∧ (inB specVinfo f s cu l).tag = .v ∧ verPage u (agent specVinfo) (va specVinfo) .load = .page lf, false, true),
   (.ckpt f, specCkpt, op 5 (mdFlag f) 0 (some (va specCkpt / 2 ^ 32)) (va specCkpt % 2 ^ 32),
    (inA specCkpt f s cu l).tag = .v ∧ badHandle u (inA specCkpt f s cu l).data = false, false, false)]

end Sys2Proof.Claims

/-- R327, R329 to R331, R337, R339: vopen, vpub, vclose, vinfo and ckpt with V operands that pass their checks send one operation on EX to the
home die and go on; ckwait on a ticket that has ended writes its status to D, and one that has not waits, or under .try nullifies D. -/
def Obligations.VersionRequests : Prop :=
  ∀ f s cu, provisional s (blkOf cu.w) = false → isQ f.d = false →
    (∀ lf i spec v p acq page, (i, spec, v, p, acq, page) ∈ versionRows f s cu lf → issues spec f s cu = true → p →
      ∃ t, exec i s = .next t ∧ GoesHeld (if acq then [s.nextOp] else []) f s cu t ∧ KeepsRegs 0xFF s cu t ∧ t.fsr = s.fsr ∧
        Starts (some .ex) (getSplit s cu.w cu.k).mask (fun o => o.kind = .version v ∧ o.dst = (if i = .vclose f then [] else dstOf f.d.toNat (lanesNow f s cu)))
          s cu t ∧
        KeepsMem s t (fun a => page = true ∧ lf.entry ≤ a ∧ a < lf.entry + 8)) ∧
    (issues specCkwait f s cu = true →
      let a := inA specCkwait f s cu (lowLane (getSplit s cu.w cu.k).mask)
      let r := a.data.toNat / 2 ^ 32 % 4096
      let q := a.data.toNat % 2 ^ 32
      a.tag = .v → a.data.toNat < 2 ^ 44 → rgCkdesc (rdRegion s r) ≠ 0 → q ≤ ckCseq (ckDesc s r) →
      ∃ t, exec (.ckwait f) s = .next t ∧ KeepsRegs f.d.toNat s cu t ∧ t.mem = s.mem ∧
        (∀ v, ckStatus s r q = some v → Goes f s cu t ∧ ∀ l ∈ activeLanes s cu, f.d.toNat < 0xE0 → rdReg t cu.w f.d.toNat l = ⟨.v, v⟩) ∧
        (ckStatus s r q = none → mdFlag f = true → Goes f s cu t ∧
          ∀ l ∈ activeLanes s cu, isV f.d = true → rdReg t cu.w f.d.toNat l = ⟨.n, (oldOf f s cu l).data⟩) ∧
        (ckStatus s r q = none → mdFlag f = false → (getSplit t cu.w cu.k).susp = some (.ckwait r q) ∧
          (getSplit t cu.w cu.k).pc = (getSplit s cu.w cu.k).pc))

namespace Sys2Proof.Claims

/-- Entry i of the pin table of a region takes the value v, and no other byte of memory changes (R317). -/
def PinEntry (s : State) (r i v : Nat) (t : State) : Prop :=
  rdMem t ((regionView s r).pins + 8 * i) 8 = v ∧
    KeepsMem s t (fun a => (regionView s r).pins + 8 * i ≤ a ∧ a < (regionView s r).pins + 8 * i + 8)

/-- The entry of a step in the pin table: its number, the step, its count. -/
def pinOf (s : State) (r st : Nat) : Option (Nat × Nat × Nat) := (pinEntries s r).find? (fun e => decide (e.2.1 = st))

/-- R317: a pin of a step is added, to its entry or in a free one. -/
def PinAdded (s : State) (r st : Nat) (t : State) : Prop :=
  (∀ e, pinOf s r st = some e → PinEntry s r e.1 (st + (e.2.2 + 1) * 2 ^ 32) t) ∧
    (pinOf s r st = none → ∃ i < 16, (∀ e ∈ pinEntries s r, e.1 ≠ i) ∧ PinEntry s r i (st + 2 ^ 32) t)

/-- R317: a pin of a step is removed; a step without an entry has none. -/
def PinDropped (s : State) (r st : Nat) (t : State) : Prop :=
  (∀ e, pinOf s r st = some e → PinEntry s r e.1 (if e.2.2 ≤ 1 then 0 else st + (e.2.2 - 1) * 2 ^ 32) t) ∧
    (pinOf s r st = none → t.mem = s.mem)

end Sys2Proof.Claims

/-- R317, R327, R330, R331: what the home die answers to vopen, vclose and vinfo: a refusal is its code under tag N, a pin the handle of its step, vinfo the
word asked for. vopen adds a pin of its step and vclose removes one. A refusal changes no byte of memory. -/
def Sys2Proof.Claims.PinServices : Prop :=
  ∀ s (o : Op) v, findOp s o.id = some o → o.kind = .version v → o.push = none → homeOn s v = true →
    (v.kind = 0 →
      ∃ t, exec (.versionHomeService o.id) s = .next t ∧
        (activeRegion s v.region = none → Completes o (verResult v ⟨.n, 4⟩) s t ∧ t.mem = s.mem) ∧
        (∀ r, activeRegion s v.region = some r →
          let w := rgWstep (rdRegion s r)
          let st := if v.flag then w - 1 else v.step
          (w ≤ st → Completes o (verResult v ⟨.n, 1⟩) s t ∧ t.mem = s.mem) ∧
          (st < w → stepLive s r st = false → Completes o (verResult v ⟨.n, 2⟩) s t ∧ t.mem = s.mem) ∧
          (st < w → stepLive s r st = true → addPin s r st = none → Completes o (verResult v ⟨.n, 3⟩) s t ∧ t.mem = s.mem) ∧
          (st < w → stepLive s r st = true → (addPin s r st).isSome = true →
            Completes o (verResult v ⟨.v, BitVec.ofNat 64 (r * 2 ^ 32 + st)⟩) s t ∧ (s.swc = [] → PinAdded s r st t)))) ∧
    (∀ r, v.kind = 3 → v.region = some r →
      ∃ t, exec (.versionHomeService o.id) s = .next t ∧ t = { s with mem := t.mem, ops := s.ops.filter (fun e => decide (e.id ≠ o.id)) } ∧
        PinDropped s r v.step t) ∧
    (v.kind = 4 → ∃ t, exec (.versionHomeService o.id) s = .next t ∧ Completes o (verResult v (vinfoAt s v)) s t ∧ t.mem = s.mem)

/-- R329, R337, R468: VPUB_SERVICE answers the step that it publishes, and the working step of the region is the next one; a ckpt is refused with its code, or
its checkpoint is in progress and the ticket names its number. An engine of an absent stack serves nothing. -/
def Sys2Proof.Claims.StepServices : Prop :=
  ∀ s (o : Op) v, findOp s o.id = some o → o.kind = .version v → o.push = none →
    (homeOn s v = false → exec (.versionHomeService o.id) s = .next s ∧ exec (.vpubService o.id) s = .next s) ∧
    (v.kind = 2 → vpubReady s o v = true →
      ∃ t, exec (.vpubService o.id) s = .next t ∧
        (activeRegion s v.region = none → Completes o (verResult v ⟨.n, 4⟩) s t ∧ t.mem = s.mem) ∧
        (∀ r, activeRegion s v.region = some r →
          Completes o (verResult v ⟨.v, BitVec.ofNat 64 (rgWstep (rdRegion s r))⟩) s t ∧
          (s.swc = [] → s.prov = [] → rgWstep (rdRegion t r) = (rgWstep (rdRegion s r) + 1) % 2 ^ 32))) ∧
    (∀ r, v.kind = 5 → v.region = some r → homeOn s v = true →
      let next := v.step + 1 = rgWstep (rdRegion s r)
      let none_ := rgCkdesc (rdRegion s r) = 0 ∨ ckKind (ckDesc s r) = 0
      ∃ t, exec (.versionHomeService o.id) s = .next t ∧
        (¬next → Completes o (verResult v ⟨.n, 1⟩) s t ∧ t.mem = s.mem) ∧
        (next → ckActive s r = true → Completes o (verResult v ⟨.n, 2⟩) s t ∧ t.mem = s.mem) ∧
        (next → ckActive s r = false → none_ → Completes o (verResult v ⟨.n, 3⟩) s t ∧ t.mem = s.mem) ∧
        (next → ckActive s r = false → ¬none_ →
          Completes o (verResult v ⟨.v, BitVec.ofNat 64 (r * 2 ^ 32 + (ckCseq (ckDesc s r) + 1) % 2 ^ 32)⟩) s t ∧
          ∃ run, (getCk t r).run = some run ∧ run.step = v.step ∧ (v.flag = true → run.full = true)))

/-- R321, R339, R340: COPY_ON_WRITE gives a page that is waited for a working frame where one can be had; a checkpoint that its manifest ends,
or that fails, is no longer in progress; the period of a checkpoint arms its region. -/
def Sys2Proof.Claims.FramesAndCheckpoints : Prop :=
  ∀ s,
    (∀ vdb u, vdb ∈ framesWanted s → allocFrame s vdb = .ok u → ∃ t, exec (.copyOnWrite vdb) s = .next t ∧ vdbWv (rdVdb t vdb) = true ∧
      t.vregs = s.vregs ∧ t.sregs = s.sregs ∧ t.warps = s.warps ∧ t.ops = s.ops) ∧
    (∀ r, (getCk s r).run.isSome = true → ∃ t, exec (.checkpointManifestWrite r) s = .next t ∧ (getCk t r).run = none ∧
      t.vregs = s.vregs ∧ t.sregs = s.sregs ∧ t.warps = s.warps ∧ t.ops = s.ops) ∧
    (∀ r, (getRegion s r).isSome = true → rgCkdesc (rdRegion s r) ≠ 0 → bitsOf (ckDesc s r) 223 192 ≠ 0 →
      ∃ t, exec (.checkpointPeriodElapsed r) s = .next t ∧ t = { s with cks := t.cks } ∧ (getCk t r).armed = true ∧
        ∀ q, q ≠ r → getCk t q = getCk s q)

/-- R317, R321, R327, R329 to R331, R337, R339, R340, R468: the home die's answers, frames and checkpoints. -/
def Obligations.Versions : Prop := Claims.PinServices ∧ Claims.StepServices ∧ Claims.FramesAndCheckpoints

/-! ### Ray traversal -/

namespace Sys2Proof.Claims

/-- The words of a lane at the four registers of a ray (R377), and at n registers from a code on. -/
def wordsAt (s : State) (cu : Cur) (code : BitVec 8) (n l : Nat) : List TWord :=
  (List.range n).map (fun j => readReg (atIssue s cu) cu.w (code.toNat + j) l (issueTime s cu.w cu.k))

/-- The query that rtrace launches in a lane (R390). -/
def queryOf (ctx : RayCtx) (f : Fields) (sup : Bool) (ray : Nat) : Query :=
  let md := (modOf f).toNat
  { Query.idle with
    st := if rayValid ray then 1 else 3, ray := ray, ctx := ctx, any := md.testBit 0, unord := md.testBit 1, opq := md.testBit 3,
    pred := ctlPred ctx && !md.testBit 1 && !md.testBit 2, sup := sup }

/-- A pass of an unordered query is still to be finished (R385, R391). -/
def passLeft (q : Query) : Bool := q.unord && (!q.stack.isEmpty || q.walk.isSome)

/-- A query whose candidates rtres has rejected: it is done, unless it goes on with its traversal, rejecting what it meets (R391). -/
def rejectedQuery (q : Query) : Query :=
  if q.st ≠ 2 then q
  else if passLeft q then { q with cands := [], pending := none, drain := true }
  else { q with st := 3, cands := [], pending := none, more := false, stack := [], walk := none, drain := false }

/-- The answer of rtres (1) or rtcand (2) needs a pass of the query (R390 to R392). -/
def needsPass (kind : Nat) (q : Query) : Bool :=
  decide (q.st = 1) || (if kind = 1 then decide (q.st = 2) && passLeft q else candWaits q)

/-- What rtres (1) or rtcand (2) makes at issue of a query that it answers later: rtcand rejects the pending candidate, and rtres, unless an earlier
operation of the lane comes first, every candidate. -/
def laterQuery (kind : Nat) (pending : Bool) (q : Query) : Query :=
  if kind = 1 ∧ pending = false then rejectedQuery q else { q with pending := none }

/-- The answer of rtres (1) or rtcand (2): what is left of the query, and three words. -/
def answerOf (kind : Nat) (q : Query) (old : List TWord) : Query × List TWord :=
  if kind = 1 then (rejectedQuery q, resultWords (rejectedQuery q) old) else takeCand { q with pending := none } old

/-- POISON_CONSUMED of the lanes given, in which some word of a group is X, with the first X of each. -/
def groupPoison (s : State) (cu : Cur) (bad : List Nat) (ws : Nat → List TWord) : TrapReq :=
  { cause := causePoison, sub := 0, lanes := maskOf (fun l => bad.contains l), retry := (getSplit s cu.w cu.k).mask,
    vals := bad.map (fun l => (l, (((ws l).find? (fun x => decide (x.tag = .x))).map (fun x => x.data)).getD 0)) }

/-- What rtacc makes of a query by the tag of A (R392): a pending candidate is accepted under V and dropped under N; it ends an ordered
query, and leaves an unordered one those candidates that are below it. -/
def acceptedQuery (q : Query) (tag : Tag) : Query :=
  match q.pending with
  | none => q
  | some h =>
    if tag ≠ .v then { q with pending := none }
    else if q.unord then
      { q with pending := none, best := leastHit q.best { h with kind := 2 }, cands := q.cands.filter (fun x => !hitBelow { h with kind := 2 } x) }
    else { q with st := 3, best := some { h with kind := 2 }, cands := [], pending := none, more := false }

/-- The answer of rtbox: V on a hit with entry and exit; a miss is N, with the interval where the test gives one (R393). -/
def boxAnswer (ray box : Nat) (v : TWord) : Prop :=
  match (if rayValid ray then boxTest ray box else none) with
  | some x => v = ⟨if boxHit x then .v else .n, BitVec.ofNat 64 (x.1 + x.2 * 2 ^ 32)⟩
  | none => v.tag = .n

/-- The answer of rttri: t and u, then v, under V on a hit and N on a miss (R393). -/
def triAnswer (ray tri : Nat) (a b : TWord) : Prop :=
  match (if rayValid ray then triTest ray tri else none) with
  | some x =>
    let tg : Tag := if triHit (rayMin ray) (rayMax ray) x then .v else .n
    a = ⟨tg, BitVec.ofNat 64 (x.1 + x.2.1 * 2 ^ 32)⟩ ∧ b = ⟨tg, BitVec.ofNat 64 x.2.2⟩
  | none => a.tag = .n ∧ b.tag = .n

end Sys2Proof.Claims

/-- R389, R390: rtbind binds a context that is well formed; rtrace launches a query in each lane whose ray has no N word, and one operation on EX
that ends with the last of them. An X word of a ray traps, before the context is looked at; without a bound context rtrace traps. -/
def Sys2Proof.Claims.QueriesStart : Prop :=
  (∀ f s cu, issues specRtbind f s cu = true →
    let l := lowLane (getSplit s cu.w cu.k).mask
    let a := inA specRtbind f s cu l
    let b := inB specRtbind f s cu l
    let c := inC specRtbind f s cu l
    a.tag = .v → c.tag = .v → (c.data.getLsbD 10 = true → b.tag = .v) → bindBad a.data.toNat b.data.toNat c.data.toNat = false →
    ∃ t, exec (.rtbind f) s = .next t ∧ t = issueFrame s t ∧ Advances f s cu t ∧ (∀ w, w ≠ cu.w → getWarp t w = getWarp s w) ∧
      (getWarp t cu.w).ray = some { root := a.data, handle := b.data, ctl := c.data }) ∧
  (∀ f s cu ctx, issues specRtrace f s cu = true → boundCtx (getWarp s cu.w) (issueTime s cu.w cu.k) = some ctx →
    (∀ l ∈ activeLanes s cu, ∀ x ∈ wordsAt s cu f.a 4 l, x.tag ≠ .x) →
    let go := (activeLanes s cu).filter (fun l => (wordsAt s cu f.a 4 l).all (fun x => decide (x.tag = .v)))
    let q l := queryOf ctx f (getSplit s cu.w cu.k).sup (joinRay (wordsAt s cu f.a 4 l))
    let run := go.filter (fun l => rayValid (joinRay (wordsAt s cu f.a 4 l)))
    ∃ t, exec (.rtrace f) s = .next t ∧ Goes f s cu t ∧ t = { issueFrame s t with rays := t.rays, ops := t.ops, nextOp := t.nextOp } ∧
      (∀ w l, l < 32 → getQuery t w l = if w = cu.w ∧ go.contains l = true then q l else getQuery s w l) ∧
      (run = [] → t.nextOp = s.nextOp) ∧
      (run ≠ [] → t.nextOp = s.nextOp + 1 ∧ ∃ o ∈ t.ops, o.id = s.nextOp ∧ o.w = cu.w ∧ o.cls = some .ex ∧ o.kind = .ray 0 0 run [] ∧
        o.lanes = maskOf (fun l => run.contains l))) ∧
  (∀ f s cu, issues specRtrace f s cu = true → (getSplit s cu.w cu.k).sup = false →
    let bad := (activeLanes s cu).filter (fun l => (wordsAt s cu f.a 4 l).any (fun x => decide (x.tag = .x)))
    let r := groupPoison s cu bad (wordsAt s cu f.a 4)
    (bad ≠ [] → (∀ e ∈ r.vals, payloadCause e.2 ≠ causePoolLost ∧ payloadCause e.2 ≠ causeMemUe) →
      ((getWarp s cu.w).tvec.getLsbD 0 && (getWarp s cu.w).tvec.getLsbD 1) = false →
      ∃ t, exec (.rtrace f) s = .next t ∧ Enters true (supVec s cu) r s cu t) ∧
    (bad = [] → boundCtx (getWarp s cu.w) (issueTime s cu.w cu.k) = none →
      ∃ t, exec (.rtrace f) s = .next t ∧ Enters true (supVec s cu) (trapAll causeIllegalOperand 0x0C (getSplit s cu.w cu.k).mask) s cu t))

/-- R391, R392: rtacc settles the pending candidate of each lane that no rtres or rtcand under way has rejected; rtres and rtcand answer the lanes that
need no traversal at issue, leave the others to their operation, and reject the candidates of both. -/
def Sys2Proof.Claims.QueriesAnswer : Prop :=
  (∀ f s cu, issues specRtacc f s cu = true → (∀ l ∈ activeLanes s cu, (inA specRtacc f s cu l).tag ≠ .x) →
    ∃ t, exec (.rtacc f) s = .next t ∧ Goes f s cu t ∧ t = { issueFrame s t with rays := t.rays } ∧
      ∀ w l, l < 32 → getQuery t w l =
        if w = cu.w ∧ activeIn s cu l = true ∧ lanePending s cu.w l s.nextOp = false
        then acceptedQuery (getQuery s w l) (inA specRtacc f s cu l).tag else getQuery s w l) ∧
  (∀ f s cu i spec kind, (i, spec, kind) ∈ [(Instr.rtres f, specRtres, 1), (Instr.rtcand f, specRtcand, 2)] → issues spec f s cu = true →
    let q l := getQuery s cu.w l
    let pending l := lanePending s cu.w l s.nextOp
    let waits l := (decide (kind = 1) || (q l).any) && (pending l || needsPass kind (q l))
    let now := (activeLanes s cu).filter (fun l => !waits l)
    let a l := answerOf kind (q l) (oldThree s cu.w f.d.toNat l)
    ∃ t, exec i s = .next t ∧ Goes f s cu t ∧ t = { issueFrame s t with rays := t.rays, ops := t.ops, nextOp := t.nextOp } ∧
      (∀ w l, l < 32 → getQuery t w l =
        if w = cu.w ∧ activeIn s cu l = true then (if waits l then laterQuery kind (pending l) (q l) else (a l).1) else getQuery s w l) ∧
      Starts (some .ex) (getSplit s cu.w cu.k).mask (fun o =>
        o.dst = (List.range 3).flatMap (fun j => dstOf (f.d.toNat + j) (activeLanes s cu)) ∧
        o.kind = .ray kind f.d.toNat ((activeLanes s cu).filter waits) (now.flatMap (fun l => groupWrites f.d.toNat l (a l).2))) s cu t)

/-- R380, R385, R390 to R392, R399: RAY_QUERY_DONE takes one step of the pass that the oldest operation of a lane needs: a pass that is not predicted begins at the
root, and each further step visits a node. Where none is needed, or the thread's earlier accesses are outstanding, nothing changes. An rtrace is
over with its last lane; an rtres or rtcand takes the words of each lane whose turn has come, and writes them with the last. -/
def Sys2Proof.Claims.QueriesRun : Prop :=
  (∀ s w l (o : Op) kind d ls ws, l < 32 → laneOp s w l = some (o, kind) → findOp s o.id = some o → o.kind = .ray kind d ls ws →
    let q := if kind = 1 then rejectedQuery (getQuery s w l) else getQuery s w l
    let due := if kind = 0 then decide (q.st = 1) && !rayEarlier s o l else needsPass kind q
    (due = false → exec (.rayQueryDone w l) s = .next s) ∧
    (due = true → passStep s (rayAgent s o q) o.routes q = .held → exec (.rayQueryDone w l) s = .next s) ∧
    (∀ u q', due = true → passStep s (rayAgent s o q) o.routes q = .ok u q' →
      ∃ t, exec (.rayQueryDone w l) s = .next t ∧ t = { u with rays := t.rays, ops := t.ops } ∧ t.vregs = s.vregs ∧ t.sregs = s.sregs ∧
        getQuery t w l = q' ∧ (∀ v k, k < 32 → ¬(v = w ∧ k = l) → getQuery t v k = getQuery s v k) ∧
        let rest := ls.filter (fun k => decide (k ≠ l))
        t.ops = (if kind = 0 ∧ q'.st ≠ 1 then
            (if rest = [] then s.ops.filter (fun e => decide (e.id ≠ o.id))
             else s.ops.map (fun e => if e.id = o.id then { e with kind := .ray 0 d rest ws } else e))
          else s.ops)) ∧
    (kind = 0 → due = true → q.walk = none → q.pred = false →
      ∃ t k, exec (.rayQueryDone w l) s = .next t ∧ t.mem = s.mem ∧ getQuery t w l = { q with walk := some k } ∧ k.best = none ∧ k.cands = [] ∧
        ∃ r, k.stack = [r] ∧ r.ref = q.ctx.root.toNat ∧ r.ray = q.ray ∧ r.depth = 0)) ∧
  (∀ s (o : Op) kind d ws, findOp s o.id = some o → o.push = none → o.kind = .ray kind d [] ws → kind ≠ 0 →
    ∃ t, exec (.exOperationComplete o.id) s = .next t ∧ Completes o ws s t ∧ t.mem = s.mem ∧ t.rays = s.rays) ∧
  (∀ s (o : Op) kind d l ls ws, findOp s o.id = some o → o.kind = .ray kind d (l :: ls) ws → kind ≠ 0 → l < 32 →
    lanePending s o.w l o.id = false → needsPass kind (getQuery s o.w l) = false →
    let a := answerOf kind (getQuery s o.w l) (oldThree s o.w d l)
    ∃ t, exec (.exOperationComplete o.id) s = .next t ∧ t = { s with rays := t.rays, ops := t.ops } ∧ getQuery t o.w l = a.1 ∧
      findOp t o.id = some { o with kind := .ray kind d (ls.filter (fun y => decide (y ≠ l))) (ws ++ groupWrites d l a.2) })

/-- R380, R385, R389 to R392, R399: queries start, run and are answered. -/
def Obligations.RayQueries : Prop := Claims.QueriesStart ∧ Claims.QueriesAnswer ∧ Claims.QueriesRun

/-- R39, R393, R398: rtbox and rttri answer the lanes without an N word by an operation on EX, and nullify the others at once; lhtinv empties
one partition of the core's table or all of them, with their counts; lhtstat answers with the counts of a partition and
its entries in use, of which there are at most 512 in a table of four ways a set. The completion of an
operation on EX that needs nothing further writes its results. -/
def Obligations.RayTestsAndHints : Prop :=
  (∀ f s cu, issues specRtbox f s cu = true → isQ f.d = false →
    (∀ l ∈ activeLanes s cu, ∀ x ∈ wordsAt s cu f.a 4 l ++ wordsAt s cu f.b 3 l, x.tag ≠ .x) →
    let live := (activeLanes s cu).filter (fun l => (wordsAt s cu f.a 4 l ++ wordsAt s cu f.b 3 l).all (fun x => decide (x.tag = .v)))
    ∃ t, exec (.rtbox f) s = .next t ∧ Goes f s cu t ∧ t.mem = s.mem ∧ t.fsr = s.fsr ∧ KeepsRegs f.d.toNat s cu t ∧
      (∀ l ∈ activeLanes s cu, live.contains l = false → isV f.d = true → rdReg t cu.w f.d.toNat l = ⟨.n, (oldOf f s cu l).data⟩) ∧
      (live = [] → t.ops.map Op.bare = s.ops.map Op.bare) ∧
      (live ≠ [] → Starts (some .ex) (getSplit s cu.w cu.k).mask (fun o => o.dst = dstOf f.d.toNat live ∧
        ∃ v : Nat → TWord, o.kind = .result (live.map (fun l => (f.d.toNat, l, v l))) ∧
          ∀ l ∈ live, boxAnswer (joinRay (wordsAt s cu f.a 4 l)) (joinRay (wordsAt s cu f.b 3 l)) (v l)) s cu t)) ∧
  (∀ f s cu, issues specRttri f s cu = true →
    (∀ l ∈ activeLanes s cu, ∀ x ∈ wordsAt s cu f.a 4 l ++ wordsAt s cu f.b 5 l, x.tag ≠ .x) →
    let live := (activeLanes s cu).filter (fun l => (wordsAt s cu f.a 4 l ++ wordsAt s cu f.b 5 l).all (fun x => decide (x.tag = .v)))
    ∃ t, exec (.rttri f) s = .next t ∧ Goes f s cu t ∧ t.mem = s.mem ∧ t.fsr = s.fsr ∧
      (∀ l ∈ activeLanes s cu, ∀ j < 2, live.contains l = false →
        rdReg t cu.w (f.d.toNat + j) l = ⟨.n, (rdReg s cu.w (f.d.toNat + j) l).data⟩) ∧
      (live = [] → t.ops.map Op.bare = s.ops.map Op.bare) ∧
      (live ≠ [] → Starts (some .ex) (getSplit s cu.w cu.k).mask (fun o => o.dst = dstOf f.d.toNat live ++ dstOf (f.d.toNat + 1) live ∧
        ∃ a b : Nat → TWord, o.kind = .result (live.flatMap (fun l => [(f.d.toNat, l, a l), (f.d.toNat + 1, l, b l)])) ∧
          ∀ l ∈ live, triAnswer (joinRay (wordsAt s cu f.a 4 l)) (joinRay (wordsAt s cu f.b 5 l)) (a l) (b l)) s cu t)) ∧
  (∀ f s cu, issues specLhtinv f s cu = true →
    let part p := (modOf f).getLsbD 4 || decide (p = (modOf f).toNat % 16)
    ∃ t, exec (.lhtinv f) s = .next t ∧ Goes f s cu t ∧ t = { issueFrame s t with lht := t.lht, lhtCnt := t.lhtCnt } ∧
      ∀ core p, p < 16 → (lhtCount t core p = if core = coreOf s cu.w ∧ part p = true then (0, 0) else lhtCount s core p) ∧
        ∀ n < 128, lhtWays t (lhtKey core p n) = if core = coreOf s cu.w ∧ part p = true then [] else lhtWays s (lhtKey core p n)) ∧
  (∀ f s cu, issues specLhtstat f s cu = true → isQ f.d = false →
    let p := (modOf f).toNat % 16
    let x := lhtCount s (coreOf s cu.w) p
    let ways := ((s.lht.filter (fun e => decide (e.1 / 128 = 16 * coreOf s cu.w + p))).map (fun e => e.2.length)).sum
    ∃ t, exec (.lhtstat f) s = .next t ∧ Goes f s cu t ∧ t.mem = s.mem ∧ t.fsr = s.fsr ∧ t.lht = s.lht ∧ KeepsRegs f.d.toNat s cu t ∧
      Starts (some .ex) (getSplit s cu.w cu.k).mask (fun o => o.dst = dstOf f.d.toNat (lanesNow f s cu) ∧
        o.kind = .result ((lanesNow f s cu).map (fun l => (f.d.toNat, l, ⟨.v, BitVec.ofNat 64 (x.2 * 2 ^ 40 + x.1 * 2 ^ 16 + ways)⟩)))) s cu t ∧
      (swf [] s.lht = true → (∀ e ∈ s.lht, e.2.length ≤ 4) → ways ≤ 512) ∧
      ∀ core q, q < 16 → lhtCount t core q = if (modOf f).getLsbD 4 = true ∧ core = coreOf s cu.w ∧ q = p then (0, 0) else lhtCount s core q) ∧
  (∀ s (o : Op) ws, findOp s o.id = some o → o.push = none → o.kind = .result ws →
    ∃ t, exec (.exOperationComplete o.id) s = .next t ∧ Completes o ws s t ∧ t.mem = s.mem ∧ t.warps = s.warps ∧ t.fsr = s.fsr)

/-! ### Dispatchers, mailboxes, nodes -/

/-- R355 to R359, R475: mbrecv and mbsend of lanes 0 to 7, spawn and rgn start what the text says: an operation that waits for a packet, one
that delivers one, one that the dispatcher answers with the regions given before it, one more region. MBSEND_DELIVERY puts the packet at
the end of the mailbox, MBRECV_RECEIVE gives the oldest packet to the oldest mbrecv, and NODE_MATCH makes a node of the oldest accepted
spawn: it depends on the nodes whose regions meet its own. That the vendor's dispatcher program takes a packet and asks for its node in one step is the
model's (log 7). -/
def Obligations.MailboxesAndSpawns : Prop :=
  (∀ f s cu, issues specMbrecv f s cu = true → isQ f.d = false → (∀ l < 8, activeIn s cu l = true) →
    ∃ t, exec (.mbrecv f) s = .next t ∧ Goes f s cu t ∧ t.mem = s.mem ∧ KeepsRegs 0xFF s cu t ∧
      Starts (some .ex) (getSplit s cu.w cu.k).mask (fun o => o.dst = dstOf f.d.toNat (List.range 8) ∧ o.kind = .mbrecv f.d.toNat) s cu t) ∧
  (∀ f s cu, issues specMbsend f s cu = true → (∀ l < 8, activeIn s cu l = true) → provisional s (blkOf cu.w) = false →
    let a := inA specMbsend f s cu (lowLane (getSplit s cu.w cu.k).mask)
    let b l := inB specMbsend f s cu l
    let typ := (b 0).data.toNat % 256
    a.tag = .v → a.data.toNat < 4 → (∀ l < 8, (b l).tag = .v) → (typ = 1 ∨ 16 ≤ typ ∨ ((typ = 2 ∨ typ = 3) ∧ (getBlock s (blkOf cu.w)).disp = true)) →
    ∃ t, exec (.mbsend f) s = .next t ∧ Goes f s cu t ∧ t = { issueFrame s t with ops := t.ops, nextOp := t.nextOp } ∧
      Starts (some .ex) (getSplit s cu.w cu.k).mask (fun o => o.dst = [] ∧
        o.kind = .mbsend a.data.toNat (BitVec.ofNat 64 (typ + dieOf s cu.w * 2 ^ 8) :: (List.range 7).map (fun i => (b (i + 1)).data))) s cu t) ∧
  (∀ f s cu, issues specSpawn f s cu = true → isQ f.d = false →
    let l := lowLane (getSplit s cu.w cu.k).mask
    let a := inA specSpawn f s cu l
    let b := inB specSpawn f s cu l
    let c := inC specSpawn f s cu l
    let x := c.data.toNat
    a.tag = .v → b.tag = .v → c.tag = .v → x < 2 ^ 10 → x / 2 ^ 5 % 8 = 0 → x / 2 ^ 8 ≠ 3 →
    ∃ t, exec (.spawn f) s = .next t ∧ Goes f s cu t ∧ t.mem = s.mem ∧ KeepsRegs 0xFF s cu t ∧
      (∀ d, sget [] t.rgns d = if d = dieOf s cu.w then [] else sget [] s.rgns d) ∧
      Starts (some .ex) (getSplit s cu.w cu.k).mask (fun o => o.dst = dstOf f.d.toNat (lanesNow f s cu) ∧
        o.kind = .spawn { a := a.data, b := b.data, c := c.data, try_ := (modOf f).getLsbD 0, nfy := (modOf f).getLsbD 1,
                          regs := sget [] s.rgns (dieOf s cu.w), d := f.d.toNat, share := none, rcd := none, desc := [], mask := 0 }) s cu t) ∧
  (∀ f s cu, issues specRgn f s cu = true →
    let a := inA specRgn f s cu (lowLane (getSplit s cu.w cu.k).mask)
    let b := inB specRgn f s cu (lowLane (getSplit s cu.w cu.k).mask)
    a.tag = .v → b.tag = .v → 1 ≤ b.data.toNat → b.data.toNat ≤ 2 ^ 48 → (sget [] s.rgns (dieOf s cu.w)).length < 8 →
    ∃ t, exec (.rgn f) s = .next t ∧ Goes f s cu t ∧ t = { issueFrame s t with rgns := t.rgns } ∧
      ∀ d, sget [] t.rgns d = if d = dieOf s cu.w then sget [] s.rgns d ++ [(a.data.toNat, b.data.toNat, (modOf f).toNat % 4)] else sget [] s.rgns d) ∧
  (∀ s (o : Op) d ws, findOp s o.id = some o → o.kind = .mbsend d ws → sendReady s o = true →
    ∃ t p, exec (.mbsendDelivery o.id) s = .next t ∧ getMail t d = getMail s d ++ [p] ∧ p.words = ws ∧ (∀ e, e ≠ d → getMail t e = getMail s e) ∧
      t.ops = s.ops.filter (fun e => decide (e.id ≠ o.id)) ∧ t.vregs = s.vregs ∧ t.sregs = s.sregs ∧ t.warps = s.warps) ∧
  (∀ s die p rest, recvReady s die = true → getMail s die = p :: rest → sget [] s.mailOut die = [] →
    (sget false s.ownProg die = true → ∀ o d, oldestRecv s die = some o → o.kind = .mbrecv d → o.push = none →
      ∃ t, exec (.mbrecvReceive die) s = .next t ∧ getMail t die = rest ∧
        Completes o ((List.range 8).map (fun i => (d, i, TWord.valid (p.words.getD i 0)))) s t) ∧
    (sget false s.ownProg die = false → packetType p = 1 → ∃ t, exec (.mbrecvReceive die) s = .next t ∧ getMail t die = rest ∧
      ∃ o ∈ t.ops, o.id = s.nextOp ∧ o.w = 32 * die ∧ ∃ x : SpawnOp, o.kind = .spawn x ∧ x.a = p.words.getD 1 0)) ∧
  (∀ s die, spawnOps s die = [] → exec (.nodeMatch die) s = .next s) ∧
  (∀ s die (o : Op) x r rec, spawnOps s die = (o, x) :: r → x.rcd = some rec → o.push = none →
    (nodeRoom s die x.regs.length = false → x.try_ = true →
      ∃ t, exec (.nodeMatch die) s = .next t ∧ Completes o [(x.d, 0, ⟨.n, 7⟩)] s t ∧ t.nodes = s.nodes ∧ t.mem = s.mem) ∧
    (nodeRoom s die x.regs.length = true → (rcGraph rec = true → dieGraphs s die = []) →
      ∃ t n, exec (.nodeMatch die) s = .next t ∧ Completes o [(x.d, 0, ⟨.v, BitVec.ofNat 64 (freeId s die)⟩)] s t ∧
        getNode t s.nextNode = some n ∧ n.id = freeId s die ∧ n.die = die ∧ n.rcd = rec ∧ n.lrec = x.a ∧ n.first = x.b.toNat % 2 ^ 32 ∧
        n.count = x.b.toNat / 2 ^ 32 ∧ n.nfy = x.nfy ∧ n.regs = x.regs ∧
        n.deps = ((dieNodes s die).filter (fun e => dependsOn e.2 (rcAsid rec) x.regs)).map (·.1) ∧
        ∀ k, k ≠ s.nextNode → getNode t k = getNode s k))

/-! ### Work graphs -/

/-- R364, R366 to R373: ralloc gives each V lane a free record of its node, at once under .try where no request waits and the pools suffice,
else in the order of the requests; rsub and rfree name records that the block holds, rbatch a node's batch, in an operation on EX that
RECORD_POOL_ARRIVAL performs: rsub's records enter the queue of their node in lane order, rbatch sets the batch and the timer of its node, and where the
queue then holds a whole batch its oldest records make a node of one block; rfetch and lvcoord answer with the batch's records and the block's coordinates. A timer that has run out cuts
the whole queue of its node. -/
def Obligations.GraphRecords : Prop :=
  (∀ f s cu gid g, issues specRalloc f s cu = true → blockGraph s (blkOf cu.w) = some (gid, g) →
    let vs := (activeLanes s cu).filterMap (fun l => if (inA specRalloc f s cu l).tag = .v then some (l, (inA specRalloc f s cu l).data) else none)
    let asks := vs.map (fun e => (e.1, e.2.toNat))
    let tried := (modOf f).getLsbD 0
    let fits := !g.reqs.any (liveReq s) && canGrant g asks
    vs ≠ [] → rallocCheck (some (gid, g)) (((blockNode s (blkOf cu.w)).map (fun n => n.gidx)).getD 0) vs = none →
    ∃ t, exec (.ralloc f) s = .next t ∧ t.mem = s.mem ∧ KeepsRegs f.d.toNat s cu t ∧
      (∀ l ∈ activeLanes s cu, isV f.d = true → (inA specRalloc f s cu l).tag ≠ .v → rdReg t cu.w f.d.toNat l =
        if (inA specRalloc f s cu l).tag = .x then ⟨.x, (inA specRalloc f s cu l).data⟩ else ⟨.n, (oldOf f s cu l).data⟩) ∧
      (tried = true → fits = true → getGraph t gid = some (takeRecords g (blkOf cu.w) asks).1 ∧
        (((takeRecords g (blkOf cu.w) asks).2.map (·.1)).Nodup → isV f.d = true →
          ∀ e ∈ (takeRecords g (blkOf cu.w) asks).2, e.1 < 32 → rdReg t cu.w f.d.toNat e.1 = ⟨.v, BitVec.ofNat 64 e.2⟩)) ∧
      (tried = true → fits = false → Goes f s cu t ∧ t.graphs = s.graphs ∧
        ∀ e ∈ vs, isV f.d = true → rdReg t cu.w f.d.toNat e.1 = ⟨.n, (oldOf f s cu e.1).data⟩) ∧
      (tried = false → (getSplit t cu.w cu.k).susp = some .records ∧ (getSplit t cu.w cu.k).pc = (getSplit s cu.w cu.k).pc ∧
        getGraph t gid = some { g with reqs := g.reqs.filter (fun r => !(decide (r.w = cu.w) && decide (r.k = cu.k))) ++
          [{ w := cu.w, k := cu.k, asks := asks, d := f.d.toNat }] })) ∧
  (∀ s gid g r, grantable s = some (gid, g, r) → ∃ t, exec .rallocGrant s = .next t ∧ t.mem = s.mem ∧
    getSplit t r.w r.k = { stepSplit (getSplit s r.w r.k) with next := max (getSplit s r.w r.k).next ((getCore s (coreOf s r.w)).cyc + 3) } ∧
    ∃ g', getGraph t gid = some g' ∧ g'.recs = (takeRecords g (blkOf r.w) r.asks).1.recs) ∧
  (∀ s, grantable s = none → exec .rallocGrant s = .next s) ∧
  (∀ f s cu i spec kind gid g, (i, spec, kind) ∈ [(Instr.rsub f, specRsub, 0), (Instr.rfree f, specRfree, 3)] → issues spec f s cu = true →
    blockGraph s (blkOf cu.w) = some (gid, g) → provisional s (blkOf cu.w) = false →
    let vs := (activeLanes s cu).filterMap (fun l => if (inA spec f s cu l).tag = .v then some (l, (inA spec f s cu l).data) else none)
    badRecords (recordUsable s gid g (blkOf cu.w) (decide (kind = 3))) [] vs = [] →
    ∃ t, exec i s = .next t ∧ Goes f s cu t ∧ t = { issueFrame s t with ops := t.ops, nextOp := t.nextOp } ∧ (vs = [] → t.ops = s.ops) ∧
      (vs ≠ [] → Starts (some .ex) (maskOf (fun l => vs.any (fun e => decide (e.1 = l)))) (fun o => o.dst = [] ∧
        o.kind = .record kind gid (vs.map (·.2.toNat)) 0 0 0) s cu t)) ∧
  (∀ f s cu gid g, issues specRbatch f s cu = true → batchGraph s cu.w = some (gid, g) → provisional s (blkOf cu.w) = false →
    let l := lowLane (getSplit s cu.w cu.k).mask
    let a := inA specRbatch f s cu l
    let b := inB specRbatch f s cu l
    let c := inC specRbatch f s cu l
    a.tag = .v → b.tag = .v → c.tag = .v → 1 ≤ a.data.toNat → a.data.toNat ≤ g.nodes.length → 1 ≤ b.data.toNat → b.data.toNat ≤ 64 → c.data.toNat < 2 ^ 32 →
    ∃ t, exec (.rbatch f) s = .next t ∧ Goes f s cu t ∧ t = { issueFrame s t with ops := t.ops, nextOp := t.nextOp } ∧
      Starts (some .ex) (getSplit s cu.w cu.k).mask (fun o => o.dst = [] ∧ o.kind = .record 1 gid [] a.data.toNat b.data.toNat c.data.toNat) s cu t) ∧
  (∀ s (o : Op) kind gid vas a b c g, findOp s o.id = some o → o.kind = .record kind gid vas a b c → (getBlock s (blkOf o.w)).killed = false →
    getGraph s gid = some g →
    (recordReady s o = false → exec (.recordPoolArrival o.id) s = .next s) ∧
    (recordReady s o = true → ∃ t, exec (.recordPoolArrival o.id) s = .next t ∧ t.ops = s.ops.filter (fun e => decide (e.id ≠ o.id)) ∧
      t.vregs = s.vregs ∧ t.sregs = s.sregs ∧ t.warps = s.warps ∧
      (kind = 3 → getGraph t gid = some (freeRecords g vas) ∧ t = { s with ops := t.ops, graphs := t.graphs }) ∧
      (kind = 0 → ∀ j x idx, gnode g j = some x → vas ≠ [] → (∀ va ∈ vas, recordAt g va = some (j, idx va)) → x.closed = false →
        graphChange s gid g = none →
        let queue := x.queue.map (fun r => r.idx) ++ vas.map idx
        (queue.length ≤ x.batch → t.nodes = s.nodes ∧ ∃ g1 y, getGraph t gid = some g1 ∧ gnode g1 j = some y ∧ y.queue.map (fun r => r.idx) = queue ∧
          (∀ i, i ≠ j → gnode g1 i = gnode g i) ∧ ∀ va ∈ vas, recState g1 j (idx va) = (2, 0)) ∧
        (x.batch < queue.length → (dieNodes s g.die).length < 1024 → ∃ n, getNode t s.nextNode = some n ∧ n.graph = some gid ∧ n.gidx = j ∧
          n.count = 1 ∧ n.batch = queue.take (x.batch + 1))) ∧
      (kind = 1 → ∀ x, gnode g a = some x → x.closed = false → 1 ≤ b → graphChange s gid g = none →
        (x.queue.length < b → t = { s with ops := t.ops, graphs := t.graphs } ∧ ∃ g1, getGraph t gid = some g1 ∧
          gnode g1 a = some { x with batch := b - 1, timeout := c } ∧ ∀ i, i ≠ a → gnode g1 i = gnode g i) ∧
        (b ≤ x.queue.length → (dieNodes s g.die).length < 1024 → ∃ n, getNode t s.nextNode = some n ∧ n.graph = some gid ∧ n.gidx = a ∧
          n.count = 1 ∧ n.batch = (x.queue.map (fun r => r.idx)).take b)))) ∧
  (∀ s gid g j n, timedOut s = some (gid, g, j, n) → ∃ t x, exec .batchTimeout s = .next t ∧ getNode t s.nextNode = some x ∧ x.graph = some gid ∧
    x.gidx = j ∧ x.count = 1 ∧ x.batch = (((gnode g j).map (fun y => y.queue)).getD []).map (fun y => y.idx) ∧ x.batch ≠ []) ∧
  (∀ s, timedOut s = none → exec .batchTimeout s = .next s) ∧
  (∀ s, (reservable s = none → exec .graphReservation s = .next s) ∧
    ∀ gid g, reservable s = some (gid, g) → ∃ t, exec .graphReservation s = .next t ∧ t = { s with graphs := t.graphs } ∧
      getGraph t gid = some { g with ready := true } ∧ ∀ k, k ≠ gid → getGraph t k = getGraph s k) ∧
  (∀ f s cu n gid g, issues specRfetch f s cu = true → isQ f.d = false → blockNode s (blkOf cu.w) = some n → isBatch n = true →
    blockGraph s (blkOf cu.w) = some (gid, g) →
    let a l := inA specRfetch f s cu l
    let live := if fetchN f then lanesNow f s cu
      else (lanesNow f s cu).filter (fun l => decide ((a l).tag = .v) && decide ((a l).data.toNat < n.batch.length))
    let v l : Nat := if fetchN f then n.batch.length else recordVa g n.gidx (n.batch.getD (a l).data.toNat 0)
    ∃ t, exec (.rfetch f) s = .next t ∧ Goes f s cu t ∧ t.mem = s.mem ∧ t.fsr = s.fsr ∧ KeepsRegs f.d.toNat s cu t ∧
      (∀ l ∈ lanesNow f s cu, live.contains l = false → f.d.toNat < 0xE0 → rdReg t cu.w f.d.toNat l =
        if (a l).tag = .x then ⟨.x, (a l).data⟩ else ⟨.n, (oldOf f s cu l).data⟩) ∧
      (live = [] → t.ops.map Op.bare = s.ops.map Op.bare) ∧
      (live ≠ [] → Starts (some .ex) (getSplit s cu.w cu.k).mask (fun o => o.dst = dstOf f.d.toNat live ∧
        o.kind = .result (live.map (fun l => (f.d.toNat, l, ⟨.v, BitVec.ofNat 64 (v l)⟩)))) s cu t)) ∧
  (∀ f s cu, issues specLvcoord f s cu = true → isQ f.d = false →
    let r := ((blockNode s (blkOf cu.w)).map (fun n => n.rcd)).getD 0
    let k := (modOf f).toNat % 8
    let dom := (rcLevel r k).1
    let v (l : Nat) : Nat := if (modOf f).getLsbD 3 then (rcLevel r k).2.2 else if dom = 0 then l else if dom = 1 then cu.w % 32 else if dom = 7 then 0
      else blockCoord r (getBlock s (blkOf cu.w)).blocklin k
    k < rcNlev r → (isS f.d = true → dom ≠ 0) →
    ∃ t, exec (.lvcoord f) s = .next t ∧ Goes f s cu t ∧ t.mem = s.mem ∧ t.fsr = s.fsr ∧ KeepsRegs 0xFF s cu t ∧
      Starts (some .ex) (getSplit s cu.w cu.k).mask (fun o => o.dst = dstOf f.d.toNat (lanesNow f s cu) ∧
        o.kind = .result ((lanesNow f s cu).map (fun l => (f.d.toNat, l, ⟨.v, BitVec.ofNat 64 (v l)⟩)))) s cu t)

/-! ### Blocks -/

/-- R168, R348, R360, R361, R446: BLOCK_DISPATCH starts the next block of the first node that finds room, with every warp at the entry; a block
that has ended, and whose operations are over, leaves nothing behind, a killed one but the exchanges and collectives that have read their sources
and run to completion; a node whose blocks have ended retires and releases the nodes that
waited for it; a node that nothing is due for stays. -/
def Sys2Proof.Claims.BlocksStartAndEnd : Prop :=
  (∀ s die, (findPlace s (readyNodes s die) = none → exec (.blockDispatch die) s = .next s) ∧
    ∀ num n lin p, findPlace s (readyNodes s die) = some (num, n, [p]) → n.saved = [] → newGroups n = [[lin]] →
      ∃ t, exec (.blockDispatch die) s = .next t ∧ t.nextBlk = s.nextBlk + 1 ∧ (getNode t num).map (fun x => x.next) = some (lin + 1) ∧
        (getBlock t s.nextBlk).state = 1 ∧ (getBlock t s.nextBlk).die = n.die ∧ (getBlock t s.nextBlk).core = p.1 ∧
        (getBlock t s.nextBlk).blocklin = lin ∧ (getBlock t s.nextBlk).node = num ∧ (getBlock t s.nextBlk).warps = rcWarps n.rcd ∧
        (getBlock t s.nextBlk).tsbytes = 1024 * rcTsk n.rcd ∧ (getBlock t s.nextBlk).tiles = rcTiles n.rcd ∧
        ∀ sp ∈ p.2, (getWarp t (32 * s.nextBlk + sp.warp)).vregs = rcRegs n.rcd ∧
          (getSplit t (32 * s.nextBlk + sp.warp) 0).mask = 0xFFFFFFFF#32 ∧
          (getSplit t (32 * s.nextBlk + sp.warp) 0).pc = BitVec.ofNat 56 (rcEntry n.rcd)) ∧
  (∀ s b, (blockOver s b = false → exec (.blockComplete b) s = .next s) ∧
    (blockOver s b = true → relaunches (getBlock s b) = false →
      ∃ t, exec (.blockComplete b) s = .next t ∧ (getBlock t b).state = 0 ∧
        (∀ o ∈ t.ops, blkOf o.w = b → outlives s o = true ∧ (getBlock s b).killed = true) ∧
        ((∀ o ∈ s.ops, blkOf o.w = b → outlives s o = false) → getBlock t b = Block.none) ∧
        (∀ w, blkOf w = b → getWarp t w = Warp.none ∧ ∀ r l, l < 32 → r < 0xE0 → rdReg t w r l = TWord.zero) ∧
        (∀ w r l, blkOf w ≠ b → l < 32 → rdReg t w r l = rdReg s w r l))) ∧
  (∀ s die id num n, nodeById s die id = some (num, n) → (nodeOver s n = false → exec (.nodeRetire die id) s = .next s) ∧
    (nodeOver s n = true → ∀ u, retireNode s num n = .ok u → ∃ t, exec (.nodeRetire die id) s = .next t ∧ t.vregs = s.vregs ∧ t.sregs = s.sregs ∧
      (isBatch n = false → getNode t num = none ∧ ∀ k x, getNode t k = some x → x.deps.contains num = false)))

/-- R362, R443 to R445: PRIORITY_PREEMPT begins the pre-emption of a block with less priority, and its mates, for a node that waits; and finishes
one whose blocks are quiet: the block is saved in its slot, and its node may resume it. -/
def Sys2Proof.Claims.PriorityPreemptions : Prop :=
  ∀ s,
    (priorityPreempt s = none → exec .priorityPreempt s = .next s) ∧
    (∀ r b slot, dwsSave s = some r → r.blks = [(b, slot)] → (getBlock s b).killed = false →
      ∃ t, exec .priorityPreempt s = .next t ∧ getBlock t b = { getBlock s b with state := if r.hold then 3 else 2, saving := false } ∧
        ((sget none t.sslots (64 * (getBlock s b).die + slot)).map (fun x => x.blk)) = some b ∧
        (r.hold = false → ∀ n, getNode s (getBlock s b).node = some n → getNode t (getBlock s b).node = some { n with saved := n.saved ++ [b] })) ∧
    (∀ b, dwsSave s = none → preemptOn s 0 = some b → (matesOf s b).length ≤ (openSlots s (getBlock s b).die).length →
      ∃ t r, exec .priorityPreempt s = .next t ∧ t.saves = s.saves ++ [r] ∧ r.who = none ∧ r.blks.map (·.1) = matesOf s b ∧ r.die = (getBlock s b).die)

/-- R168, R348, R360 to R362, R443 to R446: blocks start, end and give way to a higher priority. -/
def Obligations.BlockLifetimes : Prop := Claims.BlocksStartAndEnd ∧ Claims.PriorityPreemptions

/-! ### System instructions -/

/-- R430, R435, R436, R438: tret of a handler's split goes back to the trapped word with the retry set and sends the other lanes on, skips it, or
goes to the aligned address of A, in the mode that was saved; tfix writes A to a register of the trapped word's destination in the lanes of
the trap. -/
def Obligations.HandlersReturn : Prop :=
  (∀ f s cu h rest, issues specTret f s cu = true → (getSplit s cu.w cu.k).hs = h :: rest →
    let sp := getSplit s cu.w cu.k
    let sup := if h.sup then (getWarp s cu.w).sstat.getLsbD 0 else h.fromSup
    let after : BitVec 56 := if h.header then h.pc + BitVec.ofNat 56 (8 * (h.count + 2)) else h.pc + 8
    let a := inA specTret f s cu (lowLane sp.mask)
    (f.md.toNat % 4 = 0 → sp.mask &&& ~~~h.retry = 0 → ∃ t, exec (.tret f) s = .next t ∧ t = issueFrame s t ∧ (getSplit t cu.w cu.k).pc = h.pc ∧
      (getSplit t cu.w cu.k).far = h.far ∧ (getSplit t cu.w cu.k).rem = h.rem ∧ (getSplit t cu.w cu.k).sup = sup ∧ (getSplit t cu.w cu.k).hs = rest ∧
      (getSplit t cu.w cu.k).mask = sp.mask ∧ ∀ k, k ≠ cu.k → getSplit t cu.w k = getSplit s cu.w k) ∧
    (f.md.toNat % 4 = 0 → sp.mask &&& ~~~h.retry ≠ 0 → sp.mask &&& h.retry = 0 → ∃ t, exec (.tret f) s = .next t ∧ t = issueFrame s t ∧
      (getSplit t cu.w cu.k).pc = after ∧ (getSplit t cu.w cu.k).sup = sup ∧ (getSplit t cu.w cu.k).hs = rest ∧ (getSplit t cu.w cu.k).mask = sp.mask) ∧
    (f.md.toNat % 4 = 0 → sp.mask &&& h.retry ≠ 0 → sp.mask &&& ~~~h.retry ≠ 0 → (∃ k < 32, (getSplit s cu.w k).mask = 0) →
      ∃ t j, exec (.tret f) s = .next t ∧ t = issueFrame s t ∧ (getSplit t cu.w cu.k).pc = h.pc ∧ (getSplit t cu.w cu.k).hs = rest ∧
        (getSplit t cu.w cu.k).mask = sp.mask &&& h.retry ∧ (getSplit s cu.w j).mask = 0 ∧ (getSplit t cu.w j).pc = after ∧
        (getSplit t cu.w j).mask = sp.mask &&& ~~~h.retry ∧ ∀ k, k ≠ cu.k → k ≠ j → getSplit t cu.w k = getSplit s cu.w k) ∧
    (f.md.toNat % 4 = 1 → ∃ t, exec (.tret f) s = .next t ∧ t = issueFrame s t ∧ (getSplit t cu.w cu.k).pc = after ∧ (getSplit t cu.w cu.k).sup = sup ∧
      (getSplit t cu.w cu.k).hs = rest ∧ (getSplit t cu.w cu.k).mask = sp.mask) ∧
    (f.md.toNat % 4 = 2 → a.tag = .v → a.data.toNat % 8 = 0 → ∃ t, exec (.tret f) s = .next t ∧ t = issueFrame s t ∧
      vpc (getSplit t cu.w cu.k) = a.data ∧ (getSplit t cu.w cu.k).rem = 0 ∧ (getSplit t cu.w cu.k).sup = sup ∧
      (getSplit t cu.w cu.k).hs = rest ∧ (getSplit t cu.w cu.k).mask = sp.mask)) ∧
  (∀ f s cu h rest, issues specTfix f s cu = true → (getSplit s cu.w cu.k).hs = h :: rest →
    let word := if h.sup then (getWarp s cu.w).sinfo else (getWarp s cu.w).tinfo
    let lanes := (if h.sup then (getWarp s cu.w).smask else (getWarp s cu.w).tmask).truncate 32
    let k := (modOf f).toNat % 4
    let r := trapD word + k
    (trapD word = 0xE4 → ∃ t, exec (.tfix f) s = .next t ∧ Goes f s cu t ∧ t = issueFrame s t) ∧
    (k < groupSize word → r < (getWarp s cu.w).vregs → r < 0xC0 → ∃ t, exec (.tfix f) s = .next t ∧ Goes f s cu t ∧ t.mem = s.mem ∧ t.fsr = s.fsr ∧
      ∀ w c l, l < 32 → rdReg t w c l = if w = cu.w ∧ c = r ∧ lanes.getLsbD l = true then inA specTfix f s cu l else rdReg s w c l) ∧
    (k < groupSize word → 0xC0 ≤ r → r < 0xE0 → (getWarp s cu.w).vregs ≤ 0xC0 → trapD word ≠ 0xE4 → isV f.a = false →
      ∃ t, exec (.tfix f) s = .next t ∧ Goes f s cu t ∧ t.mem = s.mem ∧ t.fsr = s.fsr ∧
      ∀ w c l, l < 32 → rdReg t w c l = if w = cu.w ∧ c = r then inA specTfix f s cu (lowLane (getSplit s cu.w cu.k).mask) else rdReg s w c l))

namespace Sys2Proof.Claims

/-- The bits of a supervisor register that a write changes (R438). -/
def csrBits (n : Nat) : Word :=
  if n = 0x05 then 3 else if n = 0x10 ∨ n = 0x11 then 0x1FFFFF else if 0x28 ≤ n ∧ n ≤ 0x2B then 0x1F else if n = 0x40 then 1
  else if n = 0x41 then 0xFFFFFFFF else if n = 0x42 then 0xFFFF else 0xFFFFFFFFFFFFFFFF

/-- The words of a system instruction's operands, the first n of A, B and C. -/
def sysWords (spec : OpSpec) (f : Fields) (s : State) (cu : Cur) (n : Nat) : List TWord :=
  let l := lowLane (getSplit s cu.w cu.k).mask
  [inA spec f s cu l, inB spec f s cu l, inC spec f s cu l].take n

/-- R446, R447: the block of the split is contained with a source and a cause. -/
def Contained (s : State) (cu : Cur) (source cause : Nat) (t : State) : Prop :=
  (getBlock t (blkOf cu.w)).killed = true ∧ (getBlock t (blkOf cu.w)).csource = source ∧ (getBlock t (blkOf cu.w)).ccause = cause ∧
    (getWarp t cu.w).splits = [] ∧ t.mem = s.mem ∧ t.fsr = s.fsr

/-- R35, R37, R61, R433, R434: a supervisor instruction with an N operand is nullified, its D with it; one with an X operand, or whose operands `bad`
says have not the form of the rule, traps in supervisor mode, so that the block is contained: with POISON_CONSUMED or ILLEGAL_OPERAND and source 5, but
where the payload names a lost region or an uncorrectable error. -/
def SystemOperands (rows : Fields → State → Cur → List (Instr × OpSpec × Nat × Bool × Bool)) : Prop :=
  ∀ f s cu i spec n held bad, (i, spec, n, held, bad) ∈ rows f s cu → issues spec f s cu = true → held = false →
    let ws := sysWords spec f s cu n
    let b := blkOf cu.w
    ((∃ x ∈ ws, x.tag = .n) → ∃ t, exec i s = .next t ∧ Goes f s cu t ∧ t.mem = s.mem ∧ t.fsr = s.fsr ∧ KeepsRegs f.d.toNat s cu t ∧
      ∀ l ∈ activeLanes s cu, f.d.toNat < 0xE0 → rdReg t cu.w f.d.toNat l = ⟨.n, (oldOf f s cu l).data⟩) ∧
    (∀ x, (∀ y ∈ ws, y.tag ≠ .n) → ws.find? (fun y => decide (y.tag = .x)) = some x → (getBlock s b).csource = 0 →
      let cause := payloadCause x.data
      ∃ t, exec i s = .next t ∧
        (cause ≠ causePoolLost → cause ≠ causeMemUe → Contained s cu 5 causePoison t) ∧
        (cause = causePoolLost ∨ cause = causeMemUe →
          if s.suspectVas.contains (b, x.data.toNat % 2 ^ 56) then Contained s cu 4 causeMemUe t else Contained s cu 1 cause t)) ∧
    ((∀ y ∈ ws, y.tag = .v) → bad = true → (getBlock s b).csource = 0 → ∃ t, exec i s = .next t ∧ Contained s cu 5 causeIllegalOperand t)

/-- The word of B names no space (R439). -/
def noSpace (b : Word) : Bool := decide (b.toNat / 2 ^ 21 ≠ 0) || (!b.getLsbD 20 && decide (b.toNat / 2 ^ 16 ≠ 0))

/-- csrw; the page instructions and tlbinv; preempt, resume and blkkill: with the number of their operands, whether they wait for accesses to their
page, and whether their operands have not the form of their rules. -/
def csrwRow (f : Fields) (_ : State) (_ : Cur) : List (Instr × OpSpec × Nat × Bool × Bool) := [(.csrw f, specCsrw, 1, false, false)]
def pageRows (f : Fields) (s : State) (cu : Cur) : List (Instr × OpSpec × Nat × Bool × Bool) :=
  let no (spec : OpSpec) : Bool := noSpace (inB spec f s cu (lowLane (getSplit s cu.w cu.k).mask)).data
  [(.pgmode f, specPgmode, 2, pageHold (ctxOf specPgmode f s cu) s, no specPgmode), (.pgrep f, specPgrep, 3, pageHold (ctxOf specPgrep f s cu) s, no specPgrep),
   (.pgcol f, specPgcol, 3, pageHold (ctxOf specPgcol f s cu) s, no specPgcol),
   (.tlbinv f, specTlbinv, 2, false, no specTlbinv || (decide ((modOf f).toNat % 4 = 2) && !(isZ f.a && isZ f.b)))]
def blockRows (f : Fields) (s : State) (cu : Cur) : List (Instr × OpSpec × Nat × Bool × Bool) :=
  let l := lowLane (getSplit s cu.w cu.k).mask
  [(.preempt f, specPreempt, 2, false, false), (.resume f, specResume, 1, false, decide (64 ≤ (inA specResume f s cu l).data.toNat)),
   (.blkkill f, specBlkkill, 2, false, (modOf f).getLsbD 0 && decide ((inB specBlkkill f s cu l).data ≠ 0))]

end Sys2Proof.Claims

/-- R434, R437, R438: csrr reads a supervisor register into D, and csrw of a V source writes the register's bits and no other register; an N
source leaves it, and an X source contains the block (R433). -/
def Obligations.SupervisorRegisters : Prop :=
  Claims.SystemOperands Claims.csrwRow ∧
  (∀ f s cu, issues specCsrr f s cu = true →
    ∃ t, exec (.csrr f) s = .next t ∧ Goes f s cu t ∧ t.mem = s.mem ∧ t.fsr = s.fsr ∧ KeepsRegs f.d.toNat s cu t ∧
      ∀ l ∈ activeLanes s cu, f.d.toNat < 0xE0 → rdReg t cu.w f.d.toNat l = ⟨.v, csrRead s cu.w (csrNum f) l⟩) ∧
  (∀ f s cu, issues specCsrw f s cu = true →
    let a := inA specCsrw f s cu (lowLane (getSplit s cu.w cu.k).mask)
    a.tag ≠ .x →
    ∃ t, exec (.csrw f) s = .next t ∧ t = { issueFrame s t with
      blocks := t.blocks, dies := t.dies, pkg := t.pkg, ops := t.ops, regions := t.regions, frozen := t.frozen } ∧ KeepsOps s t ∧ Advances f s cu t ∧
      (csrNum f ≠ 0x32 → t.regions = s.regions ∧ t.frozen = s.frozen) ∧
      (∀ w, w ≠ cu.w → getWarp t w = getWarp s w) ∧
      ∀ n l, csrKnown n = true → csrRead t cu.w n l = if n = csrNum f ∧ a.tag = .v then a.data &&& csrBits n else csrRead s cu.w n l)

/-- R189, R434, R439 to R442: pgmode, pgrep and pgcol of a page that may be changed and that nothing uses return the old entry, or the old base,
and leave an entry, unless it lies in a frozen frame, with the new mode, the replica set, or one frame; a page that has none is refused with 1. tlbinv drops the translations it
covers, and waits for the engines that hold one: for copies, as R442 names them, and as the model has it for matrix operations (log 50). An X operand, or
a space that B does not name, contains the block. -/
def Obligations.PageInstructions : Prop :=
  Claims.SystemOperands Claims.pageRows ∧
  (∀ f s cu sp, issues specPgmode f s cu = true → pageHold (ctxOf specPgmode f s cu) s = false →
    let low := lowLane (getSplit s cu.w cu.k).mask
    let a := inA specPgmode f s cu low
    let m := (modOf f).toNat % 4
    a.tag = .v → (inB specPgmode f s cu low).tag = .v → spaceOf (inB specPgmode f s cu low).data = some sp →
    ((∀ l, walk (atIssue s cu) sp a.data.toNat ≠ .leaf l) → ∃ t, exec (.pgmode f) s = .next t ∧ Goes f s cu t ∧ t.mem = s.mem ∧
      KeepsRegs f.d.toNat s cu t ∧ ∀ l ∈ activeLanes s cu, f.d.toNat < 0xE0 → rdReg t cu.w f.d.toNat l = ⟨.n, 1⟩) ∧
    (∀ l, walk (atIssue s cu) sp a.data.toNat = .leaf l → cohAllowed l.tgt m = true → ¬(m = 2 ∧ l.ver = true) → l.rep = false → sp.testBit 20 = false →
      let e := rdMem s l.entry 8
      ∃ t, exec (.pgmode f) s = .next t ∧ Goes f s cu t ∧ KeepsRegs f.d.toNat s cu t ∧
        (∀ k ∈ activeLanes s cu, f.d.toNat < 0xE0 → rdReg t cu.w f.d.toNat k = ⟨.v, BitVec.ofNat 64 e⟩) ∧
        (frozenKey t l.entry = false → ∀ i < 8, rdByte t (l.entry + i) = BitVec.ofNat 8 ((e - bitsOf e 7 6 * 2 ^ 6 + m * 2 ^ 6) / 2 ^ (8 * i))))) ∧
  (∀ f s cu sp l e, issues specPgrep f s cu = true → pageHold (ctxOf specPgrep f s cu) s = false →
    let low := lowLane (getSplit s cu.w cu.k).mask
    let set_ := (inC specPgrep f s cu low).data.toNat % 2 ^ 36
    let old := rdMem s l.entry 8
    (inA specPgrep f s cu low).tag = .v → (inB specPgrep f s cu low).tag = .v → (inC specPgrep f s cu low).tag = .v →
    spaceOf (inB specPgrep f s cu low).data = some sp → walk (atIssue s cu) sp (inA specPgrep f s cu low).data.toNat = .leaf l →
    l.tgt = 0 → l.coh < 2 → l.ver = false → l.rep = false → replicaSet (atIssue s cu) set_ l.level = some e → l.base / 2 ^ 40 < 4 →
    replicaAddr e (l.base / 2 ^ 40) 0 = l.base →
    ∃ t, exec (.pgrep f) s = .next t ∧ Goes f s cu t ∧ KeepsRegs f.d.toNat s cu t ∧
      (∀ k ∈ activeLanes s cu, f.d.toNat < 0xE0 → rdReg t cu.w f.d.toNat k = ⟨.v, BitVec.ofNat 64 old⟩) ∧
      (frozenKey t l.entry = false → ∀ i < 8, rdByte t (l.entry + i) = BitVec.ofNat 8 (repEntry old set_ true / 2 ^ (8 * i)))) ∧
  (∀ f s cu sp l e, issues specPgcol f s cu = true → pageHold (ctxOf specPgcol f s cu) s = false →
    let low := lowLane (getSplit s cu.w cu.k).mask
    let keep := if (modOf f).getLsbD 2 then (inC specPgcol f s cu low).data.toNat % 4 else dieOf s cu.w
    (inA specPgcol f s cu low).tag = .v → (inB specPgcol f s cu low).tag = .v → (inC specPgcol f s cu low).tag = .v →
    spaceOf (inB specPgcol f s cu low).data = some sp → walk (atIssue s cu) sp (inA specPgcol f s cu low).data.toNat = .leaf l →
    l.rep = true → replicaSet (atIssue s cu) l.base l.level = some e → Memory.wf s.mem = true →
    (∀ q < 4, ∀ i < 8, ¬(replicaAddr e q 0 ≤ l.entry + i ∧ l.entry + i < replicaAddr e q 0 + 2 ^ l.bits)) →
    ∃ t, exec (.pgcol f) s = .next t ∧ Goes f s cu t ∧ KeepsRegs f.d.toNat s cu t ∧
      (∀ k ∈ activeLanes s cu, f.d.toNat < 0xE0 → rdReg t cu.w f.d.toNat k = ⟨.v, BitVec.ofNat 64 l.base⟩) ∧
      (frozenKey t l.entry = false → ∀ i < 8, rdByte t (l.entry + i) = BitVec.ofNat 8 (repEntry (rdMem s l.entry 8) (replicaAddr e keep 0 / 2 ^ 16) false / 2 ^ (8 * i)))) ∧
  (∀ f s cu sp, issues specTlbinv f s cu = true →
    let low := lowLane (getSplit s cu.w cu.k).mask
    let kind := (modOf f).toNat % 4
    let p := coveredBy kind sp (inA specTlbinv f s cu low).data.toNat
    (inA specTlbinv f s cu low).tag = .v → (inB specTlbinv f s cu low).tag = .v → spaceOf (inB specTlbinv f s cu low).data = some sp →
    (kind = 2 → isZ f.a = true ∧ isZ f.b = true) →
    ∃ t, exec (.tlbinv f) s = .next t ∧ t = { issueFrame s t with tlb := t.tlb, granules := t.granules } ∧
      (∀ k e, (∃ es, (k, es) ∈ t.tlb ∧ e ∈ es) ↔ (∃ es, (k, es) ∈ s.tlb ∧ e ∈ es) ∧ p (keySpace k) e.page e.leaf = false) ∧
      (∀ g ∈ t.granules, g ∈ s.granules) ∧
      (holders s p = [] → Goes f s cu t) ∧
      (holders s p ≠ [] → (getSplit t cu.w cu.k).susp = some (.drain (holders s p)) ∧ (getSplit t cu.w cu.k).pc = (getSplit s cu.w cu.k).pc))

/-- R443, R445, R446: preempt of a resident block that may be saved begins its pre-emption and waits for it, of the own block returns at once;
what it cannot do it refuses with 1, 2 or 3; resume gives a held block back to its node; blkkill kills what its launch and block name and
returns the count. That preempt of the own block, or of its cluster, completes before the save, and that the lowest code is given where two refusals hold,
are the model's (log 50). An X operand, a slot above 63 and blkkill.all with a block number contain the block of the instruction. -/
def Obligations.BlocksPreemptedAndKilled : Prop :=
  Claims.SystemOperands Claims.blockRows ∧
  (∀ f s cu, issues specPreempt f s cu = true →
    let low := lowLane (getSplit s cu.w cu.k).mask
    let target := preemptTarget s (dieOf s cu.w) (inA specPreempt f s cu low).data ((inB specPreempt f s cu low).data.toNat % 2 ^ 32)
    (inA specPreempt f s cu low).tag = .v → (inB specPreempt f s cu low).tag = .v →
    let refuses (n : Nat) : Prop := ∃ t, exec (.preempt f) s = .next t ∧ Goes f s cu t ∧ t.mem = s.mem ∧ t.saves = s.saves ∧ KeepsRegs f.d.toNat s cu t ∧
      ∀ l ∈ activeLanes s cu, f.d.toNat < 0xE0 → rdReg t cu.w f.d.toNat l = ⟨.n, BitVec.ofNat 64 n⟩
    (target = none → refuses 1) ∧
    (∀ b x, target = some (b, x) → x.coop = true → refuses 2) ∧
    (∀ b x, target = some (b, x) → x.coop = false → (openSlots s (getBlock s b).die).length < (matesOf s b).length → refuses 3) ∧
    (∀ b x, target = some (b, x) → x.coop = false → (matesOf s b).length ≤ (openSlots s (getBlock s b).die).length →
      ∃ t r, exec (.preempt f) s = .next t ∧ t.saves = s.saves ++ [r] ∧ r.hold = (modOf f).getLsbD 0 ∧ r.blks.map (·.1) = matesOf s b ∧ t.mem = s.mem ∧
        KeepsRegs f.d.toNat s cu t ∧
        (if (matesOf s b).contains (blkOf cu.w) then Goes f s cu t ∧ r.who = none
         else (getSplit t cu.w cu.k).susp = some (.save b f.d.toNat) ∧ r.who = some (cu.w, cu.k)))) ∧
  (∀ f s cu, issues specResume f s cu = true →
    let a := inA specResume f s cu (lowLane (getSplit s cu.w cu.k).mask)
    let slot := 64 * dieOf s cu.w + a.data.toNat
    a.tag = .v → a.data.toNat < 64 →
    (sget none s.sslots slot = none → ∃ t, exec (.resume f) s = .next t ∧ Goes f s cu t ∧ t.mem = s.mem ∧
      ∀ l ∈ activeLanes s cu, f.d.toNat < 0xE0 → rdReg t cu.w f.d.toNat l = ⟨.n, 1⟩) ∧
    (∀ x n, sget none s.sslots slot = some x → (getBlock s x.blk).state = 3 → (getBlock s x.blk).killed = false →
      ctxOk s x.blk a.data.toNat = true → getNode s (getBlock s x.blk).node = some n →
      ∃ t, exec (.resume f) s = .next t ∧ Advances f s cu t ∧ getBlock t x.blk = { getBlock s x.blk with state := 2 } ∧
        getNode t (getBlock s x.blk).node = some { n with saved := n.saved ++ [x.blk] } ∧
        ∀ l ∈ activeLanes s cu, f.d.toNat < 0xE0 → rdReg t cu.w f.d.toNat l = ⟨.v, 1⟩)) ∧
  (∀ f s cu, issues specBlkkill f s cu = true →
    let low := lowLane (getSplit s cu.w cu.k).mask
    let a := inA specBlkkill f s cu low
    let b := inB specBlkkill f s cu low
    let all := (modOf f).getLsbD 0
    let want (lin : Nat) : Bool := all || decide (lin % 2 ^ 32 = b.data.toNat % 2 ^ 32)
    let bs := (s.blocks.filter (fun e => blockOf s (dieOf s cu.w) a.data e.2 && want e.2.blocklin)).map (·.1)
    let ahead := (dieNodes s (dieOf s cu.w)).filter (fun e => decide (nodeLaunch s e.2 = a.data.toNat))
    let n := bs.length + (ahead.map (fun e => ((undispatched e.2).filter want).length)).sum
    a.tag = .v → b.tag = .v → (all = true → b.data = 0) →
    ∃ t, exec (.blkkill f) s = .next t ∧ t.mem = s.mem ∧ KeepsRegs f.d.toNat s cu t ∧
      (∀ l ∈ activeLanes s cu, f.d.toNat < 0xE0 → rdReg t cu.w f.d.toNat l = if n = 0 then ⟨.n, 0⟩ else ⟨.v, BitVec.ofNat 64 n⟩) ∧
      (∀ x ∈ bs, (getBlock t x).killed = true ∧ ∀ w, blkOf w = x → (getWarp t w).splits = []))

/-! ### Logs and integrity -/

namespace Sys2Proof.Claims

/-- An entry stands in a Vesper log: type and source in its header with the source's next number, and its three words; the entry before the
last 4096 is lost (R452). -/
def Logged (s : State) (log typ source d0 d1 d2 : Nat) (t : State) : Prop :=
  (getVLog t log).count = (getVLog s log).count + 1 ∧
    sget 0 t.vents (4096 * log + (getVLog s log).count % 4096) =
      source + sget 0 s.vseq (2 ^ 16 * log + source) % 2 ^ 32 * 2 ^ 16 + typ * 2 ^ 56 + d0 % 2 ^ 64 * 2 ^ 64 + d1 % 2 ^ 64 * 2 ^ 128 + d2 % 2 ^ 64 * 2 ^ 192

end Sys2Proof.Claims

/-- R449, R451, R453: vlog writes an entry while its core has some left in the window, and counts it as dropped otherwise; VLOG_WINDOW_RESET begins a
window with none used. A replay that agrees changes nothing, one that does not contains its block. A flit that is lost makes its line suspect,
and a suspect line that times out is logged; the home's sectors are poisoned where ownership was lost. -/
def Obligations.LogsAndIntegrity : Prop :=
  (∀ f s cu, issues specVlog f s cu = true →
    let low := lowLane (getSplit s cu.w cu.k).mask
    let a := inA specVlog f s cu low
    let b := inB specVlog f s cu low
    let core := coreOf s cu.w
    let c := getCore (atIssue s cu) core
    let used := if c.vwin = c.cyc / 2 ^ 20 then c.vlogs else 0
    let quota := (sget DieSt.init s.dies (core / 48)).vlogq.toNat % 2 ^ 16
    a.tag = .v → b.tag = .v →
    ∃ t, exec (.vlog f) s = .next t ∧ Goes f s cu t ∧ t = { issueFrame s t with vents := t.vents, vmeta := t.vmeta, vseq := t.vseq } ∧
      (used < quota → Logged s (core / 48) 0x09 (vsource 7 (core % 48)) a.data.toNat b.data.toNat (getBlock s (blkOf cu.w)).launchid.toNat t ∧
        (getCore t core).vlogs = used + 1) ∧
      (quota ≤ used → t.vents = s.vents ∧ getVLog t (core / 48) = { getVLog s (core / 48) with dropped := (getVLog s (core / 48)).dropped + 1 })) ∧
  (∀ s core, ((getCore s core).vwin = (getCore s core).cyc / 2 ^ 20 → exec (.vlogWindowReset core) s = .next s) ∧
    ((getCore s core).vwin ≠ (getCore s core).cyc / 2 ^ 20 → ∃ t, exec (.vlogWindowReset core) s = .next t ∧ t = { s with cores := t.cores } ∧
      getCore t core = { getCore s core with vlogs := 0, vwin := (getCore s core).cyc / 2 ^ 20 })) ∧
  (∀ s q n, exec (.replayCheck q n false) s = .next s) ∧
  (∀ s q n r, (sget [] s.replays q)[n]? = some r → (getCore s (q / 4)).rchk.getLsbD 0 = true → (getBlock s (blkOf r.w)).state = 1 →
    (getBlock s (blkOf r.w)).csource = 0 →
    ∃ t, exec (.replayCheck q n true) s = .next t ∧ (getBlock t (blkOf r.w)).killed = true ∧ (getBlock t (blkOf r.w)).csource = 2 ∧
      (getBlock t (blkOf r.w)).ccause = 0x42 ∧ t.mem = s.mem) ∧
  (∀ s pa owner, populated s pa = true → ∃ t, exec (.harnessFlitLost pa owner) s = .next t ∧ t = { s with suspects := t.suspects } ∧
    (pa / 1024, owner) ∈ t.suspects ∧ ∀ e ∈ t.suspects, e.1 = pa / 1024 → e.2 = owner) ∧
  (∀ s pa owner, s.suspects.find? (fun e => decide (e.1 = pa / 1024)) = some (pa / 1024, owner) →
    ∃ t x, exec (.suspectLineTimeout pa) s = .next t ∧ t.mem = s.mem ∧ (∀ e ∈ t.suspects, e.1 ≠ pa / 1024) ∧
      Logged s (4 + pa / 2 ^ 39) 0x03 (vsource 2 0) (1024 * (pa / 1024)) x (if owner then 1 else 0) t ∧
      (owner = true → ∀ i < 4, sget 0 t.poison (4 * (pa / 1024) + i) = 2))

/-! ### The fabric -/

namespace Sys2Proof.Claims

/-- The collective that a word of kind 1 (arx), 2 (agx) or 3 (rsx) names (R409, R413). -/
def collOf (kind : Nat) (spec : OpSpec) (f : Fields) (s : State) (cu : Cur) : CollOp :=
  let l := lowLane (getSplit s cu.w cu.k).mask
  let ctl := (inC spec f s cu l).data.toNat
  let d := groupEntry s (bitsOf ctl 37 32)
  { kind := kind, ty := f.ty, op := fabOp f, rm := fabRm f, group := bitsOf ctl 37 32, ctag := bitsOf ctl 63 40, len := ctl % 2 ^ 32,
    a := (inA spec f s cu l).data.toNat, b := (inB spec f s cu l).data.toNat, obj := fabObj f, tag := opTag (getSplit s cu.w cu.k).pc,
    sup := (getSplit s cu.w cu.k).sup, pages := [], n := grCount d, rank := grRank d (selfId s), elems := [], res := none, left := [], flags := 0 }

/-- The Collective Engine can take the word: its table has room, and nothing that the word reads is still to be written (R409). -/
def engineTakes (s : State) (cu : Cur) : Prop :=
  fabricCount s < 64 ∧ tileAccesses s cu.w (getSplit s cu.w cu.k).mask = false ∧ tdBusy s (blkOf cu.w) (List.range 16) = false

end Sys2Proof.Claims

/-- R408 to R416: hx with a well-formed plan, and arx, agx and rsx of a member of a valid group, start one operation on EX and go on; hx registers
the bytes of its boxes on its object. -/
def Obligations.ExchangesStart : Prop :=
  (∀ f s cu pages xs, issues specHx f s cu = true → engineTakes s cu → provisional s (blkOf cu.w) = false →
    let low := lowLane (getSplit s cu.w cu.k).mask
    let b := blkOf cu.w
    let off := (inA specHx f s cu low).data.toNat
    let n := (inB specHx f s cu low).data.toNat
    let u := atIssue s cu
    let es := (List.range n).map (fun i => rdMem s (tileBase b + (off + 64 * i)) 64)
    (inA specHx f s cu low).tag = .v → (inB specHx f s cu low).tag = .v → fabObj f < max 1 (getBlock s b).naos → 1 ≤ n → n ≤ 52 → off % 64 = 0 →
    off + 64 * n ≤ (getBlock s b).tsbytes → planFault u b es = false → (∀ e ∈ es, getTd s b (planSlot e) ≠ 0) →
    walkEnts u (agentC (ctxOf specHx f s cu) u) (es.map (fun e => planEnt u b e (getSplit s cu.w cu.k).sup)) = (.ok pages, xs) →
    ∃ t, exec (.hx f) s = .next t ∧ Advances f s cu t ∧ KeepsRegs 0xFF s cu t ∧ t.fsr = s.fsr ∧
      Starts (some .ex) (getSplit s cu.w cu.k).mask (fun o => o.dst = [] ∧
        o.kind = .halo { ents := xs, obj := fabObj f, tag := opTag (getSplit s cu.w cu.k).pc, sup := (getSplit s cu.w cu.k).sup }) s cu t ∧
      (fabObj f = 0 → t.aos = s.aos) ∧
      (fabObj f ≠ 0 → getAo t b (fabObj f) =
        aoUpdate (getAo s b (fabObj f)) 0 ((xs.map haloBytes).sum : Nat) 0 (opTag (getSplit s cu.w cu.k).pc) []) ∧
      KeepsMem s t (fun a => ∃ e ∈ xs, ∃ p ∈ e.box.pages, p.2.entry ≤ a ∧ a < p.2.entry + 8)) ∧
  (∀ f i spec kind s cu pages, (i, spec, kind) ∈ [(Instr.arx f, specArx, 1), (Instr.agx f, specAgx, 2), (Instr.rsx f, specRsx, 3)] →
    issues spec f s cu = true → engineTakes s cu → provisional s (blkOf cu.w) = false →
    let low := lowLane (getSplit s cu.w cu.k).mask
    let x := collOf kind spec f s cu
    let d := groupEntry s x.group
    let u := atIssue s cu
    (inA spec f s cu low).tag = .v → (inB spec f s cu low).tag = .v → (inC spec f s cu low).tag = .v →
    x.obj < max 1 (getBlock s (blkOf cu.w)).naos → d.testBit 16 = true → grMember d (selfId s) = true →
    bitsOf (inC spec f s cu low).data.toNat 39 38 = 0 →
    (∀ o ∈ s.ops, ∀ y, o.kind = .coll y → ¬(y.group = x.group ∧ y.ctag = x.ctag)) → collLenBad kind (tyBytes f.ty) x.n x.len = false →
    x.a % 8 = 0 → x.b % 8 = 0 → (kind = 1 → x.a + x.len ≤ (getBlock s (blkOf cu.w)).tsbytes ∧ x.b + x.len ≤ (getBlock s (blkOf cu.w)).tsbytes) →
    (if kind = 1 then pages = []
     else walkDst u (agentC (ctxOf spec f s cu) u) .store 8 (rangePages (pageUnit (agentC (ctxOf spec f s cu) u) x.b) x.b (collBytes x)) [] none = .ok pages) →
    ∃ t, exec i s = .next t ∧ Goes f s cu t ∧ KeepsRegs 0xFF s cu t ∧ t.fsr = s.fsr ∧
      Starts (some .ex) (getSplit s cu.w cu.k).mask (fun o => o.dst = [] ∧ o.kind = .coll { x with pages := pages }) s cu t ∧
      KeepsMem s t (fun a => ∃ e ∈ pages, e.2.entry ≤ a ∧ a < e.2.entry + 8))

namespace Sys2Proof.Claims

/-- R206, R411: a box that arrives over a link is staged where no posted receive takes it and 64 MiB have room, and is taken by the receive otherwise; a
box of this package is sent with its bytes once it has been read and the link to its receiver is up, after the dirty SW bytes below its sender
(R412). A timeout drops a box. -/
def BoxesTravel : Prop :=
  (∀ s peer xid len data,
    let box : HaloBox := { peer := peer % 1024, xid := xid % 2 ^ 32, len := len, data := data % 2 ^ (8 * len), flags := 0 }
    let s1 : State := { s with staged := s.staged ++ [box] }
    (s.pkg.linkst &&& 0xFFFF = 0 → exec (.haloBoxDelivery false peer xid len data) s = .next s) ∧
    (s.pkg.linkst &&& 0xFFFF ≠ 0 →
      (s.ops.findSome? (takeBox s1) = none →
        exec (.haloBoxDelivery false peer xid len data) s = .next (if (s1.staged.map (·.len)).sum ≤ 2 ^ 26 then s1 else s)) ∧
      ((s.ops.findSome? (takeBox s1)).isSome = true →
        ∃ t, exec (.haloBoxDelivery false peer xid len data) s = .next t ∧ t.staged.length = s.staged.length ∧ t = { s with staged := t.staged, ops := t.ops }))) ∧
  (∀ s peer xid len data, sendEntry s peer xid = none → exec (.haloBoxDelivery true peer xid len data) s = .next s) ∧
  (∀ s peer xid len data o x i e, sendEntry s peer xid = some (o, x, i, e) →
    (allRead e.box = false ∨ routeUp s o e.peer = false → exec (.haloBoxDelivery true peer xid len data) s = .next s) ∧
    (allRead e.box = true → routeUp s o e.peer = true → ∃ t, exec (.haloBoxDelivery true peer xid len data) s = .next t ∧ t.vregs = s.vregs ∧
      t.sregs = s.sregs ∧ t.sent = { peer := e.peer, xid := e.xid, len := haloBytes e, data := mcData e.box, flags := e.box.flags } :: s.sent ∧
      (x.obj = 0 → t = { shareWrites s o with ops := t.ops, sent := t.sent }) ∧ (x.obj = 0 → s.swc = [] → t = { s with ops := t.ops, sent := t.sent }))) ∧
  (∀ s peer xid, (sendEntry s peer xid = none → exec (.haloTimeout true peer xid) s = .next s) ∧
    (∀ o x i e, sendEntry s peer xid = some (o, x, i, e) → x.obj = 0 →
      ∃ t, exec (.haloTimeout true peer xid) s = .next t ∧ t = { s with ops := t.ops }) ∧
    (∀ b, s.staged.find? (fun b => decide (b.peer = peer ∧ b.xid = xid)) = some b → exec (.haloTimeout false peer xid) s = .next { s with staged := s.staged.erase b }))

/-- An address of plain bytes of a HW or PRIV page that is not versioned, replicated or checked: no device register, in no Lost region and no
frozen frame. -/
def boxByte (s : State) (l : Leaf) (key : Nat) : Prop :=
  l.coh ≠ 1 ∧ l.ver = false ∧ l.rep = false ∧ l.chk = false ∧ (key + 8 ≤ regBase ∨ hostBase ≤ key) ∧ lostKey s key = false

/-- A word of a box of an exchange that is read, w false, or written leaves the elements y (R276, R277, R411): those read have the values that
memory holds at their addresses, or the fill value out of bounds; those written stand at their addresses, and no other byte changes but the
entry that translates what is read (R177). -/
def BoxWord (s : State) (a : Agent) (box : CopyOp) (w : Bool) (k : Nat) (y : CopyOp) (t : State) : Prop :=
  let sz := halfBytes (tdEty box.desc)
  let n := max 1 (sz / 2)
  (w = false → ∀ l, box.kind = 5 → s.prov = [] →
    (∀ j ∈ srcElems box k, elemSt box j = 0 → ∀ h, elemAddr box.desc box.org box.ext j = some h → ∃ key, checkAddr s a (h / 2) n .load = .ok l key ∧
      boxByte s l key ∧ dataFault s a.blk key n = none ∧ (key + n ≤ l.entry ∨ l.entry + 8 ≤ key)) →
    KeepsMem s t (fun i => l.entry ≤ i ∧ i < l.entry + 8) ∧
    ∀ j, sget (0, 0) y.elems j = if (srcElems box k).contains j ∧ elemSt box j = 0 then
        (1, match elemAddr box.desc box.org box.ext j with
          | some h => rdHalf s (2 * leafKey s a.die l (h / 2) + h % 2) sz
          | none => tdFill box.desc)
      else sget (0, 0) box.elems j) ∧
  (w = true → box.kind = 3 → s.prov = [] → s.swc = [] → provisional s a.blk = false →
    let key h := (dstLeaf (freshPages s a box.pages) a (h / 2)).map (fun l => leafKey s a.die l (h / 2))
    (∀ j ∈ dstElems box k, elemSt box j ≠ 3 → elemSt box j = 1 ∧ ∀ h, elemAddr box.desc box.org box.ext j = some h → ∃ l q,
      dstLeaf (freshPages s a box.pages) a (h / 2) = some l ∧ key h = some q ∧ boxByte s l q ∧ frozenKey s q = false ∧
      (s.pkg.vrtab = 0 ∨ q + n ≤ s.pkg.vrtab.toNat ∨ s.pkg.vrtab.toNat + 64 * 4096 ≤ q)) →
    (∀ i ∈ dstElems box k, ∀ j ∈ dstElems box k, i ≠ j → ∀ h g, elemAddr box.desc box.org box.ext i = some h →
      elemAddr box.desc box.org box.ext j = some g → h + sz ≤ g ∨ g + sz ≤ h) →
    (∀ j ∈ dstElems box k, elemSt box j ≠ 3 → ∀ h q, elemAddr box.desc box.org box.ext j = some h → key h = some q →
      rdHalf t (2 * q + h % 2) sz = (sget (0, 0) box.elems j).2 % 16 ^ sz) ∧
    KeepsMem s t (fun i => ∃ j ∈ dstElems box k, elemSt box j ≠ 3 ∧ ∃ h q, elemAddr box.desc box.org box.ext j = some h ∧ key h = some q ∧ q ≤ i ∧ i < q + n))

/-- R206, R276, R277, R411: EX_OPERATION_COMPLETE reads or writes one word of a box at a time, ends a receive that is written, and ends the exchange
with its last box. -/
def HaloBoxes : Prop :=
  ∀ s (o : Op) x, findOp s o.id = some o → o.kind = .halo x →
    (∀ p r, x.ents.zipIdx.filter (fun e => entWork s o e.1) = p :: r →
      ∃ t e i w k, ∃ y : CopyOp, (e, i) ∈ p :: r ∧ nextPieceOf s o e.box = some (w, k) ∧ exec (.exOperationComplete o.id) s = .next t ∧
        t.vregs = s.vregs ∧ t.sregs = s.sregs ∧
        findOp t o.id = some { o with kind := .halo { x with ents := x.ents.set i { e with box := { e.box with elems := y.elems, flags := y.flags, srcPages := y.srcPages } } } } ∧
        (w = true → ∀ j, elemSt y j = if (dstElems e.box k).contains j then 3 else elemSt e.box j) ∧
        (w = false → ∀ j, if (srcElems e.box k).contains j then elemSt y j ≠ 0 else elemSt y j = elemSt e.box j) ∧
        BoxWord s (haloAgent s o x) e.box w k y t) ∧
    ((∀ e ∈ x.ents, entWork s o e = false) →
      (∀ e i, x.ents.zipIdx.find? (fun e => entWritten e.1) = some (e, i) → x.obj = 0 →
        ∃ t, exec (.exOperationComplete o.id) s = .next t ∧ t.vregs = s.vregs ∧ t.sregs = s.sregs ∧
          ((∀ j y, j ≠ i → x.ents[j]? = some y → y.done = true) → t.ops = s.ops.filter (fun e => decide (e.id ≠ o.id))) ∧
          ((∃ j y, j ≠ i ∧ x.ents[j]? = some y ∧ y.done = false) → findOp t o.id = some { o with kind := .halo { x with ents := x.ents.set i { e with done := true } } })) ∧
      ((∀ e ∈ x.ents, entWritten e = false) → matchBox s x = none → haloStall s o x = none → exec (.exOperationComplete o.id) s = .next s))

/-- R206, R413 to R416: a collective reads its source a word at a time, and what its thread left dirty in caches of SW pages is released at fabric scope
before others see the source; once it is read, and the contributions of the other members are there and
agree, COLLECTIVE_COMPLETE forms the reduction of its elements in the order of rank, or the contributions in that order; the result is
written a word at a time, and with nothing left the collective is over. Members that do not agree, and a timeout, end it. -/
def Collectives : Prop :=
  ∀ s (o : Op) x, findOp s o.id = some o → o.kind = .coll x →
    let b := blkOf o.w
    let u := collUnit x
    (∀ others,
      (oneEach x others = false ∨ x.res.isSome = true ∨ collUnread x ≠ [] → exec (.collectiveComplete o.id others) s = .next s) ∧
      (oneEach x others = true → x.res = none → collUnread x = [] → agreed x others = false → ∃ t, exec (.collectiveComplete o.id others) s = .next t ∧
        t.ops = s.ops.filter (fun e => decide (e.id ≠ o.id)) ∧ (x.obj = 0 → t = { shareWrites s o with ops := t.ops }) ∧
        (x.obj = 0 → s.swc = [] → t = { s with ops := t.ops })) ∧
      (oneEach x others = true → x.res = none → collUnread x = [] → agreed x others = true →
        let cs := byRank x (collSource x) others
        let off i := (if x.kind = 3 then x.rank * (x.len / x.n) else 0) + u * i
        ∃ t, ∃ y : CollOp, ∃ es, exec (.collectiveComplete o.id others) s = .next t ∧ t = { shareWrites s o with ops := t.ops } ∧
          (s.swc = [] → t = { s with ops := t.ops }) ∧ findOp t o.id = some { o with kind := .coll { x with res := some es, left := y.left, flags := y.flags } } ∧
          (∀ e ∈ es, y.left.contains ((x.b + e.1) / 8) = true) ∧
          (x.kind ≠ 2 → es = (List.range (collBytes x / u)).map (fun i =>
            (u * i, reduceAll x.op x.ty x.rm (cs.map (fun c => partOf c (off i) u)), !cs.any (fun c => badAt c (off i) u)))) ∧
          (x.kind = 2 → ∀ r c, cs[r]? = some c → ∀ i < x.len / 8, (r * x.len + 8 * i, partOf c (8 * i) 8, !badAt c (8 * i) 8) ∈ es))) ∧
    (engineFree s o x.pages = false → exec (.exOperationComplete o.id) s = .next s) ∧
    (engineFree s o x.pages = true → collUnread x ≠ [] → x.kind = 1 →
      let v := shareWrites s o
      ∃ t, ∃ y : CollOp, exec (.exOperationComplete o.id) s = .next t ∧ t = { v with ops := t.ops } ∧ (s.swc = [] → t = { s with ops := t.ops }) ∧
        findOp t o.id = some { o with kind := .coll { x with elems := y.elems } } ∧ ∃ w ∈ collUnread x,
          ∀ i, sget (0, 0) y.elems i = if (collWaiting x).contains i ∧ (x.a + u * i) / 8 = w then (1, rdMem v (tileBase b + x.a + u * i) u)
            else sget (0, 0) x.elems i) ∧
    (engineFree s o x.pages = true → collUnread x = [] → x.res = none → exec (.exOperationComplete o.id) s = .next s) ∧
    (∀ es, engineFree s o x.pages = true → collUnread x = [] → x.res = some es → x.kind = 1 → heldFor s b = false →
      (x.left ≠ [] → es.Pairwise (fun e d => e.1 + u ≤ d.1) →
        ∃ t, exec (.exOperationComplete o.id) s = .next t ∧ t = { s with ops := t.ops, mem := t.mem } ∧ ∃ w ∈ x.left,
          findOp t o.id = some { o with kind := .coll { x with left := x.left.filter (fun i => decide (i ≠ w)) } } ∧
          (∀ e ∈ es, (x.b + e.1) / 8 = w → ∀ j < u, rdByte t (tileBase b + (x.b + e.1) + j) = BitVec.ofNat 8 (e.2.1 / 2 ^ (8 * j))) ∧
          KeepsMem s t (fun a => ∃ e ∈ es, (x.b + e.1) / 8 = w ∧ tileBase b + (x.b + e.1) ≤ a ∧ a < tileBase b + (x.b + e.1) + u)) ∧
      (x.left = [] → ∃ t, exec (.exOperationComplete o.id) s = .next t ∧ t.ops = s.ops.filter (fun e => decide (e.id ≠ o.id)) ∧
        t.vregs = s.vregs ∧ t.sregs = s.sregs ∧ (x.obj = 0 → t = { s with ops := t.ops }))) ∧
    (x.res.isSome = true → exec (.collectiveTimeout o.id) s = .next s) ∧
    (x.res = none → ∃ t, exec (.collectiveTimeout o.id) s = .next t ∧ t.ops = s.ops.filter (fun e => decide (e.id ≠ o.id)) ∧ t.vregs = s.vregs ∧
      t.sregs = s.sregs ∧ (x.obj = 0 → t = { s with ops := t.ops }))

end Sys2Proof.Claims

/-- R206, R411, R413 to R415: halo boxes are sent and received, and collectives carried out, a word at a time. -/
def Obligations.ExchangesComplete : Prop := Claims.BoxesTravel ∧ Claims.HaloBoxes ∧ Claims.Collectives

/-- R421 to R424, R457, R420: plstat and plack start an operation whose completion answers with the status word, and acknowledges a Lost region of
the epoch given. A port or a device that is lost takes every active region of it to Lost with the next epoch. A command configures, reactivates
or deconfigures a region in the state that allows it, and is refused otherwise. A back-invalidation that no engine operation holds up leaves no dirty
sector of its line in the package, and writes it where the other requester does; that it acts on a line of 1,024 bytes, whose bytes it names, and how dirty
sectors of HW lines are kept, are the model's (logs 49 and 75). -/
def Obligations.PoolRegions : Prop :=
  (∀ f i spec ack s cu, (i, spec, ack) ∈ [(Instr.plstat f, specPlstat, false), (Instr.plack f, specPlack, true)] → issues spec f s cu = true →
    isQ f.d = false →
    let low := lowLane (getSplit s cu.w cu.k).mask
    (inA spec f s cu low).tag = .v → (ack = true → (inB spec f s cu low).tag = .v) → (inA spec f s cu low).data.toNat < 1024 →
    ∃ t, exec i s = .next t ∧ Goes f s cu t ∧ t.mem = s.mem ∧ t.pools = s.pools ∧ KeepsRegs 0xFF s cu t ∧
      Starts (some .ex) (getSplit s cu.w cu.k).mask (fun o => o.dst = dstOf f.d.toNat (lanesNow f s cu) ∧ ∃ e, (ack = true → e = (inB spec f s cu low).data.toNat % 2 ^ 16) ∧
        o.kind = .pool ack f.d.toNat (inA spec f s cu low).data.toNat e) s cu t) ∧
  (∀ s (o : Op) ack d r epoch, findOp s o.id = some o → o.push = none → o.kind = .pool ack d r epoch →
    let hit := ack && decide ((getPool s r).status.toNat % 4 = 2) && decide (stEpoch (getPool s r).status = epoch)
    let v : TWord := if ack = false then ⟨.v, (getPool s r).status⟩ else if hit then ⟨.v, 1⟩ else ⟨.n, 0⟩
    ∃ t, exec (.exOperationComplete o.id) s = .next t ∧ Completes o ((lanesOf o.lanes).map (fun l => (d, l, v))) s t ∧ t.mem = s.mem ∧ t.warps = s.warps ∧
      (∀ q, q ≠ r → getPool t q = getPool s q) ∧ (hit = false → getPool t r = getPool s r) ∧ (hit = true → (getPool t r).status.toNat % 4 = 3)) ∧
  (∀ s device cause i p, (i, p) ∈ [(Instr.poolLossEvent device cause, fun (q : PoolRegion) => decide (cause = 1 ∨ cause = 2 ∨ q.rdev.toNat % 16 = device)),
      (Instr.poolResponseTimeout device, fun (q : PoolRegion) => decide (q.rdev.toNat % 16 = device))] → 1 ≤ cause → cause ≤ 4 →
    ∃ t, exec i s = .next t ∧ t.vregs = s.vregs ∧ t.sregs = s.sregs ∧ t.warps = s.warps ∧
      ∀ r, ((getPool s r).status.toNat % 4 ≠ 1 → getPool t r = getPool s r) ∧
        ((getPool s r).status.toNat % 4 = 1 → p (getPool s r) = true → (getPool t r).status.toNat % 4 = 2 ∧
          stEpoch (getPool t r).status = (stEpoch (getPool s r).status + 1) % 2 ^ 16)) ∧
  (∀ i cmd ok st s, (i, cmd, ok, st) ∈ [(Instr.regionConfigure, 1, fun (r : Nat) (q : PoolRegion) => decide (q.status.toNat % 4 = 0) && regionFits s r q, 1),
      (.regionReactivate, 2, fun _ (q : PoolRegion) => decide (q.status.toNat % 4 = 3), 1),
      (.regionDeconfigure, 3, fun _ (q : PoolRegion) => decide (q.status.toNat % 4 = 1) || decide (q.status.toNat % 4 = 3), 0)] →
    (commandRegion s cmd = none → exec i s = .next s) ∧
    (∀ r q, commandRegion s cmd = some (r, q) → ∃ t, exec i s = .next t ∧ (getPool t r).cmd = 0 ∧ (getPool t r).rcmd = (if ok r q then 1 else 2) ∧
      (ok r q = true → (getPool t r).status.toNat % 4 = st) ∧ (ok r q = false → (getPool t r).status = q.status ∧ t.mem = s.mem) ∧
      ∀ n, n ≠ r → getPool t n = getPool s n)) ∧
  (∀ s region off write value,
    let p := getPool s (region % 1024)
    let key := poolBase (p.rdev.toNat % 16) + (p.rbase.toNat + off / 1024 * 1024) % 2 ^ 59
    (ownedRange s key 1024 = true → exec (.bisnp region off write value) s = .next s) ∧
    (ownedRange s key 1024 = false → ∃ t, exec (.bisnp region off write value) s = .next t ∧ (∀ e ∈ t.poolOld, e.1 / 1024 ≠ key / 1024) ∧
      (write = false → t = { s with poolOld := t.poolOld }) ∧
      (write = true → (∀ i < 1024, rdByte t (key + i) = BitVec.ofNat 8 (value / 2 ^ (8 * i))) ∧
        (s.prov = [] → KeepsMem s t (fun a => key ≤ a ∧ a < key + 1024)))))

/-- R404, R405, R455: an access of another package reads or writes populated memory that no engine owns, where this package allows it; a write
that is refused, or that meets a frozen frame, is logged and changes no byte. A load refused by its peer takes X with PAGE_PERMISSION, one that
no route delivers X with MEM_UE; nothing arrives while its link is down (R404). A link that is lost or comes up changes its bit of the link status. -/
def Obligations.PeerAccesses : Prop :=
  (∀ s src kind op ty pa len value cmp, 1 ≤ len → populated s pa = true → populated s (pa + len - 1) = true → ownedRange s pa len = false →
    dataFault s (2 ^ 40) pa len = none → s.pkg.linkst &&& 0xFFFF ≠ 0 →
    (kind = 0 → exec (.peerAccessArrival false src kind op ty pa len value cmp true) s = .next { s with outRead := rdMem s pa len }) ∧
    (kind = 1 → sget false s.frozen (pa / 2 ^ 16) = false → ∃ t, exec (.peerAccessArrival false src kind op ty pa len value cmp true) s = .next t ∧
      (frozenKey t pa = false → ∀ i < len, rdByte t (pa + i) = BitVec.ofNat 8 (value / 2 ^ (8 * i))) ∧ t.vregs = s.vregs ∧ t.sregs = s.sregs ∧
      (s.prov = [] → KeepsMem s t (fun a => pa ≤ a ∧ a < pa + len))) ∧
    (kind = 1 → sget false s.frozen (pa / 2 ^ 16) = true → ∃ t, exec (.peerAccessArrival false src kind op ty pa len value cmp true) s = .next t ∧ t.mem = s.mem ∧
      Logged s (4 + pa / 2 ^ 39) 0x05 (vsource 1 33) pa src 0 t) ∧
    (kind ≠ 0 → ∃ t, exec (.peerAccessArrival false src kind op ty pa len value cmp false) s = .next t ∧ t.mem = s.mem ∧
      Logged s 12 0x05 (vsource 3 (portOf s src)) pa src 0 t)) ∧
  (∀ s src kind op ty pa len value cmp allowed, s.pkg.linkst &&& 0xFFFF = 0 →
    exec (.peerAccessArrival false src kind op ty pa len value cmp allowed) s = .next s) ∧
  (∀ s (o : Op) x ty d n p pa, findOp s o.id = some o → o.kind = .load [x] ty d n none → o.push = none → peerOf x.key = some (p, pa) → o.id < 2 ^ 40 →
    x.lane < 32 →
    let up := s.pkg.linkst.getLsbD ((sget 0#64 o.routes p).toNat % 16)
    (up = false → ∀ op pty len value cmp allowed, exec (.peerAccessArrival true o.id p op pty pa len value cmp allowed) s = .next s) ∧
    (up = true → ∀ op pty len value cmp, ∃ t, exec (.peerAccessArrival true o.id p op pty pa len value cmp false) s = .next t ∧
      Completes o (groupWrites d x.lane (List.replicate n ⟨.x, payload causePagePermission x.va⟩)) s t ∧ t.mem = s.mem ∧ t.warps = s.warps) ∧
    (∀ lanes : Mask, lanes.getLsbD x.lane = true → ∃ t, exec (.peerAccessTimeout o.id lanes) s = .next t ∧
      Completes o (groupWrites d x.lane (List.replicate n ⟨.x, payload causeMemUe x.va⟩)) s t ∧ t.mem = s.mem ∧ t.warps = s.warps)) ∧
  (∀ s port, (∀ e ∈ s.cks, e.2.run = none) → exec (.ualinkLinkLost port) s =
    .next { s with pkg := { s.pkg with linkst := s.pkg.linkst &&& ~~~(BitVec.ofNat 64 (2 ^ (port % 16))) } }) ∧
  (∀ s port, exec (.linkUp port) s = .next { s with pkg := { s.pkg with linkst := s.pkg.linkst ||| BitVec.ofNat 64 (2 ^ (port % 17)) } })

/-! ### Clauses, choices, limits -/

/-- R42 to R46, R148 to R152, R322, R451: CLAUSE_START accepts a header that passes its checks and traps one that does not; WARP_CHOICE names the
splits that issue for the warp whose turn it is, or gives the turn to the warp chosen; a split ready for 64 choices is forced, and one held
for 256 cycles is released. A wait for a frame that lasts too long, and a warp that issues nothing for too long, trap. -/
def Obligations.ClausesAndChoices : Prop :=
  (∀ s w k, (atHeader s w k = false → exec (.clauseStart w k) s = .next s) ∧
    (atHeader s w k = true → (getSplit s w k).sup = false → ∀ h u, fetch s w (getSplit s w k) = .word h u →
      (headerFault h = none → ∃ t, exec (.clauseStart w k) s = .next t ∧ getSplit t w k = { getSplit s w k with hdr := some h } ∧
        (∀ v j, ¬(v = w ∧ j = k) → getSplit t v j = getSplit s v j) ∧ t.vregs = s.vregs ∧ t.sregs = s.sregs) ∧
      (∀ cause sub, headerFault h = some (cause, sub) → ∃ t, exec (.clauseStart w k) s = .next t ∧
        Enters true (if cause = causeExtEmulate then emuVec s ⟨w, k⟩ else supVec s ⟨w, k⟩) (trapAll cause sub (getSplit s w k).mask) u ⟨w, k⟩ t))) ∧
  (∀ s core q, q < 4 →
    let qk := 4 * core + q
    let x := getQuarter s qk
    let now := (getCore s core).cyc
    ((s.cur.isSome = true ∨ s.cur2.isSome = true ∨ slotUsed s qk now = true) → exec (.warpChoice core q) s = .next s) ∧
    (s.cur = none → s.cur2 = none → slotUsed s qk now = false →
      (∀ w a r, x.turn = some w → turnOver s x w now = false → chooseSplits s x w now = a :: r → ∃ t, exec (.warpChoice core q) s = .next t ∧
        t.cur = some ⟨w, a.1⟩ ∧ t.cur2 = r.head?.map (fun e => ⟨w, e.1⟩) ∧ t.vregs = s.vregs ∧ t.sregs = s.sregs ∧ t.mem = s.mem) ∧
      (∀ w, x.turn = none → chooseWarp s core q x now = some w → ∃ t, exec (.warpChoice core q) s = .next t ∧ (getQuarter t qk).turn = some w ∧
        (getQuarter t qk).start = now) ∧
      (x.turn = none → chooseWarp s core q x now = none → ∃ t, exec (.warpChoice core q) s = .next t ∧ t.cur = none ∧ (getQuarter t qk).turn = none))) ∧
  (∀ s w k, ((getSplit s w k).starve = 63 → ∃ t, exec (.starveForce w k) s = .next t ∧ t = { s with warps := t.warps } ∧
      getSplit t w k = { getSplit s w k with starve := 64 }) ∧
    ((getSplit s w k).starve ≠ 63 → exec (.starveForce w k) s = .next s) ∧
    ((getSplit s w k).rhold = 255 → rcvHeld s w k (getSplit s w k) = true → ∃ t, exec (.reconvergenceHoldLimit w k) s = .next t ∧
      t = { s with warps := t.warps } ∧ getSplit t w k = { getSplit s w k with rhold := 256 }) ∧
    (rcvHeld s w k (getSplit s w k) = false → exec (.reconvergenceHoldLimit w k) s = .next s)) ∧
  (∀ s w k, frameWait s (getSplit s w k) = none → exec (.versionFull w k) s = .next s) ∧
  (∀ s w k as since op, frameWait s (getSplit s w k) = some (as, since, op) →
    (framesOver s as since (getCore s (coreOf s w)).cyc = [] → exec (.versionFull w k) s = .next s) ∧
    (∀ e r, framesOver s as since (getCore s (coreOf s w)).cyc = e :: r → (getBlock s (blkOf w)).state = 1 → (getSplit s w k).sup = false →
      ∃ t req u, exec (.versionFull w k) s = .next t ∧ req.cause = causeVersionFull ∧ req.sub = e.1 ∧
        (∀ x v, op = none → fetch s w (getSplit s w k) = .word x v → u = v) ∧ (∀ o, op = some o → u = endOp s o.id) ∧
        Enters true (supVec s ⟨w, k⟩) req u ⟨w, k⟩ t)) ∧
  (∀ s w, (watchDue s w = false → exec (.watchdog w) s = .next s) ∧
    (watchDue s w = true → ∀ k, watchPick s w (getCore s (coreOf s w)).cyc = some (k, getSplit s w k) → (getSplit s w k).sup = false →
      ∃ t, exec (.watchdog w) s = .next t ∧ (getSplit t w k).sup = true ∧ vpc (getSplit t w k) = supVec s ⟨w, k⟩ ∧
        (getWarp t w).scause.toNat % 2 ^ 16 = causeWatchdog ∧ (getWarp t w).spc = vpc (getSplit s w k) ∧
        t.vregs = s.vregs ∧ t.sregs = s.sregs))

/-- R474: PAGE_REQUEST_POST gives the oldest stalled access without a request the next entry of its die's ring and sends its interrupt, or sends a message; prqdone lets the accesses walk
again whose requests it covers; a host's answer does so for its page, and a failure marks the page for the accesses that wait for it, and for no others. -/
def Obligations.PageRequests : Prop :=
  (∀ s, s.stalls.any (canPost s) = false → exec .pageRequestPost s = .next s) ∧
  (∀ s a y r, s.stalls = a ++ y :: r → a.any (canPost s) = false → canPost s y = true → ∃ t, exec .pageRequestPost s = .next t ∧
    t = { s with stalls := t.stalls, prq := t.prq, hostOut := t.hostOut } ∧
    (y.host = true → t.hostOut = .pageRequest (y.space % 2 ^ 20) y.va y.kind :: s.hostOut ∧ t.prq = s.prq ∧ t.stalls = a ++ { y with req := some 0 } :: r) ∧
    (y.host = false →
      let n := (ringOf s y.die).post + 1
      t.hostOut = .msix y.die :: s.hostOut ∧ t.stalls = a ++ { y with req := some n } :: r ∧ (ringOf t y.die).post = n ∧ (ringOf t y.die).done = (ringOf s y.die).done ∧
        sget 0 (ringOf t y.die).ents ((n - 1) % 64) = n % 2 ^ 32 * 2 ^ 96 + y.kind % 8 * 2 ^ 85 + y.space % 2 ^ 20 * 2 ^ 64 + y.va % 2 ^ 56 ∧
        ∀ d, d ≠ y.die → ringOf t d = ringOf s d)) ∧
  (∀ s die v, die < 4 → ∃ t, exec (.prqdone die v) s = .next t ∧ t = { s with prq := t.prq, stalls := t.stalls } ∧
    ringOf t die = { ringOf s die with done := v } ∧
    ∀ y, y ∈ t.stalls ↔ y ∈ s.stalls ∧ ¬(y.die = die ∧ y.host = false ∧ ∃ n, y.req = some n ∧ n ≤ v)) ∧
  (∀ s die pasid va,
    let hit (y : Stall) : Bool := decide (y.die = die) && y.host && decide (y.space = 2 ^ 20 + pasid % 2 ^ 20) && decide (y.va / 2 ^ 16 = va / 2 ^ 16) && y.req.isSome
    (s.stalls.any hit = false → ∀ ok, exec (.pageRequestGroupResponse die pasid va ok) s = .next s) ∧
    (s.stalls.any hit = true →
      exec (.pageRequestGroupResponse die pasid va true) s = .next { s with stalls := s.stalls.filter (fun y => !hit y) } ∧
      ∃ t, exec (.pageRequestGroupResponse die pasid va false) s = .next t ∧ t.stalls = s.stalls.filter (fun y => !hit y) ∧ t.mem = s.mem ∧
        t.vregs = s.vregs ∧ t.sregs = s.sregs ∧
        (∀ w k, getSplit t w k = if waitsOn (getSplit s w k).susp die (2 ^ 20 + pasid % 2 ^ 20) (va / 2 ^ 16) = true
          then { getSplit s w k with denied := va / 2 ^ 16 :: (getSplit s w k).denied } else getSplit s w k) ∧
        ∀ o ∈ s.ops, (∀ x ∈ opStalls s o, waitsOn (some x) die (2 ^ 20 + pasid % 2 ^ 20) (va / 2 ^ 16) = false) → o ∈ t.ops))

/-! ### Device registers, the host, the management controller -/

/-- R320, R454 to R463, R474: the host writes packet words of a slot that is not pending and reads them and the status words; what it writes to a pending
slot is discarded and counted. A doorbell on a free slot of the enabled window takes the packet or says why not, and is discarded otherwise; a
packet enters its die's mailbox with source 4. The host reads and writes memory that no engine owns. The registers hold what is written to
their defined bits under the conditions of their rules; loading word 0 of a log entry captures it; rsgo starts a restore, which ends with a
state of its own. The addresses by which a step names the host's regions are the model's (log 12), and so are the state 7 of a restore without region tables
(log 37) and the snoop of a line of 1,024 bytes that takes the value the step names (log 49). -/
def Obligations.HostAndRegisters : Prop :=
  (∀ s die k, die < 4 → k < 16 →
    let x := getSlot s die k
    let why := packetReason (x.words.getD 0 0)
    (x.state = 1 ∨ s.mgmt.step < 6 → ∃ t, exec (.doorbell die k) s = .next t ∧ t = { s with hdiscard := t.hdiscard } ∧
      sget 0 t.hdiscard die = min (2 ^ 32 - 1) (sget 0 s.hdiscard die + 1)) ∧
    (x.state ≠ 1 → 6 ≤ s.mgmt.step → why ≠ 0 → ∃ t, exec (.doorbell die k) s = .next t ∧ getSlot t die k = { x with state := 3, reason := why } ∧
      t.hostQ = s.hostQ) ∧
    (x.state ≠ 1 → 6 ≤ s.mgmt.step → why = 0 → ∃ t, exec (.doorbell die k) s = .next t ∧ t.hostQ = s.hostQ ++ [(die, k)] ∧
      getSlot t die k = { x with state := 1, reason := 0, copy := (List.range 8).map (fun i => x.words.getD i 0) })) ∧
  (∀ s die k len v, die < 4 → k < 16 →
    let x := getSlot s die k
    let at_ := windowBase + 0x4000 * die + 0x80 * k
    let unread := ((getMail s die).filter (fun p => decide (packetSource p ≠ 5))).length
    (exec (.hostCxlMemAccess false (at_ + 0x48) len v) s =
      .next { s with outRead := x.state % 4 + (if x.state = 3 then x.reason % 256 * 256 else 0) }) ∧
    (unread ≤ 240 → exec (.hostCxlMemAccess false (windowBase + 0x4000 * die + 0x1000) len v) s =
      .next { s with outRead := 240 - unread + sget 0 s.hdiscard die % 2 ^ 32 * 2 ^ 16 }) ∧
    (∀ i < 8, exec (.hostCxlMemAccess false (at_ + 8 * i) len v) s = .next { s with outRead := (x.words.getD i 0).toNat }) ∧
    (x.state = 1 → ∀ j < 0x80, ∃ t, exec (.hostCxlMemAccess true (at_ + j) len v) s = .next t ∧ t = { s with hdiscard := t.hdiscard } ∧
      sget 0 t.hdiscard die = min (2 ^ 32 - 1) (sget 0 s.hdiscard die + 1)) ∧
    (x.state ≠ 1 →
      (∀ i < 8, ∃ t, exec (.hostCxlMemAccess true (at_ + 8 * i) len v) s = .next t ∧ t = { s with hslots := t.hslots } ∧
        (getSlot t die k).state = x.state ∧ ∀ j < 8, (getSlot t die k).words.getD j 0 = if j = i then BitVec.ofNat 64 v else x.words.getD j 0) ∧
      exec (.hostCxlMemAccess true (at_ + 0x40) len v) s = if v % 2 = 1 then exec (.doorbell die k) s else .next s)) ∧
  (∀ s, (packetReady s = none → exec .hostPacketEntry s = .next s) ∧
    ∀ die k, packetReady s = some (die, k) → ∃ t p, exec .hostPacketEntry s = .next t ∧ getMail t die = getMail s die ++ [p] ∧
      (getSlot t die k).state = 2 ∧ packetSource p = 4 ∧ packetType p = ((getSlot s die k).copy.getD 0 0).toNat % 256 ∧
      ∀ i < 7, p.words.getD (i + 1) 0 = (getSlot s die k).copy.getD (i + 1) 0) ∧
  (∀ s pa len value, 1 ≤ len → populated s pa = true → populated s (pa + len - 1) = true → ownedRange s pa len = false →
    (dataFault s (2 ^ 40) pa len = none → exec (.hostCxlMemAccess false pa len value) s = .next { s with outRead := rdMem s pa len }) ∧
    (sget false s.frozen (pa / 2 ^ 16) = false → ∃ t, exec (.hostCxlMemAccess true pa len value) s = .next t ∧ t.vregs = s.vregs ∧ t.sregs = s.sregs ∧
      (frozenKey t pa = false → ∀ i < len, rdByte t (pa + i) = BitVec.ofNat 8 (value / 2 ^ (8 * i))) ∧ (s.prov = [] → KeepsMem s t (fun a => pa ≤ a ∧ a < pa + len))) ∧
    (sget false s.frozen (pa / 2 ^ 16) = true → ∃ t, exec (.hostCxlMemAccess true pa len value) s = .next t ∧ t.mem = s.mem)) ∧
  (∀ s off write value,
    let key := hostBase + off % 2 ^ 52 / 1024 * 1024
    (ownedRange s key 1024 = true ∨ write = false → exec (.cxlCacheSnoop off write value) s = .next s) ∧
    (ownedRange s key 1024 = false → write = true → ∃ t, exec (.cxlCacheSnoop off write value) s = .next t ∧
      ∀ i < 1024, rdByte t (key + i) = BitVec.ofNat 8 (value / 2 ^ (8 * i)))) ∧
  (∀ s v,
    (s.pkg.ualen &&& 0xFFFF = 0 → exec (.pkgidWrite v) s = .next { s with pkg := { s.pkg with pkgid := BitVec.ofNat 64 v &&& 0x3FF } }) ∧
    (s.pkg.ualen &&& 0xFFFF ≠ 0 → exec (.pkgidWrite v) s = .next s) ∧
    (∃ t, exec (.halotmoWrite v) s = .next t ∧ t = { s with pkg := t.pkg } ∧ t.pkg.halotmo.toNat = max 1 (v % 2 ^ 16)) ∧
    (∀ p, p < 1024 → ∃ t, exec (.routeTableWrite p v) s = .next t ∧ t = { s with routes := t.routes } ∧
      ∀ q, sget 0 t.routes q = if q = p then BitVec.ofNat 64 v &&& 0x10F else sget 0 s.routes q) ∧
    (s.rsstat.toNat % 256 = 1 → exec .rsgo s = .next s) ∧ (s.rsstat.toNat % 256 ≠ 1 → exec .rsgo s = .next { s with rsstat := 1 })) ∧
  (∀ s v thread,
    let reg (off : Nat) (t : State) : Word := (regRead t thread off).2
    (∃ t, exec (.registerWrite 0x008 v) s = .next t ∧ reg 0x008 t = BitVec.ofNat 64 v &&& 0xFFFF) ∧
    (∃ t, exec (.registerWrite 0x018 v) s = .next t ∧ reg 0x018 t = BitVec.ofNat 64 v &&& 1) ∧
    (∃ t, exec (.registerWrite 0x80008 v) s = .next t ∧ reg 0x80008 t = BitVec.ofNat 64 v) ∧
    (∀ i, 1 ≤ i → i < 8 → ∃ t, exec (.registerWrite (0x10000 + 8 * i) v) s = .next t ∧ mboxOf t i = BitVec.ofNat 64 v) ∧
    (s.mgmt.running = none → v < 2 ^ 64 → v.testBit 8 = true → 1 ≤ v % 256 → v % 256 ≤ 6 → ∃ t, exec (.registerWrite 0x10000 v) s = .next t ∧
      t.mgmt.running = some (v % 256) ∧ mboxOf t 8 = 0)) ∧
  (∀ s thread log entry, log < 13 → entry < 4096 → ∃ t, exec (.vesperEntryCapture thread log entry) s = .next t ∧ t = { s with vcap := t.vcap } ∧
    sget none t.vcap thread = some (4096 * log + entry, sget 0 s.vents (4096 * log + entry))) ∧
  (∀ s, (s.rsstat.toNat % 256 ≠ 1 → exec .regionRestoreDone s = .next s) ∧
    (s.rsstat.toNat % 256 = 1 → ∃ t, exec .regionRestoreDone s = .next t ∧ t.rsstat.toNat % 256 ≠ 1 ∧ t.vregs = s.vregs ∧ t.sregs = s.sregs ∧
      t.warps = s.warps ∧ (s.pkg.vrtab = 0 → t = { s with rsstat := 7 })))

namespace Sys2Proof.Claims

/-- R464, R465: the controller accepts a configuration block: its header has its layout, its digest matches, the vendor root key signed it, and its
security version is not below the one recorded. -/
def acceptsConfig (s : State) (cfg : ConfigBlock) : Prop :=
  headerFits cfg.header cfg.len = true ∧ headerField cfg.header 4 5 = 4 ∧ cfg.intact = true ∧ cfg.signer = .root ∧ s.mgmt.secver ≤ cfg.secver

/-- R14, R464, R465: it accepts a dispatcher program for a die under the configuration block: also one that a customer key signed which the block
lists among its first four. -/
def acceptsProgram (cfg : ConfigBlock) (d : Nat) (x : ImageFile) : Prop :=
  headerFits x.header x.len = true ∧ x.kind = 3 ∧ x.die = d ∧ x.intact = true ∧ (x.signer = .root ∨ ∃ k ∈ cfg.keys.take 4, x.signer = .customer k) ∧
    cfg.minima.getD 2 0 ≤ x.secver ∧ x.vregs ≤ 32

/-- R14, R467: a die leaves reset with its dispatcher where a program is accepted for it, and stays in reset otherwise. -/
def dispatchersStart (cfg : ConfigBlock) (xs : List ImageFile) (t : State) : Prop :=
  ∀ d < 4, ((∃ x ∈ xs, acceptsProgram cfg d x) → getBlock t d = Block.dispatcher d) ∧ ((∀ x ∈ xs, ¬acceptsProgram cfg d x) → getBlock t d = Block.none)

end Sys2Proof.Claims

/-- R464 to R472: a command of the mailbox that runs leaves done, its status and its results; a power cap outside 1500 W to 3400 W is refused, and
a reset with a good argument is carried out with what stands in module flash. A reset clears every die's registers and starts the dies whose program is accepted, a warm one keeping HBM and
the logs. A sensor at its trip point takes the power away; otherwise the clock of each die moves by 100 MHz within 1000 MHz to 2500 MHz. A recalibration reports the errors corrected since the last, and changes only the
temperature of a stack that has moved by 5 °C. The numbers of the logs and the places of the results (log 38), what a refused configuration block leaves, what
a warm reset keeps and when RESET completes (log 39), the comparisons at the cap and the trip points and the die of each sensor (log 52), the status of an
attestation buffer that cannot be written (log 54) and when corrected errors are reported (log 78) are the model's. -/
def Obligations.ManagementController : Prop :=
  (∀ s, (∀ i code, (i, code) ∈ [(Instr.readLog, 1), (.readSavedLog, 2), (.attest, 3), (.setPowerCap, 4), (.reset, 5), (.status, 6)] →
      s.mgmt.running ≠ some code → exec i s = .next s) ∧
    (∀ i ents metas code, (i, code, ents, metas) ∈ [(Instr.readLog, 1, s.vents, s.vmeta), (.readSavedLog, 2, s.flashEnts, s.flashMeta)] →
      s.mgmt.running = some code →
      let log := (mboxOf s 1).toNat
      let count := (sget VLog.init metas log).count
      let first := (mboxOf s 2).toNat
      ∃ t, exec i s = .next t ∧ t = { s with mgmt := t.mgmt } ∧ t.mgmt.running = none ∧ (12 < log → mboxOf t 8 = 0x101) ∧
        (log ≤ 12 → mboxOf t 8 = 1 ∧ mboxOf t 32 = BitVec.ofNat 64 count ∧ ∀ j < 7, ∀ k < 4, first + j < count →
          mboxOf t (33 + 4 * j + k) = BitVec.ofNat 64 (sget 0 ents (4096 * log + (first + j) % 4096) / 2 ^ (64 * k)))) ∧
    (s.mgmt.running = some 3 → (mboxOf s 6).toNat < 152 + 80 * s.mgmt.images.length →
      ∃ t, exec .attest s = .next t ∧ t = { s with mgmt := t.mgmt } ∧ t.mgmt.running = none ∧ mboxOf t 8 = 0x101 ∧
        mboxOf t 32 = BitVec.ofNat 64 (152 + 80 * s.mgmt.images.length)) ∧
    (s.mgmt.running = some 3 →
      let pa := (mboxOf s 5).toNat
      let len := 152 + 80 * s.mgmt.images.length
      let fits := decide (pa % 8 = 0) && populated s pa && populated s (pa + len - 1) && decide (pa / 2 ^ 39 = (pa + len - 1) / 2 ^ 39)
      len ≤ (mboxOf s 6).toNat →
      ∃ t, exec .attest s = .next t ∧ t.mgmt.running = none ∧ t.vregs = s.vregs ∧ t.sregs = s.sregs ∧ t.warps = s.warps ∧
        (fits = false → mboxOf t 8 = 0x101 ∧ t = { s with mgmt := t.mgmt }) ∧
        (fits = true → mboxOf t 8 = 1 ∧ mboxOf t 32 = BitVec.ofNat 64 len ∧
          (s.prov = [] → (∀ i < len, frozenKey t (pa + i) = false) →
            (∀ j < len / 8, rdMem t (pa + 8 * j) 8 = (attestWords s).getD j 0) ∧ rdMem t pa 8 = 0x50564152 + len % 2 ^ 32 * 2 ^ 32 ∧
            (∀ i < 4, rdMem t (pa + 8 + 8 * i) 8 = (mboxOf s (1 + i)).toNat) ∧ KeepsMem s t (fun a => pa ≤ a ∧ a < pa + len)))) ∧
    (s.mgmt.running = some 4 →
      let w := (mboxOf s 1).toNat
      ∃ t, exec .setPowerCap s = .next t ∧ t = { s with mgmt := t.mgmt } ∧ t.mgmt.running = none ∧
        (1500 ≤ w → w ≤ 3400 → t.mgmt.cap = w ∧ mboxOf t 8 = 1 ∧ mboxOf t 32 = BitVec.ofNat 64 w) ∧
        (w < 1500 ∨ 3400 < w → t.mgmt.cap = s.mgmt.cap ∧ mboxOf t 8 = 0x101 ∧ mboxOf t 32 = BitVec.ofNat 64 s.mgmt.cap)) ∧
    (s.mgmt.running = some 5 →
      (s.mgmt.powered = true → ∃ u n, u = { s with mgmt := { s.mgmt with running := none, mbox := u.mgmt.mbox } } ∧ mboxOf u 8 = 1 ∧
        ((mboxOf s 1).toNat = 0 → exec .reset s = exec (.warmReset s.mgmt.flashImages) u) ∧
        ((mboxOf s 1).toNat = 1 → exec .reset s = exec (.coldReset s.mgmt.flashCfg s.mgmt.flashImages n) u)) ∧
      (1 < (mboxOf s 1).toNat → ∃ t, exec .reset s = .next t ∧ t = { s with mgmt := t.mgmt } ∧ t.mgmt.running = none ∧ mboxOf t 8 = 0x101)) ∧
    (s.mgmt.running = some 6 → ∃ t, exec .status s = .next t ∧ t = { s with mgmt := t.mgmt } ∧ t.mgmt.running = none ∧ mboxOf t 8 = 1 ∧
      mboxOf t 32 = BitVec.ofNat 64 s.mgmt.step ∧ mboxOf t 33 = BitVec.ofNat 64 s.mgmt.absent ∧ mboxOf t 34 = BitVec.ofNat 64 s.mgmt.failed)) ∧
  (∀ s cfg xs absent, ∃ t, exec (.coldReset cfg xs absent) s = .next t ∧ t.vregs = [] ∧ t.sregs = [] ∧ t.ops = [] ∧ t.vents = [] ∧ t.mgmt.powered = true ∧
    t.mgmt.colds = s.mgmt.colds + 1 ∧ (¬Claims.acceptsConfig s cfg → t.warps = [] ∧ t.mgmt.step = 0 ∧ t.mgmt.config = none ∧ t.mgmt.secver = s.mgmt.secver) ∧
    (Claims.acceptsConfig s cfg → t.mgmt.step = 6 ∧ t.mgmt.secver = cfg.secver ∧ t.mgmt.config = some cfg ∧ t.pkg.pkgid = BitVec.ofNat 64 (cfg.pkgid % 1024) ∧
      (∀ i < 8, absent.testBit i = true → t.mgmt.absent.testBit i = true) ∧ Claims.dispatchersStart cfg xs t)) ∧
  (∀ s xs, (s.mgmt.powered = false → exec (.warmReset xs) s = .next s) ∧
    (s.mgmt.powered = true → ∃ t, exec (.warmReset xs) s = .next t ∧ t.vregs = [] ∧ t.sregs = [] ∧ t.ops = [] ∧ t.vents = s.vents ∧
      ((∀ e ∈ s.cks, (getCk s e.1).run = none) → Memory.wf s.mem = true → (∀ e ∈ s.poolOld, poolBase 0 ≤ e.1) → ∀ a, a < regBase → rdByte t a = rdByte s a) ∧
      (∀ r, (getCk t r).run = none) ∧ t.mgmt.secver = s.mgmt.secver ∧ t.mgmt.config = s.mgmt.config ∧
      (s.mgmt.config = none → t.mgmt.step = 0 ∧ ∀ d < 4, getBlock t d = Block.none) ∧
      (∀ cfg, s.mgmt.config = some cfg → t.mgmt.step = 6 ∧ Claims.dispatchersStart cfg xs t))) ∧
  (∀ s power temps, s.mgmt.powered = true →
    ((∃ k < 13, tripAt k ≤ temps.getD k 0) → ∃ t, exec (.powerPoll power temps) s = .next t ∧ t.mgmt.powered = false ∧ t.flashEnts = s.vents ∧
      t.mem = s.mem) ∧
    ((∀ k < 13, temps.getD k 0 < tripAt k) → ∃ t, exec (.powerPoll power temps) s = .next t ∧ t = { s with mgmt := t.mgmt } ∧
      ∀ d < 4, t.mgmt.clocks.getD d 0 =
        if s.mgmt.cap < power ∨ ∃ k < 13, throttleAt k < temps.getD k 0 ∧ (sensorDies k).contains d = true
        then max 1000 (s.mgmt.clocks.getD d 2500 - 100) else min 2500 (s.mgmt.clocks.getD d 2500 + 100))) ∧
  (∀ s power temps, s.mgmt.powered = false → exec (.powerPoll power temps) s = .next s ∧ step s = .fault .poweredOff) ∧
  (∀ s stack temp, stack < 8 →
    let old := s.mgmt.calib.getD stack 0
    (∃ t, exec (.hbmRecalibration stack temp) s = .next t ∧ t = { (correctedErrors s stack).foldl (logCorrected stack) s with mgmt := t.mgmt } ∧
      t = { s with mgmt := t.mgmt, vents := t.vents, vmeta := t.vmeta, vseq := t.vseq } ∧
      (old + 50 ≤ temp ∨ temp + 50 ≤ old → ∀ i < 8, t.mgmt.calib.getD i 0 = if i = stack then temp else s.mgmt.calib.getD i 0) ∧
      (temp < old + 50 → old < temp + 50 → t.mgmt = s.mgmt)) ∧
    (∀ unit a b, unit < 34 → Claims.Logged s (4 + stack) 0x02 (vsource 1 unit) unit a b (logCorrected stack s (unit, a, b))))

/-! ### The whole machine -/

namespace Sys2Proof.Claims

/-- A word by its fields, in the order of the spec's encoded examples: STALL, opcode, D, A, B, C, TY, MOD. -/
def mk (stall : BitVec 3) (d a b c : BitVec 8) (ty : BitVec 4) (md : BitVec 16) : Fields :=
  { stall := stall, d := d, a := a, b := b, c := c, ty := ty, md := md }

/-- Words of the specification's own encoded examples, with what they stand for. -/
def exampleWords : List (Word × Instr) :=
  [(0xA430401020380000, .fma (mk 5 0x04 0x01 0x02 0x03 8 0)), (0x6030600FFE43FFFE, .add (mk 3 0x06 0x00 0xFF 0xE4 3 0xFFFE)),
   (0x6300302FF0130000, .cnd (mk 3 0x03 0x02 0xFF 0x01 3 0)), (0x4350605FFE40FFFF, .mrg (mk 2 0x06 0x05 0xFF 0xE4 0 0xFFFF)),
   (0x2760201E4E480000, .red (mk 1 0x02 0x01 0xE4 0xE4 8 0)), (0x2800002E4FF00003, .bra (mk 1 0x00 0x02 0xE4 0xFF 0 3)),
   (0x08BE4E4E4E400000, .exit (mk 0 0xE4 0xE4 0xE4 0xE4 0 0)), (0x101E4C2060880000, .st (mk 0 0xE4 0xC2 0x06 0x08 8 0)),
   (0x12003C10E0170604, .atom (mk 0 0x03 0xC1 0x0E 0x01 7 0x0604)), (0x135E4E4FF0100001, .aoinit (mk 0 0xE4 0xE4 0xFF 0x01 0 1)),
   (0x142E4C4C6C701012, .tcpgl (mk 0 0xE4 0xC4 0xC6 0xC7 0 0x1012)), (0x18100D9DAE480080, .mmx (mk 0 0x00 0xD9 0xDA 0xE4 8 0x0080)),
   (0x08700E4E4FF0FFEA, .loop (mk 0 0x00 0xE4 0xE4 0xFF 0 0xFFEA)), (0x118CAC0E4E400001, .vopen (mk 0 0xCA 0xC0 0xE4 0xE4 0 1)),
   (0x1A40403E4E400000, .ralloc (mk 0 0x04 0x03 0xE4 0xE4 0 0)), (0x1C0E4E4E4E400001, .tret (mk 0 0xE4 0xE4 0xE4 0xE4 0 1))]

end Sys2Proof.Claims

/-- R14, R92, R352, R455, R456, R458, R467: what reset leaves. Each die has its dispatcher warp in slot 0 of quarter 0 with 32 vector registers;
the floating-point control and flags are clear, the package registers, the route table and the restore registers hold their reset values. That
the vendor program stands for what it does, so that its warp has no split, that memory lists nothing, and that reset is the state after a cold reset
that found every image good, with power on and all six steps done, are the model's choices (logs 4, 7 and 13). -/
def Obligations.ResetValues : Prop :=
  let s := State.reset
  s.mgmt.powered = true ∧ s.mgmt.step = 6 ∧ s.pkg = { Pkg.init with pkgid := 0, ualen := 0, halotmo := 1000, poolen := 0, linkst := 0 } ∧
    s.rsreg = 0 ∧ s.rsdesc = 0 ∧ s.rsstep = 0 ∧ s.rsstat = 0 ∧ (∀ p, sget 0#64 s.routes p = 0) ∧ (∀ w l, sget 0#6 s.fsr (lkey w l) = 0) ∧
    (∀ d < 4, (getBlock s d).disp = true ∧ (getBlock s d).die = d ∧ (getBlock s d).core = 0 ∧ (getWarp s (32 * d)).live = true ∧
      (getWarp s (32 * d)).quarter = 0 ∧ (getWarp s (32 * d)).slot = 0 ∧ (getWarp s (32 * d)).vregs = 32 ∧ (getWarp s (32 * d)).fcr = 0 ∧
      (getWarp s (32 * d)).tvec = 0 ∧ (getWarp s (32 * d)).tcause = 0) ∧
    (∀ w, (getWarp s w).live = true → w = 0 ∨ w = 32 ∨ w = 64 ∨ w = 96) ∧ (∀ r, (getPool s r).status.toNat % 4 = 0) ∧
    Memory.wf s.mem = true

/-- R42, R47, R51: where the split that issues stands at a word of its clause and its fetch reaches eight bytes that no store has changed since the
block's launch began, over no link that is down, the step runs the instruction that those bytes decode to. A pending step of the device goes first; the second split of the cycle
issues after the first; then the step that is due by itself happens, and otherwise time passes. Without power nothing runs. The order of
steps is the model's (log 2). -/
def Obligations.StepRunsDecodedWord : Prop :=
  ∀ s, (s.mgmt.powered = false → step s = .fault .poweredOff) ∧
    (s.mgmt.powered = true →
      (∀ e r, s.agenda = e :: r → step s = exec e { s with agenda := r }) ∧
      (s.agenda = [] →
        (∀ cu, s.cur = some cu →
          let sp := getSplit s cu.w cu.k
          let a := { agentOf s cu.w sp.sup with denied := sp.denied }
          sp.mask ≠ 0 → sp.rem ≠ 0 → sp.susp = none → (getBlock s (blkOf cu.w)).killed = false →
          ∀ l key i r, checkAddr s a (vpc sp).toNat 8 .fetch = .ok l key → peerHeld s s.routes key = false →
            decodeBytes ((List.range 8).map (fun j => rdByte s (key + j))) = .ok (i, r) →
            (∀ e ∈ sget [] s.icode key, (getBlock s a.blk).node < e.2 → e.1 = BitVec.ofNat 64 (rdMem s key 8)) →
            step s = exec i (touch s a (vpc sp).toNat l false)) ∧
        (s.cur = none → ∀ cu, s.cur2 = some cu → step s = .next { s with cur := some cu, cur2 := none }) ∧
        (s.cur = none → s.cur2 = none → ∀ e, pickEvent s = some e → step s = exec e s) ∧
        (s.cur = none → s.cur2 = none → pickEvent s = none → step s = .next (passTime s))))

/-- R51, R62, R63: words of the specification's encoded examples decode to what they stand for, also from the eight bytes in which memory holds
them; an unassigned opcode and an extension opcode decode to themselves (R64, R66). -/
def Obligations.DecodeWords : Prop :=
  (∀ e ∈ exampleWords, decode e.1 = e.2 ∧
    decodeBytes ((List.range 8).map (fun i => e.1.extractLsb' (8 * i) 8)) = .ok (e.2, [])) ∧
  (∀ f, decode (wordOf 0x00F f) = .unassignedOpcode 0x00F f ∧ decode (wordOf 0x1E0 f) = .extensionOpcode 0x1E0 f)

/-- R51, R63, R64, R66: every instruction that its own word names is read back from that word with every field. -/
def Obligations.DecodeEncode : Prop := ∀ i w, i.coded = true → encode i = some w → decode w = i

/-- R51, R63, R64, R66: every word is the word of the instruction it decodes to, so that no two words mean one instruction. -/
def Obligations.EncodeDecode : Prop := ∀ w, (decode w).coded = true ∧ encode (decode w) = some w

/-- R3: a write of n bytes leaves the value's bytes, the least significant at the lowest address, and no other byte changes; reading the n bytes
gives the value back. -/
def Obligations.MemoryReadAfterWrite : Prop :=
  ∀ s k n v, (∀ i < n, rdByte (wrMem s k n v) (k + i) = BitVec.ofNat 8 (v / 2 ^ (8 * i))) ∧
    (∀ a, a < k ∨ k + n ≤ a → rdByte (wrMem s k n v) a = rdByte s a) ∧ rdMem (wrMem s k n v) k n = v % 2 ^ (8 * n)

/-- The canonical form of memory is kept by every step: keys strictly rising, and no byte listed that reads as an unlisted one does (log 4). -/
def Obligations.StepKeepsMemoryCanonical : Prop := ∀ s t, Memory.wf s.mem = true → step s = .next t → Memory.wf t.mem = true

namespace Sys2Proof.Claims

/-! ### Rounding -/

/-- The rational value of a finite f64, f32, f16 or bf16 word (R100). -/
def floatValue (ty : BitVec 4) (x : Word) : ℚ :=
  let bias : Int := if ty = 8 then 1023 else if ty = 10 then 15 else 127
  let e := magBits ty x / 2 ^ fracBits ty
  let m := magBits ty x % 2 ^ fracBits ty
  (if signOf ty x then -1 else 1) *
    (if e = 0 then (m : ℚ) * 2 ^ (1 - bias - fracBits ty) else ((2 ^ fracBits ty + m : Nat) : ℚ) * 2 ^ ((e : Int) - bias - fracBits ty))

/-- A finite word with no bit above its width. -/
def isFinite (ty : BitVec 4) (x : Word) : Bool := decide (magBits ty x < infMag ty) && decide (x.toNat < 2 ^ floatWidth ty)

/-- Half a unit above the largest finite magnitude, where rounding to nearest overflows (R102). -/
def overflowAt (ty : BitVec 4) : ℚ :=
  let top := floatWord ty false (infMag ty - 1)
  floatValue ty top + (floatValue ty top - floatValue ty (floatWord ty false (infMag ty - 2))) / 2

/-- R102 under RNE: r is the word of a finite value nearest to q, of two the one with an even last place; or, from half a unit above the largest
finite magnitude on, the infinity of q's sign. -/
def NearestEven (ty : BitVec 4) (q : ℚ) (r : Word) : Prop :=
  if overflowAt ty ≤ |q| then r = floatWord ty (decide (q < 0)) (infMag ty)
  else isFinite ty r = true ∧ ∀ y, isFinite ty y = true →
    |floatValue ty r - q| ≤ |floatValue ty y - q| ∧
      (|floatValue ty r - q| = |floatValue ty y - q| → floatValue ty y ≠ floatValue ty r → r.getLsbD 0 = false)

/-- Arithmetic with one rounding: encoding row, operands read, the exact value (R110). -/
def arithRows (f : Fields) : List (Instr × OpSpec × Nat × (ℚ → ℚ → ℚ → ℚ)) :=
  [(.fadd f, specFadd, 2, fun a b _ => a + b),
   (.fsub f, specFsub, 2, fun a b _ => a - b),
   (.fmul f, specFmul, 2, fun a b _ => a * b),
   (.fma f, specFma, 3, fun a b c => a * b + c),
   (.fms f, specFms, 3, fun a b c => a * b - c),
   (.fnma f, specFnma, 3, fun a b c => -(a * b) + c),
   (.fnms f, specFnms, 3, fun a b c => -(a * b) - c)]

end Sys2Proof.Claims

/-- R100, R102, R110: a sum, difference, product or fused operation on finite operands in round to nearest even, with no trap enabled and fcr[8]
clear, is the exact rational value rounded once. -/
def Obligations.ArithmeticRoundsOnce : Prop :=
  ∀ f i spec n h s cu, (i, spec, n, h) ∈ arithRows f → issues spec f s cu = true → isQ f.d = false →
    fpEnables (getWarp s cu.w).fcr = 0 → (getWarp s cu.w).fcr.getLsbD 8 = false →
    isImm f.b = true ∨ isImm f.c = true ∨ f.md.toNat % 8 = 0 ∨ (f.md.toNat % 8 = 5 ∧ (getWarp s cu.w).fcr.toNat % 8 = 0) →
    ∃ t g, exec i s = .next t ∧ LaneDone (spec.reads f) f s cu (perLane f s cu g) t ∧ ∀ l ∈ activeLanes s cu,
      let xs := [inA spec f s cu l, inB spec f s cu l, inC spec f s cu l].take n
      xs.all (fun x => decide (x.tag = .v) && decide (magBits f.ty x.data < infMag f.ty)) = true →
      ∃ r, (g l).val = ⟨.v, r⟩ ∧ NearestEven f.ty (h (floatValue f.ty (inA spec f s cu l).data) (floatValue f.ty (inB spec f s cu l).data)
        (floatValue f.ty (inC spec f s cu l).data)) r
end

