-- ==== Sys2Proof/Laws/Exec.lean ====
section
/-!
SUPPORT. The meaning that each instruction dispatches to.
-/
namespace Sys2Proof.Machine

@[simp] theorem exec_nop f (s : State) : exec (.nop f) s = execNop f s := rfl
@[simp] theorem exec_mov f (s : State) : exec (.mov f) s = execMov f s := rfl
@[simp] theorem exec_movk f (s : State) : exec (.movk f) s = execMovk f s := rfl
@[simp] theorem exec_add f (s : State) : exec (.add f) s = execAdd f s := rfl
@[simp] theorem exec_sub f (s : State) : exec (.sub f) s = execSub f s := rfl
@[simp] theorem exec_mul f (s : State) : exec (.mul f) s = execMul f s := rfl
@[simp] theorem exec_mulhi f (s : State) : exec (.mulhi f) s = execMulhi f s := rfl
@[simp] theorem exec_mad f (s : State) : exec (.mad f) s = execMad f s := rfl
@[simp] theorem exec_div f (s : State) : exec (.div f) s = execDiv f s := rfl
@[simp] theorem exec_rem f (s : State) : exec (.rem f) s = execRem f s := rfl
@[simp] theorem exec_min f (s : State) : exec (.min f) s = execMin f s := rfl
@[simp] theorem exec_max f (s : State) : exec (.max f) s = execMax f s := rfl
@[simp] theorem exec_abs f (s : State) : exec (.abs f) s = execAbs f s := rfl
@[simp] theorem exec_neg f (s : State) : exec (.neg f) s = execNeg f s := rfl
@[simp] theorem exec_and f (s : State) : exec (.and f) s = execAnd f s := rfl
@[simp] theorem exec_or f (s : State) : exec (.or f) s = execOr f s := rfl
@[simp] theorem exec_xor f (s : State) : exec (.xor f) s = execXor f s := rfl
@[simp] theorem exec_not f (s : State) : exec (.not f) s = execNot f s := rfl
@[simp] theorem exec_andn f (s : State) : exec (.andn f) s = execAndn f s := rfl
@[simp] theorem exec_shl f (s : State) : exec (.shl f) s = execShl f s := rfl
@[simp] theorem exec_shr f (s : State) : exec (.shr f) s = execShr f s := rfl
@[simp] theorem exec_sar f (s : State) : exec (.sar f) s = execSar f s := rfl
@[simp] theorem exec_rot f (s : State) : exec (.rot f) s = execRot f s := rfl
@[simp] theorem exec_bfx f (s : State) : exec (.bfx f) s = execBfx f s := rfl
@[simp] theorem exec_bfi f (s : State) : exec (.bfi f) s = execBfi f s := rfl
@[simp] theorem exec_popc f (s : State) : exec (.popc f) s = execPopc f s := rfl
@[simp] theorem exec_clz f (s : State) : exec (.clz f) s = execClz f s := rfl
@[simp] theorem exec_ctz f (s : State) : exec (.ctz f) s = execCtz f s := rfl
@[simp] theorem exec_brev f (s : State) : exec (.brev f) s = execBrev f s := rfl
@[simp] theorem exec_bswap f (s : State) : exec (.bswap f) s = execBswap f s := rfl
@[simp] theorem exec_lea f (s : State) : exec (.lea f) s = execLea f s := rfl
@[simp] theorem exec_pdot f (s : State) : exec (.pdot f) s = execPdot f s := rfl
@[simp] theorem exec_prm f (s : State) : exec (.prm f) s = execPrm f s := rfl
@[simp] theorem exec_srd f (s : State) : exec (.srd f) s = execSrd f s := rfl
@[simp] theorem exec_swr f (s : State) : exec (.swr f) s = execSwr f s := rfl
@[simp] theorem exec_cnd f (s : State) : exec (.cnd f) s = execCnd f s := rfl
@[simp] theorem exec_fcnd f (s : State) : exec (.fcnd f) s = execFcnd f s := rfl
@[simp] theorem exec_cmp f (s : State) : exec (.cmp f) s = execCmp f s := rfl
@[simp] theorem exec_fcmp f (s : State) : exec (.fcmp f) s = execFcmp f s := rfl
@[simp] theorem exec_gate f (s : State) : exec (.gate f) s = execGate f s := rfl
@[simp] theorem exec_mrg f (s : State) : exec (.mrg f) s = execMrg f s := rfl
@[simp] theorem exec_sel f (s : State) : exec (.sel f) s = execSel f s := rfl
@[simp] theorem exec_tget f (s : State) : exec (.tget f) s = execTget f s := rfl
@[simp] theorem exec_tset f (s : State) : exec (.tset f) s = execTset f s := rfl
@[simp] theorem exec_tchk f (s : State) : exec (.tchk f) s = execTchk f s := rfl
@[simp] theorem exec_cand f (s : State) : exec (.cand f) s = execCand f s := rfl
@[simp] theorem exec_cor f (s : State) : exec (.cor f) s = execCor f s := rfl
@[simp] theorem exec_cnot f (s : State) : exec (.cnot f) s = execCnot f s := rfl
@[simp] theorem exec_fadd f (s : State) : exec (.fadd f) s = execFadd f s := rfl
@[simp] theorem exec_fsub f (s : State) : exec (.fsub f) s = execFsub f s := rfl
@[simp] theorem exec_fmul f (s : State) : exec (.fmul f) s = execFmul f s := rfl
@[simp] theorem exec_fma f (s : State) : exec (.fma f) s = execFma f s := rfl
@[simp] theorem exec_fms f (s : State) : exec (.fms f) s = execFms f s := rfl
@[simp] theorem exec_fnma f (s : State) : exec (.fnma f) s = execFnma f s := rfl
@[simp] theorem exec_fnms f (s : State) : exec (.fnms f) s = execFnms f s := rfl
@[simp] theorem exec_fdiv f (s : State) : exec (.fdiv f) s = execFdiv f s := rfl
@[simp] theorem exec_fsqrt f (s : State) : exec (.fsqrt f) s = execFsqrt f s := rfl
@[simp] theorem exec_fmin f (s : State) : exec (.fmin f) s = execFmin f s := rfl
@[simp] theorem exec_fmax f (s : State) : exec (.fmax f) s = execFmax f s := rfl
@[simp] theorem exec_fminx f (s : State) : exec (.fminx f) s = execFminx f s := rfl
@[simp] theorem exec_fmaxx f (s : State) : exec (.fmaxx f) s = execFmaxx f s := rfl
@[simp] theorem exec_fabs f (s : State) : exec (.fabs f) s = execFabs f s := rfl
@[simp] theorem exec_fneg f (s : State) : exec (.fneg f) s = execFneg f s := rfl
@[simp] theorem exec_fcps f (s : State) : exec (.fcps f) s = execFcps f s := rfl
@[simp] theorem exec_fclass f (s : State) : exec (.fclass f) s = execFclass f s := rfl
@[simp] theorem exec_frnd f (s : State) : exec (.frnd f) s = execFrnd f s := rfl
@[simp] theorem exec_fscale f (s : State) : exec (.fscale f) s = execFscale f s := rfl
@[simp] theorem exec_fexp f (s : State) : exec (.fexp f) s = execFexp f s := rfl
@[simp] theorem exec_fman f (s : State) : exec (.fman f) s = execFman f s := rfl
@[simp] theorem exec_hdot f (s : State) : exec (.hdot f) s = execHdot f s := rfl
@[simp] theorem exec_cvt f (s : State) : exec (.cvt f) s = execCvt f s := rfl
@[simp] theorem exec_cvtp f (s : State) : exec (.cvtp f) s = execCvtp f s := rfl
@[simp] theorem exec_cvtmx f (s : State) : exec (.cvtmx f) s = execCvtmx f s := rfl
@[simp] theorem exec_sfu f (s : State) : exec (.sfu f) s = execSfu f s := rfl
@[simp] theorem exec_bnset f (s : State) : exec (.bnset f) s = execBnset f s := rfl
@[simp] theorem exec_bnsetGet f (s : State) : exec (.bnsetGet f) s = execBnsetGet f s := rfl
@[simp] theorem exec_bnperm f (s : State) : exec (.bnperm f) s = execBnperm f s := rfl
@[simp] theorem exec_bnc f (s : State) : exec (.bnc f) s = execBnc f s := rfl
@[simp] theorem exec_shfl f (s : State) : exec (.shfl f) s = execShfl f s := rfl
@[simp] theorem exec_shfx f (s : State) : exec (.shfx f) s = execShfx f s := rfl
@[simp] theorem exec_vote f (s : State) : exec (.vote f) s = execVote f s := rfl
@[simp] theorem exec_red f (s : State) : exec (.red f) s = execRed f s := rfl
@[simp] theorem exec_scan f (s : State) : exec (.scan f) s = execScan f s := rfl
@[simp] theorem exec_bcast f (s : State) : exec (.bcast f) s = execBcast f s := rfl
@[simp] theorem exec_matchv f (s : State) : exec (.matchv f) s = execMatchv f s := rfl
@[simp] theorem exec_elect f (s : State) : exec (.elect f) s = execElect f s := rfl
@[simp] theorem exec_lrank f (s : State) : exec (.lrank f) s = execLrank f s := rfl
@[simp] theorem exec_bra f (s : State) : exec (.bra f) s = execBra f s := rfl
@[simp] theorem exec_bdv f (s : State) : exec (.bdv f) s = execBdv f s := rfl
@[simp] theorem exec_bany f (s : State) : exec (.bany f) s = execBany f s := rfl
@[simp] theorem exec_ball f (s : State) : exec (.ball f) s = execBall f s := rfl
@[simp] theorem exec_bnone f (s : State) : exec (.bnone f) s = execBnone f s := rfl
@[simp] theorem exec_jmp f (s : State) : exec (.jmp f) s = execJmp f s := rfl
@[simp] theorem exec_call f (s : State) : exec (.call f) s = execCall f s := rfl
@[simp] theorem exec_loopSet f (s : State) : exec (.loopSet f) s = execLoopSet f s := rfl
@[simp] theorem exec_loop f (s : State) : exec (.loop f) s = execLoop f s := rfl
@[simp] theorem exec_lexit f (s : State) : exec (.lexit f) s = execLexit f s := rfl
@[simp] theorem exec_wait f (s : State) : exec (.wait f) s = execWait f s := rfl
@[simp] theorem exec_yield f (s : State) : exec (.yield f) s = execYield f s := rfl
@[simp] theorem exec_exit f (s : State) : exec (.exit f) s = execExit f s := rfl
@[simp] theorem exec_ecall f (s : State) : exec (.ecall f) s = execEcall f s := rfl
@[simp] theorem exec_brk f (s : State) : exec (.brk f) s = execBrk f s := rfl
@[simp] theorem exec_grow f (s : State) : exec (.grow f) s = execGrow f s := rfl
@[simp] theorem exec_nap f (s : State) : exec (.nap f) s = execNap f s := rfl
@[simp] theorem exec_ld f (s : State) : exec (.ld f) s = execLd f s := rfl
@[simp] theorem exec_st f (s : State) : exec (.st f) s = execSt f s := rfl
@[simp] theorem exec_ldl f (s : State) : exec (.ldl f) s = execLdl f s := rfl
@[simp] theorem exec_stl f (s : State) : exec (.stl f) s = execStl f s := rfl
@[simp] theorem exec_ldc f (s : State) : exec (.ldc f) s = execLdc f s := rfl
@[simp] theorem exec_stc f (s : State) : exec (.stc f) s = execStc f s := rfl
@[simp] theorem exec_ldq f (s : State) : exec (.ldq f) s = execLdq f s := rfl
@[simp] theorem exec_stq f (s : State) : exec (.stq f) s = execStq f s := rfl
@[simp] theorem exec_lda f (s : State) : exec (.lda f) s = execLda f s := rfl
@[simp] theorem exec_str f (s : State) : exec (.str f) s = execStr f s := rfl
@[simp] theorem exec_prf f (s : State) : exec (.prf f) s = execPrf f s := rfl
@[simp] theorem exec_winv f (s : State) : exec (.winv f) s = execWinv f s := rfl
@[simp] theorem exec_wbk f (s : State) : exec (.wbk f) s = execWbk f s := rfl
@[simp] theorem exec_fence f (s : State) : exec (.fence f) s = execFence f s := rfl
@[simp] theorem exec_chopen f (s : State) : exec (.chopen f) s = execChopen f s := rfl
@[simp] theorem exec_chst f (s : State) : exec (.chst f) s = execChst f s := rfl
@[simp] theorem exec_chfence f (s : State) : exec (.chfence f) s = execChfence f s := rfl
@[simp] theorem exec_chclose f (s : State) : exec (.chclose f) s = execChclose f s := rfl
@[simp] theorem exec_stmc f (s : State) : exec (.stmc f) s = execStmc f s := rfl
@[simp] theorem exec_vopen f (s : State) : exec (.vopen f) s = execVopen f s := rfl
@[simp] theorem exec_ldv f (s : State) : exec (.ldv f) s = execLdv f s := rfl
@[simp] theorem exec_vpub f (s : State) : exec (.vpub f) s = execVpub f s := rfl
@[simp] theorem exec_vclose f (s : State) : exec (.vclose f) s = execVclose f s := rfl
@[simp] theorem exec_vinfo f (s : State) : exec (.vinfo f) s = execVinfo f s := rfl
@[simp] theorem exec_ckpt f (s : State) : exec (.ckpt f) s = execCkpt f s := rfl
@[simp] theorem exec_ckwait f (s : State) : exec (.ckwait f) s = execCkwait f s := rfl
@[simp] theorem exec_atom f (s : State) : exec (.atom f) s = execAtom f s := rfl
@[simp] theorem exec_cas f (s : State) : exec (.cas f) s = execCas f s := rfl
@[simp] theorem exec_cas2 f (s : State) : exec (.cas2 f) s = execCas2 f s := rfl
@[simp] theorem exec_atoml f (s : State) : exec (.atoml f) s = execAtoml f s := rfl
@[simp] theorem exec_fatom f (s : State) : exec (.fatom f) s = execFatom f s := rfl
@[simp] theorem exec_fred f (s : State) : exec (.fred f) s = execFred f s := rfl
@[simp] theorem exec_bar f (s : State) : exec (.bar f) s = execBar f s := rfl
@[simp] theorem exec_barr f (s : State) : exec (.barr f) s = execBarr f s := rfl
@[simp] theorem exec_barw f (s : State) : exec (.barw f) s = execBarw f s := rfl
@[simp] theorem exec_cbar f (s : State) : exec (.cbar f) s = execCbar f s := rfl
@[simp] theorem exec_mwait f (s : State) : exec (.mwait f) s = execMwait f s := rfl
@[simp] theorem exec_aoinit f (s : State) : exec (.aoinit f) s = execAoinit f s := rfl
@[simp] theorem exec_aoarr f (s : State) : exec (.aoarr f) s = execAoarr f s := rfl
@[simp] theorem exec_aoexp f (s : State) : exec (.aoexp f) s = execAoexp f s := rfl
@[simp] theorem exec_aowt f (s : State) : exec (.aowt f) s = execAowt f s := rfl
@[simp] theorem exec_tdset f (s : State) : exec (.tdset f) s = execTdset f s := rfl
@[simp] theorem exec_tdget f (s : State) : exec (.tdget f) s = execTdget f s := rfl
@[simp] theorem exec_tcpgl f (s : State) : exec (.tcpgl f) s = execTcpgl f s := rfl
@[simp] theorem exec_tcplg f (s : State) : exec (.tcplg f) s = execTcplg f s := rfl
@[simp] theorem exec_tcpgg f (s : State) : exec (.tcpgg f) s = execTcpgg f s := rfl
@[simp] theorem exec_tcpmc f (s : State) : exec (.tcpmc f) s = execTcpmc f s := rfl
@[simp] theorem exec_tcpred f (s : State) : exec (.tcpred f) s = execTcpred f s := rfl
@[simp] theorem exec_tcpst f (s : State) : exec (.tcpst f) s = execTcpst f s := rfl
@[simp] theorem exec_tcppf f (s : State) : exec (.tcppf f) s = execTcppf f s := rfl
@[simp] theorem exec_cbinit f (s : State) : exec (.cbinit f) s = execCbinit f s := rfl
@[simp] theorem exec_cbacq f (s : State) : exec (.cbacq f) s = execCbacq f s := rfl
@[simp] theorem exec_cbrel f (s : State) : exec (.cbrel f) s = execCbrel f s := rfl
@[simp] theorem exec_cbres f (s : State) : exec (.cbres f) s = execCbres f s := rfl
@[simp] theorem exec_cbcom f (s : State) : exec (.cbcom f) s = execCbcom f s := rfl
@[simp] theorem exec_aczero f (s : State) : exec (.aczero f) s = execAczero f s := rfl
@[simp] theorem exec_mmx f (s : State) : exec (.mmx f) s = execMmx f s := rfl
@[simp] theorem exec_mmxl f (s : State) : exec (.mmxl f) s = execMmxl f s := rfl
@[simp] theorem exec_acld f (s : State) : exec (.acld f) s = execAcld f s := rfl
@[simp] theorem exec_acst f (s : State) : exec (.acst f) s = execAcst f s := rfl
@[simp] theorem exec_acrd f (s : State) : exec (.acrd f) s = execAcrd f s := rfl
@[simp] theorem exec_acwr f (s : State) : exec (.acwr f) s = execAcwr f s := rfl
@[simp] theorem exec_acep f (s : State) : exec (.acep f) s = execAcep f s := rfl
@[simp] theorem exec_mxstat f (s : State) : exec (.mxstat f) s = execMxstat f s := rfl
@[simp] theorem exec_rtbind f (s : State) : exec (.rtbind f) s = execRtbind f s := rfl
@[simp] theorem exec_rtrace f (s : State) : exec (.rtrace f) s = execRtrace f s := rfl
@[simp] theorem exec_rtres f (s : State) : exec (.rtres f) s = execRtres f s := rfl
@[simp] theorem exec_rtcand f (s : State) : exec (.rtcand f) s = execRtcand f s := rfl
@[simp] theorem exec_rtacc f (s : State) : exec (.rtacc f) s = execRtacc f s := rfl
@[simp] theorem exec_rtbox f (s : State) : exec (.rtbox f) s = execRtbox f s := rfl
@[simp] theorem exec_rttri f (s : State) : exec (.rttri f) s = execRttri f s := rfl
@[simp] theorem exec_lhtinv f (s : State) : exec (.lhtinv f) s = execLhtinv f s := rfl
@[simp] theorem exec_lhtstat f (s : State) : exec (.lhtstat f) s = execLhtstat f s := rfl
@[simp] theorem exec_mbrecv f (s : State) : exec (.mbrecv f) s = execMbrecv f s := rfl
@[simp] theorem exec_mbsend f (s : State) : exec (.mbsend f) s = execMbsend f s := rfl
@[simp] theorem exec_spawn f (s : State) : exec (.spawn f) s = execSpawn f s := rfl
@[simp] theorem exec_rgn f (s : State) : exec (.rgn f) s = execRgn f s := rfl
@[simp] theorem exec_ralloc f (s : State) : exec (.ralloc f) s = execRalloc f s := rfl
@[simp] theorem exec_rsub f (s : State) : exec (.rsub f) s = execRsub f s := rfl
@[simp] theorem exec_rbatch f (s : State) : exec (.rbatch f) s = execRbatch f s := rfl
@[simp] theorem exec_rfetch f (s : State) : exec (.rfetch f) s = execRfetch f s := rfl
@[simp] theorem exec_rfree f (s : State) : exec (.rfree f) s = execRfree f s := rfl
@[simp] theorem exec_lvcoord f (s : State) : exec (.lvcoord f) s = execLvcoord f s := rfl
@[simp] theorem exec_hx f (s : State) : exec (.hx f) s = execHx f s := rfl
@[simp] theorem exec_arx f (s : State) : exec (.arx f) s = execArx f s := rfl
@[simp] theorem exec_agx f (s : State) : exec (.agx f) s = execAgx f s := rfl
@[simp] theorem exec_rsx f (s : State) : exec (.rsx f) s = execRsx f s := rfl
@[simp] theorem exec_plstat f (s : State) : exec (.plstat f) s = execPlstat f s := rfl
@[simp] theorem exec_plack f (s : State) : exec (.plack f) s = execPlack f s := rfl
@[simp] theorem exec_tret f (s : State) : exec (.tret f) s = execTret f s := rfl
@[simp] theorem exec_tfix f (s : State) : exec (.tfix f) s = execTfix f s := rfl
@[simp] theorem exec_csrr f (s : State) : exec (.csrr f) s = execCsrr f s := rfl
@[simp] theorem exec_csrw f (s : State) : exec (.csrw f) s = execCsrw f s := rfl
@[simp] theorem exec_pgmode f (s : State) : exec (.pgmode f) s = execPgmode f s := rfl
@[simp] theorem exec_pgrep f (s : State) : exec (.pgrep f) s = execPgrep f s := rfl
@[simp] theorem exec_pgcol f (s : State) : exec (.pgcol f) s = execPgcol f s := rfl
@[simp] theorem exec_tlbinv f (s : State) : exec (.tlbinv f) s = execTlbinv f s := rfl
@[simp] theorem exec_preempt f (s : State) : exec (.preempt f) s = execPreempt f s := rfl
@[simp] theorem exec_resume f (s : State) : exec (.resume f) s = execResume f s := rfl
@[simp] theorem exec_blkkill f (s : State) : exec (.blkkill f) s = execBlkkill f s := rfl
@[simp] theorem exec_vlog f (s : State) : exec (.vlog f) s = execVlog f s := rfl
@[simp] theorem exec_unassignedOpcode op f (s : State) : exec (.unassignedOpcode op f) s = execUnassignedOpcode op f s := rfl
@[simp] theorem exec_extensionOpcode op f (s : State) : exec (.extensionOpcode op f) s = execExtensionOpcode op f s := rfl
@[simp] theorem exec_clauseStart w k (s : State) : exec (.clauseStart w k) s = execClauseStart w k s := rfl
@[simp] theorem exec_warpChoice core q (s : State) : exec (.warpChoice core q) s = execWarpChoice core q s := rfl
@[simp] theorem exec_starveForce w k (s : State) : exec (.starveForce w k) s = execStarveForce w k s := rfl
@[simp] theorem exec_reconvergenceHoldLimit w k (s : State) : exec (.reconvergenceHoldLimit w k) s = execReconvergenceHoldLimit w k s := rfl
@[simp] theorem exec_suspendedSplitWake w k (s : State) : exec (.suspendedSplitWake w k) s = execSuspendedSplitWake w k s := rfl
@[simp] theorem exec_loadComplete op lanes (s : State) : exec (.loadComplete op lanes) s = execLoadComplete op lanes s := rfl
@[simp] theorem exec_storePerformed op lanes (s : State) : exec (.storePerformed op lanes) s = execStorePerformed op lanes s := rfl
@[simp] theorem exec_sfuStart op (s : State) : exec (.sfuStart op) s = execSfuStart op s := rfl
@[simp] theorem exec_sfuComplete op (s : State) : exec (.sfuComplete op) s = execSfuComplete op s := rfl
@[simp] theorem exec_bncComplete op (s : State) : exec (.bncComplete op) s = execBncComplete op s := rfl
@[simp] theorem exec_tdsetComplete op (s : State) : exec (.tdsetComplete op) s = execTdsetComplete op s := rfl
@[simp] theorem exec_loadStreamFetch w lane q (s : State) : exec (.loadStreamFetch w lane q) s = execLoadStreamFetch w lane q s := rfl
@[simp] theorem exec_copyOnWrite vdb (s : State) : exec (.copyOnWrite vdb) s = execCopyOnWrite vdb s := rfl
@[simp] theorem exec_versionFull w k (s : State) : exec (.versionFull w k) s = execVersionFull w k s := rfl
@[simp] theorem exec_vpubService op (s : State) : exec (.vpubService op) s = execVpubService op s := rfl
@[simp] theorem exec_checkpointManifestWrite region (s : State) : exec (.checkpointManifestWrite region) s = execCheckpointManifestWrite region s := rfl
@[simp] theorem exec_copyComplete op (s : State) : exec (.copyComplete op) s = execCopyComplete op s := rfl
@[simp] theorem exec_multicastDelivery op rank (s : State) : exec (.multicastDelivery op rank) s = execMulticastDelivery op rank s := rfl
@[simp] theorem exec_matrixOpStart op (s : State) : exec (.matrixOpStart op) s = execMatrixOpStart op s := rfl
@[simp] theorem exec_matrixOpComplete op err (s : State) : exec (.matrixOpComplete op err) s = execMatrixOpComplete op err s := rfl
@[simp] theorem exec_rayQueryDone w lane (s : State) : exec (.rayQueryDone w lane) s = execRayQueryDone w lane s := rfl
@[simp] theorem exec_monitorRecheck w k (s : State) : exec (.monitorRecheck w k) s = execMonitorRecheck w k s := rfl
@[simp] theorem exec_mwaitLimit w k (s : State) : exec (.mwaitLimit w k) s = execMwaitLimit w k s := rfl
@[simp] theorem exec_napExpiry w k (s : State) : exec (.napExpiry w k) s = execNapExpiry w k s := rfl
@[simp] theorem exec_growGrant core (s : State) : exec (.growGrant core) s = execGrowGrant core s := rfl
@[simp] theorem exec_blockComplete blk (s : State) : exec (.blockComplete blk) s = execBlockComplete blk s := rfl
@[simp] theorem exec_nodeMatch die (s : State) : exec (.nodeMatch die) s = execNodeMatch die s := rfl
@[simp] theorem exec_blockDispatch die (s : State) : exec (.blockDispatch die) s = execBlockDispatch die s := rfl
@[simp] theorem exec_nodeRetire die node (s : State) : exec (.nodeRetire die node) s = execNodeRetire die node s := rfl
@[simp] theorem exec_mbsendDelivery op (s : State) : exec (.mbsendDelivery op) s = execMbsendDelivery op s := rfl
@[simp] theorem exec_mbrecvReceive die (s : State) : exec (.mbrecvReceive die) s = execMbrecvReceive die s := rfl
@[simp] theorem exec_collectiveComplete op others (s : State) : exec (.collectiveComplete op others) s = execCollectiveComplete op others s := rfl
@[simp] theorem exec_watchdog w (s : State) : exec (.watchdog w) s = execWatchdog w s := rfl
@[simp] theorem exec_forwardedTraffic blk (s : State) : exec (.forwardedTraffic blk) s = execForwardedTraffic blk s := rfl
@[simp] theorem exec_versionHomeService op (s : State) : exec (.versionHomeService op) s = execVersionHomeService op s := rfl
@[simp] theorem exec_recordPoolArrival op (s : State) : exec (.recordPoolArrival op) s = execRecordPoolArrival op s := rfl
@[simp] theorem exec_exOperationComplete op (s : State) : exec (.exOperationComplete op) s = execExOperationComplete op s := rfl
@[simp] theorem exec_pageRequestPost (s : State) : exec (.pageRequestPost) s = execPageRequestPost s := rfl
@[simp] theorem exec_prqdone die value (s : State) : exec (.prqdone die value) s = execPrqdone die value s := rfl
@[simp] theorem exec_pageRequestGroupResponse die pasid va ok (s : State) : exec (.pageRequestGroupResponse die pasid va ok) s = execPageRequestGroupResponse die pasid va ok s := rfl
@[simp] theorem exec_checkpointPeriodElapsed region (s : State) : exec (.checkpointPeriodElapsed region) s = execCheckpointPeriodElapsed region s := rfl
@[simp] theorem exec_growFail (s : State) : exec (.growFail) s = execGrowFail s := rfl
@[simp] theorem exec_graphReservation (s : State) : exec (.graphReservation) s = execGraphReservation s := rfl
@[simp] theorem exec_priorityPreempt (s : State) : exec (.priorityPreempt) s = execPriorityPreempt s := rfl
@[simp] theorem exec_batchTimeout (s : State) : exec (.batchTimeout) s = execBatchTimeout s := rfl
@[simp] theorem exec_rallocGrant (s : State) : exec (.rallocGrant) s = execRallocGrant s := rfl
@[simp] theorem exec_replayCheck quarter n mismatch (s : State) : exec (.replayCheck quarter n mismatch) s = execReplayCheck quarter n mismatch s := rfl
@[simp] theorem exec_doorbell die slot (s : State) : exec (.doorbell die slot) s = execDoorbell die slot s := rfl
@[simp] theorem exec_hostPacketEntry (s : State) : exec (.hostPacketEntry) s = execHostPacketEntry s := rfl
@[simp] theorem exec_hostCxlMemAccess write pa len value (s : State) : exec (.hostCxlMemAccess write pa len value) s = execHostCxlMemAccess write pa len value s := rfl
@[simp] theorem exec_bisnp region off write value (s : State) : exec (.bisnp region off write value) s = execBisnp region off write value s := rfl
@[simp] theorem exec_poolLossEvent device cause (s : State) : exec (.poolLossEvent device cause) s = execPoolLossEvent device cause s := rfl
@[simp] theorem exec_poolResponseTimeout device (s : State) : exec (.poolResponseTimeout device) s = execPoolResponseTimeout device s := rfl
@[simp] theorem exec_regionConfigure (s : State) : exec (.regionConfigure) s = execRegionConfigure s := rfl
@[simp] theorem exec_regionReactivate (s : State) : exec (.regionReactivate) s = execRegionReactivate s := rfl
@[simp] theorem exec_regionDeconfigure (s : State) : exec (.regionDeconfigure) s = execRegionDeconfigure s := rfl
@[simp] theorem exec_peerAccessArrival out src kind op ty pa len value cmp allowed (s : State) : exec (.peerAccessArrival out src kind op ty pa len value cmp allowed) s = execPeerAccessArrival out src kind op ty pa len value cmp allowed s := rfl
@[simp] theorem exec_peerAccessTimeout op lanes (s : State) : exec (.peerAccessTimeout op lanes) s = execPeerAccessTimeout op lanes s := rfl
@[simp] theorem exec_ualinkLinkLost port (s : State) : exec (.ualinkLinkLost port) s = execUalinkLinkLost port s := rfl
@[simp] theorem exec_haloBoxDelivery out peer xid len data (s : State) : exec (.haloBoxDelivery out peer xid len data) s = execHaloBoxDelivery out peer xid len data s := rfl
@[simp] theorem exec_haloTimeout out peer xid (s : State) : exec (.haloTimeout out peer xid) s = execHaloTimeout out peer xid s := rfl
@[simp] theorem exec_collectiveTimeout op (s : State) : exec (.collectiveTimeout op) s = execCollectiveTimeout op s := rfl
@[simp] theorem exec_harnessFlitLost pa owner (s : State) : exec (.harnessFlitLost pa owner) s = execHarnessFlitLost pa owner s := rfl
@[simp] theorem exec_suspectLineTimeout pa (s : State) : exec (.suspectLineTimeout pa) s = execSuspectLineTimeout pa s := rfl
@[simp] theorem exec_vlogWindowReset core (s : State) : exec (.vlogWindowReset core) s = execVlogWindowReset core s := rfl
@[simp] theorem exec_vesperEntryCapture thread log entry (s : State) : exec (.vesperEntryCapture thread log entry) s = execVesperEntryCapture thread log entry s := rfl
@[simp] theorem exec_pkgidWrite value (s : State) : exec (.pkgidWrite value) s = execPkgidWrite value s := rfl
@[simp] theorem exec_halotmoWrite value (s : State) : exec (.halotmoWrite value) s = execHalotmoWrite value s := rfl
@[simp] theorem exec_routeTableWrite pkg value (s : State) : exec (.routeTableWrite pkg value) s = execRouteTableWrite pkg value s := rfl
@[simp] theorem exec_rsgo (s : State) : exec (.rsgo) s = execRsgo s := rfl
@[simp] theorem exec_regionRestoreDone (s : State) : exec (.regionRestoreDone) s = execRegionRestoreDone s := rfl
@[simp] theorem exec_registerWrite off value (s : State) : exec (.registerWrite off value) s = execRegisterWrite off value s := rfl
@[simp] theorem exec_readLog (s : State) : exec (.readLog) s = execReadLog s := rfl
@[simp] theorem exec_readSavedLog (s : State) : exec (.readSavedLog) s = execReadSavedLog s := rfl
@[simp] theorem exec_attest (s : State) : exec (.attest) s = execAttest s := rfl
@[simp] theorem exec_setPowerCap (s : State) : exec (.setPowerCap) s = execSetPowerCap s := rfl
@[simp] theorem exec_reset (s : State) : exec (.reset) s = execReset s := rfl
@[simp] theorem exec_status (s : State) : exec (.status) s = execStatus s := rfl
@[simp] theorem exec_coldReset cfg images absent (s : State) : exec (.coldReset cfg images absent) s = execColdReset cfg images absent s := rfl
@[simp] theorem exec_warmReset images (s : State) : exec (.warmReset images) s = execWarmReset images s := rfl
@[simp] theorem exec_powerPoll power temps (s : State) : exec (.powerPoll power temps) s = execPowerPoll power temps s := rfl
@[simp] theorem exec_hbmRecalibration stack temp (s : State) : exec (.hbmRecalibration stack temp) s = execHbmRecalibration stack temp s := rfl
@[simp] theorem exec_cxlCacheSnoop off write value (s : State) : exec (.cxlCacheSnoop off write value) s = execCxlCacheSnoop off write value s := rfl
@[simp] theorem exec_linkUp port (s : State) : exec (.linkUp port) s = execLinkUp port s := rfl

end Sys2Proof.Machine
end

