-- ==== Sys2Proof/Laws/State.lean ====
section
/-!
SUPPORT. What each update of the state leaves alone: one lemma for each field.
-/
namespace Sys2Proof.Machine

/-! ### setWarp -/

@[simp] theorem setWarp_agenda (s : State) (w : Nat) (x : Warp) : (setWarp s w x).agenda = s.agenda := rfl
@[simp] theorem setWarp_cur (s : State) (w : Nat) (x : Warp) : (setWarp s w x).cur = s.cur := rfl
@[simp] theorem setWarp_cur2 (s : State) (w : Nat) (x : Warp) : (setWarp s w x).cur2 = s.cur2 := rfl
@[simp] theorem setWarp_free (s : State) (w : Nat) (x : Warp) : (setWarp s w x).free = s.free := rfl
@[simp] theorem setWarp_nextOp (s : State) (w : Nat) (x : Warp) : (setWarp s w x).nextOp = s.nextOp := rfl
@[simp] theorem setWarp_nextBlk (s : State) (w : Nat) (x : Warp) : (setWarp s w x).nextBlk = s.nextBlk := rfl
@[simp] theorem setWarp_vregs (s : State) (w : Nat) (x : Warp) : (setWarp s w x).vregs = s.vregs := rfl
@[simp] theorem setWarp_sregs (s : State) (w : Nat) (x : Warp) : (setWarp s w x).sregs = s.sregs := rfl
@[simp] theorem setWarp_fsr (s : State) (w : Nat) (x : Warp) : (setWarp s w x).fsr = s.fsr := rfl
@[simp] theorem setWarp_tval (s : State) (w : Nat) (x : Warp) : (setWarp s w x).tval = s.tval := rfl
@[simp] theorem setWarp_sval (s : State) (w : Nat) (x : Warp) : (setWarp s w x).sval = s.sval := rfl
@[simp] theorem setWarp_queues (s : State) (w : Nat) (x : Warp) : (setWarp s w x).queues = s.queues := rfl
@[simp] theorem setWarp_bn (s : State) (w : Nat) (x : Warp) : (setWarp s w x).bn = s.bn := rfl
@[simp] theorem setWarp_blocks (s : State) (w : Nat) (x : Warp) : (setWarp s w x).blocks = s.blocks := rfl
@[simp] theorem setWarp_ops (s : State) (w : Nat) (x : Warp) : (setWarp s w x).ops = s.ops := rfl
@[simp] theorem setWarp_pend (s : State) (w : Nat) (x : Warp) : (setWarp s w x).pend = s.pend := rfl
@[simp] theorem setWarp_bnPend (s : State) (w : Nat) (x : Warp) : (setWarp s w x).bnPend = s.bnPend := rfl
@[simp] theorem setWarp_cores (s : State) (w : Nat) (x : Warp) : (setWarp s w x).cores = s.cores := rfl
@[simp] theorem setWarp_quarters (s : State) (w : Nat) (x : Warp) : (setWarp s w x).quarters = s.quarters := rfl
@[simp] theorem setWarp_growQ (s : State) (w : Nat) (x : Warp) : (setWarp s w x).growQ = s.growQ := rfl
@[simp] theorem setWarp_dies (s : State) (w : Nat) (x : Warp) : (setWarp s w x).dies = s.dies := rfl
@[simp] theorem setWarp_pkg (s : State) (w : Nat) (x : Warp) : (setWarp s w x).pkg = s.pkg := rfl
@[simp] theorem setWarp_tlb (s : State) (w : Nat) (x : Warp) : (setWarp s w x).tlb = s.tlb := rfl
@[simp] theorem setWarp_owners (s : State) (w : Nat) (x : Warp) : (setWarp s w x).owners = s.owners := rfl
@[simp] theorem setWarp_poison (s : State) (w : Nat) (x : Warp) : (setWarp s w x).poison = s.poison := rfl
@[simp] theorem setWarp_frozen (s : State) (w : Nat) (x : Warp) : (setWarp s w x).frozen = s.frozen := rfl
@[simp] theorem setWarp_swc (s : State) (w : Nat) (x : Warp) : (setWarp s w x).swc = s.swc := rfl
@[simp] theorem setWarp_dcLru (s : State) (w : Nat) (x : Warp) : (setWarp s w x).dcLru = s.dcLru := rfl
@[simp] theorem setWarp_poolOld (s : State) (w : Nat) (x : Warp) : (setWarp s w x).poolOld = s.poolOld := rfl
@[simp] theorem setWarp_prov (s : State) (w : Nat) (x : Warp) : (setWarp s w x).prov = s.prov := rfl
@[simp] theorem setWarp_granules (s : State) (w : Nat) (x : Warp) : (setWarp s w x).granules = s.granules := rfl
@[simp] theorem setWarp_marks (s : State) (w : Nat) (x : Warp) : (setWarp s w x).marks = s.marks := rfl
@[simp] theorem setWarp_acquired (s : State) (w : Nat) (x : Warp) : (setWarp s w x).acquired = s.acquired := rfl
@[simp] theorem setWarp_fenceMarks (s : State) (w : Nat) (x : Warp) : (setWarp s w x).fenceMarks = s.fenceMarks := rfl
@[simp] theorem setWarp_scMarks (s : State) (w : Nat) (x : Warp) : (setWarp s w x).scMarks = s.scMarks := rfl
@[simp] theorem setWarp_seen (s : State) (w : Nat) (x : Warp) : (setWarp s w x).seen = s.seen := rfl
@[simp] theorem setWarp_routes (s : State) (w : Nat) (x : Warp) : (setWarp s w x).routes = s.routes := rfl
@[simp] theorem setWarp_regions (s : State) (w : Nat) (x : Warp) : (setWarp s w x).regions = s.regions := rfl
@[simp] theorem setWarp_cks (s : State) (w : Nat) (x : Warp) : (setWarp s w x).cks = s.cks := rfl
@[simp] theorem setWarp_vmarks (s : State) (w : Nat) (x : Warp) : (setWarp s w x).vmarks = s.vmarks := rfl
@[simp] theorem setWarp_pools (s : State) (w : Nat) (x : Warp) : (setWarp s w x).pools = s.pools := rfl
@[simp] theorem setWarp_mem (s : State) (w : Nat) (x : Warp) : (setWarp s w x).mem = s.mem := rfl
@[simp] theorem setWarp_suspectVas (s : State) (w : Nat) (x : Warp) : (setWarp s w x).suspectVas = s.suspectVas := rfl
@[simp] theorem setWarp_provFull (s : State) (w : Nat) (x : Warp) : (setWarp s w x).provFull = s.provFull := rfl
@[simp] theorem setWarp_icode (s : State) (w : Nat) (x : Warp) : (setWarp s w x).icode = s.icode := rfl
@[simp] theorem setWarp_stalls (s : State) (w : Nat) (x : Warp) : (setWarp s w x).stalls = s.stalls := rfl
@[simp] theorem setWarp_prq (s : State) (w : Nat) (x : Warp) : (setWarp s w x).prq = s.prq := rfl
@[simp] theorem setWarp_chans (s : State) (w : Nat) (x : Warp) : (setWarp s w x).chans = s.chans := rfl
@[simp] theorem setWarp_aos (s : State) (w : Nat) (x : Warp) : (setWarp s w x).aos = s.aos := rfl
@[simp] theorem setWarp_cbars (s : State) (w : Nat) (x : Warp) : (setWarp s w x).cbars = s.cbars := rfl
@[simp] theorem setWarp_tds (s : State) (w : Nat) (x : Warp) : (setWarp s w x).tds = s.tds := rfl
@[simp] theorem setWarp_cbs (s : State) (w : Nat) (x : Warp) : (setWarp s w x).cbs = s.cbs := rfl
@[simp] theorem setWarp_fwd (s : State) (w : Nat) (x : Warp) : (setWarp s w x).fwd = s.fwd := rfl
@[simp] theorem setWarp_fwdEnts (s : State) (w : Nat) (x : Warp) : (setWarp s w x).fwdEnts = s.fwdEnts := rfl
@[simp] theorem setWarp_tstat (s : State) (w : Nat) (x : Warp) : (setWarp s w x).tstat = s.tstat := rfl
@[simp] theorem setWarp_tpois (s : State) (w : Nat) (x : Warp) : (setWarp s w x).tpois = s.tpois := rfl
@[simp] theorem setWarp_vents (s : State) (w : Nat) (x : Warp) : (setWarp s w x).vents = s.vents := rfl
@[simp] theorem setWarp_vmeta (s : State) (w : Nat) (x : Warp) : (setWarp s w x).vmeta = s.vmeta := rfl
@[simp] theorem setWarp_vseq (s : State) (w : Nat) (x : Warp) : (setWarp s w x).vseq = s.vseq := rfl
@[simp] theorem setWarp_vcap (s : State) (w : Nat) (x : Warp) : (setWarp s w x).vcap = s.vcap := rfl
@[simp] theorem setWarp_flashEnts (s : State) (w : Nat) (x : Warp) : (setWarp s w x).flashEnts = s.flashEnts := rfl
@[simp] theorem setWarp_flashMeta (s : State) (w : Nat) (x : Warp) : (setWarp s w x).flashMeta = s.flashMeta := rfl
@[simp] theorem setWarp_mail (s : State) (w : Nat) (x : Warp) : (setWarp s w x).mail = s.mail := rfl
@[simp] theorem setWarp_mailOut (s : State) (w : Nat) (x : Warp) : (setWarp s w x).mailOut = s.mailOut := rfl
@[simp] theorem setWarp_rgns (s : State) (w : Nat) (x : Warp) : (setWarp s w x).rgns = s.rgns := rfl
@[simp] theorem setWarp_ownProg (s : State) (w : Nat) (x : Warp) : (setWarp s w x).ownProg = s.ownProg := rfl
@[simp] theorem setWarp_nodes (s : State) (w : Nat) (x : Warp) : (setWarp s w x).nodes = s.nodes := rfl
@[simp] theorem setWarp_graphs (s : State) (w : Nat) (x : Warp) : (setWarp s w x).graphs = s.graphs := rfl
@[simp] theorem setWarp_seqs (s : State) (w : Nat) (x : Warp) : (setWarp s w x).seqs = s.seqs := rfl
@[simp] theorem setWarp_nextNode (s : State) (w : Nat) (x : Warp) : (setWarp s w x).nextNode = s.nextNode := rfl
@[simp] theorem setWarp_sslots (s : State) (w : Nat) (x : Warp) : (setWarp s w x).sslots = s.sslots := rfl
@[simp] theorem setWarp_saves (s : State) (w : Nat) (x : Warp) : (setWarp s w x).saves = s.saves := rfl
@[simp] theorem setWarp_hslots (s : State) (w : Nat) (x : Warp) : (setWarp s w x).hslots = s.hslots := rfl
@[simp] theorem setWarp_hdiscard (s : State) (w : Nat) (x : Warp) : (setWarp s w x).hdiscard = s.hdiscard := rfl
@[simp] theorem setWarp_hostQ (s : State) (w : Nat) (x : Warp) : (setWarp s w x).hostQ = s.hostQ := rfl
@[simp] theorem setWarp_rsreg (s : State) (w : Nat) (x : Warp) : (setWarp s w x).rsreg = s.rsreg := rfl
@[simp] theorem setWarp_rsdesc (s : State) (w : Nat) (x : Warp) : (setWarp s w x).rsdesc = s.rsdesc := rfl
@[simp] theorem setWarp_rsstep (s : State) (w : Nat) (x : Warp) : (setWarp s w x).rsstep = s.rsstep := rfl
@[simp] theorem setWarp_rsstat (s : State) (w : Nat) (x : Warp) : (setWarp s w x).rsstat = s.rsstat := rfl
@[simp] theorem setWarp_mgmt (s : State) (w : Nat) (x : Warp) : (setWarp s w x).mgmt = s.mgmt := rfl
@[simp] theorem setWarp_rays (s : State) (w : Nat) (x : Warp) : (setWarp s w x).rays = s.rays := rfl
@[simp] theorem setWarp_lht (s : State) (w : Nat) (x : Warp) : (setWarp s w x).lht = s.lht := rfl
@[simp] theorem setWarp_lhtCnt (s : State) (w : Nat) (x : Warp) : (setWarp s w x).lhtCnt = s.lhtCnt := rfl
@[simp] theorem setWarp_staged (s : State) (w : Nat) (x : Warp) : (setWarp s w x).staged = s.staged := rfl
@[simp] theorem setWarp_suspects (s : State) (w : Nat) (x : Warp) : (setWarp s w x).suspects = s.suspects := rfl
@[simp] theorem setWarp_replays (s : State) (w : Nat) (x : Warp) : (setWarp s w x).replays = s.replays := rfl
@[simp] theorem setWarp_sent (s : State) (w : Nat) (x : Warp) : (setWarp s w x).sent = s.sent := rfl
@[simp] theorem setWarp_outRead (s : State) (w : Nat) (x : Warp) : (setWarp s w x).outRead = s.outRead := rfl
@[simp] theorem setWarp_hostOut (s : State) (w : Nat) (x : Warp) : (setWarp s w x).hostOut = s.hostOut := rfl

/-! ### setSplit -/

@[simp] theorem setSplit_agenda (s : State) (w k : Nat) (x : Split) : (setSplit s w k x).agenda = s.agenda := rfl
@[simp] theorem setSplit_cur (s : State) (w k : Nat) (x : Split) : (setSplit s w k x).cur = s.cur := rfl
@[simp] theorem setSplit_cur2 (s : State) (w k : Nat) (x : Split) : (setSplit s w k x).cur2 = s.cur2 := rfl
@[simp] theorem setSplit_free (s : State) (w k : Nat) (x : Split) : (setSplit s w k x).free = s.free := rfl
@[simp] theorem setSplit_nextOp (s : State) (w k : Nat) (x : Split) : (setSplit s w k x).nextOp = s.nextOp := rfl
@[simp] theorem setSplit_nextBlk (s : State) (w k : Nat) (x : Split) : (setSplit s w k x).nextBlk = s.nextBlk := rfl
@[simp] theorem setSplit_vregs (s : State) (w k : Nat) (x : Split) : (setSplit s w k x).vregs = s.vregs := rfl
@[simp] theorem setSplit_sregs (s : State) (w k : Nat) (x : Split) : (setSplit s w k x).sregs = s.sregs := rfl
@[simp] theorem setSplit_fsr (s : State) (w k : Nat) (x : Split) : (setSplit s w k x).fsr = s.fsr := rfl
@[simp] theorem setSplit_tval (s : State) (w k : Nat) (x : Split) : (setSplit s w k x).tval = s.tval := rfl
@[simp] theorem setSplit_sval (s : State) (w k : Nat) (x : Split) : (setSplit s w k x).sval = s.sval := rfl
@[simp] theorem setSplit_queues (s : State) (w k : Nat) (x : Split) : (setSplit s w k x).queues = s.queues := rfl
@[simp] theorem setSplit_bn (s : State) (w k : Nat) (x : Split) : (setSplit s w k x).bn = s.bn := rfl
@[simp] theorem setSplit_blocks (s : State) (w k : Nat) (x : Split) : (setSplit s w k x).blocks = s.blocks := rfl
@[simp] theorem setSplit_ops (s : State) (w k : Nat) (x : Split) : (setSplit s w k x).ops = s.ops := rfl
@[simp] theorem setSplit_pend (s : State) (w k : Nat) (x : Split) : (setSplit s w k x).pend = s.pend := rfl
@[simp] theorem setSplit_bnPend (s : State) (w k : Nat) (x : Split) : (setSplit s w k x).bnPend = s.bnPend := rfl
@[simp] theorem setSplit_cores (s : State) (w k : Nat) (x : Split) : (setSplit s w k x).cores = s.cores := rfl
@[simp] theorem setSplit_quarters (s : State) (w k : Nat) (x : Split) : (setSplit s w k x).quarters = s.quarters := rfl
@[simp] theorem setSplit_growQ (s : State) (w k : Nat) (x : Split) : (setSplit s w k x).growQ = s.growQ := rfl
@[simp] theorem setSplit_dies (s : State) (w k : Nat) (x : Split) : (setSplit s w k x).dies = s.dies := rfl
@[simp] theorem setSplit_pkg (s : State) (w k : Nat) (x : Split) : (setSplit s w k x).pkg = s.pkg := rfl
@[simp] theorem setSplit_tlb (s : State) (w k : Nat) (x : Split) : (setSplit s w k x).tlb = s.tlb := rfl
@[simp] theorem setSplit_owners (s : State) (w k : Nat) (x : Split) : (setSplit s w k x).owners = s.owners := rfl
@[simp] theorem setSplit_poison (s : State) (w k : Nat) (x : Split) : (setSplit s w k x).poison = s.poison := rfl
@[simp] theorem setSplit_frozen (s : State) (w k : Nat) (x : Split) : (setSplit s w k x).frozen = s.frozen := rfl
@[simp] theorem setSplit_swc (s : State) (w k : Nat) (x : Split) : (setSplit s w k x).swc = s.swc := rfl
@[simp] theorem setSplit_dcLru (s : State) (w k : Nat) (x : Split) : (setSplit s w k x).dcLru = s.dcLru := rfl
@[simp] theorem setSplit_poolOld (s : State) (w k : Nat) (x : Split) : (setSplit s w k x).poolOld = s.poolOld := rfl
@[simp] theorem setSplit_prov (s : State) (w k : Nat) (x : Split) : (setSplit s w k x).prov = s.prov := rfl
@[simp] theorem setSplit_granules (s : State) (w k : Nat) (x : Split) : (setSplit s w k x).granules = s.granules := rfl
@[simp] theorem setSplit_marks (s : State) (w k : Nat) (x : Split) : (setSplit s w k x).marks = s.marks := rfl
@[simp] theorem setSplit_acquired (s : State) (w k : Nat) (x : Split) : (setSplit s w k x).acquired = s.acquired := rfl
@[simp] theorem setSplit_fenceMarks (s : State) (w k : Nat) (x : Split) : (setSplit s w k x).fenceMarks = s.fenceMarks := rfl
@[simp] theorem setSplit_scMarks (s : State) (w k : Nat) (x : Split) : (setSplit s w k x).scMarks = s.scMarks := rfl
@[simp] theorem setSplit_seen (s : State) (w k : Nat) (x : Split) : (setSplit s w k x).seen = s.seen := rfl
@[simp] theorem setSplit_routes (s : State) (w k : Nat) (x : Split) : (setSplit s w k x).routes = s.routes := rfl
@[simp] theorem setSplit_regions (s : State) (w k : Nat) (x : Split) : (setSplit s w k x).regions = s.regions := rfl
@[simp] theorem setSplit_cks (s : State) (w k : Nat) (x : Split) : (setSplit s w k x).cks = s.cks := rfl
@[simp] theorem setSplit_vmarks (s : State) (w k : Nat) (x : Split) : (setSplit s w k x).vmarks = s.vmarks := rfl
@[simp] theorem setSplit_pools (s : State) (w k : Nat) (x : Split) : (setSplit s w k x).pools = s.pools := rfl
@[simp] theorem setSplit_mem (s : State) (w k : Nat) (x : Split) : (setSplit s w k x).mem = s.mem := rfl
@[simp] theorem setSplit_suspectVas (s : State) (w k : Nat) (x : Split) : (setSplit s w k x).suspectVas = s.suspectVas := rfl
@[simp] theorem setSplit_provFull (s : State) (w k : Nat) (x : Split) : (setSplit s w k x).provFull = s.provFull := rfl
@[simp] theorem setSplit_icode (s : State) (w k : Nat) (x : Split) : (setSplit s w k x).icode = s.icode := rfl
@[simp] theorem setSplit_stalls (s : State) (w k : Nat) (x : Split) : (setSplit s w k x).stalls = s.stalls := rfl
@[simp] theorem setSplit_prq (s : State) (w k : Nat) (x : Split) : (setSplit s w k x).prq = s.prq := rfl
@[simp] theorem setSplit_chans (s : State) (w k : Nat) (x : Split) : (setSplit s w k x).chans = s.chans := rfl
@[simp] theorem setSplit_aos (s : State) (w k : Nat) (x : Split) : (setSplit s w k x).aos = s.aos := rfl
@[simp] theorem setSplit_cbars (s : State) (w k : Nat) (x : Split) : (setSplit s w k x).cbars = s.cbars := rfl
@[simp] theorem setSplit_tds (s : State) (w k : Nat) (x : Split) : (setSplit s w k x).tds = s.tds := rfl
@[simp] theorem setSplit_cbs (s : State) (w k : Nat) (x : Split) : (setSplit s w k x).cbs = s.cbs := rfl
@[simp] theorem setSplit_fwd (s : State) (w k : Nat) (x : Split) : (setSplit s w k x).fwd = s.fwd := rfl
@[simp] theorem setSplit_fwdEnts (s : State) (w k : Nat) (x : Split) : (setSplit s w k x).fwdEnts = s.fwdEnts := rfl
@[simp] theorem setSplit_tstat (s : State) (w k : Nat) (x : Split) : (setSplit s w k x).tstat = s.tstat := rfl
@[simp] theorem setSplit_tpois (s : State) (w k : Nat) (x : Split) : (setSplit s w k x).tpois = s.tpois := rfl
@[simp] theorem setSplit_vents (s : State) (w k : Nat) (x : Split) : (setSplit s w k x).vents = s.vents := rfl
@[simp] theorem setSplit_vmeta (s : State) (w k : Nat) (x : Split) : (setSplit s w k x).vmeta = s.vmeta := rfl
@[simp] theorem setSplit_vseq (s : State) (w k : Nat) (x : Split) : (setSplit s w k x).vseq = s.vseq := rfl
@[simp] theorem setSplit_vcap (s : State) (w k : Nat) (x : Split) : (setSplit s w k x).vcap = s.vcap := rfl
@[simp] theorem setSplit_flashEnts (s : State) (w k : Nat) (x : Split) : (setSplit s w k x).flashEnts = s.flashEnts := rfl
@[simp] theorem setSplit_flashMeta (s : State) (w k : Nat) (x : Split) : (setSplit s w k x).flashMeta = s.flashMeta := rfl
@[simp] theorem setSplit_mail (s : State) (w k : Nat) (x : Split) : (setSplit s w k x).mail = s.mail := rfl
@[simp] theorem setSplit_mailOut (s : State) (w k : Nat) (x : Split) : (setSplit s w k x).mailOut = s.mailOut := rfl
@[simp] theorem setSplit_rgns (s : State) (w k : Nat) (x : Split) : (setSplit s w k x).rgns = s.rgns := rfl
@[simp] theorem setSplit_ownProg (s : State) (w k : Nat) (x : Split) : (setSplit s w k x).ownProg = s.ownProg := rfl
@[simp] theorem setSplit_nodes (s : State) (w k : Nat) (x : Split) : (setSplit s w k x).nodes = s.nodes := rfl
@[simp] theorem setSplit_graphs (s : State) (w k : Nat) (x : Split) : (setSplit s w k x).graphs = s.graphs := rfl
@[simp] theorem setSplit_seqs (s : State) (w k : Nat) (x : Split) : (setSplit s w k x).seqs = s.seqs := rfl
@[simp] theorem setSplit_nextNode (s : State) (w k : Nat) (x : Split) : (setSplit s w k x).nextNode = s.nextNode := rfl
@[simp] theorem setSplit_sslots (s : State) (w k : Nat) (x : Split) : (setSplit s w k x).sslots = s.sslots := rfl
@[simp] theorem setSplit_saves (s : State) (w k : Nat) (x : Split) : (setSplit s w k x).saves = s.saves := rfl
@[simp] theorem setSplit_hslots (s : State) (w k : Nat) (x : Split) : (setSplit s w k x).hslots = s.hslots := rfl
@[simp] theorem setSplit_hdiscard (s : State) (w k : Nat) (x : Split) : (setSplit s w k x).hdiscard = s.hdiscard := rfl
@[simp] theorem setSplit_hostQ (s : State) (w k : Nat) (x : Split) : (setSplit s w k x).hostQ = s.hostQ := rfl
@[simp] theorem setSplit_rsreg (s : State) (w k : Nat) (x : Split) : (setSplit s w k x).rsreg = s.rsreg := rfl
@[simp] theorem setSplit_rsdesc (s : State) (w k : Nat) (x : Split) : (setSplit s w k x).rsdesc = s.rsdesc := rfl
@[simp] theorem setSplit_rsstep (s : State) (w k : Nat) (x : Split) : (setSplit s w k x).rsstep = s.rsstep := rfl
@[simp] theorem setSplit_rsstat (s : State) (w k : Nat) (x : Split) : (setSplit s w k x).rsstat = s.rsstat := rfl
@[simp] theorem setSplit_mgmt (s : State) (w k : Nat) (x : Split) : (setSplit s w k x).mgmt = s.mgmt := rfl
@[simp] theorem setSplit_rays (s : State) (w k : Nat) (x : Split) : (setSplit s w k x).rays = s.rays := rfl
@[simp] theorem setSplit_lht (s : State) (w k : Nat) (x : Split) : (setSplit s w k x).lht = s.lht := rfl
@[simp] theorem setSplit_lhtCnt (s : State) (w k : Nat) (x : Split) : (setSplit s w k x).lhtCnt = s.lhtCnt := rfl
@[simp] theorem setSplit_staged (s : State) (w k : Nat) (x : Split) : (setSplit s w k x).staged = s.staged := rfl
@[simp] theorem setSplit_suspects (s : State) (w k : Nat) (x : Split) : (setSplit s w k x).suspects = s.suspects := rfl
@[simp] theorem setSplit_replays (s : State) (w k : Nat) (x : Split) : (setSplit s w k x).replays = s.replays := rfl
@[simp] theorem setSplit_sent (s : State) (w k : Nat) (x : Split) : (setSplit s w k x).sent = s.sent := rfl
@[simp] theorem setSplit_outRead (s : State) (w k : Nat) (x : Split) : (setSplit s w k x).outRead = s.outRead := rfl
@[simp] theorem setSplit_hostOut (s : State) (w k : Nat) (x : Split) : (setSplit s w k x).hostOut = s.hostOut := rfl

/-! ### setBlock -/

@[simp] theorem setBlock_agenda (s : State) (b : Nat) (x : Block) : (setBlock s b x).agenda = s.agenda := rfl
@[simp] theorem setBlock_cur (s : State) (b : Nat) (x : Block) : (setBlock s b x).cur = s.cur := rfl
@[simp] theorem setBlock_cur2 (s : State) (b : Nat) (x : Block) : (setBlock s b x).cur2 = s.cur2 := rfl
@[simp] theorem setBlock_free (s : State) (b : Nat) (x : Block) : (setBlock s b x).free = s.free := rfl
@[simp] theorem setBlock_nextOp (s : State) (b : Nat) (x : Block) : (setBlock s b x).nextOp = s.nextOp := rfl
@[simp] theorem setBlock_nextBlk (s : State) (b : Nat) (x : Block) : (setBlock s b x).nextBlk = s.nextBlk := rfl
@[simp] theorem setBlock_vregs (s : State) (b : Nat) (x : Block) : (setBlock s b x).vregs = s.vregs := rfl
@[simp] theorem setBlock_sregs (s : State) (b : Nat) (x : Block) : (setBlock s b x).sregs = s.sregs := rfl
@[simp] theorem setBlock_fsr (s : State) (b : Nat) (x : Block) : (setBlock s b x).fsr = s.fsr := rfl
@[simp] theorem setBlock_tval (s : State) (b : Nat) (x : Block) : (setBlock s b x).tval = s.tval := rfl
@[simp] theorem setBlock_sval (s : State) (b : Nat) (x : Block) : (setBlock s b x).sval = s.sval := rfl
@[simp] theorem setBlock_queues (s : State) (b : Nat) (x : Block) : (setBlock s b x).queues = s.queues := rfl
@[simp] theorem setBlock_bn (s : State) (b : Nat) (x : Block) : (setBlock s b x).bn = s.bn := rfl
@[simp] theorem setBlock_warps (s : State) (b : Nat) (x : Block) : (setBlock s b x).warps = s.warps := rfl
@[simp] theorem setBlock_ops (s : State) (b : Nat) (x : Block) : (setBlock s b x).ops = s.ops := rfl
@[simp] theorem setBlock_pend (s : State) (b : Nat) (x : Block) : (setBlock s b x).pend = s.pend := rfl
@[simp] theorem setBlock_bnPend (s : State) (b : Nat) (x : Block) : (setBlock s b x).bnPend = s.bnPend := rfl
@[simp] theorem setBlock_cores (s : State) (b : Nat) (x : Block) : (setBlock s b x).cores = s.cores := rfl
@[simp] theorem setBlock_quarters (s : State) (b : Nat) (x : Block) : (setBlock s b x).quarters = s.quarters := rfl
@[simp] theorem setBlock_growQ (s : State) (b : Nat) (x : Block) : (setBlock s b x).growQ = s.growQ := rfl
@[simp] theorem setBlock_dies (s : State) (b : Nat) (x : Block) : (setBlock s b x).dies = s.dies := rfl
@[simp] theorem setBlock_pkg (s : State) (b : Nat) (x : Block) : (setBlock s b x).pkg = s.pkg := rfl
@[simp] theorem setBlock_tlb (s : State) (b : Nat) (x : Block) : (setBlock s b x).tlb = s.tlb := rfl
@[simp] theorem setBlock_owners (s : State) (b : Nat) (x : Block) : (setBlock s b x).owners = s.owners := rfl
@[simp] theorem setBlock_poison (s : State) (b : Nat) (x : Block) : (setBlock s b x).poison = s.poison := rfl
@[simp] theorem setBlock_frozen (s : State) (b : Nat) (x : Block) : (setBlock s b x).frozen = s.frozen := rfl
@[simp] theorem setBlock_swc (s : State) (b : Nat) (x : Block) : (setBlock s b x).swc = s.swc := rfl
@[simp] theorem setBlock_dcLru (s : State) (b : Nat) (x : Block) : (setBlock s b x).dcLru = s.dcLru := rfl
@[simp] theorem setBlock_poolOld (s : State) (b : Nat) (x : Block) : (setBlock s b x).poolOld = s.poolOld := rfl
@[simp] theorem setBlock_prov (s : State) (b : Nat) (x : Block) : (setBlock s b x).prov = s.prov := rfl
@[simp] theorem setBlock_granules (s : State) (b : Nat) (x : Block) : (setBlock s b x).granules = s.granules := rfl
@[simp] theorem setBlock_marks (s : State) (b : Nat) (x : Block) : (setBlock s b x).marks = s.marks := rfl
@[simp] theorem setBlock_acquired (s : State) (b : Nat) (x : Block) : (setBlock s b x).acquired = s.acquired := rfl
@[simp] theorem setBlock_fenceMarks (s : State) (b : Nat) (x : Block) : (setBlock s b x).fenceMarks = s.fenceMarks := rfl
@[simp] theorem setBlock_scMarks (s : State) (b : Nat) (x : Block) : (setBlock s b x).scMarks = s.scMarks := rfl
@[simp] theorem setBlock_seen (s : State) (b : Nat) (x : Block) : (setBlock s b x).seen = s.seen := rfl
@[simp] theorem setBlock_routes (s : State) (b : Nat) (x : Block) : (setBlock s b x).routes = s.routes := rfl
@[simp] theorem setBlock_regions (s : State) (b : Nat) (x : Block) : (setBlock s b x).regions = s.regions := rfl
@[simp] theorem setBlock_cks (s : State) (b : Nat) (x : Block) : (setBlock s b x).cks = s.cks := rfl
@[simp] theorem setBlock_vmarks (s : State) (b : Nat) (x : Block) : (setBlock s b x).vmarks = s.vmarks := rfl
@[simp] theorem setBlock_pools (s : State) (b : Nat) (x : Block) : (setBlock s b x).pools = s.pools := rfl
@[simp] theorem setBlock_mem (s : State) (b : Nat) (x : Block) : (setBlock s b x).mem = s.mem := rfl
@[simp] theorem setBlock_suspectVas (s : State) (b : Nat) (x : Block) : (setBlock s b x).suspectVas = s.suspectVas := rfl
@[simp] theorem setBlock_provFull (s : State) (b : Nat) (x : Block) : (setBlock s b x).provFull = s.provFull := rfl
@[simp] theorem setBlock_icode (s : State) (b : Nat) (x : Block) : (setBlock s b x).icode = s.icode := rfl
@[simp] theorem setBlock_stalls (s : State) (b : Nat) (x : Block) : (setBlock s b x).stalls = s.stalls := rfl
@[simp] theorem setBlock_prq (s : State) (b : Nat) (x : Block) : (setBlock s b x).prq = s.prq := rfl
@[simp] theorem setBlock_chans (s : State) (b : Nat) (x : Block) : (setBlock s b x).chans = s.chans := rfl
@[simp] theorem setBlock_aos (s : State) (b : Nat) (x : Block) : (setBlock s b x).aos = s.aos := rfl
@[simp] theorem setBlock_cbars (s : State) (b : Nat) (x : Block) : (setBlock s b x).cbars = s.cbars := rfl
@[simp] theorem setBlock_tds (s : State) (b : Nat) (x : Block) : (setBlock s b x).tds = s.tds := rfl
@[simp] theorem setBlock_cbs (s : State) (b : Nat) (x : Block) : (setBlock s b x).cbs = s.cbs := rfl
@[simp] theorem setBlock_fwd (s : State) (b : Nat) (x : Block) : (setBlock s b x).fwd = s.fwd := rfl
@[simp] theorem setBlock_fwdEnts (s : State) (b : Nat) (x : Block) : (setBlock s b x).fwdEnts = s.fwdEnts := rfl
@[simp] theorem setBlock_tstat (s : State) (b : Nat) (x : Block) : (setBlock s b x).tstat = s.tstat := rfl
@[simp] theorem setBlock_tpois (s : State) (b : Nat) (x : Block) : (setBlock s b x).tpois = s.tpois := rfl
@[simp] theorem setBlock_vents (s : State) (b : Nat) (x : Block) : (setBlock s b x).vents = s.vents := rfl
@[simp] theorem setBlock_vmeta (s : State) (b : Nat) (x : Block) : (setBlock s b x).vmeta = s.vmeta := rfl
@[simp] theorem setBlock_vseq (s : State) (b : Nat) (x : Block) : (setBlock s b x).vseq = s.vseq := rfl
@[simp] theorem setBlock_vcap (s : State) (b : Nat) (x : Block) : (setBlock s b x).vcap = s.vcap := rfl
@[simp] theorem setBlock_flashEnts (s : State) (b : Nat) (x : Block) : (setBlock s b x).flashEnts = s.flashEnts := rfl
@[simp] theorem setBlock_flashMeta (s : State) (b : Nat) (x : Block) : (setBlock s b x).flashMeta = s.flashMeta := rfl
@[simp] theorem setBlock_mail (s : State) (b : Nat) (x : Block) : (setBlock s b x).mail = s.mail := rfl
@[simp] theorem setBlock_mailOut (s : State) (b : Nat) (x : Block) : (setBlock s b x).mailOut = s.mailOut := rfl
@[simp] theorem setBlock_rgns (s : State) (b : Nat) (x : Block) : (setBlock s b x).rgns = s.rgns := rfl
@[simp] theorem setBlock_ownProg (s : State) (b : Nat) (x : Block) : (setBlock s b x).ownProg = s.ownProg := rfl
@[simp] theorem setBlock_nodes (s : State) (b : Nat) (x : Block) : (setBlock s b x).nodes = s.nodes := rfl
@[simp] theorem setBlock_graphs (s : State) (b : Nat) (x : Block) : (setBlock s b x).graphs = s.graphs := rfl
@[simp] theorem setBlock_seqs (s : State) (b : Nat) (x : Block) : (setBlock s b x).seqs = s.seqs := rfl
@[simp] theorem setBlock_nextNode (s : State) (b : Nat) (x : Block) : (setBlock s b x).nextNode = s.nextNode := rfl
@[simp] theorem setBlock_sslots (s : State) (b : Nat) (x : Block) : (setBlock s b x).sslots = s.sslots := rfl
@[simp] theorem setBlock_saves (s : State) (b : Nat) (x : Block) : (setBlock s b x).saves = s.saves := rfl
@[simp] theorem setBlock_hslots (s : State) (b : Nat) (x : Block) : (setBlock s b x).hslots = s.hslots := rfl
@[simp] theorem setBlock_hdiscard (s : State) (b : Nat) (x : Block) : (setBlock s b x).hdiscard = s.hdiscard := rfl
@[simp] theorem setBlock_hostQ (s : State) (b : Nat) (x : Block) : (setBlock s b x).hostQ = s.hostQ := rfl
@[simp] theorem setBlock_rsreg (s : State) (b : Nat) (x : Block) : (setBlock s b x).rsreg = s.rsreg := rfl
@[simp] theorem setBlock_rsdesc (s : State) (b : Nat) (x : Block) : (setBlock s b x).rsdesc = s.rsdesc := rfl
@[simp] theorem setBlock_rsstep (s : State) (b : Nat) (x : Block) : (setBlock s b x).rsstep = s.rsstep := rfl
@[simp] theorem setBlock_rsstat (s : State) (b : Nat) (x : Block) : (setBlock s b x).rsstat = s.rsstat := rfl
@[simp] theorem setBlock_mgmt (s : State) (b : Nat) (x : Block) : (setBlock s b x).mgmt = s.mgmt := rfl
@[simp] theorem setBlock_rays (s : State) (b : Nat) (x : Block) : (setBlock s b x).rays = s.rays := rfl
@[simp] theorem setBlock_lht (s : State) (b : Nat) (x : Block) : (setBlock s b x).lht = s.lht := rfl
@[simp] theorem setBlock_lhtCnt (s : State) (b : Nat) (x : Block) : (setBlock s b x).lhtCnt = s.lhtCnt := rfl
@[simp] theorem setBlock_staged (s : State) (b : Nat) (x : Block) : (setBlock s b x).staged = s.staged := rfl
@[simp] theorem setBlock_suspects (s : State) (b : Nat) (x : Block) : (setBlock s b x).suspects = s.suspects := rfl
@[simp] theorem setBlock_replays (s : State) (b : Nat) (x : Block) : (setBlock s b x).replays = s.replays := rfl
@[simp] theorem setBlock_sent (s : State) (b : Nat) (x : Block) : (setBlock s b x).sent = s.sent := rfl
@[simp] theorem setBlock_outRead (s : State) (b : Nat) (x : Block) : (setBlock s b x).outRead = s.outRead := rfl
@[simp] theorem setBlock_hostOut (s : State) (b : Nat) (x : Block) : (setBlock s b x).hostOut = s.hostOut := rfl

/-! ### setCore -/

@[simp] theorem setCore_agenda (s : State) (n : Nat) (x : CoreSt) : (setCore s n x).agenda = s.agenda := rfl
@[simp] theorem setCore_cur (s : State) (n : Nat) (x : CoreSt) : (setCore s n x).cur = s.cur := rfl
@[simp] theorem setCore_cur2 (s : State) (n : Nat) (x : CoreSt) : (setCore s n x).cur2 = s.cur2 := rfl
@[simp] theorem setCore_free (s : State) (n : Nat) (x : CoreSt) : (setCore s n x).free = s.free := rfl
@[simp] theorem setCore_nextOp (s : State) (n : Nat) (x : CoreSt) : (setCore s n x).nextOp = s.nextOp := rfl
@[simp] theorem setCore_nextBlk (s : State) (n : Nat) (x : CoreSt) : (setCore s n x).nextBlk = s.nextBlk := rfl
@[simp] theorem setCore_vregs (s : State) (n : Nat) (x : CoreSt) : (setCore s n x).vregs = s.vregs := rfl
@[simp] theorem setCore_sregs (s : State) (n : Nat) (x : CoreSt) : (setCore s n x).sregs = s.sregs := rfl
@[simp] theorem setCore_fsr (s : State) (n : Nat) (x : CoreSt) : (setCore s n x).fsr = s.fsr := rfl
@[simp] theorem setCore_tval (s : State) (n : Nat) (x : CoreSt) : (setCore s n x).tval = s.tval := rfl
@[simp] theorem setCore_sval (s : State) (n : Nat) (x : CoreSt) : (setCore s n x).sval = s.sval := rfl
@[simp] theorem setCore_queues (s : State) (n : Nat) (x : CoreSt) : (setCore s n x).queues = s.queues := rfl
@[simp] theorem setCore_bn (s : State) (n : Nat) (x : CoreSt) : (setCore s n x).bn = s.bn := rfl
@[simp] theorem setCore_warps (s : State) (n : Nat) (x : CoreSt) : (setCore s n x).warps = s.warps := rfl
@[simp] theorem setCore_blocks (s : State) (n : Nat) (x : CoreSt) : (setCore s n x).blocks = s.blocks := rfl
@[simp] theorem setCore_ops (s : State) (n : Nat) (x : CoreSt) : (setCore s n x).ops = s.ops := rfl
@[simp] theorem setCore_pend (s : State) (n : Nat) (x : CoreSt) : (setCore s n x).pend = s.pend := rfl
@[simp] theorem setCore_bnPend (s : State) (n : Nat) (x : CoreSt) : (setCore s n x).bnPend = s.bnPend := rfl
@[simp] theorem setCore_quarters (s : State) (n : Nat) (x : CoreSt) : (setCore s n x).quarters = s.quarters := rfl
@[simp] theorem setCore_growQ (s : State) (n : Nat) (x : CoreSt) : (setCore s n x).growQ = s.growQ := rfl
@[simp] theorem setCore_dies (s : State) (n : Nat) (x : CoreSt) : (setCore s n x).dies = s.dies := rfl
@[simp] theorem setCore_pkg (s : State) (n : Nat) (x : CoreSt) : (setCore s n x).pkg = s.pkg := rfl
@[simp] theorem setCore_tlb (s : State) (n : Nat) (x : CoreSt) : (setCore s n x).tlb = s.tlb := rfl
@[simp] theorem setCore_owners (s : State) (n : Nat) (x : CoreSt) : (setCore s n x).owners = s.owners := rfl
@[simp] theorem setCore_poison (s : State) (n : Nat) (x : CoreSt) : (setCore s n x).poison = s.poison := rfl
@[simp] theorem setCore_frozen (s : State) (n : Nat) (x : CoreSt) : (setCore s n x).frozen = s.frozen := rfl
@[simp] theorem setCore_swc (s : State) (n : Nat) (x : CoreSt) : (setCore s n x).swc = s.swc := rfl
@[simp] theorem setCore_dcLru (s : State) (n : Nat) (x : CoreSt) : (setCore s n x).dcLru = s.dcLru := rfl
@[simp] theorem setCore_poolOld (s : State) (n : Nat) (x : CoreSt) : (setCore s n x).poolOld = s.poolOld := rfl
@[simp] theorem setCore_prov (s : State) (n : Nat) (x : CoreSt) : (setCore s n x).prov = s.prov := rfl
@[simp] theorem setCore_granules (s : State) (n : Nat) (x : CoreSt) : (setCore s n x).granules = s.granules := rfl
@[simp] theorem setCore_marks (s : State) (n : Nat) (x : CoreSt) : (setCore s n x).marks = s.marks := rfl
@[simp] theorem setCore_acquired (s : State) (n : Nat) (x : CoreSt) : (setCore s n x).acquired = s.acquired := rfl
@[simp] theorem setCore_fenceMarks (s : State) (n : Nat) (x : CoreSt) : (setCore s n x).fenceMarks = s.fenceMarks := rfl
@[simp] theorem setCore_scMarks (s : State) (n : Nat) (x : CoreSt) : (setCore s n x).scMarks = s.scMarks := rfl
@[simp] theorem setCore_seen (s : State) (n : Nat) (x : CoreSt) : (setCore s n x).seen = s.seen := rfl
@[simp] theorem setCore_routes (s : State) (n : Nat) (x : CoreSt) : (setCore s n x).routes = s.routes := rfl
@[simp] theorem setCore_regions (s : State) (n : Nat) (x : CoreSt) : (setCore s n x).regions = s.regions := rfl
@[simp] theorem setCore_cks (s : State) (n : Nat) (x : CoreSt) : (setCore s n x).cks = s.cks := rfl
@[simp] theorem setCore_vmarks (s : State) (n : Nat) (x : CoreSt) : (setCore s n x).vmarks = s.vmarks := rfl
@[simp] theorem setCore_pools (s : State) (n : Nat) (x : CoreSt) : (setCore s n x).pools = s.pools := rfl
@[simp] theorem setCore_mem (s : State) (n : Nat) (x : CoreSt) : (setCore s n x).mem = s.mem := rfl
@[simp] theorem setCore_suspectVas (s : State) (n : Nat) (x : CoreSt) : (setCore s n x).suspectVas = s.suspectVas := rfl
@[simp] theorem setCore_provFull (s : State) (n : Nat) (x : CoreSt) : (setCore s n x).provFull = s.provFull := rfl
@[simp] theorem setCore_icode (s : State) (n : Nat) (x : CoreSt) : (setCore s n x).icode = s.icode := rfl
@[simp] theorem setCore_stalls (s : State) (n : Nat) (x : CoreSt) : (setCore s n x).stalls = s.stalls := rfl
@[simp] theorem setCore_prq (s : State) (n : Nat) (x : CoreSt) : (setCore s n x).prq = s.prq := rfl
@[simp] theorem setCore_chans (s : State) (n : Nat) (x : CoreSt) : (setCore s n x).chans = s.chans := rfl
@[simp] theorem setCore_aos (s : State) (n : Nat) (x : CoreSt) : (setCore s n x).aos = s.aos := rfl
@[simp] theorem setCore_cbars (s : State) (n : Nat) (x : CoreSt) : (setCore s n x).cbars = s.cbars := rfl
@[simp] theorem setCore_tds (s : State) (n : Nat) (x : CoreSt) : (setCore s n x).tds = s.tds := rfl
@[simp] theorem setCore_cbs (s : State) (n : Nat) (x : CoreSt) : (setCore s n x).cbs = s.cbs := rfl
@[simp] theorem setCore_fwd (s : State) (n : Nat) (x : CoreSt) : (setCore s n x).fwd = s.fwd := rfl
@[simp] theorem setCore_fwdEnts (s : State) (n : Nat) (x : CoreSt) : (setCore s n x).fwdEnts = s.fwdEnts := rfl
@[simp] theorem setCore_tstat (s : State) (n : Nat) (x : CoreSt) : (setCore s n x).tstat = s.tstat := rfl
@[simp] theorem setCore_tpois (s : State) (n : Nat) (x : CoreSt) : (setCore s n x).tpois = s.tpois := rfl
@[simp] theorem setCore_vents (s : State) (n : Nat) (x : CoreSt) : (setCore s n x).vents = s.vents := rfl
@[simp] theorem setCore_vmeta (s : State) (n : Nat) (x : CoreSt) : (setCore s n x).vmeta = s.vmeta := rfl
@[simp] theorem setCore_vseq (s : State) (n : Nat) (x : CoreSt) : (setCore s n x).vseq = s.vseq := rfl
@[simp] theorem setCore_vcap (s : State) (n : Nat) (x : CoreSt) : (setCore s n x).vcap = s.vcap := rfl
@[simp] theorem setCore_flashEnts (s : State) (n : Nat) (x : CoreSt) : (setCore s n x).flashEnts = s.flashEnts := rfl
@[simp] theorem setCore_flashMeta (s : State) (n : Nat) (x : CoreSt) : (setCore s n x).flashMeta = s.flashMeta := rfl
@[simp] theorem setCore_mail (s : State) (n : Nat) (x : CoreSt) : (setCore s n x).mail = s.mail := rfl
@[simp] theorem setCore_mailOut (s : State) (n : Nat) (x : CoreSt) : (setCore s n x).mailOut = s.mailOut := rfl
@[simp] theorem setCore_rgns (s : State) (n : Nat) (x : CoreSt) : (setCore s n x).rgns = s.rgns := rfl
@[simp] theorem setCore_ownProg (s : State) (n : Nat) (x : CoreSt) : (setCore s n x).ownProg = s.ownProg := rfl
@[simp] theorem setCore_nodes (s : State) (n : Nat) (x : CoreSt) : (setCore s n x).nodes = s.nodes := rfl
@[simp] theorem setCore_graphs (s : State) (n : Nat) (x : CoreSt) : (setCore s n x).graphs = s.graphs := rfl
@[simp] theorem setCore_seqs (s : State) (n : Nat) (x : CoreSt) : (setCore s n x).seqs = s.seqs := rfl
@[simp] theorem setCore_nextNode (s : State) (n : Nat) (x : CoreSt) : (setCore s n x).nextNode = s.nextNode := rfl
@[simp] theorem setCore_sslots (s : State) (n : Nat) (x : CoreSt) : (setCore s n x).sslots = s.sslots := rfl
@[simp] theorem setCore_saves (s : State) (n : Nat) (x : CoreSt) : (setCore s n x).saves = s.saves := rfl
@[simp] theorem setCore_hslots (s : State) (n : Nat) (x : CoreSt) : (setCore s n x).hslots = s.hslots := rfl
@[simp] theorem setCore_hdiscard (s : State) (n : Nat) (x : CoreSt) : (setCore s n x).hdiscard = s.hdiscard := rfl
@[simp] theorem setCore_hostQ (s : State) (n : Nat) (x : CoreSt) : (setCore s n x).hostQ = s.hostQ := rfl
@[simp] theorem setCore_rsreg (s : State) (n : Nat) (x : CoreSt) : (setCore s n x).rsreg = s.rsreg := rfl
@[simp] theorem setCore_rsdesc (s : State) (n : Nat) (x : CoreSt) : (setCore s n x).rsdesc = s.rsdesc := rfl
@[simp] theorem setCore_rsstep (s : State) (n : Nat) (x : CoreSt) : (setCore s n x).rsstep = s.rsstep := rfl
@[simp] theorem setCore_rsstat (s : State) (n : Nat) (x : CoreSt) : (setCore s n x).rsstat = s.rsstat := rfl
@[simp] theorem setCore_mgmt (s : State) (n : Nat) (x : CoreSt) : (setCore s n x).mgmt = s.mgmt := rfl
@[simp] theorem setCore_rays (s : State) (n : Nat) (x : CoreSt) : (setCore s n x).rays = s.rays := rfl
@[simp] theorem setCore_lht (s : State) (n : Nat) (x : CoreSt) : (setCore s n x).lht = s.lht := rfl
@[simp] theorem setCore_lhtCnt (s : State) (n : Nat) (x : CoreSt) : (setCore s n x).lhtCnt = s.lhtCnt := rfl
@[simp] theorem setCore_staged (s : State) (n : Nat) (x : CoreSt) : (setCore s n x).staged = s.staged := rfl
@[simp] theorem setCore_suspects (s : State) (n : Nat) (x : CoreSt) : (setCore s n x).suspects = s.suspects := rfl
@[simp] theorem setCore_replays (s : State) (n : Nat) (x : CoreSt) : (setCore s n x).replays = s.replays := rfl
@[simp] theorem setCore_sent (s : State) (n : Nat) (x : CoreSt) : (setCore s n x).sent = s.sent := rfl
@[simp] theorem setCore_outRead (s : State) (n : Nat) (x : CoreSt) : (setCore s n x).outRead = s.outRead := rfl
@[simp] theorem setCore_hostOut (s : State) (n : Nat) (x : CoreSt) : (setCore s n x).hostOut = s.hostOut := rfl

/-! ### setQuarter -/

@[simp] theorem setQuarter_agenda (s : State) (n : Nat) (x : Quarter) : (setQuarter s n x).agenda = s.agenda := rfl
@[simp] theorem setQuarter_cur (s : State) (n : Nat) (x : Quarter) : (setQuarter s n x).cur = s.cur := rfl
@[simp] theorem setQuarter_cur2 (s : State) (n : Nat) (x : Quarter) : (setQuarter s n x).cur2 = s.cur2 := rfl
@[simp] theorem setQuarter_free (s : State) (n : Nat) (x : Quarter) : (setQuarter s n x).free = s.free := rfl
@[simp] theorem setQuarter_nextOp (s : State) (n : Nat) (x : Quarter) : (setQuarter s n x).nextOp = s.nextOp := rfl
@[simp] theorem setQuarter_nextBlk (s : State) (n : Nat) (x : Quarter) : (setQuarter s n x).nextBlk = s.nextBlk := rfl
@[simp] theorem setQuarter_vregs (s : State) (n : Nat) (x : Quarter) : (setQuarter s n x).vregs = s.vregs := rfl
@[simp] theorem setQuarter_sregs (s : State) (n : Nat) (x : Quarter) : (setQuarter s n x).sregs = s.sregs := rfl
@[simp] theorem setQuarter_fsr (s : State) (n : Nat) (x : Quarter) : (setQuarter s n x).fsr = s.fsr := rfl
@[simp] theorem setQuarter_tval (s : State) (n : Nat) (x : Quarter) : (setQuarter s n x).tval = s.tval := rfl
@[simp] theorem setQuarter_sval (s : State) (n : Nat) (x : Quarter) : (setQuarter s n x).sval = s.sval := rfl
@[simp] theorem setQuarter_queues (s : State) (n : Nat) (x : Quarter) : (setQuarter s n x).queues = s.queues := rfl
@[simp] theorem setQuarter_bn (s : State) (n : Nat) (x : Quarter) : (setQuarter s n x).bn = s.bn := rfl
@[simp] theorem setQuarter_warps (s : State) (n : Nat) (x : Quarter) : (setQuarter s n x).warps = s.warps := rfl
@[simp] theorem setQuarter_blocks (s : State) (n : Nat) (x : Quarter) : (setQuarter s n x).blocks = s.blocks := rfl
@[simp] theorem setQuarter_ops (s : State) (n : Nat) (x : Quarter) : (setQuarter s n x).ops = s.ops := rfl
@[simp] theorem setQuarter_pend (s : State) (n : Nat) (x : Quarter) : (setQuarter s n x).pend = s.pend := rfl
@[simp] theorem setQuarter_bnPend (s : State) (n : Nat) (x : Quarter) : (setQuarter s n x).bnPend = s.bnPend := rfl
@[simp] theorem setQuarter_cores (s : State) (n : Nat) (x : Quarter) : (setQuarter s n x).cores = s.cores := rfl
@[simp] theorem setQuarter_growQ (s : State) (n : Nat) (x : Quarter) : (setQuarter s n x).growQ = s.growQ := rfl
@[simp] theorem setQuarter_dies (s : State) (n : Nat) (x : Quarter) : (setQuarter s n x).dies = s.dies := rfl
@[simp] theorem setQuarter_pkg (s : State) (n : Nat) (x : Quarter) : (setQuarter s n x).pkg = s.pkg := rfl
@[simp] theorem setQuarter_tlb (s : State) (n : Nat) (x : Quarter) : (setQuarter s n x).tlb = s.tlb := rfl
@[simp] theorem setQuarter_owners (s : State) (n : Nat) (x : Quarter) : (setQuarter s n x).owners = s.owners := rfl
@[simp] theorem setQuarter_poison (s : State) (n : Nat) (x : Quarter) : (setQuarter s n x).poison = s.poison := rfl
@[simp] theorem setQuarter_frozen (s : State) (n : Nat) (x : Quarter) : (setQuarter s n x).frozen = s.frozen := rfl
@[simp] theorem setQuarter_swc (s : State) (n : Nat) (x : Quarter) : (setQuarter s n x).swc = s.swc := rfl
@[simp] theorem setQuarter_dcLru (s : State) (n : Nat) (x : Quarter) : (setQuarter s n x).dcLru = s.dcLru := rfl
@[simp] theorem setQuarter_poolOld (s : State) (n : Nat) (x : Quarter) : (setQuarter s n x).poolOld = s.poolOld := rfl
@[simp] theorem setQuarter_prov (s : State) (n : Nat) (x : Quarter) : (setQuarter s n x).prov = s.prov := rfl
@[simp] theorem setQuarter_granules (s : State) (n : Nat) (x : Quarter) : (setQuarter s n x).granules = s.granules := rfl
@[simp] theorem setQuarter_marks (s : State) (n : Nat) (x : Quarter) : (setQuarter s n x).marks = s.marks := rfl
@[simp] theorem setQuarter_acquired (s : State) (n : Nat) (x : Quarter) : (setQuarter s n x).acquired = s.acquired := rfl
@[simp] theorem setQuarter_fenceMarks (s : State) (n : Nat) (x : Quarter) : (setQuarter s n x).fenceMarks = s.fenceMarks := rfl
@[simp] theorem setQuarter_scMarks (s : State) (n : Nat) (x : Quarter) : (setQuarter s n x).scMarks = s.scMarks := rfl
@[simp] theorem setQuarter_seen (s : State) (n : Nat) (x : Quarter) : (setQuarter s n x).seen = s.seen := rfl
@[simp] theorem setQuarter_routes (s : State) (n : Nat) (x : Quarter) : (setQuarter s n x).routes = s.routes := rfl
@[simp] theorem setQuarter_regions (s : State) (n : Nat) (x : Quarter) : (setQuarter s n x).regions = s.regions := rfl
@[simp] theorem setQuarter_cks (s : State) (n : Nat) (x : Quarter) : (setQuarter s n x).cks = s.cks := rfl
@[simp] theorem setQuarter_vmarks (s : State) (n : Nat) (x : Quarter) : (setQuarter s n x).vmarks = s.vmarks := rfl
@[simp] theorem setQuarter_pools (s : State) (n : Nat) (x : Quarter) : (setQuarter s n x).pools = s.pools := rfl
@[simp] theorem setQuarter_mem (s : State) (n : Nat) (x : Quarter) : (setQuarter s n x).mem = s.mem := rfl
@[simp] theorem setQuarter_suspectVas (s : State) (n : Nat) (x : Quarter) : (setQuarter s n x).suspectVas = s.suspectVas := rfl
@[simp] theorem setQuarter_provFull (s : State) (n : Nat) (x : Quarter) : (setQuarter s n x).provFull = s.provFull := rfl
@[simp] theorem setQuarter_icode (s : State) (n : Nat) (x : Quarter) : (setQuarter s n x).icode = s.icode := rfl
@[simp] theorem setQuarter_stalls (s : State) (n : Nat) (x : Quarter) : (setQuarter s n x).stalls = s.stalls := rfl
@[simp] theorem setQuarter_prq (s : State) (n : Nat) (x : Quarter) : (setQuarter s n x).prq = s.prq := rfl
@[simp] theorem setQuarter_chans (s : State) (n : Nat) (x : Quarter) : (setQuarter s n x).chans = s.chans := rfl
@[simp] theorem setQuarter_aos (s : State) (n : Nat) (x : Quarter) : (setQuarter s n x).aos = s.aos := rfl
@[simp] theorem setQuarter_cbars (s : State) (n : Nat) (x : Quarter) : (setQuarter s n x).cbars = s.cbars := rfl
@[simp] theorem setQuarter_tds (s : State) (n : Nat) (x : Quarter) : (setQuarter s n x).tds = s.tds := rfl
@[simp] theorem setQuarter_cbs (s : State) (n : Nat) (x : Quarter) : (setQuarter s n x).cbs = s.cbs := rfl
@[simp] theorem setQuarter_fwd (s : State) (n : Nat) (x : Quarter) : (setQuarter s n x).fwd = s.fwd := rfl
@[simp] theorem setQuarter_fwdEnts (s : State) (n : Nat) (x : Quarter) : (setQuarter s n x).fwdEnts = s.fwdEnts := rfl
@[simp] theorem setQuarter_tstat (s : State) (n : Nat) (x : Quarter) : (setQuarter s n x).tstat = s.tstat := rfl
@[simp] theorem setQuarter_tpois (s : State) (n : Nat) (x : Quarter) : (setQuarter s n x).tpois = s.tpois := rfl
@[simp] theorem setQuarter_vents (s : State) (n : Nat) (x : Quarter) : (setQuarter s n x).vents = s.vents := rfl
@[simp] theorem setQuarter_vmeta (s : State) (n : Nat) (x : Quarter) : (setQuarter s n x).vmeta = s.vmeta := rfl
@[simp] theorem setQuarter_vseq (s : State) (n : Nat) (x : Quarter) : (setQuarter s n x).vseq = s.vseq := rfl
@[simp] theorem setQuarter_vcap (s : State) (n : Nat) (x : Quarter) : (setQuarter s n x).vcap = s.vcap := rfl
@[simp] theorem setQuarter_flashEnts (s : State) (n : Nat) (x : Quarter) : (setQuarter s n x).flashEnts = s.flashEnts := rfl
@[simp] theorem setQuarter_flashMeta (s : State) (n : Nat) (x : Quarter) : (setQuarter s n x).flashMeta = s.flashMeta := rfl
@[simp] theorem setQuarter_mail (s : State) (n : Nat) (x : Quarter) : (setQuarter s n x).mail = s.mail := rfl
@[simp] theorem setQuarter_mailOut (s : State) (n : Nat) (x : Quarter) : (setQuarter s n x).mailOut = s.mailOut := rfl
@[simp] theorem setQuarter_rgns (s : State) (n : Nat) (x : Quarter) : (setQuarter s n x).rgns = s.rgns := rfl
@[simp] theorem setQuarter_ownProg (s : State) (n : Nat) (x : Quarter) : (setQuarter s n x).ownProg = s.ownProg := rfl
@[simp] theorem setQuarter_nodes (s : State) (n : Nat) (x : Quarter) : (setQuarter s n x).nodes = s.nodes := rfl
@[simp] theorem setQuarter_graphs (s : State) (n : Nat) (x : Quarter) : (setQuarter s n x).graphs = s.graphs := rfl
@[simp] theorem setQuarter_seqs (s : State) (n : Nat) (x : Quarter) : (setQuarter s n x).seqs = s.seqs := rfl
@[simp] theorem setQuarter_nextNode (s : State) (n : Nat) (x : Quarter) : (setQuarter s n x).nextNode = s.nextNode := rfl
@[simp] theorem setQuarter_sslots (s : State) (n : Nat) (x : Quarter) : (setQuarter s n x).sslots = s.sslots := rfl
@[simp] theorem setQuarter_saves (s : State) (n : Nat) (x : Quarter) : (setQuarter s n x).saves = s.saves := rfl
@[simp] theorem setQuarter_hslots (s : State) (n : Nat) (x : Quarter) : (setQuarter s n x).hslots = s.hslots := rfl
@[simp] theorem setQuarter_hdiscard (s : State) (n : Nat) (x : Quarter) : (setQuarter s n x).hdiscard = s.hdiscard := rfl
@[simp] theorem setQuarter_hostQ (s : State) (n : Nat) (x : Quarter) : (setQuarter s n x).hostQ = s.hostQ := rfl
@[simp] theorem setQuarter_rsreg (s : State) (n : Nat) (x : Quarter) : (setQuarter s n x).rsreg = s.rsreg := rfl
@[simp] theorem setQuarter_rsdesc (s : State) (n : Nat) (x : Quarter) : (setQuarter s n x).rsdesc = s.rsdesc := rfl
@[simp] theorem setQuarter_rsstep (s : State) (n : Nat) (x : Quarter) : (setQuarter s n x).rsstep = s.rsstep := rfl
@[simp] theorem setQuarter_rsstat (s : State) (n : Nat) (x : Quarter) : (setQuarter s n x).rsstat = s.rsstat := rfl
@[simp] theorem setQuarter_mgmt (s : State) (n : Nat) (x : Quarter) : (setQuarter s n x).mgmt = s.mgmt := rfl
@[simp] theorem setQuarter_rays (s : State) (n : Nat) (x : Quarter) : (setQuarter s n x).rays = s.rays := rfl
@[simp] theorem setQuarter_lht (s : State) (n : Nat) (x : Quarter) : (setQuarter s n x).lht = s.lht := rfl
@[simp] theorem setQuarter_lhtCnt (s : State) (n : Nat) (x : Quarter) : (setQuarter s n x).lhtCnt = s.lhtCnt := rfl
@[simp] theorem setQuarter_staged (s : State) (n : Nat) (x : Quarter) : (setQuarter s n x).staged = s.staged := rfl
@[simp] theorem setQuarter_suspects (s : State) (n : Nat) (x : Quarter) : (setQuarter s n x).suspects = s.suspects := rfl
@[simp] theorem setQuarter_replays (s : State) (n : Nat) (x : Quarter) : (setQuarter s n x).replays = s.replays := rfl
@[simp] theorem setQuarter_sent (s : State) (n : Nat) (x : Quarter) : (setQuarter s n x).sent = s.sent := rfl
@[simp] theorem setQuarter_outRead (s : State) (n : Nat) (x : Quarter) : (setQuarter s n x).outRead = s.outRead := rfl
@[simp] theorem setQuarter_hostOut (s : State) (n : Nat) (x : Quarter) : (setQuarter s n x).hostOut = s.hostOut := rfl

/-! ### wrV -/

@[simp] theorem wrV_agenda (s : State) (w code : Nat) (ws : List (Nat × TWord)) : (wrV s w code ws).agenda = s.agenda := rfl
@[simp] theorem wrV_cur (s : State) (w code : Nat) (ws : List (Nat × TWord)) : (wrV s w code ws).cur = s.cur := rfl
@[simp] theorem wrV_cur2 (s : State) (w code : Nat) (ws : List (Nat × TWord)) : (wrV s w code ws).cur2 = s.cur2 := rfl
@[simp] theorem wrV_free (s : State) (w code : Nat) (ws : List (Nat × TWord)) : (wrV s w code ws).free = s.free := rfl
@[simp] theorem wrV_nextOp (s : State) (w code : Nat) (ws : List (Nat × TWord)) : (wrV s w code ws).nextOp = s.nextOp := rfl
@[simp] theorem wrV_nextBlk (s : State) (w code : Nat) (ws : List (Nat × TWord)) : (wrV s w code ws).nextBlk = s.nextBlk := rfl
@[simp] theorem wrV_sregs (s : State) (w code : Nat) (ws : List (Nat × TWord)) : (wrV s w code ws).sregs = s.sregs := rfl
@[simp] theorem wrV_fsr (s : State) (w code : Nat) (ws : List (Nat × TWord)) : (wrV s w code ws).fsr = s.fsr := rfl
@[simp] theorem wrV_tval (s : State) (w code : Nat) (ws : List (Nat × TWord)) : (wrV s w code ws).tval = s.tval := rfl
@[simp] theorem wrV_sval (s : State) (w code : Nat) (ws : List (Nat × TWord)) : (wrV s w code ws).sval = s.sval := rfl
@[simp] theorem wrV_queues (s : State) (w code : Nat) (ws : List (Nat × TWord)) : (wrV s w code ws).queues = s.queues := rfl
@[simp] theorem wrV_bn (s : State) (w code : Nat) (ws : List (Nat × TWord)) : (wrV s w code ws).bn = s.bn := rfl
@[simp] theorem wrV_warps (s : State) (w code : Nat) (ws : List (Nat × TWord)) : (wrV s w code ws).warps = s.warps := rfl
@[simp] theorem wrV_blocks (s : State) (w code : Nat) (ws : List (Nat × TWord)) : (wrV s w code ws).blocks = s.blocks := rfl
@[simp] theorem wrV_ops (s : State) (w code : Nat) (ws : List (Nat × TWord)) : (wrV s w code ws).ops = s.ops := rfl
@[simp] theorem wrV_pend (s : State) (w code : Nat) (ws : List (Nat × TWord)) : (wrV s w code ws).pend = s.pend := rfl
@[simp] theorem wrV_bnPend (s : State) (w code : Nat) (ws : List (Nat × TWord)) : (wrV s w code ws).bnPend = s.bnPend := rfl
@[simp] theorem wrV_cores (s : State) (w code : Nat) (ws : List (Nat × TWord)) : (wrV s w code ws).cores = s.cores := rfl
@[simp] theorem wrV_quarters (s : State) (w code : Nat) (ws : List (Nat × TWord)) : (wrV s w code ws).quarters = s.quarters := rfl
@[simp] theorem wrV_growQ (s : State) (w code : Nat) (ws : List (Nat × TWord)) : (wrV s w code ws).growQ = s.growQ := rfl
@[simp] theorem wrV_dies (s : State) (w code : Nat) (ws : List (Nat × TWord)) : (wrV s w code ws).dies = s.dies := rfl
@[simp] theorem wrV_pkg (s : State) (w code : Nat) (ws : List (Nat × TWord)) : (wrV s w code ws).pkg = s.pkg := rfl
@[simp] theorem wrV_tlb (s : State) (w code : Nat) (ws : List (Nat × TWord)) : (wrV s w code ws).tlb = s.tlb := rfl
@[simp] theorem wrV_owners (s : State) (w code : Nat) (ws : List (Nat × TWord)) : (wrV s w code ws).owners = s.owners := rfl
@[simp] theorem wrV_poison (s : State) (w code : Nat) (ws : List (Nat × TWord)) : (wrV s w code ws).poison = s.poison := rfl
@[simp] theorem wrV_frozen (s : State) (w code : Nat) (ws : List (Nat × TWord)) : (wrV s w code ws).frozen = s.frozen := rfl
@[simp] theorem wrV_swc (s : State) (w code : Nat) (ws : List (Nat × TWord)) : (wrV s w code ws).swc = s.swc := rfl
@[simp] theorem wrV_dcLru (s : State) (w code : Nat) (ws : List (Nat × TWord)) : (wrV s w code ws).dcLru = s.dcLru := rfl
@[simp] theorem wrV_poolOld (s : State) (w code : Nat) (ws : List (Nat × TWord)) : (wrV s w code ws).poolOld = s.poolOld := rfl
@[simp] theorem wrV_prov (s : State) (w code : Nat) (ws : List (Nat × TWord)) : (wrV s w code ws).prov = s.prov := rfl
@[simp] theorem wrV_granules (s : State) (w code : Nat) (ws : List (Nat × TWord)) : (wrV s w code ws).granules = s.granules := rfl
@[simp] theorem wrV_marks (s : State) (w code : Nat) (ws : List (Nat × TWord)) : (wrV s w code ws).marks = s.marks := rfl
@[simp] theorem wrV_acquired (s : State) (w code : Nat) (ws : List (Nat × TWord)) : (wrV s w code ws).acquired = s.acquired := rfl
@[simp] theorem wrV_fenceMarks (s : State) (w code : Nat) (ws : List (Nat × TWord)) : (wrV s w code ws).fenceMarks = s.fenceMarks := rfl
@[simp] theorem wrV_scMarks (s : State) (w code : Nat) (ws : List (Nat × TWord)) : (wrV s w code ws).scMarks = s.scMarks := rfl
@[simp] theorem wrV_seen (s : State) (w code : Nat) (ws : List (Nat × TWord)) : (wrV s w code ws).seen = s.seen := rfl
@[simp] theorem wrV_routes (s : State) (w code : Nat) (ws : List (Nat × TWord)) : (wrV s w code ws).routes = s.routes := rfl
@[simp] theorem wrV_regions (s : State) (w code : Nat) (ws : List (Nat × TWord)) : (wrV s w code ws).regions = s.regions := rfl
@[simp] theorem wrV_cks (s : State) (w code : Nat) (ws : List (Nat × TWord)) : (wrV s w code ws).cks = s.cks := rfl
@[simp] theorem wrV_vmarks (s : State) (w code : Nat) (ws : List (Nat × TWord)) : (wrV s w code ws).vmarks = s.vmarks := rfl
@[simp] theorem wrV_pools (s : State) (w code : Nat) (ws : List (Nat × TWord)) : (wrV s w code ws).pools = s.pools := rfl
@[simp] theorem wrV_mem (s : State) (w code : Nat) (ws : List (Nat × TWord)) : (wrV s w code ws).mem = s.mem := rfl
@[simp] theorem wrV_suspectVas (s : State) (w code : Nat) (ws : List (Nat × TWord)) : (wrV s w code ws).suspectVas = s.suspectVas := rfl
@[simp] theorem wrV_provFull (s : State) (w code : Nat) (ws : List (Nat × TWord)) : (wrV s w code ws).provFull = s.provFull := rfl
@[simp] theorem wrV_icode (s : State) (w code : Nat) (ws : List (Nat × TWord)) : (wrV s w code ws).icode = s.icode := rfl
@[simp] theorem wrV_stalls (s : State) (w code : Nat) (ws : List (Nat × TWord)) : (wrV s w code ws).stalls = s.stalls := rfl
@[simp] theorem wrV_prq (s : State) (w code : Nat) (ws : List (Nat × TWord)) : (wrV s w code ws).prq = s.prq := rfl
@[simp] theorem wrV_chans (s : State) (w code : Nat) (ws : List (Nat × TWord)) : (wrV s w code ws).chans = s.chans := rfl
@[simp] theorem wrV_aos (s : State) (w code : Nat) (ws : List (Nat × TWord)) : (wrV s w code ws).aos = s.aos := rfl
@[simp] theorem wrV_cbars (s : State) (w code : Nat) (ws : List (Nat × TWord)) : (wrV s w code ws).cbars = s.cbars := rfl
@[simp] theorem wrV_tds (s : State) (w code : Nat) (ws : List (Nat × TWord)) : (wrV s w code ws).tds = s.tds := rfl
@[simp] theorem wrV_cbs (s : State) (w code : Nat) (ws : List (Nat × TWord)) : (wrV s w code ws).cbs = s.cbs := rfl
@[simp] theorem wrV_fwd (s : State) (w code : Nat) (ws : List (Nat × TWord)) : (wrV s w code ws).fwd = s.fwd := rfl
@[simp] theorem wrV_fwdEnts (s : State) (w code : Nat) (ws : List (Nat × TWord)) : (wrV s w code ws).fwdEnts = s.fwdEnts := rfl
@[simp] theorem wrV_tstat (s : State) (w code : Nat) (ws : List (Nat × TWord)) : (wrV s w code ws).tstat = s.tstat := rfl
@[simp] theorem wrV_tpois (s : State) (w code : Nat) (ws : List (Nat × TWord)) : (wrV s w code ws).tpois = s.tpois := rfl
@[simp] theorem wrV_vents (s : State) (w code : Nat) (ws : List (Nat × TWord)) : (wrV s w code ws).vents = s.vents := rfl
@[simp] theorem wrV_vmeta (s : State) (w code : Nat) (ws : List (Nat × TWord)) : (wrV s w code ws).vmeta = s.vmeta := rfl
@[simp] theorem wrV_vseq (s : State) (w code : Nat) (ws : List (Nat × TWord)) : (wrV s w code ws).vseq = s.vseq := rfl
@[simp] theorem wrV_vcap (s : State) (w code : Nat) (ws : List (Nat × TWord)) : (wrV s w code ws).vcap = s.vcap := rfl
@[simp] theorem wrV_flashEnts (s : State) (w code : Nat) (ws : List (Nat × TWord)) : (wrV s w code ws).flashEnts = s.flashEnts := rfl
@[simp] theorem wrV_flashMeta (s : State) (w code : Nat) (ws : List (Nat × TWord)) : (wrV s w code ws).flashMeta = s.flashMeta := rfl
@[simp] theorem wrV_mail (s : State) (w code : Nat) (ws : List (Nat × TWord)) : (wrV s w code ws).mail = s.mail := rfl
@[simp] theorem wrV_mailOut (s : State) (w code : Nat) (ws : List (Nat × TWord)) : (wrV s w code ws).mailOut = s.mailOut := rfl
@[simp] theorem wrV_rgns (s : State) (w code : Nat) (ws : List (Nat × TWord)) : (wrV s w code ws).rgns = s.rgns := rfl
@[simp] theorem wrV_ownProg (s : State) (w code : Nat) (ws : List (Nat × TWord)) : (wrV s w code ws).ownProg = s.ownProg := rfl
@[simp] theorem wrV_nodes (s : State) (w code : Nat) (ws : List (Nat × TWord)) : (wrV s w code ws).nodes = s.nodes := rfl
@[simp] theorem wrV_graphs (s : State) (w code : Nat) (ws : List (Nat × TWord)) : (wrV s w code ws).graphs = s.graphs := rfl
@[simp] theorem wrV_seqs (s : State) (w code : Nat) (ws : List (Nat × TWord)) : (wrV s w code ws).seqs = s.seqs := rfl
@[simp] theorem wrV_nextNode (s : State) (w code : Nat) (ws : List (Nat × TWord)) : (wrV s w code ws).nextNode = s.nextNode := rfl
@[simp] theorem wrV_sslots (s : State) (w code : Nat) (ws : List (Nat × TWord)) : (wrV s w code ws).sslots = s.sslots := rfl
@[simp] theorem wrV_saves (s : State) (w code : Nat) (ws : List (Nat × TWord)) : (wrV s w code ws).saves = s.saves := rfl
@[simp] theorem wrV_hslots (s : State) (w code : Nat) (ws : List (Nat × TWord)) : (wrV s w code ws).hslots = s.hslots := rfl
@[simp] theorem wrV_hdiscard (s : State) (w code : Nat) (ws : List (Nat × TWord)) : (wrV s w code ws).hdiscard = s.hdiscard := rfl
@[simp] theorem wrV_hostQ (s : State) (w code : Nat) (ws : List (Nat × TWord)) : (wrV s w code ws).hostQ = s.hostQ := rfl
@[simp] theorem wrV_rsreg (s : State) (w code : Nat) (ws : List (Nat × TWord)) : (wrV s w code ws).rsreg = s.rsreg := rfl
@[simp] theorem wrV_rsdesc (s : State) (w code : Nat) (ws : List (Nat × TWord)) : (wrV s w code ws).rsdesc = s.rsdesc := rfl
@[simp] theorem wrV_rsstep (s : State) (w code : Nat) (ws : List (Nat × TWord)) : (wrV s w code ws).rsstep = s.rsstep := rfl
@[simp] theorem wrV_rsstat (s : State) (w code : Nat) (ws : List (Nat × TWord)) : (wrV s w code ws).rsstat = s.rsstat := rfl
@[simp] theorem wrV_mgmt (s : State) (w code : Nat) (ws : List (Nat × TWord)) : (wrV s w code ws).mgmt = s.mgmt := rfl
@[simp] theorem wrV_rays (s : State) (w code : Nat) (ws : List (Nat × TWord)) : (wrV s w code ws).rays = s.rays := rfl
@[simp] theorem wrV_lht (s : State) (w code : Nat) (ws : List (Nat × TWord)) : (wrV s w code ws).lht = s.lht := rfl
@[simp] theorem wrV_lhtCnt (s : State) (w code : Nat) (ws : List (Nat × TWord)) : (wrV s w code ws).lhtCnt = s.lhtCnt := rfl
@[simp] theorem wrV_staged (s : State) (w code : Nat) (ws : List (Nat × TWord)) : (wrV s w code ws).staged = s.staged := rfl
@[simp] theorem wrV_suspects (s : State) (w code : Nat) (ws : List (Nat × TWord)) : (wrV s w code ws).suspects = s.suspects := rfl
@[simp] theorem wrV_replays (s : State) (w code : Nat) (ws : List (Nat × TWord)) : (wrV s w code ws).replays = s.replays := rfl
@[simp] theorem wrV_sent (s : State) (w code : Nat) (ws : List (Nat × TWord)) : (wrV s w code ws).sent = s.sent := rfl
@[simp] theorem wrV_outRead (s : State) (w code : Nat) (ws : List (Nat × TWord)) : (wrV s w code ws).outRead = s.outRead := rfl
@[simp] theorem wrV_hostOut (s : State) (w code : Nat) (ws : List (Nat × TWord)) : (wrV s w code ws).hostOut = s.hostOut := rfl

/-! ### wrS -/

@[simp] theorem wrS_agenda (s : State) (w r : Nat) (v : TWord) : (wrS s w r v).agenda = s.agenda := rfl
@[simp] theorem wrS_cur (s : State) (w r : Nat) (v : TWord) : (wrS s w r v).cur = s.cur := rfl
@[simp] theorem wrS_cur2 (s : State) (w r : Nat) (v : TWord) : (wrS s w r v).cur2 = s.cur2 := rfl
@[simp] theorem wrS_free (s : State) (w r : Nat) (v : TWord) : (wrS s w r v).free = s.free := rfl
@[simp] theorem wrS_nextOp (s : State) (w r : Nat) (v : TWord) : (wrS s w r v).nextOp = s.nextOp := rfl
@[simp] theorem wrS_nextBlk (s : State) (w r : Nat) (v : TWord) : (wrS s w r v).nextBlk = s.nextBlk := rfl
@[simp] theorem wrS_vregs (s : State) (w r : Nat) (v : TWord) : (wrS s w r v).vregs = s.vregs := rfl
@[simp] theorem wrS_fsr (s : State) (w r : Nat) (v : TWord) : (wrS s w r v).fsr = s.fsr := rfl
@[simp] theorem wrS_tval (s : State) (w r : Nat) (v : TWord) : (wrS s w r v).tval = s.tval := rfl
@[simp] theorem wrS_sval (s : State) (w r : Nat) (v : TWord) : (wrS s w r v).sval = s.sval := rfl
@[simp] theorem wrS_queues (s : State) (w r : Nat) (v : TWord) : (wrS s w r v).queues = s.queues := rfl
@[simp] theorem wrS_bn (s : State) (w r : Nat) (v : TWord) : (wrS s w r v).bn = s.bn := rfl
@[simp] theorem wrS_warps (s : State) (w r : Nat) (v : TWord) : (wrS s w r v).warps = s.warps := rfl
@[simp] theorem wrS_blocks (s : State) (w r : Nat) (v : TWord) : (wrS s w r v).blocks = s.blocks := rfl
@[simp] theorem wrS_ops (s : State) (w r : Nat) (v : TWord) : (wrS s w r v).ops = s.ops := rfl
@[simp] theorem wrS_pend (s : State) (w r : Nat) (v : TWord) : (wrS s w r v).pend = s.pend := rfl
@[simp] theorem wrS_bnPend (s : State) (w r : Nat) (v : TWord) : (wrS s w r v).bnPend = s.bnPend := rfl
@[simp] theorem wrS_cores (s : State) (w r : Nat) (v : TWord) : (wrS s w r v).cores = s.cores := rfl
@[simp] theorem wrS_quarters (s : State) (w r : Nat) (v : TWord) : (wrS s w r v).quarters = s.quarters := rfl
@[simp] theorem wrS_growQ (s : State) (w r : Nat) (v : TWord) : (wrS s w r v).growQ = s.growQ := rfl
@[simp] theorem wrS_dies (s : State) (w r : Nat) (v : TWord) : (wrS s w r v).dies = s.dies := rfl
@[simp] theorem wrS_pkg (s : State) (w r : Nat) (v : TWord) : (wrS s w r v).pkg = s.pkg := rfl
@[simp] theorem wrS_tlb (s : State) (w r : Nat) (v : TWord) : (wrS s w r v).tlb = s.tlb := rfl
@[simp] theorem wrS_owners (s : State) (w r : Nat) (v : TWord) : (wrS s w r v).owners = s.owners := rfl
@[simp] theorem wrS_poison (s : State) (w r : Nat) (v : TWord) : (wrS s w r v).poison = s.poison := rfl
@[simp] theorem wrS_frozen (s : State) (w r : Nat) (v : TWord) : (wrS s w r v).frozen = s.frozen := rfl
@[simp] theorem wrS_swc (s : State) (w r : Nat) (v : TWord) : (wrS s w r v).swc = s.swc := rfl
@[simp] theorem wrS_dcLru (s : State) (w r : Nat) (v : TWord) : (wrS s w r v).dcLru = s.dcLru := rfl
@[simp] theorem wrS_poolOld (s : State) (w r : Nat) (v : TWord) : (wrS s w r v).poolOld = s.poolOld := rfl
@[simp] theorem wrS_prov (s : State) (w r : Nat) (v : TWord) : (wrS s w r v).prov = s.prov := rfl
@[simp] theorem wrS_granules (s : State) (w r : Nat) (v : TWord) : (wrS s w r v).granules = s.granules := rfl
@[simp] theorem wrS_marks (s : State) (w r : Nat) (v : TWord) : (wrS s w r v).marks = s.marks := rfl
@[simp] theorem wrS_acquired (s : State) (w r : Nat) (v : TWord) : (wrS s w r v).acquired = s.acquired := rfl
@[simp] theorem wrS_fenceMarks (s : State) (w r : Nat) (v : TWord) : (wrS s w r v).fenceMarks = s.fenceMarks := rfl
@[simp] theorem wrS_scMarks (s : State) (w r : Nat) (v : TWord) : (wrS s w r v).scMarks = s.scMarks := rfl
@[simp] theorem wrS_seen (s : State) (w r : Nat) (v : TWord) : (wrS s w r v).seen = s.seen := rfl
@[simp] theorem wrS_routes (s : State) (w r : Nat) (v : TWord) : (wrS s w r v).routes = s.routes := rfl
@[simp] theorem wrS_regions (s : State) (w r : Nat) (v : TWord) : (wrS s w r v).regions = s.regions := rfl
@[simp] theorem wrS_cks (s : State) (w r : Nat) (v : TWord) : (wrS s w r v).cks = s.cks := rfl
@[simp] theorem wrS_vmarks (s : State) (w r : Nat) (v : TWord) : (wrS s w r v).vmarks = s.vmarks := rfl
@[simp] theorem wrS_pools (s : State) (w r : Nat) (v : TWord) : (wrS s w r v).pools = s.pools := rfl
@[simp] theorem wrS_mem (s : State) (w r : Nat) (v : TWord) : (wrS s w r v).mem = s.mem := rfl
@[simp] theorem wrS_suspectVas (s : State) (w r : Nat) (v : TWord) : (wrS s w r v).suspectVas = s.suspectVas := rfl
@[simp] theorem wrS_provFull (s : State) (w r : Nat) (v : TWord) : (wrS s w r v).provFull = s.provFull := rfl
@[simp] theorem wrS_icode (s : State) (w r : Nat) (v : TWord) : (wrS s w r v).icode = s.icode := rfl
@[simp] theorem wrS_stalls (s : State) (w r : Nat) (v : TWord) : (wrS s w r v).stalls = s.stalls := rfl
@[simp] theorem wrS_prq (s : State) (w r : Nat) (v : TWord) : (wrS s w r v).prq = s.prq := rfl
@[simp] theorem wrS_chans (s : State) (w r : Nat) (v : TWord) : (wrS s w r v).chans = s.chans := rfl
@[simp] theorem wrS_aos (s : State) (w r : Nat) (v : TWord) : (wrS s w r v).aos = s.aos := rfl
@[simp] theorem wrS_cbars (s : State) (w r : Nat) (v : TWord) : (wrS s w r v).cbars = s.cbars := rfl
@[simp] theorem wrS_tds (s : State) (w r : Nat) (v : TWord) : (wrS s w r v).tds = s.tds := rfl
@[simp] theorem wrS_cbs (s : State) (w r : Nat) (v : TWord) : (wrS s w r v).cbs = s.cbs := rfl
@[simp] theorem wrS_fwd (s : State) (w r : Nat) (v : TWord) : (wrS s w r v).fwd = s.fwd := rfl
@[simp] theorem wrS_fwdEnts (s : State) (w r : Nat) (v : TWord) : (wrS s w r v).fwdEnts = s.fwdEnts := rfl
@[simp] theorem wrS_tstat (s : State) (w r : Nat) (v : TWord) : (wrS s w r v).tstat = s.tstat := rfl
@[simp] theorem wrS_tpois (s : State) (w r : Nat) (v : TWord) : (wrS s w r v).tpois = s.tpois := rfl
@[simp] theorem wrS_vents (s : State) (w r : Nat) (v : TWord) : (wrS s w r v).vents = s.vents := rfl
@[simp] theorem wrS_vmeta (s : State) (w r : Nat) (v : TWord) : (wrS s w r v).vmeta = s.vmeta := rfl
@[simp] theorem wrS_vseq (s : State) (w r : Nat) (v : TWord) : (wrS s w r v).vseq = s.vseq := rfl
@[simp] theorem wrS_vcap (s : State) (w r : Nat) (v : TWord) : (wrS s w r v).vcap = s.vcap := rfl
@[simp] theorem wrS_flashEnts (s : State) (w r : Nat) (v : TWord) : (wrS s w r v).flashEnts = s.flashEnts := rfl
@[simp] theorem wrS_flashMeta (s : State) (w r : Nat) (v : TWord) : (wrS s w r v).flashMeta = s.flashMeta := rfl
@[simp] theorem wrS_mail (s : State) (w r : Nat) (v : TWord) : (wrS s w r v).mail = s.mail := rfl
@[simp] theorem wrS_mailOut (s : State) (w r : Nat) (v : TWord) : (wrS s w r v).mailOut = s.mailOut := rfl
@[simp] theorem wrS_rgns (s : State) (w r : Nat) (v : TWord) : (wrS s w r v).rgns = s.rgns := rfl
@[simp] theorem wrS_ownProg (s : State) (w r : Nat) (v : TWord) : (wrS s w r v).ownProg = s.ownProg := rfl
@[simp] theorem wrS_nodes (s : State) (w r : Nat) (v : TWord) : (wrS s w r v).nodes = s.nodes := rfl
@[simp] theorem wrS_graphs (s : State) (w r : Nat) (v : TWord) : (wrS s w r v).graphs = s.graphs := rfl
@[simp] theorem wrS_seqs (s : State) (w r : Nat) (v : TWord) : (wrS s w r v).seqs = s.seqs := rfl
@[simp] theorem wrS_nextNode (s : State) (w r : Nat) (v : TWord) : (wrS s w r v).nextNode = s.nextNode := rfl
@[simp] theorem wrS_sslots (s : State) (w r : Nat) (v : TWord) : (wrS s w r v).sslots = s.sslots := rfl
@[simp] theorem wrS_saves (s : State) (w r : Nat) (v : TWord) : (wrS s w r v).saves = s.saves := rfl
@[simp] theorem wrS_hslots (s : State) (w r : Nat) (v : TWord) : (wrS s w r v).hslots = s.hslots := rfl
@[simp] theorem wrS_hdiscard (s : State) (w r : Nat) (v : TWord) : (wrS s w r v).hdiscard = s.hdiscard := rfl
@[simp] theorem wrS_hostQ (s : State) (w r : Nat) (v : TWord) : (wrS s w r v).hostQ = s.hostQ := rfl
@[simp] theorem wrS_rsreg (s : State) (w r : Nat) (v : TWord) : (wrS s w r v).rsreg = s.rsreg := rfl
@[simp] theorem wrS_rsdesc (s : State) (w r : Nat) (v : TWord) : (wrS s w r v).rsdesc = s.rsdesc := rfl
@[simp] theorem wrS_rsstep (s : State) (w r : Nat) (v : TWord) : (wrS s w r v).rsstep = s.rsstep := rfl
@[simp] theorem wrS_rsstat (s : State) (w r : Nat) (v : TWord) : (wrS s w r v).rsstat = s.rsstat := rfl
@[simp] theorem wrS_mgmt (s : State) (w r : Nat) (v : TWord) : (wrS s w r v).mgmt = s.mgmt := rfl
@[simp] theorem wrS_rays (s : State) (w r : Nat) (v : TWord) : (wrS s w r v).rays = s.rays := rfl
@[simp] theorem wrS_lht (s : State) (w r : Nat) (v : TWord) : (wrS s w r v).lht = s.lht := rfl
@[simp] theorem wrS_lhtCnt (s : State) (w r : Nat) (v : TWord) : (wrS s w r v).lhtCnt = s.lhtCnt := rfl
@[simp] theorem wrS_staged (s : State) (w r : Nat) (v : TWord) : (wrS s w r v).staged = s.staged := rfl
@[simp] theorem wrS_suspects (s : State) (w r : Nat) (v : TWord) : (wrS s w r v).suspects = s.suspects := rfl
@[simp] theorem wrS_replays (s : State) (w r : Nat) (v : TWord) : (wrS s w r v).replays = s.replays := rfl
@[simp] theorem wrS_sent (s : State) (w r : Nat) (v : TWord) : (wrS s w r v).sent = s.sent := rfl
@[simp] theorem wrS_outRead (s : State) (w r : Nat) (v : TWord) : (wrS s w r v).outRead = s.outRead := rfl
@[simp] theorem wrS_hostOut (s : State) (w r : Nat) (v : TWord) : (wrS s w r v).hostOut = s.hostOut := rfl

/-! ### orFsr -/

@[simp] theorem orFsr_agenda (s : State) (w : Nat) (fl : List (Nat × BitVec 6)) : (orFsr s w fl).agenda = s.agenda := rfl
@[simp] theorem orFsr_cur (s : State) (w : Nat) (fl : List (Nat × BitVec 6)) : (orFsr s w fl).cur = s.cur := rfl
@[simp] theorem orFsr_cur2 (s : State) (w : Nat) (fl : List (Nat × BitVec 6)) : (orFsr s w fl).cur2 = s.cur2 := rfl
@[simp] theorem orFsr_free (s : State) (w : Nat) (fl : List (Nat × BitVec 6)) : (orFsr s w fl).free = s.free := rfl
@[simp] theorem orFsr_nextOp (s : State) (w : Nat) (fl : List (Nat × BitVec 6)) : (orFsr s w fl).nextOp = s.nextOp := rfl
@[simp] theorem orFsr_nextBlk (s : State) (w : Nat) (fl : List (Nat × BitVec 6)) : (orFsr s w fl).nextBlk = s.nextBlk := rfl
@[simp] theorem orFsr_vregs (s : State) (w : Nat) (fl : List (Nat × BitVec 6)) : (orFsr s w fl).vregs = s.vregs := rfl
@[simp] theorem orFsr_sregs (s : State) (w : Nat) (fl : List (Nat × BitVec 6)) : (orFsr s w fl).sregs = s.sregs := rfl
@[simp] theorem orFsr_tval (s : State) (w : Nat) (fl : List (Nat × BitVec 6)) : (orFsr s w fl).tval = s.tval := rfl
@[simp] theorem orFsr_sval (s : State) (w : Nat) (fl : List (Nat × BitVec 6)) : (orFsr s w fl).sval = s.sval := rfl
@[simp] theorem orFsr_queues (s : State) (w : Nat) (fl : List (Nat × BitVec 6)) : (orFsr s w fl).queues = s.queues := rfl
@[simp] theorem orFsr_bn (s : State) (w : Nat) (fl : List (Nat × BitVec 6)) : (orFsr s w fl).bn = s.bn := rfl
@[simp] theorem orFsr_warps (s : State) (w : Nat) (fl : List (Nat × BitVec 6)) : (orFsr s w fl).warps = s.warps := rfl
@[simp] theorem orFsr_blocks (s : State) (w : Nat) (fl : List (Nat × BitVec 6)) : (orFsr s w fl).blocks = s.blocks := rfl
@[simp] theorem orFsr_ops (s : State) (w : Nat) (fl : List (Nat × BitVec 6)) : (orFsr s w fl).ops = s.ops := rfl
@[simp] theorem orFsr_pend (s : State) (w : Nat) (fl : List (Nat × BitVec 6)) : (orFsr s w fl).pend = s.pend := rfl
@[simp] theorem orFsr_bnPend (s : State) (w : Nat) (fl : List (Nat × BitVec 6)) : (orFsr s w fl).bnPend = s.bnPend := rfl
@[simp] theorem orFsr_cores (s : State) (w : Nat) (fl : List (Nat × BitVec 6)) : (orFsr s w fl).cores = s.cores := rfl
@[simp] theorem orFsr_quarters (s : State) (w : Nat) (fl : List (Nat × BitVec 6)) : (orFsr s w fl).quarters = s.quarters := rfl
@[simp] theorem orFsr_growQ (s : State) (w : Nat) (fl : List (Nat × BitVec 6)) : (orFsr s w fl).growQ = s.growQ := rfl
@[simp] theorem orFsr_dies (s : State) (w : Nat) (fl : List (Nat × BitVec 6)) : (orFsr s w fl).dies = s.dies := rfl
@[simp] theorem orFsr_pkg (s : State) (w : Nat) (fl : List (Nat × BitVec 6)) : (orFsr s w fl).pkg = s.pkg := rfl
@[simp] theorem orFsr_tlb (s : State) (w : Nat) (fl : List (Nat × BitVec 6)) : (orFsr s w fl).tlb = s.tlb := rfl
@[simp] theorem orFsr_owners (s : State) (w : Nat) (fl : List (Nat × BitVec 6)) : (orFsr s w fl).owners = s.owners := rfl
@[simp] theorem orFsr_poison (s : State) (w : Nat) (fl : List (Nat × BitVec 6)) : (orFsr s w fl).poison = s.poison := rfl
@[simp] theorem orFsr_frozen (s : State) (w : Nat) (fl : List (Nat × BitVec 6)) : (orFsr s w fl).frozen = s.frozen := rfl
@[simp] theorem orFsr_swc (s : State) (w : Nat) (fl : List (Nat × BitVec 6)) : (orFsr s w fl).swc = s.swc := rfl
@[simp] theorem orFsr_dcLru (s : State) (w : Nat) (fl : List (Nat × BitVec 6)) : (orFsr s w fl).dcLru = s.dcLru := rfl
@[simp] theorem orFsr_poolOld (s : State) (w : Nat) (fl : List (Nat × BitVec 6)) : (orFsr s w fl).poolOld = s.poolOld := rfl
@[simp] theorem orFsr_prov (s : State) (w : Nat) (fl : List (Nat × BitVec 6)) : (orFsr s w fl).prov = s.prov := rfl
@[simp] theorem orFsr_granules (s : State) (w : Nat) (fl : List (Nat × BitVec 6)) : (orFsr s w fl).granules = s.granules := rfl
@[simp] theorem orFsr_marks (s : State) (w : Nat) (fl : List (Nat × BitVec 6)) : (orFsr s w fl).marks = s.marks := rfl
@[simp] theorem orFsr_acquired (s : State) (w : Nat) (fl : List (Nat × BitVec 6)) : (orFsr s w fl).acquired = s.acquired := rfl
@[simp] theorem orFsr_fenceMarks (s : State) (w : Nat) (fl : List (Nat × BitVec 6)) : (orFsr s w fl).fenceMarks = s.fenceMarks := rfl
@[simp] theorem orFsr_scMarks (s : State) (w : Nat) (fl : List (Nat × BitVec 6)) : (orFsr s w fl).scMarks = s.scMarks := rfl
@[simp] theorem orFsr_seen (s : State) (w : Nat) (fl : List (Nat × BitVec 6)) : (orFsr s w fl).seen = s.seen := rfl
@[simp] theorem orFsr_routes (s : State) (w : Nat) (fl : List (Nat × BitVec 6)) : (orFsr s w fl).routes = s.routes := rfl
@[simp] theorem orFsr_regions (s : State) (w : Nat) (fl : List (Nat × BitVec 6)) : (orFsr s w fl).regions = s.regions := rfl
@[simp] theorem orFsr_cks (s : State) (w : Nat) (fl : List (Nat × BitVec 6)) : (orFsr s w fl).cks = s.cks := rfl
@[simp] theorem orFsr_vmarks (s : State) (w : Nat) (fl : List (Nat × BitVec 6)) : (orFsr s w fl).vmarks = s.vmarks := rfl
@[simp] theorem orFsr_pools (s : State) (w : Nat) (fl : List (Nat × BitVec 6)) : (orFsr s w fl).pools = s.pools := rfl
@[simp] theorem orFsr_mem (s : State) (w : Nat) (fl : List (Nat × BitVec 6)) : (orFsr s w fl).mem = s.mem := rfl
@[simp] theorem orFsr_suspectVas (s : State) (w : Nat) (fl : List (Nat × BitVec 6)) : (orFsr s w fl).suspectVas = s.suspectVas := rfl
@[simp] theorem orFsr_provFull (s : State) (w : Nat) (fl : List (Nat × BitVec 6)) : (orFsr s w fl).provFull = s.provFull := rfl
@[simp] theorem orFsr_icode (s : State) (w : Nat) (fl : List (Nat × BitVec 6)) : (orFsr s w fl).icode = s.icode := rfl
@[simp] theorem orFsr_stalls (s : State) (w : Nat) (fl : List (Nat × BitVec 6)) : (orFsr s w fl).stalls = s.stalls := rfl
@[simp] theorem orFsr_prq (s : State) (w : Nat) (fl : List (Nat × BitVec 6)) : (orFsr s w fl).prq = s.prq := rfl
@[simp] theorem orFsr_chans (s : State) (w : Nat) (fl : List (Nat × BitVec 6)) : (orFsr s w fl).chans = s.chans := rfl
@[simp] theorem orFsr_aos (s : State) (w : Nat) (fl : List (Nat × BitVec 6)) : (orFsr s w fl).aos = s.aos := rfl
@[simp] theorem orFsr_cbars (s : State) (w : Nat) (fl : List (Nat × BitVec 6)) : (orFsr s w fl).cbars = s.cbars := rfl
@[simp] theorem orFsr_tds (s : State) (w : Nat) (fl : List (Nat × BitVec 6)) : (orFsr s w fl).tds = s.tds := rfl
@[simp] theorem orFsr_cbs (s : State) (w : Nat) (fl : List (Nat × BitVec 6)) : (orFsr s w fl).cbs = s.cbs := rfl
@[simp] theorem orFsr_fwd (s : State) (w : Nat) (fl : List (Nat × BitVec 6)) : (orFsr s w fl).fwd = s.fwd := rfl
@[simp] theorem orFsr_fwdEnts (s : State) (w : Nat) (fl : List (Nat × BitVec 6)) : (orFsr s w fl).fwdEnts = s.fwdEnts := rfl
@[simp] theorem orFsr_tstat (s : State) (w : Nat) (fl : List (Nat × BitVec 6)) : (orFsr s w fl).tstat = s.tstat := rfl
@[simp] theorem orFsr_tpois (s : State) (w : Nat) (fl : List (Nat × BitVec 6)) : (orFsr s w fl).tpois = s.tpois := rfl
@[simp] theorem orFsr_vents (s : State) (w : Nat) (fl : List (Nat × BitVec 6)) : (orFsr s w fl).vents = s.vents := rfl
@[simp] theorem orFsr_vmeta (s : State) (w : Nat) (fl : List (Nat × BitVec 6)) : (orFsr s w fl).vmeta = s.vmeta := rfl
@[simp] theorem orFsr_vseq (s : State) (w : Nat) (fl : List (Nat × BitVec 6)) : (orFsr s w fl).vseq = s.vseq := rfl
@[simp] theorem orFsr_vcap (s : State) (w : Nat) (fl : List (Nat × BitVec 6)) : (orFsr s w fl).vcap = s.vcap := rfl
@[simp] theorem orFsr_flashEnts (s : State) (w : Nat) (fl : List (Nat × BitVec 6)) : (orFsr s w fl).flashEnts = s.flashEnts := rfl
@[simp] theorem orFsr_flashMeta (s : State) (w : Nat) (fl : List (Nat × BitVec 6)) : (orFsr s w fl).flashMeta = s.flashMeta := rfl
@[simp] theorem orFsr_mail (s : State) (w : Nat) (fl : List (Nat × BitVec 6)) : (orFsr s w fl).mail = s.mail := rfl
@[simp] theorem orFsr_mailOut (s : State) (w : Nat) (fl : List (Nat × BitVec 6)) : (orFsr s w fl).mailOut = s.mailOut := rfl
@[simp] theorem orFsr_rgns (s : State) (w : Nat) (fl : List (Nat × BitVec 6)) : (orFsr s w fl).rgns = s.rgns := rfl
@[simp] theorem orFsr_ownProg (s : State) (w : Nat) (fl : List (Nat × BitVec 6)) : (orFsr s w fl).ownProg = s.ownProg := rfl
@[simp] theorem orFsr_nodes (s : State) (w : Nat) (fl : List (Nat × BitVec 6)) : (orFsr s w fl).nodes = s.nodes := rfl
@[simp] theorem orFsr_graphs (s : State) (w : Nat) (fl : List (Nat × BitVec 6)) : (orFsr s w fl).graphs = s.graphs := rfl
@[simp] theorem orFsr_seqs (s : State) (w : Nat) (fl : List (Nat × BitVec 6)) : (orFsr s w fl).seqs = s.seqs := rfl
@[simp] theorem orFsr_nextNode (s : State) (w : Nat) (fl : List (Nat × BitVec 6)) : (orFsr s w fl).nextNode = s.nextNode := rfl
@[simp] theorem orFsr_sslots (s : State) (w : Nat) (fl : List (Nat × BitVec 6)) : (orFsr s w fl).sslots = s.sslots := rfl
@[simp] theorem orFsr_saves (s : State) (w : Nat) (fl : List (Nat × BitVec 6)) : (orFsr s w fl).saves = s.saves := rfl
@[simp] theorem orFsr_hslots (s : State) (w : Nat) (fl : List (Nat × BitVec 6)) : (orFsr s w fl).hslots = s.hslots := rfl
@[simp] theorem orFsr_hdiscard (s : State) (w : Nat) (fl : List (Nat × BitVec 6)) : (orFsr s w fl).hdiscard = s.hdiscard := rfl
@[simp] theorem orFsr_hostQ (s : State) (w : Nat) (fl : List (Nat × BitVec 6)) : (orFsr s w fl).hostQ = s.hostQ := rfl
@[simp] theorem orFsr_rsreg (s : State) (w : Nat) (fl : List (Nat × BitVec 6)) : (orFsr s w fl).rsreg = s.rsreg := rfl
@[simp] theorem orFsr_rsdesc (s : State) (w : Nat) (fl : List (Nat × BitVec 6)) : (orFsr s w fl).rsdesc = s.rsdesc := rfl
@[simp] theorem orFsr_rsstep (s : State) (w : Nat) (fl : List (Nat × BitVec 6)) : (orFsr s w fl).rsstep = s.rsstep := rfl
@[simp] theorem orFsr_rsstat (s : State) (w : Nat) (fl : List (Nat × BitVec 6)) : (orFsr s w fl).rsstat = s.rsstat := rfl
@[simp] theorem orFsr_mgmt (s : State) (w : Nat) (fl : List (Nat × BitVec 6)) : (orFsr s w fl).mgmt = s.mgmt := rfl
@[simp] theorem orFsr_rays (s : State) (w : Nat) (fl : List (Nat × BitVec 6)) : (orFsr s w fl).rays = s.rays := rfl
@[simp] theorem orFsr_lht (s : State) (w : Nat) (fl : List (Nat × BitVec 6)) : (orFsr s w fl).lht = s.lht := rfl
@[simp] theorem orFsr_lhtCnt (s : State) (w : Nat) (fl : List (Nat × BitVec 6)) : (orFsr s w fl).lhtCnt = s.lhtCnt := rfl
@[simp] theorem orFsr_staged (s : State) (w : Nat) (fl : List (Nat × BitVec 6)) : (orFsr s w fl).staged = s.staged := rfl
@[simp] theorem orFsr_suspects (s : State) (w : Nat) (fl : List (Nat × BitVec 6)) : (orFsr s w fl).suspects = s.suspects := rfl
@[simp] theorem orFsr_replays (s : State) (w : Nat) (fl : List (Nat × BitVec 6)) : (orFsr s w fl).replays = s.replays := rfl
@[simp] theorem orFsr_sent (s : State) (w : Nat) (fl : List (Nat × BitVec 6)) : (orFsr s w fl).sent = s.sent := rfl
@[simp] theorem orFsr_outRead (s : State) (w : Nat) (fl : List (Nat × BitVec 6)) : (orFsr s w fl).outRead = s.outRead := rfl
@[simp] theorem orFsr_hostOut (s : State) (w : Nat) (fl : List (Nat × BitVec 6)) : (orFsr s w fl).hostOut = s.hostOut := rfl

/-! ### killDst -/

@[simp] theorem killDst_agenda (s : State) (w code : Nat) (ls : List Nat) : (killDst s w code ls).agenda = s.agenda := rfl
@[simp] theorem killDst_cur (s : State) (w code : Nat) (ls : List Nat) : (killDst s w code ls).cur = s.cur := rfl
@[simp] theorem killDst_cur2 (s : State) (w code : Nat) (ls : List Nat) : (killDst s w code ls).cur2 = s.cur2 := rfl
@[simp] theorem killDst_free (s : State) (w code : Nat) (ls : List Nat) : (killDst s w code ls).free = s.free := rfl
@[simp] theorem killDst_nextOp (s : State) (w code : Nat) (ls : List Nat) : (killDst s w code ls).nextOp = s.nextOp := rfl
@[simp] theorem killDst_nextBlk (s : State) (w code : Nat) (ls : List Nat) : (killDst s w code ls).nextBlk = s.nextBlk := rfl
@[simp] theorem killDst_vregs (s : State) (w code : Nat) (ls : List Nat) : (killDst s w code ls).vregs = s.vregs := rfl
@[simp] theorem killDst_sregs (s : State) (w code : Nat) (ls : List Nat) : (killDst s w code ls).sregs = s.sregs := rfl
@[simp] theorem killDst_fsr (s : State) (w code : Nat) (ls : List Nat) : (killDst s w code ls).fsr = s.fsr := rfl
@[simp] theorem killDst_tval (s : State) (w code : Nat) (ls : List Nat) : (killDst s w code ls).tval = s.tval := rfl
@[simp] theorem killDst_sval (s : State) (w code : Nat) (ls : List Nat) : (killDst s w code ls).sval = s.sval := rfl
@[simp] theorem killDst_queues (s : State) (w code : Nat) (ls : List Nat) : (killDst s w code ls).queues = s.queues := rfl
@[simp] theorem killDst_bn (s : State) (w code : Nat) (ls : List Nat) : (killDst s w code ls).bn = s.bn := rfl
@[simp] theorem killDst_warps (s : State) (w code : Nat) (ls : List Nat) : (killDst s w code ls).warps = s.warps := rfl
@[simp] theorem killDst_blocks (s : State) (w code : Nat) (ls : List Nat) : (killDst s w code ls).blocks = s.blocks := rfl
@[simp] theorem killDst_pend (s : State) (w code : Nat) (ls : List Nat) : (killDst s w code ls).pend = s.pend := rfl
@[simp] theorem killDst_bnPend (s : State) (w code : Nat) (ls : List Nat) : (killDst s w code ls).bnPend = s.bnPend := rfl
@[simp] theorem killDst_cores (s : State) (w code : Nat) (ls : List Nat) : (killDst s w code ls).cores = s.cores := rfl
@[simp] theorem killDst_quarters (s : State) (w code : Nat) (ls : List Nat) : (killDst s w code ls).quarters = s.quarters := rfl
@[simp] theorem killDst_growQ (s : State) (w code : Nat) (ls : List Nat) : (killDst s w code ls).growQ = s.growQ := rfl
@[simp] theorem killDst_dies (s : State) (w code : Nat) (ls : List Nat) : (killDst s w code ls).dies = s.dies := rfl
@[simp] theorem killDst_pkg (s : State) (w code : Nat) (ls : List Nat) : (killDst s w code ls).pkg = s.pkg := rfl
@[simp] theorem killDst_tlb (s : State) (w code : Nat) (ls : List Nat) : (killDst s w code ls).tlb = s.tlb := rfl
@[simp] theorem killDst_owners (s : State) (w code : Nat) (ls : List Nat) : (killDst s w code ls).owners = s.owners := rfl
@[simp] theorem killDst_poison (s : State) (w code : Nat) (ls : List Nat) : (killDst s w code ls).poison = s.poison := rfl
@[simp] theorem killDst_frozen (s : State) (w code : Nat) (ls : List Nat) : (killDst s w code ls).frozen = s.frozen := rfl
@[simp] theorem killDst_swc (s : State) (w code : Nat) (ls : List Nat) : (killDst s w code ls).swc = s.swc := rfl
@[simp] theorem killDst_dcLru (s : State) (w code : Nat) (ls : List Nat) : (killDst s w code ls).dcLru = s.dcLru := rfl
@[simp] theorem killDst_poolOld (s : State) (w code : Nat) (ls : List Nat) : (killDst s w code ls).poolOld = s.poolOld := rfl
@[simp] theorem killDst_prov (s : State) (w code : Nat) (ls : List Nat) : (killDst s w code ls).prov = s.prov := rfl
@[simp] theorem killDst_granules (s : State) (w code : Nat) (ls : List Nat) : (killDst s w code ls).granules = s.granules := rfl
@[simp] theorem killDst_marks (s : State) (w code : Nat) (ls : List Nat) : (killDst s w code ls).marks = s.marks := rfl
@[simp] theorem killDst_acquired (s : State) (w code : Nat) (ls : List Nat) : (killDst s w code ls).acquired = s.acquired := rfl
@[simp] theorem killDst_fenceMarks (s : State) (w code : Nat) (ls : List Nat) : (killDst s w code ls).fenceMarks = s.fenceMarks := rfl
@[simp] theorem killDst_scMarks (s : State) (w code : Nat) (ls : List Nat) : (killDst s w code ls).scMarks = s.scMarks := rfl
@[simp] theorem killDst_seen (s : State) (w code : Nat) (ls : List Nat) : (killDst s w code ls).seen = s.seen := rfl
@[simp] theorem killDst_routes (s : State) (w code : Nat) (ls : List Nat) : (killDst s w code ls).routes = s.routes := rfl
@[simp] theorem killDst_regions (s : State) (w code : Nat) (ls : List Nat) : (killDst s w code ls).regions = s.regions := rfl
@[simp] theorem killDst_cks (s : State) (w code : Nat) (ls : List Nat) : (killDst s w code ls).cks = s.cks := rfl
@[simp] theorem killDst_vmarks (s : State) (w code : Nat) (ls : List Nat) : (killDst s w code ls).vmarks = s.vmarks := rfl
@[simp] theorem killDst_pools (s : State) (w code : Nat) (ls : List Nat) : (killDst s w code ls).pools = s.pools := rfl
@[simp] theorem killDst_mem (s : State) (w code : Nat) (ls : List Nat) : (killDst s w code ls).mem = s.mem := rfl
@[simp] theorem killDst_suspectVas (s : State) (w code : Nat) (ls : List Nat) : (killDst s w code ls).suspectVas = s.suspectVas := rfl
@[simp] theorem killDst_provFull (s : State) (w code : Nat) (ls : List Nat) : (killDst s w code ls).provFull = s.provFull := rfl
@[simp] theorem killDst_icode (s : State) (w code : Nat) (ls : List Nat) : (killDst s w code ls).icode = s.icode := rfl
@[simp] theorem killDst_stalls (s : State) (w code : Nat) (ls : List Nat) : (killDst s w code ls).stalls = s.stalls := rfl
@[simp] theorem killDst_prq (s : State) (w code : Nat) (ls : List Nat) : (killDst s w code ls).prq = s.prq := rfl
@[simp] theorem killDst_chans (s : State) (w code : Nat) (ls : List Nat) : (killDst s w code ls).chans = s.chans := rfl
@[simp] theorem killDst_aos (s : State) (w code : Nat) (ls : List Nat) : (killDst s w code ls).aos = s.aos := rfl
@[simp] theorem killDst_cbars (s : State) (w code : Nat) (ls : List Nat) : (killDst s w code ls).cbars = s.cbars := rfl
@[simp] theorem killDst_tds (s : State) (w code : Nat) (ls : List Nat) : (killDst s w code ls).tds = s.tds := rfl
@[simp] theorem killDst_cbs (s : State) (w code : Nat) (ls : List Nat) : (killDst s w code ls).cbs = s.cbs := rfl
@[simp] theorem killDst_fwd (s : State) (w code : Nat) (ls : List Nat) : (killDst s w code ls).fwd = s.fwd := rfl
@[simp] theorem killDst_fwdEnts (s : State) (w code : Nat) (ls : List Nat) : (killDst s w code ls).fwdEnts = s.fwdEnts := rfl
@[simp] theorem killDst_tstat (s : State) (w code : Nat) (ls : List Nat) : (killDst s w code ls).tstat = s.tstat := rfl
@[simp] theorem killDst_tpois (s : State) (w code : Nat) (ls : List Nat) : (killDst s w code ls).tpois = s.tpois := rfl
@[simp] theorem killDst_vents (s : State) (w code : Nat) (ls : List Nat) : (killDst s w code ls).vents = s.vents := rfl
@[simp] theorem killDst_vmeta (s : State) (w code : Nat) (ls : List Nat) : (killDst s w code ls).vmeta = s.vmeta := rfl
@[simp] theorem killDst_vseq (s : State) (w code : Nat) (ls : List Nat) : (killDst s w code ls).vseq = s.vseq := rfl
@[simp] theorem killDst_vcap (s : State) (w code : Nat) (ls : List Nat) : (killDst s w code ls).vcap = s.vcap := rfl
@[simp] theorem killDst_flashEnts (s : State) (w code : Nat) (ls : List Nat) : (killDst s w code ls).flashEnts = s.flashEnts := rfl
@[simp] theorem killDst_flashMeta (s : State) (w code : Nat) (ls : List Nat) : (killDst s w code ls).flashMeta = s.flashMeta := rfl
@[simp] theorem killDst_mail (s : State) (w code : Nat) (ls : List Nat) : (killDst s w code ls).mail = s.mail := rfl
@[simp] theorem killDst_mailOut (s : State) (w code : Nat) (ls : List Nat) : (killDst s w code ls).mailOut = s.mailOut := rfl
@[simp] theorem killDst_rgns (s : State) (w code : Nat) (ls : List Nat) : (killDst s w code ls).rgns = s.rgns := rfl
@[simp] theorem killDst_ownProg (s : State) (w code : Nat) (ls : List Nat) : (killDst s w code ls).ownProg = s.ownProg := rfl
@[simp] theorem killDst_nodes (s : State) (w code : Nat) (ls : List Nat) : (killDst s w code ls).nodes = s.nodes := rfl
@[simp] theorem killDst_graphs (s : State) (w code : Nat) (ls : List Nat) : (killDst s w code ls).graphs = s.graphs := rfl
@[simp] theorem killDst_seqs (s : State) (w code : Nat) (ls : List Nat) : (killDst s w code ls).seqs = s.seqs := rfl
@[simp] theorem killDst_nextNode (s : State) (w code : Nat) (ls : List Nat) : (killDst s w code ls).nextNode = s.nextNode := rfl
@[simp] theorem killDst_sslots (s : State) (w code : Nat) (ls : List Nat) : (killDst s w code ls).sslots = s.sslots := rfl
@[simp] theorem killDst_saves (s : State) (w code : Nat) (ls : List Nat) : (killDst s w code ls).saves = s.saves := rfl
@[simp] theorem killDst_hslots (s : State) (w code : Nat) (ls : List Nat) : (killDst s w code ls).hslots = s.hslots := rfl
@[simp] theorem killDst_hdiscard (s : State) (w code : Nat) (ls : List Nat) : (killDst s w code ls).hdiscard = s.hdiscard := rfl
@[simp] theorem killDst_hostQ (s : State) (w code : Nat) (ls : List Nat) : (killDst s w code ls).hostQ = s.hostQ := rfl
@[simp] theorem killDst_rsreg (s : State) (w code : Nat) (ls : List Nat) : (killDst s w code ls).rsreg = s.rsreg := rfl
@[simp] theorem killDst_rsdesc (s : State) (w code : Nat) (ls : List Nat) : (killDst s w code ls).rsdesc = s.rsdesc := rfl
@[simp] theorem killDst_rsstep (s : State) (w code : Nat) (ls : List Nat) : (killDst s w code ls).rsstep = s.rsstep := rfl
@[simp] theorem killDst_rsstat (s : State) (w code : Nat) (ls : List Nat) : (killDst s w code ls).rsstat = s.rsstat := rfl
@[simp] theorem killDst_mgmt (s : State) (w code : Nat) (ls : List Nat) : (killDst s w code ls).mgmt = s.mgmt := rfl
@[simp] theorem killDst_rays (s : State) (w code : Nat) (ls : List Nat) : (killDst s w code ls).rays = s.rays := rfl
@[simp] theorem killDst_lht (s : State) (w code : Nat) (ls : List Nat) : (killDst s w code ls).lht = s.lht := rfl
@[simp] theorem killDst_lhtCnt (s : State) (w code : Nat) (ls : List Nat) : (killDst s w code ls).lhtCnt = s.lhtCnt := rfl
@[simp] theorem killDst_staged (s : State) (w code : Nat) (ls : List Nat) : (killDst s w code ls).staged = s.staged := rfl
@[simp] theorem killDst_suspects (s : State) (w code : Nat) (ls : List Nat) : (killDst s w code ls).suspects = s.suspects := rfl
@[simp] theorem killDst_replays (s : State) (w code : Nat) (ls : List Nat) : (killDst s w code ls).replays = s.replays := rfl
@[simp] theorem killDst_sent (s : State) (w code : Nat) (ls : List Nat) : (killDst s w code ls).sent = s.sent := rfl
@[simp] theorem killDst_outRead (s : State) (w code : Nat) (ls : List Nat) : (killDst s w code ls).outRead = s.outRead := rfl
@[simp] theorem killDst_hostOut (s : State) (w code : Nat) (ls : List Nat) : (killDst s w code ls).hostOut = s.hostOut := rfl

/-! ### killPend -/

@[simp] theorem killPend_agenda (s : State) (w code t : Nat) (ls : List Nat) : (killPend s w code t ls).agenda = s.agenda := rfl
@[simp] theorem killPend_cur (s : State) (w code t : Nat) (ls : List Nat) : (killPend s w code t ls).cur = s.cur := rfl
@[simp] theorem killPend_cur2 (s : State) (w code t : Nat) (ls : List Nat) : (killPend s w code t ls).cur2 = s.cur2 := rfl
@[simp] theorem killPend_free (s : State) (w code t : Nat) (ls : List Nat) : (killPend s w code t ls).free = s.free := rfl
@[simp] theorem killPend_nextOp (s : State) (w code t : Nat) (ls : List Nat) : (killPend s w code t ls).nextOp = s.nextOp := rfl
@[simp] theorem killPend_nextBlk (s : State) (w code t : Nat) (ls : List Nat) : (killPend s w code t ls).nextBlk = s.nextBlk := rfl
@[simp] theorem killPend_vregs (s : State) (w code t : Nat) (ls : List Nat) : (killPend s w code t ls).vregs = s.vregs := rfl
@[simp] theorem killPend_sregs (s : State) (w code t : Nat) (ls : List Nat) : (killPend s w code t ls).sregs = s.sregs := rfl
@[simp] theorem killPend_fsr (s : State) (w code t : Nat) (ls : List Nat) : (killPend s w code t ls).fsr = s.fsr := rfl
@[simp] theorem killPend_tval (s : State) (w code t : Nat) (ls : List Nat) : (killPend s w code t ls).tval = s.tval := rfl
@[simp] theorem killPend_sval (s : State) (w code t : Nat) (ls : List Nat) : (killPend s w code t ls).sval = s.sval := rfl
@[simp] theorem killPend_queues (s : State) (w code t : Nat) (ls : List Nat) : (killPend s w code t ls).queues = s.queues := rfl
@[simp] theorem killPend_bn (s : State) (w code t : Nat) (ls : List Nat) : (killPend s w code t ls).bn = s.bn := rfl
@[simp] theorem killPend_warps (s : State) (w code t : Nat) (ls : List Nat) : (killPend s w code t ls).warps = s.warps := rfl
@[simp] theorem killPend_blocks (s : State) (w code t : Nat) (ls : List Nat) : (killPend s w code t ls).blocks = s.blocks := rfl
@[simp] theorem killPend_ops (s : State) (w code t : Nat) (ls : List Nat) : (killPend s w code t ls).ops = s.ops := rfl
@[simp] theorem killPend_bnPend (s : State) (w code t : Nat) (ls : List Nat) : (killPend s w code t ls).bnPend = s.bnPend := rfl
@[simp] theorem killPend_cores (s : State) (w code t : Nat) (ls : List Nat) : (killPend s w code t ls).cores = s.cores := rfl
@[simp] theorem killPend_quarters (s : State) (w code t : Nat) (ls : List Nat) : (killPend s w code t ls).quarters = s.quarters := rfl
@[simp] theorem killPend_growQ (s : State) (w code t : Nat) (ls : List Nat) : (killPend s w code t ls).growQ = s.growQ := rfl
@[simp] theorem killPend_dies (s : State) (w code t : Nat) (ls : List Nat) : (killPend s w code t ls).dies = s.dies := rfl
@[simp] theorem killPend_pkg (s : State) (w code t : Nat) (ls : List Nat) : (killPend s w code t ls).pkg = s.pkg := rfl
@[simp] theorem killPend_tlb (s : State) (w code t : Nat) (ls : List Nat) : (killPend s w code t ls).tlb = s.tlb := rfl
@[simp] theorem killPend_owners (s : State) (w code t : Nat) (ls : List Nat) : (killPend s w code t ls).owners = s.owners := rfl
@[simp] theorem killPend_poison (s : State) (w code t : Nat) (ls : List Nat) : (killPend s w code t ls).poison = s.poison := rfl
@[simp] theorem killPend_frozen (s : State) (w code t : Nat) (ls : List Nat) : (killPend s w code t ls).frozen = s.frozen := rfl
@[simp] theorem killPend_swc (s : State) (w code t : Nat) (ls : List Nat) : (killPend s w code t ls).swc = s.swc := rfl
@[simp] theorem killPend_dcLru (s : State) (w code t : Nat) (ls : List Nat) : (killPend s w code t ls).dcLru = s.dcLru := rfl
@[simp] theorem killPend_poolOld (s : State) (w code t : Nat) (ls : List Nat) : (killPend s w code t ls).poolOld = s.poolOld := rfl
@[simp] theorem killPend_prov (s : State) (w code t : Nat) (ls : List Nat) : (killPend s w code t ls).prov = s.prov := rfl
@[simp] theorem killPend_granules (s : State) (w code t : Nat) (ls : List Nat) : (killPend s w code t ls).granules = s.granules := rfl
@[simp] theorem killPend_marks (s : State) (w code t : Nat) (ls : List Nat) : (killPend s w code t ls).marks = s.marks := rfl
@[simp] theorem killPend_acquired (s : State) (w code t : Nat) (ls : List Nat) : (killPend s w code t ls).acquired = s.acquired := rfl
@[simp] theorem killPend_fenceMarks (s : State) (w code t : Nat) (ls : List Nat) : (killPend s w code t ls).fenceMarks = s.fenceMarks := rfl
@[simp] theorem killPend_scMarks (s : State) (w code t : Nat) (ls : List Nat) : (killPend s w code t ls).scMarks = s.scMarks := rfl
@[simp] theorem killPend_seen (s : State) (w code t : Nat) (ls : List Nat) : (killPend s w code t ls).seen = s.seen := rfl
@[simp] theorem killPend_routes (s : State) (w code t : Nat) (ls : List Nat) : (killPend s w code t ls).routes = s.routes := rfl
@[simp] theorem killPend_regions (s : State) (w code t : Nat) (ls : List Nat) : (killPend s w code t ls).regions = s.regions := rfl
@[simp] theorem killPend_cks (s : State) (w code t : Nat) (ls : List Nat) : (killPend s w code t ls).cks = s.cks := rfl
@[simp] theorem killPend_vmarks (s : State) (w code t : Nat) (ls : List Nat) : (killPend s w code t ls).vmarks = s.vmarks := rfl
@[simp] theorem killPend_pools (s : State) (w code t : Nat) (ls : List Nat) : (killPend s w code t ls).pools = s.pools := rfl
@[simp] theorem killPend_mem (s : State) (w code t : Nat) (ls : List Nat) : (killPend s w code t ls).mem = s.mem := rfl
@[simp] theorem killPend_suspectVas (s : State) (w code t : Nat) (ls : List Nat) : (killPend s w code t ls).suspectVas = s.suspectVas := rfl
@[simp] theorem killPend_provFull (s : State) (w code t : Nat) (ls : List Nat) : (killPend s w code t ls).provFull = s.provFull := rfl
@[simp] theorem killPend_icode (s : State) (w code t : Nat) (ls : List Nat) : (killPend s w code t ls).icode = s.icode := rfl
@[simp] theorem killPend_stalls (s : State) (w code t : Nat) (ls : List Nat) : (killPend s w code t ls).stalls = s.stalls := rfl
@[simp] theorem killPend_prq (s : State) (w code t : Nat) (ls : List Nat) : (killPend s w code t ls).prq = s.prq := rfl
@[simp] theorem killPend_chans (s : State) (w code t : Nat) (ls : List Nat) : (killPend s w code t ls).chans = s.chans := rfl
@[simp] theorem killPend_aos (s : State) (w code t : Nat) (ls : List Nat) : (killPend s w code t ls).aos = s.aos := rfl
@[simp] theorem killPend_cbars (s : State) (w code t : Nat) (ls : List Nat) : (killPend s w code t ls).cbars = s.cbars := rfl
@[simp] theorem killPend_tds (s : State) (w code t : Nat) (ls : List Nat) : (killPend s w code t ls).tds = s.tds := rfl
@[simp] theorem killPend_cbs (s : State) (w code t : Nat) (ls : List Nat) : (killPend s w code t ls).cbs = s.cbs := rfl
@[simp] theorem killPend_fwd (s : State) (w code t : Nat) (ls : List Nat) : (killPend s w code t ls).fwd = s.fwd := rfl
@[simp] theorem killPend_fwdEnts (s : State) (w code t : Nat) (ls : List Nat) : (killPend s w code t ls).fwdEnts = s.fwdEnts := rfl
@[simp] theorem killPend_tstat (s : State) (w code t : Nat) (ls : List Nat) : (killPend s w code t ls).tstat = s.tstat := rfl
@[simp] theorem killPend_tpois (s : State) (w code t : Nat) (ls : List Nat) : (killPend s w code t ls).tpois = s.tpois := rfl
@[simp] theorem killPend_vents (s : State) (w code t : Nat) (ls : List Nat) : (killPend s w code t ls).vents = s.vents := rfl
@[simp] theorem killPend_vmeta (s : State) (w code t : Nat) (ls : List Nat) : (killPend s w code t ls).vmeta = s.vmeta := rfl
@[simp] theorem killPend_vseq (s : State) (w code t : Nat) (ls : List Nat) : (killPend s w code t ls).vseq = s.vseq := rfl
@[simp] theorem killPend_vcap (s : State) (w code t : Nat) (ls : List Nat) : (killPend s w code t ls).vcap = s.vcap := rfl
@[simp] theorem killPend_flashEnts (s : State) (w code t : Nat) (ls : List Nat) : (killPend s w code t ls).flashEnts = s.flashEnts := rfl
@[simp] theorem killPend_flashMeta (s : State) (w code t : Nat) (ls : List Nat) : (killPend s w code t ls).flashMeta = s.flashMeta := rfl
@[simp] theorem killPend_mail (s : State) (w code t : Nat) (ls : List Nat) : (killPend s w code t ls).mail = s.mail := rfl
@[simp] theorem killPend_mailOut (s : State) (w code t : Nat) (ls : List Nat) : (killPend s w code t ls).mailOut = s.mailOut := rfl
@[simp] theorem killPend_rgns (s : State) (w code t : Nat) (ls : List Nat) : (killPend s w code t ls).rgns = s.rgns := rfl
@[simp] theorem killPend_ownProg (s : State) (w code t : Nat) (ls : List Nat) : (killPend s w code t ls).ownProg = s.ownProg := rfl
@[simp] theorem killPend_nodes (s : State) (w code t : Nat) (ls : List Nat) : (killPend s w code t ls).nodes = s.nodes := rfl
@[simp] theorem killPend_graphs (s : State) (w code t : Nat) (ls : List Nat) : (killPend s w code t ls).graphs = s.graphs := rfl
@[simp] theorem killPend_seqs (s : State) (w code t : Nat) (ls : List Nat) : (killPend s w code t ls).seqs = s.seqs := rfl
@[simp] theorem killPend_nextNode (s : State) (w code t : Nat) (ls : List Nat) : (killPend s w code t ls).nextNode = s.nextNode := rfl
@[simp] theorem killPend_sslots (s : State) (w code t : Nat) (ls : List Nat) : (killPend s w code t ls).sslots = s.sslots := rfl
@[simp] theorem killPend_saves (s : State) (w code t : Nat) (ls : List Nat) : (killPend s w code t ls).saves = s.saves := rfl
@[simp] theorem killPend_hslots (s : State) (w code t : Nat) (ls : List Nat) : (killPend s w code t ls).hslots = s.hslots := rfl
@[simp] theorem killPend_hdiscard (s : State) (w code t : Nat) (ls : List Nat) : (killPend s w code t ls).hdiscard = s.hdiscard := rfl
@[simp] theorem killPend_hostQ (s : State) (w code t : Nat) (ls : List Nat) : (killPend s w code t ls).hostQ = s.hostQ := rfl
@[simp] theorem killPend_rsreg (s : State) (w code t : Nat) (ls : List Nat) : (killPend s w code t ls).rsreg = s.rsreg := rfl
@[simp] theorem killPend_rsdesc (s : State) (w code t : Nat) (ls : List Nat) : (killPend s w code t ls).rsdesc = s.rsdesc := rfl
@[simp] theorem killPend_rsstep (s : State) (w code t : Nat) (ls : List Nat) : (killPend s w code t ls).rsstep = s.rsstep := rfl
@[simp] theorem killPend_rsstat (s : State) (w code t : Nat) (ls : List Nat) : (killPend s w code t ls).rsstat = s.rsstat := rfl
@[simp] theorem killPend_mgmt (s : State) (w code t : Nat) (ls : List Nat) : (killPend s w code t ls).mgmt = s.mgmt := rfl
@[simp] theorem killPend_rays (s : State) (w code t : Nat) (ls : List Nat) : (killPend s w code t ls).rays = s.rays := rfl
@[simp] theorem killPend_lht (s : State) (w code t : Nat) (ls : List Nat) : (killPend s w code t ls).lht = s.lht := rfl
@[simp] theorem killPend_lhtCnt (s : State) (w code t : Nat) (ls : List Nat) : (killPend s w code t ls).lhtCnt = s.lhtCnt := rfl
@[simp] theorem killPend_staged (s : State) (w code t : Nat) (ls : List Nat) : (killPend s w code t ls).staged = s.staged := rfl
@[simp] theorem killPend_suspects (s : State) (w code t : Nat) (ls : List Nat) : (killPend s w code t ls).suspects = s.suspects := rfl
@[simp] theorem killPend_replays (s : State) (w code t : Nat) (ls : List Nat) : (killPend s w code t ls).replays = s.replays := rfl
@[simp] theorem killPend_sent (s : State) (w code t : Nat) (ls : List Nat) : (killPend s w code t ls).sent = s.sent := rfl
@[simp] theorem killPend_outRead (s : State) (w code t : Nat) (ls : List Nat) : (killPend s w code t ls).outRead = s.outRead := rfl
@[simp] theorem killPend_hostOut (s : State) (w code t : Nat) (ls : List Nat) : (killPend s w code t ls).hostOut = s.hostOut := rfl

/-! ### startOp -/

@[simp] theorem startOp_agenda (s : State) (w : Nat) (lanes : Mask) (cls : Option Counter) (dst : List (Nat × Nat)) (kind : OpKind) : (startOp s w lanes cls dst kind).agenda = s.agenda := rfl
@[simp] theorem startOp_cur (s : State) (w : Nat) (lanes : Mask) (cls : Option Counter) (dst : List (Nat × Nat)) (kind : OpKind) : (startOp s w lanes cls dst kind).cur = s.cur := rfl
@[simp] theorem startOp_cur2 (s : State) (w : Nat) (lanes : Mask) (cls : Option Counter) (dst : List (Nat × Nat)) (kind : OpKind) : (startOp s w lanes cls dst kind).cur2 = s.cur2 := rfl
@[simp] theorem startOp_free (s : State) (w : Nat) (lanes : Mask) (cls : Option Counter) (dst : List (Nat × Nat)) (kind : OpKind) : (startOp s w lanes cls dst kind).free = s.free := rfl
@[simp] theorem startOp_nextBlk (s : State) (w : Nat) (lanes : Mask) (cls : Option Counter) (dst : List (Nat × Nat)) (kind : OpKind) : (startOp s w lanes cls dst kind).nextBlk = s.nextBlk := rfl
@[simp] theorem startOp_vregs (s : State) (w : Nat) (lanes : Mask) (cls : Option Counter) (dst : List (Nat × Nat)) (kind : OpKind) : (startOp s w lanes cls dst kind).vregs = s.vregs := rfl
@[simp] theorem startOp_sregs (s : State) (w : Nat) (lanes : Mask) (cls : Option Counter) (dst : List (Nat × Nat)) (kind : OpKind) : (startOp s w lanes cls dst kind).sregs = s.sregs := rfl
@[simp] theorem startOp_fsr (s : State) (w : Nat) (lanes : Mask) (cls : Option Counter) (dst : List (Nat × Nat)) (kind : OpKind) : (startOp s w lanes cls dst kind).fsr = s.fsr := rfl
@[simp] theorem startOp_tval (s : State) (w : Nat) (lanes : Mask) (cls : Option Counter) (dst : List (Nat × Nat)) (kind : OpKind) : (startOp s w lanes cls dst kind).tval = s.tval := rfl
@[simp] theorem startOp_sval (s : State) (w : Nat) (lanes : Mask) (cls : Option Counter) (dst : List (Nat × Nat)) (kind : OpKind) : (startOp s w lanes cls dst kind).sval = s.sval := rfl
@[simp] theorem startOp_queues (s : State) (w : Nat) (lanes : Mask) (cls : Option Counter) (dst : List (Nat × Nat)) (kind : OpKind) : (startOp s w lanes cls dst kind).queues = s.queues := rfl
@[simp] theorem startOp_bn (s : State) (w : Nat) (lanes : Mask) (cls : Option Counter) (dst : List (Nat × Nat)) (kind : OpKind) : (startOp s w lanes cls dst kind).bn = s.bn := rfl
@[simp] theorem startOp_warps (s : State) (w : Nat) (lanes : Mask) (cls : Option Counter) (dst : List (Nat × Nat)) (kind : OpKind) : (startOp s w lanes cls dst kind).warps = s.warps := rfl
@[simp] theorem startOp_blocks (s : State) (w : Nat) (lanes : Mask) (cls : Option Counter) (dst : List (Nat × Nat)) (kind : OpKind) : (startOp s w lanes cls dst kind).blocks = s.blocks := rfl
@[simp] theorem startOp_pend (s : State) (w : Nat) (lanes : Mask) (cls : Option Counter) (dst : List (Nat × Nat)) (kind : OpKind) : (startOp s w lanes cls dst kind).pend = s.pend := rfl
@[simp] theorem startOp_bnPend (s : State) (w : Nat) (lanes : Mask) (cls : Option Counter) (dst : List (Nat × Nat)) (kind : OpKind) : (startOp s w lanes cls dst kind).bnPend = s.bnPend := rfl
@[simp] theorem startOp_cores (s : State) (w : Nat) (lanes : Mask) (cls : Option Counter) (dst : List (Nat × Nat)) (kind : OpKind) : (startOp s w lanes cls dst kind).cores = s.cores := rfl
@[simp] theorem startOp_quarters (s : State) (w : Nat) (lanes : Mask) (cls : Option Counter) (dst : List (Nat × Nat)) (kind : OpKind) : (startOp s w lanes cls dst kind).quarters = s.quarters := rfl
@[simp] theorem startOp_growQ (s : State) (w : Nat) (lanes : Mask) (cls : Option Counter) (dst : List (Nat × Nat)) (kind : OpKind) : (startOp s w lanes cls dst kind).growQ = s.growQ := rfl
@[simp] theorem startOp_dies (s : State) (w : Nat) (lanes : Mask) (cls : Option Counter) (dst : List (Nat × Nat)) (kind : OpKind) : (startOp s w lanes cls dst kind).dies = s.dies := rfl
@[simp] theorem startOp_pkg (s : State) (w : Nat) (lanes : Mask) (cls : Option Counter) (dst : List (Nat × Nat)) (kind : OpKind) : (startOp s w lanes cls dst kind).pkg = s.pkg := rfl
@[simp] theorem startOp_tlb (s : State) (w : Nat) (lanes : Mask) (cls : Option Counter) (dst : List (Nat × Nat)) (kind : OpKind) : (startOp s w lanes cls dst kind).tlb = s.tlb := rfl
@[simp] theorem startOp_owners (s : State) (w : Nat) (lanes : Mask) (cls : Option Counter) (dst : List (Nat × Nat)) (kind : OpKind) : (startOp s w lanes cls dst kind).owners = s.owners := rfl
@[simp] theorem startOp_poison (s : State) (w : Nat) (lanes : Mask) (cls : Option Counter) (dst : List (Nat × Nat)) (kind : OpKind) : (startOp s w lanes cls dst kind).poison = s.poison := rfl
@[simp] theorem startOp_frozen (s : State) (w : Nat) (lanes : Mask) (cls : Option Counter) (dst : List (Nat × Nat)) (kind : OpKind) : (startOp s w lanes cls dst kind).frozen = s.frozen := rfl
@[simp] theorem startOp_swc (s : State) (w : Nat) (lanes : Mask) (cls : Option Counter) (dst : List (Nat × Nat)) (kind : OpKind) : (startOp s w lanes cls dst kind).swc = s.swc := rfl
@[simp] theorem startOp_dcLru (s : State) (w : Nat) (lanes : Mask) (cls : Option Counter) (dst : List (Nat × Nat)) (kind : OpKind) : (startOp s w lanes cls dst kind).dcLru = s.dcLru := rfl
@[simp] theorem startOp_poolOld (s : State) (w : Nat) (lanes : Mask) (cls : Option Counter) (dst : List (Nat × Nat)) (kind : OpKind) : (startOp s w lanes cls dst kind).poolOld = s.poolOld := rfl
@[simp] theorem startOp_prov (s : State) (w : Nat) (lanes : Mask) (cls : Option Counter) (dst : List (Nat × Nat)) (kind : OpKind) : (startOp s w lanes cls dst kind).prov = s.prov := rfl
@[simp] theorem startOp_granules (s : State) (w : Nat) (lanes : Mask) (cls : Option Counter) (dst : List (Nat × Nat)) (kind : OpKind) : (startOp s w lanes cls dst kind).granules = s.granules := rfl
@[simp] theorem startOp_marks (s : State) (w : Nat) (lanes : Mask) (cls : Option Counter) (dst : List (Nat × Nat)) (kind : OpKind) : (startOp s w lanes cls dst kind).marks = s.marks := rfl
@[simp] theorem startOp_acquired (s : State) (w : Nat) (lanes : Mask) (cls : Option Counter) (dst : List (Nat × Nat)) (kind : OpKind) : (startOp s w lanes cls dst kind).acquired = s.acquired := rfl
@[simp] theorem startOp_fenceMarks (s : State) (w : Nat) (lanes : Mask) (cls : Option Counter) (dst : List (Nat × Nat)) (kind : OpKind) : (startOp s w lanes cls dst kind).fenceMarks = s.fenceMarks := rfl
@[simp] theorem startOp_scMarks (s : State) (w : Nat) (lanes : Mask) (cls : Option Counter) (dst : List (Nat × Nat)) (kind : OpKind) : (startOp s w lanes cls dst kind).scMarks = s.scMarks := rfl
@[simp] theorem startOp_seen (s : State) (w : Nat) (lanes : Mask) (cls : Option Counter) (dst : List (Nat × Nat)) (kind : OpKind) : (startOp s w lanes cls dst kind).seen = s.seen := rfl
@[simp] theorem startOp_routes (s : State) (w : Nat) (lanes : Mask) (cls : Option Counter) (dst : List (Nat × Nat)) (kind : OpKind) : (startOp s w lanes cls dst kind).routes = s.routes := rfl
@[simp] theorem startOp_regions (s : State) (w : Nat) (lanes : Mask) (cls : Option Counter) (dst : List (Nat × Nat)) (kind : OpKind) : (startOp s w lanes cls dst kind).regions = s.regions := rfl
@[simp] theorem startOp_cks (s : State) (w : Nat) (lanes : Mask) (cls : Option Counter) (dst : List (Nat × Nat)) (kind : OpKind) : (startOp s w lanes cls dst kind).cks = s.cks := rfl
@[simp] theorem startOp_vmarks (s : State) (w : Nat) (lanes : Mask) (cls : Option Counter) (dst : List (Nat × Nat)) (kind : OpKind) : (startOp s w lanes cls dst kind).vmarks = s.vmarks := rfl
@[simp] theorem startOp_pools (s : State) (w : Nat) (lanes : Mask) (cls : Option Counter) (dst : List (Nat × Nat)) (kind : OpKind) : (startOp s w lanes cls dst kind).pools = s.pools := rfl
@[simp] theorem startOp_mem (s : State) (w : Nat) (lanes : Mask) (cls : Option Counter) (dst : List (Nat × Nat)) (kind : OpKind) : (startOp s w lanes cls dst kind).mem = s.mem := rfl
@[simp] theorem startOp_suspectVas (s : State) (w : Nat) (lanes : Mask) (cls : Option Counter) (dst : List (Nat × Nat)) (kind : OpKind) : (startOp s w lanes cls dst kind).suspectVas = s.suspectVas := rfl
@[simp] theorem startOp_provFull (s : State) (w : Nat) (lanes : Mask) (cls : Option Counter) (dst : List (Nat × Nat)) (kind : OpKind) : (startOp s w lanes cls dst kind).provFull = s.provFull := rfl
@[simp] theorem startOp_icode (s : State) (w : Nat) (lanes : Mask) (cls : Option Counter) (dst : List (Nat × Nat)) (kind : OpKind) : (startOp s w lanes cls dst kind).icode = s.icode := rfl
@[simp] theorem startOp_stalls (s : State) (w : Nat) (lanes : Mask) (cls : Option Counter) (dst : List (Nat × Nat)) (kind : OpKind) : (startOp s w lanes cls dst kind).stalls = s.stalls := rfl
@[simp] theorem startOp_prq (s : State) (w : Nat) (lanes : Mask) (cls : Option Counter) (dst : List (Nat × Nat)) (kind : OpKind) : (startOp s w lanes cls dst kind).prq = s.prq := rfl
@[simp] theorem startOp_chans (s : State) (w : Nat) (lanes : Mask) (cls : Option Counter) (dst : List (Nat × Nat)) (kind : OpKind) : (startOp s w lanes cls dst kind).chans = s.chans := rfl
@[simp] theorem startOp_aos (s : State) (w : Nat) (lanes : Mask) (cls : Option Counter) (dst : List (Nat × Nat)) (kind : OpKind) : (startOp s w lanes cls dst kind).aos = s.aos := rfl
@[simp] theorem startOp_cbars (s : State) (w : Nat) (lanes : Mask) (cls : Option Counter) (dst : List (Nat × Nat)) (kind : OpKind) : (startOp s w lanes cls dst kind).cbars = s.cbars := rfl
@[simp] theorem startOp_tds (s : State) (w : Nat) (lanes : Mask) (cls : Option Counter) (dst : List (Nat × Nat)) (kind : OpKind) : (startOp s w lanes cls dst kind).tds = s.tds := rfl
@[simp] theorem startOp_cbs (s : State) (w : Nat) (lanes : Mask) (cls : Option Counter) (dst : List (Nat × Nat)) (kind : OpKind) : (startOp s w lanes cls dst kind).cbs = s.cbs := rfl
@[simp] theorem startOp_fwd (s : State) (w : Nat) (lanes : Mask) (cls : Option Counter) (dst : List (Nat × Nat)) (kind : OpKind) : (startOp s w lanes cls dst kind).fwd = s.fwd := rfl
@[simp] theorem startOp_fwdEnts (s : State) (w : Nat) (lanes : Mask) (cls : Option Counter) (dst : List (Nat × Nat)) (kind : OpKind) : (startOp s w lanes cls dst kind).fwdEnts = s.fwdEnts := rfl
@[simp] theorem startOp_tstat (s : State) (w : Nat) (lanes : Mask) (cls : Option Counter) (dst : List (Nat × Nat)) (kind : OpKind) : (startOp s w lanes cls dst kind).tstat = s.tstat := rfl
@[simp] theorem startOp_tpois (s : State) (w : Nat) (lanes : Mask) (cls : Option Counter) (dst : List (Nat × Nat)) (kind : OpKind) : (startOp s w lanes cls dst kind).tpois = s.tpois := rfl
@[simp] theorem startOp_vents (s : State) (w : Nat) (lanes : Mask) (cls : Option Counter) (dst : List (Nat × Nat)) (kind : OpKind) : (startOp s w lanes cls dst kind).vents = s.vents := rfl
@[simp] theorem startOp_vmeta (s : State) (w : Nat) (lanes : Mask) (cls : Option Counter) (dst : List (Nat × Nat)) (kind : OpKind) : (startOp s w lanes cls dst kind).vmeta = s.vmeta := rfl
@[simp] theorem startOp_vseq (s : State) (w : Nat) (lanes : Mask) (cls : Option Counter) (dst : List (Nat × Nat)) (kind : OpKind) : (startOp s w lanes cls dst kind).vseq = s.vseq := rfl
@[simp] theorem startOp_vcap (s : State) (w : Nat) (lanes : Mask) (cls : Option Counter) (dst : List (Nat × Nat)) (kind : OpKind) : (startOp s w lanes cls dst kind).vcap = s.vcap := rfl
@[simp] theorem startOp_flashEnts (s : State) (w : Nat) (lanes : Mask) (cls : Option Counter) (dst : List (Nat × Nat)) (kind : OpKind) : (startOp s w lanes cls dst kind).flashEnts = s.flashEnts := rfl
@[simp] theorem startOp_flashMeta (s : State) (w : Nat) (lanes : Mask) (cls : Option Counter) (dst : List (Nat × Nat)) (kind : OpKind) : (startOp s w lanes cls dst kind).flashMeta = s.flashMeta := rfl
@[simp] theorem startOp_mail (s : State) (w : Nat) (lanes : Mask) (cls : Option Counter) (dst : List (Nat × Nat)) (kind : OpKind) : (startOp s w lanes cls dst kind).mail = s.mail := rfl
@[simp] theorem startOp_mailOut (s : State) (w : Nat) (lanes : Mask) (cls : Option Counter) (dst : List (Nat × Nat)) (kind : OpKind) : (startOp s w lanes cls dst kind).mailOut = s.mailOut := rfl
@[simp] theorem startOp_rgns (s : State) (w : Nat) (lanes : Mask) (cls : Option Counter) (dst : List (Nat × Nat)) (kind : OpKind) : (startOp s w lanes cls dst kind).rgns = s.rgns := rfl
@[simp] theorem startOp_ownProg (s : State) (w : Nat) (lanes : Mask) (cls : Option Counter) (dst : List (Nat × Nat)) (kind : OpKind) : (startOp s w lanes cls dst kind).ownProg = s.ownProg := rfl
@[simp] theorem startOp_nodes (s : State) (w : Nat) (lanes : Mask) (cls : Option Counter) (dst : List (Nat × Nat)) (kind : OpKind) : (startOp s w lanes cls dst kind).nodes = s.nodes := rfl
@[simp] theorem startOp_graphs (s : State) (w : Nat) (lanes : Mask) (cls : Option Counter) (dst : List (Nat × Nat)) (kind : OpKind) : (startOp s w lanes cls dst kind).graphs = s.graphs := rfl
@[simp] theorem startOp_seqs (s : State) (w : Nat) (lanes : Mask) (cls : Option Counter) (dst : List (Nat × Nat)) (kind : OpKind) : (startOp s w lanes cls dst kind).seqs = s.seqs := rfl
@[simp] theorem startOp_nextNode (s : State) (w : Nat) (lanes : Mask) (cls : Option Counter) (dst : List (Nat × Nat)) (kind : OpKind) : (startOp s w lanes cls dst kind).nextNode = s.nextNode := rfl
@[simp] theorem startOp_sslots (s : State) (w : Nat) (lanes : Mask) (cls : Option Counter) (dst : List (Nat × Nat)) (kind : OpKind) : (startOp s w lanes cls dst kind).sslots = s.sslots := rfl
@[simp] theorem startOp_saves (s : State) (w : Nat) (lanes : Mask) (cls : Option Counter) (dst : List (Nat × Nat)) (kind : OpKind) : (startOp s w lanes cls dst kind).saves = s.saves := rfl
@[simp] theorem startOp_hslots (s : State) (w : Nat) (lanes : Mask) (cls : Option Counter) (dst : List (Nat × Nat)) (kind : OpKind) : (startOp s w lanes cls dst kind).hslots = s.hslots := rfl
@[simp] theorem startOp_hdiscard (s : State) (w : Nat) (lanes : Mask) (cls : Option Counter) (dst : List (Nat × Nat)) (kind : OpKind) : (startOp s w lanes cls dst kind).hdiscard = s.hdiscard := rfl
@[simp] theorem startOp_hostQ (s : State) (w : Nat) (lanes : Mask) (cls : Option Counter) (dst : List (Nat × Nat)) (kind : OpKind) : (startOp s w lanes cls dst kind).hostQ = s.hostQ := rfl
@[simp] theorem startOp_rsreg (s : State) (w : Nat) (lanes : Mask) (cls : Option Counter) (dst : List (Nat × Nat)) (kind : OpKind) : (startOp s w lanes cls dst kind).rsreg = s.rsreg := rfl
@[simp] theorem startOp_rsdesc (s : State) (w : Nat) (lanes : Mask) (cls : Option Counter) (dst : List (Nat × Nat)) (kind : OpKind) : (startOp s w lanes cls dst kind).rsdesc = s.rsdesc := rfl
@[simp] theorem startOp_rsstep (s : State) (w : Nat) (lanes : Mask) (cls : Option Counter) (dst : List (Nat × Nat)) (kind : OpKind) : (startOp s w lanes cls dst kind).rsstep = s.rsstep := rfl
@[simp] theorem startOp_rsstat (s : State) (w : Nat) (lanes : Mask) (cls : Option Counter) (dst : List (Nat × Nat)) (kind : OpKind) : (startOp s w lanes cls dst kind).rsstat = s.rsstat := rfl
@[simp] theorem startOp_mgmt (s : State) (w : Nat) (lanes : Mask) (cls : Option Counter) (dst : List (Nat × Nat)) (kind : OpKind) : (startOp s w lanes cls dst kind).mgmt = s.mgmt := rfl
@[simp] theorem startOp_rays (s : State) (w : Nat) (lanes : Mask) (cls : Option Counter) (dst : List (Nat × Nat)) (kind : OpKind) : (startOp s w lanes cls dst kind).rays = s.rays := rfl
@[simp] theorem startOp_lht (s : State) (w : Nat) (lanes : Mask) (cls : Option Counter) (dst : List (Nat × Nat)) (kind : OpKind) : (startOp s w lanes cls dst kind).lht = s.lht := rfl
@[simp] theorem startOp_lhtCnt (s : State) (w : Nat) (lanes : Mask) (cls : Option Counter) (dst : List (Nat × Nat)) (kind : OpKind) : (startOp s w lanes cls dst kind).lhtCnt = s.lhtCnt := rfl
@[simp] theorem startOp_staged (s : State) (w : Nat) (lanes : Mask) (cls : Option Counter) (dst : List (Nat × Nat)) (kind : OpKind) : (startOp s w lanes cls dst kind).staged = s.staged := rfl
@[simp] theorem startOp_suspects (s : State) (w : Nat) (lanes : Mask) (cls : Option Counter) (dst : List (Nat × Nat)) (kind : OpKind) : (startOp s w lanes cls dst kind).suspects = s.suspects := rfl
@[simp] theorem startOp_replays (s : State) (w : Nat) (lanes : Mask) (cls : Option Counter) (dst : List (Nat × Nat)) (kind : OpKind) : (startOp s w lanes cls dst kind).replays = s.replays := rfl
@[simp] theorem startOp_sent (s : State) (w : Nat) (lanes : Mask) (cls : Option Counter) (dst : List (Nat × Nat)) (kind : OpKind) : (startOp s w lanes cls dst kind).sent = s.sent := rfl
@[simp] theorem startOp_outRead (s : State) (w : Nat) (lanes : Mask) (cls : Option Counter) (dst : List (Nat × Nat)) (kind : OpKind) : (startOp s w lanes cls dst kind).outRead = s.outRead := rfl
@[simp] theorem startOp_hostOut (s : State) (w : Nat) (lanes : Mask) (cls : Option Counter) (dst : List (Nat × Nat)) (kind : OpKind) : (startOp s w lanes cls dst kind).hostOut = s.hostOut := rfl

/-! ### endOp -/

@[simp] theorem endOp_agenda (s : State) (id : Nat) : (endOp s id).agenda = s.agenda := rfl
@[simp] theorem endOp_cur (s : State) (id : Nat) : (endOp s id).cur = s.cur := rfl
@[simp] theorem endOp_cur2 (s : State) (id : Nat) : (endOp s id).cur2 = s.cur2 := rfl
@[simp] theorem endOp_free (s : State) (id : Nat) : (endOp s id).free = s.free := rfl
@[simp] theorem endOp_nextOp (s : State) (id : Nat) : (endOp s id).nextOp = s.nextOp := rfl
@[simp] theorem endOp_nextBlk (s : State) (id : Nat) : (endOp s id).nextBlk = s.nextBlk := rfl
@[simp] theorem endOp_vregs (s : State) (id : Nat) : (endOp s id).vregs = s.vregs := rfl
@[simp] theorem endOp_sregs (s : State) (id : Nat) : (endOp s id).sregs = s.sregs := rfl
@[simp] theorem endOp_fsr (s : State) (id : Nat) : (endOp s id).fsr = s.fsr := rfl
@[simp] theorem endOp_tval (s : State) (id : Nat) : (endOp s id).tval = s.tval := rfl
@[simp] theorem endOp_sval (s : State) (id : Nat) : (endOp s id).sval = s.sval := rfl
@[simp] theorem endOp_queues (s : State) (id : Nat) : (endOp s id).queues = s.queues := rfl
@[simp] theorem endOp_bn (s : State) (id : Nat) : (endOp s id).bn = s.bn := rfl
@[simp] theorem endOp_warps (s : State) (id : Nat) : (endOp s id).warps = s.warps := rfl
@[simp] theorem endOp_blocks (s : State) (id : Nat) : (endOp s id).blocks = s.blocks := rfl
@[simp] theorem endOp_pend (s : State) (id : Nat) : (endOp s id).pend = s.pend := rfl
@[simp] theorem endOp_bnPend (s : State) (id : Nat) : (endOp s id).bnPend = s.bnPend := rfl
@[simp] theorem endOp_cores (s : State) (id : Nat) : (endOp s id).cores = s.cores := rfl
@[simp] theorem endOp_quarters (s : State) (id : Nat) : (endOp s id).quarters = s.quarters := rfl
@[simp] theorem endOp_growQ (s : State) (id : Nat) : (endOp s id).growQ = s.growQ := rfl
@[simp] theorem endOp_dies (s : State) (id : Nat) : (endOp s id).dies = s.dies := rfl
@[simp] theorem endOp_pkg (s : State) (id : Nat) : (endOp s id).pkg = s.pkg := rfl
@[simp] theorem endOp_tlb (s : State) (id : Nat) : (endOp s id).tlb = s.tlb := rfl
@[simp] theorem endOp_owners (s : State) (id : Nat) : (endOp s id).owners = s.owners := rfl
@[simp] theorem endOp_poison (s : State) (id : Nat) : (endOp s id).poison = s.poison := rfl
@[simp] theorem endOp_frozen (s : State) (id : Nat) : (endOp s id).frozen = s.frozen := rfl
@[simp] theorem endOp_swc (s : State) (id : Nat) : (endOp s id).swc = s.swc := rfl
@[simp] theorem endOp_dcLru (s : State) (id : Nat) : (endOp s id).dcLru = s.dcLru := rfl
@[simp] theorem endOp_poolOld (s : State) (id : Nat) : (endOp s id).poolOld = s.poolOld := rfl
@[simp] theorem endOp_prov (s : State) (id : Nat) : (endOp s id).prov = s.prov := rfl
@[simp] theorem endOp_granules (s : State) (id : Nat) : (endOp s id).granules = s.granules := rfl
@[simp] theorem endOp_marks (s : State) (id : Nat) : (endOp s id).marks = s.marks := rfl
@[simp] theorem endOp_acquired (s : State) (id : Nat) : (endOp s id).acquired = s.acquired := rfl
@[simp] theorem endOp_fenceMarks (s : State) (id : Nat) : (endOp s id).fenceMarks = s.fenceMarks := rfl
@[simp] theorem endOp_scMarks (s : State) (id : Nat) : (endOp s id).scMarks = s.scMarks := rfl
@[simp] theorem endOp_seen (s : State) (id : Nat) : (endOp s id).seen = s.seen := rfl
@[simp] theorem endOp_routes (s : State) (id : Nat) : (endOp s id).routes = s.routes := rfl
@[simp] theorem endOp_regions (s : State) (id : Nat) : (endOp s id).regions = s.regions := rfl
@[simp] theorem endOp_cks (s : State) (id : Nat) : (endOp s id).cks = s.cks := rfl
@[simp] theorem endOp_vmarks (s : State) (id : Nat) : (endOp s id).vmarks = s.vmarks := rfl
@[simp] theorem endOp_pools (s : State) (id : Nat) : (endOp s id).pools = s.pools := rfl
@[simp] theorem endOp_mem (s : State) (id : Nat) : (endOp s id).mem = s.mem := rfl
@[simp] theorem endOp_suspectVas (s : State) (id : Nat) : (endOp s id).suspectVas = s.suspectVas := rfl
@[simp] theorem endOp_provFull (s : State) (id : Nat) : (endOp s id).provFull = s.provFull := rfl
@[simp] theorem endOp_icode (s : State) (id : Nat) : (endOp s id).icode = s.icode := rfl
@[simp] theorem endOp_stalls (s : State) (id : Nat) : (endOp s id).stalls = s.stalls := rfl
@[simp] theorem endOp_prq (s : State) (id : Nat) : (endOp s id).prq = s.prq := rfl
@[simp] theorem endOp_chans (s : State) (id : Nat) : (endOp s id).chans = s.chans := rfl
@[simp] theorem endOp_aos (s : State) (id : Nat) : (endOp s id).aos = s.aos := rfl
@[simp] theorem endOp_cbars (s : State) (id : Nat) : (endOp s id).cbars = s.cbars := rfl
@[simp] theorem endOp_tds (s : State) (id : Nat) : (endOp s id).tds = s.tds := rfl
@[simp] theorem endOp_cbs (s : State) (id : Nat) : (endOp s id).cbs = s.cbs := rfl
@[simp] theorem endOp_fwd (s : State) (id : Nat) : (endOp s id).fwd = s.fwd := rfl
@[simp] theorem endOp_fwdEnts (s : State) (id : Nat) : (endOp s id).fwdEnts = s.fwdEnts := rfl
@[simp] theorem endOp_tstat (s : State) (id : Nat) : (endOp s id).tstat = s.tstat := rfl
@[simp] theorem endOp_tpois (s : State) (id : Nat) : (endOp s id).tpois = s.tpois := rfl
@[simp] theorem endOp_vents (s : State) (id : Nat) : (endOp s id).vents = s.vents := rfl
@[simp] theorem endOp_vmeta (s : State) (id : Nat) : (endOp s id).vmeta = s.vmeta := rfl
@[simp] theorem endOp_vseq (s : State) (id : Nat) : (endOp s id).vseq = s.vseq := rfl
@[simp] theorem endOp_vcap (s : State) (id : Nat) : (endOp s id).vcap = s.vcap := rfl
@[simp] theorem endOp_flashEnts (s : State) (id : Nat) : (endOp s id).flashEnts = s.flashEnts := rfl
@[simp] theorem endOp_flashMeta (s : State) (id : Nat) : (endOp s id).flashMeta = s.flashMeta := rfl
@[simp] theorem endOp_mail (s : State) (id : Nat) : (endOp s id).mail = s.mail := rfl
@[simp] theorem endOp_mailOut (s : State) (id : Nat) : (endOp s id).mailOut = s.mailOut := rfl
@[simp] theorem endOp_rgns (s : State) (id : Nat) : (endOp s id).rgns = s.rgns := rfl
@[simp] theorem endOp_ownProg (s : State) (id : Nat) : (endOp s id).ownProg = s.ownProg := rfl
@[simp] theorem endOp_nodes (s : State) (id : Nat) : (endOp s id).nodes = s.nodes := rfl
@[simp] theorem endOp_graphs (s : State) (id : Nat) : (endOp s id).graphs = s.graphs := rfl
@[simp] theorem endOp_seqs (s : State) (id : Nat) : (endOp s id).seqs = s.seqs := rfl
@[simp] theorem endOp_nextNode (s : State) (id : Nat) : (endOp s id).nextNode = s.nextNode := rfl
@[simp] theorem endOp_sslots (s : State) (id : Nat) : (endOp s id).sslots = s.sslots := rfl
@[simp] theorem endOp_saves (s : State) (id : Nat) : (endOp s id).saves = s.saves := rfl
@[simp] theorem endOp_hslots (s : State) (id : Nat) : (endOp s id).hslots = s.hslots := rfl
@[simp] theorem endOp_hdiscard (s : State) (id : Nat) : (endOp s id).hdiscard = s.hdiscard := rfl
@[simp] theorem endOp_hostQ (s : State) (id : Nat) : (endOp s id).hostQ = s.hostQ := rfl
@[simp] theorem endOp_rsreg (s : State) (id : Nat) : (endOp s id).rsreg = s.rsreg := rfl
@[simp] theorem endOp_rsdesc (s : State) (id : Nat) : (endOp s id).rsdesc = s.rsdesc := rfl
@[simp] theorem endOp_rsstep (s : State) (id : Nat) : (endOp s id).rsstep = s.rsstep := rfl
@[simp] theorem endOp_rsstat (s : State) (id : Nat) : (endOp s id).rsstat = s.rsstat := rfl
@[simp] theorem endOp_mgmt (s : State) (id : Nat) : (endOp s id).mgmt = s.mgmt := rfl
@[simp] theorem endOp_rays (s : State) (id : Nat) : (endOp s id).rays = s.rays := rfl
@[simp] theorem endOp_lht (s : State) (id : Nat) : (endOp s id).lht = s.lht := rfl
@[simp] theorem endOp_lhtCnt (s : State) (id : Nat) : (endOp s id).lhtCnt = s.lhtCnt := rfl
@[simp] theorem endOp_staged (s : State) (id : Nat) : (endOp s id).staged = s.staged := rfl
@[simp] theorem endOp_suspects (s : State) (id : Nat) : (endOp s id).suspects = s.suspects := rfl
@[simp] theorem endOp_replays (s : State) (id : Nat) : (endOp s id).replays = s.replays := rfl
@[simp] theorem endOp_sent (s : State) (id : Nat) : (endOp s id).sent = s.sent := rfl
@[simp] theorem endOp_outRead (s : State) (id : Nat) : (endOp s id).outRead = s.outRead := rfl
@[simp] theorem endOp_hostOut (s : State) (id : Nat) : (endOp s id).hostOut = s.hostOut := rfl

/-! ### setOpKind -/

@[simp] theorem setOpKind_agenda (s : State) (id : Nat) (k : OpKind) : (setOpKind s id k).agenda = s.agenda := rfl
@[simp] theorem setOpKind_cur (s : State) (id : Nat) (k : OpKind) : (setOpKind s id k).cur = s.cur := rfl
@[simp] theorem setOpKind_cur2 (s : State) (id : Nat) (k : OpKind) : (setOpKind s id k).cur2 = s.cur2 := rfl
@[simp] theorem setOpKind_free (s : State) (id : Nat) (k : OpKind) : (setOpKind s id k).free = s.free := rfl
@[simp] theorem setOpKind_nextOp (s : State) (id : Nat) (k : OpKind) : (setOpKind s id k).nextOp = s.nextOp := rfl
@[simp] theorem setOpKind_nextBlk (s : State) (id : Nat) (k : OpKind) : (setOpKind s id k).nextBlk = s.nextBlk := rfl
@[simp] theorem setOpKind_vregs (s : State) (id : Nat) (k : OpKind) : (setOpKind s id k).vregs = s.vregs := rfl
@[simp] theorem setOpKind_sregs (s : State) (id : Nat) (k : OpKind) : (setOpKind s id k).sregs = s.sregs := rfl
@[simp] theorem setOpKind_fsr (s : State) (id : Nat) (k : OpKind) : (setOpKind s id k).fsr = s.fsr := rfl
@[simp] theorem setOpKind_tval (s : State) (id : Nat) (k : OpKind) : (setOpKind s id k).tval = s.tval := rfl
@[simp] theorem setOpKind_sval (s : State) (id : Nat) (k : OpKind) : (setOpKind s id k).sval = s.sval := rfl
@[simp] theorem setOpKind_queues (s : State) (id : Nat) (k : OpKind) : (setOpKind s id k).queues = s.queues := rfl
@[simp] theorem setOpKind_bn (s : State) (id : Nat) (k : OpKind) : (setOpKind s id k).bn = s.bn := rfl
@[simp] theorem setOpKind_warps (s : State) (id : Nat) (k : OpKind) : (setOpKind s id k).warps = s.warps := rfl
@[simp] theorem setOpKind_blocks (s : State) (id : Nat) (k : OpKind) : (setOpKind s id k).blocks = s.blocks := rfl
@[simp] theorem setOpKind_pend (s : State) (id : Nat) (k : OpKind) : (setOpKind s id k).pend = s.pend := rfl
@[simp] theorem setOpKind_bnPend (s : State) (id : Nat) (k : OpKind) : (setOpKind s id k).bnPend = s.bnPend := rfl
@[simp] theorem setOpKind_cores (s : State) (id : Nat) (k : OpKind) : (setOpKind s id k).cores = s.cores := rfl
@[simp] theorem setOpKind_quarters (s : State) (id : Nat) (k : OpKind) : (setOpKind s id k).quarters = s.quarters := rfl
@[simp] theorem setOpKind_growQ (s : State) (id : Nat) (k : OpKind) : (setOpKind s id k).growQ = s.growQ := rfl
@[simp] theorem setOpKind_dies (s : State) (id : Nat) (k : OpKind) : (setOpKind s id k).dies = s.dies := rfl
@[simp] theorem setOpKind_pkg (s : State) (id : Nat) (k : OpKind) : (setOpKind s id k).pkg = s.pkg := rfl
@[simp] theorem setOpKind_tlb (s : State) (id : Nat) (k : OpKind) : (setOpKind s id k).tlb = s.tlb := rfl
@[simp] theorem setOpKind_owners (s : State) (id : Nat) (k : OpKind) : (setOpKind s id k).owners = s.owners := rfl
@[simp] theorem setOpKind_poison (s : State) (id : Nat) (k : OpKind) : (setOpKind s id k).poison = s.poison := rfl
@[simp] theorem setOpKind_frozen (s : State) (id : Nat) (k : OpKind) : (setOpKind s id k).frozen = s.frozen := rfl
@[simp] theorem setOpKind_swc (s : State) (id : Nat) (k : OpKind) : (setOpKind s id k).swc = s.swc := rfl
@[simp] theorem setOpKind_dcLru (s : State) (id : Nat) (k : OpKind) : (setOpKind s id k).dcLru = s.dcLru := rfl
@[simp] theorem setOpKind_poolOld (s : State) (id : Nat) (k : OpKind) : (setOpKind s id k).poolOld = s.poolOld := rfl
@[simp] theorem setOpKind_prov (s : State) (id : Nat) (k : OpKind) : (setOpKind s id k).prov = s.prov := rfl
@[simp] theorem setOpKind_granules (s : State) (id : Nat) (k : OpKind) : (setOpKind s id k).granules = s.granules := rfl
@[simp] theorem setOpKind_marks (s : State) (id : Nat) (k : OpKind) : (setOpKind s id k).marks = s.marks := rfl
@[simp] theorem setOpKind_acquired (s : State) (id : Nat) (k : OpKind) : (setOpKind s id k).acquired = s.acquired := rfl
@[simp] theorem setOpKind_fenceMarks (s : State) (id : Nat) (k : OpKind) : (setOpKind s id k).fenceMarks = s.fenceMarks := rfl
@[simp] theorem setOpKind_scMarks (s : State) (id : Nat) (k : OpKind) : (setOpKind s id k).scMarks = s.scMarks := rfl
@[simp] theorem setOpKind_seen (s : State) (id : Nat) (k : OpKind) : (setOpKind s id k).seen = s.seen := rfl
@[simp] theorem setOpKind_routes (s : State) (id : Nat) (k : OpKind) : (setOpKind s id k).routes = s.routes := rfl
@[simp] theorem setOpKind_regions (s : State) (id : Nat) (k : OpKind) : (setOpKind s id k).regions = s.regions := rfl
@[simp] theorem setOpKind_cks (s : State) (id : Nat) (k : OpKind) : (setOpKind s id k).cks = s.cks := rfl
@[simp] theorem setOpKind_vmarks (s : State) (id : Nat) (k : OpKind) : (setOpKind s id k).vmarks = s.vmarks := rfl
@[simp] theorem setOpKind_pools (s : State) (id : Nat) (k : OpKind) : (setOpKind s id k).pools = s.pools := rfl
@[simp] theorem setOpKind_mem (s : State) (id : Nat) (k : OpKind) : (setOpKind s id k).mem = s.mem := rfl
@[simp] theorem setOpKind_suspectVas (s : State) (id : Nat) (k : OpKind) : (setOpKind s id k).suspectVas = s.suspectVas := rfl
@[simp] theorem setOpKind_provFull (s : State) (id : Nat) (k : OpKind) : (setOpKind s id k).provFull = s.provFull := rfl
@[simp] theorem setOpKind_icode (s : State) (id : Nat) (k : OpKind) : (setOpKind s id k).icode = s.icode := rfl
@[simp] theorem setOpKind_stalls (s : State) (id : Nat) (k : OpKind) : (setOpKind s id k).stalls = s.stalls := rfl
@[simp] theorem setOpKind_prq (s : State) (id : Nat) (k : OpKind) : (setOpKind s id k).prq = s.prq := rfl
@[simp] theorem setOpKind_chans (s : State) (id : Nat) (k : OpKind) : (setOpKind s id k).chans = s.chans := rfl
@[simp] theorem setOpKind_aos (s : State) (id : Nat) (k : OpKind) : (setOpKind s id k).aos = s.aos := rfl
@[simp] theorem setOpKind_cbars (s : State) (id : Nat) (k : OpKind) : (setOpKind s id k).cbars = s.cbars := rfl
@[simp] theorem setOpKind_tds (s : State) (id : Nat) (k : OpKind) : (setOpKind s id k).tds = s.tds := rfl
@[simp] theorem setOpKind_cbs (s : State) (id : Nat) (k : OpKind) : (setOpKind s id k).cbs = s.cbs := rfl
@[simp] theorem setOpKind_fwd (s : State) (id : Nat) (k : OpKind) : (setOpKind s id k).fwd = s.fwd := rfl
@[simp] theorem setOpKind_fwdEnts (s : State) (id : Nat) (k : OpKind) : (setOpKind s id k).fwdEnts = s.fwdEnts := rfl
@[simp] theorem setOpKind_tstat (s : State) (id : Nat) (k : OpKind) : (setOpKind s id k).tstat = s.tstat := rfl
@[simp] theorem setOpKind_tpois (s : State) (id : Nat) (k : OpKind) : (setOpKind s id k).tpois = s.tpois := rfl
@[simp] theorem setOpKind_vents (s : State) (id : Nat) (k : OpKind) : (setOpKind s id k).vents = s.vents := rfl
@[simp] theorem setOpKind_vmeta (s : State) (id : Nat) (k : OpKind) : (setOpKind s id k).vmeta = s.vmeta := rfl
@[simp] theorem setOpKind_vseq (s : State) (id : Nat) (k : OpKind) : (setOpKind s id k).vseq = s.vseq := rfl
@[simp] theorem setOpKind_vcap (s : State) (id : Nat) (k : OpKind) : (setOpKind s id k).vcap = s.vcap := rfl
@[simp] theorem setOpKind_flashEnts (s : State) (id : Nat) (k : OpKind) : (setOpKind s id k).flashEnts = s.flashEnts := rfl
@[simp] theorem setOpKind_flashMeta (s : State) (id : Nat) (k : OpKind) : (setOpKind s id k).flashMeta = s.flashMeta := rfl
@[simp] theorem setOpKind_mail (s : State) (id : Nat) (k : OpKind) : (setOpKind s id k).mail = s.mail := rfl
@[simp] theorem setOpKind_mailOut (s : State) (id : Nat) (k : OpKind) : (setOpKind s id k).mailOut = s.mailOut := rfl
@[simp] theorem setOpKind_rgns (s : State) (id : Nat) (k : OpKind) : (setOpKind s id k).rgns = s.rgns := rfl
@[simp] theorem setOpKind_ownProg (s : State) (id : Nat) (k : OpKind) : (setOpKind s id k).ownProg = s.ownProg := rfl
@[simp] theorem setOpKind_nodes (s : State) (id : Nat) (k : OpKind) : (setOpKind s id k).nodes = s.nodes := rfl
@[simp] theorem setOpKind_graphs (s : State) (id : Nat) (k : OpKind) : (setOpKind s id k).graphs = s.graphs := rfl
@[simp] theorem setOpKind_seqs (s : State) (id : Nat) (k : OpKind) : (setOpKind s id k).seqs = s.seqs := rfl
@[simp] theorem setOpKind_nextNode (s : State) (id : Nat) (k : OpKind) : (setOpKind s id k).nextNode = s.nextNode := rfl
@[simp] theorem setOpKind_sslots (s : State) (id : Nat) (k : OpKind) : (setOpKind s id k).sslots = s.sslots := rfl
@[simp] theorem setOpKind_saves (s : State) (id : Nat) (k : OpKind) : (setOpKind s id k).saves = s.saves := rfl
@[simp] theorem setOpKind_hslots (s : State) (id : Nat) (k : OpKind) : (setOpKind s id k).hslots = s.hslots := rfl
@[simp] theorem setOpKind_hdiscard (s : State) (id : Nat) (k : OpKind) : (setOpKind s id k).hdiscard = s.hdiscard := rfl
@[simp] theorem setOpKind_hostQ (s : State) (id : Nat) (k : OpKind) : (setOpKind s id k).hostQ = s.hostQ := rfl
@[simp] theorem setOpKind_rsreg (s : State) (id : Nat) (k : OpKind) : (setOpKind s id k).rsreg = s.rsreg := rfl
@[simp] theorem setOpKind_rsdesc (s : State) (id : Nat) (k : OpKind) : (setOpKind s id k).rsdesc = s.rsdesc := rfl
@[simp] theorem setOpKind_rsstep (s : State) (id : Nat) (k : OpKind) : (setOpKind s id k).rsstep = s.rsstep := rfl
@[simp] theorem setOpKind_rsstat (s : State) (id : Nat) (k : OpKind) : (setOpKind s id k).rsstat = s.rsstat := rfl
@[simp] theorem setOpKind_mgmt (s : State) (id : Nat) (k : OpKind) : (setOpKind s id k).mgmt = s.mgmt := rfl
@[simp] theorem setOpKind_rays (s : State) (id : Nat) (k : OpKind) : (setOpKind s id k).rays = s.rays := rfl
@[simp] theorem setOpKind_lht (s : State) (id : Nat) (k : OpKind) : (setOpKind s id k).lht = s.lht := rfl
@[simp] theorem setOpKind_lhtCnt (s : State) (id : Nat) (k : OpKind) : (setOpKind s id k).lhtCnt = s.lhtCnt := rfl
@[simp] theorem setOpKind_staged (s : State) (id : Nat) (k : OpKind) : (setOpKind s id k).staged = s.staged := rfl
@[simp] theorem setOpKind_suspects (s : State) (id : Nat) (k : OpKind) : (setOpKind s id k).suspects = s.suspects := rfl
@[simp] theorem setOpKind_replays (s : State) (id : Nat) (k : OpKind) : (setOpKind s id k).replays = s.replays := rfl
@[simp] theorem setOpKind_sent (s : State) (id : Nat) (k : OpKind) : (setOpKind s id k).sent = s.sent := rfl
@[simp] theorem setOpKind_outRead (s : State) (id : Nat) (k : OpKind) : (setOpKind s id k).outRead = s.outRead := rfl
@[simp] theorem setOpKind_hostOut (s : State) (id : Nat) (k : OpKind) : (setOpKind s id k).hostOut = s.hostOut := rfl

/-! ### setQueue -/

@[simp] theorem setQueue_agenda (s : State) (w lane q : Nat) (x : Queue) : (setQueue s w lane q x).agenda = s.agenda := rfl
@[simp] theorem setQueue_cur (s : State) (w lane q : Nat) (x : Queue) : (setQueue s w lane q x).cur = s.cur := rfl
@[simp] theorem setQueue_cur2 (s : State) (w lane q : Nat) (x : Queue) : (setQueue s w lane q x).cur2 = s.cur2 := rfl
@[simp] theorem setQueue_free (s : State) (w lane q : Nat) (x : Queue) : (setQueue s w lane q x).free = s.free := rfl
@[simp] theorem setQueue_nextOp (s : State) (w lane q : Nat) (x : Queue) : (setQueue s w lane q x).nextOp = s.nextOp := rfl
@[simp] theorem setQueue_nextBlk (s : State) (w lane q : Nat) (x : Queue) : (setQueue s w lane q x).nextBlk = s.nextBlk := rfl
@[simp] theorem setQueue_vregs (s : State) (w lane q : Nat) (x : Queue) : (setQueue s w lane q x).vregs = s.vregs := rfl
@[simp] theorem setQueue_sregs (s : State) (w lane q : Nat) (x : Queue) : (setQueue s w lane q x).sregs = s.sregs := rfl
@[simp] theorem setQueue_fsr (s : State) (w lane q : Nat) (x : Queue) : (setQueue s w lane q x).fsr = s.fsr := rfl
@[simp] theorem setQueue_tval (s : State) (w lane q : Nat) (x : Queue) : (setQueue s w lane q x).tval = s.tval := rfl
@[simp] theorem setQueue_sval (s : State) (w lane q : Nat) (x : Queue) : (setQueue s w lane q x).sval = s.sval := rfl
@[simp] theorem setQueue_bn (s : State) (w lane q : Nat) (x : Queue) : (setQueue s w lane q x).bn = s.bn := rfl
@[simp] theorem setQueue_warps (s : State) (w lane q : Nat) (x : Queue) : (setQueue s w lane q x).warps = s.warps := rfl
@[simp] theorem setQueue_blocks (s : State) (w lane q : Nat) (x : Queue) : (setQueue s w lane q x).blocks = s.blocks := rfl
@[simp] theorem setQueue_ops (s : State) (w lane q : Nat) (x : Queue) : (setQueue s w lane q x).ops = s.ops := rfl
@[simp] theorem setQueue_pend (s : State) (w lane q : Nat) (x : Queue) : (setQueue s w lane q x).pend = s.pend := rfl
@[simp] theorem setQueue_bnPend (s : State) (w lane q : Nat) (x : Queue) : (setQueue s w lane q x).bnPend = s.bnPend := rfl
@[simp] theorem setQueue_cores (s : State) (w lane q : Nat) (x : Queue) : (setQueue s w lane q x).cores = s.cores := rfl
@[simp] theorem setQueue_quarters (s : State) (w lane q : Nat) (x : Queue) : (setQueue s w lane q x).quarters = s.quarters := rfl
@[simp] theorem setQueue_growQ (s : State) (w lane q : Nat) (x : Queue) : (setQueue s w lane q x).growQ = s.growQ := rfl
@[simp] theorem setQueue_dies (s : State) (w lane q : Nat) (x : Queue) : (setQueue s w lane q x).dies = s.dies := rfl
@[simp] theorem setQueue_pkg (s : State) (w lane q : Nat) (x : Queue) : (setQueue s w lane q x).pkg = s.pkg := rfl
@[simp] theorem setQueue_tlb (s : State) (w lane q : Nat) (x : Queue) : (setQueue s w lane q x).tlb = s.tlb := rfl
@[simp] theorem setQueue_owners (s : State) (w lane q : Nat) (x : Queue) : (setQueue s w lane q x).owners = s.owners := rfl
@[simp] theorem setQueue_poison (s : State) (w lane q : Nat) (x : Queue) : (setQueue s w lane q x).poison = s.poison := rfl
@[simp] theorem setQueue_frozen (s : State) (w lane q : Nat) (x : Queue) : (setQueue s w lane q x).frozen = s.frozen := rfl
@[simp] theorem setQueue_swc (s : State) (w lane q : Nat) (x : Queue) : (setQueue s w lane q x).swc = s.swc := rfl
@[simp] theorem setQueue_dcLru (s : State) (w lane q : Nat) (x : Queue) : (setQueue s w lane q x).dcLru = s.dcLru := rfl
@[simp] theorem setQueue_poolOld (s : State) (w lane q : Nat) (x : Queue) : (setQueue s w lane q x).poolOld = s.poolOld := rfl
@[simp] theorem setQueue_prov (s : State) (w lane q : Nat) (x : Queue) : (setQueue s w lane q x).prov = s.prov := rfl
@[simp] theorem setQueue_granules (s : State) (w lane q : Nat) (x : Queue) : (setQueue s w lane q x).granules = s.granules := rfl
@[simp] theorem setQueue_marks (s : State) (w lane q : Nat) (x : Queue) : (setQueue s w lane q x).marks = s.marks := rfl
@[simp] theorem setQueue_acquired (s : State) (w lane q : Nat) (x : Queue) : (setQueue s w lane q x).acquired = s.acquired := rfl
@[simp] theorem setQueue_fenceMarks (s : State) (w lane q : Nat) (x : Queue) : (setQueue s w lane q x).fenceMarks = s.fenceMarks := rfl
@[simp] theorem setQueue_scMarks (s : State) (w lane q : Nat) (x : Queue) : (setQueue s w lane q x).scMarks = s.scMarks := rfl
@[simp] theorem setQueue_seen (s : State) (w lane q : Nat) (x : Queue) : (setQueue s w lane q x).seen = s.seen := rfl
@[simp] theorem setQueue_routes (s : State) (w lane q : Nat) (x : Queue) : (setQueue s w lane q x).routes = s.routes := rfl
@[simp] theorem setQueue_regions (s : State) (w lane q : Nat) (x : Queue) : (setQueue s w lane q x).regions = s.regions := rfl
@[simp] theorem setQueue_cks (s : State) (w lane q : Nat) (x : Queue) : (setQueue s w lane q x).cks = s.cks := rfl
@[simp] theorem setQueue_vmarks (s : State) (w lane q : Nat) (x : Queue) : (setQueue s w lane q x).vmarks = s.vmarks := rfl
@[simp] theorem setQueue_pools (s : State) (w lane q : Nat) (x : Queue) : (setQueue s w lane q x).pools = s.pools := rfl
@[simp] theorem setQueue_mem (s : State) (w lane q : Nat) (x : Queue) : (setQueue s w lane q x).mem = s.mem := rfl
@[simp] theorem setQueue_suspectVas (s : State) (w lane q : Nat) (x : Queue) : (setQueue s w lane q x).suspectVas = s.suspectVas := rfl
@[simp] theorem setQueue_provFull (s : State) (w lane q : Nat) (x : Queue) : (setQueue s w lane q x).provFull = s.provFull := rfl
@[simp] theorem setQueue_icode (s : State) (w lane q : Nat) (x : Queue) : (setQueue s w lane q x).icode = s.icode := rfl
@[simp] theorem setQueue_stalls (s : State) (w lane q : Nat) (x : Queue) : (setQueue s w lane q x).stalls = s.stalls := rfl
@[simp] theorem setQueue_prq (s : State) (w lane q : Nat) (x : Queue) : (setQueue s w lane q x).prq = s.prq := rfl
@[simp] theorem setQueue_chans (s : State) (w lane q : Nat) (x : Queue) : (setQueue s w lane q x).chans = s.chans := rfl
@[simp] theorem setQueue_aos (s : State) (w lane q : Nat) (x : Queue) : (setQueue s w lane q x).aos = s.aos := rfl
@[simp] theorem setQueue_cbars (s : State) (w lane q : Nat) (x : Queue) : (setQueue s w lane q x).cbars = s.cbars := rfl
@[simp] theorem setQueue_tds (s : State) (w lane q : Nat) (x : Queue) : (setQueue s w lane q x).tds = s.tds := rfl
@[simp] theorem setQueue_cbs (s : State) (w lane q : Nat) (x : Queue) : (setQueue s w lane q x).cbs = s.cbs := rfl
@[simp] theorem setQueue_fwd (s : State) (w lane q : Nat) (x : Queue) : (setQueue s w lane q x).fwd = s.fwd := rfl
@[simp] theorem setQueue_fwdEnts (s : State) (w lane q : Nat) (x : Queue) : (setQueue s w lane q x).fwdEnts = s.fwdEnts := rfl
@[simp] theorem setQueue_tstat (s : State) (w lane q : Nat) (x : Queue) : (setQueue s w lane q x).tstat = s.tstat := rfl
@[simp] theorem setQueue_tpois (s : State) (w lane q : Nat) (x : Queue) : (setQueue s w lane q x).tpois = s.tpois := rfl
@[simp] theorem setQueue_vents (s : State) (w lane q : Nat) (x : Queue) : (setQueue s w lane q x).vents = s.vents := rfl
@[simp] theorem setQueue_vmeta (s : State) (w lane q : Nat) (x : Queue) : (setQueue s w lane q x).vmeta = s.vmeta := rfl
@[simp] theorem setQueue_vseq (s : State) (w lane q : Nat) (x : Queue) : (setQueue s w lane q x).vseq = s.vseq := rfl
@[simp] theorem setQueue_vcap (s : State) (w lane q : Nat) (x : Queue) : (setQueue s w lane q x).vcap = s.vcap := rfl
@[simp] theorem setQueue_flashEnts (s : State) (w lane q : Nat) (x : Queue) : (setQueue s w lane q x).flashEnts = s.flashEnts := rfl
@[simp] theorem setQueue_flashMeta (s : State) (w lane q : Nat) (x : Queue) : (setQueue s w lane q x).flashMeta = s.flashMeta := rfl
@[simp] theorem setQueue_mail (s : State) (w lane q : Nat) (x : Queue) : (setQueue s w lane q x).mail = s.mail := rfl
@[simp] theorem setQueue_mailOut (s : State) (w lane q : Nat) (x : Queue) : (setQueue s w lane q x).mailOut = s.mailOut := rfl
@[simp] theorem setQueue_rgns (s : State) (w lane q : Nat) (x : Queue) : (setQueue s w lane q x).rgns = s.rgns := rfl
@[simp] theorem setQueue_ownProg (s : State) (w lane q : Nat) (x : Queue) : (setQueue s w lane q x).ownProg = s.ownProg := rfl
@[simp] theorem setQueue_nodes (s : State) (w lane q : Nat) (x : Queue) : (setQueue s w lane q x).nodes = s.nodes := rfl
@[simp] theorem setQueue_graphs (s : State) (w lane q : Nat) (x : Queue) : (setQueue s w lane q x).graphs = s.graphs := rfl
@[simp] theorem setQueue_seqs (s : State) (w lane q : Nat) (x : Queue) : (setQueue s w lane q x).seqs = s.seqs := rfl
@[simp] theorem setQueue_nextNode (s : State) (w lane q : Nat) (x : Queue) : (setQueue s w lane q x).nextNode = s.nextNode := rfl
@[simp] theorem setQueue_sslots (s : State) (w lane q : Nat) (x : Queue) : (setQueue s w lane q x).sslots = s.sslots := rfl
@[simp] theorem setQueue_saves (s : State) (w lane q : Nat) (x : Queue) : (setQueue s w lane q x).saves = s.saves := rfl
@[simp] theorem setQueue_hslots (s : State) (w lane q : Nat) (x : Queue) : (setQueue s w lane q x).hslots = s.hslots := rfl
@[simp] theorem setQueue_hdiscard (s : State) (w lane q : Nat) (x : Queue) : (setQueue s w lane q x).hdiscard = s.hdiscard := rfl
@[simp] theorem setQueue_hostQ (s : State) (w lane q : Nat) (x : Queue) : (setQueue s w lane q x).hostQ = s.hostQ := rfl
@[simp] theorem setQueue_rsreg (s : State) (w lane q : Nat) (x : Queue) : (setQueue s w lane q x).rsreg = s.rsreg := rfl
@[simp] theorem setQueue_rsdesc (s : State) (w lane q : Nat) (x : Queue) : (setQueue s w lane q x).rsdesc = s.rsdesc := rfl
@[simp] theorem setQueue_rsstep (s : State) (w lane q : Nat) (x : Queue) : (setQueue s w lane q x).rsstep = s.rsstep := rfl
@[simp] theorem setQueue_rsstat (s : State) (w lane q : Nat) (x : Queue) : (setQueue s w lane q x).rsstat = s.rsstat := rfl
@[simp] theorem setQueue_mgmt (s : State) (w lane q : Nat) (x : Queue) : (setQueue s w lane q x).mgmt = s.mgmt := rfl
@[simp] theorem setQueue_rays (s : State) (w lane q : Nat) (x : Queue) : (setQueue s w lane q x).rays = s.rays := rfl
@[simp] theorem setQueue_lht (s : State) (w lane q : Nat) (x : Queue) : (setQueue s w lane q x).lht = s.lht := rfl
@[simp] theorem setQueue_lhtCnt (s : State) (w lane q : Nat) (x : Queue) : (setQueue s w lane q x).lhtCnt = s.lhtCnt := rfl
@[simp] theorem setQueue_staged (s : State) (w lane q : Nat) (x : Queue) : (setQueue s w lane q x).staged = s.staged := rfl
@[simp] theorem setQueue_suspects (s : State) (w lane q : Nat) (x : Queue) : (setQueue s w lane q x).suspects = s.suspects := rfl
@[simp] theorem setQueue_replays (s : State) (w lane q : Nat) (x : Queue) : (setQueue s w lane q x).replays = s.replays := rfl
@[simp] theorem setQueue_sent (s : State) (w lane q : Nat) (x : Queue) : (setQueue s w lane q x).sent = s.sent := rfl
@[simp] theorem setQueue_outRead (s : State) (w lane q : Nat) (x : Queue) : (setQueue s w lane q x).outRead = s.outRead := rfl
@[simp] theorem setQueue_hostOut (s : State) (w lane q : Nat) (x : Queue) : (setQueue s w lane q x).hostOut = s.hostOut := rfl

end Sys2Proof.Machine
end

