-- ==== Sys2Proof/Laws/Store.lean ====
section
/-!
SUPPORT. Laws of sparse stores: a read after a write, other keys untouched, and the canonical form kept.
-/
namespace Sys2Proof.Machine

variable {β : Type}

theorem sget_sdrop_le (d : β) (m : List (Nat × β)) (k j : Nat) (h : j ≤ k) : sget d (sdrop k m) j = d := by
  induction m with
  | nil => rfl
  | cons e r ih =>
    obtain ⟨k', v'⟩ := e
    unfold sdrop
    split
    · exact ih
    · rw [sget, if_neg (by omega), if_pos (by omega)]

theorem sget_sdrop_gt (d : β) (m : List (Nat × β)) (k j : Nat) (h : k < j) : sget d (sdrop k m) j = sget d m j := by
  induction m with
  | nil => rfl
  | cons e r ih =>
    obtain ⟨k', v'⟩ := e
    unfold sdrop
    split
    · rw [ih, sget, if_neg (by omega), if_neg (by omega)]
    · rfl

theorem sget_sset_same [DecidableEq β] (d : β) (m : List (Nat × β)) (k : Nat) (v : β) :
    sget d (sset d m k v) k = v := by
  induction m with
  | nil => unfold sset; split <;> simp_all [sget]
  | cons e r ih =>
    obtain ⟨k', v'⟩ := e
    unfold sset
    split
    · split
      · rw [sget, if_neg (by omega), if_pos (by omega)]; simp_all
      · rw [sget, if_pos rfl]
    · split
      · split
        · rw [sget_sdrop_le _ _ _ _ (Nat.le_refl k)]; simp_all
        · rw [sget, if_pos rfl]
      · rw [sget, if_neg (by omega), if_neg (by omega), ih]

theorem sget_sset_ne [DecidableEq β] (d : β) (m : List (Nat × β)) (k j : Nat) (v : β) (h : j ≠ k) :
    sget d (sset d m k v) j = sget d m j := by
  induction m with
  | nil => unfold sset; split <;> simp [sget, h]
  | cons e r ih =>
    obtain ⟨k', v'⟩ := e
    unfold sset
    split
    · split
      · rfl
      · rw [sget, if_neg h]
        split
        · rw [sget, if_neg (by omega), if_pos (by omega)]
        · rfl
    · split
      · next hk =>
        subst hk
        split
        · rcases Nat.lt_or_gt_of_ne h with hl | hl
          · rw [sget_sdrop_le _ _ _ _ (by omega), sget, if_neg h, if_pos hl]
          · rw [sget_sdrop_gt _ _ _ _ hl, sget, if_neg h, if_neg (by omega)]
        · simp only [sget, if_neg h]
      · simp only [sget, ih]

theorem sabove_trans (k j : Nat) (m : List (Nat × β)) (h : k ≤ j) (hm : sabove j m = true) : sabove k m = true := by
  induction m with
  | nil => rfl
  | cons e r ih =>
    simp only [sabove, Bool.and_eq_true, decide_eq_true_eq] at hm ⊢
    exact ⟨by omega, ih hm.2⟩

theorem sdrop_above (k : Nat) (m : List (Nat × β)) (hm : sabove k m = true) : sdrop k m = m := by
  cases m with
  | nil => rfl
  | cons e r =>
    simp only [sabove, Bool.and_eq_true, decide_eq_true_eq] at hm
    rw [sdrop, if_neg (by omega)]

theorem sabove_sdrop (k j : Nat) (m : List (Nat × β)) (hm : sabove j m = true) : sabove j (sdrop k m) = true := by
  induction m with
  | nil => rfl
  | cons e r ih =>
    simp only [sabove, Bool.and_eq_true] at hm
    unfold sdrop
    split
    · exact ih hm.2
    · simp only [sabove, Bool.and_eq_true]; exact hm

theorem sabove_sset [DecidableEq β] (d : β) (m : List (Nat × β)) (k j : Nat) (v : β) (hm : sabove j m = true)
    (h : j < k) : sabove j (sset d m k v) = true := by
  induction m with
  | nil => unfold sset; split <;> simp [sabove, h]
  | cons e r ih =>
    obtain ⟨k', v'⟩ := e
    simp only [sabove, Bool.and_eq_true, decide_eq_true_eq] at hm
    unfold sset
    split
    · split <;> simp [sabove, hm.1, hm.2, h]
    · split
      · split
        · exact sabove_sdrop _ _ _ hm.2
        · simp [sabove, h, hm.2]
      · simp [sabove, hm.1, ih hm.2]

/-- A write keeps the canonical form. -/
theorem swf_sset [DecidableEq β] (d : β) (m : List (Nat × β)) (k : Nat) (v : β) (hm : swf d m = true) :
    swf d (sset d m k v) = true := by
  induction m with
  | nil => unfold sset; split <;> simp_all [swf, sabove]
  | cons e r ih =>
    obtain ⟨k', v'⟩ := e
    have hm0 := hm
    simp only [swf, Bool.and_eq_true, decide_eq_true_eq] at hm
    unfold sset
    split
    · split
      · exact hm0
      · next hlt hv =>
        simp only [swf, sabove, Bool.and_eq_true, decide_eq_true_eq]
        exact ⟨⟨hv, hlt, sabove_trans _ _ _ (by omega) hm.1.2⟩, hm.1, hm.2⟩
    · split
      · next hk =>
        subst hk
        split
        · rw [sdrop_above _ _ hm.1.2]; exact hm.2
        · next hv =>
          simp only [swf, Bool.and_eq_true, decide_eq_true_eq]
          exact ⟨⟨hv, hm.1.2⟩, hm.2⟩
      · simp only [swf, Bool.and_eq_true, decide_eq_true_eq]
        exact ⟨⟨hm.1.1, sabove_sset _ _ _ _ _ hm.1.2 (by omega)⟩, ih hm.2⟩

/-- Writing a list of pairs keeps the canonical form. -/
theorem swf_ssetAll [DecidableEq β] (d : β) (ws m : List (Nat × β)) (hm : swf d m = true) :
    swf d (ssetAll d m ws) = true := by
  induction ws generalizing m with
  | nil => exact hm
  | cons e r ih => exact ih _ (swf_sset _ _ _ _ hm)

/-- A key that no written pair names keeps its value. -/
theorem sget_ssetAll_ne [DecidableEq β] (d : β) (ws m : List (Nat × β)) (j : Nat)
    (h : ∀ e ∈ ws, e.1 ≠ j) : sget d (ssetAll d m ws) j = sget d m j := by
  induction ws generalizing m with
  | nil => rfl
  | cons e r ih =>
    rw [ssetAll, List.foldl_cons, ← ssetAll, ih _ (fun x hx => h x (List.mem_cons_of_mem _ hx)),
      sget_sset_ne _ _ _ _ _ (Ne.symm (h e List.mem_cons_self))]

/-! ### Filters and replaced ranges -/

theorem sabove_filter (k : Nat) (p : Nat × β → Bool) (m : List (Nat × β)) (hm : sabove k m = true) : sabove k (m.filter p) = true := by
  induction m with
  | nil => rfl
  | cons e r ih =>
    simp only [sabove, Bool.and_eq_true] at hm
    rw [List.filter_cons]
    split
    · simp only [sabove, Bool.and_eq_true]; exact ⟨hm.1, ih hm.2⟩
    · exact ih hm.2

/-- Dropping entries keeps the canonical form. -/
theorem swf_filter [DecidableEq β] (d : β) (p : Nat × β → Bool) (m : List (Nat × β)) (hm : swf d m = true) : swf d (m.filter p) = true := by
  induction m with
  | nil => rfl
  | cons e r ih =>
    simp only [swf, Bool.and_eq_true] at hm
    rw [List.filter_cons]
    split
    · simp only [swf, Bool.and_eq_true]; exact ⟨⟨hm.1.1, sabove_filter _ _ _ hm.1.2⟩, ih hm.2⟩
    · exact ih hm.2

theorem swf_sfilter [DecidableEq β] (d : β) (p : Nat → Bool) (m : List (Nat × β)) (hm : swf d m = true) : swf d (sfilter p m) = true :=
  swf_filter d _ m hm

theorem sabove_iff (k : Nat) (m : List (Nat × β)) : sabove k m = true ↔ ∀ e ∈ m, k < e.1 := by
  induction m with
  | nil => simp [sabove]
  | cons e r ih => simp [sabove, ih]

/-- The canonical form in terms of pairs. -/
theorem swf_iff [DecidableEq β] (d : β) (m : List (Nat × β)) :
    swf d m = true ↔ m.Pairwise (fun x y => x.1 < y.1) ∧ ∀ e ∈ m, e.2 ≠ d := by
  induction m with
  | nil => simp [swf]
  | cons e r ih =>
    simp only [swf, Bool.and_eq_true, decide_eq_true_eq, sabove_iff, ih, List.pairwise_cons, List.mem_cons, forall_eq_or_imp]
    tauto

/-- Replacing a range by entries whose keys rise within it keeps the canonical form. -/
theorem swf_sreplace [DecidableEq β] (d : β) (m : List (Nat × β)) (lo n : Nat) (xs : List (Nat × β)) (hm : swf d m = true)
    (hx : xs.Pairwise (fun x y => x.1 < y.1)) (hr : ∀ e ∈ xs, lo ≤ e.1 ∧ e.1 < lo + n) : swf d (sreplace d m lo n xs) = true := by
  rw [swf_iff] at hm ⊢
  refine ⟨?_, ?_⟩
  · simp only [sreplace, List.pairwise_append]
    refine ⟨⟨hm.1.filter _, hx.filter _, ?_⟩, hm.1.filter _, ?_⟩
    · intro a ha b hb
      simp only [List.mem_filter, decide_eq_true_eq] at ha hb
      exact lt_of_lt_of_le ha.2 (hr b hb.1).1
    · intro a ha b hb
      simp only [List.mem_append, List.mem_filter, decide_eq_true_eq] at ha hb
      rcases ha with ha | ha
      · omega
      · have := (hr a ha.1).2; omega
  · intro e he
    simp only [sreplace, List.mem_append, List.mem_filter, decide_eq_true_eq] at he
    rcases he with (he | he) | he
    · exact hm.2 e he.1
    · exact he.2
    · exact hm.2 e he.1

end Sys2Proof.Machine
end

