-- ==== Sys2Proof/Laws/Issue.lean ====
section
/-!
SUPPORT. What issuing a word does: the conditions of `issues` lead to the word's own effect, and a failing one to its trap or wait.
-/
namespace Sys2Proof.Machine

@[simp] theorem ctxOf_w (spec : OpSpec) (f : Fields) (s : State) (cu : Cur) : (ctxOf spec f s cu).w = cu.w := rfl
@[simp] theorem ctxOf_k (spec : OpSpec) (f : Fields) (s : State) (cu : Cur) : (ctxOf spec f s cu).k = cu.k := rfl
@[simp] theorem ctxOf_f (spec : OpSpec) (f : Fields) (s : State) (cu : Cur) : (ctxOf spec f s cu).f = f := rfl
@[simp] theorem ctxOf_sp (spec : OpSpec) (f : Fields) (s : State) (cu : Cur) : (ctxOf spec f s cu).sp = getSplit s cu.w cu.k := rfl
@[simp] theorem ctxOf_t (spec : OpSpec) (f : Fields) (s : State) (cu : Cur) : (ctxOf spec f s cu).t = issueTime s cu.w cu.k := rfl

/-- With no current split there is nothing to issue. -/
theorem issue_none (spec : OpSpec) (f : Fields) (s : State) (body : Ctx → State → State) (h : s.cur = none) :
    issue spec f s body = .next s := by
  unfold issue; rw [h]

/-- The gate lets a word through that meets R60's conditions one by one. -/
theorem gate_ok (spec : OpSpec) (c : Ctx) (s : State) (hcl : clsAllowed spec.cls c.sp.cls = true)
    (hp : spec.priv (envOf s c.w c.sp (spec.reads c.f) c.f) = none) (hk : spec.check (envOf s c.w c.sp (spec.reads c.f) c.f) = none)
    (hr : readsSettled spec c s = true) (hq : queueShort s c.w c.sp.mask (spec.reads c.f) = false) (hn : counterFree spec c s = true) :
    gate spec c s = .ok := by
  have hf : ((getWarp s c.w).fcr.getLsbD 9 && (decide ((shortLanes s c.w c.t c.sp.mask (spec.reads c.f)).1 ≠ 0) ||
      (bnShort s c.w c.t (spec.bn c.f)).1 || (bnShort s c.w c.t (spec.bn c.f)).2)) = false := by
    unfold readsSettled at hr
    cases h9 : (getWarp s c.w).fcr.getLsbD 9 with
    | false => rfl
    | true => rw [h9] at hr; simpa [and_assoc] using hr
  unfold counterFree at hn
  rw [Bool.and_eq_true, Bool.not_eq_true'] at hn
  unfold gate
  simp only [hcl, hp, hk, hf, hq, hn.2, Bool.not_true, Bool.false_eq_true, if_false]
  cases hc : spec.cnt with
  | none => rfl
  | some k =>
    have h1 := hn.1
    rw [hc] at h1
    exact if_neg (by have := of_decide_eq_true h1; omega)

/-- The current split is the one that issues. -/
theorem cur_of_issues {spec : OpSpec} {f : Fields} {s : State} {cu : Cur} (h : issues spec f s cu = true) : s.cur = some cu := by
  unfold issues at h
  simp only [Bool.and_eq_true, decide_eq_true_eq] at h
  exact h.1.1.1.1.1.1.1.1.1.1

/-- The split that issues has lanes. -/
theorem mask_of_issues {spec : OpSpec} {f : Fields} {s : State} {cu : Cur} (h : issues spec f s cu = true) : (getSplit s cu.w cu.k).mask ≠ 0 := by
  unfold issues at h
  simp only [Bool.and_eq_true, decide_eq_true_eq] at h
  exact h.1.2

/-- A word whose conditions are met has its own effect. -/
theorem issue_of_issues (spec : OpSpec) (f : Fields) (s : State) (body : Ctx → State → State) (cu : Cur)
    (h : issues spec f s cu = true) :
    issue spec f s body = .next (keepReplay spec (ctxOf spec f s cu) (atIssue s cu) (body (ctxOf spec f s cu) (atIssue s cu))) := by
  unfold issues at h
  simp only [Bool.and_eq_true] at h
  obtain ⟨⟨⟨⟨⟨⟨⟨⟨⟨⟨hc, hh⟩, hcl⟩, hp⟩, hk⟩, hr⟩, hq⟩, hn⟩, hl⟩, -⟩, hd⟩ := h
  have hg := gate_ok spec (ctxOf spec f s cu) (startIssue s cu (issueTime s cu.w cu.k)) hcl (Option.isNone_iff_eq_none.1 hp)
    (Option.isNone_iff_eq_none.1 hk) hr (by simpa using hq) hn
  have hd' : shadowDiffers spec (ctxOf spec f s cu) (startIssue s cu (issueTime s cu.w cu.k)) = false := by simpa using hd
  have hh' : acquireHolds s spec.cls (ctxOf spec f s cu).sp = false := by simpa using hh
  unfold issue
  rw [of_decide_eq_true hc]
  simp only [hh', hd', ctxOf_t, hg, Bool.false_eq_true, if_false, ite_self]
  rw [pathRule, if_neg]
  · rfl
  rintro ⟨h1, h2, -⟩
  rw [h2, h1] at hl
  simp at hl

/-- A trap at the gate (R60): the word traps with the cause the gate names. -/
theorem issue_trap (spec : OpSpec) (f : Fields) (s : State) (body : Ctx → State → State) (cu : Cur) (r : TrapReq)
    (hc : s.cur = some cu) (hl : ((getSplit s cu.w cu.k).stalled.isSome || !(getSplit s cu.w cu.k).latch.isEmpty) = false)
    (hh : acquireHolds s spec.cls (getSplit s cu.w cu.k) = false)
    (hg : gate spec (ctxOf spec f s cu) (startIssue s cu (issueTime s cu.w cu.k)) = .trap r) :
    issue spec f s body = .next (pathRule (ctxOf spec f s cu) s (raise (ctxOf spec f s cu) r (startIssue s cu (issueTime s cu.w cu.k)))) := by
  unfold issue
  rw [hc]
  simp only [ctxOf_sp, hh, hl, ctxOf_t, hg, Bool.false_eq_true, if_false]

/-- R449: the replay queues are all that a kept replay changes. -/
theorem keepReplay_eq (spec : OpSpec) (c : Ctx) (s s' : State) :
    keepReplay spec c s s' = { s' with replays := (keepReplay spec c s s').replays } := by
  unfold keepReplay; dsimp only; split <;> rfl

/-- What starting an issue changes. -/
theorem startIssue_eq (s : State) (cu : Cur) (t : Nat) :
    startIssue s cu t = { s with
      cur := none, free := s.free + 1, cores := (startIssue s cu t).cores, quarters := (startIssue s cu t).quarters,
      warps := sset Warp.none s.warps cu.w { getWarp s cu.w with idle := 0 },
      pend := (startIssue s cu t).pend, bnPend := (startIssue s cu t).bnPend } := rfl

end Sys2Proof.Machine
end

