-- ==== Sys2Proof/Laws/Warps.lean ====
section
/-!
SUPPORT. Reads of warps, splits, queues and registers after the updates of Machine/Ops.lean and Machine/Operands.lean.
-/
namespace Sys2Proof.Machine

/-! ### Warps and splits -/

@[simp] theorem getWarp_setWarp_same (s : State) (w : Nat) (x : Warp) : getWarp (setWarp s w x) w = x :=
  sget_sset_same _ _ _ _

theorem getWarp_setWarp_ne (s : State) (w v : Nat) (x : Warp) (h : v ≠ w) : getWarp (setWarp s w x) v = getWarp s v :=
  sget_sset_ne _ _ _ _ _ h

theorem getWarp_setSplit_ne (s : State) (w k v : Nat) (x : Split) (h : v ≠ w) : getWarp (setSplit s w k x) v = getWarp s v :=
  getWarp_setWarp_ne _ _ _ _ h

theorem getWarp_setSplit_same (s : State) (w k : Nat) (x : Split) :
    getWarp (setSplit s w k x) w = { getWarp s w with splits := sset noSplit (getWarp s w).splits k x } :=
  getWarp_setWarp_same _ _ _

@[simp] theorem getSplit_setSplit_same (s : State) (w k : Nat) (x : Split) : getSplit (setSplit s w k x) w k = x := by
  unfold getSplit; rw [getWarp_setSplit_same]; exact sget_sset_same _ _ _ _

theorem getSplit_setSplit_ne (s : State) (w k j : Nat) (x : Split) (h : j ≠ k) :
    getSplit (setSplit s w k x) w j = getSplit s w j := by
  unfold getSplit; rw [getWarp_setSplit_same]; exact sget_sset_ne _ _ _ _ _ h

/-! ### The start of an issue -/

@[simp] theorem getWarp_startIssue_same (s : State) (cu : Cur) (t : Nat) :
    getWarp (startIssue s cu t) cu.w = { getWarp s cu.w with idle := 0 } := by
  unfold getWarp; rw [startIssue_eq]; exact sget_sset_same _ _ _ _

theorem getWarp_startIssue_ne (s : State) (cu : Cur) (t w : Nat) (h : w ≠ cu.w) : getWarp (startIssue s cu t) w = getWarp s w := by
  unfold getWarp; rw [startIssue_eq]; exact sget_sset_ne _ _ _ _ _ h

@[simp] theorem getSplit_startIssue (s : State) (cu : Cur) (t w k : Nat) : getSplit (startIssue s cu t) w k = getSplit s w k := by
  unfold getSplit
  by_cases h : w = cu.w
  · subst h; rw [getWarp_startIssue_same]
  · rw [getWarp_startIssue_ne _ _ _ _ h]

@[simp] theorem rdReg_startIssue (s : State) (cu : Cur) (t w code l : Nat) : rdReg (startIssue s cu t) w code l = rdReg s w code l := rfl
@[simp] theorem getQueue_startIssue (s : State) (cu : Cur) (t w l q : Nat) : getQueue (startIssue s cu t) w l q = getQueue s w l q := rfl
@[simp] theorem startIssue_ops (s : State) (cu : Cur) (t : Nat) : (startIssue s cu t).ops = s.ops := rfl
@[simp] theorem startIssue_blocks (s : State) (cu : Cur) (t : Nat) : (startIssue s cu t).blocks = s.blocks := rfl
@[simp] theorem startIssue_mem (s : State) (cu : Cur) (t : Nat) : (startIssue s cu t).mem = s.mem := rfl

/-! ### Registers -/

theorem vkey_inj {w w' l l' r r' : Nat} (hl : l < 32) (hl' : l' < 32) (hr : r < 192) (hr' : r' < 192) (h : vkey w l r = vkey w' l' r') :
    w = w' ∧ l = l' ∧ r = r' := by
  unfold vkey at h; omega

theorem lkey_inj {w w' l l' : Nat} (hl : l < 32) (hl' : l' < 32) (h : lkey w l = lkey w' l') : w = w' ∧ l = l' := by
  unfold lkey at h; omega

theorem qkey_inj {w w' l l' q q' : Nat} (hl : l < 32) (hl' : l' < 32) (hq : q < 4) (hq' : q' < 4) (h : qkey w l q = qkey w' l' q') :
    w = w' ∧ l = l' ∧ q = q' := by
  unfold qkey at h; omega

theorem mem_lanesOf (m : Mask) (l : Nat) : l ∈ lanesOf m ↔ l < 32 ∧ m.getLsbD l = true := by
  simp [lanesOf]

theorem lanesOf_lt {m : Mask} {l : Nat} (h : l ∈ lanesOf m) : l < 32 := ((mem_lanesOf _ _).1 h).1

theorem lanesOf_nodup (m : Mask) : (lanesOf m).Nodup := List.Nodup.filter _ List.nodup_range

/-- What a list of writes with distinct keys leaves at a key it names. -/
theorem sget_ssetAll_mem {β : Type} [DecidableEq β] (d : β) (ws m : List (Nat × β)) (e : Nat × β) (he : e ∈ ws) (hn : (ws.map (·.1)).Nodup) :
    sget d (ssetAll d m ws) e.1 = e.2 := by
  induction ws generalizing m with
  | nil => cases he
  | cons x r ih =>
    simp only [List.map_cons, List.nodup_cons] at hn
    rcases List.mem_cons.1 he with rfl | h
    · rw [ssetAll, List.foldl_cons, ← ssetAll, sget_ssetAll_ne, sget_sset_same]
      intro y hy hxy
      exact hn.1 (hxy ▸ List.mem_map_of_mem hy)
    · exact ih _ h hn.2

/-- R33, R75: a write to lanes of a register and reads of other registers and lanes. -/
theorem rdReg_wrReg_other (s : State) (w code : Nat) (ws : List (Nat × TWord)) (w' code' l : Nat) (hl : l < 32) (hws : ∀ e ∈ ws, e.1 < 32)
    (h : ¬(w' = w ∧ code' = code ∧ (code < 0xC0 → l ∈ ws.map (·.1)))) : rdReg (wrReg s w code ws) w' code' l = rdReg s w' code' l := by
  unfold wrReg
  split
  · next hc =>
    unfold rdReg
    split
    · next hc' =>
      refine sget_ssetAll_ne _ _ _ _ ?_
      intro e he
      obtain ⟨x, hx, rfl⟩ := List.mem_map.1 he
      intro hk
      obtain ⟨h1, h2, h3⟩ := vkey_inj (hws x hx) hl hc hc' hk
      exact h ⟨h1.symm, h3.symm, fun _ => h2 ▸ List.mem_map_of_mem hx⟩
    · rfl
  · split
    · next hc hc2 =>
      cases ws with
      | nil => rfl
      | cons e r =>
        unfold rdReg
        split
        · rfl
        · split
          · refine sget_sset_ne _ _ _ _ _ ?_
            intro hk
            unfold skey at hk
            exact h ⟨by omega, by omega, fun hx => absurd hx hc⟩
          · rfl
    · rfl

theorem nodup_vkeys (w code : Nat) (ws : List (Nat × TWord)) (hn : (ws.map (·.1)).Nodup) :
    ((ws.map (fun e => (vkey w e.1 code, e.2))).map (·.1)).Nodup := by
  rw [List.map_map]
  induction ws with
  | nil => exact List.nodup_nil
  | cons x r ih =>
    simp only [List.map_cons, List.nodup_cons, List.mem_map, Function.comp] at hn ih ⊢
    refine ⟨?_, ih hn.2⟩
    rintro ⟨y, hy, hk⟩
    refine hn.1 ⟨y, hy, ?_⟩
    unfold vkey at hk
    omega

/-- A written lane of a vector register reads as written. -/
theorem rdReg_wrReg_vector (s : State) (w code : Nat) (ws : List (Nat × TWord)) (l : Nat) (v : TWord) (hc : code < 0xC0)
    (he : (l, v) ∈ ws) (hn : (ws.map (·.1)).Nodup) : rdReg (wrReg s w code ws) w code l = v := by
  have hm : (vkey w l code, v) ∈ ws.map (fun e => (vkey w e.1 code, e.2)) := List.mem_map.2 ⟨(l, v), he, rfl⟩
  have h := sget_ssetAll_mem TWord.zero _ s.vregs _ hm (nodup_vkeys w code ws hn)
  have h1 : wrReg s w code ws = wrV s w code ws := if_pos hc
  have h2 : rdReg (wrV s w code ws) w code l = sget TWord.zero (wrV s w code ws).vregs (vkey w l code) := if_pos hc
  rw [h1, h2]
  exact h

/-- A written scalar register reads as the first word. -/
theorem rdReg_wrReg_scalar (s : State) (w code : Nat) (e : Nat × TWord) (r : List (Nat × TWord)) (l : Nat) (h1 : 0xC0 ≤ code)
    (h2 : code < 0xE0) : rdReg (wrReg s w code (e :: r)) w code l = e.2 := by
  unfold wrReg rdReg
  rw [if_neg (by omega), if_pos h2]
  simp only []
  rw [if_neg (by omega), if_pos h2]
  exact sget_sset_same _ _ _ _

/-! ### Queues -/

theorem getQueue_setQueue_same (s : State) (w l q : Nat) (x : Queue) : getQueue (setQueue s w l q x) w l q = x := sget_sset_same _ _ _ _

theorem getQueue_setQueue_ne (s : State) (w l q w' l' q' : Nat) (x : Queue) (h : qkey w' l' q' ≠ qkey w l q) :
    getQueue (setQueue s w l q x) w' l' q' = getQueue s w' l' q' := sget_sset_ne _ _ _ _ _ h

/-- A fold of updates of the queues is an update of the queues. -/
theorem foldl_queues {α : Type} (f : State → α → State) (hf : ∀ s a, ∃ q, f s a = { s with queues := q }) (l : List α) (s : State) :
    ∃ q, l.foldl f s = { s with queues := q } := by
  induction l generalizing s with
  | nil => exact ⟨s.queues, rfl⟩
  | cons a r ih =>
    obtain ⟨q, h⟩ := hf s a
    rw [List.foldl_cons, h]
    exact ih { s with queues := q }

/-- The pops of a word change the queues only. -/
theorem popAll_eq (s : State) (w : Nat) (m : Mask) (codes : List (BitVec 8)) : ∃ q, popAll s w m codes = { s with queues := q } :=
  foldl_queues _ (fun s _ => foldl_queues _ (fun _ _ => ⟨_, rfl⟩) _ s) _ _

theorem popLanes_other (w q n : Nat) (ls : List Nat) (s : State) (w' l' q' : Nat) (h : ∀ l ∈ ls, qkey w' l' q' ≠ qkey w l q) :
    getQueue (ls.foldl (fun s l => setQueue s w l q (popQueue (getQueue s w l q) n)) s) w' l' q' = getQueue s w' l' q' := by
  induction ls generalizing s with
  | nil => rfl
  | cons a r ih =>
    rw [List.foldl_cons, ih _ (fun l hl => h l (List.mem_cons_of_mem _ hl)), getQueue_setQueue_ne _ _ _ _ _ _ _ _ (h a List.mem_cons_self)]

theorem popLanes_mem (w q n : Nat) (ls : List Nat) (s : State) (l : Nat) (hl : l ∈ ls) (hn : ls.Nodup) (hb : ∀ x ∈ ls, x < 32) (hq : q < 4) :
    getQueue (ls.foldl (fun s l => setQueue s w l q (popQueue (getQueue s w l q) n)) s) w l q = popQueue (getQueue s w l q) n := by
  induction ls generalizing s with
  | nil => cases hl
  | cons a r ih =>
    rw [List.nodup_cons] at hn
    rw [List.foldl_cons]
    rcases List.mem_cons.1 hl with rfl | h
    · rw [popLanes_other, getQueue_setQueue_same]
      intro x hx hk
      have := (qkey_inj (hb l List.mem_cons_self) (hb x (List.mem_cons_of_mem _ hx)) hq hq hk).2.1
      exact hn.1 (this ▸ hx)
    · rw [ih _ h hn.2 (fun x hx => hb x (List.mem_cons_of_mem _ hx)), getQueue_setQueue_ne]
      intro hk
      have := (qkey_inj (hb l hl) (hb a List.mem_cons_self) hq hq hk).2.1
      exact hn.1 (this ▸ h)

/-- R199: what the pops of a word leave in a queue. -/
theorem getQueue_popAll (s : State) (w : Nat) (m : Mask) (codes : List (BitVec 8)) (w' l q : Nat) (hl : l < 32) (hq : q < 4) :
    getQueue (popAll s w m codes) w' l q =
      if w' = w ∧ m.getLsbD l = true ∧ popCount codes q ≠ 0 then popQueue (getQueue s w l q) (popCount codes q) else getQueue s w' l q := by
  have hother : ∀ (qs : List Nat) (s : State), (∀ q' ∈ qs, q' < 4) → (w' = w ∧ m.getLsbD l = true → q ∉ qs) →
      getQueue (qs.foldl (fun s q => (lanesOf m).foldl (fun s l => setQueue s w l q (popQueue (getQueue s w l q) (popCount codes q))) s) s) w' l q =
        getQueue s w' l q := by
    intro qs
    induction qs with
    | nil => intro s _ _; rfl
    | cons a r ih =>
      intro s h4 h
      rw [List.foldl_cons, ih _ (fun x hx => h4 x (List.mem_cons_of_mem _ hx)) (fun hw hm => h hw (List.mem_cons_of_mem _ hm)), popLanes_other]
      intro x hx hk
      obtain ⟨h1, h2, h3⟩ := qkey_inj hl (lanesOf_lt hx) hq (h4 a List.mem_cons_self) hk
      exact h ⟨h1, h2 ▸ ((mem_lanesOf _ _).1 hx).2⟩ (h3 ▸ List.mem_cons_self)
  have hqs : ∀ x ∈ queuesOf codes, x < 4 := fun x hx => by simp [queuesOf] at hx; exact hx.1
  unfold popAll
  split
  · next hc =>
    obtain ⟨rfl, hm, hp⟩ := hc
    have hmem : q ∈ queuesOf codes := by simp [queuesOf, hq, hp]
    have hnd : (queuesOf codes).Nodup := List.Nodup.filter _ List.nodup_range
    have key : ∀ (qs : List Nat) (s : State), (∀ q' ∈ qs, q' < 4) → qs.Nodup → q ∈ qs →
        getQueue (qs.foldl (fun s q => (lanesOf m).foldl (fun s l => setQueue s w' l q (popQueue (getQueue s w' l q) (popCount codes q))) s) s) w' l q =
          popQueue (getQueue s w' l q) (popCount codes q) := by
      intro qs
      induction qs with
      | nil => intro s _ _ h; cases h
      | cons a r ih =>
        intro s h4 hnd h
        rw [List.nodup_cons] at hnd
        rw [List.foldl_cons]
        rcases List.mem_cons.1 h with rfl | h'
        · rw [hother r _ (fun x hx => h4 x (List.mem_cons_of_mem _ hx)) (fun _ => hnd.1)]
          exact popLanes_mem _ _ _ _ _ _ ((mem_lanesOf _ _).2 ⟨hl, hm⟩) (lanesOf_nodup m) (fun x hx => lanesOf_lt hx) hq
        · rw [ih _ (fun x hx => h4 x (List.mem_cons_of_mem _ hx)) hnd.2 h', popLanes_other]
          intro x hx hk
          have := (qkey_inj hl (lanesOf_lt hx) hq (h4 a List.mem_cons_self) hk).2.2
          exact hnd.1 (this ▸ h')
    exact key _ _ hqs hnd hmem
  · next hc =>
    refine hother _ _ hqs ?_
    intro hw hmem
    refine hc ⟨hw.1, hw.2, ?_⟩
    simp [queuesOf] at hmem
    exact hmem.2

end Sys2Proof.Machine
end

