-- ==== Sys2Proof/Laws/Lanes.lean ====
section
/-!
SUPPORT. What a fixed-latency word does to the lanes of a register.
-/
namespace Sys2Proof.Machine

@[simp] theorem isQ_iff (x : BitVec 8) : isQ x = true ↔ 0xE0 ≤ x.toNat ∧ x.toNat < 0xE4 := by simp [isQ]

theorem spreadLanes_lanes (c : Ctx) (s : State) (g : TWord → TWord → TWord → TWord → LaneRes) :
    (spreadLanes c (laneResults c s g)).map (·.1) = lanesOf c.sp.mask := by
  unfold spreadLanes laneResults computeLanes
  split
  · cases h : lanesOf c.sp.mask with
    | nil => rfl
    | cons a r =>
      simp only [List.take_succ_cons, List.map_cons, List.take_zero, List.map_nil, List.map_map]
      exact congrArg _ (List.map_id r)
  · rw [List.map_map]; exact List.map_id _

/-- The lanes' results as claims list them. -/
theorem spread_perLane (spec : OpSpec) (f : Fields) (s : State) (cu : Cur) (g : Nat → LaneRes) :
    spreadLanes (ctxOf spec f s cu) ((computeLanes (ctxOf spec f s cu)).map (fun l => (l, g l))) = perLane f s cu g := by
  unfold spreadLanes computeLanes perLane activeLanes
  simp only [ctxOf_f, ctxOf_sp]
  by_cases hS : isS f.d = true
  · simp only [hS, if_true]
    cases h : lanesOf (getSplit s cu.w cu.k).mask with
    | nil => rfl
    | cons a r =>
      have hl : lowLane (getSplit s cu.w cu.k).mask = a := by unfold lowLane; rw [h]; rfl
      rw [hl]
      rfl
  · simp only [hS, Bool.false_eq_true, if_false]

/-- R75: under a scalar destination every lane has the same result. -/
theorem spreadLanes_scalar (c : Ctx) (rs : List (Nat × LaneRes)) (h : isS c.f.d = true) (e e' : Nat × LaneRes) (he : e ∈ spreadLanes c rs)
    (he' : e' ∈ spreadLanes c rs) : e.2 = e'.2 := by
  unfold spreadLanes at he he'
  rw [if_pos h] at he he'
  cases rs with
  | nil => cases he
  | cons x r =>
    obtain ⟨_, _, rfl⟩ := List.mem_map.1 he
    obtain ⟨_, _, rfl⟩ := List.mem_map.1 he'
    rfl

theorem lanesTrap_none (fcr : Word) (rs : List (Nat × LaneRes)) (h : lanesTrap fcr rs = none) : ∀ e ∈ rs, laneTraps fcr e.2 = false := by
  intro e he
  by_contra hc
  have hm : e ∈ rs.filter (fun e => laneTraps fcr e.2) := List.mem_filter.2 ⟨he, by simpa using hc⟩
  unfold lanesTrap at h
  revert h
  cases hb : rs.filter (fun e => laneTraps fcr e.2) with
  | nil => rw [hb] at hm; cases hm
  | cons a r => simp only []; split <;> simp

theorem lanesTrap_of (fcr : Word) (rs : List (Nat × LaneRes)) (h : ∀ e ∈ rs, laneTraps fcr e.2 = false) : lanesTrap fcr rs = none := by
  have : rs.filter (fun e => laneTraps fcr e.2) = [] := List.filter_eq_nil_iff.2 fun e he => by simp [h e he]
  unfold lanesTrap
  rw [this]

theorem filter_good (fcr : Word) (rs : List (Nat × LaneRes)) (h : ∀ e ∈ rs, laneTraps fcr e.2 = false) :
    rs.filter (fun e => !laneTraps fcr e.2) = rs := List.filter_eq_self.2 fun e he => by simp [h e he]

/-- The flags after sticky flags have been set. -/
theorem orFsr_at (s : State) (w : Nat) (fl : List (Nat × BitVec 6)) (e : Nat × BitVec 6) (he : e ∈ fl) (hn : (fl.map (·.1)).Nodup) :
    sget 0#6 (orFsr s w fl).fsr (lkey w e.1) = sget 0#6 s.fsr (lkey w e.1) ||| e.2 := by
  have hm : (lkey w e.1, sget 0#6 s.fsr (lkey w e.1) ||| e.2) ∈ fl.map (fun e => (lkey w e.1, sget 0#6 s.fsr (lkey w e.1) ||| e.2)) :=
    List.mem_map.2 ⟨e, he, rfl⟩
  refine sget_ssetAll_mem 0#6 _ s.fsr _ hm ?_
  rw [List.map_map]
  have : (fl.map (fun e => lkey w e.1)) = (fl.map (·.1)).map (lkey w) := by rw [List.map_map]; rfl
  change (fl.map (fun e => lkey w e.1)).Nodup
  rw [this]
  exact hn.map (fun a b h => by unfold lkey at h; omega)

theorem orFsr_other (s : State) (w : Nat) (fl : List (Nat × BitVec 6)) (k : Nat) (h : ∀ e ∈ fl, lkey w e.1 ≠ k) :
    sget 0#6 (orFsr s w fl).fsr k = sget 0#6 s.fsr k := by
  refine sget_ssetAll_ne _ _ _ _ ?_
  intro e he
  obtain ⟨x, hx, rfl⟩ := List.mem_map.1 he
  exact h x hx

/-- A register write changes registers only. -/
theorem wrReg_eq (s : State) (w code : Nat) (ws : List (Nat × TWord)) : ∃ v r, wrReg s w code ws = { s with vregs := v, sregs := r } := by
  unfold wrReg
  split
  · exact ⟨_, s.sregs, rfl⟩
  · split
    · cases ws with
      | nil => exact ⟨s.vregs, s.sregs, rfl⟩
      | cons e r => exact ⟨s.vregs, _, rfl⟩
    · exact ⟨s.vregs, s.sregs, rfl⟩

theorem rdReg_killDst (s : State) (w code : Nat) (ls : List Nat) (w' r l : Nat) : rdReg (killDst s w code ls) w' r l = rdReg s w' r l := rfl

theorem killDst_keeps (s : State) (w code : Nat) (ls : List Nat) : KeepsOps s (killDst s w code ls) := by
  unfold KeepsOps killDst
  simp only [List.map_map]
  refine List.map_congr_left fun o _ => ?_
  simp only [Function.comp]
  split <;> rfl

/-- The register part of a write depends on the registers only. -/
theorem wrReg_withPend (s : State) (p : List Pend) (w code : Nat) (ws : List (Nat × TWord)) :
    wrReg { s with pend := p } w code ws = { wrReg s w code ws with pend := p } := by
  unfold wrReg
  split
  · rfl
  · split
    · cases ws <;> rfl
    · rfl

/-- A fixed-latency write to a register: the registers, the pending writes, the destinations of operations. -/
theorem writeFixed_reg (s : State) (w code t lat : Nat) (ws : List (Nat × TWord)) (h : code < 0xE0) :
    ∃ p, writeFixed s w code t lat ws =
      killDst { wrReg s w code ws with pend := p } w code (ws.map (fun e => regLane code e.1)) := by
  unfold writeFixed
  rw [if_pos h]
  exact ⟨_, by simp only [killPend, wrReg_withPend]; rfl⟩

theorem writeFixed_none (s : State) (w code t lat : Nat) (ws : List (Nat × TWord)) (h : ¬code < 0xE0) :
    writeFixed s w code t lat ws = s := if_neg h

theorem writeFixed_eq (s : State) (w code t lat : Nat) (ws : List (Nat × TWord)) :
    ∃ v r p o, writeFixed s w code t lat ws = { s with vregs := v, sregs := r, pend := p, ops := o } := by
  by_cases h : code < 0xE0
  · obtain ⟨p, hp⟩ := writeFixed_reg s w code t lat ws h
    obtain ⟨v, r, hr⟩ := wrReg_eq s w code ws
    rw [hp, hr]
    exact ⟨v, r, p, _, rfl⟩
  · rw [writeFixed_none _ _ _ _ _ _ h]
    exact ⟨s.vregs, s.sregs, s.pend, s.ops, rfl⟩

theorem writeFixed_ops (s : State) (w code t lat : Nat) (ws : List (Nat × TWord)) : KeepsOps s (writeFixed s w code t lat ws) := by
  by_cases h : code < 0xE0
  · obtain ⟨p, hp⟩ := writeFixed_reg s w code t lat ws h
    obtain ⟨v, r, hr⟩ := wrReg_eq s w code ws
    rw [hp, hr]
    exact killDst_keeps _ _ _ _
  · rw [writeFixed_none _ _ _ _ _ _ h]; exact rfl

theorem rdReg_writeFixed (s : State) (w code t lat : Nat) (ws : List (Nat × TWord)) (w' r l : Nat) :
    rdReg (writeFixed s w code t lat ws) w' r l = if code < 0xE0 then rdReg (wrReg s w code ws) w' r l else rdReg s w' r l := by
  by_cases h : code < 0xE0
  · obtain ⟨p, hp⟩ := writeFixed_reg s w code t lat ws h
    rw [hp, if_pos h]; rfl
  · rw [writeFixed_none _ _ _ _ _ _ h, if_neg h]

/-- Going on with the next word. -/
theorem advance_eq (c : Ctx) (s : State) :
    advance c s = setSplit s c.w c.k { stepSplit (getSplit s c.w c.k) with next := c.t + stallOf c.f } := rfl

/-- The split's own progress after a word that changed no warp. -/
theorem goes_advance (spec : OpSpec) (f : Fields) (s : State) (cu : Cur) (u : State) (hu : u.warps = (atIssue s cu).warps) :
    Goes f s cu (advance (ctxOf spec f s cu) u) := by
  have hw : ∀ w, getWarp u w = getWarp (atIssue s cu) w := fun w => by unfold getWarp; rw [hu]
  have hs : ∀ w k, getSplit u w k = getSplit s w k := fun w k => by
    unfold getSplit; rw [hw]; exact getSplit_startIssue s cu _ w k
  rw [advance_eq]
  refine ⟨fun w h => ?_, ?_, ?_, fun k h => ?_⟩
  · rw [ctxOf_w, getWarp_setSplit_ne _ _ _ _ _ h, hw]; exact getWarp_startIssue_ne _ _ _ _ h
  · rw [ctxOf_w, getWarp_setSplit_same, hw]
    unfold atIssue
    rw [getWarp_startIssue_same]
  · rw [ctxOf_w, ctxOf_k, getSplit_setSplit_same, hs]; rfl
  · rw [ctxOf_w, ctxOf_k, getSplit_setSplit_ne _ _ _ _ _ h, hs]

/-- A kept replay changes nothing that a claim about lanes reads. -/
theorem laneDone_keepReplay (spec : OpSpec) (c : Ctx) (s1 : State) (reads : List (BitVec 8)) (f : Fields) (s : State) (cu : Cur)
    (rs : List (Nat × LaneRes)) (t : State) (h : LaneDone reads f s cu rs t) : LaneDone reads f s cu rs (keepReplay spec c s1 t) := by
  rw [keepReplay_eq]
  exact ⟨h.value, h.regs, h.flags, h.otherFlags, h.queues, h.ops, ⟨h.goes.others, h.goes.warp, h.goes.split, h.goes.rest⟩, by rw [h.frame]⟩

/-- What writing the results of all lanes leaves, when no lane traps. -/
theorem finishFixed_done (spec : OpSpec) (lat : Nat) (f : Fields) (s : State) (cu : Cur) (codes : List (BitVec 8)) (rs : List (Nat × LaneRes))
    (u : State) (hu : ∃ q, u = { atIssue s cu with quarters := q })
    (hl : (spreadLanes (ctxOf spec f s cu) rs).map (·.1) = lanesOf (getSplit s cu.w cu.k).mask)
    (ht : lanesTrap (getWarp s cu.w).fcr (spreadLanes (ctxOf spec f s cu) rs) = none) :
    LaneDone codes f s cu (spreadLanes (ctxOf spec f s cu) rs)
      (finishFixed (ctxOf spec f s cu) lat rs (popAll u cu.w (getSplit s cu.w cu.k).mask codes)) := by
  obtain ⟨qs, hu⟩ := hu
  obtain ⟨q, hq⟩ := popAll_eq u cu.w (getSplit s cu.w cu.k).mask codes
  set c := ctxOf spec f s cu with hc
  set all := spreadLanes c rs with hall
  have hf : (getWarp (popAll u cu.w (getSplit s cu.w cu.k).mask codes) c.w).fcr = (getWarp s cu.w).fcr := by
    rw [hq, hu]
    show (getWarp (startIssue s cu (issueTime s cu.w cu.k)) cu.w).fcr = _
    rw [getWarp_startIssue_same]
  have hgood := filter_good _ _ (lanesTrap_none _ _ ht)
  have hnd : (all.map (·.1)).Nodup := hl ▸ lanesOf_nodup _
  have hlt : ∀ e ∈ all, e.1 < 32 := fun e he => lanesOf_lt (hl ▸ List.mem_map_of_mem he)
  have hact : ∀ e ∈ all, (getSplit s cu.w cu.k).mask.getLsbD e.1 = true := fun e he => ((mem_lanesOf _ _).1 (hl ▸ List.mem_map_of_mem he)).2
  have hfin : finishFixed c lat rs (popAll u cu.w (getSplit s cu.w cu.k).mask codes) =
      advance c (writeFixed (orFsr (popAll u cu.w (getSplit s cu.w cu.k).mask codes) cu.w
        ((all.filter (fun e => e.2.fl ≠ 0)).map (fun e => (e.1, e.2.fl)))) cu.w f.d.toNat c.t lat (all.map (fun e => (e.1, e.2.val)))) := by
    unfold finishFixed
    simp only [hf, ← hall, ht, hgood]
    rfl
  rw [hfin]
  set fl := (all.filter (fun e => e.2.fl ≠ 0)).map (fun e => (e.1, e.2.fl)) with hfl
  set vs := all.map (fun e => (e.1, e.2.val)) with hvs
  have hvl : vs.map (·.1) = all.map (·.1) := by rw [hvs, List.map_map]; rfl
  obtain ⟨v, r, p, o, hwf⟩ := writeFixed_eq (orFsr (popAll u cu.w (getSplit s cu.w cu.k).mask codes) cu.w fl) cu.w f.d.toNat c.t lat vs
  have hops := writeFixed_ops (orFsr (popAll u cu.w (getSplit s cu.w cu.k).mask codes) cu.w fl) cu.w f.d.toNat c.t lat vs
  have hrd := rdReg_writeFixed (orFsr (popAll u cu.w (getSplit s cu.w cu.k).mask codes) cu.w fl) cu.w f.d.toNat c.t lat vs
  have hbase : ∀ w code l, rdReg (orFsr (popAll u cu.w (getSplit s cu.w cu.k).mask codes) cu.w fl) w code l = rdReg s w code l := by
    intro w code l; rw [hq, hu]; rfl
  have hadv : ∀ u : State, ∀ w code l, rdReg (advance c u) w code l = rdReg u w code l := fun _ _ _ _ => rfl
  refine ⟨?_, ?_, ?_, ?_, ?_, ?_, ?_, ?_⟩
  · intro e he hd
    rw [hadv, hrd, if_pos hd]
    have hin : (e.1, e.2.val) ∈ vs := List.mem_map.2 ⟨e, he, rfl⟩
    by_cases hv : f.d.toNat < 0xC0
    · exact rdReg_wrReg_vector _ _ _ _ _ _ hv hin (hvl ▸ hnd)
    · have hS : isS c.f.d = true := by
        show isS f.d = true
        simp [isS]; omega
      match hm : vs with
      | [] => rw [hm] at hin; cases hin
      | x :: xs =>
        rw [rdReg_wrReg_scalar _ _ _ _ _ _ (by omega) hd]
        have hx : x ∈ vs := by rw [hm]; exact List.mem_cons_self
        obtain ⟨y, hy, rfl⟩ := List.mem_map.1 hx
        exact congrArg LaneRes.val (spreadLanes_scalar c rs hS y e hy he)
  · intro w code l hl32 hne
    rw [hadv, hrd]
    split
    · rw [rdReg_wrReg_other, hbase]
      · exact hl32
      · intro e he
        obtain ⟨y, hy, rfl⟩ := List.mem_map.1 he
        exact hlt y hy
      · rintro ⟨h1, h2, h3⟩
        refine hne ⟨h1, h2, fun h => ?_⟩
        have := h3 h
        rw [hvl] at this
        obtain ⟨y, hy, rfl⟩ := List.mem_map.1 this
        exact hact y hy
    · exact hbase _ _ _
  · intro e he
    have h1 : (advance c (writeFixed (orFsr (popAll u cu.w (getSplit s cu.w cu.k).mask codes) cu.w fl) cu.w f.d.toNat c.t lat vs)).fsr =
        (orFsr (popAll u cu.w (getSplit s cu.w cu.k).mask codes) cu.w fl).fsr := by rw [hwf]; rfl
    rw [h1]
    have h0 : (popAll u cu.w (getSplit s cu.w cu.k).mask codes).fsr = s.fsr := by rw [hq, hu]; rfl
    have hfn : (fl.map (·.1)).Nodup := by
      rw [hfl, List.map_map]
      exact List.Nodup.sublist (List.Sublist.map _ List.filter_sublist) hnd
    by_cases hz : e.2.fl = 0
    · rw [orFsr_other, h0, hz]
      · simp
      · intro x hx hk
        obtain ⟨y, hy, rfl⟩ := List.mem_map.1 hx
        obtain ⟨hy1, hy2⟩ := List.mem_filter.1 hy
        obtain ⟨-, hk⟩ := lkey_inj (hlt y hy1) (hlt e he) hk
        have : y = e := List.inj_on_of_nodup_map hnd hy1 he hk
        subst this
        simp [hz] at hy2
    · rw [← h0]
      exact orFsr_at _ _ _ (e.1, e.2.fl) (List.mem_map.2 ⟨e, List.mem_filter.2 ⟨he, by simpa using hz⟩, rfl⟩) hfn
  · intro w l hl32 hne
    have h1 : (advance c (writeFixed (orFsr (popAll u cu.w (getSplit s cu.w cu.k).mask codes) cu.w fl) cu.w f.d.toNat c.t lat vs)).fsr =
        (orFsr (popAll u cu.w (getSplit s cu.w cu.k).mask codes) cu.w fl).fsr := by rw [hwf]; rfl
    have h0 : (popAll u cu.w (getSplit s cu.w cu.k).mask codes).fsr = s.fsr := by rw [hq, hu]; rfl
    rw [h1, orFsr_other, h0]
    intro x hx hk
    obtain ⟨y, hy, rfl⟩ := List.mem_map.1 hx
    obtain ⟨hy1, -⟩ := List.mem_filter.1 hy
    obtain ⟨h2, h3⟩ := lkey_inj (hlt y hy1) hl32 hk
    exact hne ⟨h2.symm, h3 ▸ hact y hy1⟩
  · intro w l n hl32 hn
    have h1 : getQueue (advance c (writeFixed (orFsr (popAll u cu.w (getSplit s cu.w cu.k).mask codes) cu.w fl) cu.w f.d.toNat c.t lat vs)) w l n =
        getQueue (popAll u cu.w (getSplit s cu.w cu.k).mask codes) w l n := by rw [hwf]; rfl
    rw [h1]
    rw [getQueue_popAll _ _ _ _ _ _ _ hl32 hn, hu]
    exact if_congr Iff.rfl rfl rfl
  · refine Eq.trans (b := (writeFixed (orFsr (popAll u cu.w (getSplit s cu.w cu.k).mask codes) cu.w fl) cu.w f.d.toNat c.t lat vs).ops.map
      (fun o => { o with dst := [] })) rfl ?_
    refine Eq.trans hops ?_
    rw [hq, hu]; rfl
  · refine goes_advance spec f s cu _ ?_
    rw [hwf, hq, hu]; rfl
  · rw [hwf, hq, hu]; rfl

/-- A fixed-latency word of class A whose conditions are met. -/
theorem laneExec_done (spec : OpSpec) (lat : Nat) (g : Ctx → State → TWord → TWord → TWord → TWord → LaneRes) (f : Fields) (s : State) (cu : Cur)
    (h : issues spec f s cu = true) (hd : isQ f.d = false)
    (ht : lanesTrap (getWarp s cu.w).fcr (spreadLanes (ctxOf spec f s cu)
      (laneResults (ctxOf spec f s cu) (atIssue s cu) (g (ctxOf spec f s cu) (atIssue s cu)))) = none) :
    ∃ t, laneExec spec lat g f s = .next t ∧ LaneDone (spec.reads f) f s cu (spreadLanes (ctxOf spec f s cu)
      (laneResults (ctxOf spec f s cu) (atIssue s cu) (g (ctxOf spec f s cu) (atIssue s cu)))) t := by
  refine ⟨_, issue_of_issues spec f s _ cu h, laneDone_keepReplay _ _ _ _ _ _ _ _ _ ?_⟩
  unfold laneBody
  simp only [ctxOf_f, hd, Bool.false_eq_true, if_false]
  exact finishFixed_done spec lat f s cu _ _ _ ⟨_, rfl⟩ (spreadLanes_lanes _ _ _) ht

/-- The same in the words of the claims: each lane's result is `g`, and no lane traps. -/
theorem laneExec_perLane (spec : OpSpec) (lat : Nat) (g : Ctx → State → TWord → TWord → TWord → TWord → LaneRes) (f : Fields) (s : State)
    (cu : Cur) (h : issues spec f s cu = true) (hd : isQ f.d = false) (v : Nat → LaneRes)
    (hv : ∀ l, g (ctxOf spec f s cu) (atIssue s cu) (inA spec f s cu l) (inB spec f s cu l) (inC spec f s cu l) (oldOf f s cu l) = v l)
    (ht : ∀ e ∈ perLane f s cu v, laneTraps (getWarp s cu.w).fcr e.2 = false) :
    ∃ t, laneExec spec lat g f s = .next t ∧ LaneDone (spec.reads f) f s cu (perLane f s cu v) t := by
  have hr : spreadLanes (ctxOf spec f s cu) (laneResults (ctxOf spec f s cu) (atIssue s cu) (g (ctxOf spec f s cu) (atIssue s cu))) =
      perLane f s cu v := by
    unfold laneResults
    rw [← spread_perLane spec]
    exact congrArg _ (List.map_congr_left fun l _ => congrArg (Prod.mk l) (hv l))
  have := laneExec_done spec lat g f s cu h hd (by rw [hr]; exact lanesTrap_of _ _ ht)
  rwa [hr] at this

/-- A fixed-latency cross-lane word. -/
theorem crossExec_perLane (spec : OpSpec) (lat : Nat) (g : Ctx → State → Nat → LaneRes) (f : Fields) (s : State) (cu : Cur)
    (h : issues spec f s cu = true) (hd : isQ f.d = false)
    (ht : ∀ e ∈ perLane f s cu (g (ctxOf spec f s cu) (atIssue s cu)), laneTraps (getWarp s cu.w).fcr e.2 = false) :
    ∃ t, crossExec spec lat g f s = .next t ∧ LaneDone (spec.reads f) f s cu (perLane f s cu (g (ctxOf spec f s cu) (atIssue s cu))) t := by
  refine ⟨_, issue_of_issues spec f s _ cu h, laneDone_keepReplay _ _ _ _ _ _ _ _ _ ?_⟩
  unfold crossBody
  simp only [ctxOf_f, hd, Bool.false_eq_true, if_false]
  rw [← spread_perLane spec] at ht ⊢
  refine finishFixed_done spec lat f s cu _ _ _ ⟨_, rfl⟩ ?_ (lanesTrap_of _ _ ht)
  rw [spread_perLane]
  exact (List.map_map).trans (List.map_id _)

/-- div and rem (R82): a divider that is free by the issue time. -/
theorem divExec_perLane (spec : OpSpec) (rem : Bool) (f : Fields) (s : State) (cu : Cur) (h : issues spec f s cu = true) (hd : isQ f.d = false)
    (hb : divFree s cu ≤ issueTime s cu.w cu.k) (v : Nat → LaneRes)
    (hv : ∀ l, divRes rem (ctxOf spec f s cu) (atIssue s cu) (inA spec f s cu l) (inB spec f s cu l) (inC spec f s cu l) (oldOf f s cu l) = v l)
    (ht : ∀ e ∈ perLane f s cu v, laneTraps (getWarp s cu.w).fcr e.2 = false) :
    ∃ t, divExec spec rem f s = .next t ∧ LaneDone (spec.reads f) f s cu (perLane f s cu v) t := by
  have hc : s.cur = some cu := cur_of_issues h
  unfold divExec
  rw [hc]
  simp only []
  rw [if_neg (by omega)]
  refine ⟨_, issue_of_issues spec f s _ cu h, laneDone_keepReplay _ _ _ _ _ _ _ _ _ ?_⟩
  unfold laneBody
  simp only [ctxOf_f, hd, Bool.false_eq_true, if_false]
  have hr : spreadLanes (ctxOf spec f s cu) (laneResults (ctxOf spec f s cu) (divTake (ctxOf spec f s cu) (atIssue s cu))
      (divRes rem (ctxOf spec f s cu) (divTake (ctxOf spec f s cu) (atIssue s cu)))) = perLane f s cu v := by
    unfold laneResults
    rw [← spread_perLane spec]
    exact congrArg _ (List.map_congr_left fun l _ => congrArg (Prod.mk l) (hv l))
  rw [← hr] at ht ⊢
  exact finishFixed_done spec 3 f s cu _ _ _ ⟨_, rfl⟩ (spreadLanes_lanes _ _ _) (lanesTrap_of _ _ ht)

end Sys2Proof.Machine
end

