-- ==== Sys2Proof/Laws/Frames.lean ====
section
/-!
SUPPORT. What the operations leave alone whose effect depends on their operands: one lemma for each field.
-/
namespace Sys2Proof.Machine

theorem writeNow_eq (s : State) (w code : Nat) (ws : List (Nat × TWord)) :
    ∃ v r p o, writeNow s w code ws = { s with vregs := v, sregs := r, pend := p, ops := o } := by
  obtain ⟨v, r, h⟩ := wrReg_eq (killPend s w code 0 (ws.map (fun e => regLane code e.1))) w code ws
  unfold writeNow
  simp only [h]
  exact ⟨v, r, _, _, rfl⟩

theorem keepReplay_ex (spec : OpSpec) (c : Ctx) (s1 s : State) : ∃ r, keepReplay spec c s1 s = { s with replays := r } :=
  ⟨_, keepReplay_eq spec c s1 s⟩

/-! ### popAll -/

@[simp] theorem popAll_agenda (s : State) (w : Nat) (m : Mask) (codes : List (BitVec 8)) : (popAll s w m codes).agenda = s.agenda := by obtain ⟨_, h⟩ := popAll_eq s w m codes; rw [h]
@[simp] theorem popAll_cur (s : State) (w : Nat) (m : Mask) (codes : List (BitVec 8)) : (popAll s w m codes).cur = s.cur := by obtain ⟨_, h⟩ := popAll_eq s w m codes; rw [h]
@[simp] theorem popAll_cur2 (s : State) (w : Nat) (m : Mask) (codes : List (BitVec 8)) : (popAll s w m codes).cur2 = s.cur2 := by obtain ⟨_, h⟩ := popAll_eq s w m codes; rw [h]
@[simp] theorem popAll_free (s : State) (w : Nat) (m : Mask) (codes : List (BitVec 8)) : (popAll s w m codes).free = s.free := by obtain ⟨_, h⟩ := popAll_eq s w m codes; rw [h]
@[simp] theorem popAll_nextOp (s : State) (w : Nat) (m : Mask) (codes : List (BitVec 8)) : (popAll s w m codes).nextOp = s.nextOp := by obtain ⟨_, h⟩ := popAll_eq s w m codes; rw [h]
@[simp] theorem popAll_nextBlk (s : State) (w : Nat) (m : Mask) (codes : List (BitVec 8)) : (popAll s w m codes).nextBlk = s.nextBlk := by obtain ⟨_, h⟩ := popAll_eq s w m codes; rw [h]
@[simp] theorem popAll_vregs (s : State) (w : Nat) (m : Mask) (codes : List (BitVec 8)) : (popAll s w m codes).vregs = s.vregs := by obtain ⟨_, h⟩ := popAll_eq s w m codes; rw [h]
@[simp] theorem popAll_sregs (s : State) (w : Nat) (m : Mask) (codes : List (BitVec 8)) : (popAll s w m codes).sregs = s.sregs := by obtain ⟨_, h⟩ := popAll_eq s w m codes; rw [h]
@[simp] theorem popAll_fsr (s : State) (w : Nat) (m : Mask) (codes : List (BitVec 8)) : (popAll s w m codes).fsr = s.fsr := by obtain ⟨_, h⟩ := popAll_eq s w m codes; rw [h]
@[simp] theorem popAll_tval (s : State) (w : Nat) (m : Mask) (codes : List (BitVec 8)) : (popAll s w m codes).tval = s.tval := by obtain ⟨_, h⟩ := popAll_eq s w m codes; rw [h]
@[simp] theorem popAll_sval (s : State) (w : Nat) (m : Mask) (codes : List (BitVec 8)) : (popAll s w m codes).sval = s.sval := by obtain ⟨_, h⟩ := popAll_eq s w m codes; rw [h]
@[simp] theorem popAll_bn (s : State) (w : Nat) (m : Mask) (codes : List (BitVec 8)) : (popAll s w m codes).bn = s.bn := by obtain ⟨_, h⟩ := popAll_eq s w m codes; rw [h]
@[simp] theorem popAll_warps (s : State) (w : Nat) (m : Mask) (codes : List (BitVec 8)) : (popAll s w m codes).warps = s.warps := by obtain ⟨_, h⟩ := popAll_eq s w m codes; rw [h]
@[simp] theorem popAll_blocks (s : State) (w : Nat) (m : Mask) (codes : List (BitVec 8)) : (popAll s w m codes).blocks = s.blocks := by obtain ⟨_, h⟩ := popAll_eq s w m codes; rw [h]
@[simp] theorem popAll_ops (s : State) (w : Nat) (m : Mask) (codes : List (BitVec 8)) : (popAll s w m codes).ops = s.ops := by obtain ⟨_, h⟩ := popAll_eq s w m codes; rw [h]
@[simp] theorem popAll_pend (s : State) (w : Nat) (m : Mask) (codes : List (BitVec 8)) : (popAll s w m codes).pend = s.pend := by obtain ⟨_, h⟩ := popAll_eq s w m codes; rw [h]
@[simp] theorem popAll_bnPend (s : State) (w : Nat) (m : Mask) (codes : List (BitVec 8)) : (popAll s w m codes).bnPend = s.bnPend := by obtain ⟨_, h⟩ := popAll_eq s w m codes; rw [h]
@[simp] theorem popAll_cores (s : State) (w : Nat) (m : Mask) (codes : List (BitVec 8)) : (popAll s w m codes).cores = s.cores := by obtain ⟨_, h⟩ := popAll_eq s w m codes; rw [h]
@[simp] theorem popAll_quarters (s : State) (w : Nat) (m : Mask) (codes : List (BitVec 8)) : (popAll s w m codes).quarters = s.quarters := by obtain ⟨_, h⟩ := popAll_eq s w m codes; rw [h]
@[simp] theorem popAll_growQ (s : State) (w : Nat) (m : Mask) (codes : List (BitVec 8)) : (popAll s w m codes).growQ = s.growQ := by obtain ⟨_, h⟩ := popAll_eq s w m codes; rw [h]
@[simp] theorem popAll_dies (s : State) (w : Nat) (m : Mask) (codes : List (BitVec 8)) : (popAll s w m codes).dies = s.dies := by obtain ⟨_, h⟩ := popAll_eq s w m codes; rw [h]
@[simp] theorem popAll_pkg (s : State) (w : Nat) (m : Mask) (codes : List (BitVec 8)) : (popAll s w m codes).pkg = s.pkg := by obtain ⟨_, h⟩ := popAll_eq s w m codes; rw [h]
@[simp] theorem popAll_tlb (s : State) (w : Nat) (m : Mask) (codes : List (BitVec 8)) : (popAll s w m codes).tlb = s.tlb := by obtain ⟨_, h⟩ := popAll_eq s w m codes; rw [h]
@[simp] theorem popAll_owners (s : State) (w : Nat) (m : Mask) (codes : List (BitVec 8)) : (popAll s w m codes).owners = s.owners := by obtain ⟨_, h⟩ := popAll_eq s w m codes; rw [h]
@[simp] theorem popAll_poison (s : State) (w : Nat) (m : Mask) (codes : List (BitVec 8)) : (popAll s w m codes).poison = s.poison := by obtain ⟨_, h⟩ := popAll_eq s w m codes; rw [h]
@[simp] theorem popAll_frozen (s : State) (w : Nat) (m : Mask) (codes : List (BitVec 8)) : (popAll s w m codes).frozen = s.frozen := by obtain ⟨_, h⟩ := popAll_eq s w m codes; rw [h]
@[simp] theorem popAll_swc (s : State) (w : Nat) (m : Mask) (codes : List (BitVec 8)) : (popAll s w m codes).swc = s.swc := by obtain ⟨_, h⟩ := popAll_eq s w m codes; rw [h]
@[simp] theorem popAll_dcLru (s : State) (w : Nat) (m : Mask) (codes : List (BitVec 8)) : (popAll s w m codes).dcLru = s.dcLru := by obtain ⟨_, h⟩ := popAll_eq s w m codes; rw [h]
@[simp] theorem popAll_poolOld (s : State) (w : Nat) (m : Mask) (codes : List (BitVec 8)) : (popAll s w m codes).poolOld = s.poolOld := by obtain ⟨_, h⟩ := popAll_eq s w m codes; rw [h]
@[simp] theorem popAll_prov (s : State) (w : Nat) (m : Mask) (codes : List (BitVec 8)) : (popAll s w m codes).prov = s.prov := by obtain ⟨_, h⟩ := popAll_eq s w m codes; rw [h]
@[simp] theorem popAll_granules (s : State) (w : Nat) (m : Mask) (codes : List (BitVec 8)) : (popAll s w m codes).granules = s.granules := by obtain ⟨_, h⟩ := popAll_eq s w m codes; rw [h]
@[simp] theorem popAll_marks (s : State) (w : Nat) (m : Mask) (codes : List (BitVec 8)) : (popAll s w m codes).marks = s.marks := by obtain ⟨_, h⟩ := popAll_eq s w m codes; rw [h]
@[simp] theorem popAll_acquired (s : State) (w : Nat) (m : Mask) (codes : List (BitVec 8)) : (popAll s w m codes).acquired = s.acquired := by obtain ⟨_, h⟩ := popAll_eq s w m codes; rw [h]
@[simp] theorem popAll_fenceMarks (s : State) (w : Nat) (m : Mask) (codes : List (BitVec 8)) : (popAll s w m codes).fenceMarks = s.fenceMarks := by obtain ⟨_, h⟩ := popAll_eq s w m codes; rw [h]
@[simp] theorem popAll_scMarks (s : State) (w : Nat) (m : Mask) (codes : List (BitVec 8)) : (popAll s w m codes).scMarks = s.scMarks := by obtain ⟨_, h⟩ := popAll_eq s w m codes; rw [h]
@[simp] theorem popAll_seen (s : State) (w : Nat) (m : Mask) (codes : List (BitVec 8)) : (popAll s w m codes).seen = s.seen := by obtain ⟨_, h⟩ := popAll_eq s w m codes; rw [h]
@[simp] theorem popAll_routes (s : State) (w : Nat) (m : Mask) (codes : List (BitVec 8)) : (popAll s w m codes).routes = s.routes := by obtain ⟨_, h⟩ := popAll_eq s w m codes; rw [h]
@[simp] theorem popAll_regions (s : State) (w : Nat) (m : Mask) (codes : List (BitVec 8)) : (popAll s w m codes).regions = s.regions := by obtain ⟨_, h⟩ := popAll_eq s w m codes; rw [h]
@[simp] theorem popAll_cks (s : State) (w : Nat) (m : Mask) (codes : List (BitVec 8)) : (popAll s w m codes).cks = s.cks := by obtain ⟨_, h⟩ := popAll_eq s w m codes; rw [h]
@[simp] theorem popAll_vmarks (s : State) (w : Nat) (m : Mask) (codes : List (BitVec 8)) : (popAll s w m codes).vmarks = s.vmarks := by obtain ⟨_, h⟩ := popAll_eq s w m codes; rw [h]
@[simp] theorem popAll_pools (s : State) (w : Nat) (m : Mask) (codes : List (BitVec 8)) : (popAll s w m codes).pools = s.pools := by obtain ⟨_, h⟩ := popAll_eq s w m codes; rw [h]
@[simp] theorem popAll_mem (s : State) (w : Nat) (m : Mask) (codes : List (BitVec 8)) : (popAll s w m codes).mem = s.mem := by obtain ⟨_, h⟩ := popAll_eq s w m codes; rw [h]
@[simp] theorem popAll_suspectVas (s : State) (w : Nat) (m : Mask) (codes : List (BitVec 8)) : (popAll s w m codes).suspectVas = s.suspectVas := by obtain ⟨_, h⟩ := popAll_eq s w m codes; rw [h]
@[simp] theorem popAll_provFull (s : State) (w : Nat) (m : Mask) (codes : List (BitVec 8)) : (popAll s w m codes).provFull = s.provFull := by obtain ⟨_, h⟩ := popAll_eq s w m codes; rw [h]
@[simp] theorem popAll_icode (s : State) (w : Nat) (m : Mask) (codes : List (BitVec 8)) : (popAll s w m codes).icode = s.icode := by obtain ⟨_, h⟩ := popAll_eq s w m codes; rw [h]
@[simp] theorem popAll_stalls (s : State) (w : Nat) (m : Mask) (codes : List (BitVec 8)) : (popAll s w m codes).stalls = s.stalls := by obtain ⟨_, h⟩ := popAll_eq s w m codes; rw [h]
@[simp] theorem popAll_prq (s : State) (w : Nat) (m : Mask) (codes : List (BitVec 8)) : (popAll s w m codes).prq = s.prq := by obtain ⟨_, h⟩ := popAll_eq s w m codes; rw [h]
@[simp] theorem popAll_chans (s : State) (w : Nat) (m : Mask) (codes : List (BitVec 8)) : (popAll s w m codes).chans = s.chans := by obtain ⟨_, h⟩ := popAll_eq s w m codes; rw [h]
@[simp] theorem popAll_aos (s : State) (w : Nat) (m : Mask) (codes : List (BitVec 8)) : (popAll s w m codes).aos = s.aos := by obtain ⟨_, h⟩ := popAll_eq s w m codes; rw [h]
@[simp] theorem popAll_cbars (s : State) (w : Nat) (m : Mask) (codes : List (BitVec 8)) : (popAll s w m codes).cbars = s.cbars := by obtain ⟨_, h⟩ := popAll_eq s w m codes; rw [h]
@[simp] theorem popAll_tds (s : State) (w : Nat) (m : Mask) (codes : List (BitVec 8)) : (popAll s w m codes).tds = s.tds := by obtain ⟨_, h⟩ := popAll_eq s w m codes; rw [h]
@[simp] theorem popAll_cbs (s : State) (w : Nat) (m : Mask) (codes : List (BitVec 8)) : (popAll s w m codes).cbs = s.cbs := by obtain ⟨_, h⟩ := popAll_eq s w m codes; rw [h]
@[simp] theorem popAll_fwd (s : State) (w : Nat) (m : Mask) (codes : List (BitVec 8)) : (popAll s w m codes).fwd = s.fwd := by obtain ⟨_, h⟩ := popAll_eq s w m codes; rw [h]
@[simp] theorem popAll_fwdEnts (s : State) (w : Nat) (m : Mask) (codes : List (BitVec 8)) : (popAll s w m codes).fwdEnts = s.fwdEnts := by obtain ⟨_, h⟩ := popAll_eq s w m codes; rw [h]
@[simp] theorem popAll_tstat (s : State) (w : Nat) (m : Mask) (codes : List (BitVec 8)) : (popAll s w m codes).tstat = s.tstat := by obtain ⟨_, h⟩ := popAll_eq s w m codes; rw [h]
@[simp] theorem popAll_tpois (s : State) (w : Nat) (m : Mask) (codes : List (BitVec 8)) : (popAll s w m codes).tpois = s.tpois := by obtain ⟨_, h⟩ := popAll_eq s w m codes; rw [h]
@[simp] theorem popAll_vents (s : State) (w : Nat) (m : Mask) (codes : List (BitVec 8)) : (popAll s w m codes).vents = s.vents := by obtain ⟨_, h⟩ := popAll_eq s w m codes; rw [h]
@[simp] theorem popAll_vmeta (s : State) (w : Nat) (m : Mask) (codes : List (BitVec 8)) : (popAll s w m codes).vmeta = s.vmeta := by obtain ⟨_, h⟩ := popAll_eq s w m codes; rw [h]
@[simp] theorem popAll_vseq (s : State) (w : Nat) (m : Mask) (codes : List (BitVec 8)) : (popAll s w m codes).vseq = s.vseq := by obtain ⟨_, h⟩ := popAll_eq s w m codes; rw [h]
@[simp] theorem popAll_vcap (s : State) (w : Nat) (m : Mask) (codes : List (BitVec 8)) : (popAll s w m codes).vcap = s.vcap := by obtain ⟨_, h⟩ := popAll_eq s w m codes; rw [h]
@[simp] theorem popAll_flashEnts (s : State) (w : Nat) (m : Mask) (codes : List (BitVec 8)) : (popAll s w m codes).flashEnts = s.flashEnts := by obtain ⟨_, h⟩ := popAll_eq s w m codes; rw [h]
@[simp] theorem popAll_flashMeta (s : State) (w : Nat) (m : Mask) (codes : List (BitVec 8)) : (popAll s w m codes).flashMeta = s.flashMeta := by obtain ⟨_, h⟩ := popAll_eq s w m codes; rw [h]
@[simp] theorem popAll_mail (s : State) (w : Nat) (m : Mask) (codes : List (BitVec 8)) : (popAll s w m codes).mail = s.mail := by obtain ⟨_, h⟩ := popAll_eq s w m codes; rw [h]
@[simp] theorem popAll_mailOut (s : State) (w : Nat) (m : Mask) (codes : List (BitVec 8)) : (popAll s w m codes).mailOut = s.mailOut := by obtain ⟨_, h⟩ := popAll_eq s w m codes; rw [h]
@[simp] theorem popAll_rgns (s : State) (w : Nat) (m : Mask) (codes : List (BitVec 8)) : (popAll s w m codes).rgns = s.rgns := by obtain ⟨_, h⟩ := popAll_eq s w m codes; rw [h]
@[simp] theorem popAll_ownProg (s : State) (w : Nat) (m : Mask) (codes : List (BitVec 8)) : (popAll s w m codes).ownProg = s.ownProg := by obtain ⟨_, h⟩ := popAll_eq s w m codes; rw [h]
@[simp] theorem popAll_nodes (s : State) (w : Nat) (m : Mask) (codes : List (BitVec 8)) : (popAll s w m codes).nodes = s.nodes := by obtain ⟨_, h⟩ := popAll_eq s w m codes; rw [h]
@[simp] theorem popAll_graphs (s : State) (w : Nat) (m : Mask) (codes : List (BitVec 8)) : (popAll s w m codes).graphs = s.graphs := by obtain ⟨_, h⟩ := popAll_eq s w m codes; rw [h]
@[simp] theorem popAll_seqs (s : State) (w : Nat) (m : Mask) (codes : List (BitVec 8)) : (popAll s w m codes).seqs = s.seqs := by obtain ⟨_, h⟩ := popAll_eq s w m codes; rw [h]
@[simp] theorem popAll_nextNode (s : State) (w : Nat) (m : Mask) (codes : List (BitVec 8)) : (popAll s w m codes).nextNode = s.nextNode := by obtain ⟨_, h⟩ := popAll_eq s w m codes; rw [h]
@[simp] theorem popAll_sslots (s : State) (w : Nat) (m : Mask) (codes : List (BitVec 8)) : (popAll s w m codes).sslots = s.sslots := by obtain ⟨_, h⟩ := popAll_eq s w m codes; rw [h]
@[simp] theorem popAll_saves (s : State) (w : Nat) (m : Mask) (codes : List (BitVec 8)) : (popAll s w m codes).saves = s.saves := by obtain ⟨_, h⟩ := popAll_eq s w m codes; rw [h]
@[simp] theorem popAll_hslots (s : State) (w : Nat) (m : Mask) (codes : List (BitVec 8)) : (popAll s w m codes).hslots = s.hslots := by obtain ⟨_, h⟩ := popAll_eq s w m codes; rw [h]
@[simp] theorem popAll_hdiscard (s : State) (w : Nat) (m : Mask) (codes : List (BitVec 8)) : (popAll s w m codes).hdiscard = s.hdiscard := by obtain ⟨_, h⟩ := popAll_eq s w m codes; rw [h]
@[simp] theorem popAll_hostQ (s : State) (w : Nat) (m : Mask) (codes : List (BitVec 8)) : (popAll s w m codes).hostQ = s.hostQ := by obtain ⟨_, h⟩ := popAll_eq s w m codes; rw [h]
@[simp] theorem popAll_rsreg (s : State) (w : Nat) (m : Mask) (codes : List (BitVec 8)) : (popAll s w m codes).rsreg = s.rsreg := by obtain ⟨_, h⟩ := popAll_eq s w m codes; rw [h]
@[simp] theorem popAll_rsdesc (s : State) (w : Nat) (m : Mask) (codes : List (BitVec 8)) : (popAll s w m codes).rsdesc = s.rsdesc := by obtain ⟨_, h⟩ := popAll_eq s w m codes; rw [h]
@[simp] theorem popAll_rsstep (s : State) (w : Nat) (m : Mask) (codes : List (BitVec 8)) : (popAll s w m codes).rsstep = s.rsstep := by obtain ⟨_, h⟩ := popAll_eq s w m codes; rw [h]
@[simp] theorem popAll_rsstat (s : State) (w : Nat) (m : Mask) (codes : List (BitVec 8)) : (popAll s w m codes).rsstat = s.rsstat := by obtain ⟨_, h⟩ := popAll_eq s w m codes; rw [h]
@[simp] theorem popAll_mgmt (s : State) (w : Nat) (m : Mask) (codes : List (BitVec 8)) : (popAll s w m codes).mgmt = s.mgmt := by obtain ⟨_, h⟩ := popAll_eq s w m codes; rw [h]
@[simp] theorem popAll_rays (s : State) (w : Nat) (m : Mask) (codes : List (BitVec 8)) : (popAll s w m codes).rays = s.rays := by obtain ⟨_, h⟩ := popAll_eq s w m codes; rw [h]
@[simp] theorem popAll_lht (s : State) (w : Nat) (m : Mask) (codes : List (BitVec 8)) : (popAll s w m codes).lht = s.lht := by obtain ⟨_, h⟩ := popAll_eq s w m codes; rw [h]
@[simp] theorem popAll_lhtCnt (s : State) (w : Nat) (m : Mask) (codes : List (BitVec 8)) : (popAll s w m codes).lhtCnt = s.lhtCnt := by obtain ⟨_, h⟩ := popAll_eq s w m codes; rw [h]
@[simp] theorem popAll_staged (s : State) (w : Nat) (m : Mask) (codes : List (BitVec 8)) : (popAll s w m codes).staged = s.staged := by obtain ⟨_, h⟩ := popAll_eq s w m codes; rw [h]
@[simp] theorem popAll_suspects (s : State) (w : Nat) (m : Mask) (codes : List (BitVec 8)) : (popAll s w m codes).suspects = s.suspects := by obtain ⟨_, h⟩ := popAll_eq s w m codes; rw [h]
@[simp] theorem popAll_replays (s : State) (w : Nat) (m : Mask) (codes : List (BitVec 8)) : (popAll s w m codes).replays = s.replays := by obtain ⟨_, h⟩ := popAll_eq s w m codes; rw [h]
@[simp] theorem popAll_sent (s : State) (w : Nat) (m : Mask) (codes : List (BitVec 8)) : (popAll s w m codes).sent = s.sent := by obtain ⟨_, h⟩ := popAll_eq s w m codes; rw [h]
@[simp] theorem popAll_outRead (s : State) (w : Nat) (m : Mask) (codes : List (BitVec 8)) : (popAll s w m codes).outRead = s.outRead := by obtain ⟨_, h⟩ := popAll_eq s w m codes; rw [h]
@[simp] theorem popAll_hostOut (s : State) (w : Nat) (m : Mask) (codes : List (BitVec 8)) : (popAll s w m codes).hostOut = s.hostOut := by obtain ⟨_, h⟩ := popAll_eq s w m codes; rw [h]

/-! ### writeFixed -/

@[simp] theorem writeFixed_agenda (s : State) (w code t lat : Nat) (ws : List (Nat × TWord)) : (writeFixed s w code t lat ws).agenda = s.agenda := by obtain ⟨_, _, _, _, h⟩ := writeFixed_eq s w code t lat ws; rw [h]
@[simp] theorem writeFixed_cur (s : State) (w code t lat : Nat) (ws : List (Nat × TWord)) : (writeFixed s w code t lat ws).cur = s.cur := by obtain ⟨_, _, _, _, h⟩ := writeFixed_eq s w code t lat ws; rw [h]
@[simp] theorem writeFixed_cur2 (s : State) (w code t lat : Nat) (ws : List (Nat × TWord)) : (writeFixed s w code t lat ws).cur2 = s.cur2 := by obtain ⟨_, _, _, _, h⟩ := writeFixed_eq s w code t lat ws; rw [h]
@[simp] theorem writeFixed_free (s : State) (w code t lat : Nat) (ws : List (Nat × TWord)) : (writeFixed s w code t lat ws).free = s.free := by obtain ⟨_, _, _, _, h⟩ := writeFixed_eq s w code t lat ws; rw [h]
@[simp] theorem writeFixed_nextOp (s : State) (w code t lat : Nat) (ws : List (Nat × TWord)) : (writeFixed s w code t lat ws).nextOp = s.nextOp := by obtain ⟨_, _, _, _, h⟩ := writeFixed_eq s w code t lat ws; rw [h]
@[simp] theorem writeFixed_nextBlk (s : State) (w code t lat : Nat) (ws : List (Nat × TWord)) : (writeFixed s w code t lat ws).nextBlk = s.nextBlk := by obtain ⟨_, _, _, _, h⟩ := writeFixed_eq s w code t lat ws; rw [h]
@[simp] theorem writeFixed_fsr (s : State) (w code t lat : Nat) (ws : List (Nat × TWord)) : (writeFixed s w code t lat ws).fsr = s.fsr := by obtain ⟨_, _, _, _, h⟩ := writeFixed_eq s w code t lat ws; rw [h]
@[simp] theorem writeFixed_tval (s : State) (w code t lat : Nat) (ws : List (Nat × TWord)) : (writeFixed s w code t lat ws).tval = s.tval := by obtain ⟨_, _, _, _, h⟩ := writeFixed_eq s w code t lat ws; rw [h]
@[simp] theorem writeFixed_sval (s : State) (w code t lat : Nat) (ws : List (Nat × TWord)) : (writeFixed s w code t lat ws).sval = s.sval := by obtain ⟨_, _, _, _, h⟩ := writeFixed_eq s w code t lat ws; rw [h]
@[simp] theorem writeFixed_queues (s : State) (w code t lat : Nat) (ws : List (Nat × TWord)) : (writeFixed s w code t lat ws).queues = s.queues := by obtain ⟨_, _, _, _, h⟩ := writeFixed_eq s w code t lat ws; rw [h]
@[simp] theorem writeFixed_bn (s : State) (w code t lat : Nat) (ws : List (Nat × TWord)) : (writeFixed s w code t lat ws).bn = s.bn := by obtain ⟨_, _, _, _, h⟩ := writeFixed_eq s w code t lat ws; rw [h]
@[simp] theorem writeFixed_warps (s : State) (w code t lat : Nat) (ws : List (Nat × TWord)) : (writeFixed s w code t lat ws).warps = s.warps := by obtain ⟨_, _, _, _, h⟩ := writeFixed_eq s w code t lat ws; rw [h]
@[simp] theorem writeFixed_blocks (s : State) (w code t lat : Nat) (ws : List (Nat × TWord)) : (writeFixed s w code t lat ws).blocks = s.blocks := by obtain ⟨_, _, _, _, h⟩ := writeFixed_eq s w code t lat ws; rw [h]
@[simp] theorem writeFixed_bnPend (s : State) (w code t lat : Nat) (ws : List (Nat × TWord)) : (writeFixed s w code t lat ws).bnPend = s.bnPend := by obtain ⟨_, _, _, _, h⟩ := writeFixed_eq s w code t lat ws; rw [h]
@[simp] theorem writeFixed_cores (s : State) (w code t lat : Nat) (ws : List (Nat × TWord)) : (writeFixed s w code t lat ws).cores = s.cores := by obtain ⟨_, _, _, _, h⟩ := writeFixed_eq s w code t lat ws; rw [h]
@[simp] theorem writeFixed_quarters (s : State) (w code t lat : Nat) (ws : List (Nat × TWord)) : (writeFixed s w code t lat ws).quarters = s.quarters := by obtain ⟨_, _, _, _, h⟩ := writeFixed_eq s w code t lat ws; rw [h]
@[simp] theorem writeFixed_growQ (s : State) (w code t lat : Nat) (ws : List (Nat × TWord)) : (writeFixed s w code t lat ws).growQ = s.growQ := by obtain ⟨_, _, _, _, h⟩ := writeFixed_eq s w code t lat ws; rw [h]
@[simp] theorem writeFixed_dies (s : State) (w code t lat : Nat) (ws : List (Nat × TWord)) : (writeFixed s w code t lat ws).dies = s.dies := by obtain ⟨_, _, _, _, h⟩ := writeFixed_eq s w code t lat ws; rw [h]
@[simp] theorem writeFixed_pkg (s : State) (w code t lat : Nat) (ws : List (Nat × TWord)) : (writeFixed s w code t lat ws).pkg = s.pkg := by obtain ⟨_, _, _, _, h⟩ := writeFixed_eq s w code t lat ws; rw [h]
@[simp] theorem writeFixed_tlb (s : State) (w code t lat : Nat) (ws : List (Nat × TWord)) : (writeFixed s w code t lat ws).tlb = s.tlb := by obtain ⟨_, _, _, _, h⟩ := writeFixed_eq s w code t lat ws; rw [h]
@[simp] theorem writeFixed_owners (s : State) (w code t lat : Nat) (ws : List (Nat × TWord)) : (writeFixed s w code t lat ws).owners = s.owners := by obtain ⟨_, _, _, _, h⟩ := writeFixed_eq s w code t lat ws; rw [h]
@[simp] theorem writeFixed_poison (s : State) (w code t lat : Nat) (ws : List (Nat × TWord)) : (writeFixed s w code t lat ws).poison = s.poison := by obtain ⟨_, _, _, _, h⟩ := writeFixed_eq s w code t lat ws; rw [h]
@[simp] theorem writeFixed_frozen (s : State) (w code t lat : Nat) (ws : List (Nat × TWord)) : (writeFixed s w code t lat ws).frozen = s.frozen := by obtain ⟨_, _, _, _, h⟩ := writeFixed_eq s w code t lat ws; rw [h]
@[simp] theorem writeFixed_swc (s : State) (w code t lat : Nat) (ws : List (Nat × TWord)) : (writeFixed s w code t lat ws).swc = s.swc := by obtain ⟨_, _, _, _, h⟩ := writeFixed_eq s w code t lat ws; rw [h]
@[simp] theorem writeFixed_dcLru (s : State) (w code t lat : Nat) (ws : List (Nat × TWord)) : (writeFixed s w code t lat ws).dcLru = s.dcLru := by obtain ⟨_, _, _, _, h⟩ := writeFixed_eq s w code t lat ws; rw [h]
@[simp] theorem writeFixed_poolOld (s : State) (w code t lat : Nat) (ws : List (Nat × TWord)) : (writeFixed s w code t lat ws).poolOld = s.poolOld := by obtain ⟨_, _, _, _, h⟩ := writeFixed_eq s w code t lat ws; rw [h]
@[simp] theorem writeFixed_prov (s : State) (w code t lat : Nat) (ws : List (Nat × TWord)) : (writeFixed s w code t lat ws).prov = s.prov := by obtain ⟨_, _, _, _, h⟩ := writeFixed_eq s w code t lat ws; rw [h]
@[simp] theorem writeFixed_granules (s : State) (w code t lat : Nat) (ws : List (Nat × TWord)) : (writeFixed s w code t lat ws).granules = s.granules := by obtain ⟨_, _, _, _, h⟩ := writeFixed_eq s w code t lat ws; rw [h]
@[simp] theorem writeFixed_marks (s : State) (w code t lat : Nat) (ws : List (Nat × TWord)) : (writeFixed s w code t lat ws).marks = s.marks := by obtain ⟨_, _, _, _, h⟩ := writeFixed_eq s w code t lat ws; rw [h]
@[simp] theorem writeFixed_acquired (s : State) (w code t lat : Nat) (ws : List (Nat × TWord)) : (writeFixed s w code t lat ws).acquired = s.acquired := by obtain ⟨_, _, _, _, h⟩ := writeFixed_eq s w code t lat ws; rw [h]
@[simp] theorem writeFixed_fenceMarks (s : State) (w code t lat : Nat) (ws : List (Nat × TWord)) : (writeFixed s w code t lat ws).fenceMarks = s.fenceMarks := by obtain ⟨_, _, _, _, h⟩ := writeFixed_eq s w code t lat ws; rw [h]
@[simp] theorem writeFixed_scMarks (s : State) (w code t lat : Nat) (ws : List (Nat × TWord)) : (writeFixed s w code t lat ws).scMarks = s.scMarks := by obtain ⟨_, _, _, _, h⟩ := writeFixed_eq s w code t lat ws; rw [h]
@[simp] theorem writeFixed_seen (s : State) (w code t lat : Nat) (ws : List (Nat × TWord)) : (writeFixed s w code t lat ws).seen = s.seen := by obtain ⟨_, _, _, _, h⟩ := writeFixed_eq s w code t lat ws; rw [h]
@[simp] theorem writeFixed_routes (s : State) (w code t lat : Nat) (ws : List (Nat × TWord)) : (writeFixed s w code t lat ws).routes = s.routes := by obtain ⟨_, _, _, _, h⟩ := writeFixed_eq s w code t lat ws; rw [h]
@[simp] theorem writeFixed_regions (s : State) (w code t lat : Nat) (ws : List (Nat × TWord)) : (writeFixed s w code t lat ws).regions = s.regions := by obtain ⟨_, _, _, _, h⟩ := writeFixed_eq s w code t lat ws; rw [h]
@[simp] theorem writeFixed_cks (s : State) (w code t lat : Nat) (ws : List (Nat × TWord)) : (writeFixed s w code t lat ws).cks = s.cks := by obtain ⟨_, _, _, _, h⟩ := writeFixed_eq s w code t lat ws; rw [h]
@[simp] theorem writeFixed_vmarks (s : State) (w code t lat : Nat) (ws : List (Nat × TWord)) : (writeFixed s w code t lat ws).vmarks = s.vmarks := by obtain ⟨_, _, _, _, h⟩ := writeFixed_eq s w code t lat ws; rw [h]
@[simp] theorem writeFixed_pools (s : State) (w code t lat : Nat) (ws : List (Nat × TWord)) : (writeFixed s w code t lat ws).pools = s.pools := by obtain ⟨_, _, _, _, h⟩ := writeFixed_eq s w code t lat ws; rw [h]
@[simp] theorem writeFixed_mem (s : State) (w code t lat : Nat) (ws : List (Nat × TWord)) : (writeFixed s w code t lat ws).mem = s.mem := by obtain ⟨_, _, _, _, h⟩ := writeFixed_eq s w code t lat ws; rw [h]
@[simp] theorem writeFixed_suspectVas (s : State) (w code t lat : Nat) (ws : List (Nat × TWord)) : (writeFixed s w code t lat ws).suspectVas = s.suspectVas := by obtain ⟨_, _, _, _, h⟩ := writeFixed_eq s w code t lat ws; rw [h]
@[simp] theorem writeFixed_provFull (s : State) (w code t lat : Nat) (ws : List (Nat × TWord)) : (writeFixed s w code t lat ws).provFull = s.provFull := by obtain ⟨_, _, _, _, h⟩ := writeFixed_eq s w code t lat ws; rw [h]
@[simp] theorem writeFixed_icode (s : State) (w code t lat : Nat) (ws : List (Nat × TWord)) : (writeFixed s w code t lat ws).icode = s.icode := by obtain ⟨_, _, _, _, h⟩ := writeFixed_eq s w code t lat ws; rw [h]
@[simp] theorem writeFixed_stalls (s : State) (w code t lat : Nat) (ws : List (Nat × TWord)) : (writeFixed s w code t lat ws).stalls = s.stalls := by obtain ⟨_, _, _, _, h⟩ := writeFixed_eq s w code t lat ws; rw [h]
@[simp] theorem writeFixed_prq (s : State) (w code t lat : Nat) (ws : List (Nat × TWord)) : (writeFixed s w code t lat ws).prq = s.prq := by obtain ⟨_, _, _, _, h⟩ := writeFixed_eq s w code t lat ws; rw [h]
@[simp] theorem writeFixed_chans (s : State) (w code t lat : Nat) (ws : List (Nat × TWord)) : (writeFixed s w code t lat ws).chans = s.chans := by obtain ⟨_, _, _, _, h⟩ := writeFixed_eq s w code t lat ws; rw [h]
@[simp] theorem writeFixed_aos (s : State) (w code t lat : Nat) (ws : List (Nat × TWord)) : (writeFixed s w code t lat ws).aos = s.aos := by obtain ⟨_, _, _, _, h⟩ := writeFixed_eq s w code t lat ws; rw [h]
@[simp] theorem writeFixed_cbars (s : State) (w code t lat : Nat) (ws : List (Nat × TWord)) : (writeFixed s w code t lat ws).cbars = s.cbars := by obtain ⟨_, _, _, _, h⟩ := writeFixed_eq s w code t lat ws; rw [h]
@[simp] theorem writeFixed_tds (s : State) (w code t lat : Nat) (ws : List (Nat × TWord)) : (writeFixed s w code t lat ws).tds = s.tds := by obtain ⟨_, _, _, _, h⟩ := writeFixed_eq s w code t lat ws; rw [h]
@[simp] theorem writeFixed_cbs (s : State) (w code t lat : Nat) (ws : List (Nat × TWord)) : (writeFixed s w code t lat ws).cbs = s.cbs := by obtain ⟨_, _, _, _, h⟩ := writeFixed_eq s w code t lat ws; rw [h]
@[simp] theorem writeFixed_fwd (s : State) (w code t lat : Nat) (ws : List (Nat × TWord)) : (writeFixed s w code t lat ws).fwd = s.fwd := by obtain ⟨_, _, _, _, h⟩ := writeFixed_eq s w code t lat ws; rw [h]
@[simp] theorem writeFixed_fwdEnts (s : State) (w code t lat : Nat) (ws : List (Nat × TWord)) : (writeFixed s w code t lat ws).fwdEnts = s.fwdEnts := by obtain ⟨_, _, _, _, h⟩ := writeFixed_eq s w code t lat ws; rw [h]
@[simp] theorem writeFixed_tstat (s : State) (w code t lat : Nat) (ws : List (Nat × TWord)) : (writeFixed s w code t lat ws).tstat = s.tstat := by obtain ⟨_, _, _, _, h⟩ := writeFixed_eq s w code t lat ws; rw [h]
@[simp] theorem writeFixed_tpois (s : State) (w code t lat : Nat) (ws : List (Nat × TWord)) : (writeFixed s w code t lat ws).tpois = s.tpois := by obtain ⟨_, _, _, _, h⟩ := writeFixed_eq s w code t lat ws; rw [h]
@[simp] theorem writeFixed_vents (s : State) (w code t lat : Nat) (ws : List (Nat × TWord)) : (writeFixed s w code t lat ws).vents = s.vents := by obtain ⟨_, _, _, _, h⟩ := writeFixed_eq s w code t lat ws; rw [h]
@[simp] theorem writeFixed_vmeta (s : State) (w code t lat : Nat) (ws : List (Nat × TWord)) : (writeFixed s w code t lat ws).vmeta = s.vmeta := by obtain ⟨_, _, _, _, h⟩ := writeFixed_eq s w code t lat ws; rw [h]
@[simp] theorem writeFixed_vseq (s : State) (w code t lat : Nat) (ws : List (Nat × TWord)) : (writeFixed s w code t lat ws).vseq = s.vseq := by obtain ⟨_, _, _, _, h⟩ := writeFixed_eq s w code t lat ws; rw [h]
@[simp] theorem writeFixed_vcap (s : State) (w code t lat : Nat) (ws : List (Nat × TWord)) : (writeFixed s w code t lat ws).vcap = s.vcap := by obtain ⟨_, _, _, _, h⟩ := writeFixed_eq s w code t lat ws; rw [h]
@[simp] theorem writeFixed_flashEnts (s : State) (w code t lat : Nat) (ws : List (Nat × TWord)) : (writeFixed s w code t lat ws).flashEnts = s.flashEnts := by obtain ⟨_, _, _, _, h⟩ := writeFixed_eq s w code t lat ws; rw [h]
@[simp] theorem writeFixed_flashMeta (s : State) (w code t lat : Nat) (ws : List (Nat × TWord)) : (writeFixed s w code t lat ws).flashMeta = s.flashMeta := by obtain ⟨_, _, _, _, h⟩ := writeFixed_eq s w code t lat ws; rw [h]
@[simp] theorem writeFixed_mail (s : State) (w code t lat : Nat) (ws : List (Nat × TWord)) : (writeFixed s w code t lat ws).mail = s.mail := by obtain ⟨_, _, _, _, h⟩ := writeFixed_eq s w code t lat ws; rw [h]
@[simp] theorem writeFixed_mailOut (s : State) (w code t lat : Nat) (ws : List (Nat × TWord)) : (writeFixed s w code t lat ws).mailOut = s.mailOut := by obtain ⟨_, _, _, _, h⟩ := writeFixed_eq s w code t lat ws; rw [h]
@[simp] theorem writeFixed_rgns (s : State) (w code t lat : Nat) (ws : List (Nat × TWord)) : (writeFixed s w code t lat ws).rgns = s.rgns := by obtain ⟨_, _, _, _, h⟩ := writeFixed_eq s w code t lat ws; rw [h]
@[simp] theorem writeFixed_ownProg (s : State) (w code t lat : Nat) (ws : List (Nat × TWord)) : (writeFixed s w code t lat ws).ownProg = s.ownProg := by obtain ⟨_, _, _, _, h⟩ := writeFixed_eq s w code t lat ws; rw [h]
@[simp] theorem writeFixed_nodes (s : State) (w code t lat : Nat) (ws : List (Nat × TWord)) : (writeFixed s w code t lat ws).nodes = s.nodes := by obtain ⟨_, _, _, _, h⟩ := writeFixed_eq s w code t lat ws; rw [h]
@[simp] theorem writeFixed_graphs (s : State) (w code t lat : Nat) (ws : List (Nat × TWord)) : (writeFixed s w code t lat ws).graphs = s.graphs := by obtain ⟨_, _, _, _, h⟩ := writeFixed_eq s w code t lat ws; rw [h]
@[simp] theorem writeFixed_seqs (s : State) (w code t lat : Nat) (ws : List (Nat × TWord)) : (writeFixed s w code t lat ws).seqs = s.seqs := by obtain ⟨_, _, _, _, h⟩ := writeFixed_eq s w code t lat ws; rw [h]
@[simp] theorem writeFixed_nextNode (s : State) (w code t lat : Nat) (ws : List (Nat × TWord)) : (writeFixed s w code t lat ws).nextNode = s.nextNode := by obtain ⟨_, _, _, _, h⟩ := writeFixed_eq s w code t lat ws; rw [h]
@[simp] theorem writeFixed_sslots (s : State) (w code t lat : Nat) (ws : List (Nat × TWord)) : (writeFixed s w code t lat ws).sslots = s.sslots := by obtain ⟨_, _, _, _, h⟩ := writeFixed_eq s w code t lat ws; rw [h]
@[simp] theorem writeFixed_saves (s : State) (w code t lat : Nat) (ws : List (Nat × TWord)) : (writeFixed s w code t lat ws).saves = s.saves := by obtain ⟨_, _, _, _, h⟩ := writeFixed_eq s w code t lat ws; rw [h]
@[simp] theorem writeFixed_hslots (s : State) (w code t lat : Nat) (ws : List (Nat × TWord)) : (writeFixed s w code t lat ws).hslots = s.hslots := by obtain ⟨_, _, _, _, h⟩ := writeFixed_eq s w code t lat ws; rw [h]
@[simp] theorem writeFixed_hdiscard (s : State) (w code t lat : Nat) (ws : List (Nat × TWord)) : (writeFixed s w code t lat ws).hdiscard = s.hdiscard := by obtain ⟨_, _, _, _, h⟩ := writeFixed_eq s w code t lat ws; rw [h]
@[simp] theorem writeFixed_hostQ (s : State) (w code t lat : Nat) (ws : List (Nat × TWord)) : (writeFixed s w code t lat ws).hostQ = s.hostQ := by obtain ⟨_, _, _, _, h⟩ := writeFixed_eq s w code t lat ws; rw [h]
@[simp] theorem writeFixed_rsreg (s : State) (w code t lat : Nat) (ws : List (Nat × TWord)) : (writeFixed s w code t lat ws).rsreg = s.rsreg := by obtain ⟨_, _, _, _, h⟩ := writeFixed_eq s w code t lat ws; rw [h]
@[simp] theorem writeFixed_rsdesc (s : State) (w code t lat : Nat) (ws : List (Nat × TWord)) : (writeFixed s w code t lat ws).rsdesc = s.rsdesc := by obtain ⟨_, _, _, _, h⟩ := writeFixed_eq s w code t lat ws; rw [h]
@[simp] theorem writeFixed_rsstep (s : State) (w code t lat : Nat) (ws : List (Nat × TWord)) : (writeFixed s w code t lat ws).rsstep = s.rsstep := by obtain ⟨_, _, _, _, h⟩ := writeFixed_eq s w code t lat ws; rw [h]
@[simp] theorem writeFixed_rsstat (s : State) (w code t lat : Nat) (ws : List (Nat × TWord)) : (writeFixed s w code t lat ws).rsstat = s.rsstat := by obtain ⟨_, _, _, _, h⟩ := writeFixed_eq s w code t lat ws; rw [h]
@[simp] theorem writeFixed_mgmt (s : State) (w code t lat : Nat) (ws : List (Nat × TWord)) : (writeFixed s w code t lat ws).mgmt = s.mgmt := by obtain ⟨_, _, _, _, h⟩ := writeFixed_eq s w code t lat ws; rw [h]
@[simp] theorem writeFixed_rays (s : State) (w code t lat : Nat) (ws : List (Nat × TWord)) : (writeFixed s w code t lat ws).rays = s.rays := by obtain ⟨_, _, _, _, h⟩ := writeFixed_eq s w code t lat ws; rw [h]
@[simp] theorem writeFixed_lht (s : State) (w code t lat : Nat) (ws : List (Nat × TWord)) : (writeFixed s w code t lat ws).lht = s.lht := by obtain ⟨_, _, _, _, h⟩ := writeFixed_eq s w code t lat ws; rw [h]
@[simp] theorem writeFixed_lhtCnt (s : State) (w code t lat : Nat) (ws : List (Nat × TWord)) : (writeFixed s w code t lat ws).lhtCnt = s.lhtCnt := by obtain ⟨_, _, _, _, h⟩ := writeFixed_eq s w code t lat ws; rw [h]
@[simp] theorem writeFixed_staged (s : State) (w code t lat : Nat) (ws : List (Nat × TWord)) : (writeFixed s w code t lat ws).staged = s.staged := by obtain ⟨_, _, _, _, h⟩ := writeFixed_eq s w code t lat ws; rw [h]
@[simp] theorem writeFixed_suspects (s : State) (w code t lat : Nat) (ws : List (Nat × TWord)) : (writeFixed s w code t lat ws).suspects = s.suspects := by obtain ⟨_, _, _, _, h⟩ := writeFixed_eq s w code t lat ws; rw [h]
@[simp] theorem writeFixed_replays (s : State) (w code t lat : Nat) (ws : List (Nat × TWord)) : (writeFixed s w code t lat ws).replays = s.replays := by obtain ⟨_, _, _, _, h⟩ := writeFixed_eq s w code t lat ws; rw [h]
@[simp] theorem writeFixed_sent (s : State) (w code t lat : Nat) (ws : List (Nat × TWord)) : (writeFixed s w code t lat ws).sent = s.sent := by obtain ⟨_, _, _, _, h⟩ := writeFixed_eq s w code t lat ws; rw [h]
@[simp] theorem writeFixed_outRead (s : State) (w code t lat : Nat) (ws : List (Nat × TWord)) : (writeFixed s w code t lat ws).outRead = s.outRead := by obtain ⟨_, _, _, _, h⟩ := writeFixed_eq s w code t lat ws; rw [h]
@[simp] theorem writeFixed_hostOut (s : State) (w code t lat : Nat) (ws : List (Nat × TWord)) : (writeFixed s w code t lat ws).hostOut = s.hostOut := by obtain ⟨_, _, _, _, h⟩ := writeFixed_eq s w code t lat ws; rw [h]

/-! ### wrReg -/

@[simp] theorem wrReg_agenda (s : State) (w code : Nat) (ws : List (Nat × TWord)) : (wrReg s w code ws).agenda = s.agenda := by obtain ⟨_, _, h⟩ := wrReg_eq s w code ws; rw [h]
@[simp] theorem wrReg_cur (s : State) (w code : Nat) (ws : List (Nat × TWord)) : (wrReg s w code ws).cur = s.cur := by obtain ⟨_, _, h⟩ := wrReg_eq s w code ws; rw [h]
@[simp] theorem wrReg_cur2 (s : State) (w code : Nat) (ws : List (Nat × TWord)) : (wrReg s w code ws).cur2 = s.cur2 := by obtain ⟨_, _, h⟩ := wrReg_eq s w code ws; rw [h]
@[simp] theorem wrReg_free (s : State) (w code : Nat) (ws : List (Nat × TWord)) : (wrReg s w code ws).free = s.free := by obtain ⟨_, _, h⟩ := wrReg_eq s w code ws; rw [h]
@[simp] theorem wrReg_nextOp (s : State) (w code : Nat) (ws : List (Nat × TWord)) : (wrReg s w code ws).nextOp = s.nextOp := by obtain ⟨_, _, h⟩ := wrReg_eq s w code ws; rw [h]
@[simp] theorem wrReg_nextBlk (s : State) (w code : Nat) (ws : List (Nat × TWord)) : (wrReg s w code ws).nextBlk = s.nextBlk := by obtain ⟨_, _, h⟩ := wrReg_eq s w code ws; rw [h]
@[simp] theorem wrReg_fsr (s : State) (w code : Nat) (ws : List (Nat × TWord)) : (wrReg s w code ws).fsr = s.fsr := by obtain ⟨_, _, h⟩ := wrReg_eq s w code ws; rw [h]
@[simp] theorem wrReg_tval (s : State) (w code : Nat) (ws : List (Nat × TWord)) : (wrReg s w code ws).tval = s.tval := by obtain ⟨_, _, h⟩ := wrReg_eq s w code ws; rw [h]
@[simp] theorem wrReg_sval (s : State) (w code : Nat) (ws : List (Nat × TWord)) : (wrReg s w code ws).sval = s.sval := by obtain ⟨_, _, h⟩ := wrReg_eq s w code ws; rw [h]
@[simp] theorem wrReg_queues (s : State) (w code : Nat) (ws : List (Nat × TWord)) : (wrReg s w code ws).queues = s.queues := by obtain ⟨_, _, h⟩ := wrReg_eq s w code ws; rw [h]
@[simp] theorem wrReg_bn (s : State) (w code : Nat) (ws : List (Nat × TWord)) : (wrReg s w code ws).bn = s.bn := by obtain ⟨_, _, h⟩ := wrReg_eq s w code ws; rw [h]
@[simp] theorem wrReg_warps (s : State) (w code : Nat) (ws : List (Nat × TWord)) : (wrReg s w code ws).warps = s.warps := by obtain ⟨_, _, h⟩ := wrReg_eq s w code ws; rw [h]
@[simp] theorem wrReg_blocks (s : State) (w code : Nat) (ws : List (Nat × TWord)) : (wrReg s w code ws).blocks = s.blocks := by obtain ⟨_, _, h⟩ := wrReg_eq s w code ws; rw [h]
@[simp] theorem wrReg_ops (s : State) (w code : Nat) (ws : List (Nat × TWord)) : (wrReg s w code ws).ops = s.ops := by obtain ⟨_, _, h⟩ := wrReg_eq s w code ws; rw [h]
@[simp] theorem wrReg_pend (s : State) (w code : Nat) (ws : List (Nat × TWord)) : (wrReg s w code ws).pend = s.pend := by obtain ⟨_, _, h⟩ := wrReg_eq s w code ws; rw [h]
@[simp] theorem wrReg_bnPend (s : State) (w code : Nat) (ws : List (Nat × TWord)) : (wrReg s w code ws).bnPend = s.bnPend := by obtain ⟨_, _, h⟩ := wrReg_eq s w code ws; rw [h]
@[simp] theorem wrReg_cores (s : State) (w code : Nat) (ws : List (Nat × TWord)) : (wrReg s w code ws).cores = s.cores := by obtain ⟨_, _, h⟩ := wrReg_eq s w code ws; rw [h]
@[simp] theorem wrReg_quarters (s : State) (w code : Nat) (ws : List (Nat × TWord)) : (wrReg s w code ws).quarters = s.quarters := by obtain ⟨_, _, h⟩ := wrReg_eq s w code ws; rw [h]
@[simp] theorem wrReg_growQ (s : State) (w code : Nat) (ws : List (Nat × TWord)) : (wrReg s w code ws).growQ = s.growQ := by obtain ⟨_, _, h⟩ := wrReg_eq s w code ws; rw [h]
@[simp] theorem wrReg_dies (s : State) (w code : Nat) (ws : List (Nat × TWord)) : (wrReg s w code ws).dies = s.dies := by obtain ⟨_, _, h⟩ := wrReg_eq s w code ws; rw [h]
@[simp] theorem wrReg_pkg (s : State) (w code : Nat) (ws : List (Nat × TWord)) : (wrReg s w code ws).pkg = s.pkg := by obtain ⟨_, _, h⟩ := wrReg_eq s w code ws; rw [h]
@[simp] theorem wrReg_tlb (s : State) (w code : Nat) (ws : List (Nat × TWord)) : (wrReg s w code ws).tlb = s.tlb := by obtain ⟨_, _, h⟩ := wrReg_eq s w code ws; rw [h]
@[simp] theorem wrReg_owners (s : State) (w code : Nat) (ws : List (Nat × TWord)) : (wrReg s w code ws).owners = s.owners := by obtain ⟨_, _, h⟩ := wrReg_eq s w code ws; rw [h]
@[simp] theorem wrReg_poison (s : State) (w code : Nat) (ws : List (Nat × TWord)) : (wrReg s w code ws).poison = s.poison := by obtain ⟨_, _, h⟩ := wrReg_eq s w code ws; rw [h]
@[simp] theorem wrReg_frozen (s : State) (w code : Nat) (ws : List (Nat × TWord)) : (wrReg s w code ws).frozen = s.frozen := by obtain ⟨_, _, h⟩ := wrReg_eq s w code ws; rw [h]
@[simp] theorem wrReg_swc (s : State) (w code : Nat) (ws : List (Nat × TWord)) : (wrReg s w code ws).swc = s.swc := by obtain ⟨_, _, h⟩ := wrReg_eq s w code ws; rw [h]
@[simp] theorem wrReg_dcLru (s : State) (w code : Nat) (ws : List (Nat × TWord)) : (wrReg s w code ws).dcLru = s.dcLru := by obtain ⟨_, _, h⟩ := wrReg_eq s w code ws; rw [h]
@[simp] theorem wrReg_poolOld (s : State) (w code : Nat) (ws : List (Nat × TWord)) : (wrReg s w code ws).poolOld = s.poolOld := by obtain ⟨_, _, h⟩ := wrReg_eq s w code ws; rw [h]
@[simp] theorem wrReg_prov (s : State) (w code : Nat) (ws : List (Nat × TWord)) : (wrReg s w code ws).prov = s.prov := by obtain ⟨_, _, h⟩ := wrReg_eq s w code ws; rw [h]
@[simp] theorem wrReg_granules (s : State) (w code : Nat) (ws : List (Nat × TWord)) : (wrReg s w code ws).granules = s.granules := by obtain ⟨_, _, h⟩ := wrReg_eq s w code ws; rw [h]
@[simp] theorem wrReg_marks (s : State) (w code : Nat) (ws : List (Nat × TWord)) : (wrReg s w code ws).marks = s.marks := by obtain ⟨_, _, h⟩ := wrReg_eq s w code ws; rw [h]
@[simp] theorem wrReg_acquired (s : State) (w code : Nat) (ws : List (Nat × TWord)) : (wrReg s w code ws).acquired = s.acquired := by obtain ⟨_, _, h⟩ := wrReg_eq s w code ws; rw [h]
@[simp] theorem wrReg_fenceMarks (s : State) (w code : Nat) (ws : List (Nat × TWord)) : (wrReg s w code ws).fenceMarks = s.fenceMarks := by obtain ⟨_, _, h⟩ := wrReg_eq s w code ws; rw [h]
@[simp] theorem wrReg_scMarks (s : State) (w code : Nat) (ws : List (Nat × TWord)) : (wrReg s w code ws).scMarks = s.scMarks := by obtain ⟨_, _, h⟩ := wrReg_eq s w code ws; rw [h]
@[simp] theorem wrReg_seen (s : State) (w code : Nat) (ws : List (Nat × TWord)) : (wrReg s w code ws).seen = s.seen := by obtain ⟨_, _, h⟩ := wrReg_eq s w code ws; rw [h]
@[simp] theorem wrReg_routes (s : State) (w code : Nat) (ws : List (Nat × TWord)) : (wrReg s w code ws).routes = s.routes := by obtain ⟨_, _, h⟩ := wrReg_eq s w code ws; rw [h]
@[simp] theorem wrReg_regions (s : State) (w code : Nat) (ws : List (Nat × TWord)) : (wrReg s w code ws).regions = s.regions := by obtain ⟨_, _, h⟩ := wrReg_eq s w code ws; rw [h]
@[simp] theorem wrReg_cks (s : State) (w code : Nat) (ws : List (Nat × TWord)) : (wrReg s w code ws).cks = s.cks := by obtain ⟨_, _, h⟩ := wrReg_eq s w code ws; rw [h]
@[simp] theorem wrReg_vmarks (s : State) (w code : Nat) (ws : List (Nat × TWord)) : (wrReg s w code ws).vmarks = s.vmarks := by obtain ⟨_, _, h⟩ := wrReg_eq s w code ws; rw [h]
@[simp] theorem wrReg_pools (s : State) (w code : Nat) (ws : List (Nat × TWord)) : (wrReg s w code ws).pools = s.pools := by obtain ⟨_, _, h⟩ := wrReg_eq s w code ws; rw [h]
@[simp] theorem wrReg_mem (s : State) (w code : Nat) (ws : List (Nat × TWord)) : (wrReg s w code ws).mem = s.mem := by obtain ⟨_, _, h⟩ := wrReg_eq s w code ws; rw [h]
@[simp] theorem wrReg_suspectVas (s : State) (w code : Nat) (ws : List (Nat × TWord)) : (wrReg s w code ws).suspectVas = s.suspectVas := by obtain ⟨_, _, h⟩ := wrReg_eq s w code ws; rw [h]
@[simp] theorem wrReg_provFull (s : State) (w code : Nat) (ws : List (Nat × TWord)) : (wrReg s w code ws).provFull = s.provFull := by obtain ⟨_, _, h⟩ := wrReg_eq s w code ws; rw [h]
@[simp] theorem wrReg_icode (s : State) (w code : Nat) (ws : List (Nat × TWord)) : (wrReg s w code ws).icode = s.icode := by obtain ⟨_, _, h⟩ := wrReg_eq s w code ws; rw [h]
@[simp] theorem wrReg_stalls (s : State) (w code : Nat) (ws : List (Nat × TWord)) : (wrReg s w code ws).stalls = s.stalls := by obtain ⟨_, _, h⟩ := wrReg_eq s w code ws; rw [h]
@[simp] theorem wrReg_prq (s : State) (w code : Nat) (ws : List (Nat × TWord)) : (wrReg s w code ws).prq = s.prq := by obtain ⟨_, _, h⟩ := wrReg_eq s w code ws; rw [h]
@[simp] theorem wrReg_chans (s : State) (w code : Nat) (ws : List (Nat × TWord)) : (wrReg s w code ws).chans = s.chans := by obtain ⟨_, _, h⟩ := wrReg_eq s w code ws; rw [h]
@[simp] theorem wrReg_aos (s : State) (w code : Nat) (ws : List (Nat × TWord)) : (wrReg s w code ws).aos = s.aos := by obtain ⟨_, _, h⟩ := wrReg_eq s w code ws; rw [h]
@[simp] theorem wrReg_cbars (s : State) (w code : Nat) (ws : List (Nat × TWord)) : (wrReg s w code ws).cbars = s.cbars := by obtain ⟨_, _, h⟩ := wrReg_eq s w code ws; rw [h]
@[simp] theorem wrReg_tds (s : State) (w code : Nat) (ws : List (Nat × TWord)) : (wrReg s w code ws).tds = s.tds := by obtain ⟨_, _, h⟩ := wrReg_eq s w code ws; rw [h]
@[simp] theorem wrReg_cbs (s : State) (w code : Nat) (ws : List (Nat × TWord)) : (wrReg s w code ws).cbs = s.cbs := by obtain ⟨_, _, h⟩ := wrReg_eq s w code ws; rw [h]
@[simp] theorem wrReg_fwd (s : State) (w code : Nat) (ws : List (Nat × TWord)) : (wrReg s w code ws).fwd = s.fwd := by obtain ⟨_, _, h⟩ := wrReg_eq s w code ws; rw [h]
@[simp] theorem wrReg_fwdEnts (s : State) (w code : Nat) (ws : List (Nat × TWord)) : (wrReg s w code ws).fwdEnts = s.fwdEnts := by obtain ⟨_, _, h⟩ := wrReg_eq s w code ws; rw [h]
@[simp] theorem wrReg_tstat (s : State) (w code : Nat) (ws : List (Nat × TWord)) : (wrReg s w code ws).tstat = s.tstat := by obtain ⟨_, _, h⟩ := wrReg_eq s w code ws; rw [h]
@[simp] theorem wrReg_tpois (s : State) (w code : Nat) (ws : List (Nat × TWord)) : (wrReg s w code ws).tpois = s.tpois := by obtain ⟨_, _, h⟩ := wrReg_eq s w code ws; rw [h]
@[simp] theorem wrReg_vents (s : State) (w code : Nat) (ws : List (Nat × TWord)) : (wrReg s w code ws).vents = s.vents := by obtain ⟨_, _, h⟩ := wrReg_eq s w code ws; rw [h]
@[simp] theorem wrReg_vmeta (s : State) (w code : Nat) (ws : List (Nat × TWord)) : (wrReg s w code ws).vmeta = s.vmeta := by obtain ⟨_, _, h⟩ := wrReg_eq s w code ws; rw [h]
@[simp] theorem wrReg_vseq (s : State) (w code : Nat) (ws : List (Nat × TWord)) : (wrReg s w code ws).vseq = s.vseq := by obtain ⟨_, _, h⟩ := wrReg_eq s w code ws; rw [h]
@[simp] theorem wrReg_vcap (s : State) (w code : Nat) (ws : List (Nat × TWord)) : (wrReg s w code ws).vcap = s.vcap := by obtain ⟨_, _, h⟩ := wrReg_eq s w code ws; rw [h]
@[simp] theorem wrReg_flashEnts (s : State) (w code : Nat) (ws : List (Nat × TWord)) : (wrReg s w code ws).flashEnts = s.flashEnts := by obtain ⟨_, _, h⟩ := wrReg_eq s w code ws; rw [h]
@[simp] theorem wrReg_flashMeta (s : State) (w code : Nat) (ws : List (Nat × TWord)) : (wrReg s w code ws).flashMeta = s.flashMeta := by obtain ⟨_, _, h⟩ := wrReg_eq s w code ws; rw [h]
@[simp] theorem wrReg_mail (s : State) (w code : Nat) (ws : List (Nat × TWord)) : (wrReg s w code ws).mail = s.mail := by obtain ⟨_, _, h⟩ := wrReg_eq s w code ws; rw [h]
@[simp] theorem wrReg_mailOut (s : State) (w code : Nat) (ws : List (Nat × TWord)) : (wrReg s w code ws).mailOut = s.mailOut := by obtain ⟨_, _, h⟩ := wrReg_eq s w code ws; rw [h]
@[simp] theorem wrReg_rgns (s : State) (w code : Nat) (ws : List (Nat × TWord)) : (wrReg s w code ws).rgns = s.rgns := by obtain ⟨_, _, h⟩ := wrReg_eq s w code ws; rw [h]
@[simp] theorem wrReg_ownProg (s : State) (w code : Nat) (ws : List (Nat × TWord)) : (wrReg s w code ws).ownProg = s.ownProg := by obtain ⟨_, _, h⟩ := wrReg_eq s w code ws; rw [h]
@[simp] theorem wrReg_nodes (s : State) (w code : Nat) (ws : List (Nat × TWord)) : (wrReg s w code ws).nodes = s.nodes := by obtain ⟨_, _, h⟩ := wrReg_eq s w code ws; rw [h]
@[simp] theorem wrReg_graphs (s : State) (w code : Nat) (ws : List (Nat × TWord)) : (wrReg s w code ws).graphs = s.graphs := by obtain ⟨_, _, h⟩ := wrReg_eq s w code ws; rw [h]
@[simp] theorem wrReg_seqs (s : State) (w code : Nat) (ws : List (Nat × TWord)) : (wrReg s w code ws).seqs = s.seqs := by obtain ⟨_, _, h⟩ := wrReg_eq s w code ws; rw [h]
@[simp] theorem wrReg_nextNode (s : State) (w code : Nat) (ws : List (Nat × TWord)) : (wrReg s w code ws).nextNode = s.nextNode := by obtain ⟨_, _, h⟩ := wrReg_eq s w code ws; rw [h]
@[simp] theorem wrReg_sslots (s : State) (w code : Nat) (ws : List (Nat × TWord)) : (wrReg s w code ws).sslots = s.sslots := by obtain ⟨_, _, h⟩ := wrReg_eq s w code ws; rw [h]
@[simp] theorem wrReg_saves (s : State) (w code : Nat) (ws : List (Nat × TWord)) : (wrReg s w code ws).saves = s.saves := by obtain ⟨_, _, h⟩ := wrReg_eq s w code ws; rw [h]
@[simp] theorem wrReg_hslots (s : State) (w code : Nat) (ws : List (Nat × TWord)) : (wrReg s w code ws).hslots = s.hslots := by obtain ⟨_, _, h⟩ := wrReg_eq s w code ws; rw [h]
@[simp] theorem wrReg_hdiscard (s : State) (w code : Nat) (ws : List (Nat × TWord)) : (wrReg s w code ws).hdiscard = s.hdiscard := by obtain ⟨_, _, h⟩ := wrReg_eq s w code ws; rw [h]
@[simp] theorem wrReg_hostQ (s : State) (w code : Nat) (ws : List (Nat × TWord)) : (wrReg s w code ws).hostQ = s.hostQ := by obtain ⟨_, _, h⟩ := wrReg_eq s w code ws; rw [h]
@[simp] theorem wrReg_rsreg (s : State) (w code : Nat) (ws : List (Nat × TWord)) : (wrReg s w code ws).rsreg = s.rsreg := by obtain ⟨_, _, h⟩ := wrReg_eq s w code ws; rw [h]
@[simp] theorem wrReg_rsdesc (s : State) (w code : Nat) (ws : List (Nat × TWord)) : (wrReg s w code ws).rsdesc = s.rsdesc := by obtain ⟨_, _, h⟩ := wrReg_eq s w code ws; rw [h]
@[simp] theorem wrReg_rsstep (s : State) (w code : Nat) (ws : List (Nat × TWord)) : (wrReg s w code ws).rsstep = s.rsstep := by obtain ⟨_, _, h⟩ := wrReg_eq s w code ws; rw [h]
@[simp] theorem wrReg_rsstat (s : State) (w code : Nat) (ws : List (Nat × TWord)) : (wrReg s w code ws).rsstat = s.rsstat := by obtain ⟨_, _, h⟩ := wrReg_eq s w code ws; rw [h]
@[simp] theorem wrReg_mgmt (s : State) (w code : Nat) (ws : List (Nat × TWord)) : (wrReg s w code ws).mgmt = s.mgmt := by obtain ⟨_, _, h⟩ := wrReg_eq s w code ws; rw [h]
@[simp] theorem wrReg_rays (s : State) (w code : Nat) (ws : List (Nat × TWord)) : (wrReg s w code ws).rays = s.rays := by obtain ⟨_, _, h⟩ := wrReg_eq s w code ws; rw [h]
@[simp] theorem wrReg_lht (s : State) (w code : Nat) (ws : List (Nat × TWord)) : (wrReg s w code ws).lht = s.lht := by obtain ⟨_, _, h⟩ := wrReg_eq s w code ws; rw [h]
@[simp] theorem wrReg_lhtCnt (s : State) (w code : Nat) (ws : List (Nat × TWord)) : (wrReg s w code ws).lhtCnt = s.lhtCnt := by obtain ⟨_, _, h⟩ := wrReg_eq s w code ws; rw [h]
@[simp] theorem wrReg_staged (s : State) (w code : Nat) (ws : List (Nat × TWord)) : (wrReg s w code ws).staged = s.staged := by obtain ⟨_, _, h⟩ := wrReg_eq s w code ws; rw [h]
@[simp] theorem wrReg_suspects (s : State) (w code : Nat) (ws : List (Nat × TWord)) : (wrReg s w code ws).suspects = s.suspects := by obtain ⟨_, _, h⟩ := wrReg_eq s w code ws; rw [h]
@[simp] theorem wrReg_replays (s : State) (w code : Nat) (ws : List (Nat × TWord)) : (wrReg s w code ws).replays = s.replays := by obtain ⟨_, _, h⟩ := wrReg_eq s w code ws; rw [h]
@[simp] theorem wrReg_sent (s : State) (w code : Nat) (ws : List (Nat × TWord)) : (wrReg s w code ws).sent = s.sent := by obtain ⟨_, _, h⟩ := wrReg_eq s w code ws; rw [h]
@[simp] theorem wrReg_outRead (s : State) (w code : Nat) (ws : List (Nat × TWord)) : (wrReg s w code ws).outRead = s.outRead := by obtain ⟨_, _, h⟩ := wrReg_eq s w code ws; rw [h]
@[simp] theorem wrReg_hostOut (s : State) (w code : Nat) (ws : List (Nat × TWord)) : (wrReg s w code ws).hostOut = s.hostOut := by obtain ⟨_, _, h⟩ := wrReg_eq s w code ws; rw [h]

/-! ### writeNow -/

@[simp] theorem writeNow_agenda (s : State) (w code : Nat) (ws : List (Nat × TWord)) : (writeNow s w code ws).agenda = s.agenda := by obtain ⟨_, _, _, _, h⟩ := writeNow_eq s w code ws; rw [h]
@[simp] theorem writeNow_cur (s : State) (w code : Nat) (ws : List (Nat × TWord)) : (writeNow s w code ws).cur = s.cur := by obtain ⟨_, _, _, _, h⟩ := writeNow_eq s w code ws; rw [h]
@[simp] theorem writeNow_cur2 (s : State) (w code : Nat) (ws : List (Nat × TWord)) : (writeNow s w code ws).cur2 = s.cur2 := by obtain ⟨_, _, _, _, h⟩ := writeNow_eq s w code ws; rw [h]
@[simp] theorem writeNow_free (s : State) (w code : Nat) (ws : List (Nat × TWord)) : (writeNow s w code ws).free = s.free := by obtain ⟨_, _, _, _, h⟩ := writeNow_eq s w code ws; rw [h]
@[simp] theorem writeNow_nextOp (s : State) (w code : Nat) (ws : List (Nat × TWord)) : (writeNow s w code ws).nextOp = s.nextOp := by obtain ⟨_, _, _, _, h⟩ := writeNow_eq s w code ws; rw [h]
@[simp] theorem writeNow_nextBlk (s : State) (w code : Nat) (ws : List (Nat × TWord)) : (writeNow s w code ws).nextBlk = s.nextBlk := by obtain ⟨_, _, _, _, h⟩ := writeNow_eq s w code ws; rw [h]
@[simp] theorem writeNow_fsr (s : State) (w code : Nat) (ws : List (Nat × TWord)) : (writeNow s w code ws).fsr = s.fsr := by obtain ⟨_, _, _, _, h⟩ := writeNow_eq s w code ws; rw [h]
@[simp] theorem writeNow_tval (s : State) (w code : Nat) (ws : List (Nat × TWord)) : (writeNow s w code ws).tval = s.tval := by obtain ⟨_, _, _, _, h⟩ := writeNow_eq s w code ws; rw [h]
@[simp] theorem writeNow_sval (s : State) (w code : Nat) (ws : List (Nat × TWord)) : (writeNow s w code ws).sval = s.sval := by obtain ⟨_, _, _, _, h⟩ := writeNow_eq s w code ws; rw [h]
@[simp] theorem writeNow_queues (s : State) (w code : Nat) (ws : List (Nat × TWord)) : (writeNow s w code ws).queues = s.queues := by obtain ⟨_, _, _, _, h⟩ := writeNow_eq s w code ws; rw [h]
@[simp] theorem writeNow_bn (s : State) (w code : Nat) (ws : List (Nat × TWord)) : (writeNow s w code ws).bn = s.bn := by obtain ⟨_, _, _, _, h⟩ := writeNow_eq s w code ws; rw [h]
@[simp] theorem writeNow_warps (s : State) (w code : Nat) (ws : List (Nat × TWord)) : (writeNow s w code ws).warps = s.warps := by obtain ⟨_, _, _, _, h⟩ := writeNow_eq s w code ws; rw [h]
@[simp] theorem writeNow_blocks (s : State) (w code : Nat) (ws : List (Nat × TWord)) : (writeNow s w code ws).blocks = s.blocks := by obtain ⟨_, _, _, _, h⟩ := writeNow_eq s w code ws; rw [h]
@[simp] theorem writeNow_bnPend (s : State) (w code : Nat) (ws : List (Nat × TWord)) : (writeNow s w code ws).bnPend = s.bnPend := by obtain ⟨_, _, _, _, h⟩ := writeNow_eq s w code ws; rw [h]
@[simp] theorem writeNow_cores (s : State) (w code : Nat) (ws : List (Nat × TWord)) : (writeNow s w code ws).cores = s.cores := by obtain ⟨_, _, _, _, h⟩ := writeNow_eq s w code ws; rw [h]
@[simp] theorem writeNow_quarters (s : State) (w code : Nat) (ws : List (Nat × TWord)) : (writeNow s w code ws).quarters = s.quarters := by obtain ⟨_, _, _, _, h⟩ := writeNow_eq s w code ws; rw [h]
@[simp] theorem writeNow_growQ (s : State) (w code : Nat) (ws : List (Nat × TWord)) : (writeNow s w code ws).growQ = s.growQ := by obtain ⟨_, _, _, _, h⟩ := writeNow_eq s w code ws; rw [h]
@[simp] theorem writeNow_dies (s : State) (w code : Nat) (ws : List (Nat × TWord)) : (writeNow s w code ws).dies = s.dies := by obtain ⟨_, _, _, _, h⟩ := writeNow_eq s w code ws; rw [h]
@[simp] theorem writeNow_pkg (s : State) (w code : Nat) (ws : List (Nat × TWord)) : (writeNow s w code ws).pkg = s.pkg := by obtain ⟨_, _, _, _, h⟩ := writeNow_eq s w code ws; rw [h]
@[simp] theorem writeNow_tlb (s : State) (w code : Nat) (ws : List (Nat × TWord)) : (writeNow s w code ws).tlb = s.tlb := by obtain ⟨_, _, _, _, h⟩ := writeNow_eq s w code ws; rw [h]
@[simp] theorem writeNow_owners (s : State) (w code : Nat) (ws : List (Nat × TWord)) : (writeNow s w code ws).owners = s.owners := by obtain ⟨_, _, _, _, h⟩ := writeNow_eq s w code ws; rw [h]
@[simp] theorem writeNow_poison (s : State) (w code : Nat) (ws : List (Nat × TWord)) : (writeNow s w code ws).poison = s.poison := by obtain ⟨_, _, _, _, h⟩ := writeNow_eq s w code ws; rw [h]
@[simp] theorem writeNow_frozen (s : State) (w code : Nat) (ws : List (Nat × TWord)) : (writeNow s w code ws).frozen = s.frozen := by obtain ⟨_, _, _, _, h⟩ := writeNow_eq s w code ws; rw [h]
@[simp] theorem writeNow_swc (s : State) (w code : Nat) (ws : List (Nat × TWord)) : (writeNow s w code ws).swc = s.swc := by obtain ⟨_, _, _, _, h⟩ := writeNow_eq s w code ws; rw [h]
@[simp] theorem writeNow_dcLru (s : State) (w code : Nat) (ws : List (Nat × TWord)) : (writeNow s w code ws).dcLru = s.dcLru := by obtain ⟨_, _, _, _, h⟩ := writeNow_eq s w code ws; rw [h]
@[simp] theorem writeNow_poolOld (s : State) (w code : Nat) (ws : List (Nat × TWord)) : (writeNow s w code ws).poolOld = s.poolOld := by obtain ⟨_, _, _, _, h⟩ := writeNow_eq s w code ws; rw [h]
@[simp] theorem writeNow_prov (s : State) (w code : Nat) (ws : List (Nat × TWord)) : (writeNow s w code ws).prov = s.prov := by obtain ⟨_, _, _, _, h⟩ := writeNow_eq s w code ws; rw [h]
@[simp] theorem writeNow_granules (s : State) (w code : Nat) (ws : List (Nat × TWord)) : (writeNow s w code ws).granules = s.granules := by obtain ⟨_, _, _, _, h⟩ := writeNow_eq s w code ws; rw [h]
@[simp] theorem writeNow_marks (s : State) (w code : Nat) (ws : List (Nat × TWord)) : (writeNow s w code ws).marks = s.marks := by obtain ⟨_, _, _, _, h⟩ := writeNow_eq s w code ws; rw [h]
@[simp] theorem writeNow_acquired (s : State) (w code : Nat) (ws : List (Nat × TWord)) : (writeNow s w code ws).acquired = s.acquired := by obtain ⟨_, _, _, _, h⟩ := writeNow_eq s w code ws; rw [h]
@[simp] theorem writeNow_fenceMarks (s : State) (w code : Nat) (ws : List (Nat × TWord)) : (writeNow s w code ws).fenceMarks = s.fenceMarks := by obtain ⟨_, _, _, _, h⟩ := writeNow_eq s w code ws; rw [h]
@[simp] theorem writeNow_scMarks (s : State) (w code : Nat) (ws : List (Nat × TWord)) : (writeNow s w code ws).scMarks = s.scMarks := by obtain ⟨_, _, _, _, h⟩ := writeNow_eq s w code ws; rw [h]
@[simp] theorem writeNow_seen (s : State) (w code : Nat) (ws : List (Nat × TWord)) : (writeNow s w code ws).seen = s.seen := by obtain ⟨_, _, _, _, h⟩ := writeNow_eq s w code ws; rw [h]
@[simp] theorem writeNow_routes (s : State) (w code : Nat) (ws : List (Nat × TWord)) : (writeNow s w code ws).routes = s.routes := by obtain ⟨_, _, _, _, h⟩ := writeNow_eq s w code ws; rw [h]
@[simp] theorem writeNow_regions (s : State) (w code : Nat) (ws : List (Nat × TWord)) : (writeNow s w code ws).regions = s.regions := by obtain ⟨_, _, _, _, h⟩ := writeNow_eq s w code ws; rw [h]
@[simp] theorem writeNow_cks (s : State) (w code : Nat) (ws : List (Nat × TWord)) : (writeNow s w code ws).cks = s.cks := by obtain ⟨_, _, _, _, h⟩ := writeNow_eq s w code ws; rw [h]
@[simp] theorem writeNow_vmarks (s : State) (w code : Nat) (ws : List (Nat × TWord)) : (writeNow s w code ws).vmarks = s.vmarks := by obtain ⟨_, _, _, _, h⟩ := writeNow_eq s w code ws; rw [h]
@[simp] theorem writeNow_pools (s : State) (w code : Nat) (ws : List (Nat × TWord)) : (writeNow s w code ws).pools = s.pools := by obtain ⟨_, _, _, _, h⟩ := writeNow_eq s w code ws; rw [h]
@[simp] theorem writeNow_mem (s : State) (w code : Nat) (ws : List (Nat × TWord)) : (writeNow s w code ws).mem = s.mem := by obtain ⟨_, _, _, _, h⟩ := writeNow_eq s w code ws; rw [h]
@[simp] theorem writeNow_suspectVas (s : State) (w code : Nat) (ws : List (Nat × TWord)) : (writeNow s w code ws).suspectVas = s.suspectVas := by obtain ⟨_, _, _, _, h⟩ := writeNow_eq s w code ws; rw [h]
@[simp] theorem writeNow_provFull (s : State) (w code : Nat) (ws : List (Nat × TWord)) : (writeNow s w code ws).provFull = s.provFull := by obtain ⟨_, _, _, _, h⟩ := writeNow_eq s w code ws; rw [h]
@[simp] theorem writeNow_icode (s : State) (w code : Nat) (ws : List (Nat × TWord)) : (writeNow s w code ws).icode = s.icode := by obtain ⟨_, _, _, _, h⟩ := writeNow_eq s w code ws; rw [h]
@[simp] theorem writeNow_stalls (s : State) (w code : Nat) (ws : List (Nat × TWord)) : (writeNow s w code ws).stalls = s.stalls := by obtain ⟨_, _, _, _, h⟩ := writeNow_eq s w code ws; rw [h]
@[simp] theorem writeNow_prq (s : State) (w code : Nat) (ws : List (Nat × TWord)) : (writeNow s w code ws).prq = s.prq := by obtain ⟨_, _, _, _, h⟩ := writeNow_eq s w code ws; rw [h]
@[simp] theorem writeNow_chans (s : State) (w code : Nat) (ws : List (Nat × TWord)) : (writeNow s w code ws).chans = s.chans := by obtain ⟨_, _, _, _, h⟩ := writeNow_eq s w code ws; rw [h]
@[simp] theorem writeNow_aos (s : State) (w code : Nat) (ws : List (Nat × TWord)) : (writeNow s w code ws).aos = s.aos := by obtain ⟨_, _, _, _, h⟩ := writeNow_eq s w code ws; rw [h]
@[simp] theorem writeNow_cbars (s : State) (w code : Nat) (ws : List (Nat × TWord)) : (writeNow s w code ws).cbars = s.cbars := by obtain ⟨_, _, _, _, h⟩ := writeNow_eq s w code ws; rw [h]
@[simp] theorem writeNow_tds (s : State) (w code : Nat) (ws : List (Nat × TWord)) : (writeNow s w code ws).tds = s.tds := by obtain ⟨_, _, _, _, h⟩ := writeNow_eq s w code ws; rw [h]
@[simp] theorem writeNow_cbs (s : State) (w code : Nat) (ws : List (Nat × TWord)) : (writeNow s w code ws).cbs = s.cbs := by obtain ⟨_, _, _, _, h⟩ := writeNow_eq s w code ws; rw [h]
@[simp] theorem writeNow_fwd (s : State) (w code : Nat) (ws : List (Nat × TWord)) : (writeNow s w code ws).fwd = s.fwd := by obtain ⟨_, _, _, _, h⟩ := writeNow_eq s w code ws; rw [h]
@[simp] theorem writeNow_fwdEnts (s : State) (w code : Nat) (ws : List (Nat × TWord)) : (writeNow s w code ws).fwdEnts = s.fwdEnts := by obtain ⟨_, _, _, _, h⟩ := writeNow_eq s w code ws; rw [h]
@[simp] theorem writeNow_tstat (s : State) (w code : Nat) (ws : List (Nat × TWord)) : (writeNow s w code ws).tstat = s.tstat := by obtain ⟨_, _, _, _, h⟩ := writeNow_eq s w code ws; rw [h]
@[simp] theorem writeNow_tpois (s : State) (w code : Nat) (ws : List (Nat × TWord)) : (writeNow s w code ws).tpois = s.tpois := by obtain ⟨_, _, _, _, h⟩ := writeNow_eq s w code ws; rw [h]
@[simp] theorem writeNow_vents (s : State) (w code : Nat) (ws : List (Nat × TWord)) : (writeNow s w code ws).vents = s.vents := by obtain ⟨_, _, _, _, h⟩ := writeNow_eq s w code ws; rw [h]
@[simp] theorem writeNow_vmeta (s : State) (w code : Nat) (ws : List (Nat × TWord)) : (writeNow s w code ws).vmeta = s.vmeta := by obtain ⟨_, _, _, _, h⟩ := writeNow_eq s w code ws; rw [h]
@[simp] theorem writeNow_vseq (s : State) (w code : Nat) (ws : List (Nat × TWord)) : (writeNow s w code ws).vseq = s.vseq := by obtain ⟨_, _, _, _, h⟩ := writeNow_eq s w code ws; rw [h]
@[simp] theorem writeNow_vcap (s : State) (w code : Nat) (ws : List (Nat × TWord)) : (writeNow s w code ws).vcap = s.vcap := by obtain ⟨_, _, _, _, h⟩ := writeNow_eq s w code ws; rw [h]
@[simp] theorem writeNow_flashEnts (s : State) (w code : Nat) (ws : List (Nat × TWord)) : (writeNow s w code ws).flashEnts = s.flashEnts := by obtain ⟨_, _, _, _, h⟩ := writeNow_eq s w code ws; rw [h]
@[simp] theorem writeNow_flashMeta (s : State) (w code : Nat) (ws : List (Nat × TWord)) : (writeNow s w code ws).flashMeta = s.flashMeta := by obtain ⟨_, _, _, _, h⟩ := writeNow_eq s w code ws; rw [h]
@[simp] theorem writeNow_mail (s : State) (w code : Nat) (ws : List (Nat × TWord)) : (writeNow s w code ws).mail = s.mail := by obtain ⟨_, _, _, _, h⟩ := writeNow_eq s w code ws; rw [h]
@[simp] theorem writeNow_mailOut (s : State) (w code : Nat) (ws : List (Nat × TWord)) : (writeNow s w code ws).mailOut = s.mailOut := by obtain ⟨_, _, _, _, h⟩ := writeNow_eq s w code ws; rw [h]
@[simp] theorem writeNow_rgns (s : State) (w code : Nat) (ws : List (Nat × TWord)) : (writeNow s w code ws).rgns = s.rgns := by obtain ⟨_, _, _, _, h⟩ := writeNow_eq s w code ws; rw [h]
@[simp] theorem writeNow_ownProg (s : State) (w code : Nat) (ws : List (Nat × TWord)) : (writeNow s w code ws).ownProg = s.ownProg := by obtain ⟨_, _, _, _, h⟩ := writeNow_eq s w code ws; rw [h]
@[simp] theorem writeNow_nodes (s : State) (w code : Nat) (ws : List (Nat × TWord)) : (writeNow s w code ws).nodes = s.nodes := by obtain ⟨_, _, _, _, h⟩ := writeNow_eq s w code ws; rw [h]
@[simp] theorem writeNow_graphs (s : State) (w code : Nat) (ws : List (Nat × TWord)) : (writeNow s w code ws).graphs = s.graphs := by obtain ⟨_, _, _, _, h⟩ := writeNow_eq s w code ws; rw [h]
@[simp] theorem writeNow_seqs (s : State) (w code : Nat) (ws : List (Nat × TWord)) : (writeNow s w code ws).seqs = s.seqs := by obtain ⟨_, _, _, _, h⟩ := writeNow_eq s w code ws; rw [h]
@[simp] theorem writeNow_nextNode (s : State) (w code : Nat) (ws : List (Nat × TWord)) : (writeNow s w code ws).nextNode = s.nextNode := by obtain ⟨_, _, _, _, h⟩ := writeNow_eq s w code ws; rw [h]
@[simp] theorem writeNow_sslots (s : State) (w code : Nat) (ws : List (Nat × TWord)) : (writeNow s w code ws).sslots = s.sslots := by obtain ⟨_, _, _, _, h⟩ := writeNow_eq s w code ws; rw [h]
@[simp] theorem writeNow_saves (s : State) (w code : Nat) (ws : List (Nat × TWord)) : (writeNow s w code ws).saves = s.saves := by obtain ⟨_, _, _, _, h⟩ := writeNow_eq s w code ws; rw [h]
@[simp] theorem writeNow_hslots (s : State) (w code : Nat) (ws : List (Nat × TWord)) : (writeNow s w code ws).hslots = s.hslots := by obtain ⟨_, _, _, _, h⟩ := writeNow_eq s w code ws; rw [h]
@[simp] theorem writeNow_hdiscard (s : State) (w code : Nat) (ws : List (Nat × TWord)) : (writeNow s w code ws).hdiscard = s.hdiscard := by obtain ⟨_, _, _, _, h⟩ := writeNow_eq s w code ws; rw [h]
@[simp] theorem writeNow_hostQ (s : State) (w code : Nat) (ws : List (Nat × TWord)) : (writeNow s w code ws).hostQ = s.hostQ := by obtain ⟨_, _, _, _, h⟩ := writeNow_eq s w code ws; rw [h]
@[simp] theorem writeNow_rsreg (s : State) (w code : Nat) (ws : List (Nat × TWord)) : (writeNow s w code ws).rsreg = s.rsreg := by obtain ⟨_, _, _, _, h⟩ := writeNow_eq s w code ws; rw [h]
@[simp] theorem writeNow_rsdesc (s : State) (w code : Nat) (ws : List (Nat × TWord)) : (writeNow s w code ws).rsdesc = s.rsdesc := by obtain ⟨_, _, _, _, h⟩ := writeNow_eq s w code ws; rw [h]
@[simp] theorem writeNow_rsstep (s : State) (w code : Nat) (ws : List (Nat × TWord)) : (writeNow s w code ws).rsstep = s.rsstep := by obtain ⟨_, _, _, _, h⟩ := writeNow_eq s w code ws; rw [h]
@[simp] theorem writeNow_rsstat (s : State) (w code : Nat) (ws : List (Nat × TWord)) : (writeNow s w code ws).rsstat = s.rsstat := by obtain ⟨_, _, _, _, h⟩ := writeNow_eq s w code ws; rw [h]
@[simp] theorem writeNow_mgmt (s : State) (w code : Nat) (ws : List (Nat × TWord)) : (writeNow s w code ws).mgmt = s.mgmt := by obtain ⟨_, _, _, _, h⟩ := writeNow_eq s w code ws; rw [h]
@[simp] theorem writeNow_rays (s : State) (w code : Nat) (ws : List (Nat × TWord)) : (writeNow s w code ws).rays = s.rays := by obtain ⟨_, _, _, _, h⟩ := writeNow_eq s w code ws; rw [h]
@[simp] theorem writeNow_lht (s : State) (w code : Nat) (ws : List (Nat × TWord)) : (writeNow s w code ws).lht = s.lht := by obtain ⟨_, _, _, _, h⟩ := writeNow_eq s w code ws; rw [h]
@[simp] theorem writeNow_lhtCnt (s : State) (w code : Nat) (ws : List (Nat × TWord)) : (writeNow s w code ws).lhtCnt = s.lhtCnt := by obtain ⟨_, _, _, _, h⟩ := writeNow_eq s w code ws; rw [h]
@[simp] theorem writeNow_staged (s : State) (w code : Nat) (ws : List (Nat × TWord)) : (writeNow s w code ws).staged = s.staged := by obtain ⟨_, _, _, _, h⟩ := writeNow_eq s w code ws; rw [h]
@[simp] theorem writeNow_suspects (s : State) (w code : Nat) (ws : List (Nat × TWord)) : (writeNow s w code ws).suspects = s.suspects := by obtain ⟨_, _, _, _, h⟩ := writeNow_eq s w code ws; rw [h]
@[simp] theorem writeNow_replays (s : State) (w code : Nat) (ws : List (Nat × TWord)) : (writeNow s w code ws).replays = s.replays := by obtain ⟨_, _, _, _, h⟩ := writeNow_eq s w code ws; rw [h]
@[simp] theorem writeNow_sent (s : State) (w code : Nat) (ws : List (Nat × TWord)) : (writeNow s w code ws).sent = s.sent := by obtain ⟨_, _, _, _, h⟩ := writeNow_eq s w code ws; rw [h]
@[simp] theorem writeNow_outRead (s : State) (w code : Nat) (ws : List (Nat × TWord)) : (writeNow s w code ws).outRead = s.outRead := by obtain ⟨_, _, _, _, h⟩ := writeNow_eq s w code ws; rw [h]
@[simp] theorem writeNow_hostOut (s : State) (w code : Nat) (ws : List (Nat × TWord)) : (writeNow s w code ws).hostOut = s.hostOut := by obtain ⟨_, _, _, _, h⟩ := writeNow_eq s w code ws; rw [h]

/-! ### keepReplay -/

@[simp] theorem keepReplay_agenda (spec : OpSpec) (c : Ctx) (s1 s : State) : (keepReplay spec c s1 s).agenda = s.agenda := by obtain ⟨_, h⟩ := keepReplay_ex spec c s1 s; rw [h]
@[simp] theorem keepReplay_cur (spec : OpSpec) (c : Ctx) (s1 s : State) : (keepReplay spec c s1 s).cur = s.cur := by obtain ⟨_, h⟩ := keepReplay_ex spec c s1 s; rw [h]
@[simp] theorem keepReplay_cur2 (spec : OpSpec) (c : Ctx) (s1 s : State) : (keepReplay spec c s1 s).cur2 = s.cur2 := by obtain ⟨_, h⟩ := keepReplay_ex spec c s1 s; rw [h]
@[simp] theorem keepReplay_free (spec : OpSpec) (c : Ctx) (s1 s : State) : (keepReplay spec c s1 s).free = s.free := by obtain ⟨_, h⟩ := keepReplay_ex spec c s1 s; rw [h]
@[simp] theorem keepReplay_nextOp (spec : OpSpec) (c : Ctx) (s1 s : State) : (keepReplay spec c s1 s).nextOp = s.nextOp := by obtain ⟨_, h⟩ := keepReplay_ex spec c s1 s; rw [h]
@[simp] theorem keepReplay_nextBlk (spec : OpSpec) (c : Ctx) (s1 s : State) : (keepReplay spec c s1 s).nextBlk = s.nextBlk := by obtain ⟨_, h⟩ := keepReplay_ex spec c s1 s; rw [h]
@[simp] theorem keepReplay_vregs (spec : OpSpec) (c : Ctx) (s1 s : State) : (keepReplay spec c s1 s).vregs = s.vregs := by obtain ⟨_, h⟩ := keepReplay_ex spec c s1 s; rw [h]
@[simp] theorem keepReplay_sregs (spec : OpSpec) (c : Ctx) (s1 s : State) : (keepReplay spec c s1 s).sregs = s.sregs := by obtain ⟨_, h⟩ := keepReplay_ex spec c s1 s; rw [h]
@[simp] theorem keepReplay_fsr (spec : OpSpec) (c : Ctx) (s1 s : State) : (keepReplay spec c s1 s).fsr = s.fsr := by obtain ⟨_, h⟩ := keepReplay_ex spec c s1 s; rw [h]
@[simp] theorem keepReplay_tval (spec : OpSpec) (c : Ctx) (s1 s : State) : (keepReplay spec c s1 s).tval = s.tval := by obtain ⟨_, h⟩ := keepReplay_ex spec c s1 s; rw [h]
@[simp] theorem keepReplay_sval (spec : OpSpec) (c : Ctx) (s1 s : State) : (keepReplay spec c s1 s).sval = s.sval := by obtain ⟨_, h⟩ := keepReplay_ex spec c s1 s; rw [h]
@[simp] theorem keepReplay_queues (spec : OpSpec) (c : Ctx) (s1 s : State) : (keepReplay spec c s1 s).queues = s.queues := by obtain ⟨_, h⟩ := keepReplay_ex spec c s1 s; rw [h]
@[simp] theorem keepReplay_bn (spec : OpSpec) (c : Ctx) (s1 s : State) : (keepReplay spec c s1 s).bn = s.bn := by obtain ⟨_, h⟩ := keepReplay_ex spec c s1 s; rw [h]
@[simp] theorem keepReplay_warps (spec : OpSpec) (c : Ctx) (s1 s : State) : (keepReplay spec c s1 s).warps = s.warps := by obtain ⟨_, h⟩ := keepReplay_ex spec c s1 s; rw [h]
@[simp] theorem keepReplay_blocks (spec : OpSpec) (c : Ctx) (s1 s : State) : (keepReplay spec c s1 s).blocks = s.blocks := by obtain ⟨_, h⟩ := keepReplay_ex spec c s1 s; rw [h]
@[simp] theorem keepReplay_ops (spec : OpSpec) (c : Ctx) (s1 s : State) : (keepReplay spec c s1 s).ops = s.ops := by obtain ⟨_, h⟩ := keepReplay_ex spec c s1 s; rw [h]
@[simp] theorem keepReplay_pend (spec : OpSpec) (c : Ctx) (s1 s : State) : (keepReplay spec c s1 s).pend = s.pend := by obtain ⟨_, h⟩ := keepReplay_ex spec c s1 s; rw [h]
@[simp] theorem keepReplay_bnPend (spec : OpSpec) (c : Ctx) (s1 s : State) : (keepReplay spec c s1 s).bnPend = s.bnPend := by obtain ⟨_, h⟩ := keepReplay_ex spec c s1 s; rw [h]
@[simp] theorem keepReplay_cores (spec : OpSpec) (c : Ctx) (s1 s : State) : (keepReplay spec c s1 s).cores = s.cores := by obtain ⟨_, h⟩ := keepReplay_ex spec c s1 s; rw [h]
@[simp] theorem keepReplay_quarters (spec : OpSpec) (c : Ctx) (s1 s : State) : (keepReplay spec c s1 s).quarters = s.quarters := by obtain ⟨_, h⟩ := keepReplay_ex spec c s1 s; rw [h]
@[simp] theorem keepReplay_growQ (spec : OpSpec) (c : Ctx) (s1 s : State) : (keepReplay spec c s1 s).growQ = s.growQ := by obtain ⟨_, h⟩ := keepReplay_ex spec c s1 s; rw [h]
@[simp] theorem keepReplay_dies (spec : OpSpec) (c : Ctx) (s1 s : State) : (keepReplay spec c s1 s).dies = s.dies := by obtain ⟨_, h⟩ := keepReplay_ex spec c s1 s; rw [h]
@[simp] theorem keepReplay_pkg (spec : OpSpec) (c : Ctx) (s1 s : State) : (keepReplay spec c s1 s).pkg = s.pkg := by obtain ⟨_, h⟩ := keepReplay_ex spec c s1 s; rw [h]
@[simp] theorem keepReplay_tlb (spec : OpSpec) (c : Ctx) (s1 s : State) : (keepReplay spec c s1 s).tlb = s.tlb := by obtain ⟨_, h⟩ := keepReplay_ex spec c s1 s; rw [h]
@[simp] theorem keepReplay_owners (spec : OpSpec) (c : Ctx) (s1 s : State) : (keepReplay spec c s1 s).owners = s.owners := by obtain ⟨_, h⟩ := keepReplay_ex spec c s1 s; rw [h]
@[simp] theorem keepReplay_poison (spec : OpSpec) (c : Ctx) (s1 s : State) : (keepReplay spec c s1 s).poison = s.poison := by obtain ⟨_, h⟩ := keepReplay_ex spec c s1 s; rw [h]
@[simp] theorem keepReplay_frozen (spec : OpSpec) (c : Ctx) (s1 s : State) : (keepReplay spec c s1 s).frozen = s.frozen := by obtain ⟨_, h⟩ := keepReplay_ex spec c s1 s; rw [h]
@[simp] theorem keepReplay_swc (spec : OpSpec) (c : Ctx) (s1 s : State) : (keepReplay spec c s1 s).swc = s.swc := by obtain ⟨_, h⟩ := keepReplay_ex spec c s1 s; rw [h]
@[simp] theorem keepReplay_dcLru (spec : OpSpec) (c : Ctx) (s1 s : State) : (keepReplay spec c s1 s).dcLru = s.dcLru := by obtain ⟨_, h⟩ := keepReplay_ex spec c s1 s; rw [h]
@[simp] theorem keepReplay_poolOld (spec : OpSpec) (c : Ctx) (s1 s : State) : (keepReplay spec c s1 s).poolOld = s.poolOld := by obtain ⟨_, h⟩ := keepReplay_ex spec c s1 s; rw [h]
@[simp] theorem keepReplay_prov (spec : OpSpec) (c : Ctx) (s1 s : State) : (keepReplay spec c s1 s).prov = s.prov := by obtain ⟨_, h⟩ := keepReplay_ex spec c s1 s; rw [h]
@[simp] theorem keepReplay_granules (spec : OpSpec) (c : Ctx) (s1 s : State) : (keepReplay spec c s1 s).granules = s.granules := by obtain ⟨_, h⟩ := keepReplay_ex spec c s1 s; rw [h]
@[simp] theorem keepReplay_marks (spec : OpSpec) (c : Ctx) (s1 s : State) : (keepReplay spec c s1 s).marks = s.marks := by obtain ⟨_, h⟩ := keepReplay_ex spec c s1 s; rw [h]
@[simp] theorem keepReplay_acquired (spec : OpSpec) (c : Ctx) (s1 s : State) : (keepReplay spec c s1 s).acquired = s.acquired := by obtain ⟨_, h⟩ := keepReplay_ex spec c s1 s; rw [h]
@[simp] theorem keepReplay_fenceMarks (spec : OpSpec) (c : Ctx) (s1 s : State) : (keepReplay spec c s1 s).fenceMarks = s.fenceMarks := by obtain ⟨_, h⟩ := keepReplay_ex spec c s1 s; rw [h]
@[simp] theorem keepReplay_scMarks (spec : OpSpec) (c : Ctx) (s1 s : State) : (keepReplay spec c s1 s).scMarks = s.scMarks := by obtain ⟨_, h⟩ := keepReplay_ex spec c s1 s; rw [h]
@[simp] theorem keepReplay_seen (spec : OpSpec) (c : Ctx) (s1 s : State) : (keepReplay spec c s1 s).seen = s.seen := by obtain ⟨_, h⟩ := keepReplay_ex spec c s1 s; rw [h]
@[simp] theorem keepReplay_routes (spec : OpSpec) (c : Ctx) (s1 s : State) : (keepReplay spec c s1 s).routes = s.routes := by obtain ⟨_, h⟩ := keepReplay_ex spec c s1 s; rw [h]
@[simp] theorem keepReplay_regions (spec : OpSpec) (c : Ctx) (s1 s : State) : (keepReplay spec c s1 s).regions = s.regions := by obtain ⟨_, h⟩ := keepReplay_ex spec c s1 s; rw [h]
@[simp] theorem keepReplay_cks (spec : OpSpec) (c : Ctx) (s1 s : State) : (keepReplay spec c s1 s).cks = s.cks := by obtain ⟨_, h⟩ := keepReplay_ex spec c s1 s; rw [h]
@[simp] theorem keepReplay_vmarks (spec : OpSpec) (c : Ctx) (s1 s : State) : (keepReplay spec c s1 s).vmarks = s.vmarks := by obtain ⟨_, h⟩ := keepReplay_ex spec c s1 s; rw [h]
@[simp] theorem keepReplay_pools (spec : OpSpec) (c : Ctx) (s1 s : State) : (keepReplay spec c s1 s).pools = s.pools := by obtain ⟨_, h⟩ := keepReplay_ex spec c s1 s; rw [h]
@[simp] theorem keepReplay_mem (spec : OpSpec) (c : Ctx) (s1 s : State) : (keepReplay spec c s1 s).mem = s.mem := by obtain ⟨_, h⟩ := keepReplay_ex spec c s1 s; rw [h]
@[simp] theorem keepReplay_suspectVas (spec : OpSpec) (c : Ctx) (s1 s : State) : (keepReplay spec c s1 s).suspectVas = s.suspectVas := by obtain ⟨_, h⟩ := keepReplay_ex spec c s1 s; rw [h]
@[simp] theorem keepReplay_provFull (spec : OpSpec) (c : Ctx) (s1 s : State) : (keepReplay spec c s1 s).provFull = s.provFull := by obtain ⟨_, h⟩ := keepReplay_ex spec c s1 s; rw [h]
@[simp] theorem keepReplay_icode (spec : OpSpec) (c : Ctx) (s1 s : State) : (keepReplay spec c s1 s).icode = s.icode := by obtain ⟨_, h⟩ := keepReplay_ex spec c s1 s; rw [h]
@[simp] theorem keepReplay_stalls (spec : OpSpec) (c : Ctx) (s1 s : State) : (keepReplay spec c s1 s).stalls = s.stalls := by obtain ⟨_, h⟩ := keepReplay_ex spec c s1 s; rw [h]
@[simp] theorem keepReplay_prq (spec : OpSpec) (c : Ctx) (s1 s : State) : (keepReplay spec c s1 s).prq = s.prq := by obtain ⟨_, h⟩ := keepReplay_ex spec c s1 s; rw [h]
@[simp] theorem keepReplay_chans (spec : OpSpec) (c : Ctx) (s1 s : State) : (keepReplay spec c s1 s).chans = s.chans := by obtain ⟨_, h⟩ := keepReplay_ex spec c s1 s; rw [h]
@[simp] theorem keepReplay_aos (spec : OpSpec) (c : Ctx) (s1 s : State) : (keepReplay spec c s1 s).aos = s.aos := by obtain ⟨_, h⟩ := keepReplay_ex spec c s1 s; rw [h]
@[simp] theorem keepReplay_cbars (spec : OpSpec) (c : Ctx) (s1 s : State) : (keepReplay spec c s1 s).cbars = s.cbars := by obtain ⟨_, h⟩ := keepReplay_ex spec c s1 s; rw [h]
@[simp] theorem keepReplay_tds (spec : OpSpec) (c : Ctx) (s1 s : State) : (keepReplay spec c s1 s).tds = s.tds := by obtain ⟨_, h⟩ := keepReplay_ex spec c s1 s; rw [h]
@[simp] theorem keepReplay_cbs (spec : OpSpec) (c : Ctx) (s1 s : State) : (keepReplay spec c s1 s).cbs = s.cbs := by obtain ⟨_, h⟩ := keepReplay_ex spec c s1 s; rw [h]
@[simp] theorem keepReplay_fwd (spec : OpSpec) (c : Ctx) (s1 s : State) : (keepReplay spec c s1 s).fwd = s.fwd := by obtain ⟨_, h⟩ := keepReplay_ex spec c s1 s; rw [h]
@[simp] theorem keepReplay_fwdEnts (spec : OpSpec) (c : Ctx) (s1 s : State) : (keepReplay spec c s1 s).fwdEnts = s.fwdEnts := by obtain ⟨_, h⟩ := keepReplay_ex spec c s1 s; rw [h]
@[simp] theorem keepReplay_tstat (spec : OpSpec) (c : Ctx) (s1 s : State) : (keepReplay spec c s1 s).tstat = s.tstat := by obtain ⟨_, h⟩ := keepReplay_ex spec c s1 s; rw [h]
@[simp] theorem keepReplay_tpois (spec : OpSpec) (c : Ctx) (s1 s : State) : (keepReplay spec c s1 s).tpois = s.tpois := by obtain ⟨_, h⟩ := keepReplay_ex spec c s1 s; rw [h]
@[simp] theorem keepReplay_vents (spec : OpSpec) (c : Ctx) (s1 s : State) : (keepReplay spec c s1 s).vents = s.vents := by obtain ⟨_, h⟩ := keepReplay_ex spec c s1 s; rw [h]
@[simp] theorem keepReplay_vmeta (spec : OpSpec) (c : Ctx) (s1 s : State) : (keepReplay spec c s1 s).vmeta = s.vmeta := by obtain ⟨_, h⟩ := keepReplay_ex spec c s1 s; rw [h]
@[simp] theorem keepReplay_vseq (spec : OpSpec) (c : Ctx) (s1 s : State) : (keepReplay spec c s1 s).vseq = s.vseq := by obtain ⟨_, h⟩ := keepReplay_ex spec c s1 s; rw [h]
@[simp] theorem keepReplay_vcap (spec : OpSpec) (c : Ctx) (s1 s : State) : (keepReplay spec c s1 s).vcap = s.vcap := by obtain ⟨_, h⟩ := keepReplay_ex spec c s1 s; rw [h]
@[simp] theorem keepReplay_flashEnts (spec : OpSpec) (c : Ctx) (s1 s : State) : (keepReplay spec c s1 s).flashEnts = s.flashEnts := by obtain ⟨_, h⟩ := keepReplay_ex spec c s1 s; rw [h]
@[simp] theorem keepReplay_flashMeta (spec : OpSpec) (c : Ctx) (s1 s : State) : (keepReplay spec c s1 s).flashMeta = s.flashMeta := by obtain ⟨_, h⟩ := keepReplay_ex spec c s1 s; rw [h]
@[simp] theorem keepReplay_mail (spec : OpSpec) (c : Ctx) (s1 s : State) : (keepReplay spec c s1 s).mail = s.mail := by obtain ⟨_, h⟩ := keepReplay_ex spec c s1 s; rw [h]
@[simp] theorem keepReplay_mailOut (spec : OpSpec) (c : Ctx) (s1 s : State) : (keepReplay spec c s1 s).mailOut = s.mailOut := by obtain ⟨_, h⟩ := keepReplay_ex spec c s1 s; rw [h]
@[simp] theorem keepReplay_rgns (spec : OpSpec) (c : Ctx) (s1 s : State) : (keepReplay spec c s1 s).rgns = s.rgns := by obtain ⟨_, h⟩ := keepReplay_ex spec c s1 s; rw [h]
@[simp] theorem keepReplay_ownProg (spec : OpSpec) (c : Ctx) (s1 s : State) : (keepReplay spec c s1 s).ownProg = s.ownProg := by obtain ⟨_, h⟩ := keepReplay_ex spec c s1 s; rw [h]
@[simp] theorem keepReplay_nodes (spec : OpSpec) (c : Ctx) (s1 s : State) : (keepReplay spec c s1 s).nodes = s.nodes := by obtain ⟨_, h⟩ := keepReplay_ex spec c s1 s; rw [h]
@[simp] theorem keepReplay_graphs (spec : OpSpec) (c : Ctx) (s1 s : State) : (keepReplay spec c s1 s).graphs = s.graphs := by obtain ⟨_, h⟩ := keepReplay_ex spec c s1 s; rw [h]
@[simp] theorem keepReplay_seqs (spec : OpSpec) (c : Ctx) (s1 s : State) : (keepReplay spec c s1 s).seqs = s.seqs := by obtain ⟨_, h⟩ := keepReplay_ex spec c s1 s; rw [h]
@[simp] theorem keepReplay_nextNode (spec : OpSpec) (c : Ctx) (s1 s : State) : (keepReplay spec c s1 s).nextNode = s.nextNode := by obtain ⟨_, h⟩ := keepReplay_ex spec c s1 s; rw [h]
@[simp] theorem keepReplay_sslots (spec : OpSpec) (c : Ctx) (s1 s : State) : (keepReplay spec c s1 s).sslots = s.sslots := by obtain ⟨_, h⟩ := keepReplay_ex spec c s1 s; rw [h]
@[simp] theorem keepReplay_saves (spec : OpSpec) (c : Ctx) (s1 s : State) : (keepReplay spec c s1 s).saves = s.saves := by obtain ⟨_, h⟩ := keepReplay_ex spec c s1 s; rw [h]
@[simp] theorem keepReplay_hslots (spec : OpSpec) (c : Ctx) (s1 s : State) : (keepReplay spec c s1 s).hslots = s.hslots := by obtain ⟨_, h⟩ := keepReplay_ex spec c s1 s; rw [h]
@[simp] theorem keepReplay_hdiscard (spec : OpSpec) (c : Ctx) (s1 s : State) : (keepReplay spec c s1 s).hdiscard = s.hdiscard := by obtain ⟨_, h⟩ := keepReplay_ex spec c s1 s; rw [h]
@[simp] theorem keepReplay_hostQ (spec : OpSpec) (c : Ctx) (s1 s : State) : (keepReplay spec c s1 s).hostQ = s.hostQ := by obtain ⟨_, h⟩ := keepReplay_ex spec c s1 s; rw [h]
@[simp] theorem keepReplay_rsreg (spec : OpSpec) (c : Ctx) (s1 s : State) : (keepReplay spec c s1 s).rsreg = s.rsreg := by obtain ⟨_, h⟩ := keepReplay_ex spec c s1 s; rw [h]
@[simp] theorem keepReplay_rsdesc (spec : OpSpec) (c : Ctx) (s1 s : State) : (keepReplay spec c s1 s).rsdesc = s.rsdesc := by obtain ⟨_, h⟩ := keepReplay_ex spec c s1 s; rw [h]
@[simp] theorem keepReplay_rsstep (spec : OpSpec) (c : Ctx) (s1 s : State) : (keepReplay spec c s1 s).rsstep = s.rsstep := by obtain ⟨_, h⟩ := keepReplay_ex spec c s1 s; rw [h]
@[simp] theorem keepReplay_rsstat (spec : OpSpec) (c : Ctx) (s1 s : State) : (keepReplay spec c s1 s).rsstat = s.rsstat := by obtain ⟨_, h⟩ := keepReplay_ex spec c s1 s; rw [h]
@[simp] theorem keepReplay_mgmt (spec : OpSpec) (c : Ctx) (s1 s : State) : (keepReplay spec c s1 s).mgmt = s.mgmt := by obtain ⟨_, h⟩ := keepReplay_ex spec c s1 s; rw [h]
@[simp] theorem keepReplay_rays (spec : OpSpec) (c : Ctx) (s1 s : State) : (keepReplay spec c s1 s).rays = s.rays := by obtain ⟨_, h⟩ := keepReplay_ex spec c s1 s; rw [h]
@[simp] theorem keepReplay_lht (spec : OpSpec) (c : Ctx) (s1 s : State) : (keepReplay spec c s1 s).lht = s.lht := by obtain ⟨_, h⟩ := keepReplay_ex spec c s1 s; rw [h]
@[simp] theorem keepReplay_lhtCnt (spec : OpSpec) (c : Ctx) (s1 s : State) : (keepReplay spec c s1 s).lhtCnt = s.lhtCnt := by obtain ⟨_, h⟩ := keepReplay_ex spec c s1 s; rw [h]
@[simp] theorem keepReplay_staged (spec : OpSpec) (c : Ctx) (s1 s : State) : (keepReplay spec c s1 s).staged = s.staged := by obtain ⟨_, h⟩ := keepReplay_ex spec c s1 s; rw [h]
@[simp] theorem keepReplay_suspects (spec : OpSpec) (c : Ctx) (s1 s : State) : (keepReplay spec c s1 s).suspects = s.suspects := by obtain ⟨_, h⟩ := keepReplay_ex spec c s1 s; rw [h]
@[simp] theorem keepReplay_sent (spec : OpSpec) (c : Ctx) (s1 s : State) : (keepReplay spec c s1 s).sent = s.sent := by obtain ⟨_, h⟩ := keepReplay_ex spec c s1 s; rw [h]
@[simp] theorem keepReplay_outRead (spec : OpSpec) (c : Ctx) (s1 s : State) : (keepReplay spec c s1 s).outRead = s.outRead := by obtain ⟨_, h⟩ := keepReplay_ex spec c s1 s; rw [h]
@[simp] theorem keepReplay_hostOut (spec : OpSpec) (c : Ctx) (s1 s : State) : (keepReplay spec c s1 s).hostOut = s.hostOut := by obtain ⟨_, h⟩ := keepReplay_ex spec c s1 s; rw [h]

/-! ### startIssue -/

@[simp] theorem startIssue_agenda (s : State) (cu : Cur) (t : Nat) : (startIssue s cu t).agenda = s.agenda := rfl
@[simp] theorem startIssue_cur2 (s : State) (cu : Cur) (t : Nat) : (startIssue s cu t).cur2 = s.cur2 := rfl
@[simp] theorem startIssue_nextOp (s : State) (cu : Cur) (t : Nat) : (startIssue s cu t).nextOp = s.nextOp := rfl
@[simp] theorem startIssue_nextBlk (s : State) (cu : Cur) (t : Nat) : (startIssue s cu t).nextBlk = s.nextBlk := rfl
@[simp] theorem startIssue_vregs (s : State) (cu : Cur) (t : Nat) : (startIssue s cu t).vregs = s.vregs := rfl
@[simp] theorem startIssue_sregs (s : State) (cu : Cur) (t : Nat) : (startIssue s cu t).sregs = s.sregs := rfl
@[simp] theorem startIssue_fsr (s : State) (cu : Cur) (t : Nat) : (startIssue s cu t).fsr = s.fsr := rfl
@[simp] theorem startIssue_tval (s : State) (cu : Cur) (t : Nat) : (startIssue s cu t).tval = s.tval := rfl
@[simp] theorem startIssue_sval (s : State) (cu : Cur) (t : Nat) : (startIssue s cu t).sval = s.sval := rfl
@[simp] theorem startIssue_queues (s : State) (cu : Cur) (t : Nat) : (startIssue s cu t).queues = s.queues := rfl
@[simp] theorem startIssue_bn (s : State) (cu : Cur) (t : Nat) : (startIssue s cu t).bn = s.bn := rfl
@[simp] theorem startIssue_growQ (s : State) (cu : Cur) (t : Nat) : (startIssue s cu t).growQ = s.growQ := rfl
@[simp] theorem startIssue_dies (s : State) (cu : Cur) (t : Nat) : (startIssue s cu t).dies = s.dies := rfl
@[simp] theorem startIssue_pkg (s : State) (cu : Cur) (t : Nat) : (startIssue s cu t).pkg = s.pkg := rfl
@[simp] theorem startIssue_tlb (s : State) (cu : Cur) (t : Nat) : (startIssue s cu t).tlb = s.tlb := rfl
@[simp] theorem startIssue_owners (s : State) (cu : Cur) (t : Nat) : (startIssue s cu t).owners = s.owners := rfl
@[simp] theorem startIssue_poison (s : State) (cu : Cur) (t : Nat) : (startIssue s cu t).poison = s.poison := rfl
@[simp] theorem startIssue_frozen (s : State) (cu : Cur) (t : Nat) : (startIssue s cu t).frozen = s.frozen := rfl
@[simp] theorem startIssue_swc (s : State) (cu : Cur) (t : Nat) : (startIssue s cu t).swc = s.swc := rfl
@[simp] theorem startIssue_dcLru (s : State) (cu : Cur) (t : Nat) : (startIssue s cu t).dcLru = s.dcLru := rfl
@[simp] theorem startIssue_poolOld (s : State) (cu : Cur) (t : Nat) : (startIssue s cu t).poolOld = s.poolOld := rfl
@[simp] theorem startIssue_prov (s : State) (cu : Cur) (t : Nat) : (startIssue s cu t).prov = s.prov := rfl
@[simp] theorem startIssue_granules (s : State) (cu : Cur) (t : Nat) : (startIssue s cu t).granules = s.granules := rfl
@[simp] theorem startIssue_marks (s : State) (cu : Cur) (t : Nat) : (startIssue s cu t).marks = s.marks := rfl
@[simp] theorem startIssue_acquired (s : State) (cu : Cur) (t : Nat) : (startIssue s cu t).acquired = s.acquired := rfl
@[simp] theorem startIssue_fenceMarks (s : State) (cu : Cur) (t : Nat) : (startIssue s cu t).fenceMarks = s.fenceMarks := rfl
@[simp] theorem startIssue_scMarks (s : State) (cu : Cur) (t : Nat) : (startIssue s cu t).scMarks = s.scMarks := rfl
@[simp] theorem startIssue_seen (s : State) (cu : Cur) (t : Nat) : (startIssue s cu t).seen = s.seen := rfl
@[simp] theorem startIssue_routes (s : State) (cu : Cur) (t : Nat) : (startIssue s cu t).routes = s.routes := rfl
@[simp] theorem startIssue_regions (s : State) (cu : Cur) (t : Nat) : (startIssue s cu t).regions = s.regions := rfl
@[simp] theorem startIssue_cks (s : State) (cu : Cur) (t : Nat) : (startIssue s cu t).cks = s.cks := rfl
@[simp] theorem startIssue_vmarks (s : State) (cu : Cur) (t : Nat) : (startIssue s cu t).vmarks = s.vmarks := rfl
@[simp] theorem startIssue_pools (s : State) (cu : Cur) (t : Nat) : (startIssue s cu t).pools = s.pools := rfl
@[simp] theorem startIssue_suspectVas (s : State) (cu : Cur) (t : Nat) : (startIssue s cu t).suspectVas = s.suspectVas := rfl
@[simp] theorem startIssue_provFull (s : State) (cu : Cur) (t : Nat) : (startIssue s cu t).provFull = s.provFull := rfl
@[simp] theorem startIssue_icode (s : State) (cu : Cur) (t : Nat) : (startIssue s cu t).icode = s.icode := rfl
@[simp] theorem startIssue_stalls (s : State) (cu : Cur) (t : Nat) : (startIssue s cu t).stalls = s.stalls := rfl
@[simp] theorem startIssue_prq (s : State) (cu : Cur) (t : Nat) : (startIssue s cu t).prq = s.prq := rfl
@[simp] theorem startIssue_chans (s : State) (cu : Cur) (t : Nat) : (startIssue s cu t).chans = s.chans := rfl
@[simp] theorem startIssue_aos (s : State) (cu : Cur) (t : Nat) : (startIssue s cu t).aos = s.aos := rfl
@[simp] theorem startIssue_cbars (s : State) (cu : Cur) (t : Nat) : (startIssue s cu t).cbars = s.cbars := rfl
@[simp] theorem startIssue_tds (s : State) (cu : Cur) (t : Nat) : (startIssue s cu t).tds = s.tds := rfl
@[simp] theorem startIssue_cbs (s : State) (cu : Cur) (t : Nat) : (startIssue s cu t).cbs = s.cbs := rfl
@[simp] theorem startIssue_fwd (s : State) (cu : Cur) (t : Nat) : (startIssue s cu t).fwd = s.fwd := rfl
@[simp] theorem startIssue_fwdEnts (s : State) (cu : Cur) (t : Nat) : (startIssue s cu t).fwdEnts = s.fwdEnts := rfl
@[simp] theorem startIssue_tstat (s : State) (cu : Cur) (t : Nat) : (startIssue s cu t).tstat = s.tstat := rfl
@[simp] theorem startIssue_tpois (s : State) (cu : Cur) (t : Nat) : (startIssue s cu t).tpois = s.tpois := rfl
@[simp] theorem startIssue_vents (s : State) (cu : Cur) (t : Nat) : (startIssue s cu t).vents = s.vents := rfl
@[simp] theorem startIssue_vmeta (s : State) (cu : Cur) (t : Nat) : (startIssue s cu t).vmeta = s.vmeta := rfl
@[simp] theorem startIssue_vseq (s : State) (cu : Cur) (t : Nat) : (startIssue s cu t).vseq = s.vseq := rfl
@[simp] theorem startIssue_vcap (s : State) (cu : Cur) (t : Nat) : (startIssue s cu t).vcap = s.vcap := rfl
@[simp] theorem startIssue_flashEnts (s : State) (cu : Cur) (t : Nat) : (startIssue s cu t).flashEnts = s.flashEnts := rfl
@[simp] theorem startIssue_flashMeta (s : State) (cu : Cur) (t : Nat) : (startIssue s cu t).flashMeta = s.flashMeta := rfl
@[simp] theorem startIssue_mail (s : State) (cu : Cur) (t : Nat) : (startIssue s cu t).mail = s.mail := rfl
@[simp] theorem startIssue_mailOut (s : State) (cu : Cur) (t : Nat) : (startIssue s cu t).mailOut = s.mailOut := rfl
@[simp] theorem startIssue_rgns (s : State) (cu : Cur) (t : Nat) : (startIssue s cu t).rgns = s.rgns := rfl
@[simp] theorem startIssue_ownProg (s : State) (cu : Cur) (t : Nat) : (startIssue s cu t).ownProg = s.ownProg := rfl
@[simp] theorem startIssue_nodes (s : State) (cu : Cur) (t : Nat) : (startIssue s cu t).nodes = s.nodes := rfl
@[simp] theorem startIssue_graphs (s : State) (cu : Cur) (t : Nat) : (startIssue s cu t).graphs = s.graphs := rfl
@[simp] theorem startIssue_seqs (s : State) (cu : Cur) (t : Nat) : (startIssue s cu t).seqs = s.seqs := rfl
@[simp] theorem startIssue_nextNode (s : State) (cu : Cur) (t : Nat) : (startIssue s cu t).nextNode = s.nextNode := rfl
@[simp] theorem startIssue_sslots (s : State) (cu : Cur) (t : Nat) : (startIssue s cu t).sslots = s.sslots := rfl
@[simp] theorem startIssue_saves (s : State) (cu : Cur) (t : Nat) : (startIssue s cu t).saves = s.saves := rfl
@[simp] theorem startIssue_hslots (s : State) (cu : Cur) (t : Nat) : (startIssue s cu t).hslots = s.hslots := rfl
@[simp] theorem startIssue_hdiscard (s : State) (cu : Cur) (t : Nat) : (startIssue s cu t).hdiscard = s.hdiscard := rfl
@[simp] theorem startIssue_hostQ (s : State) (cu : Cur) (t : Nat) : (startIssue s cu t).hostQ = s.hostQ := rfl
@[simp] theorem startIssue_rsreg (s : State) (cu : Cur) (t : Nat) : (startIssue s cu t).rsreg = s.rsreg := rfl
@[simp] theorem startIssue_rsdesc (s : State) (cu : Cur) (t : Nat) : (startIssue s cu t).rsdesc = s.rsdesc := rfl
@[simp] theorem startIssue_rsstep (s : State) (cu : Cur) (t : Nat) : (startIssue s cu t).rsstep = s.rsstep := rfl
@[simp] theorem startIssue_rsstat (s : State) (cu : Cur) (t : Nat) : (startIssue s cu t).rsstat = s.rsstat := rfl
@[simp] theorem startIssue_mgmt (s : State) (cu : Cur) (t : Nat) : (startIssue s cu t).mgmt = s.mgmt := rfl
@[simp] theorem startIssue_rays (s : State) (cu : Cur) (t : Nat) : (startIssue s cu t).rays = s.rays := rfl
@[simp] theorem startIssue_lht (s : State) (cu : Cur) (t : Nat) : (startIssue s cu t).lht = s.lht := rfl
@[simp] theorem startIssue_lhtCnt (s : State) (cu : Cur) (t : Nat) : (startIssue s cu t).lhtCnt = s.lhtCnt := rfl
@[simp] theorem startIssue_staged (s : State) (cu : Cur) (t : Nat) : (startIssue s cu t).staged = s.staged := rfl
@[simp] theorem startIssue_suspects (s : State) (cu : Cur) (t : Nat) : (startIssue s cu t).suspects = s.suspects := rfl
@[simp] theorem startIssue_replays (s : State) (cu : Cur) (t : Nat) : (startIssue s cu t).replays = s.replays := rfl
@[simp] theorem startIssue_sent (s : State) (cu : Cur) (t : Nat) : (startIssue s cu t).sent = s.sent := rfl
@[simp] theorem startIssue_outRead (s : State) (cu : Cur) (t : Nat) : (startIssue s cu t).outRead = s.outRead := rfl
@[simp] theorem startIssue_hostOut (s : State) (cu : Cur) (t : Nat) : (startIssue s cu t).hostOut = s.hostOut := rfl

/-! ### atIssue -/

@[simp] theorem atIssue_agenda (s : State) (cu : Cur) : (atIssue s cu).agenda = s.agenda := rfl
@[simp] theorem atIssue_cur2 (s : State) (cu : Cur) : (atIssue s cu).cur2 = s.cur2 := rfl
@[simp] theorem atIssue_nextOp (s : State) (cu : Cur) : (atIssue s cu).nextOp = s.nextOp := rfl
@[simp] theorem atIssue_nextBlk (s : State) (cu : Cur) : (atIssue s cu).nextBlk = s.nextBlk := rfl
@[simp] theorem atIssue_vregs (s : State) (cu : Cur) : (atIssue s cu).vregs = s.vregs := rfl
@[simp] theorem atIssue_sregs (s : State) (cu : Cur) : (atIssue s cu).sregs = s.sregs := rfl
@[simp] theorem atIssue_fsr (s : State) (cu : Cur) : (atIssue s cu).fsr = s.fsr := rfl
@[simp] theorem atIssue_tval (s : State) (cu : Cur) : (atIssue s cu).tval = s.tval := rfl
@[simp] theorem atIssue_sval (s : State) (cu : Cur) : (atIssue s cu).sval = s.sval := rfl
@[simp] theorem atIssue_queues (s : State) (cu : Cur) : (atIssue s cu).queues = s.queues := rfl
@[simp] theorem atIssue_bn (s : State) (cu : Cur) : (atIssue s cu).bn = s.bn := rfl
@[simp] theorem atIssue_blocks (s : State) (cu : Cur) : (atIssue s cu).blocks = s.blocks := rfl
@[simp] theorem atIssue_ops (s : State) (cu : Cur) : (atIssue s cu).ops = s.ops := rfl
@[simp] theorem atIssue_growQ (s : State) (cu : Cur) : (atIssue s cu).growQ = s.growQ := rfl
@[simp] theorem atIssue_dies (s : State) (cu : Cur) : (atIssue s cu).dies = s.dies := rfl
@[simp] theorem atIssue_pkg (s : State) (cu : Cur) : (atIssue s cu).pkg = s.pkg := rfl
@[simp] theorem atIssue_tlb (s : State) (cu : Cur) : (atIssue s cu).tlb = s.tlb := rfl
@[simp] theorem atIssue_owners (s : State) (cu : Cur) : (atIssue s cu).owners = s.owners := rfl
@[simp] theorem atIssue_poison (s : State) (cu : Cur) : (atIssue s cu).poison = s.poison := rfl
@[simp] theorem atIssue_frozen (s : State) (cu : Cur) : (atIssue s cu).frozen = s.frozen := rfl
@[simp] theorem atIssue_swc (s : State) (cu : Cur) : (atIssue s cu).swc = s.swc := rfl
@[simp] theorem atIssue_dcLru (s : State) (cu : Cur) : (atIssue s cu).dcLru = s.dcLru := rfl
@[simp] theorem atIssue_poolOld (s : State) (cu : Cur) : (atIssue s cu).poolOld = s.poolOld := rfl
@[simp] theorem atIssue_prov (s : State) (cu : Cur) : (atIssue s cu).prov = s.prov := rfl
@[simp] theorem atIssue_granules (s : State) (cu : Cur) : (atIssue s cu).granules = s.granules := rfl
@[simp] theorem atIssue_marks (s : State) (cu : Cur) : (atIssue s cu).marks = s.marks := rfl
@[simp] theorem atIssue_acquired (s : State) (cu : Cur) : (atIssue s cu).acquired = s.acquired := rfl
@[simp] theorem atIssue_fenceMarks (s : State) (cu : Cur) : (atIssue s cu).fenceMarks = s.fenceMarks := rfl
@[simp] theorem atIssue_scMarks (s : State) (cu : Cur) : (atIssue s cu).scMarks = s.scMarks := rfl
@[simp] theorem atIssue_seen (s : State) (cu : Cur) : (atIssue s cu).seen = s.seen := rfl
@[simp] theorem atIssue_routes (s : State) (cu : Cur) : (atIssue s cu).routes = s.routes := rfl
@[simp] theorem atIssue_regions (s : State) (cu : Cur) : (atIssue s cu).regions = s.regions := rfl
@[simp] theorem atIssue_cks (s : State) (cu : Cur) : (atIssue s cu).cks = s.cks := rfl
@[simp] theorem atIssue_vmarks (s : State) (cu : Cur) : (atIssue s cu).vmarks = s.vmarks := rfl
@[simp] theorem atIssue_pools (s : State) (cu : Cur) : (atIssue s cu).pools = s.pools := rfl
@[simp] theorem atIssue_mem (s : State) (cu : Cur) : (atIssue s cu).mem = s.mem := rfl
@[simp] theorem atIssue_suspectVas (s : State) (cu : Cur) : (atIssue s cu).suspectVas = s.suspectVas := rfl
@[simp] theorem atIssue_provFull (s : State) (cu : Cur) : (atIssue s cu).provFull = s.provFull := rfl
@[simp] theorem atIssue_icode (s : State) (cu : Cur) : (atIssue s cu).icode = s.icode := rfl
@[simp] theorem atIssue_stalls (s : State) (cu : Cur) : (atIssue s cu).stalls = s.stalls := rfl
@[simp] theorem atIssue_prq (s : State) (cu : Cur) : (atIssue s cu).prq = s.prq := rfl
@[simp] theorem atIssue_chans (s : State) (cu : Cur) : (atIssue s cu).chans = s.chans := rfl
@[simp] theorem atIssue_aos (s : State) (cu : Cur) : (atIssue s cu).aos = s.aos := rfl
@[simp] theorem atIssue_cbars (s : State) (cu : Cur) : (atIssue s cu).cbars = s.cbars := rfl
@[simp] theorem atIssue_tds (s : State) (cu : Cur) : (atIssue s cu).tds = s.tds := rfl
@[simp] theorem atIssue_cbs (s : State) (cu : Cur) : (atIssue s cu).cbs = s.cbs := rfl
@[simp] theorem atIssue_fwd (s : State) (cu : Cur) : (atIssue s cu).fwd = s.fwd := rfl
@[simp] theorem atIssue_fwdEnts (s : State) (cu : Cur) : (atIssue s cu).fwdEnts = s.fwdEnts := rfl
@[simp] theorem atIssue_tstat (s : State) (cu : Cur) : (atIssue s cu).tstat = s.tstat := rfl
@[simp] theorem atIssue_tpois (s : State) (cu : Cur) : (atIssue s cu).tpois = s.tpois := rfl
@[simp] theorem atIssue_vents (s : State) (cu : Cur) : (atIssue s cu).vents = s.vents := rfl
@[simp] theorem atIssue_vmeta (s : State) (cu : Cur) : (atIssue s cu).vmeta = s.vmeta := rfl
@[simp] theorem atIssue_vseq (s : State) (cu : Cur) : (atIssue s cu).vseq = s.vseq := rfl
@[simp] theorem atIssue_vcap (s : State) (cu : Cur) : (atIssue s cu).vcap = s.vcap := rfl
@[simp] theorem atIssue_flashEnts (s : State) (cu : Cur) : (atIssue s cu).flashEnts = s.flashEnts := rfl
@[simp] theorem atIssue_flashMeta (s : State) (cu : Cur) : (atIssue s cu).flashMeta = s.flashMeta := rfl
@[simp] theorem atIssue_mail (s : State) (cu : Cur) : (atIssue s cu).mail = s.mail := rfl
@[simp] theorem atIssue_mailOut (s : State) (cu : Cur) : (atIssue s cu).mailOut = s.mailOut := rfl
@[simp] theorem atIssue_rgns (s : State) (cu : Cur) : (atIssue s cu).rgns = s.rgns := rfl
@[simp] theorem atIssue_ownProg (s : State) (cu : Cur) : (atIssue s cu).ownProg = s.ownProg := rfl
@[simp] theorem atIssue_nodes (s : State) (cu : Cur) : (atIssue s cu).nodes = s.nodes := rfl
@[simp] theorem atIssue_graphs (s : State) (cu : Cur) : (atIssue s cu).graphs = s.graphs := rfl
@[simp] theorem atIssue_seqs (s : State) (cu : Cur) : (atIssue s cu).seqs = s.seqs := rfl
@[simp] theorem atIssue_nextNode (s : State) (cu : Cur) : (atIssue s cu).nextNode = s.nextNode := rfl
@[simp] theorem atIssue_sslots (s : State) (cu : Cur) : (atIssue s cu).sslots = s.sslots := rfl
@[simp] theorem atIssue_saves (s : State) (cu : Cur) : (atIssue s cu).saves = s.saves := rfl
@[simp] theorem atIssue_hslots (s : State) (cu : Cur) : (atIssue s cu).hslots = s.hslots := rfl
@[simp] theorem atIssue_hdiscard (s : State) (cu : Cur) : (atIssue s cu).hdiscard = s.hdiscard := rfl
@[simp] theorem atIssue_hostQ (s : State) (cu : Cur) : (atIssue s cu).hostQ = s.hostQ := rfl
@[simp] theorem atIssue_rsreg (s : State) (cu : Cur) : (atIssue s cu).rsreg = s.rsreg := rfl
@[simp] theorem atIssue_rsdesc (s : State) (cu : Cur) : (atIssue s cu).rsdesc = s.rsdesc := rfl
@[simp] theorem atIssue_rsstep (s : State) (cu : Cur) : (atIssue s cu).rsstep = s.rsstep := rfl
@[simp] theorem atIssue_rsstat (s : State) (cu : Cur) : (atIssue s cu).rsstat = s.rsstat := rfl
@[simp] theorem atIssue_mgmt (s : State) (cu : Cur) : (atIssue s cu).mgmt = s.mgmt := rfl
@[simp] theorem atIssue_rays (s : State) (cu : Cur) : (atIssue s cu).rays = s.rays := rfl
@[simp] theorem atIssue_lht (s : State) (cu : Cur) : (atIssue s cu).lht = s.lht := rfl
@[simp] theorem atIssue_lhtCnt (s : State) (cu : Cur) : (atIssue s cu).lhtCnt = s.lhtCnt := rfl
@[simp] theorem atIssue_staged (s : State) (cu : Cur) : (atIssue s cu).staged = s.staged := rfl
@[simp] theorem atIssue_suspects (s : State) (cu : Cur) : (atIssue s cu).suspects = s.suspects := rfl
@[simp] theorem atIssue_replays (s : State) (cu : Cur) : (atIssue s cu).replays = s.replays := rfl
@[simp] theorem atIssue_sent (s : State) (cu : Cur) : (atIssue s cu).sent = s.sent := rfl
@[simp] theorem atIssue_outRead (s : State) (cu : Cur) : (atIssue s cu).outRead = s.outRead := rfl
@[simp] theorem atIssue_hostOut (s : State) (cu : Cur) : (atIssue s cu).hostOut = s.hostOut := rfl

/-! ### advance -/

@[simp] theorem advance_agenda (c : Ctx) (s : State) : (advance c s).agenda = s.agenda := rfl
@[simp] theorem advance_cur (c : Ctx) (s : State) : (advance c s).cur = s.cur := rfl
@[simp] theorem advance_cur2 (c : Ctx) (s : State) : (advance c s).cur2 = s.cur2 := rfl
@[simp] theorem advance_free (c : Ctx) (s : State) : (advance c s).free = s.free := rfl
@[simp] theorem advance_nextOp (c : Ctx) (s : State) : (advance c s).nextOp = s.nextOp := rfl
@[simp] theorem advance_nextBlk (c : Ctx) (s : State) : (advance c s).nextBlk = s.nextBlk := rfl
@[simp] theorem advance_vregs (c : Ctx) (s : State) : (advance c s).vregs = s.vregs := rfl
@[simp] theorem advance_sregs (c : Ctx) (s : State) : (advance c s).sregs = s.sregs := rfl
@[simp] theorem advance_fsr (c : Ctx) (s : State) : (advance c s).fsr = s.fsr := rfl
@[simp] theorem advance_tval (c : Ctx) (s : State) : (advance c s).tval = s.tval := rfl
@[simp] theorem advance_sval (c : Ctx) (s : State) : (advance c s).sval = s.sval := rfl
@[simp] theorem advance_queues (c : Ctx) (s : State) : (advance c s).queues = s.queues := rfl
@[simp] theorem advance_bn (c : Ctx) (s : State) : (advance c s).bn = s.bn := rfl
@[simp] theorem advance_blocks (c : Ctx) (s : State) : (advance c s).blocks = s.blocks := rfl
@[simp] theorem advance_ops (c : Ctx) (s : State) : (advance c s).ops = s.ops := rfl
@[simp] theorem advance_pend (c : Ctx) (s : State) : (advance c s).pend = s.pend := rfl
@[simp] theorem advance_bnPend (c : Ctx) (s : State) : (advance c s).bnPend = s.bnPend := rfl
@[simp] theorem advance_cores (c : Ctx) (s : State) : (advance c s).cores = s.cores := rfl
@[simp] theorem advance_quarters (c : Ctx) (s : State) : (advance c s).quarters = s.quarters := rfl
@[simp] theorem advance_growQ (c : Ctx) (s : State) : (advance c s).growQ = s.growQ := rfl
@[simp] theorem advance_dies (c : Ctx) (s : State) : (advance c s).dies = s.dies := rfl
@[simp] theorem advance_pkg (c : Ctx) (s : State) : (advance c s).pkg = s.pkg := rfl
@[simp] theorem advance_tlb (c : Ctx) (s : State) : (advance c s).tlb = s.tlb := rfl
@[simp] theorem advance_owners (c : Ctx) (s : State) : (advance c s).owners = s.owners := rfl
@[simp] theorem advance_poison (c : Ctx) (s : State) : (advance c s).poison = s.poison := rfl
@[simp] theorem advance_frozen (c : Ctx) (s : State) : (advance c s).frozen = s.frozen := rfl
@[simp] theorem advance_swc (c : Ctx) (s : State) : (advance c s).swc = s.swc := rfl
@[simp] theorem advance_dcLru (c : Ctx) (s : State) : (advance c s).dcLru = s.dcLru := rfl
@[simp] theorem advance_poolOld (c : Ctx) (s : State) : (advance c s).poolOld = s.poolOld := rfl
@[simp] theorem advance_prov (c : Ctx) (s : State) : (advance c s).prov = s.prov := rfl
@[simp] theorem advance_granules (c : Ctx) (s : State) : (advance c s).granules = s.granules := rfl
@[simp] theorem advance_marks (c : Ctx) (s : State) : (advance c s).marks = s.marks := rfl
@[simp] theorem advance_acquired (c : Ctx) (s : State) : (advance c s).acquired = s.acquired := rfl
@[simp] theorem advance_fenceMarks (c : Ctx) (s : State) : (advance c s).fenceMarks = s.fenceMarks := rfl
@[simp] theorem advance_scMarks (c : Ctx) (s : State) : (advance c s).scMarks = s.scMarks := rfl
@[simp] theorem advance_seen (c : Ctx) (s : State) : (advance c s).seen = s.seen := rfl
@[simp] theorem advance_routes (c : Ctx) (s : State) : (advance c s).routes = s.routes := rfl
@[simp] theorem advance_regions (c : Ctx) (s : State) : (advance c s).regions = s.regions := rfl
@[simp] theorem advance_cks (c : Ctx) (s : State) : (advance c s).cks = s.cks := rfl
@[simp] theorem advance_vmarks (c : Ctx) (s : State) : (advance c s).vmarks = s.vmarks := rfl
@[simp] theorem advance_pools (c : Ctx) (s : State) : (advance c s).pools = s.pools := rfl
@[simp] theorem advance_mem (c : Ctx) (s : State) : (advance c s).mem = s.mem := rfl
@[simp] theorem advance_suspectVas (c : Ctx) (s : State) : (advance c s).suspectVas = s.suspectVas := rfl
@[simp] theorem advance_provFull (c : Ctx) (s : State) : (advance c s).provFull = s.provFull := rfl
@[simp] theorem advance_icode (c : Ctx) (s : State) : (advance c s).icode = s.icode := rfl
@[simp] theorem advance_stalls (c : Ctx) (s : State) : (advance c s).stalls = s.stalls := rfl
@[simp] theorem advance_prq (c : Ctx) (s : State) : (advance c s).prq = s.prq := rfl
@[simp] theorem advance_chans (c : Ctx) (s : State) : (advance c s).chans = s.chans := rfl
@[simp] theorem advance_aos (c : Ctx) (s : State) : (advance c s).aos = s.aos := rfl
@[simp] theorem advance_cbars (c : Ctx) (s : State) : (advance c s).cbars = s.cbars := rfl
@[simp] theorem advance_tds (c : Ctx) (s : State) : (advance c s).tds = s.tds := rfl
@[simp] theorem advance_cbs (c : Ctx) (s : State) : (advance c s).cbs = s.cbs := rfl
@[simp] theorem advance_fwd (c : Ctx) (s : State) : (advance c s).fwd = s.fwd := rfl
@[simp] theorem advance_fwdEnts (c : Ctx) (s : State) : (advance c s).fwdEnts = s.fwdEnts := rfl
@[simp] theorem advance_tstat (c : Ctx) (s : State) : (advance c s).tstat = s.tstat := rfl
@[simp] theorem advance_tpois (c : Ctx) (s : State) : (advance c s).tpois = s.tpois := rfl
@[simp] theorem advance_vents (c : Ctx) (s : State) : (advance c s).vents = s.vents := rfl
@[simp] theorem advance_vmeta (c : Ctx) (s : State) : (advance c s).vmeta = s.vmeta := rfl
@[simp] theorem advance_vseq (c : Ctx) (s : State) : (advance c s).vseq = s.vseq := rfl
@[simp] theorem advance_vcap (c : Ctx) (s : State) : (advance c s).vcap = s.vcap := rfl
@[simp] theorem advance_flashEnts (c : Ctx) (s : State) : (advance c s).flashEnts = s.flashEnts := rfl
@[simp] theorem advance_flashMeta (c : Ctx) (s : State) : (advance c s).flashMeta = s.flashMeta := rfl
@[simp] theorem advance_mail (c : Ctx) (s : State) : (advance c s).mail = s.mail := rfl
@[simp] theorem advance_mailOut (c : Ctx) (s : State) : (advance c s).mailOut = s.mailOut := rfl
@[simp] theorem advance_rgns (c : Ctx) (s : State) : (advance c s).rgns = s.rgns := rfl
@[simp] theorem advance_ownProg (c : Ctx) (s : State) : (advance c s).ownProg = s.ownProg := rfl
@[simp] theorem advance_nodes (c : Ctx) (s : State) : (advance c s).nodes = s.nodes := rfl
@[simp] theorem advance_graphs (c : Ctx) (s : State) : (advance c s).graphs = s.graphs := rfl
@[simp] theorem advance_seqs (c : Ctx) (s : State) : (advance c s).seqs = s.seqs := rfl
@[simp] theorem advance_nextNode (c : Ctx) (s : State) : (advance c s).nextNode = s.nextNode := rfl
@[simp] theorem advance_sslots (c : Ctx) (s : State) : (advance c s).sslots = s.sslots := rfl
@[simp] theorem advance_saves (c : Ctx) (s : State) : (advance c s).saves = s.saves := rfl
@[simp] theorem advance_hslots (c : Ctx) (s : State) : (advance c s).hslots = s.hslots := rfl
@[simp] theorem advance_hdiscard (c : Ctx) (s : State) : (advance c s).hdiscard = s.hdiscard := rfl
@[simp] theorem advance_hostQ (c : Ctx) (s : State) : (advance c s).hostQ = s.hostQ := rfl
@[simp] theorem advance_rsreg (c : Ctx) (s : State) : (advance c s).rsreg = s.rsreg := rfl
@[simp] theorem advance_rsdesc (c : Ctx) (s : State) : (advance c s).rsdesc = s.rsdesc := rfl
@[simp] theorem advance_rsstep (c : Ctx) (s : State) : (advance c s).rsstep = s.rsstep := rfl
@[simp] theorem advance_rsstat (c : Ctx) (s : State) : (advance c s).rsstat = s.rsstat := rfl
@[simp] theorem advance_mgmt (c : Ctx) (s : State) : (advance c s).mgmt = s.mgmt := rfl
@[simp] theorem advance_rays (c : Ctx) (s : State) : (advance c s).rays = s.rays := rfl
@[simp] theorem advance_lht (c : Ctx) (s : State) : (advance c s).lht = s.lht := rfl
@[simp] theorem advance_lhtCnt (c : Ctx) (s : State) : (advance c s).lhtCnt = s.lhtCnt := rfl
@[simp] theorem advance_staged (c : Ctx) (s : State) : (advance c s).staged = s.staged := rfl
@[simp] theorem advance_suspects (c : Ctx) (s : State) : (advance c s).suspects = s.suspects := rfl
@[simp] theorem advance_replays (c : Ctx) (s : State) : (advance c s).replays = s.replays := rfl
@[simp] theorem advance_sent (c : Ctx) (s : State) : (advance c s).sent = s.sent := rfl
@[simp] theorem advance_outRead (c : Ctx) (s : State) : (advance c s).outRead = s.outRead := rfl
@[simp] theorem advance_hostOut (c : Ctx) (s : State) : (advance c s).hostOut = s.hostOut := rfl

/-! ### wakeAdvance -/

@[simp] theorem wakeAdvance_agenda (w k : Nat) (s : State) : (wakeAdvance w k s).agenda = s.agenda := rfl
@[simp] theorem wakeAdvance_cur (w k : Nat) (s : State) : (wakeAdvance w k s).cur = s.cur := rfl
@[simp] theorem wakeAdvance_cur2 (w k : Nat) (s : State) : (wakeAdvance w k s).cur2 = s.cur2 := rfl
@[simp] theorem wakeAdvance_free (w k : Nat) (s : State) : (wakeAdvance w k s).free = s.free := rfl
@[simp] theorem wakeAdvance_nextOp (w k : Nat) (s : State) : (wakeAdvance w k s).nextOp = s.nextOp := rfl
@[simp] theorem wakeAdvance_nextBlk (w k : Nat) (s : State) : (wakeAdvance w k s).nextBlk = s.nextBlk := rfl
@[simp] theorem wakeAdvance_vregs (w k : Nat) (s : State) : (wakeAdvance w k s).vregs = s.vregs := rfl
@[simp] theorem wakeAdvance_sregs (w k : Nat) (s : State) : (wakeAdvance w k s).sregs = s.sregs := rfl
@[simp] theorem wakeAdvance_fsr (w k : Nat) (s : State) : (wakeAdvance w k s).fsr = s.fsr := rfl
@[simp] theorem wakeAdvance_tval (w k : Nat) (s : State) : (wakeAdvance w k s).tval = s.tval := rfl
@[simp] theorem wakeAdvance_sval (w k : Nat) (s : State) : (wakeAdvance w k s).sval = s.sval := rfl
@[simp] theorem wakeAdvance_queues (w k : Nat) (s : State) : (wakeAdvance w k s).queues = s.queues := rfl
@[simp] theorem wakeAdvance_bn (w k : Nat) (s : State) : (wakeAdvance w k s).bn = s.bn := rfl
@[simp] theorem wakeAdvance_blocks (w k : Nat) (s : State) : (wakeAdvance w k s).blocks = s.blocks := rfl
@[simp] theorem wakeAdvance_ops (w k : Nat) (s : State) : (wakeAdvance w k s).ops = s.ops := rfl
@[simp] theorem wakeAdvance_pend (w k : Nat) (s : State) : (wakeAdvance w k s).pend = s.pend := rfl
@[simp] theorem wakeAdvance_bnPend (w k : Nat) (s : State) : (wakeAdvance w k s).bnPend = s.bnPend := rfl
@[simp] theorem wakeAdvance_cores (w k : Nat) (s : State) : (wakeAdvance w k s).cores = s.cores := rfl
@[simp] theorem wakeAdvance_quarters (w k : Nat) (s : State) : (wakeAdvance w k s).quarters = s.quarters := rfl
@[simp] theorem wakeAdvance_growQ (w k : Nat) (s : State) : (wakeAdvance w k s).growQ = s.growQ := rfl
@[simp] theorem wakeAdvance_dies (w k : Nat) (s : State) : (wakeAdvance w k s).dies = s.dies := rfl
@[simp] theorem wakeAdvance_pkg (w k : Nat) (s : State) : (wakeAdvance w k s).pkg = s.pkg := rfl
@[simp] theorem wakeAdvance_tlb (w k : Nat) (s : State) : (wakeAdvance w k s).tlb = s.tlb := rfl
@[simp] theorem wakeAdvance_owners (w k : Nat) (s : State) : (wakeAdvance w k s).owners = s.owners := rfl
@[simp] theorem wakeAdvance_poison (w k : Nat) (s : State) : (wakeAdvance w k s).poison = s.poison := rfl
@[simp] theorem wakeAdvance_frozen (w k : Nat) (s : State) : (wakeAdvance w k s).frozen = s.frozen := rfl
@[simp] theorem wakeAdvance_swc (w k : Nat) (s : State) : (wakeAdvance w k s).swc = s.swc := rfl
@[simp] theorem wakeAdvance_dcLru (w k : Nat) (s : State) : (wakeAdvance w k s).dcLru = s.dcLru := rfl
@[simp] theorem wakeAdvance_poolOld (w k : Nat) (s : State) : (wakeAdvance w k s).poolOld = s.poolOld := rfl
@[simp] theorem wakeAdvance_prov (w k : Nat) (s : State) : (wakeAdvance w k s).prov = s.prov := rfl
@[simp] theorem wakeAdvance_granules (w k : Nat) (s : State) : (wakeAdvance w k s).granules = s.granules := rfl
@[simp] theorem wakeAdvance_marks (w k : Nat) (s : State) : (wakeAdvance w k s).marks = s.marks := rfl
@[simp] theorem wakeAdvance_acquired (w k : Nat) (s : State) : (wakeAdvance w k s).acquired = s.acquired := rfl
@[simp] theorem wakeAdvance_fenceMarks (w k : Nat) (s : State) : (wakeAdvance w k s).fenceMarks = s.fenceMarks := rfl
@[simp] theorem wakeAdvance_scMarks (w k : Nat) (s : State) : (wakeAdvance w k s).scMarks = s.scMarks := rfl
@[simp] theorem wakeAdvance_seen (w k : Nat) (s : State) : (wakeAdvance w k s).seen = s.seen := rfl
@[simp] theorem wakeAdvance_routes (w k : Nat) (s : State) : (wakeAdvance w k s).routes = s.routes := rfl
@[simp] theorem wakeAdvance_regions (w k : Nat) (s : State) : (wakeAdvance w k s).regions = s.regions := rfl
@[simp] theorem wakeAdvance_cks (w k : Nat) (s : State) : (wakeAdvance w k s).cks = s.cks := rfl
@[simp] theorem wakeAdvance_vmarks (w k : Nat) (s : State) : (wakeAdvance w k s).vmarks = s.vmarks := rfl
@[simp] theorem wakeAdvance_pools (w k : Nat) (s : State) : (wakeAdvance w k s).pools = s.pools := rfl
@[simp] theorem wakeAdvance_mem (w k : Nat) (s : State) : (wakeAdvance w k s).mem = s.mem := rfl
@[simp] theorem wakeAdvance_suspectVas (w k : Nat) (s : State) : (wakeAdvance w k s).suspectVas = s.suspectVas := rfl
@[simp] theorem wakeAdvance_provFull (w k : Nat) (s : State) : (wakeAdvance w k s).provFull = s.provFull := rfl
@[simp] theorem wakeAdvance_icode (w k : Nat) (s : State) : (wakeAdvance w k s).icode = s.icode := rfl
@[simp] theorem wakeAdvance_stalls (w k : Nat) (s : State) : (wakeAdvance w k s).stalls = s.stalls := rfl
@[simp] theorem wakeAdvance_prq (w k : Nat) (s : State) : (wakeAdvance w k s).prq = s.prq := rfl
@[simp] theorem wakeAdvance_chans (w k : Nat) (s : State) : (wakeAdvance w k s).chans = s.chans := rfl
@[simp] theorem wakeAdvance_aos (w k : Nat) (s : State) : (wakeAdvance w k s).aos = s.aos := rfl
@[simp] theorem wakeAdvance_cbars (w k : Nat) (s : State) : (wakeAdvance w k s).cbars = s.cbars := rfl
@[simp] theorem wakeAdvance_tds (w k : Nat) (s : State) : (wakeAdvance w k s).tds = s.tds := rfl
@[simp] theorem wakeAdvance_cbs (w k : Nat) (s : State) : (wakeAdvance w k s).cbs = s.cbs := rfl
@[simp] theorem wakeAdvance_fwd (w k : Nat) (s : State) : (wakeAdvance w k s).fwd = s.fwd := rfl
@[simp] theorem wakeAdvance_fwdEnts (w k : Nat) (s : State) : (wakeAdvance w k s).fwdEnts = s.fwdEnts := rfl
@[simp] theorem wakeAdvance_tstat (w k : Nat) (s : State) : (wakeAdvance w k s).tstat = s.tstat := rfl
@[simp] theorem wakeAdvance_tpois (w k : Nat) (s : State) : (wakeAdvance w k s).tpois = s.tpois := rfl
@[simp] theorem wakeAdvance_vents (w k : Nat) (s : State) : (wakeAdvance w k s).vents = s.vents := rfl
@[simp] theorem wakeAdvance_vmeta (w k : Nat) (s : State) : (wakeAdvance w k s).vmeta = s.vmeta := rfl
@[simp] theorem wakeAdvance_vseq (w k : Nat) (s : State) : (wakeAdvance w k s).vseq = s.vseq := rfl
@[simp] theorem wakeAdvance_vcap (w k : Nat) (s : State) : (wakeAdvance w k s).vcap = s.vcap := rfl
@[simp] theorem wakeAdvance_flashEnts (w k : Nat) (s : State) : (wakeAdvance w k s).flashEnts = s.flashEnts := rfl
@[simp] theorem wakeAdvance_flashMeta (w k : Nat) (s : State) : (wakeAdvance w k s).flashMeta = s.flashMeta := rfl
@[simp] theorem wakeAdvance_mail (w k : Nat) (s : State) : (wakeAdvance w k s).mail = s.mail := rfl
@[simp] theorem wakeAdvance_mailOut (w k : Nat) (s : State) : (wakeAdvance w k s).mailOut = s.mailOut := rfl
@[simp] theorem wakeAdvance_rgns (w k : Nat) (s : State) : (wakeAdvance w k s).rgns = s.rgns := rfl
@[simp] theorem wakeAdvance_ownProg (w k : Nat) (s : State) : (wakeAdvance w k s).ownProg = s.ownProg := rfl
@[simp] theorem wakeAdvance_nodes (w k : Nat) (s : State) : (wakeAdvance w k s).nodes = s.nodes := rfl
@[simp] theorem wakeAdvance_graphs (w k : Nat) (s : State) : (wakeAdvance w k s).graphs = s.graphs := rfl
@[simp] theorem wakeAdvance_seqs (w k : Nat) (s : State) : (wakeAdvance w k s).seqs = s.seqs := rfl
@[simp] theorem wakeAdvance_nextNode (w k : Nat) (s : State) : (wakeAdvance w k s).nextNode = s.nextNode := rfl
@[simp] theorem wakeAdvance_sslots (w k : Nat) (s : State) : (wakeAdvance w k s).sslots = s.sslots := rfl
@[simp] theorem wakeAdvance_saves (w k : Nat) (s : State) : (wakeAdvance w k s).saves = s.saves := rfl
@[simp] theorem wakeAdvance_hslots (w k : Nat) (s : State) : (wakeAdvance w k s).hslots = s.hslots := rfl
@[simp] theorem wakeAdvance_hdiscard (w k : Nat) (s : State) : (wakeAdvance w k s).hdiscard = s.hdiscard := rfl
@[simp] theorem wakeAdvance_hostQ (w k : Nat) (s : State) : (wakeAdvance w k s).hostQ = s.hostQ := rfl
@[simp] theorem wakeAdvance_rsreg (w k : Nat) (s : State) : (wakeAdvance w k s).rsreg = s.rsreg := rfl
@[simp] theorem wakeAdvance_rsdesc (w k : Nat) (s : State) : (wakeAdvance w k s).rsdesc = s.rsdesc := rfl
@[simp] theorem wakeAdvance_rsstep (w k : Nat) (s : State) : (wakeAdvance w k s).rsstep = s.rsstep := rfl
@[simp] theorem wakeAdvance_rsstat (w k : Nat) (s : State) : (wakeAdvance w k s).rsstat = s.rsstat := rfl
@[simp] theorem wakeAdvance_mgmt (w k : Nat) (s : State) : (wakeAdvance w k s).mgmt = s.mgmt := rfl
@[simp] theorem wakeAdvance_rays (w k : Nat) (s : State) : (wakeAdvance w k s).rays = s.rays := rfl
@[simp] theorem wakeAdvance_lht (w k : Nat) (s : State) : (wakeAdvance w k s).lht = s.lht := rfl
@[simp] theorem wakeAdvance_lhtCnt (w k : Nat) (s : State) : (wakeAdvance w k s).lhtCnt = s.lhtCnt := rfl
@[simp] theorem wakeAdvance_staged (w k : Nat) (s : State) : (wakeAdvance w k s).staged = s.staged := rfl
@[simp] theorem wakeAdvance_suspects (w k : Nat) (s : State) : (wakeAdvance w k s).suspects = s.suspects := rfl
@[simp] theorem wakeAdvance_replays (w k : Nat) (s : State) : (wakeAdvance w k s).replays = s.replays := rfl
@[simp] theorem wakeAdvance_sent (w k : Nat) (s : State) : (wakeAdvance w k s).sent = s.sent := rfl
@[simp] theorem wakeAdvance_outRead (w k : Nat) (s : State) : (wakeAdvance w k s).outRead = s.outRead := rfl
@[simp] theorem wakeAdvance_hostOut (w k : Nat) (s : State) : (wakeAdvance w k s).hostOut = s.hostOut := rfl

/-! ### landLanes -/

@[simp] theorem landLanes_agenda (s : State) (w : Nat) (m : Mask) : (landLanes s w m).agenda = s.agenda := rfl
@[simp] theorem landLanes_cur (s : State) (w : Nat) (m : Mask) : (landLanes s w m).cur = s.cur := rfl
@[simp] theorem landLanes_cur2 (s : State) (w : Nat) (m : Mask) : (landLanes s w m).cur2 = s.cur2 := rfl
@[simp] theorem landLanes_free (s : State) (w : Nat) (m : Mask) : (landLanes s w m).free = s.free := rfl
@[simp] theorem landLanes_nextOp (s : State) (w : Nat) (m : Mask) : (landLanes s w m).nextOp = s.nextOp := rfl
@[simp] theorem landLanes_nextBlk (s : State) (w : Nat) (m : Mask) : (landLanes s w m).nextBlk = s.nextBlk := rfl
@[simp] theorem landLanes_vregs (s : State) (w : Nat) (m : Mask) : (landLanes s w m).vregs = s.vregs := rfl
@[simp] theorem landLanes_sregs (s : State) (w : Nat) (m : Mask) : (landLanes s w m).sregs = s.sregs := rfl
@[simp] theorem landLanes_fsr (s : State) (w : Nat) (m : Mask) : (landLanes s w m).fsr = s.fsr := rfl
@[simp] theorem landLanes_tval (s : State) (w : Nat) (m : Mask) : (landLanes s w m).tval = s.tval := rfl
@[simp] theorem landLanes_sval (s : State) (w : Nat) (m : Mask) : (landLanes s w m).sval = s.sval := rfl
@[simp] theorem landLanes_queues (s : State) (w : Nat) (m : Mask) : (landLanes s w m).queues = s.queues := rfl
@[simp] theorem landLanes_bn (s : State) (w : Nat) (m : Mask) : (landLanes s w m).bn = s.bn := rfl
@[simp] theorem landLanes_warps (s : State) (w : Nat) (m : Mask) : (landLanes s w m).warps = s.warps := rfl
@[simp] theorem landLanes_blocks (s : State) (w : Nat) (m : Mask) : (landLanes s w m).blocks = s.blocks := rfl
@[simp] theorem landLanes_ops (s : State) (w : Nat) (m : Mask) : (landLanes s w m).ops = s.ops := rfl
@[simp] theorem landLanes_cores (s : State) (w : Nat) (m : Mask) : (landLanes s w m).cores = s.cores := rfl
@[simp] theorem landLanes_quarters (s : State) (w : Nat) (m : Mask) : (landLanes s w m).quarters = s.quarters := rfl
@[simp] theorem landLanes_growQ (s : State) (w : Nat) (m : Mask) : (landLanes s w m).growQ = s.growQ := rfl
@[simp] theorem landLanes_dies (s : State) (w : Nat) (m : Mask) : (landLanes s w m).dies = s.dies := rfl
@[simp] theorem landLanes_pkg (s : State) (w : Nat) (m : Mask) : (landLanes s w m).pkg = s.pkg := rfl
@[simp] theorem landLanes_tlb (s : State) (w : Nat) (m : Mask) : (landLanes s w m).tlb = s.tlb := rfl
@[simp] theorem landLanes_owners (s : State) (w : Nat) (m : Mask) : (landLanes s w m).owners = s.owners := rfl
@[simp] theorem landLanes_poison (s : State) (w : Nat) (m : Mask) : (landLanes s w m).poison = s.poison := rfl
@[simp] theorem landLanes_frozen (s : State) (w : Nat) (m : Mask) : (landLanes s w m).frozen = s.frozen := rfl
@[simp] theorem landLanes_swc (s : State) (w : Nat) (m : Mask) : (landLanes s w m).swc = s.swc := rfl
@[simp] theorem landLanes_dcLru (s : State) (w : Nat) (m : Mask) : (landLanes s w m).dcLru = s.dcLru := rfl
@[simp] theorem landLanes_poolOld (s : State) (w : Nat) (m : Mask) : (landLanes s w m).poolOld = s.poolOld := rfl
@[simp] theorem landLanes_prov (s : State) (w : Nat) (m : Mask) : (landLanes s w m).prov = s.prov := rfl
@[simp] theorem landLanes_granules (s : State) (w : Nat) (m : Mask) : (landLanes s w m).granules = s.granules := rfl
@[simp] theorem landLanes_marks (s : State) (w : Nat) (m : Mask) : (landLanes s w m).marks = s.marks := rfl
@[simp] theorem landLanes_acquired (s : State) (w : Nat) (m : Mask) : (landLanes s w m).acquired = s.acquired := rfl
@[simp] theorem landLanes_fenceMarks (s : State) (w : Nat) (m : Mask) : (landLanes s w m).fenceMarks = s.fenceMarks := rfl
@[simp] theorem landLanes_scMarks (s : State) (w : Nat) (m : Mask) : (landLanes s w m).scMarks = s.scMarks := rfl
@[simp] theorem landLanes_seen (s : State) (w : Nat) (m : Mask) : (landLanes s w m).seen = s.seen := rfl
@[simp] theorem landLanes_routes (s : State) (w : Nat) (m : Mask) : (landLanes s w m).routes = s.routes := rfl
@[simp] theorem landLanes_regions (s : State) (w : Nat) (m : Mask) : (landLanes s w m).regions = s.regions := rfl
@[simp] theorem landLanes_cks (s : State) (w : Nat) (m : Mask) : (landLanes s w m).cks = s.cks := rfl
@[simp] theorem landLanes_vmarks (s : State) (w : Nat) (m : Mask) : (landLanes s w m).vmarks = s.vmarks := rfl
@[simp] theorem landLanes_pools (s : State) (w : Nat) (m : Mask) : (landLanes s w m).pools = s.pools := rfl
@[simp] theorem landLanes_mem (s : State) (w : Nat) (m : Mask) : (landLanes s w m).mem = s.mem := rfl
@[simp] theorem landLanes_suspectVas (s : State) (w : Nat) (m : Mask) : (landLanes s w m).suspectVas = s.suspectVas := rfl
@[simp] theorem landLanes_provFull (s : State) (w : Nat) (m : Mask) : (landLanes s w m).provFull = s.provFull := rfl
@[simp] theorem landLanes_icode (s : State) (w : Nat) (m : Mask) : (landLanes s w m).icode = s.icode := rfl
@[simp] theorem landLanes_stalls (s : State) (w : Nat) (m : Mask) : (landLanes s w m).stalls = s.stalls := rfl
@[simp] theorem landLanes_prq (s : State) (w : Nat) (m : Mask) : (landLanes s w m).prq = s.prq := rfl
@[simp] theorem landLanes_chans (s : State) (w : Nat) (m : Mask) : (landLanes s w m).chans = s.chans := rfl
@[simp] theorem landLanes_aos (s : State) (w : Nat) (m : Mask) : (landLanes s w m).aos = s.aos := rfl
@[simp] theorem landLanes_cbars (s : State) (w : Nat) (m : Mask) : (landLanes s w m).cbars = s.cbars := rfl
@[simp] theorem landLanes_tds (s : State) (w : Nat) (m : Mask) : (landLanes s w m).tds = s.tds := rfl
@[simp] theorem landLanes_cbs (s : State) (w : Nat) (m : Mask) : (landLanes s w m).cbs = s.cbs := rfl
@[simp] theorem landLanes_fwd (s : State) (w : Nat) (m : Mask) : (landLanes s w m).fwd = s.fwd := rfl
@[simp] theorem landLanes_fwdEnts (s : State) (w : Nat) (m : Mask) : (landLanes s w m).fwdEnts = s.fwdEnts := rfl
@[simp] theorem landLanes_tstat (s : State) (w : Nat) (m : Mask) : (landLanes s w m).tstat = s.tstat := rfl
@[simp] theorem landLanes_tpois (s : State) (w : Nat) (m : Mask) : (landLanes s w m).tpois = s.tpois := rfl
@[simp] theorem landLanes_vents (s : State) (w : Nat) (m : Mask) : (landLanes s w m).vents = s.vents := rfl
@[simp] theorem landLanes_vmeta (s : State) (w : Nat) (m : Mask) : (landLanes s w m).vmeta = s.vmeta := rfl
@[simp] theorem landLanes_vseq (s : State) (w : Nat) (m : Mask) : (landLanes s w m).vseq = s.vseq := rfl
@[simp] theorem landLanes_vcap (s : State) (w : Nat) (m : Mask) : (landLanes s w m).vcap = s.vcap := rfl
@[simp] theorem landLanes_flashEnts (s : State) (w : Nat) (m : Mask) : (landLanes s w m).flashEnts = s.flashEnts := rfl
@[simp] theorem landLanes_flashMeta (s : State) (w : Nat) (m : Mask) : (landLanes s w m).flashMeta = s.flashMeta := rfl
@[simp] theorem landLanes_mail (s : State) (w : Nat) (m : Mask) : (landLanes s w m).mail = s.mail := rfl
@[simp] theorem landLanes_mailOut (s : State) (w : Nat) (m : Mask) : (landLanes s w m).mailOut = s.mailOut := rfl
@[simp] theorem landLanes_rgns (s : State) (w : Nat) (m : Mask) : (landLanes s w m).rgns = s.rgns := rfl
@[simp] theorem landLanes_ownProg (s : State) (w : Nat) (m : Mask) : (landLanes s w m).ownProg = s.ownProg := rfl
@[simp] theorem landLanes_nodes (s : State) (w : Nat) (m : Mask) : (landLanes s w m).nodes = s.nodes := rfl
@[simp] theorem landLanes_graphs (s : State) (w : Nat) (m : Mask) : (landLanes s w m).graphs = s.graphs := rfl
@[simp] theorem landLanes_seqs (s : State) (w : Nat) (m : Mask) : (landLanes s w m).seqs = s.seqs := rfl
@[simp] theorem landLanes_nextNode (s : State) (w : Nat) (m : Mask) : (landLanes s w m).nextNode = s.nextNode := rfl
@[simp] theorem landLanes_sslots (s : State) (w : Nat) (m : Mask) : (landLanes s w m).sslots = s.sslots := rfl
@[simp] theorem landLanes_saves (s : State) (w : Nat) (m : Mask) : (landLanes s w m).saves = s.saves := rfl
@[simp] theorem landLanes_hslots (s : State) (w : Nat) (m : Mask) : (landLanes s w m).hslots = s.hslots := rfl
@[simp] theorem landLanes_hdiscard (s : State) (w : Nat) (m : Mask) : (landLanes s w m).hdiscard = s.hdiscard := rfl
@[simp] theorem landLanes_hostQ (s : State) (w : Nat) (m : Mask) : (landLanes s w m).hostQ = s.hostQ := rfl
@[simp] theorem landLanes_rsreg (s : State) (w : Nat) (m : Mask) : (landLanes s w m).rsreg = s.rsreg := rfl
@[simp] theorem landLanes_rsdesc (s : State) (w : Nat) (m : Mask) : (landLanes s w m).rsdesc = s.rsdesc := rfl
@[simp] theorem landLanes_rsstep (s : State) (w : Nat) (m : Mask) : (landLanes s w m).rsstep = s.rsstep := rfl
@[simp] theorem landLanes_rsstat (s : State) (w : Nat) (m : Mask) : (landLanes s w m).rsstat = s.rsstat := rfl
@[simp] theorem landLanes_mgmt (s : State) (w : Nat) (m : Mask) : (landLanes s w m).mgmt = s.mgmt := rfl
@[simp] theorem landLanes_rays (s : State) (w : Nat) (m : Mask) : (landLanes s w m).rays = s.rays := rfl
@[simp] theorem landLanes_lht (s : State) (w : Nat) (m : Mask) : (landLanes s w m).lht = s.lht := rfl
@[simp] theorem landLanes_lhtCnt (s : State) (w : Nat) (m : Mask) : (landLanes s w m).lhtCnt = s.lhtCnt := rfl
@[simp] theorem landLanes_staged (s : State) (w : Nat) (m : Mask) : (landLanes s w m).staged = s.staged := rfl
@[simp] theorem landLanes_suspects (s : State) (w : Nat) (m : Mask) : (landLanes s w m).suspects = s.suspects := rfl
@[simp] theorem landLanes_replays (s : State) (w : Nat) (m : Mask) : (landLanes s w m).replays = s.replays := rfl
@[simp] theorem landLanes_sent (s : State) (w : Nat) (m : Mask) : (landLanes s w m).sent = s.sent := rfl
@[simp] theorem landLanes_outRead (s : State) (w : Nat) (m : Mask) : (landLanes s w m).outRead = s.outRead := rfl
@[simp] theorem landLanes_hostOut (s : State) (w : Nat) (m : Mask) : (landLanes s w m).hostOut = s.hostOut := rfl

/-! ### enterHandler -/

@[simp] theorem enterHandler_agenda (s : State) (w k t : Nat) (sp : Split) (h : Handler) (addr : Word) : (enterHandler s w k t sp h addr).agenda = s.agenda := rfl
@[simp] theorem enterHandler_cur (s : State) (w k t : Nat) (sp : Split) (h : Handler) (addr : Word) : (enterHandler s w k t sp h addr).cur = s.cur := rfl
@[simp] theorem enterHandler_cur2 (s : State) (w k t : Nat) (sp : Split) (h : Handler) (addr : Word) : (enterHandler s w k t sp h addr).cur2 = s.cur2 := rfl
@[simp] theorem enterHandler_free (s : State) (w k t : Nat) (sp : Split) (h : Handler) (addr : Word) : (enterHandler s w k t sp h addr).free = s.free := rfl
@[simp] theorem enterHandler_nextOp (s : State) (w k t : Nat) (sp : Split) (h : Handler) (addr : Word) : (enterHandler s w k t sp h addr).nextOp = s.nextOp := rfl
@[simp] theorem enterHandler_nextBlk (s : State) (w k t : Nat) (sp : Split) (h : Handler) (addr : Word) : (enterHandler s w k t sp h addr).nextBlk = s.nextBlk := rfl
@[simp] theorem enterHandler_vregs (s : State) (w k t : Nat) (sp : Split) (h : Handler) (addr : Word) : (enterHandler s w k t sp h addr).vregs = s.vregs := rfl
@[simp] theorem enterHandler_sregs (s : State) (w k t : Nat) (sp : Split) (h : Handler) (addr : Word) : (enterHandler s w k t sp h addr).sregs = s.sregs := rfl
@[simp] theorem enterHandler_fsr (s : State) (w k t : Nat) (sp : Split) (h : Handler) (addr : Word) : (enterHandler s w k t sp h addr).fsr = s.fsr := rfl
@[simp] theorem enterHandler_tval (s : State) (w k t : Nat) (sp : Split) (h : Handler) (addr : Word) : (enterHandler s w k t sp h addr).tval = s.tval := rfl
@[simp] theorem enterHandler_sval (s : State) (w k t : Nat) (sp : Split) (h : Handler) (addr : Word) : (enterHandler s w k t sp h addr).sval = s.sval := rfl
@[simp] theorem enterHandler_queues (s : State) (w k t : Nat) (sp : Split) (h : Handler) (addr : Word) : (enterHandler s w k t sp h addr).queues = s.queues := rfl
@[simp] theorem enterHandler_bn (s : State) (w k t : Nat) (sp : Split) (h : Handler) (addr : Word) : (enterHandler s w k t sp h addr).bn = s.bn := rfl
@[simp] theorem enterHandler_blocks (s : State) (w k t : Nat) (sp : Split) (h : Handler) (addr : Word) : (enterHandler s w k t sp h addr).blocks = s.blocks := rfl
@[simp] theorem enterHandler_ops (s : State) (w k t : Nat) (sp : Split) (h : Handler) (addr : Word) : (enterHandler s w k t sp h addr).ops = s.ops := rfl
@[simp] theorem enterHandler_pend (s : State) (w k t : Nat) (sp : Split) (h : Handler) (addr : Word) : (enterHandler s w k t sp h addr).pend = s.pend := rfl
@[simp] theorem enterHandler_bnPend (s : State) (w k t : Nat) (sp : Split) (h : Handler) (addr : Word) : (enterHandler s w k t sp h addr).bnPend = s.bnPend := rfl
@[simp] theorem enterHandler_cores (s : State) (w k t : Nat) (sp : Split) (h : Handler) (addr : Word) : (enterHandler s w k t sp h addr).cores = s.cores := rfl
@[simp] theorem enterHandler_quarters (s : State) (w k t : Nat) (sp : Split) (h : Handler) (addr : Word) : (enterHandler s w k t sp h addr).quarters = s.quarters := rfl
@[simp] theorem enterHandler_growQ (s : State) (w k t : Nat) (sp : Split) (h : Handler) (addr : Word) : (enterHandler s w k t sp h addr).growQ = s.growQ := rfl
@[simp] theorem enterHandler_dies (s : State) (w k t : Nat) (sp : Split) (h : Handler) (addr : Word) : (enterHandler s w k t sp h addr).dies = s.dies := rfl
@[simp] theorem enterHandler_pkg (s : State) (w k t : Nat) (sp : Split) (h : Handler) (addr : Word) : (enterHandler s w k t sp h addr).pkg = s.pkg := rfl
@[simp] theorem enterHandler_tlb (s : State) (w k t : Nat) (sp : Split) (h : Handler) (addr : Word) : (enterHandler s w k t sp h addr).tlb = s.tlb := rfl
@[simp] theorem enterHandler_owners (s : State) (w k t : Nat) (sp : Split) (h : Handler) (addr : Word) : (enterHandler s w k t sp h addr).owners = s.owners := rfl
@[simp] theorem enterHandler_poison (s : State) (w k t : Nat) (sp : Split) (h : Handler) (addr : Word) : (enterHandler s w k t sp h addr).poison = s.poison := rfl
@[simp] theorem enterHandler_frozen (s : State) (w k t : Nat) (sp : Split) (h : Handler) (addr : Word) : (enterHandler s w k t sp h addr).frozen = s.frozen := rfl
@[simp] theorem enterHandler_swc (s : State) (w k t : Nat) (sp : Split) (h : Handler) (addr : Word) : (enterHandler s w k t sp h addr).swc = s.swc := rfl
@[simp] theorem enterHandler_dcLru (s : State) (w k t : Nat) (sp : Split) (h : Handler) (addr : Word) : (enterHandler s w k t sp h addr).dcLru = s.dcLru := rfl
@[simp] theorem enterHandler_poolOld (s : State) (w k t : Nat) (sp : Split) (h : Handler) (addr : Word) : (enterHandler s w k t sp h addr).poolOld = s.poolOld := rfl
@[simp] theorem enterHandler_prov (s : State) (w k t : Nat) (sp : Split) (h : Handler) (addr : Word) : (enterHandler s w k t sp h addr).prov = s.prov := rfl
@[simp] theorem enterHandler_granules (s : State) (w k t : Nat) (sp : Split) (h : Handler) (addr : Word) : (enterHandler s w k t sp h addr).granules = s.granules := rfl
@[simp] theorem enterHandler_marks (s : State) (w k t : Nat) (sp : Split) (h : Handler) (addr : Word) : (enterHandler s w k t sp h addr).marks = s.marks := rfl
@[simp] theorem enterHandler_acquired (s : State) (w k t : Nat) (sp : Split) (h : Handler) (addr : Word) : (enterHandler s w k t sp h addr).acquired = s.acquired := rfl
@[simp] theorem enterHandler_fenceMarks (s : State) (w k t : Nat) (sp : Split) (h : Handler) (addr : Word) : (enterHandler s w k t sp h addr).fenceMarks = s.fenceMarks := rfl
@[simp] theorem enterHandler_scMarks (s : State) (w k t : Nat) (sp : Split) (h : Handler) (addr : Word) : (enterHandler s w k t sp h addr).scMarks = s.scMarks := rfl
@[simp] theorem enterHandler_seen (s : State) (w k t : Nat) (sp : Split) (h : Handler) (addr : Word) : (enterHandler s w k t sp h addr).seen = s.seen := rfl
@[simp] theorem enterHandler_routes (s : State) (w k t : Nat) (sp : Split) (h : Handler) (addr : Word) : (enterHandler s w k t sp h addr).routes = s.routes := rfl
@[simp] theorem enterHandler_regions (s : State) (w k t : Nat) (sp : Split) (h : Handler) (addr : Word) : (enterHandler s w k t sp h addr).regions = s.regions := rfl
@[simp] theorem enterHandler_cks (s : State) (w k t : Nat) (sp : Split) (h : Handler) (addr : Word) : (enterHandler s w k t sp h addr).cks = s.cks := rfl
@[simp] theorem enterHandler_vmarks (s : State) (w k t : Nat) (sp : Split) (h : Handler) (addr : Word) : (enterHandler s w k t sp h addr).vmarks = s.vmarks := rfl
@[simp] theorem enterHandler_pools (s : State) (w k t : Nat) (sp : Split) (h : Handler) (addr : Word) : (enterHandler s w k t sp h addr).pools = s.pools := rfl
@[simp] theorem enterHandler_mem (s : State) (w k t : Nat) (sp : Split) (h : Handler) (addr : Word) : (enterHandler s w k t sp h addr).mem = s.mem := rfl
@[simp] theorem enterHandler_suspectVas (s : State) (w k t : Nat) (sp : Split) (h : Handler) (addr : Word) : (enterHandler s w k t sp h addr).suspectVas = s.suspectVas := rfl
@[simp] theorem enterHandler_provFull (s : State) (w k t : Nat) (sp : Split) (h : Handler) (addr : Word) : (enterHandler s w k t sp h addr).provFull = s.provFull := rfl
@[simp] theorem enterHandler_icode (s : State) (w k t : Nat) (sp : Split) (h : Handler) (addr : Word) : (enterHandler s w k t sp h addr).icode = s.icode := rfl
@[simp] theorem enterHandler_stalls (s : State) (w k t : Nat) (sp : Split) (h : Handler) (addr : Word) : (enterHandler s w k t sp h addr).stalls = s.stalls := rfl
@[simp] theorem enterHandler_prq (s : State) (w k t : Nat) (sp : Split) (h : Handler) (addr : Word) : (enterHandler s w k t sp h addr).prq = s.prq := rfl
@[simp] theorem enterHandler_chans (s : State) (w k t : Nat) (sp : Split) (h : Handler) (addr : Word) : (enterHandler s w k t sp h addr).chans = s.chans := rfl
@[simp] theorem enterHandler_aos (s : State) (w k t : Nat) (sp : Split) (h : Handler) (addr : Word) : (enterHandler s w k t sp h addr).aos = s.aos := rfl
@[simp] theorem enterHandler_cbars (s : State) (w k t : Nat) (sp : Split) (h : Handler) (addr : Word) : (enterHandler s w k t sp h addr).cbars = s.cbars := rfl
@[simp] theorem enterHandler_tds (s : State) (w k t : Nat) (sp : Split) (h : Handler) (addr : Word) : (enterHandler s w k t sp h addr).tds = s.tds := rfl
@[simp] theorem enterHandler_cbs (s : State) (w k t : Nat) (sp : Split) (h : Handler) (addr : Word) : (enterHandler s w k t sp h addr).cbs = s.cbs := rfl
@[simp] theorem enterHandler_fwd (s : State) (w k t : Nat) (sp : Split) (h : Handler) (addr : Word) : (enterHandler s w k t sp h addr).fwd = s.fwd := rfl
@[simp] theorem enterHandler_fwdEnts (s : State) (w k t : Nat) (sp : Split) (h : Handler) (addr : Word) : (enterHandler s w k t sp h addr).fwdEnts = s.fwdEnts := rfl
@[simp] theorem enterHandler_tstat (s : State) (w k t : Nat) (sp : Split) (h : Handler) (addr : Word) : (enterHandler s w k t sp h addr).tstat = s.tstat := rfl
@[simp] theorem enterHandler_tpois (s : State) (w k t : Nat) (sp : Split) (h : Handler) (addr : Word) : (enterHandler s w k t sp h addr).tpois = s.tpois := rfl
@[simp] theorem enterHandler_vents (s : State) (w k t : Nat) (sp : Split) (h : Handler) (addr : Word) : (enterHandler s w k t sp h addr).vents = s.vents := rfl
@[simp] theorem enterHandler_vmeta (s : State) (w k t : Nat) (sp : Split) (h : Handler) (addr : Word) : (enterHandler s w k t sp h addr).vmeta = s.vmeta := rfl
@[simp] theorem enterHandler_vseq (s : State) (w k t : Nat) (sp : Split) (h : Handler) (addr : Word) : (enterHandler s w k t sp h addr).vseq = s.vseq := rfl
@[simp] theorem enterHandler_vcap (s : State) (w k t : Nat) (sp : Split) (h : Handler) (addr : Word) : (enterHandler s w k t sp h addr).vcap = s.vcap := rfl
@[simp] theorem enterHandler_flashEnts (s : State) (w k t : Nat) (sp : Split) (h : Handler) (addr : Word) : (enterHandler s w k t sp h addr).flashEnts = s.flashEnts := rfl
@[simp] theorem enterHandler_flashMeta (s : State) (w k t : Nat) (sp : Split) (h : Handler) (addr : Word) : (enterHandler s w k t sp h addr).flashMeta = s.flashMeta := rfl
@[simp] theorem enterHandler_mail (s : State) (w k t : Nat) (sp : Split) (h : Handler) (addr : Word) : (enterHandler s w k t sp h addr).mail = s.mail := rfl
@[simp] theorem enterHandler_mailOut (s : State) (w k t : Nat) (sp : Split) (h : Handler) (addr : Word) : (enterHandler s w k t sp h addr).mailOut = s.mailOut := rfl
@[simp] theorem enterHandler_rgns (s : State) (w k t : Nat) (sp : Split) (h : Handler) (addr : Word) : (enterHandler s w k t sp h addr).rgns = s.rgns := rfl
@[simp] theorem enterHandler_ownProg (s : State) (w k t : Nat) (sp : Split) (h : Handler) (addr : Word) : (enterHandler s w k t sp h addr).ownProg = s.ownProg := rfl
@[simp] theorem enterHandler_nodes (s : State) (w k t : Nat) (sp : Split) (h : Handler) (addr : Word) : (enterHandler s w k t sp h addr).nodes = s.nodes := rfl
@[simp] theorem enterHandler_graphs (s : State) (w k t : Nat) (sp : Split) (h : Handler) (addr : Word) : (enterHandler s w k t sp h addr).graphs = s.graphs := rfl
@[simp] theorem enterHandler_seqs (s : State) (w k t : Nat) (sp : Split) (h : Handler) (addr : Word) : (enterHandler s w k t sp h addr).seqs = s.seqs := rfl
@[simp] theorem enterHandler_nextNode (s : State) (w k t : Nat) (sp : Split) (h : Handler) (addr : Word) : (enterHandler s w k t sp h addr).nextNode = s.nextNode := rfl
@[simp] theorem enterHandler_sslots (s : State) (w k t : Nat) (sp : Split) (h : Handler) (addr : Word) : (enterHandler s w k t sp h addr).sslots = s.sslots := rfl
@[simp] theorem enterHandler_saves (s : State) (w k t : Nat) (sp : Split) (h : Handler) (addr : Word) : (enterHandler s w k t sp h addr).saves = s.saves := rfl
@[simp] theorem enterHandler_hslots (s : State) (w k t : Nat) (sp : Split) (h : Handler) (addr : Word) : (enterHandler s w k t sp h addr).hslots = s.hslots := rfl
@[simp] theorem enterHandler_hdiscard (s : State) (w k t : Nat) (sp : Split) (h : Handler) (addr : Word) : (enterHandler s w k t sp h addr).hdiscard = s.hdiscard := rfl
@[simp] theorem enterHandler_hostQ (s : State) (w k t : Nat) (sp : Split) (h : Handler) (addr : Word) : (enterHandler s w k t sp h addr).hostQ = s.hostQ := rfl
@[simp] theorem enterHandler_rsreg (s : State) (w k t : Nat) (sp : Split) (h : Handler) (addr : Word) : (enterHandler s w k t sp h addr).rsreg = s.rsreg := rfl
@[simp] theorem enterHandler_rsdesc (s : State) (w k t : Nat) (sp : Split) (h : Handler) (addr : Word) : (enterHandler s w k t sp h addr).rsdesc = s.rsdesc := rfl
@[simp] theorem enterHandler_rsstep (s : State) (w k t : Nat) (sp : Split) (h : Handler) (addr : Word) : (enterHandler s w k t sp h addr).rsstep = s.rsstep := rfl
@[simp] theorem enterHandler_rsstat (s : State) (w k t : Nat) (sp : Split) (h : Handler) (addr : Word) : (enterHandler s w k t sp h addr).rsstat = s.rsstat := rfl
@[simp] theorem enterHandler_mgmt (s : State) (w k t : Nat) (sp : Split) (h : Handler) (addr : Word) : (enterHandler s w k t sp h addr).mgmt = s.mgmt := rfl
@[simp] theorem enterHandler_rays (s : State) (w k t : Nat) (sp : Split) (h : Handler) (addr : Word) : (enterHandler s w k t sp h addr).rays = s.rays := rfl
@[simp] theorem enterHandler_lht (s : State) (w k t : Nat) (sp : Split) (h : Handler) (addr : Word) : (enterHandler s w k t sp h addr).lht = s.lht := rfl
@[simp] theorem enterHandler_lhtCnt (s : State) (w k t : Nat) (sp : Split) (h : Handler) (addr : Word) : (enterHandler s w k t sp h addr).lhtCnt = s.lhtCnt := rfl
@[simp] theorem enterHandler_staged (s : State) (w k t : Nat) (sp : Split) (h : Handler) (addr : Word) : (enterHandler s w k t sp h addr).staged = s.staged := rfl
@[simp] theorem enterHandler_suspects (s : State) (w k t : Nat) (sp : Split) (h : Handler) (addr : Word) : (enterHandler s w k t sp h addr).suspects = s.suspects := rfl
@[simp] theorem enterHandler_replays (s : State) (w k t : Nat) (sp : Split) (h : Handler) (addr : Word) : (enterHandler s w k t sp h addr).replays = s.replays := rfl
@[simp] theorem enterHandler_sent (s : State) (w k t : Nat) (sp : Split) (h : Handler) (addr : Word) : (enterHandler s w k t sp h addr).sent = s.sent := rfl
@[simp] theorem enterHandler_outRead (s : State) (w k t : Nat) (sp : Split) (h : Handler) (addr : Word) : (enterHandler s w k t sp h addr).outRead = s.outRead := rfl
@[simp] theorem enterHandler_hostOut (s : State) (w k t : Nat) (sp : Split) (h : Handler) (addr : Word) : (enterHandler s w k t sp h addr).hostOut = s.hostOut := rfl

/-! ### writeUserTrap -/

@[simp] theorem writeUserTrap_agenda (s : State) (w : Nat) (pc : Word) (word : Word) (path : Nat) (r : TrapReq) : (writeUserTrap s w pc word path r).agenda = s.agenda := by unfold writeUserTrap; rfl
@[simp] theorem writeUserTrap_cur (s : State) (w : Nat) (pc : Word) (word : Word) (path : Nat) (r : TrapReq) : (writeUserTrap s w pc word path r).cur = s.cur := by unfold writeUserTrap; rfl
@[simp] theorem writeUserTrap_cur2 (s : State) (w : Nat) (pc : Word) (word : Word) (path : Nat) (r : TrapReq) : (writeUserTrap s w pc word path r).cur2 = s.cur2 := by unfold writeUserTrap; rfl
@[simp] theorem writeUserTrap_free (s : State) (w : Nat) (pc : Word) (word : Word) (path : Nat) (r : TrapReq) : (writeUserTrap s w pc word path r).free = s.free := by unfold writeUserTrap; rfl
@[simp] theorem writeUserTrap_nextOp (s : State) (w : Nat) (pc : Word) (word : Word) (path : Nat) (r : TrapReq) : (writeUserTrap s w pc word path r).nextOp = s.nextOp := by unfold writeUserTrap; rfl
@[simp] theorem writeUserTrap_nextBlk (s : State) (w : Nat) (pc : Word) (word : Word) (path : Nat) (r : TrapReq) : (writeUserTrap s w pc word path r).nextBlk = s.nextBlk := by unfold writeUserTrap; rfl
@[simp] theorem writeUserTrap_vregs (s : State) (w : Nat) (pc : Word) (word : Word) (path : Nat) (r : TrapReq) : (writeUserTrap s w pc word path r).vregs = s.vregs := by unfold writeUserTrap; rfl
@[simp] theorem writeUserTrap_sregs (s : State) (w : Nat) (pc : Word) (word : Word) (path : Nat) (r : TrapReq) : (writeUserTrap s w pc word path r).sregs = s.sregs := by unfold writeUserTrap; rfl
@[simp] theorem writeUserTrap_fsr (s : State) (w : Nat) (pc : Word) (word : Word) (path : Nat) (r : TrapReq) : (writeUserTrap s w pc word path r).fsr = s.fsr := by unfold writeUserTrap; rfl
@[simp] theorem writeUserTrap_sval (s : State) (w : Nat) (pc : Word) (word : Word) (path : Nat) (r : TrapReq) : (writeUserTrap s w pc word path r).sval = s.sval := by unfold writeUserTrap; rfl
@[simp] theorem writeUserTrap_queues (s : State) (w : Nat) (pc : Word) (word : Word) (path : Nat) (r : TrapReq) : (writeUserTrap s w pc word path r).queues = s.queues := by unfold writeUserTrap; rfl
@[simp] theorem writeUserTrap_bn (s : State) (w : Nat) (pc : Word) (word : Word) (path : Nat) (r : TrapReq) : (writeUserTrap s w pc word path r).bn = s.bn := by unfold writeUserTrap; rfl
@[simp] theorem writeUserTrap_blocks (s : State) (w : Nat) (pc : Word) (word : Word) (path : Nat) (r : TrapReq) : (writeUserTrap s w pc word path r).blocks = s.blocks := by unfold writeUserTrap; rfl
@[simp] theorem writeUserTrap_ops (s : State) (w : Nat) (pc : Word) (word : Word) (path : Nat) (r : TrapReq) : (writeUserTrap s w pc word path r).ops = s.ops := by unfold writeUserTrap; rfl
@[simp] theorem writeUserTrap_pend (s : State) (w : Nat) (pc : Word) (word : Word) (path : Nat) (r : TrapReq) : (writeUserTrap s w pc word path r).pend = s.pend := by unfold writeUserTrap; rfl
@[simp] theorem writeUserTrap_bnPend (s : State) (w : Nat) (pc : Word) (word : Word) (path : Nat) (r : TrapReq) : (writeUserTrap s w pc word path r).bnPend = s.bnPend := by unfold writeUserTrap; rfl
@[simp] theorem writeUserTrap_cores (s : State) (w : Nat) (pc : Word) (word : Word) (path : Nat) (r : TrapReq) : (writeUserTrap s w pc word path r).cores = s.cores := by unfold writeUserTrap; rfl
@[simp] theorem writeUserTrap_quarters (s : State) (w : Nat) (pc : Word) (word : Word) (path : Nat) (r : TrapReq) : (writeUserTrap s w pc word path r).quarters = s.quarters := by unfold writeUserTrap; rfl
@[simp] theorem writeUserTrap_growQ (s : State) (w : Nat) (pc : Word) (word : Word) (path : Nat) (r : TrapReq) : (writeUserTrap s w pc word path r).growQ = s.growQ := by unfold writeUserTrap; rfl
@[simp] theorem writeUserTrap_dies (s : State) (w : Nat) (pc : Word) (word : Word) (path : Nat) (r : TrapReq) : (writeUserTrap s w pc word path r).dies = s.dies := by unfold writeUserTrap; rfl
@[simp] theorem writeUserTrap_pkg (s : State) (w : Nat) (pc : Word) (word : Word) (path : Nat) (r : TrapReq) : (writeUserTrap s w pc word path r).pkg = s.pkg := by unfold writeUserTrap; rfl
@[simp] theorem writeUserTrap_tlb (s : State) (w : Nat) (pc : Word) (word : Word) (path : Nat) (r : TrapReq) : (writeUserTrap s w pc word path r).tlb = s.tlb := by unfold writeUserTrap; rfl
@[simp] theorem writeUserTrap_owners (s : State) (w : Nat) (pc : Word) (word : Word) (path : Nat) (r : TrapReq) : (writeUserTrap s w pc word path r).owners = s.owners := by unfold writeUserTrap; rfl
@[simp] theorem writeUserTrap_poison (s : State) (w : Nat) (pc : Word) (word : Word) (path : Nat) (r : TrapReq) : (writeUserTrap s w pc word path r).poison = s.poison := by unfold writeUserTrap; rfl
@[simp] theorem writeUserTrap_frozen (s : State) (w : Nat) (pc : Word) (word : Word) (path : Nat) (r : TrapReq) : (writeUserTrap s w pc word path r).frozen = s.frozen := by unfold writeUserTrap; rfl
@[simp] theorem writeUserTrap_swc (s : State) (w : Nat) (pc : Word) (word : Word) (path : Nat) (r : TrapReq) : (writeUserTrap s w pc word path r).swc = s.swc := by unfold writeUserTrap; rfl
@[simp] theorem writeUserTrap_dcLru (s : State) (w : Nat) (pc : Word) (word : Word) (path : Nat) (r : TrapReq) : (writeUserTrap s w pc word path r).dcLru = s.dcLru := by unfold writeUserTrap; rfl
@[simp] theorem writeUserTrap_poolOld (s : State) (w : Nat) (pc : Word) (word : Word) (path : Nat) (r : TrapReq) : (writeUserTrap s w pc word path r).poolOld = s.poolOld := by unfold writeUserTrap; rfl
@[simp] theorem writeUserTrap_prov (s : State) (w : Nat) (pc : Word) (word : Word) (path : Nat) (r : TrapReq) : (writeUserTrap s w pc word path r).prov = s.prov := by unfold writeUserTrap; rfl
@[simp] theorem writeUserTrap_granules (s : State) (w : Nat) (pc : Word) (word : Word) (path : Nat) (r : TrapReq) : (writeUserTrap s w pc word path r).granules = s.granules := by unfold writeUserTrap; rfl
@[simp] theorem writeUserTrap_marks (s : State) (w : Nat) (pc : Word) (word : Word) (path : Nat) (r : TrapReq) : (writeUserTrap s w pc word path r).marks = s.marks := by unfold writeUserTrap; rfl
@[simp] theorem writeUserTrap_acquired (s : State) (w : Nat) (pc : Word) (word : Word) (path : Nat) (r : TrapReq) : (writeUserTrap s w pc word path r).acquired = s.acquired := by unfold writeUserTrap; rfl
@[simp] theorem writeUserTrap_fenceMarks (s : State) (w : Nat) (pc : Word) (word : Word) (path : Nat) (r : TrapReq) : (writeUserTrap s w pc word path r).fenceMarks = s.fenceMarks := by unfold writeUserTrap; rfl
@[simp] theorem writeUserTrap_scMarks (s : State) (w : Nat) (pc : Word) (word : Word) (path : Nat) (r : TrapReq) : (writeUserTrap s w pc word path r).scMarks = s.scMarks := by unfold writeUserTrap; rfl
@[simp] theorem writeUserTrap_seen (s : State) (w : Nat) (pc : Word) (word : Word) (path : Nat) (r : TrapReq) : (writeUserTrap s w pc word path r).seen = s.seen := by unfold writeUserTrap; rfl
@[simp] theorem writeUserTrap_routes (s : State) (w : Nat) (pc : Word) (word : Word) (path : Nat) (r : TrapReq) : (writeUserTrap s w pc word path r).routes = s.routes := by unfold writeUserTrap; rfl
@[simp] theorem writeUserTrap_regions (s : State) (w : Nat) (pc : Word) (word : Word) (path : Nat) (r : TrapReq) : (writeUserTrap s w pc word path r).regions = s.regions := by unfold writeUserTrap; rfl
@[simp] theorem writeUserTrap_cks (s : State) (w : Nat) (pc : Word) (word : Word) (path : Nat) (r : TrapReq) : (writeUserTrap s w pc word path r).cks = s.cks := by unfold writeUserTrap; rfl
@[simp] theorem writeUserTrap_vmarks (s : State) (w : Nat) (pc : Word) (word : Word) (path : Nat) (r : TrapReq) : (writeUserTrap s w pc word path r).vmarks = s.vmarks := by unfold writeUserTrap; rfl
@[simp] theorem writeUserTrap_pools (s : State) (w : Nat) (pc : Word) (word : Word) (path : Nat) (r : TrapReq) : (writeUserTrap s w pc word path r).pools = s.pools := by unfold writeUserTrap; rfl
@[simp] theorem writeUserTrap_mem (s : State) (w : Nat) (pc : Word) (word : Word) (path : Nat) (r : TrapReq) : (writeUserTrap s w pc word path r).mem = s.mem := by unfold writeUserTrap; rfl
@[simp] theorem writeUserTrap_suspectVas (s : State) (w : Nat) (pc : Word) (word : Word) (path : Nat) (r : TrapReq) : (writeUserTrap s w pc word path r).suspectVas = s.suspectVas := by unfold writeUserTrap; rfl
@[simp] theorem writeUserTrap_provFull (s : State) (w : Nat) (pc : Word) (word : Word) (path : Nat) (r : TrapReq) : (writeUserTrap s w pc word path r).provFull = s.provFull := by unfold writeUserTrap; rfl
@[simp] theorem writeUserTrap_icode (s : State) (w : Nat) (pc : Word) (word : Word) (path : Nat) (r : TrapReq) : (writeUserTrap s w pc word path r).icode = s.icode := by unfold writeUserTrap; rfl
@[simp] theorem writeUserTrap_stalls (s : State) (w : Nat) (pc : Word) (word : Word) (path : Nat) (r : TrapReq) : (writeUserTrap s w pc word path r).stalls = s.stalls := by unfold writeUserTrap; rfl
@[simp] theorem writeUserTrap_prq (s : State) (w : Nat) (pc : Word) (word : Word) (path : Nat) (r : TrapReq) : (writeUserTrap s w pc word path r).prq = s.prq := by unfold writeUserTrap; rfl
@[simp] theorem writeUserTrap_chans (s : State) (w : Nat) (pc : Word) (word : Word) (path : Nat) (r : TrapReq) : (writeUserTrap s w pc word path r).chans = s.chans := by unfold writeUserTrap; rfl
@[simp] theorem writeUserTrap_aos (s : State) (w : Nat) (pc : Word) (word : Word) (path : Nat) (r : TrapReq) : (writeUserTrap s w pc word path r).aos = s.aos := by unfold writeUserTrap; rfl
@[simp] theorem writeUserTrap_cbars (s : State) (w : Nat) (pc : Word) (word : Word) (path : Nat) (r : TrapReq) : (writeUserTrap s w pc word path r).cbars = s.cbars := by unfold writeUserTrap; rfl
@[simp] theorem writeUserTrap_tds (s : State) (w : Nat) (pc : Word) (word : Word) (path : Nat) (r : TrapReq) : (writeUserTrap s w pc word path r).tds = s.tds := by unfold writeUserTrap; rfl
@[simp] theorem writeUserTrap_cbs (s : State) (w : Nat) (pc : Word) (word : Word) (path : Nat) (r : TrapReq) : (writeUserTrap s w pc word path r).cbs = s.cbs := by unfold writeUserTrap; rfl
@[simp] theorem writeUserTrap_fwd (s : State) (w : Nat) (pc : Word) (word : Word) (path : Nat) (r : TrapReq) : (writeUserTrap s w pc word path r).fwd = s.fwd := by unfold writeUserTrap; rfl
@[simp] theorem writeUserTrap_fwdEnts (s : State) (w : Nat) (pc : Word) (word : Word) (path : Nat) (r : TrapReq) : (writeUserTrap s w pc word path r).fwdEnts = s.fwdEnts := by unfold writeUserTrap; rfl
@[simp] theorem writeUserTrap_tstat (s : State) (w : Nat) (pc : Word) (word : Word) (path : Nat) (r : TrapReq) : (writeUserTrap s w pc word path r).tstat = s.tstat := by unfold writeUserTrap; rfl
@[simp] theorem writeUserTrap_tpois (s : State) (w : Nat) (pc : Word) (word : Word) (path : Nat) (r : TrapReq) : (writeUserTrap s w pc word path r).tpois = s.tpois := by unfold writeUserTrap; rfl
@[simp] theorem writeUserTrap_vents (s : State) (w : Nat) (pc : Word) (word : Word) (path : Nat) (r : TrapReq) : (writeUserTrap s w pc word path r).vents = s.vents := by unfold writeUserTrap; rfl
@[simp] theorem writeUserTrap_vmeta (s : State) (w : Nat) (pc : Word) (word : Word) (path : Nat) (r : TrapReq) : (writeUserTrap s w pc word path r).vmeta = s.vmeta := by unfold writeUserTrap; rfl
@[simp] theorem writeUserTrap_vseq (s : State) (w : Nat) (pc : Word) (word : Word) (path : Nat) (r : TrapReq) : (writeUserTrap s w pc word path r).vseq = s.vseq := by unfold writeUserTrap; rfl
@[simp] theorem writeUserTrap_vcap (s : State) (w : Nat) (pc : Word) (word : Word) (path : Nat) (r : TrapReq) : (writeUserTrap s w pc word path r).vcap = s.vcap := by unfold writeUserTrap; rfl
@[simp] theorem writeUserTrap_flashEnts (s : State) (w : Nat) (pc : Word) (word : Word) (path : Nat) (r : TrapReq) : (writeUserTrap s w pc word path r).flashEnts = s.flashEnts := by unfold writeUserTrap; rfl
@[simp] theorem writeUserTrap_flashMeta (s : State) (w : Nat) (pc : Word) (word : Word) (path : Nat) (r : TrapReq) : (writeUserTrap s w pc word path r).flashMeta = s.flashMeta := by unfold writeUserTrap; rfl
@[simp] theorem writeUserTrap_mail (s : State) (w : Nat) (pc : Word) (word : Word) (path : Nat) (r : TrapReq) : (writeUserTrap s w pc word path r).mail = s.mail := by unfold writeUserTrap; rfl
@[simp] theorem writeUserTrap_mailOut (s : State) (w : Nat) (pc : Word) (word : Word) (path : Nat) (r : TrapReq) : (writeUserTrap s w pc word path r).mailOut = s.mailOut := by unfold writeUserTrap; rfl
@[simp] theorem writeUserTrap_rgns (s : State) (w : Nat) (pc : Word) (word : Word) (path : Nat) (r : TrapReq) : (writeUserTrap s w pc word path r).rgns = s.rgns := by unfold writeUserTrap; rfl
@[simp] theorem writeUserTrap_ownProg (s : State) (w : Nat) (pc : Word) (word : Word) (path : Nat) (r : TrapReq) : (writeUserTrap s w pc word path r).ownProg = s.ownProg := by unfold writeUserTrap; rfl
@[simp] theorem writeUserTrap_nodes (s : State) (w : Nat) (pc : Word) (word : Word) (path : Nat) (r : TrapReq) : (writeUserTrap s w pc word path r).nodes = s.nodes := by unfold writeUserTrap; rfl
@[simp] theorem writeUserTrap_graphs (s : State) (w : Nat) (pc : Word) (word : Word) (path : Nat) (r : TrapReq) : (writeUserTrap s w pc word path r).graphs = s.graphs := by unfold writeUserTrap; rfl
@[simp] theorem writeUserTrap_seqs (s : State) (w : Nat) (pc : Word) (word : Word) (path : Nat) (r : TrapReq) : (writeUserTrap s w pc word path r).seqs = s.seqs := by unfold writeUserTrap; rfl
@[simp] theorem writeUserTrap_nextNode (s : State) (w : Nat) (pc : Word) (word : Word) (path : Nat) (r : TrapReq) : (writeUserTrap s w pc word path r).nextNode = s.nextNode := by unfold writeUserTrap; rfl
@[simp] theorem writeUserTrap_sslots (s : State) (w : Nat) (pc : Word) (word : Word) (path : Nat) (r : TrapReq) : (writeUserTrap s w pc word path r).sslots = s.sslots := by unfold writeUserTrap; rfl
@[simp] theorem writeUserTrap_saves (s : State) (w : Nat) (pc : Word) (word : Word) (path : Nat) (r : TrapReq) : (writeUserTrap s w pc word path r).saves = s.saves := by unfold writeUserTrap; rfl
@[simp] theorem writeUserTrap_hslots (s : State) (w : Nat) (pc : Word) (word : Word) (path : Nat) (r : TrapReq) : (writeUserTrap s w pc word path r).hslots = s.hslots := by unfold writeUserTrap; rfl
@[simp] theorem writeUserTrap_hdiscard (s : State) (w : Nat) (pc : Word) (word : Word) (path : Nat) (r : TrapReq) : (writeUserTrap s w pc word path r).hdiscard = s.hdiscard := by unfold writeUserTrap; rfl
@[simp] theorem writeUserTrap_hostQ (s : State) (w : Nat) (pc : Word) (word : Word) (path : Nat) (r : TrapReq) : (writeUserTrap s w pc word path r).hostQ = s.hostQ := by unfold writeUserTrap; rfl
@[simp] theorem writeUserTrap_rsreg (s : State) (w : Nat) (pc : Word) (word : Word) (path : Nat) (r : TrapReq) : (writeUserTrap s w pc word path r).rsreg = s.rsreg := by unfold writeUserTrap; rfl
@[simp] theorem writeUserTrap_rsdesc (s : State) (w : Nat) (pc : Word) (word : Word) (path : Nat) (r : TrapReq) : (writeUserTrap s w pc word path r).rsdesc = s.rsdesc := by unfold writeUserTrap; rfl
@[simp] theorem writeUserTrap_rsstep (s : State) (w : Nat) (pc : Word) (word : Word) (path : Nat) (r : TrapReq) : (writeUserTrap s w pc word path r).rsstep = s.rsstep := by unfold writeUserTrap; rfl
@[simp] theorem writeUserTrap_rsstat (s : State) (w : Nat) (pc : Word) (word : Word) (path : Nat) (r : TrapReq) : (writeUserTrap s w pc word path r).rsstat = s.rsstat := by unfold writeUserTrap; rfl
@[simp] theorem writeUserTrap_mgmt (s : State) (w : Nat) (pc : Word) (word : Word) (path : Nat) (r : TrapReq) : (writeUserTrap s w pc word path r).mgmt = s.mgmt := by unfold writeUserTrap; rfl
@[simp] theorem writeUserTrap_rays (s : State) (w : Nat) (pc : Word) (word : Word) (path : Nat) (r : TrapReq) : (writeUserTrap s w pc word path r).rays = s.rays := by unfold writeUserTrap; rfl
@[simp] theorem writeUserTrap_lht (s : State) (w : Nat) (pc : Word) (word : Word) (path : Nat) (r : TrapReq) : (writeUserTrap s w pc word path r).lht = s.lht := by unfold writeUserTrap; rfl
@[simp] theorem writeUserTrap_lhtCnt (s : State) (w : Nat) (pc : Word) (word : Word) (path : Nat) (r : TrapReq) : (writeUserTrap s w pc word path r).lhtCnt = s.lhtCnt := by unfold writeUserTrap; rfl
@[simp] theorem writeUserTrap_staged (s : State) (w : Nat) (pc : Word) (word : Word) (path : Nat) (r : TrapReq) : (writeUserTrap s w pc word path r).staged = s.staged := by unfold writeUserTrap; rfl
@[simp] theorem writeUserTrap_suspects (s : State) (w : Nat) (pc : Word) (word : Word) (path : Nat) (r : TrapReq) : (writeUserTrap s w pc word path r).suspects = s.suspects := by unfold writeUserTrap; rfl
@[simp] theorem writeUserTrap_replays (s : State) (w : Nat) (pc : Word) (word : Word) (path : Nat) (r : TrapReq) : (writeUserTrap s w pc word path r).replays = s.replays := by unfold writeUserTrap; rfl
@[simp] theorem writeUserTrap_sent (s : State) (w : Nat) (pc : Word) (word : Word) (path : Nat) (r : TrapReq) : (writeUserTrap s w pc word path r).sent = s.sent := by unfold writeUserTrap; rfl
@[simp] theorem writeUserTrap_outRead (s : State) (w : Nat) (pc : Word) (word : Word) (path : Nat) (r : TrapReq) : (writeUserTrap s w pc word path r).outRead = s.outRead := by unfold writeUserTrap; rfl
@[simp] theorem writeUserTrap_hostOut (s : State) (w : Nat) (pc : Word) (word : Word) (path : Nat) (r : TrapReq) : (writeUserTrap s w pc word path r).hostOut = s.hostOut := by unfold writeUserTrap; rfl

/-! ### writeSupTrap -/

@[simp] theorem writeSupTrap_agenda (s : State) (w : Nat) (sp : Split) (pc : Word) (word : Word) (path : Nat) (r : TrapReq) : (writeSupTrap s w sp pc word path r).agenda = s.agenda := by unfold writeSupTrap; rfl
@[simp] theorem writeSupTrap_cur (s : State) (w : Nat) (sp : Split) (pc : Word) (word : Word) (path : Nat) (r : TrapReq) : (writeSupTrap s w sp pc word path r).cur = s.cur := by unfold writeSupTrap; rfl
@[simp] theorem writeSupTrap_cur2 (s : State) (w : Nat) (sp : Split) (pc : Word) (word : Word) (path : Nat) (r : TrapReq) : (writeSupTrap s w sp pc word path r).cur2 = s.cur2 := by unfold writeSupTrap; rfl
@[simp] theorem writeSupTrap_free (s : State) (w : Nat) (sp : Split) (pc : Word) (word : Word) (path : Nat) (r : TrapReq) : (writeSupTrap s w sp pc word path r).free = s.free := by unfold writeSupTrap; rfl
@[simp] theorem writeSupTrap_nextOp (s : State) (w : Nat) (sp : Split) (pc : Word) (word : Word) (path : Nat) (r : TrapReq) : (writeSupTrap s w sp pc word path r).nextOp = s.nextOp := by unfold writeSupTrap; rfl
@[simp] theorem writeSupTrap_nextBlk (s : State) (w : Nat) (sp : Split) (pc : Word) (word : Word) (path : Nat) (r : TrapReq) : (writeSupTrap s w sp pc word path r).nextBlk = s.nextBlk := by unfold writeSupTrap; rfl
@[simp] theorem writeSupTrap_vregs (s : State) (w : Nat) (sp : Split) (pc : Word) (word : Word) (path : Nat) (r : TrapReq) : (writeSupTrap s w sp pc word path r).vregs = s.vregs := by unfold writeSupTrap; rfl
@[simp] theorem writeSupTrap_sregs (s : State) (w : Nat) (sp : Split) (pc : Word) (word : Word) (path : Nat) (r : TrapReq) : (writeSupTrap s w sp pc word path r).sregs = s.sregs := by unfold writeSupTrap; rfl
@[simp] theorem writeSupTrap_fsr (s : State) (w : Nat) (sp : Split) (pc : Word) (word : Word) (path : Nat) (r : TrapReq) : (writeSupTrap s w sp pc word path r).fsr = s.fsr := by unfold writeSupTrap; rfl
@[simp] theorem writeSupTrap_tval (s : State) (w : Nat) (sp : Split) (pc : Word) (word : Word) (path : Nat) (r : TrapReq) : (writeSupTrap s w sp pc word path r).tval = s.tval := by unfold writeSupTrap; rfl
@[simp] theorem writeSupTrap_queues (s : State) (w : Nat) (sp : Split) (pc : Word) (word : Word) (path : Nat) (r : TrapReq) : (writeSupTrap s w sp pc word path r).queues = s.queues := by unfold writeSupTrap; rfl
@[simp] theorem writeSupTrap_bn (s : State) (w : Nat) (sp : Split) (pc : Word) (word : Word) (path : Nat) (r : TrapReq) : (writeSupTrap s w sp pc word path r).bn = s.bn := by unfold writeSupTrap; rfl
@[simp] theorem writeSupTrap_blocks (s : State) (w : Nat) (sp : Split) (pc : Word) (word : Word) (path : Nat) (r : TrapReq) : (writeSupTrap s w sp pc word path r).blocks = s.blocks := by unfold writeSupTrap; rfl
@[simp] theorem writeSupTrap_ops (s : State) (w : Nat) (sp : Split) (pc : Word) (word : Word) (path : Nat) (r : TrapReq) : (writeSupTrap s w sp pc word path r).ops = s.ops := by unfold writeSupTrap; rfl
@[simp] theorem writeSupTrap_pend (s : State) (w : Nat) (sp : Split) (pc : Word) (word : Word) (path : Nat) (r : TrapReq) : (writeSupTrap s w sp pc word path r).pend = s.pend := by unfold writeSupTrap; rfl
@[simp] theorem writeSupTrap_bnPend (s : State) (w : Nat) (sp : Split) (pc : Word) (word : Word) (path : Nat) (r : TrapReq) : (writeSupTrap s w sp pc word path r).bnPend = s.bnPend := by unfold writeSupTrap; rfl
@[simp] theorem writeSupTrap_cores (s : State) (w : Nat) (sp : Split) (pc : Word) (word : Word) (path : Nat) (r : TrapReq) : (writeSupTrap s w sp pc word path r).cores = s.cores := by unfold writeSupTrap; rfl
@[simp] theorem writeSupTrap_quarters (s : State) (w : Nat) (sp : Split) (pc : Word) (word : Word) (path : Nat) (r : TrapReq) : (writeSupTrap s w sp pc word path r).quarters = s.quarters := by unfold writeSupTrap; rfl
@[simp] theorem writeSupTrap_growQ (s : State) (w : Nat) (sp : Split) (pc : Word) (word : Word) (path : Nat) (r : TrapReq) : (writeSupTrap s w sp pc word path r).growQ = s.growQ := by unfold writeSupTrap; rfl
@[simp] theorem writeSupTrap_dies (s : State) (w : Nat) (sp : Split) (pc : Word) (word : Word) (path : Nat) (r : TrapReq) : (writeSupTrap s w sp pc word path r).dies = s.dies := by unfold writeSupTrap; rfl
@[simp] theorem writeSupTrap_pkg (s : State) (w : Nat) (sp : Split) (pc : Word) (word : Word) (path : Nat) (r : TrapReq) : (writeSupTrap s w sp pc word path r).pkg = s.pkg := by unfold writeSupTrap; rfl
@[simp] theorem writeSupTrap_tlb (s : State) (w : Nat) (sp : Split) (pc : Word) (word : Word) (path : Nat) (r : TrapReq) : (writeSupTrap s w sp pc word path r).tlb = s.tlb := by unfold writeSupTrap; rfl
@[simp] theorem writeSupTrap_owners (s : State) (w : Nat) (sp : Split) (pc : Word) (word : Word) (path : Nat) (r : TrapReq) : (writeSupTrap s w sp pc word path r).owners = s.owners := by unfold writeSupTrap; rfl
@[simp] theorem writeSupTrap_poison (s : State) (w : Nat) (sp : Split) (pc : Word) (word : Word) (path : Nat) (r : TrapReq) : (writeSupTrap s w sp pc word path r).poison = s.poison := by unfold writeSupTrap; rfl
@[simp] theorem writeSupTrap_frozen (s : State) (w : Nat) (sp : Split) (pc : Word) (word : Word) (path : Nat) (r : TrapReq) : (writeSupTrap s w sp pc word path r).frozen = s.frozen := by unfold writeSupTrap; rfl
@[simp] theorem writeSupTrap_swc (s : State) (w : Nat) (sp : Split) (pc : Word) (word : Word) (path : Nat) (r : TrapReq) : (writeSupTrap s w sp pc word path r).swc = s.swc := by unfold writeSupTrap; rfl
@[simp] theorem writeSupTrap_dcLru (s : State) (w : Nat) (sp : Split) (pc : Word) (word : Word) (path : Nat) (r : TrapReq) : (writeSupTrap s w sp pc word path r).dcLru = s.dcLru := by unfold writeSupTrap; rfl
@[simp] theorem writeSupTrap_poolOld (s : State) (w : Nat) (sp : Split) (pc : Word) (word : Word) (path : Nat) (r : TrapReq) : (writeSupTrap s w sp pc word path r).poolOld = s.poolOld := by unfold writeSupTrap; rfl
@[simp] theorem writeSupTrap_prov (s : State) (w : Nat) (sp : Split) (pc : Word) (word : Word) (path : Nat) (r : TrapReq) : (writeSupTrap s w sp pc word path r).prov = s.prov := by unfold writeSupTrap; rfl
@[simp] theorem writeSupTrap_granules (s : State) (w : Nat) (sp : Split) (pc : Word) (word : Word) (path : Nat) (r : TrapReq) : (writeSupTrap s w sp pc word path r).granules = s.granules := by unfold writeSupTrap; rfl
@[simp] theorem writeSupTrap_marks (s : State) (w : Nat) (sp : Split) (pc : Word) (word : Word) (path : Nat) (r : TrapReq) : (writeSupTrap s w sp pc word path r).marks = s.marks := by unfold writeSupTrap; rfl
@[simp] theorem writeSupTrap_acquired (s : State) (w : Nat) (sp : Split) (pc : Word) (word : Word) (path : Nat) (r : TrapReq) : (writeSupTrap s w sp pc word path r).acquired = s.acquired := by unfold writeSupTrap; rfl
@[simp] theorem writeSupTrap_fenceMarks (s : State) (w : Nat) (sp : Split) (pc : Word) (word : Word) (path : Nat) (r : TrapReq) : (writeSupTrap s w sp pc word path r).fenceMarks = s.fenceMarks := by unfold writeSupTrap; rfl
@[simp] theorem writeSupTrap_scMarks (s : State) (w : Nat) (sp : Split) (pc : Word) (word : Word) (path : Nat) (r : TrapReq) : (writeSupTrap s w sp pc word path r).scMarks = s.scMarks := by unfold writeSupTrap; rfl
@[simp] theorem writeSupTrap_seen (s : State) (w : Nat) (sp : Split) (pc : Word) (word : Word) (path : Nat) (r : TrapReq) : (writeSupTrap s w sp pc word path r).seen = s.seen := by unfold writeSupTrap; rfl
@[simp] theorem writeSupTrap_routes (s : State) (w : Nat) (sp : Split) (pc : Word) (word : Word) (path : Nat) (r : TrapReq) : (writeSupTrap s w sp pc word path r).routes = s.routes := by unfold writeSupTrap; rfl
@[simp] theorem writeSupTrap_regions (s : State) (w : Nat) (sp : Split) (pc : Word) (word : Word) (path : Nat) (r : TrapReq) : (writeSupTrap s w sp pc word path r).regions = s.regions := by unfold writeSupTrap; rfl
@[simp] theorem writeSupTrap_cks (s : State) (w : Nat) (sp : Split) (pc : Word) (word : Word) (path : Nat) (r : TrapReq) : (writeSupTrap s w sp pc word path r).cks = s.cks := by unfold writeSupTrap; rfl
@[simp] theorem writeSupTrap_vmarks (s : State) (w : Nat) (sp : Split) (pc : Word) (word : Word) (path : Nat) (r : TrapReq) : (writeSupTrap s w sp pc word path r).vmarks = s.vmarks := by unfold writeSupTrap; rfl
@[simp] theorem writeSupTrap_pools (s : State) (w : Nat) (sp : Split) (pc : Word) (word : Word) (path : Nat) (r : TrapReq) : (writeSupTrap s w sp pc word path r).pools = s.pools := by unfold writeSupTrap; rfl
@[simp] theorem writeSupTrap_mem (s : State) (w : Nat) (sp : Split) (pc : Word) (word : Word) (path : Nat) (r : TrapReq) : (writeSupTrap s w sp pc word path r).mem = s.mem := by unfold writeSupTrap; rfl
@[simp] theorem writeSupTrap_suspectVas (s : State) (w : Nat) (sp : Split) (pc : Word) (word : Word) (path : Nat) (r : TrapReq) : (writeSupTrap s w sp pc word path r).suspectVas = s.suspectVas := by unfold writeSupTrap; rfl
@[simp] theorem writeSupTrap_provFull (s : State) (w : Nat) (sp : Split) (pc : Word) (word : Word) (path : Nat) (r : TrapReq) : (writeSupTrap s w sp pc word path r).provFull = s.provFull := by unfold writeSupTrap; rfl
@[simp] theorem writeSupTrap_icode (s : State) (w : Nat) (sp : Split) (pc : Word) (word : Word) (path : Nat) (r : TrapReq) : (writeSupTrap s w sp pc word path r).icode = s.icode := by unfold writeSupTrap; rfl
@[simp] theorem writeSupTrap_stalls (s : State) (w : Nat) (sp : Split) (pc : Word) (word : Word) (path : Nat) (r : TrapReq) : (writeSupTrap s w sp pc word path r).stalls = s.stalls := by unfold writeSupTrap; rfl
@[simp] theorem writeSupTrap_prq (s : State) (w : Nat) (sp : Split) (pc : Word) (word : Word) (path : Nat) (r : TrapReq) : (writeSupTrap s w sp pc word path r).prq = s.prq := by unfold writeSupTrap; rfl
@[simp] theorem writeSupTrap_chans (s : State) (w : Nat) (sp : Split) (pc : Word) (word : Word) (path : Nat) (r : TrapReq) : (writeSupTrap s w sp pc word path r).chans = s.chans := by unfold writeSupTrap; rfl
@[simp] theorem writeSupTrap_aos (s : State) (w : Nat) (sp : Split) (pc : Word) (word : Word) (path : Nat) (r : TrapReq) : (writeSupTrap s w sp pc word path r).aos = s.aos := by unfold writeSupTrap; rfl
@[simp] theorem writeSupTrap_cbars (s : State) (w : Nat) (sp : Split) (pc : Word) (word : Word) (path : Nat) (r : TrapReq) : (writeSupTrap s w sp pc word path r).cbars = s.cbars := by unfold writeSupTrap; rfl
@[simp] theorem writeSupTrap_tds (s : State) (w : Nat) (sp : Split) (pc : Word) (word : Word) (path : Nat) (r : TrapReq) : (writeSupTrap s w sp pc word path r).tds = s.tds := by unfold writeSupTrap; rfl
@[simp] theorem writeSupTrap_cbs (s : State) (w : Nat) (sp : Split) (pc : Word) (word : Word) (path : Nat) (r : TrapReq) : (writeSupTrap s w sp pc word path r).cbs = s.cbs := by unfold writeSupTrap; rfl
@[simp] theorem writeSupTrap_fwd (s : State) (w : Nat) (sp : Split) (pc : Word) (word : Word) (path : Nat) (r : TrapReq) : (writeSupTrap s w sp pc word path r).fwd = s.fwd := by unfold writeSupTrap; rfl
@[simp] theorem writeSupTrap_fwdEnts (s : State) (w : Nat) (sp : Split) (pc : Word) (word : Word) (path : Nat) (r : TrapReq) : (writeSupTrap s w sp pc word path r).fwdEnts = s.fwdEnts := by unfold writeSupTrap; rfl
@[simp] theorem writeSupTrap_tstat (s : State) (w : Nat) (sp : Split) (pc : Word) (word : Word) (path : Nat) (r : TrapReq) : (writeSupTrap s w sp pc word path r).tstat = s.tstat := by unfold writeSupTrap; rfl
@[simp] theorem writeSupTrap_tpois (s : State) (w : Nat) (sp : Split) (pc : Word) (word : Word) (path : Nat) (r : TrapReq) : (writeSupTrap s w sp pc word path r).tpois = s.tpois := by unfold writeSupTrap; rfl
@[simp] theorem writeSupTrap_vents (s : State) (w : Nat) (sp : Split) (pc : Word) (word : Word) (path : Nat) (r : TrapReq) : (writeSupTrap s w sp pc word path r).vents = s.vents := by unfold writeSupTrap; rfl
@[simp] theorem writeSupTrap_vmeta (s : State) (w : Nat) (sp : Split) (pc : Word) (word : Word) (path : Nat) (r : TrapReq) : (writeSupTrap s w sp pc word path r).vmeta = s.vmeta := by unfold writeSupTrap; rfl
@[simp] theorem writeSupTrap_vseq (s : State) (w : Nat) (sp : Split) (pc : Word) (word : Word) (path : Nat) (r : TrapReq) : (writeSupTrap s w sp pc word path r).vseq = s.vseq := by unfold writeSupTrap; rfl
@[simp] theorem writeSupTrap_vcap (s : State) (w : Nat) (sp : Split) (pc : Word) (word : Word) (path : Nat) (r : TrapReq) : (writeSupTrap s w sp pc word path r).vcap = s.vcap := by unfold writeSupTrap; rfl
@[simp] theorem writeSupTrap_flashEnts (s : State) (w : Nat) (sp : Split) (pc : Word) (word : Word) (path : Nat) (r : TrapReq) : (writeSupTrap s w sp pc word path r).flashEnts = s.flashEnts := by unfold writeSupTrap; rfl
@[simp] theorem writeSupTrap_flashMeta (s : State) (w : Nat) (sp : Split) (pc : Word) (word : Word) (path : Nat) (r : TrapReq) : (writeSupTrap s w sp pc word path r).flashMeta = s.flashMeta := by unfold writeSupTrap; rfl
@[simp] theorem writeSupTrap_mail (s : State) (w : Nat) (sp : Split) (pc : Word) (word : Word) (path : Nat) (r : TrapReq) : (writeSupTrap s w sp pc word path r).mail = s.mail := by unfold writeSupTrap; rfl
@[simp] theorem writeSupTrap_mailOut (s : State) (w : Nat) (sp : Split) (pc : Word) (word : Word) (path : Nat) (r : TrapReq) : (writeSupTrap s w sp pc word path r).mailOut = s.mailOut := by unfold writeSupTrap; rfl
@[simp] theorem writeSupTrap_rgns (s : State) (w : Nat) (sp : Split) (pc : Word) (word : Word) (path : Nat) (r : TrapReq) : (writeSupTrap s w sp pc word path r).rgns = s.rgns := by unfold writeSupTrap; rfl
@[simp] theorem writeSupTrap_ownProg (s : State) (w : Nat) (sp : Split) (pc : Word) (word : Word) (path : Nat) (r : TrapReq) : (writeSupTrap s w sp pc word path r).ownProg = s.ownProg := by unfold writeSupTrap; rfl
@[simp] theorem writeSupTrap_nodes (s : State) (w : Nat) (sp : Split) (pc : Word) (word : Word) (path : Nat) (r : TrapReq) : (writeSupTrap s w sp pc word path r).nodes = s.nodes := by unfold writeSupTrap; rfl
@[simp] theorem writeSupTrap_graphs (s : State) (w : Nat) (sp : Split) (pc : Word) (word : Word) (path : Nat) (r : TrapReq) : (writeSupTrap s w sp pc word path r).graphs = s.graphs := by unfold writeSupTrap; rfl
@[simp] theorem writeSupTrap_seqs (s : State) (w : Nat) (sp : Split) (pc : Word) (word : Word) (path : Nat) (r : TrapReq) : (writeSupTrap s w sp pc word path r).seqs = s.seqs := by unfold writeSupTrap; rfl
@[simp] theorem writeSupTrap_nextNode (s : State) (w : Nat) (sp : Split) (pc : Word) (word : Word) (path : Nat) (r : TrapReq) : (writeSupTrap s w sp pc word path r).nextNode = s.nextNode := by unfold writeSupTrap; rfl
@[simp] theorem writeSupTrap_sslots (s : State) (w : Nat) (sp : Split) (pc : Word) (word : Word) (path : Nat) (r : TrapReq) : (writeSupTrap s w sp pc word path r).sslots = s.sslots := by unfold writeSupTrap; rfl
@[simp] theorem writeSupTrap_saves (s : State) (w : Nat) (sp : Split) (pc : Word) (word : Word) (path : Nat) (r : TrapReq) : (writeSupTrap s w sp pc word path r).saves = s.saves := by unfold writeSupTrap; rfl
@[simp] theorem writeSupTrap_hslots (s : State) (w : Nat) (sp : Split) (pc : Word) (word : Word) (path : Nat) (r : TrapReq) : (writeSupTrap s w sp pc word path r).hslots = s.hslots := by unfold writeSupTrap; rfl
@[simp] theorem writeSupTrap_hdiscard (s : State) (w : Nat) (sp : Split) (pc : Word) (word : Word) (path : Nat) (r : TrapReq) : (writeSupTrap s w sp pc word path r).hdiscard = s.hdiscard := by unfold writeSupTrap; rfl
@[simp] theorem writeSupTrap_hostQ (s : State) (w : Nat) (sp : Split) (pc : Word) (word : Word) (path : Nat) (r : TrapReq) : (writeSupTrap s w sp pc word path r).hostQ = s.hostQ := by unfold writeSupTrap; rfl
@[simp] theorem writeSupTrap_rsreg (s : State) (w : Nat) (sp : Split) (pc : Word) (word : Word) (path : Nat) (r : TrapReq) : (writeSupTrap s w sp pc word path r).rsreg = s.rsreg := by unfold writeSupTrap; rfl
@[simp] theorem writeSupTrap_rsdesc (s : State) (w : Nat) (sp : Split) (pc : Word) (word : Word) (path : Nat) (r : TrapReq) : (writeSupTrap s w sp pc word path r).rsdesc = s.rsdesc := by unfold writeSupTrap; rfl
@[simp] theorem writeSupTrap_rsstep (s : State) (w : Nat) (sp : Split) (pc : Word) (word : Word) (path : Nat) (r : TrapReq) : (writeSupTrap s w sp pc word path r).rsstep = s.rsstep := by unfold writeSupTrap; rfl
@[simp] theorem writeSupTrap_rsstat (s : State) (w : Nat) (sp : Split) (pc : Word) (word : Word) (path : Nat) (r : TrapReq) : (writeSupTrap s w sp pc word path r).rsstat = s.rsstat := by unfold writeSupTrap; rfl
@[simp] theorem writeSupTrap_mgmt (s : State) (w : Nat) (sp : Split) (pc : Word) (word : Word) (path : Nat) (r : TrapReq) : (writeSupTrap s w sp pc word path r).mgmt = s.mgmt := by unfold writeSupTrap; rfl
@[simp] theorem writeSupTrap_rays (s : State) (w : Nat) (sp : Split) (pc : Word) (word : Word) (path : Nat) (r : TrapReq) : (writeSupTrap s w sp pc word path r).rays = s.rays := by unfold writeSupTrap; rfl
@[simp] theorem writeSupTrap_lht (s : State) (w : Nat) (sp : Split) (pc : Word) (word : Word) (path : Nat) (r : TrapReq) : (writeSupTrap s w sp pc word path r).lht = s.lht := by unfold writeSupTrap; rfl
@[simp] theorem writeSupTrap_lhtCnt (s : State) (w : Nat) (sp : Split) (pc : Word) (word : Word) (path : Nat) (r : TrapReq) : (writeSupTrap s w sp pc word path r).lhtCnt = s.lhtCnt := by unfold writeSupTrap; rfl
@[simp] theorem writeSupTrap_staged (s : State) (w : Nat) (sp : Split) (pc : Word) (word : Word) (path : Nat) (r : TrapReq) : (writeSupTrap s w sp pc word path r).staged = s.staged := by unfold writeSupTrap; rfl
@[simp] theorem writeSupTrap_suspects (s : State) (w : Nat) (sp : Split) (pc : Word) (word : Word) (path : Nat) (r : TrapReq) : (writeSupTrap s w sp pc word path r).suspects = s.suspects := by unfold writeSupTrap; rfl
@[simp] theorem writeSupTrap_replays (s : State) (w : Nat) (sp : Split) (pc : Word) (word : Word) (path : Nat) (r : TrapReq) : (writeSupTrap s w sp pc word path r).replays = s.replays := by unfold writeSupTrap; rfl
@[simp] theorem writeSupTrap_sent (s : State) (w : Nat) (sp : Split) (pc : Word) (word : Word) (path : Nat) (r : TrapReq) : (writeSupTrap s w sp pc word path r).sent = s.sent := by unfold writeSupTrap; rfl
@[simp] theorem writeSupTrap_outRead (s : State) (w : Nat) (sp : Split) (pc : Word) (word : Word) (path : Nat) (r : TrapReq) : (writeSupTrap s w sp pc word path r).outRead = s.outRead := by unfold writeSupTrap; rfl
@[simp] theorem writeSupTrap_hostOut (s : State) (w : Nat) (sp : Split) (pc : Word) (word : Word) (path : Nat) (r : TrapReq) : (writeSupTrap s w sp pc word path r).hostOut = s.hostOut := by unfold writeSupTrap; rfl

end Sys2Proof.Machine
end

