-- ==== Sys2Proof/Laws/Finish.lean ====
section
/-!
SUPPORT. What starting and completing an outstanding operation leaves (R39, R57).
-/
namespace Sys2Proof.Machine

/-- A lane of a register holds the word of a write that names it, and every other keeps its own. -/
theorem rdReg_wrOne (s : State) (w code l : Nat) (v : TWord) (w' r l' : Nat) (hl : l < 32) (hl' : l' < 32) :
    rdReg (wrReg s w code [(l, v)]) w' r l' =
      if w' = w ∧ r = code ∧ code < 0xE0 ∧ regLane code l = regLane r l' then v else rdReg s w' r l' := by
  split
  · next h =>
    obtain ⟨rfl, rfl, h1, h2⟩ := h
    by_cases hv : r < 0xC0
    · have : l = l' := by simpa [regLane, hv] using h2
      subst this
      exact rdReg_wrReg_vector _ _ _ _ _ _ hv (List.mem_singleton.2 rfl) (by simp)
    · exact rdReg_wrReg_scalar _ _ _ _ _ _ (by omega) h1
  · next h =>
    by_cases hc : code < 0xE0
    · refine rdReg_wrReg_other _ _ _ _ _ _ _ hl' (by simpa using hl) ?_
      rintro ⟨rfl, rfl, h3⟩
      refine h ⟨rfl, rfl, hc, ?_⟩
      unfold regLane
      split
      · next hv => have h4 := h3 hv; simp at h4; exact h4.symm
      · rfl
    · unfold wrReg
      rw [if_neg (by omega), if_neg (by omega)]

/-- One result of an operation. -/
def putDst (o : Op) (s : State) (e : Nat × Nat × TWord) : State :=
  if o.dst.contains (e.1, regLane e.1 e.2.1) then
    let s1 := wrReg (killPend s o.w e.1 0 [regLane e.1 e.2.1]) o.w e.1 [(e.2.1, e.2.2)]
    { s1 with ops := s1.ops.map (fun p => if p.w = o.w ∧ p.id < o.id then { p with dst := p.dst.filter (fun d => d ≠ (e.1, regLane e.1 e.2.1)) } else p) }
  else s

theorem writeDst_foldl (s : State) (o : Op) (ws : List (Nat × Nat × TWord)) : writeDst s o ws = ws.foldl (putDst o) s := rfl

/-- A result changes registers, pending writes and the destinations of earlier operations. -/
theorem putDst_eq (o : Op) (s : State) (e : Nat × Nat × TWord) :
    ∃ v r p q, putDst o s e = { s with vregs := v, sregs := r, pend := p, ops := q } ∧ q.map Op.bare = s.ops.map Op.bare := by
  unfold putDst
  split
  · obtain ⟨v, r, h⟩ := wrReg_eq (killPend s o.w e.1 0 [regLane e.1 e.2.1]) o.w e.1 [(e.2.1, e.2.2)]
    rw [h]
    refine ⟨v, r, _, _, rfl, ?_⟩
    rw [List.map_map]
    refine List.map_congr_left fun p _ => ?_
    simp only [Function.comp]
    split <;> rfl
  · exact ⟨s.vregs, s.sregs, s.pend, s.ops, rfl, rfl⟩

/-- What a reader of registers sees of a result. -/
theorem rdReg_putDst (o : Op) (s : State) (e : Nat × Nat × TWord) (w r l : Nat) :
    rdReg (putDst o s e) w r l = rdReg (if o.dst.contains (e.1, regLane e.1 e.2.1) then wrReg s o.w e.1 [(e.2.1, e.2.2)] else s) w r l := by
  unfold putDst
  split
  · have h : killPend s o.w e.1 0 [regLane e.1 e.2.1] = { s with pend := (killPend s o.w e.1 0 [regLane e.1 e.2.1]).pend } := rfl
    rw [h, wrReg_withPend]
    rfl
  · rfl

/-- The results of an operation change registers, pending writes and the destinations of earlier operations. -/
theorem writeDst_eq (s : State) (o : Op) (ws : List (Nat × Nat × TWord)) :
    ∃ v r p q, writeDst s o ws = { s with vregs := v, sregs := r, pend := p, ops := q } ∧ q.map Op.bare = s.ops.map Op.bare := by
  rw [writeDst_foldl]
  induction ws generalizing s with
  | nil => exact ⟨s.vregs, s.sregs, s.pend, s.ops, rfl, rfl⟩
  | cons e r ih =>
    obtain ⟨v, x, p, q, h, hq⟩ := putDst_eq o s e
    obtain ⟨v2, x2, p2, q2, h2, hq2⟩ := ih (putDst o s e)
    rw [List.foldl_cons, h2]
    rw [h] at hq2 ⊢
    exact ⟨v2, x2, p2, q2, rfl, hq2.trans hq⟩

theorem rdReg_writeDst_other (s : State) (o : Op) (ws : List (Nat × Nat × TWord)) (hw : ∀ e ∈ ws, e.2.1 < 32) (w r l : Nat) (hl : l < 32)
    (h : ¬(w = o.w ∧ o.dst.contains (r, regLane r l) = true ∧ ∃ e ∈ ws, e.1 = r ∧ regLane e.1 e.2.1 = regLane r l)) :
    rdReg (writeDst s o ws) w r l = rdReg s w r l := by
  rw [writeDst_foldl]
  induction ws generalizing s with
  | nil => rfl
  | cons e rest ih =>
    rw [List.foldl_cons, ih _ (fun x hx => hw x (List.mem_cons_of_mem _ hx))]
    · rw [rdReg_putDst]
      split
      · next hc =>
        rw [rdReg_wrOne _ _ _ _ _ _ _ _ (hw e List.mem_cons_self) hl, if_neg]
        rintro ⟨rfl, rfl, -, h4⟩
        exact h ⟨rfl, h4 ▸ hc, e, List.mem_cons_self, rfl, h4⟩
      · rfl
    · rintro ⟨h1, h2, x, hx, h3⟩
      exact h ⟨h1, h2, x, List.mem_cons_of_mem _ hx, h3⟩

theorem rdReg_writeDst_at (s : State) (o : Op) (ws : List (Nat × Nat × TWord)) (hw : ∀ e ∈ ws, e.2.1 < 32) (r l : Nat) (v : TWord) (hl : l < 32)
    (hc : r < 0xE0) (hd : o.dst.contains (r, regLane r l) = true)
    (hx : ∀ x ∈ ws, x.1 = r → regLane x.1 x.2.1 = regLane r l → x.2.2 = v)
    (h : rdReg s o.w r l = v ∨ ∃ x ∈ ws, x.1 = r ∧ regLane x.1 x.2.1 = regLane r l) : rdReg (writeDst s o ws) o.w r l = v := by
  rw [writeDst_foldl]
  induction ws generalizing s with
  | nil =>
    rcases h with h | ⟨x, hx, -⟩
    · exact h
    · cases hx
  | cons x rest ih =>
    rw [List.foldl_cons]
    refine ih _ (fun y hy => hw y (List.mem_cons_of_mem _ hy)) (fun y hy => hx y (List.mem_cons_of_mem _ hy)) ?_
    by_cases hm : x.1 = r ∧ regLane x.1 x.2.1 = regLane r l
    · left
      have hv := hx x List.mem_cons_self hm.1 hm.2
      obtain ⟨rfl, hm2⟩ := hm
      rw [rdReg_putDst, if_pos (by rw [hm2]; exact hd), rdReg_wrOne _ _ _ _ _ _ _ _ (hw x List.mem_cons_self) hl, if_pos ⟨rfl, rfl, hc, hm2⟩, hv]
    · rcases h with h | ⟨y, hy, h3⟩
      · left
        rw [rdReg_putDst]
        split
        · rw [rdReg_wrOne _ _ _ _ _ _ _ _ (hw x List.mem_cons_self) hl, if_neg, h]
          rintro ⟨-, rfl, -, h4⟩
          exact hm ⟨rfl, h4⟩
        · exact h
      · rcases List.mem_cons.1 hy with rfl | hy
        · exact absurd h3 hm
        · exact Or.inr ⟨y, hy, h3⟩

/-- Writing an operation's results and ending it. -/
theorem finishOp_completes (s s0 : State) (o : Op) (ws : List (Nat × Nat × TWord)) (hp : o.push = none)
    (hr : ∀ w r l, rdReg s w r l = rdReg s0 w r l) (ho : (endOp s o.id).ops = s0.ops.filter (fun e => decide (e.id ≠ o.id))) :
    Completes o ws s0 (finishOp s o ws) := by
  have hf : finishOp s o ws = writeDst (endOp s o.id) o ws := by unfold finishOp; rw [hp]
  rw [hf]
  refine ⟨?_, ?_, ?_⟩
  · intro hw e he hc hd hx
    exact rdReg_writeDst_at _ _ _ hw _ _ _ (hw e he) hc hd (fun x hx1 h1 h2 => hx x hx1 h1 h2) (Or.inr ⟨e, he, rfl, rfl⟩)
  · intro hw w r l hl h
    rw [rdReg_writeDst_other _ _ _ hw _ _ _ hl h]
    exact hr _ _ _
  · obtain ⟨v, r, p, q, h, hq⟩ := writeDst_eq (endOp s o.id) o ws
    rw [h]
    exact hq.trans (congrArg (List.map Op.bare) ho)

/-! ### Starting -/

theorem killDst_bare (s : State) (w code : Nat) (ls : List Nat) : (killDst s w code ls).ops.map Op.bare = s.ops.map Op.bare :=
  killDst_keeps s w code ls

theorem writeNow_bare (s : State) (w code : Nat) (ws : List (Nat × TWord)) : (writeNow s w code ws).ops.map Op.bare = s.ops.map Op.bare := by
  obtain ⟨v, r, h⟩ := wrReg_eq (killPend s w code 0 (ws.map (fun e => regLane code e.1))) w code ws
  unfold writeNow
  simp only [h]
  exact killDst_bare _ _ _ _

theorem rdReg_writeNow (s : State) (w code : Nat) (ws : List (Nat × TWord)) (w' r l : Nat) :
    rdReg (writeNow s w code ws) w' r l = rdReg (wrReg s w code ws) w' r l := by
  have h : killPend s w code 0 (ws.map (fun e => regLane code e.1)) = { s with pend := (killPend s w code 0 (ws.map (fun e => regLane code e.1))).pend } := rfl
  unfold writeNow
  rw [rdReg_killDst]
  rw [h, wrReg_withPend]
  rfl

/-- A variable-latency word with a register in D goes on with its operation under way. -/
theorem startVar_eq (c : Ctx) (cls : Counter) (mask : Mask) (lanes : List Nat) (kind : OpKind) (s : State) (h : isQ c.f.d = false) :
    startVar c cls mask lanes kind s =
      advance c { s with
        ops := s.ops ++ [{ id := s.nextOp, w := c.w, lanes := mask, cls := some cls, dst := dstOf c.f.d.toNat lanes, push := none, denied := [],
                           kind := kind, word := c.word, path := c.path, issuer := c.sp.mask, routes := s.routes }],
        nextOp := s.nextOp + 1 } := by
  unfold startVar
  simp only [pushTo, h, Bool.false_eq_true, if_false]

end Sys2Proof.Machine
end

