-- ==== Sys2Proof/Laws/Memory.lean ====
section
/-!
SUPPORT. Memory keeps its canonical form under every operation that writes it, and what a read finds after a write.
-/
namespace Sys2Proof.Machine

/-! ### The canonical form -/

theorem wf_reset : Memory.wf State.reset.mem = true := rfl

theorem wf_set (m : List Host.Cell) (k : Nat) (v : Byte) (h : Memory.wf m = true) : Memory.wf (sset 0#8 m k v) = true := swf_sset _ _ _ _ h

theorem wf_setAll (m ws : List Host.Cell) (h : Memory.wf m = true) : Memory.wf (ssetAll 0#8 m ws) = true := swf_ssetAll _ _ _ h

theorem wf_filter (p : Host.Cell → Bool) (m : List Host.Cell) (h : Memory.wf m = true) : Memory.wf (m.filter p) = true := swf_filter _ _ _ h

/-- What is left when keys are dropped: those in the range read as unlisted, the others as before, whatever the list. -/
theorem sget_dropKeys {β : Type} (d : β) (m : List (Nat × β)) (lo n k : Nat) :
    sget d (dropKeys m lo n) k = if k < lo ∨ lo + n ≤ k then sget d m k else d := by
  induction m with
  | nil => simp [dropKeys, sget]
  | cons e r ih =>
    obtain ⟨j, v⟩ := e
    unfold dropKeys
    split
    · next hj =>
      simp only [sget, ih]
      by_cases h1 : k = j
      · subst h1; simp [hj]
      · simp only [if_neg h1]; split <;> simp
    · next hj =>
      rcases Nat.lt_trichotomy k j with h | h | h
      · simp [sget_sdrop_le _ _ _ _ (by omega : k ≤ j), sget, show k ≠ j by omega, h]
      · rw [sget_sdrop_le _ _ _ _ (by omega), if_neg (by omega)]
      · simp [sget_sdrop_gt _ _ _ _ h, ih, sget, show k ≠ j by omega, show ¬k < j by omega]

theorem sabove_dropKeys {β : Type} (m : List (Nat × β)) (lo n j : Nat) (h : sabove j m = true) : sabove j (dropKeys m lo n) = true := by
  induction m with
  | nil => rfl
  | cons e r ih =>
    simp only [sabove, Bool.and_eq_true] at h
    unfold dropKeys
    split
    · simp only [sabove, Bool.and_eq_true]; exact ⟨h.1, ih h.2⟩
    · exact sabove_sdrop _ _ _ (ih h.2)

theorem wf_dropKeys (m : List Host.Cell) (lo n : Nat) (h : Memory.wf m = true) : Memory.wf (dropKeys m lo n) = true := by
  induction m with
  | nil => rfl
  | cons e r ih =>
    have hr : swf 0#8 r = true := by simp only [Memory.wf, swf, Bool.and_eq_true] at h; exact h.2
    have hs : sabove e.1 r = true := by simp only [Memory.wf, swf, Bool.and_eq_true] at h; exact h.1.2
    unfold dropKeys
    split
    · simp only [Memory.wf, swf, Bool.and_eq_true] at h ⊢; exact ⟨⟨h.1.1, sabove_dropKeys _ _ _ _ hs⟩, ih hr⟩
    · rw [sdrop_above _ _ (sabove_dropKeys _ _ _ _ hs)]; exact ih hr

theorem wf_wrMem (s : State) (k n v : Nat) (h : Memory.wf s.mem = true) : Memory.wf (wrMem s k n v).mem = true := swf_ssetAll _ _ _ h

theorem wf_putBytes (s : State) (key : Nat → Nat) (bs : List Byte) (h : Memory.wf s.mem = true) : Memory.wf (putBytes s key bs).mem = true :=
  swf_ssetAll _ _ _ h

/-- Cells made from a range of offsets rise. -/
theorem cells_rise (k n : Nat) (g : Nat → Byte) :
    ((List.range n).map (fun i => ((k + i, g i) : Host.Cell))).Pairwise (fun x y => x.1 < y.1) := by
  rw [List.pairwise_map]
  exact (List.pairwise_lt_range (n := n)).imp (fun h => by simpa using h)

theorem cells_in (k n : Nat) (g : Nat → Byte) (e : Host.Cell) (he : e ∈ (List.range n).map (fun i => ((k + i, g i) : Host.Cell))) :
    k ≤ e.1 ∧ e.1 < k + n := by
  obtain ⟨i, hi, rfl⟩ := List.mem_map.1 he
  have := List.mem_range.1 hi
  exact ⟨Nat.le_add_right _ _, by simpa using this⟩

theorem wf_fillMem (s : State) (lo n v : Nat) (h : Memory.wf s.mem = true) : Memory.wf (fillMem s lo n v).mem = true :=
  swf_sreplace _ _ _ _ _ h (cells_rise _ _ _) (cells_in _ _ _)

theorem wf_loosePage (s : State) (a n : Nat) (h : Memory.wf s.mem = true) : Memory.wf (loosePage s a n).mem = true :=
  swf_sreplace _ _ _ _ _ h (cells_rise _ _ _) (cells_in _ _ _)

theorem wf_fillZero (s : State) (lo n : Nat) (h : Memory.wf s.mem = true) : Memory.wf (restoreRegion.fillZero s lo n).mem = true :=
  swf_sreplace _ _ _ _ _ h List.Pairwise.nil (by simp)

theorem wf_copyMem (s : State) (src dst n : Nat) (h : Memory.wf s.mem = true) : Memory.wf (copyMem s src dst n).mem = true := by
  refine swf_sreplace _ _ _ _ _ h ?_ ?_
  · rw [List.pairwise_map]
    refine (((swf_iff _ _).1 h).1.filter _).imp_of_mem ?_
    intro a b ha hb hab
    have h1 := (List.mem_filter.1 ha).2
    have h2 := (List.mem_filter.1 hb).2
    simp only [decide_eq_true_eq] at h1 h2
    show a.1 - src + dst < b.1 - src + dst
    have : a.1 < b.1 := hab
    omega
  · intro e he
    obtain ⟨a, ha, rfl⟩ := List.mem_map.1 he
    have h1 := (List.mem_filter.1 ha).2
    simp only [decide_eq_true_eq] at h1
    constructor
    · show dst ≤ a.1 - src + dst
      omega
    · show a.1 - src + dst < dst + n
      omega

theorem copyPage_mem (s : State) (src dst n : Nat) : (copyPage s src dst n).mem = (copyMem s src dst n).mem := by
  unfold copyPage
  generalize copyMem s src dst n = u
  rfl

theorem wf_copyPage (s : State) (src dst n : Nat) (h : Memory.wf s.mem = true) : Memory.wf (copyPage s src dst n).mem = true := by
  rw [copyPage_mem]
  exact wf_copyMem s src dst n h

theorem wf_eraseBlock (s : State) (b : Nat) (h : Memory.wf s.mem = true) : Memory.wf (eraseBlock s b).mem = true := by
  unfold eraseBlock
  exact wf_dropKeys _ _ _ (wf_dropKeys _ _ _ h)

/-- A fold of steps that keep the form keeps it. -/
theorem wf_foldl {α : Type} (g : State → α → State) (hg : ∀ s x, Memory.wf s.mem = true → Memory.wf (g s x).mem = true) (xs : List α) (s : State)
    (h : Memory.wf s.mem = true) : Memory.wf (xs.foldl g s).mem = true := by
  induction xs generalizing s with
  | nil => exact h
  | cons x xs ih => exact ih _ (hg _ _ h)

/-- Reading a region descriptor changes the latched record of the region, and the frames it freezes, alone. -/
theorem syncRegion_eq (s : State) (r : Nat) : ∃ x y, syncRegion s r = { s with regions := x, frozen := y } := by
  unfold syncRegion
  simp only []
  split
  · split
    · exact ⟨s.regions, s.frozen, rfl⟩
    · exact ⟨_, _, rfl⟩
  · exact ⟨_, s.frozen, rfl⟩

/-- A fold of steps that leave memory leaves it. -/
theorem mem_foldl {α : Type} (g : State → α → State) (hg : ∀ s x, (g s x).mem = s.mem) (xs : List α) (s : State) : (xs.foldl g s).mem = s.mem := by
  induction xs generalizing s with
  | nil => rfl
  | cons x xs ih => rw [List.foldl_cons, ih, hg]

theorem syncRegion_mem (s : State) (r : Nat) : (syncRegion s r).mem = s.mem := by
  obtain ⟨x, y, h⟩ := syncRegion_eq s r
  rw [h]

/-- The same of steps over a range, taken under a condition. -/
theorem mem_range (g : State → Nat → State) (hg : ∀ s x, (g s x).mem = s.mem) (s : State) (c : Prop) [Decidable c] (lo n : Nat) :
    (if c then (List.range n).foldl (fun s i => g s (lo + i)) s else s).mem = s.mem := by
  split
  · exact mem_foldl _ (fun _ _ => hg _ _) _ _
  · rfl

theorem syncRegions_mem (s : State) (k n : Nat) : (syncRegions s k n).mem = s.mem := mem_range syncRegion syncRegion_mem s _ _ _

theorem wf_writeRaw (s : State) (k n v : Nat) (h : Memory.wf s.mem = true) : Memory.wf (writeRaw s k n v).mem = true := by
  unfold writeRaw
  rw [syncRegions_mem]
  exact wf_wrMem _ _ _ _ h

theorem wf_commitBlock (s : State) (b : Nat) (h : Memory.wf s.mem = true) : Memory.wf (commitBlock s b).mem = true := by
  unfold commitBlock
  simp only [setBlock_mem]
  refine wf_foldl _ (fun s e h => by rw [syncRegions_mem]; exact h) _ _ ?_
  generalize List.filter _ (List.filterMap _ _) = ws
  exact wf_setAll _ ws h

theorem wf_verFill (s : State) (vdb off : Nat) (whole : Bool) (h : Memory.wf s.mem = true) : Memory.wf (verFill s vdb off whole).mem = true := by
  unfold verFill
  simp only []
  by_cases hc : (!vdbWv (rdVdb s vdb) || (rdVdb s vdb).testBit (256 + off / 256)) = true
  · rw [if_pos hc]; exact h
  · rw [if_neg hc]
    refine wf_wrMem _ _ _ _ ?_
    cases whole
    · simp only [Bool.false_eq_true, if_false]
      generalize (List.range 256).map _ = ws
      exact wf_setAll _ ws h
    · simp only [if_true]
      exact h

theorem wf_dropOld (s : State) (p : Nat → Bool) (h : Memory.wf s.mem = true) : Memory.wf (dropOld s p).mem = true := wf_setAll _ _ h

theorem wf_inReset (s : State) (h : Memory.wf s.mem = true) : Memory.wf (inReset s).mem = true := wf_filter _ _ (wf_dropOld s _ h)

/-! ### Reads after writes -/

/-- A byte outside a write is as it was. -/
theorem rdByte_wrMem_ne (s : State) (k n v a : Nat) (h : a < k ∨ k + n ≤ a) : rdByte (wrMem s k n v) a = rdByte s a := by
  unfold rdByte wrMem
  refine sget_ssetAll_ne _ _ _ _ ?_
  intro e he
  have := cells_in k n _ e he
  omega

/-- Every byte but those of one key is as it was. -/
theorem rdByte_set (s : State) (k : Nat) (v : Byte) (a : Nat) :
    rdByte { s with mem := sset 0#8 s.mem k v } a = if a = k then v else rdByte s a := by
  unfold rdByte
  split
  · rename_i h; rw [h]; exact sget_sset_same _ _ _ _
  · rename_i h; exact sget_sset_ne _ _ _ _ _ h

end Sys2Proof.Machine
end

