-- ==== Sys2Proof/Laws/PerInstr.lean ====
section
/-!
SUPPORT. Per instruction: the opcode and the fields that an instruction is written with are read back as that instruction.
-/
namespace Sys2Proof.Laws

/-- The decoder reads an instruction that its own word names from the opcode and the fields of that word. -/
def OpcodeRead.Statement (i : Instr) : Prop := i.coded = true → ∀ op f, opFields i = some (op, f) → decodeOp op f = i

/-- One opcode and its fields decide. -/
theorem opcodeRead_some {i : Instr} {op : BitVec 9} {f : Fields} (h : opFields i = some (op, f)) (hd : i.coded = true → decodeOp op f = i) :
    OpcodeRead.Statement i := by
  intro hc o g e
  rw [h] at e
  cases e
  exact hd hc

/-- A step of the device has no word. -/
theorem opcodeRead_none {i : Instr} (h : opFields i = none) : OpcodeRead.Statement i := by
  intro _ o g e
  rw [h] at e
  cases e

/-! Whether an opcode is assigned does not depend on the fields. -/

theorem decodeInt_isNone (n : Nat) (f g : Fields) : (decodeInt n f).isNone = (decodeInt n g).isNone := by
  unfold decodeInt; split <;> rfl
theorem decodeLogic_isNone (n : Nat) (f g : Fields) : (decodeLogic n f).isNone = (decodeLogic n g).isNone := by
  unfold decodeLogic; split <;> rfl
theorem decodeSpecial_isNone (n : Nat) (f g : Fields) : (decodeSpecial n f).isNone = (decodeSpecial n g).isNone := by
  unfold decodeSpecial; split <;> rfl
theorem decodeTag_isNone (n : Nat) (f g : Fields) : (decodeTag n f).isNone = (decodeTag n g).isNone := by
  unfold decodeTag; split <;> rfl
theorem decodeFloat_isNone (n : Nat) (f g : Fields) : (decodeFloat n f).isNone = (decodeFloat n g).isNone := by
  unfold decodeFloat; split <;> rfl
theorem decodeConvert_isNone (n : Nat) (f g : Fields) : (decodeConvert n f).isNone = (decodeConvert n g).isNone := by
  unfold decodeConvert; split <;> rfl
theorem decodeCross_isNone (n : Nat) (f g : Fields) : (decodeCross n f).isNone = (decodeCross n g).isNone := by
  unfold decodeCross; split <;> rfl
theorem decodeControl_isNone (n : Nat) (f g : Fields) : (decodeControl n f).isNone = (decodeControl n g).isNone := by
  unfold decodeControl; split <;> rfl
theorem decodeMem_isNone (n : Nat) (f g : Fields) : (decodeMem n f).isNone = (decodeMem n g).isNone := by
  unfold decodeMem; split <;> rfl
theorem decodeOrder_isNone (n : Nat) (f g : Fields) : (decodeOrder n f).isNone = (decodeOrder n g).isNone := by
  unfold decodeOrder; split <;> rfl
theorem decodeMulticast_isNone (n : Nat) (f g : Fields) : (decodeMulticast n f).isNone = (decodeMulticast n g).isNone := by
  unfold decodeMulticast; split <;> rfl
theorem decodeVersion_isNone (n : Nat) (f g : Fields) : (decodeVersion n f).isNone = (decodeVersion n g).isNone := by
  unfold decodeVersion; split <;> rfl
theorem decodeAtomic_isNone (n : Nat) (f g : Fields) : (decodeAtomic n f).isNone = (decodeAtomic n g).isNone := by
  unfold decodeAtomic; split <;> rfl
theorem decodeSync_isNone (n : Nat) (f g : Fields) : (decodeSync n f).isNone = (decodeSync n g).isNone := by
  unfold decodeSync; split <;> rfl
theorem decodeCopy_isNone (n : Nat) (f g : Fields) : (decodeCopy n f).isNone = (decodeCopy n g).isNone := by
  unfold decodeCopy; split <;> rfl
theorem decodeMatrix_isNone (n : Nat) (f g : Fields) : (decodeMatrix n f).isNone = (decodeMatrix n g).isNone := by
  unfold decodeMatrix; split <;> rfl
theorem decodeRay_isNone (n : Nat) (f g : Fields) : (decodeRay n f).isNone = (decodeRay n g).isNone := by
  unfold decodeRay; split <;> rfl
theorem decodeLaunch_isNone (n : Nat) (f g : Fields) : (decodeLaunch n f).isNone = (decodeLaunch n g).isNone := by
  unfold decodeLaunch; split <;> rfl
theorem decodeFabric_isNone (n : Nat) (f g : Fields) : (decodeFabric n f).isNone = (decodeFabric n g).isNone := by
  unfold decodeFabric; split <;> rfl
theorem decodeSystem_isNone (n : Nat) (f g : Fields) : (decodeSystem n f).isNone = (decodeSystem n g).isNone := by
  unfold decodeSystem; split <;> rfl

theorem ite_isNone (c : Prop) [Decidable c] {a a' b b' : Option Instr} (h : a.isNone = a'.isNone) (k : b.isNone = b'.isNone) :
    (if c then a else b).isNone = (if c then a' else b').isNone := by
  split
  · exact h
  · exact k

theorem decodeRow_isNone (n : Nat) (f g : Fields) : (decodeRow n f).isNone = (decodeRow n g).isNone := by
  unfold decodeRow
  refine ite_isNone _ (decodeInt_isNone _ f g) ?_
  refine ite_isNone _ (decodeLogic_isNone _ f g) ?_
  refine ite_isNone _ (decodeSpecial_isNone _ f g) ?_
  refine ite_isNone _ (decodeTag_isNone _ f g) ?_
  refine ite_isNone _ (decodeFloat_isNone _ f g) ?_
  refine ite_isNone _ (decodeConvert_isNone _ f g) ?_
  refine ite_isNone _ (decodeCross_isNone _ f g) ?_
  refine ite_isNone _ (decodeControl_isNone _ f g) ?_
  refine ite_isNone _ (decodeMem_isNone _ f g) ?_
  refine ite_isNone _ (decodeOrder_isNone _ f g) ?_
  refine ite_isNone _ (decodeMulticast_isNone _ f g) ?_
  refine ite_isNone _ (decodeVersion_isNone _ f g) ?_
  refine ite_isNone _ (decodeAtomic_isNone _ f g) ?_
  refine ite_isNone _ (decodeSync_isNone _ f g) ?_
  refine ite_isNone _ (decodeCopy_isNone _ f g) ?_
  refine ite_isNone _ (decodeMatrix_isNone _ f g) ?_
  refine ite_isNone _ (decodeRay_isNone _ f g) ?_
  refine ite_isNone _ (decodeLaunch_isNone _ f g) ?_
  refine ite_isNone _ (decodeFabric_isNone _ f g) ?_
  exact decodeSystem_isNone _ f g

theorem OpcodeRead.nop (f : Fields) : OpcodeRead.Statement (.nop f) := opcodeRead_some rfl (fun _ => rfl)
theorem OpcodeRead.mov (f : Fields) : OpcodeRead.Statement (.mov f) := opcodeRead_some rfl (fun _ => rfl)
theorem OpcodeRead.movk (f : Fields) : OpcodeRead.Statement (.movk f) := opcodeRead_some rfl (fun _ => rfl)
theorem OpcodeRead.add (f : Fields) : OpcodeRead.Statement (.add f) := opcodeRead_some rfl (fun _ => rfl)
theorem OpcodeRead.sub (f : Fields) : OpcodeRead.Statement (.sub f) := opcodeRead_some rfl (fun _ => rfl)
theorem OpcodeRead.mul (f : Fields) : OpcodeRead.Statement (.mul f) := opcodeRead_some rfl (fun _ => rfl)
theorem OpcodeRead.mulhi (f : Fields) : OpcodeRead.Statement (.mulhi f) := opcodeRead_some rfl (fun _ => rfl)
theorem OpcodeRead.mad (f : Fields) : OpcodeRead.Statement (.mad f) := opcodeRead_some rfl (fun _ => rfl)
theorem OpcodeRead.div (f : Fields) : OpcodeRead.Statement (.div f) := opcodeRead_some rfl (fun _ => rfl)
theorem OpcodeRead.rem (f : Fields) : OpcodeRead.Statement (.rem f) := opcodeRead_some rfl (fun _ => rfl)
theorem OpcodeRead.min (f : Fields) : OpcodeRead.Statement (.min f) := opcodeRead_some rfl (fun _ => rfl)
theorem OpcodeRead.max (f : Fields) : OpcodeRead.Statement (.max f) := opcodeRead_some rfl (fun _ => rfl)
theorem OpcodeRead.abs (f : Fields) : OpcodeRead.Statement (.abs f) := opcodeRead_some rfl (fun _ => rfl)
theorem OpcodeRead.neg (f : Fields) : OpcodeRead.Statement (.neg f) := opcodeRead_some rfl (fun _ => rfl)
theorem OpcodeRead.and (f : Fields) : OpcodeRead.Statement (.and f) := opcodeRead_some rfl (fun _ => rfl)
theorem OpcodeRead.or (f : Fields) : OpcodeRead.Statement (.or f) := opcodeRead_some rfl (fun _ => rfl)
theorem OpcodeRead.xor (f : Fields) : OpcodeRead.Statement (.xor f) := opcodeRead_some rfl (fun _ => rfl)
theorem OpcodeRead.not (f : Fields) : OpcodeRead.Statement (.not f) := opcodeRead_some rfl (fun _ => rfl)
theorem OpcodeRead.andn (f : Fields) : OpcodeRead.Statement (.andn f) := opcodeRead_some rfl (fun _ => rfl)
theorem OpcodeRead.shl (f : Fields) : OpcodeRead.Statement (.shl f) := opcodeRead_some rfl (fun _ => rfl)
theorem OpcodeRead.shr (f : Fields) : OpcodeRead.Statement (.shr f) := opcodeRead_some rfl (fun _ => rfl)
theorem OpcodeRead.sar (f : Fields) : OpcodeRead.Statement (.sar f) := opcodeRead_some rfl (fun _ => rfl)
theorem OpcodeRead.rot (f : Fields) : OpcodeRead.Statement (.rot f) := opcodeRead_some rfl (fun _ => rfl)
theorem OpcodeRead.bfx (f : Fields) : OpcodeRead.Statement (.bfx f) := opcodeRead_some rfl (fun _ => rfl)
theorem OpcodeRead.bfi (f : Fields) : OpcodeRead.Statement (.bfi f) := opcodeRead_some rfl (fun _ => rfl)
theorem OpcodeRead.popc (f : Fields) : OpcodeRead.Statement (.popc f) := opcodeRead_some rfl (fun _ => rfl)
theorem OpcodeRead.clz (f : Fields) : OpcodeRead.Statement (.clz f) := opcodeRead_some rfl (fun _ => rfl)
theorem OpcodeRead.ctz (f : Fields) : OpcodeRead.Statement (.ctz f) := opcodeRead_some rfl (fun _ => rfl)
theorem OpcodeRead.brev (f : Fields) : OpcodeRead.Statement (.brev f) := opcodeRead_some rfl (fun _ => rfl)
theorem OpcodeRead.bswap (f : Fields) : OpcodeRead.Statement (.bswap f) := opcodeRead_some rfl (fun _ => rfl)
theorem OpcodeRead.lea (f : Fields) : OpcodeRead.Statement (.lea f) := opcodeRead_some rfl (fun _ => rfl)
theorem OpcodeRead.pdot (f : Fields) : OpcodeRead.Statement (.pdot f) := opcodeRead_some rfl (fun _ => rfl)
theorem OpcodeRead.prm (f : Fields) : OpcodeRead.Statement (.prm f) := opcodeRead_some rfl (fun _ => rfl)
theorem OpcodeRead.srd (f : Fields) : OpcodeRead.Statement (.srd f) := opcodeRead_some rfl (fun _ => rfl)
theorem OpcodeRead.swr (f : Fields) : OpcodeRead.Statement (.swr f) := opcodeRead_some rfl (fun _ => rfl)
theorem OpcodeRead.cnd (f : Fields) : OpcodeRead.Statement (.cnd f) := opcodeRead_some rfl (fun _ => rfl)
theorem OpcodeRead.fcnd (f : Fields) : OpcodeRead.Statement (.fcnd f) := opcodeRead_some rfl (fun _ => rfl)
theorem OpcodeRead.cmp (f : Fields) : OpcodeRead.Statement (.cmp f) := opcodeRead_some rfl (fun _ => rfl)
theorem OpcodeRead.fcmp (f : Fields) : OpcodeRead.Statement (.fcmp f) := opcodeRead_some rfl (fun _ => rfl)
theorem OpcodeRead.gate (f : Fields) : OpcodeRead.Statement (.gate f) := opcodeRead_some rfl (fun _ => rfl)
theorem OpcodeRead.mrg (f : Fields) : OpcodeRead.Statement (.mrg f) := opcodeRead_some rfl (fun _ => rfl)
theorem OpcodeRead.sel (f : Fields) : OpcodeRead.Statement (.sel f) := opcodeRead_some rfl (fun _ => rfl)
theorem OpcodeRead.tget (f : Fields) : OpcodeRead.Statement (.tget f) := opcodeRead_some rfl (fun _ => rfl)
theorem OpcodeRead.tset (f : Fields) : OpcodeRead.Statement (.tset f) := opcodeRead_some rfl (fun _ => rfl)
theorem OpcodeRead.tchk (f : Fields) : OpcodeRead.Statement (.tchk f) := opcodeRead_some rfl (fun _ => rfl)
theorem OpcodeRead.cand (f : Fields) : OpcodeRead.Statement (.cand f) := opcodeRead_some rfl (fun _ => rfl)
theorem OpcodeRead.cor (f : Fields) : OpcodeRead.Statement (.cor f) := opcodeRead_some rfl (fun _ => rfl)
theorem OpcodeRead.cnot (f : Fields) : OpcodeRead.Statement (.cnot f) := opcodeRead_some rfl (fun _ => rfl)
theorem OpcodeRead.fadd (f : Fields) : OpcodeRead.Statement (.fadd f) := opcodeRead_some rfl (fun _ => rfl)
theorem OpcodeRead.fsub (f : Fields) : OpcodeRead.Statement (.fsub f) := opcodeRead_some rfl (fun _ => rfl)
theorem OpcodeRead.fmul (f : Fields) : OpcodeRead.Statement (.fmul f) := opcodeRead_some rfl (fun _ => rfl)
theorem OpcodeRead.fma (f : Fields) : OpcodeRead.Statement (.fma f) := opcodeRead_some rfl (fun _ => rfl)
theorem OpcodeRead.fms (f : Fields) : OpcodeRead.Statement (.fms f) := opcodeRead_some rfl (fun _ => rfl)
theorem OpcodeRead.fnma (f : Fields) : OpcodeRead.Statement (.fnma f) := opcodeRead_some rfl (fun _ => rfl)
theorem OpcodeRead.fnms (f : Fields) : OpcodeRead.Statement (.fnms f) := opcodeRead_some rfl (fun _ => rfl)
theorem OpcodeRead.fdiv (f : Fields) : OpcodeRead.Statement (.fdiv f) := opcodeRead_some rfl (fun _ => rfl)
theorem OpcodeRead.fsqrt (f : Fields) : OpcodeRead.Statement (.fsqrt f) := opcodeRead_some rfl (fun _ => rfl)
theorem OpcodeRead.fmin (f : Fields) : OpcodeRead.Statement (.fmin f) := opcodeRead_some rfl (fun _ => rfl)
theorem OpcodeRead.fmax (f : Fields) : OpcodeRead.Statement (.fmax f) := opcodeRead_some rfl (fun _ => rfl)
theorem OpcodeRead.fminx (f : Fields) : OpcodeRead.Statement (.fminx f) := opcodeRead_some rfl (fun _ => rfl)
theorem OpcodeRead.fmaxx (f : Fields) : OpcodeRead.Statement (.fmaxx f) := opcodeRead_some rfl (fun _ => rfl)
theorem OpcodeRead.fabs (f : Fields) : OpcodeRead.Statement (.fabs f) := opcodeRead_some rfl (fun _ => rfl)
theorem OpcodeRead.fneg (f : Fields) : OpcodeRead.Statement (.fneg f) := opcodeRead_some rfl (fun _ => rfl)
theorem OpcodeRead.fcps (f : Fields) : OpcodeRead.Statement (.fcps f) := opcodeRead_some rfl (fun _ => rfl)
theorem OpcodeRead.fclass (f : Fields) : OpcodeRead.Statement (.fclass f) := opcodeRead_some rfl (fun _ => rfl)
theorem OpcodeRead.frnd (f : Fields) : OpcodeRead.Statement (.frnd f) := opcodeRead_some rfl (fun _ => rfl)
theorem OpcodeRead.fscale (f : Fields) : OpcodeRead.Statement (.fscale f) := opcodeRead_some rfl (fun _ => rfl)
theorem OpcodeRead.fexp (f : Fields) : OpcodeRead.Statement (.fexp f) := opcodeRead_some rfl (fun _ => rfl)
theorem OpcodeRead.fman (f : Fields) : OpcodeRead.Statement (.fman f) := opcodeRead_some rfl (fun _ => rfl)
theorem OpcodeRead.hdot (f : Fields) : OpcodeRead.Statement (.hdot f) := opcodeRead_some rfl (fun _ => rfl)
theorem OpcodeRead.cvt (f : Fields) : OpcodeRead.Statement (.cvt f) := opcodeRead_some rfl (fun _ => rfl)
theorem OpcodeRead.cvtp (f : Fields) : OpcodeRead.Statement (.cvtp f) := opcodeRead_some rfl (fun _ => rfl)
theorem OpcodeRead.cvtmx (f : Fields) : OpcodeRead.Statement (.cvtmx f) := opcodeRead_some rfl (fun _ => rfl)
theorem OpcodeRead.sfu (f : Fields) : OpcodeRead.Statement (.sfu f) := opcodeRead_some rfl (fun _ => rfl)
theorem OpcodeRead.bnset (f : Fields) : OpcodeRead.Statement (.bnset f) := opcodeRead_some rfl (fun h => by
  have h1 : f.md.getLsbD 3 = false := by simpa [Instr.coded] using h
  show (if f.md.getLsbD 3 = true then Instr.bnsetGet f else Instr.bnset f) = _
  rw [h1]; rfl)
theorem OpcodeRead.bnsetGet (f : Fields) : OpcodeRead.Statement (.bnsetGet f) := opcodeRead_some rfl (fun h => by
  have h1 : f.md.getLsbD 3 = true := h
  show (if f.md.getLsbD 3 = true then Instr.bnsetGet f else Instr.bnset f) = _
  rw [h1]; rfl)
theorem OpcodeRead.bnperm (f : Fields) : OpcodeRead.Statement (.bnperm f) := opcodeRead_some rfl (fun _ => rfl)
theorem OpcodeRead.bnc (f : Fields) : OpcodeRead.Statement (.bnc f) := opcodeRead_some rfl (fun _ => rfl)
theorem OpcodeRead.shfl (f : Fields) : OpcodeRead.Statement (.shfl f) := opcodeRead_some rfl (fun _ => rfl)
theorem OpcodeRead.shfx (f : Fields) : OpcodeRead.Statement (.shfx f) := opcodeRead_some rfl (fun _ => rfl)
theorem OpcodeRead.vote (f : Fields) : OpcodeRead.Statement (.vote f) := opcodeRead_some rfl (fun _ => rfl)
theorem OpcodeRead.red (f : Fields) : OpcodeRead.Statement (.red f) := opcodeRead_some rfl (fun _ => rfl)
theorem OpcodeRead.scan (f : Fields) : OpcodeRead.Statement (.scan f) := opcodeRead_some rfl (fun _ => rfl)
theorem OpcodeRead.bcast (f : Fields) : OpcodeRead.Statement (.bcast f) := opcodeRead_some rfl (fun _ => rfl)
theorem OpcodeRead.matchv (f : Fields) : OpcodeRead.Statement (.matchv f) := opcodeRead_some rfl (fun _ => rfl)
theorem OpcodeRead.elect (f : Fields) : OpcodeRead.Statement (.elect f) := opcodeRead_some rfl (fun _ => rfl)
theorem OpcodeRead.lrank (f : Fields) : OpcodeRead.Statement (.lrank f) := opcodeRead_some rfl (fun _ => rfl)
theorem OpcodeRead.bra (f : Fields) : OpcodeRead.Statement (.bra f) := opcodeRead_some rfl (fun _ => rfl)
theorem OpcodeRead.bdv (f : Fields) : OpcodeRead.Statement (.bdv f) := opcodeRead_some rfl (fun _ => rfl)
theorem OpcodeRead.bany (f : Fields) : OpcodeRead.Statement (.bany f) := opcodeRead_some rfl (fun _ => rfl)
theorem OpcodeRead.ball (f : Fields) : OpcodeRead.Statement (.ball f) := opcodeRead_some rfl (fun _ => rfl)
theorem OpcodeRead.bnone (f : Fields) : OpcodeRead.Statement (.bnone f) := opcodeRead_some rfl (fun _ => rfl)
theorem OpcodeRead.jmp (f : Fields) : OpcodeRead.Statement (.jmp f) := opcodeRead_some rfl (fun _ => rfl)
theorem OpcodeRead.call (f : Fields) : OpcodeRead.Statement (.call f) := opcodeRead_some rfl (fun _ => rfl)
theorem OpcodeRead.loopSet (f : Fields) : OpcodeRead.Statement (.loopSet f) := opcodeRead_some rfl (fun h => by
  have h1 : f.d.getLsbD 2 = true := h
  show (if f.d.getLsbD 2 = true then Instr.loopSet f else Instr.loop f) = _
  rw [h1]; rfl)
theorem OpcodeRead.loop (f : Fields) : OpcodeRead.Statement (.loop f) := opcodeRead_some rfl (fun h => by
  have h1 : f.d.getLsbD 2 = false := by simpa [Instr.coded] using h
  show (if f.d.getLsbD 2 = true then Instr.loopSet f else Instr.loop f) = _
  rw [h1]; rfl)
theorem OpcodeRead.lexit (f : Fields) : OpcodeRead.Statement (.lexit f) := opcodeRead_some rfl (fun _ => rfl)
theorem OpcodeRead.wait (f : Fields) : OpcodeRead.Statement (.wait f) := opcodeRead_some rfl (fun _ => rfl)
theorem OpcodeRead.yield (f : Fields) : OpcodeRead.Statement (.yield f) := opcodeRead_some rfl (fun _ => rfl)
theorem OpcodeRead.exit (f : Fields) : OpcodeRead.Statement (.exit f) := opcodeRead_some rfl (fun _ => rfl)
theorem OpcodeRead.ecall (f : Fields) : OpcodeRead.Statement (.ecall f) := opcodeRead_some rfl (fun _ => rfl)
theorem OpcodeRead.brk (f : Fields) : OpcodeRead.Statement (.brk f) := opcodeRead_some rfl (fun _ => rfl)
theorem OpcodeRead.grow (f : Fields) : OpcodeRead.Statement (.grow f) := opcodeRead_some rfl (fun _ => rfl)
theorem OpcodeRead.nap (f : Fields) : OpcodeRead.Statement (.nap f) := opcodeRead_some rfl (fun _ => rfl)
theorem OpcodeRead.ld (f : Fields) : OpcodeRead.Statement (.ld f) := opcodeRead_some rfl (fun _ => rfl)
theorem OpcodeRead.st (f : Fields) : OpcodeRead.Statement (.st f) := opcodeRead_some rfl (fun _ => rfl)
theorem OpcodeRead.ldl (f : Fields) : OpcodeRead.Statement (.ldl f) := opcodeRead_some rfl (fun _ => rfl)
theorem OpcodeRead.stl (f : Fields) : OpcodeRead.Statement (.stl f) := opcodeRead_some rfl (fun _ => rfl)
theorem OpcodeRead.ldc (f : Fields) : OpcodeRead.Statement (.ldc f) := opcodeRead_some rfl (fun _ => rfl)
theorem OpcodeRead.stc (f : Fields) : OpcodeRead.Statement (.stc f) := opcodeRead_some rfl (fun _ => rfl)
theorem OpcodeRead.ldq (f : Fields) : OpcodeRead.Statement (.ldq f) := opcodeRead_some rfl (fun _ => rfl)
theorem OpcodeRead.stq (f : Fields) : OpcodeRead.Statement (.stq f) := opcodeRead_some rfl (fun _ => rfl)
theorem OpcodeRead.lda (f : Fields) : OpcodeRead.Statement (.lda f) := opcodeRead_some rfl (fun _ => rfl)
theorem OpcodeRead.str (f : Fields) : OpcodeRead.Statement (.str f) := opcodeRead_some rfl (fun _ => rfl)
theorem OpcodeRead.prf (f : Fields) : OpcodeRead.Statement (.prf f) := opcodeRead_some rfl (fun _ => rfl)
theorem OpcodeRead.winv (f : Fields) : OpcodeRead.Statement (.winv f) := opcodeRead_some rfl (fun _ => rfl)
theorem OpcodeRead.wbk (f : Fields) : OpcodeRead.Statement (.wbk f) := opcodeRead_some rfl (fun _ => rfl)
theorem OpcodeRead.fence (f : Fields) : OpcodeRead.Statement (.fence f) := opcodeRead_some rfl (fun _ => rfl)
theorem OpcodeRead.chopen (f : Fields) : OpcodeRead.Statement (.chopen f) := opcodeRead_some rfl (fun _ => rfl)
theorem OpcodeRead.chst (f : Fields) : OpcodeRead.Statement (.chst f) := opcodeRead_some rfl (fun _ => rfl)
theorem OpcodeRead.chfence (f : Fields) : OpcodeRead.Statement (.chfence f) := opcodeRead_some rfl (fun _ => rfl)
theorem OpcodeRead.chclose (f : Fields) : OpcodeRead.Statement (.chclose f) := opcodeRead_some rfl (fun _ => rfl)
theorem OpcodeRead.stmc (f : Fields) : OpcodeRead.Statement (.stmc f) := opcodeRead_some rfl (fun _ => rfl)
theorem OpcodeRead.vopen (f : Fields) : OpcodeRead.Statement (.vopen f) := opcodeRead_some rfl (fun _ => rfl)
theorem OpcodeRead.ldv (f : Fields) : OpcodeRead.Statement (.ldv f) := opcodeRead_some rfl (fun _ => rfl)
theorem OpcodeRead.vpub (f : Fields) : OpcodeRead.Statement (.vpub f) := opcodeRead_some rfl (fun _ => rfl)
theorem OpcodeRead.vclose (f : Fields) : OpcodeRead.Statement (.vclose f) := opcodeRead_some rfl (fun _ => rfl)
theorem OpcodeRead.vinfo (f : Fields) : OpcodeRead.Statement (.vinfo f) := opcodeRead_some rfl (fun _ => rfl)
theorem OpcodeRead.ckpt (f : Fields) : OpcodeRead.Statement (.ckpt f) := opcodeRead_some rfl (fun _ => rfl)
theorem OpcodeRead.ckwait (f : Fields) : OpcodeRead.Statement (.ckwait f) := opcodeRead_some rfl (fun _ => rfl)
theorem OpcodeRead.atom (f : Fields) : OpcodeRead.Statement (.atom f) := opcodeRead_some rfl (fun _ => rfl)
theorem OpcodeRead.cas (f : Fields) : OpcodeRead.Statement (.cas f) := opcodeRead_some rfl (fun _ => rfl)
theorem OpcodeRead.cas2 (f : Fields) : OpcodeRead.Statement (.cas2 f) := opcodeRead_some rfl (fun _ => rfl)
theorem OpcodeRead.atoml (f : Fields) : OpcodeRead.Statement (.atoml f) := opcodeRead_some rfl (fun _ => rfl)
theorem OpcodeRead.fatom (f : Fields) : OpcodeRead.Statement (.fatom f) := opcodeRead_some rfl (fun _ => rfl)
theorem OpcodeRead.fred (f : Fields) : OpcodeRead.Statement (.fred f) := opcodeRead_some rfl (fun _ => rfl)
theorem OpcodeRead.bar (f : Fields) : OpcodeRead.Statement (.bar f) := opcodeRead_some rfl (fun _ => rfl)
theorem OpcodeRead.barr (f : Fields) : OpcodeRead.Statement (.barr f) := opcodeRead_some rfl (fun _ => rfl)
theorem OpcodeRead.barw (f : Fields) : OpcodeRead.Statement (.barw f) := opcodeRead_some rfl (fun _ => rfl)
theorem OpcodeRead.cbar (f : Fields) : OpcodeRead.Statement (.cbar f) := opcodeRead_some rfl (fun _ => rfl)
theorem OpcodeRead.mwait (f : Fields) : OpcodeRead.Statement (.mwait f) := opcodeRead_some rfl (fun _ => rfl)
theorem OpcodeRead.aoinit (f : Fields) : OpcodeRead.Statement (.aoinit f) := opcodeRead_some rfl (fun _ => rfl)
theorem OpcodeRead.aoarr (f : Fields) : OpcodeRead.Statement (.aoarr f) := opcodeRead_some rfl (fun _ => rfl)
theorem OpcodeRead.aoexp (f : Fields) : OpcodeRead.Statement (.aoexp f) := opcodeRead_some rfl (fun _ => rfl)
theorem OpcodeRead.aowt (f : Fields) : OpcodeRead.Statement (.aowt f) := opcodeRead_some rfl (fun _ => rfl)
theorem OpcodeRead.tdset (f : Fields) : OpcodeRead.Statement (.tdset f) := opcodeRead_some rfl (fun _ => rfl)
theorem OpcodeRead.tdget (f : Fields) : OpcodeRead.Statement (.tdget f) := opcodeRead_some rfl (fun _ => rfl)
theorem OpcodeRead.tcpgl (f : Fields) : OpcodeRead.Statement (.tcpgl f) := opcodeRead_some rfl (fun _ => rfl)
theorem OpcodeRead.tcplg (f : Fields) : OpcodeRead.Statement (.tcplg f) := opcodeRead_some rfl (fun _ => rfl)
theorem OpcodeRead.tcpgg (f : Fields) : OpcodeRead.Statement (.tcpgg f) := opcodeRead_some rfl (fun _ => rfl)
theorem OpcodeRead.tcpmc (f : Fields) : OpcodeRead.Statement (.tcpmc f) := opcodeRead_some rfl (fun _ => rfl)
theorem OpcodeRead.tcpred (f : Fields) : OpcodeRead.Statement (.tcpred f) := opcodeRead_some rfl (fun _ => rfl)
theorem OpcodeRead.tcpst (f : Fields) : OpcodeRead.Statement (.tcpst f) := opcodeRead_some rfl (fun _ => rfl)
theorem OpcodeRead.tcppf (f : Fields) : OpcodeRead.Statement (.tcppf f) := opcodeRead_some rfl (fun _ => rfl)
theorem OpcodeRead.cbinit (f : Fields) : OpcodeRead.Statement (.cbinit f) := opcodeRead_some rfl (fun _ => rfl)
theorem OpcodeRead.cbacq (f : Fields) : OpcodeRead.Statement (.cbacq f) := opcodeRead_some rfl (fun _ => rfl)
theorem OpcodeRead.cbrel (f : Fields) : OpcodeRead.Statement (.cbrel f) := opcodeRead_some rfl (fun _ => rfl)
theorem OpcodeRead.cbres (f : Fields) : OpcodeRead.Statement (.cbres f) := opcodeRead_some rfl (fun _ => rfl)
theorem OpcodeRead.cbcom (f : Fields) : OpcodeRead.Statement (.cbcom f) := opcodeRead_some rfl (fun _ => rfl)
theorem OpcodeRead.aczero (f : Fields) : OpcodeRead.Statement (.aczero f) := opcodeRead_some rfl (fun _ => rfl)
theorem OpcodeRead.mmx (f : Fields) : OpcodeRead.Statement (.mmx f) := opcodeRead_some rfl (fun _ => rfl)
theorem OpcodeRead.mmxl (f : Fields) : OpcodeRead.Statement (.mmxl f) := opcodeRead_some rfl (fun _ => rfl)
theorem OpcodeRead.acld (f : Fields) : OpcodeRead.Statement (.acld f) := opcodeRead_some rfl (fun _ => rfl)
theorem OpcodeRead.acst (f : Fields) : OpcodeRead.Statement (.acst f) := opcodeRead_some rfl (fun _ => rfl)
theorem OpcodeRead.acrd (f : Fields) : OpcodeRead.Statement (.acrd f) := opcodeRead_some rfl (fun _ => rfl)
theorem OpcodeRead.acwr (f : Fields) : OpcodeRead.Statement (.acwr f) := opcodeRead_some rfl (fun _ => rfl)
theorem OpcodeRead.acep (f : Fields) : OpcodeRead.Statement (.acep f) := opcodeRead_some rfl (fun _ => rfl)
theorem OpcodeRead.mxstat (f : Fields) : OpcodeRead.Statement (.mxstat f) := opcodeRead_some rfl (fun _ => rfl)
theorem OpcodeRead.rtbind (f : Fields) : OpcodeRead.Statement (.rtbind f) := opcodeRead_some rfl (fun _ => rfl)
theorem OpcodeRead.rtrace (f : Fields) : OpcodeRead.Statement (.rtrace f) := opcodeRead_some rfl (fun _ => rfl)
theorem OpcodeRead.rtres (f : Fields) : OpcodeRead.Statement (.rtres f) := opcodeRead_some rfl (fun _ => rfl)
theorem OpcodeRead.rtcand (f : Fields) : OpcodeRead.Statement (.rtcand f) := opcodeRead_some rfl (fun _ => rfl)
theorem OpcodeRead.rtacc (f : Fields) : OpcodeRead.Statement (.rtacc f) := opcodeRead_some rfl (fun _ => rfl)
theorem OpcodeRead.rtbox (f : Fields) : OpcodeRead.Statement (.rtbox f) := opcodeRead_some rfl (fun _ => rfl)
theorem OpcodeRead.rttri (f : Fields) : OpcodeRead.Statement (.rttri f) := opcodeRead_some rfl (fun _ => rfl)
theorem OpcodeRead.lhtinv (f : Fields) : OpcodeRead.Statement (.lhtinv f) := opcodeRead_some rfl (fun _ => rfl)
theorem OpcodeRead.lhtstat (f : Fields) : OpcodeRead.Statement (.lhtstat f) := opcodeRead_some rfl (fun _ => rfl)
theorem OpcodeRead.mbrecv (f : Fields) : OpcodeRead.Statement (.mbrecv f) := opcodeRead_some rfl (fun _ => rfl)
theorem OpcodeRead.mbsend (f : Fields) : OpcodeRead.Statement (.mbsend f) := opcodeRead_some rfl (fun _ => rfl)
theorem OpcodeRead.spawn (f : Fields) : OpcodeRead.Statement (.spawn f) := opcodeRead_some rfl (fun _ => rfl)
theorem OpcodeRead.rgn (f : Fields) : OpcodeRead.Statement (.rgn f) := opcodeRead_some rfl (fun _ => rfl)
theorem OpcodeRead.ralloc (f : Fields) : OpcodeRead.Statement (.ralloc f) := opcodeRead_some rfl (fun _ => rfl)
theorem OpcodeRead.rsub (f : Fields) : OpcodeRead.Statement (.rsub f) := opcodeRead_some rfl (fun _ => rfl)
theorem OpcodeRead.rbatch (f : Fields) : OpcodeRead.Statement (.rbatch f) := opcodeRead_some rfl (fun _ => rfl)
theorem OpcodeRead.rfetch (f : Fields) : OpcodeRead.Statement (.rfetch f) := opcodeRead_some rfl (fun _ => rfl)
theorem OpcodeRead.rfree (f : Fields) : OpcodeRead.Statement (.rfree f) := opcodeRead_some rfl (fun _ => rfl)
theorem OpcodeRead.lvcoord (f : Fields) : OpcodeRead.Statement (.lvcoord f) := opcodeRead_some rfl (fun _ => rfl)
theorem OpcodeRead.hx (f : Fields) : OpcodeRead.Statement (.hx f) := opcodeRead_some rfl (fun _ => rfl)
theorem OpcodeRead.arx (f : Fields) : OpcodeRead.Statement (.arx f) := opcodeRead_some rfl (fun _ => rfl)
theorem OpcodeRead.agx (f : Fields) : OpcodeRead.Statement (.agx f) := opcodeRead_some rfl (fun _ => rfl)
theorem OpcodeRead.rsx (f : Fields) : OpcodeRead.Statement (.rsx f) := opcodeRead_some rfl (fun _ => rfl)
theorem OpcodeRead.plstat (f : Fields) : OpcodeRead.Statement (.plstat f) := opcodeRead_some rfl (fun _ => rfl)
theorem OpcodeRead.plack (f : Fields) : OpcodeRead.Statement (.plack f) := opcodeRead_some rfl (fun _ => rfl)
theorem OpcodeRead.tret (f : Fields) : OpcodeRead.Statement (.tret f) := opcodeRead_some rfl (fun _ => rfl)
theorem OpcodeRead.tfix (f : Fields) : OpcodeRead.Statement (.tfix f) := opcodeRead_some rfl (fun _ => rfl)
theorem OpcodeRead.csrr (f : Fields) : OpcodeRead.Statement (.csrr f) := opcodeRead_some rfl (fun _ => rfl)
theorem OpcodeRead.csrw (f : Fields) : OpcodeRead.Statement (.csrw f) := opcodeRead_some rfl (fun _ => rfl)
theorem OpcodeRead.pgmode (f : Fields) : OpcodeRead.Statement (.pgmode f) := opcodeRead_some rfl (fun _ => rfl)
theorem OpcodeRead.pgrep (f : Fields) : OpcodeRead.Statement (.pgrep f) := opcodeRead_some rfl (fun _ => rfl)
theorem OpcodeRead.pgcol (f : Fields) : OpcodeRead.Statement (.pgcol f) := opcodeRead_some rfl (fun _ => rfl)
theorem OpcodeRead.tlbinv (f : Fields) : OpcodeRead.Statement (.tlbinv f) := opcodeRead_some rfl (fun _ => rfl)
theorem OpcodeRead.preempt (f : Fields) : OpcodeRead.Statement (.preempt f) := opcodeRead_some rfl (fun _ => rfl)
theorem OpcodeRead.resume (f : Fields) : OpcodeRead.Statement (.resume f) := opcodeRead_some rfl (fun _ => rfl)
theorem OpcodeRead.blkkill (f : Fields) : OpcodeRead.Statement (.blkkill f) := opcodeRead_some rfl (fun _ => rfl)
theorem OpcodeRead.vlog (f : Fields) : OpcodeRead.Statement (.vlog f) := opcodeRead_some rfl (fun _ => rfl)
theorem OpcodeRead.unassignedOpcode (op : BitVec 9) (f : Fields) : OpcodeRead.Statement (.unassignedOpcode op f) := opcodeRead_some rfl (fun h => by
  have h1 : unassignedOp op.toNat = true := h
  unfold unassignedOp at h1
  simp only [Bool.and_eq_true, decide_eq_true_eq] at h1
  rw [decodeRow_isNone _ _ f, Option.isNone_iff_eq_none] at h1
  unfold decodeOp
  rw [if_neg (by omega), h1.2]; rfl)
theorem OpcodeRead.extensionOpcode (op : BitVec 9) (f : Fields) : OpcodeRead.Statement (.extensionOpcode op f) := opcodeRead_some rfl (fun h => by
  have h1 : extensionOp op.toNat = true := h
  unfold extensionOp at h1
  unfold decodeOp
  rw [if_pos (of_decide_eq_true h1)])
theorem OpcodeRead.clauseStart (w : Nat) (k : Nat) : OpcodeRead.Statement (.clauseStart w k) := opcodeRead_none rfl
theorem OpcodeRead.warpChoice (core : Nat) (q : Nat) : OpcodeRead.Statement (.warpChoice core q) := opcodeRead_none rfl
theorem OpcodeRead.starveForce (w : Nat) (k : Nat) : OpcodeRead.Statement (.starveForce w k) := opcodeRead_none rfl
theorem OpcodeRead.reconvergenceHoldLimit (w : Nat) (k : Nat) : OpcodeRead.Statement (.reconvergenceHoldLimit w k) := opcodeRead_none rfl
theorem OpcodeRead.suspendedSplitWake (w : Nat) (k : Nat) : OpcodeRead.Statement (.suspendedSplitWake w k) := opcodeRead_none rfl
theorem OpcodeRead.loadComplete (op : Nat) (lanes : Mask) : OpcodeRead.Statement (.loadComplete op lanes) := opcodeRead_none rfl
theorem OpcodeRead.storePerformed (op : Nat) (lanes : Mask) : OpcodeRead.Statement (.storePerformed op lanes) := opcodeRead_none rfl
theorem OpcodeRead.sfuStart (op : Nat) : OpcodeRead.Statement (.sfuStart op) := opcodeRead_none rfl
theorem OpcodeRead.sfuComplete (op : Nat) : OpcodeRead.Statement (.sfuComplete op) := opcodeRead_none rfl
theorem OpcodeRead.bncComplete (op : Nat) : OpcodeRead.Statement (.bncComplete op) := opcodeRead_none rfl
theorem OpcodeRead.tdsetComplete (op : Nat) : OpcodeRead.Statement (.tdsetComplete op) := opcodeRead_none rfl
theorem OpcodeRead.loadStreamFetch (w : Nat) (lane : Nat) (q : Nat) : OpcodeRead.Statement (.loadStreamFetch w lane q) := opcodeRead_none rfl
theorem OpcodeRead.copyOnWrite (vdb : Nat) : OpcodeRead.Statement (.copyOnWrite vdb) := opcodeRead_none rfl
theorem OpcodeRead.versionFull (w : Nat) (k : Nat) : OpcodeRead.Statement (.versionFull w k) := opcodeRead_none rfl
theorem OpcodeRead.vpubService (op : Nat) : OpcodeRead.Statement (.vpubService op) := opcodeRead_none rfl
theorem OpcodeRead.checkpointManifestWrite (region : Nat) : OpcodeRead.Statement (.checkpointManifestWrite region) := opcodeRead_none rfl
theorem OpcodeRead.copyComplete (op : Nat) : OpcodeRead.Statement (.copyComplete op) := opcodeRead_none rfl
theorem OpcodeRead.multicastDelivery (op : Nat) (rank : Nat) : OpcodeRead.Statement (.multicastDelivery op rank) := opcodeRead_none rfl
theorem OpcodeRead.matrixOpStart (op : Nat) : OpcodeRead.Statement (.matrixOpStart op) := opcodeRead_none rfl
theorem OpcodeRead.matrixOpComplete (op : Nat) (err : Nat) : OpcodeRead.Statement (.matrixOpComplete op err) := opcodeRead_none rfl
theorem OpcodeRead.rayQueryDone (w : Nat) (lane : Nat) : OpcodeRead.Statement (.rayQueryDone w lane) := opcodeRead_none rfl
theorem OpcodeRead.monitorRecheck (w : Nat) (k : Nat) : OpcodeRead.Statement (.monitorRecheck w k) := opcodeRead_none rfl
theorem OpcodeRead.mwaitLimit (w : Nat) (k : Nat) : OpcodeRead.Statement (.mwaitLimit w k) := opcodeRead_none rfl
theorem OpcodeRead.napExpiry (w : Nat) (k : Nat) : OpcodeRead.Statement (.napExpiry w k) := opcodeRead_none rfl
theorem OpcodeRead.growGrant (core : Nat) : OpcodeRead.Statement (.growGrant core) := opcodeRead_none rfl
theorem OpcodeRead.blockComplete (blk : Nat) : OpcodeRead.Statement (.blockComplete blk) := opcodeRead_none rfl
theorem OpcodeRead.nodeMatch (die : Nat) : OpcodeRead.Statement (.nodeMatch die) := opcodeRead_none rfl
theorem OpcodeRead.blockDispatch (die : Nat) : OpcodeRead.Statement (.blockDispatch die) := opcodeRead_none rfl
theorem OpcodeRead.nodeRetire (die : Nat) (node : Nat) : OpcodeRead.Statement (.nodeRetire die node) := opcodeRead_none rfl
theorem OpcodeRead.mbsendDelivery (op : Nat) : OpcodeRead.Statement (.mbsendDelivery op) := opcodeRead_none rfl
theorem OpcodeRead.mbrecvReceive (die : Nat) : OpcodeRead.Statement (.mbrecvReceive die) := opcodeRead_none rfl
theorem OpcodeRead.collectiveComplete (op : Nat) (others : List Contrib) : OpcodeRead.Statement (.collectiveComplete op others) := opcodeRead_none rfl
theorem OpcodeRead.watchdog (w : Nat) : OpcodeRead.Statement (.watchdog w) := opcodeRead_none rfl
theorem OpcodeRead.forwardedTraffic (blk : Nat) : OpcodeRead.Statement (.forwardedTraffic blk) := opcodeRead_none rfl
theorem OpcodeRead.versionHomeService (op : Nat) : OpcodeRead.Statement (.versionHomeService op) := opcodeRead_none rfl
theorem OpcodeRead.recordPoolArrival (op : Nat) : OpcodeRead.Statement (.recordPoolArrival op) := opcodeRead_none rfl
theorem OpcodeRead.exOperationComplete (op : Nat) : OpcodeRead.Statement (.exOperationComplete op) := opcodeRead_none rfl
theorem OpcodeRead.pageRequestPost : OpcodeRead.Statement .pageRequestPost := opcodeRead_none rfl
theorem OpcodeRead.prqdone (die : Nat) (value : Nat) : OpcodeRead.Statement (.prqdone die value) := opcodeRead_none rfl
theorem OpcodeRead.pageRequestGroupResponse (die : Nat) (pasid : Nat) (va : Nat) (ok : Bool) : OpcodeRead.Statement (.pageRequestGroupResponse die pasid va ok) := opcodeRead_none rfl
theorem OpcodeRead.checkpointPeriodElapsed (region : Nat) : OpcodeRead.Statement (.checkpointPeriodElapsed region) := opcodeRead_none rfl
theorem OpcodeRead.growFail : OpcodeRead.Statement .growFail := opcodeRead_none rfl
theorem OpcodeRead.graphReservation : OpcodeRead.Statement .graphReservation := opcodeRead_none rfl
theorem OpcodeRead.priorityPreempt : OpcodeRead.Statement .priorityPreempt := opcodeRead_none rfl
theorem OpcodeRead.batchTimeout : OpcodeRead.Statement .batchTimeout := opcodeRead_none rfl
theorem OpcodeRead.rallocGrant : OpcodeRead.Statement .rallocGrant := opcodeRead_none rfl
theorem OpcodeRead.replayCheck (quarter : Nat) (n : Nat) (mismatch : Bool) : OpcodeRead.Statement (.replayCheck quarter n mismatch) := opcodeRead_none rfl
theorem OpcodeRead.doorbell (die : Nat) (slot : Nat) : OpcodeRead.Statement (.doorbell die slot) := opcodeRead_none rfl
theorem OpcodeRead.hostPacketEntry : OpcodeRead.Statement .hostPacketEntry := opcodeRead_none rfl
theorem OpcodeRead.hostCxlMemAccess (write : Bool) (pa : Nat) (len : Nat) (value : Nat) : OpcodeRead.Statement (.hostCxlMemAccess write pa len value) := opcodeRead_none rfl
theorem OpcodeRead.bisnp (region : Nat) (off : Nat) (write : Bool) (value : Nat) : OpcodeRead.Statement (.bisnp region off write value) := opcodeRead_none rfl
theorem OpcodeRead.poolLossEvent (device : Nat) (cause : Nat) : OpcodeRead.Statement (.poolLossEvent device cause) := opcodeRead_none rfl
theorem OpcodeRead.poolResponseTimeout (device : Nat) : OpcodeRead.Statement (.poolResponseTimeout device) := opcodeRead_none rfl
theorem OpcodeRead.regionConfigure : OpcodeRead.Statement .regionConfigure := opcodeRead_none rfl
theorem OpcodeRead.regionReactivate : OpcodeRead.Statement .regionReactivate := opcodeRead_none rfl
theorem OpcodeRead.regionDeconfigure : OpcodeRead.Statement .regionDeconfigure := opcodeRead_none rfl
theorem OpcodeRead.peerAccessArrival (out : Bool) (src : Nat) (kind : Nat) (op : Nat) (ty : BitVec 4) (pa : Nat) (len : Nat) (value : Nat) (cmp : Nat) (allowed : Bool) : OpcodeRead.Statement (.peerAccessArrival out src kind op ty pa len value cmp allowed) := opcodeRead_none rfl
theorem OpcodeRead.peerAccessTimeout (op : Nat) (lanes : Mask) : OpcodeRead.Statement (.peerAccessTimeout op lanes) := opcodeRead_none rfl
theorem OpcodeRead.ualinkLinkLost (port : Nat) : OpcodeRead.Statement (.ualinkLinkLost port) := opcodeRead_none rfl
theorem OpcodeRead.haloBoxDelivery (out : Bool) (peer : Nat) (xid : Nat) (len : Nat) (data : Nat) : OpcodeRead.Statement (.haloBoxDelivery out peer xid len data) := opcodeRead_none rfl
theorem OpcodeRead.haloTimeout (out : Bool) (peer : Nat) (xid : Nat) : OpcodeRead.Statement (.haloTimeout out peer xid) := opcodeRead_none rfl
theorem OpcodeRead.collectiveTimeout (op : Nat) : OpcodeRead.Statement (.collectiveTimeout op) := opcodeRead_none rfl
theorem OpcodeRead.harnessFlitLost (pa : Nat) (owner : Bool) : OpcodeRead.Statement (.harnessFlitLost pa owner) := opcodeRead_none rfl
theorem OpcodeRead.suspectLineTimeout (pa : Nat) : OpcodeRead.Statement (.suspectLineTimeout pa) := opcodeRead_none rfl
theorem OpcodeRead.vlogWindowReset (core : Nat) : OpcodeRead.Statement (.vlogWindowReset core) := opcodeRead_none rfl
theorem OpcodeRead.vesperEntryCapture (thread : Nat) (log : Nat) (entry : Nat) : OpcodeRead.Statement (.vesperEntryCapture thread log entry) := opcodeRead_none rfl
theorem OpcodeRead.pkgidWrite (value : Nat) : OpcodeRead.Statement (.pkgidWrite value) := opcodeRead_none rfl
theorem OpcodeRead.halotmoWrite (value : Nat) : OpcodeRead.Statement (.halotmoWrite value) := opcodeRead_none rfl
theorem OpcodeRead.routeTableWrite (pkg : Nat) (value : Nat) : OpcodeRead.Statement (.routeTableWrite pkg value) := opcodeRead_none rfl
theorem OpcodeRead.rsgo : OpcodeRead.Statement .rsgo := opcodeRead_none rfl
theorem OpcodeRead.regionRestoreDone : OpcodeRead.Statement .regionRestoreDone := opcodeRead_none rfl
theorem OpcodeRead.registerWrite (off : Nat) (value : Nat) : OpcodeRead.Statement (.registerWrite off value) := opcodeRead_none rfl
theorem OpcodeRead.readLog : OpcodeRead.Statement .readLog := opcodeRead_none rfl
theorem OpcodeRead.readSavedLog : OpcodeRead.Statement .readSavedLog := opcodeRead_none rfl
theorem OpcodeRead.attest : OpcodeRead.Statement .attest := opcodeRead_none rfl
theorem OpcodeRead.setPowerCap : OpcodeRead.Statement .setPowerCap := opcodeRead_none rfl
theorem OpcodeRead.reset : OpcodeRead.Statement .reset := opcodeRead_none rfl
theorem OpcodeRead.status : OpcodeRead.Statement .status := opcodeRead_none rfl
theorem OpcodeRead.coldReset (cfg : ConfigBlock) (images : List ImageFile) (absent : Nat) : OpcodeRead.Statement (.coldReset cfg images absent) := opcodeRead_none rfl
theorem OpcodeRead.warmReset (images : List ImageFile) : OpcodeRead.Statement (.warmReset images) := opcodeRead_none rfl
theorem OpcodeRead.powerPoll (power : Nat) (temps : List Nat) : OpcodeRead.Statement (.powerPoll power temps) := opcodeRead_none rfl
theorem OpcodeRead.hbmRecalibration (stack : Nat) (temp : Nat) : OpcodeRead.Statement (.hbmRecalibration stack temp) := opcodeRead_none rfl
theorem OpcodeRead.cxlCacheSnoop (off : Nat) (write : Bool) (value : Nat) : OpcodeRead.Statement (.cxlCacheSnoop off write value) := opcodeRead_none rfl
theorem OpcodeRead.linkUp (port : Nat) : OpcodeRead.Statement (.linkUp port) := opcodeRead_none rfl

end Sys2Proof.Laws
end

