-- ==== Sys2Proof/Tests/Slice0.lean ====
section
/-!
SUPPORT. Tests: words written from the encoding tables decode to their instructions; the worked examples of the specification, each run for
one issue; ill-formed instructions are refused; and for every statement a state and operands that meet its hypotheses.
-/
open Sys2Proof Sys2Proof.Machine Sys2Proof.Claims

namespace Sys2Proof.Tests

set_option Elab.async false

/-- Words written from the encoding tables, STALL 5, A 0x34, B 0x56, C 0x78, TY 9 (R51, R63): integer. -/
theorem test_decode_integer : ∀ e ∈ ([
    (0xA00123456789ABC5, .nop (mk 5 0x12 0x34 0x56 0x78 9 0xABC5)), (0xA01123456789ABC5, .mov (mk 5 0x12 0x34 0x56 0x78 9 0xABC5)),
    (0xA02123456789ABC5, .movk (mk 5 0x12 0x34 0x56 0x78 9 0xABC5)), (0xA03123456789ABC5, .add (mk 5 0x12 0x34 0x56 0x78 9 0xABC5)),
    (0xA04123456789ABC5, .sub (mk 5 0x12 0x34 0x56 0x78 9 0xABC5)), (0xA05123456789ABC5, .mul (mk 5 0x12 0x34 0x56 0x78 9 0xABC5)),
    (0xA06123456789ABC5, .mulhi (mk 5 0x12 0x34 0x56 0x78 9 0xABC5)), (0xA07123456789ABC5, .mad (mk 5 0x12 0x34 0x56 0x78 9 0xABC5)),
    (0xA08123456789ABC5, .div (mk 5 0x12 0x34 0x56 0x78 9 0xABC5)), (0xA09123456789ABC5, .rem (mk 5 0x12 0x34 0x56 0x78 9 0xABC5)),
    (0xA0A123456789ABC5, .min (mk 5 0x12 0x34 0x56 0x78 9 0xABC5)), (0xA0B123456789ABC5, .max (mk 5 0x12 0x34 0x56 0x78 9 0xABC5)),
    (0xA0C123456789ABC5, .abs (mk 5 0x12 0x34 0x56 0x78 9 0xABC5)), (0xA0D123456789ABC5, .neg (mk 5 0x12 0x34 0x56 0x78 9 0xABC5))] : List (Word × Instr)), decode e.1 = e.2 := by decide +kernel

/-- Words written from the encoding tables, STALL 5, A 0x34, B 0x56, C 0x78, TY 9 (R51, R63): logic. -/
theorem test_decode_logic : ∀ e ∈ ([
    (0xA10123456789ABC5, .and (mk 5 0x12 0x34 0x56 0x78 9 0xABC5)), (0xA11123456789ABC5, .or (mk 5 0x12 0x34 0x56 0x78 9 0xABC5)),
    (0xA12123456789ABC5, .xor (mk 5 0x12 0x34 0x56 0x78 9 0xABC5)), (0xA13123456789ABC5, .not (mk 5 0x12 0x34 0x56 0x78 9 0xABC5)),
    (0xA14123456789ABC5, .andn (mk 5 0x12 0x34 0x56 0x78 9 0xABC5)), (0xA15123456789ABC5, .shl (mk 5 0x12 0x34 0x56 0x78 9 0xABC5)),
    (0xA16123456789ABC5, .shr (mk 5 0x12 0x34 0x56 0x78 9 0xABC5)), (0xA17123456789ABC5, .sar (mk 5 0x12 0x34 0x56 0x78 9 0xABC5)),
    (0xA18123456789ABC5, .rot (mk 5 0x12 0x34 0x56 0x78 9 0xABC5)), (0xA19123456789ABC5, .bfx (mk 5 0x12 0x34 0x56 0x78 9 0xABC5)),
    (0xA1A123456789ABC5, .bfi (mk 5 0x12 0x34 0x56 0x78 9 0xABC5)), (0xA1B123456789ABC5, .popc (mk 5 0x12 0x34 0x56 0x78 9 0xABC5)),
    (0xA1C123456789ABC5, .clz (mk 5 0x12 0x34 0x56 0x78 9 0xABC5)), (0xA1D123456789ABC5, .ctz (mk 5 0x12 0x34 0x56 0x78 9 0xABC5)),
    (0xA1E123456789ABC5, .brev (mk 5 0x12 0x34 0x56 0x78 9 0xABC5)), (0xA1F123456789ABC5, .bswap (mk 5 0x12 0x34 0x56 0x78 9 0xABC5)),
    (0xA20123456789ABC5, .lea (mk 5 0x12 0x34 0x56 0x78 9 0xABC5)), (0xA21123456789ABC5, .pdot (mk 5 0x12 0x34 0x56 0x78 9 0xABC5)),
    (0xA22123456789ABC5, .prm (mk 5 0x12 0x34 0x56 0x78 9 0xABC5))] : List (Word × Instr)), decode e.1 = e.2 := by decide +kernel

/-- Words written from the encoding tables, STALL 5, A 0x34, B 0x56, C 0x78, TY 9 (R51, R63): special. -/
theorem test_decode_special : ∀ e ∈ ([
    (0xA28123456789ABC5, .srd (mk 5 0x12 0x34 0x56 0x78 9 0xABC5)), (0xA29123456789ABC5, .swr (mk 5 0x12 0x34 0x56 0x78 9 0xABC5))] : List (Word × Instr)), decode e.1 = e.2 := by decide +kernel

/-- Words written from the encoding tables, STALL 5, A 0x34, B 0x56, C 0x78, TY 9 (R51, R63): tag. -/
theorem test_decode_tag : ∀ e ∈ ([
    (0xA30123456789ABC5, .cnd (mk 5 0x12 0x34 0x56 0x78 9 0xABC5)), (0xA31123456789ABC5, .fcnd (mk 5 0x12 0x34 0x56 0x78 9 0xABC5)),
    (0xA32123456789ABC5, .cmp (mk 5 0x12 0x34 0x56 0x78 9 0xABC5)), (0xA33123456789ABC5, .fcmp (mk 5 0x12 0x34 0x56 0x78 9 0xABC5)),
    (0xA34123456789ABC5, .gate (mk 5 0x12 0x34 0x56 0x78 9 0xABC5)), (0xA35123456789ABC5, .mrg (mk 5 0x12 0x34 0x56 0x78 9 0xABC5)),
    (0xA36123456789ABC5, .sel (mk 5 0x12 0x34 0x56 0x78 9 0xABC5)), (0xA37123456789ABC5, .tget (mk 5 0x12 0x34 0x56 0x78 9 0xABC5)),
    (0xA38123456789ABC5, .tset (mk 5 0x12 0x34 0x56 0x78 9 0xABC5)), (0xA39123456789ABC5, .tchk (mk 5 0x12 0x34 0x56 0x78 9 0xABC5)),
    (0xA3A123456789ABC5, .cand (mk 5 0x12 0x34 0x56 0x78 9 0xABC5)), (0xA3B123456789ABC5, .cor (mk 5 0x12 0x34 0x56 0x78 9 0xABC5)),
    (0xA3C123456789ABC5, .cnot (mk 5 0x12 0x34 0x56 0x78 9 0xABC5))] : List (Word × Instr)), decode e.1 = e.2 := by decide +kernel

/-- Words written from the encoding tables, STALL 5, A 0x34, B 0x56, C 0x78, TY 9 (R51, R63): float. -/
theorem test_decode_float : ∀ e ∈ ([
    (0xA40123456789ABC5, .fadd (mk 5 0x12 0x34 0x56 0x78 9 0xABC5)), (0xA41123456789ABC5, .fsub (mk 5 0x12 0x34 0x56 0x78 9 0xABC5)),
    (0xA42123456789ABC5, .fmul (mk 5 0x12 0x34 0x56 0x78 9 0xABC5)), (0xA43123456789ABC5, .fma (mk 5 0x12 0x34 0x56 0x78 9 0xABC5)),
    (0xA44123456789ABC5, .fms (mk 5 0x12 0x34 0x56 0x78 9 0xABC5)), (0xA45123456789ABC5, .fnma (mk 5 0x12 0x34 0x56 0x78 9 0xABC5)),
    (0xA46123456789ABC5, .fnms (mk 5 0x12 0x34 0x56 0x78 9 0xABC5)), (0xA47123456789ABC5, .fdiv (mk 5 0x12 0x34 0x56 0x78 9 0xABC5)),
    (0xA48123456789ABC5, .fsqrt (mk 5 0x12 0x34 0x56 0x78 9 0xABC5)), (0xA49123456789ABC5, .fmin (mk 5 0x12 0x34 0x56 0x78 9 0xABC5)),
    (0xA4A123456789ABC5, .fmax (mk 5 0x12 0x34 0x56 0x78 9 0xABC5)), (0xA4B123456789ABC5, .fminx (mk 5 0x12 0x34 0x56 0x78 9 0xABC5)),
    (0xA4C123456789ABC5, .fmaxx (mk 5 0x12 0x34 0x56 0x78 9 0xABC5)), (0xA4D123456789ABC5, .fabs (mk 5 0x12 0x34 0x56 0x78 9 0xABC5)),
    (0xA4E123456789ABC5, .fneg (mk 5 0x12 0x34 0x56 0x78 9 0xABC5)), (0xA4F123456789ABC5, .fcps (mk 5 0x12 0x34 0x56 0x78 9 0xABC5)),
    (0xA50123456789ABC5, .fclass (mk 5 0x12 0x34 0x56 0x78 9 0xABC5)), (0xA51123456789ABC5, .frnd (mk 5 0x12 0x34 0x56 0x78 9 0xABC5)),
    (0xA52123456789ABC5, .fscale (mk 5 0x12 0x34 0x56 0x78 9 0xABC5)), (0xA53123456789ABC5, .fexp (mk 5 0x12 0x34 0x56 0x78 9 0xABC5)),
    (0xA54123456789ABC5, .fman (mk 5 0x12 0x34 0x56 0x78 9 0xABC5)), (0xA55123456789ABC5, .hdot (mk 5 0x12 0x34 0x56 0x78 9 0xABC5))] : List (Word × Instr)), decode e.1 = e.2 := by decide +kernel

/-- Words written from the encoding tables, STALL 5, A 0x34, B 0x56, C 0x78, TY 9 (R51, R63): convert. -/
theorem test_decode_convert : ∀ e ∈ ([
    (0xA60123456789ABC5, .cvt (mk 5 0x12 0x34 0x56 0x78 9 0xABC5)), (0xA61123456789ABC5, .cvtp (mk 5 0x12 0x34 0x56 0x78 9 0xABC5)),
    (0xA62123456789ABC5, .cvtmx (mk 5 0x12 0x34 0x56 0x78 9 0xABC5)), (0xA63123456789ABC5, .sfu (mk 5 0x12 0x34 0x56 0x78 9 0xABC5))] : List (Word × Instr)), decode e.1 = e.2 := by decide +kernel

/-- Words written from the encoding tables, STALL 5, A 0x34, B 0x56, C 0x78, TY 9 (R51, R63): cross. -/
theorem test_decode_cross : ∀ e ∈ ([
    (0xA70123456789ABC5, .bnset (mk 5 0x12 0x34 0x56 0x78 9 0xABC5)), (0xA70123456789ABCD, .bnsetGet (mk 5 0x12 0x34 0x56 0x78 9 0xABCD)),
    (0xA71123456789ABC5, .bnperm (mk 5 0x12 0x34 0x56 0x78 9 0xABC5)), (0xA72123456789ABC5, .bnc (mk 5 0x12 0x34 0x56 0x78 9 0xABC5)),
    (0xA73123456789ABC5, .shfl (mk 5 0x12 0x34 0x56 0x78 9 0xABC5)), (0xA74123456789ABC5, .shfx (mk 5 0x12 0x34 0x56 0x78 9 0xABC5)),
    (0xA75123456789ABC5, .vote (mk 5 0x12 0x34 0x56 0x78 9 0xABC5)), (0xA76123456789ABC5, .red (mk 5 0x12 0x34 0x56 0x78 9 0xABC5)),
    (0xA77123456789ABC5, .scan (mk 5 0x12 0x34 0x56 0x78 9 0xABC5)), (0xA78123456789ABC5, .bcast (mk 5 0x12 0x34 0x56 0x78 9 0xABC5)),
    (0xA79123456789ABC5, .matchv (mk 5 0x12 0x34 0x56 0x78 9 0xABC5)), (0xA7A123456789ABC5, .elect (mk 5 0x12 0x34 0x56 0x78 9 0xABC5)),
    (0xA7B123456789ABC5, .lrank (mk 5 0x12 0x34 0x56 0x78 9 0xABC5))] : List (Word × Instr)), decode e.1 = e.2 := by decide +kernel

/-- Words written from the encoding tables, STALL 5, A 0x34, B 0x56, C 0x78, TY 9 (R51, R63): control. -/
theorem test_decode_control : ∀ e ∈ ([
    (0xA80123456789ABC5, .bra (mk 5 0x12 0x34 0x56 0x78 9 0xABC5)), (0xA81123456789ABC5, .bdv (mk 5 0x12 0x34 0x56 0x78 9 0xABC5)),
    (0xA82123456789ABC5, .bany (mk 5 0x12 0x34 0x56 0x78 9 0xABC5)), (0xA83123456789ABC5, .ball (mk 5 0x12 0x34 0x56 0x78 9 0xABC5)),
    (0xA84123456789ABC5, .bnone (mk 5 0x12 0x34 0x56 0x78 9 0xABC5)), (0xA85123456789ABC5, .jmp (mk 5 0x12 0x34 0x56 0x78 9 0xABC5)),
    (0xA86123456789ABC5, .call (mk 5 0x12 0x34 0x56 0x78 9 0xABC5)), (0xA87143456789ABC5, .loopSet (mk 5 0x14 0x34 0x56 0x78 9 0xABC5)),
    (0xA87123456789ABC5, .loop (mk 5 0x12 0x34 0x56 0x78 9 0xABC5)), (0xA88123456789ABC5, .lexit (mk 5 0x12 0x34 0x56 0x78 9 0xABC5)),
    (0xA89123456789ABC5, .wait (mk 5 0x12 0x34 0x56 0x78 9 0xABC5)), (0xA8A123456789ABC5, .yield (mk 5 0x12 0x34 0x56 0x78 9 0xABC5)),
    (0xA8B123456789ABC5, .exit (mk 5 0x12 0x34 0x56 0x78 9 0xABC5)), (0xA8C123456789ABC5, .ecall (mk 5 0x12 0x34 0x56 0x78 9 0xABC5)),
    (0xA8D123456789ABC5, .brk (mk 5 0x12 0x34 0x56 0x78 9 0xABC5)), (0xA8E123456789ABC5, .grow (mk 5 0x12 0x34 0x56 0x78 9 0xABC5)),
    (0xA8F123456789ABC5, .nap (mk 5 0x12 0x34 0x56 0x78 9 0xABC5))] : List (Word × Instr)), decode e.1 = e.2 := by decide +kernel

/-- Words written from the encoding tables, STALL 5, A 0x34, B 0x56, C 0x78, TY 9 (R51, R63): memory. -/
theorem test_decode_memory : ∀ e ∈ ([
    (0xB00123456789ABC5, .ld (mk 5 0x12 0x34 0x56 0x78 9 0xABC5)), (0xB01123456789ABC5, .st (mk 5 0x12 0x34 0x56 0x78 9 0xABC5)),
    (0xB02123456789ABC5, .ldl (mk 5 0x12 0x34 0x56 0x78 9 0xABC5)), (0xB03123456789ABC5, .stl (mk 5 0x12 0x34 0x56 0x78 9 0xABC5)),
    (0xB04123456789ABC5, .ldc (mk 5 0x12 0x34 0x56 0x78 9 0xABC5)), (0xB05123456789ABC5, .stc (mk 5 0x12 0x34 0x56 0x78 9 0xABC5)),
    (0xB06123456789ABC5, .ldq (mk 5 0x12 0x34 0x56 0x78 9 0xABC5)), (0xB07123456789ABC5, .stq (mk 5 0x12 0x34 0x56 0x78 9 0xABC5)),
    (0xB08123456789ABC5, .lda (mk 5 0x12 0x34 0x56 0x78 9 0xABC5)), (0xB09123456789ABC5, .str (mk 5 0x12 0x34 0x56 0x78 9 0xABC5)),
    (0xB0A123456789ABC5, .prf (mk 5 0x12 0x34 0x56 0x78 9 0xABC5)), (0xB0B123456789ABC5, .winv (mk 5 0x12 0x34 0x56 0x78 9 0xABC5)),
    (0xB0C123456789ABC5, .wbk (mk 5 0x12 0x34 0x56 0x78 9 0xABC5))] : List (Word × Instr)), decode e.1 = e.2 := by decide +kernel

/-- Words written from the encoding tables, STALL 5, A 0x34, B 0x56, C 0x78, TY 9 (R51, R63): order. -/
theorem test_decode_order : ∀ e ∈ ([
    (0xB0D123456789ABC5, .fence (mk 5 0x12 0x34 0x56 0x78 9 0xABC5)), (0xB0E123456789ABC5, .chopen (mk 5 0x12 0x34 0x56 0x78 9 0xABC5)),
    (0xB0F123456789ABC5, .chst (mk 5 0x12 0x34 0x56 0x78 9 0xABC5)), (0xB10123456789ABC5, .chfence (mk 5 0x12 0x34 0x56 0x78 9 0xABC5)),
    (0xB11123456789ABC5, .chclose (mk 5 0x12 0x34 0x56 0x78 9 0xABC5)), (0xB12123456789ABC5, .stmc (mk 5 0x12 0x34 0x56 0x78 9 0xABC5))] : List (Word × Instr)), decode e.1 = e.2 := by decide +kernel

/-- Words written from the encoding tables, STALL 5, A 0x34, B 0x56, C 0x78, TY 9 (R51, R63): version. -/
theorem test_decode_version : ∀ e ∈ ([
    (0xB18123456789ABC5, .vopen (mk 5 0x12 0x34 0x56 0x78 9 0xABC5)), (0xB19123456789ABC5, .ldv (mk 5 0x12 0x34 0x56 0x78 9 0xABC5)),
    (0xB1A123456789ABC5, .vpub (mk 5 0x12 0x34 0x56 0x78 9 0xABC5)), (0xB1B123456789ABC5, .vclose (mk 5 0x12 0x34 0x56 0x78 9 0xABC5)),
    (0xB1C123456789ABC5, .vinfo (mk 5 0x12 0x34 0x56 0x78 9 0xABC5)), (0xB1D123456789ABC5, .ckpt (mk 5 0x12 0x34 0x56 0x78 9 0xABC5)),
    (0xB1E123456789ABC5, .ckwait (mk 5 0x12 0x34 0x56 0x78 9 0xABC5))] : List (Word × Instr)), decode e.1 = e.2 := by decide +kernel

/-- Words written from the encoding tables, STALL 5, A 0x34, B 0x56, C 0x78, TY 9 (R51, R63): atomic. -/
theorem test_decode_atomic : ∀ e ∈ ([
    (0xB20123456789ABC5, .atom (mk 5 0x12 0x34 0x56 0x78 9 0xABC5)), (0xB21123456789ABC5, .cas (mk 5 0x12 0x34 0x56 0x78 9 0xABC5)),
    (0xB22123456789ABC5, .cas2 (mk 5 0x12 0x34 0x56 0x78 9 0xABC5)), (0xB23123456789ABC5, .atoml (mk 5 0x12 0x34 0x56 0x78 9 0xABC5)),
    (0xB24123456789ABC5, .fatom (mk 5 0x12 0x34 0x56 0x78 9 0xABC5)), (0xB25123456789ABC5, .fred (mk 5 0x12 0x34 0x56 0x78 9 0xABC5))] : List (Word × Instr)), decode e.1 = e.2 := by decide +kernel

/-- Words written from the encoding tables, STALL 5, A 0x34, B 0x56, C 0x78, TY 9 (R51, R63): sync. -/
theorem test_decode_sync : ∀ e ∈ ([
    (0xB30123456789ABC5, .bar (mk 5 0x12 0x34 0x56 0x78 9 0xABC5)), (0xB31123456789ABC5, .barr (mk 5 0x12 0x34 0x56 0x78 9 0xABC5)),
    (0xB32123456789ABC5, .barw (mk 5 0x12 0x34 0x56 0x78 9 0xABC5)), (0xB33123456789ABC5, .cbar (mk 5 0x12 0x34 0x56 0x78 9 0xABC5)),
    (0xB34123456789ABC5, .mwait (mk 5 0x12 0x34 0x56 0x78 9 0xABC5)), (0xB35123456789ABC5, .aoinit (mk 5 0x12 0x34 0x56 0x78 9 0xABC5)),
    (0xB36123456789ABC5, .aoarr (mk 5 0x12 0x34 0x56 0x78 9 0xABC5)), (0xB37123456789ABC5, .aoexp (mk 5 0x12 0x34 0x56 0x78 9 0xABC5)),
    (0xB38123456789ABC5, .aowt (mk 5 0x12 0x34 0x56 0x78 9 0xABC5))] : List (Word × Instr)), decode e.1 = e.2 := by decide +kernel

/-- Words written from the encoding tables, STALL 5, A 0x34, B 0x56, C 0x78, TY 9 (R51, R63): copy. -/
theorem test_decode_copy : ∀ e ∈ ([
    (0xB40123456789ABC5, .tdset (mk 5 0x12 0x34 0x56 0x78 9 0xABC5)), (0xB41123456789ABC5, .tdget (mk 5 0x12 0x34 0x56 0x78 9 0xABC5)),
    (0xB42123456789ABC5, .tcpgl (mk 5 0x12 0x34 0x56 0x78 9 0xABC5)), (0xB43123456789ABC5, .tcplg (mk 5 0x12 0x34 0x56 0x78 9 0xABC5)),
    (0xB44123456789ABC5, .tcpgg (mk 5 0x12 0x34 0x56 0x78 9 0xABC5)), (0xB45123456789ABC5, .tcpmc (mk 5 0x12 0x34 0x56 0x78 9 0xABC5)),
    (0xB46123456789ABC5, .tcpred (mk 5 0x12 0x34 0x56 0x78 9 0xABC5)), (0xB47123456789ABC5, .tcpst (mk 5 0x12 0x34 0x56 0x78 9 0xABC5)),
    (0xB48123456789ABC5, .tcppf (mk 5 0x12 0x34 0x56 0x78 9 0xABC5)), (0xB49123456789ABC5, .cbinit (mk 5 0x12 0x34 0x56 0x78 9 0xABC5)),
    (0xB4A123456789ABC5, .cbacq (mk 5 0x12 0x34 0x56 0x78 9 0xABC5)), (0xB4B123456789ABC5, .cbrel (mk 5 0x12 0x34 0x56 0x78 9 0xABC5)),
    (0xB4C123456789ABC5, .cbres (mk 5 0x12 0x34 0x56 0x78 9 0xABC5)), (0xB4D123456789ABC5, .cbcom (mk 5 0x12 0x34 0x56 0x78 9 0xABC5))] : List (Word × Instr)), decode e.1 = e.2 := by decide +kernel

/-- Words written from the encoding tables, STALL 5, A 0x34, B 0x56, C 0x78, TY 9 (R51, R63): matrix. -/
theorem test_decode_matrix : ∀ e ∈ ([
    (0xB80123456789ABC5, .aczero (mk 5 0x12 0x34 0x56 0x78 9 0xABC5)), (0xB81123456789ABC5, .mmx (mk 5 0x12 0x34 0x56 0x78 9 0xABC5)),
    (0xB82123456789ABC5, .mmxl (mk 5 0x12 0x34 0x56 0x78 9 0xABC5)), (0xB83123456789ABC5, .acld (mk 5 0x12 0x34 0x56 0x78 9 0xABC5)),
    (0xB84123456789ABC5, .acst (mk 5 0x12 0x34 0x56 0x78 9 0xABC5)), (0xB85123456789ABC5, .acrd (mk 5 0x12 0x34 0x56 0x78 9 0xABC5)),
    (0xB86123456789ABC5, .acwr (mk 5 0x12 0x34 0x56 0x78 9 0xABC5)), (0xB87123456789ABC5, .acep (mk 5 0x12 0x34 0x56 0x78 9 0xABC5)),
    (0xB88123456789ABC5, .mxstat (mk 5 0x12 0x34 0x56 0x78 9 0xABC5))] : List (Word × Instr)), decode e.1 = e.2 := by decide +kernel

/-- Words written from the encoding tables, STALL 5, A 0x34, B 0x56, C 0x78, TY 9 (R51, R63): ray. -/
theorem test_decode_ray : ∀ e ∈ ([
    (0xB90123456789ABC5, .rtbind (mk 5 0x12 0x34 0x56 0x78 9 0xABC5)), (0xB91123456789ABC5, .rtrace (mk 5 0x12 0x34 0x56 0x78 9 0xABC5)),
    (0xB92123456789ABC5, .rtres (mk 5 0x12 0x34 0x56 0x78 9 0xABC5)), (0xB93123456789ABC5, .rtcand (mk 5 0x12 0x34 0x56 0x78 9 0xABC5)),
    (0xB94123456789ABC5, .rtacc (mk 5 0x12 0x34 0x56 0x78 9 0xABC5)), (0xB95123456789ABC5, .rtbox (mk 5 0x12 0x34 0x56 0x78 9 0xABC5)),
    (0xB96123456789ABC5, .rttri (mk 5 0x12 0x34 0x56 0x78 9 0xABC5)), (0xB97123456789ABC5, .lhtinv (mk 5 0x12 0x34 0x56 0x78 9 0xABC5)),
    (0xB98123456789ABC5, .lhtstat (mk 5 0x12 0x34 0x56 0x78 9 0xABC5))] : List (Word × Instr)), decode e.1 = e.2 := by decide +kernel

/-- Words written from the encoding tables, STALL 5, A 0x34, B 0x56, C 0x78, TY 9 (R51, R63): launch. -/
theorem test_decode_launch : ∀ e ∈ ([
    (0xBA0123456789ABC5, .mbrecv (mk 5 0x12 0x34 0x56 0x78 9 0xABC5)), (0xBA1123456789ABC5, .mbsend (mk 5 0x12 0x34 0x56 0x78 9 0xABC5)),
    (0xBA2123456789ABC5, .spawn (mk 5 0x12 0x34 0x56 0x78 9 0xABC5)), (0xBA3123456789ABC5, .rgn (mk 5 0x12 0x34 0x56 0x78 9 0xABC5)),
    (0xBA4123456789ABC5, .ralloc (mk 5 0x12 0x34 0x56 0x78 9 0xABC5)), (0xBA5123456789ABC5, .rsub (mk 5 0x12 0x34 0x56 0x78 9 0xABC5)),
    (0xBA6123456789ABC5, .rbatch (mk 5 0x12 0x34 0x56 0x78 9 0xABC5)), (0xBA7123456789ABC5, .rfetch (mk 5 0x12 0x34 0x56 0x78 9 0xABC5)),
    (0xBA8123456789ABC5, .rfree (mk 5 0x12 0x34 0x56 0x78 9 0xABC5)), (0xBA9123456789ABC5, .lvcoord (mk 5 0x12 0x34 0x56 0x78 9 0xABC5))] : List (Word × Instr)), decode e.1 = e.2 := by decide +kernel

/-- Words written from the encoding tables, STALL 5, A 0x34, B 0x56, C 0x78, TY 9 (R51, R63): fabric. -/
theorem test_decode_fabric : ∀ e ∈ ([
    (0xBB0123456789ABC5, .hx (mk 5 0x12 0x34 0x56 0x78 9 0xABC5)), (0xBB1123456789ABC5, .arx (mk 5 0x12 0x34 0x56 0x78 9 0xABC5)),
    (0xBB2123456789ABC5, .agx (mk 5 0x12 0x34 0x56 0x78 9 0xABC5)), (0xBB3123456789ABC5, .rsx (mk 5 0x12 0x34 0x56 0x78 9 0xABC5)),
    (0xBB4123456789ABC5, .plstat (mk 5 0x12 0x34 0x56 0x78 9 0xABC5)), (0xBB5123456789ABC5, .plack (mk 5 0x12 0x34 0x56 0x78 9 0xABC5))] : List (Word × Instr)), decode e.1 = e.2 := by decide +kernel

/-- Words written from the encoding tables, STALL 5, A 0x34, B 0x56, C 0x78, TY 9 (R51, R63): system. -/
theorem test_decode_system : ∀ e ∈ ([
    (0xBC0123456789ABC5, .tret (mk 5 0x12 0x34 0x56 0x78 9 0xABC5)), (0xBC1123456789ABC5, .tfix (mk 5 0x12 0x34 0x56 0x78 9 0xABC5)),
    (0xBC2123456789ABC5, .csrr (mk 5 0x12 0x34 0x56 0x78 9 0xABC5)), (0xBC3123456789ABC5, .csrw (mk 5 0x12 0x34 0x56 0x78 9 0xABC5)),
    (0xBC4123456789ABC5, .pgmode (mk 5 0x12 0x34 0x56 0x78 9 0xABC5)), (0xBC5123456789ABC5, .pgrep (mk 5 0x12 0x34 0x56 0x78 9 0xABC5)),
    (0xBC6123456789ABC5, .pgcol (mk 5 0x12 0x34 0x56 0x78 9 0xABC5)), (0xBC7123456789ABC5, .tlbinv (mk 5 0x12 0x34 0x56 0x78 9 0xABC5)),
    (0xBC8123456789ABC5, .preempt (mk 5 0x12 0x34 0x56 0x78 9 0xABC5)), (0xBC9123456789ABC5, .resume (mk 5 0x12 0x34 0x56 0x78 9 0xABC5)),
    (0xBCA123456789ABC5, .blkkill (mk 5 0x12 0x34 0x56 0x78 9 0xABC5)), (0xBCB123456789ABC5, .vlog (mk 5 0x12 0x34 0x56 0x78 9 0xABC5))] : List (Word × Instr)), decode e.1 = e.2 := by decide +kernel

/-! ### Witnesses: states and operands that meet the hypotheses of the statements

`atOp` is reset with a word of an opcode placed (log 8): a block of one warp, whose split of 32 lanes stands at the word. -/

def cu0 : Cur := { w := 128, k := 0 }

def atOp (op : BitVec 9) : State := placeWord State.reset (op.toNat * 2 ^ 52)

/-- The word meets the issue's conditions in the placed state. -/
def can (spec : OpSpec) (f : Fields) : Bool := issues spec f (atOp spec.op) cu0 && !isQ f.d

/-- As `can`, for row k of a table. -/
def canRow (rows : Fields → List OpSpec) (f : Fields) (k : Nat) : Bool :=
  match (rows f)[k]? with
  | some spec => can spec f
  | none => false

/-- v6 from v1, v2, v3, by the number of sources. -/
def f1 (ty : BitVec 4) : Fields := mk 3 6 1 0xE4 0xE4 ty 0
def f2 (ty : BitVec 4) : Fields := mk 3 6 1 2 0xE4 ty 0
def f3 (ty : BitVec 4) : Fields := mk 3 6 1 2 3 ty 0

theorem witness_IntegerArithmetic : [f2 3, f2 7, f2 0, f3 2, f2 3, f2 7, f1 3, f1 0].zipIdx.all
    (fun e => canRow (fun f => (integerRows f).map (·.2.1)) e.1 e.2) = true := by decide +kernel

theorem witness_WholeWordInstructions : [f1 0, mk 3 6 1 0xFF 0xE4 3 0x8000, f2 0, f2 0, f2 0, f1 0, f2 0, f2 3, f3 0, f3 0].zipIdx.all
    (fun e => canRow (fun f => (wholeRows f).map (·.2.1)) e.1 e.2) = true := by decide +kernel

theorem witness_ShiftsAndBitCounts : [f2 3, f2 7, f2 0, f2 6, f2 7, f1 3, f1 0, f1 4, f1 5, f1 1].zipIdx.all
    (fun e => canRow (fun f => (shiftRows f).map (·.2.1)) e.1 e.2) = true := by decide +kernel

theorem witness_ProductsAndQuotients : ([f2 3, f2 7, f2 3, f3 0].zipIdx.all (fun e => canRow (fun f => (productRows f).map (·.2.1)) e.1 e.2) &&
    decide ((getQuarter (atOp specDiv.op) (quarterOf (atOp specDiv.op) 128)).divBusy ≤ issueTime (atOp specDiv.op) 128 0)) = true := by decide +kernel

theorem witness_ConditionsAndTags : ([mk 3 6 1 2 5 3 0, mk 3 6 1 2 0 7 0, f2 0, f2 0, f3 0, f1 0, mk 3 6 1 0xE4 0xE4 0 2, f1 0, f2 0, f2 0, f1 0].zipIdx.all
    (fun e => canRow (fun f => (tagRows f).map (·.2.1)) e.1 e.2) &&
    (activeLanes (atOp specTchk.op) cu0).all (fun l => decide ((inA specTchk (f1 0) (atOp specTchk.op) cu0 l).tag ≠ .x))) = true := by decide +kernel

/-- A word of a row can issue, and none of its lanes traps. -/
def calm (rows : Fields → List (Instr × OpSpec × (Ctx → State → Nat → LaneRes))) (f : Fields) (k : Nat) : Bool :=
  match (rows f)[k]? with
  | some (_, spec, g) => can spec f &&
      (perLane f (atOp spec.op) cu0 (g (ctxOf spec f (atOp spec.op) cu0) (atIssue (atOp spec.op) cu0))).all
        (fun e => !laneTraps (getWarp (atOp spec.op) 128).fcr e.2)
  | none => false

theorem witness_Floating : [mk 3 6 1 2 7 8 0, mk 3 6 1 2 0 9 0, f2 8, f2 9, f2 10, f3 8, f3 9, f3 8, f3 8, f2 8, f2 9, f2 8, f2 8, f1 8, f1 9, f2 8, f1 8, f1 8,
    f2 8, f1 8, f1 9, f3 10, mk 3 6 1 0xE4 0xE4 8 0x0090, mk 3 6 1 2 0xE4 10 0x0090].zipIdx.all (fun e => calm floatRows e.1 e.2) = true := by
  decide +kernel

theorem witness_CrossLane : [mk 3 6 0xE4 0xE4 0xE4 0 8, f1 0, mk 3 6 1 2 0 0 0, mk 3 6 1 2 0 0 0, f1 0, mk 3 6 1 0xC1 0xE4 0 0, f1 0, f1 0, f1 0].zipIdx.all
    (fun e => calm crossRows e.1 e.2) = true := by decide +kernel

theorem witness_ValuesByBits : [f1 14, f1 8, mk 3 6 1 2 0xE4 9 2].zipIdx.all (fun e => canRow (fun f => (signRows f).map (·.2.1)) e.1 e.2) = true ∧
    [f2 8, f2 9, f2 10, f2 11].zipIdx.all (fun e => canRow (fun f => (selectRows f).map (·.2.1)) e.1 e.2) = true ∧
    (can specFcnd (mk 3 6 1 2 7 8 0) && can specFcmp (mk 3 6 1 2 0 9 0) && !(getWarp (atOp specFcmp.op) 128).fcr.getLsbD 3) = true := by decide +kernel

theorem witness_CrossLaneValues : [mk 3 6 1 2 16 0 0, mk 3 6 1 2 3 0 0, mk 3 6 1 0xC1 0xE4 0 0, mk 3 0xC6 0xC1 0xE4 0xE4 0 3, f1 3, mk 3 0xC6 0xE4 0xE4 0xE4 0 0, f1 0].zipIdx.all
    (fun e => !isQ e.1.a && canRow (fun f => (exchangeRows f (atOp 0) cu0).map (·.2.1)) e.1 e.2) = true := by decide +kernel

/-- The placed state with its split narrowed to lane 0. -/
def one (s : State) : State := setSplit s 128 0 { getSplit s 128 0 with mask := 1 }

/-- The placed state with its split in supervisor mode. -/
def supAt (op : BitVec 9) : State := setSplit (atOp op) 128 0 { getSplit (atOp op) 128 0 with sup := true }

theorem witness_ReductionsAndScans : ([f1 8, f1 3].zipIdx.all (fun e =>
    match (treeRows e.1)[e.2]? with
    | some (_, spec, n) => can spec e.1 && decide ((getQuarter (atOp spec.op) (quarterOf (atOp spec.op) 128)).treeBusy ≤ issueTime (atOp spec.op) 128 0) &&
        (perLane e.1 (atOp spec.op) cu0 (treeResult spec e.1 (atOp spec.op) cu0 n)).all (fun x => !laneTraps (getWarp (atOp spec.op) 128).fcr x.2)
    | none => false)) = true := by decide +kernel

/-- A store stream of lane 0 over the placed page. -/
def pushing : State :=
  setQueue (one (atOp specAdd.op)) 128 0 0 { getQueue (atOp specAdd.op) 128 0 0 with kind := 2, ty := 3, addr := 0x10100, stride := 8, left := 4 }

theorem witness_PushesToStoreStream :
    let f := mk 3 0xE0 1 2 0xE4 3 0
    (issues specAdd f pushing cu0 && isQ f.d && !provisional pushing 4 && (activeLanes pushing cu0).all (fun l =>
      !laneTraps (getWarp pushing 128).fcr (ofWords (intOp (fun a b _ => a + b) 2) (ctxOf specAdd f pushing cu0) (atIssue pushing cu0) l) &&
      decide (streamCount pushing 128 l 0 < 8) &&
      (match pushCheck (popAll (atIssue pushing cu0) 128 1 [1, 2]) 128 (agentC (ctxOf specAdd f pushing cu0) (atIssue pushing cu0)) 0 l
          (ofWords (intOp (fun a b _ => a + b) 2) (ctxOf specAdd f pushing cu0) (atIssue pushing cu0) l).val with
        | .store .. => true
        | _ => false))) = true := by decide +kernel

/-- v1 of lane 0 holds poison. -/
def poisoned (s : State) : State := wrReg s 128 1 [(0, ⟨.x, 0x1100000000001234⟩)]

theorem witness_TrappingLanesKeepDestination :
    (issues specTchk (f1 0) (poisoned (atOp specTchk.op)) cu0 && (lanesTrap (getWarp (poisoned (atOp specTchk.op)) 128).fcr
      (perLane (f1 0) (poisoned (atOp specTchk.op)) cu0 (ofWords tchkRes (ctxOf specTchk (f1 0) (poisoned (atOp specTchk.op)) cu0)
        (atIssue (poisoned (atOp specTchk.op)) cu0)))).isSome) = true := by decide +kernel

theorem witness_SpecialRegisters : (can specSrd (mk 3 6 0xE4 0xE4 0xE4 0 0x0A) && !flagsPending (atOp specSrd.op) 128 0xFFFFFFFF &&
    can specSwr (mk 3 0xE4 0xC1 0xE4 0xE4 0 0x09) && can specSwr (mk 3 0xE4 1 0xE4 0xE4 0 0x0A) && !flagsPending (atOp specSwr.op) 128 0xFFFFFFFF &&
    can specSwr (mk 3 0xE4 0xC1 0xE4 0xE4 0 0x0B)) = true := by decide +kernel

theorem witness_BenesRouting : (issues specBnset (mk 3 0xE4 0xC1 0xC2 0xC3 0 7) (atOp specBnset.op) cu0 && can specBnc (mk 3 6 1 0xE4 0xE4 0 7) &&
    !bncBusy (atOp specBnc.op) 128 &&
    (activeLanes (atOp specBnc.op) cu0).all (fun l => decide ((inA specBnc (f1 0) (atOp specBnc.op) cu0 l).tag ≠ .x))) = true := by decide +kernel

theorem witness_BranchesByTag : [mk 1 1 1 0xE4 0xFF 0 4, mk 1 0xE4 1 0xE4 0xFF 0 4, mk 1 0xE4 1 0xE4 0xFF 0 4, mk 1 0xE4 1 0xE4 0xFF 0 4, mk 1 6 1 0xE4 0xFF 0 4].zipIdx.all
    (fun e => match (branchRows e.1)[e.2]? with
      | some (_, spec, _, _) => can spec e.1 && (activeLanes (atOp spec.op) cu0).all (fun l => decide ((inA spec e.1 (atOp spec.op) cu0 l).tag ≠ .x))
      | none => false) = true := by decide +kernel

/-- No lane is taken, some are, or every one is. -/
theorem witness_BranchesByTag_parts : [(0, 0), (0x0000FF00, 1), (0xFFFFFFFF, 2)].all (fun (e : Mask × Nat) =>
    let f := mk 1 0 1 0xE4 0xFF 0 4
    let s := wrReg (atOp specBra.op) 128 1 ((List.range 32).map (fun l => (l, ⟨if e.1.getLsbD l then .v else .n, 0⟩)))
    let m := (getSplit s 128 0).mask
    issues specBra f s cu0 && (activeLanes s cu0).all (fun l => decide ((inA specBra f s cu0 l).tag ≠ .x)) && decide (lanesV specBra f s cu0 = e.1) &&
      decide ((e.1 = 0) = (e.2 = 0)) && decide ((e.1 = m) = (e.2 = 2)) && decide (branchAddr f s cu0 ≠ (getSplit s 128 0).pc + 8) &&
      (List.range 32).any (fun k => decide ((getSplit s 128 k).mask = 0)) && swf noSplit (getWarp s 128).splits) = true := by decide +kernel

theorem witness_BranchesByComparison : (can specBdv (mk 1 5 1 2 0xFF 3 4) && (activeLanes (atOp specBdv.op) cu0).all (fun l =>
    decide ((inA specBdv (mk 1 5 1 2 0xFF 3 4) (atOp specBdv.op) cu0 l).tag = .v) &&
    decide ((inB specBdv (mk 1 5 1 2 0xFF 3 4) (atOp specBdv.op) cu0 l).tag = .v)) &&
    (let s := wrReg (atOp specBdv.op) 128 1 ((List.range 32).map (fun l => (l, ⟨.n, 0⟩)))
     issues specBdv (mk 1 5 1 2 0xFF 3 4) s cu0 && (activeLanes s cu0).all (fun l => decide ((inA specBdv (mk 1 5 1 2 0xFF 3 4) s cu0 l).tag = .n)))) = true := by
  decide +kernel

theorem witness_JumpsAndCalls : (can specJmp (mk 1 0xE4 1 0xE4 0xE4 0 0) &&
    (activeLanes (atOp specJmp.op) cu0).all (fun l => decide (inA specJmp (mk 1 0xE4 1 0xE4 0xE4 0 0) (atOp specJmp.op) cu0 l = ⟨.v, 0⟩)) &&
    can specCall (mk 1 6 0xE4 0xE4 0xFF 0 4) && decide ((branchAddr (mk 1 6 0xE4 0xE4 0xFF 0 4) (atOp specCall.op) cu0).toNat % 8 = 0) &&
    can specCall (mk 1 6 1 0xE4 0xE4 0 0)) = true := by decide +kernel

theorem witness_Loops : (can specLoopSet (mk 1 4 0xC1 0xE4 0xFF 0 4) && can specLoopSet (mk 1 6 0xE4 0xE4 0xFF 0 4) &&
    (let s := setSplit (atOp specLoop.op) 128 0 (setLc (getSplit (atOp specLoop.op) 128 0) 2 1)
     issues specLoop (mk 1 2 0xE4 0xE4 0xFF 0 0xFFFE) s cu0 && decide (getLc (getSplit s 128 0) 2 = 1)) &&
    (let s := setSplit (atOp specLoop.op) 128 0 (setLc (getSplit (atOp specLoop.op) 128 0) 0 2)
     issues specLoop (mk 1 0 0xE4 0xE4 0xFF 0 0) s cu0 && decide (getLc (getSplit s 128 0) 0 = 2))) = true := by decide +kernel

theorem witness_NopAndWaits : ([(specNop, mk 0 0xE4 0xE4 0xE4 0xE4 0 0), (specPrf, mk 0 0xE4 1 2 0xE4 0 0), (specWait, mk 0 0xE4 0xE4 0xE4 0xE4 0 0xF0F1),
    (specYield, mk 0 0xE4 0xE4 0xE4 0xE4 0 0), (specNap, mk 0 0xE4 0xE4 0xE4 0xE4 0 0xFFFF)].all (fun e => can e.1 e.2)) = true := by decide +kernel

/-- The placed warp asks for 192 registers, of which it holds 8; and for 200 where the quarter has them all. -/
def growing (total : Nat) : State :=
  let s := atOp specGrow.op
  { setWarp s 128 { getWarp s 128 with vregs := 8 } with growQ := [{ core := coreOf s 128, w := 128, k := 0, kind := 0, total := total, d := 6, word := 0 }] }

theorem witness_ResourceGrowth : (can specGrow (mk 0 6 0xC1 0xFF 0xE4 0 192) && can specGrow (mk 0 6 0xC1 0xFF 0xE4 2 192) &&
    (growing 192).growQ.all (growFits (growing 192)) && (growing 2000).growQ.all (fun r => !growFits (growing 2000) r && growStuck (growing 2000) r.core) &&
    (growing 192).growQ.all (fun r => !growStuck (growing 192) r.core) &&
    (let s : State := { growing 192 with growQ := (growing 192).growQ.map (fun r => { r with d := 0xE0 }) }; s.growQ.all (growFits s)) &&
    [0, 8, 192].all (fun (n : Nat) => let s := wrReg { growing 0 with growQ := [] } 128 0xC1 [(0, ⟨.v, BitVec.ofNat 64 n⟩)]
      let f := mk 0 6 0xC1 0xFF 0xE4 0 0
      issues specGrow f s cu0 && decide (inA specGrow f s cu0 0 = ⟨.v, BitVec.ofNat 64 n⟩) && decide (growCurrent s 128 0 = 8))) = true := by decide +kernel

theorem witness_CallsToHandlers : (can specEcall (mk 0 0xE4 0xE4 0xE4 0xE4 0 0x8000) && can specBrk (mk 0 0xE4 0xE4 0xE4 0xE4 0 0x7FFF) &&
    !(getSplit (atOp specBrk.op) 128 0).sup) = true := by decide +kernel

theorem witness_WordsThatTrap_opcodes : ([atOp 0x00F, supAt 0x00F].all (fun s => decide (s.cur = some cu0) && decide (pathOf s 128 (issueTime s 128 0) = 0)) &&
    !(getSplit (atOp 0x00F) 128 0).sup && (getSplit (supAt 0x00F) 128 0).sup && decide ((getBlock (supAt 0x00F) 4).csource = 0)) = true := by
  decide +kernel

/-- A class that the clause forbids, a privileged word, a field that fails its check. -/
theorem witness_WordsThatTrap_checks :
    let env (spec : OpSpec) (f : Fields) (s : State) := envOf (atIssue s cu0) 128 (getSplit s 128 0) (spec.reads f) f
    let s0 := atOp 0
    let s1 := atOp specCsrr.op
    let s2 := atOp specLd.op
    ([s0, s1, s2].all (fun s => decide (s.cur = some cu0) && decide ((getSplit s 128 0).stalled = none) && (getSplit s 128 0).latch.isEmpty) && !acquireHolds s0 specLd.cls (getSplit s0 128 0) && decide ((ctxOf specLd (f2 3) s0 cu0).path = 0) && !clsAllowed specLd.cls (getSplit s0 128 0).cls &&
      !acquireHolds s1 specCsrr.cls (getSplit s1 128 0) && clsAllowed specCsrr.cls (getSplit s1 128 0).cls && (specCsrr.priv (env specCsrr (f1 0) s1)).isSome &&
      clsAllowed specLd.cls (getSplit s2 128 0).cls && (specLd.priv (env specLd (mk 0 0xFF 1 2 0xE4 3 0) s2)).isNone &&
      (specLd.check (env specLd (mk 0 0xFF 1 2 0xE4 3 0) s2)).isSome) = true := by decide +kernel

theorem witness_ExitEndsLanes : (can specExit (mk 0 0xE4 1 0xE4 0xE4 0 0) &&
    (activeLanes (atOp specExit.op) cu0).all (fun l => decide ((inA specExit (mk 0 0xE4 1 0xE4 0xE4 0 0) (atOp specExit.op) cu0 l).tag ≠ .x))) = true := by
  decide +kernel

theorem witness_SpecialFunctionsQueue : [f2 8, f1 9, mk 3 6 1 0xE4 0xE4 9 0, mk 3 6 1 0xE4 0xE4 12 0x90].zipIdx.all (fun e =>
    match (sfuRows e.1)[e.2]? with
    | some (_, spec, _, _) => can spec e.1 && decide (fpEnables (getWarp (atOp spec.op) 128).fcr = 0) &&
        decide ((sfuQueue (atIssue (atOp spec.op) cu0) (quarterOf (atOp spec.op) 128)).length < 4)
    | none => false) = true := by decide +kernel

theorem witness_QuotientsAndRoots : ([(specFdiv, f2 8, 2), (specFsqrt, f1 9, 1)].all (fun e =>
    let s := atOp e.1.op
    issues e.1 e.2.1 s cu0 && isV e.2.1.d && decide (fpEnables (getWarp s 128).fcr = 0) && decide ((sfuQueue (atIssue s cu0) (quarterOf s 128)).length < 4) &&
      (activeLanes s cu0).all (allV e.1 e.2.1 s cu0 e.2.2)) && (quotientCase false 8 0 0).isSome && (rootCase false 9 0).isSome) = true := by decide +kernel

theorem witness_ArithmeticRoundsOnce : [f2 8, f2 9, f2 10, f3 11, f3 8, f3 9, f3 10].zipIdx.all (fun e =>
    match (arithRows e.1)[e.2]? with
    | some (_, spec, n, _) => can spec e.1 && decide (fpEnables (getWarp (atOp spec.op) 128).fcr = 0) && !(getWarp (atOp spec.op) 128).fcr.getLsbD 8 &&
        decide (e.1.md.toNat % 8 = 0) && (activeLanes (atOp spec.op) cu0).all (fun l =>
          ([inA spec e.1 (atOp spec.op) cu0 l, inB spec e.1 (atOp spec.op) cu0 l, inC spec e.1 (atOp spec.op) cu0 l].take n).all
            (fun x => decide (x.tag = .v) && decide (magBits e.1.ty x.data < infMag e.1.ty)))
    | none => false) = true := by decide +kernel

/-- An outstanding operation of the placed warp. -/
def opOf (kind : OpKind) (dst : List (Nat × Nat)) : Op :=
  { id := 1, w := 128, lanes := 1, cls := some .ld, dst := dst, push := none, denied := [], kind := kind }

def withOp (kind : OpKind) (dst : List (Nat × Nat)) : State := { atOp 0 with ops := [opOf kind dst], nextOp := 2 }

theorem witness_SpecialFunctionsComplete :
    let k0 : OpKind := .sfu [(6, 0, ⟨.v, 5⟩)] [(0, 16#6)] false 0 4 12 none 0
    let k1 : OpKind := .sfu [(6, 0, ⟨.v, 5⟩)] [(0, 16#6)] true 0 4 0 none 0
    ((findOp (withOp k0 [(6, 0)]) 1 = some (opOf k0 [(6, 0)]) ∧ (sfuQueue (withOp k0 [(6, 0)]) (quarterOf (withOp k0 [(6, 0)]) 128)).head?.map Op.id = some 1 ∧
      (getQuarter (withOp k0 [(6, 0)]) (quarterOf (withOp k0 [(6, 0)]) 128)).sfuBusy ≤ (getCore (withOp k0 [(6, 0)]) (coreOf (withOp k0 [(6, 0)]) 128)).cyc) ∧
      findOp (withOp k1 [(6, 0)]) 1 = some (opOf k1 [(6, 0)])) := by decide +kernel

theorem witness_BenesRoutingCompletes :
    let k : OpKind := .bnc 7 (some 5) [(6, 0, ⟨.v, 1⟩)]
    findOp (withOp k [(6, 0)]) 1 = some (opOf k [(6, 0)]) ∧ (opOf k [(6, 0)]).push = none := by decide +kernel
/-- Lane 0 alone, with addresses of the placed page in v1 and s1, data in v3 and v4, and an open channel 0. -/
def memAt (op : BitVec 9) : State :=
  let s := one (atOp op)
  let s := wrReg (wrReg (wrReg s 128 1 [(0, ⟨.v, 0x10100⟩)]) 128 0xC1 [(0, ⟨.v, 0x10100⟩)]) 128 3 [(0, ⟨.v, 5⟩)]
  setChan s 128 0 1

/-- The same with addresses of the tile store. -/
def tileAt (op : BitVec 9) : State := wrReg (memAt op) 128 1 [(0, ⟨.v, 0xFF00⟩)]

def startsOk (s : State) (f : Fields) (r : AccRow) : Bool :=
  issues r.spec f s cu0 && (!isQ f.d || decide (r.cls = .st)) && !provisional s 4 &&
    (match r.lane (ctxOf r.spec f s cu0) (atIssue s cu0) 0 with
     | .ok _ a => decide (a.lane = 0)
     | _ => false)

def accOk (rows : Fields → List AccRow) (e : (Bool × Fields) × Nat) : Bool :=
  match (rows e.1.2)[e.2]? with
  | some r => startsOk (if e.1.1 then tileAt r.spec.op else memAt r.spec.op) e.1.2 r
  | none => false

theorem witness_LoadsStart : [(false, mk 0 6 1 0xE4 0xE4 3 0), (true, mk 0 6 1 0xE4 0xE4 3 0), (true, mk 0 6 1 0xE4 0xE4 3 0), (false, mk 0 6 1 0xE4 0xC3 3 0),
    (false, mk 0 6 1 0xE4 0xE4 3 3)].zipIdx.all (accOk loadRows) = true := by decide +kernel

theorem witness_StoresStart : [(false, mk 0 0xE4 1 0xE4 3 3 0), (false, mk 0 0xE4 1 0xE4 3 3 3), (false, mk 0 0xE4 1 0xE4 3 3 0), (true, mk 0 0xE4 1 0xE4 3 3 0),
    (true, mk 0 0xE4 1 0xE4 3 3 0), (false, mk 0 0xE4 1 0xE4 3 3 0)].zipIdx.all (accOk storeRows) = true := by decide +kernel

theorem witness_AtomicsStart : [(false, mk 0 6 1 0xE4 3 7 0x0604), (false, mk 0 6 1 0xE4 3 7 0x0604), (true, mk 0 6 1 0xE4 3 7 0), (false, mk 0 6 1 8 3 7 0x54),
    (false, mk 0 6 1 8 10 7 0x54), (false, mk 0 0xE4 0xC1 0xE4 3 7 0)].zipIdx.all (accOk atomicRows) = true := by decide +kernel

/-- A load of an N address settles its lane; one of an address that no entry translates, where the walk does not stall, takes X in its lane. -/
theorem witness_AccessesBegin_lanes :
    let row (f : Fields) := (loadRows f)[0]?
    let f := mk 0 6 1 0xE4 0xE4 3 0
    let s (v : TWord) := wrReg (memAt specLd.op) 128 1 [(0, v)]
    [(⟨.n, 0⟩, true), (⟨.x, 0x1700000000001000⟩, true), (⟨.v, 0x10100⟩, false)].all (fun (e : TWord × Bool) =>
      match row f with
      | some r => issues r.spec f (s e.1) cu0 && !provisional (s e.1) 4 && (accessLanes r f (s e.1) cu0).all (fun l =>
          laneDecided (howLane r f (s e.1) cu0 l) && decide ((laneWord (howLane r f (s e.1) cu0 l)).isSome = e.2) &&
          decide ((laneAcc (howLane r f (s e.1) cu0 l)).isSome = !e.2))
      | none => false) = true := by decide +kernel

theorem witness_PoisonedAccesses :
    let row (f : Fields) := (storeRows f)[0]?
    let f := mk 0 0xE4 1 0xE4 3 3 0
    let s := wrReg (memAt specSt.op) 128 3 [(0, ⟨.x, 0x2800000000001000⟩)]
    (match row f with
     | some r => issues r.spec f s cu0 && !(getSplit s 128 0).sup && (accessLanes r f s cu0).all (fun l =>
         match lanePoison (howLane r f s cu0 l) with
         | some v => decide (payloadCause v ≠ causePoolLost ∧ payloadCause v ≠ causeMemUe)
         | none => false) && !(accessLanes r f s cu0).isEmpty && !((getWarp s 128).tvec.getLsbD 0 && (getWarp s 128).tvec.getLsbD 1)
     | none => false) = true := by decide +kernel

/-- One lane's access of 4 bytes at memory of die 0. -/
def accAt (key data : Nat) : Acc :=
  { lane := 0, va := key, key := key, size := 4, n := 1, sw := false, data := data, pol := 0, also := [], cmp := 0, ver := none, hand := none }

/-- No operation of the state is an arrival. -/
def noArrivals (s : State) : Bool := s.ops.all (fun e => match e.kind with | .arrive .. => false | _ => true)

/-- An access to memory, by its address. -/
def plain (s : State) (x : Acc) : Bool := decide (regOff (accKey s x) = none) && !tileGone s x && decide (x.given = none) && !handleRetired s x

/-- The accesses are the whole of the operation that a state holds, in a block whose writes are not held. -/
def performs (kind : OpKind) (cls : Counter) (xs : List Acc) : Bool :=
  let o := { opOf kind [(6, 0)] with cls := some cls }
  let s : State := { atOp 0 with ops := [o], nextOp := 2 }
  decide (findOp s o.id = some o) && decide (selectAccs s o 0xFFFFFFFF = xs) && xs.all (fun x => plain s x && !x.left.isEmpty && decide (x.lane < 32) &&
    !frozenKey s x.key && !lostKey s x.key && decide (dataFault s 4 (accKey s x) (x.size * x.n) = none)) &&
    s.prov.isEmpty && s.swc.isEmpty && !provisional s 4 && noArrivals s

theorem witness_LoadsComplete : performs (.load [accAt 0x30000 0] 3 6 1 none) .ld [accAt 0x30000 0] = true ∧
    (let y := accAt 0x30000 0
     let o := opOf (.load [y] 3 6 1 none) [(6, 0)]
     let s : State := { atOp 0 with ops := [o], poison := [(0x300, 1)] }
     decide (findOp s 1 = some o) && (dataFault s 4 (accKey s y) 4).isSome) = true := by decide +kernel

/-- Two lanes' words, apart from each other. -/
def twoLanes : List Acc := [accAt 0x30000 0x12345678, { accAt 0x30004 5 with lane := 31 }]

theorem witness_ManyLanes : performs (.load (twoLanes.map (fun x => { x with data := 0 })) 2 6 1 none) .ld (twoLanes.map (fun x => { x with data := 0 })) = true ∧
    performs (.store twoLanes none none none) .st twoLanes = true ∧ (twoLanes.map Acc.lane).Nodup ∧ (atOp 0).pkg.vrtab = 0 := by decide +kernel

theorem witness_StoresPerform : [accAt 0x30000 0x12345678, { accAt 0x30000 7 with also := [0x10000030000], left := [0, 1] }].all (fun x =>
    performs (.store [x] none none none) .st [x] && performs (.store [x] (some 4) none none) .st [x] &&
      x.left.all (fun j => !frozenKey (atOp 0) (pieceAt x j))) = true := by decide +kernel

/-- A store to a SW page, by policy 0, and released in the die's and in the package's scope: level 0, 1 and 2. -/
theorem witness_StoresToSwPages : [(none, 0), (some 3, 1), (some 4, 2)].all (fun (e : Option Nat × Nat) =>
    let x := { accAt 0x30000 7 with sw := true }
    let o := { opOf (.store [x] e.1 none none) [(6, 0)] with cls := some .st }
    let s : State := { atOp 0 with ops := [o], nextOp := 2 }
    performs (.store [x] e.1 none none) .st [x] && !x.whole && decide ((match e.1 with
      | some sc => scopeLevel sc
      | none => polLevel (pieceBase s o x 0) (opAgent s o) x.cls x.pol (pieceAt x 0)) = e.2)) = true := by decide +kernel

theorem witness_AtomicsPerform :
    let x := { accAt 0x30000 5 with cmp := 0 }
    let a (kind op : Nat) (d : Option Nat) : AtomArgs := { kind := kind, op := op, ty := 6, d := d, acq := false, rel := false, scope := 1, cond := false }
    ([0, 3, 4, 5].all (fun k => performs (.atomic [x] (a k 0 (some 6))) .ld [x] && performs (.atomic [x] (a k 6 none)) .st [x]) &&
      [0, 1].all (fun c => let y := { x with cmp := c }
        performs (.atomic [y] (a 1 0 (some 6))) .ld [y] && decide (decide (rdMem (atOp 0) 0x30000 4 = c) = (c == 0)))) = true := by decide +kernel

theorem witness_StreamsArm : [(specLdq, mk 0 0xE0 1 2 3 7 0), (specStq, mk 0 0xE1 1 2 3 7 0)].all (fun e =>
    let s := atOp e.1.op
    issues e.1 e.2 s cu0 && (activeLanes s cu0).all (fun l => decide ((inA e.1 e.2 s cu0 l).tag = .v) && decide ((inB e.1 e.2 s cu0 l).tag = .v) &&
      decide ((inC e.1 e.2 s cu0 l).tag = .v) && decide ((inA e.1 e.2 s cu0 l).data.toNat % tyBytes e.2.ty = 0) &&
      decide ((inB e.1 e.2 s cu0 l).data.toNat % tyBytes e.2.ty = 0))) = true := by decide +kernel

/-- A load stream of lane 0 over the placed page. -/
def streaming : State :=
  setQueue (one (atOp 0)) 128 0 0 { getQueue (atOp 0) 128 0 0 with kind := 1, ty := 7, addr := 0x10100, stride := 8, left := 4, toFetch := 4 }

theorem witness_StreamFetches : (fetchReady streaming 128 0 0 &&
    (let x := getQueue streaming 128 0 0
     let a := { agentOf streaming 128 (laneSup streaming 128 0) with denied := x.denied }
     match chkLane streaming a .load 0 x.addr (tyBytes x.ty) 1 0 0 0 with
     | .ok leaf acc =>
       let u := touchAll streaming a .load [(leaf, acc)]
       !ownedAgainst streaming (streamOp streaming 128 0 x acc) acc && !peerHeld streaming streaming.routes acc.key && !acc.sw &&
         decide (regOff (accKey u acc) = none) && !handleRetired u acc
     | _ => false)) = true := by decide +kernel

theorem witness_Maintenance : [(specWinv, mk 0 0xE4 0xC1 0xC2 0xC3 0 1), (specWbk, mk 0 0xE4 0xC1 0xC2 0xC3 0 1)].all (fun e => [0, 64].all (fun n =>
    let s := wrReg (atOp e.1.op) 128 0xC3 [(0, ⟨.v, n⟩)]
    issues e.1 e.2 s cu0 && decide ((inA e.1 e.2 s cu0 0).tag = .v) && decide ((inB e.1 e.2 s cu0 0).tag = .v) && decide (inC e.1 e.2 s cu0 0 = ⟨.v, n⟩))) = true := by
  decide +kernel

/-- A store of the placed warp's lane 0 that has not been performed. -/
def storing (op : BitVec 9) : State := { atOp op with ops := [{ opOf (.store [accAt 0x30000 7] none none none) [] with cls := some .st }], nextOp := 2 }

theorem witness_Fences :
    let f := mk 0 0xE4 0xE4 0xE4 0xE4 0 0x31
    (issues specFence f (atOp specFence.op) cu0 && fenceMet (atIssue (atOp specFence.op) cu0) 128 (getSplit (atOp specFence.op) 128 0).mask 3 &&
      issues specFence f (storing specFence.op) cu0 && !fenceMet (atIssue (storing specFence.op) cu0) 128 (getSplit (storing specFence.op) 128 0).mask 3 &&
      !provisional (storing specFence.op) 4 && (storing specFence.op).swc.isEmpty) = true := by decide +kernel

theorem witness_Channels :
    let s0 := atOp specChopen.op
    let f0 := mk 0 0xE4 0xC1 0xE4 0xE4 0 0
    let chan (op : BitVec 9) := setChan (atOp op) 128 0 1
    let busy (op : BitVec 9) : State := { chan op with ops := [{ opOf (.store [accAt 0x30000 7] none (some 0) none) [] with cls := some .st }], nextOp := 2 }
    (issues specChopen f0 s0 cu0 && decide ((inA specChopen f0 s0 cu0 0).tag = .v) && decide ((inA specChopen f0 s0 cu0 0).data.toNat < 8) &&
      decide (getChan s0 128 0 = 0) &&
      [specChfence, specChclose].all (fun x => [chan x.op, busy x.op].all (fun s => issues x (mk 0 0xE4 0xE4 0xE4 0xE4 0 0) s cu0 && decide (getChan s 128 0 ≠ 0)) &&
        (chanOps (chan x.op) 4 0).isEmpty && !(chanOps (busy x.op) 4 0).isEmpty)) = true := by decide +kernel

/-- The block's and its cluster's barriers with `n` arrivals in. -/
def barred (op : BitVec 9) (n : Nat) : State :=
  setCbar (setAo (atOp op) 4 0 { AObj.init with expected := 64, arrived := n }) 4 { AObj.init with expected := 64, arrived := n }

/-- The block is there, and the split's threads may arrive at object k. -/
def canArrive (s : State) (k : Nat) : Bool :=
  decide ((getBlock s 4).state = 1) && !(getBlock s 4).killed && !provisional s 4 && (accessOps s 128 (getSplit s 128 0).mask).isEmpty &&
    (activeLanes s cu0).all (fun l => !(objOf s 4 k).record.contains (lkey 128 l)) && decide (-2 ^ 31 ≤ (objOf s 4 k).due) &&
    decide ((objOf s 4 k).due < 2 ^ 31) && decide ((objOf s 4 k).arrived + laneCount (getSplit s 128 0).mask ≤ (objOf s 4 k).expected)

theorem witness_BarriersArrive : [(specBar, 1, 0), (specCbar, 2, 64)].all (fun e => [0, 32].all (fun n =>
    issues e.1 (mk 0 0xE4 0xE4 0xE4 0xE4 0 (BitVec.ofNat 16 e.2.1)) (barred e.1.op n) cu0 && canArrive (barred e.1.op n) e.2.2)) = true := by decide +kernel

theorem witness_ArrivalsReturnPhase : ([0, 32].all (fun n => can specBarr (mk 0 6 0xE4 0xE4 0xE4 0 1) && issues specBarr (mk 0 6 0xE4 0xE4 0xE4 0 1) (barred specBarr.op n) cu0 &&
      canArrive (barred specBarr.op n) 0) &&
    [0, 1].all (fun n =>
      let s := wrReg (setAo (atOp specAoarr.op) 4 3 { AObj.init with expected := 2 }) 128 0xC2 [(0, ⟨.v, n⟩)]
      issues specAoarr (mk 0 6 0xE4 0xC2 3 1 0) s cu0 && decide (inB specAoarr (mk 0 6 0xE4 0xC2 3 1 0) s cu0 0 = ⟨.v, n⟩) &&
        (accessOps s 128 (getSplit s 128 0).mask).isEmpty && decide ((getAo s 4 3).arrived + n.toNat ≤ (getAo s 4 3).expected))) = true := by decide +kernel

theorem witness_ObjectsSetUp :
    let s0 := wrReg (atOp specAoinit.op) 128 0xC2 [(0, ⟨.v, 65535⟩)]
    let s1 := setAo (wrReg (atOp specAoexp.op) 128 0xC2 [(0, ⟨.v, 0x7FFFFFFF⟩)]) 4 3 { AObj.init with due := -1 }
    let f := mk 0 0xE4 0xE4 0xC2 3 0 0
    (issues specAoinit f s0 cu0 && decide (inB specAoinit f s0 cu0 0 = ⟨.v, 65535⟩) && !engineNames s0 4 3 && (getAo s0 4 3).arrivals.isEmpty &&
      issues specAoexp f s1 cu0 && decide (inB specAoexp f s1 cu0 0 = ⟨.v, 0x7FFFFFFF⟩) && decide ((getAo s1 4 3).due = -1)) = true := by decide +kernel

theorem witness_PhaseWaits :
    let f (c : BitVec 8) := mk 0 6 0xE4 0xC2 c 1 0
    let s (ph : Bool) := setAo (atOp specAowt.op) 4 3 { AObj.init with phase := ph }
    let w (ph : Bool) (tag : Tag) := wrReg (setAo (atOp specBarw.op) 4 0 { AObj.init with phase := ph }) 128 0xC1 [(0, ⟨tag, 0⟩)]
    ([(false, Tag.v), (true, Tag.v), (false, Tag.n)].all (fun e => issues specBarw (mk 0 0xE4 0xC1 0xE4 0xE4 0 1) (w e.1 e.2) cu0 &&
        decide ((inA specBarw (mk 0 0xE4 0xC1 0xE4 0xE4 0 1) (w e.1 e.2) cu0 0).tag = e.2)) &&
      [(true, 3), (false, 3), (false, 67)].all (fun e => issues specAowt (f e.2) (s e.1) cu0 && decide (inB specAowt (f e.2) (s e.1) cu0 0 = ⟨.v, 0⟩))) = true := by
  decide +kernel

theorem witness_MonitoredWaits_start :
    let f := mk 0 6 1 2 3 7 1
    let s : State := { memAt specMwait.op with ops := [{ opOf (.store [accAt (placePage + 0x100) 7] none none none) [] with cls := some .st }], nextOp := 2 }
    let c := ctxOf specMwait f s cu0
    (issues specMwait f s cu0 && (lanesNow f s cu0).all (fun l =>
      match loadLane (atIssue s cu0) c [inA specMwait f s cu0 l, inB specMwait f s cu0 l, inC specMwait f s cu0 l] l (fun _ =>
        chkLane (atIssue s cu0) (agentC c (atIssue s cu0)) .load l (inA specMwait f s cu0 l).data (tyBytes f.ty) 1 0 0 0) with
      | .ok _ acc => decide (acc.lane = l) && s.ops.any (fun e => decide (e.id < s.nextOp ∧ e.w = 128) && (accsOfOp e).any (fun y => decide (y.lane = l) && overlap acc y))
      | _ => false)) = true := by decide +kernel

theorem witness_MonitorsRead_start :
    let f := mk 0 6 1 2 3 7 1
    let s := memAt specMwait.op
    let c := ctxOf specMwait f s cu0
    (issues specMwait f s cu0 && s.ops.isEmpty && s.swc.isEmpty && s.prov.isEmpty && !isQ f.d && (lanesNow f s cu0).all (fun l =>
      match loadLane (atIssue s cu0) c [inA specMwait f s cu0 l, inB specMwait f s cu0 l, inC specMwait f s cu0 l] l (fun _ =>
        chkLane (atIssue s cu0) (agentC c (atIssue s cu0)) .load l (inA specMwait f s cu0 l).data (tyBytes f.ty) 1 0 0 0) with
      | .ok _ acc => decide (acc.lane = l) && !acc.sw && decide (acc.ver = none) && decide (acc.key < regBase) && decide (dataFault s 4 acc.key (tyBytes f.ty) = none)
      | _ => false)) = true := by decide +kernel

/-- The placed split waits for an mwait of one lane on four bytes of memory, which compares equal to b. -/
def watching (b : Word) (limit : Option Nat) : State :=
  let m : MonLane := { acc := accAt 0x30000 0, b := b, limit := limit, last := 0, read := true, out := none }
  let s : State := { atOp 0 with ops := [{ opOf (.monitor [m] 6 3 0 1) [(6, 0)] with cls := none }], nextOp := 2 }
  setSplit s 128 0 { getSplit s 128 0 with susp := some (.op 1) }

def watchOf (s : State) : Option (Op × MonLane) :=
  match s.ops with
  | [o] => match o.kind with
    | .monitor [m] _ _ _ _ => some (o, m)
    | _ => none
  | _ => none

theorem witness_MonitoredWaits_end : [(0, none, true), (1, none, false), (1, some 0, false)].all (fun e =>
    let s := watching e.1 e.2.1
    match watchOf s with
    | some (o, m) => decide ((getSplit s 128 0).susp = some (.op o.id)) && decide (findOp s o.id = some o) && decide ((monRead s o 3 0 1 m).2.2.isSome = e.2.2)
    | none => false) = true := by decide +kernel

/-- Two lanes are watched, of which one compares, both or neither. -/
theorem witness_MonitorsRead_end : [[0, 1], [0, 0], [1, 1]].all (fun (bs : List Word) =>
    let m (l : Nat) (b : Word) : MonLane := { acc := { accAt (0x30000 + 4 * l) 0 with lane := l }, b := b, limit := none, last := 0, read := false, out := none }
    let ms : List MonLane := bs.zipIdx.map (fun e => m e.2 e.1)
    let s := setSplit ({ atOp 0 with ops := [{ opOf (.monitor ms 6 3 0 1) [(6, 0), (6, 1)] with cls := none, lanes := 3 }], nextOp := 2 } : State) 128 0
      { getSplit (atOp 0) 128 0 with susp := some (.op 1) }
    s.ops.all (fun o => decide ((getSplit s 128 0).susp = some (.op o.id)) && decide (findOp s o.id = some o) && decide (o.push = none) &&
      ms.all (fun x => plain s x.acc && decide (x.out = none) && accReady s o x.acc && decide (dataFault s 4 (accKey s x.acc) x.acc.size = none))) &&
    decide (s.ops.length = 1) && s.swc.isEmpty && s.prov.isEmpty && decide ((ms.map (fun (x : MonLane) => x.acc.lane) : List Nat).Nodup)) = true := by decide +kernel

/-- The placed split with a wait. -/
def waiting (x : Wait) (s : State) : State := setSplit s 128 0 { getSplit s 128 0 with susp := some x }

theorem witness_WaitsEnd :
    let many : State := { atOp 0 with ops := List.replicate 63 (opOf (.result []) []) }
    (decide ((getBlock (atOp 0) 4).state = 1) && countersMet (waiting (.counters 0 0 0 0) (atOp 0)) 128 0xFFFFFFFF 0 0 0 0 &&
      !countersMet (waiting (.counters 0 0 0 0) many) 128 0xFFFFFFFF 0 0 0 0 && decide (counterOf (waiting (.cap .ld) (atOp 0)) 128 0xFFFFFFFF .ld < 63) &&
      decide (¬counterOf (waiting (.cap .ld) many) 128 0xFFFFFFFF .ld < 63) && decide ((getCore (atOp 0) (coreOf (atOp 0) 128)).cyc < 9)) = true := by decide +kernel

/-- A wait is over, or is not. -/
def waitIs (s : State) (x : Wait) (met : Bool) : Bool :=
  decide ((getBlock (waiting x s) 4).state = 1) && decide ((getSplit (waiting x s) 128 0).susp = some x) && decide (waitMet (waiting x s) 128 0 x = some met)

theorem witness_OtherWaitsEnd :
    let s0 := atOp 0
    let busy (k : OpKind) : State := { s0 with ops := [{ opOf k [] with lanes := 0xFFFFFFFF }], nextOp := 2 }
    let ld := busy (.load [accAt 0x30000 0] 3 6 1 none)
    let ex := busy (.result [])
    let gone : State := { s0 with stalls := [{ die := 0, host := false, space := 0, va := 0x70000, kind := 1, req := none }] }
    (waitIs s0 (.queue [(0, 1)] []) true && waitIs (setQueue s0 128 5 0 { getQueue s0 128 5 0 with kind := 1 }) (.queue [(0, 1)] []) false &&
      waitIs s0 (.page 0 false 0 [0x70000] 1) true && waitIs gone (.page 0 false 0 [0x70000] 1) false && waitIs s0 (.frame [] 0) true &&
      waitIs s0 .commit true && waitIs ld .commit false && waitIs s0 (.resumed 3 true 1) true && waitIs s0 (.resumed 3 false 1) false &&
      [0, 3].all (fun k => waitIs s0 (.fence k 4) true && waitIs ld (.fence k 4) false) && waitIs s0 (.channel 0 true [1]) true && waitIs ex (.channel 0 false [1]) false &&
      waitIs s0 (.drain [1]) true && waitIs ex (.drain [1]) false && waitIs s0 (.aoinit 3 5) true &&
      waitIs s0 (.satisfied 3 (some 6) 1) true && waitIs s0 (.satisfied 3 none 1) true) = true := by decide +kernel

/-- A descriptor of 64 words of 32 bits in the placed page. -/
def boxDesc : Nat := 0x10100 + 2 * 2 ^ 64 + 2 ^ 68 + 64 * 2 ^ 128 + 2 ^ 152

def setTd (s : State) (b n d : Nat) : State := { s with tds := sset 0 s.tds (16 * b + n) d }

theorem witness_DescriptorSlots :
    let f0 := mk 0 0xE4 0xC1 0xE4 0xE4 5 0
    let s0 := wrMem (atOp specTdset.op) (tileBase 4) 128 boxDesc
    let f1 := mk 0 6 0xE4 0xE4 0xE4 5 0
    let s1 := setTd (atOp specTdget.op) 4 5 boxDesc
    let k : OpKind := .tdset 5 boxDesc
    (issues specTdset f0 s0 cu0 && !tileAccesses s0 128 (getSplit s0 128 0).mask && !tdBusy s0 4 [5] && decide (inA specTdset f0 s0 cu0 0 = ⟨.v, 0⟩) &&
      decide (inB specTdset f0 s0 cu0 0 = ⟨.v, 0⟩) && decide (rdMem s0 (tileBase 4) 128 = boxDesc) && tdValid boxDesc &&
      decide (findOp (withOp k []) 1 = some (opOf k [])) &&
      issues specTdget f1 s1 cu0 && !tdBusy s1 4 [5] && decide ((inB specTdget f1 s1 cu0 0).tag = .v) && decide (getTd s1 4 5 ≠ 0)) = true := by decide +kernel

/-- Descriptors 0 and 5 are loaded; s3 holds the extent 4, s8 the address of a stamp; objects 0 to 3 are there. -/
def copying (op : BitVec 9) : State := wrReg (wrReg (setTd (setTd (atOp op) 4 0 boxDesc) 4 5 boxDesc) 128 0xC3 [(0, ⟨.v, 4⟩)]) 128 0xC8 [(0, ⟨.v, 0x10200⟩)]

/-- The row's word starts a copy in the state. -/
def copyStarts (f : Fields) (s : State) (spec : OpSpec) (kind : Nat) : Bool :=
  let c := ctxOf spec f s cu0
  let u := atIssue s cu0
  let x := copyOf kind u c
  let sw := groupWords u c f.d 2
  issues spec f s cu0 && decide (coreCopies s (coreOf s 128) < 64) && !tdBusy s 4 (if kind = 4 then [mdN f, f.ty.toNat] else [mdN f]) && !provisional s 4 &&
    (copyWords kind u c).all (fun v => decide (v.tag = .v)) && decide (copyFault u c x = none) &&
    (decide (kind = 8) || (match copyWalk u (agentC c u) x (if kind = 7 then some ((sw.getD 0 TWord.zero).data.toNat, (sw.getD 1 TWord.zero).data.toNat) else none) with
      | (.ok _, _) => true
      | _ => false))

theorem witness_CopiesStart : [mk 0 0xE4 0xC1 0xE4 0xC3 0 0x1010, mk 0 0xE4 0xC1 0xE4 0xC3 0 0x1010, mk 0 0xE4 0xE4 0xE4 0xC3 5 0x1010, mk 0 1 0xC1 0xE4 0xC3 0 0x2010,
    mk 0 0xE4 0xC1 0xE4 0xC3 0 0x1010, mk 0 0xC8 0xC1 0xE4 0xC3 0 0x1000, mk 0 0xE4 0xE4 0xE4 0xC3 0 0].zipIdx.all (fun e =>
      match (copyRows e.1 (copying 0))[e.2]? with
      | some (_, spec, kind) => copyStarts e.1 (copying spec.op) spec kind
      | none => false) = true := by decide +kernel

/-- A copy of four words to the tile store, signalled on object 1. -/
def copyTo (kind : Nat) (todo : List Nat) : CopyOp :=
  { kind := kind, core := coreOf (atOp 0) 128, sup := false, desc := boxDesc, desc2 := 0, org := [0], org2 := [], ext := [4], off := 0, obj := 1, cb := none,
    mask := 1, scope := 1, tag := 0, pages := [], stamp := none, todo := todo, sent := [], elems := [], srcPages := [], flags := 0 }

/-- A box of one 8-byte word of two elements, which stand as given. -/
def copyWord (kind st : Nat) : CopyOp := { copyTo kind [] with ext := [2], elems := [(0, (st, 5)), (1, (st, 6))] }

/-- Where one piece can be performed, it comes next. -/
theorem next_of_pieces {s : State} {o : Op} {x : CopyOp} {p : Bool × Nat} (h : copyPieces s o x = [p]) : nextPieceOf s o x = some p := by
  simp [nextPieceOf, h, Nat.mod_one]

/-- The state in which a copy is the one operation. -/
def copyOps (x : CopyOp) : State :=
  setAo { atOp 0 with ops := [{ opOf (.copy x) [] with cls := some .cp }], nextOp := 2 } 4 1 { AObj.init with due := 16 }

theorem witness_CopiesComplete_early :
    let o := { opOf (.copy (copyTo 2 [])) [] with cls := some .cp }
    let early : State := { copyOps (copyTo 2 []) with ops := [{ opOf (.load [accAt 0x30000 0] 3 6 1 none) [] with id := 0 }, o] }
    (decide (findOp early 1 = some o) && !copyFree early o (copyTo 2 [])) = true := by decide +kernel

/-- The word of a tile-store source is read next; that of a tile-store destination is written next. -/
theorem witness_CopiesComplete_words : [(copyWord 3 0, false), (copyWord 2 1, true)].all (fun e => (copyOps e.1).ops.all (fun o =>
    decide (findOp (copyOps e.1) 1 = some o) && copyFree (copyOps e.1) o e.1 && decide (copyPieces (copyOps e.1) o e.1 = [(e.2, 0)]) &&
      (e.2 || fromTile e.1) && (!e.2 || !heldFor (copyOps e.1) 4)) && decide ((copyOps e.1).ops.length = 1)) = true := by decide +kernel

/-- Every element is written. -/
theorem witness_CopiesComplete_end :
    let x := copyWord 2 3
    ((copyOps x).ops.all (fun o => decide (findOp (copyOps x) 1 = some o) && copyFree (copyOps x) o x && decide (nextPieceOf (copyOps x) o x = none) &&
        decide (copyStall (copyOps x) o x = none)) && x.todo.isEmpty && decide (x.cb = none) && decide (x.stamp = none) && !heldFor (copyOps x) 4 &&
      decide ((getBlock (copyOps x) 4).state = 1) && !(getBlock (copyOps x) 4).killed && decide (x.obj ≠ 0) &&
      decide ((getAo (copyOps x) 4 1).arrived ≤ (getAo (copyOps x) 4 1).expected) && decide ((getAo (copyOps x) 4 1).due = 16) && decide (boxBytes boxDesc [2] = 8)) = true := by
  decide +kernel

/-- A multicast to ranks 0 and 1, of which block 5 is the second, with a box of one word or of two. -/
def casting (two : Bool) (todo : List Nat) : CopyOp :=
  { copyTo 5 todo with ext := if two then [4] else [2], elems := (List.range (if two then 4 else 2)).map (fun i => (i, (1, 7))) }

def castAt (x : CopyOp) : State :=
  let s := copyOps x
  setAo (setBlock s 5 { getBlock s 4 with rank := 1 }) 5 1 { AObj.init with due := 16 }

theorem witness_CopyDeliveries :
    let held (e : Fwd) : State := { atOp 0 with fwd := [(4, e)] }
    let one (e : Fwd) : Bool := decide ((getBlock (held e) 4).state = 1) && !(getBlock (held e) 4).killed && decide ((held e).fwd.filter (fun e => decide (e.1 = 4)) = [(4, e)])
    ([(false, 1), (true, 1), (false, 2)].all (fun (e : Bool × Nat) =>
        let x := casting e.1 [e.2]
        let s := castAt x
        s.ops.all (fun o => decide (findOp s 1 = some o) && x.todo.contains e.2 && copyFree s o x && allRead x &&
          decide (mcTarget s o x e.2 = if e.2 = 1 then some 5 else none)) && decide (s.ops.length = 1) && !heldFor s 5 &&
          decide ((mcLeft x e.2).length = if e.1 then 2 else 1) && decide ((getBlock s 5).state = 1) && !(getBlock s 5).killed &&
          decide ((getAo s 5 1).arrived ≤ (getAo s 5 1).expected) && decide ((getAo s 5 1).due = 16)) &&
      decide ((getBlock (atOp 0) 9).state ≠ 1) && one (.bytes 0 16 7) && one (.slot 2 0 8 0 1 []) && one (.obj 1 0 8 0 0 [])) = true := by decide +kernel

/-- Buffer 2 has two slots of 128 bytes, the first in the state given. -/
def ring (op : BitVec 9) (st : Nat) : State :=
  setCb (atOp op) 4 2 { base := 0, size := 128, res := 0, acq := 0, slots := [{ CbSlot.init with st := st }, CbSlot.init] }

theorem witness_CircularBuffers :
    let f0 := mk 0 0xE4 0xC1 0xC2 0xC3 0 2
    let s0 := wrReg (wrReg (atOp specCbinit.op) 128 0xC2 [(0, ⟨.v, 128⟩)]) 128 0xC3 [(0, ⟨.v, 64⟩)]
    let f1 (md : BitVec 16) := mk 0 0xC6 0xE4 0xE4 0xE4 0 md
    let f2 := mk 0 0xE4 0xC1 0xE4 0xE4 0 2
    (issues specCbinit f0 s0 cu0 && decide (inA specCbinit f0 s0 cu0 0 = ⟨.v, 0⟩) && decide (inB specCbinit f0 s0 cu0 0 = ⟨.v, 128⟩) &&
      decide (inC specCbinit f0 s0 cu0 0 = ⟨.v, 64⟩) && !bufferBusy s0 4 2 none &&
      [(specCbres, 0, 2), (specCbacq, 2, 2), (specCbres, 1, 2), (specCbacq, 1, 2), (specCbres, 1, 34), (specCbacq, 1, 34)].all (fun e =>
        issues e.1 (f1 (BitVec.ofNat 16 e.2.2)) (ring e.1.op e.2.1) cu0 && decide ((slotState (getCb (ring e.1.op e.2.1) 4 2) 0).st = e.2.1)) &&
      [(specCbcom, 1, 2), (specCbrel, 3, 4)].all (fun e =>
        let s := ring e.1.op e.2.1
        issues e.1 f2 s cu0 && decide (inA e.1 f2 s cu0 0 = ⟨.v, 0⟩) && decide (slotAt (getCb s 4 2) 0 = some 0) &&
          decide ((slotState (getCb s 4 2) 0).st = e.2.1) && bufferReady s 128 (getSplit s 128 0).mask 2 e.2.2 0)) = true := by decide +kernel

/-- The row's word enters a matrix operation. -/
def matrixStarts (f : Fields) (s : State) (spec : OpSpec) (kind : Nat) : Bool :=
  let c := ctxOf spec f s cu0
  let u := atIssue s cu0
  let x := mxOf kind u c
  issues spec f s cu0 && (!decide (kind = 5 ∨ kind = 8) || !isQ f.d) && !mxQueueFull s (coreOf s 128) kind && !provisional s 4 &&
    (mxWords kind u c).all (fun v => decide (v.tag = .v)) && decide (mxFault u c x = none) &&
    (decide (kind ≠ 6) || (activeLanes s cu0).all (fun l => decide ((inC spec f s cu0 l).tag ≠ .x))) &&
    (!decide (kind = 4 ∧ x.ts = false) || (match walkDst u (agentC c u) .store (tileElemBytes x.ty)
      ((mxRows x).flatMap (fun r => (List.range (mxRowBytes x / 256)).map (fun i => (mxRowVa x r + 256 * i) % 2 ^ 64))) [] none with
      | .ok _ => true
      | _ => false))

theorem witness_MatrixOperationsStart : [(mk 0 2 0xE4 0xE4 0xE4 9 0), mk 0 2 0xC1 0xC2 0xE4 8 0x80, mk 0 2 0xC1 0xC2 0xC3 8 0x80, mk 0 2 0xC1 0xC2 0xE4 9 0x11,
    mk 0 2 0xC8 0xC2 0xE4 9 0x10, mk 0 6 2 0xC2 0xE4 9 0, mk 0 2 0xE4 0xC2 1 9 0, mk 0 2 0xC1 0xE4 0xE4 9 0, mk 0 6 2 0xE4 0xE4 0 0].zipIdx.all (fun e =>
      match (matrixRows e.1)[e.2]? with
      | some (_, spec, kind) => matrixStarts e.1 (wrReg (wrReg (one (atOp spec.op)) 128 0xC3 [(0, ⟨.v, 2⟩)]) 128 0xC8 [(0, ⟨.v, 0x10200⟩)]) spec kind
      | none => false) = true := by decide +kernel

/-- A matrix operation on tile 2, of float32 rows. -/
def tileOp (kind : Nat) (started : Bool) : MxOp :=
  { mxOf kind (atOp 0) (ctxOf specAczero (mk 0 2 0xE4 0xE4 0xE4 9 0) (atOp 0) cu0) with started := started }

/-- The state in which a matrix operation is the one operation. -/
def mxState (m : MxOp) : State := { atOp 0 with ops := [{ opOf (.matrix m) [] with cls := some .ex }], nextOp := 2 }

/-- Some matrix operation on tile 2 is the state's one operation, in its unit, with the further conditions. -/
def served (m : MxOp) (p : State → Op → Bool) : Bool :=
  (mxState m).ops.all (fun o => decide (findOp (mxState m) 1 = some o) && mxCanComplete (mxState m) o m && decide (mxStall (mxState m) o m = none) &&
    !mxCanStart (mxState m) o m && !tilePoisoned (mxState m) 4 m.tile && !heldFor (mxState m) 4 && p (mxState m) o) && decide ((mxState m).ops.length = 1)

theorem witness_MatrixOperationsComplete :
    let m0 : MxOp := { tileOp 0 false with entry := 0 }
    let late : State := { mxState m0 with cores := sset CoreSt.init (atOp 0).cores 0 { getCore (atOp 0) 0 with cyc := 9 } }
    (late.ops.all (fun o => decide (findOp late 1 = some o) && mxCanStart late o m0) &&
      served { tileOp 7 true with count := 1, bias := true } (fun _ _ => true) && mxBusy { tileOp 7 true with count := 1, bias := true } &&
      !(mxUnread { tileOp 7 true with count := 1, bias := true } 0).isEmpty &&
      [0, 6, 7].all (fun k => let m := { tileOp k true with count := 1, bias := false, step := 0 }
        served m (fun _ _ => true) && mxBusy m && (mxUnread m m.step).isEmpty && decide ((m.data.map (·.1)).Nodup)) &&
      [3, 4].all (fun k => let m := { tileOp k true with count := 1, ts := true, step := 0, rows := 1 }
        served m (fun _ _ => true) && mxBusy m && !(mxUnmoved m).isEmpty) &&
      [5, 8, 0].all (fun k => let m := { tileOp k true with step := (tileOp k true).count, flags := 0 }
        served m (fun _ o => o.push.isNone) && !mxBusy m && decide (m.obj = 0))) = true := by decide +kernel

/-- A step all of whose words are there has nothing to read. -/
theorem mxUnread_all (m : MxOp) (i : Nat) : mxUnread { m with got := (mxStepWords m i).map (fun w => (mxKeyOf i w, 0)) } i = [] := by
  simp only [mxUnread, List.filter_eq_nil_iff]
  intro w hw
  simpa using ⟨w, List.mem_dedup.1 hw, rfl⟩

/-- A product of one step whose words are there. -/
theorem witness_MatrixOperationsComplete_step :
    served { tileOp 1 true with count := 1, step := 0 } (fun _ _ => true) = true ∧ mxBusy { tileOp 1 true with count := 1, step := 0 } = true := by decide +kernel

/-- Region 0 is active with one page, a VDB of one published frame, and a checkpoint descriptor; the steps below `step` are published, and
the pin table holds `pin`. -/
def regionAt (op : BitVec 9) (step pin : Nat) : State :=
  let s := wrMem (atOp op) 0x200000 64 (1 + 0x202000 * 2 ^ 64 + 0x204000 * 2 ^ 192 + 2 ^ 256 + step * 2 ^ 320 + 0x203000 * 2 ^ 384 + 0x201000 * 2 ^ 448)
  let s := wrMem s 0x201000 64 (5 * 2 ^ 192 + 2 * 2 ^ 224)
  let s := wrMem s 0x202000 64 ((2 ^ 55 + 0x40) * 2 ^ 32)
  let s := wrMem (wrMem s 0x203000 8 pin) 0x204000 4 0x41
  { s with pkg := { s.pkg with vrtab := 0x200000 },
           regions := sset none s.regions 0 (some { keep := 1, scope := 3, pins := 0x203000, cmap := 0x205000, vdbs := 0x202000, pages := 1,
                                                    pool := 0x204000, poolcap := 1, wstep := step, lastck := 0, csel := 0 }) }

/-- The page of the operand of a version instruction, when it passes. -/
def pageOk (x : VerPage) : Bool :=
  match x with
  | .page _ => true
  | _ => false

theorem witness_VersionRequests :
    let rg (spec : OpSpec) (v : Word) := wrReg (regionAt spec.op 3 0) 128 0xC1 [(0, ⟨.v, v⟩)]
    let page (spec : OpSpec) (f : Fields) (k : AKind) : Bool := let s := rg spec 0x10100
      issues spec f s cu0 && decide (inA spec f s cu0 0 = ⟨.v, 0x10100⟩) && decide ((inB spec f s cu0 0).tag = .v) && !provisional s 4 &&
        pageOk (verPage (atIssue s cu0) (agentC (ctxOf spec f s cu0) (atIssue s cu0)) 0x10100 k)
    let hand (spec : OpSpec) (f : Fields) : Bool :=
      issues spec f (rg spec 1) cu0 && decide (inA spec f (rg spec 1) cu0 0 = ⟨.v, 1⟩) && !badHandle (atIssue (rg spec 1) cu0) 1
    (page specVopen (mk 0 6 0xC1 0xE4 0xE4 0 1) .load && page specVpub (mk 0 6 0xC1 0xE4 0xE4 0 0) .store &&
      decide (activeRegion (rg specVpub 0x10100) (some 0) = some 0) && decide (rgWstep (rdRegion (rg specVpub 0x10100) 0) = 3) && !stepsTaken (rg specVpub 0x10100) 0 && hand specVclose (mk 0 0xE4 0xC1 0xE4 0xE4 0 0) &&
      page specVinfo (mk 0 6 0xC1 0xC2 0xE4 1 0) .load && hand specCkpt (mk 0 6 0xC1 0xE4 0xE4 0 1)) = true := by decide +kernel

theorem witness_VersionRequests_ckwait : [(0, none, 0, some 5), (2, none, 0, some 0), (2, some { step := 1, full := true, half := 0, pinned := false }, 0, none),
    (2, some { step := 1, full := true, half := 0, pinned := false }, 1, none)].all (fun (e : Word × Option CkRun × BitVec 16 × Option Word) =>
      let s0 := wrReg (regionAt specCkwait.op 3 0) 128 0xC1 [(0, ⟨.v, e.1⟩)]
      let s := setCk s0 0 { getCk s0 0 with run := e.2.1 }
      let f := mk 0 6 0xC1 0xE4 0xE4 0 e.2.2.1
      issues specCkwait f s cu0 && decide (inA specCkwait f s cu0 0 = ⟨.v, e.1⟩) && decide (rgCkdesc (rdRegion s 0) ≠ 0) && decide (e.1.toNat ≤ ckCseq (ckDesc s 0)) &&
        decide (ckStatus s 0 e.1.toNat = e.2.2.2)) = true := by decide +kernel

/-- A request of the kind given, of region 0. -/
def asking (kind step : Nat) (region : Option Nat) : VerOp := { kind := kind, flag := false, sel := 1, region := region, step := step, d := 6, lanes := [0] }

theorem witness_OtherWaitsEnd_versions :
    let run (r : Option CkRun) := setCk (regionAt 0 3 0) 0 { getCk (regionAt 0 3 0) 0 with run := r }
    (waitIs (run none) (.ckwait 0 2) true && waitIs (run (some { step := 1, full := true, half := 0, pinned := false })) (.ckwait 0 2) false &&
      waitIs (regionAt 0 3 0) (.frame [(0x202000, 0, 0x10100)] 0) false) = true := by decide +kernel

theorem witness_VersionServices :
    let pin := addPin (regionAt 0 3 0)
    (decide (findOp (withOp (.version (asking 0 0 none)) [(6, 0)]) 1 = some (opOf (.version (asking 0 0 none)) [(6, 0)])) &&
      decide (activeRegion (regionAt 0 3 0) none = none) && decide (activeRegion (regionAt 0 3 0) (some 0) = some 0) &&
      decide (rgWstep (rdRegion (regionAt 0 3 0) 0) = 3) && !stepLive (regionAt 0 3 0) 0 1 && stepLive (regionAt 0 3 0) 0 2 && (pin 0 2).isSome &&
      (addPin (regionAt 0 3 (2 + 65535 * 2 ^ 32)) 0 2).isNone && stepLive (regionAt 0 3 (2 + 65535 * 2 ^ 32)) 0 2 &&
      decide (findOp (withOp (.version (asking 4 0 (some 0))) [(6, 0)]) 1 = some (opOf (.version (asking 4 0 (some 0))) [(6, 0)])) &&
      decide (findOp (withOp (.version (asking 2 0 (some 0))) [(6, 0)]) 1 = some (opOf (.version (asking 2 0 (some 0))) [(6, 0)])) &&
      [none, some 0].all (fun g =>
        let o := opOf (.version (asking 2 0 g)) [(6, 0)]
        let s : State := { regionAt 0 3 0 with ops := [o], nextOp := 2 }
        decide (findOp s 1 = some o) && vpubReady s o (asking 2 0 g))) = true := by decide +kernel

theorem witness_FramesAndCheckpoints :
    let s : State := { regionAt 0 3 0 with ops := [{ opOf (.store [{ accAt 0x410000 7 with ver := some (0x202000, 0) }] none none none) [] with cls := some .st }] }
    (decide (0x202000 ∈ framesWanted s) && (match allocFrame s 0x202000 with | .ok _ => true | .error _ => false) &&
      (getCk (setCk s 0 { getCk s 0 with run := some { step := 1, full := true, half := 0, pinned := false } }) 0).run.isSome &&
      (getRegion s 0).isSome && decide (rgCkdesc (rdRegion s 0) ≠ 0) && decide (bitsOf (ckDesc s 0) 223 192 ≠ 0)) = true := by decide +kernel

/-- A ckpt of region 0, whose working step is 3, with a checkpoint descriptor of the kind given. -/
def ckAsked (kind step : Nat) (run : Option CkRun) : State :=
  let s := wrMem (regionAt 0 3 0) 0x201000 4 kind
  let o := opOf (.version (asking 5 step (some 0))) [(6, 0)]
  setCk { s with ops := [o], nextOp := 2 } 0 { getCk s 0 with run := run }

/-- The operation of a state is a version operation with the condition. -/
def asks (s : State) (p : Op → VerOp → Bool) : Bool :=
  decide (s.ops.length = 1) && s.ops.all (fun o => decide (findOp s o.id = some o) && o.push.isNone && (match o.kind with
    | .version v => p o v
    | _ => false))

theorem witness_StepServices :
    let run : CkRun := { step := 1, full := true, half := 0, pinned := false }
    let away : State := { ckAsked 1 2 none with mgmt := { (ckAsked 1 2 none).mgmt with absent := 2 ^ 64 - 1 } }
    ([(1, 1, none), (1, 2, some run), (0, 2, none), (1, 2, none)].all (fun (e : Nat × Nat × Option CkRun) => let s := ckAsked e.1 e.2.1 e.2.2
        asks s (fun _ v => homeOn s v && decide (v.kind = 5) && decide (v.region = some 0) && decide ((v.step + 1 = rgWstep (rdRegion s 0)) = (e.2.1 = 2)) &&
          (decide (e.2.1 = 1) || decide (ckActive s 0 = e.2.2.isSome)) && decide ((ckKind (ckDesc s 0) = 0) = (e.1 = 0)) && decide (rgCkdesc (rdRegion s 0) ≠ 0))) &&
      asks away (fun _ v => !homeOn away v) &&
      (let s : State := { regionAt 0 3 0 with ops := [opOf (.version (asking 2 0 (some 0))) [(6, 0)]], nextOp := 2 }
       asks s (fun o v => vpubReady s o v && decide (activeRegion s v.region = some 0) && s.swc.isEmpty && s.prov.isEmpty))) = true := by decide +kernel

theorem witness_PinServices :
    let at_ (v : VerOp) (pin : Nat) : State := { regionAt 0 3 pin with ops := [opOf (.version v) [(6, 0)]], nextOp := 2 }
    ([(asking 0 3 (some 0), 0), (asking 0 1 (some 0), 0), (asking 0 2 (some 0), 0), (asking 0 2 (some 0), 2 + 65535 * 2 ^ 32), (asking 0 0 none, 0),
      (asking 3 2 (some 0), 2 + 2 ^ 32), (asking 3 2 (some 0), 0), (asking 4 0 (some 0), 0)].all (fun (e : VerOp × Nat) =>
        asks (at_ e.1 e.2) (fun _ v => homeOn (at_ e.1 e.2) v && decide (v = e.1)) && (at_ e.1 e.2).swc.isEmpty) &&
      decide (pinOf (at_ (asking 0 2 (some 0)) 0) 0 2 = none) && (pinOf (at_ (asking 3 2 (some 0)) (2 + 2 ^ 32)) 0 2).isSome) = true := by decide +kernel

/-- A ray context is bound; v1 to v9 hold words of a ray with a direction. -/
def rayState (op : BitVec 9) : State :=
  let s := one (atOp op)
  wrReg (setWarp s 128 { getWarp s 128 with ray := some { root := 0x10101, handle := 0, ctl := 0 }, rayCyc := 9 }) 128 3 [(0, ⟨.v, 0x3F800000⟩)]

/-- The words of a group of registers of lane 0 are not X. -/
def notPoison (s : State) (code : BitVec 8) (n : Nat) : Bool := (wordsAt s cu0 code n 0).all (fun x => decide (x.tag ≠ .x))

theorem witness_QueriesStart :
    let fb := mk 0 0xE4 0xC1 0xC2 0xC3 0 0
    let sb := wrReg (atOp specRtbind.op) 128 0xC1 [(0, ⟨.v, 0x10101⟩)]
    let ft := mk 0 0xE4 1 0xE4 0xE4 0 0
    let s := rayState specRtrace.op
    let bare := setWarp s 128 { getWarp s 128 with ray := none, rayPrev := none }
    let sick := wrReg s 128 2 [(0, ⟨.x, 0x2800000000001000⟩)]
    (issues specRtbind fb sb cu0 && decide (inA specRtbind fb sb cu0 0 = ⟨.v, 0x10101⟩) && decide (inC specRtbind fb sb cu0 0 = ⟨.v, 0⟩) && !bindBad 0x10101 0 0 &&
      issues specRtrace ft s cu0 && (boundCtx (getWarp s 128) (issueTime s 128 0)).isSome && notPoison s 1 4 && rayValid (joinRay (wordsAt s cu0 1 4 0)) &&
      !rayValid (joinRay (wordsAt (atOp specRtrace.op) cu0 1 4 0)) && issues specRtrace ft bare cu0 && notPoison bare 1 4 && !(getSplit bare 128 0).sup &&
      decide (boundCtx (getWarp bare 128) (issueTime bare 128 0) = none) && issues specRtrace ft sick cu0 && !notPoison sick 1 4 &&
      !((getWarp sick 128).tvec.getLsbD 0 && (getWarp sick 128).tvec.getLsbD 1)) = true := by decide +kernel

/-- The query of lane 0 is as given. -/
def asked (op : BitVec 9) (q : Query) : State := setQuery (rayState op) 128 0 q

theorem witness_QueriesAnswer :
    let fr := mk 0 6 0xE4 0xE4 0xE4 0 0
    let fa := mk 0 0xE4 1 0xE4 0xE4 0 0
    let due : Query := { Query.idle with st := 1, any := true }
    (issues specRtacc fa (rayState specRtacc.op) cu0 && decide ((inA specRtacc fa (rayState specRtacc.op) cu0 0).tag ≠ .x) && !lanePending (rayState specRtacc.op) 128 0 1 &&
      [specRtres, specRtcand].all (fun x => issues x fr (rayState x.op) cu0 && issues x fr (asked x.op due) cu0) &&
      [1, 2].all (fun k => needsPass k due && !needsPass k Query.idle)) = true := by decide +kernel

/-- A ray with a direction, in a query whose operation of a kind is the one of the state. -/
def tracing (kind : Nat) (q : Query) (ls : List Nat) : State :=
  setQuery { rayState 0 with ops := [{ opOf (.ray kind 6 ls []) [] with cls := some .ex }], nextOp := 2 } 128 0 q
def straight (st : Nat) : Query :=
  { queryOf { root := 0x10101, handle := 0, ctl := 0 } (mk 0 0xE4 1 0xE4 0xE4 0 0) false (0x3F800000 * 2 ^ 128 + 0x3F800000 * 2 ^ 224) with st := st }

theorem witness_QueriesRun :
    let on (s : State) (p : Op → Bool) : Bool := decide (s.ops.length = 1) && s.ops.all (fun o => decide (findOp s o.id = some o) && p o)
    ([0, 1, 2].all (fun k => let s := tracing k (straight 1) [0]
        on s (fun o => decide (laneOp s 128 0 = some (o, k)) && !rayEarlier s o 0 && needsPass k (getQuery s 128 0) &&
          (match passStep s (rayAgent s o (getQuery s 128 0)) o.routes (getQuery s 128 0) with
           | .ok _ _ => true
           | _ => false) && decide ((getQuery s 128 0).walk = none) && !(getQuery s 128 0).pred)) &&
      (let s := tracing 0 (straight 3) [0]; on s (fun o => decide (laneOp s 128 0 = some (o, 0)) && decide ((getQuery s 128 0).st ≠ 1))) &&
      [1, 2].all (fun k => (let s := tracing k (straight 3) []; on s (fun o => o.push.isNone)) &&
        (let s := tracing k (straight 3) [0]; on s (fun o => !lanePending s 128 0 o.id && !needsPass k (getQuery s 128 0))))) = true := by decide +kernel

theorem witness_RayTestsAndHints :
    let fb := mk 0 12 1 5 0xE4 0 0
    (issues specRtbox fb (rayState specRtbox.op) cu0 && notPoison (rayState specRtbox.op) 1 4 && notPoison (rayState specRtbox.op) 5 3 &&
      issues specRttri fb (rayState specRttri.op) cu0 && notPoison (rayState specRttri.op) 5 5 &&
      issues specLhtinv (mk 0 0xE4 0xE4 0xE4 0xE4 0 0x0010) (atOp specLhtinv.op) cu0 && can specLhtstat (mk 0 6 0xE4 0xE4 0xE4 0 0x0013) &&
      decide (findOp (withOp (.result [(6, 0, ⟨.v, 5⟩)]) [(6, 0)]) 1 = some (opOf (.result [(6, 0, ⟨.v, 5⟩)]) [(6, 0)]))) = true := by decide +kernel

/-- The placed block is a dispatcher's. -/
def dispAt (op : BitVec 9) : State := setBlock (atOp op) 4 { getBlock (atOp op) 4 with disp := true }

/-- A launch whose record has been read, on die 0. -/
def spawned (rec : Nat) : SpawnOp :=
  { a := 0x10100, b := 0x100000000, c := 0, try_ := true, nfy := false, regs := [], d := 0xC6, share := none, rcd := some rec, desc := [], mask := 0 }

theorem witness_MailboxesAndSpawns :
    let fs := mk 0 0xE4 0xC1 2 0xE4 0 0
    let ss := wrReg (atOp specMbsend.op) 128 2 [(0, ⟨.v, 16⟩)]
    let fp := mk 0 0xC6 0xC1 0xC2 0xC3 0 0
    let fg := mk 0 0xE4 0xC1 0xC2 0xE4 0 2
    let sg := wrReg (dispAt specRgn.op) 128 0xC2 [(0, ⟨.v, 0x1000000000000⟩)]
    (issues specMbrecv (mk 0 6 0xE4 0xE4 0xE4 0 0) (dispAt specMbrecv.op) cu0 && (List.range 8).all (fun l => activeIn (dispAt specMbrecv.op) cu0 l) &&
      issues specMbsend fs ss cu0 && (List.range 8).all (fun l => activeIn ss cu0 l && decide ((inB specMbsend fs ss cu0 l).tag = .v)) && !provisional ss 4 &&
      decide (inA specMbsend fs ss cu0 0 = ⟨.v, 0⟩) && decide ((inB specMbsend fs ss cu0 0).data = 16) &&
      issues specSpawn fp (dispAt specSpawn.op) cu0 && decide (inC specSpawn fp (dispAt specSpawn.op) cu0 0 = ⟨.v, 0⟩) &&
      issues specRgn fg sg cu0 && decide (inB specRgn fg sg cu0 0 = ⟨.v, 0x1000000000000⟩) && decide ((sget [] sg.rgns (dieOf sg 128)).length < 8)) = true := by
  decide +kernel

theorem witness_MailboxesAndSpawns_delivery :
    let send := withOp (.mbsend 0 [16]) []
    let p (t : Word) : Packet := { words := [t, 0x10100], scope := 3, marks := [], mask := 0 }
    let mail (t : Word) : State := setMail (atOp 0) 0 [p t]
    let own : State := { setMail (withOp (.mbrecv 6) [(6, 0)]) 0 [p 16] with ownProg := sset false [] 0 true }
    let spawn (rec : Nat) : State := withOp (.spawn (spawned rec)) [(0xC6, 0)]
    let full (rec : Nat) : State := { spawn rec with ops := [opOf (.spawn { spawned rec with regs := List.replicate 4097 (0, 1, 1) }) [(0xC6, 0)]] }
    (decide (findOp send 1 = some (opOf (.mbsend 0 [16]) [])) && send.ops.all (sendReady send) && recvReady (mail 1) 0 && decide (getMail (mail 1) 0 = [p 1]) &&
      decide (packetType (p 1) = 1) && !sget false (mail 1).ownProg 0 && recvReady own 0 && sget false own.ownProg 0 && (oldestRecv own 0).isSome &&
      decide (sget [] own.mailOut 0 = []) && decide ((spawnOps (atOp 0) 0) = []) &&
      (match spawnOps (spawn 0) 0 with
       | [(_, x)] => decide (x.rcd = some 0) && nodeRoom (spawn 0) 0 x.regs.length
       | _ => false) &&
      (match spawnOps (full 0) 0 with
       | [(_, x)] => x.try_ && !nodeRoom (full 0) 0 x.regs.length
       | _ => false)) = true := by decide +kernel

/-- A node of die 0 that launches one block of one warp with 24 registers and `tsk` KiB of tile store, with priority `prio`. -/
def aNode (prio tsk : Nat) : Node :=
  { id := 0, die := 0, lrec := 0x10100,
    rcd := 0x10000 + prio * 2 ^ 64 + 3 * 2 ^ 72 + 3 * 2 ^ 128 + tsk * 2 ^ 133 + (2 * 2 ^ 27 + 2 ^ 24 + 1) * 2 ^ 192 + (2 ^ 27 + 1) * 2 ^ 224 + 32 * 2 ^ 256,
    asid := 0, first := 0, count := 1, next := 0, dropped := [], attempt := 0, avoid := 0, nfy := false, mask := 0, regs := [], deps := [], graph := none, gidx := 0,
    batch := [], marks := [], after := false, done := 0, ended := 0, saved := [], races := 0, out := [], code := 0, killed := false, denied := [] }

def withNode (n : Node) (s : State) : State := setNode s 1 (some n)

theorem witness_BlocksStartAndEnd :
    let s := withNode (aNode 0 4) (atOp 0)
    let done := withNode { aNode 0 4 with ended := 1, done := 1 } (atOp 0)
    let ended := setWarp (atOp 0) 128 { getWarp (atOp 0) 128 with splits := [] }
    ((match findPlace s (readyNodes s 0) with
      | some (num, n, [_]) => decide (num = 1) && n.saved.isEmpty && decide (newGroups n = [[0]])
      | _ => false) && (findPlace (atOp 0) (readyNodes (atOp 0) 0)).isNone &&
      !blockOver (atOp 0) 4 && blockOver ended 4 && !relaunches (getBlock ended 4) &&
      (match nodeById s 0 0 with
       | some (_, n) => !nodeOver s n
       | none => false) &&
      (match nodeById done 0 0 with
       | some (num, n) => nodeOver done n && !isBatch n && (match retireNode done num n with | .ok _ => true | .error _ => false)
       | none => false)) = true := by decide +kernel

/-- A graph of one record-fed node on die 0: four records of 64 bytes, of which `q` are queued, `b` to a batch; block 4 holds record 3. -/
def aGraph (q b : Nat) (rest : Graph → Graph) : Graph := rest
  { die := 0, root := 1, asid := 0, pool := 0x40000, rcores := 1, ready := false,
    nodes := [{ quota := 4, size := 64, batch := b, timeout := 0, lrec := 0, rcd := 0, closed := false,
                queue := (List.range q).map (fun i => { idx := i, at_ := 0, marks := [] }) }],
    recs := (List.range q).map (fun i => (65536 + i, (2, 0))) ++ [(65539, (1, 4))], reqs := [], cuts := 0 }

/-- Block 4 is the root of the graph, or of a batch of it with records 0 and 2. -/
def inGraph (s : State) (g : Graph) (batch : Bool) : State :=
  let n : Node := { aNode 0 4 with graph := some 7, gidx := if batch then 1 else 0, batch := if batch then [0, 2] else [] }
  setGraph (setNode (setBlock s 4 { getBlock s 4 with node := 1 }) 1 (some n)) 7 (some g)

theorem witness_GraphRecords_issue :
    let g := aGraph 0 3 id
    let fa (md : BitVec 16) := mk 0 6 1 0xE4 0xE4 0 md
    let ask (n : Word) := wrReg (inGraph (one (atOp specRalloc.op)) g false) 128 1 [(0, ⟨.v, n⟩)]
    let fs := mk 0 0xE4 1 0xE4 0xE4 0 0
    let held (op : BitVec 9) := wrReg (inGraph (one (atOp op)) g false) 128 1 [(0, ⟨.v, 0x400C0⟩)]
    let rb := wrReg (wrReg (inGraph (atOp specRbatch.op) g false) 128 0xC1 [(0, ⟨.v, 1⟩)]) 128 0xC2 [(0, ⟨.v, 64⟩)]
    ([0, 1].all (fun md => issues specRalloc (fa md) (ask 1) cu0) && ((blockGraph (ask 1) 4).map (·.1) == some 7) &&
      decide (rallocCheck (some (7, g)) 0 [(0, (1 : Word))] = none) && canGrant g [(0, 1)] && !canGrant (aGraph 3 3 id) [(0, 1)] &&
      [specRsub, specRfree].all (fun x => issues x fs (held x.op) cu0 && decide ((inA x fs (held x.op) cu0 0).data = 0x400C0) && !provisional (held x.op) 4) &&
      [false, true].all (fun b => (badRecords (recordUsable (held 0) 7 g 4 b) [] [(0, 0x400C0)]).isEmpty) &&
      issues specRbatch (mk 0 0xE4 0xC1 0xC2 0xE4 0 0) rb cu0 && ((batchGraph rb 128).map (·.1) == some 7)) = true := by decide +kernel

theorem witness_GraphRecords_arrival :
    let s (kind : Nat) (g : Graph) : State :=
      { inGraph (atOp 0) g false with ops := [{ opOf (.record kind 7 (if kind = 1 then [] else [0x400C0]) 1 2 9) [] with cls := some .ex }], nextOp := 2 }
    let early : State := { s 0 (aGraph 0 3 id) with ops := [opOf (.load [accAt 0x30000 0] 3 6 1 none) [], { opOf (.record 0 7 [0x400C0] 0 0 0) [] with id := 2 }] }
    ([(0, 0, 3), (0, 1, 1), (1, 1, 3), (1, 2, 3), (3, 0, 3)].all (fun (e : Nat × Nat × Nat) => let g := aGraph e.2.1 e.2.2 id
        (s e.1 g).ops.all (fun o => decide (findOp (s e.1 g) 1 = some o) && recordReady (s e.1 g) o) && decide (getGraph (s e.1 g) 7 = some g) &&
          !(getBlock (s e.1 g) 4).killed && (graphChange (s e.1 g) 7 g).isNone && decide ((dieNodes (s e.1 g) 0).length < 1024) &&
          decide (recordAt g 0x400C0 = some (1, 3)) && (gnode g 1).any (fun x => !x.closed)) &&
      early.ops.any (fun o => decide (findOp early 2 = some o) && !recordReady early o)) = true := by decide +kernel

theorem witness_GraphRecords_due :
    let asked : State := waiting .records (inGraph (atOp 0) (aGraph 0 3 (fun g => { g with reqs := [{ w := 128, k := 0, asks := [(0, 1)], d := 6 }] })) false)
    let timed : State := inGraph (atOp 0) (aGraph 2 3 (fun g => { g with nodes := g.nodes.map (fun n => { n with timeout := 1 }) })) false
    let late : State := { timed with cores := sset CoreSt.init timed.cores 0 { getCore timed 0 with cyc := 9 } }
    let batch := inGraph (atOp specRfetch.op) (aGraph 0 3 id) true
    let f := mk 0 6 1 0xE4 0xE4 0 0
    ((grantable asked).isSome && (grantable (atOp 0)).isNone && (timedOut late).isSome && (timedOut (atOp 0)).isNone && (reservable timed).isSome &&
      (reservable (atOp 0)).isNone && issues specRfetch f batch cu0 && ((blockNode batch 4).map isBatch == some true) && (blockGraph batch 4).isSome &&
      (let s := withNode (aNode 0 4) (atOp specLvcoord.op)
       let s := setBlock s 4 { getBlock s 4 with node := 1 }
       issues specLvcoord (mk 0 6 0xE4 0xE4 0xE4 0 2) s cu0 && decide (2 < rcNlev (((blockNode s 4).map (fun n => n.rcd)).getD 0)))) = true := by decide +kernel

/-- Die 0 has two save slots. -/
def slots (s : State) : State := { s with dies := sset DieSt.init s.dies 0 { sget DieSt.init s.dies 0 with ccnt := 2, csave := 0x300000 } }

theorem witness_PriorityPreemptions :
    let s0 := slots (atOp 0)
    let want : State := { withNode (aNode 1 512) (slots (atOp 0)) with growQ := (List.range 47).map (fun i => { core := i + 1, w := 128, k := 0, kind := 0, total := 0, d := 6, word := 0 }) }
    let req (hold : Bool) : SaveReq := { die := 0, blks := [(4, 0)], hold := hold, who := none }
    let saving (hold : Bool) : State := { s0 with saves := [req hold], cur := none }
    ((priorityPreempt s0).isNone && [true, false].all (fun h => decide (dwsSave (saving h) = some (req h)) && !(getBlock (saving h) 4).killed) &&
      decide (dwsSave want = none) && decide (preemptOn want 0 = some 4) && decide ((matesOf want 4).length ≤ (openSlots want 0).length)) = true := by
  decide +kernel

/-- The placed split is in a handler. -/
def handled (op : BitVec 9) (retry : Mask) (word : Word) (lanes : Mask) : State :=
  let h : Handler := { sup := false, fromSup := false, retry := retry, tmask := lanes, far := 0, pc := 0x10010, rem := 2, wpos := 0, cls := 1, ext := 0, header := false, count := 0,
                       word := word }
  let s := setWarp (atOp op) 128 { getWarp (atOp op) 128 with tinfo := word, tmask := lanes.setWidth 64 }
  setSplit s 128 0 { getSplit s 128 0 with hs := [h] }

theorem witness_HandlersReturn :
    let f (md : BitVec 16) := mk 0 0xE4 (if md = 2 then 0xC1 else 0xE4) 0xE4 0xE4 0 md
    let s (retry : Mask) := handled specTret.op retry 0 0xFFFFFFFF
    let word (d : BitVec 8) : Word := wordOf 0x080 (mk 0 d 1 2 0xE4 3 0)
    (issues specTret (f 0) (s 0xFFFFFFFF) cu0 && decide ((getSplit (s 0xFFFFFFFF) 128 0).mask &&& ~~~0xFFFFFFFF = 0) &&
      issues specTret (f 0) (s 0) cu0 && decide ((getSplit (s 0) 128 0).mask &&& ~~~(0 : Mask) ≠ 0) &&
      issues specTret (f 0) (s 0xFFFF) cu0 && decide ((getSplit (s 0xFFFF) 128 0).mask &&& 0xFFFF ≠ 0) && decide ((getSplit (s 0xFFFF) 128 0).mask &&& ~~~0xFFFF ≠ 0) &&
      (List.range 32).any (fun k => decide ((getSplit (s 0xFFFF) 128 k).mask = 0)) && issues specTret (f 1) (s 0) cu0 && issues specTret (f 2) (s 0) cu0 &&
      decide (inA specTret (f 2) (s 0) cu0 0 = ⟨.v, 0⟩) &&
      [(0xE4, 1), (6, 1), (0xC6, 0xC1)].all (fun (e : BitVec 8 × BitVec 8) => issues specTfix (mk 0 0xE4 e.2 0xE4 0xE4 0 0) (handled specTfix.op 0 (word e.1) 0xFF) cu0 &&
        decide (trapD (word e.1) = e.1.toNat) && decide (groupSize (word e.1) = 1)) && decide ((getWarp (handled specTfix.op 0 0 0) 128).vregs = 192)) = true := by
  decide +kernel

theorem witness_SupervisorRegisters : (issues specCsrr (mk 0 6 0xE4 0xE4 0xE4 0 0x10) (supAt specCsrr.op) cu0 &&
    [Tag.v, Tag.n].all (fun tag => let s := wrReg (supAt specCsrw.op) 128 0xC1 [(0, ⟨tag, 0xFF⟩)]
      issues specCsrw (mk 0 0xE4 0xC1 0xE4 0xE4 0 0x10) s cu0 && decide ((inA specCsrw (mk 0 0xE4 0xC1 0xE4 0xE4 0 0x10) s cu0 0).tag = tag)) && csrKnown 0x10) = true := by
  decide +kernel

/-- s1 holds the address of the placed page; a replica set names it and a frame of every other die; the page is that set where `rep`. -/
def paged (op : BitVec 9) (rep : Bool) : State :=
  let s := wrReg (supAt op) 128 0xC1 [(0, ⟨.v, 0x10100⟩)]
  let s := wrMem s 0x400000 64 (1 + 0x11 * 2 ^ 64 + (0x11 + 2 ^ 24) * 2 ^ 128 + (0x11 + 2 * 2 ^ 24) * 2 ^ 192 + (0x11 + 3 * 2 ^ 24) * 2 ^ 256)
  let s := if rep then wrMem s (placeTable 3 + 8) 8 (2 ^ 62 + 0x43F) else s
  { s with pkg := { s.pkg with rstab := 0x400000, rscnt := 1 } }

/-- A supervisor word with an operand N, X, or not of its form. -/
theorem witness_SystemOperands :
    let at_ (op : BitVec 9) (a b c : TWord) : State := wrReg (wrReg (wrReg (supAt op) 128 0xC1 [(0, a)]) 128 0xC2 [(0, b)]) 128 0xC3 [(0, c)]
    let v : TWord := ⟨.v, 0⟩
    let takes (rows : Fields → State → Cur → List (Instr × OpSpec × Nat × Bool × Bool)) (op : BitVec 9) (f : Fields) (i : Nat) (a b c : TWord)
        (p : List TWord → Bool → Bool) : Bool :=
      let s := at_ op a b c
      match (rows f s cu0)[i]? with
      | some (_, spec, n, held, bad) => decide (spec.op = op) && issues spec f s cu0 && !held && decide ((getBlock s 4).csource = 0) && p (sysWords spec f s cu0 n) bad
      | none => false
    let two := mk 0 6 0xC1 0xC2 0xE4 0 0
    let three := mk 0 6 0xC1 0xC2 0xC3 0 0
    let inv := mk 0 0xE4 0xC1 0xC2 0xE4 0 0
    let ws : List ((Fields → State → Cur → List (Instr × OpSpec × Nat × Bool × Bool)) × BitVec 9 × Fields × Nat) :=
      [(csrwRow, specCsrw.op, mk 0 0xE4 0xC1 0xE4 0xE4 0 0x10, 0), (pageRows, specPgmode.op, two, 0), (pageRows, specPgrep.op, three, 1), (pageRows, specPgcol.op, three, 2),
       (pageRows, specTlbinv.op, inv, 3), (blockRows, specPreempt.op, two, 0), (blockRows, specResume.op, mk 0 6 0xC1 0xE4 0xE4 0 0, 1), (blockRows, specBlkkill.op, two, 2)]
    (ws.all (fun e => takes e.1 e.2.1 e.2.2.1 e.2.2.2 ⟨.n, 5⟩ v v (fun xs _ => xs.any (fun x => decide (x.tag = .n))) &&
        [causePageInvalid, causePoolLost, causeMemUe].all (fun cause => takes e.1 e.2.1 e.2.2.1 e.2.2.2 ⟨.x, payload cause 0x70000⟩ v v (fun xs _ =>
          xs.all (fun x => decide (x.tag ≠ .n)) && decide (xs.find? (fun y => decide (y.tag = .x)) = some ⟨.x, payload cause 0x70000⟩)))) &&
      [(pageRows, specPgmode.op, two, 0, (2 : Word) ^ 63), (pageRows, specPgrep.op, three, 1, 2 ^ 16), (pageRows, specPgcol.op, three, 2, 2 ^ 21),
       (pageRows, specTlbinv.op, inv, 3, 2 ^ 21), (pageRows, specTlbinv.op, { inv with md := 2 }, 3, 0), (blockRows, specBlkkill.op, { two with md := 1 }, 2, 1)].all (fun e =>
        takes e.1 e.2.1 e.2.2.1 e.2.2.2.1 v ⟨.v, e.2.2.2.2⟩ v (fun xs bad => xs.all (fun x => decide (x.tag = .v)) && bad)) &&
      takes blockRows specResume.op (mk 0 6 0xC1 0xE4 0xE4 0 0) 1 ⟨.v, 64⟩ v v (fun xs bad => xs.all (fun x => decide (x.tag = .v)) && bad)) = true := by decide +kernel

/-- The leaf of the placed page. -/
def sampleLeaf : Leaf :=
  match walk (atOp 0) 0 0x10100 with
  | .leaf l => l
  | _ => { tgt := 0, coh := 0, ver := false, rep := false, chk := false, cls := 0, u := true, x := true, w := true, r := true, bits := 16, base := 0, peer := 0, level := 0,
           entry := 0, abit := 62, dbit := 63 }

theorem witness_PageInstructions :
    let f (md : BitVec 16) := mk 0 6 0xC1 0xC2 0xC3 0 md
    let fm (md : BitVec 16) := mk 0 6 0xC1 0xC2 0xE4 0 md
    let va (spec : OpSpec) (s : State) (f : Fields) := decide (inA spec f s cu0 0 = ⟨.v, 0x10100⟩) && decide (inB spec f s cu0 0 = ⟨.v, 0⟩)
    let far := wrReg (supAt specPgmode.op) 128 0xC1 [(0, ⟨.v, 0x70100⟩)]
    (issues specPgmode (fm 1) (paged specPgmode.op false) cu0 && !pageHold (ctxOf specPgmode (fm 1) (paged specPgmode.op false) cu0) (paged specPgmode.op false) &&
      va specPgmode (paged specPgmode.op false) (fm 1) && decide (spaceOf 0 = some 0) &&
      (match walk (atIssue (paged specPgmode.op false) cu0) 0 0x10100 with
       | .leaf l => cohAllowed l.tgt 1 && !l.rep && !l.ver
       | _ => false) &&
      issues specPgmode (fm 1) far cu0 && !pageHold (ctxOf specPgmode (fm 1) far cu0) far &&
      (match walk (atIssue far cu0) 0 0x70100 with
       | .leaf _ => false
       | _ => true) &&
      issues specPgrep (f 0) (paged specPgrep.op false) cu0 && !pageHold (ctxOf specPgrep (f 0) (paged specPgrep.op false) cu0) (paged specPgrep.op false) &&
      va specPgrep (paged specPgrep.op false) (f 0) && decide (inC specPgrep (f 0) (paged specPgrep.op false) cu0 0 = ⟨.v, 0⟩) &&
      (match walk (atIssue (paged specPgrep.op false) cu0) 0 0x10100, replicaSet (atIssue (paged specPgrep.op false) cu0) 0 0 with
       | .leaf l, some e => decide (l.tgt = 0 ∧ l.coh < 2 ∧ l.level = 0 ∧ l.base / 2 ^ 40 < 4 ∧ replicaAddr e (l.base / 2 ^ 40) 0 = l.base) && !l.ver && !l.rep
       | _, _ => false) &&
      issues specPgcol (f 0) (paged specPgcol.op true) cu0 && !pageHold (ctxOf specPgcol (f 0) (paged specPgcol.op true) cu0) (paged specPgcol.op true) &&
      va specPgcol (paged specPgcol.op true) (f 0) && decide ((inC specPgcol (f 0) (paged specPgcol.op true) cu0 0).tag = .v) &&
      (match walk (atIssue (paged specPgcol.op true) cu0) 0 0x10100 with
       | .leaf l => l.rep && (match replicaSet (atIssue (paged specPgcol.op true) cu0) l.base l.level with
         | some e => (List.range 4).all (fun q => (List.range 8).all (fun i => !decide (replicaAddr e q 0 ≤ l.entry + i ∧ l.entry + i < replicaAddr e q 0 + 2 ^ l.bits)))
         | none => false)
       | _ => false) &&
      [(0, 0xC1, 0xC2), (2, 0xE4, 0xE4)].all (fun (e : BitVec 16 × BitVec 8 × BitVec 8) =>
        issues specTlbinv (mk 0 0xE4 e.2.1 e.2.2 0xE4 0 e.1) (paged specTlbinv.op false) cu0 &&
          (holders (paged specTlbinv.op false) (coveredBy e.1.toNat 0 0)).isEmpty) &&
      (let s := { paged specTlbinv.op false with ops := [opOf (.copy { copyTo 2 [] with pages := [(0x10000, sampleLeaf)] }) []] }
       issues specTlbinv (mk 0 0xE4 0xE4 0xE4 0xE4 0 2) s cu0 && !(holders s (coveredBy 2 0 0)).isEmpty)) = true := by decide +kernel

theorem witness_BlocksPreemptedAndKilled :
    let f (md : BitVec 16) := mk 0 6 0xC1 0xC2 0xE4 0 md
    let base := supAt specPreempt.op
    let coop := setBlock base 4 { getBlock base 4 with coop := true }
    let other := setBlock (slots base) 5 { getBlock base 4 with cluster := 5, seq := 0 }
    let away := setBlock other 4 { getBlock other 4 with launchid := 9 }
    let none_ := wrReg base 128 0xC2 [(0, ⟨.v, 7⟩)]
    let tgt (s : State) (lin : Nat) := preemptTarget s (dieOf s 128) 0 lin
    ([base, coop, slots base, away, none_].all (fun s => issues specPreempt (f 1) s cu0 && decide (inA specPreempt (f 1) s cu0 0 = ⟨.v, 0⟩) &&
        decide ((inB specPreempt (f 1) s cu0 0).tag = .v)) &&
      decide (tgt none_ 7 = none) && ((tgt coop 0).map (·.2.coop) == some true) &&
      ((tgt base 0).map (·.1) == some 4) && decide ((openSlots base 0).length < (matesOf base 4).length) &&
      ((tgt (slots base) 0).map (·.1) == some 4) && decide ((matesOf (slots base) 4).length ≤ (openSlots (slots base) 0).length) && (matesOf (slots base) 4).contains 4 &&
      ((tgt away 0).map (·.1) == some 5) && decide ((matesOf away 5).length ≤ (openSlots away 0).length) && !(matesOf away 5).contains 4) = true := by decide +kernel

/-- Block 5 is held in save slot 0 of die 0; its node is there. -/
def heldBlock (op : BitVec 9) : State :=
  let s := withNode (aNode 0 4) (supAt op)
  { setBlock s 5 { getBlock s 4 with state := 3, cluster := 5, node := 1 } with sslots := sset none s.sslots 0 (some { blk := 5, at_ := 0 }) }

theorem witness_BlocksPreemptedAndKilled_resume :
    let f := mk 0 6 0xC1 0xE4 0xE4 0 0
    let fk (md : BitVec 16) := mk 0 6 0xC1 0xC2 0xE4 0 md
    (issues specResume f (supAt specResume.op) cu0 && decide (inA specResume f (supAt specResume.op) cu0 0 = ⟨.v, 0⟩) &&
      decide (sget none (supAt specResume.op).sslots (64 * dieOf (supAt specResume.op) 128) = none) &&
      issues specResume f (heldBlock specResume.op) cu0 && ((sget none (heldBlock specResume.op).sslots 0).map (·.blk) == some 5) &&
      decide ((getBlock (heldBlock specResume.op) 5).state = 3) && ctxOk (heldBlock specResume.op) 5 0 && (getNode (heldBlock specResume.op) 1).isSome &&
      [0, 1].all (fun md => issues specBlkkill (fk md) (supAt specBlkkill.op) cu0 && decide (inA specBlkkill (fk md) (supAt specBlkkill.op) cu0 0 = ⟨.v, 0⟩) &&
        decide (inB specBlkkill (fk md) (supAt specBlkkill.op) cu0 0 = ⟨.v, 0⟩))) = true := by decide +kernel

theorem witness_LogsAndIntegrity :
    let f := mk 0 0xE4 0xC1 0xC2 0xE4 0 0
    let with_ (n : Word) (s : State) : State := { s with dies := sset DieSt.init s.dies 0 { sget DieSt.init s.dies 0 with vlogq := n } }
    let late : State := { atOp 0 with cores := sset CoreSt.init (atOp 0).cores 0 { getCore (atOp 0) 0 with cyc := 2 ^ 20 } }
    let ran : State := { atOp 0 with replays := [(0, [{ w := 128, word := 0, ins := [], outs := [] }])],
                                     cores := sset CoreSt.init (atOp 0).cores 0 { getCore (atOp 0) 0 with rchk := 1 } }
    ([0, 5].all (fun n => issues specVlog f (with_ n (atOp specVlog.op)) cu0 && decide ((inA specVlog f (with_ n (atOp specVlog.op)) cu0 0).tag = .v) &&
        decide ((inB specVlog f (with_ n (atOp specVlog.op)) cu0 0).tag = .v)) && decide ((getCore (atOp specVlog.op) 0).vlogs = 0) &&
      decide ((getCore (atOp 0) 0).vwin = (getCore (atOp 0) 0).cyc / 2 ^ 20) && decide ((getCore late 0).vwin ≠ (getCore late 0).cyc / 2 ^ 20) &&
      ((sget [] ran.replays 0)[0]?).isSome && (getCore ran 0).rchk.getLsbD 0 && decide ((getBlock ran 4).state = 1) && decide ((getBlock ran 4).csource = 0) &&
      populated (atOp 0) 0x30000 && [true, false].all (fun o => decide
        (({ atOp 0 with suspects := [(0xC0, o)] } : State).suspects.find? (fun e => decide (e.1 = 0x30000 / 1024)) = some (0x30000 / 1024, o)))) = true := by
  decide +kernel

/-- Package 1 is there; group 0 holds package 0; descriptor 0 is loaded; a plan of two entries, to and from package 1. -/
def fabricAt (op : BitVec 9) : State :=
  let s := setTd (atOp op) 4 0 boxDesc
  let s := wrMem s 0x500000 192 (2 ^ 16 + 2 ^ 512)
  let s := wrMem s (tileBase 4) 64 (1 + 4 * 2 ^ 256)
  let s := wrMem s (tileBase 4 + 64) 64 (1 + 2 ^ 20 + 4 * 2 ^ 256)
  let s := wrReg (wrReg s 128 0xC2 [(0, ⟨.v, 2⟩)]) 128 0xC3 [(0, ⟨.v, 8⟩)]
  { s with pkg := { s.pkg with grptab := 0x500000, linkst := 1 }, routes := sset 0 s.routes 1 0x100 }

theorem witness_ExchangesStart_hx :
    let f := mk 0 0xE4 0xC1 0xC2 0xE4 0 0x0400
    let s := fabricAt specHx.op
    let es := (List.range 2).map (fun i => rdMem s (tileBase 4 + 64 * i) 64)
    (issues specHx f s cu0 && decide (fabricCount s < 64) && !tileAccesses s 128 (getSplit s 128 0).mask && !tdBusy s 4 (List.range 16) && !provisional s 4 &&
      decide (inA specHx f s cu0 0 = ⟨.v, 0⟩) && decide (inB specHx f s cu0 0 = ⟨.v, 2⟩) && !planFault (atIssue s cu0) 4 es &&
      es.all (fun e => decide (getTd s 4 (planSlot e) ≠ 0)) &&
      (match walkEnts (atIssue s cu0) (agentC (ctxOf specHx f s cu0) (atIssue s cu0)) (es.map (fun e => planEnt (atIssue s cu0) 4 e (getSplit s 128 0).sup)) with
       | (.ok _, _) => true
       | _ => false)) = true := by decide +kernel

/-- s1 and s2 are addresses and s3 a control word of group 0 and length 8. -/
def collAt (op : BitVec 9) (arx : Bool) : State :=
  let v : Word := if arx then 0 else 0x10200
  wrReg (wrReg (fabricAt op) 128 0xC1 [(0, ⟨.v, v⟩)]) 128 0xC2 [(0, ⟨.v, v⟩)]

theorem witness_ExchangesStart : [(specArx, 1, mk 0 0xE4 0xC1 0xC2 0xC3 3 0), (specAgx, 2, mk 0 0xE4 0xC1 0xC2 0xC3 0 0), (specRsx, 3, mk 0 0xE4 0xC1 0xC2 0xC3 3 0)].all
    (fun (e : OpSpec × Nat × Fields) =>
      let s := collAt e.1.op (e.2.1 == 1)
      let x := collOf e.2.1 e.1 e.2.2 s cu0
      let u := atIssue s cu0
      let a := agentC (ctxOf e.1 e.2.2 s cu0) u
      issues e.1 e.2.2 s cu0 && decide ((inA e.1 e.2.2 s cu0 0).tag = .v ∧ (inB e.1 e.2.2 s cu0 0).tag = .v ∧ inC e.1 e.2.2 s cu0 0 = ⟨.v, 8⟩) &&
        decide (x.obj = 0) && (groupEntry s x.group).testBit 16 && grMember (groupEntry s x.group) (selfId s) && s.ops.isEmpty &&
        !collLenBad e.2.1 (tyBytes e.2.2.ty) x.n x.len && decide (x.a % 8 = 0 ∧ x.b % 8 = 0 ∧ (e.2.1 = 1 → x.a + x.len ≤ 65536 ∧ x.b + x.len ≤ 65536)) &&
        (e.2.1 == 1 || (match walkDst u a .store 8 (rangePages (pageUnit a x.b) x.b (collBytes x)) [] none with
          | .ok _ => true
          | _ => false))) = true := by decide +kernel

/-- A box of one word whose elements stand as given, sent or received. -/
def haloWord (send : Bool) (st : Nat) (got : Option Nat) : HaloEnt :=
  let pages := if send then [] else [(0x10000, sampleLeaf)]
  { send := send, peer := 1, xid := 0, box := { haloBox send false 0 boxDesc [0] [2] with elems := [(0, (st, 5)), (1, (st, 6))], pages := pages }, got := got, done := false }

/-- A halo exchange with package 1 in flight. -/
def exchanging (es : List HaloEnt) : State :=
  { fabricAt 0 with ops := [{ opOf (.halo { ents := es, obj := 0, tag := 0, sup := false }) [] with cls := some .ex, routes := [(1, 0x100)] }], nextOp := 2 }

/-- One box to send, read or not, and one to receive. -/
def swapping (st : Nat) : State := exchanging [haloWord true st none, haloWord false 0 none]

theorem witness_HaloBoxes_delivery :
    let box (xid : Nat) : HaloBox := { peer := 1, xid := xid, len := 8, data := 7, flags := 0 }
    let s (xid : Nat) : State := { swapping 0 with staged := [box xid] }
    let down (st : Nat) : State := { swapping st with pkg := { (swapping st).pkg with linkst := 0 } }
    (((s 9).ops.findSome? (takeBox (s 9))).isNone && ((s 0).ops.findSome? (takeBox (s 0))).isSome && (sendEntry (swapping 0) 1 5).isNone &&
      decide ((s 0).pkg.linkst &&& 0xFFFF ≠ 0) && decide ((down 0).pkg.linkst &&& 0xFFFF = 0) && decide ((swapping 1).swc = []) &&
      [(swapping 0, false, true), (swapping 1, true, true), (down 1, true, false)].all (fun (e : State × Bool × Bool) => match sendEntry e.1 1 0 with
       | some (o, x, _, y) => decide (x.obj = 0) && (allRead y.box == e.2.1) && (routeUp e.1 o y.peer == e.2.2)
       | none => false) &&
      ((s 0).staged.find? (fun b => decide (b.peer = 1 ∧ b.xid = 0))).isSome) = true := by decide +kernel

/-- A killed block whose send has been read ends, and one whose operation has not does not. -/
theorem witness_BlocksStartAndEnd_killed :
    let killed (s : State) : State := setWarp (setBlock s 4 { getBlock s 4 with killed := true }) 128 { getWarp s 128 with splits := [] }
    let sent := killed { exchanging [haloWord true 1 none] with stalls := [] }
    let idle := killed (atOp 0)
    (blockOver sent 4 && !relaunches (getBlock sent 4) && !sent.ops.isEmpty && sent.ops.all (fun o => decide (blkOf o.w = 4) && outlives sent o) &&
      blockOver idle 4 && idle.ops.isEmpty && !blockOver (killed (exchanging [haloWord true 0 none])) 4) = true := by decide +kernel

/-- The word of one entry comes next: it is read from, or written to, the placed page; and the states in which no entry works. -/
theorem witness_HaloBoxes_words :
    let one (e : HaloEnt) (p : State → Op → HaloOp → Bool) : Bool := (exchanging [e]).ops.all (fun o => match o.kind with
      | .halo x => decide (findOp (exchanging [e]) 1 = some o) && p (exchanging [e]) o x
      | _ => false)
    ([(haloWord true 0 none, false), (haloWord false 1 (some 8), true)].all (fun e => one e.1 (fun s o x =>
        decide (x.ents.zipIdx.filter (fun e => entWork s o e.1) = [(e.1, 0)]) && decide ((copyPieces s o e.1.box).map (·.1) = [e.2]))) &&
      one (haloWord false 3 (some 8)) (fun s o x => x.ents.all (fun e => !entWork s o e) &&
        decide (x.ents.zipIdx.find? (fun e => entWritten e.1) = some (haloWord false 3 (some 8), 0))) &&
      one (haloWord true 1 none) (fun s o x => x.ents.all (fun e => !entWork s o e && !entWritten e) && (matchBox s x).isNone && (haloStall s o x).isNone)) = true := by
  decide +kernel

/-- The word that is read, or written, is of plain bytes of memory. -/
theorem witness_HaloBoxes_bytes :
    let ok (l : Leaf) (key : Nat) (s : State) : Bool := decide (l.coh ≠ 1) && !l.ver && !l.rep && !l.chk && decide (key + 8 ≤ regBase) && !lostKey s key
    [haloWord true 0 none, haloWord false 1 (some 8)].all (fun e => (exchanging [e]).ops.all (fun o => match o.kind with
      | .halo x =>
        let s := exchanging [e]
        let a := haloAgent s o x
        let els := if e.send then srcElems e.box 0x2020 else dstElems e.box 0x2020
        let hs := els.filterMap (elemAddr e.box.desc e.box.org e.box.ext)
        decide (copyPieces s o e.box = [(!e.send, 0x2020)]) && decide (els = [0, 1]) && decide (hs = [0x20200, 0x20208]) && s.prov.isEmpty && s.swc.isEmpty &&
          !provisional s a.blk && decide (s.pkg.vrtab = 0) && els.all (fun j => decide (elemSt e.box j = if e.send then 0 else 1)) &&
          hs.all (fun h => if e.send then (match checkAddr s a (h / 2) 4 .load with
              | .ok l key => ok l key s && decide (dataFault s a.blk key 4 = none) && (decide (key + 4 ≤ l.entry) || decide (l.entry + 8 ≤ key))
              | _ => false)
            else (match dstLeaf (freshPages s a e.box.pages) a (h / 2) with
              | some l => ok l (leafKey s a.die l (h / 2)) s && !frozenKey s (leafKey s a.die l (h / 2))
              | none => false))
      | _ => false)) = true := by decide +kernel

/-- A collective of `n` members over one element, which stands as given. -/
def alone (n st : Nat) (res : Option (List (Nat × Nat × Bool))) (left : List Nat) : CollOp :=
  { kind := 1, ty := 3, op := 0, rm := 0, group := 0, ctag := 0, len := 8, a := 0, b := 64, obj := 0, tag := 0, sup := false, pages := [], n := n, rank := 0,
    elems := [(0, (st, 5))], res := res, left := left, flags := 0 }

def joining (x : CollOp) : State := { fabricAt 0 with ops := [{ opOf (.coll x) [] with cls := some .ex }], nextOp := 2 }

theorem witness_Collectives :
    let other : Contrib := { rank := 1, kind := 2, ty := 3, op := 0, rm := 0, len := 8, data := 1, bad := [(0, 8, true)] }
    let es : List (Nat × Nat × Bool) := [(0, 5, true)]
    ([alone 1 0 none [], alone 2 1 none [], alone 1 1 (some es) [8], alone 1 1 (some es) []].all (fun x => (joining x).ops.all (fun o =>
        decide (findOp (joining x) 1 = some o) && engineFree (joining x) o x.pages) && decide ((joining x).ops.length = 1) && !heldFor (joining x) 4) &&
      !(collUnread (alone 1 0 none [])).isEmpty && (collUnread (alone 2 1 none [])).isEmpty && decide (es.Pairwise (fun e d => e.1 + 8 ≤ d.1)) &&
      (collUnread (alone 1 1 (some es) [8])).isEmpty && oneEach (alone 1 1 none []) [] && agreed (alone 1 1 none []) [] && !oneEach (alone 2 1 none []) [] &&
      oneEach (alone 2 1 none []) [other] && !agreed (alone 2 1 none []) [other] && agreed (alone 2 1 none []) [{ other with kind := 1 }]) = true := by decide +kernel

/-- A collective of a warp with an earlier access waits for it. -/
theorem witness_Collectives_early :
    let o := { opOf (.coll (alone 1 0 none [])) [] with cls := some .ex }
    let s : State := { joining (alone 1 0 none []) with ops := [{ opOf (.load [accAt 0x30000 0] 3 6 1 none) [] with id := 0 }, o] }
    (decide (findOp s 1 = some o) && !engineFree s o []) = true := by decide +kernel

/-- Pool region 5 of device 2 in a state, with a command running. -/
def pooled (op : BitVec 9) (st cmd : Nat) (size : Word) : State :=
  { atOp op with pools := [(5, { PoolRegion.init with rdev := 2, rsize := size, cmd := cmd, status := BitVec.ofNat 64 (3 * 2 ^ 16 + st) })] }

theorem witness_PoolRegions :
    let k (ack : Bool) : OpKind := .pool ack 6 5 (stEpoch (getPool (pooled 0 2 0 0) 5).status)
    let busy : State := { pooled 0 1 0 0 with ops := [opOf (.copy { copyTo 3 [] with pages := [(0x10000, { sampleLeaf with tgt := 2, peer := 5, base := 0 })] }) []] }
    (can specPlstat (mk 0 6 0xC1 0xE4 0xE4 0 0) && issues specPlack (mk 0 6 0xC1 0xC2 0xE4 0 0) (supAt specPlack.op) cu0 &&
      decide (inA specPlstat (mk 0 6 0xC1 0xE4 0xE4 0 0) (atOp specPlstat.op) cu0 0 = ⟨.v, 0⟩) &&
      decide (inA specPlack (mk 0 6 0xC1 0xC2 0xE4 0 0) (supAt specPlack.op) cu0 0 = ⟨.v, 0⟩) &&
      decide ((inB specPlack (mk 0 6 0xC1 0xC2 0xE4 0 0) (supAt specPlack.op) cu0 0).tag = .v) &&
      [true, false].all (fun ack => decide (findOp (withOp (k ack) [(6, 0)]) 1 = some (opOf (k ack) [(6, 0)]))) &&
      [2, 1].all (fun st => decide ((getPool (pooled 0 st 0 0) 5).status.toNat % 4 = st)) && decide ((getPool (pooled 0 1 0 0) 5).rdev.toNat % 16 = 2) &&
      decide (commandRegion (pooled 0 0 0 0) 1 = none) && [(0, 1), (3, 2), (0, 2), (1, 3), (3, 3), (0, 3)].all (fun (e : Nat × Nat) =>
        (commandRegion (pooled 0 e.1 e.2 0) e.2).isSome && decide ((getPool (pooled 0 e.1 e.2 0) 5).status.toNat % 4 = e.1)) &&
      !regionFits (pooled 0 0 1 0) 5 (getPool (pooled 0 0 1 0) 5) && ownedRange busy (poolBase 2) 1024 && !ownedRange busy (poolBase 2 + 1024) 1024 &&
      (pooled 0 1 0 0).prov.isEmpty) = true := by decide +kernel

/-- The configuration of a region that lies within its device can succeed. -/
theorem witness_PoolRegions_configure (h : 2 ^ 26 ≤ Config.poolSize 2) :
    regionFits (pooled 0 0 1 0x4000000) 5 { PoolRegion.init with rdev := 2, rsize := 0x4000000, cmd := 1, status := 0x30000 } = true := by
  have h2 : 0 + 67108864 ≤ Config.poolSize 2 := by simpa using h
  simp [regionFits, pooled, PoolRegion.init, h2]

theorem witness_PeerAccesses :
    let x : Acc := { accAt 0 0 with key := peerBase 1 + 0x100 }
    let k : OpKind := .load [x] 3 6 1 none
    let up : State := { atOp 0 with pkg := { (atOp 0).pkg with linkst := 1 } }
    let cold : State := { up with frozen := [(3, true)] }
    let o : Op := { opOf k [(6, 0)] with routes := [(1, 0x100)] }
    (populated up 0x30000 && populated up 0x30007 && !ownedRange up 0x30000 8 && decide (dataFault up (2 ^ 40) 0x30000 8 = none) && decide (up.pkg.linkst &&& 0xFFFF ≠ 0) &&
      decide ((atOp 0).pkg.linkst &&& 0xFFFF = 0) && !sget false up.frozen 3 && sget false cold.frozen (0x30000 / 2 ^ 16) && !ownedRange cold 0x30000 8 &&
      decide (dataFault cold (2 ^ 40) 0x30000 8 = none) && up.prov.isEmpty &&
      [(up, true), (atOp 0, false)].all (fun (e : State × Bool) =>
        decide (findOp { e.1 with ops := [o], nextOp := 2 } 1 = some o) && (e.1.pkg.linkst.getLsbD ((sget 0#64 o.routes 1).toNat % 16) == e.2)) &&
      decide (peerOf x.key = some (1, 0x100)) && decide (x.lane < 32) && (atOp 0).cks.all (fun e => e.2.run.isNone)) = true := by
  decide +kernel

/-- The placed split stands at a clause header. -/
def atHdr (h : Nat) : State := let s := placeWord State.reset h; setSplit s 128 0 { getSplit s 128 0 with rem := 0 }

/-- The turn is the placed warp's; nothing issues yet. -/
def turning (turn : Option Nat) : State :=
  let s : State := { atOp 0 with cur := none }
  setQuarter s 0 { getQuarter s 0 with turn := turn }

theorem witness_ClausesAndChoices_start :
    ([(0xC5 * 2 ^ 56, none), (0, some (causeBadClause, 1)), (0xC5 * 2 ^ 56 + 2 ^ 24, some (causeExtEmulate, 1))].all (fun (e : Nat × Option (Nat × Nat)) =>
        atHeader (atHdr e.1) 128 0 && !(getSplit (atHdr e.1) 128 0).sup && (match fetch (atHdr e.1) 128 (getSplit (atHdr e.1) 128 0) with
          | .word h _ => decide (headerFault h = e.2)
          | _ => false)) && !atHeader (atOp 0) 128 0) = true := by decide +kernel

theorem witness_ClausesAndChoices_choice :
    let stuck : State := waiting .choice (turning none)
    let used : State := setQuarter (turning none) 0 { getQuarter (turning none) 0 with issued := 1 }
    ((atOp 0).cur.isSome && slotUsed used 0 (getCore used 0).cyc && decide ((getQuarter (turning (some 128)) 0).turn = some 128) &&
      !turnOver (turning (some 128)) (getQuarter (turning (some 128)) 0) 128 0 && !(chooseSplits (turning (some 128)) (getQuarter (turning (some 128)) 0) 128 0).isEmpty &&
      decide (chooseWarp (turning none) 0 0 (getQuarter (turning none) 0) 0 = some 128) && !slotUsed (turning none) 0 0 &&
      decide (chooseWarp stuck 0 0 (getQuarter stuck 0) 0 = none)) = true := by decide +kernel

theorem witness_ClausesAndChoices_limits :
    let ready (n : Nat) := setSplit (atOp 0) 128 0 { getSplit (atOp 0) 128 0 with starve := n }
    let low : State := setSplit (atHdr 0) 128 1 { getSplit (atHdr 0) 128 0 with pc := 0, rem := 1 }
    let held := setSplit low 128 0 { getSplit low 128 0 with hdr := some (0xC500000040000000), rhold := 255 }
    let none_ := wrMem (regionAt 0 3 0) 0x200020 4 0
    let full := waiting (.frame [(0x202000, 0, 0x10100)] 0) none_
    let o : Op := { opOf (.result [(0xE0, 0, ⟨.v, 5⟩)]) [] with push := some { q := 0, k := 0, word := 0, skips := [] }, since := some 0 }
    let late := waiting (.op 1) (setQueue (wrMem { none_ with ops := [o], nextOp := 2 } (placeTable 3 + 16) 8 (2 ^ 62 + 0x8080 * 2 ^ 16 + 0x82F)) 128 0 0
      { getQueue none_ 128 0 0 with kind := 2, ty := 3, addr := 0x20100, stride := 8, left := 4 })
    let overAt (s : State) (x : Option Op) : Bool := match frameWait s (getSplit s 128 0) with
      | some (as, since, y) => (as.map (fun e => e.1) == [0x202000]) && decide (y = x) && ((framesOver s as since (getCore s (coreOf s 128)).cyc).map (·.1) == [2])
      | none => false
    let dog := waiting .choice (setWarp (setCore (atOp 0) 0 { getCore (atOp 0) 0 with wdog := 1 }) 128 { getWarp (atOp 0) 128 with idle := 1024 })
    (decide ((getSplit (ready 63) 128 0).starve = 63) && decide ((getSplit (ready 5) 128 0).starve ≠ 63) && decide ((getSplit held 128 0).rhold = 255) &&
      rcvHeld held 128 0 (getSplit held 128 0) && !rcvHeld (atOp 0) 128 0 (getSplit (atOp 0) 128 0) &&
      overAt full none && overAt late (some o) && (frameWait (atOp 0) (getSplit (atOp 0) 128 0)).isNone &&
      (match fetch full 128 (getSplit full 128 0) with
       | .word _ _ => true
       | _ => false) &&
      (framesOver (regionAt 0 3 0) [(0x202000, 0, 0x10100)] 0 0).isEmpty && (getBlock late 4).state == 1 && !watchDue (atOp 0) 128 && watchDue dog 128 &&
      ((watchPick dog 128 0).map (·.1) == some 0) && !(getSplit dog 128 0).sup) = true := by decide +kernel

/-- Two accesses of die 0 stall, to the tables of the device and of the host; the first has posted its request where `req` says so. -/
def stalled (req : Option Nat) : State :=
  let y (host : Bool) : Stall := { die := 0, host := host, space := if host then 2 ^ 20 + 5 else 0, va := 0x70000, kind := 1, req := if host then some 0 else req }
  { waiting (.page 0 true (2 ^ 20 + 5) [0x70000] 1) (atOp 0) with stalls := [y false, y true] }

theorem witness_PageRequests :
    ((stalled none).stalls.any (canPost (stalled none)) && !(stalled (some 1)).stalls.any (canPost (stalled (some 1))) &&
      (stalled none).stalls.any (fun y => decide (y.die = 0) && y.host && decide (y.space = 2 ^ 20 + 5) && decide (y.va / 2 ^ 16 = 0x70000 / 2 ^ 16) && y.req.isSome) &&
      !(stalled none).stalls.any (fun y => decide (y.die = 1)) && waitsOn (getSplit (stalled none) 128 0).susp 0 (2 ^ 20 + 5) 7 && !waitsOn (some .commit) 0 (2 ^ 20 + 5) 7) = true := by decide +kernel

theorem witness_HostAndRegisters :
    let slot (st : Nat) (w0 : Word) : State := { atOp 0 with hslots := [(3, { HostSlot.init with state := st, words := [w0], copy := [w0] })] }
    let queued : State := { slot 1 1 with hostQ := [(0, 3)] }
    let len : State := { atOp 0 with pkg := { (atOp 0).pkg with ualen := 1 } }
    let cold : State := { atOp 0 with frozen := [(3, true)] }
    (decide (((getMail (atOp 0) 0).filter (fun p => decide (packetSource p ≠ 5))).length ≤ 240) && decide ((getSlot (slot 1 1) 0 3).state = 1) && decide (6 ≤ (slot 0 1).mgmt.step) && decide (packetReason ((getSlot (slot 0 2) 0 3).words.getD 0 0) ≠ 0) &&
      decide (packetReason ((getSlot (slot 0 1) 0 3).words.getD 0 0) = 0) && decide (packetReady queued = some (0, 3)) && decide (packetReady (atOp 0) = none) &&
      populated (atOp 0) 0x30000 && !ownedRange (atOp 0) 0x30000 8 && !ownedRange (atOp 0) hostBase 1024 && sget false cold.frozen 3 &&
      decide ((atOp 0).pkg.ualen &&& 0xFFFF = 0) && decide (len.pkg.ualen &&& 0xFFFF ≠ 0) && decide ((atOp 0).mgmt.running = none) && (0x105 : Nat).testBit 8 &&
      decide ({ atOp 0 with rsstat := 1 : State }.rsstat.toNat % 256 = 1) && decide ((atOp 0).pkg.vrtab = 0)) = true := by decide +kernel

/-- A command of the mailbox runs. -/
def commanded (code : Nat) (a : Word) : State := { atOp 0 with mgmt := { (atOp 0).mgmt with running := some code, mbox := [(1, a)] } }

theorem witness_ManagementController :
    let cfg (ver : Nat) : ConfigBlock := { flashConfig with header := headerBits 4 ver 64 0, keys := [7] }
    let img (k : Nat) (signer : Signer) : ImageFile := { flashImage k 0 with signer := signer }
    let takesCfg (x : ConfigBlock) : Bool := configAccepted x 1
    let takes (x : ImageFile) : Bool := headerFits x.header x.len && decide (x.kind = 3 ∧ x.die = 0) && x.intact &&
      (decide (x.signer = .root) || (cfg 1).keys.any (fun k => decide (x.signer = .customer k))) && decide (x.secver = 0 ∧ x.vregs ≤ 32)
    let part (f : Mgmt → Mgmt) : State := { atOp 0 with mgmt := f (atOp 0).mgmt }
    (decide ((commanded 1 13).mgmt.running = some 1) && decide ((mboxOf (commanded 1 13) 1).toNat = 13) && decide ((mboxOf (commanded 1 12) 1).toNat = 12) &&
      decide ((mboxOf (commanded 3 0) 6).toNat < 152) &&
      [(0x30000, true), (0x30004, false)].all (fun (e : Word × Bool) =>
        let s : State := { commanded 3 0 with mgmt := { (commanded 3 0).mgmt with mbox := [(5, e.1), (6, 4096)] } }
        let len := 152 + 80 * s.mgmt.images.length
        decide (len ≤ (mboxOf s 6).toNat) && s.prov.isEmpty && (List.range len).all (fun i => !frozenKey s (e.1.toNat + i)) &&
          (decide ((mboxOf s 5).toNat % 8 = 0) && populated s e.1.toNat && populated s (e.1.toNat + len - 1)) == e.2) &&
      decide ((mboxOf (commanded 4 1500) 1).toNat = 1500) && decide ((mboxOf (commanded 4 3401) 1).toNat = 3401) &&
      [0, 1, 2].all (fun (a : Nat) => let s := commanded 5 (BitVec.ofNat 64 a); decide (s.mgmt.running = some 5 ∧ (mboxOf s 1).toNat = a) && s.mgmt.powered) &&
      takesCfg (cfg 1) && !takesCfg (cfg 0) && takes (img 3 .root) && takes (img 3 (.customer 7)) && !takes (img 3 (.customer 8)) && !takes (img 2 .root) &&
      (atOp 0).mgmt.powered && (part (fun m => { m with config := none })).mgmt.powered && (part (fun m => { m with config := some (cfg 1) })).mgmt.powered &&
      (atOp 0).cks.all (fun e => (getCk (atOp 0) e.1).run.isNone) && (atOp 0).poolOld.isEmpty && Memory.wf (atOp 0).mem &&
      decide (tripAt 0 ≤ [1050].getD 0 0) && (List.range 13).all (fun k => decide ((List.replicate 13 900).getD k 0 < tripAt k)) &&
      decide (throttleAt 4 < (List.replicate 13 900).getD 4 0) && (sensorDies 4).contains 0 && decide ((atOp 0).mgmt.calib.getD 0 0 = 0) &&
      !(part (fun m => { m with powered := false })).mgmt.powered) = true := by decide +kernel

theorem witness_StepRunsDecodedWord :
    let s := atOp specAdd.op
    let sp := getSplit s 128 0
    (s.mgmt.powered && s.agenda.isEmpty && decide (s.cur = some cu0) && decide (sp.mask ≠ 0 ∧ sp.rem ≠ 0 ∧ sp.susp = none) && !(getBlock s 4).killed &&
      (match checkAddr s { agentOf s 128 sp.sup with denied := sp.denied } (vpc sp).toNat 8 .fetch with
       | .ok _ key => !peerHeld s s.routes key && (match decodeBytes ((List.range 8).map (fun j => rdByte s (key + j))) with
         | .ok (i, _) => decide (i = .add (mk 0 0 0 0 0 0 0))
         | .error _ => false) && (sget [] s.icode key).all (fun e => !decide ((getBlock s 4).node < e.2) || decide (e.1 = BitVec.ofNat 64 (rdMem s key 8)))
       | _ => false) &&
      ({ s with cur := none, cur2 := some cu0 : State }).cur2.isSome && (pickEvent { s with cur := none, ops := [opOf (.result []) []] }).isSome &&
      (pickEvent { State.reset with blocks := [], warps := [] }).isNone) = true := by decide +kernel

theorem witness_DecodeEncode : (Instr.add (f2 3)).coded = true ∧ (encode (.add (f2 3))).isSome = true := by decide +kernel

/-- Reset has memory in canonical form. -/
theorem reset_mem_wf : Memory.wf State.reset.mem = true := by decide

theorem witness_StepKeepsMemoryCanonical : Memory.wf (atOp specAdd.op).mem = true := by decide +kernel


/-! ### The specification's worked examples, one issue each -/

/-- The state with words in vector registers of lane 0. -/
def regs (op : BitVec 9) (ws : List (Nat × TWord)) : State := ws.foldl (fun s e => wrReg s 128 e.1 [(0, e.2)]) (atOp op)

/-- What a register holds in a lane after an instruction. -/
def afterExec (i : Instr) (s : State) (code lane : Nat) : Option TWord :=
  match exec i s with
  | .next t => some (rdReg t 128 code lane)
  | _ => none

/-- What a lane's flags are after an instruction. -/
def flagsAfter (i : Instr) (s : State) (lane : Nat) : Option (BitVec 6) :=
  match exec i s with
  | .next t => some (sget 0#6 t.fsr (lkey 128 lane))
  | _ => none

/-- R35, the example after R37: N wins over X and keeps the old data; without it the X payload passes. -/
theorem test_tags_of_fma :
    let x : TWord := ⟨.x, 0x1700000012345000⟩
    afterExec (.fma (mk 5 4 1 2 3 8 0)) (regs 0x042 [(1, ⟨.n, 0⟩), (2, x), (3, ⟨.v, 0⟩), (4, ⟨.v, 77⟩)]) 4 0 = some ⟨.n, 77⟩ ∧
    afterExec (.fma (mk 5 4 1 2 3 8 0)) (regs 0x042 [(1, ⟨.v, 0⟩), (2, x), (3, ⟨.v, 0⟩), (4, ⟨.v, 77⟩)]) 4 0 = some x := by decide +kernel

/-- The example of R84. -/
theorem test_shifts : afterExec (.shr (mk 3 6 1 0xFF 0xE4 0 1)) (regs 0x016 [(1, ⟨.v, 0x80⟩)]) 6 0 = some ⟨.v, 0x40⟩ ∧
    afterExec (.sar (mk 3 6 1 0xFF 0xE4 4 1)) (regs 0x017 [(1, ⟨.v, 0x80⟩)]) 6 0 = some ⟨.v, 0xC0⟩ := by decide +kernel

/-- The example of R88: the exact total is clamped once. -/
theorem test_pdot_clamps_once :
    let f := mk 3 9 6 7 8 0 1
    let s (b : Word) := regs 0x021 [(6, ⟨.v, 0x7F7F7F7F7F7F7F7F⟩), (7, ⟨.v, b⟩), (8, ⟨.v, 2147450000⟩)]
    afterExec (.pdot f) (s 0x818181817F7F7F7F) 9 0 = some ⟨.v, 0x7FFF7C90⟩ ∧ flagsAfter (.pdot f) (s 0x818181817F7F7F7F) 0 = some 0 ∧
    afterExec (.pdot f) (s 0x7F7F7F7F7F7F7F7F) 9 0 = some ⟨.v, 0x7FFFFFFF⟩ ∧ flagsAfter (.pdot f) (s 0x7F7F7F7F7F7F7F7F) 0 = some 0x20 := by decide +kernel

/-- The example of R90: the binary64 value 2.5, and a chunk written negative. -/
theorem test_movk : afterExec (.movk (mk 3 1 0xE4 0xFF 0xE4 3 16388)) (regs 0x002 []) 1 0 = some ⟨.v, 0x4004000000000000⟩ ∧
    afterExec (.movk (mk 3 1 1 0xFF 0xE4 1 0xC000)) (regs 0x002 [(1, ⟨.v, 0x4004000000000000⟩)]) 1 0 = some ⟨.v, 0x40040000C0000000⟩ := by decide +kernel

/-- The example of R110: one rounding, and two. -/
theorem test_fma_rounds_once :
    let a : TWord := ⟨.v, 0x3FF0000002000000⟩
    let s (op : BitVec 9) := regs op [(1, a), (2, a), (3, ⟨.v, 0xBFF0000004000000⟩)]
    afterExec (.fma (mk 5 4 1 2 3 8 0)) (s 0x042) 4 0 = some ⟨.v, 0x3C90000000000000⟩ ∧ flagsAfter (.fma (mk 5 4 1 2 3 8 0)) (s 0x042) 0 = some 0 ∧
    afterExec (.fmul (mk 5 4 1 2 0xE4 8 0)) (s 0x041) 4 0 = some ⟨.v, 0x3FF0000004000000⟩ ∧ flagsAfter (.fmul (mk 5 4 1 2 0xE4 8 0)) (s 0x041) 0 = some 0x10 := by
  decide +kernel

/-- The example of R142: v1 holds 2^53, 1, 1 and 1, and N in lane 4. -/
theorem test_scan :
    let s := wrReg (atOp specScan.op) 128 1 [(0, ⟨.v, 0x4340000000000000⟩), (1, ⟨.v, 0x3FF0000000000000⟩), (2, ⟨.v, 0x3FF0000000000000⟩),
      (3, ⟨.v, 0x3FF0000000000000⟩), (4, ⟨.n, 0⟩)]
    let t := setSplit s 128 0 { getSplit s 128 0 with mask := 0x1F }
    [1, 2, 3, 4].map (afterExec (.scan (mk 6 3 1 0xE4 0xE4 8 0)) t 3) =
      [some ⟨.v, 0x4340000000000000⟩, some ⟨.v, 0x4340000000000000⟩, some ⟨.v, 0x4340000000000001⟩, some ⟨.v, 0x4340000000000001⟩] := by decide +kernel

/-- The example after R179: a level-1 leaf of 64 MiB. -/
theorem test_walk :
    let s := wrMem (wrMem (wrMem (atOp 0) (placeTable 0) 8 (placeTable 1 + 1)) (placeTable 1 + 8 * 0x123) 8 (placeTable 2 + 1)) (placeTable 2 + 8 * 0x115) 8 0x00000080_0400402F
    (match walk s 0 0x123456789ABC with
     | .leaf l => some (l.base + 0x123456789ABC % 2 ^ l.bits, l.level, l.cls, l.r, l.w, l.x)
     | _ => none) = some (0x008006789ABC, 1, 2, true, true, false) := by decide +kernel

/-- The example of R272: an extent of 4 marked periodic, read from -1, gives the coordinates 3, 0, 1, 2, 3, 0. -/
theorem test_periodic_box :
    let d : Nat := 0x10000 + 3 * 2 ^ 64 + 2 ^ 68 + 2 ^ 73 + 4 * 2 ^ 128 + 2 ^ 152
    boxAddrs d [-1] [6] = [3, 0, 1, 2, 3, 0].map (fun i => some (2 * (0x10000 + 8 * i))) := by decide +kernel

/-- R33, R51: `zero` reads 0 and discards its result; a scalar register holds one word for all lanes. -/
theorem test_zero_and_scalar : afterExec (.add (mk 3 0xE4 1 1 0xE4 3 0)) (regs 0x003 [(1, ⟨.v, 5⟩)]) 1 0 = some ⟨.v, 5⟩ ∧
    afterExec (.add (mk 3 0xC4 0xC1 0xFF 0xE4 3 0xFFFF)) (regs 0x003 []) 0xC4 31 = some ⟨.v, 0xFFFFFFFFFFFFFFFF⟩ := by decide +kernel

/-- The word placed for the next step is fetched and runs: the split of the placed warp goes on past it (log 8). -/
theorem test_step_runs_word :
    (match step (State.reset.withFetchWord 64 0x6030600FFE43FFFE) with
     | .next t => some (rdReg t 128 6 7, (getSplit t 128 0).pc)
     | _ => none) = some (⟨.v, 0xFFFFFFFFFFFFFFFE⟩, 0x10010) := by decide +kernel

/-! ### Ill-formed instructions are refused, one for each check -/

theorem test_wf : (Instr.add (f2 3)).wf = true ∧ (Instr.st (mk 0 0xE4 0xC2 0x06 0x08 8 0)).wf = true ∧ (Instr.loop (mk 1 2 0xE4 0xE4 0xFF 0 0xFFFE)).wf = true ∧
    (Instr.exit (mk 0 0xE4 0xE4 0xE4 0xE4 0 0)).wf = true := by decide +kernel

/-- A constructor that the word does not name. -/
theorem test_ill_formed_coding : (Instr.loopSet (mk 1 1 0xC1 0xE4 0xFF 0 4)).wf = false ∧ (Instr.loop (mk 1 4 0xE4 0xE4 0xFF 0 4)).wf = false ∧
    (Instr.bnset (mk 3 0xE4 0xC1 0xC2 0xC3 0 8)).wf = false ∧ (Instr.bnsetGet (mk 3 6 0xE4 0xE4 0xE4 0 7)).wf = false ∧
    (Instr.unassignedOpcode 3 (f2 3)).wf = false ∧ (Instr.extensionOpcode 0x1DF (f2 3)).wf = false ∧ Instr.rsgo.wf = false := by decide +kernel

/-- A field that fails its check: D, A, B, C, TY, MOD. -/
theorem test_ill_formed_fields : (Instr.add (mk 3 0xFF 1 2 0xE4 3 0)).wf = false ∧ (Instr.add (mk 3 6 0xFF 2 0xE4 3 0)).wf = false ∧
    (Instr.add (mk 3 6 1 0xE6 0xE4 3 0)).wf = false ∧ (Instr.add (mk 3 6 1 2 3 3 0)).wf = false ∧ (Instr.add (mk 3 6 1 2 0xE4 8 0)).wf = false ∧
    (Instr.add (mk 3 6 1 2 0xE4 3 2)).wf = false := by decide +kernel

end Sys2Proof.Tests
end

section
/-!
R3: what a read finds after a write of n bytes, and the sum of bytes that a read of n bytes is.
-/
namespace Sys2Proof.Machine

/-- The keys of a write's cells are distinct. -/
theorem cellsOf_keys_nodup (k n v : Nat) : ((cellsOf k n v).map (·.1)).Nodup := by
  rw [List.nodup_iff_pairwise_ne, List.pairwise_map]
  exact (cells_rise k n fun i => BitVec.ofNat 8 (v / 2 ^ (8 * i))).imp Nat.ne_of_lt

/-- Byte i of a write is digit i of the value in base 256. -/
theorem rdByte_wrMem_same (s : State) (k n v i : Nat) (hi : i < n) :
    rdByte (wrMem s k n v) (k + i) = BitVec.ofNat 8 (v / 2 ^ (8 * i)) :=
  sget_ssetAll_mem 0#8 (cellsOf k n v) s.mem (k + i, BitVec.ofNat 8 (v / 2 ^ (8 * i)))
    (List.mem_map.mpr ⟨i, List.mem_range.mpr hi, rfl⟩) (cellsOf_keys_nodup k n v)

/-- A read of one byte more adds that byte as the most significant. -/
theorem rdMem_succ (s : State) (k n : Nat) :
    rdMem s k (n + 1) = rdMem s k n + (rdByte s (k + n)).toNat * 2 ^ (8 * n) := by
  simp only [rdMem, List.range_succ, List.foldl_append, List.foldl_cons, List.foldl_nil]

/-- Memory that holds a value's bytes reads as that value. -/
theorem rdMem_of_bytes (s : State) (k n v : Nat) (h : ∀ i < n, rdByte s (k + i) = BitVec.ofNat 8 (v / 2 ^ (8 * i))) :
    rdMem s k n = v % 2 ^ (8 * n) := by
  induction n with
  | zero => simp [rdMem, Nat.mod_one]
  | succ n ih =>
    rw [rdMem_succ, ih fun i hi => h i (by omega), h n (by omega), BitVec.toNat_ofNat,
      show 8 * (n + 1) = 8 * n + 8 by ring, Nat.pow_add, Nat.mod_mul, Nat.mul_comm (2 ^ (8 * n))]

/-- Settles O58: the cells of a write have distinct keys, so each is read back, and their sum is the value. -/
theorem memoryReadAfterWrite : Obligations.MemoryReadAfterWrite := by
  intro s k n v
  refine ⟨fun i hi => rdByte_wrMem_same s k n v i hi, fun a ha => rdByte_wrMem_ne s k n v a ha, ?_⟩
  exact rdMem_of_bytes _ k n v fun i hi => rdByte_wrMem_same s k n v i hi

end Sys2Proof.Machine
end

section
/-!
The canonical form of memory under each function of the model, in the order of the model's files: a function that does not write memory has
an equation `f_mem`, one that does has a lemma `wf_f` that carries the form over. First, what these proofs share.

The kernel evaluates a `match` or an `if` that it compares with another one, and one whose test reads memory evaluates for very long. So
some proofs name such a test by a variable (`obtain ⟨p, hp⟩ : ∃ p, test = p`), or a function before its definition is opened, and only
then split. An equation whose sides are the same by definition is proved `by rfl`, so that `simp` rewrites with it and leaves a proof.
-/
namespace Sys2Proof.Machine

/-- A fold that carries a state beside other data leaves memory when each of its steps does. -/
theorem mem_foldl_fst {α β : Type} (g : State × β → α → State × β) (hg : ∀ p x, (g p x).1.mem = p.1.mem) (xs : List α) (p : State × β) :
    (xs.foldl g p).1.mem = p.1.mem := by
  induction xs generalizing p with
  | nil => rfl
  | cons x xs ih => rw [List.foldl_cons, ih, hg]

/-- A fold that carries a state beside other data keeps the form when each of its steps does. -/
theorem wf_foldl_fst {α β : Type} (g : State × β → α → State × β)
    (hg : ∀ p x, Memory.wf p.1.mem = true → Memory.wf (g p x).1.mem = true) (xs : List α) (p : State × β) (h : Memory.wf p.1.mem = true) :
    Memory.wf (xs.foldl g p).1.mem = true := by
  induction xs generalizing p with
  | nil => exact h
  | cons x xs ih => exact ih _ (hg _ _ h)

/-- The form of memory on both sides of a test. -/
theorem wf_ite {p : Prop} [Decidable p] {s t : State} (hs : Memory.wf s.mem = true) (ht : Memory.wf t.mem = true) :
    Memory.wf (if p then s else t).mem = true := by
  split
  · exact hs
  · exact ht

end Sys2Proof.Machine
end

section
/-!
Operations in flight (Machine/Ops.lean).
-/
namespace Sys2Proof.Machine

@[simp] theorem setTime_mem (s : State) (core t : ℕ) : (setTime s core t).mem = s.mem := by rfl

@[simp] theorem addStalls_mem (x : Wait) (s : State) : (addStalls x s).mem = s.mem := by
  unfold addStalls
  split
  · exact mem_foldl _ (fun _ _ => by split <;> rfl) _ _
  · rfl

@[simp] theorem suspend_mem (c : Ctx) (x : Wait) (s : State) : (suspend c x s).mem = s.mem := by
  simp [suspend]

@[simp] theorem park_mem (c : Ctx) (x : Wait) (s : State) : (park c x s).mem = s.mem := by rfl

@[simp] theorem removeSplit_mem (s : State) (w k : ℕ) : (removeSplit s w k).mem = s.mem := by rfl

@[simp] theorem addSplit_mem (s : State) (w : ℕ) (sp : Split) : (addSplit s w sp).mem = s.mem := by rfl

@[simp] theorem divide_mem (c : Ctx) (near : Bool) (gs : List Group) (s : State) : (divide c near gs s).mem = s.mem := by
  unfold divide
  dsimp only
  split
  · simp
  · exact (mem_foldl _ (fun _ _ => addSplit_mem _ _ _) _ _).trans (setSplit_mem _ _ _ _)

@[simp] theorem stampOp_mem (c : Ctx) (s : State) : (stampOp c s).mem = s.mem := by rfl

@[simp] theorem writeDst_mem (s : State) (o : Op) (ws : List (ℕ × ℕ × TWord)) : (writeDst s o ws).mem = s.mem := by
  simp [writeDst, mem_foldl, apply_ite State.mem]

end Sys2Proof.Machine
end

section
/-!
Containment of a block (Machine/Contain.lean).
-/
namespace Sys2Proof.Machine

@[simp] theorem vesper_mem (s : State) (log typ source d0 d1 d2 : ℕ) : (vesper s log typ source d0 d1 d2).mem = s.mem := by rfl

@[simp] theorem killBlock_mem (s : State) (b : ℕ) : (killBlock s b).mem = s.mem := by rfl

@[simp] theorem containBlock_mem (s : State) (b source cause : ℕ) (va : Word) : (containBlock s b source cause va).mem = s.mem := by
  simp [containBlock, apply_ite State.mem]

@[simp] theorem contain_mem (s : State) (w source cause : ℕ) (va : Word) : (contain s w source cause va).mem = s.mem := by
  simp [contain]

end Sys2Proof.Machine
end

section
/-!
Traps (Machine/Trap.lean).
-/
namespace Sys2Proof.Machine

@[simp] theorem takeTrap_mem (s : State) (w k t path : ℕ) (header : Bool) (word : Word) (r : TrapReq) :
    (takeTrap s w k t path header word r).mem = s.mem := by
  unfold takeTrap
  dsimp only
  split <;> simp

@[simp] theorem raise_mem (c : Ctx) (r : TrapReq) (s : State) : (raise c r s).mem = s.mem := by
  simp [raise]

@[simp] theorem raiseAll_mem (c : Ctx) (cause sub : ℕ) (s : State) : (raiseAll c cause sub s).mem = s.mem := by
  simp [raiseAll]

end Sys2Proof.Machine
end

section
/-!
Translation entries and versioned data blocks (Machine/Translate.lean).
-/
namespace Sys2Proof.Machine

@[simp] theorem tlbEnter_mem (s : State) (die space va : ℕ) (l : Leaf) : (tlbEnter s die space va l).mem = s.mem := by rfl

@[simp] theorem wf_touchLeaf (s : State) (die space va : ℕ) (l : Leaf) (write : Bool) (h : Memory.wf s.mem = true) :
    Memory.wf (touchLeaf s die space va l write).mem = true := by
  simp [touchLeaf, apply_ite State.mem, apply_ite Memory.wf, h, wf_wrMem]

@[simp] theorem setLatch_mem (s : State) (r : ℕ) (g : RegionLatch → RegionLatch) : (setLatch s r g).mem = s.mem := by
  unfold setLatch
  split <;> rfl

@[simp] theorem wf_putWstep (s : State) (r t : ℕ) (h : Memory.wf s.mem = true) : Memory.wf (putWstep s r t).mem = true := by
  simp [putWstep, h, wf_wrMem]

@[simp] theorem wf_putLastck (s : State) (r t : ℕ) (h : Memory.wf s.mem = true) : Memory.wf (putLastck s r t).mem = true := by
  simp [putLastck, h, wf_wrMem]

@[simp] theorem wf_putCsel (s : State) (r n : ℕ) (h : Memory.wf s.mem = true) : Memory.wf (putCsel s r n).mem = true := by
  unfold putCsel
  rw [setLatch_mem]
  exact wf_wrMem _ _ _ _ h

@[simp] theorem setCk_mem (s : State) (r : ℕ) (x : CkState) : (setCk s r x).mem = s.mem := by rfl

@[simp] theorem wf_putVdb (s : State) (vdb v : ℕ) (h : Memory.wf s.mem = true) : Memory.wf (putVdb s vdb v).mem = true := by
  simp [putVdb, h, wf_wrMem]

end Sys2Proof.Machine
end

section
/-!
Frames of versioned pages (Machine/Cow.lean).
-/
namespace Sys2Proof.Machine

@[simp] theorem cleanFrame_mem (s : State) (f : ℕ) : (cleanFrame s f).mem = s.mem := by rfl

theorem wf_pushDead (s : State) (v : ℕ) (h : Memory.wf s.mem = true) : Memory.wf (pushDead s v).1.mem = true := by
  refine wf_foldl_fst _ (fun p j hp => ?_) _ _ h
  dsimp only
  split
  · exact wf_wrMem _ _ _ _ (wf_wrMem _ _ _ _ (by simpa using hp))
  · exact hp

@[simp] theorem moveRecords_mem (s : State) (src dst : ℕ) : (moveRecords s src dst).mem = s.mem := by rfl

theorem wf_allocFrame {s t : State} {vdb : ℕ} (h : Memory.wf s.mem = true) (ht : allocFrame s vdb = .ok t) : Memory.wf t.mem = true := by
  obtain ⟨p, hp⟩ : ∃ p, pushDead s (rdVdb s vdb) = p := ⟨_, rfl⟩
  have h1 : Memory.wf p.1.mem = true := hp ▸ wf_pushDead s _ h
  simp only [allocFrame, hp] at ht
  split at ht
  · cases ht
  · split at ht
    · cases ht
      exact wf_putVdb _ _ _ (by simpa using h1)
    · split at ht
      · cases ht
      · split at ht
        · cases ht
        · cases ht
          exact wf_putVdb _ _ _ (by simpa using wf_wrMem _ _ _ _ h1)

theorem wf_redirect {s : State} {key : ℕ} {r : State × ℕ} (h : Memory.wf s.mem = true) (hr : redirect s key = some r) :
    Memory.wf r.1.mem = true := by
  obtain ⟨o, ho⟩ : ∃ o, frameHome s (key / 2 ^ 16) = o := ⟨_, rfl⟩
  obtain ⟨c, hc⟩ : ∃ c : ℕ → Bool, ∀ vdb, vdbWv (rdVdb s vdb) = c vdb := ⟨_, fun _ => rfl⟩
  simp only [redirect, ho, hc] at hr
  split at hr
  · cases hr
  · split at hr
    · cases hr
    · next hs =>
      cases hr
      refine wf_verFill _ _ _ _ ?_
      split at hs
      · cases hs; exact h
      · exact wf_allocFrame h hs

end Sys2Proof.Machine
end

section
/-!
Accesses: caches, writebacks, marks and races (Machine/Access.lean).
-/
namespace Sys2Proof.Machine

@[simp] theorem logDropped_mem (s : State) (port pa sender : ℕ) : (logDropped s port pa sender).mem = s.mem := by rfl

@[simp] theorem wf_touch (s : State) (a : Agent) (va : ℕ) (l : Leaf) (write : Bool) (h : Memory.wf s.mem = true) :
    Memory.wf (touch s a va l write).mem = true := by
  have owned : ∀ t : State, Memory.wf t.mem = true →
      Memory.wf (if l.tgt = 0 ∧ l.coh = 2 then { t with owners := sset 0 t.owners (ownerKey l) (a.core + 1) } else t).mem = true := by
    intro t ht
    split <;> exact ht
  exact owned _ (wf_touchLeaf _ _ _ _ _ _ h)

@[simp] theorem walked_mem (s : State) (a : Agent) (va : ℕ) : (walked s a va).mem = s.mem := by
  unfold walked
  split
  · rfl
  · split <;> simp

@[simp] theorem walkedAll_mem (s : State) (a : Agent) (vas : List ℕ) : (walkedAll s a vas).mem = s.mem := by
  simp [walkedAll, mem_foldl]

@[simp] theorem countRaces_mem (s : State) (b n : ℕ) : (countRaces s b n).mem = s.mem := by
  unfold countRaces
  split <;> rfl

@[simp] theorem noteAccess_mem (s : State) (b key : ℕ) (k : AKind) : (noteAccess s b key k).mem = s.mem := by
  unfold noteAccess
  split <;> rfl

@[simp] theorem raceRecord_mem (s : State) (b key : ℕ) (l : Leaf) (k : AKind) : (raceRecord s b key l k).mem = s.mem := by
  simp [raceRecord, apply_ite State.mem]

@[simp] theorem wf_noteAcc (s : State) (a : Agent) (k : AKind) (l : Leaf) (x : Acc) (h : Memory.wf s.mem = true) :
    Memory.wf (noteAcc s a k l x).mem = true := by
  unfold noteAcc
  rw [mem_foldl _ (fun _ _ => raceRecord_mem _ _ _ _ _)]
  exact wf_touch _ _ _ _ _ h

@[simp] theorem performRelease_mem (s : State) (b scope : ℕ) : (performRelease s b scope).1.mem = s.mem := by rfl

@[simp] theorem acquireMark_mem (s : State) (b scope : ℕ) (m : Mark) : (acquireMark s b scope m).mem = s.mem := by
  simp [acquireMark, mem_foldl, apply_ite State.mem]

@[simp] theorem copyMarks_mem (s : State) (src dst : ℕ → ℕ) (ks : List ℕ) : (copyMarks s src dst ks).mem = s.mem := by
  unfold copyMarks
  split <;> rfl

@[simp] theorem writeMarks_mem (s : State) (key n : ℕ) (keep : Bool) (m : List Mark) : (writeMarks s key n keep m).mem = s.mem := by
  unfold writeMarks
  split <;> rfl

@[simp] theorem acquireAll_mem (s : State) (b scope : ℕ) (ms : List Mark) : (acquireAll s b scope ms).mem = s.mem := by
  simp [acquireAll, mem_foldl]

@[simp] theorem seeMarks_mem (s : State) (w lane : ℕ) (ms : List Mark) : (seeMarks s w lane ms).mem = s.mem := by
  unfold seeMarks
  split <;> rfl

@[simp] theorem fillSector_mem (s : State) (cache key : ℕ) (below : ℕ → Byte) (src : ℕ → ℕ) :
    (fillSector s cache key below src).mem = s.mem := by
  simp [fillSector]

@[simp] theorem dropClean_mem (s : State) (cache key : ℕ) : (dropClean s cache key).mem = s.mem := by rfl

@[simp] theorem evictStale_mem (s : State) (a : Agent) (key n : ℕ) : (evictStale s a key n).mem = s.mem := by
  simp [evictStale, apply_ite State.mem]

@[simp] theorem syncTable_mem (s : State) : (syncTable s).mem = s.mem := by
  simp [syncTable, mem_foldl, syncRegion_mem, apply_ite State.mem]

@[simp] theorem syncWords_mem (s : State) (ws : List ℕ) : (syncWords s ws).mem = s.mem :=
  mem_foldl _ (fun _ _ => syncRegions_mem _ _ _) _ _

@[simp] theorem wf_writeCells (s : State) (cs : List Host.Cell) (h : Memory.wf s.mem = true) : Memory.wf (writeCells s cs).mem = true := by
  unfold writeCells
  rw [syncWords_mem]
  exact wf_setAll _ _ h

@[simp] theorem wf_foreignCommit (s : State) (who key n : ℕ) (h : Memory.wf s.mem = true) :
    Memory.wf (foreignCommit s who key n).mem = true := by
  unfold foreignCommit
  split
  · exact h
  · exact wf_foldl _ wf_commitBlock _ _ h

@[simp] theorem wf_writeHome (s : State) (who key n v : ℕ) (h : Memory.wf s.mem = true) :
    Memory.wf (writeHome s who key n v).mem = true := by
  simp [writeHome, apply_ite State.mem, apply_ite Memory.wf, h, wf_writeRaw]

@[simp] theorem wf_writeOutside (s : State) (key n v : ℕ) (h : Memory.wf s.mem = true) : Memory.wf (writeOutside s key n v).mem = true := by
  simp [writeOutside, h]

@[simp] theorem keepOld_mem (s : State) (key n : ℕ) : (keepOld s key n).mem = s.mem := by
  unfold keepOld
  split <;> rfl

@[simp] theorem flushOld_mem (s : State) (p : ℕ → Bool) : (flushOld s p).mem = s.mem := by rfl

@[simp] theorem wf_writeHw (s : State) (who key n v : ℕ) (h : Memory.wf s.mem = true) : Memory.wf (writeHw s who key n v).mem = true := by
  simp [writeHw, h]

@[simp] theorem wf_writeProv (s : State) (b key n v : ℕ) (h : Memory.wf s.mem = true) : Memory.wf (writeProv s b key n v).mem = true := by
  simp [writeProv, apply_ite State.mem, apply_ite Memory.wf, h, wf_commitBlock]

@[simp] theorem wf_swPut (s : State) (a : Agent) (level key n v : ℕ) (h : Memory.wf s.mem = true) :
    Memory.wf (swPut s a level key n v).mem = true := by
  unfold swPut
  split <;> simp [h]

@[simp] theorem wf_writeAt (s : State) (a : Agent) (sw : Bool) (level key n v : ℕ) (h : Memory.wf s.mem = true) :
    Memory.wf (writeAt s a sw level key n v).mem = true := by
  simp [writeAt, apply_ite State.mem, apply_ite Memory.wf, h]

@[simp] theorem poolDiscard_mem (s : State) (r : ℕ) : (poolDiscard s r).mem = s.mem := by rfl

@[simp] theorem wbL1_mem (p : ℕ → Bool) (s : State) (core : ℕ) : (wbL1 p s core).mem = s.mem := by
  simp [wbL1]

@[simp] theorem wf_wbFrozen (die : ℕ) (s : State) (e : ℕ × Byte) (h : Memory.wf s.mem = true) :
    Memory.wf (wbFrozen die s e).mem = true := by
  unfold wbFrozen
  split
  · exact h
  · next hr => exact wf_writeCells _ _ (wf_redirect h hr)

@[simp] theorem wf_wbDc (p : ℕ → Bool) (s : State) (die : ℕ) (h : Memory.wf s.mem = true) : Memory.wf (wbDc p s die).mem = true := by
  refine wf_foldl _ (wf_wbFrozen die) _ _ (wf_writeCells _ _ (wf_foldl _ (fun _ _ => wf_foreignCommit _ _ _ _) _ _ ?_))
  refine wf_foldl _ (fun s k h => ?_) _ _ (wf_foldl _ (fun s k h => by simpa using h) _ _ (by simpa using h))
  split <;> simpa using h

@[simp] theorem dropCache_mem (p : ℕ → Bool) (s : State) (cache : ℕ) : (dropCache p s cache).mem = s.mem := by rfl

@[simp] theorem wf_evictLine (s : State) (die line : ℕ) (h : Memory.wf s.mem = true) : Memory.wf (evictLine s die line).mem = true := by
  unfold evictLine
  rw [dropCache_mem]
  exact wf_wbDc _ _ _ (wf_foldl _ wf_commitBlock _ _ h)

@[simp] theorem wf_dcTouch (s : State) (die cls pol key : ℕ) (h : Memory.wf s.mem = true) :
    Memory.wf (dcTouch s die cls pol key).mem = true := by
  unfold dcTouch
  dsimp only
  repeat' split
  all_goals simp [h]

@[simp] theorem wf_readFor (s : State) (a : Agent) (sw : Bool) (cls pol key n : ℕ) (h : Memory.wf s.mem = true) :
    Memory.wf (readFor s a sw cls pol key n).1.mem = true := by
  unfold readFor
  dsimp only
  split <;> simp [apply_ite State.mem, h]

@[simp] theorem wf_wbScope (s : State) (die scope : ℕ) (p : ℕ → Bool) (h : Memory.wf s.mem = true) :
    Memory.wf (wbScope s die scope p).mem = true := by
  unfold wbScope
  split
  · exact h
  · exact wf_foldl _ (wf_wbDc p) _ _ (wf_foldl _ (fun _ _ h => by simpa using h) _ _ h)

@[simp] theorem wf_invScope (s : State) (die scope : ℕ) (p : ℕ → Bool) (h : Memory.wf s.mem = true) :
    Memory.wf (invScope s die scope p).mem = true := by
  unfold invScope
  split
  · exact h
  · exact wf_foldl _ (fun _ _ h => by simpa using h) _ _ (wf_foldl _ (fun _ _ h => by simpa using h) _ _ (wf_wbScope _ _ _ _ h))

@[simp] theorem wf_settleSw (s : State) (a : Agent) (key n : ℕ) (h : Memory.wf s.mem = true) :
    Memory.wf (settleSw s a key n).mem = true := by
  simp [settleSw, apply_ite State.mem, apply_ite Memory.wf, h]

end Sys2Proof.Machine
end

section
/-!
Operands and results of a word (Machine/Operands.lean).
-/
namespace Sys2Proof.Machine

@[simp] theorem holdUntil_mem (busy : ℕ) (s : State) (cu : Cur) : (holdUntil busy s cu).mem = s.mem := by rfl

theorem wf_pathRule (c : Ctx) (s0 s' : State) (h0 : Memory.wf s0.mem = true) (h : Memory.wf s'.mem = true) :
    Memory.wf (pathRule c s0 s').mem = true := by
  unfold pathRule
  dsimp only
  split
  · exact h0
  · exact h

theorem wf_withCommit (c : Ctx) (yes : Bool) (s0 s : State) (go : State → State) (h0 : Memory.wf s0.mem = true) (h : Memory.wf s.mem = true)
    (hg : ∀ s, Memory.wf s.mem = true → Memory.wf (go s).mem = true) : Memory.wf (withCommit c yes s0 s go).mem = true := by
  unfold withCommit
  dsimp only
  split
  · split
    · simpa using h0
    · exact hg _ (wf_commitBlock _ _ h)
  · exact hg _ h

@[simp] theorem wf_pushLanes (s : State) (w : ℕ) (sup : Bool) (q : ℕ) (vs : List (ℕ × PushRes)) (h : Memory.wf s.mem = true) :
    Memory.wf (pushLanes s w sup q vs).mem = true := by
  refine wf_foldl _ (fun s e h => ?_) _ _ h
  dsimp only
  split <;> simp [h]

@[simp] theorem finishFixed_mem (c : Ctx) (lat : ℕ) (rs : List (ℕ × LaneRes)) (s : State) : (finishFixed c lat rs s).mem = s.mem := by
  unfold finishFixed
  dsimp only
  split <;> simp

theorem wf_pushResults (c : Ctx) (rs : List (ℕ × TWord)) (s0 s : State) (go : State → State) (h0 : Memory.wf s0.mem = true)
    (h : Memory.wf s.mem = true) (hg : ∀ s, Memory.wf s.mem = true → Memory.wf (go s).mem = true) :
    Memory.wf (pushResults c rs s0 s go).mem = true := by
  unfold pushResults
  dsimp only
  split
  · simpa using h0
  · split
    · simpa using h0
    · split
      · simpa using h0
      · exact wf_withCommit _ _ _ _ _ h0 h (fun s hs => hg _ (wf_pushLanes _ _ _ _ _ hs))

theorem wf_finishPush (c : Ctx) (rs : List (ℕ × LaneRes)) (s0 s : State) (h0 : Memory.wf s0.mem = true) (h : Memory.wf s.mem = true) :
    Memory.wf (finishPush c rs s0 s).mem = true :=
  wf_pushResults _ _ _ _ _ h0 h (fun _ hs => by dsimp only; split <;> simpa using hs)

theorem wf_laneBody (spec : OpSpec) (lat : ℕ) (g : Ctx → State → TWord → TWord → TWord → TWord → LaneRes) (c : Ctx) (s : State)
    (h : Memory.wf s.mem = true) : Memory.wf (laneBody spec lat g c s).mem = true := by
  unfold laneBody
  dsimp only
  split
  · exact wf_finishPush _ _ _ _ h (by simpa using h)
  · simpa using h

theorem wf_pushGate (c : Ctx) (lanes : List ℕ) (s0 go : State) (h0 : Memory.wf s0.mem = true) (hg : Memory.wf go.mem = true) :
    Memory.wf (pushGate c lanes s0 go).mem = true := by
  unfold pushGate
  split
  · exact hg
  · exact wf_pushResults _ _ _ _ _ h0 h0 (fun _ _ => hg)

@[simp] theorem startVar_mem (c : Ctx) (cls : Counter) (mask : Mask) (lanes : List ℕ) (kind : OpKind) (s : State) :
    (startVar c cls mask lanes kind s).mem = s.mem := by
  unfold startVar
  split <;> rfl

theorem wf_pushLate (s : State) (o : Op) (p : PushTo) (ws : List (ℕ × ℕ × TWord)) (go : State → State) (h : Memory.wf s.mem = true)
    (hg : ∀ s, Memory.wf s.mem = true → Memory.wf (go s).mem = true) : Memory.wf (pushLate s o p ws go).mem = true := by
  unfold pushLate
  dsimp only
  split
  · simpa using h
  · refine hg _ (wf_pushLanes _ _ _ _ _ ?_)
    split
    · exact wf_commitBlock _ _ h
    · exact h

@[simp] theorem stallLate_mem (s : State) (o : Op) (x : Wait) : (stallLate s o x).mem = s.mem := by
  unfold stallLate
  split <;> simp

theorem wf_finishLate (s : State) (o : Op) (p : PushTo) (ws : List (ℕ × ℕ × TWord)) (keep go : State → State) (h : Memory.wf s.mem = true)
    (hk : Memory.wf (keep s).mem = true) (hg : ∀ s, Memory.wf s.mem = true → Memory.wf (go s).mem = true) :
    Memory.wf (finishLate s o p ws keep go).mem = true := by
  unfold finishLate
  split
  · exact hk
  · split
    · simpa using hk
    · exact wf_pushLate _ _ _ _ _ (by simpa using h) hg

@[simp] theorem wf_finishOp (s : State) (o : Op) (ws : List (ℕ × ℕ × TWord)) (h : Memory.wf s.mem = true) :
    Memory.wf (finishOp s o ws).mem = true := by
  unfold finishOp
  split
  · simpa using h
  · exact wf_finishLate _ _ _ _ _ _ h (by simpa using h) (fun _ hs => by simpa using hs)

@[simp] theorem settleNow_mem (c : Ctx) (ws : List (ℕ × TWord)) (s : State) : (settleNow c ws s).mem = s.mem := by
  simp [settleNow, apply_ite State.mem]

@[simp] theorem wf_settleAll (c : Ctx) (ws : List (ℕ × TWord)) (s : State) (h : Memory.wf s.mem = true) :
    Memory.wf (settleAll c ws s).mem = true := by
  simp [settleAll, apply_ite State.mem, apply_ite Memory.wf, h]

theorem wf_answerNow (c : Ctx) (ws : List (ℕ × TWord)) (s0 s : State) (go : State → State) (h0 : Memory.wf s0.mem = true)
    (h : Memory.wf s.mem = true) (hg : ∀ s, Memory.wf s.mem = true → Memory.wf (go s).mem = true) :
    Memory.wf (answerNow c ws s0 s go).mem = true := by
  unfold answerNow
  split
  · exact wf_pushResults _ _ _ _ _ h0 h hg
  · exact hg _ (by simpa using h)

end Sys2Proof.Machine
end

section
/-!
Integer words (Machine/Integer.lean).
-/
namespace Sys2Proof.Machine

@[simp] theorem divTake_mem (c : Ctx) (s : State) : (divTake c s).mem = s.mem := by rfl

end Sys2Proof.Machine
end

section
/-!
Floating words (Machine/FloatOps.lean).
-/
namespace Sys2Proof.Machine

@[simp] theorem wf_sfuIssue (c : Ctx) (settled : List (ℕ × TWord)) (rs : List (ℕ × LaneRes)) (s : State) (h : Memory.wf s.mem = true) :
    Memory.wf (sfuIssue c settled rs s).mem = true := by
  unfold sfuIssue
  dsimp only
  split <;> simp [apply_ite State.mem, h]

theorem wf_sfuBody (spec : OpSpec) (n : ℕ) (g : Ctx → State → TWord → TWord → TWord → TWord → LaneRes) (c : Ctx) (s : State)
    (h : Memory.wf s.mem = true) : Memory.wf (sfuBody spec n g c s).mem = true := by
  unfold sfuBody
  dsimp only
  split
  · simpa using h
  · exact wf_pushGate _ _ _ _ h (by simp [h])

theorem wf_cvtmxBody (c : Ctx) (s : State) (h : Memory.wf s.mem = true) : Memory.wf (cvtmxBody c s).mem = true :=
  wf_ite (wf_sfuBody _ _ _ _ _ h) (wf_sfuBody _ _ _ _ _ h)

@[simp] theorem startSfu_mem (id : ℕ) (s : State) : (startSfu id s).mem = s.mem := by
  unfold startSfu
  dsimp only
  repeat' split
  all_goals simp

@[simp] theorem sfuGoes_mem (o : Op) (ws : List (ℕ × ℕ × TWord)) (fl : List (ℕ × BitVec 6)) (fcr : Word) (k : ℕ) (word : Word) (s : State) :
    (sfuGoes o ws fl fcr k word s).mem = s.mem := by
  unfold sfuGoes
  split <;> simp

@[simp] theorem wf_completeSfu (id : ℕ) (s : State) (h : Memory.wf s.mem = true) : Memory.wf (completeSfu id s).mem = true := by
  unfold completeSfu
  split
  · split
    · dsimp only
      refine wf_ite h ?_
      split
      · simpa using h
      · simpa using h
      · exact wf_finishLate _ _ _ _ _ _ h h (fun _ hs => by simpa using hs)
      · exact wf_finishLate _ _ _ _ _ _ h h (fun _ hs => by simpa using hs)
    · exact h
  · exact h

end Sys2Proof.Machine
end

section
/-!
Tag words (Machine/Tags.lean).
-/
namespace Sys2Proof.Machine

theorem wf_srdBody (c : Ctx) (s : State) (h : Memory.wf s.mem = true) : Memory.wf (srdBody c s).mem = true :=
  wf_ite (wf_finishPush _ _ _ _ h h) (by simpa using h)

@[simp] theorem holdWarp_mem (s : State) (w t : ℕ) : (holdWarp s w t).mem = s.mem := by rfl

@[simp] theorem swrBody_mem (c : Ctx) (s : State) : (swrBody c s).mem = s.mem := by
  simp [swrBody, apply_ite State.mem]

end Sys2Proof.Machine
end

section
/-!
Control transfer (Machine/Control.lean).
-/
namespace Sys2Proof.Machine

@[simp] theorem branchLanes_mem (c : Ctx) (taken : Mask) (clear : Option ℕ) (s : State) : (branchLanes c taken clear s).mem = s.mem := by
  simp [branchLanes]

@[simp] theorem bdvBody_mem (c : Ctx) (s : State) : (bdvBody c s).mem = s.mem := by
  unfold bdvBody
  dsimp only
  split <;> simp

@[simp] theorem jmpBody_mem (c : Ctx) (s : State) : (jmpBody c s).mem = s.mem := by
  unfold jmpBody
  split <;> simp

theorem wf_callBody (c : Ctx) (s : State) (h : Memory.wf s.mem = true) : Memory.wf (callBody c s).mem = true := by
  unfold callBody
  dsimp only
  split
  · simpa using h
  · split
    · exact wf_pushResults _ _ _ _ _ h (by simpa using h) (fun _ hs => by simpa using hs)
    · simpa using h

@[simp] theorem loopSetBody_mem (c : Ctx) (s : State) : (loopSetBody c s).mem = s.mem := by
  unfold loopSetBody
  dsimp only
  split <;> simp [apply_ite State.mem]

@[simp] theorem loopNear_mem (c : Ctx) (s : State) : (loopNear c s).2.mem = s.mem := by
  unfold loopNear
  simp [apply_ite (fun r : Bool × State => r.2.mem)]

@[simp] theorem loopBody_mem (c : Ctx) (s : State) : (loopBody c s).mem = s.mem := by
  unfold loopBody
  simp [apply_ite State.mem]

@[simp] theorem waitBody_mem (c : Ctx) (s : State) : (waitBody c s).mem = s.mem := by
  simp [waitBody, apply_ite State.mem]

@[simp] theorem yieldBody_mem (c : Ctx) (s : State) : (yieldBody c s).mem = s.mem := by rfl

@[simp] theorem napBody_mem (c : Ctx) (s : State) : (napBody c s).mem = s.mem := by
  unfold napBody
  split <;> rfl

@[simp] theorem codeTrap_mem (cause : ℕ) (c : Ctx) (s : State) : (codeTrap cause c s).mem = s.mem := by
  simp [codeTrap]

@[simp] theorem notBefore_mem (c : Ctx) (t : ℕ) (s : State) : (notBefore c t s).mem = s.mem := by rfl

theorem wf_answerLate (c : Ctx) (v : TWord) (s : State) (h : Memory.wf s.mem = true) : Memory.wf (answerLate c v s).mem = true := by
  unfold answerLate
  dsimp only
  split
  · exact wf_pushResults _ _ _ _ _ h h (fun _ hs => by simpa using hs)
  · simpa using h

theorem wf_growBody (c : Ctx) (s : State) (h : Memory.wf s.mem = true) : Memory.wf (growBody c s).mem = true := by
  have now : ∀ ws, Memory.wf (answerNow c ws s s (advance c)).mem = true :=
    fun ws => wf_answerNow _ _ _ _ _ h h (fun _ hs => by simpa using hs)
  unfold growBody
  dsimp only
  split
  · exact now _
  · exact now _
  · split
    · exact now _
    · split
      · exact wf_answerLate _ _ _ h
      · exact wf_pushGate _ _ _ _ h (by simpa using h)

@[simp] theorem growAnswer_mem (s : State) (r : GrowReq) (v : TWord) : (growAnswer s r v).mem = s.mem := by
  simp [growAnswer, apply_ite State.mem]

@[simp] theorem growGrant_mem (s : State) (r : GrowReq) : (growGrant s r).mem = s.mem := by
  simp [growGrant, apply_ite State.mem]

end Sys2Proof.Machine
end

section
/-!
Words across lanes (Machine/Cross.lean).
-/
namespace Sys2Proof.Machine

theorem wf_crossBody (spec : OpSpec) (lat : ℕ) (g : Ctx → State → ℕ → LaneRes) (c : Ctx) (s : State)
    (h : Memory.wf s.mem = true) : Memory.wf (crossBody spec lat g c s).mem = true := by
  unfold crossBody
  dsimp only
  split
  · exact wf_finishPush _ _ _ _ h (by simpa using h)
  · simpa using h

@[simp] theorem bnsetBody_mem (c : Ctx) (s : State) : (bnsetBody c s).mem = s.mem := by
  simp [bnsetBody, apply_ite State.mem]

theorem wf_bncBody (c : Ctx) (s : State) (h : Memory.wf s.mem = true) : Memory.wf (bncBody c s).mem = true := by
  unfold bncBody
  dsimp only
  split
  · simpa using h
  · exact wf_pushGate _ _ _ _ h (by simpa using h)

@[simp] theorem treeTake_mem (c : Ctx) (s : State) : (treeTake c s).mem = s.mem := by rfl

theorem wf_redBody (spec : OpSpec) (node : Ctx → ℕ → ℕ) (c : Ctx) (s : State) (h : Memory.wf s.mem = true) :
    Memory.wf (redBody spec node c s).mem = true :=
  wf_ite (wf_finishPush _ _ _ _ (by simpa using h) (by simpa using h)) (by simpa using h)

end Sys2Proof.Machine
end

section
/-!
Words that access memory (Machine/Memory.lean).
-/
namespace Sys2Proof.Machine

theorem wf_decideLanes (c : Ctx) (s0 : State) (rs : List (ℕ × LaneChk)) (go : State) (h0 : Memory.wf s0.mem = true) (h : Memory.wf go.mem = true) :
    Memory.wf (decideLanes c s0 rs go).mem = true := by
  unfold decideLanes
  split
  · simpa using h0
  · split
    · simpa using h0
    · exact h

@[simp] theorem wf_touchAll (s : State) (a : Agent) (k : AKind) (xs : List (Leaf × Acc)) (h : Memory.wf s.mem = true) :
    Memory.wf (touchAll s a k xs).mem = true := by
  unfold touchAll
  exact wf_foldl _ (fun _ _ h => by simp [h]) _ _ h

@[simp] theorem settleGroup_mem (c : Ctx) (n : ℕ) (ws : List (ℕ × TWord)) (s : State) : (settleGroup c n ws s).mem = s.mem := by
  simp [settleGroup, mem_foldl]

@[simp] theorem wf_acquireNow (s : State) (w scope : ℕ) (h : Memory.wf s.mem = true) : Memory.wf (acquireNow s w scope).mem = true := by
  simp [acquireNow, h]

@[simp] theorem startLoad_mem (c : Ctx) (n : ℕ) (accs : List Acc) (kind : OpKind) (acq : Option ℕ) (s : State) :
    (startLoad c n accs kind acq s).mem = s.mem := by
  simp [startLoad, apply_ite State.mem]

theorem wf_issueLoad (c : Ctx) (n : ℕ) (acq : Option ℕ) (kind : List Acc → OpKind) (a : Agent) (rs : List (ℕ × LaneChk)) (s0 s : State)
    (h0 : Memory.wf s0.mem = true) (h : Memory.wf s.mem = true) : Memory.wf (issueLoad c n acq kind a rs s0 s).mem = true := by
  have hw : Memory.wf (walkedAll s0 a (refusedVas rs)).mem = true := by simpa using h0
  have ht : Memory.wf (touchAll (walkedAll s a (refusedVas rs)) a .load (accsOf rs)).mem = true := wf_touchAll _ _ _ _ (by simpa using h)
  unfold issueLoad
  dsimp only
  refine wf_decideLanes _ _ _ _ hw ?_
  split
  · simpa using h0
  · refine wf_pushGate _ _ _ _ hw ?_
    split
    · have ha : ∀ sc, Memory.wf (acquireNow (touchAll (walkedAll s a (refusedVas rs)) a .load (accsOf rs)) c.w sc).mem = true :=
        fun sc => wf_acquireNow _ _ _ ht
      split <;> split <;> simp [ht, ha, apply_ite State.mem, apply_ite Memory.wf]
    · simp [apply_ite State.mem, ht]

theorem wf_ldBody (spec : OpSpec) (n pol : ℕ) (acq : Option ℕ) (c : Ctx) (s : State) (h : Memory.wf s.mem = true) :
    Memory.wf (ldBody spec n pol acq c s).mem = true := by
  unfold ldBody
  exact wf_issueLoad _ _ _ _ _ _ _ _ h (by simpa using h)

@[simp] theorem startStore_mem (c : Ctx) (accs : List Acc) (kind : OpKind) (s : State) : (startStore c accs kind s).mem = s.mem := by
  unfold startStore
  split <;> rfl

theorem wf_stBody (spec : OpSpec) (k : AKind) (n pol : ℕ) (rel : Option ℕ) (c : Ctx) (s : State) (h : Memory.wf s.mem = true) :
    Memory.wf (stBody spec k n pol rel c s).mem = true := by
  unfold stBody
  refine wf_decideLanes _ _ _ _ (by simpa using h) (wf_withCommit _ _ _ _ _ (by simpa using h) (by simpa using h) (fun _ hs => ?_))
  rw [startStore_mem]
  exact wf_touchAll _ _ _ _ hs

theorem wf_ldlBody (spec : OpSpec) (remote : Bool) (c : Ctx) (s : State) (h : Memory.wf s.mem = true) :
    Memory.wf (ldlBody spec remote c s).mem = true := by
  unfold ldlBody
  refine wf_decideLanes _ _ _ _ h ?_
  dsimp only
  split
  · simpa using h
  · refine wf_pushGate _ _ _ _ h ?_
    split
    · split <;> simp [h]
    · simp [apply_ite State.mem, h]

theorem wf_stlBody (spec : OpSpec) (remote : Bool) (c : Ctx) (s : State) (h : Memory.wf s.mem = true) :
    Memory.wf (stlBody spec remote c s).mem = true := by
  unfold stlBody
  exact wf_decideLanes _ _ _ _ h (by simpa using h)

theorem wf_armBody (kind : ℕ) (c : Ctx) (s : State) (h : Memory.wf s.mem = true) : Memory.wf (armBody kind c s).mem = true :=
  wf_decideLanes _ _ _ _ h (by rw [advance_mem, mem_foldl _ (fun _ _ => setQueue_mem _ _ _ _ _), popAll_mem]; exact h)

@[simp] theorem maintBody_mem (inv : Bool) (c : Ctx) (s : State) : (maintBody inv c s).mem = s.mem := by
  unfold maintBody
  dsimp only
  split <;> simp [apply_ite State.mem]

@[simp] theorem scAfter_mem (s : State) (b scope : ℕ) : (scAfter s b scope).mem = s.mem := by
  simp [scAfter]

@[simp] theorem wf_fenceDo (s : State) (w : ℕ) (m : Mask) (ord scope : ℕ) (h : Memory.wf s.mem = true) :
    Memory.wf (fenceDo s w m ord scope).mem = true := by
  simp [fenceDo, apply_ite State.mem, apply_ite Memory.wf, h]

theorem wf_fenceBody (c : Ctx) (s : State) (h : Memory.wf s.mem = true) : Memory.wf (fenceBody c s).mem = true :=
  wf_withCommit _ _ _ _ _ h h (fun _ hs => wf_ite (by simp [hs]) (by simpa using hs))

@[simp] theorem setChan_mem (s : State) (w k v : ℕ) : (setChan s w k v).mem = s.mem := by rfl

@[simp] theorem chopenBody_mem (c : Ctx) (s : State) : (chopenBody c s).mem = s.mem := by
  unfold chopenBody
  dsimp only
  split <;> simp [apply_ite State.mem]

theorem wf_chstBody (c : Ctx) (s : State) (h : Memory.wf s.mem = true) : Memory.wf (chstBody c s).mem = true := by
  unfold chstBody
  dsimp only
  split
  · simpa using h
  · refine wf_decideLanes _ _ _ _ (by simpa using h) (wf_withCommit _ _ _ _ _ (by simpa using h) (by simpa using h) (fun _ hs => ?_))
    rw [startStore_mem]
    exact wf_touchAll _ _ _ _ hs

@[simp] theorem chfenceBody_mem (close : Bool) (c : Ctx) (s : State) : (chfenceBody close c s).mem = s.mem := by
  unfold chfenceBody
  dsimp only
  repeat' split
  all_goals simp

end Sys2Proof.Machine
end

section
/-!
Atomics (Machine/Atomic.lean).
-/
namespace Sys2Proof.Machine

@[simp] theorem startAtomic_mem (c : Ctx) (n : ℕ) (accs : List Acc) (a : AtomArgs) (s : State) :
    (startAtomic c n accs a s).mem = s.mem := by
  simp [startAtomic, apply_ite State.mem]

theorem wf_issueAtomic (spec : OpSpec) (c : Ctx) (n : ℕ) (k : AKind) (glob : Bool) (args : AtomArgs) (rs : List (ℕ × LaneChk)) (s : State)
    (h : Memory.wf s.mem = true) : Memory.wf (issueAtomic spec c n k glob args rs s).mem = true := by
  have hw : Memory.wf (if glob then walkedAll s (agentC c s) (refusedVas rs) else s).mem = true := by simpa [apply_ite State.mem] using h
  unfold issueAtomic
  refine wf_decideLanes _ _ _ _ hw ?_
  have go := wf_withCommit c (glob && !(accsOf rs).isEmpty) _
    (popAll (if glob then walkedAll s (agentC c s) (refusedVas rs) else s) c.w c.sp.mask (spec.reads c.f))
    (fun s1 =>
      let s2 := if glob then touchAll s1 (agentC c s) k (accsOf rs) else s1
      let ws := settledOf rs
      if isQ c.f.d && (accsOf rs).isEmpty then settleAll c ws s2
      else startAtomic c n ((accsOf rs).map (·.2)) args (if isZ c.f.d || isQ c.f.d then s2 else settleGroup c n ws s2))
    hw (by simpa using hw) (fun s1 h1 => by
      have h2 : Memory.wf (if glob then touchAll s1 (agentC c s) k (accsOf rs) else s1).mem = true := by
        split
        · exact wf_touchAll _ _ _ _ h1
        · exact h1
      dsimp only
      split
      · exact wf_settleAll _ _ _ h2
      · simpa [apply_ite State.mem] using h2)
  dsimp only
  split
  · exact go
  · exact wf_pushGate _ _ _ _ hw go

theorem wf_atomBody (spec : OpSpec) (kind : ℕ) (k : AKind) (c : Ctx) (s : State) (h : Memory.wf s.mem = true) :
    Memory.wf (atomBody spec kind k c s).mem = true :=
  wf_issueAtomic _ _ _ _ _ _ _ _ h

theorem wf_atomlBody (c : Ctx) (s : State) (h : Memory.wf s.mem = true) : Memory.wf (atomlBody c s).mem = true :=
  wf_issueAtomic _ _ _ _ _ _ _ _ h

theorem wf_casBody (c : Ctx) (s : State) (h : Memory.wf s.mem = true) : Memory.wf (casBody c s).mem = true :=
  wf_issueAtomic _ _ _ _ _ _ _ _ h

theorem wf_cas2Body (c : Ctx) (s : State) (h : Memory.wf s.mem = true) : Memory.wf (cas2Body c s).mem = true :=
  wf_issueAtomic _ _ _ _ _ _ _ _ h

theorem wf_fredBody (c : Ctx) (s : State) (h : Memory.wf s.mem = true) : Memory.wf (fredBody c s).mem = true :=
  wf_issueAtomic _ _ _ _ _ _ _ _ h

end Sys2Proof.Machine
end

section
/-!
Objects: barriers, tokens and circular buffers (Machine/Objects.lean).
-/
namespace Sys2Proof.Machine

@[simp] theorem setAo_mem (s : State) (b k : ℕ) (o : AObj) : (setAo s b k o).mem = s.mem := by rfl

@[simp] theorem setCbar_mem (s : State) (cl : ℕ) (o : AObj) : (setCbar s cl o).mem = s.mem := by rfl

@[simp] theorem wakeWaits_mem (s : State) (b k : ℕ) (o : AObj) : (wakeWaits s b k o).mem = s.mem := by
  simp [wakeWaits, mem_foldl]

@[simp] theorem putAo_mem (s : State) (b k : ℕ) (o : AObj) : (putAo s b k o).mem = s.mem := by
  simp [putAo]

@[simp] theorem putCbar_mem (s : State) (cl : ℕ) (o : AObj) : (putCbar s cl o).mem = s.mem := by
  simp [putCbar, mem_foldl]

@[simp] theorem aoEngine_mem (s : State) (b k c n flags tag : ℕ) (ms : List Mark) : (aoEngine s b k c n flags tag ms).mem = s.mem := by
  simp [aoEngine, apply_ite State.mem]

@[simp] theorem aoSignal_mem (s : State) (b k c n flags tag : ℕ) (ms : List Mark) : (aoSignal s b k c n flags tag ms).mem = s.mem := by
  simp [aoSignal, apply_ite State.mem]

@[simp] theorem wf_tileSend (s : State) (b off n data : ℕ) (h : Memory.wf s.mem = true) :
    Memory.wf (tileSend s b off n data).mem = true := by
  simp [tileSend, apply_ite State.mem, apply_ite Memory.wf, h, wf_wrMem]

@[simp] theorem wf_writeHalf (s : State) (b pos data : ℕ) (h : Memory.wf s.mem = true) : Memory.wf (writeHalf s b pos data).mem = true := by
  simp [writeHalf, h, wf_wrMem]

@[simp] theorem wf_halfSend (s : State) (b pos data : ℕ) (h : Memory.wf s.mem = true) : Memory.wf (halfSend s b pos data).mem = true := by
  simp [halfSend, apply_ite State.mem, apply_ite Memory.wf, h]

@[simp] theorem aoRegister_mem (s : State) (b k n tag : ℕ) : (aoRegister s b k n tag).mem = s.mem := by
  simp [aoRegister]

@[simp] theorem putObj_mem (s : State) (b k : ℕ) (o : AObj) : (putObj s b k o).mem = s.mem := by
  simp [putObj, apply_ite State.mem]

@[simp] theorem wf_arriveNow (s : State) (w : ℕ) (m : Mask) (k n scope tag : ℕ) (h : Memory.wf s.mem = true) :
    Memory.wf (arriveNow s w m k n scope tag).mem = true := by
  simp [arriveNow, h]

@[simp] theorem wf_settleArrivals (s : State) (h : Memory.wf s.mem = true) : Memory.wf (settleArrivals s).mem = true := by
  refine wf_foldl _ (fun s o h => ?_) _ _ h
  split
  · exact wf_ite h (wf_arriveNow _ _ _ _ _ _ _ (by simpa using h))
  · exact h

@[simp] theorem wf_arrive (s : State) (w : ℕ) (m : Mask) (k n scope tag : ℕ) (h : Memory.wf s.mem = true) :
    Memory.wf (arrive s w m k n scope tag).mem = true := by
  simp [arrive, apply_ite State.mem, apply_ite Memory.wf, h]

@[simp] theorem leaveObj_mem (s : State) (w k lane : ℕ) : (leaveObj s w k lane).mem = s.mem := by
  simp [leaveObj]

@[simp] theorem endWarp_mem (s : State) (w : ℕ) : (endWarp s w).mem = s.mem := by
  simp [endWarp, apply_ite State.mem]

@[simp] theorem leaveLanes_mem (s : State) (w : ℕ) (m : Mask) : (leaveLanes s w m).mem = s.mem := by
  simp [leaveLanes, mem_foldl]

end Sys2Proof.Machine
end

section
/-!
Registers of the package (Machine/Regs.lean).
-/
namespace Sys2Proof.Machine

@[simp] theorem setRing_mem (s : State) (die : ℕ) (r : PageRing) : (setRing s die r).mem = s.mem := by rfl

@[simp] theorem vesperRead_mem (s : State) (thread log pos i : ℕ) : (vesperRead s thread log pos i).1.mem = s.mem := by
  unfold vesperRead
  dsimp only
  split
  · rfl
  · split <;> rfl

@[simp] theorem regRead_mem (s : State) (thread off : ℕ) : (regRead s thread off).1.mem = s.mem := by
  unfold regRead
  simp [apply_ite (fun r : State × Word => r.1.mem)]

@[simp] theorem setPkg_mem (s : State) (p : Pkg) : (setPkg s p).mem = s.mem := by rfl

@[simp] theorem writePkgid_mem (s : State) (v : Word) : (writePkgid s v).mem = s.mem := by
  unfold writePkgid
  split <;> rfl

@[simp] theorem writeHalotmo_mem (s : State) (v : Word) : (writeHalotmo s v).mem = s.mem := by rfl

@[simp] theorem writeRoute_mem (s : State) (p : ℕ) (v : Word) : (writeRoute s p v).mem = s.mem := by rfl

@[simp] theorem writePool_mem (s : State) (r i : ℕ) (v : Word) : (writePool s r i v).mem = s.mem := by
  unfold writePool
  dsimp only
  split <;> simp [apply_ite State.mem]

@[simp] theorem startRestore_mem (s : State) : (startRestore s).mem = s.mem := by
  unfold startRestore
  split <;> rfl

@[simp] theorem writeMbox_mem (s : State) (i : ℕ) (v : Word) : (writeMbox s i v).mem = s.mem := by
  unfold writeMbox
  dsimp only
  repeat' split
  all_goals simp

@[simp] theorem writePrqdone_mem (s : State) (die v : ℕ) : (writePrqdone s die v).mem = s.mem := by rfl

@[simp] theorem setSlot_mem (s : State) (die k : ℕ) (x : HostSlot) : (setSlot s die k x).mem = s.mem := by rfl

@[simp] theorem countDiscard_mem (s : State) (die : ℕ) : (countDiscard s die).mem = s.mem := by rfl

@[simp] theorem ringDoorbell_mem (s : State) (die k : ℕ) : (ringDoorbell s die k).mem = s.mem := by
  simp [ringDoorbell, apply_ite State.mem]

@[simp] theorem writeWindow_mem (s : State) (off : ℕ) (v : Word) : (writeWindow s off v).mem = s.mem := by
  simp [writeWindow, apply_ite State.mem]

@[simp] theorem regWrite_mem (s : State) (off : ℕ) (v : Word) : (regWrite s off v).mem = s.mem := by
  unfold regWrite
  dsimp only
  repeat' split
  all_goals simp

@[simp] theorem hostIoWrite_mem (s : State) (off : ℕ) (v : Word) : (hostIoWrite s off v).mem = s.mem := by
  simp [hostIoWrite, apply_ite State.mem]

end Sys2Proof.Machine
end

section
/-!
Boxes of a copy (Machine/Box.lean).
-/
namespace Sys2Proof.Machine

@[simp] theorem raceEngine_mem (s : State) (b key : ℕ) (l : Leaf) (k : AKind) : (raceEngine s b key l k).mem = s.mem := by
  simp [raceEngine, apply_ite State.mem]

@[simp] theorem wf_engineReadAt (s : State) (a : Agent) (r : ChkRes) (addr sz : ℕ) (h : Memory.wf s.mem = true) :
    Memory.wf (engineReadAt s a r addr sz).1.mem = true := by
  unfold engineReadAt
  dsimp only
  repeat' split
  all_goals simp [h]

@[simp] theorem wf_engineRead (s : State) (a : Agent) (addr sz : ℕ) (h : Memory.wf s.mem = true) :
    Memory.wf (engineRead s a addr sz).1.mem = true := by
  simp [engineRead, h]

@[simp] theorem wf_engineWrite (s : State) (b key n v : ℕ) (h : Memory.wf s.mem = true) :
    Memory.wf (engineWrite s b key n v).mem = true := by
  unfold engineWrite
  dsimp only
  repeat' split
  all_goals simp [h]

@[simp] theorem wf_putElem (s : State) (a : Agent) (pages : List (ℕ × Leaf)) (addr sz v : ℕ) (h : Memory.wf s.mem = true) :
    Memory.wf (putElem s a pages addr sz v).mem = true := by
  unfold putElem
  dsimp only
  split
  · exact h
  · next l _ =>
    have h1 : Memory.wf (if l.ver then verFill s l.base (addr / 2 % 2 ^ 16) false else s).mem = true := wf_ite (wf_verFill _ _ _ _ h) h
    refine wf_engineWrite _ _ _ _ _ ?_
    rw [raceEngine_mem]
    exact wf_ite (wf_settleSw _ _ _ _ h1) h1

@[simp] theorem settlePoison_mem (s : State) (a : Agent) (pages : List (ℕ × Leaf)) (sz : ℕ) (es : List (ℕ × Bool)) :
    (settlePoison s a pages sz es).mem = s.mem := by rfl

end Sys2Proof.Machine
end

section
/-!
Accesses as they are performed (Machine/Perform.lean).
-/
namespace Sys2Proof.Machine

@[simp] theorem dataPoison_mem (s : State) (b cause va key : ℕ) : (dataPoison s b cause va key).1.mem = s.mem := by
  simp [dataPoison, apply_ite State.mem]

@[simp] theorem acquireRead_mem (s : State) (o : Op) (b : ℕ) (acq : Option ℕ) (lane : ℕ) (ms : List Mark) :
    (acquireRead s o b acq lane ms).mem = s.mem := by
  unfold acquireRead
  split <;> simp

@[simp] theorem wf_readAcc (s : State) (o : Op) (ty : BitVec 4) (acq : Option ℕ) (x : Acc) (h : Memory.wf s.mem = true) :
    Memory.wf (readAcc s o ty acq x).1.mem = true := by
  unfold readAcc
  dsimp only
  repeat' split
  all_goals simp [h]

@[simp] theorem wf_writeAcc (s : State) (o : Op) (rel : Option ℕ) (x : Acc) (h : Memory.wf s.mem = true) :
    Memory.wf (writeAcc s o rel x).1.mem = true := by
  unfold writeAcc
  extract_lets a j y key0 s1 r copy s2 key s2' v level s3
  have h1 : Memory.wf s1.mem = true := by
    unfold s1
    split
    · exact wf_wbScope _ _ _ _ h
    · exact h
  have hr : Memory.wf r.1.mem = true := by
    unfold r
    split
    · simpa using h1
    · exact h1
  have h2 : Memory.wf s2.mem = true := by
    unfold s2
    split
    · exact wf_verFill _ _ _ _ hr
    · exact hr
  have h3 : Memory.wf s3.mem = true := wf_writeAt _ _ _ _ _ _ _ (wf_dcTouch _ _ _ _ _ h2)
  split
  · simpa using hr
  · split
    · simpa using hr
    · split
      · exact hr
      · split
        · simp [hr]
        · simpa using h3

@[simp] theorem logDiscard_mem (s : State) (o : Op) (a : AtomArgs) (x : Acc) (key : ℕ) : (logDiscard s o a x key).mem = s.mem := by
  simp [logDiscard, apply_ite State.mem]

@[simp] theorem wf_atomAcc (s : State) (o : Op) (a : AtomArgs) (whole : Bool) (x : Acc) (h : Memory.wf s.mem = true) :
    Memory.wf (atomAcc s o a whole x).1.mem = true := by
  unfold atomAcc
  extract_lets ag total key0 mov s0 lost s1 s2 key s3 old cmpOp writes new s4 s5 rel r s6
  have h0 : Memory.wf s0.mem = true := wf_ite (wf_acquireNow _ _ _ h) h
  have hlost : Memory.wf lost.mem = true := by
    unfold lost
    split
    · simpa using h0
    · exact h0
  have h1 : Memory.wf s1.mem = true := wf_ite (wf_wbScope _ _ _ _ h0) h0
  have h2 : Memory.wf s2.mem = true := by
    unfold s2
    split
    · exact wf_verFill _ _ _ _ h1
    · exact h1
  have h3 : Memory.wf s3.mem = true := wf_foreignCommit _ _ _ _ (wf_ite (wf_settleSw _ _ _ _ h2) h2)
  have h4 : Memory.wf s4.mem = true := wf_ite (wf_writeHw _ _ _ _ _ h3) h3
  have h5 : Memory.wf s5.mem = true := wf_ite h4 h4
  have hr : Memory.wf r.1.mem = true := by
    unfold r
    split
    · simpa [rel] using h5
    · exact h5
  have h6 : Memory.wf s6.mem = true := by simpa [s6] using hr
  split
  · split
    · simpa using h0
    · simpa using hlost
  · exact wf_ite (by simpa using h6) h6

@[simp] theorem wf_coverWhole (a : Agent) (rest : List Acc) (s : State) (x : Acc) (h : Memory.wf s.mem = true) :
    Memory.wf (coverWhole a rest s x).mem = true := by
  simp [coverWhole, apply_ite State.mem, apply_ite Memory.wf, h]

@[simp] theorem wf_settleOp (s : State) (o : Op) (done : List Acc) (ws : List (ℕ × ℕ × TWord)) (h : Memory.wf s.mem = true) :
    Memory.wf (settleOp s o done ws).mem = true := by
  have hc := fun rest => wf_foldl (coverWhole (opAgent s o) rest) (fun _ _ h => wf_coverWhole _ _ _ _ h) done s h
  exact wf_ite (wf_finishOp _ _ _ (hc _)) (by simpa using hc _)

@[simp] theorem trapGone_mem (s : State) (o : Op) (gone : List Acc) : (trapGone s o gone).mem = s.mem := by
  unfold trapGone
  split
  · rfl
  · simp [mem_foldl, apply_ite State.mem]

@[simp] theorem wf_performMaint (s : State) (o : Op) (inv : Bool) (scope va len : ℕ) (h : Memory.wf s.mem = true) :
    Memory.wf (performMaint s o inv scope va len).mem = true := by
  simp [performMaint, apply_ite State.mem, apply_ite Memory.wf, h]

theorem wf_performAll (s : State) (o : Op) (sel : List Acc) (h : Memory.wf s.mem = true) : Memory.wf (performAll s o sel).1.mem = true := by
  unfold performAll
  split
  · refine wf_foldl_fst _ (fun p x hp => ?_) _ _ h
    exact wf_readAcc _ _ _ _ _  hp
  · refine wf_foldl_fst _ (fun p x hp => ?_) _ _ h
    exact wf_writeAcc _ _ _ _  hp
  · refine wf_foldl_fst _ (fun p x hp => ?_) _ _ h
    exact wf_atomAcc _ _ _ _ _  hp
  · exact h

@[simp] theorem wf_performOp (s : State) (o : Op) (lanes : Mask) (h : Memory.wf s.mem = true) :
    Memory.wf (performOp s o lanes).mem = true := by
  unfold performOp
  split
  · exact wf_ite (wf_settleArrivals _ (by simp [h])) h
  · dsimp only
    split
    · exact h
    · split
      · exact wf_settleArrivals _ (wf_settleOp _ _ _ _ (wf_performAll _ _ _ h))
      · exact wf_settleArrivals _ (by simpa using h)

end Sys2Proof.Machine
end

section
/-!
Synchronization (Machine/Sync.lean).
-/
namespace Sys2Proof.Machine

@[simp] theorem exitBody_mem (c : Ctx) (s : State) : (exitBody c s).mem = s.mem := by
  unfold exitBody
  split <;> simp

theorem wf_barHold (k : ℕ) (c : Ctx) (s : State) (go : Ctx → State → State) (h : Memory.wf s.mem = true)
    (hg : ∀ c s, Memory.wf s.mem = true → Memory.wf (go c s).mem = true) : Memory.wf (barHold k c s go).mem = true := by
  unfold barHold
  dsimp only
  split
  · exact hg _ _ h
  · split
    · simpa using h
    · exact hg _ _ (by simpa using h)

@[simp] theorem wf_arriveAndWait (c : Ctx) (k scope : ℕ) (s : State) (h : Memory.wf s.mem = true) :
    Memory.wf (arriveAndWait c k scope s).mem = true := by
  simp [arriveAndWait, h]

theorem wf_barBody (k : ℕ) (c : Ctx) (s : State) (h : Memory.wf s.mem = true) : Memory.wf (barBody k c s).mem = true :=
  wf_withCommit _ _ _ _ _ h h (fun _ hs => wf_barHold _ _ _ _ hs (fun _ _ h => wf_arriveAndWait _ _ _ _ h))

theorem wf_writePhase (c : Ctx) (v : TWord) (s0 s : State) (h0 : Memory.wf s0.mem = true) (h : Memory.wf s.mem = true) :
    Memory.wf (writePhase c v s0 s).mem = true := by
  unfold writePhase
  dsimp only
  split
  · exact wf_finishPush _ _ _ _ h0 h
  · simpa using h

@[simp] theorem wf_writeOldN (c : Ctx) (lat : ℕ) (s : State) (h : Memory.wf s.mem = true) : Memory.wf (writeOldN c lat s).mem = true :=
  wf_ite (wf_finishPush _ _ _ _ h h) (by simpa using h)

theorem wf_barrBody (c : Ctx) (s : State) (h : Memory.wf s.mem = true) : Memory.wf (barrBody c s).mem = true := by
  refine wf_withCommit _ _ _ _ _ h h (fun _ hs => wf_barHold _ _ _ _ hs (fun c s1 h1 => ?_))
  have hp := fun v => wf_writePhase c v s1 s1 h1 h1
  exact wf_ite (wf_arrive _ _ _ _ _ _ _ (hp _)) (hp _)

@[simp] theorem wf_acquireObj (s : State) (w k scope : ℕ) (h : Memory.wf s.mem = true) : Memory.wf (acquireObj s w k scope).mem = true := by
  simp [acquireObj, h]

@[simp] theorem wf_barwBody (c : Ctx) (s : State) (h : Memory.wf s.mem = true) : Memory.wf (barwBody c s).mem = true := by
  unfold barwBody
  dsimp only
  split <;> simp [apply_ite State.mem, apply_ite Memory.wf, h]

theorem wf_withCount (c : Ctx) (lo hi : ℕ) (nul : State → State) (s : State) (go : ℕ → State) (h : Memory.wf s.mem = true)
    (hn : Memory.wf (nul s).mem = true) (hg : ∀ n, Memory.wf (go n).mem = true) : Memory.wf (withCount c lo hi nul s go).mem = true := by
  unfold withCount
  dsimp only
  split
  · exact hn
  · simpa using h
  · split
    · simpa using h
    · exact hg _

@[simp] theorem restoreWait_mem (k : ℕ) (s : State) (e : ℕ × ℕ × Wait) : (restoreWait k s e).mem = s.mem := by
  unfold restoreWait
  dsimp only
  split <;> simp [apply_ite State.mem]

@[simp] theorem arriveAgain_mem (b k : ℕ) (s : State) (e : ℕ × List ℕ × List Mark) : (arriveAgain b k s e).mem = s.mem := by
  simp [arriveAgain]

@[simp] theorem initObj_mem (s : State) (b k n t : ℕ) : (initObj s b k n t).mem = s.mem := by
  simp [initObj, mem_foldl, apply_ite State.mem]

theorem wf_aoinitBody (c : Ctx) (s : State) (h : Memory.wf s.mem = true) : Memory.wf (aoinitBody c s).mem = true :=
  wf_withCount _ _ _ _ _ _ h (by simpa using h) (fun _ => by split <;> simpa using h)

theorem wf_aoarrBody (c : Ctx) (s : State) (h : Memory.wf s.mem = true) : Memory.wf (aoarrBody c s).mem = true := by
  refine wf_withCount _ _ _ _ _ _ h (wf_writeOldN _ _ _ h) (fun n => wf_withCommit _ _ _ _ _ h h (fun s1 h1 => ?_))
  have hp := fun v => wf_writePhase c v s1 s1 h1 h1
  dsimp only
  split
  · exact wf_arrive _ _ _ _ _ _ _ (hp _)
  · exact hp _

theorem wf_aoexpBody (c : Ctx) (s : State) (h : Memory.wf s.mem = true) : Memory.wf (aoexpBody c s).mem = true :=
  wf_withCount _ _ _ _ _ _ h (by simpa using h) (fun _ => by simpa using h)

theorem wf_aowtBody (c : Ctx) (s : State) (h : Memory.wf s.mem = true) : Memory.wf (aowtBody c s).mem = true := by
  unfold aowtBody
  dsimp only
  split
  · exact wf_writeOldN _ _ _ h
  · split
    · exact wf_finishPush _ _ _ _ h h
    · simpa using h
  · split
    · have ha := wf_acquireObj s c.w (objNo c.f) (tyScopeOf c.f) h
      split
      · exact wf_finishPush _ _ _ _ h ha
      · simpa using ha
    · split
      · exact wf_writeOldN _ _ _ h
      · simpa using h

@[simp] theorem wf_wakeSatisfied (s : State) (w k obj : ℕ) (d : Option ℕ) (scope : ℕ) (h : Memory.wf s.mem = true) :
    Memory.wf (wakeSatisfied s w k obj d scope).mem = true := by
  unfold wakeSatisfied
  dsimp only
  split <;> simp [apply_ite State.mem, h]

@[simp] theorem wakeAoinit_mem (s : State) (w k obj n : ℕ) : (wakeAoinit s w k obj n).mem = s.mem := by
  simp [wakeAoinit]

theorem wf_monRead (s : State) (o : Op) (ty : BitVec 4) (cc scope : ℕ) (m : MonLane) (h : Memory.wf s.mem = true) :
    Memory.wf (monRead s o ty cc scope m).1.mem = true := by
  unfold monRead
  dsimp only
  split
  · exact h
  · have hr := fun p => wf_readAcc (invScope s (dieOf s o.w) scope p) o ty none m.acc (wf_invScope _ _ _ _ h)
    split
    · exact wf_acquireNow _ _ _ (hr _)
    · split
      · simpa using wf_acquireNow _ _ _ (hr _)
      · exact hr _

theorem wf_monLane (s : State) (o : Op) (ty : BitVec 4) (cc scope : ℕ) (limits : Bool) (m : MonLane) (h : Memory.wf s.mem = true) :
    Memory.wf (monLane s o ty cc scope limits m).1.mem = true := by
  have hm := wf_monRead s o ty cc scope m h
  unfold monLane
  split
  · exact h
  · cases limits
    · exact hm
    · exact h

@[simp] theorem wf_monStep (s : State) (o : Op) (limits : Bool) (h : Memory.wf s.mem = true) :
    Memory.wf (monStep s o limits).mem = true := by
  unfold monStep
  split
  · next lanes d ty cc scope _ =>
    have hr := wf_foldl_fst (fun (acc : State × List MonLane) m =>
      let p := monLane acc.1 o ty cc scope limits m
      (p.1, acc.2 ++ [p.2])) (fun _ _ h => wf_monLane _ _ _ _ _ _ _ h) lanes (s, []) h
    dsimp only
    split
    · simpa using hr
    · exact wf_finishOp _ _ _ hr
  · exact h

theorem wf_mwaitBody (c : Ctx) (s : State) (h : Memory.wf s.mem = true) : Memory.wf (mwaitBody c s).mem = true := by
  unfold mwaitBody
  refine wf_decideLanes _ _ _ _ (by simpa using h) ?_
  dsimp only
  split
  · simpa using h
  · refine wf_pushGate _ _ _ _ (by simpa using h) ?_
    split
    · simp [h]
    · split <;> simp [h]

@[simp] theorem wf_monEvent (s : State) (w k : ℕ) (limits : Bool) (h : Memory.wf s.mem = true) :
    Memory.wf (monEvent s w k limits).mem = true := by
  unfold monEvent
  dsimp only
  split <;> simp [apply_ite State.mem, h]

end Sys2Proof.Machine
end

section
/-!
Copies (Machine/Copies.lean).
-/
namespace Sys2Proof.Machine

@[simp] theorem raisePoison_mem (c : Ctx) (p : Word) (s : State) : (raisePoison c p s).mem = s.mem := by
  simp [raisePoison]

@[simp] theorem tdsetBody_mem (c : Ctx) (s : State) : (tdsetBody c s).mem = s.mem := by
  unfold tdsetBody
  dsimp only
  split <;> simp [apply_ite State.mem]

theorem wf_tdgetBody (c : Ctx) (s : State) (h : Memory.wf s.mem = true) : Memory.wf (tdgetBody c s).mem = true := by
  unfold tdgetBody
  dsimp only
  split
  · split <;> simp [h]
  · simpa using h
  · split
    · simpa using h
    · exact wf_pushGate _ _ _ _ h (by simpa using h)

@[simp] theorem setCb_mem (s : State) (b k : ℕ) (x : CBuf) : (setCb s b k x).mem = s.mem := by rfl

@[simp] theorem raiseVa_mem (c : Ctx) (cause sub va : ℕ) (s : State) : (raiseVa c cause sub va s).mem = s.mem := by
  simp [raiseVa]

@[simp] theorem fillLine_mem (s : State) (die key : ℕ) : (fillLine s die key).mem = s.mem := by
  simp [fillLine, mem_foldl]

@[simp] theorem wf_prefetchBox (s : State) (a : Agent) (x : CopyOp) (lvl : ℕ) (h : Memory.wf s.mem = true) :
    Memory.wf (prefetchBox s a x lvl).mem = true := by
  refine wf_foldl _ (fun s e h => ?_) _ _ h
  have ht := wf_touch s a e.1 e.2.1 false h
  dsimp only
  split
  · exact ht
  · split <;> simp [h]

theorem wf_copyBody (kind : ℕ) (c : Ctx) (s : State) (h : Memory.wf s.mem = true) : Memory.wf (copyBody kind c s).mem = true := by
  unfold copyBody
  dsimp only
  split
  · simpa using h
  · simpa using h
  · split
    · simpa using h
    · refine wf_ite (by simp [h]) ?_
      split
      · simpa using h
      · simpa using h
      · refine wf_withCommit _ _ _ _ _ h h (fun s1 h1 => ?_)
        rw [advance_mem, apply_ite State.mem, aoRegister_mem, ite_self, stampOp_mem, startOp_mem]
        split
        · exact wf_touch _ _ _ _ _ (wf_foldl _ (fun _ _ h => wf_touch _ _ _ _ _ h) _ _ h1)
        · exact wf_foldl _ (fun _ _ h => wf_touch _ _ _ _ _ h) _ _ h1

@[simp] theorem wf_readElem (s : State) (b : ℕ) (a : Agent) (x : CopyOp) (j : ℕ) (h : Memory.wf s.mem = true) :
    Memory.wf (readElem s b a x j).1.mem = true := by
  unfold readElem
  dsimp only
  repeat' split
  all_goals simp [h]

@[simp] theorem wf_readWord (s : State) (b : ℕ) (a : Agent) (x : CopyOp) (w : ℕ) (h : Memory.wf s.mem = true) :
    Memory.wf (readWord s b a x w).1.mem = true :=
  wf_foldl_fst _ (fun _ _ h => wf_readElem _ _ _ _ _ h) _ _ h

@[simp] theorem cbSignal_mem (s : State) (b k off n flags scope : ℕ) (ms : List Mark) :
    (cbSignal s b k off n flags scope ms).mem = s.mem := by
  unfold cbSignal
  split <;> rfl

@[simp] theorem engineRelease_mem (s : State) (b scope : ℕ) : (engineRelease s b scope).1.mem = s.mem := by rfl

@[simp] theorem wf_commitFor (s : State) (b : ℕ) (bad : Bool) (h : Memory.wf s.mem = true) : Memory.wf (commitFor s b bad).mem = true := by
  simp [commitFor, apply_ite State.mem, apply_ite Memory.wf, h, wf_commitBlock]

@[simp] theorem coverSectors_mem (s : State) (a : Agent) (pages : List (ℕ × Leaf)) (sz : ℕ) (es : List (ℕ × Bool)) :
    (coverSectors s a pages sz es).mem = s.mem := by
  unfold coverSectors
  split <;> rfl

@[simp] theorem wf_redElem (s : State) (a : Agent) (x : CopyOp) (addr v : ℕ) (h : Memory.wf s.mem = true) :
    Memory.wf (redElem s a x addr v).mem = true := by
  unfold redElem
  dsimp only
  split
  · exact h
  · next l _ =>
    have h1 : Memory.wf (if l.ver then verFill s l.base (addr / 2 % 2 ^ 16) false else s).mem = true := wf_ite (wf_verFill _ _ _ _ h) h
    split
    · split
      · simpa using h1
      · exact wf_ite (by simpa using h1) h1
    · refine wf_writeHw _ _ _ _ _ (wf_foreignCommit _ _ _ _ ?_)
      rw [raceEngine_mem]
      exact wf_ite (wf_settleSw _ _ _ _ h1) h1

@[simp] theorem wf_writeElem (s : State) (b : ℕ) (a : Agent) (x : CopyOp) (j : ℕ) (h : Memory.wf s.mem = true) :
    Memory.wf (writeElem s b a x j).1.mem = true := by
  unfold writeElem
  dsimp only
  repeat' split
  all_goals simp [h]

@[simp] theorem wf_writeWord (s : State) (b : ℕ) (a : Agent) (x : CopyOp) (w : ℕ) (h : Memory.wf s.mem = true) :
    Memory.wf (writeWord s b a x w).1.mem = true :=
  wf_foldl_fst _ (fun _ _ h => wf_writeElem _ _ _ _ _ h) _ _ h

@[simp] theorem copyCover_mem (s : State) (o : Op) (x : CopyOp) : (copyCover s o x).mem = s.mem := by
  simp [copyCover, apply_ite State.mem]

@[simp] theorem wf_writeStamp (s : State) (o : Op) (x : CopyOp) (flags : ℕ) (h : Memory.wf s.mem = true) :
    Memory.wf (writeStamp s o x flags).mem = true := by
  unfold writeStamp
  split
  · exact wf_ite (wf_writeAcc _ _ _ _ h) h
  · exact h

@[simp] theorem copySignal_mem (s : State) (o : Op) (x : CopyOp) (flags : ℕ) : (copySignal s o x flags).mem = s.mem := by
  unfold copySignal
  dsimp only
  split
  · simp [apply_ite State.mem]
  · split <;> simp [apply_ite State.mem]

@[simp] theorem wf_copyStep (s : State) (o : Op) (x : CopyOp) (h : Memory.wf s.mem = true) : Memory.wf (copyStep s o x).mem = true := by
  unfold copyStep
  dsimp only
  repeat' split
  all_goals simp [h]

@[simp] theorem mcSignal_mem (s : State) (o : Op) (x : CopyOp) (b : ℕ) : (mcSignal s o x b).mem = s.mem := by
  unfold mcSignal
  dsimp only
  split <;> simp [apply_ite State.mem]

@[simp] theorem wf_mcDeliver (s : State) (o : Op) (x : CopyOp) (rank : ℕ) (h : Memory.wf s.mem = true) :
    Memory.wf (mcDeliver s o x rank).1.mem = true := by
  unfold mcDeliver
  dsimp only
  repeat' split
  all_goals simp [h]

@[simp] theorem wf_applyFwd (s : State) (b : ℕ) (x : Fwd) (h : Memory.wf s.mem = true) : Memory.wf (applyFwd s b x).mem = true := by
  unfold applyFwd
  split <;> simp [h, wf_wrMem]

@[simp] theorem cbinitBody_mem (c : Ctx) (s : State) : (cbinitBody c s).mem = s.mem := by
  unfold cbinitBody
  dsimp only
  split <;> simp [apply_ite State.mem]

theorem wf_takeSlotCb (c : Ctx) (x : CBuf) (i : ℕ) (e : CbSlot) (v : ℕ) (s : State) (h : Memory.wf s.mem = true) :
    Memory.wf (takeSlotCb c x i e v s).mem = true :=
  wf_answerLate _ _ _ (by simpa using h)

theorem wf_cbTakeBody (acq : Bool) (c : Ctx) (s : State) (h : Memory.wf s.mem = true) : Memory.wf (cbTakeBody acq c s).mem = true := by
  have ha : ∀ e : CbSlot, Memory.wf (acquireAll (acquireNow s c.w e.scope) (blkOf c.w) e.scope e.marks).mem = true :=
    fun e => by simp [h]
  refine wf_ite (by simpa using h) (wf_ite ?_ ?_)
  · exact wf_ite (wf_answerNow _ _ _ _ _ h h (fun _ hs => by simpa using hs)) (by simpa using h)
  · exact wf_ite (wf_takeSlotCb _ _ _ _ _ _ (ha _)) (wf_takeSlotCb _ _ _ _ _ _ (ha _))

@[simp] theorem wf_cbPut (com : Bool) (w : ℕ) (m : Mask) (buf i : ℕ) (s : State) (h : Memory.wf s.mem = true) :
    Memory.wf (cbPut com w m buf i s).mem = true := by
  simp [cbPut, h]

@[simp] theorem wf_wakePut (com : Bool) (w k buf off : ℕ) (s : State) (h : Memory.wf s.mem = true) :
    Memory.wf (wakePut com w k buf off s).mem = true := by
  unfold wakePut
  split <;> simp [h]

@[simp] theorem wf_cbPutBody (com : Bool) (c : Ctx) (s : State) (h : Memory.wf s.mem = true) :
    Memory.wf (cbPutBody com c s).mem = true := by
  unfold cbPutBody
  dsimp only
  repeat' split
  all_goals simp [h]

end Sys2Proof.Machine
end

section
/-!
Fetch of words (Machine/Fetch.lean).
-/
namespace Sys2Proof.Machine

/-- A fetch changes the page's access bits only, so the state of each result keeps the form. -/
theorem wf_fetch_word {s t : State} {w : ℕ} {sp : Split} {x : Word} (h : Memory.wf s.mem = true) (ht : fetch s w sp = .word x t) :
    Memory.wf t.mem = true := by
  unfold fetch at ht
  dsimp only at ht
  split at ht
  · cases ht
  · cases ht
  · split at ht
    · cases ht
    · cases ht; exact wf_touch _ _ _ _ _ h

theorem wf_fetch_trap {s t : State} {w : ℕ} {sp : Split} {cause sub : ℕ} (h : Memory.wf s.mem = true) (ht : fetch s w sp = .trap cause sub t) :
    Memory.wf t.mem = true := by
  unfold fetch at ht
  dsimp only at ht
  split at ht
  · cases ht; simpa using h
  · cases ht
  · split at ht
    · cases ht
    · cases ht

@[simp] theorem fetchStall_mem (s : State) (w k : ℕ) (x : Wait) : (fetchStall s w k x).mem = s.mem := by
  simp [fetchStall]

@[simp] theorem fetchLater_mem (s : State) (w k t : ℕ) : (fetchLater s w k t).mem = s.mem := by rfl

end Sys2Proof.Machine
end

section
/-!
Versioned regions and checkpoints (Machine/Versions.lean).
-/
namespace Sys2Proof.Machine

@[simp] theorem wf_settleD (c : Ctx) (v : ℕ → TWord) (s : State) (h : Memory.wf s.mem = true) : Memory.wf (settleD c v s).mem = true :=
  wf_ite (wf_finishPush _ _ _ _ h h) (by simpa using h)

@[simp] theorem wf_settleN (c : Ctx) (s : State) (h : Memory.wf s.mem = true) : Memory.wf (settleN c s).mem = true := by
  simp [settleN, h]

@[simp] theorem wf_settleX (c : Ctx) (p : Word) (s : State) (h : Memory.wf s.mem = true) : Memory.wf (settleX c p s).mem = true := by
  simp [settleX, h]

@[simp] theorem wf_startVer (c : Ctx) (kind : ℕ) (flag : Bool) (sel : ℕ) (region : Option ℕ) (step : ℕ) (s : State)
    (h : Memory.wf s.mem = true) : Memory.wf (startVer c kind flag sel region step s).mem = true :=
  wf_pushGate _ _ _ _ h (by simpa using h)

theorem wf_splitTags (c : Ctx) (xs : List TWord) (s : State) (go : Unit → State) (h : Memory.wf s.mem = true)
    (hg : Memory.wf (go ()).mem = true) : Memory.wf (splitTags c xs s go).mem = true := by
  unfold splitTags
  split
  · exact wf_settleN _ _ h
  · exact wf_settleX _ _ _ h
  · exact hg

theorem wf_vopenBody (c : Ctx) (s : State) (h : Memory.wf s.mem = true) : Memory.wf (vopenBody c s).mem = true := by
  refine wf_splitTags _ _ _ _ h (wf_ite (by simpa using h) ?_)
  dsimp only
  split
  · simpa using h
  · simp [h]
  · refine wf_withCommit _ _ _ _ _ h h (fun _ hs => ?_)
    exact wf_ite (by simp [hs]) (by simp [hs])

theorem wf_ldvBody (c : Ctx) (s : State) (h : Memory.wf s.mem = true) : Memory.wf (ldvBody c s).mem = true := by
  unfold ldvBody
  exact wf_issueLoad _ _ _ _ _ _ _ _ h (by simpa using h)

@[simp] theorem raiseAddr_mem (c : Ctx) (cause sub : ℕ) (v : Word) (s : State) : (raiseAddr c cause sub v s).mem = s.mem := by
  simp [raiseAddr]

@[simp] theorem againNext_mem (c : Ctx) (s : State) : (againNext c s).mem = s.mem := by rfl

theorem wf_vpubBody (c : Ctx) (s : State) (h : Memory.wf s.mem = true) : Memory.wf (vpubBody c s).mem = true := by
  refine wf_splitTags _ _ _ _ h ?_
  dsimp only
  split
  · simpa using h
  · simpa using h
  · refine wf_ite (by simpa using h) (wf_ite (by simpa using h) ?_)
    exact wf_withCommit _ _ _ _ _ h h (fun _ hs => by simp [hs])

theorem wf_vcloseBody (c : Ctx) (s : State) (h : Memory.wf s.mem = true) : Memory.wf (vcloseBody c s).mem = true := by
  unfold vcloseBody
  dsimp only
  split
  · split
    · simpa using h
    · exact wf_withCommit _ _ _ _ _ h h (fun _ hs => by simpa using hs)
  · simpa using h

theorem wf_vinfoBody (c : Ctx) (s : State) (h : Memory.wf s.mem = true) : Memory.wf (vinfoBody c s).mem = true := by
  refine wf_splitTags _ _ _ _ h ?_
  dsimp only
  split
  · simpa using h
  · simp [h]
  · simp [h]

theorem wf_ckptBody (c : Ctx) (s : State) (h : Memory.wf s.mem = true) : Memory.wf (ckptBody c s).mem = true :=
  wf_splitTags _ _ _ _ h (wf_ite (by simpa using h) (wf_withCommit _ _ _ _ _ h h (fun _ hs => by simp [hs])))

@[simp] theorem wf_putCkBusy (s : State) (r : ℕ) (busy : Bool) (h : Memory.wf s.mem = true) :
    Memory.wf (putCkBusy s r busy).mem = true := by
  simp [putCkBusy, h, wf_wrMem]

@[simp] theorem wf_putCkSeq (s : State) (r n : ℕ) (h : Memory.wf s.mem = true) : Memory.wf (putCkSeq s r n).mem = true := by
  simp [putCkSeq, h, wf_wrMem]

@[simp] theorem wf_putCkStatus (s : State) (r v : ℕ) (h : Memory.wf s.mem = true) : Memory.wf (putCkStatus s r v).mem = true := by
  simp [putCkStatus, h, wf_wrMem]

theorem wf_ckwaitBody (c : Ctx) (s : State) (h : Memory.wf s.mem = true) : Memory.wf (ckwaitBody c s).mem = true := by
  refine wf_splitTags _ _ _ _ h (wf_ite (by simpa using h) ?_)
  split
  · simp [h]
  · exact wf_ite (by simp [h]) (by simpa using h)

theorem wf_addPin {s t : State} {r n : ℕ} (h : Memory.wf s.mem = true) (ht : addPin s r n = some t) : Memory.wf t.mem = true := by
  obtain ⟨f, hf⟩ : ∃ f, addPin = f := ⟨_, rfl⟩
  rw [hf] at ht
  delta addPin at hf
  subst hf
  beta_reduce at ht
  extract_lets at_ at ht
  split at ht
  · split at ht
    · cases ht
    · cases ht; exact wf_wrMem _ _ _ _ h
  · obtain ⟨i, -, rfl⟩ := Option.map_eq_some_iff.mp ht
    exact wf_wrMem _ _ _ _ h

@[simp] theorem wf_dropPin (s : State) (r t : ℕ) (h : Memory.wf s.mem = true) : Memory.wf (dropPin s r t).mem = true := by
  obtain ⟨f, hf⟩ : ∃ f, dropPin = f := ⟨_, rfl⟩
  obtain ⟨u, hu⟩ : ∃ u, dropPin s r t = u := ⟨_, rfl⟩
  rw [hu]
  rw [hf] at hu
  delta dropPin at hf
  subst hf
  beta_reduce at hu
  split at hu
  · subst hu; exact wf_wrMem _ _ _ _ h
  · subst hu; exact h

theorem wf_ckAccept (s : State) (r t : ℕ) (full : Bool) (h : Memory.wf s.mem = true) : Memory.wf (ckAccept s r t full).1.mem = true := by
  have hp : Memory.wf ((addPin s r t).getD s).mem = true := by
    cases ht : addPin s r t with
    | none => exact h
    | some t => exact wf_addPin h ht
  unfold ckAccept
  rw [setCk_mem]
  exact wf_putCsel _ _ _ (wf_putCkSeq _ _ _ (wf_putCkBusy _ _ _ hp))

/-- The marks of the pages of a failed checkpoint's half go to the other half. -/
theorem wf_foldl_unmark (s : State) (r half : ℕ) (xs : List ℕ) (h : Memory.wf s.mem = true) :
    Memory.wf (xs.foldl (fun s j =>
      let m := rdMem s (cmapAt s r j half) 32
      if m = 0 then s
      else wrMem (wrMem s (cmapAt s r j (1 - half)) 32 (rdMem s (cmapAt s r j (1 - half)) 32 ||| m)) (cmapAt s r j half) 32 0) s).mem = true := by
  obtain ⟨m, hm⟩ : ∃ m : State → ℕ → ℕ, ∀ s j, rdMem s (cmapAt s r j half) 32 = m s j := ⟨_, fun _ _ => rfl⟩
  simp only [hm]
  exact wf_foldl _ (fun s j h => wf_ite (p := _ = 0) h (wf_wrMem _ _ _ _ (wf_wrMem _ _ _ _ h))) _ _ h

@[simp] theorem wf_ckFail (s : State) (r state : ℕ) (h : Memory.wf s.mem = true) : Memory.wf (ckFail s r state).mem = true := by
  obtain ⟨t, ht⟩ : ∃ t, ckFail s r state = t := ⟨_, rfl⟩
  rw [ht]
  unfold ckFail at ht
  extract_lets x at ht
  split at ht
  · subst ht; exact h
  · subst ht
    rw [setCk_mem]
    refine wf_ite (wf_dropPin _ _ _ ?_) ?_
    · exact wf_putCkBusy _ _ _ (wf_putCkStatus _ _ _ (wf_foldl_unmark _ _ _ _ h))
    · exact wf_putCkBusy _ _ _ (wf_putCkStatus _ _ _ (wf_foldl_unmark _ _ _ _ h))

@[simp] theorem wf_ckTrigger (s : State) (r t : ℕ) (h : Memory.wf s.mem = true) : Memory.wf (ckTrigger s r t).mem = true := by
  have ha := wf_ckAccept (setCk s r { getCk s r with armed := false }) r t false (by simpa using h)
  obtain ⟨u, hu⟩ : ∃ u, ckTrigger s r t = u := ⟨_, rfl⟩
  rw [hu]
  unfold ckTrigger at hu
  split at hu
  · subst hu; exact h
  · extract_lets iv x timed at hu
    split at hu
    · split at hu
      · subst hu; simpa using h
      · subst hu; exact ha
    · subst hu; exact h

theorem wf_vopenAt (s : State) (w : ℕ) (v : VerOp) (h : Memory.wf s.mem = true) : Memory.wf (vopenAt s w v).1.mem = true := by
  obtain ⟨p, hp⟩ : ∃ p, vopenAt s w v = p := ⟨_, rfl⟩
  rw [hp]
  obtain ⟨f, hf⟩ : ∃ f, vopenAt = f := ⟨_, rfl⟩
  rw [hf] at hp
  delta vopenAt at hf
  subst hf
  beta_reduce at hp
  split at hp
  · cases hp; exact h
  · next r _ =>
    obtain ⟨ws, hws⟩ : ∃ ws, rgWstep (rdRegion s r) = ws := ⟨_, rfl⟩
    obtain ⟨live, hl⟩ : ∃ live : ℕ → Bool, ∀ t, stepLive s r t = live t := ⟨_, fun _ => rfl⟩
    obtain ⟨pin, hpin⟩ : ∃ pin : ℕ → Option State, ∀ t, addPin s r t = pin t := ⟨_, fun _ => rfl⟩
    obtain ⟨t, ht⟩ : ∃ t, (if v.flag then ws - 1 else v.step) = t := ⟨_, rfl⟩
    simp only [hws, ht, hl, hpin] at hp
    split at hp
    · cases hp; exact h
    · split at hp
      · cases hp; exact h
      · split at hp
        · cases hp; exact h
        · next hu => cases hp; simp [wf_addPin h ((hpin _).trans hu)]

theorem wf_foldl_verFill (vdb : ℕ) (xs : List ℕ) (s : State) (h : Memory.wf s.mem = true) :
    Memory.wf (xs.foldl (fun s i => verFill s vdb (256 * i) false) s).mem = true := by
  obtain ⟨g, hg⟩ : ∃ g : State → ℕ → State, ∀ s i, verFill s vdb (256 * i) false = g s i := ⟨_, fun _ _ => rfl⟩
  simp only [hg]
  exact wf_foldl g (fun s i h => hg s i ▸ wf_verFill _ _ _ _ h) xs s h

@[simp] theorem wf_publishPage (r : ℕ) (s : State) (e : ℕ × ℕ) (h : Memory.wf s.mem = true) : Memory.wf (publishPage r s e).mem = true := by
  unfold publishPage
  dsimp only
  exact wf_putVdb _ _ _ (wf_wrMem _ _ _ _ (wf_foldl_verFill _ _ _ h))

@[simp] theorem afterLast_mem (s : State) (b r : ℕ) : (afterLast s b r).mem = s.mem := by
  simp [afterLast]

@[simp] theorem wf_publish (s : State) (w r : ℕ) (ls : List ℕ) (h : Memory.wf s.mem = true) : Memory.wf (publish s w r ls).mem = true := by
  unfold publish
  refine wf_ckTrigger _ _ _ (wf_putWstep _ _ _ (wf_foldl _ (fun _ _ h => wf_publishPage _ _ _ h) _ _ (wf_foldl _ wf_commitBlock _ _ (wf_wbScope _ _ _ _ ?_))))
  rw [performRelease_mem]
  exact wf_wbScope _ _ _ _ (by simpa using h)

theorem wf_frameAll {s t : State} {vs : List ℕ} (h : Memory.wf s.mem = true) (ht : frameAll s vs = some t) : Memory.wf t.mem = true := by
  induction vs generalizing s with
  | nil => cases ht; exact h
  | cons v r ih =>
    unfold frameAll at ht
    split at ht
    · exact ih h ht
    · split at ht
      · next h1 => exact ih (wf_allocFrame h h1) ht
      · cases ht

theorem wf_publishAll {s t : State} {w r : ℕ} {ls : List ℕ} (h : Memory.wf s.mem = true) (ht : publishAll s w r ls = some t) :
    Memory.wf t.mem = true :=
  wf_frameAll (wf_publish _ _ _ _ h) ht

end Sys2Proof.Machine
end

section
/-!
Launches and records (Machine/Launch.lean).
-/
namespace Sys2Proof.Machine

@[simp] theorem wf_dwsTouch (s : State) (a : Agent) (write : Bool) (ps : List (Leaf × ℕ × ℕ × ℕ)) (h : Memory.wf s.mem = true) :
    Memory.wf (dwsTouch s a write ps).mem = true := by
  unfold dwsTouch
  exact wf_foldl _ (fun _ _ h => by simp [h]) _ _ h

theorem wf_dwsRead {s : State} {a : Agent} {va n : ℕ} {r : State × ℕ} (h : Memory.wf s.mem = true) (hr : dwsRead s a va n = .ok r) :
    Memory.wf r.1.mem = true := by
  unfold dwsRead at hr
  split at hr
  · cases hr
  · split at hr
    · cases hr
    · cases hr; exact wf_dwsTouch _ _ _ _ h

@[simp] theorem wf_dwsWrite (s : State) (a : Agent) (ps : List (Leaf × ℕ × ℕ × ℕ)) (v : ℕ) (ms : List Mark) (h : Memory.wf s.mem = true) :
    Memory.wf (dwsWrite s a ps v ms).mem = true := by
  unfold dwsWrite
  refine wf_foldl_fst _ (fun p e hp => ?_) _ _ (wf_dwsTouch _ _ _ _ h)
  rw [writeMarks_mem]
  exact wf_writeHome _ _ _ _ _ hp

theorem wf_crecUpdate {s t : State} {die rec : ℕ} {denied : List ℕ} {blocks races relaunch state code : ℕ} {ms : List Mark}
    (h : Memory.wf s.mem = true) (ht : crecUpdate s die rec denied blocks races relaunch state code ms = .ok t) : Memory.wf t.mem = true := by
  unfold crecUpdate at ht
  dsimp only at ht
  split at ht
  · cases ht; exact h
  · split at ht
    · cases ht
    · cases ht; exact h
    · cases ht; simp [h]

@[simp] theorem setMail_mem (s : State) (d : ℕ) (ps : List Packet) : (setMail s d ps).mem = s.mem := by rfl

@[simp] theorem putMail_mem (s : State) (d : ℕ) (p : Packet) : (putMail s d p).mem = s.mem := by rfl

@[simp] theorem drainOut_mem (s : State) (d : ℕ) : (drainOut s d).mem = s.mem := by rfl

@[simp] theorem postDws_mem (s : State) (d : ℕ) (words : List ℕ) (mask : ℕ) : (postDws s d words mask).mem = s.mem := by rfl

@[simp] theorem mbrecvBody_mem (c : Ctx) (s : State) : (mbrecvBody c s).mem = s.mem := by
  simp [mbrecvBody, apply_ite State.mem]

theorem wf_mbsendBody (c : Ctx) (s : State) (h : Memory.wf s.mem = true) : Memory.wf (mbsendBody c s).mem = true := by
  unfold mbsendBody
  dsimp only
  split
  · split
    · simpa using h
    · exact wf_withCommit _ _ _ _ _ h h (fun _ hs => by simpa using hs)
  · simpa using h

@[simp] theorem rgnBody_mem (c : Ctx) (s : State) : (rgnBody c s).mem = s.mem := by
  unfold rgnBody
  dsimp only
  split <;> simp [apply_ite State.mem]

@[simp] theorem wf_spawnBody (c : Ctx) (s : State) (h : Memory.wf s.mem = true) : Memory.wf (spawnBody c s).mem = true := by
  unfold spawnBody
  dsimp only
  split <;> simp [apply_ite State.mem, h]

@[simp] theorem vlogWrite_mem (s : State) (core launchid : ℕ) (a b : Word) : (vlogWrite s core launchid a b).mem = s.mem := by
  simp [vlogWrite, apply_ite State.mem]

@[simp] theorem vendorOp_mem (s : State) (die : ℕ) (k : OpKind) : (vendorOp s die k).mem = s.mem := by rfl

@[simp] theorem vendorSpawn_mem (s : State) (die : ℕ) (a b c : Word) (share : Option (List Word × Bool)) :
    (vendorSpawn s die a b c share).mem = s.mem := by rfl

@[simp] theorem vendorPacket_mem (s : State) (die : ℕ) (p : Packet) : (vendorPacket s die p).mem = s.mem := by
  unfold vendorPacket
  split
  · simp
  · simp
  · exact mem_foldl _ (fun _ _ => vendorOp_mem _ _ _) _ _
  · simp

@[simp] theorem wf_takePacket (s : State) (die : ℕ) (p : Packet) (rest : List Packet) (h : Memory.wf s.mem = true) :
    Memory.wf (takePacket s die p rest).mem = true := by
  simp [takePacket, h]

theorem wf_readNodes {s : State} {a : Agent} {g n j : ℕ} {r : State × List ℕ} (h : Memory.wf s.mem = true)
    (hr : readNodes s a g n j = .ok r) : Memory.wf r.1.mem = true := by
  induction n generalizing s j r with
  | zero => unfold readNodes at hr; cases hr; exact h
  | succ n ih =>
    unfold readNodes at hr
    split at hr
    · cases hr
    · next s1 e h1 =>
      have hs1 : Memory.wf s1.mem = true := wf_dwsRead h h1
      split at hr
      · cases hr
      · split at hr
        · cases hr
        · next s2 rec h2 =>
          have hs2 : Memory.wf s2.mem = true := wf_dwsRead hs1 h2
          split at hr
          · cases hr
          · cases h3 : readNodes s2 a g n (j + 1) with
            | error x => rw [h3] at hr; cases hr
            | ok x => rw [h3] at hr; cases hr; exact ih (r := x) hs2 h3

theorem wf_readGraph {s : State} {a : Agent} {g : ℕ} {r : State × List ℕ} (h : Memory.wf s.mem = true)
    (hr : readGraph s a g = .ok r) : Memory.wf r.1.mem = true := by
  unfold readGraph at hr
  split at hr
  · cases hr
  · next s1 v h1 =>
    have hs1 : Memory.wf s1.mem = true := wf_dwsRead h h1
    dsimp only at hr
    split at hr
    · cases hr
    · split at hr
      · cases hr
      · next s2 ns h2 =>
        have hs2 : Memory.wf s2.mem = true := wf_readNodes hs1 h2
        split at hr
        · cases hr
        · cases hr; exact hs2

theorem wf_readLaunch {s : State} {die rec : ℕ} {x : SpawnOp} {denied : List ℕ} {r : State × List ℕ} (h : Memory.wf s.mem = true)
    (hr : readLaunch s die rec x denied = .ok r) : Memory.wf r.1.mem = true := by
  unfold readLaunch at hr
  dsimp only at hr
  split at hr
  · cases hr
  · split at hr
    · cases hr
    · next s1 desc h1 =>
      have hs1 : Memory.wf s1.mem = true := by
        split at h1
        · exact wf_readGraph h h1
        · cases h1; exact h
      split at hr
      · cases hr; exact hs1
      · split at hr
        · cases hr
        · cases hr; exact hs1

@[simp] theorem vendorShare_mem (s : State) (die rec : ℕ) (x : SpawnOp) : (vendorShare s die rec x).1.mem = s.mem := by
  unfold vendorShare
  split
  · rfl
  · show (ite _ _ _ : State).mem = _
    split
    · exact mem_foldl _ (fun _ _ => vendorOp_mem _ _ _) _ _
    · rfl

theorem wf_refuseSpawn {s t : State} {o : Op} {x : SpawnOp} {rec : Option ℕ} {n : ℕ} (h : Memory.wf s.mem = true)
    (ht : refuseSpawn s o x rec n = .ok t) : Memory.wf t.mem = true := by
  unfold refuseSpawn at ht
  split at ht
  · cases ht
  · next s1 h1 =>
    cases ht
    refine wf_finishOp _ _ _ ?_
    split at h1
    · exact wf_crecUpdate h h1
    · cases h1; exact h

theorem wf_readSpawn {s t : State} {o : Op} {x : SpawnOp} (h : Memory.wf s.mem = true) (ht : readSpawn s o x = .ok t) :
    Memory.wf t.mem = true := by
  unfold readSpawn at ht
  dsimp only at ht
  split at ht
  · cases ht
  · exact wf_refuseSpawn h ht
  · next s1 rec h1 =>
    have hs1 : Memory.wf (vendorShare s1 (dieOf s o.w) rec x).1.mem = true := by simpa using wf_dwsRead h h1
    split at ht
    · cases ht; simpa using hs1
    · split at ht
      · cases ht
      · exact wf_refuseSpawn hs1 ht
      · next h2 => cases ht; simpa using wf_readLaunch hs1 h2

@[simp] theorem setNode_mem (s : State) (n : ℕ) (x : Option Node) : (setNode s n x).mem = s.mem := by rfl

@[simp] theorem setGraph_mem (s : State) (g : ℕ) (x : Option Graph) : (setGraph s g x).mem = s.mem := by rfl

@[simp] theorem wf_enterNode (s : State) (o : Op) (x : SpawnOp) (rec : ℕ) (h : Memory.wf s.mem = true) :
    Memory.wf (enterNode s o x rec).mem = true := by
  unfold enterNode
  dsimp only
  split <;> simp [h]

theorem wf_matchSpawn {s t : State} {d : ℕ} {xs : List (Op × SpawnOp)} (h : Memory.wf s.mem = true) (ht : matchSpawn s d xs = some t) :
    Memory.wf t.mem = true := by
  induction xs with
  | nil => cases ht
  | cons e r ih =>
    unfold matchSpawn at ht
    split at ht
    · cases ht
    · split at ht
      · split at ht
        · cases ht; simp [h]
        · cases ht
      · split at ht
        · exact ih ht
        · cases ht; simp [h]

theorem wf_readSpawns {s t : State} {xs : List (Op × SpawnOp)} (h : Memory.wf s.mem = true) (ht : readSpawns s xs = some t) :
    Memory.wf t.mem = true := by
  unfold readSpawns at ht
  split at ht
  · cases ht
  · split at ht
    · cases ht
    · split at ht
      · next h1 => cases ht; exact wf_readSpawn h h1
      · split at ht
        · cases ht
        · cases ht; simpa using h
      · cases ht

theorem wf_nodeMatch {d : ℕ} {s t : State} (h : Memory.wf s.mem = true) (ht : nodeMatch d s = some t) : Memory.wf t.mem = true := by
  unfold nodeMatch at ht
  rcases Option.or_eq_some_iff.mp ht with h1 | ⟨-, h1⟩
  · exact wf_matchSpawn h h1
  · exact wf_readSpawns h h1

end Sys2Proof.Machine
end

section
/-!
Graphs (Machine/Graph.lean).
-/
namespace Sys2Proof.Machine

@[simp] theorem recordTrap_mem (c : Ctx) (sub : ℕ) (ls : List (ℕ × Word)) (s : State) : (recordTrap c sub ls s).mem = s.mem := by
  simp [recordTrap]

@[simp] theorem rallocBody_mem (c : Ctx) (s : State) : (rallocBody c s).mem = s.mem := by
  unfold rallocBody
  dsimp only
  repeat' split
  all_goals simp

theorem wf_recordBody (kind : ℕ) (c : Ctx) (s : State) (h : Memory.wf s.mem = true) : Memory.wf (recordBody kind c s).mem = true := by
  unfold recordBody
  dsimp only
  split
  · simpa using h
  · split
    · simpa using h
    · split
      · simpa using h
      · exact wf_withCommit _ _ _ _ _ h h (fun _ hs => by simpa using hs)

theorem wf_rbatchBody (c : Ctx) (s : State) (h : Memory.wf s.mem = true) : Memory.wf (rbatchBody c s).mem = true := by
  unfold rbatchBody
  dsimp only
  split
  · split
    · simpa using h
    · split
      · simpa using h
      · split
        · simpa using h
        · exact wf_withCommit _ _ _ _ _ h h (fun _ hs => by simpa using hs)
  · simpa using h

@[simp] theorem cutBatch_mem (s : State) (gid : ℕ) (g : Graph) (j n : ℕ) : (cutBatch s gid g j n).mem = s.mem := by
  unfold cutBatch
  split <;> rfl

theorem graphChange_mem {s t : State} {gid : ℕ} {g : Graph} (h : graphChange s gid g = some t) : t.mem = s.mem := by
  unfold graphChange at h
  rw [Option.or_eq_some_iff] at h
  rcases h with h | ⟨-, h⟩
  · split at h
    · obtain ⟨i, -, hi⟩ := List.exists_of_findSome?_eq_some h
      split at hi
      · split at hi <;> cases hi
        simp
      · cases hi
    · cases h
  · obtain ⟨i, -, hi⟩ := List.exists_of_findSome?_eq_some h
    split at hi
    · split at hi <;> cases hi
      simp
    · cases hi

@[simp] theorem graphTick_mem (gid n : ℕ) (s : State) : (graphTick gid n s).mem = s.mem := by
  induction n generalizing s with
  | zero => rfl
  | succ n ih =>
    unfold graphTick
    split
    · rfl
    · split
      · rfl
      · next h => rw [ih, graphChange_mem h]

@[simp] theorem tickGraph_mem (s : State) (gid : ℕ) : (tickGraph s gid).mem = s.mem := by
  unfold tickGraph
  split <;> simp

@[simp] theorem releaseRecords_mem (s : State) (b : ℕ) : (releaseRecords s b).mem = s.mem := by
  unfold releaseRecords
  split <;> rfl

theorem wf_startResult (c : Ctx) (settled live : List (ℕ × TWord)) (s : State) (h : Memory.wf s.mem = true) :
    Memory.wf (startResult c settled live s).mem = true := by
  unfold startResult
  dsimp only
  split
  · split
    · simpa using h
    · exact wf_pushGate _ _ _ _ h (by simpa using h)
  · split <;> simp [h]

theorem wf_rfetchBody (c : Ctx) (s : State) (h : Memory.wf s.mem = true) : Memory.wf (rfetchBody c s).mem = true := by
  unfold rfetchBody
  dsimp only
  split
  · exact wf_ite (wf_startResult _ _ _ _ h) (wf_startResult _ _ _ _ h)
  · split
    · exact wf_startResult _ _ _ _ h
    · simpa using h

theorem wf_lvcoordBody (c : Ctx) (s : State) (h : Memory.wf s.mem = true) : Memory.wf (lvcoordBody c s).mem = true :=
  wf_ite (by simpa using h) (wf_ite (by simpa using h) (wf_startResult _ _ _ _ h))

end Sys2Proof.Machine
end

section
/-!
Matrix operations (Machine/Matrix.lean).
-/
namespace Sys2Proof.Machine

@[simp] theorem markTile_mem (s : State) (b t bits : ℕ) : (markTile s b t bits).mem = s.mem := by
  simp [markTile, apply_ite State.mem]

@[simp] theorem cleanTile_mem (s : State) (b t : ℕ) : (cleanTile s b t).mem = s.mem := by rfl

@[simp] theorem wf_wrElem (s : State) (b t layout r n v : ℕ) (h : Memory.wf s.mem = true) :
    Memory.wf (wrElem s b t layout r n v).mem = true := by
  simp [wrElem, h, wf_wrMem]

@[simp] theorem wf_mxStep (s v : State) (b : ℕ) (x : MxOp) (i : ℕ) (h : Memory.wf s.mem = true) : Memory.wf (mxStep s v b x i).mem = true :=
  wf_foldl _ (fun _ _ h => wf_foldl _ (fun _ _ h => by simp [h]) _ _ h) _ _ h

@[simp] theorem wf_mxLoadWord (s : State) (a : Agent) (b : ℕ) (x : MxOp) (i : ℕ) (h : Memory.wf s.mem = true) :
    Memory.wf (mxLoadWord s a b x i).1.mem = true := by
  unfold mxLoadWord
  split <;> simp [h, wf_wrMem]

@[simp] theorem wf_mxStoreWord (s : State) (a : Agent) (b : ℕ) (x : MxOp) (i : ℕ) (h : Memory.wf s.mem = true) :
    Memory.wf (mxStoreWord s a b x i).1.mem = true := by
  unfold mxStoreWord
  dsimp only
  split <;> simp [apply_ite State.mem, h]

@[simp] theorem mxCover_mem (s : State) (a : Agent) (x : MxOp) : (mxCover s a x).mem = s.mem := by
  simp [mxCover]

@[simp] theorem wf_mxEpilogue (s v : State) (b : ℕ) (x : MxOp) (h : Memory.wf s.mem = true) : Memory.wf (mxEpilogue s v b x).mem = true :=
  wf_foldl _ (fun _ _ h => wf_foldl _ (fun _ _ h => by simp [h]) _ _ h) _ _ h

@[simp] theorem mxStart_mem (c : Ctx) (x : MxOp) (s : State) : (mxStart c x s).mem = s.mem := by
  simp [mxStart, apply_ite State.mem]

theorem wf_mxBody (kind : ℕ) (c : Ctx) (s : State) (h : Memory.wf s.mem = true) : Memory.wf (mxBody kind c s).mem = true := by
  have hs : ∀ codes, Memory.wf (popAll s c.w c.sp.mask codes).mem = true := fun codes => by simpa using h
  unfold mxBody
  dsimp only
  split
  · split <;> simp [h]
  · simpa using h
  · split
    · simpa using h
    · split
      · simpa using h
      · split
        · split
          · simpa using h
          · simpa using h
          · refine wf_withCommit _ _ _ _ _ h (hs _) (fun s1 h1 => ?_)
            rw [mxStart_mem]
            exact wf_foldl _ (fun _ _ h => wf_touch _ _ _ _ _ h) _ _ h1
        · refine wf_withCommit _ _ _ _ _ h (hs _) (fun s1 h1 => ?_)
          split
          · exact wf_pushGate _ _ _ _ h (by simpa using h1)
          · simpa using h1

@[simp] theorem wf_mxEffect (s : State) (b : ℕ) (m : MxOp) (h : Memory.wf s.mem = true) : Memory.wf (mxEffect s b m).mem = true := by
  unfold mxEffect
  split
  · have h1 := fun rows => wf_foldl (fun s r => wrMem s (elemKey b m.tile m.ty r 0) (mxRowBytes m) 0) (fun _ _ h => wf_wrMem _ _ _ _ h) rows s h
    exact wf_ite (by simpa using h1 _) (h1 _)
  · exact wf_mxStep _ _ _ _ _ h
  · exact wf_mxStep _ _ _ _ _ h
  · exact wf_foldl _ (fun _ _ h => wf_wrElem _ _ _ _ _ _ _ h) _ _ h
  · exact wf_mxEpilogue _ _ _ _ h
  · exact h

@[simp] theorem wf_mxPiece (s : State) (o : Op) (m : MxOp) (h : Memory.wf s.mem = true) : Memory.wf (mxPiece s o m).mem = true := by
  unfold mxPiece
  dsimp only
  repeat' split
  all_goals simp [h]

@[simp] theorem mxSettle_mem (s : State) (b : ℕ) (m : MxOp) : (mxSettle s b m).mem = s.mem := by
  simp [mxSettle, apply_ite State.mem]

@[simp] theorem wf_mxComplete (s : State) (o : Op) (m : MxOp) (h : Memory.wf s.mem = true) : Memory.wf (mxComplete s o m).mem = true := by
  simp [mxComplete, apply_ite State.mem, h]

end Sys2Proof.Machine
end

section
/-!
Saving a block (Machine/Save.lean).
-/
namespace Sys2Proof.Machine

@[simp] theorem wf_saveSplit (w k : ℕ) (s : State) (h : Memory.wf s.mem = true) : Memory.wf (saveSplit w k s).mem = true := by
  unfold saveSplit
  dsimp only
  split <;> simp [apply_ite State.mem, h]

@[simp] theorem withdraw_mem (s : State) (p : ℕ → ℕ → Bool) : (withdraw s p).mem = s.mem := by rfl

@[simp] theorem wf_saveSplits (s : State) (b : ℕ) (h : Memory.wf s.mem = true) : Memory.wf (saveSplits s b).mem = true :=
  wf_foldl _ (fun _ _ h => wf_foldl _ (fun _ _ h => wf_saveSplit _ _ _ h) _ _ h) _ _ (by simpa using h)

@[simp] theorem wf_saveWarp (s : State) (base w : ℕ) (h : Memory.wf s.mem = true) : Memory.wf (saveWarp s base w).mem = true := by
  have filled : ∀ {α : Type} (at_ len val : α → ℕ) (xs : List α) (t : State), Memory.wf t.mem = true →
      Memory.wf (xs.foldl (fun t x => fillMem t (at_ x) (len x) (val x)) t).mem = true :=
    fun _ _ _ _ _ ht => wf_foldl _ (fun _ _ h => wf_fillMem _ _ _ _ h) _ _ ht
  unfold saveWarp
  refine filled _ _ _ _ _ (wf_fillMem _ _ _ _ (filled _ _ _ _ _ (wf_fillMem _ _ _ _ (wf_fillMem _ _ _ _ ?_))))
  exact wf_foldl _ (fun _ _ h => wf_fillMem _ _ _ _ (wf_fillMem _ _ _ _ h)) _ _ h

@[simp] theorem loadWarp_mem (s : State) (base w : ℕ) : (loadWarp s base w).mem = s.mem := by
  unfold loadWarp
  rw [setWarp_mem, mem_foldl _ (fun _ _ => setQueue_mem _ _ _ _ _)]

/-- A fold that fills a piece of memory at each step. -/
theorem wf_foldl_fillMem {α : Type} (key len val : α → ℕ) (xs : List α) (s : State) (h : Memory.wf s.mem = true) :
    Memory.wf (xs.foldl (fun t x => fillMem t (key x) (len x) (val x)) s).mem = true :=
  wf_foldl _ (fun _ _ h => wf_fillMem _ _ _ _ h) _ _ h

@[simp] theorem wf_saveUnits (s : State) (b base : ℕ) (h : Memory.wf s.mem = true) : Memory.wf (saveUnits s b base).mem = true := by
  unfold saveUnits
  refine wf_foldl _ (fun _ _ h => wf_foldl _ (fun _ _ h => wf_fillMem _ _ _ _ h) _ _ h) _ _ ?_
  refine wf_foldl_fillMem _ _ _ _ _ (wf_foldl_fillMem _ _ _ _ _ (wf_fillMem _ _ _ _ ?_))
  exact wf_foldl_fillMem _ _ _ _ _ (wf_foldl_fillMem _ _ _ _ _ (wf_foldl_fillMem _ _ _ _ _ h))

@[simp] theorem wf_saveCtx (s : State) (b slot : ℕ) (held : Bool) (h : Memory.wf s.mem = true) :
    Memory.wf (saveCtx s b slot held).mem = true := by
  unfold saveCtx
  refine wf_copyMem _ _ _ _ (wf_foldl_fillMem _ _ _ _ _ (wf_copyMem _ _ _ _ (wf_saveUnits _ _ _ ?_)))
  exact wf_foldl _ (fun _ _ h => wf_saveWarp _ _ _ h) _ _ (wf_fillMem _ _ _ _ h)

@[simp] theorem wf_loadCtx (s : State) (b slot : ℕ) (h : Memory.wf s.mem = true) : Memory.wf (loadCtx s b slot).mem = true := by
  unfold loadCtx
  refine wf_copyMem _ _ _ _ ?_
  dsimp only
  refine wf_copyMem _ _ _ _ ?_
  dsimp only
  exact wf_foldl _ (fun _ _ h => by simpa using h) _ _ (wf_foldl _ (fun _ _ h => by simpa using h) _ _ h)

theorem beginSave_mem {s t : State} {b : ℕ} {hold : Bool} {who : Option (ℕ × ℕ)} (h : beginSave s b hold who = some t) : t.mem = s.mem := by
  unfold beginSave at h
  dsimp only at h
  split at h
  · cases h
  · cases h
    exact mem_foldl _ (fun _ _ => setBlock_mem _ _ _) _ _

@[simp] theorem wf_saveBlock (s : State) (b slot : ℕ) (hold : Bool) (h : Memory.wf s.mem = true) :
    Memory.wf (saveBlock s b slot hold).mem = true := by
  unfold saveBlock
  dsimp only
  repeat' split
  all_goals simp [h]

@[simp] theorem wf_finishSave (s : State) (r : SaveReq) (h : Memory.wf s.mem = true) : Memory.wf (finishSave s r).mem = true := by
  unfold finishSave
  exact wf_foldl _ (fun _ _ h => by simp [h]) _ _ h

@[simp] theorem wf_wakeSave (s : State) (w k b d : ℕ) (h : Memory.wf s.mem = true) : Memory.wf (wakeSave s w k b d).mem = true := by
  unfold wakeSave
  split <;> simp [h]

end Sys2Proof.Machine
end

section
/-!
Blocks begin, end and are restored (Machine/Blocks.lean).
-/
namespace Sys2Proof.Machine

@[simp] theorem leaveCluster_mem (s : State) (b cl : ℕ) : (leaveCluster s b cl).mem = s.mem := by
  unfold leaveCluster
  split <;> simp

@[simp] theorem killPacket_mem (s : State) (x : Block) : (killPacket s x).mem = s.mem := by rfl

theorem wf_endBlock {s t : State} {b : ℕ} (h : Memory.wf s.mem = true) (ht : endBlock s b = .ok t) : Memory.wf t.mem = true := by
  unfold endBlock at ht
  extract_lets x node at ht
  split at ht
  · cases ht
  · next s0 h0 =>
    have hs0 : Memory.wf s0.mem = true := by
      split at h0
      · exact wf_crecUpdate h h0
      · cases h0; exact h
    extract_lets s1 s2 rel p s3 s4 s5 at ht
    have h1 : Memory.wf s1.mem = true := wf_ite (by simpa using hs0) hs0
    have h2 : Memory.wf s2.mem = true := wf_ite (wf_commitBlock _ _ h1) h1
    have hp : Memory.wf p.1.mem = true := by
      unfold p
      split
      · exact h2
      · simpa [rel] using h2
    have h4 : Memory.wf s4.mem = true := by
      unfold s4
      split
      · simpa [s3] using hp
      · simpa [s3] using hp
    have h5 : Memory.wf s5.mem = true := wf_eraseBlock _ _ (by simpa using h4)
    cases ht
    split
    · simpa using h5
    · exact h5

@[simp] theorem wf_startBlock (s : State) (num : ℕ) (n : Node) (cl lin : ℕ) (p : Placed) (h : Memory.wf s.mem = true) :
    Memory.wf (startBlock s num n cl lin p).mem = true := by
  unfold startBlock
  rw [acquireAll_mem]
  refine wf_acquireNow _ _ _ ?_
  rw [setCbar_mem, setAo_mem]
  refine wf_foldl _ (fun s sp h => ?_) _ _ (by simpa using h)
  simpa using h

@[simp] theorem wf_startGroup (s : State) (num : ℕ) (n : Node) (g : List (ℕ × Placed)) (h : Memory.wf s.mem = true) :
    Memory.wf (startGroup s num n g).mem = true := by
  unfold startGroup
  exact wf_foldl _ (fun _ _ h => by simp [h]) _ _ h

@[simp] theorem reenterMx_mem (s : State) (b : ℕ) : (reenterMx s b).mem = s.mem := by rfl

@[simp] theorem wf_restoreBlock (s : State) (b cl : ℕ) (p : Placed) (h : Memory.wf s.mem = true) :
    Memory.wf (restoreBlock s b cl p).mem = true := by
  unfold restoreBlock
  extract_lets x core s0 at *
  split
  · exact h
  · extract_lets slot s1 s2
    have h2 : Memory.wf s2.mem = true := wf_foldl _ (fun _ _ h => by simpa using h) _ _ (by simpa [s1, s0] using h)
    exact wf_ite (by simpa using h2) (wf_fillMem _ _ _ _ (by simp [h2]))

@[simp] theorem wf_dispatchNode (s : State) (num : ℕ) (n : Node) (ps : List Placed) (h : Memory.wf s.mem = true) :
    Memory.wf (dispatchNode s num n ps).mem = true :=
  wf_ite (wf_foldl_fst _ (fun _ _ h => wf_startGroup _ _ _ _ h) _ _ (by simpa using h))
    (wf_foldl _ (fun _ _ h => wf_restoreBlock _ _ _ _ h) _ _ (by simpa using h))

theorem wf_blockDispatch {d : ℕ} {s t : State} (h : Memory.wf s.mem = true) (ht : blockDispatch d s = some t) : Memory.wf t.mem = true := by
  obtain ⟨e, -, rfl⟩ := Option.map_eq_some_iff.mp ht
  exact wf_dispatchNode _ _ _ _ h

theorem wf_priorityPreempt {s t : State} (h : Memory.wf s.mem = true) (ht : priorityPreempt s = some t) : Memory.wf t.mem = true := by
  unfold priorityPreempt at ht
  split at ht
  · cases ht; exact wf_finishSave _ _ h
  · obtain ⟨d, -, hd⟩ := List.exists_of_findSome?_eq_some ht
    obtain ⟨b, -, hb⟩ := Option.bind_eq_some_iff.mp hd
    exact (beginSave_mem hb).symm ▸ h

@[simp] theorem releaseDeps_mem (s : State) (num : ℕ) (n : Node) : (releaseDeps s num n).mem = s.mem := by rfl

theorem wf_retireNode {s t : State} {num : ℕ} {n : Node} (h : Memory.wf s.mem = true) (ht : retireNode s num n = .ok t) :
    Memory.wf t.mem = true := by
  unfold retireNode at ht
  extract_lets code at ht
  split at ht
  · cases ht
  · next s1 h1 =>
    have hs1 := wf_crecUpdate (wf_wbScope _ _ _ _ h) h1
    extract_lets s2 s3 at ht
    have h2 : Memory.wf s2.mem = true := wf_ite (by simpa using hs1) hs1
    have h3 : Memory.wf s3.mem = true := by simpa [s3] using h2
    cases ht
    split
    · split
      · simpa using h3
      · exact h3
    · split
      · simpa using h3
      · exact h3

end Sys2Proof.Machine
end

section
/-!
Ray queries (Machine/Ray.lean).
-/
namespace Sys2Proof.Machine

@[simp] theorem rtbindBody_mem (c : Ctx) (s : State) : (rtbindBody c s).mem = s.mem := by
  unfold rtbindBody
  dsimp only
  split <;> simp [apply_ite State.mem]

@[simp] theorem wf_noteFetch (s : State) (a : Agent) (va : ℕ) (l : Leaf) (key : ℕ) (h : Memory.wf s.mem = true) :
    Memory.wf (noteFetch s a va l key).mem = true := by
  simp [noteFetch, h]

@[simp] theorem setQuery_mem (s : State) (w lane : ℕ) (q : Query) : (setQuery s w lane q).mem = s.mem := by rfl

@[simp] theorem setWays_mem (s : State) (key : ℕ) (ws : List LhtWay) : (setWays s key ws).mem = s.mem := by rfl

@[simp] theorem bumpCount_mem (s : State) (core part used conf : ℕ) : (bumpCount s core part used conf).mem = s.mem := by rfl

theorem wf_predict {s t : State} {a : Agent} {routes : List (ℕ × Word)} {q : Query} {bound : Option RayHit} {hint : Option ℕ}
    (h : Memory.wf s.mem = true) (ht : predict s a routes q = .ok t bound hint) : Memory.wf t.mem = true := by
  unfold predict at ht
  split at ht
  · cases ht; exact h
  · dsimp only at ht
    split at ht
    · cases ht; exact h
    · split at ht
      · cases ht
      · split at ht
        · split at ht
          · cases ht; simp [h]
          · cases ht; simp [h]
        · cases ht; simp [h]
      · cases ht; simpa using h

@[simp] theorem recordLeaf_mem (s : State) (a : Agent) (q : Query) (used : Option ℕ) (best : Option RayHit) :
    (recordLeaf s a q used best).mem = s.mem := by
  unfold recordLeaf
  dsimp only
  repeat' split
  all_goals simp

@[simp] theorem afterVisit_mem (s : State) (a : Agent) (q : Query) (k : RayWalk) : (afterVisit s a q k).1.mem = s.mem := by
  simp [afterVisit, apply_ite (fun r : State × Query => r.1.mem), apply_ite State.mem]

theorem wf_visitTop {s t : State} {a : Agent} {routes : List (ℕ × Word)} {q q' : Query} {k : RayWalk} (h : Memory.wf s.mem = true)
    (ht : visitTop s a routes q k = .ok t q') : Memory.wf t.mem = true := by
  unfold visitTop at ht
  split at ht
  · cases ht; simpa using h
  · split at ht
    · cases ht; exact h
    · split at ht
      · cases ht
      · cases ht
      · cases ht; simpa using h
      · dsimp only at ht
        split at ht
        · cases ht; simp [h]
        · cases ht; simp [h]

theorem wf_passStep {s t : State} {a : Agent} {routes : List (ℕ × Word)} {q q' : Query} (h : Memory.wf s.mem = true)
    (ht : passStep s a routes q = .ok t q') : Memory.wf t.mem = true := by
  unfold passStep at ht
  split at ht
  · exact wf_visitTop h ht
  · split at ht
    · split at ht
      · cases ht
      · next hp => cases ht; exact wf_predict h hp
    · cases ht; exact h

@[simp] theorem abandonLane_mem (s : State) (w lane : ℕ) : (abandonLane s w lane).mem = s.mem := by rfl

@[simp] theorem rtraceBody_mem (c : Ctx) (s : State) : (rtraceBody c s).mem = s.mem := by
  unfold rtraceBody
  dsimp only
  split
  · simp
  · split
    · simp
    · rw [advance_mem]
      split
      · exact mem_foldl _ (fun _ _ => by simp) _ _
      · rw [stampOp_mem, startOp_mem]
        exact mem_foldl _ (fun _ _ => by simp) _ _

@[simp] theorem leaveLane_mem (s : State) (o : Op) (lane : ℕ) : (leaveLane s o lane).mem = s.mem := by
  unfold leaveLane
  dsimp only
  split <;> simp [apply_ite State.mem]

theorem wf_laneStep {s t : State} {o : Op} {kind lane : ℕ} {q : Query} (h : Memory.wf s.mem = true)
    (ht : laneStep s o kind lane = .ok t q) : Memory.wf t.mem = true := by
  unfold laneStep at ht
  extract_lets q0 q1 at ht
  split at ht
  · cases ht
  · exact wf_passStep h ht

@[simp] theorem startGroupVar_mem (c : Ctx) (n : ℕ) (lanes : List ℕ) (kind : OpKind) (s : State) :
    (startGroupVar c n lanes kind s).mem = s.mem :=
  (advance_mem _ _).trans (mem_foldl _ (fun _ _ => killDst_mem _ _ _ _) _ _)

@[simp] theorem laneAnswer_mem (s : State) (w d kind lane : ℕ) : (laneAnswer s w d kind lane).1.mem = s.mem := by
  simp [laneAnswer]

@[simp] theorem laneReject_mem (s : State) (w kind lane : ℕ) : (laneReject s w kind lane).mem = s.mem := by rfl

@[simp] theorem rayTake_mem (kind : ℕ) (c : Ctx) (s : State) : (rayTake kind c s).mem = s.mem := by
  unfold rayTake
  rw [startGroupVar_mem, mem_foldl_fst _ (fun _ _ => by simp), mem_foldl _ (fun _ _ => laneReject_mem _ _ _ _)]

@[simp] theorem rtresBody_mem (c : Ctx) (s : State) : (rtresBody c s).mem = s.mem := by
  simp [rtresBody]

@[simp] theorem rtcandBody_mem (c : Ctx) (s : State) : (rtcandBody c s).mem = s.mem := by
  simp [rtcandBody]

theorem wf_rayAnswer {s t : State} {o : Op} (h : Memory.wf s.mem = true) (ht : rayAnswer s o = some t) : Memory.wf t.mem = true := by
  unfold rayAnswer at ht
  split at ht
  · split at ht
    · cases ht
    · split at ht
      · cases ht; exact wf_finishOp _ _ _ h
      · obtain ⟨l, -, rfl⟩ := Option.map_eq_some_iff.mp ht
        simpa using h
  · cases ht

@[simp] theorem rtaccBody_mem (c : Ctx) (s : State) : (rtaccBody c s).mem = s.mem := by
  unfold rtaccBody
  dsimp only
  split
  · simp
  · rw [advance_mem]
    refine mem_foldl _ (fun _ _ => ?_) _ _
    split
    · rfl
    · simp [apply_ite State.mem]

theorem wf_rayOperands (c : Ctx) (n : ℕ) (s : State) (go : List (ℕ × List TWord × List TWord) → State) (h : Memory.wf s.mem = true)
    (hg : ∀ vs, Memory.wf (go vs).mem = true) : Memory.wf (rayOperands c n s go).mem = true := by
  unfold rayOperands
  dsimp only
  split
  · simpa using h
  · exact hg _

theorem wf_rtboxBody (c : Ctx) (s : State) (h : Memory.wf s.mem = true) : Memory.wf (rtboxBody c s).mem = true :=
  wf_rayOperands _ _ _ _ h (fun _ => wf_startResult _ _ _ _ h)

theorem wf_rttriBody (c : Ctx) (s : State) (h : Memory.wf s.mem = true) : Memory.wf (rttriBody c s).mem = true :=
  wf_rayOperands _ _ _ _ h (fun _ => by simpa [apply_ite State.mem, mem_foldl] using h)

@[simp] theorem clearPart_mem (s : State) (core part : ℕ) : (clearPart s core part).mem = s.mem := by rfl

@[simp] theorem lhtinvBody_mem (c : Ctx) (s : State) : (lhtinvBody c s).mem = s.mem := by
  unfold lhtinvBody
  rw [advance_mem]
  split
  · exact mem_foldl _ (fun _ _ => clearPart_mem _ _ _) _ _
  · exact clearPart_mem _ _ _

theorem wf_lhtstatBody (c : Ctx) (s : State) (h : Memory.wf s.mem = true) : Memory.wf (lhtstatBody c s).mem = true :=
  wf_startResult _ _ _ _ (wf_ite h h)

end Sys2Proof.Machine
end

section
/-!
Halo exchange, collectives and peers (Machine/Fabric.lean).
-/
namespace Sys2Proof.Machine

@[simp] theorem wf_touchPages (s : State) (a : Agent) (pages : List (ℕ × Leaf)) (h : Memory.wf s.mem = true) :
    Memory.wf (touchPages s a pages).mem = true := by
  unfold touchPages
  exact wf_foldl _ (fun _ _ h => by simp [h]) _ _ h

theorem wf_hxBody (c : Ctx) (s : State) (h : Memory.wf s.mem = true) : Memory.wf (hxBody c s).mem = true := by
  have raised : ∀ cause sub, Memory.wf (raiseAll c cause sub s).mem = true := fun _ _ => by simpa using h
  unfold hxBody
  dsimp only
  split
  · simpa using h
  · simpa using h
  · refine wf_ite (raised _ _) (wf_ite (raised _ _) (wf_ite (raised _ _) (wf_ite (raised _ _) (wf_ite (raised _ _) (wf_ite (raised _ _) ?_)))))
    split
    · simpa using h
    · simpa using h
    · refine wf_withCommit _ _ _ _ _ h h (fun s1 h1 => ?_)
      rw [advance_mem, apply_ite State.mem, aoRegister_mem, ite_self, stampOp_mem, startOp_mem]
      exact wf_foldl _ (fun _ _ h => wf_touchPages _ _ _ h) _ _ h1

@[simp] theorem endEntry_mem (s : State) (o : Op) (x : HaloOp) (i flags : ℕ) : (endEntry s o x i flags).mem = s.mem := by
  unfold endEntry
  split <;> simp [apply_ite State.mem]

theorem takeBox_mem {s t : State} {o : Op} (h : takeBox s o = some t) : t.mem = s.mem := by
  unfold takeBox at h
  split at h
  · obtain ⟨m, -, rfl⟩ := Option.map_eq_some_iff.1 h
    rfl
  · cases h

@[simp] theorem wf_entStep (s : State) (o : Op) (x : HaloOp) (e : HaloEnt) (h : Memory.wf s.mem = true) :
    Memory.wf (entStep s o x e).1.mem = true := by
  unfold entStep
  split <;> simp [h]

@[simp] theorem entCover_mem (s : State) (o : Op) (x : HaloOp) (e : HaloEnt) : (entCover s o x e).mem = s.mem := by
  simp [entCover]

@[simp] theorem wf_haloStep (s : State) (o : Op) (x : HaloOp) (h : Memory.wf s.mem = true) : Memory.wf (haloStep s o x).mem = true := by
  unfold haloStep
  dsimp only
  split
  · simp [h]
  · split
    · simpa using h
    · split
      · next ht => exact (takeBox_mem ht).symm ▸ h
      · split
        · simpa using h
        · exact h

@[simp] theorem wf_shareWrites (s : State) (o : Op) (h : Memory.wf s.mem = true) : Memory.wf (shareWrites s o).mem = true := by
  simp [shareWrites, h]

@[simp] theorem wf_sendBox (s : State) (o : Op) (x : HaloOp) (i : ℕ) (e : HaloEnt) (h : Memory.wf s.mem = true) :
    Memory.wf (sendBox s o x i e).mem = true := by
  simp [sendBox, apply_ite State.mem, apply_ite Memory.wf, h]

@[simp] theorem arriveBox_mem (s : State) (box : HaloBox) : (arriveBox s box).mem = s.mem := by
  unfold arriveBox
  dsimp only
  split
  · next h =>
    obtain ⟨o, -, ho⟩ := List.exists_of_findSome?_eq_some h
    exact (takeBox_mem ho).trans rfl
  · split <;> rfl

theorem wf_collBody (kind : ℕ) (c : Ctx) (s : State) (h : Memory.wf s.mem = true) : Memory.wf (collBody kind c s).mem = true := by
  have raised : ∀ cause sub, Memory.wf (raiseAll c cause sub s).mem = true := fun _ _ => by simpa using h
  unfold collBody
  extract_lets l b bl ctl g d x sz a
  split
  · simpa using h
  · simpa using h
  · refine wf_ite (raised _ _) (wf_ite (raised _ _) (wf_ite (raised _ _) (wf_ite (raised _ _) (wf_ite (raised _ _) ?_))))
    split
    · simpa using h
    · simpa using h
    · refine wf_withCommit _ _ _ _ _ h h (fun _ hs => ?_)
      rw [advance_mem, stampOp_mem, startOp_mem]
      exact wf_touchPages _ _ _ hs

@[simp] theorem wf_collRead (s : State) (o : Op) (x : CollOp) (w : ℕ) (h : Memory.wf s.mem = true) :
    Memory.wf (collRead s o x w).1.mem = true := by
  unfold collRead
  refine wf_foldl_fst _ (fun r i hr => ?_) _ _ h
  split
  · exact hr
  · simp [hr]

@[simp] theorem endColl_mem (s : State) (o : Op) (x : CollOp) (flags : ℕ) : (endColl s o x flags).mem = s.mem := by
  simp [endColl, apply_ite State.mem]

@[simp] theorem wf_writeRes (s : State) (o : Op) (x : CollOp) (es : List (ℕ × ℕ × Bool)) (w : ℕ) (h : Memory.wf s.mem = true) :
    Memory.wf (writeRes s o x es w).mem = true :=
  wf_ite (wf_foldl _ (fun _ _ h => wf_tileSend _ _ _ _ _ h) _ _ h) (wf_foldl _ (fun _ _ h => wf_putElem _ _ _ _ _ _ h) _ _ (wf_commitFor _ _ _ h))

@[simp] theorem coverRes_mem (s : State) (o : Op) (x : CollOp) (es : List (ℕ × ℕ × Bool)) : (coverRes s o x es).mem = s.mem := by
  simp [coverRes, apply_ite State.mem]

@[simp] theorem wf_collStep (s : State) (o : Op) (x : CollOp) (h : Memory.wf s.mem = true) : Memory.wf (collStep s o x).mem = true := by
  unfold collStep
  dsimp only
  repeat' split
  all_goals simp [h]

@[simp] theorem setPool_mem (s : State) (r : ℕ) (p : PoolRegion) : (setPool s r p).mem = s.mem := by rfl

@[simp] theorem wf_failUnreached (s : State) (h : Memory.wf s.mem = true) : Memory.wf (failUnreached s).mem = true :=
  wf_foldl _ (fun _ _ h => wf_ite (wf_ckFail _ _ _ h) h) _ _ h

@[simp] theorem wf_enterLost (s : State) (r cause : ℕ) (h : Memory.wf s.mem = true) : Memory.wf (enterLost s r cause).mem = true := by
  simp [enterLost, apply_ite State.mem, apply_ite Memory.wf, h, wf_dropOld]

@[simp] theorem wf_loseRegions (s : State) (p : PoolRegion → Bool) (cause : ℕ) (h : Memory.wf s.mem = true) :
    Memory.wf (loseRegions s p cause).mem = true :=
  wf_failUnreached _ (wf_foldl _ (fun _ _ h => wf_enterLost _ _ _ h) _ _ h)

@[simp] theorem endCommand_mem (s : State) (r : ℕ) (p : PoolRegion) (ok : Bool) : (endCommand s r p ok).mem = s.mem := by rfl

@[simp] theorem wf_poolBody (ack : Bool) (c : Ctx) (s : State) (h : Memory.wf s.mem = true) : Memory.wf (poolBody ack c s).mem = true := by
  unfold poolBody
  dsimp only
  split <;> simp [apply_ite State.mem, h]

@[simp] theorem poolEffect_mem (s : State) (ack : Bool) (r epoch : ℕ) : (poolEffect s ack r epoch).1.mem = s.mem := by
  simp [poolEffect, apply_ite (fun r : State × TWord => r.1.mem)]

@[simp] theorem wf_exComplete (s : State) (o : Op) (h : Memory.wf s.mem = true) : Memory.wf (exComplete s o).mem = true := by
  unfold exComplete
  split
  · simp [h]
  · simp [h]
  · simp [h]
  · simp [h]
  · cases ht : rayAnswer s o with
    | none => exact h
    | some t => exact wf_rayAnswer h ht
  · exact h

@[simp] theorem logFrozen_mem (s : State) (pa sender : ℕ) : (logFrozen s pa sender).mem = s.mem := by rfl

@[simp] theorem wf_dropAccs (s : State) (o : Op) (cause : ℕ) (sel : List Acc) (h : Memory.wf s.mem = true) :
    Memory.wf (dropAccs s o cause sel).mem = true := by
  have logged : Memory.wf (sel.foldl (fun s a =>
      match peerOf a.key with | some (p, pa) => logDropped s (routePort o p) pa (selfId s) | none => s) s).mem = true := by
    refine wf_foldl _ (fun s a h => ?_) _ _ h
    split
    · simpa using h
    · exact h
  unfold dropAccs
  dsimp only
  split
  · exact wf_settleOp _ _ _ _ h
  · exact wf_settleOp _ _ _ _ logged
  · exact wf_settleOp _ _ _ _ logged
  · exact h

@[simp] theorem dropPages_mem (s : State) (o : Op) (p : Leaf → Bool) (mark : ℕ) : (dropPages s o p mark).mem = s.mem := by
  unfold dropPages
  dsimp only
  exact mem_foldl _ (fun _ _ => logDropped_mem _ _ _ _) _ _

@[simp] theorem wf_serveOutside (s : State) (sender kind op : ℕ) (ty : BitVec 4) (pa len value cmp : ℕ) (h : Memory.wf s.mem = true) :
    Memory.wf (serveOutside s sender kind op ty pa len value cmp).mem = true := by
  simp [serveOutside, apply_ite State.mem, apply_ite Memory.wf, h]

@[simp] theorem wf_dropMons (s : State) (o : Op) (cause : ℕ) (p : Acc → Bool) (h : Memory.wf s.mem = true) :
    Memory.wf (dropMons s o cause p).mem = true := by
  unfold dropMons
  dsimp only
  repeat' split
  all_goals simp [h]

@[simp] theorem dropStream_mem (s : State) (w lane q cause : ℕ) (p : ℕ → Bool) : (dropStream s w lane q cause p).mem = s.mem := by
  unfold dropStream
  split <;> rfl

@[simp] theorem wf_dropPeer (s : State) (name cause mark : ℕ) (lanes : Mask) (p : ℕ → Bool) (leaf : Leaf → Bool) (h : Memory.wf s.mem = true) :
    Memory.wf (dropPeer s name cause mark lanes p leaf).mem = true := by
  unfold dropPeer
  dsimp only
  repeat' split
  all_goals simp [h]

end Sys2Proof.Machine
end

section
/-!
Restoring a region (Machine/Restore.lean).
-/
namespace Sys2Proof.Machine

theorem wf_clearLater (s : State) (r v t : ℕ) (h : Memory.wf s.mem = true) : Memory.wf (clearLater s r v t).1.mem = true := by
  unfold clearLater
  refine wf_foldl_fst _ (fun acc j h => ?_) _ _ h
  dsimp only
  split
  · exact wf_wrMem _ _ _ _ (wf_wrMem _ _ _ _ (by simpa using h))
  · exact h

/-- The poison marks lie beside memory. -/
theorem poison_update_mem (s : State) (p : List (ℕ × ℕ)) : ({ s with poison := p } : State).mem = s.mem := by rfl

/-- The frozen marks lie beside memory. -/
theorem frozen_update_mem (s : State) (f : List (ℕ × Bool)) : ({ s with frozen := f } : State).mem = s.mem := by rfl

@[simp] theorem wf_restorePage (r t : ℕ) (secs : List CkSector) (s : State) (j : ℕ) (h : Memory.wf s.mem = true) :
    Memory.wf (restorePage r t secs s j).mem = true := by
  unfold restorePage
  rw [frozen_update_mem]
  refine wf_putVdb _ _ _ (wf_clearLater _ _ _ _ (wf_foldl _ (fun s e h => ?_) _ _ ?_))
  · rw [poison_update_mem]
    exact wf_wrMem _ _ _ _ h
  · rw [cleanFrame_mem]
    exact wf_wrMem _ _ _ _ h

@[simp] theorem wf_deactivate (s : State) (r : ℕ) (h : Memory.wf s.mem = true) : Memory.wf (deactivate s r).mem = true := by
  simp [deactivate, h, wf_wrMem]

@[simp] theorem endRestore_mem (s : State) (step state : ℕ) : (endRestore s step state).mem = s.mem := by
  unfold endRestore
  generalize BitVec.ofNat 64 _ = v
  rfl

@[simp] theorem wf_restoreRegion (s : State) (r : ℕ) (m : Manifest) (secs : List CkSector) (pages : List ℕ) (h : Memory.wf s.mem = true) :
    Memory.wf (restoreRegion s r m secs pages).mem = true := by
  unfold restoreRegion
  rw [endRestore_mem, setCk_mem, syncRegion_mem]
  refine wf_wrMem _ _ _ _ (wf_wrMem _ _ _ _ (wf_wrMem _ _ _ _ ?_))
  exact wf_foldl _ (fun _ _ h => wf_fillZero _ _ _ h) _ _ (wf_foldl _ (fun _ _ h => wf_restorePage _ _ _ _ _ h) _ _ h)

@[simp] theorem wf_restore (s : State) (h : Memory.wf s.mem = true) : Memory.wf (restore s).mem = true := by
  have hd := wf_deactivate s (s.rsreg.toNat % 4096) h
  unfold restore
  refine wf_ite (by simpa using h) (wf_ite (by simpa using hd) ?_)
  split
  · simpa using hd
  · exact wf_ite (by simpa using hd) (wf_ite (by simpa using hd) (wf_restoreRegion _ _ _ _ _ hd))

end Sys2Proof.Machine
end

section
/-!
System words (Machine/System.lean).
-/
namespace Sys2Proof.Machine

@[simp] theorem sysWrite_mem (c : Ctx) (v : TWord) (s : State) : (sysWrite c v s).mem = s.mem := by
  simp [sysWrite]

@[simp] theorem sysDone_mem (c : Ctx) (v : Word) (s : State) : (sysDone c v s).mem = s.mem := by
  simp [sysDone]

@[simp] theorem sysRefuse_mem (c : Ctx) (code : ℕ) (s : State) : (sysRefuse c code s).mem = s.mem := by
  simp [sysRefuse]

theorem wf_sysTags (c : Ctx) (ws : List TWord) (s go : State) (h : Memory.wf s.mem = true) (hg : Memory.wf go.mem = true) :
    Memory.wf (sysTags c ws s go).mem = true := by
  unfold sysTags
  split
  · exact wf_settleAll _ _ _ h
  · simpa using h
  · exact hg

@[simp] theorem tretRetry_mem (c : Ctx) (h : Handler) (rest : List Handler) (s : State) : (tretRetry c h rest s).mem = s.mem := by
  simp [tretRetry, apply_ite State.mem]

theorem wf_tretBody (c : Ctx) (s : State) (h : Memory.wf s.mem = true) : Memory.wf (tretBody c s).mem = true := by
  refine wf_sysTags _ _ _ _ h ?_
  split
  · simpa using h
  · dsimp only
    split
    · simpa using h
    · simpa using h
    · exact wf_ite (by simpa using h) (by simpa using h)

@[simp] theorem tfixBody_mem (c : Ctx) (s : State) : (tfixBody c s).mem = s.mem := by
  unfold tfixBody
  dsimp only
  split <;> simp [apply_ite State.mem]

@[simp] theorem setDie_mem (s : State) (d : ℕ) (x : DieSt) : (setDie s d x).mem = s.mem := by rfl

@[simp] theorem csrrBody_mem (c : Ctx) (s : State) : (csrrBody c s).mem = s.mem := by
  simp [csrrBody]

@[simp] theorem csrWrite_mem (s : State) (w n : ℕ) (v : Word) : (csrWrite s w n v).mem = s.mem := by
  unfold csrWrite
  split <;> simp

theorem wf_csrwBody (c : Ctx) (s : State) (h : Memory.wf s.mem = true) : Memory.wf (csrwBody c s).mem = true :=
  wf_sysTags _ _ _ _ h (by simpa using h)

@[simp] theorem dropGranules_mem (s : State) (space : ℕ) (e : TlbEnt) : (dropGranules s space e).mem = s.mem := by
  unfold dropGranules
  split <;> split <;> rfl

@[simp] theorem dropTlb_mem (s : State) (p : ℕ → ℕ → Leaf → Bool) : (dropTlb s p).mem = s.mem := by
  simp [dropTlb, mem_foldl]

@[simp] theorem shootDown_mem (s : State) (l : Leaf) : (shootDown s l).mem = s.mem := by
  simp [shootDown]

@[simp] theorem wf_cleanMode (s : State) (l : Leaf) (h : Memory.wf s.mem = true) : Memory.wf (cleanMode s l).mem = true := by
  simp [cleanMode, apply_ite State.mem, apply_ite Memory.wf, h]

@[simp] theorem wf_putLeaf (s : State) (l : Leaf) (e : ℕ) (h : Memory.wf s.mem = true) : Memory.wf (putLeaf s l e).mem = true := by
  simp [putLeaf, h]

theorem wf_pageWalk (c : Ctx) (s : State) (n : ℕ) (go : ℕ → WalkRes → State) (h : Memory.wf s.mem = true)
    (hg : ∀ sp r, Memory.wf (go sp r).mem = true) : Memory.wf (pageWalk c s n go).mem = true := by
  refine wf_sysTags _ _ _ _ h ?_
  split
  · simpa using h
  · exact hg _ _

theorem wf_pgmodeBody (c : Ctx) (s : State) (h : Memory.wf s.mem = true) : Memory.wf (pgmodeBody c s).mem = true := by
  have refused : ∀ code, Memory.wf (sysRefuse c code s).mem = true := fun _ => by simpa using h
  refine wf_pageWalk _ _ _ _ h (fun sp r => ?_)
  dsimp only
  split
  · exact wf_ite (refused _) (wf_ite (refused _) (wf_ite (refused _) (by simp [h])))
  · exact refused _

theorem wf_pgrepBody (c : Ctx) (s : State) (h : Memory.wf s.mem = true) : Memory.wf (pgrepBody c s).mem = true := by
  have refused : ∀ code, Memory.wf (sysRefuse c code s).mem = true := fun _ => by simpa using h
  refine wf_pageWalk _ _ _ _ h (fun sp r => ?_)
  dsimp only
  split
  · refine wf_ite (refused _) ?_
    split
    · exact refused _
    · refine wf_ite (refused _) ?_
      rw [sysDone_mem]
      exact wf_putLeaf _ _ _ (wf_foldl _ (fun _ _ h => wf_copyPage _ _ _ _ h) _ _ (by simp [h]))
  · exact refused _

theorem wf_pgcolBody (c : Ctx) (s : State) (h : Memory.wf s.mem = true) : Memory.wf (pgcolBody c s).mem = true := by
  have refused : ∀ code, Memory.wf (sysRefuse c code s).mem = true := fun _ => by simpa using h
  refine wf_pageWalk _ _ _ _ h (fun sp r => ?_)
  dsimp only
  split
  · split
    · exact refused _
    · rw [sysDone_mem]
      exact wf_foldl _ (fun _ _ h => wf_loosePage _ _ _ h) _ _ (by simp [h])
  · exact refused _

theorem wf_tlbinvBody (c : Ctx) (s : State) (h : Memory.wf s.mem = true) : Memory.wf (tlbinvBody c s).mem = true := by
  refine wf_sysTags _ _ _ _ h ?_
  split
  · simpa using h
  · dsimp only
    split
    · simpa using h
    · simpa using h

theorem wf_preemptBody (c : Ctx) (s : State) (h : Memory.wf s.mem = true) : Memory.wf (preemptBody c s).mem = true := by
  refine wf_sysTags _ _ _ _ h ?_
  split
  · simpa using h
  · split
    · simpa using h
    · dsimp only
      split
      · simpa using h
      · next hs =>
        have h1 : Memory.wf _ = true := (beginSave_mem hs).symm ▸ h
        split <;> simpa using h1

theorem wf_resumeBody (c : Ctx) (s : State) (h : Memory.wf s.mem = true) : Memory.wf (resumeBody c s).mem = true := by
  have refused : ∀ code, Memory.wf (sysRefuse c code s).mem = true := fun _ => by simpa using h
  refine wf_sysTags _ _ _ _ h (wf_ite (by simpa using h) ?_)
  split
  · exact refused _
  · refine wf_ite (refused _) (wf_ite (refused _) ?_)
    rw [sysDone_mem]
    split
    · rw [setNode_mem]
      exact wf_fillMem _ _ _ _ (by simpa using h)
    · exact wf_fillMem _ _ _ _ (by simpa using h)

@[simp] theorem killOne_mem (s : State) (b : ℕ) : (killOne s b).mem = s.mem := by
  unfold killOne
  dsimp only
  split <;> simp

@[simp] theorem killAhead_mem (s : State) (num : ℕ) (n : Node) (lins : List ℕ) : (killAhead s num n lins).mem = s.mem := by
  unfold killAhead
  dsimp only
  repeat' split
  all_goals simp

theorem wf_blkkillBody (c : Ctx) (s : State) (h : Memory.wf s.mem = true) : Memory.wf (blkkillBody c s).mem = true := by
  refine wf_sysTags _ _ _ _ h ?_
  dsimp only
  split
  · simpa using h
  · rw [mem_foldl _ killOne_mem, mem_foldl]
    · simpa using h
    · intro s e
      split <;> simp

theorem wf_vlogBody (c : Ctx) (s : State) (h : Memory.wf s.mem = true) : Memory.wf (vlogBody c s).mem = true :=
  wf_sysTags _ _ _ _ h (by simpa using h)

end Sys2Proof.Machine
end

section
/-!
The host, resets and commands (Machine/Host.lean).
-/
namespace Sys2Proof.Machine

@[simp] theorem setMbox_mem (s : State) (i v : ℕ) : (setMbox s i v).mem = s.mem := by rfl

@[simp] theorem putResults_mem (s : State) (vs : List ℕ) : (putResults s vs).mem = s.mem :=
  mem_foldl _ (fun _ _ => setMbox_mem _ _ _) _ _

@[simp] theorem finishCmd_mem (s : State) (status : ℕ) : (finishCmd s status).mem = s.mem := by rfl

@[simp] theorem readLogCmd_mem (ents : List (ℕ × ℕ)) (metas : List (ℕ × VLog)) (s : State) : (readLogCmd ents metas s).mem = s.mem := by
  simp [readLogCmd, apply_ite State.mem]

@[simp] theorem wf_controllerWrite (s : State) (pa v : ℕ) (h : Memory.wf s.mem = true) : Memory.wf (controllerWrite s pa v).mem = true := by
  simp [controllerWrite, apply_ite State.mem, apply_ite Memory.wf, h]

@[simp] theorem wf_attestCmd (s : State) (h : Memory.wf s.mem = true) : Memory.wf (attestCmd s).mem = true := by
  refine wf_ite (by simpa using h) (wf_ite (by simpa using h) ?_)
  rw [finishCmd_mem, putResults_mem]
  exact wf_foldl _ (fun _ _ h => wf_controllerWrite _ _ _ h) _ _ h

@[simp] theorem setCapCmd_mem (s : State) : (setCapCmd s).mem = s.mem := by
  simp [setCapCmd, apply_ite State.mem]

@[simp] theorem statusCmd_mem (s : State) : (statusCmd s).mem = s.mem := by
  simp [statusCmd]

@[simp] theorem releaseDie_mem (s : State) (d : ℕ) (x : ImageFile) : (releaseDie s d x).mem = s.mem := by rfl

@[simp] theorem startDies_mem (cfg : ConfigBlock) (s : State) : (startDies cfg s).mem = s.mem :=
  mem_foldl _ (fun _ _ => releaseDie_mem _ _ _) _ _

@[simp] theorem wf_coldReset (cfg : ConfigBlock) (xs : List ImageFile) (absent : ℕ) (s : State) (h : Memory.wf s.mem = true) :
    Memory.wf (coldReset cfg xs absent s).mem = true := by
  simp [coldReset, apply_ite State.mem, h, wf_inReset]

@[simp] theorem wf_abortCks (s : State) (h : Memory.wf s.mem = true) : Memory.wf (abortCks s).mem = true := by
  unfold abortCks
  exact wf_foldl _ (fun _ _ h => by simp [h]) _ _ h

@[simp] theorem wf_warmReset (xs : List ImageFile) (s : State) (h : Memory.wf s.mem = true) : Memory.wf (warmReset xs s).mem = true := by
  have kept := wf_filter (fun e => decide (e.1 < tileBase 0)) _ (wf_dropOld _ (fun _ => true) (wf_abortCks s h))
  unfold warmReset
  dsimp only
  split
  · exact kept
  · rw [startDies_mem]
    exact kept

@[simp] theorem wf_resetCmd (s : State) (h : Memory.wf s.mem = true) : Memory.wf (resetCmd s).mem = true := by
  unfold resetCmd
  split <;> simp [h]

@[simp] theorem trip_mem (s : State) (k temp power : ℕ) : (trip s k temp power).mem = s.mem := by rfl

@[simp] theorem logCorrected_mem (stack : ℕ) (s : State) (e : ℕ × ℕ × ℕ) : (logCorrected stack s e).mem = s.mem := by
  unfold logCorrected
  split <;> rfl

end Sys2Proof.Machine
end

section
/-!
Choice of splits and the end of a cycle (Machine/Sched.lean).
-/
namespace Sys2Proof.Machine

@[simp] theorem endYields_mem (s : State) (core q : ℕ) : (endYields s core q).mem = s.mem := by
  simp [endYields, mem_foldl, apply_ite State.mem]

@[simp] theorem engage_mem (s : State) (w : ℕ) (e : ℕ × Split) : (engage s w e).mem = s.mem := by
  unfold engage
  split
  · split <;> simp
  · rfl

@[simp] theorem starveForce_mem (w k : ℕ) (s : State) : (starveForce w k s).mem = s.mem := by
  simp [starveForce, apply_ite State.mem]

@[simp] theorem starveSplit_mem (w : ℕ) (s : State) (k : ℕ) : (starveSplit w s k).mem = s.mem := by
  simp [starveSplit, apply_ite State.mem]

@[simp] theorem countStarve_mem (s : State) (core : ℕ) : (countStarve s core).mem = s.mem := by
  simp [countStarve, mem_foldl, apply_ite State.mem]

@[simp] theorem issueTurn_mem (s : State) (qk w t : ℕ) : (issueTurn s qk w t).mem = s.mem := by
  unfold issueTurn
  split
  · rfl
  · simp [mem_foldl]

@[simp] theorem warpChoice_mem (core q : ℕ) (s : State) : (warpChoice core q s).mem = s.mem := by
  unfold warpChoice
  dsimp only
  repeat' split
  all_goals simp

@[simp] theorem retryWord_mem (s : State) (w k : ℕ) : (retryWord s w k).mem = s.mem := by rfl

theorem wf_wakeOf {s s0 : State} {w k : ℕ} {g : State → State} (h : Memory.wf s.mem = true) (hg : wakeOf s0 w k = some g) :
    Memory.wf (g s).mem = true := by
  have again : ∀ {g}, some (fun s => retryWord s w k) = some g → Memory.wf (g s).mem = true := by
    rintro g ⟨⟩
    simpa using h
  have advanced : ∀ {g}, some (wakeAdvance w k) = some g → Memory.wf (g s).mem = true := by
    rintro g ⟨⟩
    simpa using h
  unfold wakeOf at hg
  extract_lets sp m retry at hg
  split at hg
  · cases hg
  · split at hg
    · split at hg
      · exact again hg
      · cases hg
    · split at hg
      · exact again hg
      · cases hg
    · split at hg
      · exact advanced hg
      · cases hg
    · cases hg
    · split at hg
      · exact advanced hg
      · cases hg
    · cases hg
    · cases hg
    · split at hg
      · exact again hg
      · cases hg
    · split at hg
      · exact again hg
      · cases hg
    · split at hg
      · exact again hg
      · cases hg
    · split at hg
      · cases hg; simp [h]
      · cases hg
    · split at hg
      · cases hg
      · cases hg
        rw [wakeAdvance_mem]
        exact wf_ite (by simpa using h) h
    · cases hg
    · cases hg
    · cases hg; simp [h]
    · cases hg
    · cases hg
    · split at hg
      · cases hg
      · cases hg; simpa using h
    · split at hg
      · cases hg
      · exact again hg
    · split at hg
      · cases hg
      · split at hg
        · cases hg; simp [h]
        · exact again hg
    · cases hg
    · split at hg
      · cases hg; simp [h]
      · cases hg
    · split at hg
      · cases hg
      · exact advanced hg
    · split at hg
      · cases hg; simp [h]
      · cases hg

@[simp] theorem mergeWarp_mem (w n : ℕ) (s : State) : (mergeWarp w n s).mem = s.mem := by
  induction n generalizing s with
  | zero => rfl
  | succ n ih =>
    unfold mergeWarp
    split
    · rfl
    · simp [ih]

@[simp] theorem countHolds_mem (w d : ℕ) (s : State) : (countHolds w d s).mem = s.mem := by
  simp [countHolds, mem_foldl, apply_ite State.mem]

@[simp] theorem countIdle_mem (w d : ℕ) (s : State) : (countIdle w d s).mem = s.mem := by
  simp [countIdle, apply_ite State.mem]

@[simp] theorem endCycle_mem (s : State) (core t : ℕ) : (endCycle s core t).mem = s.mem := by
  simp [endCycle, mem_foldl]

@[simp] theorem passTime_mem (s : State) : (passTime s).mem = s.mem := by
  unfold passTime
  split <;> simp

@[simp] theorem denyGranule_mem (s : State) (die space gran : ℕ) : (denyGranule s die space gran).mem = s.mem := by rfl

end Sys2Proof.Machine
end

section
/-!
The watchdog (Machine/Watch.lean).
-/
namespace Sys2Proof.Machine

@[simp] theorem unarrive_mem (s : State) (w : ℕ) (m : Mask) (k : ℕ) : (unarrive s w m k).mem = s.mem := by
  simp [unarrive]

@[simp] theorem abandonWait_mem (s : State) (w k : ℕ) : (abandonWait s w k).mem = s.mem := by
  unfold abandonWait
  dsimp only
  split
  · simp
  · simp [apply_ite State.mem]
  · simp [apply_ite State.mem]
  · split
    · rw [mem_foldl _ (fun _ _ => setBlock_mem _ _ _)]
      simp
    · simp
  · simp

end Sys2Proof.Machine
end

section
/-!
The passing of time (Machine/Pick.lean).
-/
namespace Sys2Proof.Machine

/-- The state that a fetch in a clause leaves, whether or not it gives a word. -/
theorem wf_nextWord_word {s t : State} {cu : Cur} {w : Word} (h : Memory.wf s.mem = true) (ht : nextWord s cu = .word w t) :
    Memory.wf t.mem = true := by
  unfold nextWord at ht
  dsimp only at ht
  split at ht
  · cases ht
  · split at ht
    · next hf => cases ht; exact wf_fetch_word h hf
    · cases ht
    · split at ht <;> cases ht
    · cases ht

theorem wf_nextWord_done {s t : State} {cu : Cur} (h : Memory.wf s.mem = true) (ht : nextWord s cu = .done t) : Memory.wf t.mem = true := by
  unfold nextWord at ht
  dsimp only at ht
  split at ht
  · cases ht; exact h
  · split at ht
    · cases ht
    · cases ht; simpa using h
    · next hf =>
      split at ht
      · cases ht; exact h
      · cases ht; simpa using wf_fetch_trap h hf
    · cases ht; simpa using h

@[simp] theorem takeSecond_mem (s : State) (cu : Cur) : (takeSecond s cu).mem = s.mem := by rfl

end Sys2Proof.Machine
end

section
/-!
An outcome keeps the form when its next state has it. One rule for each way that a word is issued.
-/
namespace Sys2Proof.Machine

/-- An outcome whose next state, where it has one, keeps memory's canonical form. -/
def Canon (o : Host.Outcome State Fault Refusal) : Prop := ∀ t, o = .next t → Memory.wf t.mem = true

theorem canon_next {t : State} (h : Memory.wf t.mem = true) : Canon (.next t) := by
  rintro _ ⟨⟩
  exact h

theorem canon_ite {p : Prop} [Decidable p] {a b : Host.Outcome State Fault Refusal} (ha : Canon a) (hb : Canon b) :
    Canon (if p then a else b) := by
  split
  · exact ha
  · exact hb

/-- A word that waits at its issue leaves memory alone. -/
theorem canon_holdUntil {s : State} (t : ℕ) (cu : Cur) (h : Memory.wf s.mem = true) : Canon (.next (holdUntil t s cu)) :=
  canon_next (by simpa using h)

/-- The rule for a word: its issue keeps the form when its body does. -/
theorem canon_issue {spec : OpSpec} {f : Fields} {s : State} {body : Ctx → State → State} (h : Memory.wf s.mem = true)
    (hb : ∀ c s, Memory.wf s.mem = true → Memory.wf (body c s).mem = true) : Canon (issue spec f s body) := by
  unfold issue
  split
  · exact canon_next h
  · dsimp only
    split
    · exact canon_holdUntil _ _ h
    · split
      · refine canon_next (wf_pathRule _ _ _ h (wf_ite (by simpa using h) ?_))
        rw [keepReplay_mem]
        exact hb _ _ (by simpa using h)
      · exact canon_next (wf_pathRule _ _ _ h (by simpa using h))
      · exact canon_next (by simpa using h)

/-- The rule for a word whose body does not touch memory. -/
theorem canon_issue_of_mem {spec : OpSpec} {f : Fields} {s : State} {body : Ctx → State → State} (h : Memory.wf s.mem = true)
    (hb : ∀ c s, (body c s).mem = s.mem) : Canon (issue spec f s body) :=
  canon_issue h (fun c s hs => (hb c s).symm ▸ hs)

theorem canon_issueUnless {spec : OpSpec} {held : Ctx → State → Bool} {f : Fields} {s : State} {body : Ctx → State → State}
    (h : Memory.wf s.mem = true) (hb : ∀ c s, Memory.wf s.mem = true → Memory.wf (body c s).mem = true) :
    Canon (issueUnless spec held f s body) := by
  unfold issueUnless
  split
  · exact canon_next h
  · exact canon_ite (canon_holdUntil _ _ h) (canon_issue h hb)

theorem canon_sfuIssueWord {spec : OpSpec} {n : ℕ} {f : Fields} {s : State} {body : Ctx → State → State}
    (h : Memory.wf s.mem = true) (hb : ∀ c s, Memory.wf s.mem = true → Memory.wf (body c s).mem = true) :
    Canon (sfuIssueWord spec n f s body) := by
  unfold sfuIssueWord
  split
  · exact canon_next h
  · exact canon_ite (canon_holdUntil _ _ h) (canon_issue h hb)

theorem canon_tdIssue {slots : ℕ → List ℕ} {spec : OpSpec} {f : Fields} {s : State} {body : Ctx → State → State}
    (h : Memory.wf s.mem = true) (hb : ∀ c s, Memory.wf s.mem = true → Memory.wf (body c s).mem = true) :
    Canon (tdIssue slots spec f s body) := by
  unfold tdIssue
  split
  · exact canon_next h
  · exact canon_ite (canon_holdUntil _ _ h) (canon_issue h hb)

theorem canon_fabricExec {spec : OpSpec} {f : Fields} {s : State} {body : Ctx → State → State} (h : Memory.wf s.mem = true)
    (hb : ∀ c s, Memory.wf s.mem = true → Memory.wf (body c s).mem = true) : Canon (fabricExec spec f s body) := by
  unfold fabricExec
  split
  · exact canon_next h
  · exact canon_ite (canon_holdUntil _ _ h) (canon_issue h hb)

theorem canon_opcodeTrap (spec : OpSpec) (cause sub : ℕ) (f : Fields) {s : State} (h : Memory.wf s.mem = true) :
    Canon (opcodeTrap spec cause sub f s) := by
  unfold opcodeTrap
  split
  · exact canon_next h
  · exact canon_next (wf_pathRule _ _ _ h (by simpa using h))

theorem canon_laneExec (spec : OpSpec) (lat : ℕ) (g : Ctx → State → TWord → TWord → TWord → TWord → LaneRes) (f : Fields) {s : State}
    (h : Memory.wf s.mem = true) : Canon (laneExec spec lat g f s) :=
  canon_issue h (wf_laneBody _ _ _)

theorem canon_divExec (spec : OpSpec) (rem : Bool) (f : Fields) {s : State} (h : Memory.wf s.mem = true) : Canon (divExec spec rem f s) := by
  unfold divExec
  split
  · exact canon_next h
  · exact canon_ite (canon_holdUntil _ _ h) (canon_issue h (fun _ _ hs => wf_laneBody _ _ _ _ _ (by simpa using hs)))

theorem canon_crossExec (spec : OpSpec) (lat : ℕ) (g : Ctx → State → ℕ → LaneRes) (f : Fields) {s : State} (h : Memory.wf s.mem = true) :
    Canon (crossExec spec lat g f s) :=
  canon_issue h (wf_crossBody _ _ _)

theorem canon_treeExec (spec : OpSpec) (node : Ctx → ℕ → ℕ) (f : Fields) {s : State} (h : Memory.wf s.mem = true) :
    Canon (treeExec spec node f s) := by
  unfold treeExec
  split
  · exact canon_next h
  · exact canon_ite (canon_holdUntil _ _ h) (canon_issue h (wf_redBody _ _))

theorem canon_tagBranch (spec : OpSpec) (p : Ctx → Mask → Mask) (clear : Fields → Option ℕ) (f : Fields) {s : State}
    (h : Memory.wf s.mem = true) : Canon (tagBranch spec p clear f s) := by
  refine canon_issue h (fun c s hs => ?_)
  split
  · simpa using hs
  · simpa using hs

theorem canon_copyExec (kind : ℕ) (spec : OpSpec) (f : Fields) {s : State} (h : Memory.wf s.mem = true) : Canon (copyExec kind spec f s) := by
  unfold copyExec
  split
  · exact canon_next h
  · exact canon_ite (canon_holdUntil _ _ h) (canon_tdIssue h (wf_copyBody _))

theorem canon_mxExec (kind : ℕ) (spec : OpSpec) (f : Fields) {s : State} (h : Memory.wf s.mem = true) : Canon (mxExec kind spec f s) := by
  unfold mxExec
  split
  · exact canon_next h
  · exact canon_ite (canon_holdUntil _ _ h) (canon_issue h (wf_mxBody _))

/-- The rule for a management command. -/
theorem canon_runCmd {code : ℕ} {go : State → State} {s : State} (h : Memory.wf s.mem = true) (hg : Memory.wf (go s).mem = true) :
    Canon (runCmd code go s) :=
  canon_ite (canon_next hg) (canon_next h)

end Sys2Proof.Machine
end

section
/-!
The events of the machine, and the few words that wait in a way of their own.
-/
namespace Sys2Proof.Machine

theorem canon_execBnc (f : Fields) (s : State) (h : Memory.wf s.mem = true) : Canon (execBnc f s) := by
  unfold execBnc
  split
  · exact canon_next h
  · exact canon_ite (canon_holdUntil _ _ h) (canon_issue h wf_bncBody)

theorem canon_execPrf (f : Fields) (s : State) (h : Memory.wf s.mem = true) : Canon (execPrf f s) := by
  exact canon_issue_of_mem h (fun c s => by rw [advance_mem, popAll_mem])

theorem canon_execTdset (f : Fields) (s : State) (h : Memory.wf s.mem = true) : Canon (execTdset f s) := by
  unfold execTdset
  split
  · exact canon_next h
  · exact canon_ite (canon_holdUntil _ _ h) (canon_tdIssue h (fun _ _ hs => by simpa using hs))

theorem canon_execClauseStart (w k : ℕ) (s : State) (h : Memory.wf s.mem = true) : Canon (execClauseStart w k s) := by
  refine canon_ite (canon_next h) ?_
  dsimp only
  split
  · exact canon_next (by simpa using h)
  · exact canon_next (by simpa using h)
  · next hf => exact canon_next (by simpa using wf_fetch_trap h hf)
  · next hf =>
    split
    · exact canon_next (by simpa using wf_fetch_word h hf)
    · exact canon_next (by simpa using wf_fetch_word h hf)

theorem canon_execReconvergenceHoldLimit (w k : ℕ) (s : State) (h : Memory.wf s.mem = true) : Canon (execReconvergenceHoldLimit w k s) := by
  exact canon_ite (canon_next (by simpa using h)) (canon_next h)

theorem canon_execSuspendedSplitWake (w k : ℕ) (s : State) (h : Memory.wf s.mem = true) : Canon (execSuspendedSplitWake w k s) := by
  unfold execSuspendedSplitWake
  split
  · next hg => exact canon_ite (canon_next (wf_wakeOf h hg)) (canon_next h)
  · exact canon_next h

theorem canon_execLoadComplete (id : ℕ) (lanes : Mask) (s : State) (h : Memory.wf s.mem = true) : Canon (execLoadComplete id lanes s) := by
  unfold execLoadComplete
  split
  · exact canon_ite (canon_next (wf_performOp _ _ _ h)) (canon_next h)
  · exact canon_next h

theorem canon_execStorePerformed (id : ℕ) (lanes : Mask) (s : State) (h : Memory.wf s.mem = true) : Canon (execStorePerformed id lanes s) := by
  unfold execStorePerformed
  split
  · exact canon_ite (canon_next (wf_performOp _ _ _ h)) (canon_next h)
  · exact canon_next h

theorem canon_execBncComplete (id : ℕ) (s : State) (h : Memory.wf s.mem = true) : Canon (execBncComplete id s) := by
  unfold execBncComplete
  split
  · split
    · refine canon_next (wf_finishOp _ _ _ ?_)
      split
      · exact h
      · exact h
    · exact canon_next h
  · exact canon_next h

theorem canon_execTdsetComplete (id : ℕ) (s : State) (h : Memory.wf s.mem = true) : Canon (execTdsetComplete id s) := by
  unfold execTdsetComplete
  split
  · split
    · exact canon_next (by simpa using h)
    · exact canon_next h
  · exact canon_next h

theorem canon_execLoadStreamFetch (w lane q : ℕ) (s : State) (h : Memory.wf s.mem = true) : Canon (execLoadStreamFetch w lane q s) := by
  refine canon_ite (canon_next h) ?_
  dsimp only
  split
  · exact canon_next (by simpa using h)
  · exact canon_next h
  · exact canon_next (by simpa using h)
  · exact canon_next (by simpa using h)
  · exact canon_next (by simpa using h)
  · refine canon_ite (canon_next h) (canon_next ?_)
    rw [setQueue_mem]
    exact wf_readAcc _ _ _ _ _ (wf_touchAll _ _ _ _ h)

theorem canon_execCopyOnWrite (vdb : ℕ) (s : State) (h : Memory.wf s.mem = true) : Canon (execCopyOnWrite vdb s) := by
  unfold execCopyOnWrite
  refine canon_ite ?_ (canon_next h)
  split
  · next h1 => exact canon_next (wf_allocFrame h h1)
  · exact canon_next h

theorem canon_execVersionFull (w k : ℕ) (s : State) (h : Memory.wf s.mem = true) : Canon (execVersionFull w k s) := by
  unfold execVersionFull
  dsimp only
  split
  · exact canon_next h
  · split
    · exact canon_next h
    · refine canon_ite (canon_next h) ?_
      split
      · exact canon_next (by simpa using h)
      · split
        · next hf => exact canon_next (by simpa using wf_fetch_word h hf)
        · exact canon_next (by simpa using h)

theorem canon_execVpubService (id : ℕ) (s : State) (h : Memory.wf s.mem = true) : Canon (execVpubService id s) := by
  have published : ∀ w r ls, Memory.wf ((publishAll s w r ls).getD s).mem = true := by
    intro w r ls
    cases ht : publishAll s w r ls with
    | none => exact h
    | some t => exact wf_publishAll h ht
  unfold execVpubService
  split
  · split
    · refine canon_ite (canon_next h) ?_
      split
      · exact canon_next (wf_finishOp _ _ _ h)
      · exact canon_next (wf_finishOp _ _ _ (published _ _ _))
    · exact canon_next h
  · exact canon_next h

/-- The marks of the pages of a written checkpoint's half are cleared. -/
theorem wf_foldl_clearMarks (s : State) (r half : ℕ) (xs : List ℕ) (h : Memory.wf s.mem = true) :
    Memory.wf (xs.foldl (fun s j => if rdMem s (cmapAt s r j half) 32 = 0 then s else wrMem s (cmapAt s r j half) 32 0) s).mem = true := by
  obtain ⟨m, hm⟩ : ∃ m : State → ℕ → ℕ, ∀ s j, rdMem s (cmapAt s r j half) 32 = m s j := ⟨_, fun _ _ => rfl⟩
  simp only [hm]
  exact wf_foldl _ (fun s j h => wf_ite (p := _ = 0) h (wf_wrMem _ _ _ _ h)) _ _ h

theorem canon_execCheckpointManifestWrite (r : ℕ) (s : State) (h : Memory.wf s.mem = true) : Canon (execCheckpointManifestWrite r s) := by
  unfold execCheckpointManifestWrite
  extract_lets x
  split
  · exact canon_next h
  · refine canon_ite (canon_next (wf_ckFail _ _ _ h)) (canon_ite (canon_next (wf_ckFail _ _ _ (by simpa using h))) ?_)
    refine canon_next ?_
    rw [setCk_mem]
    refine wf_foldl_clearMarks _ _ _ _ (wf_ite (wf_dropPin _ _ _ ?_) ?_)
    all_goals
      refine wf_putCkStatus _ _ _ (wf_putCkBusy _ _ _ (wf_putLastck _ _ _ (wf_putBytes _ _ _ ?_)))
      exact wf_foldl _ (fun _ _ h => wf_putBytes _ _ _ h) _ _ h

theorem canon_execCopyComplete (id : ℕ) (s : State) (h : Memory.wf s.mem = true) : Canon (execCopyComplete id s) := by
  unfold execCopyComplete
  split
  · split
    · exact canon_next (wf_ite (by simp [h]) h)
    · exact canon_next h
  · exact canon_next h

theorem canon_execMulticastDelivery (id rank : ℕ) (s : State) (h : Memory.wf s.mem = true) : Canon (execMulticastDelivery id rank s) := by
  unfold execMulticastDelivery
  split
  · split
    · exact canon_ite (canon_next h) (canon_next (by simp [h]))
    · exact canon_next h
  · exact canon_next h

theorem canon_execMatrixOpStart (id : ℕ) (s : State) (h : Memory.wf s.mem = true) : Canon (execMatrixOpStart id s) := by
  unfold execMatrixOpStart
  split
  · split
    · exact canon_ite (canon_next (by simpa using h)) (canon_next h)
    · exact canon_next h
  · exact canon_next h

theorem canon_execMatrixOpComplete (id err : ℕ) (s : State) (h : Memory.wf s.mem = true) : Canon (execMatrixOpComplete id err s) := by
  unfold execMatrixOpComplete
  split
  · split
    · refine canon_ite (canon_next h) ?_
      split
      · exact canon_next (by simpa using h)
      · exact canon_ite (canon_next (by simp [h])) (canon_next (by simp [h]))
    · exact canon_next h
  · exact canon_next h

theorem canon_execRayQueryDone (w lane : ℕ) (s : State) (h : Memory.wf s.mem = true) : Canon (execRayQueryDone w lane s) := by
  unfold execRayQueryDone
  split
  · exact canon_next h
  · split
    · exact canon_next h
    · exact canon_next (by simpa using h)
    · next h1 =>
      have hs1 := wf_laneStep h h1
      exact canon_next (wf_ite (by simpa using hs1) (by simpa using hs1))

theorem canon_execNapExpiry (w k : ℕ) (s : State) (h : Memory.wf s.mem = true) : Canon (execNapExpiry w k s) := by
  unfold execNapExpiry
  split
  · exact canon_ite (canon_next (by simpa using h)) (canon_next h)
  · exact canon_next h

theorem canon_execGrowGrant (core : ℕ) (s : State) (h : Memory.wf s.mem = true) : Canon (execGrowGrant core s) := by
  refine canon_next (wf_foldl _ (fun s r hs => wf_ite (by simpa using hs) hs) _ _ h)

theorem canon_execBlockComplete (blk : ℕ) (s : State) (h : Memory.wf s.mem = true) : Canon (execBlockComplete blk s) := by
  refine canon_ite (canon_next h) ?_
  split
  · next h1 => exact canon_next (wf_endBlock h h1)
  · exact canon_next (by simpa using h)

theorem canon_execNodeMatch (die : ℕ) (s : State) (h : Memory.wf s.mem = true) : Canon (execNodeMatch die s) := by
  cases ht : nodeMatch die s with
  | none => exact canon_next (by simpa [ht] using h)
  | some t => exact canon_next (by simpa [ht] using wf_nodeMatch h ht)

theorem canon_execBlockDispatch (die : ℕ) (s : State) (h : Memory.wf s.mem = true) : Canon (execBlockDispatch die s) := by
  cases ht : blockDispatch die s with
  | none => exact canon_next (by simpa [ht] using h)
  | some t => exact canon_next (by simpa [ht] using wf_blockDispatch h ht)

theorem canon_execNodeRetire (die node : ℕ) (s : State) (h : Memory.wf s.mem = true) : Canon (execNodeRetire die node s) := by
  unfold execNodeRetire
  split
  · exact canon_next h
  · refine canon_ite (canon_next h) ?_
    split
    · next h1 => exact canon_next (wf_retireNode h h1)
    · exact canon_next (by simpa using h)

theorem canon_execMbsendDelivery (id : ℕ) (s : State) (h : Memory.wf s.mem = true) : Canon (execMbsendDelivery id s) := by
  unfold execMbsendDelivery
  split
  · split
    · exact canon_ite (canon_next h) (canon_next (by simp [h]))
    · exact canon_next h
  · exact canon_next h

theorem canon_execMbrecvReceive (die : ℕ) (s : State) (h : Memory.wf s.mem = true) : Canon (execMbrecvReceive die s) := by
  refine canon_ite (canon_next h) ?_
  split
  · exact canon_next h
  · refine canon_ite (canon_next (by simp [h])) ?_
    split
    · exact canon_next h
    · split
      · exact canon_next (by simp [h])
      · exact canon_next h

theorem canon_execCollectiveComplete (id : ℕ) (others : List Contrib) (s : State) (h : Memory.wf s.mem = true) : Canon (execCollectiveComplete id others s) := by
  unfold execCollectiveComplete
  split
  · split
    · exact canon_ite (canon_next h) (canon_ite (canon_next (by simp [h])) (canon_next (by simp [h])))
    · exact canon_next h
  · exact canon_next h

theorem canon_execWatchdog (w : ℕ) (s : State) (h : Memory.wf s.mem = true) : Canon (execWatchdog w s) := by
  refine canon_ite (canon_next h) ?_
  split
  · exact canon_next h
  · exact canon_next (by simpa using h)

theorem canon_execForwardedTraffic (b : ℕ) (s : State) (h : Memory.wf s.mem = true) : Canon (execForwardedTraffic b s) := by
  exact canon_ite (canon_next h) (canon_next (wf_foldl _ (fun _ _ hs => wf_applyFwd _ _ _ hs) _ _ h))

theorem canon_execVersionHomeService (id : ℕ) (s : State) (h : Memory.wf s.mem = true) : Canon (execVersionHomeService id s) := by
  unfold execVersionHomeService
  split
  · split
    · refine canon_ite (canon_next h) ?_
      split
      · exact canon_next (wf_finishOp _ _ _ (wf_vopenAt _ _ _ h))
      · refine canon_next ?_
        rw [endOp_mem]
        exact wf_dropPin _ _ _ h
      · exact canon_next (wf_finishOp _ _ _ h)
      · dsimp only
        split
        · exact canon_next (wf_finishOp _ _ _ h)
        · exact canon_next (wf_finishOp _ _ _ (wf_ckAccept _ _ _ _ h))
      · exact canon_next h
    · exact canon_next h
  · exact canon_next h

theorem canon_execRecordPoolArrival (id : ℕ) (s : State) (h : Memory.wf s.mem = true) : Canon (execRecordPoolArrival id s) := by
  unfold execRecordPoolArrival
  split
  · split
    · refine canon_ite (canon_next h) (canon_ite (canon_next (by simpa using h)) ?_)
      split
      · exact canon_next (by simpa using h)
      · split
        · exact canon_next (by simp [h])
        · exact canon_next (by simpa using h)
        · split
          · exact canon_next (by simpa using h)
          · exact canon_next (by simpa using h)
    · exact canon_next h
  · exact canon_next h

theorem canon_execExOperationComplete (id : ℕ) (s : State) (h : Memory.wf s.mem = true) : Canon (execExOperationComplete id s) := by
  unfold execExOperationComplete
  split
  · exact canon_next (wf_exComplete _ _ h)
  · exact canon_next h

theorem canon_execPageRequestPost (s : State) (h : Memory.wf s.mem = true) : Canon (execPageRequestPost s) := by
  unfold execPageRequestPost
  split
  · exact canon_next h
  · exact canon_ite (canon_next h) (canon_next (by simpa using h))

theorem canon_execPageRequestGroupResponse (die pasid va : ℕ) (ok : Bool) (s : State) (h : Memory.wf s.mem = true) : Canon (execPageRequestGroupResponse die pasid va ok s) := by
  exact canon_ite (canon_next h) (canon_next (wf_ite h (by simpa using h)))

theorem canon_execCheckpointPeriodElapsed (r : ℕ) (s : State) (h : Memory.wf s.mem = true) : Canon (execCheckpointPeriodElapsed r s) := by
  exact canon_ite (canon_next (by simpa using h)) (canon_next h)

theorem canon_execGrowFail (s : State) (h : Memory.wf s.mem = true) : Canon (execGrowFail s) := by
  unfold execGrowFail
  split
  · exact canon_next h
  · exact canon_next (wf_foldl _ (fun _ _ hs => wf_ite (by simpa using hs) hs) _ _ h)

theorem canon_execGraphReservation (s : State) (h : Memory.wf s.mem = true) : Canon (execGraphReservation s) := by
  unfold execGraphReservation
  split
  · exact canon_next (by simpa using h)
  · exact canon_next h

theorem canon_execPriorityPreempt (s : State) (h : Memory.wf s.mem = true) : Canon (execPriorityPreempt s) := by
  cases ht : priorityPreempt s with
  | none => exact canon_next (by simpa [ht] using h)
  | some t => exact canon_next (by simpa [ht] using wf_priorityPreempt h ht)

theorem canon_execBatchTimeout (s : State) (h : Memory.wf s.mem = true) : Canon (execBatchTimeout s) := by
  unfold execBatchTimeout
  split
  · exact canon_next h
  · exact canon_next (by simpa using h)

theorem canon_execRallocGrant (s : State) (h : Memory.wf s.mem = true) : Canon (execRallocGrant s) := by
  unfold execRallocGrant
  split
  · exact canon_next h
  · exact canon_next (by simpa using h)

theorem canon_execReplayCheck (quarter n : ℕ) (mismatch : Bool) (s : State) (h : Memory.wf s.mem = true) : Canon (execReplayCheck quarter n mismatch s) := by
  unfold execReplayCheck
  split
  · exact canon_next h
  · exact canon_ite (canon_next (by simpa using h)) (canon_next h)

theorem canon_execHostPacketEntry (s : State) (h : Memory.wf s.mem = true) : Canon (execHostPacketEntry s) := by
  unfold execHostPacketEntry
  split
  · exact canon_next h
  · exact canon_next (by simpa using h)

theorem canon_execHostCxlMemAccess (write : Bool) (pa len value : ℕ) (s : State) (h : Memory.wf s.mem = true) : Canon (execHostCxlMemAccess write pa len value s) := by
  exact canon_ite (canon_next (wf_ite (by simpa using h) h)) (canon_ite (canon_next h) (canon_next (by simp [h])))

theorem canon_execBisnp (region off : ℕ) (write : Bool) (value : ℕ) (s : State) (h : Memory.wf s.mem = true) : Canon (execBisnp region off write value s) := by
  refine canon_ite (canon_next h) ?_
  exact canon_ite (canon_next (by simp [h])) (canon_next (by simp [h]))

theorem canon_execPoolLossEvent (device cause : ℕ) (s : State) (h : Memory.wf s.mem = true) : Canon (execPoolLossEvent device cause s) := by
  refine canon_ite (canon_next (wf_loseRegions _ _ _ (wf_ite (by simpa using h) h))) ?_
  exact canon_ite (canon_next (wf_loseRegions _ _ _ h)) (canon_next h)

theorem canon_execRegionConfigure (s : State) (h : Memory.wf s.mem = true) : Canon (execRegionConfigure s) := by
  unfold execRegionConfigure
  split
  · exact canon_next h
  · exact canon_ite (canon_next (by simpa using h)) (canon_next (by simpa using h))

theorem canon_execRegionReactivate (s : State) (h : Memory.wf s.mem = true) : Canon (execRegionReactivate s) := by
  unfold execRegionReactivate
  split
  · exact canon_next h
  · exact canon_ite (canon_next (by simpa using h)) (canon_next (by simpa using h))

theorem canon_execRegionDeconfigure (s : State) (h : Memory.wf s.mem = true) : Canon (execRegionDeconfigure s) := by
  unfold execRegionDeconfigure
  split
  · exact canon_next h
  · exact canon_ite (canon_next (by simp [h])) (canon_next (by simpa using h))

theorem canon_execPeerAccessArrival (out : Bool) (src kind op : ℕ) (ty : BitVec 4) (pa len value cmp : ℕ) (allowed : Bool) (s : State) (h : Memory.wf s.mem = true) : Canon (execPeerAccessArrival out src kind op ty pa len value cmp allowed s) := by
  have there : Memory.wf (if len = 0 then s else wrMem s (peerBase kind + pa) len value).mem = true := wf_ite h (wf_wrMem _ _ _ _ h)
  refine canon_ite ?_ (canon_ite (canon_next h) (canon_ite (canon_next (by simp [h])) (canon_next (wf_ite h (by simpa using h)))))
  refine canon_ite (canon_next h) (canon_ite (canon_next (by simp [h])) ?_)
  dsimp only
  split
  · exact canon_next (wf_ite there h)
  · refine canon_ite (canon_next h) (canon_ite (canon_next ?_) (canon_next (wf_performOp _ _ _ there)))
    split
    · exact there
    · exact h

theorem canon_execUalinkLinkLost (port : ℕ) (s : State) (h : Memory.wf s.mem = true) : Canon (execUalinkLinkLost port s) := by
  exact canon_next (wf_foldl _ (fun _ _ hs => wf_ite (wf_ckFail _ _ _ hs) hs) _ _ (by simpa using h))

theorem canon_execHaloBoxDelivery (out : Bool) (peer xid len data : ℕ) (s : State) (h : Memory.wf s.mem = true) : Canon (execHaloBoxDelivery out peer xid len data s) := by
  refine canon_ite ?_ (canon_ite (canon_next h) (canon_next (by simpa using h)))
  split
  · exact canon_next (by simp [h])
  · exact canon_next h

theorem canon_execHaloTimeout (out : Bool) (peer xid : ℕ) (s : State) (h : Memory.wf s.mem = true) : Canon (execHaloTimeout out peer xid s) := by
  refine canon_ite ?_ ?_
  · split
    · exact canon_next (by simpa using h)
    · exact canon_next h
  · split
    · exact canon_next h
    · exact canon_next h

theorem canon_execCollectiveTimeout (id : ℕ) (s : State) (h : Memory.wf s.mem = true) : Canon (execCollectiveTimeout id s) := by
  unfold execCollectiveTimeout
  split
  · split
    · exact canon_ite (canon_next h) (canon_next (by simpa using h))
    · exact canon_next h
  · exact canon_next h

theorem canon_execSuspectLineTimeout (pa : ℕ) (s : State) (h : Memory.wf s.mem = true) : Canon (execSuspectLineTimeout pa s) := by
  unfold execSuspectLineTimeout
  dsimp only
  split
  · exact canon_next h
  · exact canon_next (by rw [vesper_mem]; exact wf_ite h h)

theorem canon_execPowerPoll (power : ℕ) (temps : List ℕ) (s : State) (h : Memory.wf s.mem = true) : Canon (execPowerPoll power temps s) := by
  refine canon_ite (canon_next h) ?_
  dsimp only
  split
  · exact canon_next (by simpa using h)
  · exact canon_next h

theorem canon_execHbmRecalibration (stack temp : ℕ) (s : State) (h : Memory.wf s.mem = true) : Canon (execHbmRecalibration stack temp s) := by
  refine canon_ite (canon_next h) (canon_next ?_)
  dsimp only
  rw [mem_foldl _ (fun _ _ => logCorrected_mem _ _ _)]
  exact h

theorem canon_execCxlCacheSnoop (off : ℕ) (write : Bool) (value : ℕ) (s : State) (h : Memory.wf s.mem = true) : Canon (execCxlCacheSnoop off write value s) := by
  exact canon_ite (canon_next h) (canon_ite (canon_next (by simp [h])) (canon_next h))

end Sys2Proof.Machine
end

section
/-!
Every instruction, and with it every step.
-/
namespace Sys2Proof.Machine

theorem canon_exec (i : Instr) {s : State} (h : Memory.wf s.mem = true) : Canon (exec i s) := by
  cases i with
  | nop _ => exact canon_issue_of_mem h advance_mem
  | mov _ | movk _ | add _ | sub _ | mul _ | mulhi _ | mad _ | min _ | max _ | abs _ | neg _ | and _ | or _ | xor _ | not _ | andn _
  | shl _ | shr _ | sar _ | rot _ | bfx _ | bfi _ | popc _ | clz _ | ctz _ | brev _ | bswap _ | lea _ | pdot _ | prm _ | cnd _
  | fcnd _ | cmp _ | fcmp _ | gate _ | mrg _ | sel _ | tget _ | tset _ | tchk _ | cand _ | cor _ | cnot _ | fadd _ | fsub _ | fmul _
  | fma _ | fms _ | fnma _ | fnms _ | fmin _ | fmax _ | fminx _ | fmaxx _ | fabs _ | fneg _ | fcps _ | fclass _ | frnd _ | fscale _
  | fexp _ | fman _ | hdot _ | cvt _ | cvtp _ => exact canon_laneExec _ _ _ _ h
  | div _ | rem _ => exact canon_divExec _ _ _ h
  | srd _ => exact canon_issueUnless h wf_srdBody
  | swr _ => exact canon_issueUnless h (fun _ _ hs => by simpa using hs)
  | fdiv _ | fsqrt _ | sfu _ => exact canon_sfuIssueWord h (wf_sfuBody _ _ _)
  | cvtmx _ => exact canon_sfuIssueWord h wf_cvtmxBody
  | bnset _ => exact canon_issue_of_mem h bnsetBody_mem
  | bnsetGet _ | bnperm _ | shfl _ | shfx _ | vote _ | bcast _ | matchv _ | elect _ | lrank _ => exact canon_crossExec _ _ _ _ h
  | bnc _ => exact canon_execBnc _ _ h
  | red _ | scan _ => exact canon_treeExec _ _ _ h
  | bra _ | bany _ | ball _ | bnone _ | lexit _ =>
      simp only [exec_bra, exec_bany, exec_ball, exec_bnone, exec_lexit, execBra, execBany, execBall, execBnone, execLexit]
      exact canon_tagBranch _ _ _ _ h
  | bdv _ => exact canon_issue_of_mem h bdvBody_mem
  | jmp _ => exact canon_issue_of_mem h jmpBody_mem
  | call _ => exact canon_issue h wf_callBody
  | loopSet _ => exact canon_issue_of_mem h loopSetBody_mem
  | loop _ => exact canon_issue_of_mem h loopBody_mem
  | wait _ => exact canon_issue_of_mem h waitBody_mem
  | yield _ => exact canon_issue_of_mem h yieldBody_mem
  | exit _ => exact canon_issue_of_mem h exitBody_mem
  | ecall _ | brk _ => exact canon_issue_of_mem h (codeTrap_mem _)
  | grow _ => exact canon_issue h wf_growBody
  | nap _ => exact canon_issue_of_mem h napBody_mem
  | ld _ | lda _ => exact canon_issue h (wf_ldBody _ _ _ _)
  | st _ | str _ | stmc _ => exact canon_issue h (wf_stBody _ _ _ _ _)
  | ldl _ | ldc _ => exact canon_issue h (wf_ldlBody _ _)
  | stl _ | stc _ => exact canon_issue h (wf_stlBody _ _)
  | ldq _ | stq _ => exact canon_issue h (wf_armBody _)
  | prf _ => exact canon_execPrf _ _ h
  | winv _ | wbk _ => exact canon_issue_of_mem h (maintBody_mem _)
  | fence _ => exact canon_issue h wf_fenceBody
  | chopen _ => exact canon_issue_of_mem h chopenBody_mem
  | chst _ => exact canon_issue h wf_chstBody
  | chfence _ | chclose _ => exact canon_issue_of_mem h (chfenceBody_mem _)
  | vopen _ => exact canon_issue h wf_vopenBody
  | ldv _ => exact canon_issue h wf_ldvBody
  | vpub _ => exact canon_issue h wf_vpubBody
  | vclose _ => exact canon_issue h wf_vcloseBody
  | vinfo _ => exact canon_issue h wf_vinfoBody
  | ckpt _ => exact canon_issue h wf_ckptBody
  | ckwait _ => exact canon_issue h wf_ckwaitBody
  | atom _ | fatom _ => exact canon_issue h (wf_atomBody _ _ _)
  | cas _ => exact canon_issue h wf_casBody
  | cas2 _ => exact canon_issue h wf_cas2Body
  | atoml _ => exact canon_issue h wf_atomlBody
  | fred _ => exact canon_issue h wf_fredBody
  | bar _ | cbar _ => exact canon_issue h (wf_barBody _)
  | barr _ => exact canon_issue h wf_barrBody
  | barw _ => exact canon_issue h wf_barwBody
  | mwait _ => exact canon_issue h wf_mwaitBody
  | aoinit _ => exact canon_issue h wf_aoinitBody
  | aoarr _ => exact canon_issue h wf_aoarrBody
  | aoexp _ => exact canon_issue h wf_aoexpBody
  | aowt _ => exact canon_issue h wf_aowtBody
  | tdset _ => exact canon_execTdset _ _ h
  | tdget _ =>
      rw [exec_tdget, execTdget]
      exact canon_tdIssue h wf_tdgetBody
  | tcpgl _ | tcplg _ | tcpgg _ | tcpmc _ | tcpred _ | tcpst _ | tcppf _ => exact canon_copyExec _ _ _ h
  | cbinit _ => exact canon_issue_of_mem h cbinitBody_mem
  | cbacq _ | cbres _ => exact canon_issue h (wf_cbTakeBody _)
  | cbrel _ | cbcom _ => exact canon_issue h (wf_cbPutBody _)
  | aczero _ | mmx _ | mmxl _ | acld _ | acst _ | acrd _ | acwr _ | acep _ | mxstat _ => exact canon_mxExec _ _ _ h
  | rtbind _ => exact canon_issue_of_mem h rtbindBody_mem
  | rtrace _ => exact canon_issue_of_mem h rtraceBody_mem
  | rtres _ => exact canon_issue_of_mem h rtresBody_mem
  | rtcand _ => exact canon_issue_of_mem h rtcandBody_mem
  | rtacc _ => exact canon_issue_of_mem h rtaccBody_mem
  | rtbox _ => exact canon_issue h wf_rtboxBody
  | rttri _ => exact canon_issue h wf_rttriBody
  | lhtinv _ => exact canon_issue_of_mem h lhtinvBody_mem
  | lhtstat _ => exact canon_issue h wf_lhtstatBody
  | mbrecv _ => exact canon_issue_of_mem h mbrecvBody_mem
  | mbsend _ => exact canon_issue h wf_mbsendBody
  | spawn _ => exact canon_issue h wf_spawnBody
  | rgn _ => exact canon_issue_of_mem h rgnBody_mem
  | ralloc _ => exact canon_issue_of_mem h rallocBody_mem
  | rsub _ | rfree _ => exact canon_issue h (wf_recordBody _)
  | rbatch _ => exact canon_issue h wf_rbatchBody
  | rfetch _ => exact canon_issue h wf_rfetchBody
  | lvcoord _ => exact canon_issue h wf_lvcoordBody
  | hx _ => exact canon_fabricExec h wf_hxBody
  | arx _ | agx _ | rsx _ => exact canon_fabricExec h (wf_collBody _)
  | plstat _ | plack _ => exact canon_issue h (wf_poolBody _)
  | tret _ => exact canon_issue h wf_tretBody
  | tfix _ => exact canon_issue_of_mem h tfixBody_mem
  | csrr _ => exact canon_issue_of_mem h csrrBody_mem
  | csrw _ => exact canon_issue h wf_csrwBody
  | pgmode _ => exact canon_issueUnless h wf_pgmodeBody
  | pgrep _ => exact canon_issueUnless h wf_pgrepBody
  | pgcol _ => exact canon_issueUnless h wf_pgcolBody
  | tlbinv _ => exact canon_issue h wf_tlbinvBody
  | preempt _ => exact canon_issue h wf_preemptBody
  | resume _ => exact canon_issue h wf_resumeBody
  | blkkill _ => exact canon_issue h wf_blkkillBody
  | vlog _ => exact canon_issue h wf_vlogBody
  | unassignedOpcode _ _ | extensionOpcode _ _ => exact canon_opcodeTrap _ _ _ _ h
  | clauseStart _ _ => exact canon_execClauseStart _ _ _ h
  | warpChoice _ _ | starveForce _ _ | sfuStart _ | prqdone _ _ | doorbell _ _ | vesperEntryCapture _ _ _ | pkgidWrite _
  | halotmoWrite _ | routeTableWrite _ _ | rsgo | linkUp _ => exact canon_next (by simpa using h)
  | reconvergenceHoldLimit _ _ => exact canon_execReconvergenceHoldLimit _ _ _ h
  | suspendedSplitWake _ _ => exact canon_execSuspendedSplitWake _ _ _ h
  | loadComplete _ _ => exact canon_execLoadComplete _ _ _ h
  | storePerformed _ _ => exact canon_execStorePerformed _ _ _ h
  | sfuComplete _ => exact canon_next (wf_completeSfu _ _ h)
  | bncComplete _ => exact canon_execBncComplete _ _ h
  | tdsetComplete _ => exact canon_execTdsetComplete _ _ h
  | loadStreamFetch _ _ _ => exact canon_execLoadStreamFetch _ _ _ _ h
  | copyOnWrite _ => exact canon_execCopyOnWrite _ _ h
  | versionFull _ _ => exact canon_execVersionFull _ _ _ h
  | vpubService _ => exact canon_execVpubService _ _ h
  | checkpointManifestWrite _ => exact canon_execCheckpointManifestWrite _ _ h
  | copyComplete _ => exact canon_execCopyComplete _ _ h
  | multicastDelivery _ _ => exact canon_execMulticastDelivery _ _ _ h
  | matrixOpStart _ => exact canon_execMatrixOpStart _ _ h
  | matrixOpComplete _ _ => exact canon_execMatrixOpComplete _ _ _ h
  | rayQueryDone _ _ => exact canon_execRayQueryDone _ _ _ h
  | monitorRecheck _ _ | mwaitLimit _ _ => exact canon_next (wf_monEvent _ _ _ _ h)
  | napExpiry _ _ => exact canon_execNapExpiry _ _ _ h
  | growGrant _ => exact canon_execGrowGrant _ _ h
  | blockComplete _ => exact canon_execBlockComplete _ _ h
  | nodeMatch _ => exact canon_execNodeMatch _ _ h
  | blockDispatch _ => exact canon_execBlockDispatch _ _ h
  | nodeRetire _ _ => exact canon_execNodeRetire _ _ _ h
  | mbsendDelivery _ => exact canon_execMbsendDelivery _ _ h
  | mbrecvReceive _ => exact canon_execMbrecvReceive _ _ h
  | collectiveComplete _ _ => exact canon_execCollectiveComplete _ _ _ h
  | watchdog _ => exact canon_execWatchdog _ _ h
  | forwardedTraffic _ => exact canon_execForwardedTraffic _ _ h
  | versionHomeService _ => exact canon_execVersionHomeService _ _ h
  | recordPoolArrival _ => exact canon_execRecordPoolArrival _ _ h
  | exOperationComplete _ => exact canon_execExOperationComplete _ _ h
  | pageRequestPost => exact canon_execPageRequestPost _ h
  | pageRequestGroupResponse _ _ _ _ => exact canon_execPageRequestGroupResponse _ _ _ _ _ h
  | checkpointPeriodElapsed _ => exact canon_execCheckpointPeriodElapsed _ _ h
  | growFail => exact canon_execGrowFail _ h
  | graphReservation => exact canon_execGraphReservation _ h
  | priorityPreempt => exact canon_execPriorityPreempt _ h
  | batchTimeout => exact canon_execBatchTimeout _ h
  | rallocGrant => exact canon_execRallocGrant _ h
  | replayCheck _ _ _ => exact canon_execReplayCheck _ _ _ _ h
  | hostPacketEntry => exact canon_execHostPacketEntry _ h
  | hostCxlMemAccess _ _ _ _ => exact canon_execHostCxlMemAccess _ _ _ _ _ h
  | bisnp _ _ _ _ => exact canon_execBisnp _ _ _ _ _ h
  | poolLossEvent _ _ => exact canon_execPoolLossEvent _ _ _ h
  | poolResponseTimeout _ => exact canon_next (wf_loseRegions _ _ _ h)
  | regionConfigure => exact canon_execRegionConfigure _ h
  | regionReactivate => exact canon_execRegionReactivate _ h
  | regionDeconfigure => exact canon_execRegionDeconfigure _ h
  | peerAccessArrival _ _ _ _ _ _ _ _ _ _ => exact canon_execPeerAccessArrival _ _ _ _ _ _ _ _ _ _ _ h
  | peerAccessTimeout _ _ => exact canon_next (wf_dropPeer _ _ _ _ _ _ _ h)
  | ualinkLinkLost _ => exact canon_execUalinkLinkLost _ _ h
  | haloBoxDelivery _ _ _ _ _ => exact canon_execHaloBoxDelivery _ _ _ _ _ _ h
  | haloTimeout _ _ _ => exact canon_execHaloTimeout _ _ _ _ h
  | collectiveTimeout _ => exact canon_execCollectiveTimeout _ _ h
  | harnessFlitLost _ _ => exact canon_ite (canon_next h) (canon_next h)
  | suspectLineTimeout _ => exact canon_execSuspectLineTimeout _ _ h
  | vlogWindowReset _ => exact canon_ite (canon_next (by simpa using h)) (canon_next h)
  | regionRestoreDone => exact canon_ite (canon_next (wf_restore _ h)) (canon_next h)
  | registerWrite _ _ => exact canon_next (wf_ite (by simpa using h) (by simpa using h))
  | readLog | readSavedLog | setPowerCap | status => exact canon_runCmd h (by simpa using h)
  | attest => exact canon_runCmd h (wf_attestCmd _ h)
  | reset => exact canon_runCmd h (wf_resetCmd _ h)
  | coldReset _ _ _ => exact canon_next (wf_coldReset _ _ _ _ h)
  | warmReset _ => exact canon_ite (canon_next (wf_warmReset _ _ h)) (canon_next h)
  | powerPoll _ _ => exact canon_execPowerPoll _ _ _ h
  | hbmRecalibration _ _ => exact canon_execHbmRecalibration _ _ _ h
  | cxlCacheSnoop _ _ _ => exact canon_execCxlCacheSnoop _ _ _ _ h

/-- Settles O59: each branch of a step is a word, an event or the passing of time, and each of them keeps the form. -/
theorem stepKeepsMemoryCanonical : Obligations.StepKeepsMemoryCanonical := by
  intro s t h ht
  unfold step at ht
  split at ht
  · cases ht
  · split at ht
    · refine canon_exec _ ?_ t ht
      exact h
    · split at ht
      · split at ht
        · next h1 => exact canon_exec _ (wf_nextWord_word h h1) t ht
        · next h1 => cases ht; exact wf_nextWord_done h h1
      · split at ht
        · cases ht; simpa using h
        · split at ht
          · exact canon_exec _ h t ht
          · cases ht; simpa using h

end Sys2Proof.Machine
end

section
/-!
R14, R352, R455 to R458, R467: the state after reset, read field by field; its stores list the four dispatchers and nothing else.
-/
namespace Sys2Proof.Machine

/-- R14, R352: the warps that reset leaves live are those of the four dispatchers. -/
theorem reset_warp_live (w : Nat) (h : (getWarp State.reset w).live = true) : w = 0 ∨ w = 32 ∨ w = 64 ∨ w = 96 := by
  have hw : getWarp State.reset w =
      sget Warp.none [(0, Warp.dispatcher), (32, Warp.dispatcher), (64, Warp.dispatcher), (96, Warp.dispatcher)] w := rfl
  by_contra hne
  have hnone : getWarp State.reset w = Warp.none := by
    rw [hw]
    simp only [sget, if_neg (show ¬w = 0 by omega), if_neg (show ¬w = 32 by omega), if_neg (show ¬w = 64 by omega),
      if_neg (show ¬w = 96 by omega), ite_self]
  rw [hnone] at h
  cases h

/-- R14, R92, R352: the dispatcher's block of a die, and its warp in slot 0 of quarter 0. -/
theorem reset_dispatcher : ∀ d < 4, getBlock State.reset d = Block.dispatcher d ∧ getWarp State.reset (32 * d) = Warp.dispatcher := by
  decide

/-- Settles O53: the stores that the statement reads at every key are empty at reset, and the four dispatchers are read one by one. -/
theorem resetValues : Obligations.ResetValues := by
  refine ⟨rfl, rfl, rfl, rfl, rfl, rfl, rfl, fun _ => rfl, fun _ _ => rfl, fun d hd => ?_, reset_warp_live, fun _ => rfl, wf_reset⟩
  obtain ⟨hb, hw⟩ := reset_dispatcher d hd
  rw [hb, hw]
  exact ⟨rfl, rfl, rfl, rfl, rfl, rfl, rfl, rfl, rfl, rfl⟩

end Sys2Proof.Machine
end

section
/-!
R27, R195: an access to a register group of a warp with more vector registers than R27 allows.
-/
namespace Sys2Proof.Machine
open Claims

/-- A placed ld.v2 into v191 and the code after it, which names s0. Nothing in the statement bounds the warp's vector registers by the 192
of R27, and with 193 the group passes its check; the address is N in lane 0 and X in lane 1. -/
def groupPastVectors : State :=
  let s := placeWord State.reset (specLd.op.toNat * 2 ^ 52)
  let s := setSplit (setWarp s 128 { getWarp s 128 with vregs := 193 }) 128 0 { getSplit s 128 0 with mask := 3 }
  wrReg s 128 1 [(0, ⟨.n, 0⟩), (1, ⟨.x, 0x1100000000001000⟩)]

/-- The word of that load: an i64 pair in v191, the address in v1. -/
def groupPastVectorsWord : Fields := mk 0 0xBF 1 0xE4 0xE4 3 4

/-- The split that issues it: entry 0 of the placed block's first warp. -/
def groupPastVectorsCur : Cur := { w := 128, k := 0 }

/-- The row of `ld`. -/
def ldRow (f : Fields) : AccRow := (loadRows f).head (List.cons_ne_nil _ _)

theorem ldRow_mem (f : Fields) : ldRow f ∈ loadRows f := List.head_mem _

/-- The lanes whose operands the load looks at, and how its checks decide each. -/
def groupPastVectorsLanes : List Nat :=
  accessLanes (ldRow groupPastVectorsWord) groupPastVectorsWord groupPastVectors groupPastVectorsCur
def groupPastVectorsHow (l : Nat) : LaneChk :=
  howLane (ldRow groupPastVectorsWord) groupPastVectorsWord groupPastVectors groupPastVectorsCur l

/-- The checks of the word pass, that of its destination group among them. -/
theorem groupPastVectors_issues : issues specLd groupPastVectorsWord groupPastVectors groupPastVectorsCur = true := by decide +kernel

/-- Its operands settle every lane, so that no lane has an access. -/
theorem groupPastVectors_settled :
    ∀ l ∈ groupPastVectorsLanes, laneDecided (groupPastVectorsHow l) = true ∧ laneAcc (groupPastVectorsHow l) = none := by
  decide +kernel

/-- The word that lane 1 is to take is the X payload of its address. -/
theorem groupPastVectors_word :
    1 ∈ groupPastVectorsLanes ∧ laneWord (groupPastVectorsHow 1) = some ⟨.x, 0x1100000000001000⟩ := by
  decide +kernel

/-- The pair's second register is s0, which has one word for all lanes and takes that of lane 0: N over its old data. -/
theorem groupPastVectors_s0 (t : State) (ht : exec (.ld groupPastVectorsWord) groupPastVectors = .next t) : rdReg t 128 0xC0 1 = ⟨.n, 0⟩ := by
  have h : (match exec (.ld groupPastVectorsWord) groupPastVectors with
      | .next t => decide (rdReg t 128 0xC0 1 = ⟨.n, 0⟩)
      | _ => false) = true := by decide +kernel
  rw [ht] at h
  exact of_decide_eq_true h

/-- A warp of 193 vector registers refutes what the statement says of settled lanes: in the second register of its pair, s0, lane 1 of the
load does not hold its X word. -/
theorem not_accessesBegin : ¬ Claims.AccessesBegin := by
  intro h
  obtain ⟨t, ht, -, -, -, hval, -⟩ := h groupPastVectorsWord (ldRow groupPastVectorsWord) groupPastVectors groupPastVectorsCur
    (List.mem_append_left _ (List.mem_append_left _ (ldRow_mem _))) groupPastVectors_issues (fun hq => absurd hq (by decide)) (by decide +kernel)
    (fun l hl => ⟨(groupPastVectors_settled l hl).1, fun x hx => by cases (groupPastVectors_settled l hl).2.symm.trans hx⟩)
    (fun hq => absurd hq (by decide))
  obtain ⟨hlane, hword⟩ := groupPastVectors_word
  have hx := hval 1 hlane _ hword 1 (by decide) (by decide)
  rw [if_neg (by decide)] at hx
  exact absurd (hx.symm.trans (groupPastVectors_s0 t ht)) (by decide)

/-- Refutes O20: its first part holds of no load whose register group passes the last vector register, which a state with more than the 192
registers of R27 lets issue. -/
theorem not_accessesStart : ¬ Obligations.AccessesStart := fun h => not_accessesBegin h.1

end Sys2Proof.Machine
end

section
/-!
R39, R56, R57: results settled at issue and results of an operation on EX, as the words of rtbox, rttri and lhtstat leave them.
-/
namespace Sys2Proof.Machine
open Claims

/-- A check of R60 that an issuing word passes for D, in surroundings with the word's own fields. -/
theorem dCheck_of_issues {spec : OpSpec} {f : Fields} {s : State} {cu : Cur} (h : issues spec f s cu = true) : ∃ e : Env, e.f = f ∧ spec.d e = none := by
  unfold issues at h
  simp only [Bool.and_eq_true, Option.isNone_iff_eq_none] at h
  obtain ⟨⟨⟨⟨⟨⟨⟨_, hcheck⟩, _⟩, _⟩, _⟩, _⟩, _⟩, _⟩ := h
  exact ⟨_, rfl, (Option.or_eq_none_iff.1 hcheck).1⟩

/-- The lanes of an issuing word are not none. -/
theorem activeLanes_ne_nil {spec : OpSpec} {f : Fields} {s : State} {cu : Cur} (h : issues spec f s cu = true) : activeLanes s cu ≠ [] := by
  intro hn
  refine mask_of_issues h (BitVec.eq_of_getLsbD_eq fun l hl => ?_)
  have hm : l ∉ activeLanes s cu := by rw [hn]; exact List.not_mem_nil
  rw [activeLanes, mem_lanesOf] at hm
  simpa [hl] using hm

/-- A word written to a lane of a register reads back, where a scalar register takes the same word of every lane (R75). -/
theorem rdReg_wrReg_mem (s : State) (w code : Nat) (ws : List (Nat × TWord)) (l : Nat) (v : TWord) (hc : code < 0xE0) (he : (l, v) ∈ ws)
    (hn : (ws.map (·.1)).Nodup) (hs : 0xC0 ≤ code → ∀ e ∈ ws, e.2 = v) : rdReg (wrReg s w code ws) w code l = v := by
  by_cases hv : code < 0xC0
  · exact rdReg_wrReg_vector _ _ _ _ _ _ hv he hn
  · cases ws with
    | nil => cases he
    | cons e r => rw [rdReg_wrReg_scalar _ _ _ _ _ _ (by omega) hc, hs (by omega) e List.mem_cons_self]

/-- A scalar register reads alike in every lane (R33). -/
theorem rdReg_scalar_lane (s : State) (w code l l' : Nat) (h1 : 0xC0 ≤ code) (h2 : code < 0xE0) : rdReg s w code l = rdReg s w code l' := by
  simp only [rdReg, if_neg (Nat.not_lt.2 h1), if_pos h2]

/-- Lanes nullified in a register: N over what a state held there (R35). -/
def nullWrites (s : State) (w code : Nat) (ls : List Nat) : List (Nat × TWord) := ls.map (fun l => (l, ⟨.n, (rdReg s w code l).data⟩))

theorem nullWrites_lanes (s : State) (w code : Nat) (ls : List Nat) : (nullWrites s w code ls).map (·.1) = ls := by
  simp [nullWrites, Function.comp_def]

/-- A nullified lane keeps its data under N. -/
theorem rdReg_wrReg_null (s u : State) (w code : Nat) (ls : List Nat) (l : Nat) (hc : code < 0xE0) (hl : l ∈ ls) (hn : ls.Nodup) :
    rdReg (wrReg u w code (nullWrites s w code ls)) w code l = ⟨.n, (rdReg s w code l).data⟩ := by
  refine rdReg_wrReg_mem _ _ _ _ _ _ hc (List.mem_map.2 ⟨l, hl, rfl⟩) (by rwa [nullWrites_lanes]) fun h1 e he => ?_
  obtain ⟨k, -, rfl⟩ := List.mem_map.1 he
  rw [rdReg_scalar_lane s w code k l h1 hc]

/-- Registers written depend on the registers before alone. -/
theorem rdReg_wrReg_congr {s u : State} (hv : u.vregs = s.vregs) (hs : u.sregs = s.sregs) (w code : Nat) (ws : List (Nat × TWord)) (w' r l : Nat) :
    rdReg (wrReg u w code ws) w' r l = rdReg (wrReg s w code ws) w' r l := by
  unfold wrReg
  split
  · simp only [rdReg, wrV, hv, hs]
  · split
    · cases ws with
      | nil => simp only [rdReg, hv, hs]
      | cons e r => simp only [rdReg, wrS, hv, hs]
    · simp only [rdReg, hv, hs]

/-- R449: a kept replay is no part of the split's progress. -/
theorem goes_keepReplay {spec : OpSpec} {c : Ctx} {s1 t s : State} {f : Fields} {cu : Cur} (h : Goes f s cu t) : Goes f s cu (keepReplay spec c s1 t) := by
  rw [keepReplay_eq]
  exact ⟨h.others, h.warp, h.split, h.rest⟩

/-- R449: a kept replay writes no register. -/
@[simp] theorem rdReg_keepReplay (spec : OpSpec) (c : Ctx) (s1 t : State) (w r l : Nat) : rdReg (keepReplay spec c s1 t) w r l = rdReg t w r l := by
  rw [keepReplay_eq]; rfl

/-- What a word on EX leaves whose results are fixed at issue: `settled` stands in D, one operation holds the words `live`, and the counts of
the hint table are as given. -/
structure ResultStarted (f : Fields) (settled live : List (Nat × TWord)) (cnt : List (Nat × Nat × Nat)) (s : State) (cu : Cur) (t : State) : Prop where
  goes : Goes f s cu t
  mem : t.mem = s.mem
  fsr : t.fsr = s.fsr
  lht : t.lht = s.lht
  counts : t.lhtCnt = cnt
  regs : ∀ w r l, rdReg t w r l = rdReg (wrReg s cu.w f.d.toNat settled) w r l
  idle : live = [] → t.ops.map Op.bare = s.ops.map Op.bare
  starts : live ≠ [] → Starts (some .ex) (getSplit s cu.w cu.k).mask
    (fun o => o.dst = dstOf f.d.toNat (live.map (·.1)) ∧ o.kind = .result (live.map (fun e => (f.d.toNat, e.1, e.2)))) s cu t

/-- A register D, or `zero`: startResult from a state that differs from that of the issue in the counts of the hint table at most. -/
theorem startResult_started (spec : OpSpec) (f : Fields) (s : State) (cu : Cur) (settled live : List (Nat × TWord)) (cnt : List (Nat × Nat × Nat))
    (hd : isQ f.d = false) :
    ResultStarted f settled live cnt s cu (keepReplay spec (ctxOf spec f s cu) (atIssue s cu)
      (startResult (ctxOf spec f s cu) settled live { atIssue s cu with lhtCnt := cnt })) := by
  set u : State := { atIssue s cu with lhtCnt := cnt } with hu
  have hregs : ∀ w r l, rdReg (writeNow u cu.w f.d.toNat settled) w r l = rdReg (wrReg s cu.w f.d.toNat settled) w r l := fun w r l => by
    rw [rdReg_writeNow]
    exact rdReg_wrReg_congr (s := s) (u := u) rfl rfl _ _ _ _ _ _
  have hops : (writeNow u cu.w f.d.toNat settled).ops.map Op.bare = s.ops.map Op.bare := writeNow_bare _ _ _ _
  have hqd : isQ (ctxOf spec f s cu).f.d = false := hd
  by_cases hl : live = []
  · have hr : startResult (ctxOf spec f s cu) settled live u = advance (ctxOf spec f s cu) (writeNow u cu.w f.d.toNat settled) := by
      simp [startResult, settleAll, hd, hl]
    rw [hr]
    refine ⟨goes_keepReplay (goes_advance _ _ _ _ _ (by simp [hu])), by simp [hu], by simp [hu], by simp [hu], by simp [hu], fun w r l => ?_,
      fun _ => ?_, absurd hl⟩
    · rw [rdReg_keepReplay]; exact hregs w r l
    · rw [keepReplay_ops]; exact hops
  · have hr : startResult (ctxOf spec f s cu) settled live u = startVar (ctxOf spec f s cu) .ex (getSplit s cu.w cu.k).mask (live.map (·.1))
        (.result (live.map (fun e => (f.d.toNat, e.1, e.2)))) (writeNow u cu.w f.d.toNat settled) := by
      simp [startResult, settleNow, hd, hl]
    rw [hr, startVar_eq _ _ _ _ _ _ hqd]
    refine ⟨goes_keepReplay (goes_advance _ _ _ _ _ (by simp [hu])), by simp [hu], by simp [hu], by simp [hu], by simp [hu], fun w r l => ?_,
      fun h => absurd h hl, fun _ => ?_⟩
    · rw [rdReg_keepReplay]; exact hregs w r l
    · refine ⟨⟨_, _, by rw [keepReplay_ops, advance_ops], hops, ?_, rfl, rfl, rfl, rfl, rfl, rfl⟩, ?_⟩ <;> simp [hu]


/-- The register D is all that the settled lanes change (R33, R57). -/
theorem ResultStarted.keepsRegs {f : Fields} {settled live : List (Nat × TWord)} {cnt : List (Nat × Nat × Nat)} {s : State} {cu : Cur} {t : State}
    (h : ResultStarted f settled live cnt s cu t) (hs : ∀ e ∈ settled, e.1 ∈ activeLanes s cu) : KeepsRegs f.d.toNat s cu t := by
  intro w r l hl hne
  rw [h.regs]
  refine rdReg_wrReg_other _ _ _ _ _ _ _ hl (fun e he => lanesOf_lt (hs e he)) ?_
  rintro ⟨rfl, rfl, hm⟩
  refine hne ⟨rfl, rfl, fun hv => ?_⟩
  obtain ⟨e, he, rfl⟩ := List.mem_map.1 (hm hv)
  exact ((mem_lanesOf _ _).1 (hs e he)).2

end Sys2Proof.Machine
end

section
/-!
R393: the operands of rtbox and rttri lane by lane, the lanes that their tags nullify, and the answers of the others.
-/
namespace Sys2Proof.Machine
open Claims

/-- The words of a ray in a lane and of the n registers from B, with the lane. -/
def laneWords (f : Fields) (n : Nat) (s : State) (cu : Cur) (l : Nat) : Nat × List TWord × List TWord := (l, wordsAt s cu f.a 4 l, wordsAt s cu f.b n l)

/-- No active lane holds an X word in its operands. -/
def NoPoison (f : Fields) (n : Nat) (s : State) (cu : Cur) : Prop :=
  ∀ l ∈ activeLanes s cu, ∀ x ∈ wordsAt s cu f.a 4 l ++ wordsAt s cu f.b n l, x.tag ≠ .x

/-- The operands of the lane are all V. -/
def laneValid (f : Fields) (n : Nat) (s : State) (cu : Cur) (l : Nat) : Bool :=
  (wordsAt s cu f.a 4 l ++ wordsAt s cu f.b n l).all (fun x => decide (x.tag = .v))

/-- The active lanes that a test answers, and those that it nullifies. -/
def testLanes (f : Fields) (n : Nat) (s : State) (cu : Cur) : List Nat := (activeLanes s cu).filter (laneValid f n s cu)
def nullLanes (f : Fields) (n : Nat) (s : State) (cu : Cur) : List Nat := (activeLanes s cu).filter (fun l => !laneValid f n s cu l)

variable {f : Fields} {n : Nat} {s : State} {cu : Cur}

/-- Without an X word the lanes go on with their operands. -/
theorem rayOperands_of_noPoison (spec : OpSpec) (go : List (Nat × List TWord × List TWord) → State) (h : NoPoison f n s cu) :
    rayOperands (ctxOf spec f s cu) n (atIssue s cu) go = go ((activeLanes s cu).map (laneWords f n s cu)) := by
  have hvs : (actives (ctxOf spec f s cu)).map (fun l => (l, rayWords (atIssue s cu) (ctxOf spec f s cu) l,
      groupVals (atIssue s cu) (ctxOf spec f s cu) (ctxOf spec f s cu).f.b n l)) = (activeLanes s cu).map (laneWords f n s cu) := rfl
  have hnone : ((activeLanes s cu).map (laneWords f n s cu)).filterMap
      (fun e => ((e.2.1 ++ e.2.2).find? (fun x => x.tag = .x)).map (fun x => (e.1, x.data))) = [] := by
    rw [List.filterMap_eq_nil_iff]
    intro e he
    obtain ⟨l, hl, rfl⟩ := List.mem_map.1 he
    rw [Option.map_eq_none_iff, List.find?_eq_none]
    exact fun x hx => by simpa using h l hl x hx
  unfold rayOperands
  simp only [hvs, hnone]

/-- Words that are not X hold an N exactly where they are not all V. -/
theorem hasN_laneWords (h : NoPoison f n s cu) {l : Nat} (hl : l ∈ activeLanes s cu) : hasN (laneWords f n s cu l) = !laneValid f n s cu l := by
  unfold hasN laneValid
  rw [Bool.eq_iff_iff, Bool.not_eq_true', ← Bool.not_eq_true, List.any_eq_true, List.all_eq_true]
  push Not
  refine exists_congr fun x => and_congr_right fun hx => ?_
  have hne := h l hl x hx
  cases hx' : x.tag <;> simp_all

theorem filter_hasN (h : NoPoison f n s cu) :
    ((activeLanes s cu).map (laneWords f n s cu)).filter hasN = (nullLanes f n s cu).map (laneWords f n s cu) := by
  rw [List.filter_map]
  exact congrArg _ (List.filter_congr fun l hl => hasN_laneWords h hl)

theorem filter_not_hasN (h : NoPoison f n s cu) :
    ((activeLanes s cu).map (laneWords f n s cu)).filter (fun e => !hasN e) = (testLanes f n s cu).map (laneWords f n s cu) := by
  rw [List.filter_map]
  refine congrArg _ (List.filter_congr fun l hl => ?_)
  simp only [Function.comp, hasN_laneWords h hl, Bool.not_not]

theorem mem_nullLanes {l : Nat} (hl : l ∈ activeLanes s cu) (hn : (testLanes f n s cu).contains l = false) : l ∈ nullLanes f n s cu := by
  have hm : l ∉ testLanes f n s cu := by simpa using hn
  refine List.mem_filter.2 ⟨hl, ?_⟩
  by_contra hv
  exact hm (List.mem_filter.2 ⟨hl, by simpa using hv⟩)

theorem nullLanes_active {l : Nat} (hl : l ∈ nullLanes f n s cu) : l ∈ activeLanes s cu := (List.mem_filter.1 hl).1

theorem nullLanes_nodup : (nullLanes f n s cu).Nodup := (lanesOf_nodup _).filter _

/-- The word of rtbox is an answer of R393. -/
theorem boxAnswer_boxWord (u : State) (l ray box : Nat) : boxAnswer ray box (boxWord u l ray box) := by
  unfold boxAnswer boxWord
  cases (if rayValid ray then boxTest ray box else none) <;> rfl

/-- The word of rtbox in a lane. -/
def boxOf (f : Fields) (s : State) (cu : Cur) (l : Nat) : TWord :=
  boxWord (atIssue s cu) l (joinRay (wordsAt s cu f.a 4 l)) (joinRay (wordsAt s cu f.b 3 l))

/-- rtbox starts the operation that answers its V lanes. -/
theorem exec_rtbox_started (h : issues specRtbox f s cu = true) (hd : isQ f.d = false) (hx : NoPoison f 3 s cu) :
    ∃ t, exec (.rtbox f) s = .next t ∧ ResultStarted f (nullWrites s cu.w f.d.toNat (nullLanes f 3 s cu))
      ((testLanes f 3 s cu).map (fun l => (l, boxOf f s cu l))) s.lhtCnt s cu t := by
  refine ⟨_, issue_of_issues specRtbox f s _ cu h, ?_⟩
  have hb : rtboxBody (ctxOf specRtbox f s cu) (atIssue s cu) = startResult (ctxOf specRtbox f s cu)
      (nullWrites s cu.w f.d.toNat (nullLanes f 3 s cu)) ((testLanes f 3 s cu).map (fun l => (l, boxOf f s cu l))) (atIssue s cu) := by
    unfold rtboxBody
    rw [rayOperands_of_noPoison specRtbox _ hx]
    simp only [filter_hasN hx, filter_not_hasN hx, List.map_map]
    rfl
  rw [hb]
  exact startResult_started specRtbox f s cu _ _ s.lhtCnt hd

/-- R39, R393: rtbox. -/
theorem rtbox_answers (h : issues specRtbox f s cu = true) (hd : isQ f.d = false) (hx : NoPoison f 3 s cu) :
    ∃ t, exec (.rtbox f) s = .next t ∧ Goes f s cu t ∧ t.mem = s.mem ∧ t.fsr = s.fsr ∧ KeepsRegs f.d.toNat s cu t ∧
      (∀ l ∈ activeLanes s cu, (testLanes f 3 s cu).contains l = false → isV f.d = true →
        rdReg t cu.w f.d.toNat l = ⟨.n, (oldOf f s cu l).data⟩) ∧
      (testLanes f 3 s cu = [] → t.ops.map Op.bare = s.ops.map Op.bare) ∧
      (testLanes f 3 s cu ≠ [] → Starts (some .ex) (getSplit s cu.w cu.k).mask (fun o => o.dst = dstOf f.d.toNat (testLanes f 3 s cu) ∧
        ∃ v : Nat → TWord, o.kind = .result ((testLanes f 3 s cu).map (fun l => (f.d.toNat, l, v l))) ∧
          ∀ l ∈ testLanes f 3 s cu, boxAnswer (joinRay (wordsAt s cu f.a 4 l)) (joinRay (wordsAt s cu f.b 3 l)) (v l)) s cu t) := by
  obtain ⟨t, ht, hr⟩ := exec_rtbox_started h hd hx
  refine ⟨t, ht, hr.goes, hr.mem, hr.fsr, hr.keepsRegs fun e he => ?_, fun l hl hn hv => ?_, fun hn => hr.idle (by rw [hn]; rfl), fun hn => ?_⟩
  · obtain ⟨l, hl, rfl⟩ := List.mem_map.1 he
    exact nullLanes_active hl
  · have hv' : f.d.toNat < 0xC0 := of_decide_eq_true hv
    rw [hr.regs]
    exact rdReg_wrReg_null _ _ _ _ _ _ (by omega) (mem_nullLanes hl hn) nullLanes_nodup
  · obtain ⟨⟨old, o, h1, h2, h3, h4, h5, h6, h7, hdst, hkind⟩, hf⟩ := hr.starts (by simpa using hn)
    refine ⟨⟨old, o, h1, h2, h3, h4, h5, h6, h7, ?_, boxOf f s cu, ?_, fun l _ => boxAnswer_boxWord _ _ _ _⟩, hf⟩
    · simpa [Function.comp_def] using hdst
    · simpa [Function.comp_def] using hkind

end Sys2Proof.Machine
end

section
/-!
R393: rttri, which writes a group of two registers.
-/
namespace Sys2Proof.Machine
open Claims

variable {f : Fields} {s : State} {cu : Cur}

/-- The destination group of rttri starts at a vector register. -/
theorem rttri_dst (h : issues specRttri f s cu = true) : f.d.toNat < 0xC0 := by
  obtain ⟨e, rfl, hd⟩ := dCheck_of_issues h
  have hd' : rayGroup 0x03 (·.d) 2 e = none := hd
  unfold rayGroup at hd'
  by_contra hv
  have hnv : isV e.f.d = false := decide_eq_false hv
  simp only [hnv, Bool.not_false, if_true] at hd'
  split at hd'
  · cases hd'
  · split at hd' <;> cases hd'

/-- Lanes nullified in the two registers of a group. -/
def nullPair (s : State) (w d : Nat) (ls : List Nat) : State :=
  writeNow (writeNow s w d (nullWrites s w d ls)) w (d + 1) (nullWrites s w (d + 1) ls)

theorem nullPair_eq (s : State) (w d : Nat) (ls : List Nat) :
    ∃ v r p o, nullPair s w d ls = { s with vregs := v, sregs := r, pend := p, ops := o } := by
  obtain ⟨v, r, p, o, h⟩ := writeNow_eq s w d (nullWrites s w d ls)
  obtain ⟨v2, r2, p2, o2, h2⟩ := writeNow_eq (writeNow s w d (nullWrites s w d ls)) w (d + 1) (nullWrites s w (d + 1) ls)
  exact ⟨v2, r2, p2, o2, by rw [nullPair, h2, h]⟩

theorem nullPair_bare (s : State) (w d : Nat) (ls : List Nat) : (nullPair s w d ls).ops.map Op.bare = s.ops.map Op.bare :=
  (writeNow_bare _ _ _ _).trans (writeNow_bare _ _ _ _)

/-- A nullified lane keeps the data of both registers under N. -/
theorem rdReg_nullPair (s : State) (w d : Nat) (ls : List Nat) (l j : Nat) (hd : d < 0xC0) (hj : j < 2) (hl : l ∈ ls) (hn : ls.Nodup)
    (h32 : ∀ k ∈ ls, k < 32) : rdReg (nullPair s w d ls) w (d + j) l = ⟨.n, (rdReg s w (d + j) l).data⟩ := by
  unfold nullPair
  rw [rdReg_writeNow]
  obtain rfl | rfl : j = 0 ∨ j = 1 := by omega
  · have hws : ∀ e ∈ nullWrites s w (d + 1) ls, e.1 < 32 := fun e he => by
      obtain ⟨k, hk, rfl⟩ := List.mem_map.1 he
      exact h32 k hk
    rw [rdReg_wrReg_other _ _ _ _ _ _ _ (h32 l hl) hws (fun hc => by omega), rdReg_writeNow]
    exact rdReg_wrReg_null _ _ _ _ _ _ (by omega) hl hn
  · exact rdReg_wrReg_null _ _ _ _ _ _ (by omega) hl hn

/-- The two words of rttri in a lane. -/
def triOf (f : Fields) (s : State) (cu : Cur) (l : Nat) : List TWord :=
  triWords (atIssue s cu) l (joinRay (wordsAt s cu f.a 4 l)) (joinRay (wordsAt s cu f.b 5 l))

/-- They are an answer of R393. -/
theorem triAnswer_triWords (u : State) (l ray tri : Nat) :
    ∃ a b, triWords u l ray tri = [a, b] ∧ triAnswer ray tri a b := by
  unfold triWords triAnswer
  cases (if rayValid ray then triTest ray tri else none) with
  | none => exact ⟨_, _, rfl, rfl, rfl⟩
  | some x => exact ⟨_, _, rfl, rfl, rfl⟩

/-- The words of the group of rttri, register by register. -/
def triFst (f : Fields) (s : State) (cu : Cur) (l : Nat) : TWord := (triOf f s cu l).getD 0 TWord.zero
def triSnd (f : Fields) (s : State) (cu : Cur) (l : Nat) : TWord := (triOf f s cu l).getD 1 TWord.zero

theorem triAnswer_tri (l : Nat) :
    triAnswer (joinRay (wordsAt s cu f.a 4 l)) (joinRay (wordsAt s cu f.b 5 l)) (triFst f s cu l) (triSnd f s cu l) := by
  obtain ⟨a, b, h, ha⟩ := triAnswer_triWords (atIssue s cu) l (joinRay (wordsAt s cu f.a 4 l)) (joinRay (wordsAt s cu f.b 5 l))
  have hf : triFst f s cu l = a := by rw [triFst, triOf, h]; rfl
  have hs : triSnd f s cu l = b := by rw [triSnd, triOf, h]; rfl
  rw [hf, hs]
  exact ha

theorem groupWrites_tri (d l : Nat) : groupWrites d l (triOf f s cu l) = [(d, l, triFst f s cu l), (d + 1, l, triSnd f s cu l)] := by
  obtain ⟨a, b, h, -⟩ := triAnswer_triWords (atIssue s cu) l (joinRay (wordsAt s cu f.a 4 l)) (joinRay (wordsAt s cu f.b 5 l))
  rw [triFst, triSnd, triOf, h]
  rfl

/-- The results of rttri's operation. -/
def triKind (f : Fields) (s : State) (cu : Cur) : OpKind :=
  .result ((testLanes f 5 s cu).flatMap (fun l => [(f.d.toNat, l, triFst f s cu l), (f.d.toNat + 1, l, triSnd f s cu l)]))

/-- What rttri does: the nullified lanes are written, and an operation starts for the others, if there are any. -/
theorem rttriBody_eq (hx : NoPoison f 5 s cu) : rttriBody (ctxOf specRttri f s cu) (atIssue s cu) =
    if (testLanes f 5 s cu).isEmpty then advance (ctxOf specRttri f s cu) (nullPair (atIssue s cu) cu.w f.d.toNat (nullLanes f 5 s cu))
    else startGroupVar (ctxOf specRttri f s cu) 2 (testLanes f 5 s cu) (triKind f s cu)
      (nullPair (atIssue s cu) cu.w f.d.toNat (nullLanes f 5 s cu)) := by
  have hk : ((testLanes f 5 s cu).map (laneWords f 5 s cu)).flatMap
      (fun e => groupWrites f.d.toNat e.1 (triWords (atIssue s cu) e.1 (joinRay e.2.1) (joinRay e.2.2))) =
      (testLanes f 5 s cu).flatMap (fun l => [(f.d.toNat, l, triFst f s cu l), (f.d.toNat + 1, l, triSnd f s cu l)]) := by
    rw [List.flatMap_map]
    exact List.flatMap_congr fun l _ => groupWrites_tri f.d.toNat l
  have hlanes (ls : List Nat) : (ls.map (laneWords f 5 s cu)).map (·.1) = ls := by simp [laneWords, Function.comp_def]
  unfold rttriBody
  rw [rayOperands_of_noPoison specRttri _ hx]
  simp only [filter_hasN hx, filter_not_hasN hx, hlanes, ctxOf_f, ctxOf_w, hk, List.isEmpty_map]
  rfl

/-- An operation on a group of two registers: what it holds, and the registers that it leaves to its completion. -/
theorem startGroupVar_pair (c : Ctx) (ls : List Nat) (kind : OpKind) (u : State) :
    ∃ old o, startGroupVar c 2 ls kind u = advance c { u with ops := old ++ [o], nextOp := u.nextOp + 1 } ∧
      old.map Op.bare = u.ops.map Op.bare ∧ o.id = u.nextOp ∧ o.w = c.w ∧ o.lanes = c.sp.mask ∧ o.cls = some .ex ∧ o.push = none ∧
      o.dst = dstOf c.f.d.toNat ls ++ dstOf (c.f.d.toNat + 1) ls ∧ o.kind = kind := by
  refine ⟨(killDst (killDst u c.w c.f.d.toNat ls) c.w (c.f.d.toNat + 1) ls).ops, _, rfl, ?_, rfl, rfl, rfl, rfl, rfl, ?_, rfl⟩
  · exact (killDst_bare _ _ _ _).trans (killDst_bare _ _ _ _)
  · exact congrArg _ (List.append_nil _)

/-- R39, R393: rttri. -/
theorem rttri_answers (h : issues specRttri f s cu = true) (hx : NoPoison f 5 s cu) :
    ∃ t, exec (.rttri f) s = .next t ∧ Goes f s cu t ∧ t.mem = s.mem ∧ t.fsr = s.fsr ∧
      (∀ l ∈ activeLanes s cu, ∀ j < 2, (testLanes f 5 s cu).contains l = false →
        rdReg t cu.w (f.d.toNat + j) l = ⟨.n, (rdReg s cu.w (f.d.toNat + j) l).data⟩) ∧
      (testLanes f 5 s cu = [] → t.ops.map Op.bare = s.ops.map Op.bare) ∧
      (testLanes f 5 s cu ≠ [] → Starts (some .ex) (getSplit s cu.w cu.k).mask (fun o =>
        o.dst = dstOf f.d.toNat (testLanes f 5 s cu) ++ dstOf (f.d.toNat + 1) (testLanes f 5 s cu) ∧
        ∃ a b : Nat → TWord, o.kind = .result ((testLanes f 5 s cu).flatMap (fun l => [(f.d.toNat, l, a l), (f.d.toNat + 1, l, b l)])) ∧
          ∀ l ∈ testLanes f 5 s cu, triAnswer (joinRay (wordsAt s cu f.a 4 l)) (joinRay (wordsAt s cu f.b 5 l)) (a l) (b l)) s cu t) := by
  refine ⟨_, issue_of_issues specRttri f s _ cu h, ?_⟩
  rw [rttriBody_eq hx]
  obtain ⟨v, r, p, o, hu⟩ := nullPair_eq (atIssue s cu) cu.w f.d.toNat (nullLanes f 5 s cu)
  have hb := nullPair_bare (atIssue s cu) cu.w f.d.toNat (nullLanes f 5 s cu)
  have hreg : ∀ l ∈ activeLanes s cu, ∀ j < 2, (testLanes f 5 s cu).contains l = false →
      rdReg (nullPair (atIssue s cu) cu.w f.d.toNat (nullLanes f 5 s cu)) cu.w (f.d.toNat + j) l = ⟨.n, (rdReg s cu.w (f.d.toNat + j) l).data⟩ :=
    fun l hl j hj hn => rdReg_nullPair _ _ _ _ _ _ (rttri_dst h) hj (mem_nullLanes hl hn) nullLanes_nodup
      (fun k hk => lanesOf_lt (nullLanes_active hk))
  set u := nullPair (atIssue s cu) cu.w f.d.toNat (nullLanes f 5 s cu)
  by_cases hl : testLanes f 5 s cu = []
  · rw [if_pos (by simp [hl])]
    refine ⟨goes_keepReplay (goes_advance _ _ _ _ _ (by rw [hu])), by simp [hu], by simp [hu], fun l hl j hj hn => ?_,
      fun _ => ?_, absurd hl⟩
    · rw [rdReg_keepReplay]; exact hreg l hl j hj hn
    · rw [keepReplay_ops]; exact hb
  · rw [if_neg (by simpa using hl)]
    obtain ⟨old, x, hg, hold, h1, h2, h3, h4, h5, h6, h7⟩ := startGroupVar_pair (ctxOf specRttri f s cu) (testLanes f 5 s cu) (triKind f s cu) u
    rw [hg]
    refine ⟨goes_keepReplay (goes_advance _ _ _ _ _ (by simp [hu])), by simp [hu], by simp [hu], fun l hl j hj hn => ?_,
      fun hn => absurd hn hl, fun _ => ?_⟩
    · rw [rdReg_keepReplay]; exact hreg l hl j hj hn
    · refine ⟨⟨old, x, by rw [keepReplay_ops, advance_ops], hold.trans hb, by rw [h1, hu]; rfl, h2, h3, h4, h5, h6, triFst f s cu, triSnd f s cu, h7,
        fun l _ => triAnswer_tri l⟩, ?_⟩
      simp [hu]

end Sys2Proof.Machine
end

section
/-!
R398: partitions of the hint table emptied and counted.
-/
namespace Sys2Proof.Machine
open Claims

/-- A partition that has been emptied: its sets read as empty, and no other set changes. -/
theorem lhtWays_clearPart (s : State) (core p core' p' n : Nat) (hp : p < 16) (hp' : p' < 16) (hn : n < 128) :
    lhtWays (clearPart s core p) (lhtKey core' p' n) = if core' = core ∧ p' = p then [] else lhtWays s (lhtKey core' p' n) := by
  unfold lhtWays clearPart
  rw [sget_dropKeys]
  unfold lhtKey
  split
  · rw [if_neg (by omega)]
  · rw [if_pos (by omega)]

/-- Its counts are zero, and no other counts change. -/
theorem lhtCount_clearPart (s : State) (core p core' p' : Nat) (hp : p < 16) (hp' : p' < 16) :
    lhtCount (clearPart s core p) core' p' = if core' = core ∧ p' = p then (0, 0) else lhtCount s core' p' := by
  unfold lhtCount clearPart
  split
  · next h =>
    obtain ⟨rfl, rfl⟩ := h
    exact sget_sset_same _ _ _ _
  · exact sget_sset_ne _ _ _ _ _ (by omega)

/-- Several partitions of a core emptied. -/
def clearParts (s : State) (core : Nat) (ps : List Nat) : State := ps.foldl (fun s p => clearPart s core p) s

theorem clearParts_eq (s : State) (core : Nat) (ps : List Nat) : ∃ a b, clearParts s core ps = { s with lht := a, lhtCnt := b } := by
  unfold clearParts
  induction ps generalizing s with
  | nil => exact ⟨s.lht, s.lhtCnt, rfl⟩
  | cons p r ih =>
    obtain ⟨a, b, h⟩ := ih (clearPart s core p)
    exact ⟨a, b, by rw [List.foldl_cons, h]; rfl⟩

theorem lhtWays_clearParts (s : State) (core : Nat) (ps : List Nat) (core' p' n : Nat) (hps : ∀ p ∈ ps, p < 16) (hp' : p' < 16) (hn : n < 128) :
    lhtWays (clearParts s core ps) (lhtKey core' p' n) = if core' = core ∧ p' ∈ ps then [] else lhtWays s (lhtKey core' p' n) := by
  unfold clearParts
  induction ps generalizing s with
  | nil => simp
  | cons p r ih =>
    rw [List.foldl_cons, ih _ fun q hq => hps q (List.mem_cons_of_mem _ hq), lhtWays_clearPart _ _ _ _ _ _ (hps p List.mem_cons_self) hp' hn]
    by_cases hc : core' = core <;> by_cases hp : p' = p <;> simp [hc, hp]

theorem lhtCount_clearParts (s : State) (core : Nat) (ps : List Nat) (core' p' : Nat) (hps : ∀ p ∈ ps, p < 16) (hp' : p' < 16) :
    lhtCount (clearParts s core ps) core' p' = if core' = core ∧ p' ∈ ps then (0, 0) else lhtCount s core' p' := by
  unfold clearParts
  induction ps generalizing s with
  | nil => simp
  | cons p r ih =>
    rw [List.foldl_cons, ih _ fun q hq => hps q (List.mem_cons_of_mem _ hq), lhtCount_clearPart _ _ _ _ _ (hps p List.mem_cons_self) hp']
    by_cases hc : core' = core <;> by_cases hp : p' = p <;> simp [hc, hp]

/-- The partitions that lhtinv empties: all of them, or the one that MOD names. -/
def invParts (f : Fields) : List Nat := if (modOf f).getLsbD 4 then List.range 16 else [(modOf f).toNat % 16]

theorem invParts_lt (f : Fields) : ∀ p ∈ invParts f, p < 16 := by
  unfold invParts
  split
  · exact fun p hp => List.mem_range.1 hp
  · exact fun p hp => by rw [List.mem_singleton.1 hp]; exact Nat.mod_lt _ (by decide)

theorem mem_invParts (f : Fields) {p : Nat} (hp : p < 16) :
    p ∈ invParts f ↔ ((modOf f).getLsbD 4 || decide (p = (modOf f).toNat % 16)) = true := by
  unfold invParts
  cases (modOf f).getLsbD 4 <;> simp [hp]

variable {f : Fields} {s : State} {cu : Cur}

theorem lhtinvBody_eq (c : Ctx) (u : State) : lhtinvBody c u = advance c (clearParts u (coreOf u c.w) (invParts c.f)) := by
  unfold lhtinvBody invParts clearParts
  simp only [BitVec.testBit_toNat]
  by_cases h : (modOf c.f).getLsbD 4 = true
  · simp only [h, if_true]
  · simp only [h, Bool.false_eq_true, if_false]
    rfl

/-- R398: lhtinv. -/
theorem lhtinv_empties (h : issues specLhtinv f s cu = true) :
    ∃ t, exec (.lhtinv f) s = .next t ∧ Goes f s cu t ∧ t = { issueFrame s t with lht := t.lht, lhtCnt := t.lhtCnt } ∧
      ∀ core p, p < 16 →
        (lhtCount t core p =
          if core = coreOf s cu.w ∧ ((modOf f).getLsbD 4 || decide (p = (modOf f).toNat % 16)) = true then (0, 0) else lhtCount s core p) ∧
        ∀ n < 128, lhtWays t (lhtKey core p n) =
          if core = coreOf s cu.w ∧ ((modOf f).getLsbD 4 || decide (p = (modOf f).toNat % 16)) = true then [] else lhtWays s (lhtKey core p n) := by
  refine ⟨_, issue_of_issues specLhtinv f s _ cu h, ?_⟩
  rw [lhtinvBody_eq, show coreOf (atIssue s cu) (ctxOf specLhtinv f s cu).w = coreOf s cu.w from rfl]
  have hcount := lhtCount_clearParts (atIssue s cu) (coreOf s cu.w) (invParts f)
  have hways := lhtWays_clearParts (atIssue s cu) (coreOf s cu.w) (invParts f)
  obtain ⟨a, b, hu⟩ := clearParts_eq (atIssue s cu) (coreOf s cu.w) (invParts f)
  rw [ctxOf_f]
  set u := clearParts (atIssue s cu) (coreOf s cu.w) (invParts f)
  refine ⟨goes_keepReplay (goes_advance _ _ _ _ _ (by rw [hu])), ?_, fun core p hp => ⟨?_, fun n hn => ?_⟩⟩
  · rw [keepReplay_eq, hu]; rfl
  · rw [lhtCount, keepReplay_lhtCnt, advance_lhtCnt]
    simp only [← mem_invParts f hp]
    exact hcount core p (invParts_lt f) hp
  · rw [lhtWays, keepReplay_lht, advance_lht]
    simp only [← mem_invParts f hp]
    exact hways core p n (invParts_lt f) hp hn

/-- The entries of a table whose keys lie in one block of 128 are at most 128. -/
theorem part_sets_le (m : List (Nat × List LhtWay)) (k : Nat) (hm : swf [] m = true) : (m.filter (fun e => decide (e.1 / 128 = k))).length ≤ 128 := by
  have hn : ((m.filter (fun e => decide (e.1 / 128 = k))).map (·.1)).Nodup := by
    rw [List.nodup_iff_pairwise_ne, List.pairwise_map]
    exact (((swf_iff _ _).1 hm).1.filter _).imp Nat.ne_of_lt
  have hsub : (m.filter (fun e => decide (e.1 / 128 = k))).map (·.1) ⊆ List.range' (128 * k) 128 := by
    intro j hj
    obtain ⟨e, he, rfl⟩ := List.mem_map.1 hj
    have hk := of_decide_eq_true (List.mem_filter.1 he).2
    rw [List.mem_range'_1]
    omega
  simpa using (hn.subperm hsub).length_le

/-- R394: with at most four ways in a set, a partition of 128 sets has at most 512 entries. -/
theorem part_ways_le (m : List (Nat × List LhtWay)) (k : Nat) (hm : swf [] m = true) (h4 : ∀ e ∈ m, e.2.length ≤ 4) :
    ((m.filter (fun e => decide (e.1 / 128 = k))).map (fun e => e.2.length)).sum ≤ 512 := by
  have hsum := List.sum_le_card_nsmul ((m.filter (fun e => decide (e.1 / 128 = k))).map (fun e => e.2.length)) 4 fun x hx => by
    obtain ⟨e, he, rfl⟩ := List.mem_map.1 hx
    exact h4 e (List.mem_filter.1 he).1
  have hlen := part_sets_le m k hm
  rw [List.length_map, smul_eq_mul] at hsum
  omega

/-- The word of lhtstat: the counts of a partition and its entries in use. -/
def statWord (s : State) (core p : Nat) : TWord :=
  ⟨.v, BitVec.ofNat 64 ((lhtCount s core p).2 * 2 ^ 40 + (lhtCount s core p).1 * 2 ^ 16 +
    ((s.lht.filter (fun e => decide (e.1 / 128 = 16 * core + p))).map (fun e => e.2.length)).sum)⟩

/-- The counts that lhtstat leaves: with MOD[4] those of its partition are cleared. -/
def statCounts (f : Fields) (s : State) (cu : Cur) : List (Nat × Nat × Nat) :=
  if (modOf f).getLsbD 4 then sset (0, 0) s.lhtCnt (16 * coreOf s cu.w + (modOf f).toNat % 16) (0, 0) else s.lhtCnt

theorem sget_statCounts (core q : Nat) (hq : q < 16) : sget (0, 0) (statCounts f s cu) (16 * core + q) =
    if (modOf f).getLsbD 4 = true ∧ core = coreOf s cu.w ∧ q = (modOf f).toNat % 16 then (0, 0) else lhtCount s core q := by
  unfold statCounts
  split
  · next h =>
    by_cases hp : core = coreOf s cu.w ∧ q = (modOf f).toNat % 16
    · rw [if_pos ⟨h, hp⟩, hp.1, hp.2]
      exact sget_sset_same _ _ _ _
    · rw [if_neg fun hc => hp hc.2]
      exact sget_sset_ne _ _ _ _ _ (by omega)
  · next h => rw [if_neg fun hc => h hc.1]; rfl

theorem lhtstatBody_eq : lhtstatBody (ctxOf specLhtstat f s cu) (atIssue s cu) =
    startResult (ctxOf specLhtstat f s cu) [] ((lanesNow f s cu).map (fun l => (l, statWord s (coreOf s cu.w) ((modOf f).toNat % 16))))
      { atIssue s cu with lhtCnt := statCounts f s cu } := by
  have hkey : lhtKey (coreOf s cu.w) ((modOf f).toNat % 16) 0 / 128 = 16 * coreOf s cu.w + (modOf f).toNat % 16 := by
    unfold lhtKey; omega
  have hstate : (if (modOf f).getLsbD 4 then
      { atIssue s cu with lhtCnt := sset (0, 0) (atIssue s cu).lhtCnt (16 * coreOf s cu.w + (modOf f).toNat % 16) (0, 0) }
      else atIssue s cu) = { atIssue s cu with lhtCnt := statCounts f s cu } := by
    unfold statCounts
    split <;> rfl
  unfold lhtstatBody
  simp only [ctxOf_f, ctxOf_w, BitVec.testBit_toNat, show coreOf (atIssue s cu) cu.w = coreOf s cu.w from rfl, hkey, hstate]
  rfl

/-- R398: lhtstat. -/
theorem lhtstat_answers (h : issues specLhtstat f s cu = true) (hd : isQ f.d = false) :
    ∃ t, exec (.lhtstat f) s = .next t ∧ Goes f s cu t ∧ t.mem = s.mem ∧ t.fsr = s.fsr ∧ t.lht = s.lht ∧ KeepsRegs f.d.toNat s cu t ∧
      Starts (some .ex) (getSplit s cu.w cu.k).mask (fun o => o.dst = dstOf f.d.toNat (lanesNow f s cu) ∧
        o.kind = .result ((lanesNow f s cu).map (fun l => (f.d.toNat, l, statWord s (coreOf s cu.w) ((modOf f).toNat % 16))))) s cu t ∧
      ∀ core q, q < 16 → lhtCount t core q =
        if (modOf f).getLsbD 4 = true ∧ core = coreOf s cu.w ∧ q = (modOf f).toNat % 16 then (0, 0) else lhtCount s core q := by
  have hr := startResult_started specLhtstat f s cu [] ((lanesNow f s cu).map (fun l => (l, statWord s (coreOf s cu.w) ((modOf f).toNat % 16))))
    (statCounts f s cu) hd
  refine ⟨_, issue_of_issues specLhtstat f s _ cu h, ?_⟩
  rw [lhtstatBody_eq]
  have hne : lanesNow f s cu ≠ [] := by
    have ha := activeLanes_ne_nil h
    unfold lanesNow
    split <;> simpa using ha
  obtain ⟨⟨old, o, h1, h2, h3, h4, h5, h6, h7, hdst, hkind⟩, hf⟩ := hr.starts (by simpa using hne)
  refine ⟨hr.goes, hr.mem, hr.fsr, hr.lht, hr.keepsRegs (fun e he => by cases he),
    ⟨⟨old, o, h1, h2, h3, h4, h5, h6, h7, ?_, ?_⟩, hf⟩, fun core q hq => ?_⟩
  · simpa [Function.comp_def] using hdst
  · simpa [Function.comp_def] using hkind
  · rw [lhtCount, hr.counts]
    exact sget_statCounts core q hq

end Sys2Proof.Machine
end

section
/-!
R39, R393, R398: the completion of an operation on EX whose results are known, and the obligation.
-/
namespace Sys2Proof.Machine
open Claims

/-- R39: EX_OPERATION_COMPLETE of an operation that holds its results writes them, ends it, and changes nothing else that the statement names. -/
theorem exOperationComplete_result (s : State) (o : Op) (ws : List (Nat × Nat × TWord)) (ho : findOp s o.id = some o) (hp : o.push = none)
    (hk : o.kind = .result ws) :
    ∃ t, exec (.exOperationComplete o.id) s = .next t ∧ Completes o ws s t ∧ t.mem = s.mem ∧ t.warps = s.warps ∧ t.fsr = s.fsr := by
  have he : exec (.exOperationComplete o.id) s = .next (finishOp s o ws) := by
    simp only [exec_exOperationComplete, execExOperationComplete, ho, exComplete, hk]
  have hf : finishOp s o ws = writeDst (endOp s o.id) o ws := by unfold finishOp; rw [hp]
  obtain ⟨v, r, p, q, hw, -⟩ := writeDst_eq (endOp s o.id) o ws
  refine ⟨_, he, finishOp_completes s s o ws hp (fun _ _ _ => rfl) rfl, ?_, ?_, ?_⟩ <;> rw [hf, hw] <;> rfl

/-- Settles O36: each of the four words by what its body starts or empties, and the completion by the operation's results. -/
theorem rayTestsAndHints : Obligations.RayTestsAndHints := by
  refine ⟨fun f s cu h hd hx => rtbox_answers h hd hx, fun f s cu h hx => rttri_answers h hx, fun f s cu h => lhtinv_empties h,
    fun f s cu h hd => ?_, exOperationComplete_result⟩
  obtain ⟨t, ht, hg, hm, hfsr, hlht, hregs, hs, hc⟩ := lhtstat_answers h hd
  exact ⟨t, ht, hg, hm, hfsr, hlht, hregs, hs, part_ways_le _ _, hc⟩

end Sys2Proof.Machine
end

section
/-!
R51, R62 to R66: the decoder and the encoder are inverse to each other.
-/
namespace Sys2Proof

/-- The bits of a word by its parts, whose widths add up to 64 (R51). -/
theorem extractLsb'_wordOf (op : BitVec 9) (f : Fields) (lo len : Nat) : (wordOf op f).extractLsb' lo len =
    BitVec.extractLsb' (n := 3 + 9 + 8 + 8 + 8 + 8 + 4 + 16) lo len (f.stall ++ op ++ f.d ++ f.a ++ f.b ++ f.c ++ f.ty ++ f.md) := rfl

/-- R51: the opcode of a word built from its fields is the one given. -/
@[simp] theorem opcodeOf_wordOf (op : BitVec 9) (f : Fields) : opcodeOf (wordOf op f) = op := by
  simp only [opcodeOf, extractLsb'_wordOf, BitVec.extractLsb'_append_eq_of_le, BitVec.extractLsb'_append_eq_right, Nat.reduceLeDiff,
    Nat.reduceSub]

/-- R51: the fields of a word built from them are the ones given. -/
@[simp] theorem fieldsOf_wordOf (op : BitVec 9) (f : Fields) : fieldsOf (wordOf op f) = f := by
  simp only [fieldsOf, extractLsb'_wordOf, BitVec.extractLsb'_append_eq_of_le, BitVec.extractLsb'_append_eq_right, Nat.reduceLeDiff,
    Nat.reduceSub, Nat.le_refl, Nat.sub_self, BitVec.extractLsb'_eq_self]

/-- R51: a word is its opcode and its fields. -/
theorem wordOf_opcodeOf_fieldsOf (w : Word) : wordOf (opcodeOf w) (fieldsOf w) = w := by
  have join (lo len hi m : Nat) (h : hi = lo + len) : w.extractLsb' hi m ++ w.extractLsb' lo len = w.extractLsb' lo (m + len) :=
    BitVec.extractLsb'_append_extractLsb'_eq_extractLsb' h
  simp only [wordOf, opcodeOf, fieldsOf]
  rw [join 52 9 61 _ rfl, join 44 8 52 _ rfl, join 36 8 44 _ rfl, join 28 8 36 _ rfl, join 20 8 28 _ rfl, join 16 4 20 _ rfl,
    join 0 16 16 _ rfl]
  exact BitVec.extractLsb'_eq_self

/-- A word decodes by the opcode and the fields that it is built from. -/
theorem decode_wordOf (op : BitVec 9) (f : Fields) : decode (wordOf op f) = decodeOp op f := by
  rw [decode, opcodeOf_wordOf, fieldsOf_wordOf]

/-- Every instruction that its own word names is read back from its opcode and fields. Two pairs of rows share an opcode, and a word that
is no instruction keeps its opcode as an argument; of every other instruction the opcode alone decides. -/
theorem opcodeRead (i : Instr) : Laws.OpcodeRead.Statement i := by
  intro hc op f h
  cases i with
  | loopSet g => exact Laws.OpcodeRead.loopSet g hc op f h
  | loop g => exact Laws.OpcodeRead.loop g hc op f h
  | bnset g => exact Laws.OpcodeRead.bnset g hc op f h
  | bnsetGet g => exact Laws.OpcodeRead.bnsetGet g hc op f h
  | unassignedOpcode o g => exact Laws.OpcodeRead.unassignedOpcode o g hc op f h
  | extensionOpcode o g => exact Laws.OpcodeRead.extensionOpcode o g hc op f h
  | _ => cases h <;> rfl

/-- Settles O56: the word of an instruction holds its opcode and its fields, and the decoder reads the instruction from these. -/
theorem decodeEncode : Obligations.DecodeEncode := by
  intro i w hc hw
  obtain ⟨⟨op, f⟩, hi, rfl⟩ := Option.map_eq_some_iff.1 hw
  rw [decode_wordOf, opcodeRead i hc op f hi]

/-! ### What a word decodes to is named by that word -/

/-- The instruction is the one that a word of opcode n names, with the fields of that word. -/
def NamedBy (n : Nat) (f : Fields) (i : Instr) : Prop := i.coded = true ∧ opFields i = some (BitVec.ofNat 9 n, f)

/-- Each instruction of a row of the opcode table is named by its own opcode, counted from the row's first. -/
def RowNames (base : Nat) (row : Nat → Fields → Option Instr) : Prop := ∀ n f i, row n f = some i → NamedBy (base + n) f i

theorem RowNames.at {base : Nat} {row : Nat → Fields → Option Instr} (hr : RowNames base row) {n : Nat} {f : Fields} {i : Instr}
    (hn : base ≤ n) (h : row (n - base) f = some i) : NamedBy n f i := by
  have := hr _ _ _ h
  rwa [Nat.add_sub_of_le hn] at this

theorem decodeInt_names : RowNames 0x000 decodeInt := by
  intro n f i h; unfold decodeInt at h; split at h <;> cases h <;> exact ⟨rfl, rfl⟩
theorem decodeLogic_names : RowNames 0x010 decodeLogic := by
  intro n f i h; unfold decodeLogic at h; split at h <;> cases h <;> exact ⟨rfl, rfl⟩
theorem decodeSpecial_names : RowNames 0x028 decodeSpecial := by
  intro n f i h; unfold decodeSpecial at h; split at h <;> cases h <;> exact ⟨rfl, rfl⟩
theorem decodeTag_names : RowNames 0x030 decodeTag := by
  intro n f i h; unfold decodeTag at h; split at h <;> cases h <;> exact ⟨rfl, rfl⟩
theorem decodeFloat_names : RowNames 0x040 decodeFloat := by
  intro n f i h; unfold decodeFloat at h; split at h <;> cases h <;> exact ⟨rfl, rfl⟩
theorem decodeConvert_names : RowNames 0x060 decodeConvert := by
  intro n f i h; unfold decodeConvert at h; split at h <;> cases h <;> exact ⟨rfl, rfl⟩
theorem decodeMem_names : RowNames 0x100 decodeMem := by
  intro n f i h; unfold decodeMem at h; split at h <;> cases h <;> exact ⟨rfl, rfl⟩
theorem decodeOrder_names : RowNames 0x10D decodeOrder := by
  intro n f i h; unfold decodeOrder at h; split at h <;> cases h <;> exact ⟨rfl, rfl⟩
theorem decodeMulticast_names : RowNames 0x112 decodeMulticast := by
  intro n f i h; unfold decodeMulticast at h; split at h <;> cases h; exact ⟨rfl, rfl⟩
theorem decodeVersion_names : RowNames 0x118 decodeVersion := by
  intro n f i h; unfold decodeVersion at h; split at h <;> cases h <;> exact ⟨rfl, rfl⟩
theorem decodeAtomic_names : RowNames 0x120 decodeAtomic := by
  intro n f i h; unfold decodeAtomic at h; split at h <;> cases h <;> exact ⟨rfl, rfl⟩
theorem decodeSync_names : RowNames 0x130 decodeSync := by
  intro n f i h; unfold decodeSync at h; split at h <;> cases h <;> exact ⟨rfl, rfl⟩
theorem decodeCopy_names : RowNames 0x140 decodeCopy := by
  intro n f i h; unfold decodeCopy at h; split at h <;> cases h <;> exact ⟨rfl, rfl⟩
theorem decodeMatrix_names : RowNames 0x180 decodeMatrix := by
  intro n f i h; unfold decodeMatrix at h; split at h <;> cases h <;> exact ⟨rfl, rfl⟩
theorem decodeRay_names : RowNames 0x190 decodeRay := by
  intro n f i h; unfold decodeRay at h; split at h <;> cases h <;> exact ⟨rfl, rfl⟩
theorem decodeLaunch_names : RowNames 0x1A0 decodeLaunch := by
  intro n f i h; unfold decodeLaunch at h; split at h <;> cases h <;> exact ⟨rfl, rfl⟩
theorem decodeFabric_names : RowNames 0x1B0 decodeFabric := by
  intro n f i h; unfold decodeFabric at h; split at h <;> cases h <;> exact ⟨rfl, rfl⟩
theorem decodeSystem_names : RowNames 0x1C0 decodeSystem := by
  intro n f i h; unfold decodeSystem at h; split at h <;> cases h <;> exact ⟨rfl, rfl⟩

/-- R132: the two rows of opcode 0x070 are told apart by MOD[3]. -/
theorem decodeCross_names : RowNames 0x070 decodeCross := by
  intro n f i h
  unfold decodeCross at h
  split at h
  · obtain rfl := Option.some.inj h
    split
    next hm => exact ⟨hm, rfl⟩
    next hm => exact ⟨show (!f.md.getLsbD 3) = true by simpa using hm, rfl⟩
  all_goals cases h <;> exact ⟨rfl, rfl⟩

/-- R163: the two rows of opcode 0x087 are told apart by D[2]. -/
theorem decodeControl_names : RowNames 0x080 decodeControl := by
  intro n f i h
  unfold decodeControl at h
  split at h
  case h_8 =>
    obtain rfl := Option.some.inj h
    split
    next hd => exact ⟨hd, rfl⟩
    next hd => exact ⟨show (!f.d.getLsbD 2) = true by simpa using hd, rfl⟩
  all_goals cases h <;> exact ⟨rfl, rfl⟩

/-- An opcode below the next row's first one belongs to the row, any other to the rows that follow. -/
theorem names_of_rows {b n : Nat} {f : Fields} {i : Instr} {row rest : Option Instr} (hrow : n < b → row = some i → NamedBy n f i)
    (hrest : b ≤ n → rest = some i → NamedBy n f i) (h : (if n < b then row else rest) = some i) : NamedBy n f i := by
  split at h
  next hn => exact hrow hn h
  next hn => exact hrest (Nat.le_of_not_lt hn) h

/-- Each assigned opcode is the one of the instruction that its row holds (R63). -/
theorem decodeRow_names {n : Nat} {f : Fields} {i : Instr} : decodeRow n f = some i → NamedBy n f i := by
  unfold decodeRow
  refine names_of_rows (fun _ => decodeInt_names.at (Nat.zero_le n)) fun h => ?_
  refine names_of_rows (fun _ => decodeLogic_names.at h) fun h => ?_
  refine names_of_rows (fun _ => decodeSpecial_names.at h) fun h => ?_
  refine names_of_rows (fun _ => decodeTag_names.at h) fun h => ?_
  refine names_of_rows (fun _ => decodeFloat_names.at h) fun h => ?_
  refine names_of_rows (fun _ => decodeConvert_names.at h) fun h => ?_
  refine names_of_rows (fun _ => decodeCross_names.at h) fun h => ?_
  refine names_of_rows (fun _ => decodeControl_names.at h) fun h => ?_
  refine names_of_rows (fun _ => decodeMem_names.at h) fun h => ?_
  refine names_of_rows (fun _ => decodeOrder_names.at h) fun h => ?_
  refine names_of_rows (fun _ => decodeMulticast_names.at h) fun h => ?_
  refine names_of_rows (fun _ => decodeVersion_names.at h) fun h => ?_
  refine names_of_rows (fun _ => decodeAtomic_names.at h) fun h => ?_
  refine names_of_rows (fun _ => decodeSync_names.at h) fun h => ?_
  refine names_of_rows (fun _ => decodeCopy_names.at h) fun h => ?_
  refine names_of_rows (fun _ => decodeMatrix_names.at h) fun h => ?_
  refine names_of_rows (fun _ => decodeRay_names.at h) fun h => ?_
  refine names_of_rows (fun _ => decodeLaunch_names.at h) fun h => ?_
  refine names_of_rows (fun _ => decodeFabric_names.at h) fun h => ?_
  exact decodeSystem_names.at h

/-- Every opcode, assigned or not, is the one of the instruction that it decodes to (R63, R64, R66). -/
theorem decodeOp_names (op : BitVec 9) (f : Fields) : NamedBy op.toNat f (decodeOp op f) := by
  unfold decodeOp
  split
  next he => exact ⟨decide_eq_true he, by simp [opFields]⟩
  next he =>
    cases hr : decodeRow op.toNat f with
    | some i => exact decodeRow_names hr
    | none =>
      refine ⟨?_, by simp [opFields]⟩
      show unassignedOp op.toNat = true
      unfold unassignedOp
      rw [Laws.decodeRow_isNone _ _ f, hr]
      simp; omega

/-- Settles O57: the instruction that a word decodes to has the word's opcode and fields, which make up the word. -/
theorem encodeDecode : Obligations.EncodeDecode := by
  intro w
  obtain ⟨hc, ho⟩ := decodeOp_names (opcodeOf w) (fieldsOf w)
  refine ⟨hc, ?_⟩
  rw [encode, decode, ho, Option.map_some, BitVec.ofNat_toNat, BitVec.setWidth_eq, wordOf_opcodeOf_fieldsOf]

/-! ### Examples of the specification -/

/-- R3: a word is the word of its own eight bytes. -/
theorem decodeBytes_bytes (w : Word) : decodeBytes ((List.range 8).map (fun i => w.extractLsb' (8 * i) 8)) = .ok (decode w, []) := by
  have join (lo hi m : Nat) (h : hi = lo + 8) : w.extractLsb' hi m ++ w.extractLsb' lo 8 = w.extractLsb' lo (m + 8) :=
    BitVec.extractLsb'_append_extractLsb'_eq_extractLsb' h
  have hw : wordOfBytes (w.extractLsb' 0 8) (w.extractLsb' 8 8) (w.extractLsb' 16 8) (w.extractLsb' 24 8) (w.extractLsb' 32 8)
      (w.extractLsb' 40 8) (w.extractLsb' 48 8) (w.extractLsb' 56 8) = w := by
    unfold wordOfBytes
    rw [join 48 56 _ rfl, join 40 48 _ rfl, join 32 40 _ rfl, join 24 32 _ rfl, join 16 24 _ rfl, join 8 16 _ rfl, join 0 8 _ rfl]
    exact BitVec.extractLsb'_eq_self
  exact congrArg (fun v => Except.ok (decode v, [])) hw

/-- Settles O55: the examples' words decode one by one, and their bytes as the words do. -/
theorem decodeWords : Obligations.DecodeWords := by
  have hex : ∀ e ∈ Claims.exampleWords, decode e.1 = e.2 := by decide +kernel
  refine ⟨fun e he => ⟨hex e he, ?_⟩, fun f => ⟨?_, ?_⟩⟩
  · rw [decodeBytes_bytes, hex e he]
  · rw [decode_wordOf]; rfl
  · rw [decode_wordOf]; rfl

end Sys2Proof
end

section
/-!
R42, R47, R51: the word that a step fetches, and what it runs (log 2).
-/
namespace Sys2Proof.Machine

/-- A read of n bytes is a number of n digits in base 256. -/
theorem rdMem_lt (s : State) (k n : Nat) : rdMem s k n < 2 ^ (8 * n) := by
  induction n with
  | zero => exact Nat.one_pos
  | succ n ih =>
    have hb : (rdByte s (k + n)).toNat ≤ 255 := Nat.le_of_lt_succ (rdByte s (k + n)).isLt
    have hp : 2 ^ (8 * (n + 1)) = 256 * 2 ^ (8 * n) := by rw [Nat.mul_succ, Nat.pow_add, Nat.mul_comm]
    rw [rdMem_succ, hp]
    nlinarith

/-- Digit i in base 256 of a read is byte i. -/
theorem rdMem_digit (s : State) (k : Nat) {n i : Nat} (hi : i < n) : rdMem s k n / 2 ^ (8 * i) % 2 ^ 8 = (rdByte s (k + i)).toNat := by
  induction n with
  | zero => omega
  | succ n ih =>
    rw [rdMem_succ]
    obtain rfl | hlt := Nat.eq_or_lt_of_le (Nat.le_of_lt_succ hi)
    · rw [Nat.add_mul_div_right _ _ (Nat.two_pow_pos _), Nat.div_eq_of_lt (rdMem_lt s k i), Nat.zero_add]
      exact Nat.mod_eq_of_lt (rdByte s (k + i)).isLt
    · have hp : 2 ^ (8 * n) = 2 ^ 8 * 2 ^ (8 * (n - i - 1)) * 2 ^ (8 * i) := by
        rw [← Nat.pow_add, ← Nat.pow_add]; congr 1; omega
      rw [hp, ← Nat.mul_assoc, Nat.add_mul_div_right _ _ (Nat.two_pow_pos _), Nat.mul_left_comm, Nat.add_mul_mod_self_left, ih hlt]

/-- R3, R42: the eight bytes that memory holds decode as the word read from them. -/
theorem decodeBytes_rdByte (s : State) (k : Nat) :
    decodeBytes ((List.range 8).map (fun j => rdByte s (k + j))) = .ok (decode (BitVec.ofNat 64 (rdMem s k 8)), []) := by
  rw [← decodeBytes_bytes]
  refine congrArg decodeBytes (List.map_congr_left fun i hi => BitVec.eq_of_toNat_eq ?_)
  rw [BitVec.extractLsb'_toNat, BitVec.toNat_ofNat, Nat.mod_eq_of_lt (rdMem_lt s k 8), Nat.shiftRight_eq_div_pow,
    rdMem_digit s k (List.mem_range.1 hi)]

/-- A code word that no store has changed since the block's launch began is the present one (R50). -/
theorem codeWord_of_unchanged {s : State} {b key : Nat}
    (h : ∀ e ∈ sget [] s.icode key, (getBlock s b).node < e.2 → e.1 = BitVec.ofNat 64 (rdMem s key 8)) :
    codeWord s b key = BitVec.ofNat 64 (rdMem s key 8) := by
  have hnone : (sget [] s.icode key).filter (fun e => decide ((getBlock s b).node < e.2) && decide (e.1 ≠ BitVec.ofNat 64 (rdMem s key 8))) = [] :=
    List.filter_eq_nil_iff.2 fun e he => by simpa using h e he
  unfold codeWord
  simp only [hnone, List.map_nil]

/-- A fetch that reaches memory over no link that is down has the word there (R42, R404). -/
theorem fetch_of_ok {s : State} {w : Nat} {sp : Split} {l : Leaf} {key : Nat} (a : Agent) (ha : a = { agentOf s w sp.sup with denied := sp.denied })
    (hc : checkAddr s a (vpc sp).toNat 8 .fetch = .ok l key) (hp : peerHeld s s.routes key = false) :
    fetch s w sp = .word (codeWord s a.blk key) (touch s a (vpc sp).toNat l false) := by
  subst ha
  unfold fetch
  simp only [hc, hp, Bool.false_eq_true, if_false]

/-- A split of a live block that stands at a word of its clause and waits for nothing issues the word it fetches (R47). -/
theorem nextWord_of_fetch {s s1 : State} {cu : Cur} {w : Word} (hm : (getSplit s cu.w cu.k).mask ≠ 0) (hr : (getSplit s cu.w cu.k).rem ≠ 0)
    (hs : (getSplit s cu.w cu.k).susp = none) (hk : (getBlock s (blkOf cu.w)).killed = false)
    (hf : fetch s cu.w (getSplit s cu.w cu.k) = .word w s1) : nextWord s cu = .word w s1 := by
  unfold nextWord
  rw [if_neg (not_or.2 ⟨hm, by simp [hr, hs, hk]⟩)]
  simp only [hf]

/-- Settles O54: the branches of a step, and the word of the first of them by its fetch. -/
theorem stepRunsDecodedWord : Obligations.StepRunsDecodedWord := by
  intro s
  refine ⟨fun hp => by simp [step, hp], fun hp => ⟨fun e r ha => by simp [step, hp, ha], fun ha => ⟨?_, ?_, ?_, ?_⟩⟩⟩
  · intro cu hcur sp a hm hr hs hk l key i r hc hph hd hi
    have hw := nextWord_of_fetch hm hr hs hk (fetch_of_ok a rfl hc hph)
    rw [decodeBytes_rdByte] at hd
    obtain ⟨rfl, rfl⟩ := Prod.mk.inj (Except.ok.inj hd)
    rw [codeWord_of_unchanged hi] at hw
    simp [step, hp, ha, hcur, hw, a, sp]
  · intro h1 cu h2; simp [step, hp, ha, h1, h2, takeSecond]
  · intro h1 h2 e he; simp [step, hp, ha, h1, h2, he]
  · intro h1 h2 he; simp [step, hp, ha, h1, h2, he]
end Sys2Proof.Machine
end

section
/-!
R55, R78, R165 to R167, R203: words that go on with the next word, or suspend their split, and change nothing else.
-/
namespace Sys2Proof.Machine
open Claims

/-! ### What a kept replay and a suspension leave -/

@[simp] theorem getWarp_keepReplay (spec : OpSpec) (c : Ctx) (s s' : State) (w : Nat) : getWarp (keepReplay spec c s s') w = getWarp s' w := by
  rw [keepReplay_eq]; rfl

@[simp] theorem getSplit_keepReplay (spec : OpSpec) (c : Ctx) (s s' : State) (w k : Nat) :
    getSplit (keepReplay spec c s s') w k = getSplit s' w k := by
  rw [keepReplay_eq]; rfl

@[simp] theorem getQuarter_keepReplay (spec : OpSpec) (c : Ctx) (s s' : State) (q : Nat) :
    getQuarter (keepReplay spec c s s') q = getQuarter s' q := by
  rw [keepReplay_eq]; rfl

/-- The split that a word leaves suspended which has issued and waits for its effect (R47). -/
def heldBy (x : Wait) (f : Fields) (s : State) (cu : Cur) : Split :=
  { getSplit s cu.w cu.k with susp := some x, starve := 0, next := issueTime s cu.w cu.k + stallOf f,
                              path := pathOf s cu.w (issueTime s cu.w cu.k) }

/-- R47: a wait that keeps no operands changes its own split alone. -/
theorem suspend_held {x : Wait} (hx : x.keeps = false) (spec : OpSpec) (f : Fields) (s : State) (cu : Cur) (u : State)
    (hu : getSplit u cu.w cu.k = getSplit s cu.w cu.k) :
    suspend (ctxOf spec f s cu) x u = setSplit u cu.w cu.k (heldBy x f s cu) := by
  have hs : addStalls x (setSplit u cu.w cu.k (heldBy x f s cu)) = setSplit u cu.w cu.k (heldBy x f s cu) := by
    unfold addStalls
    split
    · cases hx
    · rfl
  simp only [suspend, hx, Bool.false_eq_true, if_false, ctxOf_w, ctxOf_k, hu]
  exact hs

variable {f : Fields} {s : State} {cu : Cur}

/-! ### nop and prf -/

/-- R55, R78: nop. -/
theorem nop_goes (h : issues specNop f s cu = true) : ∃ t, exec (.nop f) s = .next t ∧ Goes f s cu t ∧ t = issueFrame s t :=
  ⟨_, issue_of_issues specNop f s _ cu h, goes_keepReplay (goes_advance _ _ _ _ _ rfl), by rw [keepReplay_eq]; rfl⟩

/-- R203: prf takes its queue operands and has no other effect. -/
theorem prf_goes (h : issues specPrf f s cu = true) : ∃ t, exec (.prf f) s = .next t ∧ Goes f s cu t ∧ PopsQueues (rdAB f) s cu t ∧
    t = { issueFrame s t with queues := t.queues } := by
  rw [exec_prf]
  unfold execPrf
  refine ⟨_, issue_of_issues specPrf f s _ cu h, goes_keepReplay (goes_advance _ _ _ _ _ (by simp)), fun w l q hl hq => ?_, ?_⟩
  · rw [getQueue, keepReplay_queues, advance_queues]
    exact getQueue_popAll (atIssue s cu) cu.w _ (rdAB f) w l q hl hq
  · obtain ⟨q, hp⟩ := popAll_eq (atIssue s cu) cu.w (getSplit s cu.w cu.k).mask (rdAB f)
    rw [keepReplay_eq]
    simp only [ctxOf_w, ctxOf_sp, ctxOf_f]
    rw [show specPrf.reads f = rdAB f from rfl, hp]; rfl

/-! ### wait, yield and nap -/

/-- What suspending a split that has issued leaves, the issue's state apart from its quarters. -/
theorem suspend_frame {x : Wait} (hx : x.keeps = false) (spec : OpSpec) (qs : List (Nat × Quarter)) :
    ∃ t, keepReplay spec (ctxOf spec f s cu) (atIssue s cu) (suspend (ctxOf spec f s cu) x { atIssue s cu with quarters := qs }) = t ∧
      t = issueFrame s t ∧ getSplit t cu.w cu.k = heldBy x f s cu ∧ t.quarters = qs := by
  have hsp : getSplit { atIssue s cu with quarters := qs } cu.w cu.k = getSplit s cu.w cu.k := getSplit_startIssue s cu _ cu.w cu.k
  rw [suspend_held hx spec f s cu _ hsp]
  exact ⟨_, rfl, by rw [keepReplay_eq]; rfl, by simp, by simp⟩

/-- R165: wait. -/
theorem wait_holds (h : issues specWait f s cu = true) :
    ∃ t, exec (.wait f) s = .next t ∧ t = issueFrame s t ∧
      if countersMet (atIssue s cu) cu.w (getSplit s cu.w cu.k).mask (f.md.toNat / 4096) (f.md.toNat / 256 % 16) (f.md.toNat / 16 % 16) (f.md.toNat % 16)
      then Goes f s cu t
      else getSplit t cu.w cu.k = heldBy (.counters (f.md.toNat / 4096) (f.md.toNat / 256 % 16) (f.md.toNat / 16 % 16) (f.md.toNat % 16)) f s cu := by
  have hld : f.md.toNat / 4096 % 16 = f.md.toNat / 4096 := by have := f.md.isLt; omega
  refine ⟨_, issue_of_issues specWait f s _ cu h, ?_⟩
  unfold waitBody
  simp only [ctxOf_f, ctxOf_w, ctxOf_sp, hld]
  split
  · exact ⟨by rw [keepReplay_eq]; rfl, goes_keepReplay (goes_advance _ _ _ _ _ rfl)⟩
  · obtain ⟨t, rfl, hf, hs, -⟩ := suspend_frame (x := .counters _ _ _ _) rfl specWait (atIssue s cu).quarters
    exact ⟨hf, hs⟩

/-- R166: what yield, and nap 0, leave. -/
theorem yieldBody_frame (spec : OpSpec) :
    ∃ t, keepReplay spec (ctxOf spec f s cu) (atIssue s cu) (yieldBody (ctxOf spec f s cu) (atIssue s cu)) = t ∧
      t = issueFrame s t ∧ getSplit t cu.w cu.k = heldBy .choice f s cu ∧ (getQuarter t (quarterOf s cu.w)).closed = true := by
  have hq : quarterOf (atIssue s cu) cu.w = quarterOf s cu.w := by
    unfold quarterOf atIssue; rw [getWarp_startIssue_same]; rfl
  obtain ⟨t, ht, hf, hs, hqs⟩ := suspend_frame (f := f) (s := s) (cu := cu) (x := .choice) rfl spec
    (setQuarter (atIssue s cu) (quarterOf s cu.w) { getQuarter (atIssue s cu) (quarterOf s cu.w) with closed := true }).quarters
  refine ⟨t, ?_, hf, hs, ?_⟩
  · rw [yieldBody, ctxOf_w, hq]; exact ht
  · rw [getQuarter, hqs]
    exact congrArg Quarter.closed (sget_sset_same _ _ _ _)

/-- R167: nap. -/
theorem nap_holds (h : issues specNap f s cu = true) :
    ∃ t, exec (.nap f) s = .next t ∧ t = issueFrame s t ∧
      getSplit t cu.w cu.k = heldBy (if f.md = 0 then .choice else .nap (issueTime s cu.w cu.k + f.md.toNat)) f s cu := by
  refine ⟨_, issue_of_issues specNap f s _ cu h, ?_⟩
  rw [napBody, ctxOf_f]
  split
  · obtain ⟨t, rfl, hf, hs, -⟩ := yieldBody_frame (f := f) (s := s) (cu := cu) specNap
    exact ⟨hf, hs⟩
  · obtain ⟨t, rfl, hf, hs, -⟩ := suspend_frame (f := f) (s := s) (cu := cu) (x := .nap (issueTime s cu.w cu.k + f.md.toNat)) rfl specNap
      (atIssue s cu).quarters
    exact ⟨hf, hs⟩

/-- R165 to R167: the split goes on, or is held with its wait. -/
theorem waitYieldNap : Claims.WaitYieldNap := by
  refine fun f s cu => ⟨wait_holds, fun h => ?_, nap_holds⟩
  obtain ⟨t, ht, hf, hs, hq⟩ := yieldBody_frame (f := f) (s := s) (cu := cu) specYield
  exact ⟨t, (issue_of_issues specYield f s _ cu h).trans (congrArg _ ht), hf, hs, hq⟩

/-- Settles O13: nop and prf advance, and a wait of the other words is all that their split takes on. -/
theorem nopAndWaits : Obligations.NopAndWaits := ⟨fun _ _ _ => ⟨nop_goes, prf_goes⟩, waitYieldNap⟩

end Sys2Proof.Machine
end

section
/-!
R45, R60, R64, R66, R425, R429, R433: a trap that enters the supervisor or the emulation handler, and one that contains its block.
-/
namespace Sys2Proof.Machine
open Claims

/-! ### The parts of a trap -/

/-- An address is its upper byte and its lower 56 bits (R174). -/
theorem extractLsb'_append_truncate (a : Word) : (a.extractLsb' 56 8 ++ a.truncate 56 : BitVec 64) = a := by
  rw [BitVec.truncate_eq_setWidth, show a.setWidth 56 = a.extractLsb' 0 56 from BitVec.eq_of_toNat_eq (by simp)]
  exact (BitVec.extractLsb'_append_extractLsb'_eq_extractLsb' (start₁ := 0) (len₁ := 56) rfl).trans BitVec.extractLsb'_eq_self

/-- R432: bits 15:0 of tcause and scause hold the cause and the subcode. -/
theorem causeWord_low (path : Nat) (r : TrapReq) : (causeWord path r).toNat % 2 ^ 16 = r.sub % 256 * 256 + r.cause % 256 := by
  rw [causeWord, BitVec.toNat_ofNat]
  omega

/-- R432: the values of a trap, lane by lane. -/
theorem sget_trapVals (r : TrapReq) (w : Nat) (m : List (Nat × Word)) {l : Nat} (hl : l < 32) :
    sget 0#64 (ssetAll 0#64 m ((List.range 32).map (fun l => (lkey w l, if r.lanes.getLsbD l then r.val l else 0#64)))) (lkey w l) =
      if r.lanes.getLsbD l then r.val l else 0 := by
  refine sget_ssetAll_mem 0#64 _ m (lkey w l, if r.lanes.getLsbD l then r.val l else 0#64) (List.mem_map.2 ⟨l, List.mem_range.2 hl, rfl⟩) ?_
  rw [List.map_map]
  exact List.Nodup.map_on (fun a ha b hb h => (lkey_inj (List.mem_range.1 ha) (List.mem_range.1 hb) h).2) List.nodup_range

/-! ### Entering a handler of the supervisor -/

theorem getWarp_writeSupTrap_ne (s : State) (w : Nat) (sp : Split) (pc word : Word) (path : Nat) (r : TrapReq) {v : Nat} (h : v ≠ w) :
    getWarp (writeSupTrap s w sp pc word path r) v = getWarp s v := by
  unfold getWarp writeSupTrap
  exact sget_sset_ne _ _ _ _ _ h

/-- R429, R432, R438: the registers of the warp that a trap to the supervisor writes. -/
theorem getWarp_writeSupTrap (s : State) (w : Nat) (sp : Split) (pc word : Word) (path : Nat) (r : TrapReq) :
    getWarp (writeSupTrap s w sp pc word path r) w = { getWarp s w with
      scause := causeWord path r, spc := pc, smask := r.lanes.zeroExtend 64, sinfo := word,
      sstat := BitVec.ofNat 64 ((if sp.sup then 1 else 0) + (if warpUser s w then 2 else 0)) } := by
  simp only [getWarp, writeSupTrap, setWarp, sget_sset_same]

/-- R432: the values of the trap, lane by lane. -/
theorem writeSupTrap_val (s : State) (w : Nat) (sp : Split) (pc word : Word) (path : Nat) (r : TrapReq) {l : Nat} (hl : l < 32) :
    sget 0#64 (writeSupTrap s w sp pc word path r).sval (lkey w l) = if r.lanes.getLsbD l then r.val l else 0 := by
  simp only [writeSupTrap, sget_trapVals r w _ hl]

theorem getSplit_writeSupTrap (s : State) (w : Nat) (sp : Split) (pc word : Word) (path : Nat) (r : TrapReq) (k : Nat) :
    getSplit (writeSupTrap s w sp pc word path r) w k = getSplit s w k := by
  unfold getSplit; rw [getWarp_writeSupTrap]

/-- The state after a trap of a split has entered a handler of the supervisor at `addr` (R429). -/
def enteredSup (s : State) (cu : Cur) (t path : Nat) (header : Bool) (word : Word) (r : TrapReq) (addr : Word) : State :=
  let sp := getSplit s cu.w cu.k
  enterHandler (writeSupTrap (landLanes s cu.w sp.mask) cu.w sp (vpc sp) word path r) cu.w cu.k t sp (handlerOf sp true header word r) addr

section
variable (s : State) (cu : Cur) (t path : Nat) (header : Bool) (word : Word) (r : TrapReq) (addr : Word)

theorem getWarp_enteredSup_ne {w : Nat} (h : w ≠ cu.w) : getWarp (enteredSup s cu t path header word r addr) w = getWarp s w := by
  unfold enteredSup enterHandler
  rw [getWarp_setSplit_ne _ _ _ _ _ h, getWarp_writeSupTrap_ne _ _ _ _ _ _ _ h]
  rfl

theorem getWarp_enteredSup : getWarp (enteredSup s cu t path header word r addr) cu.w =
    { getWarp (enteredSup s cu t path header word r addr) cu.w with
      scause := causeWord path r, spc := vpc (getSplit s cu.w cu.k), smask := r.lanes.zeroExtend 64 } := by
  unfold enteredSup enterHandler
  rw [getWarp_setSplit_same, getWarp_writeSupTrap]

theorem getSplit_enteredSup : getSplit (enteredSup s cu t path header word r addr) cu.w cu.k =
    { sendTo (getSplit s cu.w cu.k) (addr.truncate 56) (t + 4) with
      sup := true, hs := handlerOf (getSplit s cu.w cu.k) true header word r :: (getSplit s cu.w cu.k).hs, far := addr.extractLsb' 56 8 } := by
  unfold enteredSup enterHandler
  rw [getSplit_setSplit_same]
  rfl

theorem getSplit_enteredSup_ne {k : Nat} (h : k ≠ cu.k) : getSplit (enteredSup s cu t path header word r addr) cu.w k = getSplit s cu.w k := by
  unfold enteredSup enterHandler
  rw [getSplit_setSplit_ne _ _ _ _ _ h, getSplit_writeSupTrap]
  rfl

/-- R425, R429, R432: what entering the supervisor's or the emulation handler leaves. -/
theorem enteredSup_enters : Enters true addr r s cu (enteredSup s cu t path header word r addr) where
  pc := by rw [getSplit_enteredSup]; exact extractLsb'_append_truncate addr
  mode := by rw [getSplit_enteredSup]
  mask := by rw [getSplit_enteredSup]; rfl
  resume := by rw [getSplit_enteredSup]; exact ⟨_, rfl, rfl, rfl, rfl, rfl, rfl, rfl, rfl⟩
  cause := by rw [getWarp_enteredSup]; exact causeWord_low path r
  address := by rw [getWarp_enteredSup]; rfl
  lanes := by rw [getWarp_enteredSup]; rfl
  values := fun l hl => by rw [if_pos rfl, enteredSup, enterHandler_sval]; exact writeSupTrap_val _ _ _ _ _ _ r hl
  regs := fun w x l _ _ => by simp [enteredSup, rdReg]
  flags := by simp [enteredSup]
  memory := by simp [enteredSup]
  others := fun w hw => getWarp_enteredSup_ne s cu t path header word r addr hw
  rest := fun k hk => getSplit_enteredSup_ne s cu t path header word r addr hk

end

/-! ### Which handler a trap enters -/

/-- Causes that R427 gives to no user handler, and that are not poison. -/
def supCauses : List Nat :=
  [causeIllegalOpcode, causeIllegalOperand, causeBadClause, causeExtEmulate, causePrivileged, causeVersionFull, causeWatchdog]

theorem userCause_of_sup (wp : Warp) {r : TrapReq} (h : r.cause ∈ supCauses) : userCause wp r = false := by
  have hn : ∀ n ∈ supCauses, n ≠ causeStallShort ∧ n ≠ causeBreak ∧ n ≠ causeEcall ∧ n ≠ causePoison ∧ n ≠ causeRace ∧
      ¬(causeFpInvalid ≤ n ∧ n ≤ 0x24) := by decide
  obtain ⟨h1, h2, h3, h4, h5, h6⟩ := hn _ h
  unfold userCause
  simp only [h1, h2, h3, h4, h5, decide_false, Bool.false_and, Bool.false_or, ← Bool.decide_and, h6, Bool.and_false]

/-- R427: in user mode such a trap goes to the supervisor, but for an extension's. -/
theorem trapDest_of_sup {s : State} {w : Nat} {sp : Split} {r : TrapReq} (hs : sp.sup = false) (h : r.cause ∈ supCauses) :
    trapDest s w sp r = if r.cause = causeExtEmulate then .emulation else .supervisor := by
  have hp : r.cause ≠ causePoison := fun hp => absurd (hp ▸ h) (by decide)
  unfold trapDest
  rw [if_neg fun hc => hp hc.1]
  simp [hs, userCause_of_sup _ h]

/-- R427, R429: a trap of a split in user mode that goes to the supervisor's or the emulation handler. -/
theorem takeTrap_eq (s : State) (cu : Cur) (t path : Nat) (header : Bool) (word : Word) {r : TrapReq}
    (hs : (getSplit s cu.w cu.k).sup = false) (h : r.cause ∈ supCauses) :
    takeTrap s cu.w cu.k t path header word r =
      enteredSup s cu t path header word r (if r.cause = causeExtEmulate then emuVec s cu else supVec s cu) := by
  have hd := trapDest_of_sup (s := landLanes s cu.w (getSplit s cu.w cu.k).mask) (w := cu.w) hs h
  unfold takeTrap
  by_cases he : r.cause = causeExtEmulate
  · rw [if_pos he] at hd ⊢
    simp only [hd]
    rfl
  · rw [if_neg he] at hd ⊢
    simp only [hd]
    rfl

theorem takeTrap_enters (s : State) (cu : Cur) (t path : Nat) (header : Bool) (word : Word) {r : TrapReq}
    (hs : (getSplit s cu.w cu.k).sup = false) (h : r.cause ∈ supCauses) :
    Enters true (if r.cause = causeExtEmulate then emuVec s cu else supVec s cu) r s cu (takeTrap s cu.w cu.k t path header word r) := by
  rw [takeTrap_eq s cu t path header word hs h]
  exact enteredSup_enters _ _ _ _ _ _ _ _

/-- What a handler's entry keeps is told of the state before the issue as of the state at it. -/
theorem enters_of_atIssue {sup : Bool} {vec : Word} {r : TrapReq} {s : State} {cu : Cur} {t : State} (h : Enters sup vec r (atIssue s cu) cu t) :
    Enters sup vec r s cu t := by
  have hsp : ∀ k, getSplit (atIssue s cu) cu.w k = getSplit s cu.w k := fun k => getSplit_startIssue s cu _ cu.w k
  obtain ⟨hpc, hmode, hmask, hres, hcause, haddr, hlanes, hvals, hregs, hfl, hmem, hoth, hrest⟩ := h
  rw [hsp] at hmask hres haddr
  exact ⟨hpc, hmode, hmask, hres, hcause, haddr, hlanes, hvals,
    fun w x l hl hn => hregs w x l hl fun hc => hn ⟨hc.1, hc.2.1, fun hx => absurd hx (by decide)⟩, hfl, hmem,
    fun w hw => (hoth w hw).trans (getWarp_startIssue_ne s cu _ w hw), fun k hk => (hrest k hk).trans (hsp k)⟩

/-- R427, R429: the same trap of a word at its issue. -/
theorem raise_enters (spec : OpSpec) (f : Fields) (s : State) (cu : Cur) {r : TrapReq} (hs : (getSplit s cu.w cu.k).sup = false)
    (h : r.cause ∈ supCauses) :
    Enters true (if r.cause = causeExtEmulate then emuVec s cu else supVec s cu) r s cu (raise (ctxOf spec f s cu) r (atIssue s cu)) := by
  have hs' : (getSplit (atIssue s cu) cu.w cu.k).sup = false := by rw [show getSplit (atIssue s cu) cu.w cu.k = _ from getSplit_startIssue s cu _ cu.w cu.k, hs]
  exact enters_of_atIssue (takeTrap_enters (atIssue s cu) cu _ _ _ _ hs' h)

/-! ### Words that trap before they act (R60) -/

/-- R431: a word on path 0 traps as any other does. -/
theorem pathRule_of_path {c : Ctx} (h : c.path = 0) (s0 s' : State) : pathRule c s0 s' = s' := by
  unfold pathRule
  rw [if_neg fun hc => by rw [h] at hc; exact absurd hc.1 (by decide)]

/-- R60, R64, R66: a word that its opcode makes trap. -/
theorem opcodeTrap_eq {s : State} {cu : Cur} (hc : s.cur = some cu) (hp : pathOf s cu.w (issueTime s cu.w cu.k) = 0) (spec : OpSpec)
    (cause sub : Nat) (f : Fields) : opcodeTrap spec cause sub f s =
      .next (raise (ctxOf spec f s cu) (trapAll cause sub (getSplit s cu.w cu.k).mask) (atIssue s cu)) := by
  unfold opcodeTrap
  simp only [hc]
  rw [pathRule_of_path hp]
  rfl

/-- The first of the checks of class, privilege and fields that a word fails, with its cause and subcode (R60 steps 4 to 6). -/
def FailsGate (spec : OpSpec) (f : Fields) (s : State) (cu : Cur) (cause sub : Nat) : Prop :=
  let env := envOf (atIssue s cu) cu.w (getSplit s cu.w cu.k) (spec.reads f) f
  (clsAllowed spec.cls (getSplit s cu.w cu.k).cls = false ∧ cause = causeIllegalOpcode ∧ sub = 0x02) ∨
  (clsAllowed spec.cls (getSplit s cu.w cu.k).cls = true ∧ cause = causePrivileged ∧ spec.priv env = some sub) ∨
  (clsAllowed spec.cls (getSplit s cu.w cu.k).cls = true ∧ spec.priv env = none ∧ cause = causeIllegalOperand ∧ spec.check env = some sub)

theorem gate_of_fails {spec : OpSpec} {f : Fields} {s : State} {cu : Cur} {cause sub : Nat} (h : FailsGate spec f s cu cause sub) :
    gate spec (ctxOf spec f s cu) (atIssue s cu) = .trap (trapAll cause sub (getSplit s cu.w cu.k).mask) := by
  unfold gate
  rcases h with ⟨hcl, rfl, rfl⟩ | ⟨hcl, rfl, hp⟩ | ⟨hcl, hp, rfl, hk⟩
  · simp [hcl]
  · simp [hcl, hp]
  · simp [hcl, hp, hk]

theorem FailsGate.cause_cases {spec : OpSpec} {f : Fields} {s : State} {cu : Cur} {cause sub : Nat} (h : FailsGate spec f s cu cause sub) :
    cause ∈ supCauses ∧ cause ≠ causeExtEmulate := by
  rcases h with ⟨-, rfl, -⟩ | ⟨-, rfl, -⟩ | ⟨-, -, rfl, -⟩ <;> decide

/-- R60, R425: a word in user mode that fails a check of its issue, on path 0 and with no operands kept from a stall, enters the supervisor's
handler. -/
theorem issue_enters {spec : OpSpec} {f : Fields} {s : State} {cu : Cur} {cause sub : Nat} (body : Ctx → State → State) (hc : s.cur = some cu)
    (hs : (getSplit s cu.w cu.k).sup = false) (hh : acquireHolds s spec.cls (getSplit s cu.w cu.k) = false) (hp : (ctxOf spec f s cu).path = 0)
    (hst : (getSplit s cu.w cu.k).stalled = none) (hl : (getSplit s cu.w cu.k).latch = []) (hg : FailsGate spec f s cu cause sub) :
    ∃ t, issue spec f s body = .next t ∧ Enters true (supVec s cu) (trapAll cause sub (getSplit s cu.w cu.k).mask) s cu t := by
  obtain ⟨hin, hne⟩ := hg.cause_cases
  have he := raise_enters spec f s cu (r := trapAll cause sub (getSplit s cu.w cu.k).mask) hs hin
  rw [if_neg (show (trapAll cause sub _).cause ≠ causeExtEmulate from hne)] at he
  refine ⟨_, ?_, he⟩
  rw [issue_trap spec f s body cu _ hc (by simp [hst, hl]) hh (gate_of_fails hg), pathRule_of_path hp]
  rfl

/-! ### Containment (R433, R447) -/

/-- A read of a store whose values have all been changed alike. -/
theorem sget_map_snd {β : Type} (d : β) (g : Nat → β → β) (m : List (Nat × β)) (k : Nat) (hd : g k d = d) :
    sget d (m.map (fun e => (e.1, g e.1 e.2))) k = g k (sget d m k) := by
  induction m with
  | nil => exact hd.symm
  | cons e r ih =>
    simp only [List.map_cons, sget]
    split
    next h => rw [h]
    next =>
      split
      · exact hd.symm
      · exact ih

/-- R446: a warp of a block that is stopped has no split left. -/
theorem splits_of_stopped (b : Nat) (m : List (Nat × Warp)) {w : Nat} (hw : blkOf w = b) :
    (sget Warp.none (m.map (fun e => if blkOf e.1 = b then (e.1, { e.2 with splits := [] }) else e)) w).splits = [] := by
  have hm : m.map (fun e => if blkOf e.1 = b then (e.1, { e.2 with splits := [] }) else e) =
      m.map (fun e => (e.1, (if blkOf e.1 = b then { e.2 with splits := [] } else e.2 : Warp))) :=
    List.map_congr_left fun e _ => by split <;> rfl
  rw [hm, sget_map_snd Warp.none (fun v x => if blkOf v = b then { x with splits := [] } else x) m w (by rw [if_pos hw]; rfl), if_pos hw]

/-- R433, R447: a block that has not been contained before is killed, with the source and the cause of the containment. -/
theorem containBlock_contains (s : State) {b w : Nat} (hw : blkOf w = b) (cause : Nat) (va : Word) (h : (getBlock s b).csource = 0) :
    getBlock (containBlock s b 5 cause va) b = { getBlock s b with csource := 5, ccause := cause, killed := true } ∧
      (getWarp (containBlock s b 5 cause va) w).splits = [] := by
  unfold containBlock
  rw [if_neg (not_not.2 h)]
  constructor
  · simp only [killBlock, dropProv, stopBlock, getBlock, setBlock, vesper, sget_sset_same]
    rfl
  · exact splits_of_stopped b _ hw

/-- R433: a trap in supervisor mode, but for poison of lost data, contains the block. -/
theorem raise_contains (spec : OpSpec) (f : Fields) (s : State) (cu : Cur) (r : TrapReq) (hs : (getSplit s cu.w cu.k).sup = true)
    (hp : r.cause ≠ causePoison) (hb : (getBlock s (blkOf cu.w)).csource = 0) :
    getBlock (raise (ctxOf spec f s cu) r (atIssue s cu)) (blkOf cu.w) =
        { getBlock s (blkOf cu.w) with csource := 5, ccause := r.cause, killed := true } ∧
      (getWarp (raise (ctxOf spec f s cu) r (atIssue s cu)) cu.w).splits = [] := by
  have hsp : getSplit (atIssue s cu) cu.w cu.k = getSplit s cu.w cu.k := getSplit_startIssue s cu _ cu.w cu.k
  have hd : trapDest (landLanes (atIssue s cu) cu.w (getSplit s cu.w cu.k).mask) cu.w (getSplit s cu.w cu.k) r = .contain 5 r.cause := by
    unfold trapDest
    rw [if_neg fun h => hp h.1, if_pos hs]
  unfold raise takeTrap
  simp only [ctxOf_w, ctxOf_k, hsp, hd]
  exact containBlock_contains _ rfl r.cause _ hb

/-- Settles O16: the traps of the opcode and of the gate, to the handler that their cause and the split's mode choose. -/
theorem wordsThatTrap : Obligations.WordsThatTrap := by
  refine ⟨fun op f s cu hc hp hs => ⟨?_, ?_⟩, fun op f s cu hc hp hs hb => ?_, ?_⟩
  · exact ⟨_, opcodeTrap_eq hc hp _ _ _ f, raise_enters _ f s cu (r := trapAll causeIllegalOpcode 0x01 _) hs (by decide : causeIllegalOpcode ∈ supCauses)⟩
  · exact ⟨_, opcodeTrap_eq hc hp _ _ _ f, raise_enters _ f s cu (r := trapAll causeExtEmulate 0x02 _) hs (by decide : causeExtEmulate ∈ supCauses)⟩
  · obtain ⟨hbl, hw⟩ := raise_contains (specAny op) f s cu (trapAll causeIllegalOpcode 0x01 (getSplit s cu.w cu.k).mask) hs
      (show causeIllegalOpcode ≠ causePoison by decide) hb
    exact ⟨_, opcodeTrap_eq hc hp _ _ _ f, by rw [hbl], by rw [hbl], by rw [hbl]; rfl, hw⟩
  · intro f i spec s cu cause sub hi hc hs hh hp hst hl hmx env hg
    simp only [List.mem_cons, Prod.mk.injEq, List.not_mem_nil, or_false] at hi
    rcases hi with ⟨rfl, rfl⟩ | ⟨rfl, rfl⟩ | ⟨rfl, rfl⟩ | ⟨rfl, rfl⟩ | ⟨rfl, rfl⟩ | ⟨rfl, rfl⟩ | ⟨rfl, rfl⟩ | ⟨rfl, rfl⟩ | ⟨rfl, rfl⟩ | ⟨rfl, rfl⟩
    case inr.inr.inl => exact issue_enters (spec := { specAtom with cnt := atomCnt f }) _ hc hs hh hp hst hl hg
    case inr.inr.inr.inr.inl =>
      rw [exec_mmx, execMmx, mxExec]
      simp only [hc, hmx rfl, Bool.false_eq_true, if_false]
      exact issue_enters _ hc hs hh hp hst hl hg
    all_goals exact issue_enters _ hc hs hh hp hst hl hg

end Sys2Proof.Machine
end

section
/-!
R174 to R193, R204, R220, R315 to R323, R448: what memory does behind the threads, its caches and its records, leaves warps, registers and
operations as they are.
-/
namespace Sys2Proof.Machine
open Claims

/-! ### What memory's work leaves -/

/-- The parts of a state that the work of memory leaves. -/
def threadsOf (s : State) := (s.warps, s.cores, s.ops, s.nextOp, s.vregs, s.sregs, s.fsr, s.dies)

/-- The core that a block runs on, with its die. -/
def placeOf (s : State) (b : Nat) := ((getBlock s b).die, (getBlock s b).core)

/-- Memory has worked behind the threads: their warps, registers and operations are as they were, and each block runs where it ran. -/
structure Behind (s t : State) : Prop where
  same : threadsOf t = threadsOf s
  place : ∀ b, placeOf t b = placeOf s b

namespace Behind

theorem refl (s : State) : Behind s s := ⟨rfl, fun _ => rfl⟩

variable {s t u : State}

theorem trans (h : Behind s t) (h' : Behind t u) : Behind s u := ⟨h'.same.trans h.same, fun b => (h'.place b).trans (h.place b)⟩

theorem warps (h : Behind s t) : t.warps = s.warps := congrArg (·.1) h.same
theorem cores (h : Behind s t) : t.cores = s.cores := congrArg (·.2.1) h.same
theorem ops (h : Behind s t) : t.ops = s.ops := congrArg (·.2.2.1) h.same
theorem nextOp (h : Behind s t) : t.nextOp = s.nextOp := congrArg (·.2.2.2.1) h.same
theorem vregs (h : Behind s t) : t.vregs = s.vregs := congrArg (·.2.2.2.2.1) h.same
theorem sregs (h : Behind s t) : t.sregs = s.sregs := congrArg (·.2.2.2.2.2.1) h.same
theorem fsr (h : Behind s t) : t.fsr = s.fsr := congrArg (·.2.2.2.2.2.2.1) h.same
theorem dies (h : Behind s t) : t.dies = s.dies := congrArg (·.2.2.2.2.2.2.2) h.same
theorem getWarp (h : Behind s t) (w : Nat) : getWarp t w = getWarp s w := by unfold Machine.getWarp; rw [h.warps]
theorem getSplit (h : Behind s t) (w k : Nat) : getSplit t w k = getSplit s w k := by unfold Machine.getSplit; rw [h.getWarp]
theorem getCore (h : Behind s t) (n : Nat) : getCore t n = getCore s n := by unfold Machine.getCore; rw [h.cores]
theorem findOp (h : Behind s t) (id : Nat) : findOp t id = findOp s id := by unfold Machine.findOp; rw [h.ops]

theorem ite {p : Prop} [Decidable p] (h : Behind s t) (h' : Behind s u) : Behind s (if p then t else u) := by
  split
  · exact h
  · exact h'

theorem ite_fst {β : Type} {p : Prop} [Decidable p] {a b : State × β} (h : Behind s a.1) (h' : Behind s b.1) : Behind s (if p then a else b).1 := by
  split
  · exact h
  · exact h'

theorem foldl {α : Type} {f : State → α → State} (hf : ∀ s a, Behind s (f s a)) (l : List α) (s : State) : Behind s (l.foldl f s) := by
  induction l generalizing s with
  | nil => exact refl s
  | cons a r ih => exact (hf s a).trans (ih (f s a))

/-- A fold that also carries a value. -/
theorem foldl_fst {α β : Type} {f : State × β → α → State × β} (hf : ∀ p a, Behind p.1 (f p a).1) (l : List α) (p : State × β) :
    Behind p.1 (l.foldl f p).1 := by
  induction l generalizing p with
  | nil => exact refl p.1
  | cons a r ih => exact (hf p a).trans (ih (f p a))

end Behind

section
variable (s : State)

theorem behind_setBlock (b : Nat) {x : Block} (h : (x.die, x.core) = placeOf s b) : Behind s (setBlock s b x) where
  same := rfl
  place c := by
    by_cases hc : c = b
    · rw [hc, placeOf, getBlock, setBlock, sget_sset_same, h]
    · rw [placeOf, getBlock, setBlock, sget_sset_ne _ _ _ _ _ hc]; rfl

theorem behind_wrMem (k n v : Nat) : Behind s (wrMem s k n v) := ⟨rfl, fun _ => rfl⟩

theorem behind_swc (x : List (Nat × Option (Byte × Bool))) : Behind s { s with swc := x } := ⟨rfl, fun _ => rfl⟩

theorem behind_vesper (log typ source d0 d1 d2 : Nat) : Behind s (vesper s log typ source d0 d1 d2) := ⟨rfl, fun _ => rfl⟩

/-! ### Records of races and releases (R211, R218 to R221) -/

theorem behind_copyMarks (src dst : Nat → Nat) (ks : List Nat) : Behind s (copyMarks s src dst ks) :=
  .ite (.refl s) ⟨rfl, fun _ => rfl⟩

theorem behind_seeMarks (w lane : Nat) (ms : List Mark) : Behind s (seeMarks s w lane ms) := by
  unfold seeMarks
  split
  · exact .refl s
  · exact ⟨rfl, fun _ => rfl⟩

theorem behind_acquireMark (b scope : Nat) (m : Mark) : Behind s (acquireMark s b scope m) := by
  unfold acquireMark
  refine .ite (.refl s) (.foldl (fun t e => ?_) _ s)
  dsimp only
  refine .ite (.refl t) (.ite (.refl t) (.ite ?_ ?_))
  · exact behind_setBlock t b rfl
  · exact ⟨rfl, fun _ => rfl⟩

theorem behind_acquireAll (b scope : Nat) (ms : List Mark) : Behind s (acquireAll s b scope ms) :=
  .foldl (fun t m => behind_acquireMark t b scope m) ms s

theorem behind_performRelease (b scope : Nat) : Behind s (performRelease s b scope).1 := behind_setBlock s b rfl

theorem behind_countRaces (b n : Nat) : Behind s (countRaces s b n) := .ite (.refl s) (behind_setBlock s b rfl)

theorem behind_noteAccess (b key : Nat) (k : AKind) : Behind s (noteAccess s b key k) := by
  unfold noteAccess
  cases k <;> exact ⟨rfl, fun _ => rfl⟩

theorem behind_raceRecord (b key : Nat) (l : Leaf) (k : AKind) : Behind s (raceRecord s b key l k) :=
  .ite (.refl s) ((behind_countRaces s b _).trans (behind_noteAccess _ b key k))

/-! ### Version regions and their frames (R315 to R323) -/

theorem behind_syncRegion (r : Nat) : Behind s (syncRegion s r) := by
  obtain ⟨x, y, h⟩ := syncRegion_eq s r
  rw [h]
  exact ⟨rfl, fun _ => rfl⟩

theorem behind_syncRegions (key n : Nat) : Behind s (syncRegions s key n) :=
  .ite (.foldl (fun t _ => behind_syncRegion t _) _ s) (.refl s)

theorem behind_syncWords (ws : List Nat) : Behind s (syncWords s ws) := .foldl (fun t k => behind_syncRegions t k 8) ws s

theorem behind_writeCells (cs : List Host.Cell) : Behind s (writeCells s cs) := by
  unfold writeCells
  refine Behind.trans ?_ (behind_syncWords _ _)
  exact ⟨rfl, fun _ => rfl⟩

theorem behind_verFill (vdb off : Nat) (whole : Bool) : Behind s (verFill s vdb off whole) := by
  unfold verFill
  refine .ite (.refl s) (.trans ?_ (behind_wrMem _ _ _ _))
  exact .ite (.refl s) ⟨rfl, fun _ => rfl⟩

theorem behind_cleanFrame (f : Nat) : Behind s (cleanFrame s f) := ⟨rfl, fun _ => rfl⟩

theorem behind_pushDead (v : Nat) : Behind s (pushDead s v).1 := by
  unfold pushDead
  refine Behind.foldl_fst (fun p j => ?_) _ (s, v)
  dsimp only
  split
  · exact (behind_cleanFrame p.1 _).trans ((behind_wrMem _ _ _ _).trans (behind_wrMem _ _ _ _))
  · exact .refl p.1

theorem behind_allocFrame {vdb : Nat} {t : State} (h : allocFrame s vdb = .ok t) : Behind s t := by
  have hplace : ∀ u src dst v, Behind u (putVdb (moveRecords u src dst) vdb v) := fun u src dst v => ⟨rfl, fun _ => rfl⟩
  obtain ⟨p, hpd⟩ : ∃ p, pushDead s (rdVdb s vdb) = p := ⟨_, rfl⟩
  have hp : Behind s p.1 := hpd ▸ behind_pushDead s (rdVdb s vdb)
  simp only [allocFrame, hpd] at h
  split at h
  · cases h
  split at h
  · cases h
    exact hp.trans ((behind_cleanFrame _ _).trans (hplace _ _ _ _))
  split at h
  · cases h
  split at h
  · cases h
  · cases h
    exact hp.trans ((behind_wrMem _ _ _ _).trans (hplace _ _ _ _))

theorem behind_redirect {key : Nat} {r : State × Nat} (h : redirect s key = some r) : Behind s r.1 := by
  obtain ⟨home, hh⟩ : ∃ o, frameHome s (key / 2 ^ 16) = o := ⟨_, rfl⟩
  obtain ⟨working, hc⟩ : ∃ c : Nat → Bool, ∀ vdb, vdbWv (rdVdb s vdb) = c vdb := ⟨_, fun _ => rfl⟩
  simp only [redirect, hh, hc] at h
  split at h
  · cases h
  split at h
  · cases h
  next vdb _ _ s1 hs =>
    cases h
    refine Behind.trans ?_ (behind_verFill s1 _ _ _)
    split at hs
    · cases hs; exact .refl s
    · exact behind_allocFrame s hs

/-! ### Caches (R187 to R193, R204, R448) -/

theorem behind_commitBlock (b : Nat) : Behind s (commitBlock s b) := by
  unfold commitBlock
  dsimp only
  refine Behind.trans (Behind.trans ?_ (behind_syncWords _ _)) (behind_setBlock _ b rfl)
  exact ⟨rfl, fun _ => rfl⟩

theorem behind_foreignCommit (who key n : Nat) : Behind s (foreignCommit s who key n) :=
  .ite (.refl s) (.foldl behind_commitBlock _ s)

theorem behind_wbFrozen (die : Nat) (e : Nat × Byte) : Behind s (wbFrozen die s e) := by
  unfold wbFrozen
  split
  · exact .refl s
  next s1 k h =>
    refine (behind_redirect s h).trans (Behind.trans ?_ (behind_writeCells _ _))
    exact ⟨rfl, fun _ => rfl⟩

theorem behind_wbL1 (p : Nat → Bool) (core : Nat) : Behind s (wbL1 p s core) := by
  unfold wbL1
  exact (behind_copyMarks s _ _ _).trans ⟨rfl, fun _ => rfl⟩

theorem behind_wbDc (p : Nat → Bool) (die : Nat) : Behind s (wbDc p s die) := by
  unfold wbDc
  refine Behind.trans ?_ (Behind.foldl (fun t e => behind_wbFrozen t die e) _ _)
  refine Behind.trans ?_ (behind_writeCells _ _)
  refine Behind.trans ?_ (Behind.foldl (fun t e => behind_foreignCommit t _ _ _) _ _)
  refine Behind.trans ?_ (Behind.foldl (fun t k => ?_) _ _)
  · refine Behind.trans ?_ (Behind.foldl (fun t k => ?_) _ _)
    · exact Behind.trans (behind_copyMarks s _ _ _) (behind_swc _ _)
    · exact ⟨rfl, fun _ => rfl⟩
  · split
    · exact behind_vesper _ _ _ _ _ _ _
    · exact .refl t

theorem behind_dropCache (p : Nat → Bool) (cache : Nat) : Behind s (dropCache p s cache) := ⟨rfl, fun _ => rfl⟩

theorem behind_wbScope (die scope : Nat) (p : Nat → Bool) : Behind s (wbScope s die scope p) :=
  .ite (.refl s) ((Behind.foldl (fun t c => behind_wbL1 t p c) _ s).trans (.foldl (fun t d => behind_wbDc t p d) _ _))

theorem behind_invScope (die scope : Nat) (p : Nat → Bool) : Behind s (invScope s die scope p) :=
  .ite (.refl s) ((behind_wbScope s die scope p).trans ((Behind.foldl (fun t _ => behind_dropCache t p _) _ _).trans
    (.foldl (fun t _ => behind_dropCache t p _) _ _)))

theorem behind_acquireNow (w scope : Nat) : Behind s (acquireNow s w scope) := behind_invScope s _ _ _

theorem behind_evictLine (die line : Nat) : Behind s (evictLine s die line) := by
  unfold evictLine
  refine Behind.trans ?_ (behind_dropCache _ _ _)
  refine Behind.trans ?_ (behind_wbDc _ _ _)
  exact Behind.foldl behind_commitBlock _ s

theorem behind_dcTouch (die cls pol key : Nat) : Behind s (dcTouch s die cls pol key) := by
  unfold dcTouch
  dsimp only
  refine .ite (.refl s) (.ite ⟨rfl, fun _ => rfl⟩ ?_)
  split
  · refine Behind.trans ?_ (behind_evictLine _ _ _)
    exact ⟨rfl, fun _ => rfl⟩
  · exact ⟨rfl, fun _ => rfl⟩

theorem behind_evictStale (a : Agent) (key n : Nat) : Behind s (evictStale s a key n) := by
  have hd : ∀ t : State, ∀ c, Behind t (dropClean t c key) := fun t c => ⟨rfl, fun _ => rfl⟩
  unfold evictStale
  dsimp only
  have h1 : ∀ p : Prop, [Decidable p] → Behind s (if p then dropClean s (l1Of a.core) key else s) := fun p _ => .ite (hd s _) (.refl s)
  exact .ite ((h1 _).trans (hd _ _)) (h1 _)

theorem behind_fillSector (cache key : Nat) (below : Nat → Byte) (src : Nat → Nat) : Behind s (fillSector s cache key below src) :=
  (behind_copyMarks s _ _ _).trans ⟨rfl, fun _ => rfl⟩

theorem behind_readFor (a : Agent) (sw : Bool) (cls pol key n : Nat) : Behind s (readFor s a sw cls pol key n).1 := by
  unfold readFor
  dsimp only
  refine (behind_dcTouch s a.die cls pol key).trans ?_
  split
  · refine (behind_evictStale _ a key n).trans (.trans (.ite (.refl _) (behind_fillSector _ _ _ _ _)) (.ite (.refl _) (behind_fillSector _ _ _ _ _)))
  · exact .refl _

/-! ### One read of a lane (R195, R223, R265) -/

theorem behind_vesperRead (thread log pos i : Nat) : Behind s (vesperRead s thread log pos i).1 := by
  unfold vesperRead
  refine .ite_fst ⟨rfl, fun _ => rfl⟩ ?_
  split
  · exact .refl s
  · exact .refl s

theorem behind_regRead (thread off : Nat) : Behind s (regRead s thread off).1 := by
  unfold regRead
  have hs : Behind s s := .refl s
  exact .ite_fst hs (.ite_fst hs (.ite_fst hs (.ite_fst hs (.ite_fst hs (.ite_fst hs (.ite_fst (.ite_fst (behind_vesperRead s _ _ _ _) hs) hs))))))

theorem behind_dataPoison (b cause va key : Nat) : Behind s (dataPoison s b cause va key).1 :=
  .ite ⟨rfl, fun _ => rfl⟩ (.refl s)

theorem behind_acquireRead (o : Op) (b : Nat) (acq : Option Nat) (lane : Nat) (ms : List Mark) : Behind s (acquireRead s o b acq lane ms) := by
  unfold acquireRead
  cases acq with
  | none => exact behind_seeMarks s _ _ _
  | some sc => exact (behind_seeMarks s _ _ _).trans (behind_acquireAll _ _ _ _)

theorem behind_readAcc (o : Op) (ty : BitVec 4) (x : Acc) : Behind s (readAcc s o ty none x).1 := by
  unfold readAcc
  dsimp only
  split
  · exact .refl s
  · exact behind_regRead s _ _
  · split
    · exact behind_dataPoison s _ _ _ _
    · dsimp only
      exact Behind.trans (behind_readFor s _ _ _ _ _ _) (behind_acquireRead _ _ _ _ _ _)

theorem behind_monRead (o : Op) (ty : BitVec 4) (cc scope : Nat) (m : MonLane) : Behind s (monRead s o ty cc scope m).1 := by
  unfold monRead
  dsimp only
  split
  · exact .refl s
  · have hr := (behind_invScope s (dieOf s o.w) scope (fun k => decide (accKey s m.acc ≤ k) && decide (k < accKey s m.acc + m.acc.size))).trans
      (behind_readAcc _ o ty m.acc)
    split
    · exact hr.trans (behind_acquireNow _ _ _)
    split
    · dsimp only
      exact hr.trans (Behind.trans (behind_acquireNow _ _ _) (behind_acquireRead _ _ _ _ _ _))
    · exact hr

end

end Sys2Proof.Machine
end

section
/-!
R42 to R46, R148 to R152, R322, R451: clauses start, warps and splits are chosen, and limits force, release or trap.
-/
namespace Sys2Proof.Machine
open Claims

/-! ### CLAUSE_START (R43, R46) -/

/-- R177, R180, R188: the marks of an access are in its leaf, the TLB and the owners of PRIV pages. -/
theorem touch_eq (s : State) (a : Agent) (va : Nat) (l : Leaf) (write : Bool) :
    ∃ m tl o, touch s a va l write = { s with mem := m, tlb := tl, owners := o } := by
  have hleaf : ∃ m tl, touchLeaf s a.die a.space va l write = { s with mem := m, tlb := tl } := by
    unfold touchLeaf
    dsimp only
    generalize rdMem (tlbEnter s a.die a.space va l) l.entry 8 ||| 2 ^ l.abit ||| (if write then 2 ^ l.dbit else 0) = marked
    split
    · exact ⟨_, _, rfl⟩
    · exact ⟨_, _, rfl⟩
  obtain ⟨m, tl, hl⟩ := hleaf
  unfold touch
  dsimp only
  rw [hl]
  split
  · exact ⟨_, _, _, rfl⟩
  · exact ⟨_, _, _, rfl⟩

/-- A fetched word leaves the marks of its access. -/
theorem fetch_word_eq {s : State} {w : Nat} {sp : Split} {x : Word} {u : State} (h : fetch s w sp = .word x u) :
    ∃ m tl o, u = { s with mem := m, tlb := tl, owners := o } := by
  unfold fetch at h
  dsimp only at h
  split at h
  · cases h
  · cases h
  · split at h
    · cases h
    · cases h
      exact touch_eq _ _ _ _ _

/-- R46: a header fails with BAD_CLAUSE or with EXT_EMULATE. -/
theorem headerFault_cause {h : Word} {cause sub : Nat} (hf : headerFault h = some (cause, sub)) : cause ∈ supCauses := by
  unfold headerFault at hf
  split at hf
  · cases hf; decide
  split at hf
  · cases hf; decide
  split at hf
  · cases hf; decide
  split at hf
  · cases hf; decide
  · cases hf

section
variable {s : State} {w k : Nat}

theorem clauseStart_idle (h : atHeader s w k = false) : exec (.clauseStart w k) s = .next s := by
  rw [exec_clauseStart, execClauseStart, h]
  rfl

/-- R43, R46: the split keeps a header that passes its checks. -/
theorem clauseStart_accepts (ha : atHeader s w k = true) {h : Word} {u : State} (hf : fetch s w (getSplit s w k) = .word h u)
    (hh : headerFault h = none) :
    ∃ t, exec (.clauseStart w k) s = .next t ∧ getSplit t w k = { getSplit s w k with hdr := some h } ∧
      (∀ v j, ¬(v = w ∧ j = k) → getSplit t v j = getSplit s v j) ∧ t.vregs = s.vregs ∧ t.sregs = s.sregs := by
  have he : exec (.clauseStart w k) s = .next (setSplit u w k { getSplit s w k with hdr := some h }) := by
    rw [exec_clauseStart, execClauseStart]
    simp only [ha, hf, hh, Bool.not_true, Bool.false_eq_true, if_false]
  obtain ⟨m, tl, o, rfl⟩ := fetch_word_eq hf
  refine ⟨_, he, getSplit_setSplit_same _ _ _ _, fun v j hne => ?_, by simp, by simp⟩
  by_cases hv : v = w
  · subst hv
    rw [getSplit_setSplit_ne _ _ _ _ _ fun hj => hne ⟨rfl, hj⟩]
    rfl
  · unfold getSplit
    rw [getWarp_setSplit_ne _ _ _ _ _ hv]
    rfl

/-- R46, R49: a header that fails a check traps at its clause position. -/
theorem clauseStart_traps (ha : atHeader s w k = true) (hs : (getSplit s w k).sup = false) {h : Word} {u : State}
    (hf : fetch s w (getSplit s w k) = .word h u) {cause sub : Nat} (hh : headerFault h = some (cause, sub)) :
    ∃ t, exec (.clauseStart w k) s = .next t ∧
      Enters true (if cause = causeExtEmulate then emuVec s ⟨w, k⟩ else supVec s ⟨w, k⟩) (trapAll cause sub (getSplit s w k).mask) u ⟨w, k⟩ t := by
  have he : exec (.clauseStart w k) s = .next (takeTrap u w k (max (getCore s (coreOf s w)).cyc (getSplit s w k).next) 0 true h
      (trapAll cause sub (getSplit s w k).mask)) := by
    rw [exec_clauseStart, execClauseStart]
    simp only [ha, hf, hh, Bool.not_true, Bool.false_eq_true, if_false]
  have henters := takeTrap_enters u ⟨w, k⟩ (max (getCore s (coreOf s w)).cyc (getSplit s w k).next) 0 true h
    (r := trapAll cause sub (getSplit s w k).mask)
  obtain ⟨m, tl, o, rfl⟩ := fetch_word_eq hf
  exact ⟨_, he, henters hs (headerFault_cause hh)⟩

/-! ### WARP_CHOICE (R148, R149) -/

theorem getQuarter_setQuarter_same (s : State) (qk : Nat) (x : Quarter) : getQuarter (setQuarter s qk x) qk = x := sget_sset_same _ _ _ _

/-- A fold of updates of the warps is an update of the warps. -/
theorem foldl_warps {α : Type} (f : State → α → State) (hf : ∀ s a, ∃ x, f s a = { s with warps := x }) (l : List α) (s : State) :
    ∃ x, l.foldl f s = { s with warps := x } := by
  induction l generalizing s with
  | nil => exact ⟨s.warps, rfl⟩
  | cons a r ih =>
    obtain ⟨x, h⟩ := hf s a
    rw [List.foldl_cons, h]
    exact ih { s with warps := x }

theorem endYields_eq (s : State) (core q : Nat) : ∃ x, endYields s core q = { s with warps := x } :=
  foldl_warps _ (fun s _ => foldl_warps _ (fun s x => by split <;> exact ⟨_, rfl⟩) _ s) _ s

theorem engage_eq (s : State) (w : Nat) (e : Nat × Split) : ∃ x, engage s w e = { s with warps := x } := by
  unfold engage
  split
  · split <;> exact ⟨_, rfl⟩
  · exact ⟨_, rfl⟩

/-- What issuing for the turn's warp changes where it chooses a split. -/
theorem issueTurn_chosen {s : State} {qk w t : Nat} {a : Nat × Split} {r : List (Nat × Split)}
    (h : chooseSplits s (getQuarter s qk) w t = a :: r) :
    ∃ x p, issueTurn s qk w t = { setQuarter s qk { getQuarter s qk with passed := p } with
      warps := x, cur := some { w := w, k := a.1 }, cur2 := r.head?.map (fun e => { w := w, k := e.1 }) } := by
  unfold issueTurn
  simp only [h]
  obtain ⟨x, hx⟩ := foldl_warps (fun s e => engage s w e) (fun s e => engage_eq s w e) (a :: r) (setQuarter s qk { getQuarter s qk with
    passed := ((readySplits s w t).filter (fun e => !(a :: r).any (fun x => x.1 = e.1))).map (·.1) })
  exact ⟨x, _, by rw [hx]⟩

/-- Issuing for a turn's warp leaves the turn as it is. -/
theorem getQuarter_issueTurn (s : State) (qk w t : Nat) : ∃ p, getQuarter (issueTurn s qk w t) qk = { getQuarter s qk with passed := p } := by
  cases h : chooseSplits s (getQuarter s qk) w t with
  | nil => exact ⟨(getQuarter s qk).passed, by unfold issueTurn; simp only [h]⟩
  | cons a r =>
    obtain ⟨x, p, hx⟩ := issueTurn_chosen h
    exact ⟨p, by rw [hx]; exact sget_sset_same _ _ _ _⟩

variable {core q : Nat}

theorem exec_warpChoice_lt (hq : q < 4) (s : State) : exec (.warpChoice core q) s = .next (warpChoice core q s) := by
  rw [exec_warpChoice, execWarpChoice, Nat.mod_eq_of_lt hq]

/-- R148: no choice where a word already issues, or the quarter has issued in the cycle. -/
theorem warpChoice_busy (h : s.cur.isSome = true ∨ s.cur2.isSome = true ∨ slotUsed s (4 * core + q) (getCore s core).cyc = true) :
    warpChoice core q s = s := if_pos h

theorem not_busy (hc : s.cur = none) (hc2 : s.cur2 = none) (hu : slotUsed s (4 * core + q) (getCore s core).cyc = false) :
    ¬(s.cur.isSome = true ∨ s.cur2.isSome = true ∨ slotUsed s (4 * core + q) (getCore s core).cyc = true) := by
  simp [hc, hc2, hu]

/-- R148, R149: a turn that is not over goes on with the splits chosen. -/
theorem warpChoice_turn (hb : ¬(s.cur.isSome = true ∨ s.cur2.isSome = true ∨ slotUsed s (4 * core + q) (getCore s core).cyc = true))
    (ht : (getQuarter s (4 * core + q)).turn = some w) (ho : turnOver s (getQuarter s (4 * core + q)) w (getCore s core).cyc = false) :
    warpChoice core q s = issueTurn s (4 * core + q) w (getCore s core).cyc := by
  unfold warpChoice
  rw [if_neg hb]
  simp only [ht, ho, Bool.false_eq_true, if_false]

/-- R148, R166: without a turn the waits of yield end, and with no warp to choose nothing else happens. -/
theorem warpChoice_none (hb : ¬(s.cur.isSome = true ∨ s.cur2.isSome = true ∨ slotUsed s (4 * core + q) (getCore s core).cyc = true))
    (ht : (getQuarter s (4 * core + q)).turn = none) (hw : chooseWarp s core q (getQuarter s (4 * core + q)) (getCore s core).cyc = none) :
    warpChoice core q s = setQuarter (endYields s core q) (4 * core + q) { getQuarter s (4 * core + q) with pass := none } := by
  unfold warpChoice
  rw [if_neg hb]
  simp only [ht, hw]

/-- R148, R166: without a turn the waits of yield end, and the warp chosen takes the turn and issues. -/
theorem warpChoice_some (hb : ¬(s.cur.isSome = true ∨ s.cur2.isSome = true ∨ slotUsed s (4 * core + q) (getCore s core).cyc = true))
    (ht : (getQuarter s (4 * core + q)).turn = none) (hw : chooseWarp s core q (getQuarter s (4 * core + q)) (getCore s core).cyc = some w) :
    warpChoice core q s = issueTurn (setQuarter (endYields s core q) (4 * core + q) { getQuarter s (4 * core + q) with
      turn := some w, start := (getCore s core).cyc, slot := (getWarp s w).slot, pass := none }) (4 * core + q) w (getCore s core).cyc := by
  unfold warpChoice
  rw [if_neg hb]
  simp only [ht, hw]

/-- R148, R149: the words that issue are those of the splits chosen. -/
theorem warpChoice_issues (hc : s.cur = none) (hc2 : s.cur2 = none) (hu : slotUsed s (4 * core + q) (getCore s core).cyc = false)
    {a : Nat × Split} {r : List (Nat × Split)} (ht : (getQuarter s (4 * core + q)).turn = some w)
    (ho : turnOver s (getQuarter s (4 * core + q)) w (getCore s core).cyc = false)
    (hx : chooseSplits s (getQuarter s (4 * core + q)) w (getCore s core).cyc = a :: r) :
    (warpChoice core q s).cur = some ⟨w, a.1⟩ ∧ (warpChoice core q s).cur2 = r.head?.map (fun e => ⟨w, e.1⟩) ∧
      (warpChoice core q s).vregs = s.vregs ∧ (warpChoice core q s).sregs = s.sregs ∧ (warpChoice core q s).mem = s.mem := by
  rw [warpChoice_turn (not_busy hc hc2 hu) ht ho]
  obtain ⟨x, p, he⟩ := issueTurn_chosen hx
  rw [he]
  exact ⟨rfl, rfl, rfl, rfl, rfl⟩

/-- R148: the warp chosen has the turn from this cycle. -/
theorem warpChoice_takesTurn (hc : s.cur = none) (hc2 : s.cur2 = none) (hu : slotUsed s (4 * core + q) (getCore s core).cyc = false)
    (ht : (getQuarter s (4 * core + q)).turn = none)
    (hw : chooseWarp s core q (getQuarter s (4 * core + q)) (getCore s core).cyc = some w) :
    (getQuarter (warpChoice core q s) (4 * core + q)).turn = some w ∧
      (getQuarter (warpChoice core q s) (4 * core + q)).start = (getCore s core).cyc := by
  rw [warpChoice_some (not_busy hc hc2 hu) ht hw]
  obtain ⟨p, hp⟩ := getQuarter_issueTurn (setQuarter (endYields s core q) (4 * core + q) { getQuarter s (4 * core + q) with
    turn := some w, start := (getCore s core).cyc, slot := (getWarp s w).slot, pass := none }) (4 * core + q) w (getCore s core).cyc
  dsimp only
  rw [hp, getQuarter_setQuarter_same]
  exact ⟨rfl, rfl⟩

/-- R148: with no warp to choose, nothing issues. -/
theorem warpChoice_idle (hc : s.cur = none) (hc2 : s.cur2 = none) (hu : slotUsed s (4 * core + q) (getCore s core).cyc = false)
    (ht : (getQuarter s (4 * core + q)).turn = none)
    (hw : chooseWarp s core q (getQuarter s (4 * core + q)) (getCore s core).cyc = none) :
    (warpChoice core q s).cur = none ∧ (getQuarter (warpChoice core q s) (4 * core + q)).turn = none := by
  rw [warpChoice_none (not_busy hc hc2 hu) ht hw]
  obtain ⟨x, hx⟩ := endYields_eq s core q
  refine ⟨by rw [hx]; exact hc, ?_⟩
  simp only [getQuarter, setQuarter, sget_sset_same]
  exact ht

/-! ### Limits of the choices (R150, R152) -/

theorem starveForce_forces (h : (getSplit s w k).starve = 63) :
    exec (.starveForce w k) s = .next (setSplit s w k { getSplit s w k with starve := 64 }) := by
  rw [exec_starveForce, execStarveForce, starveForce, if_pos h]

theorem starveForce_idle (h : (getSplit s w k).starve ≠ 63) : exec (.starveForce w k) s = .next s := by
  rw [exec_starveForce, execStarveForce, starveForce, if_neg h]

theorem holdLimit_releases (h : (getSplit s w k).rhold = 255) (hr : rcvHeld s w k (getSplit s w k) = true) :
    exec (.reconvergenceHoldLimit w k) s = .next (setSplit s w k { getSplit s w k with rhold := 256 }) := by
  rw [exec_reconvergenceHoldLimit, execReconvergenceHoldLimit]
  exact if_pos ⟨h, hr⟩

theorem holdLimit_idle (hr : rcvHeld s w k (getSplit s w k) = false) : exec (.reconvergenceHoldLimit w k) s = .next s := by
  rw [exec_reconvergenceHoldLimit, execReconvergenceHoldLimit]
  exact if_neg fun h => Bool.false_ne_true (hr.symm.trans h.2)

/-! ### VERSION_FULL (R322) -/

theorem fullTrap_cause (sp : Split) (sub : Nat) (stalled : List (Nat × Nat × Nat × Nat)) :
    (fullTrap sp sub stalled).cause = causeVersionFull ∧ (fullTrap sp sub stalled).sub = sub := by
  unfold fullTrap
  split
  · exact ⟨rfl, rfl⟩
  · exact ⟨rfl, rfl⟩

/-- R427: of the causes that go to no user handler, all but an extension's go to the supervisor. -/
theorem takeTrap_enters_sup (s : State) (cu : Cur) (t path : Nat) (header : Bool) (word : Word) {r : TrapReq}
    (hs : (getSplit s cu.w cu.k).sup = false) (h : r.cause ∈ supCauses) (hne : r.cause ≠ causeExtEmulate) :
    Enters true (supVec s cu) r s cu (takeTrap s cu.w cu.k t path header word r) := by
  have he := takeTrap_enters s cu t path header word hs h
  rwa [if_neg hne] at he

/-- R429: a trap to the supervisor's or the emulation handler changes no register. -/
theorem takeTrap_registers (s : State) (cu : Cur) (t path : Nat) (header : Bool) (word : Word) {r : TrapReq}
    (hs : (getSplit s cu.w cu.k).sup = false) (h : r.cause ∈ supCauses) :
    (takeTrap s cu.w cu.k t path header word r).vregs = s.vregs ∧ (takeTrap s cu.w cu.k t path header word r).sregs = s.sregs := by
  rw [takeTrap_eq s cu t path header word hs h]
  constructor <;> simp [enteredSup]

theorem fullTrap_enters (s : State) (sp : Split) (t path : Nat) (word : Word) (sub : Nat) (stalled : List (Nat × Nat × Nat × Nat))
    (hs : (getSplit s w k).sup = false) :
    Enters true (supVec s ⟨w, k⟩) (fullTrap sp sub stalled) s ⟨w, k⟩ (takeTrap s w k t path false word (fullTrap sp sub stalled)) := by
  have hc := (fullTrap_cause sp sub stalled).1
  exact takeTrap_enters_sup s ⟨w, k⟩ t path false word hs (hc ▸ by decide) (hc ▸ by decide)

variable {as : List (Nat × Nat × Nat)} {since : Nat} {op : Option Op}

/-- R322: without a wait for a frame that has lasted too long nothing traps. -/
theorem versionFull_idle (hw : frameWait s (getSplit s w k) = none) : exec (.versionFull w k) s = .next s := by
  rw [exec_versionFull, execVersionFull]
  simp only [hw]

theorem versionFull_early (hw : frameWait s (getSplit s w k) = some (as, since, op))
    (ho : framesOver s as since (getCore s (coreOf s w)).cyc = []) : exec (.versionFull w k) s = .next s := by
  rw [exec_versionFull, execVersionFull]
  simp only [hw, ho]

/-- R322: where the wait has lasted too long, its word traps: the operation that waits ends, or the word is fetched anew. -/
theorem versionFull_traps (hw : frameWait s (getSplit s w k) = some (as, since, op)) {e : Nat × Nat × Nat} {r : List (Nat × Nat × Nat)}
    (ho : framesOver s as since (getCore s (coreOf s w)).cyc = e :: r) (hb : (getBlock s (blkOf w)).state = 1)
    (hs : (getSplit s w k).sup = false) :
    ∃ t u, exec (.versionFull w k) s = .next t ∧
      (∀ x v, op = none → fetch s w (getSplit s w k) = .word x v → u = v) ∧ (∀ o, op = some o → u = endOp s o.id) ∧
      Enters true (supVec s ⟨w, k⟩) (fullTrap (getSplit s w k) e.1 (framesFull s as)) u ⟨w, k⟩ t := by
  rw [exec_versionFull, execVersionFull]
  simp only [hw, ho, hb, ne_eq, not_true, if_false]
  cases op with
  | some o =>
    exact ⟨_, endOp s o.id, rfl, fun x v h => (nomatch h), fun o' h => by cases h; rfl,
      fullTrap_enters (endOp s o.id) (getSplit s w k) _ _ o.word e.1 _ hs⟩
  | none =>
    cases hf : fetch s w (getSplit s w k) with
    | word x v =>
      have henters := fullTrap_enters (w := w) (k := k) v (getSplit s w k) (getCore s (coreOf s w)).cyc (getSplit s w k).path x e.1 (framesFull s as)
      obtain ⟨m, tl, o, rfl⟩ := fetch_word_eq hf
      exact ⟨_, _, rfl, fun x' v' _ h => by cases h; rfl, fun o' h => (nomatch h), henters hs⟩
    | _ =>
      exact ⟨_, s, rfl, fun x' v' _ h => (nomatch h), fun o' h => (nomatch h),
        fullTrap_enters s (getSplit s w k) _ _ 0 e.1 _ hs⟩

/-! ### WATCHDOG (R451) -/

/-- Nothing has happened to a split: it stands where it stood, its block runs where it ran, and its core's time, the registers and the flags are as they were. -/
structure Spares (w k : Nat) (s t : State) : Prop where
  split : getSplit t w k = getSplit s w k
  place : ∀ b, placeOf t b = placeOf s b
  same : (t.dies, t.cores, t.vregs, t.sregs, t.fsr) = (s.dies, s.cores, s.vregs, s.sregs, s.fsr)

namespace Spares

theorem refl (w k : Nat) (s : State) : Spares w k s s := ⟨rfl, fun _ => rfl, rfl⟩

theorem of_behind {s t : State} (h : Behind s t) (w k : Nat) : Spares w k s t :=
  ⟨h.getSplit w k, h.place, by rw [h.dies, h.cores, h.vregs, h.sregs, h.fsr]⟩

variable {s t u : State} {w k : Nat}

theorem trans (h : Spares w k s t) (h' : Spares w k t u) : Spares w k s u :=
  ⟨h'.split.trans h.split, fun b => (h'.place b).trans (h.place b), h'.same.trans h.same⟩

theorem dieOf (h : Spares w k s t) (v : Nat) : dieOf t v = dieOf s v := congrArg (·.1) (h.place (blkOf v))
theorem coreOf (h : Spares w k s t) (v : Nat) : coreOf t v = coreOf s v := by
  have hp := h.place (blkOf v)
  simp only [placeOf, Prod.mk.injEq] at hp
  simp only [Machine.coreOf, hp]
theorem dies (h : Spares w k s t) : t.dies = s.dies := congrArg (·.1) h.same
theorem cores (h : Spares w k s t) : t.cores = s.cores := congrArg (·.2.1) h.same
theorem getCore (h : Spares w k s t) (n : Nat) : getCore t n = getCore s n := by unfold Machine.getCore; rw [h.cores]
theorem vregs (h : Spares w k s t) : t.vregs = s.vregs := congrArg (·.2.2.1) h.same
theorem sregs (h : Spares w k s t) : t.sregs = s.sregs := congrArg (·.2.2.2.1) h.same
theorem fsr (h : Spares w k s t) : t.fsr = s.fsr := congrArg (·.2.2.2.2) h.same

theorem foldl {α : Type} {f : State → α → State} (l : List α) {s : State}
    (hf : ∀ t, Spares w k s t → ∀ a, Spares w k t (f t a)) : Spares w k s (l.foldl f s) := by
  induction l generalizing s with
  | nil => exact refl w k s
  | cons a r ih =>
    have ha := hf s (refl w k s) a
    exact ha.trans (ih fun t ht => hf t (ha.trans ht))

end Spares

/-- R255: an object's phase leaves a split whose wait it does not satisfy. -/
theorem spares_wakeWaits (s : State) (b j : Nat) (o : AObj) (h : (waitAfter j o (getSplit s w k) w).1 = getSplit s w k) :
    Spares w k s (wakeWaits s b j o) := by
  unfold wakeWaits
  refine Spares.trans ?_ (Spares.foldl _ fun t _ sc => Spares.of_behind (behind_acquireAll t b sc o.prev) w k)
  refine ⟨?_, fun _ => rfl, rfl⟩
  have hm : s.warps.map (fun e => if blkOf e.1 = b then
        (e.1, { e.2 with splits := e.2.splits.map (fun x => (x.1, (waitAfter j o x.2 e.1).1)) }) else e) =
      s.warps.map (fun e => (e.1, (if blkOf e.1 = b then
        { e.2 with splits := e.2.splits.map (fun x => (x.1, (waitAfter j o x.2 e.1).1)) } else e.2 : Warp))) :=
    List.map_congr_left fun e _ => by split <;> rfl
  unfold getSplit getWarp at h ⊢
  dsimp only
  rw [hm, sget_map_snd Warp.none (fun v x => if blkOf v = b then
      { x with splits := x.splits.map (fun y => (y.1, (waitAfter j o y.2 v).1)) } else x) s.warps w (by split <;> rfl)]
  split
  · rw [sget_map_snd noSplit (fun _ y => (waitAfter j o y w).1) _ k rfl, h]
  · rfl

/-- A wait that names an object, and the phase it waits to pass. -/
def WaitsAt (sp : Split) (obj : Nat) (p : Bool) : Prop :=
  (∃ sc, sp.susp = some (.arrival obj p sc)) ∨ (obj = 64 ∧ ∃ sc, sp.susp = some (.cluster p sc))

theorem waitAfter_of_waitsAt {sp : Split} {obj : Nat} {o : AObj} (h : WaitsAt sp obj o.phase) (j : Nat) (w : Nat) :
    (waitAfter j o sp w).1 = sp := by
  unfold waitAfter
  obtain ⟨sc, h⟩ | ⟨-, sc, h⟩ := h
  · simp only [h, ne_eq, not_true, and_false, if_false]
  · simp only [h, ne_eq, not_true, and_false, if_false]

theorem spares_putObj {b obj : Nat} {o : AObj} (h : WaitsAt (getSplit s w k) obj o.phase) : Spares w k s (putObj s b obj o) := by
  unfold putObj
  split
  · unfold putCbar
    refine Spares.trans (t := setCbar s _ o) ⟨rfl, fun _ => rfl, rfl⟩ (Spares.foldl _ fun t ht c => spares_wakeWaits t c 64 o ?_)
    rw [ht.split]
    exact waitAfter_of_waitsAt h 64 w
  · exact Spares.trans (t := setAo s b obj o) ⟨rfl, fun _ => rfl, rfl⟩ (spares_wakeWaits _ b obj o (waitAfter_of_waitsAt h obj w))

/-- R451: the arrival that is withdrawn leaves the object's phase, and so the split's wait. -/
theorem spares_unarrive {obj : Nat} (m : Mask) (h : WaitsAt (getSplit s w k) obj (objOf s (blkOf w) obj).phase) : Spares w k s (unarrive s w m obj) := by
  unfold unarrive
  refine Spares.trans ?_ (spares_putObj ?_)
  · exact ⟨rfl, fun _ => rfl, rfl⟩
  · exact h

/-- R184, R451: abandoning a wait leaves its split where it stands. -/
theorem spares_abandonWait (s : State) (w k : Nat) : Spares w k s (abandonWait s w k) := by
  unfold abandonWait
  dsimp only
  generalize hu : withdraw s (fun a b => decide (a = w) && decide (b = k)) = u
  have hw : Spares w k s u := by rw [← hu]; exact ⟨rfl, fun _ => rfl, rfl⟩
  refine hw.trans ?_
  rw [← hw.split]
  split
  next => exact ⟨rfl, fun _ => rfl, rfl⟩
  next obj p sc hsp =>
    split
    next hp => exact spares_unarrive _ (.inl ⟨sc, by rw [hp]; exact hsp⟩)
    next => exact .refl w k u
  next p sc hsp =>
    split
    next hp => exact spares_unarrive _ (.inr ⟨rfl, sc, by rw [hp]; exact hsp⟩)
    next => exact .refl w k u
  next =>
    split
    next r _ =>
      refine Spares.trans ?_ (Spares.foldl _ fun t _ e => Spares.of_behind (behind_setBlock t e.1 (by rfl)) w k)
      exact ⟨rfl, fun _ => rfl, rfl⟩
    next => exact .refl w k u
  next => exact .refl w k u

section
variable (s : State) (log typ source d0 d1 d2 : Nat)

@[simp] theorem getWarp_vesper (w : Nat) : getWarp (vesper s log typ source d0 d1 d2) w = getWarp s w := rfl
@[simp] theorem getSplit_vesper (w k : Nat) : getSplit (vesper s log typ source d0 d1 d2) w k = getSplit s w k := rfl
@[simp] theorem vesper_vregs : (vesper s log typ source d0 d1 d2).vregs = s.vregs := rfl
@[simp] theorem vesper_sregs : (vesper s log typ source d0 d1 d2).sregs = s.sregs := rfl

/-- R452: the record of a trap changes nothing of it. -/
theorem enters_recorded {vec : Word} {r : TrapReq} {u : State} {w k : Nat} (h : Enters true vec r u ⟨w, k⟩ s) :
    (getSplit (vesper s log typ source d0 d1 d2) w k).sup = true ∧ vpc (getSplit (vesper s log typ source d0 d1 d2) w k) = vec ∧
      (getWarp (vesper s log typ source d0 d1 d2) w).scause.toNat % 2 ^ 16 = r.sub % 256 * 256 + r.cause % 256 ∧
      (getWarp (vesper s log typ source d0 d1 d2) w).spc = vpc (getSplit u w k) := by
  rw [getSplit_vesper, getWarp_vesper]
  exact ⟨h.mode, h.pc, h.cause, h.address⟩

end

theorem watchdog_idle (h : watchDue s w = false) : exec (.watchdog w) s = .next s := by
  rw [exec_watchdog, execWatchdog, h]
  rfl

/-- R451: the split chosen takes the trap, after its wait has been abandoned. -/
theorem watchdog_traps (h : watchDue s w = true) (hp : watchPick s w (getCore s (coreOf s w)).cyc = some (k, getSplit s w k))
    (hs : (getSplit s w k).sup = false) :
    ∃ t, exec (.watchdog w) s = .next t ∧ (getSplit t w k).sup = true ∧ vpc (getSplit t w k) = supVec s ⟨w, k⟩ ∧
      (getWarp t w).scause.toNat % 2 ^ 16 = causeWatchdog ∧ (getWarp t w).spc = vpc (getSplit s w k) ∧
      t.vregs = s.vregs ∧ t.sregs = s.sregs := by
  have ha := spares_abandonWait s w k
  have hvec : supVec (abandonWait s w k) ⟨w, k⟩ = supVec s ⟨w, k⟩ := by simp only [supVec, ha.dieOf, ha.dies]
  have hs' : (getSplit (abandonWait s w k) w k).sup = false := by rw [ha.split]; exact hs
  rw [exec_watchdog, execWatchdog]
  simp only [h, hp, Bool.not_true, Bool.false_eq_true, if_false]
  generalize wordHere s w (getSplit s w k) = x
  generalize atPosition (getSplit s w k) = hd
  generalize (if (getSplit s w k).susp.isSome then (getSplit s w k).path else 0) = path
  have hent := takeTrap_enters_sup (abandonWait s w k) ⟨w, k⟩ (getCore s (coreOf s w)).cyc path hd x
    (r := trapAll causeWatchdog 0 (getSplit s w k).mask) hs' (by decide : causeWatchdog ∈ supCauses) (by decide : causeWatchdog ≠ causeExtEmulate)
  obtain ⟨hv, hg⟩ := takeTrap_registers (abandonWait s w k) ⟨w, k⟩ (getCore s (coreOf s w)).cyc path hd x
    (r := trapAll causeWatchdog 0 (getSplit s w k).mask) hs' (by decide : causeWatchdog ∈ supCauses)
  rw [hvec] at hent
  dsimp only at hent hv hg
  obtain ⟨hsup, hpc, hcause, hspc⟩ := enters_recorded _ (getBlock s (blkOf w)).die 0x08 (vsource 0 (getBlock s (blkOf w)).core)
    (getBlock s (blkOf w)).launchid.toNat (getBlock s (blkOf w)).blocklin (vpc (getSplit s w k)).toNat hent
  exact ⟨_, rfl, hsup, hpc, hcause.trans (show 0 % 256 * 256 + causeWatchdog % 256 = causeWatchdog by decide), hspc.trans (by rw [ha.split]),
    hv.trans ha.vregs, hg.trans ha.sregs⟩

end

/-- Settles O49: the steps of the header, of the choice and of the limits, each from what its function does. -/
theorem clausesAndChoices : Obligations.ClausesAndChoices := by
  refine ⟨fun s w k => ⟨clauseStart_idle, fun ha hs h u hf => ⟨clauseStart_accepts ha hf, fun cause sub => clauseStart_traps ha hs hf⟩⟩,
    fun s core q hq => ?_, fun s w k => ⟨fun h => ⟨_, starveForce_forces h, rfl, getSplit_setSplit_same _ _ _ _⟩, starveForce_idle,
      fun h hr => ⟨_, holdLimit_releases h hr, rfl, getSplit_setSplit_same _ _ _ _⟩, holdLimit_idle⟩,
    fun s w k => versionFull_idle, fun s w k as since op hw => ⟨versionFull_early hw, fun e r ho hb hs => ?_⟩,
    fun s w => ⟨watchdog_idle, fun h k hp hs => watchdog_traps h hp hs⟩⟩
  · rw [exec_warpChoice_lt hq]
    refine ⟨fun h => by rw [warpChoice_busy h], fun hc hc2 hu => ⟨fun w a r ht ho hx => ⟨_, rfl, warpChoice_issues hc hc2 hu ht ho hx⟩,
      fun w ht hw => ⟨_, rfl, warpChoice_takesTurn hc hc2 hu ht hw⟩, fun ht hw => ⟨_, rfl, warpChoice_idle hc hc2 hu ht hw⟩⟩⟩
  · obtain ⟨t, u, hrun, hfetch, hop, he⟩ := versionFull_traps hw ho hb hs
    exact ⟨t, _, u, hrun, (fullTrap_cause _ _ _).1, (fullTrap_cause _ _ _).2, hfetch, hop, he⟩

end Sys2Proof.Machine
end

section
/-!
R47, R165, R167, R178, R199, R225, R232, R258, R260, R267, R322, R339: SUSPENDED_SPLIT_WAKE and NAP_EXPIRY end the waits of suspended splits.
-/
namespace Sys2Proof.Machine
open Claims

/-! ### What the effects of waits leave -/

theorem wbScope_clean {s : State} (h : s.swc = []) (die scope : Nat) (p : Nat → Bool) : wbScope s die scope p = s := by
  unfold wbScope; rw [h]; rfl

theorem invScope_clean {s : State} (h : s.swc = []) (die scope : Nat) (p : Nat → Bool) : invScope s die scope p = s := by
  unfold invScope; rw [h]; rfl

theorem acquireNow_clean {s : State} (h : s.swc = []) (w scope : Nat) : acquireNow s w scope = s := invScope_clean h _ _ _

theorem behind_fenceDo (s : State) (w : Nat) (m : Mask) (ord scope : Nat) : Behind s (fenceDo s w m ord scope) := by
  unfold fenceDo
  dsimp only
  have hrel : ∀ u, Behind u (if fenceRel ord = true then wbScope u (dieOf s w) scope (fun _ => true) else u) := fun u =>
    .ite (behind_wbScope _ _ _ _) (.refl u)
  have hacq : ∀ u v, Behind u v → Behind u (if fenceAcq ord = true then
      acquireAll (invScope v (dieOf s w) scope (fun _ => true)) (blkOf w) scope ((lanesOf m).flatMap (fun l => sget [] v.seen (lkey w l))).dedup
      else v) := fun u v h => .ite (h.trans ((behind_invScope _ _ _ _).trans (behind_acquireAll _ _ _ _))) h
  have hsc : ∀ u v, Behind u v → Behind u (if ord = 3 then scAfter v (blkOf w) scope else v) := fun u v h =>
    .ite (h.trans (behind_acquireAll _ _ _ _)) h
  refine Behind.trans (hsc s _ (hacq s _ (hrel s))) ?_
  generalize (if ord = 3 then scAfter _ (blkOf w) scope else _) = v
  refine .ite (.ite ?_ ?_) (.refl v)
  · exact (behind_performRelease v (blkOf w) scope).trans ⟨rfl, fun _ => rfl⟩
  · exact (behind_performRelease v (blkOf w) scope).trans ⟨rfl, fun _ => rfl⟩

theorem fenceDo_mem {s : State} (h : s.swc = []) (w : Nat) (m : Mask) (ord scope : Nat) : (fenceDo s w m ord scope).mem = s.mem := by
  unfold fenceDo
  simp only [wbScope_clean h, ite_self, invScope_clean h]
  simp [apply_ite State.mem, scAfter]

section
variable {w k : Nat}

theorem spares_putAo (s : State) (b j : Nat) (o : AObj) (h : (waitAfter j o (getSplit s w k) w).1 = getSplit s w k) : Spares w k s (putAo s b j o) :=
  Spares.trans (t := setAo s b j o) ⟨rfl, fun _ => rfl, rfl⟩ (spares_wakeWaits _ b j o h)

/-- A wait for an engine's object is no object's to end (R258). -/
theorem waitAfter_aoinit {sp : Split} {obj n : Nat} (h : sp.susp = some (.aoinit obj n)) (j : Nat) (o : AObj) (w : Nat) : (waitAfter j o sp w).1 = sp := by
  unfold waitAfter
  simp only [h]

theorem spares_setSplit (s : State) {v j : Nat} (h : ¬(v = w ∧ j = k)) (x : Split) : Spares w k s (setSplit s v j x) where
  split := by
    by_cases hv : w = v
    · subst hv; exact getSplit_setSplit_ne _ _ _ _ _ fun hj => h ⟨rfl, hj.symm⟩
    · unfold getSplit; rw [getWarp_setSplit_ne _ _ _ _ _ hv]
  place _ := rfl
  same := rfl

theorem spares_restoreWait (s : State) {obj n : Nat} (h : (getSplit s w k).susp = some (.aoinit obj n)) (j : Nat) (e : Nat × Nat × Wait) :
    Spares w k s (restoreWait j s e) := by
  unfold restoreWait
  dsimp only
  split
  next k' d sc hs =>
    have hne : ¬(e.1 = w ∧ e.2.1 = k) := fun he => by
      rw [he.1, he.2, h] at hs
      cases hs
    split
    · exact spares_setSplit s hne _
    · exact .refl w k s
  next => exact .refl w k s

/-- R258: an object is initialised around the split that waits to do it. -/
theorem spares_initObj (s : State) {obj n : Nat} (h : (getSplit s w k).susp = some (.aoinit obj n)) (b j m t : Nat) : Spares w k s (initObj s b j m t) := by
  unfold initObj
  dsimp only
  split
  · have hr := Spares.foldl (w := w) (k := k) (f := restoreWait j) (getAo s b j).woken (s := s)
      fun t ht e => spares_restoreWait t (by rw [ht.split]; exact h) j e
    have hput := hr.trans (spares_putAo _ b j { AObj.init with expected := m, prev := (getAo s b j).prev, cyc := t, arrivals := (getAo s b j).arrivals }
      (waitAfter_aoinit (by rw [hr.split]; exact h) _ _ _))
    refine hput.trans (Spares.foldl _ fun u hu e => ?_)
    exact spares_putAo u _ _ _ (waitAfter_aoinit (by rw [hu.split, hput.split]; exact h) _ _ _)
  · exact spares_putAo s _ _ _ (waitAfter_aoinit h _ _ _)

/-! ### How a split goes on (R47) -/

theorem wakeAdvance_resumes {s u : State} (h : Spares w k s u) : Resumes s w k (wakeAdvance w k u) := by
  unfold Resumes wakeAdvance
  rw [getSplit_setSplit_same, h.split, h.getCore, h.coreOf]

/-- The split issues its word again. -/
def Again (s : State) (w k : Nat) (t : State) : Prop :=
  getSplit t w k = { getSplit s w k with susp := none, next := max (getSplit s w k).next (getCore s (coreOf s w)).cyc }

theorem retryWord_again {s u : State} (h : Spares w k s u) : Again s w k (retryWord u w k) := by
  unfold Again retryWord
  rw [getSplit_setSplit_same, h.split, h.getCore, h.coreOf]

variable {s : State}

theorem wake_of {g : State → State} (h : wakeOf s w k = some g) (hb : (getBlock s (blkOf w)).state = 1) :
    exec (.suspendedSplitWake w k) s = .next (g s) := by
  rw [exec_suspendedSplitWake, execSuspendedSplitWake]
  simp only [h, hb, if_true]

theorem wake_idle (h : wakeOf s w k = none) : exec (.suspendedSplitWake w k) s = .next s := by
  rw [exec_suspendedSplitWake, execSuspendedSplitWake]
  simp only [h]

theorem wakeOf_counters {a b c d : Nat} (h : (getSplit s w k).susp = some (.counters a b c d)) :
    wakeOf s w k = if countersMet s w (getSplit s w k).mask a b c d then some (wakeAdvance w k) else none := by
  unfold wakeOf
  simp only [h]

theorem wakeOf_cap {c : Counter} (h : (getSplit s w k).susp = some (.cap c)) :
    wakeOf s w k = if counterOf s w (getSplit s w k).mask c < 63 then some (fun s => retryWord s w k) else none := by
  unfold wakeOf
  simp only [h]

theorem napExpiry_eq {c : Nat} (h : (getSplit s w k).susp = some (.nap c)) :
    exec (.napExpiry w k) s = if (getCore s (coreOf s w)).cyc ≥ c then .next (wakeAdvance w k s) else .next s := by
  rw [exec_napExpiry, execNapExpiry]
  simp only [h]

theorem waitsEnd : WaitsEnd := by
  intro s w k
  have hs := Spares.refl w k s
  refine ⟨fun hb => ⟨fun a b c d h => ⟨fun hm => ?_, fun hm => ?_⟩, fun c h => ⟨fun hm => ?_, fun hm => ?_⟩⟩, fun c h => ⟨fun hm => ?_, fun hm => ?_⟩⟩
  · exact ⟨_, wake_of ((wakeOf_counters h).trans (if_pos hm)) hb, wakeAdvance_resumes hs, rfl⟩
  · exact wake_idle ((wakeOf_counters h).trans (if_neg (by rw [hm]; decide)))
  · exact ⟨_, wake_of ((wakeOf_cap h).trans (if_pos hm)) hb, rfl, retryWord_again hs⟩
  · exact wake_idle ((wakeOf_cap h).trans (if_neg hm))
  · exact ⟨_, (napExpiry_eq h).trans (if_pos hm), wakeAdvance_resumes hs, rfl⟩
  · exact (napExpiry_eq h).trans (if_neg (by omega))

/-! ### The other waits -/

/-- What the end of a wait leaves, as `OtherWaitsEnd` says it. -/
def WaitEnded (s : State) (w k : Nat) (x : Wait) (t : State) : Prop :=
  (s.swc = [] → t.mem = s.mem) ∧ t.fsr = s.fsr ∧
    (issuesAgain x = true → t.vregs = s.vregs ∧ t.sregs = s.sregs ∧ Again s w k t) ∧
    (issuesAgain x = false → (∀ obj d scope, x = .satisfied obj (some d) scope → d < 0xE0) → Resumes s w k t) ∧
    (∀ ch ids, x = .channel ch true ids → getChan t w ch = 0) ∧
    (∀ obj d scope, x = .satisfied obj (some d) scope → d < 0xE0 → ∀ l < 32, (getSplit s w k).mask.getLsbD l = true →
      rdReg t w d l = ⟨.v, (getAo s (blkOf w) obj).status⟩)

/-- A word that could not issue issues again. -/
theorem waitEnded_again {x : Wait} {u : State} (hx : issuesAgain x = true) (hu : Spares w k s u) (hm : s.swc = [] → u.mem = s.mem) :
    WaitEnded s w k x (retryWord u w k) :=
  ⟨hm, hu.fsr, fun _ => ⟨hu.vregs, hu.sregs, retryWord_again hu⟩, fun h => absurd (hx.symm.trans h) (by decide),
    fun ch ids h => absurd hx (by rw [h]; exact Bool.false_ne_true),
    fun obj d scope h => absurd hx (by rw [h]; exact Bool.false_ne_true)⟩

/-- A word whose effect was waited for is over; it was not the wait for an object that writes a register. -/
theorem waitEnded_next {x : Wait} {u : State} (hx : issuesAgain x = false) (hd : ∀ obj d scope, x ≠ .satisfied obj (some d) scope)
    (hu : Spares w k s u) (hm : s.swc = [] → u.mem = s.mem) (hc : ∀ ch ids, x = .channel ch true ids → getChan u w ch = 0) :
    WaitEnded s w k x (wakeAdvance w k u) :=
  ⟨hm, hu.fsr, fun h => absurd (hx.symm.trans h) (by decide), fun _ _ => wakeAdvance_resumes hu, hc, fun obj d scope h => absurd h (hd obj d scope)⟩

/-- R255, R260: the status of a satisfied wait's object stands in D. -/
theorem rdReg_writeNow_lanes (s : State) (w d : Nat) (m : Mask) (v : TWord) (hd : d < 0xE0) {l : Nat} (hl : l < 32) (hm : m.getLsbD l = true) :
    rdReg (writeNow s w d ((if d ≥ 0xC0 then [0] else lanesOf m).map (fun l => (l, v)))) w d l = v := by
  rw [rdReg_writeNow]
  by_cases h : d < 0xC0
  · rw [if_neg (by omega)]
    refine rdReg_wrReg_vector _ _ _ _ _ _ h (List.mem_map.2 ⟨l, (mem_lanesOf m l).2 ⟨hl, hm⟩, rfl⟩) ?_
    rw [List.map_map]
    exact (List.map_id _).symm ▸ lanesOf_nodup m
  · rw [if_pos (by omega)]
    exact rdReg_wrReg_scalar _ _ _ _ _ _ (by omega) hd

theorem waitEnded_satisfied (obj : Nat) (d : Option Nat) (scope : Nat) : WaitEnded s w k (.satisfied obj d scope) (wakeSatisfied s w k obj d scope) := by
  have hu : Spares w k s (acquireNow s w scope) := .of_behind (behind_acquireNow s w scope) w k
  have hm : s.swc = [] → (acquireNow s w scope).mem = s.mem := fun h => by rw [acquireNow_clean h]
  unfold wakeSatisfied
  dsimp only
  cases d with
  | none =>
    exact waitEnded_next rfl (fun _ _ _ h => (nomatch h)) hu hm fun _ _ h => (nomatch h)
  | some d =>
    dsimp only
    by_cases hq : 0xE0 ≤ d ∧ d < 0xE4
    · rw [if_pos hq]
      refine ⟨hm, hu.fsr, fun h => (nomatch h), fun _ h => ?_, fun _ _ h => (nomatch h), fun _ _ _ h hd => ?_⟩
      · have := h obj d scope rfl
        omega
      · cases h
        omega
    · rw [if_neg hq]
      generalize hws : (if d ≥ 0xC0 then [0] else lanesOf (getSplit s w k).mask).map (fun l => (l, TWord.valid (getAo s (blkOf w) obj).status)) = ws
      obtain ⟨v, r, p, o, hw⟩ := writeNow_eq (acquireNow s w scope) w d ws
      refine ⟨fun h => ?_, ?_, fun h => (nomatch h), fun _ _ => ?_, fun _ _ h => (nomatch h), fun _ _ _ h hd l hl hml => ?_⟩
      · rw [hw]; exact hm h
      · rw [hw]; exact hu.fsr
      · unfold Resumes wakeAdvance
        rw [getSplit_setSplit_same, hw, ← hu.split, ← hu.coreOf, ← hu.getCore]
        rfl
      · cases h
        rw [← hws]
        exact rdReg_writeNow_lanes _ w d (getSplit s w k).mask _ hd hl hml

theorem allEnded_iff (s : State) (ids : List Nat) :
    ids.all (fun i => (findOp s i).isNone) = !ids.any (fun i => (findOp s i).isSome) := by
  rw [List.not_any_eq_all_not]
  simp only [Option.not_isSome]

theorem ite_none_some (b : Bool) (g : State → State) : (if b then none else some g) = if !b then some g else none := by
  cases b <;> rfl

/-- R47: a wait whose end SUSPENDED_SPLIT_WAKE decides ends once it is met, and not before. -/
theorem wakeOf_of_waitMet {x : Wait} {met : Bool} (h : (getSplit s w k).susp = some x) (hm : waitMet s w k x = some met) :
    ∃ g, wakeOf s w k = (if met then some g else none) ∧ (met = true → WaitEnded s w k x (g s)) := by
  have hs := Spares.refl w k s
  have again : ∀ y, issuesAgain y = true → WaitEnded s w k y (retryWord s w k) := fun y hy => waitEnded_again hy hs fun _ => rfl
  unfold wakeOf
  simp only [h]
  cases x with
  | queue need full => cases hm; exact ⟨_, rfl, fun _ => again _ rfl⟩
  | page die host space vas kind => cases hm; exact ⟨_, rfl, fun _ => again _ rfl⟩
  | frame addrs since => cases hm; exact ⟨_, rfl, fun _ => again _ rfl⟩
  | ckwait region seq => cases hm; exact ⟨_, rfl, fun _ => again _ rfl⟩
  | commit =>
    cases hm
    exact ⟨_, ite_none_some _ fun s => retryWord s w k, fun _ => again _ rfl⟩
  | resumed obj p scope =>
    cases hm
    refine ⟨fun s => retryWord (acquireNow s w scope) w k, by simp only [decide_eq_true_eq], fun _ => ?_⟩
    exact waitEnded_again rfl (.of_behind (behind_acquireNow s w scope) w k) fun hc => by rw [acquireNow_clean hc]
  | fence ord scope =>
    cases hm
    refine ⟨fun u => wakeAdvance w k (fenceDo u w (getSplit s w k).mask ord scope), ?_, fun _ => ?_⟩
    · by_cases ho : ord = 0
      · simp only [fenceMet, fenceRel, ho, ne_eq, not_true, decide_false, Bool.false_eq_true, if_false, if_true]
      · simp only [fenceMet, fenceRel, ho, ne_eq, not_false_eq_true, decide_true, if_true, if_false]
    · exact waitEnded_next rfl (fun _ _ _ hx => (nomatch hx)) (.of_behind (behind_fenceDo s w _ ord scope) w k)
        (fun hc => fenceDo_mem hc _ _ _ _) fun _ _ hx => (nomatch hx)
  | channel ch close ids =>
    cases hm
    refine ⟨fun s => wakeAdvance w k (if close then setChan s w ch 0 else s), ?_, fun _ => ?_⟩
    · rw [allEnded_iff]
      exact ite_none_some _ _
    · cases close with
      | false => exact waitEnded_next rfl (fun _ _ _ hx => (nomatch hx)) hs (fun _ => rfl) fun _ _ hx => (nomatch hx)
      | true =>
        refine waitEnded_next rfl (fun _ _ _ hx => (nomatch hx)) ⟨rfl, fun _ => rfl, rfl⟩ (fun _ => rfl) fun _ _ hx => ?_
        cases hx
        exact sget_sset_same _ _ _ _
  | drain ids =>
    cases hm
    refine ⟨wakeAdvance w k, ?_, fun _ => waitEnded_next rfl (fun _ _ _ hx => (nomatch hx)) hs (fun _ => rfl) fun _ _ hx => (nomatch hx)⟩
    rw [allEnded_iff]
    exact ite_none_some _ _
  | aoinit obj n =>
    cases hm
    refine ⟨fun s => wakeAoinit s w k obj n, ite_none_some _ _, fun _ => ?_⟩
    · exact waitEnded_next rfl (fun _ _ _ hx => (nomatch hx)) (spares_initObj s h _ _ _ _) (fun _ => initObj_mem _ _ _ _ _)
        fun _ _ hx => (nomatch hx)
  | satisfied obj d scope => cases hm; exact ⟨_, rfl, fun _ => waitEnded_satisfied obj d scope⟩
  | _ => cases hm

theorem otherWaitsEnd : OtherWaitsEnd := by
  intro s w k x hb hx
  refine ⟨fun hm => ?_, fun hm => ?_⟩
  · obtain ⟨g, hg, -⟩ := wakeOf_of_waitMet hx hm
    exact wake_idle hg
  · obtain ⟨g, hg, he⟩ := wakeOf_of_waitMet hx hm
    exact ⟨g s, wake_of hg hb, he rfl⟩

end

end Sys2Proof.Machine
end

section
/-!
R182, R187, R195, R211, R223, R265: one read of a location at home, and what a monitor's lane is after it.
-/
namespace Sys2Proof.Machine
open Claims

/-! ### What a read of home memory changes -/

/-- Only what a read leaves has changed: the order of use of cache lines, and the marks that the thread and its block have acquired (R193, R211, R220). -/
structure Peeked (s u : State) : Prop where
  rest : ∃ dc seen acq bl, u = { s with dcLru := dc, seen := seen, acquired := acq, blocks := bl }
  block : ∀ b, getBlock u b = { getBlock s b with saturated := (getBlock u b).saturated }

namespace Peeked

theorem refl (s : State) : Peeked s s := ⟨⟨_, _, _, _, rfl⟩, fun _ => rfl⟩

variable {s t u : State}

theorem trans (h : Peeked s t) (h' : Peeked t u) : Peeked s u := by
  refine ⟨?_, fun b => ?_⟩
  · obtain ⟨dc, seen, acq, bl, rfl⟩ := h.rest
    obtain ⟨dc', seen', acq', bl', rfl⟩ := h'.rest
    exact ⟨dc', seen', acq', bl', rfl⟩
  · rw [h'.block b, h.block b]

theorem behind (h : Peeked s u) : Behind s u where
  same := by obtain ⟨_, _, _, _, rfl⟩ := h.rest; rfl
  place b := by rw [placeOf, h.block b]; rfl

theorem mem (h : Peeked s u) : u.mem = s.mem := by obtain ⟨_, _, _, _, rfl⟩ := h.rest; rfl
theorem swc (h : Peeked s u) : u.swc = s.swc := by obtain ⟨_, _, _, _, rfl⟩ := h.rest; rfl
theorem prov (h : Peeked s u) : u.prov = s.prov := by obtain ⟨_, _, _, _, rfl⟩ := h.rest; rfl
theorem accKey (h : Peeked s u) (x : Acc) : accKey u x = accKey s x := by obtain ⟨_, _, _, _, rfl⟩ := h.rest; rfl
theorem leafKey (h : Peeked s u) (die : Nat) (l : Leaf) (va : Nat) : leafKey u die l va = leafKey s die l va := by
  obtain ⟨_, _, _, _, rfl⟩ := h.rest; rfl
theorem rdMem (h : Peeked s u) (k n : Nat) : rdMem u k n = rdMem s k n := by obtain ⟨_, _, _, _, rfl⟩ := h.rest; rfl
theorem dataFault (h : Peeked s u) (who key n : Nat) : dataFault u who key n = dataFault s who key n := by
  obtain ⟨_, _, _, _, rfl⟩ := h.rest; rfl
theorem handleRetired (h : Peeked s u) (x : Acc) : handleRetired u x = handleRetired s x := by obtain ⟨_, _, _, _, rfl⟩ := h.rest; rfl
theorem peerHeld (h : Peeked s u) (r : List (Nat × Word)) (key : Nat) : peerHeld u r key = peerHeld s r key := by
  obtain ⟨_, _, _, _, rfl⟩ := h.rest; rfl
theorem rdVdb (h : Peeked s u) (v : Nat) : rdVdb u v = rdVdb s v := by obtain ⟨_, _, _, _, rfl⟩ := h.rest; rfl
theorem tileSaved (h : Peeked s u) (x : Acc) : tileSaved u x = tileSaved s x := by unfold Machine.tileSaved; rw [h.block]
theorem tileGone (h : Peeked s u) (x : Acc) : tileGone u x = tileGone s x := by unfold Machine.tileGone; rw [h.block]
theorem agentOf (h : Peeked s u) (w : Nat) (sup : Bool) : agentOf u w sup = agentOf s w sup := by
  unfold Machine.agentOf; rw [h.block, h.behind.dies]

theorem ownedRanges (h : Peeked s u) (o : Op) : ownedRanges u o = ownedRanges s o := by
  simp only [Machine.ownedRanges, boxOwned, copyAgent, collAgent, h.agentOf, h.leafKey]

theorem accReady (h : Peeked s u) (o : Op) (x : Acc) : accReady u o x = accReady s o x := by
  simp only [Machine.accReady, ownedAgainst, h.behind.ops, h.ownedRanges, h.accKey, h.tileSaved, h.peerHeld, h.rdVdb]

theorem plainAcc (h : Peeked s u) {x : Acc} (hx : plainAcc s x) : plainAcc u x := by
  unfold Claims.plainAcc at hx ⊢
  rwa [h.accKey, h.tileGone, h.handleRetired]

theorem plainMon (h : Peeked s u) {o : Op} {m : MonLane} (hm : plainMon s o m) : plainMon u o m := by
  obtain ⟨hout, hacc, hsw, hn, hleft, hdata, halso, hlane, hready, hfault⟩ := hm
  exact ⟨hout, h.plainAcc hacc, hsw, hn, hleft, hdata, halso, hlane, (h.accReady o _).trans hready, by rw [h.dataFault, h.accKey]; exact hfault⟩

theorem foldl {α : Type} {f : State → α → State} (hf : ∀ s a, Peeked s (f s a)) (l : List α) (s : State) : Peeked s (l.foldl f s) := by
  induction l generalizing s with
  | nil => exact refl s
  | cons a r ih => exact (hf s a).trans (ih (f s a))

end Peeked

section
variable (s : State)

theorem peeked_saturated (b : Nat) : Peeked s (setBlock s b { getBlock s b with saturated := true }) where
  rest := ⟨_, _, _, _, rfl⟩
  block c := by
    by_cases hc : c = b
    · rw [hc, getBlock, setBlock, sget_sset_same]
    · rw [getBlock, setBlock, sget_sset_ne _ _ _ _ _ hc]; rfl

theorem peeked_seeMarks (w lane : Nat) (ms : List Mark) : Peeked s (seeMarks s w lane ms) := by
  unfold seeMarks
  split
  · exact .refl s
  · exact ⟨⟨_, _, _, _, rfl⟩, fun _ => rfl⟩

theorem peeked_acquireMark (b scope : Nat) (m : Mark) : Peeked s (acquireMark s b scope m) := by
  unfold acquireMark
  split
  · exact .refl s
  · refine .foldl (fun t e => ?_) _ s
    dsimp only
    split
    · exact .refl t
    split
    · exact .refl t
    split
    · exact peeked_saturated t b
    · exact ⟨⟨_, _, _, _, rfl⟩, fun _ => rfl⟩

theorem peeked_acquireAll (b scope : Nat) (ms : List Mark) : Peeked s (acquireAll s b scope ms) :=
  .foldl (fun t m => peeked_acquireMark t b scope m) ms s

theorem peeked_acquireRead (o : Op) (b : Nat) (acq : Option Nat) (lane : Nat) (ms : List Mark) : Peeked s (acquireRead s o b acq lane ms) := by
  unfold acquireRead
  cases acq with
  | none => exact peeked_seeMarks s _ _ _
  | some sc => exact (peeked_seeMarks s _ _ _).trans (peeked_acquireAll _ _ _ _)

/-- R193: without cached or provisional bytes a line that is evicted writes nothing back. -/
theorem peeked_dcTouch {s : State} (hw : s.swc = []) (hp : s.prov = []) (die cls pol key : Nat) : Peeked s (dcTouch s die cls pol key) := by
  unfold dcTouch
  dsimp only
  split
  · exact .refl s
  · rw [if_pos (by rw [hw, hp]; rfl)]
    exact ⟨⟨_, _, _, _, rfl⟩, fun _ => rfl⟩

end

/-! ### The value read (R187, R195) -/

theorem viewMem_home {s : State} (hp : s.prov = []) (a : Agent) (key n : Nat) : viewMem s a false key n = rdMem s key n := by
  have hb : ∀ k, viewByte s a false k = rdByte s k := fun k => by
    unfold viewByte provByte
    rw [hp]
    rfl
  unfold viewMem rdMem
  simp only [hb]

/-- R182, R195: a read of one word at home. -/
theorem readAcc_home {s : State} {o : Op} {ty : BitVec 4} {x : Acc} (hw : s.swc = []) (hp : s.prov = []) (hx : plainAcc s x) (hsw : x.sw = false)
    (hn : x.n = 1) (hl : x.left = [0]) (hd : x.data = 0) (hf : dataFault s (blkOf o.w) (accKey s x) x.size = none) :
    Peeked s (readAcc s o ty none x).1 ∧ (readAcc s o ty none x).2.2 = [TWord.valid (loadWord ty (rdMem s (accKey s x) x.size))] := by
  obtain ⟨hreg, -, hg, hr⟩ := hx
  have hf' : dataFault s (opAgent s o).blk (accKey s x) (x.size * x.n) = none := by rw [hn, Nat.mul_one]; exact hf
  have hj : pieceOf s o x = 0 := by unfold pieceOf; rw [hl]
  have hk : pieceKey x (accKey s x) 0 = accKey s x := by unfold pieceKey; rw [Nat.mul_zero, Nat.add_zero]
  have ht := peeked_dcTouch hw hp (opAgent s o).die x.cls x.pol (accKey s x)
  have hv : viewMem (dcTouch s (opAgent s o).die x.cls x.pol (accKey s x)) (opAgent s o) false (accKey s x) x.size = rdMem s (accKey s x) x.size := by
    rw [viewMem_home (ht.prov.trans hp), ht.rdMem]
  unfold readAcc
  simp only [hg, hreg, hr, Bool.false_eq_true, if_false, hf', hj, hk, readFor, hsw, hv]
  refine ⟨ht.trans (peeked_acquireRead _ _ _ _ _ _), ?_⟩
  simp only [hl, hd, hn, List.filter, ne_eq, not_true, decide_false, List.isEmpty_nil, if_true, splitWords, Nat.mul_zero, pow_zero, Nat.mul_one,
    Nat.zero_add, Nat.div_one, List.range_one, List.map_cons, List.map_nil, Nat.mod_eq_of_lt (rdMem_lt _ _ _)]

/-! ### A lane of a monitor (R265, R266) -/

/-- R74: the integer that a word stands for under an integer type. -/
theorem rdTy_eq_intOf (ty : BitVec 4) (x : Word) : rdTy ty x = intOf ty x := by
  have hw : 0 < tyWidth ty := Nat.mul_pos (by decide) (Nat.two_pow_pos _)
  unfold rdTy rdInt intOf tySigned
  generalize tyWidth ty = n at hw
  have hn : 2 ^ n = 2 * 2 ^ (n - 1) := by rw [← Nat.pow_succ']; congr 1; omega
  by_cases h : ty.toNat < 4
  · simp only [h, decide_true, Bool.true_and, decide_eq_true_eq, if_true]
    rw [BitVec.toInt_eq_toNat_cond, BitVec.toNat_setWidth]
    by_cases hc : x.toNat % 2 ^ n ≥ 2 ^ (n - 1)
    · rw [if_pos hc, if_neg (by omega)]
      norm_cast
    · rw [if_neg hc, if_pos (by omega)]
  · simp only [h, decide_false, Bool.false_and, Bool.false_eq_true, if_false, BitVec.toNat_setWidth]

/-- R79: the six integer comparisons. -/
theorem intHolds_eq {cc : Nat} (hcc : cc ≤ 5) (ty : BitVec 4) (a b : Word) : intHolds cc ty a b = cmpHolds cc (intOf ty a) (intOf ty b) := by
  unfold intHolds cmpHolds
  rw [rdTy_eq_intOf, rdTy_eq_intOf]
  generalize intOf ty a = x
  generalize intOf ty b = y
  have hne : (decide (x < y) || decide (x > y) || false) = decide (x ≠ y) := by rw [Bool.or_false, ← Bool.decide_or, decide_eq_decide]; omega
  have hle : (decide (x < y) || decide (x = y)) = decide (x ≤ y) := by rw [← Bool.decide_or, decide_eq_decide]; omega
  have hge : (decide (x > y) || decide (x = y)) = decide (x ≥ y) := by rw [← Bool.decide_or, decide_eq_decide]; omega
  obtain rfl | rfl | rfl | rfl | rfl | rfl : cc = 0 ∨ cc = 1 ∨ cc = 2 ∨ cc = 3 ∨ cc = 4 ∨ cc = 5 := by omega
  all_goals simp [ccHolds, ← hne, ← hle, ← hge]

/-- R265: a read of a location at home resolves its lane where the word compares with B. -/
theorem monRead_home {s : State} {o : Op} {m : MonLane} (ty : BitVec 4) (cc scope : Nat) (hw : s.swc = []) (hp : s.prov = []) (h : plainMon s o m)
    (hcc : cc ≤ 5) :
    Peeked s (monRead s o ty cc scope m).1 ∧
      (monRead s o ty cc scope m).2.1 = { m with last := loadWord ty (rdMem s (accKey s m.acc) m.acc.size), read := true } ∧
      (monRead s o ty cc scope m).2.2 =
        if cmpHolds cc (intOf ty (loadWord ty (rdMem s (accKey s m.acc) m.acc.size))) (intOf ty m.b) then
          some ⟨.v, loadWord ty (rdMem s (accKey s m.acc) m.acc.size)⟩ else none := by
  obtain ⟨-, hacc, hsw, hn, hl, hd, -, -, hready, hf⟩ := h
  obtain ⟨hpk, hval⟩ := readAcc_home (ty := ty) hw hp hacc hsw hn hl hd hf
  have hclean : ∀ u, Peeked s u → ∀ w sc, acquireNow u w sc = u := fun u hu w sc => acquireNow_clean (hu.swc.trans hw) w sc
  unfold monRead
  simp only [hready, Bool.not_true, Bool.false_eq_true, if_false, invScope_clean hw, hval, List.headD_cons, TWord.valid, reduceCtorEq, monHolds,
    intHolds_eq hcc]
  split
  · refine ⟨?_, rfl, rfl⟩
    rw [hclean _ hpk]
    dsimp only
    exact hpk.trans (peeked_acquireRead _ _ _ _ _ _)
  · exact ⟨hpk, rfl, rfl⟩

/-- R265: a lane after a step of its monitor. -/
theorem monLane_home {s : State} {o : Op} {m : MonLane} (ty : BitVec 4) (cc scope : Nat) (hw : s.swc = []) (hp : s.prov = []) (h : plainMon s o m)
    (hcc : cc ≤ 5) :
    Peeked s (monLane s o ty cc scope false m).1 ∧ (monLane s o ty cc scope false m).2 = monAfter s (getCore s (coreOf s o.w)).cyc ty cc m := by
  obtain ⟨hpk, hlane, hres⟩ := monRead_home ty cc scope hw hp h hcc
  have hout : m.out = none := h.1
  unfold monLane monAfter
  simp only [hout, Option.isSome_none, Bool.false_eq_true, if_false, hlane, hres, Bool.true_and]
  refine ⟨hpk, ?_⟩
  congr 1
  split
  · rfl
  · cases m.limit <;> rfl

end Sys2Proof.Machine
end

section
/-!
R265, R266: MONITOR_RECHECK and MWAIT_LIMIT, the steps of the monitors of a suspended `mwait`.
-/
namespace Sys2Proof.Machine
open Claims

/-! ### The operation of a monitor -/

theorem findOp_setOpKind {s : State} {o : Op} (h : findOp s o.id = some o) (kd : OpKind) :
    findOp (setOpKind s o.id kd) o.id = some { o with kind := kd } := by
  unfold findOp setOpKind at *
  dsimp only
  generalize s.ops = l at h
  induction l with
  | nil => cases h
  | cons p r ih =>
    rw [List.map_cons]
    by_cases hp : p.id = o.id
    · rw [List.find?_cons_of_pos (by simpa using hp)] at h
      cases h
      rw [if_pos rfl]
      exact List.find?_cons_of_pos (by simp)
    · rw [List.find?_cons_of_neg (by simpa using hp)] at h
      rw [if_neg hp, List.find?_cons_of_neg (by simpa using hp)]
      exact ih h

theorem finishOp_eq {o : Op} (hp : o.push = none) (s : State) (ws : List (Nat × Nat × TWord)) :
    ∃ v r p ops, finishOp s o ws = { s with vregs := v, sregs := r, pend := p, ops := ops } ∧
      ops.map Op.bare = (s.ops.filter (fun e => decide (e.id ≠ o.id))).map Op.bare := by
  obtain ⟨v, r, p, q, h, hq⟩ := writeDst_eq (endOp s o.id) o ws
  have hf : finishOp s o ws = writeDst (endOp s o.id) o ws := by unfold finishOp; rw [hp]
  exact ⟨v, r, p, q, hf.trans h, hq⟩

/-- R39: an operation that has ended is no longer outstanding. -/
theorem findOp_finishOp {o : Op} (hp : o.push = none) (s : State) (ws : List (Nat × Nat × TWord)) : findOp (finishOp s o ws) o.id = none := by
  obtain ⟨v, r, p, ops, h, hops⟩ := finishOp_eq hp s ws
  rw [h]
  refine List.find?_eq_none.2 fun e he hid => ?_
  have hb : Op.bare e ∈ (s.ops.filter (fun e => decide (e.id ≠ o.id))).map Op.bare := hops ▸ List.mem_map_of_mem he
  obtain ⟨y, hy, hye⟩ := List.mem_map.1 hb
  have hyid : y.bare.id = e.bare.id := congrArg Op.id hye
  have hne := (List.mem_filter.1 hy).2
  simp only [decide_eq_true_eq] at hid hne
  exact hne (hyid.trans hid)

/-! ### A step of a monitor -/

/-- Lanes read one after the other, where each read leaves what the next one asks for. -/
theorem foldl_lanes {P : State → Prop} {step : State → MonLane → State × MonLane} {g : MonLane → MonLane} (lanes : List MonLane)
    (h : ∀ u, P u → ∀ m ∈ lanes, P (step u m).1 ∧ (step u m).2 = g m) (acc : State × List MonLane) (hs : P acc.1) :
    ∃ u, P u ∧ lanes.foldl (fun (acc : State × List MonLane) m => let p := step acc.1 m; (p.1, acc.2 ++ [p.2])) acc = (u, acc.2 ++ lanes.map g) := by
  induction lanes generalizing acc with
  | nil => exact ⟨acc.1, hs, by rw [List.map_nil, List.append_nil]; rfl⟩
  | cons m r ih =>
    obtain ⟨hp, hm⟩ := h acc.1 hs m (.head _)
    obtain ⟨u, hu, he⟩ := ih (fun u hu m hm => h u hu m (.tail _ hm)) ((step acc.1 m).1, acc.2 ++ [(step acc.1 m).2]) hp
    exact ⟨u, hu, by rw [List.foldl_cons, he, hm, List.append_assoc]; rfl⟩

/-- What a monitor writes once its lanes are resolved. -/
def monResults (d : Nat) (lanes : List MonLane) : List (Nat × Nat × TWord) := lanes.filterMap (fun m => m.out.map (fun v => (d, m.acc.lane, v)))

section
variable {s : State} {o : Op} {d : Nat} {ty : BitVec 4} {cc scope : Nat}

theorem monStep_lanes {P : State → Prop} {g : MonLane → MonLane} {ms : List MonLane} {limits : Bool} (hk : o.kind = .monitor ms d ty cc scope)
    (hs : P s) (h : ∀ u, P u → ∀ m ∈ ms, P (monLane u o ty cc scope limits m).1 ∧ (monLane u o ty cc scope limits m).2 = g m) :
    ∃ u, P u ∧ monStep s o limits = if (ms.map g).all (fun m => m.out.isSome) then finishOp u o (monResults d (ms.map g))
      else setOpKind u o.id (.monitor (ms.map g) d ty cc scope) := by
  obtain ⟨u, hu, he⟩ := foldl_lanes ms h (s, []) hs
  refine ⟨u, hu, ?_⟩
  unfold monStep
  simp only [hk, he, List.nil_append]
  by_cases ha : (ms.map g).all (fun m => m.out.isSome) = true
  · rw [if_pos ha, if_neg]
    · rfl
    · simpa [List.any_eq_true, Option.isSome_iff_ne_none] using ha
  · rw [if_neg ha, if_pos]
    simpa [List.any_eq_true, Option.isSome_iff_ne_none] using ha

theorem monStep_single {m : MonLane} {limits : Bool} (hk : o.kind = .monitor [m] d ty cc scope) :
    monStep s o limits =
      if (monLane s o ty cc scope limits m).2.out.isNone then
        setOpKind (monLane s o ty cc scope limits m).1 o.id (.monitor [(monLane s o ty cc scope limits m).2] d ty cc scope)
      else finishOp (monLane s o ty cc scope limits m).1 o (monResults d [(monLane s o ty cc scope limits m).2]) := by
  unfold monStep
  simp only [hk, List.foldl_cons, List.foldl_nil, List.nil_append, List.any_cons, List.any_nil, Bool.or_false]
  rfl

variable {w k : Nat}

theorem monEvent_eq {ms : List MonLane} {limits : Bool} (hs : (getSplit s w k).susp = some (.op o.id)) (ho : findOp s o.id = some o)
    (hp : o.push = none) (hk : o.kind = .monitor ms d ty cc scope) :
    monEvent s w k limits = if (findOp (monStep s o limits) o.id).isNone then wakeAdvance w k (monStep s o limits) else monStep s o limits := by
  have hm : monOf s w k = some o := by
    unfold monOf
    simp only [hs, ho, Option.bind_some, hk]
  unfold monEvent
  simp only [hm, hp, Option.isNone_none, and_true]

/-- R57, R265: the end of a monitor whose lanes are resolved. -/
theorem monitor_ends {u : State} (hu : Behind s u) (hp : o.push = none) (w k : Nat) (ws : List (Nat × Nat × TWord)) :
    Completes o ws s (wakeAdvance w k (finishOp u o ws)) ∧ Resumes s w k (wakeAdvance w k (finishOp u o ws)) ∧
      (wakeAdvance w k (finishOp u o ws)).mem = u.mem := by
  have hr : ∀ w r l, rdReg u w r l = rdReg s w r l := fun w r l => by unfold rdReg; rw [hu.vregs, hu.sregs]
  have hc := finishOp_completes u s o ws hp hr (by unfold endOp; rw [hu.ops])
  have hsp := Spares.of_behind hu w k
  obtain ⟨v, r, p, ops, hf, -⟩ := finishOp_eq hp u ws
  refine ⟨⟨hc.value, hc.regs, hc.ops⟩, ?_, ?_⟩
  · unfold Resumes wakeAdvance
    rw [getSplit_setSplit_same, hf, ← hsp.split, ← hsp.coreOf, ← hsp.getCore]
    rfl
  · rw [hf]; rfl

/-- R266: a monitor whose lanes are not all resolved. -/
theorem monitor_goesOn {u : State} (hu : Behind s u) (ho : findOp s o.id = some o) (w k : Nat) (kd : OpKind) :
    getSplit (setOpKind u o.id kd) w k = getSplit s w k ∧ (setOpKind u o.id kd).vregs = s.vregs ∧ (setOpKind u o.id kd).sregs = s.sregs ∧
      findOp (setOpKind u o.id kd) o.id = some { o with kind := kd } :=
  ⟨hu.getSplit w k, hu.vregs, hu.sregs, findOp_setOpKind ((hu.findOp o.id).trans ho) kd⟩

theorem isNone_findOp_setOpKind {u : State} (hu : Behind s u) (ho : findOp s o.id = some o) (kd : OpKind) :
    (findOp (setOpKind u o.id kd) o.id).isNone = false := by
  rw [findOp_setOpKind ((hu.findOp o.id).trans ho) kd]
  rfl

/-- R265, R266: a step that reads every lane of a monitor. -/
theorem monitorRecheck_reads {ms : List MonLane} (hs : (getSplit s w k).susp = some (.op o.id)) (ho : findOp s o.id = some o) (hp : o.push = none)
    (hw : o.w = w) (hk : o.kind = .monitor ms d ty cc scope) (hcc : cc ≤ 5) (hswc : s.swc = []) (hprov : s.prov = [])
    (hm : ∀ m ∈ ms, plainMon s o m) :
    let ns := ms.map (monAfter s (getCore s (coreOf s w)).cyc ty cc)
    ∃ t, exec (.monitorRecheck w k) s = .next t ∧ t.mem = s.mem ∧
      if ns.all (fun m => m.out.isSome) then
        Completes o (ns.filterMap (fun m => m.out.map (fun v => (d, m.acc.lane, v)))) s t ∧ Resumes s w k t
      else getSplit t w k = getSplit s w k ∧ t.vregs = s.vregs ∧ t.sregs = s.sregs ∧ findOp t o.id = some { o with kind := .monitor ns d ty cc scope } := by
  intro ns
  have hstep : ∀ u, Peeked s u → ∀ m ∈ ms, Peeked s (monLane u o ty cc scope false m).1 ∧
      (monLane u o ty cc scope false m).2 = monAfter s (getCore s (coreOf s w)).cyc ty cc m := fun u hu m hmem => by
    obtain ⟨h1, h2⟩ := monLane_home (s := u) ty cc scope (hu.swc.trans hswc) (hu.prov.trans hprov) (hu.plainMon (hm m hmem)) hcc
    have hsp := Spares.of_behind hu.behind w k
    refine ⟨hu.trans h1, h2.trans ?_⟩
    unfold monAfter
    rw [hw, hsp.coreOf, hsp.getCore, hu.accKey, hu.rdMem]
  obtain ⟨u, hu, he⟩ := monStep_lanes hk (.refl s) hstep
  rw [show ms.map (monAfter s (getCore s (coreOf s w)).cyc ty cc) = ns from rfl] at he
  rw [exec_monitorRecheck, execMonitorRecheck, monEvent_eq hs ho hp hk, he]
  refine ⟨_, rfl, ?_⟩
  by_cases ha : ns.all (fun m => m.out.isSome) = true
  · obtain ⟨hc, hres, hmem⟩ := monitor_ends hu.behind hp w k (monResults d ns)
    simp only [if_pos ha, findOp_finishOp hp, Option.isNone_none, if_true]
    exact ⟨hmem.trans hu.mem, hc, hres⟩
  · simp only [if_neg ha, isNone_findOp_setOpKind hu.behind ho, Bool.false_eq_true, if_false]
    exact ⟨hu.mem, monitor_goesOn hu.behind ho w k _⟩

/-- A read leaves of a lane all but its last word. -/
theorem monRead_lane (s : State) (o : Op) (ty : BitVec 4) (cc scope : Nat) (m : MonLane) :
    ∃ last read, (monRead s o ty cc scope m).2.1 = { m with last := last, read := read } := by
  unfold monRead
  dsimp only
  split
  · exact ⟨m.last, m.read, rfl⟩
  split
  · exact ⟨_, true, rfl⟩
  split
  · exact ⟨_, true, rfl⟩
  · exact ⟨_, true, rfl⟩

/-- R265, R266: a step of a monitor of one lane, which its read resolves, which goes on waiting, or whose limit has passed. -/
theorem monitor_single {m : MonLane} (hs : (getSplit s w k).susp = some (.op o.id)) (ho : findOp s o.id = some o) (hp : o.push = none)
    (hw : o.w = w) (hk : o.kind = .monitor [m] d ty cc scope) (hout : m.out = none) :
    (∀ v, (monRead s o ty cc scope m).2.2 = some v → ∃ t, exec (.monitorRecheck w k) s = .next t ∧
      Completes o [(d, m.acc.lane, v)] (monRead s o ty cc scope m).1 t ∧ Resumes s w k t) ∧
    ((monRead s o ty cc scope m).2.2 = none → (∀ x, m.limit = some x → (getCore s (coreOf s w)).cyc < x) →
      ∃ t, exec (.monitorRecheck w k) s = .next t ∧ getSplit t w k = getSplit s w k ∧ t.vregs = s.vregs ∧ t.sregs = s.sregs ∧
        findOp t o.id = some { o with kind := .monitor [(monRead s o ty cc scope m).2.1] d ty cc scope }) ∧
    (∀ x, m.read = true → m.limit = some x → x ≤ (getCore s (coreOf s w)).cyc → ∃ t, exec (.mwaitLimit w k) s = .next t ∧
      Completes o [(d, m.acc.lane, ⟨.n, m.last⟩)] s t ∧ Resumes s w k t ∧ t.mem = s.mem) := by
  have hb := behind_monRead s o ty cc scope m
  obtain ⟨last, rd, hlane⟩ := monRead_lane s o ty cc scope m
  have hread : monLane s o ty cc scope false m = ((monRead s o ty cc scope m).1, { (monRead s o ty cc scope m).2.1 with
      out := (monRead s o ty cc scope m).2.2.or (if (monRead s o ty cc scope m).2.1.read && m.limit.any (fun x => decide (x ≤ (getCore s (coreOf s w)).cyc))
        then some ⟨.n, (monRead s o ty cc scope m).2.1.last⟩ else none) }) := by
    unfold monLane
    rw [if_neg (by rw [hout]; decide)]
    simp only [Bool.false_eq_true, if_false, hlane, hw]
    cases m.limit <;> rfl
  refine ⟨fun v hv => ?_, fun hv hlim => ?_, fun x hr hl hx => ?_⟩
  · rw [hv, hlane, Option.some_or] at hread
    have he := monStep_single (s := s) (limits := false) hk
    rw [hread] at he
    simp only [Option.isNone_some, Bool.false_eq_true, if_false, monResults, List.filterMap_cons, List.filterMap_nil, Option.map_some] at he
    rw [exec_monitorRecheck, execMonitorRecheck, monEvent_eq hs ho hp hk, he, findOp_finishOp hp, Option.isNone_none, if_pos rfl]
    exact ⟨_, rfl, (monitor_ends (.refl _) hp w k _).1, (monitor_ends hb hp w k _).2.1⟩
  · have hnl : m.limit.any (fun x => decide (x ≤ (getCore s (coreOf s w)).cyc)) = false := by
      cases hl : m.limit with
      | none => rfl
      | some x => exact decide_eq_false (Nat.not_le.2 (hlim x hl))
    have hm : { (monRead s o ty cc scope m).2.1 with out := none } = (monRead s o ty cc scope m).2.1 := by rw [hlane, ← hout]
    rw [hv, hnl, Bool.and_false, if_neg Bool.false_ne_true, Option.none_or, hm] at hread
    have he := monStep_single (s := s) (limits := false) hk
    rw [hread] at he
    simp only [show (monRead s o ty cc scope m).2.1.out = none by rw [hlane]; exact hout, Option.isNone_none, if_true] at he
    rw [exec_monitorRecheck, execMonitorRecheck, monEvent_eq hs ho hp hk, he, isNone_findOp_setOpKind hb ho, if_neg Bool.false_ne_true]
    exact ⟨_, rfl, monitor_goesOn hb ho w k _⟩
  · have hlate : monLane s o ty cc scope true m = (s, { m with out := some ⟨.n, m.last⟩ }) := by
      unfold monLane
      rw [if_neg (by rw [hout]; decide)]
      simp only [if_true, hl, hr, hw, hx, decide_true, Bool.and_true, Option.none_or]
    have he := monStep_single (s := s) (limits := true) hk
    rw [hlate] at he
    simp only [Option.isNone_some, Bool.false_eq_true, if_false, monResults, List.filterMap_cons, List.filterMap_nil, Option.map_some] at he
    rw [exec_mwaitLimit, execMwaitLimit, monEvent_eq hs ho hp hk, he, findOp_finishOp hp, Option.isNone_none, if_pos rfl]
    exact ⟨_, rfl, monitor_ends (.refl s) hp w k _⟩

end

end Sys2Proof.Machine
end

section
/-!
R177, R184, R265, R266: `mwait` at issue.
-/
namespace Sys2Proof.Machine
open Claims

/-! ### The marks of the accesses about to be made (R177, R180, R220) -/

/-- Translation and race records have changed, and of memory no byte but some of those named. -/
structure Noted (own : Nat → Prop) (s u : State) : Prop where
  rest : ∃ m tl ow gr bl, u = { s with mem := m, tlb := tl, owners := ow, granules := gr, blocks := bl }
  place : ∀ b, placeOf u b = placeOf s b
  keeps : KeepsMem s u own

namespace Noted

variable {own : Nat → Prop} {s t u : State}

theorem refl (own : Nat → Prop) (s : State) : Noted own s s := ⟨⟨_, _, _, _, _, rfl⟩, fun _ => rfl, fun _ _ => rfl⟩

theorem trans (h : Noted own s t) (h' : Noted own t u) : Noted own s u := by
  refine ⟨?_, fun b => (h'.place b).trans (h.place b), fun a ha => (h'.keeps a ha).trans (h.keeps a ha)⟩
  obtain ⟨m, tl, ow, gr, bl, rfl⟩ := h.rest
  obtain ⟨m', tl', ow', gr', bl', rfl⟩ := h'.rest
  exact ⟨m', tl', ow', gr', bl', rfl⟩

theorem behind (h : Noted own s u) : Behind s u := by
  refine ⟨?_, h.place⟩
  obtain ⟨_, _, _, _, _, rfl⟩ := h.rest
  rfl

theorem swc (h : Noted own s u) : u.swc = s.swc := by obtain ⟨_, _, _, _, _, rfl⟩ := h.rest; rfl
theorem prov (h : Noted own s u) : u.prov = s.prov := by obtain ⟨_, _, _, _, _, rfl⟩ := h.rest; rfl
theorem dataFault (h : Noted own s u) (who key n : Nat) : dataFault u who key n = dataFault s who key n := by
  obtain ⟨_, _, _, _, _, rfl⟩ := h.rest; rfl

theorem foldl {α : Type} {f : State → α → State} (l : List α) (hf : ∀ s, ∀ a ∈ l, Noted own s (f s a)) (s : State) : Noted own s (l.foldl f s) := by
  induction l generalizing s with
  | nil => exact refl own s
  | cons a r ih => exact (hf s a (.head _)).trans (ih (fun s x hx => hf s x (.tail _ hx)) (f s a))

theorem ite {p : Prop} [Decidable p] (h : Noted own s t) (h' : Noted own s u) : Noted own s (if p then t else u) := by
  split
  · exact h
  · exact h'

end Noted

theorem noted_owners {own : Nat → Prop} (s : State) (x : List (Nat × Nat)) : Noted own s { s with owners := x } :=
  ⟨⟨_, _, _, _, _, rfl⟩, fun _ => rfl, fun _ _ => rfl⟩

theorem noted_touchLeaf {own : Nat → Prop} (s : State) (die space va : Nat) {l : Leaf} (write : Bool)
    (hown : ∀ a, l.entry ≤ a → a < l.entry + 8 → own a) : Noted own s (touchLeaf s die space va l write) := by
  have he : Noted own s (tlbEnter s die space va l) := ⟨⟨_, _, _, _, _, rfl⟩, fun _ => rfl, fun _ _ => rfl⟩
  unfold touchLeaf
  dsimp only
  generalize rdMem (tlbEnter s die space va l) l.entry 8 ||| 2 ^ l.abit ||| (if write then 2 ^ l.dbit else 0) = marked
  split
  · exact he
  · refine he.trans ⟨⟨_, _, _, _, _, rfl⟩, fun _ => rfl, fun a ha => rdByte_wrMem_ne _ _ _ _ _ ?_⟩
    by_contra hc
    exact ha (hown a (by omega) (by omega))

theorem noted_touch {own : Nat → Prop} (s : State) (a : Agent) (va : Nat) {l : Leaf} (write : Bool)
    (hown : ∀ x, l.entry ≤ x → x < l.entry + 8 → own x) : Noted own s (touch s a va l write) := by
  have hl := noted_touchLeaf s a.die a.space va write hown
  unfold touch
  dsimp only
  generalize touchLeaf s a.die a.space va l write = u at hl
  exact .ite (hl.trans (noted_owners u _)) hl

theorem noted_countRaces {own : Nat → Prop} (s : State) (b n : Nat) : Noted own s (countRaces s b n) :=
  .ite (.refl own s) ⟨⟨_, _, _, _, _, rfl⟩, (behind_setBlock s b (by rfl)).place, fun _ _ => rfl⟩

theorem noted_noteAccess {own : Nat → Prop} (s : State) (b key : Nat) (k : AKind) : Noted own s (noteAccess s b key k) := by
  refine ⟨?_, (behind_noteAccess s b key k).place, fun a _ => by unfold rdByte; simp⟩
  unfold noteAccess
  cases k <;> exact ⟨_, _, _, _, _, rfl⟩

theorem noted_raceRecord {own : Nat → Prop} (s : State) (b key : Nat) (l : Leaf) (k : AKind) : Noted own s (raceRecord s b key l k) :=
  .ite (.refl own s) ((noted_countRaces s b _).trans (noted_noteAccess _ b key k))

theorem noted_touchAll (s : State) (a : Agent) (k : AKind) (xs : List (Leaf × Acc)) :
    Noted (fun y => ∃ x ∈ xs, x.1.entry ≤ y ∧ y < x.1.entry + 8) s (touchAll s a k xs) :=
  .foldl xs (fun s x hx => .trans (noted_touch s a _ _ fun _ h1 h2 => ⟨x, hx, h1, h2⟩) (.foldl _ (fun s _ _ => noted_raceRecord s _ _ _ _) _)) s

/-! ### Lanes that pass every check (R184) -/

section
variable (ls : List Nat) (leaf : Nat → Leaf) (acc : Nat → Acc)

/-- The lanes of a word, each of which passes its checks. -/
def passed : List (Nat × LaneChk) := ls.map (fun l => (l, .ok (leaf l) (acc l)))

theorem settledOf_passed : settledOf (passed ls leaf acc) = [] := by simp [settledOf, passed]
theorem trapsOf_passed : trapsOf (passed ls leaf acc) = [] := by simp [trapsOf, passed]
theorem refusedVas_passed : refusedVas (passed ls leaf acc) = [] := by
  unfold refusedVas
  rw [trapsOf_passed]
  simp [trapVas, passed]
theorem opAccs_passed : opAccs (passed ls leaf acc) = ls.map acc := by
  unfold opAccs passed
  rw [List.filterMap_map]
  exact List.filterMap_eq_map' ▸ rfl
theorem accsOf_passed : accsOf (passed ls leaf acc) = ls.map (fun l => (leaf l, acc l)) := by
  unfold accsOf passed
  rw [List.filterMap_map]
  exact List.filterMap_eq_map' ▸ rfl
theorem waitOf_passed : waitOf (passed ls leaf acc) = none := by
  unfold waitOf passed
  rw [List.foldl_map]
  induction ls with
  | nil => rfl
  | cons l r ih => exact ih

theorem decideLanes_passed (c : Ctx) (s go : State) : decideLanes c s (passed ls leaf acc) go = go := by
  unfold decideLanes
  rw [trapsOf_passed, waitOf_passed]
  rfl

end

theorem writeNow_nil (s : State) (w code : Nat) : writeNow s w code [] = s := by
  have hk : killPend s w code 0 [] = s := by
    unfold killPend
    simp
  have hd : killDst s w code [] = s := by
    unfold killDst
    simp
  have hr : wrReg s w code [] = s := by
    unfold wrReg
    split
    · rfl
    split
    · rfl
    · rfl
  simp only [writeNow, List.map_nil, hk, hr, hd]

/-! ### The operation that `mwait` starts (R265) -/

section
variable (f : Fields) (s : State) (cu : Cur) (acc : Nat → Acc)

/-- The monitors of its lanes, before their first read. -/
def mwaitLanes : List MonLane := (lanesNow f s cu).map (fun l => monitorOf f s cu (acc l) l)

/-- The operation of its lanes. -/
def mwaitOp : Op :=
  { id := s.nextOp, w := cu.w, lanes := maskOf (fun l => (lanesNow f s cu).contains l), cls := none, dst := dstOf f.d.toNat (lanesNow f s cu),
    push := none, denied := [], kind := .monitor (mwaitLanes f s cu acc) f.d.toNat f.ty ((modOf f).toNat / 16 % 8) (scopeOf f),
    word := (ctxOf specMwait f s cu).word, path := (ctxOf specMwait f s cu).path, issuer := (getSplit s cu.w cu.k).mask, routes := s.routes }

/-- The state in which the operation stands, before its first read. -/
def mwaitBegun (leaf : Nat → Leaf) : State :=
  let u := touchAll (popAll (atIssue s cu) cu.w (getSplit s cu.w cu.k).mask (specMwait.reads f)) (agentC (ctxOf specMwait f s cu) (atIssue s cu)) .load
    ((lanesNow f s cu).map (fun l => (leaf l, acc l)))
  suspend (ctxOf specMwait f s cu) (.op s.nextOp) { u with ops := u.ops ++ [mwaitOp f s cu acc], nextOp := s.nextOp + 1 }

end

section
variable {f : Fields} {s : State} {cu : Cur} {leaf : Nat → Leaf} {acc : Nat → Acc}

/-- Each lane of `mwait` passes its checks, by the translation and the access given (R182, R265). -/
def MwaitPasses (f : Fields) (s : State) (cu : Cur) (leaf : Nat → Leaf) (acc : Nat → Acc) (l : Nat) : Prop :=
  loadLane (atIssue s cu) (ctxOf specMwait f s cu) [inA specMwait f s cu l, inB specMwait f s cu l, inC specMwait f s cu l] l (fun _ =>
    chkLane (atIssue s cu) (agentC (ctxOf specMwait f s cu) (atIssue s cu)) .load l (inA specMwait f s cu l).data (tyBytes f.ty) 1 0 0 0) =
    .ok (leaf l) (acc l)

/-- R265: where every lane passes, the operation stands and reads its locations once. -/
theorem mwaitBody_eq (hq : isQ f.d = false) (hne : lanesNow f s cu ≠ []) (hp : ∀ l ∈ lanesNow f s cu, MwaitPasses f s cu leaf acc l)
    (hl : ∀ l ∈ lanesNow f s cu, (acc l).lane = l) :
    mwaitBody (ctxOf specMwait f s cu) (atIssue s cu) =
      if (findOp (monStep (mwaitBegun f s cu acc leaf) (mwaitOp f s cu acc) false) s.nextOp).isNone then
        advance (ctxOf specMwait f s cu) (monStep (mwaitBegun f s cu acc leaf) (mwaitOp f s cu acc) false)
      else monStep (mwaitBegun f s cu acc leaf) (mwaitOp f s cu acc) false := by
  have hrs : (computeLanes (ctxOf specMwait f s cu)).map (fun l => (l, loadLane (atIssue s cu) (ctxOf specMwait f s cu)
      [opA (atIssue s cu) (ctxOf specMwait f s cu) l, opB (atIssue s cu) (ctxOf specMwait f s cu) l, opC (atIssue s cu) (ctxOf specMwait f s cu) l] l
      (fun _ => chkLane (atIssue s cu) (agentC (ctxOf specMwait f s cu) (atIssue s cu)) .load l
        (opA (atIssue s cu) (ctxOf specMwait f s cu) l).data (tyBytes f.ty) 1 0 0 0))) = passed (lanesNow f s cu) leaf acc :=
    List.map_congr_left fun l hlm => congrArg (Prod.mk l) (hp l hlm)
  have hmons : ((lanesNow f s cu).map acc).map (fun x => ({
      acc := x, b := (opB (atIssue s cu) (ctxOf specMwait f s cu) x.lane).data,
      limit := if (opC (atIssue s cu) (ctxOf specMwait f s cu) x.lane).data.toNat % 2 ^ 32 = 2 ^ 32 - 1 then none
        else some (issueTime s cu.w cu.k + (opC (atIssue s cu) (ctxOf specMwait f s cu) x.lane).data.toNat % 2 ^ 32),
      last := 0, read := false, out := none } : MonLane)) =
      mwaitLanes f s cu acc := by
    rw [List.map_map]
    refine List.map_congr_left fun l hlm => ?_
    simp only [Function.comp, hl l hlm]
    rfl
  have hlanes : (mwaitLanes f s cu acc).map (·.acc.lane) = lanesNow f s cu := by
    unfold mwaitLanes
    rw [List.map_map]
    exact (List.map_congr_left fun l hlm => hl l hlm).trans (List.map_id _)
  have hemp : (mwaitLanes f s cu acc).isEmpty = false := by
    unfold mwaitLanes
    cases h : lanesNow f s cu with
    | nil => exact absurd h hne
    | cons a r => rfl
  have hpush : pushTo (ctxOf specMwait f s cu) (lanesNow f s cu) = none :=
    if_neg (show ¬isQ f.d = true by rw [hq]; exact Bool.false_ne_true)
  have hwalk : ∀ a, walkedAll (atIssue s cu) a [] = atIssue s cu := fun a => rfl
  have hsettle : ∀ u, settleNow (ctxOf specMwait f s cu) [] u = u := fun u => by
    unfold settleNow
    simp only [writeNow_nil, ite_self]
  have hgate : ∀ lanes u go, pushGate (ctxOf specMwait f s cu) lanes u go = go := fun lanes u go => by
    unfold pushGate
    simp only [ctxOf_f, hq, Bool.not_false, if_true]
  have hpoison : settledPoison (ctxOf specMwait f s cu) [] = none := by
    unfold settledPoison
    simp only [List.filter_nil, List.isEmpty_nil, Bool.not_true, Bool.and_false, Bool.false_eq_true, if_false]
  have hnext : ∀ a xs, (touchAll (popAll (atIssue s cu) cu.w (getSplit s cu.w cu.k).mask (specMwait.reads f)) a .load xs).nextOp = s.nextOp := fun a xs => by
    rw [(noted_touchAll _ a .load xs).behind.nextOp, popAll_nextOp]
    rfl
  unfold mwaitBody
  simp only [hwalk, hsettle, hgate, hpoison, decideLanes_passed, hnext, ctxOf_f, ctxOf_t, ctxOf_w, ctxOf_sp, hrs, settledOf_passed, refusedVas_passed,
    opAccs_passed, accsOf_passed]
  generalize hu : touchAll (popAll (atIssue s cu) cu.w (getSplit s cu.w cu.k).mask (specMwait.reads f))
    (agentC (ctxOf specMwait f s cu) (atIssue s cu)) .load ((lanesNow f s cu).map (fun l => (leaf l, acc l))) = u
  unfold mwaitBegun
  rw [hu, hmons, hlanes, hemp, hpush, if_neg Bool.false_ne_true]
  simp only [Option.isNone_none, and_true]
  rfl

/-- The state in which the operation of `mwait` stands: the split waits for it, and no register has changed. -/
structure MwaitStands (f : Fields) (s : State) (cu : Cur) (acc : Nat → Acc) (own : Nat → Prop) (t : State) : Prop where
  ops : t.ops = s.ops ++ [mwaitOp f s cu acc]
  regs : (t.vregs, t.sregs) = (s.vregs, s.sregs)
  split : getSplit t cu.w cu.k = heldBy (.op s.nextOp) f s cu
  keeps : KeepsMem s t own
  caches : (t.swc, t.prov) = (s.swc, s.prov)
  fault : ∀ who key n, dataFault t who key n = dataFault s who key n
  cyc : (getCore t (coreOf t cu.w)).cyc = issueTime s cu.w cu.k

theorem getCore_atIssue (s : State) (cu : Cur) : (getCore (atIssue s cu) (coreOf s cu.w)).cyc = issueTime s cu.w cu.k := by
  have h : ∀ u t, (getCore (takeSlot u cu.w cu.k t) (coreOf u cu.w)).cyc = t := fun u t => by
    unfold takeSlot setTime setCore
    simp only [getCore, setWarp, setQuarter, sget_sset_same]
  exact h { s with cur := none, free := s.free + 1 } _

theorem mwaitBegun_stands (f : Fields) (s : State) (cu : Cur) (leaf : Nat → Leaf) (acc : Nat → Acc) :
    MwaitStands f s cu acc (fun a => ∃ l ∈ lanesNow f s cu, (leaf l).entry ≤ a ∧ a < (leaf l).entry + 8) (mwaitBegun f s cu acc leaf) := by
  obtain ⟨q, hq⟩ := popAll_eq (atIssue s cu) cu.w (getSplit s cu.w cu.k).mask (specMwait.reads f)
  unfold mwaitBegun
  dsimp only
  have hn := noted_touchAll { atIssue s cu with queues := q } (agentC (ctxOf specMwait f s cu) (atIssue s cu)) .load
    ((lanesNow f s cu).map (fun l => (leaf l, acc l)))
  rw [hq]
  generalize touchAll _ _ _ _ = u at hn ⊢
  have hb := hn.behind
  have hsp : getSplit { u with ops := u.ops ++ [mwaitOp f s cu acc], nextOp := s.nextOp + 1 } cu.w cu.k = getSplit s cu.w cu.k :=
    (hb.getSplit cu.w cu.k).trans (getSplit_startIssue s cu _ cu.w cu.k)
  rw [suspend_held (x := .op s.nextOp) rfl specMwait f s cu _ hsp]
  refine ⟨congrArg (· ++ [mwaitOp f s cu acc]) hb.ops, congrArg₂ Prod.mk hb.vregs hb.sregs, getSplit_setSplit_same _ _ _ _, fun a ha => ?_,
    congrArg₂ Prod.mk hn.swc hn.prov, fun who key n => hn.dataFault who key n, ?_⟩
  · refine hn.keeps a fun hx => ha ?_
    obtain ⟨x, hx, h1, h2⟩ := hx
    obtain ⟨l, hl, rfl⟩ := List.mem_map.1 hx
    exact ⟨l, hl, h1, h2⟩
  · have hc := (Spares.of_behind hb cu.w cu.k).coreOf cu.w
    exact (congrArg (fun n => (getCore u n).cyc) hc).trans ((congrArg CoreSt.cyc (hb.getCore _)).trans (getCore_atIssue s cu))

/-- What a suspended `mwait` leaves: no register changes, its split waits for its operation, whose lanes have been told. -/
structure MwaitWaits (f : Fields) (s : State) (cu : Cur) (acc : Nat → Acc) (own : Nat → Prop) (kd : OpKind) (t : State) : Prop where
  regs : KeepsRegs 0xFF s cu t
  susp : (getSplit t cu.w cu.k).susp = some (.op s.nextOp)
  pc : (getSplit t cu.w cu.k).pc = (getSplit s cu.w cu.k).pc
  op : { mwaitOp f s cu acc with kind := kd } ∈ t.ops
  mem : KeepsMem s t own

theorem mwaitWaits_of {own : Nat → Prop} {b u : State} (hb : MwaitStands f s cu acc own b) (hu : Behind b u) (hm : u.mem = b.mem) (kd : OpKind) :
    MwaitWaits f s cu acc own kd (setOpKind u s.nextOp kd) := by
  obtain ⟨hv, hg⟩ := Prod.mk.inj hb.regs
  have hsp : getSplit (setOpKind u s.nextOp kd) cu.w cu.k = heldBy (.op s.nextOp) f s cu := (hu.getSplit cu.w cu.k).trans hb.split
  refine ⟨fun w x l _ _ => ?_, by rw [hsp]; rfl, by rw [hsp]; rfl, ?_, fun a ha => ?_⟩
  · have h1 : u.vregs = s.vregs := hu.vregs.trans hv
    have h2 : u.sregs = s.sregs := hu.sregs.trans hg
    simp only [rdReg, setOpKind, h1, h2]
  · refine List.mem_map.2 ⟨mwaitOp f s cu acc, ?_, if_pos rfl⟩
    rw [hu.ops, hb.ops]
    exact List.mem_append_right _ (.head _)
  · refine Eq.trans ?_ (hb.keeps a ha)
    simp only [rdByte, setOpKind, hm]

theorem findOp_mwaitWaits {kd : OpKind} {own : Nat → Prop} {t : State} (h : MwaitWaits f s cu acc own kd t) : (findOp t s.nextOp).isNone = false := by
  unfold findOp
  rw [Option.isNone_eq_false_iff, List.find?_isSome]
  exact ⟨_, h.op, decide_eq_true rfl⟩

/-- R190: a location that an earlier access of the thread holds back is not read. -/
theorem monLane_held {u : State} {o e : Op} {m : MonLane} {y : Acc} (ty : BitVec 4) (cc scope : Nat) (he : e ∈ u.ops) (hid : e.id < o.id) (hw : e.w = o.w)
    (hy : y ∈ accsOfOp e) (hl : y.lane = m.acc.lane) (ho : overlap m.acc y = true) (hr : m.read = false) (hout : m.out = none) :
    monLane u o ty cc scope false m = (u, m) := by
  have hready : accReady u o m.acc = false := by
    have hb : (u.ops.filter (fun e => decide (e.id < o.id))).any
        (fun e => decide (e.w = o.w) && (accsOfOp e).any (fun y => decide (y.lane = m.acc.lane) && overlap m.acc y)) = true := by
      refine List.any_eq_true.2 ⟨e, List.mem_filter.2 ⟨he, decide_eq_true hid⟩, ?_⟩
      rw [decide_eq_true hw, Bool.true_and]
      exact List.any_eq_true.2 ⟨y, hy, by rw [decide_eq_true hl, ho]; rfl⟩
    unfold accReady
    simp only [hb, Bool.not_true, Bool.false_and]
  have hread : monRead u o ty cc scope m = (u, m, none) := by
    unfold monRead
    simp only [hready, Bool.not_false, if_true]
  unfold monLane
  rw [if_neg (by rw [hout]; exact Bool.false_ne_true)]
  simp only [Bool.false_eq_true, if_false, hread, hr, Bool.false_and, Option.none_or]
  rw [← hout, ← hr]

theorem lanesNow_ne_nil (h : issues specMwait f s cu = true) : lanesNow f s cu ≠ [] := by
  have hne := activeLanes_ne_nil h
  unfold lanesNow
  split
  · cases ha : activeLanes s cu with
    | nil => exact absurd ha hne
    | cons a r => exact List.cons_ne_nil _ _
  · exact hne

/-- R449: `mwait` is no fixed-latency word, so that no quarter keeps it for a replay. -/
theorem keepReplay_mwait (c : Ctx) (s t : State) : keepReplay specMwait c s t = t := by
  have hf : fixedWord specMwait = false := by decide
  unfold keepReplay
  simp only [hf, Bool.false_and, Bool.false_eq_true, if_false]

theorem exec_mwait_eq (h : issues specMwait f s cu = true) :
    exec (.mwait f) s = .next (mwaitBody (ctxOf specMwait f s cu) (atIssue s cu)) := by
  rw [exec_mwait, execMwait, issue_of_issues specMwait f s mwaitBody cu h, keepReplay_mwait]

/-- R265, R266: `mwait` whose locations are all held back waits with what it has not read. -/
theorem mwait_held (h : issues specMwait f s cu = true) (hq : isQ f.d = false) (hp : ∀ l ∈ lanesNow f s cu, MwaitPasses f s cu leaf acc l)
    (hl : ∀ l ∈ lanesNow f s cu, (acc l).lane = l)
    (hheld : ∀ l ∈ lanesNow f s cu, ∃ e ∈ s.ops, e.id < s.nextOp ∧ e.w = cu.w ∧ ∃ y ∈ accsOfOp e, y.lane = l ∧ overlap (acc l) y = true) :
    ∃ t, exec (.mwait f) s = .next t ∧
      MwaitWaits f s cu acc (fun a => ∃ l ∈ lanesNow f s cu, (leaf l).entry ≤ a ∧ a < (leaf l).entry + 8) (mwaitOp f s cu acc).kind t := by
  have hb := mwaitBegun_stands f s cu leaf acc
  have hne := lanesNow_ne_nil h
  have hstep : ∀ u, u = mwaitBegun f s cu acc leaf → ∀ m ∈ mwaitLanes f s cu acc,
      (monLane u (mwaitOp f s cu acc) f.ty ((modOf f).toNat / 16 % 8) (scopeOf f) false m).1 = mwaitBegun f s cu acc leaf ∧
      (monLane u (mwaitOp f s cu acc) f.ty ((modOf f).toNat / 16 % 8) (scopeOf f) false m).2 = id m := by
    rintro u rfl m hm
    obtain ⟨l, hlm, rfl⟩ := List.mem_map.1 hm
    obtain ⟨e, he, hid, hw, y, hy, hyl, ho⟩ := hheld l hlm
    rw [monLane_held f.ty _ _ (by rw [hb.ops]; exact List.mem_append_left _ he) hid hw hy (hyl.trans (hl l hlm).symm) ho rfl rfl]
    exact ⟨rfl, rfl⟩
  obtain ⟨u, rfl, hs⟩ := monStep_lanes (P := fun u => u = mwaitBegun f s cu acc leaf) (limits := false) rfl rfl hstep
  have hall : ((mwaitLanes f s cu acc).map id).all (fun m => m.out.isSome) = false := by
    obtain ⟨l, hlm⟩ := List.exists_mem_of_ne_nil _ hne
    rw [List.map_id, List.all_eq_false]
    exact ⟨_, List.mem_map_of_mem hlm, Bool.false_ne_true⟩
  rw [hall, if_neg Bool.false_ne_true, List.map_id] at hs
  have hw := mwaitWaits_of hb (.refl _) rfl (mwaitOp f s cu acc).kind
  refine ⟨_, ?_, hw⟩
  rw [exec_mwait_eq h, mwaitBody_eq hq hne hp hl, hs]
  exact congrArg Host.Outcome.next (if_neg fun hn => Bool.false_ne_true ((findOp_mwaitWaits hw).symm.trans hn))

/-- R265: the comparison of an `mwait` that issues is one of the six. -/
theorem mwait_cc (h : issues specMwait f s cu = true) : (modOf f).toNat / 16 % 8 ≤ 5 := by
  unfold issues at h
  simp only [Bool.and_eq_true, Option.isNone_iff_eq_none] at h
  obtain ⟨⟨⟨⟨⟨⟨⟨_, hcheck⟩, _⟩, _⟩, _⟩, _⟩, _⟩, _⟩ := h
  obtain ⟨-, hcheck⟩ := Option.or_eq_none_iff.1 hcheck
  obtain ⟨-, hcheck⟩ := Option.or_eq_none_iff.1 hcheck
  obtain ⟨-, hcheck⟩ := Option.or_eq_none_iff.1 hcheck
  obtain ⟨-, hcheck⟩ := Option.or_eq_none_iff.1 hcheck
  obtain ⟨-, hmd⟩ := Option.or_eq_none_iff.1 hcheck
  obtain ⟨-, hmd⟩ := Option.or_eq_none_iff.1 hmd
  obtain ⟨-, hcc⟩ := Option.or_eq_none_iff.1 hmd
  by_contra hn
  unfold chkIf at hcc
  rw [if_neg] at hcc
  · cases hcc
  · exact fun hd => hn (of_decide_eq_true hd)

/-- The access of one word that a lane's check gives (R182, R195). -/
theorem access_of_chkLane {u : State} {a : Agent} {l : Nat} {addr : Word} {size pol cmp : Nat} {lf : Leaf} {x : Acc}
    (h : chkLane u a .load l addr size 1 pol 0 cmp = .ok lf x) :
    x.n = 1 ∧ x.left = [0] ∧ x.data = 0 ∧ x.also = [] ∧ x.given = none ∧ x.size = size ∧ x.hand = none := by
  unfold chkLane at h
  dsimp only at h
  split at h
  · cases h
  split at h
  · split at h <;> cases h
  · cases h
  · split at h
    · cases h
    split at h
    · cases h
    · cases h
      exact ⟨rfl, rfl, rfl, rfl, rfl, rfl, rfl⟩

theorem access_of_passes {l : Nat} (h : MwaitPasses f s cu leaf acc l) :
    (acc l).n = 1 ∧ (acc l).left = [0] ∧ (acc l).data = 0 ∧ (acc l).also = [] ∧ (acc l).given = none ∧ (acc l).size = tyBytes f.ty := by
  unfold MwaitPasses loadLane at h
  split at h
  · cases h
  · cases h
  · obtain ⟨hn, hl, hd, ha, hg, hs, -⟩ := access_of_chkLane h
    exact ⟨hn, hl, hd, ha, hg, hs⟩

/-- R190: nothing holds back the reads that the monitor of a warp's one outstanding operation makes of local memory. -/
theorem accReady_alone {u : State} {o : Op} {x : Acc} {ms : List MonLane} {d : Nat} {ty : BitVec 4} {cc scope : Nat} (ho : u.ops = [o])
    (hm : o.kind = .monitor ms d ty cc scope) (hk : x.key < regBase) (hv : x.ver = none) : accReady u o x = true := by
  have hlocal : x.key < 2 ^ 42 := hk
  have hbefore : u.ops.filter (fun e => decide (e.id < o.id)) = [] := by simp [ho]
  have hown : ownedAgainst u o x = false := by simp [ownedAgainst, ho, ownedRanges, hm]
  have htile : tileSaved u x = false := by
    unfold tileSaved tileBase
    rw [decide_eq_false (by omega), Bool.false_and]
  have hpeer : peerHeld u o.routes x.key = false := by
    unfold peerHeld peerOf
    rw [if_neg (by unfold peerBase; omega)]
  unfold accReady
  simp only [hbefore, List.any_nil, hown, htile, hpeer, hv, relOf, chanOfOp, hm, Bool.and_false, Bool.not_false, Bool.and_self]

/-! ### The first read (R265) -/

/-- A lane of `mwait` that passes its checks, and whose location lies in local memory, away from SW and VER pages, and is not poisoned. -/
structure MwaitReads (f : Fields) (s : State) (cu : Cur) (leaf : Nat → Leaf) (acc : Nat → Acc) (l : Nat) : Prop where
  passes : MwaitPasses f s cu leaf acc l
  lane : (acc l).lane = l
  home : (acc l).sw = false ∧ (acc l).ver = none
  key : (acc l).key < regBase
  fault : dataFault s (blkOf cu.w) (acc l).key (tyBytes f.ty) = none

theorem lanesNow_active {l : Nat} (h : l ∈ lanesNow f s cu) : l ∈ activeLanes s cu := by
  unfold lanesNow at h
  split at h
  · exact List.mem_of_mem_take h
  · exact h

theorem accKey_of_ver {x : Acc} (h : x.ver = none) (u : State) : accKey u x = x.key := by
  unfold accKey
  rw [h]

theorem plainAcc_local (u : State) {x : Acc} (hk : x.key < regBase) (hv : x.ver = none) (hg : x.given = none) : plainAcc u x := by
  have hlocal : x.key < 2 ^ 42 := hk
  refine ⟨?_, ?_, hg, ?_⟩
  · rw [accKey_of_ver hv, regOff, if_neg (by unfold regBase; omega)]
  · unfold tileGone tileBase
    rw [decide_eq_false (by omega), Bool.false_and, Bool.false_and]
  · unfold handleRetired
    simp only [hv]

/-- The monitors of `mwait` after a read of memory as it stands in a state. -/
def mwaitTold (f : Fields) (s : State) (cu : Cur) (acc : Nat → Acc) (u : State) : List MonLane :=
  (lanesNow f s cu).map (fun l => monAfter u (issueTime s cu.w cu.k) f.ty ((modOf f).toNat / 16 % 8) (monitorOf f s cu (acc l) l))

theorem mwaitTold_congr {u t : State} (hr : ∀ l ∈ lanesNow f s cu, MwaitReads f s cu leaf acc l) (hm : t.mem = u.mem) :
    mwaitTold f s cu acc t = mwaitTold f s cu acc u := by
  refine List.map_congr_left fun l hl => ?_
  have hk : ∀ v, accKey v (monitorOf f s cu (acc l) l).acc = (acc l).key := accKey_of_ver (hr l hl).home.2
  have hb : ∀ k n, rdMem t k n = rdMem u k n := fun k n => by simp only [rdMem, rdByte, hm]
  simp only [monAfter, hk, hb]

variable {own : Nat → Prop} {b : State}

/-- R265: the monitors of the one outstanding operation may read their locations. -/
theorem plainMon_mwait (hops : s.ops = []) (hb : MwaitStands f s cu acc own b) {l : Nat} (hl : l ∈ lanesNow f s cu) (h : MwaitReads f s cu leaf acc l) :
    plainMon b (mwaitOp f s cu acc) (monitorOf f s cu (acc l) l) := by
  obtain ⟨hn, hleft, hdata, halso, hgiven, hsize⟩ := access_of_passes h.passes
  obtain ⟨hsw, hver⟩ := h.home
  have hk : accKey b (monitorOf f s cu (acc l) l).acc = (acc l).key := accKey_of_ver hver b
  have hlane : (acc l).lane < 32 := h.lane.symm ▸ lanesOf_lt (lanesNow_active hl)
  have hready : accReady b (mwaitOp f s cu acc) (acc l) = true := accReady_alone (by rw [hb.ops, hops, List.nil_append]) rfl h.key hver
  refine ⟨rfl, plainAcc_local b h.key hver hgiven, hsw, hn, hleft, hdata, halso, hlane, hready, ?_⟩
  rw [hk, hb.fault]
  exact hsize ▸ h.fault

/-- R265: the step that reads every location of `mwait` once. -/
theorem monStep_mwait (h : issues specMwait f s cu = true) (hops : s.ops = []) (hswc : s.swc = []) (hprov : s.prov = [])
    (hb : MwaitStands f s cu acc own b) (hr : ∀ l ∈ lanesNow f s cu, MwaitReads f s cu leaf acc l) :
    ∃ u, Peeked b u ∧ monStep b (mwaitOp f s cu acc) false =
      if (mwaitTold f s cu acc b).all (fun m => m.out.isSome) then finishOp u (mwaitOp f s cu acc) (monResults f.d.toNat (mwaitTold f s cu acc b))
      else setOpKind u s.nextOp (.monitor (mwaitTold f s cu acc b) f.d.toNat f.ty ((modOf f).toNat / 16 % 8) (scopeOf f)) := by
  obtain ⟨hbs, hbp⟩ := Prod.mk.inj hb.caches
  have hstep : ∀ u, Peeked b u → ∀ m ∈ mwaitLanes f s cu acc,
      Peeked b (monLane u (mwaitOp f s cu acc) f.ty ((modOf f).toNat / 16 % 8) (scopeOf f) false m).1 ∧
      (monLane u (mwaitOp f s cu acc) f.ty ((modOf f).toNat / 16 % 8) (scopeOf f) false m).2 =
        monAfter b (issueTime s cu.w cu.k) f.ty ((modOf f).toNat / 16 % 8) m := by
    intro u hu m hm
    obtain ⟨l, hl, rfl⟩ := List.mem_map.1 hm
    obtain ⟨h1, h2⟩ := monLane_home f.ty ((modOf f).toNat / 16 % 8) (scopeOf f) (hu.swc.trans (hbs.trans hswc)) (hu.prov.trans (hbp.trans hprov))
      (hu.plainMon (plainMon_mwait hops hb hl (hr l hl))) (mwait_cc h)
    have hsp := Spares.of_behind hu.behind cu.w cu.k
    have hcyc : (getCore u (coreOf u (mwaitOp f s cu acc).w)).cyc = issueTime s cu.w cu.k := by
      rw [show (mwaitOp f s cu acc).w = cu.w from rfl, hsp.coreOf, hsp.getCore]
      exact hb.cyc
    refine ⟨hu.trans h1, h2.trans ?_⟩
    unfold monAfter
    rw [hcyc, hu.accKey, hu.rdMem]
  obtain ⟨u, hu, he⟩ := monStep_lanes (s := b) (o := mwaitOp f s cu acc) rfl (.refl b) hstep
  have hmap : (mwaitLanes f s cu acc).map (monAfter b (issueTime s cu.w cu.k) f.ty ((modOf f).toNat / 16 % 8)) = mwaitTold f s cu acc b :=
    List.map_map
  rw [hmap] at he
  exact ⟨u, hu, he⟩

/-- R75: a scalar D has one lane, and a vector one a word a lane. -/
theorem lanesNow_unique {l l' : Nat} (hl : l ∈ lanesNow f s cu) (hl' : l' ∈ lanesNow f s cu) (hd : f.d.toNat < 0xE0)
    (h : regLane f.d.toNat l' = regLane f.d.toNat l) : l' = l := by
  by_cases hv : f.d.toNat < 0xC0
  · simpa only [regLane, if_pos hv] using h
  · have hs : isS f.d = true := decide_eq_true ⟨by omega, hd⟩
    unfold lanesNow at hl hl'
    rw [if_pos hs] at hl hl'
    cases hc : activeLanes s cu with
    | nil => rw [hc] at hl; cases hl
    | cons a r =>
      rw [hc] at hl hl'
      exact (List.mem_singleton.1 hl').trans (List.mem_singleton.1 hl).symm

theorem mem_dstOf_lanesNow {l : Nat} (hl : l ∈ lanesNow f s cu) (hd : f.d.toNat < 0xE0) :
    (dstOf f.d.toNat (lanesNow f s cu)).contains (f.d.toNat, regLane f.d.toNat l) = true := by
  unfold dstOf regLane
  by_cases hv : f.d.toNat < 0xC0
  · rw [if_pos hv, if_pos hv]
    exact List.contains_iff_mem.2 (List.mem_map_of_mem hl)
  · rw [if_neg hv, if_neg hv, if_pos hd]
    exact List.contains_iff_mem.2 (.head _)

theorem activeIn_of_mem_dstOf {r l : Nat} (hd : (dstOf f.d.toNat (lanesNow f s cu)).contains (r, regLane r l) = true) :
    r = f.d.toNat ∧ (f.d.toNat < 0xC0 → activeIn s cu l = true) := by
  have hm := List.contains_iff_mem.1 hd
  unfold dstOf at hm
  by_cases hv : f.d.toNat < 0xC0
  · rw [if_pos hv] at hm
    obtain ⟨x, hx, he⟩ := List.mem_map.1 hm
    obtain ⟨hr, hlane⟩ := Prod.mk.inj he
    rw [← hr, regLane, if_pos hv] at hlane
    exact ⟨hr.symm, fun _ => ((mem_lanesOf _ _).1 (lanesNow_active (hlane ▸ hx))).2⟩
  · rw [if_neg hv] at hm
    split at hm
    · exact ⟨(Prod.mk.inj (List.mem_singleton.1 hm)).1, fun h => absurd h hv⟩
    · cases hm

theorem stepSplit_heldBy (x : Wait) (n : Nat) : { stepSplit (heldBy x f s cu) with next := n } =
    { stepSplit (getSplit s cu.w cu.k) with next := n, path := pathOf s cu.w (issueTime s cu.w cu.k) } := by
  unfold stepSplit heldBy
  dsimp only
  split <;> rfl

/-- What an `mwait` leaves whose first read resolves every lane. -/
structure MwaitDone (f : Fields) (s : State) (cu : Cur) (own : Nat → Prop) (ms : List MonLane) (t : State) : Prop where
  ops : t.ops = []
  regs : KeepsRegs f.d.toNat s cu t
  split : getSplit t cu.w cu.k = { stepSplit (getSplit s cu.w cu.k) with
    next := issueTime s cu.w cu.k + stallOf f, path := pathOf s cu.w (issueTime s cu.w cu.k) }
  value : ∀ m ∈ ms, f.d.toNat < 0xE0 → some (rdReg t cu.w f.d.toNat m.acc.lane) = m.out
  mem : KeepsMem s t own

theorem mwaitDone_of (hops : s.ops = []) (hb : MwaitStands f s cu acc own b) {u : State} (hu : Peeked b u)
    (hr : ∀ l ∈ lanesNow f s cu, MwaitReads f s cu leaf acc l) (hall : (mwaitTold f s cu acc b).all (fun m => m.out.isSome) = true) :
    MwaitDone f s cu own (mwaitTold f s cu acc b)
      (advance (ctxOf specMwait f s cu) (finishOp u (mwaitOp f s cu acc) (monResults f.d.toNat (mwaitTold f s cu acc b)))) := by
  obtain ⟨hv, hg⟩ := Prod.mk.inj hb.regs
  have hreg : ∀ w r l, rdReg u w r l = rdReg s w r l := fun w r l => by
    simp only [rdReg, hu.behind.vregs, hu.behind.sregs, hv, hg]
  have hc := finishOp_completes u u (mwaitOp f s cu acc) (monResults f.d.toNat (mwaitTold f s cu acc b)) rfl (fun _ _ _ => rfl) rfl
  obtain ⟨v, r, p, ops, hf, hbare⟩ := finishOp_eq (o := mwaitOp f s cu acc) rfl u (monResults f.d.toNat (mwaitTold f s cu acc b))
  have hnone : ops = [] := by
    rw [hu.behind.ops, hb.ops, hops] at hbare
    simpa using hbare
  have hmem : ∀ e, e ∈ monResults f.d.toNat (mwaitTold f s cu acc b) → ∃ l ∈ lanesNow f s cu, e.1 = f.d.toNat ∧ e.2.1 = l ∧
      (monAfter b (issueTime s cu.w cu.k) f.ty ((modOf f).toNat / 16 % 8) (monitorOf f s cu (acc l) l)).out = some e.2.2 := by
    intro e he
    obtain ⟨m, hm, hme⟩ := List.mem_filterMap.1 he
    obtain ⟨l, hl, rfl⟩ := List.mem_map.1 hm
    obtain ⟨x, hx, rfl⟩ := Option.map_eq_some_iff.1 hme
    exact ⟨l, hl, rfl, (hr l hl).lane, hx⟩
  have hlanes : ∀ e ∈ monResults f.d.toNat (mwaitTold f s cu acc b), e.2.1 < 32 := fun e he => by
    obtain ⟨l, hl, -, hel, -⟩ := hmem e he
    exact hel ▸ lanesOf_lt (lanesNow_active hl)
  have hsplit : ∀ t, t.warps = u.warps → getSplit t cu.w cu.k = heldBy (.op s.nextOp) f s cu := fun t ht => by
    refine Eq.trans ?_ ((hu.behind.getSplit cu.w cu.k).trans hb.split)
    simp only [getSplit, getWarp, ht]
  refine ⟨?_, fun w x l hl hx => ?_, ?_, fun m hm hd => ?_, fun a ha => ?_⟩
  · rw [advance_ops, hf]
    exact hnone
  · rw [← hreg]
    refine hc.regs hlanes w x l hl fun hdst => hx ?_
    obtain ⟨hw, hdst, -⟩ := hdst
    obtain ⟨hx, hact⟩ := activeIn_of_mem_dstOf hdst
    exact ⟨hw, hx, hact⟩
  · rw [advance_eq, ctxOf_w, ctxOf_k, getSplit_setSplit_same, hsplit _ (by rw [hf]), stepSplit_heldBy]
    rfl
  · obtain ⟨x, hx⟩ := Option.isSome_iff_exists.1 (List.all_eq_true.1 hall m hm)
    have he : (f.d.toNat, m.acc.lane, x) ∈ monResults f.d.toNat (mwaitTold f s cu acc b) :=
      List.mem_filterMap.2 ⟨m, hm, by rw [hx]; rfl⟩
    obtain ⟨l, hl, -, hel, hout⟩ := hmem _ he
    rw [hx]
    refine congrArg some (hc.value hlanes _ he hd ?_ fun y hy _ hyl => ?_)
    · exact hel ▸ mem_dstOf_lanesNow hl hd
    · obtain ⟨l', hl', hy1, hy2, hyo⟩ := hmem y hy
      rw [hy1, hy2, hel] at hyl
      rw [lanesNow_unique hl hl' hd hyl, hout] at hyo
      exact (Option.some.inj hyo).symm
  · refine Eq.trans ?_ (hb.keeps a ha)
    simp only [rdByte, advance_mem, hf, hu.mem]

/-- R265, R266: `mwait` of a warp without outstanding operations reads its locations at issue. -/
theorem mwait_reads (h : issues specMwait f s cu = true) (hq : isQ f.d = false) (hops : s.ops = []) (hswc : s.swc = []) (hprov : s.prov = [])
    (hr : ∀ l ∈ lanesNow f s cu, MwaitReads f s cu leaf acc l) :
    ∃ t, exec (.mwait f) s = .next t ∧
      if (mwaitTold f s cu acc t).all (fun m => m.out.isSome) then
        MwaitDone f s cu (fun a => ∃ l ∈ lanesNow f s cu, (leaf l).entry ≤ a ∧ a < (leaf l).entry + 8) (mwaitTold f s cu acc t) t
      else MwaitWaits f s cu acc (fun a => ∃ l ∈ lanesNow f s cu, (leaf l).entry ≤ a ∧ a < (leaf l).entry + 8)
        (.monitor (mwaitTold f s cu acc t) f.d.toNat f.ty ((modOf f).toNat / 16 % 8) (scopeOf f)) t := by
  have hb := mwaitBegun_stands f s cu leaf acc
  obtain ⟨u, hu, he⟩ := monStep_mwait h hops hswc hprov hb hr
  rw [exec_mwait_eq h, mwaitBody_eq hq (lanesNow_ne_nil h) (fun l hl => (hr l hl).passes) (fun l hl => (hr l hl).lane), he]
  generalize mwaitBegun f s cu acc leaf = b at hb hu
  by_cases hall : (mwaitTold f s cu acc b).all (fun m => m.out.isSome) = true
  · have hd := mwaitDone_of hops hb hu hr hall
    rw [if_pos hall, if_pos (by rw [show s.nextOp = (mwaitOp f s cu acc).id from rfl, findOp_finishOp rfl]; rfl)]
    refine ⟨_, rfl, ?_⟩
    obtain ⟨v, r, p, ops, hf, -⟩ := finishOp_eq (o := mwaitOp f s cu acc) rfl u (monResults f.d.toNat (mwaitTold f s cu acc b))
    have hmem := mwaitTold_congr (u := b) (t := advance (ctxOf specMwait f s cu)
      (finishOp u (mwaitOp f s cu acc) (monResults f.d.toNat (mwaitTold f s cu acc b)))) hr (by rw [advance_mem, hf]; exact hu.mem)
    rw [hmem, if_pos hall]
    exact hd
  · have hw := mwaitWaits_of hb hu.behind hu.mem (.monitor (mwaitTold f s cu acc b) f.d.toNat f.ty ((modOf f).toNat / 16 % 8) (scopeOf f))
    rw [if_neg hall, if_neg (by rw [findOp_mwaitWaits hw]; exact Bool.false_ne_true)]
    refine ⟨_, rfl, ?_⟩
    have hmem := mwaitTold_congr (u := b)
      (t := setOpKind u s.nextOp (.monitor (mwaitTold f s cu acc b) f.d.toNat f.ty ((modOf f).toNat / 16 % 8) (scopeOf f))) hr hu.mem
    rw [hmem, if_neg hall]
    exact hw

end

/-! ### The statement -/

theorem monitoredWaits : MonitoredWaits := by
  refine ⟨?_, fun s w k o m d ty cc scope hs ho hp hw hk hout _ => monitor_single hs ho hp hw hk hout⟩
  intro f s cu leaf acc h hq c hl
  obtain ⟨t, he, hw⟩ := mwait_held h hq (fun l hlm => (hl l hlm).1) (fun l hlm => (hl l hlm).2.1) (fun l hlm => (hl l hlm).2.2)
  exact ⟨t, he, hw.regs, hw.susp, hw.pc, ⟨_, hw.op, rfl, rfl, rfl, rfl, rfl⟩, hw.mem⟩

theorem monitorsRead : MonitorsRead := by
  refine ⟨?_,
    fun s w k o ms d ty cc scope hs ho hp hw hk _ _ hcc _ hswc hprov hm => monitorRecheck_reads hs ho hp hw hk hcc hswc hprov hm⟩
  intro f s cu leaf acc h hq hops hswc hprov c cc hl
  have hr : ∀ l ∈ lanesNow f s cu, MwaitReads f s cu leaf acc l := fun l hlm => by
    obtain ⟨hpass, hlane, hsw, hver, hkey, hfault⟩ := hl l hlm
    exact ⟨hpass, hlane, ⟨hsw, hver⟩, hkey, hfault⟩
  obtain ⟨t, he, ht⟩ := mwait_reads h hq hops hswc hprov hr
  refine ⟨t, he, ?_⟩
  change _ ∧ if (mwaitTold f s cu acc t).all (fun m => m.out.isSome) then _ else _
  split at ht
  next hall =>
    rw [if_pos hall]
    exact ⟨ht.mem, ht.ops, ht.regs, ht.split, ht.value⟩
  next hall =>
    rw [if_neg hall]
    exact ⟨ht.mem, ht.regs, ht.susp, ht.pc, _, ht.op, rfl, rfl, rfl⟩

/-- Settles O27: the reads of `mwait` at issue and at a recheck, and the ends of the waits of suspended splits. -/
theorem waits : Obligations.Waits := ⟨monitoredWaits, monitorsRead, waitsEnd, otherWaitsEnd⟩

end Sys2Proof.Machine
end

section
/-!
R35, R74, R76: the model's lane functions of integers and words, in the terms of the statements.
-/
namespace Sys2Proof.Machine
open Claims

/-! ### The tag rule and the traps of a lane -/

/-- R35: the model's tag rule is the statements'. -/
theorem r35_eq_byTags (old : TWord) (xs : List TWord) (r : Unit → LaneRes) : r35 old xs r = byTags old xs (r ()) := by
  unfold r35 byTags tagRule
  cases xs.any (fun x => decide (x.tag = .n)) with
  | true => rfl
  | false => cases xs.find? (fun x => decide (x.tag = .x)) <;> rfl

/-- A lane without a trap of its own and without a flag that fcr can enable does not trap (R92, R107). -/
theorem laneTraps_of_flags {r : LaneRes} (fcr : Word) (ht : r.trap = none) (hf : r.fl = 0 ∨ r.fl = flSat) : laneTraps fcr r = false := by
  have hz : r.fl &&& fpEnables fcr = 0 := by
    unfold fpEnables
    rw [BitVec.and_comm (BitVec.truncate 6 (fcr >>> 3)), ← BitVec.and_assoc]
    rcases hf with hf | hf <;> rw [hf]
    · exact BitVec.zero_and
    · exact BitVec.zero_and
  simp [laneTraps, ht, hz]

/-- A word without flags does not trap. -/
@[simp] theorem laneTraps_wordRes (fcr v : Word) : laneTraps fcr (wordRes v) = false := laneTraps_of_flags fcr rfl (.inl rfl)

@[simp] theorem laneTraps_tagRes (fcr : Word) (v : TWord) : laneTraps fcr (tagRes v) = false := laneTraps_of_flags fcr rfl (.inl rfl)

/-- fsr[5] has no enable (R92). -/
@[simp] theorem laneTraps_intRes (fcr : Word) (sat : Bool) (ty : BitVec 4) (e : Int) : laneTraps fcr (intRes sat ty e) = false := by
  unfold intRes
  split
  · exact laneTraps_of_flags fcr rfl (.inr rfl)
  · split
    · exact laneTraps_of_flags fcr rfl (.inr rfl)
    · exact laneTraps_of_flags fcr rfl (.inl rfl)

/-- The lanes that R35 settles do not trap. -/
theorem laneTraps_byTags {fcr : Word} (old : TWord) (xs : List TWord) {r : LaneRes} (h : laneTraps fcr r = false) :
    laneTraps fcr (byTags old xs r) = false := by
  unfold byTags
  split
  · exact laneTraps_of_flags fcr rfl (.inl rfl)
  · split
    · exact laneTraps_of_flags fcr rfl (.inl rfl)
    · exact h

/-- A word of fixed latency whose meaning is a lane function completes with that function's results, where they trap in no lane. -/
theorem laneRow_done {i : Instr} {spec : OpSpec} {lat : Nat} {g : Ctx → State → TWord → TWord → TWord → TWord → LaneRes}
    {f : Fields} {s : State} {cu : Cur} (he : exec i s = laneExec spec lat g f s) (h : issues spec f s cu = true) (hd : isQ f.d = false)
    (v : TWord → TWord → TWord → TWord → LaneRes) (hv : ∀ a b c old, g (ctxOf spec f s cu) (atIssue s cu) a b c old = v a b c old)
    (ht : ∀ a b c old, laneTraps (getWarp s cu.w).fcr (v a b c old) = false) :
    ∃ t, exec i s = .next t ∧ LaneDone (spec.reads f) f s cu
      (perLane f s cu fun l => v (inA spec f s cu l) (inB spec f s cu l) (inC spec f s cu l) (oldOf f s cu l)) t := by
  rw [he]
  refine laneExec_perLane spec lat g f s cu h hd _ (fun l => hv _ _ _ _) fun e hm => ?_
  obtain ⟨l, -, rfl⟩ := List.mem_map.1 hm
  exact ht _ _ _ _

/-! ### Typed integers (R74, R76) -/

theorem tyWidth_pos (ty : BitVec 4) : 0 < tyWidth ty := Nat.mul_pos (by decide) (Nat.two_pow_pos _)

/-- The signed integer of the low n bits. -/
theorem rdInt_signed {n : Nat} (hn : 0 < n) (x : Word) : rdInt n true x = (x.setWidth n).toInt := by
  have hp : 2 ^ n = 2 * 2 ^ (n - 1) := by rw [← Nat.pow_succ']; congr 1; omega
  unfold rdInt
  rw [BitVec.toInt_eq_toNat_cond, BitVec.toNat_setWidth]
  simp only [Bool.true_and, decide_eq_true_eq]
  by_cases hc : x.toNat % 2 ^ n ≥ 2 ^ (n - 1)
  · rw [if_pos hc, if_neg (by omega)]
    norm_cast
  · rw [if_neg hc, if_pos (by omega)]

/-- R74: a pattern of n bits extended by its sign. -/
theorem extInt_signed {n : Nat} (hn : 0 < n) (e : Int) : extInt n true e = (BitVec.ofInt n e).signExtend 64 := by
  have hp : 2 ^ n = 2 * 2 ^ (n - 1) := by rw [← Nat.pow_succ']; congr 1; omega
  have hu : (e % (2 ^ n : Int)).toNat = (BitVec.ofInt n e).toNat := by rw [BitVec.toNat_ofInt]; norm_cast
  unfold extInt BitVec.signExtend
  rw [hu, BitVec.toInt_eq_toNat_cond]
  simp only [Bool.true_and, decide_eq_true_eq]
  by_cases hc : (BitVec.ofInt n e).toNat ≥ 2 ^ (n - 1)
  · rw [if_pos hc, if_neg (by omega)]
    norm_cast
  · rw [if_neg hc, if_pos (by omega), BitVec.ofInt_natCast]

/-- R74: a pattern of n bits extended by zeros. -/
theorem extInt_unsigned (n : Nat) (e : Int) : extInt n false e = (BitVec.ofInt n e).setWidth 64 := by
  have hu : (e % (2 ^ n : Int)).toNat = (BitVec.ofInt n e).toNat := by rw [BitVec.toNat_ofInt]; norm_cast
  unfold extInt
  simp only [Bool.false_and, Bool.false_eq_true, if_false, hu, BitVec.ofNat_toNat]

/-- ext(e, TY) of R74. -/
theorem extTy_eq_extBits (ty : BitVec 4) (e : Int) : extTy ty e = extBits ty (BitVec.ofInt _ e) := by
  unfold extTy extBits tySigned
  by_cases h : ty.toNat < 4
  · simp only [h, decide_true, if_true, extInt_signed (tyWidth_pos ty)]
  · simp only [h, decide_false, if_false, extInt_unsigned]

theorem hiInt_eq_hiOf (ty : BitVec 4) : hiInt (tyWidth ty) (tySigned ty) = hiOf ty := by simp [hiInt, hiOf, tySigned]

theorem loInt_eq_loOf (ty : BitVec 4) : loInt (tyWidth ty) (tySigned ty) = loOf ty := by simp [loInt, loOf, tySigned]

/-- R76: a result clamped once under .sat, or wrapped. -/
theorem satRes_eq_intRes (sat : Bool) (ty : BitVec 4) (e : Int) : satRes sat (tyWidth ty) (tySigned ty) e = intRes sat ty e := by
  unfold satRes intRes
  simp only [hiInt_eq_hiOf, loInt_eq_loOf, Bool.and_eq_true, decide_eq_true_eq, gt_iff_lt]
  rw [← extTy_eq_extBits, ← extTy_eq_extBits, ← extTy_eq_extBits]
  rfl

/-- A bit of MOD as the word reads it: clear in the immediate form (R52). -/
theorem modOf_getLsbD (f : Fields) (k : Nat) : (modOf f).getLsbD k = (!(isImm f.b || isImm f.c) && f.md.getLsbD k) := by
  unfold modOf immForm
  split
  · next h => simp [h]
  · next h => simp [h]

/-! ### The instructions of R80 -/

/-- A typed integer operation with .sat by R35, R74 and R76. -/
theorem intOp_eq (h : Int → Int → Int → Int) (n : Nat) (c : Ctx) (s : State) (x y z old : TWord) :
    intOp h n c s x y z old = byTags old ([x, y, z].take n) (intRes (!(isImm c.f.b || isImm c.f.c) && c.f.md.getLsbD 0) c.f.ty
      (h (intOf c.f.ty x.data) (intOf c.f.ty y.data) (intOf c.f.ty z.data))) := by
  unfold intOp satOf
  rw [r35_eq_byTags, satRes_eq_intRes, modOf_getLsbD, rdTy_eq_intOf, rdTy_eq_intOf, rdTy_eq_intOf]

theorem natAbs_eq_ite (a : Int) : (a.natAbs : Int) = if a < 0 then -a else a := by split <;> omega

/-- Each row of the typed integer instructions runs its exact function of the operands' integers (R80). -/
theorem integerRows_exec (f : Fields) :
    ∀ e ∈ integerRows f, ∀ s, exec e.1 s = laneExec e.2.1 3 (intOp e.2.2.2 e.2.2.1) f s := by
  simp only [integerRows, List.forall_mem_cons, ← natAbs_eq_ite]
  exact ⟨fun _ => rfl, fun _ => rfl, fun _ => rfl, fun _ => rfl, fun _ => rfl, fun _ => rfl, fun _ => rfl, fun _ => rfl, List.forall_mem_nil _⟩

/-- Settles O1: each row is the model's typed operation, whose lane function is the statement's and traps in no lane. -/
theorem integerArithmetic : Obligations.IntegerArithmetic := by
  intro f i spec n h s cu hm hi hd
  exact laneRow_done (integerRows_exec f _ hm s) hi hd
    (fun a b c old => byTags old ([a, b, c].take n) (intRes (!(isImm f.b || isImm f.c) && f.md.getLsbD 0) f.ty
      (h (intOf f.ty a.data) (intOf f.ty b.data) (intOf f.ty c.data))))
    (fun a b c old => intOp_eq h n (ctxOf spec f s cu) (atIssue s cu) a b c old)
    (fun a b c old => laneTraps_byTags _ _ (laneTraps_intRes _ _ _ _))

end Sys2Proof.Machine
end

section
/-!
R83 to R90: whole words, shifts, bit fields, bit counts and byte selection, from the model's sums and powers of two to operations on bits.
-/
namespace Sys2Proof.Machine
open Claims

/-! ### Sums over lists -/

/-- A fold that adds a term of each element is the sum of the terms. -/
theorem foldl_add_eq_sum {M α : Type} [AddCommMonoid M] (g : α → M) (xs : List α) (v : M) :
    xs.foldl (fun v i => v + g i) v = v + (xs.map g).sum := by
  induction xs generalizing v with
  | nil => simp
  | cons x xs ih => rw [List.foldl_cons, ih, List.map_cons, List.sum_cons, add_assoc]

/-- The first place where p holds, or the length, is how many elements come before it. -/
theorem findIdx?_getD_length {α : Type} (p : α → Bool) (xs : List α) :
    (xs.findIdx? p).getD xs.length = (xs.takeWhile (fun x => !p x)).length := by
  induction xs with
  | nil => rfl
  | cons x xs ih =>
    rw [List.findIdx?_cons, List.takeWhile_cons]
    cases p x with
    | true => rfl
    | false =>
      simp only [Bool.not_false, if_true, Bool.false_eq_true, if_false, List.length_cons, ← ih]
      cases xs.findIdx? p <;> rfl

/-! ### Whole words (R83, R86, R87, R89, R90) -/

/-- An operation on whole words by R35. -/
theorem wordOp_eq (h : Fields → Word → Word → Word → Word) (n : Nat) (c : Ctx) (s : State) (x y z old : TWord) :
    wordOp h n c s x y z old = byTags old ([x, y, z].take n) (wordRes (h c.f x.data y.data z.data)) := r35_eq_byTags _ _ _

/-- R87: the scale of lea is 1 in the immediate form. -/
theorem leaWord_eq (f : Fields) (a b c : Word) :
    leaWord f a b c = a + BitVec.ofInt 64 (intOf f.ty b) * BitVec.ofNat 64 (2 ^ (if isImm f.b || isImm f.c then 0 else f.md.toNat % 8)) := by
  unfold leaWord modOf immForm
  rw [rdTy_eq_intOf]
  split <;> rfl

/-- R86: the mask of a field is its ones shifted to its position. -/
theorem bfiWord_eq (f : Fields) (a b c : Word) :
    bfiWord f a b c =
      (let m : Word := BitVec.ofNat 64 (2 ^ bfLen b - 1) <<< bfPos b
      (c &&& ~~~m) ||| ((a <<< bfPos b) &&& m)) := by
  have hm : BitVec.ofNat 64 ((2 ^ bfLen b - 1) * 2 ^ bfPos b) = BitVec.ofNat 64 (2 ^ bfLen b - 1) <<< bfPos b := by
    refine BitVec.eq_of_toNat_eq ?_
    rw [BitVec.toNat_shiftLeft, BitVec.toNat_ofNat, BitVec.toNat_ofNat, Nat.shiftLeft_eq, Nat.mod_mul_mod]
  unfold bfiWord
  rw [hm]

/-- R89: a byte of the pool of A and B is a byte of A below eight, and a byte of B from there. -/
theorem poolByte (a b : Word) (j : Nat) :
    (a.toNat + b.toNat * 2 ^ 64) / 2 ^ (8 * j) % 256 = if j < 8 then a.toNat / 256 ^ j % 256 else b.toNat / 256 ^ (j - 8) % 256 := by
  have ha := a.isLt
  rw [Nat.pow_mul, show (2 : Nat) ^ 8 = 256 from rfl]
  split
  · next h =>
    have h64 : (2 : Nat) ^ 64 = 256 ^ (7 - j) * 256 * 256 ^ j := by
      rw [← Nat.pow_succ, ← Nat.pow_add, show (7 - j).succ + j = 8 by omega]
      rfl
    rw [h64, ← Nat.mul_assoc, Nat.add_mul_div_right _ _ (Nat.pow_pos (by decide)), ← Nat.mul_assoc, Nat.add_mul_mod_self_right]
  · next h =>
    have hj : (256 : Nat) ^ j = 2 ^ 64 * 256 ^ (j - 8) := by
      rw [show (2 : Nat) ^ 64 = 256 ^ 8 from rfl, ← Nat.pow_add, show 8 + (j - 8) = j by omega]
    rw [hj, ← Nat.div_div_eq_div_mul, Nat.add_mul_div_right _ _ (Nat.two_pow_pos 64), Nat.div_eq_of_lt ha, Nat.zero_add]

/-- R89: byte k of prm is the byte of the pool that C's digit k in base 16 names. -/
theorem prmWord_eq (f : Fields) (a b c : Word) :
    prmWord f a b c = BitVec.ofNat 64 ((List.range 8).map (fun k =>
      let j := c.toNat / 16 ^ k % 16
      (if j < 8 then a.toNat / 256 ^ j % 256 else b.toNat / 256 ^ (j - 8) % 256) * 256 ^ k)).sum := by
  have hk : ∀ k, (2 : Nat) ^ (4 * k) = 16 ^ k ∧ (2 : Nat) ^ (8 * k) = 256 ^ k := fun k => ⟨Nat.pow_mul 2 4 k, Nat.pow_mul 2 8 k⟩
  unfold prmWord
  dsimp only
  rw [foldl_add_eq_sum, Nat.zero_add]
  simp only [poolByte]
  simp only [hk]

/-- Each row of the instructions on whole words runs its function. -/
theorem wholeRows_exec (f : Fields) : ∀ e ∈ wholeRows f, ∃ lat g,
    (∀ s, exec e.1 s = laneExec e.2.1 lat (wordOp g e.2.2.1) f s) ∧ ∀ a b c, g f a b c = e.2.2.2 a b c := by
  simp only [wholeRows, List.forall_mem_cons]
  exact ⟨⟨2, _, fun _ => rfl, fun _ _ _ => rfl⟩, ⟨3, _, fun _ => rfl, fun _ _ _ => rfl⟩, ⟨3, _, fun _ => rfl, fun _ _ _ => rfl⟩,
    ⟨3, _, fun _ => rfl, fun _ _ _ => rfl⟩, ⟨3, _, fun _ => rfl, fun _ _ _ => rfl⟩, ⟨3, _, fun _ => rfl, fun _ _ _ => rfl⟩,
    ⟨3, _, fun _ => rfl, fun _ _ _ => rfl⟩, ⟨3, _, fun _ => rfl, leaWord_eq f⟩, ⟨3, _, fun _ => rfl, bfiWord_eq f⟩,
    ⟨3, _, fun _ => rfl, prmWord_eq f⟩, List.forall_mem_nil _⟩

theorem wholeWordInstructions : WholeWordInstructions := by
  intro f i spec n h s cu hm hi hd
  obtain ⟨lat, g, he, hg⟩ := wholeRows_exec f _ hm
  exact laneRow_done (he s) hi hd (fun a b c old => byTags old ([a, b, c].take n) (wordRes (h a.data b.data c.data)))
    (fun a b c old => by rw [wordOp_eq, ctxOf_f, hg])
    (fun a b c old => laneTraps_byTags _ _ (laneTraps_wordRes _ _))

/-! ### Shifts (R84) -/

/-- A typed operation on the low pattern by R35 and R74. -/
theorem patOp_eq (h : Nat → Word → Word → Int) (n : Nat) (c : Ctx) (s : State) (x y z old : TWord) :
    patOp h n c s x y z old = byTags old ([x, y].take n) (wordRes (extBits c.f.ty (BitVec.ofInt _ (h (tyWidth c.f.ty) x.data y.data)))) := by
  unfold patOp
  rw [r35_eq_byTags, extTy_eq_extBits]
  rfl

theorem toNat_setWidth_lowPat (w : Nat) (x : Word) : (x.setWidth w).toNat = lowPat w x := BitVec.toNat_setWidth _ _

/-- R84: bits shifted up leave the pattern. -/
theorem shlBits_eq (w : Nat) (x : Word) (n : Nat) : BitVec.ofInt w (shlBits w x n) = if w ≤ n then 0 else x.setWidth w <<< n := by
  rw [BitVec.ofInt_natCast]
  unfold shlBits
  split
  · rfl
  · refine BitVec.eq_of_toNat_eq ?_
    rw [BitVec.toNat_ofNat, Nat.mod_mod, BitVec.toNat_shiftLeft, Nat.shiftLeft_eq, toNat_setWidth_lowPat]

/-- R84: bits shifted down leave the pattern, and zeros come in. -/
theorem shrBits_eq (w : Nat) (x : Word) (n : Nat) : BitVec.ofInt w (shrBits w x n) = if w ≤ n then 0 else x.setWidth w >>> n := by
  rw [BitVec.ofInt_natCast]
  unfold shrBits
  split
  · rfl
  · refine BitVec.eq_of_toNat_eq ?_
    rw [BitVec.toNat_ofNat, BitVec.toNat_ushiftRight, Nat.shiftRight_eq_div_pow, toNat_setWidth_lowPat, Nat.mod_eq_of_lt]
    exact (Nat.div_le_self _ _).trans_lt (Nat.mod_lt _ (Nat.two_pow_pos w))

/-- R84: an arithmetic shift repeats the sign. -/
theorem sarInt_eq {w : Nat} (hw : 0 < w) (x : Word) (n : Nat) : BitVec.ofInt w (sarInt w x n) = (x.setWidth w).sshiftRight (min n w) := by
  unfold sarInt BitVec.sshiftRight
  rw [rdInt_signed hw, Int.shiftRight_eq_div_pow]
  norm_cast

/-- R84: a rotation joins what a shift up and a shift down keep. -/
theorem rotBits_eq (w : Nat) (x : Word) (n : Nat) (hw : 0 < w) : BitVec.ofInt w (rotBits w x n) = (x.setWidth w).rotateLeft n := by
  have hk : n % w < w := Nat.mod_lt _ hw
  have hp : lowPat w x < 2 ^ w := Nat.mod_lt _ (Nat.two_pow_pos w)
  have hsplit : 2 ^ w = 2 ^ (w - n % w) * 2 ^ (n % w) := by rw [← Nat.pow_add]; congr 1; omega
  have hlow : lowPat w x / 2 ^ (w - n % w) < 2 ^ (n % w) := Nat.div_lt_of_lt_mul (hsplit ▸ hp)
  have hor : rotBits w x n = lowPat w x * 2 ^ (n % w) % 2 ^ w ||| lowPat w x / 2 ^ (w - n % w) := by
    unfold rotBits
    dsimp only
    rw [hsplit, Nat.mul_mod_mul_right, Nat.mul_comm (lowPat w x % _)]
    exact Nat.two_pow_add_eq_or_of_lt hlow _
  rw [BitVec.ofInt_natCast]
  refine BitVec.eq_of_toNat_eq ?_
  rw [BitVec.toNat_rotateLeft, toNat_setWidth_lowPat, BitVec.toNat_ofNat, hor, Nat.shiftLeft_eq, Nat.shiftRight_eq_div_pow, Nat.mod_eq_of_lt]
  exact Nat.or_lt_two_pow (Nat.mod_lt _ (Nat.two_pow_pos w)) (hlow.trans_le (Nat.pow_le_pow_right (by decide) hk.le))

/-! ### Bit fields and counts (R85, R86) -/

/-- R86: a field is extended from its length. -/
theorem bfxWord_eq (f : Fields) (a b c : Word) :
    bfxWord f a b c = (let x : BitVec (bfLen b) := a.extractLsb' (bfPos b) (bfLen b)
      if f.ty.toNat < 4 then x.signExtend 64 else x.setWidth 64) := by
  have hx : BitVec.ofInt (bfLen b) ((a.toNat / 2 ^ bfPos b % 2 ^ bfLen b : Nat) : Int) = a.extractLsb' (bfPos b) (bfLen b) := by
    rw [BitVec.ofInt_natCast]
    refine BitVec.eq_of_toNat_eq ?_
    rw [BitVec.toNat_ofNat, Nat.mod_mod, BitVec.extractLsb'_toNat, Nat.shiftRight_eq_div_pow]
  unfold bfxWord tySigned
  dsimp only
  rw [← hx]
  by_cases hn : bfLen b = 0
  · rw [if_pos hn, hn, BitVec.of_length_zero (x := BitVec.ofInt 0 _)]
    split <;> rfl
  · rw [if_neg hn]
    by_cases h : f.ty.toNat < 4
    · simp only [h, decide_true, if_true, extInt_signed (Nat.pos_of_ne_zero hn)]
    · simp only [h, decide_false, if_false, extInt_unsigned]

/-- R85: a count of the low bits by R35. -/
theorem countOp_eq (h : Nat → Word → Nat) (c : Ctx) (s : State) (x y z old : TWord) :
    countOp h c s x y z old = byTags old [x] (wordRes (BitVec.ofNat 64 (h (tyWidth c.f.ty) x.data))) := r35_eq_byTags _ _ _

theorem popcNat_eq (w : Nat) (x : Word) : popcNat w x = (List.range w).countP (fun i => x.getLsbD i) := List.countP_eq_length_filter.symm

theorem clzNat_eq (w : Nat) (x : Word) : clzNat w x = ((List.range w).takeWhile (fun i => !x.getLsbD (w - 1 - i))).length := by
  rw [← findIdx?_getD_length, List.length_range]
  rfl

theorem ctzNat_eq (w : Nat) (x : Word) : ctzNat w x = ((List.range w).takeWhile (fun i => !x.getLsbD i)).length := by
  rw [← findIdx?_getD_length, List.length_range]
  rfl

theorem brevNat_eq (w : Nat) (x : Word) : brevNat w x = ((List.range w).map (fun i => if x.getLsbD i then 2 ^ (w - 1 - i) else 0)).sum := by
  have hstep : ∀ v i, (if x.getLsbD i then v + 2 ^ (w - 1 - i) else v) = v + if x.getLsbD i then 2 ^ (w - 1 - i) else 0 := fun v i => by
    split <;> rfl
  unfold brevNat
  simp only [hstep, foldl_add_eq_sum, Nat.zero_add]

/-- R85: the bytes of a pattern of whole bytes in reverse. -/
theorem bswapNat_eq (k : Nat) (x : Word) :
    bswapNat (8 * k) x = ((List.range (8 * k / 8)).map (fun i => x.toNat / 256 ^ i % 256 * 256 ^ (8 * k / 8 - 1 - i))).sum := by
  unfold bswapNat
  rw [foldl_add_eq_sum, Nat.zero_add, Nat.mul_div_cancel_left k (by decide)]
  refine congrArg List.sum (List.map_congr_left fun i hi => ?_)
  have hik := List.mem_range.1 hi
  rw [show 8 * k - 8 - 8 * i = 8 * (k - 1 - i) by omega, Nat.pow_mul, Nat.pow_mul]

/-- Each row of the shifts and bit operations runs its function. -/
theorem shiftRows_exec (f : Fields) : ∀ e ∈ shiftRows f, ∃ g, (∀ s, exec e.1 s = laneExec e.2.1 3 g f s) ∧
    ∀ c s a b d old, c.f = f → g c s a b d old = byTags old ([a, b].take e.2.2.1) (wordRes (e.2.2.2 a.data b.data)) := by
  simp only [shiftRows, List.forall_mem_cons]
  have hw := tyWidth_pos f.ty
  refine ⟨⟨_, fun _ => rfl, ?_⟩, ⟨_, fun _ => rfl, ?_⟩, ⟨_, fun _ => rfl, ?_⟩, ⟨_, fun _ => rfl, ?_⟩, ⟨_, fun _ => rfl, ?_⟩,
    ⟨_, fun _ => rfl, ?_⟩, ⟨_, fun _ => rfl, ?_⟩, ⟨_, fun _ => rfl, ?_⟩, ⟨_, fun _ => rfl, ?_⟩, ⟨_, fun _ => rfl, ?_⟩,
    List.forall_mem_nil _⟩ <;>
    rintro c s a b d old rfl
  · rw [patOp_eq, shlBits_eq]
  · rw [patOp_eq, shrBits_eq]
  · rw [patOp_eq, sarInt_eq hw]
  · rw [patOp_eq, rotBits_eq _ _ _ hw]
  · rw [wordOp_eq, bfxWord_eq]; rfl
  · rw [countOp_eq, popcNat_eq]; rfl
  · rw [countOp_eq, clzNat_eq]; rfl
  · rw [countOp_eq, ctzNat_eq]; rfl
  · rw [patOp_eq, BitVec.ofInt_natCast, brevNat_eq]
  · rw [patOp_eq, BitVec.ofInt_natCast]; unfold tyWidth; rw [bswapNat_eq]

theorem shiftsAndBitCounts : ShiftsAndBitCounts := by
  intro f i spec n h s cu hm hi hd
  obtain ⟨g, he, hg⟩ := shiftRows_exec f _ hm
  exact laneRow_done (he s) hi hd (fun a b _ old => byTags old ([a, b].take n) (wordRes (h a.data b.data)))
    (fun a b c old => hg _ _ a b c old rfl)
    (fun a b c old => laneTraps_byTags _ _ (laneTraps_wordRes _ _))

/-- Settles O2: each row's lane function, by the bits of its operands. -/
theorem wordAndBitInstructions : Obligations.WordAndBitInstructions := ⟨wholeWordInstructions, shiftsAndBitCounts⟩

end Sys2Proof.Machine
end

section
/-!
R80 to R82, R88: high products, quotients and remainders, packed dot products.
-/
namespace Sys2Proof.Machine
open Claims

/-- R80: the upper half of a product, rounded down. -/
theorem mulhiRes_eq (c : Ctx) (s : State) (x y z old : TWord) :
    mulhiRes c s x y z old = byTags old [x, y] (wordRes (extBits c.f.ty
      (BitVec.ofInt _ (Int.fdiv (intOf c.f.ty x.data * intOf c.f.ty y.data) (2 ^ tyWidth c.f.ty))))) := by
  have hp : (0 : Int) ≤ 2 ^ tyWidth c.f.ty := by positivity
  unfold mulhiRes
  dsimp only
  rw [r35_eq_byTags, rdTy_eq_intOf, rdTy_eq_intOf, Int.fdiv_eq_ediv_of_nonneg _ hp, extTy_eq_extBits]
  rfl

/-- R36: a payload is its cause over an address of 56 bits. -/
theorem payload_eq_append (cause : BitVec 8) (pc : BitVec 56) : payload cause.toNat pc.toNat = cause ++ pc := by
  refine BitVec.eq_of_toNat_eq ?_
  rw [payload, BitVec.toNat_ofNat, BitVec.toNat_append, Nat.mod_eq_of_lt pc.isLt, ← Nat.shiftLeft_add_eq_or_of_lt pc.isLt, Nat.shiftLeft_eq,
    Nat.mod_eq_of_lt (by omega)]

/-- What R81 makes of a quotient or remainder with dividend x and divisor y: X with the cause and the word's address for a divisor of 0. -/
def divided (rem : Bool) (ty : BitVec 4) (pc : BitVec 56) (x y : Int) : LaneRes :=
  if y = 0 then { val := ⟨.x, 0x28#8 ++ pc⟩, fl := 0, trap := none }
  else wordRes (extBits ty (BitVec.ofInt _ (if rem then Int.tmod x y else Int.tdiv x y)))

theorem divRes_eq (rem : Bool) (c : Ctx) (s : State) (x y z old : TWord) :
    divRes rem c s x y z old = byTags old [x, y] (divided rem c.f.ty c.sp.pc (intOf c.f.ty x.data) (intOf c.f.ty y.data)) := by
  unfold divRes divided
  dsimp only
  rw [r35_eq_byTags, rdTy_eq_intOf, rdTy_eq_intOf, ← Int.tmod_def, extTy_eq_extBits, ← payload_eq_append]
  rfl

@[simp] theorem laneTraps_divided (fcr : Word) (rem : Bool) (ty : BitVec 4) (pc : BitVec 56) (x y : Int) :
    laneTraps fcr (divided rem ty pc x y) = false := by
  unfold divided
  split
  · exact laneTraps_of_flags fcr rfl (.inl rfl)
  · exact laneTraps_wordRes _ _

/-- R88: the accumulator's width and sign. -/
theorem pdotTy_width_signed (f : Fields) :
    tyWidth (pdotTy f) = (if (modOf f).getLsbD 1 then 64 else 32) ∧ tySigned (pdotTy f) = tySigned f.ty := by
  unfold pdotTy tyWidth tySigned
  rw [← modOf_getLsbD]
  by_cases h : f.ty.toNat < 4 <;> cases (modOf f).getLsbD 1 <;> simp [h]

/-- R88: the exact dot product is a sum of products of elements. -/
theorem pdotInt_eq (ty : BitVec 4) (a b : Word) :
    pdotInt ty a b = ((List.range (64 / tyWidth ty)).map (fun i => intOf ty (a >>> (tyWidth ty * i)) * intOf ty (b >>> (tyWidth ty * i)))).sum := by
  unfold pdotInt
  simp only [foldl_add_eq_sum, Int.zero_add, rdTy_eq_intOf]

/-- R88: a packed dot product, clamped once in the accumulator's type. -/
theorem pdotRes_eq (c : Ctx) (s : State) (x y z old : TWord) :
    pdotRes c s x y z old = byTags old [x, y, z] (intRes (!(isImm c.f.b || isImm c.f.c) && c.f.md.getLsbD 0) (pdotTy c.f)
      (intOf (pdotTy c.f) z.data + ((List.range (64 / tyWidth c.f.ty)).map
        (fun i => intOf c.f.ty (x.data >>> (tyWidth c.f.ty * i)) * intOf c.f.ty (y.data >>> (tyWidth c.f.ty * i)))).sum)) := by
  obtain ⟨hw, hs⟩ := pdotTy_width_signed c.f
  unfold pdotRes satOf
  dsimp only
  rw [r35_eq_byTags, ← hw, ← hs, satRes_eq_intRes, modOf_getLsbD, pdotInt_eq, ← rdTy_eq_intOf (pdotTy c.f)]
  rfl

/-- A quotient or remainder whose divider is free by its issue (R82) completes with its result in every lane. -/
theorem divRow_done (spec : OpSpec) (rem : Bool) {f : Fields} {s : State} {cu : Cur} (h : issues spec f s cu = true) (hd : isQ f.d = false)
    (hb : divFree s cu ≤ issueTime s cu.w cu.k) (v : Word → Word → LaneRes)
    (hv : ∀ a b, divided rem f.ty (getSplit s cu.w cu.k).pc (intOf f.ty a) (intOf f.ty b) = v a b) :
    ∃ t, divExec spec rem f s = .next t ∧ LaneDone (spec.reads f) f s cu (perLane f s cu fun l =>
      byTags (oldOf f s cu l) [inA spec f s cu l, inB spec f s cu l] (v (inA spec f s cu l).data (inB spec f s cu l).data)) t := by
  refine divExec_perLane spec rem f s cu h hd hb _ (fun l => (divRes_eq _ _ _ _ _ _ _).trans (congrArg _ (hv _ _))) fun e hm => ?_
  obtain ⟨l, -, rfl⟩ := List.mem_map.1 hm
  exact laneTraps_byTags _ _ (by rw [← hv]; exact laneTraps_divided _ _ _ _ _ _)

/-- Settles O3: the four rows by the exact integers of their operands. -/
theorem productsAndQuotients : Obligations.ProductsAndQuotients := by
  intro f i spec n h s cu hm hi hd hb
  simp only [productRows, List.mem_cons, Prod.mk.injEq, List.not_mem_nil, or_false] at hm
  obtain ⟨rfl, rfl, rfl, rfl⟩ | ⟨rfl, rfl, rfl, rfl⟩ | ⟨rfl, rfl, rfl, rfl⟩ | ⟨rfl, rfl, rfl, rfl⟩ := hm
  · exact laneRow_done (exec_mulhi f s) hi hd (fun a b _ old => byTags old [a, b] _) (fun a b c old => mulhiRes_eq _ _ a b c old)
      (fun a b c old => laneTraps_byTags _ _ (laneTraps_wordRes _ _))
  · exact divRow_done specDiv false hi hd hb _ (fun a b => rfl)
  · exact divRow_done specRem true hi hd hb _ (fun a b => rfl)
  · exact laneRow_done (exec_pdot f s) hi hd (fun a b c old => byTags old [a, b, c] _) (fun a b c old => pdotRes_eq _ _ a b c old)
      (fun a b c old => laneTraps_byTags _ _ (laneTraps_intRes _ _ _ _))

end Sys2Proof.Machine
end

section
/-!
R95 to R98: comparisons of integers, selection by tag, tags and combined conditions.
-/
namespace Sys2Proof.Machine
open Claims

/-- The checks of R60 that an issuing word passes, field by field, in surroundings with the word's own fields. -/
theorem checks_of_issues {spec : OpSpec} {f : Fields} {s : State} {cu : Cur} (h : issues spec f s cu = true) :
    ∃ e : Env, e.f = f ∧ spec.d e = none ∧ spec.a e = none ∧ spec.b e = none ∧ spec.c e = none ∧ spec.ty e = none ∧
      spec.md e = none := by
  unfold issues at h
  simp only [Bool.and_eq_true, Option.isNone_iff_eq_none] at h
  obtain ⟨⟨⟨⟨⟨⟨⟨_, hcheck⟩, _⟩, _⟩, _⟩, _⟩, _⟩, _⟩ := h
  unfold OpSpec.check at hcheck
  simp only [Option.or_eq_none_iff] at hcheck
  exact ⟨_, rfl, hcheck⟩

/-- A check passes where its condition holds. -/
theorem chkIf_eq_none {sub : Nat} {p : Env → Bool} {e : Env} : chkIf sub p e = none ↔ p e = true := by
  unfold chkIf
  cases p e <;> simp

/-! ### Conditions (R95, R98) -/

/-- R35 for the two operands of a comparison: N decides over X. -/
theorem tagRule_pair (a b : TWord) : tagRule [a, b] = if a.tag = .n ∨ b.tag = .n then .nullified else
    (([a, b].find? (fun x => decide (x.tag = .x))).map (fun x => TagRule.poisoned x.data)).getD .normal := by
  unfold tagRule
  simp only [List.any_cons, List.any_nil, Bool.or_false, Bool.or_eq_true, decide_eq_true_eq]
  cases [a, b].find? (fun x => decide (x.tag = .x)) <;> rfl

/-- R98: the model's conditions are the statements'. -/
theorem condWord_eq (h : Bool) : condWord h = if h then condTrue else condFalse := rfl

theorem firstX_eq_poisonOr (xs : List TWord) (v : TWord) : firstX xs v = poisonOr xs v := by
  unfold firstX poisonOr
  cases hx : xs.find? (fun x => decide (x.tag = .x)) with
  | none => rfl
  | some x =>
    have ht : x.tag = .x := by simpa using List.find?_some hx
    rw [Option.getD_some, ← ht]

/-- R95: an integer comparison on two words, as a condition or as a value. -/
theorem cmpIRes_eq (cnd : Bool) (c : Ctx) (s : State) (a b d old : TWord) (hc : c.f.c.toNat ≤ 5) :
    cmpIRes cnd c s a b d old = tagRes (if a.tag = .n ∨ b.tag = .n then ⟨.n, if cnd then 0 else old.data⟩ else
      poisonOr [a, b] (if cmpHolds c.f.c.toNat (intOf c.f.ty a.data) (intOf c.f.ty b.data) then ⟨.v, 1⟩
        else ⟨if cnd then .n else .v, 0⟩)) := by
  unfold cmpIRes condRes poisonOr
  rw [tagRule_pair]
  by_cases hn : a.tag = .n ∨ b.tag = .n
  · rw [if_pos hn, if_pos hn]
    cases cnd <;> rfl
  · rw [if_neg hn, if_neg hn, ← intHolds_eq hc]
    cases [a, b].find? (fun x => decide (x.tag = .x)) with
    | some x => rfl
    | none => cases cnd <;> rfl

/-- R95: cnd writes a condition. -/
theorem cndRes_eq (c : Ctx) (s : State) (a b d old : TWord) (hc : c.f.c.toNat ≤ 5) :
    cmpIRes true c s a b d old = tagRes (if a.tag = .n ∨ b.tag = .n then ⟨.n, 0⟩ else
      poisonOr [a, b] (condWord (cmpHolds c.f.c.toNat (intOf c.f.ty a.data) (intOf c.f.ty b.data)))) := by
  rw [cmpIRes_eq true c s a b d old hc]
  rfl

/-- R95: cmp writes 1 or 0 with tag V. -/
theorem cmpRes_eq (c : Ctx) (s : State) (a b d old : TWord) (hc : c.f.c.toNat ≤ 5) :
    cmpIRes false c s a b d old = tagRes (if a.tag = .n ∨ b.tag = .n then ⟨.n, old.data⟩ else
      poisonOr [a, b] ⟨.v, if cmpHolds c.f.c.toNat (intOf c.f.ty a.data) (intOf c.f.ty b.data) then 1 else 0⟩) := by
  rw [cmpIRes_eq false c s a b d old hc]
  cases cmpHolds c.f.c.toNat (intOf c.f.ty a.data) (intOf c.f.ty b.data) <;> rfl

/-- A comparison of integers has one of the six codes of R79. -/
theorem condCode_le {op : BitVec 9} {f : Fields} {s : State} {cu : Cur} (h : issues (specCmpI op) f s cu = true) : f.c.toNat ≤ 5 := by
  obtain ⟨e, rfl, -, -, -, hc, -, -⟩ := checks_of_issues h
  by_contra hgt
  have : codeOf (·.c) (fun x => decide (x ≤ 5)) e = some 0x04 := by simp [codeOf, hgt]
  exact absurd (this.symm.trans hc) (by simp)

/-! ### Tags (R96, R97) -/

/-- A lane whose A is not X: tchk moves it (R97). -/
theorem tchkRes_of_ne (c : Ctx) (s : State) (a b d old : TWord) (h : a.tag ≠ .x) : tchkRes c s a b d old = tagRes a := by
  unfold tchkRes
  split
  · next hx => exact absurd hx h
  · rfl

/-- Results that agree in the active lanes are the same results: the lane that a word computes for is active (R75). -/
theorem perLane_congr {spec : OpSpec} {f : Fields} {s : State} {cu : Cur} (hi : issues spec f s cu = true) {g h : Nat → LaneRes}
    (hgh : ∀ l ∈ activeLanes s cu, g l = h l) : perLane f s cu g = perLane f s cu h := by
  have hlow : lowLane (getSplit s cu.w cu.k).mask ∈ activeLanes s cu := by
    unfold lowLane activeLanes
    cases hl : lanesOf (getSplit s cu.w cu.k).mask with
    | nil => exact absurd hl (activeLanes_ne_nil hi)
    | cons a r => exact List.mem_cons_self
  refine List.map_congr_left fun l hl => congrArg (Prod.mk l) (hgh _ ?_)
  split
  · exact hlow
  · exact hl

/-- R97: tchk where no active lane is X. -/
theorem tchk_done {f : Fields} {s : State} {cu : Cur} (h : issues specTchk f s cu = true) (hd : isQ f.d = false)
    (hx : ∀ l ∈ activeLanes s cu, (inA specTchk f s cu l).tag ≠ .x) :
    ∃ t, exec (.tchk f) s = .next t ∧ LaneDone (specTchk.reads f) f s cu (perLane f s cu fun l => tagRes (inA specTchk f s cu l)) t := by
  have hv : perLane f s cu (fun l => tchkRes (ctxOf specTchk f s cu) (atIssue s cu) (inA specTchk f s cu l) (inB specTchk f s cu l)
      (inC specTchk f s cu l) (oldOf f s cu l)) = perLane f s cu fun l => tagRes (inA specTchk f s cu l) :=
    perLane_congr h fun l hl => tchkRes_of_ne _ _ _ _ _ _ (hx l hl)
  rw [← hv]
  refine laneExec_perLane specTchk 2 tchkRes f s cu h hd _ (fun _ => rfl) ?_
  rw [hv]
  intro e hm
  obtain ⟨l, -, rfl⟩ := List.mem_map.1 hm
  exact laneTraps_tagRes _ _

/-- R54: MOD[0] of mrg, as a test of a lane with an X in A. -/
theorem mrgRes_eq (c : Ctx) (s : State) (a b d old : TWord) : mrgRes c s a b d old =
    tagRes (if a.tag = .v then a else if a.tag = .n then b else if !(isImm c.f.b || isImm c.f.c) && c.f.md.getLsbD 0 then b else a) := by
  unfold mrgRes
  rw [modOf_getLsbD]
  cases a.tag <;> rfl

theorem gateRes_eq (c : Ctx) (s : State) (a b d old : TWord) : gateRes c s a b d old =
    tagRes (if b.tag = .v then a else if b.tag = .n then ⟨.n, a.data⟩ else b) := by
  unfold gateRes
  cases b.tag <;> rfl

theorem selRes_eq (c : Ctx) (s : State) (a b d old : TWord) : selRes c s a b d old =
    tagRes (if d.tag = .v then a else if d.tag = .n then b else d) := by
  unfold selRes
  cases d.tag <;> rfl

theorem tgetRes_eq (c : Ctx) (s : State) (a b d old : TWord) : tgetRes c s a b d old =
    tagRes ⟨.v, if a.tag = .v then 0 else if a.tag = .n then 1 else 2⟩ := by
  unfold tgetRes
  cases a.tag <;> rfl

/-- R34: the tag of an encoding. -/
theorem tagOf_eq (n : Nat) : tagOf n = if n % 4 = 0 then .v else if n % 4 = 1 then .n else .x := by
  have h4 : n % 4 < 4 := Nat.mod_lt _ (by decide)
  unfold tagOf
  generalize n % 4 = k at h4 ⊢
  interval_cases k <;> rfl

theorem tsetRes_eq (c : Ctx) (s : State) (a b d old : TWord) : tsetRes c s a b d old =
    tagRes ⟨if c.f.md.toNat % 4 = 0 then .v else if c.f.md.toNat % 4 = 1 then .n else .x, a.data⟩ := by
  rw [← tagOf_eq]
  rfl

theorem candRes_eq (c : Ctx) (s : State) (a b d old : TWord) : candRes c s a b d old =
    tagRes (if a.tag = .n ∨ b.tag = .n then condWord false else poisonOr [a, b] (condWord true)) := by
  rw [← firstX_eq_poisonOr]
  rfl

theorem corRes_eq (c : Ctx) (s : State) (a b d old : TWord) : corRes c s a b d old =
    tagRes (if a.tag = .v ∨ b.tag = .v then condWord true else poisonOr [a, b] (condWord false)) := by
  rw [← firstX_eq_poisonOr]
  rfl

theorem cnotRes_eq (c : Ctx) (s : State) (a b d old : TWord) : cnotRes c s a b d old =
    tagRes (poisonOr [a] (condWord (decide (a.tag = .n)))) := by
  unfold cnotRes
  rw [← firstX_eq_poisonOr]
  cases h : a.tag <;> simp [firstX, h, condWord_eq] <;> rfl

/-- A word whose lane function gives words with their tags completes with these. -/
theorem tagRow_done {i : Instr} {spec : OpSpec} {lat : Nat} {g : Ctx → State → TWord → TWord → TWord → TWord → LaneRes}
    {f : Fields} {s : State} {cu : Cur} (he : exec i s = laneExec spec lat g f s) (h : issues spec f s cu = true) (hd : isQ f.d = false)
    (v : TWord → TWord → TWord → TWord → TWord) (hv : ∀ a b c old, g (ctxOf spec f s cu) (atIssue s cu) a b c old = tagRes (v a b c old)) :
    ∃ t, exec i s = .next t ∧ LaneDone (spec.reads f) f s cu (perLane f s cu fun l =>
      tagRes (v (inA spec f s cu l) (inB spec f s cu l) (inC spec f s cu l) (oldOf f s cu l))) t :=
  laneRow_done he h hd (fun a b c old => tagRes (v a b c old)) hv (fun _ _ _ _ => laneTraps_tagRes _ _)

/-- Settles O4: the lane function of each row by the tags of its operands; tchk in the lanes that it moves. -/
theorem conditionsAndTags : Obligations.ConditionsAndTags := by
  intro f i spec h s cu hm hi hd hx
  simp only [tagRows, List.mem_cons, Prod.mk.injEq, List.not_mem_nil, or_false] at hm
  obtain ⟨rfl, rfl, rfl⟩ | ⟨rfl, rfl, rfl⟩ | ⟨rfl, rfl, rfl⟩ | ⟨rfl, rfl, rfl⟩ | ⟨rfl, rfl, rfl⟩ | ⟨rfl, rfl, rfl⟩ |
    ⟨rfl, rfl, rfl⟩ | ⟨rfl, rfl, rfl⟩ | ⟨rfl, rfl, rfl⟩ | ⟨rfl, rfl, rfl⟩ | ⟨rfl, rfl, rfl⟩ := hm
  · exact tagRow_done (exec_cnd f s) hi hd _ fun a b c old => cndRes_eq _ _ a b c old (condCode_le (op := 0x030) hi)
  · exact tagRow_done (exec_cmp f s) hi hd _ fun a b c old => cmpRes_eq _ _ a b c old (condCode_le (op := 0x032) hi)
  · exact tagRow_done (exec_gate f s) hi hd _ fun a b c old => gateRes_eq _ _ a b c old
  · exact tagRow_done (exec_mrg f s) hi hd _ fun a b c old => mrgRes_eq _ _ a b c old
  · exact tagRow_done (exec_sel f s) hi hd _ fun a b c old => selRes_eq _ _ a b c old
  · exact tagRow_done (exec_tget f s) hi hd _ fun a b c old => tgetRes_eq _ _ a b c old
  · exact tagRow_done (exec_tset f s) hi hd _ fun a b c old => tsetRes_eq _ _ a b c old
  · exact tchk_done hi hd (hx rfl)
  · exact tagRow_done (exec_cand f s) hi hd _ fun a b c old => candRes_eq _ _ a b c old
  · exact tagRow_done (exec_cor f s) hi hd _ fun a b c old => corRes_eq _ _ a b c old
  · exact tagRow_done (exec_cnot f s) hi hd _ fun a b c old => cnotRes_eq _ _ a b c old

end Sys2Proof.Machine
end

section
/-!
R97, R107: a word of fixed latency some of whose lanes trap.
-/
namespace Sys2Proof.Machine
open Claims

/-- Each row of fixed latency is its lane function at some latency. -/
theorem fixedRows_exec (f : Fields) :
    ∀ e ∈ plainRows f ++ floatRows f ++ crossRows f, ∃ lat, ∀ s, exec e.1 s = crossExec e.2.1 lat e.2.2 f s := by
  simp only [plainRows, floatRows, crossRows, List.cons_append, List.nil_append, List.forall_mem_cons, List.not_mem_nil, false_implies, implies_true,
    and_true]
  and_intros <;> exact ⟨_, fun _ => rfl⟩

/-- The words of the lanes that do not trap under fcr. -/
def untrapped (fcr : Word) (rs : List (Nat × LaneRes)) : List (Nat × TWord) :=
  (rs.filter (fun e => !laneTraps fcr e.2)).map (fun e => (e.1, e.2.val))

theorem mem_untrapped {fcr : Word} {rs : List (Nat × LaneRes)} {x : Nat × TWord} :
    x ∈ untrapped fcr rs ↔ ∃ e ∈ rs, laneTraps fcr e.2 = false ∧ (e.1, e.2.val) = x := by
  simp [untrapped, and_assoc]

theorem untrapped_sublist (fcr : Word) (rs : List (Nat × LaneRes)) : (untrapped fcr rs).map (·.1) |>.Sublist (rs.map (·.1)) := by
  unfold untrapped
  rw [List.map_map]
  exact List.filter_sublist.map _

/-- R107: the untrapped lanes are written before the trap is taken. -/
theorem finishFixed_trap (c : Ctx) (lat : Nat) (rs : List (Nat × LaneRes)) (s : State) {r : TrapReq}
    (h : lanesTrap (getWarp s c.w).fcr (spreadLanes c rs) = some r) : ∃ fl, finishFixed c lat rs s =
      raise c r (writeFixed (orFsr s c.w fl) c.w c.f.d.toNat c.t lat (untrapped (getWarp s c.w).fcr (spreadLanes c rs))) := by
  unfold finishFixed
  simp only [h]
  exact ⟨_, rfl⟩

/-- The state in which a word's results are written has the warp's fcr and the registers as before the word. -/
theorem popAll_atIssue_fcr (s : State) (cu : Cur) (m : Mask) (codes : List (BitVec 8)) :
    (getWarp (popAll (atIssue s cu) cu.w m codes) cu.w).fcr = (getWarp s cu.w).fcr := by
  have hw : getWarp (popAll (atIssue s cu) cu.w m codes) cu.w = getWarp (atIssue s cu) cu.w := by unfold getWarp; rw [popAll_warps]
  rw [hw, atIssue, getWarp_startIssue_same]

theorem rdReg_popAll_atIssue (s : State) (cu : Cur) (m : Mask) (codes : List (BitVec 8)) (fl : List (Nat × BitVec 6)) (w r l : Nat) :
    rdReg (orFsr (popAll (atIssue s cu) cu.w m codes) cu.w fl) w r l = rdReg s w r l := by
  obtain ⟨q, hq⟩ := popAll_eq (atIssue s cu) cu.w m codes
  rw [hq]
  rfl

theorem perLane_lanes (f : Fields) (s : State) (cu : Cur) (g : Nat → LaneRes) : (perLane f s cu g).map (·.1) = activeLanes s cu := by
  simp [perLane, Function.comp_def]

/-- What the untrapped lanes of a word leave in the registers: their words in a vector D, and nothing in any other register or lane. -/
theorem rdReg_writeUntrapped (f : Fields) (s : State) (cu : Cur) (g : Nat → LaneRes) (u : State) (t lat : Nat)
    (hu : ∀ w r l, rdReg u w r l = rdReg s w r l) (fcr : Word) :
    (∀ e ∈ perLane f s cu g, isV f.d = true →
      rdReg (writeFixed u cu.w f.d.toNat t lat (untrapped fcr (perLane f s cu g))) cu.w f.d.toNat e.1 =
        if laneTraps fcr e.2 then rdReg s cu.w f.d.toNat e.1 else e.2.val) ∧
      KeepsRegs f.d.toNat s cu (writeFixed u cu.w f.d.toNat t lat (untrapped fcr (perLane f s cu g))) := by
  have hn : ((perLane f s cu g).map (·.1)).Nodup := perLane_lanes f s cu g ▸ lanesOf_nodup _
  have hlane : ∀ x ∈ untrapped fcr (perLane f s cu g), x.1 ∈ activeLanes s cu := fun x hx => by
    rw [← perLane_lanes f s cu g]
    exact (untrapped_sublist fcr _).mem (List.mem_map_of_mem hx)
  refine ⟨fun e he hv => ?_, fun w r l hl hne => ?_⟩
  · have hd : f.d.toNat < 0xC0 := of_decide_eq_true hv
    have hel : e.1 < 32 := lanesOf_lt (perLane_lanes f s cu g ▸ List.mem_map_of_mem he)
    rw [rdReg_writeFixed, if_pos (by omega)]
    split
    · next ht =>
      rw [rdReg_wrReg_other _ _ _ _ _ _ _ hel (fun x hx => lanesOf_lt (hlane x hx)), hu]
      rintro ⟨-, -, hm⟩
      obtain ⟨x, hx, hxe⟩ := List.mem_map.1 (hm hd)
      obtain ⟨y, hy, hyt, rfl⟩ := mem_untrapped.1 hx
      have : y = e := List.inj_on_of_nodup_map hn hy he hxe
      rw [this, ht] at hyt
      cases hyt
    · next ht =>
      exact rdReg_wrReg_vector _ _ _ _ _ _ hd (mem_untrapped.2 ⟨e, he, by simpa using ht, rfl⟩) (hn.sublist (untrapped_sublist fcr _))
  · rw [rdReg_writeFixed]
    split
    · rw [rdReg_wrReg_other _ _ _ _ _ _ _ hl (fun x hx => lanesOf_lt (hlane x hx)), hu]
      rintro ⟨hw, hr, hm⟩
      refine hne ⟨hw, hr, fun hv => ?_⟩
      obtain ⟨x, hx, rfl⟩ := List.mem_map.1 (hm hv)
      exact ((mem_lanesOf _ _).1 (hlane x hx)).2
    · exact hu w r l

/-- A word of fixed latency some of whose lanes trap: the others are written, then it traps. -/
theorem crossExec_trap (spec : OpSpec) (lat : Nat) (g : Ctx → State → Nat → LaneRes) (f : Fields) (s : State) (cu : Cur)
    (h : issues spec f s cu = true) (hd : isQ f.d = false) {r : TrapReq}
    (hr : lanesTrap (getWarp s cu.w).fcr (perLane f s cu (g (ctxOf spec f s cu) (atIssue s cu))) = some r) :
    ∃ fl, crossExec spec lat g f s = .next (keepReplay spec (ctxOf spec f s cu) (atIssue s cu) (raise (ctxOf spec f s cu) r
      (writeFixed (orFsr (popAll (atIssue s cu) cu.w (getSplit s cu.w cu.k).mask (spec.reads f)) cu.w fl) cu.w f.d.toNat (issueTime s cu.w cu.k) lat
        (untrapped (getWarp s cu.w).fcr (perLane f s cu (g (ctxOf spec f s cu) (atIssue s cu))))))) := by
  have hfcr := popAll_atIssue_fcr s cu (getSplit s cu.w cu.k).mask (spec.reads f)
  rw [← spread_perLane spec, ← hfcr] at hr
  obtain ⟨fl, hfin⟩ := finishFixed_trap (ctxOf spec f s cu) lat _ _ hr
  rw [spread_perLane, ctxOf_w, hfcr] at hfin
  refine ⟨fl, (issue_of_issues spec f s _ cu h).trans (congrArg Host.Outcome.next (congrArg (keepReplay _ _ _) ?_))⟩
  unfold crossBody
  simp only [ctxOf_f, hd, Bool.false_eq_true, if_false]
  exact hfin

/-- Settles O8: a row of fixed latency writes its untrapped lanes and raises the trap of the others. -/
theorem trappingLanesKeepDestination : Obligations.TrappingLanesKeepDestination := by
  intro f i spec g s cu hm hi hd c rs r hr
  obtain ⟨lat, he⟩ := fixedRows_exec f _ hm
  obtain ⟨fl, hx⟩ := crossExec_trap spec lat g f s cu hi hd hr
  have hw := rdReg_writeUntrapped f s cu (g c (atIssue s cu)) _ (issueTime s cu.w cu.k) lat 
    (rdReg_popAll_atIssue s cu (getSplit s cu.w cu.k).mask (spec.reads f) fl) (getWarp s cu.w).fcr
  exact ⟨_, (he s).trans hx, hw⟩

end Sys2Proof.Machine
end

section
/-!
R91 to R93, R426: srd and swr.
-/
namespace Sys2Proof.Machine
open Claims

/-- An interlock that does not hold the word leaves its issue (R147). -/
theorem issueUnless_of_issues {spec : OpSpec} {held : Ctx → State → Bool} {f : Fields} {s : State} {cu : Cur} (body : Ctx → State → State)
    (h : issues spec f s cu = true) (hh : held (ctxOf spec f s cu) s = false) : issueUnless spec held f s body = issue spec f s body := by
  unfold issueUnless
  rw [cur_of_issues h]
  simp only [hh, Bool.false_eq_true, if_false]

/-- R93: flags that are determined do not hold a word. -/
theorem flagsHold_of_settled {spec : OpSpec} {f : Fields} {s : State} {cu : Cur}
    (h : f.md.toNat = 0x0A → flagsPending s cu.w (getSplit s cu.w cu.k).mask = false) : flagsHold (ctxOf spec f s cu) s = false := by
  unfold flagsHold
  by_cases hm : f.md.toNat = 0x0A
  · simp [h hm]
  · simp [hm]

/-! ### srd (R91) -/

theorem specialRegisterRead : SpecialRegisterRead := by
  intro f s cu hi hd hp
  have hlanes : spreadLanes (ctxOf specSrd f s cu) (srdLanes (ctxOf specSrd f s cu) (atIssue s cu)) =
      perLane f s cu fun l => wordRes (srValue (atIssue s cu) (ctxOf specSrd f s cu) f.md.toNat l) := spread_perLane specSrd f s cu _
  have htraps : lanesTrap (getWarp s cu.w).fcr (spreadLanes (ctxOf specSrd f s cu) (srdLanes (ctxOf specSrd f s cu) (atIssue s cu))) = none := by
    rw [hlanes]
    refine lanesTrap_of _ _ fun e he => ?_
    obtain ⟨l, -, rfl⟩ := List.mem_map.1 he
    exact laneTraps_wordRes _ _
  have hdone := finishFixed_done specSrd 3 f s cu [] _ (atIssue s cu) ⟨_, rfl⟩ (by rw [hlanes, perLane_lanes]; rfl) htraps
  rw [hlanes] at hdone
  refine ⟨_, (issueUnless_of_issues srdBody hi (flagsHold_of_settled hp)).trans (issue_of_issues specSrd f s srdBody cu hi),
    laneDone_keepReplay _ _ _ _ _ _ _ _ _ ?_⟩
  unfold srdBody
  rw [ctxOf_f, hd, if_neg Bool.false_ne_true]
  exact hdone

/-! ### swr (R92, R93, R426) -/

/-- Codes that name no queue pop nothing. -/
theorem popAll_of_no_queue {codes : List (BitVec 8)} (h : ∀ x ∈ codes, isQ x = false) (s : State) (w : Nat) (m : Mask) :
    popAll s w m codes = s := by
  have hq : queuesOf codes = [] := List.filter_eq_nil_iff.2 fun q hq => by
    have hz : popCount codes q = 0 := List.length_eq_zero_iff.2 (List.filter_eq_nil_iff.2 fun x hx he => by
      have hlt := List.mem_range.1 hq
      have hxq : isQ x = true := (isQ_iff x).2 (by have := of_decide_eq_true he; omega)
      rw [h x hx] at hxq
      cases hxq)
    simp [hz]
  unfold popAll
  rw [hq]
  rfl

/-- R93: the source of swr is no queue, and the register is fcr, fsr or tvec. -/
theorem swr_checks {f : Fields} {s : State} {cu : Cur} (h : issues specSwr f s cu = true) :
    isQ f.a = false ∧ (f.md.toNat = 0x09 ∨ f.md.toNat = 0x0A ∨ f.md.toNat = 0x0B) := by
  obtain ⟨e, rfl, -, ha, -, -, -, hmd⟩ := checks_of_issues h
  refine ⟨?_, of_decide_eq_true
    ((chkIf_eq_none (p := fun e => decide (e.f.md.toNat = 0x09 ∨ e.f.md.toNat = 0x0A ∨ e.f.md.toNat = 0x0B))).1 hmd)⟩
  by_contra hq
  have hr := (isQ_iff e.f.a).1 (by simpa using hq)
  have hz : e.f.a ≠ 0xE4#8 := fun hz => by rw [hz] at hr; exact absurd hr (by decide)
  have hno : (isSZ e.f.a || (isV e.f.a && decide (e.f.md.toNat = 0x0A))) = false := by
    simp only [isSZ, isS, isZ, isV, Bool.or_eq_false_iff, Bool.and_eq_false_iff, decide_eq_false_iff_not]
    exact ⟨⟨by omega, hz⟩, .inl (by omega)⟩
  have hi : isImm e.f.a = false := decide_eq_false fun hx => by rw [hx] at hr; exact absurd hr (by decide)
  simp only [specSwr, hi, Bool.false_eq_true, if_false, hno, Option.or_eq_none_iff] at ha
  cases ha.2

/-- The flags that swr to fsr writes: those of the active lanes whose source is V (R93). -/
def swrFlags (c : Ctx) (s : State) : List (Nat × BitVec 6) :=
  (lanesOf c.sp.mask).filterMap (fun l => if (opA s c l).tag = .v then some (lkey c.w l, (opA s c l).data.truncate 6) else none)

theorem mem_swrFlags {c : Ctx} {s : State} {e : Nat × BitVec 6} :
    e ∈ swrFlags c s ↔ ∃ l ∈ lanesOf c.sp.mask, (opA s c l).tag = .v ∧ (lkey c.w l, (opA s c l).data.truncate 6) = e := by
  simp [swrFlags, List.mem_filterMap]

theorem swrFlags_nodup (c : Ctx) (s : State) : ((swrFlags c s).map (·.1)).Nodup := by
  unfold swrFlags
  rw [List.map_filterMap]
  refine (lanesOf_nodup _).filterMap fun l l' k hl hl' => ?_
  have hk : ∀ {j}, k ∈ ((if (opA s c j).tag = .v then some (lkey c.w j, (opA s c j).data.truncate 6) else none).map (·.1) : Option Nat) →
      lkey c.w j = k := fun {j} hj => by
    split at hj
    · simpa using hj
    · cases hj
  have := (hk hl).trans (hk hl').symm
  unfold lkey at this
  omega

/-- R92: the sticky flags after swr to fsr. -/
theorem sget_swrFlags (c : Ctx) (s : State) (m : List (Nat × BitVec 6)) (w l : Nat) (hl : l < 32) :
    sget 0#6 (ssetAll 0#6 m (swrFlags c s)) (lkey w l) =
      if w = c.w ∧ c.sp.mask.getLsbD l = true ∧ (opA s c l).tag = .v then (opA s c l).data.truncate 6 else sget 0#6 m (lkey w l) := by
  split
  · next h =>
    obtain ⟨rfl, hm, hv⟩ := h
    exact sget_ssetAll_mem _ _ m (lkey c.w l, _) (mem_swrFlags.2 ⟨l, (mem_lanesOf _ _).2 ⟨hl, hm⟩, hv, rfl⟩) (swrFlags_nodup c s)
  · next h =>
    refine sget_ssetAll_ne _ _ _ _ fun e he hk => ?_
    obtain ⟨j, hj, hv, rfl⟩ := mem_swrFlags.1 he
    obtain ⟨hw, rfl⟩ := lkey_inj (lanesOf_lt hj) hl hk
    exact h ⟨hw.symm, ((mem_lanesOf _ _).1 hj).2, hv⟩

/-- What swr leaves: the flags `fsr`, the warp's registers as in `wp`, and the split at its next word. -/
structure SwrLeaves (s : State) (cu : Cur) (wp : Warp) (fsr : List (Nat × BitVec 6)) (t : State) : Prop where
  frame : t = { issueFrame s t with fsr := t.fsr }
  flags : t.fsr = fsr
  others : ∀ w, w ≠ cu.w → getWarp t w = getWarp s w
  pc : (getSplit t cu.w cu.k).pc = (getSplit s cu.w cu.k).pc + 8
  warp : getWarp t cu.w = { wp with idle := 0, splits := (getWarp t cu.w).splits }

theorem stepSplit_pc (sp : Split) : (stepSplit sp).pc = sp.pc + 8 := by
  unfold stepSplit
  dsimp only
  split <;> rfl

/-- A word that writes flags at most goes on. -/
theorem swrLeaves_advance (f : Fields) (s : State) (cu : Cur) (fsr : List (Nat × BitVec 6)) :
    SwrLeaves s cu (getWarp s cu.w) fsr (advance (ctxOf specSwr f s cu) { atIssue s cu with fsr := fsr }) := by
  have hg := goes_advance specSwr f s cu { atIssue s cu with fsr := fsr } rfl
  exact ⟨rfl, rfl, hg.others, by rw [hg.split]; exact stepSplit_pc _, hg.warp⟩

/-- The warp with fcr or tvec as swr writes it (R92). -/
def swrWarp (f : Fields) (v : Word) (wp : Warp) : Warp :=
  if f.md.toNat = 0x09 then { wp with fcr := v &&& 0x3FF } else { wp with tvec := v &&& (2 ^ 56 - 1 : Nat) }

theorem swrWarp_issued (f : Fields) (v : Word) (wp : Warp) : swrWarp f v { wp with idle := 0 } = { swrWarp f v wp with idle := 0 } := by
  unfold swrWarp
  split <;> rfl

theorem swrWarp_fcr (f : Fields) (v : Word) (wp : Warp) : (swrWarp f v wp).fcr = if f.md.toNat = 0x09 then v &&& 0x3FF else wp.fcr := by
  unfold swrWarp
  split <;> rfl

theorem swrWarp_tvec (f : Fields) (v : Word) (wp : Warp) :
    (swrWarp f v wp).tvec = if f.md.toNat = 0x09 then wp.tvec else v &&& 0xFFFFFFFFFFFFFF := by
  unfold swrWarp
  split <;> rfl

theorem swrWarp_splits (f : Fields) (v : Word) (wp : Warp) : (swrWarp f v wp).splits = wp.splits := by
  unfold swrWarp
  split <;> rfl

theorem swrWarp_held (f : Fields) (v : Word) (wp : Warp) : (swrWarp f v wp).held = wp.held := by
  unfold swrWarp
  split <;> rfl

theorem getSplit_holdWarp (s : State) (w k n : Nat) : getSplit (holdWarp s w n) w k = getSplit s w k := by
  unfold holdWarp getSplit
  rw [getWarp_setWarp_same]

/-- R93, R426: a write to fcr or tvec holds the warp for three cycles. -/
theorem swrLeaves_write (f : Fields) (s : State) (cu : Cur) (v : Word) :
    SwrLeaves s cu { swrWarp f v (getWarp s cu.w) with held := max (getWarp s cu.w).held (issueTime s cu.w cu.k + 3) } s.fsr
      (holdWarp (advance (ctxOf specSwr f s cu) (setWarp (atIssue s cu) cu.w (swrWarp f v (getWarp (atIssue s cu) cu.w)))) cu.w
        (issueTime s cu.w cu.k + 3)) := by
  have hw : getWarp (atIssue s cu) cu.w = { getWarp s cu.w with idle := 0 } := getWarp_startIssue_same s cu _
  obtain ⟨u, hu⟩ : ∃ u, setWarp (atIssue s cu) cu.w (swrWarp f v (getWarp (atIssue s cu) cu.w)) = u := ⟨_, rfl⟩
  have huw : getWarp u cu.w = { swrWarp f v (getWarp s cu.w) with idle := 0 } := by
    rw [← hu, getWarp_setWarp_same, hw, swrWarp_issued]
  have husp : getSplit u cu.w cu.k = getSplit s cu.w cu.k := by
    unfold getSplit
    rw [huw, ← swrWarp_splits f v (getWarp s cu.w)]
  have hframe : u = { atIssue s cu with warps := u.warps } := by rw [← hu]; rfl
  rw [hu, advance_eq, ctxOf_w, ctxOf_k, husp]
  refine ⟨?_, ?_, fun w h => ?_, ?_, ?_⟩
  · rw [hframe]; rfl
  · rw [hframe]; rfl
  · rw [holdWarp, getWarp_setWarp_ne _ _ _ _ h, getWarp_setSplit_ne _ _ _ _ _ h, ← hu, getWarp_setWarp_ne _ _ _ _ h]
    exact getWarp_startIssue_ne _ _ _ _ h
  · rw [getSplit_holdWarp, getSplit_setSplit_same]
    exact stepSplit_pc _
  · rw [holdWarp, getWarp_setWarp_same, getWarp_setSplit_same, huw, ← swrWarp_held f v (getWarp s cu.w)]

/-! The body of swr by its register and the tag of its source. -/

theorem swrBody_fsr {c : Ctx} (s : State) (hm : c.f.md.toNat = 0x0A) :
    swrBody c s = advance c { popAll s c.w c.sp.mask [c.f.a] with fsr := ssetAll 0#6 s.fsr (swrFlags c s) } := if_pos hm

theorem swrBody_keeps {c : Ctx} {s : State} (hm : c.f.md.toNat ≠ 0x0A) (ht : (opA s c (lowLane c.sp.mask)).tag ≠ .v) :
    swrBody c s = advance c s := (if_neg hm).trans (if_pos ht)

theorem swrBody_writes {c : Ctx} {s : State} (hm : c.f.md.toNat ≠ 0x0A) (ht : (opA s c (lowLane c.sp.mask)).tag = .v) :
    swrBody c s = holdWarp (advance c (setWarp s c.w (swrWarp c.f (opA s c (lowLane c.sp.mask)).data (getWarp s c.w)))) c.w (c.t + 3) :=
  (if_neg hm).trans (if_neg (not_not.2 ht))

/-- A kept replay is no part of what swr leaves (R449). -/
theorem SwrLeaves.keepReplay {s : State} {cu : Cur} {wp : Warp} {fsr : List (Nat × BitVec 6)} {t : State} (h : SwrLeaves s cu wp fsr t)
    (spec : OpSpec) (c : Ctx) (s1 : State) : SwrLeaves s cu wp fsr (keepReplay spec c s1 t) := by
  obtain ⟨hf, hfl, ho, hp, hw⟩ := h
  rw [keepReplay_eq]
  exact ⟨by rw [hf]; rfl, hfl, ho, hp, hw⟩

/-- The source of swr to fcr and tvec: A of the lowest active lane. -/
def swrSource (f : Fields) (s : State) (cu : Cur) : TWord := inA specSwr f s cu (lowLane (getSplit s cu.w cu.k).mask)

/-- swr by its register and the tag of its source (R93). -/
theorem swr_leaves {f : Fields} {s : State} {cu : Cur} (h : issues specSwr f s cu = true)
    (hp : f.md.toNat = 0x0A → flagsPending s cu.w (getSplit s cu.w cu.k).mask = false) :
    ∃ t, exec (.swr f) s = .next t ∧
      (f.md.toNat = 0x0A → SwrLeaves s cu (getWarp s cu.w) (ssetAll 0#6 s.fsr (swrFlags (ctxOf specSwr f s cu) (atIssue s cu))) t) ∧
      (f.md.toNat ≠ 0x0A → (swrSource f s cu).tag ≠ .v → SwrLeaves s cu (getWarp s cu.w) s.fsr t) ∧
      (f.md.toNat ≠ 0x0A → (swrSource f s cu).tag = .v → SwrLeaves s cu { swrWarp f (swrSource f s cu).data (getWarp s cu.w) with
        held := max (getWarp s cu.w).held (issueTime s cu.w cu.k + 3) } s.fsr t) := by
  refine ⟨_, (issueUnless_of_issues swrBody h (flagsHold_of_settled hp)).trans (issue_of_issues specSwr f s swrBody cu h), fun hm => ?_,
    fun hm ht => ?_, fun hm ht => ?_⟩ <;> refine SwrLeaves.keepReplay ?_ _ _ _
  · rw [swrBody_fsr _ hm, popAll_of_no_queue (by simpa using (swr_checks h).1)]
    exact swrLeaves_advance f s cu _
  · rw [swrBody_keeps hm ht]
    exact swrLeaves_advance f s cu _
  · rw [swrBody_writes hm ht]
    exact swrLeaves_write f s cu _

theorem specialRegisterWrite : SpecialRegisterWrite := by
  intro f s cu hi hp a
  obtain ⟨t, ht, hfsr, hkeep, hwrite⟩ := swr_leaves hi hp
  refine ⟨t, ht, ?_⟩
  by_cases hm : f.md.toNat = 0x0A
  · obtain ⟨hframe, hflags, hothers, hpc, hwarp⟩ := hfsr hm
    refine ⟨hframe, hothers, hpc, ?_, ?_, ?_, fun w l hl => ?_⟩
    · rw [hwarp]; simp [hm]
    · rw [hwarp]; simp [hm]
    · rw [hwarp]; simp [hm]
    · rw [hflags, sget_swrFlags _ _ _ _ _ hl]
      simp only [hm, true_and]
      rfl
  · have hf : ∀ {wp}, SwrLeaves s cu wp s.fsr t → ∀ w l, l < 32 → sget 0#6 t.fsr (lkey w l) =
        if f.md.toNat = 0x0A ∧ w = cu.w ∧ activeIn s cu l = true ∧ (inA specSwr f s cu l).tag = .v
        then (inA specSwr f s cu l).data.truncate 6 else sget 0#6 s.fsr (lkey w l) := fun h w l _ => by
      rw [h.flags, if_neg (fun hc => hm hc.1)]
    by_cases hv : a.tag = .v
    · have h := hwrite hm hv
      refine ⟨h.frame, h.others, h.pc, ?_, ?_, ?_, hf h⟩
      · rw [h.warp]
        exact (swrWarp_fcr f _ _).trans (if_congr (by simp [hv]) rfl rfl)
      · rw [h.warp]
        have hreg : ¬f.md.toNat = 0x09 ↔ f.md.toNat = 0x0B ∧ a.tag = .v := by
          have := (swr_checks hi).2
          simp only [hv, and_true]
          omega
        exact (swrWarp_tvec f _ _).trans ((ite_not _ _ _).symm.trans (if_congr hreg rfl rfl))
      · rw [h.warp, if_pos ⟨hm, hv⟩]
    · have h := hkeep hm hv
      refine ⟨h.frame, h.others, h.pc, ?_, ?_, ?_, hf h⟩
      · rw [h.warp, if_neg (fun hc => hv hc.2)]
      · rw [h.warp, if_neg (fun hc => hv hc.2)]
      · rw [h.warp, if_neg (fun hc => hv hc.2)]

/-- Settles O9: srd by its lanes' values; swr to fsr, and to fcr or tvec by the tag of its source. -/
theorem specialRegisters : Obligations.SpecialRegisters := ⟨specialRegisterRead, specialRegisterWrite⟩

end Sys2Proof.Machine
end

section
/-!
R57, R137: bcast by a split that keeps an operand of an earlier issue.
-/
namespace Sys2Proof.Machine
open Claims

/-- A placed bcast of v2 to v1 by s0, in lanes 0 and 1. Nothing in the statement bounds what the split keeps from an earlier issue of its word
(R57): it keeps N for s0 in lane 1, while s0 itself, which lane 0 reads, holds V. -/
def latchedBcast : State :=
  let s := placeWord State.reset (specBcast.op.toNat * 2 ^ 52)
  setSplit s 128 0 { getSplit s 128 0 with mask := 3, latch := [((0xC0, 1), ⟨.n, 0⟩)] }

/-- The word of that bcast: D = v1, A = v2, B = s0. -/
def latchedBcastWord : Fields := mk 0 1 2 0xC0 0xE4 0 0

/-- The split that issues it: entry 0 of the placed block's first warp. -/
def latchedBcastCur : Cur := { w := 128, k := 0 }

/-- The checks of the word pass. -/
theorem latchedBcast_issues : issues specBcast latchedBcastWord latchedBcast latchedBcastCur = true := by decide +kernel

/-- Lane 1 is active. -/
theorem latchedBcast_lane : 1 ∈ activeLanes latchedBcast latchedBcastCur := by decide +kernel

/-- B decides the word's lanes: by lane 0, which bcast reads for every lane, lane 1 takes a word of tag V; by lane 1 itself, one of tag N. -/
theorem latchedBcast_words :
    (bcastRes (ctxOf specBcast latchedBcastWord latchedBcast latchedBcastCur) (atIssue latchedBcast latchedBcastCur) 1).val.tag = .v ∧
      (inB specBcast latchedBcastWord latchedBcast latchedBcastCur 1).tag = .n := by decide +kernel

/-- R35: an N word nullifies whatever the result. -/
theorem byTags_nullified {x : TWord} (h : x.tag = .n) (old : TWord) (r : LaneRes) : (byTags old [x] r).val.tag = .n := by
  simp [byTags, h]

/-- The word of an active lane in a vector D is the lane's own result (R75). -/
theorem LaneDone.vector_value {reads : List (BitVec 8)} {f : Fields} {s : State} {cu : Cur} {v : Nat → LaneRes} {t : State}
    (h : LaneDone reads f s cu (perLane f s cu v) t) (hd : f.d.toNat < 0xC0) {l : Nat} (hl : l ∈ activeLanes s cu) :
    rdReg t cu.w f.d.toNat l = (v l).val := by
  have hs : isS f.d = false := by simp [isS]; omega
  have hv := h.value _ (List.mem_map.2 ⟨l, hl, rfl⟩) (by omega)
  rwa [hs, if_neg Bool.false_ne_true] at hv

/-- A word kept for one lane alone refutes what the statement says of bcast, whose lanes it lets read B each for itself: lane 1 holds a word of
tag V where the statement has N. -/
theorem not_crossLaneValues : ¬ CrossLaneValues := by
  intro h
  have hq : isQ latchedBcastWord.d = false := by decide
  have hd : latchedBcastWord.d.toNat < 0xC0 := by decide
  obtain ⟨hv, hn⟩ := latchedBcast_words
  obtain ⟨t, ht, hsaid⟩ := h latchedBcastWord (.bcast latchedBcastWord) specBcast _ latchedBcast latchedBcastCur
    (.tail _ (.tail _ (.head _))) latchedBcast_issues hq (by decide)
  obtain ⟨t', ht', hruns⟩ := crossExec_perLane specBcast 6 bcastRes latchedBcastWord latchedBcast latchedBcastCur latchedBcast_issues hq
    (by decide +kernel)
  obtain rfl : t = t' := Host.Outcome.next.inj (ht.symm.trans ht')
  have hsaidTag := (congrArg TWord.tag (hsaid.vector_value hd latchedBcast_lane)).trans (byTags_nullified hn _ _)
  have hrunsTag := (congrArg TWord.tag (hruns.vector_value hd latchedBcast_lane)).trans hv
  exact absurd (hsaidTag.symm.trans hrunsTag) (by decide)

/-- Refutes O5: its part on cross-lane words holds of no bcast whose split keeps, from an earlier issue, different words of a scalar B in
different lanes; the model's bcast reads B in the lowest active lane. -/
theorem not_floatingAndCrossLane : ¬ Obligations.FloatingAndCrossLane := fun h => not_crossLaneValues h.2.2.2

end Sys2Proof.Machine
end

section
/-!
R99, R100: the formats f64, f32, f16 and bf16, and the values of their words, by their bits.
-/
namespace Sys2Proof.Machine
open Claims

/-! ### Formats -/

/-- A type of the arithmetic instructions: f64, f32, f16 or bf16 (R53). -/
def FloatTy (ty : BitVec 4) : Prop := ty = 8 ∨ ty = 9 ∨ ty = 10 ∨ ty = 11

theorem floatTy_of_tyFp {e : Env} (h : tyFp e = none) : FloatTy e.f.ty := by
  have hall : ∀ ty : BitVec 4, (0xF00).testBit ty.toNat = true → ty = 8 ∨ ty = 9 ∨ ty = 10 ∨ ty = 11 := by decide
  refine hall _ ?_
  unfold tyFp tyIn at h
  by_contra hn
  rw [if_neg hn] at h
  cases h

/-- What the four formats have in common: infinities, a magnitude of exponent and fraction alone, and room for at least two exponents. -/
structure Fmt.Ieee (k : Fmt) : Prop where
  inf : k.inf = true
  top : k.maxBits + 1 + 2 ^ k.f = 2 ^ (k.w - 1)
  frac : 1 ≤ k.f
  exps : k.f + 2 < k.w
  width : k.w ≤ 64

/-- The model's format of a type, by the statements' figures (R99). -/
structure FmtIs (ty : BitVec 4) (k : Fmt) : Prop extends k.Ieee where
  w : k.w = floatWidth ty
  f : k.f = fracBits ty
  infinity : k.maxBits + 1 = infMag ty
  ulp : k.ulpMin = 1 - (if ty = 8 then 1023 else if ty = 10 then 15 else 127) - fracBits ty
  flushes : ftzFmt k = decide (ty.toNat < 10)

theorem fmtIs_fmtOf {ty : BitVec 4} (h : FloatTy ty) : FmtIs ty (fmtOf ty.toNat) := by
  obtain rfl | rfl | rfl | rfl := h <;> refine ⟨⟨rfl, ?_, ?_, ?_, ?_⟩, rfl, rfl, ?_, rfl, rfl⟩ <;> decide

/-! ### Magnitudes (R100) -/

/-- The significand of magnitude bits: the fraction, of a normal value with its leading one. -/
def Fmt.sig (k : Fmt) (n : Nat) : Nat := if n / 2 ^ k.f = 0 then n % 2 ^ k.f else 2 ^ k.f + n % 2 ^ k.f

/-- The exponent of the last place of magnitude bits. -/
def Fmt.lastPlace (k : Fmt) (n : Nat) : Int := k.ulpMin + (n / 2 ^ k.f - 1 : Nat)

/-- R100: a word as the model reads it, by its sign and magnitude bits. -/
theorem unpack_eq {ty : BitVec 4} {k : Fmt} (h : FmtIs ty k) (x : Word) :
    unpack k x.toNat =
      if infMag ty < magBits ty x then .nan (signOf ty x) (x.getLsbD (fracBits ty - 1)) (magBits ty x % 2 ^ k.f)
      else if magBits ty x = infMag ty then .inf (signOf ty x)
      else .fin (signOf ty x) (k.sig (magBits ty x)) (k.lastPlace (magBits ty x)) := by
  have hfrac := h.frac
  have hexps := h.exps
  have htop := h.infinity
  have hsign : (x.toNat % 2 ^ k.w).testBit (k.w - 1) = signOf ty x := by
    rw [Nat.testBit_mod_two_pow, decide_eq_true (by omega), Bool.true_and, h.w]
    rfl
  have hmag : x.toNat % 2 ^ k.w % 2 ^ (k.w - 1) = magBits ty x := by
    rw [Nat.mod_mod_of_dvd _ (Nat.pow_dvd_pow 2 (Nat.sub_le _ _)), h.w]
    rfl
  have hquiet : (magBits ty x % 2 ^ k.f).testBit (k.f - 1) = x.getLsbD (fracBits ty - 1) := by
    rw [← hmag, Nat.testBit_mod_two_pow, Nat.testBit_mod_two_pow, Nat.testBit_mod_two_pow, decide_eq_true (by omega), decide_eq_true (by omega),
      decide_eq_true (by omega), h.f]
    rfl
  unfold unpack
  simp only [hsign, hmag, hquiet, h.inf, Bool.not_true, Bool.false_or, Bool.true_and, decide_eq_true_eq]
  rcases Nat.lt_trichotomy (magBits ty x) (infMag ty) with hlt | heq | hgt
  · have hfin : ¬magBits ty x > k.maxBits := by omega
    rw [if_neg hfin, if_neg hlt.le.not_gt, if_neg hlt.ne]
    unfold Fmt.sig Fmt.lastPlace
    split
    · next he => simp [he]
    · next he => rw [Nat.cast_sub (Nat.pos_of_ne_zero he), Nat.cast_one, add_sub_assoc]
  · have hinf : magBits ty x > k.maxBits := by omega
    rw [if_pos hinf, if_pos (heq.trans htop.symm), if_neg heq.le.not_gt, if_pos heq]
  · have hinf : magBits ty x > k.maxBits := by omega
    have hne : magBits ty x ≠ k.maxBits + 1 := by omega
    rw [if_pos hinf, if_neg hne, if_pos hgt]

/-- The bits of a word of a sign and magnitude bits (R101). -/
theorem toNat_floatWord {ty : BitVec 4} {k : Fmt} (h : FmtIs ty k) (neg : Bool) {n : Nat} (hn : n < 2 ^ (floatWidth ty - 1)) :
    (floatWord ty neg n).toNat = n + if neg then 2 ^ (floatWidth ty - 1) else 0 := by
  have h64 : 2 ^ (floatWidth ty - 1) + 2 ^ (floatWidth ty - 1) ≤ 2 ^ 64 := by
    have hw := h.width
    have := h.exps
    rw [← Nat.two_mul, ← Nat.pow_succ', ← h.w]
    exact Nat.pow_le_pow_right (by decide) (by omega)
  unfold floatWord
  rw [BitVec.toNat_ofNat, Nat.mod_eq_of_lt]
  split <;> omega

theorem magBits_floatWord {ty : BitVec 4} {k : Fmt} (h : FmtIs ty k) (neg : Bool) {n : Nat} (hn : n < 2 ^ (floatWidth ty - 1)) :
    magBits ty (floatWord ty neg n) = n := by
  unfold magBits
  rw [toNat_floatWord h neg hn]
  split
  · rw [Nat.add_mod_right, Nat.mod_eq_of_lt hn]
  · exact Nat.mod_eq_of_lt hn

theorem signOf_floatWord {ty : BitVec 4} {k : Fmt} (h : FmtIs ty k) (neg : Bool) {n : Nat} (hn : n < 2 ^ (floatWidth ty - 1)) :
    signOf ty (floatWord ty neg n) = neg := by
  unfold signOf BitVec.getLsbD
  rw [toNat_floatWord h neg hn]
  cases neg with
  | true => rw [if_pos rfl, Nat.add_comm, Nat.testBit_two_pow_add_eq, Nat.testBit_lt_two_pow hn]; rfl
  | false => rw [if_neg Bool.false_ne_true]; exact Nat.testBit_lt_two_pow hn

/-- A result of a sign and magnitude bits as the model puts it together. -/
theorem ofNat_sign_add {ty : BitVec 4} {k : Fmt} (h : FmtIs ty k) (neg : Bool) (n : Nat) :
    BitVec.ofNat 64 (k.sign neg + n) = floatWord ty neg n := by
  unfold Fmt.sign floatWord
  rw [h.w, Nat.add_comm]

end Sys2Proof.Machine
end

section
/-!
R102: the one rounding, in round to nearest even, of an exact magnitude: the nearest multiple of the last place, and where it overflows.
-/
namespace Sys2Proof.Machine
open Claims

/-! ### Nearest multiples -/

/-- N is the multiple of d nearest to a; halfway between two multiples it is even. -/
structure NearestMultiple (a d : ℚ) (N : Nat) : Prop where
  near : |a - N * d| ≤ d / 2
  even : |a - N * d| = d / 2 → N % 2 = 0

/-- No other multiple is nearer, and one as near is half a step away. -/
theorem NearestMultiple.le_of_multiple {a d : ℚ} {N : Nat} (h : NearestMultiple a d N) (hd : 0 < d) {z : ℤ} (hz : z ≠ N) :
    |a - N * d| ≤ |a - z * d| ∧ (|a - N * d| = |a - z * d| → |a - N * d| = d / 2) := by
  have hstep : d ≤ |(z : ℚ) * d - N * d| := by
    have h1 : (1 : ℚ) ≤ |(z : ℚ) - N| := by exact_mod_cast Int.one_le_abs (sub_ne_zero.2 hz)
    rw [← sub_mul, abs_mul, abs_of_pos hd]
    nlinarith
  have htri : |(z : ℚ) * d - N * d| ≤ |a - z * d| + |a - N * d| := by
    rw [abs_sub_comm a (z * d)]
    exact abs_sub_le _ _ _
  have hn := h.near
  exact ⟨by linarith, fun he => by linarith⟩

/-- N is the nearest multiple where a lies r units e away from it and its step is d units, at least twice as much. -/
theorem nearestMultiple_of_distance {a e : ℚ} {d r N : Nat} (he : 0 < e) (ha : |a - N * (d * e)| = r * e) (hr : 2 * r ≤ d)
    (heven : 2 * r = d → N % 2 = 0) : NearestMultiple a (d * e) N := by
  have hle : (2 * r : ℚ) ≤ d := by exact_mod_cast hr
  refine ⟨by rw [ha]; nlinarith, fun h => heven ?_⟩
  have h2 : (2 * r : ℚ) = d := mul_right_cancel₀ he.ne' (by linarith)
  exact_mod_cast h2

/-- The model's rounding to a multiple of 2^q, in round to nearest even. -/
theorem roundAt_nearest (neg : Bool) (m : Nat) (x q : Int) : NearestMultiple (m * 2 ^ x) (2 ^ q) (roundAt .rne neg m x q).1 := by
  have hq : (0 : ℚ) < 2 ^ q := by positivity
  by_cases hx : x ≥ q
  · have he : ((roundAt .rne neg m x q).1 : ℚ) * 2 ^ q = m * 2 ^ x := by
      rw [roundAt, if_pos hx]
      push_cast
      rw [← zpow_natCast, mul_assoc, ← zpow_add₀ two_ne_zero, Int.toNat_of_nonneg (by omega), sub_add_cancel]
    have hz : |(m : ℚ) * 2 ^ x - (roundAt .rne neg m x q).1 * 2 ^ q| = 0 := by rw [he, sub_self, abs_zero]
    exact ⟨by rw [hz]; positivity, fun h => absurd (hz.symm.trans h) (by positivity)⟩
  · set d := 2 ^ (q - x).toNat with hd
    have hxpos : (0 : ℚ) < 2 ^ x := by positivity
    have hqd : (2 : ℚ) ^ q = d * 2 ^ x := by
      rw [hd]
      push_cast
      rw [← zpow_natCast, ← zpow_add₀ two_ne_zero, Int.toNat_of_nonneg (by omega), sub_add_cancel]
    have hdm : d * (m / d) + m % d = m := Nat.div_add_mod m d
    have hr : m % d < d := Nat.mod_lt _ (Nat.two_pow_pos _)
    have hm : (m : ℚ) * 2 ^ x = ((m / d : Nat) : ℚ) * 2 ^ q + ((m % d : Nat) : ℚ) * 2 ^ x := by
      rw [hqd]
      nth_rewrite 1 [← hdm]
      push_cast
      ring
    have hN : (roundAt .rne neg m x q).1 = if 2 * (m % d) > d ∨ (2 * (m % d) = d ∧ m / d % 2 = 1) then m / d + 1 else m / d := by
      unfold roundAt
      rw [if_neg hx]
      simp only [roundsUp, ← hd, Bool.or_eq_true, Bool.and_eq_true, decide_eq_true_eq]
    rw [hN, hm, hqd]
    split
    · next hup =>
      refine nearestMultiple_of_distance (r := d - m % d) hxpos ?_ (by omega) (by omega)
      have hdiff : ((m / d : Nat) : ℚ) * (d * 2 ^ x) + ((m % d : Nat) : ℚ) * 2 ^ x - ((m / d + 1 : Nat) : ℚ) * (d * 2 ^ x) =
          -(((d - m % d : Nat) : ℚ) * 2 ^ x) := by
        rw [Nat.cast_sub hr.le]
        push_cast
        ring
      rw [hdiff, abs_neg, abs_of_nonneg (by positivity)]
    · next hdown =>
      refine nearestMultiple_of_distance (r := m % d) hxpos ?_ (by omega) (by omega)
      rw [add_sub_cancel_left, abs_of_nonneg (by positivity)]

end Sys2Proof.Machine
end

section
/-!
R102: the rounding of a magnitude to a format, its result among the values of the format, and its overflow.
-/
namespace Sys2Proof.Machine
open Claims

/-- The value of magnitude bits (R100). -/
def Fmt.magVal (k : Fmt) (n : Nat) : ℚ := k.sig n * 2 ^ k.lastPlace n

theorem Fmt.sig_lt (k : Fmt) (n : Nat) : k.sig n < 2 ^ (k.f + 1) := by
  have := Nat.mod_lt n (Nat.two_pow_pos k.f)
  rw [Nat.pow_succ]
  unfold Fmt.sig
  split <;> omega

theorem Fmt.magVal_nonneg (k : Fmt) (n : Nat) : 0 ≤ k.magVal n := by unfold Fmt.magVal; positivity

/-- The magnitude a is rounded to N steps of 2^(ulpMin + j): the step is that of the significand's last place. -/
structure Fmt.Rounds (k : Fmt) (a : ℚ) (j N : Nat) : Prop extends NearestMultiple a (2 ^ (k.ulpMin + j)) N where
  nonneg : 0 ≤ a
  lt : a < 2 ^ (k.f + 1) * 2 ^ (k.ulpMin + j)
  ge : j ≠ 0 → 2 ^ k.f * 2 ^ (k.ulpMin + j) ≤ a

variable {k : Fmt} {a : ℚ} {j N : Nat}

theorem Fmt.Rounds.le (h : k.Rounds a j N) : N ≤ 2 ^ (k.f + 1) := by
  have hd : (0 : ℚ) < 2 ^ (k.ulpMin + j) := by positivity
  have hn := (abs_le.1 h.near).1
  have hlt := h.lt
  by_contra hc
  have hN : (2 ^ (k.f + 1) + 1 : ℚ) ≤ N := by exact_mod_cast Nat.lt_of_not_le hc
  nlinarith

theorem Fmt.Rounds.normal (h : k.Rounds a j N) (hj : j ≠ 0) : 2 ^ k.f ≤ N := by
  have hd : (0 : ℚ) < 2 ^ (k.ulpMin + j) := by positivity
  have hn := (abs_le.1 h.near).2
  have hge := h.ge hj
  by_contra hc
  have hN : (N + 1 : ℚ) ≤ 2 ^ k.f := by exact_mod_cast Nat.lt_of_not_le hc
  nlinarith

/-- The value of the magnitude bits of a significand N at place j, also where N is the next power of two. -/
theorem Fmt.magVal_code (k : Fmt) {j N : Nat} (hle : N ≤ 2 ^ (k.f + 1)) (hn : j ≠ 0 → 2 ^ k.f ≤ N) :
    k.magVal (j * 2 ^ k.f + N) = N * 2 ^ (k.ulpMin + j) := by
  have hp := Nat.two_pow_pos k.f
  have hval : ∀ e r, r < 2 ^ k.f → (e * 2 ^ k.f + r) / 2 ^ k.f = e ∧ (e * 2 ^ k.f + r) % 2 ^ k.f = r := fun e r hr => by
    rw [Nat.add_comm, Nat.add_mul_div_right _ _ hp, Nat.div_eq_of_lt hr, Nat.add_mul_mod_self_right, Nat.mod_eq_of_lt hr]
    omega
  unfold Fmt.magVal Fmt.sig Fmt.lastPlace
  rw [Nat.pow_succ] at hle
  by_cases hsub : N < 2 ^ k.f
  · obtain rfl : j = 0 := by by_contra hj; exact absurd (hn hj) (by omega)
    obtain ⟨h1, h2⟩ := hval 0 N hsub
    rw [h1, h2]
    simp
  · by_cases htop : N = 2 ^ k.f * 2
    · obtain ⟨h1, h2⟩ := hval (j + 2) 0 hp
      have hN : j * 2 ^ k.f + N = (j + 2) * 2 ^ k.f + 0 := by rw [htop]; ring
      rw [hN, h1, h2, if_neg (by omega), htop, show j + 2 - 1 = j + 1 by omega]
      push_cast
      rw [← add_assoc, zpow_add_one₀ two_ne_zero]
      ring
    · obtain ⟨h1, h2⟩ := hval (j + 1) (N - 2 ^ k.f) (by omega)
      have hN : j * 2 ^ k.f + N = (j + 1) * 2 ^ k.f + (N - 2 ^ k.f) := by rw [Nat.add_one_mul]; omega
      rw [hN, h1, h2, if_neg (by omega), Nat.add_sub_cancel' (Nat.le_of_not_lt hsub), Nat.add_sub_cancel]

theorem Fmt.Rounds.value (h : k.Rounds a j N) : k.magVal (j * 2 ^ k.f + N) = N * 2 ^ (k.ulpMin + j) := k.magVal_code h.le h.normal

/-- A value of the format is no nearer than some multiple of the step: values of finer steps lie below the first multiple that is a value. -/
theorem Fmt.Rounds.multiple_nearer (h : k.Rounds a j N) (n : Nat) :
    ∃ z : ℤ, |a - z * 2 ^ (k.ulpMin + j)| ≤ |a - k.magVal n| ∧
      (|a - z * 2 ^ (k.ulpMin + j)| = |a - k.magVal n| → k.magVal n = z * 2 ^ (k.ulpMin + j)) := by
  set i := n / 2 ^ k.f - 1 with hi
  have hv : k.magVal n = k.sig n * 2 ^ (k.ulpMin + i) := rfl
  by_cases hij : j ≤ i
  · have hz : k.magVal n = ((k.sig n * 2 ^ (i - j) : Nat) : ℤ) * 2 ^ (k.ulpMin + j) := by
      rw [hv]
      push_cast
      rw [← zpow_natCast, mul_assoc, ← zpow_add₀ two_ne_zero]
      congr 2
      omega
    exact ⟨_, by rw [hz], fun _ => hz⟩
  · have hge := h.ge (by omega)
    have hlt : k.magVal n < 2 ^ k.f * 2 ^ (k.ulpMin + j) := by
      have hs : (k.sig n : ℚ) < 2 ^ (k.f + 1) := by exact_mod_cast k.sig_lt n
      have hi2 : (2 : ℚ) ^ (k.ulpMin + i) * 2 ≤ 2 ^ (k.ulpMin + j) := by
        rw [← zpow_add_one₀ two_ne_zero]
        exact zpow_le_zpow_right₀ one_le_two (by omega)
      have hp : (0 : ℚ) < 2 ^ (k.ulpMin + i) := by positivity
      calc k.magVal n < 2 ^ (k.f + 1) * 2 ^ (k.ulpMin + i) := by rw [hv]; exact mul_lt_mul_of_pos_right hs hp
        _ = 2 ^ k.f * (2 ^ (k.ulpMin + i) * 2) := by ring
        _ ≤ 2 ^ k.f * 2 ^ (k.ulpMin + j) := mul_le_mul_of_nonneg_left hi2 (by positivity)
    have hnear : |a - (2 ^ k.f : ℤ) * 2 ^ (k.ulpMin + j)| < |a - k.magVal n| := by
      push_cast
      rw [abs_of_nonneg (by linarith), abs_of_nonneg (by linarith)]
      linarith
    exact ⟨2 ^ k.f, by exact_mod_cast hnear.le, fun he => absurd he (by exact_mod_cast hnear.ne)⟩

/-- The same of a value of either sign. -/
theorem Fmt.Rounds.signed_nearer (h : k.Rounds a j N) {y : ℚ} {n : Nat} (hy : |y| = k.magVal n) :
    ∃ z : ℤ, |a - z * 2 ^ (k.ulpMin + j)| ≤ |a - y| ∧ (|a - z * 2 ^ (k.ulpMin + j)| = |a - y| → y = z * 2 ^ (k.ulpMin + j)) := by
  rcases le_total 0 y with hpos | hneg
  · rw [abs_of_nonneg hpos] at hy
    rw [hy]
    exact h.multiple_nearer n
  · have ha := h.nonneg
    refine ⟨0, ?_, fun he => ?_⟩
    · rw [Int.cast_zero, zero_mul, sub_zero, abs_of_nonneg ha, abs_of_nonneg (by linarith)]
      linarith
    · rw [Int.cast_zero, zero_mul, sub_zero, abs_of_nonneg ha, abs_of_nonneg (by linarith)] at he
      rw [Int.cast_zero, zero_mul]
      linarith

/-- R102: no value of the format is nearer, and where another one is as near the significand is even. -/
theorem Fmt.Rounds.nearest (h : k.Rounds a j N) {y : ℚ} {n : Nat} (hy : |y| = k.magVal n) :
    |k.magVal (j * 2 ^ k.f + N) - a| ≤ |y - a| ∧
      (|k.magVal (j * 2 ^ k.f + N) - a| = |y - a| → y ≠ k.magVal (j * 2 ^ k.f + N) → N % 2 = 0) := by
  have hd : (0 : ℚ) < 2 ^ (k.ulpMin + j) := by positivity
  obtain ⟨z, hz, hez⟩ := h.signed_nearer hy
  rw [h.value, abs_sub_comm _ a, abs_sub_comm y a]
  by_cases hzN : z = N
  · rw [hzN, Int.cast_natCast] at hz hez
    exact ⟨hz, fun he hne => absurd (hez he) hne⟩
  · obtain ⟨hle, hhalf⟩ := h.le_of_multiple hd hzN
    exact ⟨hle.trans hz, fun he _ => h.even (hhalf (le_antisymm hle (he ▸ hz)))⟩

/-! ### The largest finite magnitude -/

/-- The place of the largest finite magnitude. -/
def Fmt.topPlace (k : Fmt) : Nat := 2 ^ (k.w - 1 - k.f) - 3

/-- The magnitude bits of an infinity are those of a significand of 2^(f + 1) at the top place. -/
theorem Fmt.Ieee.infinity_code (h : k.Ieee) : k.maxBits + 1 = k.topPlace * 2 ^ k.f + 2 ^ (k.f + 1) := by
  have h4 : 2 ^ 2 ≤ 2 ^ (k.w - 1 - k.f) := Nat.pow_le_pow_right (by decide) (by have := h.exps; omega)
  have hw : 2 ^ (k.w - 1) = (k.topPlace + 3) * 2 ^ k.f := by
    rw [Fmt.topPlace, Nat.sub_add_cancel (by omega), ← Nat.pow_add]
    congr 1
    have := h.exps
    omega
  have htop := h.top
  rw [hw] at htop
  rw [Nat.pow_succ]
  linarith

/-- Half a unit above the largest finite magnitude. -/
def Fmt.overflowAt (k : Fmt) : ℚ := (2 ^ (k.f + 1) - 1 / 2) * 2 ^ (k.ulpMin + k.topPlace)

theorem two_mul_zpow_le {p : ℤ} {i l : Nat} (h : i < l) : (2 : ℚ) * 2 ^ (p + i) ≤ 2 ^ (p + l) := by
  rw [mul_comm, ← zpow_add_one₀ two_ne_zero]
  exact zpow_le_zpow_right₀ one_le_two (by omega)

theorem Fmt.Rounds.below_top (h : k.Rounds a j N) (hk : k.Ieee) (hj : j < k.topPlace) : j * 2 ^ k.f + N ≤ k.maxBits ∧ a < k.overflowAt := by
  have hcode := hk.infinity_code
  have hle := h.le
  have hp := Nat.two_pow_pos k.f
  have hplace : (j + 1) * 2 ^ k.f ≤ k.topPlace * 2 ^ k.f := Nat.mul_le_mul_right _ hj
  have hlt := h.lt
  have hstep := two_mul_zpow_le (p := k.ulpMin) hj
  have hone : (1 : ℚ) ≤ 2 ^ k.f := one_le_pow₀ one_le_two
  have hD : (0 : ℚ) < 2 ^ (k.ulpMin + k.topPlace) := by positivity
  unfold Fmt.overflowAt
  rw [Nat.pow_succ] at *
  rw [pow_succ] at *
  exact ⟨by linarith, by nlinarith⟩

theorem Fmt.Rounds.above_top (h : k.Rounds a j N) (hk : k.Ieee) (hj : k.topPlace < j) : k.maxBits < j * 2 ^ k.f + N ∧ k.overflowAt ≤ a := by
  have hcode := hk.infinity_code
  have hnorm := h.normal (by omega)
  have hge := h.ge (by omega)
  have hplace : (k.topPlace + 1) * 2 ^ k.f ≤ j * 2 ^ k.f := Nat.mul_le_mul_right _ hj
  have hstep := two_mul_zpow_le (p := k.ulpMin) hj
  have hpow : (0 : ℚ) < 2 ^ k.f := by positivity
  have hD : (0 : ℚ) < 2 ^ (k.ulpMin + k.topPlace) := by positivity
  unfold Fmt.overflowAt
  rw [Nat.pow_succ] at hcode
  rw [pow_succ]
  exact ⟨by linarith, by nlinarith⟩

/-- At the top place the significand reaches the next power of two from half a unit below it on: the significand before it is odd. -/
theorem Fmt.Rounds.at_top (h : k.Rounds a k.topPlace N) (hk : k.Ieee) :
    k.maxBits < k.topPlace * 2 ^ k.f + N ↔ k.overflowAt ≤ a := by
  have hcode := hk.infinity_code
  have hle := h.le
  have hnear := abs_le.1 h.near
  have hD : (0 : ℚ) < 2 ^ (k.ulpMin + k.topPlace) := by positivity
  unfold Fmt.overflowAt
  constructor
  · intro hc
    have hN : (N : ℚ) = 2 ^ (k.f + 1) := by exact_mod_cast (by omega : N = 2 ^ (k.f + 1))
    rw [hN] at hnear
    linarith
  · intro hc
    by_contra hlow
    have hN1 : N + 1 ≤ 2 ^ (k.f + 1) := by omega
    have hN1q : (N : ℚ) + 1 ≤ 2 ^ (k.f + 1) := by exact_mod_cast hN1
    have hle1 : (2 : ℚ) ^ (k.f + 1) ≤ N + 1 := le_of_mul_le_mul_right (by linarith) hD
    have hN : 2 ^ (k.f + 1) ≤ N + 1 := by exact_mod_cast hle1
    have heven := h.even (by rw [abs_of_nonneg] <;> nlinarith)
    rw [Nat.pow_succ] at *
    omega

/-- R102: the rounded magnitude is past the largest finite one exactly from half a unit above it on. -/
theorem Fmt.Rounds.overflows_iff (h : k.Rounds a j N) (hk : k.Ieee) : k.maxBits < j * 2 ^ k.f + N ↔ k.overflowAt ≤ a := by
  rcases Nat.lt_trichotomy j k.topPlace with hj | rfl | hj
  · obtain ⟨hfin, hlow⟩ := h.below_top hk hj
    exact ⟨fun hc => absurd hc hfin.not_gt, fun hc => absurd hlow hc.not_gt⟩
  · exact h.at_top hk
  · obtain ⟨hinf, hhigh⟩ := h.above_top hk hj
    exact ⟨fun _ => hhigh, fun _ => hinf⟩

/-- The model's rounding of a magnitude that is not zero. -/
theorem roundMag_rounds (k : Fmt) (neg : Bool) {m : Nat} (hm : m ≠ 0) (x : Int) :
    ∃ j N, k.Rounds (m * 2 ^ x) j N ∧ (roundMag k .rne neg m x).1 = j * 2 ^ k.f + N := by
  set e : Int := (Nat.log2 m : Int) + x with he
  set q : Int := max (e - k.f) k.ulpMin with hq
  have hj : q = k.ulpMin + ((q - k.ulpMin).toNat : Int) := by omega
  refine ⟨(q - k.ulpMin).toNat, (roundAt .rne neg m x q).1, ⟨?_, by positivity, ?_, fun hne => ?_⟩, rfl⟩
  · rw [← hj]
    exact roundAt_nearest neg m x q
  · have hlog : (m : ℚ) < 2 ^ (Nat.log2 m + 1) := by exact_mod_cast Nat.lt_log2_self
    calc (m : ℚ) * 2 ^ x < 2 ^ (Nat.log2 m + 1) * 2 ^ x := mul_lt_mul_of_pos_right hlog (by positivity)
      _ = 2 ^ (e + 1) := by rw [he, ← zpow_natCast, ← zpow_add₀ two_ne_zero]; congr 1; push_cast; ring
      _ ≤ 2 ^ ((k.f : ℤ) + 1 + q) := zpow_le_zpow_right₀ one_le_two (by omega)
      _ = 2 ^ (k.f + 1) * 2 ^ (k.ulpMin + ((q - k.ulpMin).toNat : ℤ)) := by rw [← hj, zpow_add₀ two_ne_zero, ← zpow_natCast]; push_cast; rfl
  · have hlog : (2 : ℚ) ^ Nat.log2 m ≤ m := by exact_mod_cast Nat.log2_self_le hm
    have heq : q = e - k.f := by omega
    calc (2 : ℚ) ^ k.f * 2 ^ (k.ulpMin + ((q - k.ulpMin).toNat : ℤ)) = 2 ^ e := by
          rw [← hj, heq, ← zpow_natCast, ← zpow_add₀ two_ne_zero]; congr 1; ring
      _ = 2 ^ Nat.log2 m * 2 ^ x := by rw [he, zpow_add₀ two_ne_zero, zpow_natCast]
      _ ≤ m * 2 ^ x := mul_le_mul_of_nonneg_right hlog (by positivity)

end Sys2Proof.Machine
end

section
/-!
R100, R102: the values of words and the words of rounded values.
-/
namespace Sys2Proof.Machine
open Claims

/-- A magnitude with a sign. -/
def withSign (neg : Bool) (q : ℚ) : ℚ := if neg then -q else q

theorem withSign_eq_mul (neg : Bool) (q : ℚ) : withSign neg q = (if neg then -1 else 1) * q := by
  unfold withSign
  split <;> ring

theorem withSign_withSign (neg : Bool) (q : ℚ) : withSign neg (withSign neg q) = q := by cases neg <;> simp [withSign]

theorem withSign_sub (neg : Bool) (p q : ℚ) : withSign neg p - withSign neg q = withSign neg (p - q) := by
  cases neg <;> simp [withSign]
  ring

theorem abs_withSign (neg : Bool) (q : ℚ) : |withSign neg q| = |q| := by cases neg <;> simp [withSign]

variable {ty : BitVec 4} {k : Fmt}

/-- R100: the value of a word, by the model's format. -/
theorem floatValue_eq (h : FmtIs ty k) (x : Word) : floatValue ty x = withSign (signOf ty x) (k.magVal (magBits ty x)) := by
  rw [withSign_eq_mul]
  unfold floatValue Fmt.magVal Fmt.sig Fmt.lastPlace
  simp only [h.ulp, h.f]
  congr 1
  by_cases he : magBits ty x / 2 ^ fracBits ty = 0
  · simp [he]
  · rw [if_neg he, if_neg he, Nat.cast_sub (Nat.pos_of_ne_zero he), Nat.cast_one]
    congr 2
    ring

theorem FmtIs.infMag_lt (h : FmtIs ty k) : infMag ty < 2 ^ (floatWidth ty - 1) := by
  have htop := h.top
  have hp := Nat.two_pow_pos k.f
  rw [← h.infinity, ← h.w]
  omega

theorem floatValue_floatWord (h : FmtIs ty k) (neg : Bool) {n : Nat} (hn : n < infMag ty) :
    floatValue ty (floatWord ty neg n) = withSign neg (k.magVal n) := by
  have hlt := hn.trans h.infMag_lt
  rw [floatValue_eq h, signOf_floatWord h neg hlt, magBits_floatWord h neg hlt]

theorem isFinite_floatWord (h : FmtIs ty k) (neg : Bool) {n : Nat} (hn : n < infMag ty) : isFinite ty (floatWord ty neg n) = true := by
  have hlt := hn.trans h.infMag_lt
  have hw : 2 ^ floatWidth ty = 2 ^ (floatWidth ty - 1) * 2 := by
    rw [← Nat.pow_succ]
    congr 1
    have := h.exps
    rw [← h.w]
    omega
  unfold isFinite
  rw [magBits_floatWord h neg hlt, toNat_floatWord h neg hlt, Bool.and_eq_true, decide_eq_true_eq, decide_eq_true_eq]
  refine ⟨hn, ?_⟩
  split <;> omega

/-- The last bit of a word is that of its magnitude. -/
theorem floatWord_even (h : FmtIs ty k) (neg : Bool) {n : Nat} (hn : n < infMag ty) (he : n % 2 = 0) :
    (floatWord ty neg n).getLsbD 0 = false := by
  have hexps := h.exps
  have hw : 2 ^ (floatWidth ty - 1) % 2 = 0 := Nat.two_pow_mod_two_eq_zero.2 (by rw [← h.w]; omega)
  unfold BitVec.getLsbD
  rw [toNat_floatWord h neg (hn.trans h.infMag_lt), Nat.testBit_zero, decide_eq_false_iff_not]
  split <;> omega

/-- Half a unit above the largest finite magnitude, in the statement's words and in the format's. -/
theorem overflowAt_eq (h : FmtIs ty k) : overflowAt ty = k.overflowAt := by
  have hcode := h.toIeee.infinity_code
  rw [h.infinity] at hcode
  have h2 : 2 ^ 1 ≤ 2 ^ k.f := Nat.pow_le_pow_right (by decide) h.frac
  rw [Nat.pow_succ] at hcode
  have hval : ∀ i, 1 ≤ i → i ≤ 2 → floatValue ty (floatWord ty false (infMag ty - i)) = (2 ^ (k.f + 1) - i) * 2 ^ (k.ulpMin + k.topPlace) := by
    intro i h1 hi
    have hn : infMag ty - i = k.topPlace * 2 ^ k.f + (2 ^ (k.f + 1) - i) := by rw [Nat.pow_succ]; omega
    rw [floatValue_floatWord h false (by omega), hn, k.magVal_code (Nat.sub_le _ _) (fun _ => by rw [Nat.pow_succ]; omega),
      Nat.cast_sub (by rw [Nat.pow_succ]; omega)]
    push_cast
    rfl
  have htop := hval 1 le_rfl (by decide)
  have hnext := hval 2 (by decide) le_rfl
  unfold overflowAt Fmt.overflowAt
  simp only [htop, hnext]
  push_cast
  ring

/-- R102: the word of a rounded magnitude, or of an infinity past the largest one, rounds the value of that sign. -/
theorem nearestEven_of_rounds (h : FmtIs ty k) {a : ℚ} {j N : Nat} (hr : k.Rounds a j N) (neg : Bool) :
    NearestEven ty (withSign neg a) (floatWord ty neg (if k.maxBits < j * 2 ^ k.f + N then infMag ty else j * 2 ^ k.f + N)) := by
  have hov := hr.overflows_iff h.toIeee
  have ha := hr.nonneg
  have hinf := h.infinity
  unfold NearestEven
  rw [overflowAt_eq h, abs_withSign, abs_of_nonneg ha]
  by_cases ho : k.overflowAt ≤ a
  · have hpos : 0 < k.overflowAt := by
      have : (1 : ℚ) ≤ 2 ^ (k.f + 1) := one_le_pow₀ one_le_two
      unfold Fmt.overflowAt
      exact mul_pos (by linarith) (by positivity)
    have hsign : decide (withSign neg a < 0) = neg := by
      cases neg with
      | true => exact decide_eq_true (by simp only [withSign, if_true]; linarith)
      | false => exact decide_eq_false (by simp only [withSign, Bool.false_eq_true, if_false]; linarith)
    rw [if_pos ho, if_pos (hov.2 ho), hsign]
  · have hfin : ¬k.maxBits < j * 2 ^ k.f + N := fun hc => ho (hov.1 hc)
    have hlt : j * 2 ^ k.f + N < infMag ty := by omega
    rw [if_neg ho, if_neg hfin]
    refine ⟨isFinite_floatWord h neg hlt, fun y _ => ?_⟩
    have hy : |withSign neg (floatValue ty y)| = k.magVal (magBits ty y) := by
      rw [floatValue_eq h, abs_withSign, abs_withSign, abs_of_nonneg (k.magVal_nonneg _)]
    have hdist : |withSign neg (floatValue ty y) - a| = |floatValue ty y - withSign neg a| := by
      rw [← abs_withSign neg (withSign neg _ - a), ← withSign_sub, withSign_withSign]
    obtain ⟨hle, heven⟩ := hr.nearest hy
    rw [hdist] at hle heven
    rw [floatValue_floatWord h neg hlt, withSign_sub, abs_withSign]
    refine ⟨hle, fun he hne => floatWord_even h neg hlt ?_⟩
    have hN := heven he fun hc => hne (by rw [← hc, withSign_withSign])
    have hpow : 2 ^ k.f % 2 = 0 := Nat.two_pow_mod_two_eq_zero.2 h.frac
    rw [Nat.add_mod, Nat.mul_mod, hpow, Nat.mul_zero, Nat.zero_mod, hN]

/-- R102: the model's rounding of a value that is not zero. -/
theorem roundFin_nearest (h : FmtIs ty k) (neg : Bool) {m : Nat} (hm : m ≠ 0) (x : Int) :
    NearestEven ty (withSign neg (m * 2 ^ x)) (BitVec.ofNat 64 (roundFin k .rne false neg m x).bits) := by
  obtain ⟨j, N, hr, hcode⟩ := roundMag_rounds k neg hm x
  have hbits : (roundFin k .rne false neg m x).bits =
      k.sign neg + (if k.maxBits < j * 2 ^ k.f + N then infMag ty else j * 2 ^ k.f + N) := by
    unfold roundFin overflowMag
    simp only [hcode, gt_iff_lt, h.infinity, Bool.false_and, Bool.false_eq_true, if_false, if_true]
    split <;> rfl
  rw [hbits, ofNat_sign_add h]
  exact nearestEven_of_rounds h hr neg

/-- A zero of either sign is the value 0 (R103). -/
theorem zeroRes_nearest (h : FmtIs ty k) (neg : Bool) : NearestEven ty 0 (BitVec.ofNat 64 (zeroRes k neg).bits) := by
  have hr : k.Rounds 0 0 0 := ⟨⟨by simp; positivity, fun _ => rfl⟩, le_rfl, by positivity, absurd rfl⟩
  have hz := nearestEven_of_rounds h hr neg
  have hbits : (zeroRes k neg).bits = k.sign neg + 0 := rfl
  rw [hbits, ofNat_sign_add h]
  rw [Nat.zero_mul, Nat.add_zero, if_neg (Nat.not_lt_zero _)] at hz
  simpa [withSign] using hz

end Sys2Proof.Machine
end

section
/-!
R102, R110: exact sums and products of finite values, rounded once.
-/
namespace Sys2Proof.Machine
open Claims

/-- The value is finite. -/
def FVal.finite : FVal → Bool
  | .fin .. => true
  | _ => false

/-- The rational of a finite value. -/
def FVal.value : FVal → ℚ
  | .fin neg m x => withSign neg (m * 2 ^ x)
  | _ => 0

theorem FVal.finite_iff {v : FVal} : v.finite = true ↔ ∃ neg m x, v = .fin neg m x := by
  cases v <;> simp [FVal.finite]

/-! ### Sums -/

/-- One term of the least exponent. -/
def leastExp (x : Int) : FVal → Int
  | .fin _ m y => if m = 0 then x else min x y
  | _ => x

theorem minExp_eq (ts : List FVal) : minExp ts = ts.foldl leastExp 100000 := rfl

/-- One term of the exact sum at exponent x. -/
def addTerm (x v : Int) : FVal → Int
  | .fin n m y => if m = 0 then v else if n then v - ((m * 2 ^ (y - x).toNat : Nat) : Int) else v + ((m * 2 ^ (y - x).toNat : Nat) : Int)
  | _ => v

theorem sumAt_eq (ts : List FVal) (x : Int) : sumAt ts x = ts.foldl (addTerm x) 0 := rfl

theorem leastExp_le (x : Int) (t : FVal) : leastExp x t ≤ x := by
  unfold leastExp
  split
  · split <;> omega
  · exact le_rfl

/-- The term can be counted in units of 2^x: it is zero, or its own last place is no finer. -/
def FVal.multipleAt (t : FVal) (x : Int) : Prop := ∀ neg m y, t = .fin neg m y → m ≠ 0 → x ≤ y

theorem foldl_leastExp_le (ts : List FVal) (x : Int) : ts.foldl leastExp x ≤ x ∧ ∀ t ∈ ts, t.multipleAt (ts.foldl leastExp x) := by
  induction ts generalizing x with
  | nil => simp
  | cons t r ih =>
    obtain ⟨hle, hmem⟩ := ih (leastExp x t)
    refine ⟨hle.trans (leastExp_le x t), fun u hu => ?_⟩
    rcases List.mem_cons.1 hu with rfl | hu
    · rintro neg m y rfl hm
      refine hle.trans ?_
      rw [leastExp, if_neg hm]
      exact min_le_right _ _
    · exact hmem u hu

theorem addTerm_value {x : Int} {t : FVal} (h : t.multipleAt x) (v : Int) : (addTerm x v t : ℚ) * 2 ^ x = v * 2 ^ x + t.value := by
  cases t with
  | fin neg m y =>
    unfold addTerm FVal.value
    dsimp only
    by_cases hm : m = 0
    · simp [hm, withSign]
    · have hz : ((m * 2 ^ (y - x).toNat : Nat) : ℚ) * 2 ^ x = m * 2 ^ y := by
        push_cast
        rw [← zpow_natCast, mul_assoc, ← zpow_add₀ two_ne_zero, Int.toNat_of_nonneg (by have := h neg m y rfl hm; omega), sub_add_cancel]
      rw [if_neg hm, ← hz]
      cases neg <;> simp [withSign] <;> ring
  | nan neg quiet fr => simp [addTerm, FVal.value]
  | inf neg => simp [addTerm, FVal.value]

theorem foldl_addTerm_value (ts : List FVal) {x : Int} (h : ∀ t ∈ ts, t.multipleAt x) (v : Int) :
    ((ts.foldl (addTerm x) v : Int) : ℚ) * 2 ^ x = v * 2 ^ x + (ts.map FVal.value).sum := by
  induction ts generalizing v with
  | nil => simp
  | cons t r ih =>
    rw [List.foldl_cons, ih (fun u hu => h u (List.mem_cons_of_mem _ hu)), addTerm_value (h t List.mem_cons_self), List.map_cons, List.sum_cons,
      add_assoc]

/-- The integer sum of the model stands for the sum of the terms. -/
theorem sumAt_minExp (ts : List FVal) : (sumAt ts (minExp ts) : ℚ) * 2 ^ minExp ts = (ts.map FVal.value).sum := by
  rw [sumAt_eq, minExp_eq, foldl_addTerm_value ts (foldl_leastExp_le ts _).2]
  simp

variable {ty : BitVec 4} {k : Fmt}

/-- R102, R103: a sum of finite terms is rounded once. -/
theorem roundSum_nearest (h : FmtIs ty k) {ts : List FVal} (hfin : ∀ t ∈ ts, t.finite = true) :
    NearestEven ty (ts.map FVal.value).sum (BitVec.ofNat 64 (roundSum k .rne false ts).bits) := by
  have hinf : ∀ neg, ts.any (fun t => decide (t = .inf neg)) = false := fun neg => by
    rw [List.any_eq_false]
    intro t ht hc
    have hf := hfin t ht
    rw [of_decide_eq_true hc] at hf
    cases hf
  have hsum := sumAt_minExp ts
  unfold roundSum
  simp only [hinf, Bool.and_self, Bool.or_self, Bool.false_eq_true, if_false]
  split
  · next hz =>
    rw [hz, Int.cast_zero, zero_mul] at hsum
    rw [← hsum]
    exact zeroRes_nearest h _
  · next hz =>
    have hv : (ts.map FVal.value).sum =
        withSign (decide (sumAt ts (minExp ts) < 0)) ((sumAt ts (minExp ts)).natAbs * 2 ^ minExp ts) := by
      rw [← hsum, withSign_eq_mul, ← mul_assoc, Nat.cast_natAbs]
      congr 1
      by_cases hneg : sumAt ts (minExp ts) < 0
      · simp [hneg, abs_of_neg hneg]
      · simp [hneg, abs_of_nonneg (not_lt.1 hneg)]
    rw [hv]
    exact roundFin_nearest h _ (Int.natAbs_ne_zero.2 hz) _

/-! ### Products -/

@[simp] theorem finite_negVal (a : FVal) : (negVal a).finite = a.finite := by cases a <;> rfl

@[simp] theorem value_negVal (a : FVal) : (negVal a).value = -a.value := by
  cases a with
  | fin neg m x => cases neg <;> simp [negVal, FVal.value, withSign]
  | nan neg quiet fr => simp [negVal, FVal.value]
  | inf neg => simp [negVal, FVal.value]

/-- The product of finite values is exact. -/
theorem mulVal_finite {a b : FVal} (ha : a.finite = true) (hb : b.finite = true) :
    ∃ p, mulVal a b = some p ∧ p.finite = true ∧ p.value = a.value * b.value := by
  obtain ⟨n, m, x, rfl⟩ := FVal.finite_iff.1 ha
  obtain ⟨p, l, y, rfl⟩ := FVal.finite_iff.1 hb
  refine ⟨_, rfl, rfl, ?_⟩
  simp only [FVal.value, withSign_eq_mul, zpow_add₀ (two_ne_zero (α := ℚ)), Nat.cast_mul]
  cases n <;> cases p <;> simp <;> ring

/-! ### The instructions of R110 -/

/-- A lane function on n operands that rounds an exact value once, in round to nearest even: of two operands it does not read the third. -/
def RoundsExact (ty : BitVec 4) (n : Nat) (e : ℚ → ℚ → ℚ → ℚ) (h : Fmt → Rm → Bool → FVal → FVal → FVal → FRes) : Prop :=
  ∀ a b d c, (∀ v ∈ [a, b, d].take n, v.finite = true) → (n = 3 → d.value = c) →
    NearestEven ty (e a.value b.value c) (BitVec.ofNat 64 (h (fmtOf ty.toNat) .rne false a b d).bits)

theorem roundsExact_sum (hty : FloatTy ty) : RoundsExact ty 2 (fun a b _ => a + b) (fun k m z a b _ => roundSum k m z [a, b]) := by
  intro a b d c hf _
  simpa using roundSum_nearest (fmtIs_fmtOf hty) (ts := [a, b]) hf

theorem roundsExact_difference (hty : FloatTy ty) :
    RoundsExact ty 2 (fun a b _ => a - b) (fun k m z a b _ => roundSum k m z [a, negVal b]) := by
  intro a b d c hf _
  simpa [sub_eq_add_neg] using roundSum_nearest (fmtIs_fmtOf hty) (ts := [a, negVal b]) (by simpa using hf)

theorem roundsExact_product (hty : FloatTy ty) : RoundsExact ty 2 (fun a b _ => a * b) fmulVal := by
  intro a b d c hf _
  obtain ⟨p, hp, hpf, hpv⟩ := mulVal_finite (hf a (by simp)) (hf b (by simp))
  unfold fmulVal
  rw [hp]
  simpa [hpv] using roundSum_nearest (fmtIs_fmtOf hty) (ts := [p]) (by simpa using hpf)

theorem roundsExact_fused (hty : FloatTy ty) (np nc : Bool) :
    RoundsExact ty 3 (fun a b c => withSign np (a * b) + withSign nc c) (fmaVal np nc) := by
  intro a b d c hf hc
  obtain ⟨p, hp, hpf, hpv⟩ := mulVal_finite (hf a (by simp)) (hf b (by simp))
  have hd := hf d (by simp)
  have hsum := roundSum_nearest (fmtIs_fmtOf hty) (ts := [if np then negVal p else p, if nc then negVal d else d])
    (by cases np <;> cases nc <;> simp [hpf, hd])
  have hval : ([if np then negVal p else p, if nc then negVal d else d].map FVal.value).sum =
      withSign np (a.value * b.value) + withSign nc c := by
    cases np <;> cases nc <;> simp [hpv, hc rfl, withSign]
  unfold fmaVal
  rw [hp]
  rwa [hval] at hsum

/-- Each row runs a lane function that rounds its exact value once. -/
theorem arithRows_exec {f : Fields} (hty : FloatTy f.ty) :
    ∀ e ∈ arithRows f, ∃ h, (∀ s, exec e.1 s = fExec e.2.1 e.2.2.1 h f s) ∧ RoundsExact f.ty e.2.2.1 e.2.2.2 h := by
  simp only [arithRows, List.forall_mem_cons]
  have hfused := roundsExact_fused hty
  refine ⟨⟨_, exec_fadd f, roundsExact_sum hty⟩, ⟨_, exec_fsub f, roundsExact_difference hty⟩, ⟨_, exec_fmul f, roundsExact_product hty⟩,
    ⟨_, exec_fma f, ?_⟩, ⟨_, exec_fms f, ?_⟩, ⟨_, exec_fnma f, ?_⟩, ⟨_, exec_fnms f, ?_⟩, List.forall_mem_nil _⟩
  · simpa [withSign] using hfused false false
  · simpa [withSign, sub_eq_add_neg] using hfused false true
  · simpa [withSign] using hfused true false
  · simpa [withSign, sub_eq_add_neg] using hfused true true

end Sys2Proof.Machine
end

section
/-!
R102, R104, R107: the floating lane functions, and the arithmetic of R110 on finite operands.
-/
namespace Sys2Proof.Machine
open Claims

/-! ### Lanes of V operands -/

/-- Words whose tags are all V hold neither an N nor an X. -/
theorem tags_of_valid {xs : List TWord} (h : xs.all (fun x => decide (x.tag = .v)) = true) :
    xs.any (fun x => decide (x.tag = .n)) = false ∧ xs.find? (fun x => decide (x.tag = .x)) = none := by
  have hv : ∀ x ∈ xs, x.tag = .v := by simpa using h
  exact ⟨List.any_eq_false.2 fun x hx => by simp [hv x hx], List.find?_eq_none.2 fun x hx => by simp [hv x hx]⟩

/-- R35: a lane goes on exactly where its operands are all V. -/
theorem tagRule_normal_iff (xs : List TWord) : tagRule xs = .normal ↔ xs.all (fun x => decide (x.tag = .v)) = true := by
  unfold tagRule
  constructor
  · intro h
    split at h
    · cases h
    · next hn =>
      split at h
      · cases h
      · next hx =>
        rw [Bool.not_eq_true, List.any_eq_false] at hn
        rw [List.find?_eq_none] at hx
        refine List.all_eq_true.2 fun x hm => ?_
        have h1 := hn x hm
        have h2 := hx x hm
        cases ht : x.tag <;> simp_all
  · intro h
    obtain ⟨hn, hx⟩ := tags_of_valid h
    rw [hn, hx]
    rfl

/-- V operands leave a lane's result as it is. -/
theorem byTags_of_valid {xs : List TWord} (h : xs.all (fun x => decide (x.tag = .v)) = true) (old : TWord) (r : LaneRes) : byTags old xs r = r := by
  obtain ⟨hn, hx⟩ := tags_of_valid h
  unfold byTags
  rw [hn, hx]
  rfl

/-- A floating lane function on V operands: NaNs by R104, otherwise the function. -/
theorem fOp_of_valid {n : Nat} (h : Fmt → Rm → Bool → FVal → FVal → FVal → FRes) (c : Ctx) (s : State) {a b d : TWord} (old : TWord)
    (hv : ([a, b, d].take n).all (fun x => decide (x.tag = .v)) = true) :
    let read (x : TWord) : FVal := unpackZ (fmtOf c.f.ty.toNat) (ftzOf s c) x.data.toNat
    fOp n h c s a b d old = fRes ((firstNaN (fmtOf c.f.ty.toNat) (fmtOf c.f.ty.toNat) (([a, b, d].take n).map read)).getD
      (h (fmtOf c.f.ty.toNat) (rmNow s c) (ftzOf s c) (read a) (read b) (read d))) := by
  intro read
  have hl : ([a, b, d].take n).map read = [read a, read b, read d].take n := by rw [List.map_take]; rfl
  unfold fOp
  rw [r35_eq_byTags, byTags_of_valid hv, hl]
  dsimp only [read]
  cases firstNaN _ _ _ <;> rfl

/-- A floating lane function traps only by the enables of fcr (R107). -/
theorem fOp_trap (n : Nat) (h : Fmt → Rm → Bool → FVal → FVal → FVal → FRes) (c : Ctx) (s : State) (a b d old : TWord) :
    (fOp n h c s a b d old).trap = none := by
  unfold fOp r35
  split
  · rfl
  · rfl
  · dsimp only
    split <;> rfl

/-- Without enables no flag traps (R107). -/
theorem laneTraps_of_disabled {fcr : Word} (h : fpEnables fcr = 0) {r : LaneRes} (ht : r.trap = none) : laneTraps fcr r = false := by
  simp [laneTraps, ht, h]

/-- fcr is read as it is before the issue. -/
theorem getWarp_atIssue_fcr (s : State) (cu : Cur) : (getWarp (atIssue s cu) cu.w).fcr = (getWarp s cu.w).fcr := by
  rw [atIssue, getWarp_startIssue_same]

theorem ftzOf_atIssue (spec : OpSpec) (f : Fields) (s : State) (cu : Cur) :
    ftzOf (atIssue s cu) (ctxOf spec f s cu) = (getWarp s cu.w).fcr.getLsbD 8 := by
  rw [ftzOf, ctxOf_w, getWarp_atIssue_fcr]

/-- R54: the mode of the word is round to nearest even. -/
theorem rmNow_rne {f : Fields} {s : State} {cu : Cur} (spec : OpSpec)
    (h : isImm f.b = true ∨ isImm f.c = true ∨ f.md.toNat % 8 = 0 ∨ (f.md.toNat % 8 = 5 ∧ (getWarp s cu.w).fcr.toNat % 8 = 0)) :
    rmNow (atIssue s cu) (ctxOf spec f s cu) = .rne := by
  have hm : (modOf f).toNat % 8 = 0 ∨ ((modOf f).toNat % 8 = 5 ∧ (getWarp s cu.w).fcr.toNat % 8 = 0) := by
    unfold modOf immForm
    split
    · exact .inl rfl
    · next hi =>
      simp only [Bool.or_eq_true, not_or] at hi
      exact (h.resolve_left hi.1).resolve_left hi.2
  unfold rmNow modeOf
  rw [ctxOf_w, ctxOf_f, getWarp_atIssue_fcr]
  rcases hm with h0 | ⟨h5, h0⟩
  · simp [h0, rmOf]
  · simp [h5, h0, rmOf]

/-! ### Finite operands -/

/-- Without fcr[8] every operand is read as it is (R105). -/
theorem unpackZ_keeps (k : Fmt) (bits : Nat) : unpackZ k false bits = unpack k bits := by
  unfold unpackZ
  split
  · next h => rw [h]; rfl
  · rfl

/-- R100: a finite operand is read as its value. -/
theorem unpackZ_finite {ty : BitVec 4} {k : Fmt} (h : FmtIs ty k) {x : Word} (hx : magBits ty x < infMag ty) :
    (unpackZ k false x.toNat).finite = true ∧ (unpackZ k false x.toNat).value = floatValue ty x := by
  rw [unpackZ_keeps, unpack_eq h, if_neg hx.le.not_gt, if_neg hx.ne, floatValue_eq h]
  exact ⟨rfl, rfl⟩

/-- Finite operands hold no NaN. -/
theorem firstNaN_of_finite (src dst : Fmt) {vs : List FVal} (h : ∀ v ∈ vs, v.finite = true) : firstNaN src dst vs = none := by
  have hf : vs.find? FVal.isNan = none := List.find?_eq_none.2 fun v hv => by
    obtain ⟨neg, m, x, rfl⟩ := FVal.finite_iff.1 (h v hv)
    simp [FVal.isNan]
  unfold firstNaN
  rw [hf]

/-- A lane of V operands with finite words, in round to nearest even: the exact value rounded once. -/
theorem fOp_rounds {ty : BitVec 4} (hty : FloatTy ty) {n : Nat} {e : ℚ → ℚ → ℚ → ℚ} {h : Fmt → Rm → Bool → FVal → FVal → FVal → FRes}
    (hr : RoundsExact ty n e h) {c : Ctx} {s : State} (hc : c.f.ty = ty) (hm : rmNow s c = .rne) (hz : ftzOf s c = false)
    {a b d : TWord} (old : TWord) (hn : n = 2 ∨ n = 3)
    (hx : ([a, b, d].take n).all (fun x => decide (x.tag = .v) && decide (magBits ty x.data < infMag ty)) = true) :
    ∃ r, (fOp n h c s a b d old).val = ⟨.v, r⟩ ∧ NearestEven ty (e (floatValue ty a.data) (floatValue ty b.data) (floatValue ty d.data)) r := by
  have hk := fmtIs_fmtOf hty
  have hall : ∀ x ∈ [a, b, d].take n, x.tag = .v ∧ magBits ty x.data < infMag ty := by simpa using hx
  have hread : ∀ x ∈ [a, b, d].take n, (unpackZ (fmtOf ty.toNat) false x.data.toNat).finite = true ∧
      (unpackZ (fmtOf ty.toNat) false x.data.toNat).value = floatValue ty x.data := fun x hx => unpackZ_finite hk (hall x hx).2
  have hfin : ∀ v ∈ ([a, b, d].take n).map (fun x => unpackZ (fmtOf ty.toNat) false x.data.toNat), v.finite = true := by
    intro v hv
    obtain ⟨x, hx, rfl⟩ := List.mem_map.1 hv
    exact (hread x hx).1
  have ha := hread a (by rcases hn with rfl | rfl <;> simp)
  have hb := hread b (by rcases hn with rfl | rfl <;> simp)
  have hval := fOp_of_valid h c s old (a := a) (b := b) (d := d) (n := n) (by simpa using fun x hx => (hall x hx).1)
  rw [hc, hz, hm] at hval
  rw [hval, firstNaN_of_finite _ _ hfin, Option.getD_none, ← ha.2, ← hb.2]
  refine ⟨_, rfl, hr _ _ _ _ ?_ fun h3 => (hread d (by subst h3; simp)).2⟩
  rw [List.map_take] at hfin
  exact hfin

/-- The rows of the arithmetic are of a floating type, and read two or three operands. -/
theorem arithRows_ty {f : Fields} {i : Instr} {spec : OpSpec} {n : Nat} {h : ℚ → ℚ → ℚ → ℚ} (hm : (i, spec, n, h) ∈ arithRows f) :
    spec.ty = tyFp ∧ (n = 2 ∨ n = 3) := by
  have hall : ∀ e ∈ arithRows f, e.2.1.ty = tyFp ∧ (e.2.2.1 = 2 ∨ e.2.2.1 = 3) := by
    simp only [arithRows, List.forall_mem_cons]
    exact ⟨⟨rfl, .inl trivial⟩, ⟨rfl, .inl trivial⟩, ⟨rfl, .inl trivial⟩, ⟨rfl, .inr trivial⟩, ⟨rfl, .inr trivial⟩, ⟨rfl, .inr trivial⟩, ⟨rfl, .inr trivial⟩, List.forall_mem_nil _⟩
  exact hall _ hm

/-- An issuing word of a floating row has a floating type. -/
theorem floatTy_of_issues {spec : OpSpec} {f : Fields} {s : State} {cu : Cur} (h : issues spec f s cu = true) (ht : spec.ty = tyFp) :
    FloatTy f.ty := by
  obtain ⟨e, rfl, -, -, -, -, hty, -⟩ := checks_of_issues h
  exact floatTy_of_tyFp (ht ▸ hty)

/-- Settles O60: each row's lane function is the exact value of finite operands, rounded once by `roundFin`. -/
theorem arithmeticRoundsOnce : Obligations.ArithmeticRoundsOnce := by
  intro f i spec n e s cu hrow hi hd hen hftz hrm
  obtain ⟨hspec, hn⟩ := arithRows_ty hrow
  have hty := floatTy_of_issues hi hspec
  obtain ⟨h, hexec, hround⟩ := arithRows_exec hty _ hrow
  obtain ⟨t, ht, hdone⟩ := laneExec_perLane spec (fLat f) (fOp n h) f s cu hi hd _ (fun _ => rfl) fun x hx => by
    obtain ⟨l, -, rfl⟩ := List.mem_map.1 hx
    exact laneTraps_of_disabled hen (fOp_trap _ _ _ _ _ _ _ _)
  refine ⟨t, _, (hexec s).trans ht, hdone, fun l _ hx => ?_⟩
  exact fOp_rounds hty hround rfl (rmNow_rne spec hrm) ((ftzOf_atIssue spec f s cu).trans hftz) _ hn hx

end Sys2Proof.Machine
end

section
/-!
R104, R105, R111: NaN operands, and the quotients and square roots that no rounding decides, by the bits of the operands.
-/
namespace Sys2Proof.Machine
open Claims

/-- A result as the word of its format and its flags. -/
def FRes.outcome (r : FRes) : Word × BitVec 6 := (BitVec.ofNat 64 r.bits, r.fl)

variable {ty : BitVec 4} {k : Fmt}

/-! ### Operands as they are read (R105) -/

theorem Fmt.sig_eq_zero (k : Fmt) (n : Nat) : k.sig n = 0 ↔ n = 0 := by
  have hdm := Nat.div_add_mod n (2 ^ k.f)
  have hp := Nat.two_pow_pos k.f
  unfold Fmt.sig
  split
  · next he => rw [he, Nat.mul_zero] at hdm; omega
  · next he =>
    refine ⟨fun h => by omega, fun h => ?_⟩
    rw [h, Nat.zero_div] at he
    exact absurd rfl he

theorem Fmt.sig_lt_iff (k : Fmt) (n : Nat) : k.sig n < 2 ^ k.f ↔ n < 2 ^ k.f := by
  unfold Fmt.sig
  split
  · next he => exact iff_of_true (Nat.mod_lt _ (Nat.two_pow_pos _)) ((Nat.div_eq_zero_iff_lt (Nat.two_pow_pos _)).1 he)
  · next he => exact iff_of_false (Nat.not_lt.2 (Nat.le_add_right _ _)) fun hn => he (Nat.div_eq_of_lt hn)

theorem FmtIs.frac_le_infMag (h : FmtIs ty k) : 2 ^ k.f ≤ infMag ty := by
  have hcode := h.toIeee.infinity_code
  rw [h.infinity, Nat.pow_succ] at hcode
  omega

/-- R105: fcr[8] bears on f32 and f64, and on magnitudes below the normal ones. -/
theorem FmtIs.readMag_eq (h : FmtIs ty k) (ftz : Bool) (x : Word) :
    readMag ftz ty x = if ftz && ftzFmt k && decide (magBits ty x < 2 ^ k.f) then 0 else magBits ty x := by
  unfold readMag
  rw [h.flushes, h.f]

/-- R100, R105: an operand as the model reads it. -/
theorem unpackZ_eq (h : FmtIs ty k) (ftz : Bool) (x : Word) :
    unpackZ k ftz x.toNat =
      if isNaN ty x then .nan (signOf ty x) (x.getLsbD (fracBits ty - 1)) (magBits ty x % 2 ^ k.f)
      else if readMag ftz ty x = infMag ty then .inf (signOf ty x)
      else .fin (signOf ty x) (k.sig (readMag ftz ty x)) (k.lastPlace (readMag ftz ty x)) := by
  have hfrac := h.frac_le_infMag
  have hp := Nat.two_pow_pos k.f
  unfold unpackZ isNaN
  rw [unpack_eq h, h.readMag_eq]
  simp only [decide_eq_true_eq]
  rcases Nat.lt_trichotomy (magBits ty x) (infMag ty) with hlt | heq | hgt
  · rw [if_neg hlt.le.not_gt, if_neg hlt.ne, if_neg hlt.le.not_gt]
    simp only [k.sig_lt_iff]
    split
    · next hz =>
      rw [if_neg (by omega)]
      simp [Fmt.sig, Fmt.lastPlace]
    · rw [if_neg hlt.ne]
  · rw [if_neg heq.le.not_gt, if_pos heq, if_neg heq.le.not_gt]
    simp [heq, hfrac.not_gt]
  · rw [if_pos hgt, if_pos hgt]

/-- R104: the operands that hold a NaN. -/
theorem isNan_unpackZ (h : FmtIs ty k) (ftz : Bool) (x : Word) : (unpackZ k ftz x.toNat).isNan = isNaN ty x := by
  rw [unpackZ_eq h]
  cases isNaN ty x with
  | true => rfl
  | false =>
    rw [if_neg Bool.false_ne_true]
    split <;> rfl

theorem isSnan_unpackZ (h : FmtIs ty k) (ftz : Bool) (x : Word) : (unpackZ k ftz x.toNat).isSnan = isSNaN ty x := by
  unfold isSNaN
  rw [unpackZ_eq h]
  cases isNaN ty x with
  | true => rfl
  | false =>
    rw [if_neg Bool.false_ne_true]
    split <;> rfl

/-! ### Special results -/

/-- R104: a NaN carried within its format has its quiet bit set and keeps its sign and fraction. -/
theorem carryNaN_eq (h : FmtIs ty k) {x : Word} (hx : isNaN ty x = true) :
    BitVec.ofNat 64 (carryNaN k k (signOf ty x) (magBits ty x % 2 ^ k.f)) = quieted ty x := by
  have hp := Nat.two_pow_pos k.f
  have hexps := h.exps
  have hlt : magBits ty x < 2 ^ (k.w - 1) := by rw [h.w]; exact Nat.mod_lt _ (Nat.two_pow_pos _)
  have hgt : infMag ty < magBits ty x := of_decide_eq_true hx
  have htop := h.top
  have hcode := h.toIeee.infinity_code
  rw [h.infinity] at htop hcode
  have hinf : infMag ty = 2 ^ k.f * (k.topPlace + 2) := by rw [hcode]; ring
  have hmag : magBits ty x = infMag ty + magBits ty x % 2 ^ k.f := by
    have hr : magBits ty x - infMag ty < 2 ^ k.f := by omega
    have hs : magBits ty x = 2 ^ k.f * (k.topPlace + 2) + (magBits ty x - infMag ty) := by omega
    rw [hs, Nat.mul_add_mod, Nat.mod_eq_of_lt hr, ← hinf]
  have hsign : ∃ c, k.sign (signOf ty x) + infMag ty = 2 ^ k.f * c := by
    have hw : 2 ^ (k.w - 1) = 2 ^ k.f * 2 ^ (k.w - 1 - k.f) := by rw [← Nat.pow_add]; congr 1; omega
    unfold Fmt.sign
    rw [hinf, hw]
    split
    · exact ⟨_, (Nat.mul_add _ _ _).symm⟩
    · exact ⟨_, Nat.zero_add _⟩
  obtain ⟨c, hc⟩ := hsign
  have hfr : magBits ty x % 2 ^ k.f < 2 ^ k.f := Nat.mod_lt _ hp
  have hquiet : 2 ^ (k.f - 1) < 2 ^ k.f := Nat.pow_lt_pow_right (by decide) (by have := h.frac; omega)
  have hor := Nat.two_pow_add_eq_or_of_lt hfr c
  have hor' := Nat.two_pow_add_eq_or_of_lt (Nat.or_lt_two_pow hfr hquiet) c
  have hbits : carryNaN k k (signOf ty x) (magBits ty x % 2 ^ k.f) = (k.sign (signOf ty x) + magBits ty x) ||| 2 ^ (k.f - 1) := by
    unfold carryNaN
    rw [if_pos h.inf, if_pos le_rfl, Nat.sub_self, Nat.pow_zero, Nat.mul_one, Nat.add_assoc _ k.maxBits, h.infinity, hc, hor', ← Nat.or_assoc, ← hor]
    nth_rewrite 2 [hmag]
    rw [← Nat.add_assoc, hc]
  rw [hbits, BitVec.ofNat_or, ofNat_sign_add h, h.f]
  rfl

theorem invalidRes_outcome (h : FmtIs ty k) : (invalidRes k).outcome = (defaultNaNWord ty, 1) := by
  have hbits : (invalidRes k).bits = k.sign false + (infMag ty + 2 ^ (fracBits ty - 1)) := by
    unfold invalidRes defaultNaN
    rw [if_pos h.inf, h.infinity, h.f]
    exact (Nat.zero_add _).symm
  unfold FRes.outcome
  rw [hbits, ofNat_sign_add h]
  rfl

theorem infRes_outcome (h : FmtIs ty k) (neg : Bool) : (infRes k neg).outcome = (floatWord ty neg (infMag ty), 0) := by
  unfold FRes.outcome infRes
  rw [Nat.add_assoc, h.infinity, ofNat_sign_add h]

theorem zeroRes_outcome (h : FmtIs ty k) (neg : Bool) : (zeroRes k neg).outcome = (floatWord ty neg 0, 0) := by
  unfold FRes.outcome zeroRes
  rw [← ofNat_sign_add h, Nat.add_zero]

/-- R104: the first NaN of the operands, quieted, with invalid for a signalling one. -/
theorem firstNaN_outcome (h : FmtIs ty k) (ftz : Bool) (xs : List Word) :
    (firstNaN k k (xs.map (fun x => unpackZ k ftz x.toNat))).map FRes.outcome =
      (xs.find? (isNaN ty)).map (fun x => (quieted ty x, if xs.any (isSNaN ty) then 1 else 0)) := by
  have hany : (xs.map (fun x => unpackZ k ftz x.toNat)).any FVal.isSnan = xs.any (isSNaN ty) := by
    rw [List.any_map]
    exact congrArg xs.any (funext fun x => isSnan_unpackZ h ftz x)
  have hfind : (xs.map (fun x => unpackZ k ftz x.toNat)).find? FVal.isNan = (xs.find? (isNaN ty)).map (fun x => unpackZ k ftz x.toNat) := by
    rw [List.find?_map]
    exact congrArg (fun p => (xs.find? p).map _) (funext fun x => isNan_unpackZ h ftz x)
  unfold firstNaN
  rw [hfind, hany]
  cases hx : xs.find? (isNaN ty) with
  | none => rfl
  | some x =>
    have hnan : isNaN ty x = true := List.find?_some hx
    rw [Option.map_some, unpackZ_eq h, if_pos hnan]
    simp only [Option.map_some, FRes.outcome, carryNaN_eq h hnan]
    rfl

/-! ### Quotients and square roots (R111) -/

/-- What a function that no NaN enters makes of operands, NaNs by R104. -/
theorem nanOr_outcome (h : FmtIs ty k) (ftz : Bool) (xs : List Word) (r : FRes) :
    ((firstNaN k k (xs.map (fun x => unpackZ k ftz x.toNat))).getD r).outcome =
      ((xs.find? (isNaN ty)).map (fun x => (quieted ty x, if xs.any (isSNaN ty) then 1 else 0))).getD r.outcome := by
  rw [← firstNaN_outcome h ftz xs]
  cases firstNaN k k (xs.map (fun x => unpackZ k ftz x.toNat)) <;> rfl

/-- R111: a quotient of operands that are no NaNs, where no rounding decides it. -/
theorem divVal_outcome (h : FmtIs ty k) (mode : Rm) {ftz : Bool} {a b : Word} (ha : isNaN ty a = false) (hb : isNaN ty b = false)
    {r : Word × BitVec 6} (hr : quotientCase ftz ty a b = some r) :
    (divVal k mode ftz (unpackZ k ftz a.toNat) (unpackZ k ftz b.toNat)).outcome = r := by
  have hpos : infMag ty ≠ 0 := by have := h.frac_le_infMag; have := Nat.two_pow_pos k.f; omega
  unfold quotientCase at hr
  rw [unpackZ_eq h, unpackZ_eq h]
  simp only [ha, hb, Bool.false_eq_true, if_false] at hr ⊢
  by_cases hai : readMag ftz ty a = infMag ty <;> by_cases hbi : readMag ftz ty b = infMag ty
  · simp only [hai, hbi, and_self, or_true, if_true, Option.some.injEq] at hr ⊢
    rw [← hr]
    exact invalidRes_outcome h
  · simp only [hai, hbi, hpos, false_and, and_false, or_self, if_true, if_false, Option.some.injEq] at hr ⊢
    rw [← hr]
    exact infRes_outcome h _
  · simp only [hai, hbi, hpos, false_and, and_false, or_self, true_or, if_true, if_false, Option.some.injEq] at hr ⊢
    rw [← hr]
    exact zeroRes_outcome h _
  · simp only [hai, hbi, false_and, or_false, false_or, if_false] at hr ⊢
    unfold divVal
    simp only [k.sig_eq_zero, FVal.neg]
    by_cases hbz : readMag ftz ty b = 0 <;> by_cases haz : readMag ftz ty a = 0
    · simp only [haz, hbz, and_self, if_true, Option.some.injEq] at hr ⊢
      rw [← hr]
      exact invalidRes_outcome h
    · simp only [haz, hbz, false_and, if_true, if_false, Option.some.injEq] at hr ⊢
      rw [← hr]
      exact Prod.ext (Prod.ext_iff.1 (infRes_outcome h _)).1 rfl
    · simp only [haz, hbz, and_false, if_true, if_false, Option.some.injEq] at hr ⊢
      rw [← hr]
      exact zeroRes_outcome h _
    · simp only [haz, hbz, and_false, if_false, reduceCtorEq] at hr

/-- R111: a square root of an operand that is no NaN, where no rounding decides it. -/
theorem sqrtVal_outcome (h : FmtIs ty k) (mode : Rm) {ftz : Bool} {a : Word} (ha : isNaN ty a = false) {r : Word × BitVec 6}
    (hr : rootCase ftz ty a = some r) : (sqrtVal k mode ftz (unpackZ k ftz a.toNat)).outcome = r := by
  have hpos : infMag ty ≠ 0 := by have := h.frac_le_infMag; have := Nat.two_pow_pos k.f; omega
  unfold rootCase at hr
  rw [unpackZ_eq h]
  simp only [ha, Bool.false_eq_true, if_false] at hr ⊢
  by_cases hai : readMag ftz ty a = infMag ty
  · simp only [hai, hpos, if_true, if_false] at hr ⊢
    unfold sqrtVal
    cases hs : signOf ty a with
    | true =>
      simp only [hs, if_true, Option.some.injEq] at hr ⊢
      rw [← hr]
      exact invalidRes_outcome h
    | false =>
      simp only [hs, Bool.false_eq_true, if_false, Option.some.injEq] at hr ⊢
      rw [← hr]
      exact infRes_outcome h _
  · simp only [hai, if_false] at hr ⊢
    unfold sqrtVal
    simp only [k.sig_eq_zero]
    by_cases haz : readMag ftz ty a = 0
    · simp only [haz, if_true, Option.some.injEq] at hr ⊢
      rw [← hr]
      exact zeroRes_outcome h _
    · cases hs : signOf ty a with
      | true =>
        simp only [haz, hs, if_true, if_false, Option.some.injEq] at hr ⊢
        rw [← hr]
        exact invalidRes_outcome h
      | false => simp only [haz, hs, Bool.false_eq_true, if_false, reduceCtorEq] at hr

/-- R104, R111: fdiv on two words. -/
theorem quotient_outcome (h : FmtIs ty k) (mode : Rm) {ftz : Bool} {a b : Word} {r : Word × BitVec 6} (hr : quotientCase ftz ty a b = some r) :
    ((firstNaN k k ([a, b].map (fun x => unpackZ k ftz x.toNat))).getD
      (divVal k mode ftz (unpackZ k ftz a.toNat) (unpackZ k ftz b.toNat))).outcome = r := by
  rw [nanOr_outcome h]
  cases ha : isNaN ty a with
  | true => simpa [quotientCase, ha] using hr
  | false =>
    cases hb : isNaN ty b with
    | true => simpa [quotientCase, ha, hb] using hr
    | false => simpa [ha, hb] using divVal_outcome h mode ha hb hr

/-- R104, R111: fsqrt on a word. -/
theorem root_outcome (h : FmtIs ty k) (mode : Rm) {ftz : Bool} {a : Word} {r : Word × BitVec 6} (hr : rootCase ftz ty a = some r) :
    ((firstNaN k k ([a].map (fun x => unpackZ k ftz x.toNat))).getD (sqrtVal k mode ftz (unpackZ k ftz a.toNat))).outcome = r := by
  rw [nanOr_outcome h]
  cases ha : isNaN ty a with
  | true => simpa [rootCase, ha] using hr
  | false => simpa [ha] using sqrtVal_outcome h mode ha hr

end Sys2Proof.Machine
end

section
/-!
R56, R108, R128: the issue of a word of the special-function unit.
-/
namespace Sys2Proof.Machine
open Claims

/-! ### The queue (R128) -/

theorem quarterOf_atIssue (s : State) (cu : Cur) (w : Nat) : quarterOf (atIssue s cu) w = quarterOf s w := by
  have hq : (getWarp (atIssue s cu) w).quarter = (getWarp s w).quarter := by
    unfold atIssue
    by_cases h : w = cu.w
    · rw [h, getWarp_startIssue_same]
    · rw [getWarp_startIssue_ne _ _ _ _ h]
  unfold quarterOf
  rw [hq]
  rfl

/-- The start of an issue leaves the queue as it is. -/
theorem sfuQueue_atIssue (s : State) (cu : Cur) (qk : Nat) : sfuQueue (atIssue s cu) qk = sfuQueue s qk := by
  unfold sfuQueue sfuOps
  simp only [quarterOf_atIssue]
  rfl

/-- A word that finds room in the queue issues. -/
theorem sfuIssueWord_of_room {spec : OpSpec} {n : Nat} {f : Fields} {s : State} {cu : Cur} (body : Ctx → State → State)
    (h : issues spec f s cu = true) (hq : (sfuQueue (atIssue s cu) (quarterOf s cu.w)).length < 4) :
    sfuIssueWord spec n f s body = issue spec f s body := by
  have hfull : sfuFull n (ctxOf spec f s cu) s = false := by
    rw [sfuQueue_atIssue] at hq
    unfold sfuFull
    rw [ctxOf_w, decide_eq_false (by omega), Bool.and_false]
  unfold sfuIssueWord
  rw [cur_of_issues h]
  dsimp only
  rw [hfull]
  rfl

/-! ### The lanes of the word (R35, R56) -/

/-- What R35 writes at once in a lane: the word of the lane that a tag rule settles. -/
def TagRule.settles (old : TWord) : TagRule → Option TWord
  | .nullified => some ⟨.n, old.data⟩
  | .poisoned p => some ⟨.x, p⟩
  | .normal => none

theorem settles_tagRule (old : TWord) (xs : List TWord) :
    (tagRule xs).settles old = if xs.all (fun x => decide (x.tag = .v)) then none else some (byTags old xs (wordRes 0)).val := by
  rw [← r35_eq_byTags old xs (fun _ => wordRes 0)]
  split
  · next h => rw [(tagRule_normal_iff xs).2 h]; rfl
  · next h =>
    have hne : tagRule xs ≠ .normal := fun hc => h ((tagRule_normal_iff xs).1 hc)
    unfold r35
    cases ht : tagRule xs with
    | nullified => rfl
    | poisoned p => rfl
    | normal => exact absurd ht hne

/-- The word that a lane has once R35 has settled it. -/
def settledAt (spec : OpSpec) (n : Nat) (f : Fields) (s : State) (cu : Cur) (l : Nat) : TWord :=
  (byTags (oldOf f s cu l) ([inA spec f s cu l, inB spec f s cu l].take n) (wordRes 0)).val

/-- The lanes that go on to the unit, and those that R35 settles. -/
def unitLanes (spec : OpSpec) (n : Nat) (f : Fields) (s : State) (cu : Cur) : List Nat := (lanesNow f s cu).filter (allV spec f s cu n)
def settledLanes (spec : OpSpec) (n : Nat) (f : Fields) (s : State) (cu : Cur) : List (Nat × TWord) :=
  ((lanesNow f s cu).filter (fun l => !allV spec f s cu n l)).map (fun l => (l, settledAt spec n f s cu l))

variable {spec : OpSpec} {n : Nat} {f : Fields} {s : State} {cu : Cur}

theorem mem_unitLanes {l : Nat} : l ∈ unitLanes spec n f s cu ↔ l ∈ lanesNow f s cu ∧ allV spec f s cu n l = true := List.mem_filter

theorem mem_settledLanes {e : Nat × TWord} :
    e ∈ settledLanes spec n f s cu ↔ e.1 ∈ lanesNow f s cu ∧ allV spec f s cu n e.1 = false ∧ e.2 = settledAt spec n f s cu e.1 := by
  unfold settledLanes
  rw [List.mem_map]
  constructor
  · rintro ⟨l, hl, rfl⟩
    obtain ⟨hl, hv⟩ := List.mem_filter.1 hl
    exact ⟨hl, by simpa using hv, rfl⟩
  · rintro ⟨hl, hv, he⟩
    exact ⟨e.1, List.mem_filter.2 ⟨hl, by simp [hv]⟩, Prod.ext rfl he.symm⟩

theorem lanesNow_nodup (f : Fields) (s : State) (cu : Cur) : (lanesNow f s cu).Nodup := by
  unfold lanesNow activeLanes
  split
  · exact (lanesOf_nodup _).sublist (List.take_sublist _ _)
  · exact lanesOf_nodup _

theorem settledLanes_nodup : ((settledLanes spec n f s cu).map (·.1)).Nodup := by
  unfold settledLanes
  rw [List.map_map]
  exact (List.map_id _).symm ▸ (lanesNow_nodup f s cu).filter _

/-- The lanes of the word whose operands are all V go on. -/
theorem normal_sfuTags : (sfuTags n (ctxOf spec f s cu) (atIssue s cu)).filterMap (fun e => if e.2.1 = .normal then some e.1 else none) =
    unitLanes spec n f s cu := by
  have hl : lanesNow f s cu = computeLanes (ctxOf spec f s cu) := rfl
  unfold sfuTags unitLanes
  rw [List.filterMap_map, hl, ← List.filterMap_eq_filter]
  refine List.filterMap_congr fun l _ => ?_
  simp only [Function.comp, tagRule_normal_iff, Option.guard]
  rfl

/-- The other lanes are settled. -/
theorem settled_sfuTags {g : Nat × TagRule × TWord → Option (Nat × TWord)} (hg : ∀ l t old, g (l, t, old) = (t.settles old).map (fun v => (l, v))) :
    (sfuTags n (ctxOf spec f s cu) (atIssue s cu)).filterMap g = settledLanes spec n f s cu := by
  have hl : lanesNow f s cu = computeLanes (ctxOf spec f s cu) := rfl
  unfold sfuTags settledLanes
  rw [List.filterMap_map, hl, ← List.filterMap_eq_filter, List.map_filterMap]
  refine List.filterMap_congr fun l _ => ?_
  have hw : (tagRule ([inA spec f s cu l, inB spec f s cu l].take n)).settles (oldOf f s cu l) =
      if allV spec f s cu n l then none else some (settledAt spec n f s cu l) := settles_tagRule _ _
  rw [Function.comp, hg]
  refine (congrArg (Option.map _) hw).trans ?_
  cases hv : allV spec f s cu n l <;> simp [Option.guard, hv]

/-- A word whose D is no stream settles its lanes and sends the others to the unit. -/
theorem sfuBody_eq (g : Ctx → State → TWord → TWord → TWord → TWord → LaneRes) (hd : isQ f.d = false) :
    sfuBody spec n g (ctxOf spec f s cu) (atIssue s cu) =
      sfuIssue (ctxOf spec f s cu) (settledLanes spec n f s cu) ((unitLanes spec n f s cu).map (fun l => (l, g (ctxOf spec f s cu) (atIssue s cu)
        (inA spec f s cu l) (inB spec f s cu l) (inC spec f s cu l) (oldOf f s cu l))))
        (popAll (atIssue s cu) cu.w (getSplit s cu.w cu.k).mask (spec.reads f)) := by
  unfold sfuBody
  dsimp only
  rw [normal_sfuTags, settled_sfuTags]
  · simp only [settledPoison, pushGate, ctxOf_f, hd, Bool.false_and, Bool.false_eq_true, if_false, Bool.not_false, if_true]
    rfl
  · intro l t old
    cases t <;> rfl

/-! ### The operation of the word (R39, R56, R128) -/

/-- Without enables no trap is awaited (R108). -/
theorem sfuSync_of_disabled {c : Ctx} {u : State} (h : fpEnables (getWarp u c.w).fcr = 0) : sfuSync u c = false := by simp [sfuSync, h]

/-- A word of which R35 settles every lane. -/
theorem sfuIssue_settled (c : Ctx) (settled : List (Nat × TWord)) (u : State) (hd : isQ c.f.d = false) :
    sfuIssue c settled [] u = advance c (writeNow u c.w c.f.d.toNat settled) := by simp [sfuIssue, settleAll, hd]

/-- The results of an operation of the unit: its words and flags by lane. -/
def sfuKind (c : Ctx) (rs : List (Nat × LaneRes)) (begun : Bool) (occ lat : Nat) : OpKind :=
  .sfu ((spreadLanes c rs).map (fun e => (c.f.d.toNat, e.1, e.2.val))) ((spreadLanes c rs).map (fun e => (e.1, e.2.fl))) begun c.t occ lat none c.word

/-- The lanes that an operation of the unit covers: under a scalar D every active lane (R75). -/
def sfuMask (c : Ctx) (rs : List (Nat × LaneRes)) : Mask := maskOf (fun l => rs.any (fun e => e.1 = l) || isS c.f.d && c.sp.mask.getLsbD l)

/-- A word some of whose lanes go on starts an operation; of the other units only its own quarter's can change. -/
theorem sfuIssue_starts (c : Ctx) (settled : List (Nat × TWord)) {rs : List (Nat × LaneRes)} (u : State) (hd : isQ c.f.d = false) (hr : rs ≠ [])
    (hs : fpEnables (getWarp u c.w).fcr = 0) : ∃ v q begun occ lat, v = { writeNow u c.w c.f.d.toNat settled with quarters := q } ∧
      sfuIssue c settled rs u = startVar c .ld (sfuMask c rs) (rs.map (·.1)) (sfuKind c rs begun occ lat) v := by
  obtain ⟨_, _, _, _, hw⟩ := writeNow_eq u c.w c.f.d.toNat settled
  have hsync : sfuSync (writeNow u c.w c.f.d.toNat settled) c = false := sfuSync_of_disabled (by rw [hw]; exact hs)
  cases rs with
  | nil => exact absurd rfl hr
  | cons e es =>
    unfold sfuIssue
    simp only [settleNow, hd, hsync, Bool.false_eq_true, if_false]
    split
    · exact ⟨_, _, _, _, _, rfl, rfl⟩
    · exact ⟨writeNow u c.w c.f.d.toNat settled, (writeNow u c.w c.f.d.toNat settled).quarters, _, _, _, rfl, rfl⟩

/-- What an issued word of the unit leaves: `settled` stands in D, the operands' queues are popped, and where lanes go on, one operation holds
their results. -/
structure SfuLeaves (reads : List (BitVec 8)) (f : Fields) (settled : List (Nat × TWord)) (lanes : List Nat) (mask : Mask) (p : Op → Prop)
    (s : State) (cu : Cur) (t : State) : Prop where
  goes : Goes f s cu t
  mem : t.mem = s.mem
  fsr : t.fsr = s.fsr
  queues : PopsQueues reads s cu t
  regs : ∀ w r l, rdReg t w r l = rdReg (wrReg s cu.w f.d.toNat settled) w r l
  idle : lanes = [] → t.ops.map Op.bare = s.ops.map Op.bare
  starts : lanes ≠ [] → Starts (some .ld) mask p s cu t

theorem sfuIssue_leaves (settled : List (Nat × TWord)) (rs : List (Nat × LaneRes)) (hd : isQ f.d = false) (he : fpEnables (getWarp s cu.w).fcr = 0) :
    SfuLeaves (spec.reads f) f settled (rs.map (·.1)) (sfuMask (ctxOf spec f s cu) rs)
      (fun o => o.dst = dstOf f.d.toNat (rs.map (·.1)) ∧ ∃ begun occ lat, o.kind = sfuKind (ctxOf spec f s cu) rs begun occ lat) s cu
      (keepReplay spec (ctxOf spec f s cu) (atIssue s cu)
        (sfuIssue (ctxOf spec f s cu) settled rs (popAll (atIssue s cu) cu.w (getSplit s cu.w cu.k).mask (spec.reads f)))) := by
  set c := ctxOf spec f s cu with hc
  have hdc : isQ c.f.d = false := hd
  obtain ⟨q, hq⟩ := popAll_eq (atIssue s cu) cu.w (getSplit s cu.w cu.k).mask (spec.reads f)
  have hpops : PopsQueues (spec.reads f) s cu (popAll (atIssue s cu) cu.w (getSplit s cu.w cu.k).mask (spec.reads f)) := fun w l n hl hn => by
    rw [getQueue_popAll _ _ _ _ _ _ _ hl hn]
    rfl
  set u := popAll (atIssue s cu) cu.w (getSplit s cu.w cu.k).mask (spec.reads f) with hu
  have hfcr : fpEnables (getWarp u c.w).fcr = 0 := by rw [hu, hc, ctxOf_w, popAll_atIssue_fcr]; exact he
  have hregs : ∀ w r l, rdReg (writeNow u cu.w f.d.toNat settled) w r l = rdReg (wrReg s cu.w f.d.toNat settled) w r l := fun w r l => by
    rw [rdReg_writeNow]
    exact rdReg_wrReg_congr (by rw [hq]; rfl) (by rw [hq]; rfl) _ _ _ _ _ _
  have hbare : (writeNow u cu.w f.d.toNat settled).ops.map Op.bare = s.ops.map Op.bare := (writeNow_bare _ _ _ _).trans (by rw [hq]; rfl)
  by_cases hr : rs = []
  · rw [hr, sfuIssue_settled c settled u hdc]
    refine ⟨goes_keepReplay (goes_advance _ _ _ _ _ (by simp [hu])), by simp [hu], by simp [hu], fun w l n hl hn => ?_, fun w r l => ?_,
      fun _ => ?_, fun h => absurd rfl h⟩
    · rw [← hpops w l n hl hn]
      simp [getQueue]
    · rw [rdReg_keepReplay]; exact hregs w r l
    · rw [keepReplay_ops]; exact hbare
  · obtain ⟨v, qs, begun, occ, lat, hv, hi⟩ := sfuIssue_starts c settled u hdc hr hfcr
    rw [hi, startVar_eq _ _ _ _ _ _ hdc]
    refine ⟨goes_keepReplay (goes_advance _ _ _ _ _ (by simp [hv, hu])), by simp [hv, hu], by simp [hv, hu], fun w l n hl hn => ?_, fun w r l => ?_,
      fun h => absurd (List.map_eq_nil_iff.1 h) hr, fun _ => ?_⟩
    · rw [← hpops w l n hl hn]
      simp [getQueue, hv]
    · rw [rdReg_keepReplay, ← hregs w r l, hv]; rfl
    · refine ⟨⟨_, _, by rw [keepReplay_ops, advance_ops], by rw [hv]; exact hbare, ?_, rfl, rfl, rfl, rfl, rfl, begun, occ, lat, rfl⟩, ?_⟩ <;>
        simp [hv, hu]

end Sys2Proof.Machine
end

section
/-!
R56, R104, R108, R111, R128: special-function words from their issue to the operation they start, and the operation from its start to its results.
-/
namespace Sys2Proof.Machine
open Claims

/-! ### The rows of the unit -/

/-- A body depends on its lane function at its own context and state alone. -/
theorem sfuBody_congr {spec : OpSpec} {n : Nat} {g h : Ctx → State → TWord → TWord → TWord → TWord → LaneRes} {c : Ctx} {s : State}
    (hgh : g c s = h c s) : sfuBody spec n g c s = sfuBody spec n h c s := by
  unfold sfuBody
  rw [hgh]

/-- R122 to R124: cvtmx in its two forms. -/
theorem cvtmxBody_eq (c : Ctx) (s : State) : cvtmxBody c s = sfuBody specCvtmx (if isExpand c.f then 2 else 1) cvtmxRes c s := by
  unfold cvtmxBody
  dsimp only
  split
  · next hx =>
    refine sfuBody_congr ?_
    funext a b _ _
    simp only [cvtmxRes, hx, if_true]
  · next hx =>
    refine sfuBody_congr ?_
    funext a b _ _
    simp only [cvtmxRes, hx, Bool.false_eq_true, if_false]

/-- Each row runs its lane function in the unit. -/
theorem sfuRows_exec (f : Fields) : ∀ e ∈ Claims.sfuRows f, ∃ body, (∀ s, exec e.1 s = sfuIssueWord e.2.1 e.2.2.1 f s body) ∧
    ∀ c s, c.f = f → body c s = sfuBody e.2.1 e.2.2.1 e.2.2.2 c s := by
  simp only [Claims.sfuRows, List.forall_mem_cons]
  refine ⟨⟨_, exec_fdiv f, fun _ _ _ => rfl⟩, ⟨_, exec_fsqrt f, fun _ _ _ => rfl⟩, ⟨_, exec_sfu f, fun _ _ _ => rfl⟩,
    ⟨_, exec_cvtmx f, fun c s hc => ?_⟩, List.forall_mem_nil _⟩
  rw [cvtmxBody_eq, hc]

/-! ### What the word starts -/

theorem maskOf_congr {p q : Nat → Bool} (h : ∀ l < 32, p l = q l) : maskOf p = maskOf q := by
  unfold maskOf
  exact List.foldl_ext _ _ _ fun m l hl => by rw [h l (List.mem_range.1 hl)]

variable {spec : OpSpec} {n : Nat} {f : Fields} {s : State} {cu : Cur}

/-- The lanes that the operation covers. -/
theorem sfuMask_eq (res : Nat → LaneRes) : sfuMask (ctxOf spec f s cu) ((unitLanes spec n f s cu).map (fun l => (l, res l))) =
    maskOf (fun l => activeIn s cu l && (isS f.d || (unitLanes spec n f s cu).contains l)) := by
  refine maskOf_congr fun l _ => ?_
  have hany : ((unitLanes spec n f s cu).map (fun l => (l, res l))).any (fun e => decide (e.1 = l)) = (unitLanes spec n f s cu).contains l := by
    rw [List.any_map, List.contains_eq_any_beq]
    exact congrArg _ (funext fun k => by simp [Function.comp, eq_comm, beq_eq_decide])
  have hact : (unitLanes spec n f s cu).contains l = true → activeIn s cu l = true := fun h =>
    ((mem_lanesOf _ _).1 (lanesNow_active (mem_unitLanes.1 (List.contains_iff_mem.1 h)).1)).2
  have hm : (ctxOf spec f s cu).sp.mask.getLsbD l = activeIn s cu l := rfl
  rw [hany, hm, ctxOf_f]
  cases hc : (unitLanes spec n f s cu).contains l with
  | true => rw [hact hc]; cases isS f.d <;> rfl
  | false => cases isS f.d <;> cases activeIn s cu l <;> rfl

/-- Under a scalar D at most one lane goes on (R75). -/
theorem unitLanes_scalar (hs : isS f.d = true) : unitLanes spec n f s cu = [] ∨ ∃ l, unitLanes spec n f s cu = [l] := by
  have hlen : (unitLanes spec n f s cu).length ≤ 1 := by
    refine (List.length_filter_le _ _).trans ?_
    rw [lanesNow, if_pos hs]
    exact List.length_take_le _ _
  cases hu : unitLanes spec n f s cu with
  | nil => exact .inl rfl
  | cons l r =>
    rw [hu, List.length_cons] at hlen
    exact .inr ⟨l, by rw [List.length_eq_zero_iff.1 (by omega : r.length = 0)]⟩

/-- The results of the operation by lane: under a scalar D each active lane has the one result. -/
theorem spreadLanes_unit (res : Nat → LaneRes) : spreadLanes (ctxOf spec f s cu) ((unitLanes spec n f s cu).map (fun l => (l, res l))) =
    if isS f.d then (unitLanes spec n f s cu).flatMap (fun l => (activeLanes s cu).map (fun k => (k, res l)))
    else (unitLanes spec n f s cu).map (fun l => (l, res l)) := by
  unfold spreadLanes
  rw [ctxOf_f]
  by_cases hs : isS f.d = true
  · rw [if_pos hs, if_pos hs]
    obtain hu | ⟨l, hu⟩ := unitLanes_scalar (spec := spec) (n := n) (s := s) (cu := cu) hs <;> rw [hu]
    · rfl
    · exact (List.append_nil _).symm
  · rw [if_neg hs, if_neg hs]

/-- A lane of the word holds what R35 wrote there, or its old word where it goes on. -/
theorem rdReg_settledLanes {l : Nat} (hl : l ∈ lanesNow f s cu) (hd : f.d.toNat < 0xE0) :
    rdReg (wrReg s cu.w f.d.toNat (settledLanes spec n f s cu)) cu.w f.d.toNat l =
      if allV spec f s cu n l then oldOf f s cu l else settledAt spec n f s cu l := by
  have huniq : ∀ e ∈ settledLanes spec n f s cu, 0xC0 ≤ f.d.toNat → e.1 = l := fun e he h =>
    lanesNow_unique hl (mem_settledLanes.1 he).1 hd (by simp only [regLane, if_neg (Nat.not_lt.2 h)])
  cases hv : allV spec f s cu n l with
  | true =>
    have hno : ∀ e ∈ settledLanes spec n f s cu, e.1 ≠ l := fun e he hel => by
      have := (mem_settledLanes.1 he).2.1
      rw [hel, hv] at this
      cases this
    by_cases hvec : f.d.toNat < 0xC0
    · refine rdReg_wrReg_other _ _ _ _ _ _ _ (lanesOf_lt (lanesNow_active hl))
        (fun e he => lanesOf_lt (lanesNow_active (mem_settledLanes.1 he).1)) ?_
      rintro ⟨-, -, hm⟩
      obtain ⟨e, he, hel⟩ := List.mem_map.1 (hm hvec)
      exact hno e he hel
    · have hnil : settledLanes spec n f s cu = [] :=
        List.eq_nil_iff_forall_not_mem.2 fun e he => hno e he (huniq e he (Nat.le_of_not_lt hvec))
      rw [hnil]
      unfold wrReg
      rw [if_neg hvec, if_pos hd]
      rfl
  | false =>
    rw [if_neg Bool.false_ne_true]
    refine rdReg_wrReg_mem _ _ _ _ _ _ hd (mem_settledLanes.2 ⟨hl, hv, rfl⟩) settledLanes_nodup fun h e he => ?_
    rw [(mem_settledLanes.1 he).2.2, huniq e he h]

theorem SfuLeaves.keepsRegs {reads : List (BitVec 8)} {lanes : List Nat} {mask : Mask} {p : Op → Prop} {t : State}
    (h : SfuLeaves reads f (settledLanes spec n f s cu) lanes mask p s cu t) : KeepsRegs f.d.toNat s cu t := by
  intro w r l hl hne
  have hact : ∀ e ∈ settledLanes spec n f s cu, e.1 ∈ activeLanes s cu := fun e he => lanesNow_active (mem_settledLanes.1 he).1
  rw [h.regs]
  refine rdReg_wrReg_other _ _ _ _ _ _ _ hl (fun e he => lanesOf_lt (hact e he)) ?_
  rintro ⟨rfl, rfl, hm⟩
  refine hne ⟨rfl, rfl, fun hv => ?_⟩
  obtain ⟨e, he, rfl⟩ := List.mem_map.1 (hm hv)
  exact ((mem_lanesOf _ _).1 (hact e he)).2

/-- R56, R128: an issued word of the unit settles its lanes and starts the operation of the others. -/
theorem sfuWord_leaves {i : Instr} {g : Ctx → State → TWord → TWord → TWord → TWord → LaneRes} (hrow : (i, spec, n, g) ∈ Claims.sfuRows f)
    (h : issues spec f s cu = true) (hd : isQ f.d = false) (he : fpEnables (getWarp s cu.w).fcr = 0)
    (hq : (sfuQueue (atIssue s cu) (quarterOf s cu.w)).length < 4) :
    let rs := (unitLanes spec n f s cu).map (fun l =>
      (l, g (ctxOf spec f s cu) (atIssue s cu) (inA spec f s cu l) (inB spec f s cu l) (inC spec f s cu l) (oldOf f s cu l)))
    ∃ t, exec i s = .next t ∧ SfuLeaves (spec.reads f) f (settledLanes spec n f s cu) (rs.map (·.1)) (sfuMask (ctxOf spec f s cu) rs)
      (fun o => o.dst = dstOf f.d.toNat (rs.map (·.1)) ∧ ∃ begun occ lat, o.kind = sfuKind (ctxOf spec f s cu) rs begun occ lat) s cu t := by
  intro rs
  obtain ⟨body, hexec, hbody⟩ := sfuRows_exec f _ hrow
  refine ⟨_, (hexec s).trans ((sfuIssueWord_of_room body h hq).trans (issue_of_issues spec f s body cu h)), ?_⟩
  rw [hbody _ _ (ctxOf_f spec f s cu), sfuBody_eq _ hd]
  exact sfuIssue_leaves _ _ hd he

theorem specialFunctionsQueue : SpecialFunctionsQueue := by
  intro f i spec n g s cu hrow hi hd he hq c live res all
  obtain ⟨t, ht, hleaves⟩ := sfuWord_leaves hrow hi hd he hq
  have hlanes : ((unitLanes spec n f s cu).map (fun l => (l, res l))).map (·.1) = live := by
    rw [List.map_map]
    exact List.map_id _
  refine ⟨t, ht, hleaves.goes, hleaves.mem, hleaves.fsr, hleaves.queues, hleaves.keepsRegs, fun l hl hlt => ?_, fun hn => hleaves.idle ?_,
    fun hn => ?_⟩
  · rw [hleaves.regs]
    exact rdReg_settledLanes hl hlt
  · exact hlanes.trans hn
  · have hs := hleaves.starts (fun hc => hn (hlanes.symm.trans hc))
    obtain ⟨⟨old, o, h1, h2, h3, h4, h5, h6, h7, hdst, begun, occ, lat, hk⟩, hf⟩ := hs
    refine ⟨⟨old, o, h1, h2, h3, h4, h5.trans (sfuMask_eq res), h6, h7, hdst.trans (congrArg (dstOf _) hlanes), begun, occ, lat, hk.trans ?_⟩, hf⟩
    have hall : spreadLanes c ((unitLanes spec n f s cu).map (fun l => (l, res l))) = all := spreadLanes_unit res
    unfold sfuKind
    rw [hall]
    rfl

/-! ### Quotients and square roots (R104, R111) -/

/-- What decides a quotient or a root of the two words read, with fcr[8] or without it. -/
abbrev Decides := Bool → Word → Word → Option (Word × BitVec 6)

/-- A floating lane function answers, on V operands, what `h` decides by their bits. -/
def AnswersBy (ty : BitVec 4) (n : Nat) (g : Fmt → Rm → Bool → FVal → FVal → FVal → FRes) (h : Decides) : Prop :=
  ∀ c s a b d old r, c.f.ty = ty → ([a, b, d].take n).all (fun x => decide (x.tag = .v)) = true → h (ftzOf s c) a.data b.data = some r →
    (fOp n g c s a b d old).val = ⟨.v, r.1⟩ ∧ (fOp n g c s a b d old).fl = r.2

theorem quotient_answers {ty : BitVec 4} (hty : FloatTy ty) :
    AnswersBy ty 2 (fun k m z a b _ => divVal k m z a b) (fun z a b => quotientCase z ty a b) := by
  rintro c s a b d old r rfl hv hr
  rw [fOp_of_valid _ c s old hv, ← quotient_outcome (fmtIs_fmtOf hty) (rmNow s c) hr]
  exact ⟨rfl, rfl⟩

theorem root_answers {ty : BitVec 4} (hty : FloatTy ty) : AnswersBy ty 1 (fun k m z a _ _ => sqrtVal k m z a) (fun z a _ => rootCase z ty a) := by
  rintro c s a b d old r rfl hv hr
  rw [fOp_of_valid _ c s old hv, ← root_outcome (fmtIs_fmtOf hty) (rmNow s c) hr]
  exact ⟨rfl, rfl⟩

/-- A vector D has a lane of its own for every active lane. -/
theorem lanesNow_vector (hv : isV f.d = true) : lanesNow f s cu = activeLanes s cu := by
  have hs : isS f.d = false := by
    have := of_decide_eq_true hv
    simp [isS]
    omega
  rw [lanesNow, hs, if_neg Bool.false_ne_true]

/-- The operation of a row whose lane function answers by the bits of its operands holds what they decide. -/
theorem decided_results {i : Instr} {g : Fmt → Rm → Bool → FVal → FVal → FVal → FRes} {h : Decides} (hn : n ≤ 2)
    (hrow : (i, spec, n, fOp n g) ∈ Claims.sfuRows f) (hg : AnswersBy f.ty n g h) (hi : issues spec f s cu = true) (hv : isV f.d = true)
    (he : fpEnables (getWarp s cu.w).fcr = 0) (hq : (sfuQueue (atIssue s cu) (quarterOf s cu.w)).length < 4)
    (hl : ∃ l ∈ activeLanes s cu, allV spec f s cu n l = true) :
    ∃ t, exec i s = .next t ∧ Starts (some .ld) (maskOf (fun l => activeIn s cu l && allV spec f s cu n l)) (fun o =>
      ∃ ws fls st begin occ lat, o.kind = .sfu ws fls st begin occ lat none (packWord spec.op f) ∧
        ∀ l ∈ activeLanes s cu, allV spec f s cu n l = true → ∀ v fl,
          h ((getWarp s cu.w).fcr.getLsbD 8) (inA spec f s cu l).data (inB spec f s cu l).data = some (v, fl) →
          (f.d.toNat, l, ⟨.v, v⟩) ∈ ws ∧ (l, fl) ∈ fls) s cu t := by
  have hvec := of_decide_eq_true hv
  have hqd : isQ f.d = false := by simp [isQ]; omega
  have hsd : isS f.d = false := by simp [isS]; omega
  have hlive : ∀ l, l ∈ (lanesNow f s cu).filter (allV spec f s cu n) ↔ l ∈ activeLanes s cu ∧ allV spec f s cu n l = true := fun l => by
    rw [lanesNow_vector hv, List.mem_filter]
  obtain ⟨t, ht, -, -, -, -, -, -, -, hstarts⟩ := specialFunctionsQueue f i spec n (fOp n g) s cu hrow hi hqd he hq
  obtain ⟨l, hl⟩ := hl
  obtain ⟨⟨old, o, h1, h2, h3, h4, h5, h6, h7, -, st, occ, lat, hk⟩, hf⟩ := hstarts (List.ne_nil_of_mem ((hlive l).2 hl))
  refine ⟨t, ht, ⟨old, o, h1, h2, h3, h4, h5.trans (maskOf_congr fun l hl32 => ?_), h6, h7, _, _, st, _, occ, lat, hk, fun l hl hlv v fl hr => ?_⟩, hf⟩
  · rw [hsd, Bool.false_or]
    cases ha : activeIn s cu l with
    | false => rfl
    | true =>
      rw [Bool.true_and, Bool.true_and, Bool.eq_iff_iff, List.contains_iff_mem, hlive]
      exact and_iff_right ((mem_lanesOf _ _).2 ⟨hl32, ha⟩)
  · have hall : ([inA spec f s cu l, inB spec f s cu l, inC spec f s cu l].take n).all (fun x => decide (x.tag = .v)) = true := by
      obtain rfl | rfl | rfl : n = 0 ∨ n = 1 ∨ n = 2 := by omega
      all_goals exact hlv
    rw [← ftzOf_atIssue spec f s cu] at hr
    obtain ⟨hval, hfl⟩ := hg _ _ _ _ (inC spec f s cu l) (oldOf f s cu l) _ (by rw [ctxOf_f]) hall hr
    rw [hsd, if_neg Bool.false_ne_true]
    have hmem := (hlive l).2 ⟨hl, hlv⟩
    exact ⟨List.mem_map.2 ⟨_, List.mem_map_of_mem hmem, by rw [hval]⟩, List.mem_map.2 ⟨_, List.mem_map_of_mem hmem, by rw [hfl]⟩⟩

theorem quotientsAndRoots : QuotientsAndRoots := by
  intro f i spec n h s cu hrow hi hv he hq hl
  simp only [List.mem_cons, Prod.mk.injEq, List.not_mem_nil, or_false] at hrow
  obtain ⟨rfl, rfl, rfl, rfl⟩ | ⟨rfl, rfl, rfl, rfl⟩ := hrow
  · exact decided_results le_rfl (.head _) (quotient_answers (floatTy_of_issues hi rfl)) hi hv he hq hl
  · exact decided_results one_le_two (.tail _ (.head _)) (root_answers (floatTy_of_issues hi rfl)) hi hv he hq hl

/-! ### The start and the end of an operation (R106, R128) -/

theorem startSfu_eq {s : State} {o : Op} (ho : findOp s o.id = some o) {ws : List (Nat × Nat × TWord)} {fl : List (Nat × BitVec 6)} {b occ lat : Nat}
    {sync : Option (Nat × Word)} {word : Word} (hk : o.kind = .sfu ws fl false b occ lat sync word)
    (hq : (sfuQueue s (quarterOf s o.w)).head?.map Op.id = some o.id)
    (hb : (getQuarter s (quarterOf s o.w)).sfuBusy ≤ (getCore s (coreOf s o.w)).cyc) :
    startSfu o.id s = setQuarter (setOpKind s o.id (.sfu ws fl true (getCore s (coreOf s o.w)).cyc occ lat sync word)) (quarterOf s o.w)
      { getQuarter s (quarterOf s o.w) with sfuBusy := (getCore s (coreOf s o.w)).cyc + occ } := by
  unfold startSfu
  rw [ho]
  dsimp only
  rw [hk]
  exact if_pos ⟨hq, hb⟩

/-- At the end of its latency an operation without a waiting split sets its flags and writes its results. -/
theorem completeSfu_eq {s : State} {o : Op} (ho : findOp s o.id = some o) (hp : o.push = none) {ws : List (Nat × Nat × TWord)}
    {fl : List (Nat × BitVec 6)} {start occ lat : Nat} {word : Word} (hk : o.kind = .sfu ws fl true start occ lat none word)
    (hl : start + lat ≤ (getCore s (coreOf s o.w)).cyc) :
    completeSfu o.id s = finishOp (orFsr s o.w (fl.filter (fun e => e.2 ≠ 0))) o ws := by
  unfold completeSfu finishOp
  rw [ho]
  dsimp only
  rw [hk]
  dsimp only
  rw [if_neg (by omega), hp]

/-- R106: the flags of an operation's lanes are set in fsr. -/
theorem sget_raised (s : State) (w : Nat) {fl : List (Nat × BitVec 6)} (hn : (fl.map (·.1)).Nodup) (h32 : ∀ e ∈ fl, e.1 < 32)
    {e : Nat × BitVec 6} (he : e ∈ fl) :
    sget 0#6 (orFsr s w (fl.filter (fun e => e.2 ≠ 0))).fsr (lkey w e.1) = sget 0#6 s.fsr (lkey w e.1) ||| e.2 := by
  by_cases hz : e.2 = 0
  · rw [orFsr_other, hz]
    · exact BitVec.or_zero.symm
    · intro x hx hk
      obtain ⟨hx, hxz⟩ := List.mem_filter.1 hx
      have hxe : x = e := List.inj_on_of_nodup_map hn hx he (lkey_inj (h32 x hx) (h32 e he) hk).2
      simp [hxe, hz] at hxz
  · exact orFsr_at _ _ _ e (List.mem_filter.2 ⟨he, by simpa using hz⟩) (hn.sublist (List.filter_sublist.map _))

theorem specialFunctionsComplete : SpecialFunctionsComplete := by
  intro s o ho hp
  refine ⟨fun ws fl b occ lat sync word hk hq hb => ?_, fun ws fl start occ lat word hk hl => ?_⟩
  · refine ⟨_, congrArg Host.Outcome.next (startSfu_eq ho hk hq hb), rfl, ?_, ?_⟩
    · exact findOp_setOpKind ho _
    · rw [getQuarter_setQuarter_same]
  · obtain ⟨v, r, p, ops, hf, -⟩ := finishOp_eq hp (orFsr s o.w (fl.filter (fun e => e.2 ≠ 0))) ws
    refine ⟨_, congrArg Host.Outcome.next (completeSfu_eq ho hp hk hl), finishOp_completes _ _ _ _ hp (fun _ _ _ => rfl) ?_, by rw [hf]; rfl,
      by rw [hf]; rfl, fun hn h32 e he => ?_⟩
    · exact List.filter_congr fun e _ => by simp
    · rw [hf]
      exact sget_raised s o.w hn h32 he

/-- Settles O18: the queue by the lanes that go on, the unit's two steps by their cases, quotients and roots by the bits of their operands. -/
theorem specialFunctions : Obligations.SpecialFunctions := ⟨specialFunctionsQueue, specialFunctionsComplete, quotientsAndRoots⟩

end Sys2Proof.Machine
end

section
/-!
R140 to R143: reductions and scans, the quarter's tree being free by the issue.
-/
namespace Sys2Proof.Machine
open Claims

variable {f : Fields} {s : State} {cu : Cur}

/-- Each row runs in the tree, lane by lane with the number of leading lanes that it names (R140, R142). -/
theorem treeRows_exec (f : Fields) : ∀ e ∈ treeRows f, ∃ node : Ctx → Nat → Nat, (∀ s, exec e.1 s = treeExec e.2.1 node f s) ∧
    ∀ c, c.f = f → node c = e.2.2 := by
  simp only [treeRows, List.forall_mem_cons]
  exact ⟨⟨fun _ _ => 32, exec_red f, fun _ _ => rfl⟩, ⟨_, exec_scan f, fun c hc => by rw [hc]⟩, List.forall_mem_nil _⟩

/-- R143: a word whose tree is free by its issue time issues. -/
theorem treeExec_of_free {spec : OpSpec} (node : Ctx → Nat → Nat) (h : issues spec f s cu = true)
    (hb : (getQuarter s (quarterOf s cu.w)).treeBusy ≤ issueTime s cu.w cu.k) : treeExec spec node f s = issue spec f s (redBody spec node) := by
  unfold treeExec
  rw [cur_of_issues h]
  exact if_neg (Nat.not_lt.2 hb)

/-- R141: a word with no stream in D writes each computed lane's own result, with the flags of every node. -/
theorem redBody_eq (spec : OpSpec) (node : Ctx → Nat → Nat) (hd : isQ f.d = false) :
    redBody spec node (ctxOf spec f s cu) (atIssue s cu) = finishFixed (ctxOf spec f s cu) 6
      ((computeLanes (ctxOf spec f s cu)).map (fun l => (l, treeResult spec f s cu (node (ctxOf spec f s cu)) l)))
      (popAll (treeState spec f s cu) cu.w (getSplit s cu.w cu.k).mask (spec.reads f)) := by
  have hflags : ((computeLanes (ctxOf spec f s cu)).map (fun l => (l, redPref (ctxOf spec f s cu) (treeState spec f s cu)
      (node (ctxOf spec f s cu) l)))).foldl (fun x e => x ||| e.2.fl) 0#6 = treeFlags spec f s cu (node (ctxOf spec f s cu)) := List.foldl_map
  unfold treeState at hflags
  unfold redBody
  simp only [ctxOf_f, hd, Bool.false_eq_true, if_false, List.map_map, hflags]
  rfl

/-- Settles O6: red and scan by the number of lanes that each lane folds. -/
theorem reductionsAndScans : Obligations.ReductionsAndScans := by
  intro f i spec n s cu hrow hi hd hb ht
  obtain ⟨node, hexec, hnode⟩ := treeRows_exec f _ hrow
  have hlanes := spread_perLane spec f s cu (treeResult spec f s cu n)
  refine ⟨_, (hexec s).trans ((treeExec_of_free node hi hb).trans (issue_of_issues spec f s _ cu hi)), laneDone_keepReplay _ _ _ _ _ _ _ _ _ ?_⟩
  rw [redBody_eq spec node hd, hnode _ (ctxOf_f spec f s cu), ← hlanes]
  refine finishFixed_done spec 6 f s cu _ _ _ ⟨_, rfl⟩ ?_ ?_
  · rw [hlanes, perLane_lanes]
    rfl
  · rw [hlanes]
    exact lanesTrap_of _ _ ht

end Sys2Proof.Machine
end

section
/-!
R132: bnset.
-/
namespace Sys2Proof.Machine
open Claims

/-! ### Control words (R131) -/

theorem bnKey_inj {w n v m : Nat} (hn : n < 8) (hm : m < 8) (h : bnKey w n = bnKey v m) : w = v ∧ n = m := by
  unfold bnKey at h
  omega

/-- A control word after one has been written. -/
theorem getBn_written {u : State} {m : List (Nat × BitVec 144)} {w n : Nat} {x : BitVec 144} (hu : u.bn = sset 0#144 m (bnKey w n) x)
    (hn : n < 8) {v k : Nat} (hk : k < 8) : getBn u v k = if v = w ∧ k = n then x else sget 0#144 m (bnKey v k) := by
  unfold getBn
  rw [hu]
  split
  · next h => rw [h.1, h.2]; exact sget_sset_same _ _ _ _
  · next h => exact sget_sset_ne _ _ _ _ _ fun hkey => h (bnKey_inj hk hn hkey)

/-! ### The body of bnset by the tags of its operands -/

/-- The operations once bnset has written number n of a warp: an outstanding bnc to it writes no control word (R57). -/
def bnsetOps (w n : Nat) (ops : List Op) : List Op :=
  ops.map (fun o => match o.kind with
    | .bnc n' _ ws => if o.w = w ∧ n' = n then { o with kind := .bnc 8 none ws } else o
    | _ => o)

/-- Everything of an operation but its kind. -/
theorem bnsetOps_keeps (w n : Nat) (ops : List Op) :
    (bnsetOps w n ops).map (fun o => (o.id, o.w, o.lanes, o.cls, o.dst)) = ops.map (fun o => (o.id, o.w, o.lanes, o.cls, o.dst)) := by
  unfold bnsetOps
  rw [List.map_map]
  refine List.map_congr_left fun o _ => ?_
  simp only [Function.comp]
  split
  · split <;> rfl
  · rfl

/-- The state with a control word written at time t. -/
def bnWritten (w n t : Nat) (lanes : Mask) (x : BitVec 144) (s : State) : State :=
  { s with bnPend := { w := w, n := n, old := getBn s w n, land := t + 3, by_ := lanes } :: s.bnPend, bn := sset 0#144 s.bn (bnKey w n) x,
           ops := bnsetOps w n s.ops }

theorem bnsetBody_writes {c : Ctx} {s : State}
    (h : [opA s c (lowLane c.sp.mask), opB s c (lowLane c.sp.mask), opC s c (lowLane c.sp.mask)].all (fun x => decide (x.tag = .v)) = true) :
    bnsetBody c s = advance c (bnWritten c.w (bnNo c.f) c.t c.sp.mask (((opC s c (lowLane c.sp.mask)).data.truncate 16 : BitVec 16) ++
      (opB s c (lowLane c.sp.mask)).data ++ (opA s c (lowLane c.sp.mask)).data) s) :=
  if_neg (not_not.2 ((tagRule_normal_iff _).2 h))

theorem bnsetBody_keeps {c : Ctx} {s : State}
    (h : ¬[opA s c (lowLane c.sp.mask), opB s c (lowLane c.sp.mask), opC s c (lowLane c.sp.mask)].all (fun x => decide (x.tag = .v)) = true) :
    bnsetBody c s = advance c s :=
  if_pos fun hv => h ((tagRule_normal_iff _).1 hv)

/-- R132: bnset by the tags of its three operands. -/
theorem controlWordSet : ControlWordSet := by
  intro f s cu hi l a b c
  refine ⟨_, issue_of_issues specBnset f s bnsetBody cu hi, ?_⟩
  have hv : [a, b, c].all (fun x => decide (x.tag = .v)) = true ↔ a.tag = .v ∧ b.tag = .v ∧ c.tag = .v := by simp
  by_cases h : [a, b, c].all (fun x => decide (x.tag = .v)) = true
  · rw [bnsetBody_writes h]
    refine ⟨goes_keepReplay (goes_advance _ _ _ _ _ rfl), by rw [keepReplay_eq]; rfl, ?_, fun w n hn => ?_⟩
    · rw [keepReplay_ops]
      exact bnsetOps_keeps _ _ _
    · rw [getBn_written (keepReplay_bn _ _ _ _) (Nat.mod_lt _ (by decide)) hn]
      exact if_congr (by simp only [hv.1 h, and_true]; rfl) rfl rfl
  · rw [bnsetBody_keeps h]
    refine ⟨goes_keepReplay (goes_advance _ _ _ _ _ rfl), by rw [keepReplay_eq]; rfl, ?_, fun w n hn => ?_⟩
    · rw [keepReplay_ops]
      rfl
    · rw [if_neg (fun hc => h (hv.2 hc.2.2)), getBn, keepReplay_bn]
      rfl

end Sys2Proof.Machine
end

section
/-!
R134, R135: bnc from its issue to the operation it starts, and BNC_COMPLETE.
-/
namespace Sys2Proof.Machine
open Claims

/-! ### A word that settles some lanes and starts an operation (R39, R56) -/

/-- What a word leaves that pops its queues, has `settled` stand in D, and starts one operation, whatever lanes it settles. -/
structure SettledAndStarted (reads : List (BitVec 8)) (f : Fields) (settled : List (Nat × TWord)) (cls : Counter) (mask : Mask) (p : Op → Prop)
    (s : State) (cu : Cur) (t : State) : Prop where
  goes : Goes f s cu t
  mem : t.mem = s.mem
  fsr : t.fsr = s.fsr
  bn : t.bn = s.bn
  queues : PopsQueues reads s cu t
  regs : ∀ w r l, rdReg t w r l = rdReg (wrReg s cu.w f.d.toNat settled) w r l
  starts : Starts (some cls) mask p s cu t

variable {f : Fields} {s : State} {cu : Cur}

theorem startVar_leaves (spec : OpSpec) (reads : List (BitVec 8)) (settled : List (Nat × TWord)) (cls : Counter) (mask : Mask) (lanes : List Nat)
    (kind : OpKind) (hd : isQ f.d = false) :
    SettledAndStarted reads f settled cls mask (fun o => o.dst = dstOf f.d.toNat lanes ∧ o.kind = kind) s cu
      (keepReplay spec (ctxOf spec f s cu) (atIssue s cu) (startVar (ctxOf spec f s cu) cls mask lanes kind
        (writeNow (popAll (atIssue s cu) cu.w (getSplit s cu.w cu.k).mask reads) cu.w f.d.toNat settled))) := by
  have hpops := getQueue_popAll (atIssue s cu) cu.w (getSplit s cu.w cu.k).mask reads
  set u := popAll (atIssue s cu) cu.w (getSplit s cu.w cu.k).mask reads with hu
  rw [startVar_eq _ _ _ _ _ _ hd]
  refine ⟨goes_keepReplay (goes_advance _ _ _ _ _ (by simp [hu])), by simp [hu], by simp [hu], by simp [hu], fun w l q hl hq => ?_,
    fun w r l => ?_, ⟨_, _, by rw [keepReplay_ops, advance_ops], (writeNow_bare _ _ _ _).trans (by simp [hu]), ?_, rfl, rfl, rfl, rfl, rfl, rfl⟩, ?_⟩
  · rw [getQueue, keepReplay_queues, advance_queues]
    exact (by simp [getQueue] : _ = getQueue u w l q).trans (hpops w l q hl hq)
  · rw [rdReg_keepReplay]
    exact (rdReg_writeNow u cu.w f.d.toNat settled w r l).trans (rdReg_wrReg_congr (by simp [hu]) (by simp [hu]) _ _ _ _ _ _)
  · simp [hu]
  · simp [hu]

/-- Registers but D keep their words where the settled lanes are active. -/
theorem SettledAndStarted.keepsRegs {reads : List (BitVec 8)} {settled : List (Nat × TWord)} {cls : Counter} {mask : Mask} {p : Op → Prop} {t : State}
    (h : SettledAndStarted reads f settled cls mask p s cu t) (hs : ∀ e ∈ settled, e.1 ∈ activeLanes s cu) : KeepsRegs f.d.toNat s cu t := by
  intro w r l hl hne
  rw [h.regs]
  refine rdReg_wrReg_other _ _ _ _ _ _ _ hl (fun e he => lanesOf_lt (hs e he)) ?_
  rintro ⟨hw, hr, hm⟩
  refine hne ⟨hw, hr, fun hv => ?_⟩
  obtain ⟨e, he, rfl⟩ := List.mem_map.1 (hm hv)
  exact ((mem_lanesOf _ _).1 (hs e he)).2

/-! ### The lanes of bnc (R134, R135) -/

/-- Some lane holds an X operand. -/
def bncPoisoned (c : Ctx) (s : State) : Bool := (actives c).any (fun l => decide ((opA s c l).tag = .x))

/-- A lane is left to the operation: beside an X every lane that is not X, otherwise a V lane. -/
def bncGoesOn (c : Ctx) (s : State) (l : Nat) : Bool :=
  if bncPoisoned c s then decide ((opA s c l).tag ≠ .x) else decide ((opA s c l).tag = .v)

/-- The lanes left to the operation. -/
def bncLive (c : Ctx) (s : State) : List Nat := (actives c).filter (bncGoesOn c s)

/-- The word that stands at once in a lane that is not left to the operation. -/
def bncSettledWord (c : Ctx) (s : State) (l : Nat) : TWord := if bncPoisoned c s then ⟨.x, (opA s c l).data⟩ else ⟨.n, (oldD s c l).data⟩

/-- The other lanes, with their words. -/
def bncSettled (c : Ctx) (s : State) : List (Nat × TWord) :=
  ((actives c).filter (fun l => !bncGoesOn c s l)).map (fun l => (l, bncSettledWord c s l))

/-- The requests of the V lanes. -/
def bncReqs (c : Ctx) (s : State) : List (Nat × Nat) :=
  ((actives c).filter (fun l => (opA s c l).tag = .v)).map (fun l => (l, (opA s c l).data.toNat))

/-- The word routes: no operand is X, and the requests name distinct lanes. -/
def bncGood (c : Ctx) (s : State) : Bool :=
  !bncPoisoned c s && (bncReqs c s).all (fun r => decide (r.2 < 32)) && decide (((bncReqs c s).map (·.2)).Nodup)

variable {c : Ctx} {u : State}

/-- The lanes whose word stands at once: the X lanes, or the N lanes where there is none. -/
theorem not_bncGoesOn {l : Nat} (hl : l ∈ actives c) : (!bncGoesOn c u l) = decide ((opA u c l).tag = if bncPoisoned c u then .x else .n) := by
  unfold bncGoesOn
  cases hp : bncPoisoned c u with
  | true => simp
  | false =>
    have hx : (opA u c l).tag ≠ .x := by simpa using List.any_eq_false.1 hp l hl
    cases ht : (opA u c l).tag with
    | v => rfl
    | n => rfl
    | x => exact absurd ht hx

theorem contains_bncLive {l : Nat} (hl : l ∈ actives c) : (bncLive c u).contains l = bncGoesOn c u l := by
  rw [Bool.eq_iff_iff, List.contains_iff_mem, bncLive, List.mem_filter, and_iff_right hl]

theorem mem_bncSettled {e : Nat × TWord} : e ∈ bncSettled c u ↔ e.1 ∈ actives c ∧ bncGoesOn c u e.1 = false ∧ e.2 = bncSettledWord c u e.1 := by
  unfold bncSettled
  rw [List.mem_map]
  constructor
  · rintro ⟨l, hl, rfl⟩
    obtain ⟨hl, hg⟩ := List.mem_filter.1 hl
    exact ⟨hl, by simpa using hg, rfl⟩
  · rintro ⟨hl, hg, he⟩
    exact ⟨e.1, List.mem_filter.2 ⟨hl, by simp [hg]⟩, Prod.ext rfl he.symm⟩

theorem bncSettled_nodup : ((bncSettled c u).map (·.1)).Nodup := by
  unfold bncSettled
  rw [List.map_map]
  exact (List.map_id _).symm ▸ (lanesOf_nodup _).filter _

theorem xLanes_isEmpty : ((actives c).filter (fun l => decide ((opA u c l).tag = .x))).isEmpty = !bncPoisoned c u := by
  unfold bncPoisoned
  rw [Bool.eq_iff_iff, List.isEmpty_iff, List.filter_eq_nil_iff, Bool.not_eq_true', List.any_eq_false]

/-- The words that the model settles, `g` giving those of the N and X lanes. -/
theorem settled_bnc {g : Nat → Nat × TWord} (hn : ∀ l, (opA u c l).tag = .n → g l = (l, ⟨.n, (oldD u c l).data⟩))
    (hx : ∀ l, (opA u c l).tag = .x → g l = (l, ⟨.x, (opA u c l).data⟩)) :
    (if ((actives c).filter (fun l => decide ((opA u c l).tag = .x))).isEmpty = true then
      (actives c).filter (fun l => decide ((opA u c l).tag = .n)) else (actives c).filter (fun l => decide ((opA u c l).tag = .x))).map g =
      bncSettled c u := by
  rw [xLanes_isEmpty]
  unfold bncSettled bncSettledWord
  rw [List.filter_congr fun l hl => not_bncGoesOn hl]
  cases bncPoisoned c u with
  | true => exact List.map_congr_left fun l hl => hx l (of_decide_eq_true (List.mem_filter.1 hl).2)
  | false => exact List.map_congr_left fun l hl => hn l (of_decide_eq_true (List.mem_filter.1 hl).2)

/-- The lanes that it does not settle go on. -/
theorem unsettled_bnc : (actives c).filter (fun l => !(bncSettled c u).any (fun e => decide (e.1 = l))) = bncLive c u := by
  refine List.filter_congr fun l hl => ?_
  have hany : (bncSettled c u).any (fun e => decide (e.1 = l)) = !bncGoesOn c u l := by
    rw [Bool.eq_iff_iff, List.any_eq_true, Bool.not_eq_true']
    constructor
    · rintro ⟨e, he, hel⟩
      obtain rfl := of_decide_eq_true hel
      exact (mem_bncSettled.1 he).2.1
    · exact fun hg => ⟨(l, bncSettledWord c u l), mem_bncSettled.2 ⟨hl, hg, rfl⟩, decide_eq_true rfl⟩
  rw [hany, Bool.not_not]

/-- The model's test of the requests. -/
theorem bncGood_eq : (((actives c).filter (fun l => decide ((opA u c l).tag = .x))).isEmpty &&
    !((bncReqs c u).any (fun r => decide (r.2 ≥ 32)) || !decide (((bncReqs c u).map (·.2)).Nodup))) = bncGood c u := by
  unfold bncGood
  rw [xLanes_isEmpty, Bool.not_or, Bool.not_not, List.not_any_eq_all_not, Bool.and_assoc]
  simp only [ge_iff_le, ← Nat.not_lt, decide_not, Bool.not_not]

/-- The lanes that the operation counts for: those left to it, or every lane where none is (log 27). -/
def bncMask (c : Ctx) (s : State) : Mask := maskOf (fun l => c.sp.mask.getLsbD l && ((bncLive c s).contains l || (bncLive c s).isEmpty))

/-- The operation of bnc: its control word where it routes, and the answers of the lanes left to it. -/
def bncKind (c : Ctx) (s : State) : OpKind :=
  .bnc (bnNo c.f) (if bncGood c s then some (bncWord (bncComplete (bncReqs c s))) else none)
    ((bncLive c s).map (fun l => (c.f.d.toNat, l, if bncGood c s then ⟨.v, 1⟩ else ⟨.n, 0⟩)))

/-- R134: the body of bnc where D is no stream. -/
theorem bncBody_eq (hd : isQ c.f.d = false) :
    bncBody c u = startVar c .ld (bncMask c u) (bncLive c u) (bncKind c u)
      (writeNow (popAll u c.w c.sp.mask [c.f.a]) c.w c.f.d.toNat (bncSettled c u)) := by
  have hg := bncGood_eq (c := c) (u := u)
  unfold bncReqs at hg
  unfold bncBody
  dsimp only
  rw [settled_bnc, unsettled_bnc, hg]
  · simp only [settledPoison, pushGate, settleNow, hd, Bool.false_and, Bool.false_eq_true, if_false, Bool.not_false, if_true]
    rfl
  all_goals
    intro l ht
    simp only [ht]

/-- R135: a word whose unit is free issues. -/
theorem execBnc_of_free (h : issues specBnc f s cu = true) (hb : bncBusy s cu.w = false) : execBnc f s = issue specBnc f s bncBody := by
  unfold execBnc
  rw [cur_of_issues h]
  simp only [hb, Bool.false_eq_true, if_false]

/-- What stands in a vector D at once: the settled words, and the old words of the other lanes. -/
theorem rdReg_bncSettled {l : Nat} (hl : l ∈ activeLanes s cu) (hv : isV f.d = true) :
    rdReg (wrReg s cu.w f.d.toNat (bncSettled (ctxOf specBnc f s cu) (atIssue s cu))) cu.w f.d.toNat l =
      if bncGoesOn (ctxOf specBnc f s cu) (atIssue s cu) l then oldOf f s cu l else bncSettledWord (ctxOf specBnc f s cu) (atIssue s cu) l := by
  have hd : f.d.toNat < 0xC0 := of_decide_eq_true hv
  cases hg : bncGoesOn (ctxOf specBnc f s cu) (atIssue s cu) l with
  | true =>
    refine rdReg_wrReg_other _ _ _ _ _ _ _ (lanesOf_lt hl) (fun e he => lanesOf_lt (mem_bncSettled.1 he).1) ?_
    rintro ⟨-, -, hm⟩
    obtain ⟨e, he, rfl⟩ := List.mem_map.1 (hm hd)
    exact Bool.false_ne_true ((mem_bncSettled.1 he).2.1.symm.trans hg)
  | false => exact rdReg_wrReg_vector _ _ _ _ _ _ hd (mem_bncSettled.2 ⟨hl, hg, rfl⟩) bncSettled_nodup

/-- R134, R135: a word of bnc settles its X lanes, or where there is none its N lanes, and starts its operation. -/
theorem bnc_leaves (h : issues specBnc f s cu = true) (hd : isQ f.d = false) (hb : bncBusy s cu.w = false) :
    ∃ t, exec (.bnc f) s = .next t ∧ SettledAndStarted [f.a] f (bncSettled (ctxOf specBnc f s cu) (atIssue s cu)) .ld
      (bncMask (ctxOf specBnc f s cu) (atIssue s cu)) (fun o => o.dst = dstOf f.d.toNat (bncLive (ctxOf specBnc f s cu) (atIssue s cu)) ∧
        o.kind = bncKind (ctxOf specBnc f s cu) (atIssue s cu)) s cu t := by
  refine ⟨_, ((exec_bnc f s).trans (execBnc_of_free h hb)).trans (issue_of_issues specBnc f s bncBody cu h), ?_⟩
  rw [bncBody_eq (c := ctxOf specBnc f s cu) hd]
  exact startVar_leaves specBnc [f.a] _ .ld _ _ _ hd

/-- R134, R135: what stands in D at once, and what the operation holds. -/
theorem benesRoutingQueues : BenesRoutingQueues := by
  intro f s cu hi hd hb tag reqs anyX good live
  obtain ⟨t, ht, hleaves⟩ := bnc_leaves hi hd hb
  refine ⟨t, ht, hleaves.goes, hleaves.mem, hleaves.fsr, hleaves.bn, hleaves.queues, hleaves.keepsRegs fun e he => (mem_bncSettled.1 he).1,
    fun l hl hv => ?_, hleaves.starts⟩
  rw [hleaves.regs, rdReg_bncSettled hl hv, ← contains_bncLive (c := ctxOf specBnc f s cu) (u := atIssue s cu) hl]
  rfl

/-! ### BNC_COMPLETE (R135) -/

/-- The state whose registers take the results of a bnc: its control word, where there is one, has been written. -/
def bncRouted (o : Op) (n : Nat) (ctl : Option (BitVec 144)) (s : State) : State :=
  match ctl with
  | some v => { s with bn := sset 0#144 s.bn (bnKey o.w n) v, bnPend := s.bnPend.filter (fun p => !(decide (p.w = o.w) && decide (p.n = n))) }
  | none => s

theorem bncRouted_eq (o : Op) (n : Nat) (ctl : Option (BitVec 144)) (s : State) :
    ∃ b p, bncRouted o n ctl s = { s with bn := b, bnPend := p } := by
  cases ctl with
  | some v => exact ⟨_, _, rfl⟩
  | none => exact ⟨s.bn, s.bnPend, rfl⟩

/-- R135: the control words once an operation has been routed. -/
theorem getBn_bncRouted (o : Op) {n : Nat} (ctl : Option (BitVec 144)) (s : State) (hn : n < 8) (w : Nat) {m : Nat} (hm : m < 8) :
    getBn (bncRouted o n ctl s) w m = if w = o.w ∧ m = n then ctl.getD (getBn s w m) else getBn s w m := by
  cases ctl with
  | some v => exact getBn_written rfl hn hm
  | none => exact (ite_self _).symm

theorem execBncComplete_eq {s : State} {o : Op} {n : Nat} {ctl : Option (BitVec 144)} {ws : List (Nat × Nat × TWord)}
    (ho : findOp s o.id = some o) (hk : o.kind = .bnc n ctl ws) : execBncComplete o.id s = .next (finishOp (bncRouted o n ctl s) o ws) := by
  unfold execBncComplete
  rw [ho]
  dsimp only
  rw [hk]
  cases ctl <;> rfl

/-- R135: the operation writes its control word and its results in one step. -/
theorem benesRoutingCompletes : BenesRoutingCompletes := by
  intro s o n ctl ws ho hp hk hn
  obtain ⟨b, q, hr⟩ := bncRouted_eq o n ctl s
  obtain ⟨v, r, p, ops, hf, -⟩ := finishOp_eq hp (bncRouted o n ctl s) ws
  refine ⟨_, (exec_bncComplete o.id s).trans (execBncComplete_eq ho hk), finishOp_completes _ _ _ _ hp (fun _ _ _ => by rw [hr]; rfl) ?_,
    by rw [hf, hr], by rw [hf, hr], by rw [hf, hr], fun w m hm => ?_⟩
  · rw [hr]
    exact List.filter_congr fun e _ => by simp
  · rw [← getBn_bncRouted o ctl s hn w hm, hf]
    rfl

/-- Settles O19: bnset by the tags of its operands, bnc by the lanes it settles and those it leaves, BNC_COMPLETE by its control word. -/
theorem benesRouting : Obligations.BenesRouting := ⟨controlWordSet, benesRoutingQueues, benesRoutingCompletes⟩

end Sys2Proof.Machine
end

section
/-!
R144, R145: lanes of masks, entries of the split table, and the division of a split into groups.
-/
namespace Sys2Proof.Machine
open Claims

/-! ### Lanes of masks -/

theorem getLsbD_foldl_or (p : Nat → Bool) (ls : List Nat) (m : Mask) {l : Nat} (hl : l < 32) :
    (ls.foldl (fun m l => if p l then m ||| BitVec.twoPow 32 l else m) m).getLsbD l = (m.getLsbD l || (ls.contains l && p l)) := by
  induction ls generalizing m with
  | nil => simp
  | cons a r ih =>
    rw [List.foldl_cons, ih, List.contains_cons]
    by_cases h : l = a
    · subst h
      cases hp : p l <;> simp [hl]
    · have hne : (l == a) = false := beq_eq_false_iff_ne.2 h
      have hne' : ¬a = l := fun e => h e.symm
      rw [hne, Bool.false_or]
      cases hp : p a <;> simp [hne', BitVec.getLsbD_twoPow]

/-- The lanes of a mask made from a predicate. -/
theorem getLsbD_maskOf (p : Nat → Bool) {l : Nat} (hl : l < 32) : (maskOf p).getLsbD l = p l := by
  rw [maskOf, getLsbD_foldl_or p _ _ hl]
  simp [hl]

/-- Masks with the same lanes. -/
theorem mask_ext {m n : Mask} (h : ∀ l < 32, m.getLsbD l = n.getLsbD l) : m = n := BitVec.eq_of_getLsbD_eq h

/-- A mask within another is its own part of it. -/
theorem and_maskOf {p : Nat → Bool} {m : Mask} (h : ∀ l, p l = true → m.getLsbD l = true) : m &&& maskOf p = maskOf p :=
  mask_ext fun l hl => by
    rw [BitVec.getLsbD_and, getLsbD_maskOf p hl]
    cases hp : p l with
    | false => simp
    | true => simp [h l hp]

theorem lowLane_mem {m : Mask} (h : m ≠ 0) : lowLane m ∈ lanesOf m := by
  unfold lowLane
  cases hl : lanesOf m with
  | nil =>
    refine absurd (mask_ext fun l hlt => ?_) h
    have hn : l ∉ lanesOf m := by rw [hl]; exact List.not_mem_nil
    rw [mem_lanesOf, not_and, Bool.not_eq_true] at hn
    rw [hn hlt]
    exact BitVec.getLsbD_zero.symm
  | cons a r => exact List.mem_cons_self

/-- Masks without a common lane have different lowest lanes. -/
theorem lowLane_ne {m n : Mask} (hm : m ≠ 0) (hn : n ≠ 0) (h : m &&& n = 0) : lowLane m ≠ lowLane n := by
  intro he
  have h1 := ((mem_lanesOf _ _).1 (lowLane_mem hm)).2
  have h2 := ((mem_lanesOf _ _).1 (lowLane_mem hn)).2
  rw [← he] at h2
  have h3 := BitVec.getLsbD_and (x := m) (y := n) (i := lowLane m)
  rw [h, h1, h2] at h3
  simp at h3

/-! ### Entries of the split table (R144) -/

/-- Writing an entry that is present leaves the number of entries. -/
theorem length_sset_of_present {β : Type} [DecidableEq β] {d : β} {m : List (Nat × β)} {k : Nat} {v : β} (hm : swf d m = true)
    (hk : sget d m k ≠ d) (hv : v ≠ d) : (sset d m k v).length = m.length := by
  induction m with
  | nil => exact absurd rfl hk
  | cons e r ih =>
    obtain ⟨j, x⟩ := e
    simp only [swf, Bool.and_eq_true] at hm
    rcases Nat.lt_trichotomy k j with h | h | h
    · exact absurd (by rw [sget, if_neg (by omega), if_pos h]) hk
    · subst h
      simp [sset, hv]
    · rw [sget, if_neg (by omega), if_neg (by omega)] at hk
      rw [sset, if_neg (by omega), if_neg (by omega), List.length_cons, List.length_cons, ih hm.2 hk]

/-- An entry with lanes is a valid one. -/
theorem ne_noSplit {sp : Split} (h : sp.mask ≠ 0) : sp ≠ noSplit := fun he => h (congrArg Split.mask he)

/-- The lowest free entry, where one is free. -/
theorem freeEntry_free {s : State} {w : Nat} (h : ∃ k < 32, (getSplit s w k).mask = 0) : (getSplit s w (freeEntry s w)).mask = 0 := by
  unfold freeEntry
  cases hf : (List.range 32).find? (fun k => decide ((getSplit s w k).mask = 0)) with
  | none =>
    obtain ⟨k, hk, hz⟩ := h
    exact absurd hz (by simpa using List.find?_eq_none.1 hf k (List.mem_range.2 hk))
  | some k => simpa using List.find?_some hf

theorem getSplit_addSplit_free (s : State) (w : Nat) (sp : Split) :
    getSplit (addSplit s w sp) w (freeEntry s w) = { sp with age := (validSplits s w).length } := getSplit_setSplit_same _ _ _ _

theorem getSplit_addSplit_ne {s : State} {w k : Nat} (sp : Split) (h : k ≠ freeEntry s w) : getSplit (addSplit s w sp) w k = getSplit s w k :=
  getSplit_setSplit_ne _ _ _ _ _ h

theorem getWarp_addSplit_ne {s : State} {w v : Nat} (sp : Split) (h : v ≠ w) : getWarp (addSplit s w sp) v = getWarp s v :=
  getWarp_setSplit_ne _ _ _ _ _ h

/-- An entry that has been removed has no lane. -/
theorem getSplit_removeSplit (s : State) (w k : Nat) : getSplit (removeSplit s w k) w k = noSplit := by
  unfold getSplit removeSplit
  rw [getWarp_setWarp_same]
  have hm := sget_map_snd noSplit (fun _ (x : Split) => if x.age > (getSplit s w k).age then { x with age := x.age - 1 } else x)
    (sset noSplit (getWarp s w).splits k noSplit) k (if_neg (Nat.not_lt_zero _))
  rw [sget_sset_same] at hm
  exact hm.trans (if_neg (Nat.not_lt_zero _))

/-! ### A step to the next word, a loop counter (R44, R144) -/

theorem stepSplit_eq (sp : Split) :
    ∃ rem wpos hdr, stepSplit sp = { sp with
      pc := sp.pc + 8, rem := rem, wpos := wpos, hdr := hdr, starve := 0, susp := none, denied := [], stalled := none, latch := [] } := by
  unfold stepSplit
  dsimp only
  split
  · exact ⟨0, 0, none, rfl⟩
  · exact ⟨_, _, sp.hdr, rfl⟩

theorem setLc_eq (sp : Split) (i : Nat) (v : BitVec 32) : ∃ a b c, setLc sp i v = { sp with lc0 := a, lc1 := b, lc2 := c } := by
  unfold setLc
  split
  · exact ⟨v, sp.lc1, sp.lc2, rfl⟩
  · split
    · exact ⟨sp.lc0, v, sp.lc2, rfl⟩
    · exact ⟨sp.lc0, sp.lc1, v, rfl⟩

@[simp] theorem getLc_setLc_same (sp : Split) (i : Nat) (v : BitVec 32) : getLc (setLc sp i v) i = v := by
  unfold getLc setLc
  split
  · rfl
  · split <;> rfl

/-- The loop counter that a branch clears, set aside from the rest of the split. -/
theorem clearedLc_eq (sp : Split) (clear : Option Nat) : ∃ a b c, clearedLc sp clear = { sp with lc0 := a, lc1 := b, lc2 := c } := by
  cases clear with
  | none => exact ⟨sp.lc0, sp.lc1, sp.lc2, rfl⟩
  | some i => exact setLc_eq sp i 0

/-- A loop counter depends on the loop counters alone. -/
theorem getLc_congr {x y : Split} (h0 : x.lc0 = y.lc0) (h1 : x.lc1 = y.lc1) (h2 : x.lc2 = y.lc2) (i : Nat) : getLc x i = getLc y i := by
  unfold getLc
  rw [h0, h1, h2]

/-! ### The split of a group (R145) -/

/-- Clearing a loop counter leaves the lanes and the handlers that a group is given. -/
theorem clearedLc_group (sp : Split) (m : Mask) (hs : List Handler) (clear : Option Nat) :
    clearedLc { sp with mask := m, hs := hs } clear = { clearedLc sp clear with mask := m, hs := hs } := by
  cases clear with
  | none => rfl
  | some i =>
    simp only [clearedLc, setLc]
    by_cases h0 : i = 0
    · simp only [if_pos h0]
    · by_cases h1 : i = 1
      · simp only [if_neg h0, if_pos h1]
      · simp only [if_neg h0, if_neg h1]

/-- The lanes that fall through. -/
def fallGroup (m : Mask) : Group := { mask := m, target := none, clear := none }

/-- The lanes sent to an address, with the loop counter that they clear. -/
def sentGroup (m : Mask) (target : BitVec 56) (far : BitVec 8) (clear : Option Nat) : Group :=
  { mask := m, target := some target, clear := clear, far := far }

/-- Lanes that fall through in the entry that is kept. -/
theorem groupSplit_fall (c : Ctx) (near : Bool) (sp : Split) (m : Mask) :
    groupSplit c near true sp (fallGroup m) = { stepSplit sp with mask := m, next := c.t + stallOf c.f } := by
  simp only [groupSplit, fallGroup, if_true, stepSplit]
  split <;> rfl

/-- Lanes that are sent to an address. -/
theorem groupSplit_sent (c : Ctx) (near keeps : Bool) (sp : Split) (m : Mask) (target : BitVec 56) (far : BitVec 8) (clear : Option Nat) :
    groupSplit c near keeps sp (sentGroup m target far clear) =
      { sendTo { clearedLc sp clear with mask := m, hs := if keeps then sp.hs else [] } target (transferTime c.t c.f near) with
        starve := if keeps then 0 else sp.starve, far := far } := by
  rw [← clearedLc_group]
  cases clear <;> rfl

/-- What every group's split has of the split that divides. -/
structure OfGroup (sp : Split) (g : Group) (x : Split) : Prop where
  mask : x.mask = g.mask
  pc : x.pc = g.target.getD (sp.pc + 8)
  far : g.target.isSome = true → x.far = g.far
  sup : x.sup = sp.sup
  lc : ∀ i, getLc x i = getLc (clearedLc sp g.clear) i

/-- A group's split is one of the group, with the rank of the split that divides. -/
theorem ofGroup_groupSplit (c : Ctx) (near keeps : Bool) (sp : Split) (g : Group) :
    OfGroup sp g (groupSplit c near keeps sp g) ∧ (groupSplit c near keeps sp g).age = sp.age := by
  obtain ⟨m, target, clear, far⟩ := g
  obtain ⟨l0, l1, l2, hc⟩ := clearedLc_eq sp clear
  cases target with
  | none =>
    obtain ⟨rem, wpos, hdr, h⟩ := stepSplit_eq (clearedLc { sp with mask := m, hs := if keeps then sp.hs else [] } clear)
    have hg : groupSplit c near keeps sp ⟨m, none, clear, far⟩ =
        if keeps then { stepSplit (clearedLc { sp with mask := m, hs := if keeps then sp.hs else [] } clear) with next := c.t + stallOf c.f }
        else { stepSplit (clearedLc { sp with mask := m, hs := if keeps then sp.hs else [] } clear) with
          next := c.t + stallOf c.f, starve := sp.starve, rhold := 0 } := by cases clear <;> rfl
    rw [hg, h, clearedLc_group, hc]
    have hlc : ∀ i, getLc { sp with lc0 := l0, lc1 := l1, lc2 := l2 } i = getLc (clearedLc sp clear) i := fun i => by rw [hc]
    split <;> exact ⟨⟨rfl, rfl, fun h => absurd h Bool.false_ne_true, rfl, hlc⟩, rfl⟩
  | some a =>
    have hg := groupSplit_sent c near keeps sp m a far clear
    rw [sentGroup] at hg
    rw [hg]
    refine ⟨⟨rfl, rfl, fun _ => rfl, ?_, fun i => getLc_congr rfl rfl rfl i⟩, ?_⟩ <;> rw [hc] <;> rfl

theorem OfGroup.aged {sp : Split} {g : Group} {x : Split} (h : OfGroup sp g x) (n : Nat) : OfGroup sp g { x with age := n } :=
  ⟨h.mask, h.pc, h.far, h.sup, fun i => (getLc_congr rfl rfl rfl i).trans (h.lc i)⟩

/-! ### The division of a split (R145) -/

/-- Groups without lanes are no groups. -/
theorem divide_congr (c : Ctx) (near : Bool) {gs gs' : List Group} (s : State)
    (h : gs.filter (fun g => g.mask ≠ 0) = gs'.filter (fun g => g.mask ≠ 0)) : divide c near gs s = divide c near gs' s := by
  unfold divide
  simp only [h]

/-- A division changes warps alone. -/
theorem divide_eq (c : Ctx) (near : Bool) (gs : List Group) (s : State) : ∃ x, divide c near gs s = { s with warps := x } := by
  unfold divide
  dsimp only
  split
  · exact ⟨_, rfl⟩
  · next g0 _ =>
    obtain ⟨x, h⟩ := foldl_warps (fun s g => addSplit s c.w (groupSplit c near false (getSplit s c.w c.k) g)) (fun _ _ => ⟨_, rfl⟩) [] s
    exact foldl_warps (fun s g => addSplit s c.w _) (fun _ _ => ⟨_, rfl⟩) _ (setSplit s c.w c.k _)

/-- A division is of one warp. -/
theorem getWarp_divide_ne (c : Ctx) (near : Bool) (gs : List Group) (s : State) {w : Nat} (h : w ≠ c.w) : getWarp (divide c near gs s) w = getWarp s w := by
  have hadd : ∀ (sp : Split) (gs : List Group) (s : State),
      getWarp (gs.foldl (fun s g => addSplit s c.w (groupSplit c near false sp g)) s) w = getWarp s w := fun sp gs => by
    induction gs with
    | nil => exact fun _ => rfl
    | cons g r ih => exact fun s => (ih _).trans (getWarp_addSplit_ne _ h)
  unfold divide
  dsimp only
  split
  · exact getWarp_setWarp_ne _ _ _ _ h
  · rw [hadd, getWarp_setSplit_ne _ _ _ _ _ h]

theorem groups_with_lanes {g : Group} (gs : List Group) (h : g.mask ≠ 0) :
    (g :: gs).filter (fun g => g.mask ≠ 0) = g :: gs.filter (fun g => g.mask ≠ 0) :=
  List.filter_cons_of_pos (p := fun g : Group => decide (g.mask ≠ 0)) (decide_eq_true h)

theorem groups_without_lanes {g : Group} (gs : List Group) (h : g.mask = 0) :
    (g :: gs).filter (fun g => g.mask ≠ 0) = gs.filter (fun g => g.mask ≠ 0) :=
  List.filter_cons_of_neg (p := fun g : Group => decide (g.mask ≠ 0)) (by simp [h])

/-- With no lane left the entry is removed. -/
theorem divide_none (c : Ctx) (near : Bool) (gs : List Group) (s : State) (h : gs.filter (fun g => g.mask ≠ 0) = []) :
    divide c near gs s = removeSplit s c.w c.k := by
  rw [divide_congr c near s (gs' := []) (by rw [h]; rfl)]
  unfold divide
  simp [joinFall]

theorem joinFall_single (next : BitVec 56) (g : Group) : joinFall next [g] = [g] := by
  unfold joinFall
  cases ht : g.target <;> simp [ht]

/-- One group keeps the entry. -/
theorem divide_single (c : Ctx) (near : Bool) (gs : List Group) (s : State) {g : Group} (h : gs.filter (fun g => g.mask ≠ 0) = [g]) :
    divide c near gs s = setSplit s c.w c.k (groupSplit c near true (getSplit s c.w c.k) g) := by
  have hpick : (if (getSplit s c.w c.k).rem > 1 then [g].find? (fun g => g.target.isNone) else none).or [g].head? = some g := by
    split
    · cases ht : g.target <;> simp [ht]
    · rfl
  have hrest : [g].filter (fun x => decide (x.mask ≠ g.mask)) = [] := by simp
  unfold divide
  simp only [h, joinFall_single, ite_self, List.insertionSort_cons, List.insertionSort_nil, List.orderedInsert_nil, hpick, hrest, List.foldl_nil]

/-- The lanes that fall through keep the entry: before the clause ends, and at its end where theirs is the lowest lane (log 16). -/
def fallKeeps (sp : Split) (fall sent : Mask) : Prop := 1 < sp.rem ∨ lowLane fall < lowLane sent

/-- Lanes sent elsewhere than to the next word do not join those that fall through. -/
theorem joinFall_pair {next target : BitVec 56} {far : BitVec 8} {clear : Option Nat} (fall sent : Mask)
    (h : ¬(target = next ∧ clear = none ∧ far = 0)) :
    joinFall next [fallGroup fall, sentGroup sent target far clear] = [fallGroup fall, sentGroup sent target far clear] := by
  have hsame : (decide (some target = some next) && clear.isNone && decide (far = 0)) = false := by
    rw [← Bool.not_eq_true]
    simpa [and_assoc] using h
  simp only [joinFall, List.find?_cons, sentGroup, hsame]
  rfl

/-- Two groups of which `keep` is chosen: the other one becomes the youngest split. -/
theorem divide_of_pick (c : Ctx) (near : Bool) (s : State) {gs xs : List Group} {keep go : Group} (hgs : gs.filter (fun g => g.mask ≠ 0) = gs)
    (hjoin : (getSplit s c.w c.k).rem ≤ 1 → joinFall ((getSplit s c.w c.k).pc + 8) gs = gs)
    (hsort : List.insertionSort (fun x y => lowLane x.mask ≤ lowLane y.mask) gs = xs) (hxs : xs = [keep, go] ∨ xs = [go, keep])
    (hne : keep.mask ≠ go.mask)
    (hpick : (if (getSplit s c.w c.k).rem > 1 then xs.find? (fun g => g.target.isNone) else none).or xs.head? = some keep) :
    divide c near gs s =
      addSplit (setSplit s c.w c.k (groupSplit c near true (getSplit s c.w c.k) keep)) c.w (groupSplit c near false (getSplit s c.w c.k) go) := by
  have hj : (if (getSplit s c.w c.k).rem ≤ 1 then joinFall ((getSplit s c.w c.k).pc + 8) gs else gs) = gs := by
    split
    · next h => exact hjoin h
    · rfl
  have hrest : xs.filter (fun g => decide (g.mask ≠ keep.mask)) = [go] := by
    rcases hxs with rfl | rfl <;> simp [hne.symm]
  unfold divide
  simp only [hgs, hj, hsort, hpick, hrest, List.foldl_cons, List.foldl_nil]

/-- R145, log 16: two groups, of which one keeps the entry and the other becomes the youngest split. -/
theorem divide_pair (c : Ctx) (near : Bool) (s : State) {fall sent : Mask} {target : BitVec 56} {far : BitVec 8} {clear : Option Nat}
    (hf : fall ≠ 0) (hs : sent ≠ 0) (hd : fall &&& sent = 0)
    (hn : ¬((getSplit s c.w c.k).rem ≤ 1 ∧ target = (getSplit s c.w c.k).pc + 8 ∧ clear = none ∧ far = 0)) :
    ∃ keep go, (fallKeeps (getSplit s c.w c.k) fall sent ∧ keep = fallGroup fall ∧ go = sentGroup sent target far clear ∨
        ¬fallKeeps (getSplit s c.w c.k) fall sent ∧ keep = sentGroup sent target far clear ∧ go = fallGroup fall) ∧
      divide c near [fallGroup fall, sentGroup sent target far clear] s =
        addSplit (setSplit s c.w c.k (groupSplit c near true (getSplit s c.w c.k) keep)) c.w (groupSplit c near false (getSplit s c.w c.k) go) := by
  have hne : fall ≠ sent := fun he => hf (by rw [← he, BitVec.and_self] at hd; exact hd)
  have hlow := lowLane_ne hf hs hd
  have hgs : [fallGroup fall, sentGroup sent target far clear].filter (fun g => g.mask ≠ 0) = [fallGroup fall, sentGroup sent target far clear] := by
    rw [groups_with_lanes _ hf, groups_with_lanes _ hs, List.filter_nil]
  have hjoin : (getSplit s c.w c.k).rem ≤ 1 → joinFall ((getSplit s c.w c.k).pc + 8) [fallGroup fall, sentGroup sent target far clear] =
      [fallGroup fall, sentGroup sent target far clear] := fun hr => joinFall_pair _ _ fun h => hn ⟨hr, h⟩
  have hsort : List.insertionSort (fun x y => lowLane x.mask ≤ lowLane y.mask) [fallGroup fall, sentGroup sent target far clear] =
      if lowLane fall ≤ lowLane sent then [fallGroup fall, sentGroup sent target far clear]
      else [sentGroup sent target far clear, fallGroup fall] := by
    simp only [List.insertionSort_cons, List.insertionSort_nil, List.orderedInsert_nil, List.orderedInsert_cons]
    rfl
  by_cases hk : fallKeeps (getSplit s c.w c.k) fall sent
  · refine ⟨_, _, .inl ⟨hk, rfl, rfl⟩, divide_of_pick c near s hgs hjoin hsort ?_ hne ?_⟩
    · split
      · exact .inl rfl
      · exact .inr rfl
    · rcases hk with hr | hl
      · rw [if_pos hr]
        split <;> rfl
      · rw [if_pos (Nat.le_of_lt hl)]
        split <;> rfl
  · obtain ⟨hr, hl⟩ := not_or.1 hk
    refine ⟨_, _, .inr ⟨hk, rfl, rfl⟩, divide_of_pick c near s hgs hjoin hsort (.inl (if_neg (by omega))) hne.symm ?_⟩
    rw [if_neg hr, if_neg (by omega)]
    rfl

/-! ### What a branch leaves (R145) -/

/-- What R145 asks of a branch depends on the warps alone. -/
theorem branches_of_warps {f : Fields} {s : State} {cu : Cur} {taken : Mask} {target : BitVec 56} {far : BitVec 8} {clear : Option Nat} {t u : State}
    (h : Branches f s cu taken target far clear t) (hu : u.warps = t.warps) : Branches f s cu taken target far clear u := by
  have hw : getWarp u = getWarp t := funext fun w => by unfold getWarp; rw [hu]
  have hs : getSplit u = getSplit t := funext fun w => funext fun k => by unfold getSplit; rw [hw]
  obtain ⟨h1, h2, h3, h4⟩ := h
  constructor
  · rw [hw]; exact h1
  · rw [hs]; exact h2
  · rw [hs]; exact h3
  · rw [hs]; exact h4

variable {spec : OpSpec} {f : Fields} {s : State} {cu : Cur}

/-- The split at its issue, seen from a state whose warps are those of the issue. -/
theorem getSplit_of_issue {u : State} (hu : u.warps = (atIssue s cu).warps) (w k : Nat) : getSplit u w k = getSplit s w k := by
  unfold getSplit getWarp
  rw [hu]
  exact getSplit_startIssue s cu _ w k

theorem getWarp_of_issue_ne {u : State} (hu : u.warps = (atIssue s cu).warps) {w : Nat} (h : w ≠ cu.w) : getWarp u w = getWarp s w := by
  unfold getWarp
  rw [hu]
  exact getWarp_startIssue_ne s cu _ w h

theorem splits_of_issue {u : State} (hu : u.warps = (atIssue s cu).warps) : (getWarp u cu.w).splits = (getWarp s cu.w).splits := by
  have h : getWarp u cu.w = getWarp (atIssue s cu) cu.w := by unfold getWarp; rw [hu]
  rw [h, atIssue, getWarp_startIssue_same]

/-- A new split beside an entry that goes on: the entries and ranks that they take (R144). -/
theorem addSplit_beside (u : State) (w k : Nat) {keep go : Split} (hk : (getSplit u w k).mask ≠ 0) (hkeep : keep.mask ≠ 0)
    (hfree : ∃ j < 32, (getSplit u w j).mask = 0) :
    ∃ j n, (getSplit u w j).mask = 0 ∧ getSplit (addSplit (setSplit u w k keep) w go) w k = keep ∧
      getSplit (addSplit (setSplit u w k keep) w go) w j = { go with age := n } ∧
      (swf noSplit (getWarp u w).splits = true → n = (validSplits u w).length) ∧
      ∀ i, i ≠ k → i ≠ j → getSplit (addSplit (setSplit u w k keep) w go) w i = getSplit u w i := by
  have hne : ∀ j, (getSplit u w j).mask = 0 → j ≠ k := fun j hj he => hk (he ▸ hj)
  have hfree' : ∃ j < 32, (getSplit (setSplit u w k keep) w j).mask = 0 := by
    obtain ⟨j, hj, h0⟩ := hfree
    exact ⟨j, hj, by rw [getSplit_setSplit_ne _ _ _ _ _ (hne j h0)]; exact h0⟩
  have hfk : freeEntry (setSplit u w k keep) w ≠ k := fun he => hkeep (by
    have h0 := freeEntry_free hfree'
    rw [he, getSplit_setSplit_same] at h0
    exact h0)
  refine ⟨freeEntry (setSplit u w k keep) w, (validSplits (setSplit u w k keep) w).length, ?_, ?_, getSplit_addSplit_free _ _ _, ?_, ?_⟩
  · have h0 := freeEntry_free hfree'
    rwa [getSplit_setSplit_ne _ _ _ _ _ hfk] at h0
  · rw [getSplit_addSplit_ne _ (Ne.symm hfk), getSplit_setSplit_same]
  · intro hw
    unfold validSplits
    rw [getWarp_setSplit_same]
    exact length_sset_of_present hw (ne_noSplit hk) (ne_noSplit hkeep)
  · intro i hik hif
    rw [getSplit_addSplit_ne _ hif, getSplit_setSplit_ne _ _ _ _ _ hik]

/-- A mask and the lanes of another that are not in it. -/
theorem and_not_and {m taken : Mask} : (m &&& ~~~taken) &&& taken = 0 := by
  rw [BitVec.and_assoc]
  simp

theorem and_not_eq_zero {m taken : Mask} (hsub : m &&& taken = taken) : m &&& ~~~taken = 0 ↔ taken = m := by
  constructor
  · intro h
    refine mask_ext fun l hl => ?_
    have h1 := congrArg (fun x : Mask => x.getLsbD l) h
    have h2 := congrArg (fun x : Mask => x.getLsbD l) hsub
    simp only [BitVec.getLsbD_and, BitVec.getLsbD_not, hl, decide_true, Bool.true_and] at h1 h2
    revert h1 h2
    cases m.getLsbD l <;> cases taken.getLsbD l <;> simp
  · rintro rfl
    simp

/-- Where no lane is sent, the lanes that fall through are the only group. -/
theorem divide_fall (c : Ctx) (near : Bool) (s : State) {fall : Mask} (hf : fall ≠ 0) (target : BitVec 56) (far : BitVec 8) (clear : Option Nat) :
    divide c near [fallGroup fall, sentGroup 0 target far clear] s =
      setSplit s c.w c.k { stepSplit (getSplit s c.w c.k) with mask := fall, next := c.t + stallOf c.f } := by
  rw [divide_single c near _ s (groups_with_lanes _ hf), groupSplit_fall]

/-- Where every lane is sent, the lanes that are sent are the only group. -/
theorem divide_sent (c : Ctx) (near : Bool) (s : State) {sent : Mask} (hs : sent ≠ 0) (target : BitVec 56) (far : BitVec 8) (clear : Option Nat) :
    divide c near [fallGroup 0, sentGroup sent target far clear] s = setSplit s c.w c.k
      { sendTo { clearedLc (getSplit s c.w c.k) clear with mask := sent } target (transferTime c.t c.f near) with far := far } := by
  obtain ⟨l0, l1, l2, hc⟩ := clearedLc_eq (getSplit s c.w c.k) clear
  rw [divide_single c near _ s ((groups_without_lanes _ rfl).trans (groups_with_lanes _ hs)), groupSplit_sent, hc]
  rfl

/-- R145: what a division into the lanes that fall through and those that are sent leaves. -/
theorem branches_divide (spec : OpSpec) (f : Fields) {s : State} {cu : Cur} {taken : Mask} (target : BitVec 56) (far : BitVec 8)
    (clear : Option Nat) {u : State} (hu : u.warps = (atIssue s cu).warps) (hm : (getSplit s cu.w cu.k).mask ≠ 0)
    (hsub : (getSplit s cu.w cu.k).mask &&& taken = taken) :
    Branches f s cu taken target far clear (divide (ctxOf spec f s cu) false
      [fallGroup ((getSplit s cu.w cu.k).mask &&& ~~~taken), sentGroup taken target far clear] u) := by
  have hsp : ∀ k, getSplit u cu.w k = getSplit s cu.w k := fun k => getSplit_of_issue hu cu.w k
  have hone : ∀ x k, k ≠ cu.k → getSplit (setSplit u cu.w cu.k x) cu.w k = getSplit s cu.w k :=
    fun x k h => (getSplit_setSplit_ne _ _ _ _ _ h).trans (hsp k)
  refine ⟨fun w h => (getWarp_divide_ne _ _ _ _ h).trans (getWarp_of_issue_ne hu h), fun h0 => ?_, fun h1 h0 => ?_, fun h0 h1 hn hfree => ?_⟩
  · have hf : (getSplit s cu.w cu.k).mask &&& ~~~(0 : Mask) = (getSplit s cu.w cu.k).mask := BitVec.and_allOnes
    rw [h0, hf, divide_fall _ _ _ hm, ctxOf_w, ctxOf_k, hsp]
    refine ⟨?_, hone _⟩
    rw [getSplit_setSplit_same]
    obtain ⟨_, _, _, hst⟩ := stepSplit_eq (getSplit s cu.w cu.k)
    rw [hst]
    rfl
  · rw [(and_not_eq_zero hsub).2 h1, divide_sent _ _ _ h0, ctxOf_w, ctxOf_k, hsp]
    refine ⟨?_, hone _⟩
    rw [getSplit_setSplit_same, h1]
    obtain ⟨_, _, _, hc⟩ := clearedLc_eq (getSplit s cu.w cu.k) clear
    rw [hc]
    rfl
  · have hfall : (getSplit s cu.w cu.k).mask &&& ~~~taken ≠ 0 := fun h => h1 ((and_not_eq_zero hsub).1 h)
    have hn' : ¬((getSplit u cu.w cu.k).rem ≤ 1 ∧ target = (getSplit u cu.w cu.k).pc + 8 ∧ clear = none ∧ far = 0) := by rwa [hsp]
    obtain ⟨keep, go, hkg, hdiv⟩ := divide_pair (ctxOf spec f s cu) false u hfall h0 and_not_and hn'
    rw [ctxOf_w, ctxOf_k, hsp] at hdiv hkg
    rw [hdiv]
    obtain ⟨hkeep, hage⟩ := ofGroup_groupSplit (ctxOf spec f s cu) false true (getSplit s cu.w cu.k) keep
    have hgo := (ofGroup_groupSplit (ctxOf spec f s cu) false false (getSplit s cu.w cu.k) go).1
    generalize groupSplit (ctxOf spec f s cu) false true (getSplit s cu.w cu.k) keep = x at hkeep hage ⊢
    generalize groupSplit (ctxOf spec f s cu) false false (getSplit s cu.w cu.k) go = y at hgo ⊢
    have hx : x.mask ≠ 0 := by
      rw [hkeep.mask]
      rcases hkg with ⟨-, rfl, -⟩ | ⟨-, rfl, -⟩
      · exact hfall
      · exact h0
    obtain ⟨j, n, hj, hk, hjn, hlen, hrest⟩ := addSplit_beside u cu.w cu.k (go := y) (by rwa [hsp]) hx
      (by obtain ⟨i, hi, h⟩ := hfree; exact ⟨i, hi, by rwa [hsp]⟩)
    rw [hsp] at hj
    have hjk : j ≠ cu.k := fun he => hm (he ▸ hj)
    have hn0 : swf noSplit (getWarp s cu.w).splits = true → n = (validSplits s cu.w).length := fun h => by
      rw [hlen (by rwa [splits_of_issue hu]), validSplits, splits_of_issue hu, validSplits]
    generalize addSplit (setSplit u cu.w cu.k x) cu.w y = t at hk hjn hrest ⊢
    have hgoj := hgo.aged n
    rw [← hjn] at hgoj
    rw [← hk] at hkeep
    rcases hkg with ⟨hkk, rfl, rfl⟩ | ⟨hkk, rfl, rfl⟩
    · exact ⟨cu.k, j, hkeep.mask, hkeep.pc, hgoj.mask, hgoj.pc, hgoj.far rfl, .inl ⟨rfl, hj⟩, fun h => by rw [if_pos rfl, hjn, hn0 h],
        by rw [hk, hage], ⟨fun _ => hkk, fun _ => rfl⟩, hkeep.lc, hgoj.lc, hkeep.sup, hgoj.sup, fun i h1 h2 => (hrest i h1 h2).trans (hsp i)⟩
    · exact ⟨j, cu.k, hgoj.mask, hgoj.pc, hkeep.mask, hkeep.pc, hkeep.far rfl, .inr ⟨rfl, hj⟩, fun h => by rw [if_neg hjk, hjn, hn0 h],
        by rw [hk, hage], ⟨fun h => absurd h hjk, fun h => absurd h hkk⟩, hgoj.lc, hkeep.lc, hgoj.sup, hkeep.sup,
        fun i h1 h2 => (hrest i h2 h1).trans (hsp i)⟩

end Sys2Proof.Machine
end

section
/-!
R145, R155, R157 to R160, R164: the branches that decide by tags and by comparison.
-/
namespace Sys2Proof.Machine
open Claims

/-! ### What a branch reads and leaves -/

theorem poisonLanes_eq_nil {m : Mask} {v : Nat → TWord} (h : ∀ l ∈ lanesOf m, (v l).tag ≠ .x) : poisonLanes m v = [] :=
  List.filterMap_eq_nil_iff.2 fun l hl => if_neg (h l hl)

/-- The groups of a branch whose lanes are active ones. -/
theorem branchLanes_eq {c : Ctx} {taken : Mask} (h : c.sp.mask &&& taken = taken) (clear : Option Nat) (s : State) :
    branchLanes c taken clear s = divide c false [fallGroup (c.sp.mask &&& ~~~taken), sentGroup taken (branchTarget c) 0 clear] s := by
  unfold branchLanes
  rw [h]
  rfl

/-- A division of the split after its word's operands have left their queues changes warps and those queues (R199). -/
theorem divide_frame (spec : OpSpec) (f : Fields) (s : State) (cu : Cur) (gs : List Group) (codes : List (BitVec 8)) :
    ∃ t, keepReplay spec (ctxOf spec f s cu) (atIssue s cu)
        (divide (ctxOf spec f s cu) false gs (popAll (atIssue s cu) cu.w (getSplit s cu.w cu.k).mask codes)) = t ∧
      t.warps = (divide (ctxOf spec f s cu) false gs (popAll (atIssue s cu) cu.w (getSplit s cu.w cu.k).mask codes)).warps ∧
      PopsQueues codes s cu t ∧ t = { issueFrame s t with queues := t.queues } := by
  obtain ⟨x, hx⟩ := divide_eq (ctxOf spec f s cu) false gs (popAll (atIssue s cu) cu.w (getSplit s cu.w cu.k).mask codes)
  refine ⟨_, rfl, keepReplay_warps _ _ _ _, fun w l q hl hq => ?_, ?_⟩
  · rw [getQueue, keepReplay_queues, hx]
    exact getQueue_popAll (atIssue s cu) cu.w _ codes w l q hl hq
  · obtain ⟨y, hy⟩ := popAll_eq (atIssue s cu) cu.w (getSplit s cu.w cu.k).mask codes
    rw [keepReplay_eq, hx, hy]
    rfl

/-- R145: the branch that a division of the active lanes after the pops makes. -/
theorem branch_holds (spec : OpSpec) (f : Fields) {s : State} {cu : Cur} {taken : Mask} (target : BitVec 56) (far : BitVec 8) (clear : Option Nat)
    (codes : List (BitVec 8)) (hm : (getSplit s cu.w cu.k).mask ≠ 0) (hsub : (getSplit s cu.w cu.k).mask &&& taken = taken) :
    ∃ t, keepReplay spec (ctxOf spec f s cu) (atIssue s cu) (divide (ctxOf spec f s cu) false
        [fallGroup ((getSplit s cu.w cu.k).mask &&& ~~~taken), sentGroup taken target far clear]
        (popAll (atIssue s cu) cu.w (getSplit s cu.w cu.k).mask codes)) = t ∧
      PopsQueues codes s cu t ∧ t = { issueFrame s t with queues := t.queues } ∧ Branches f s cu taken target far clear t := by
  obtain ⟨t, ht, hw, hq, hf⟩ := divide_frame spec f s cu [fallGroup ((getSplit s cu.w cu.k).mask &&& ~~~taken), sentGroup taken target far clear] codes
  exact ⟨t, ht, hq, hf, branches_of_warps (branches_divide spec f target far clear (popAll_warps _ _ _ _) hm hsub) hw⟩

/-! ### Branches by tags (R158, R160, R164) -/

variable {spec : OpSpec} {f : Fields} {s : State} {cu : Cur}

theorem and_lanesV : (getSplit s cu.w cu.k).mask &&& lanesV spec f s cu = lanesV spec f s cu :=
  and_maskOf fun l h => by rw [activeIn, Bool.and_eq_true] at h; exact h.1

/-- A branch that decides by the tags of A. -/
theorem tagBranch_branches {p : Ctx → Mask → Mask} (clear : Fields → Option Nat) {taken : Mask} (hi : issues spec f s cu = true)
    (hx : ∀ l ∈ activeLanes s cu, (inA spec f s cu l).tag ≠ .x) (hp : p (ctxOf spec f s cu) (lanesV spec f s cu) = taken)
    (hsub : (getSplit s cu.w cu.k).mask &&& taken = taken) :
    ∃ t, tagBranch spec p clear f s = .next t ∧ PopsQueues (spec.reads f) s cu t ∧ t = { issueFrame s t with queues := t.queues } ∧
      Branches f s cu taken (branchAddr f s cu) 0 (clear f) t := by
  obtain ⟨t, ht, hrest⟩ := branch_holds spec f (branchAddr f s cu) 0 (clear f) (spec.reads f) (mask_of_issues hi) hsub
  refine ⟨t, (issue_of_issues spec f s _ cu hi).trans ?_, hrest⟩
  rw [← ht]
  simp only [ctxOf_sp, poisonLanes_eq_nil (m := (getSplit s cu.w cu.k).mask) (v := opA (atIssue s cu) (ctxOf spec f s cu)) hx]
  have hv : maskOf (fun l => (getSplit s cu.w cu.k).mask.getLsbD l && decide ((opA (atIssue s cu) (ctxOf spec f s cu) l).tag = .v)) =
    lanesV spec f s cu := rfl
  rw [hv, hp, branchLanes_eq (c := ctxOf spec f s cu) hsub]
  rfl

theorem and_senseMask (inv : Bool) {m v : Mask} (h : m &&& v = v) : m &&& (if inv then m &&& ~~~v else v) = if inv then m &&& ~~~v else v := by
  split
  · rw [← BitVec.and_assoc, BitVec.and_self]
  · exact h

theorem and_ite_zero {p : Prop} [Decidable p] {m n : Mask} (h : m &&& n = n) : m &&& (if p then n else 0) = if p then n else 0 := by
  split
  · exact h
  · exact BitVec.and_zero

/-- Each row decides by the V lanes among the active ones (R158, R160, R164). -/
theorem branchRows_exec (f : Fields) : ∀ e ∈ branchRows f, ∃ p : Ctx → Mask → Mask, (∀ s, exec e.1 s = tagBranch e.2.1 p (fun _ => e.2.2.2) f s) ∧
    ∀ c v, c.f = f → c.sp.mask &&& v = v → p c v = e.2.2.1 c.sp.mask v ∧ c.sp.mask &&& e.2.2.1 c.sp.mask v = e.2.2.1 c.sp.mask v := by
  have hself : ∀ m : Mask, m &&& m = m := fun m => BitVec.and_self
  simp only [branchRows, List.forall_mem_cons]
  refine ⟨⟨_, exec_bra f, fun c v hc h => ⟨by rw [hc]; rfl, and_senseMask _ h⟩⟩,
    ⟨_, exec_bany f, fun c v _ _ => ⟨ite_not _ _ _, ?_⟩⟩,
    ⟨_, exec_ball f, fun c v _ _ => ⟨?_, and_ite_zero (hself _)⟩⟩,
    ⟨_, exec_bnone f, fun c v _ _ => ⟨rfl, and_ite_zero (hself _)⟩⟩,
    ⟨_, exec_lexit f, fun c v hc h => ⟨by rw [hc]; rfl, and_senseMask _ h⟩⟩, List.forall_mem_nil _⟩
  · rw [← ite_not]
    exact and_ite_zero (hself _)
  · split
    · rfl
    · rfl

/-- R145, R155, R157, R158, R160, R164: each row is a branch by tags. -/
theorem branchesByTag : BranchesByTag := by
  intro f i spec p clear s cu hrow hi hx
  obtain ⟨q, hexec, hq⟩ := branchRows_exec f _ hrow
  obtain ⟨hp, hsub⟩ := hq (ctxOf spec f s cu) (lanesV spec f s cu) rfl and_lanesV
  rw [hexec]
  have hreads : spec.reads f = [f.a] := by
    simp only [branchRows, List.mem_cons, Prod.mk.injEq, List.not_mem_nil, or_false] at hrow
    rcases hrow with ⟨-, rfl, -⟩ | ⟨-, rfl, -⟩ | ⟨-, rfl, -⟩ | ⟨-, rfl, -⟩ | ⟨-, rfl, -⟩ <;> rfl
  rw [← hreads]
  exact tagBranch_branches (fun _ => clear) hi hx hp hsub

/-! ### bdv (R159) -/

/-- The lanes that bdv sends. -/
def bdvTaken (f : Fields) (s : State) (cu : Cur) : Mask :=
  maskOf (fun l => activeIn s cu l && decide ((inA specBdv f s cu l).tag = .v) && decide ((inB specBdv f s cu l).tag = .v) &&
    cmpHolds f.d.toNat (intOf f.ty (inA specBdv f s cu l).data) (intOf f.ty (inB specBdv f s cu l).data))

/-- The rule of two operands of which one is N, or both are V. -/
theorem tagRule_of_not_poisoned {a b : TWord} (h : a.tag = .n ∨ b.tag = .n ∨ (a.tag = .v ∧ b.tag = .v)) :
    tagRule [a, b] = if a.tag = .v ∧ b.tag = .v then .normal else .nullified := by
  rw [tagRule_pair]
  rcases h with h | h | ⟨ha, hb⟩
  · simp [h]
  · simp [h]
  · simp [ha, hb]

theorem tagRule_ne_poisoned {a b : TWord} (h : a.tag = .n ∨ b.tag = .n ∨ (a.tag = .v ∧ b.tag = .v)) (p : Word) : tagRule [a, b] ≠ .poisoned p := by
  rw [tagRule_of_not_poisoned h]
  split
  · exact TagRule.noConfusion
  · exact TagRule.noConfusion

/-- A check of D's code that has passed. -/
theorem code_of_check {get : Fields → BitVec 8} {p : Nat → Bool} {e : Env} (h : codeOf get p e = none) : p (get e.f).toNat = true := by
  unfold codeOf at h
  split at h
  · assumption
  · cases h

/-- The lanes that bdv's body sends. -/
theorem bdvTaken_eq (hcc : f.d.toNat ≤ 5)
    (ht : ∀ l ∈ activeLanes s cu, (inA specBdv f s cu l).tag = .n ∨ (inB specBdv f s cu l).tag = .n ∨
      ((inA specBdv f s cu l).tag = .v ∧ (inB specBdv f s cu l).tag = .v)) :
    maskOf (fun l => (getSplit s cu.w cu.k).mask.getLsbD l && decide (tagRule [inA specBdv f s cu l, inB specBdv f s cu l] = .normal) &&
      intHolds f.d.toNat f.ty (inA specBdv f s cu l).data (inB specBdv f s cu l).data) = bdvTaken f s cu := by
  refine maskOf_congr fun l hl => ?_
  rw [activeIn, intHolds_eq hcc]
  cases hm : (getSplit s cu.w cu.k).mask.getLsbD l with
  | false => simp
  | true =>
    rw [tagRule_of_not_poisoned (ht l ((mem_lanesOf _ _).2 ⟨hl, hm⟩))]
    by_cases h : (inA specBdv f s cu l).tag = .v ∧ (inB specBdv f s cu l).tag = .v
    · simp [h]
    · rw [if_neg h, not_and_or] at *
      rcases h with h | h <;> simp [h]

/-- R159: bdv. -/
theorem branchesByComparison : BranchesByComparison := by
  intro f s cu hi ht
  have hcc : f.d.toNat ≤ 5 := by
    obtain ⟨e, rfl, hd, -⟩ := checks_of_issues hi
    exact of_decide_eq_true (code_of_check (get := (·.d)) (p := fun x => decide (x ≤ 5)) hd)
  have hsub : (getSplit s cu.w cu.k).mask &&& bdvTaken f s cu = bdvTaken f s cu :=
    and_maskOf fun l h => by simp only [activeIn, Bool.and_eq_true] at h; exact h.1.1.1
  obtain ⟨t, ht', hrest⟩ := branch_holds specBdv f (branchAddr f s cu) 0 none [f.a, f.b] (mask_of_issues hi) hsub
  refine ⟨t, (issue_of_issues specBdv f s bdvBody cu hi).trans ?_, hrest⟩
  have htaken := bdvTaken_eq hcc ht
  rw [← ht']
  unfold bdvBody
  unfold inA inB at htaken
  simp only [ctxOf_sp, ctxOf_f, htaken]
  split
  · next x xs hbad =>
    obtain ⟨l, hl, hx⟩ := List.mem_filterMap.1 (hbad ▸ List.mem_cons_self : x ∈ _)
    split at hx
    · next p hp => exact absurd hp (tagRule_ne_poisoned (ht l hl) p)
    · cases hx
  · rw [branchLanes_eq (c := ctxOf specBdv f s cu) hsub]
    rfl

/-- Settles O10: the lanes that a branch sends, and the division of its split into them and the others. -/
theorem conditionalBranches : Obligations.ConditionalBranches := ⟨branchesByTag, branchesByComparison⟩

end Sys2Proof.Machine
end

section
/-!
R163: loop.set and loop.
-/
namespace Sys2Proof.Machine
open Claims

variable {f : Fields} {s : State} {cu : Cur}

/-- A word that has issued and has changed nothing but its split, which it has made `x`. -/
structure SplitBecomes (x : Split) (s : State) (cu : Cur) (t : State) : Prop where
  frame : t = issueFrame s t
  others : ∀ w, w ≠ cu.w → getWarp t w = getWarp s w
  rest : ∀ k, k ≠ cu.k → getSplit t cu.w k = getSplit s cu.w k
  split : getSplit t cu.w cu.k = x

/-- At the issue the split is as it was, whatever the quarters hold. -/
theorem splitBecomes_atIssue (qs : List (Nat × Quarter)) :
    SplitBecomes (getSplit s cu.w cu.k) s cu { atIssue s cu with quarters := qs } :=
  ⟨rfl, fun _ h => getWarp_of_issue_ne (u := { atIssue s cu with quarters := qs }) rfl h,
    fun k _ => getSplit_startIssue s cu _ cu.w k, getSplit_startIssue s cu _ cu.w cu.k⟩

theorem SplitBecomes.setSplit {x : Split} {t : State} (h : SplitBecomes x s cu t) (y : Split) :
    SplitBecomes y s cu (setSplit t cu.w cu.k y) := by
  refine ⟨?_, fun w hw => (getWarp_setSplit_ne _ _ _ _ _ hw).trans (h.others w hw),
    fun k hk => (getSplit_setSplit_ne _ _ _ _ _ hk).trans (h.rest k hk), getSplit_setSplit_same _ _ _ _⟩
  conv_lhs => rw [h.frame]
  rfl

theorem SplitBecomes.keepReplay {x : Split} {t : State} (h : SplitBecomes x s cu t) (spec : OpSpec) (c : Ctx) (s1 : State) :
    SplitBecomes x s cu (keepReplay spec c s1 t) := by
  obtain ⟨r, hr⟩ := keepReplay_ex spec c s1 t
  rw [hr]
  exact ⟨congrArg (fun u => ({ u with replays := r } : State)) h.frame, h.others, h.rest, h.split⟩

/-- The next word after a split that the word has changed. -/
theorem SplitBecomes.advance {x : Split} {t : State} (h : SplitBecomes x s cu t) (spec : OpSpec) :
    SplitBecomes { stepSplit x with next := issueTime s cu.w cu.k + stallOf f } s cu (advance (ctxOf spec f s cu) t) := by
  rw [advance_eq, ctxOf_w, ctxOf_k, h.split]
  exact h.setSplit _

/-- A label to which the whole split goes. -/
theorem SplitBecomes.sent {x : Split} {t : State} (h : SplitBecomes x s cu t) (spec : OpSpec) (near : Bool) {m : Mask} (hm : m ≠ 0) (target : BitVec 56) :
    SplitBecomes { sendTo { x with mask := m } target (transferTime (issueTime s cu.w cu.k) f near) with far := 0 } s cu
      (divide (ctxOf spec f s cu) near [fallGroup 0, sentGroup m target 0 none] t) := by
  rw [divide_sent _ _ _ hm, ctxOf_w, ctxOf_k, h.split]
  exact h.setSplit _

/-- A transfer keeps the loop counters. -/
theorem getLc_sent (x : Split) (m : Mask) (target : BitVec 56) (next i : Nat) :
    getLc { sendTo { x with mask := m } target next with far := 0 } i = getLc x i := getLc_congr rfl rfl rfl i

/-- A branch of every lane. -/
theorem branchLanes_all (c : Ctx) (u : State) :
    branchLanes c c.sp.mask none u = divide c false [fallGroup 0, sentGroup c.sp.mask (branchTarget c) 0 none] u := by
  rw [branchLanes_eq BitVec.and_self, (and_not_eq_zero BitVec.and_self).2 rfl]

/-! ### loop.set -/

theorem loopSetBody_n {c : Ctx} {u : State} (ht : (opA u c (lowLane c.sp.mask)).tag = .n) : loopSetBody c u = advance c u := by
  simp only [loopSetBody, ht]

/-- A V count is written to the loop counter before the word is left. -/
theorem loopSetBody_v {c : Ctx} {u : State} {x : Split} {n : BitVec 32} (ht : (opA u c (lowLane c.sp.mask)).tag = .v)
    (hn : n = (opA u c (lowLane c.sp.mask)).data.truncate 32) (hx : x = setLc (getSplit u c.w c.k) (c.f.d.toNat % 4) n) :
    loopSetBody c u = if n = 0 then branchLanes c c.sp.mask none (setSplit u c.w c.k x) else advance c (setSplit u c.w c.k x) := by
  subst hn hx
  simp only [loopSetBody, ht]

/-- R163: loop.set. -/
theorem loopSetsCounter : LoopSetsCounter := by
  intro f s cu hi a n hx
  have h0 := splitBecomes_atIssue (s := s) (cu := cu) (atIssue s cu).quarters
  suffices h : ∃ x, SplitBecomes x s cu (loopSetBody (ctxOf specLoopSet f s cu) (atIssue s cu)) ∧
      (a.tag = .n → x = { stepSplit (getSplit s cu.w cu.k) with next := issueTime s cu.w cu.k + stallOf f }) ∧
      (a.tag = .v → n ≠ 0 → x = { stepSplit (setLc (getSplit s cu.w cu.k) (f.d.toNat % 4) n) with next := issueTime s cu.w cu.k + stallOf f }) ∧
      (a.tag = .v → n = 0 → x.pc = branchAddr f s cu ∧ x.mask = (getSplit s cu.w cu.k).mask ∧ getLc x (f.d.toNat % 4) = 0) by
    obtain ⟨x, hb, hrest⟩ := h
    obtain ⟨hf, ho, hr, hs⟩ := hb.keepReplay specLoopSet (ctxOf specLoopSet f s cu) (atIssue s cu)
    exact ⟨_, issue_of_issues specLoopSet f s loopSetBody cu hi, hf, ho, hr, by rw [hs]; exact hrest⟩
  cases ht : a.tag with
  | x => exact absurd ht hx
  | n =>
    refine ⟨_, ?_, fun _ => rfl, fun h => Tag.noConfusion h, fun h => Tag.noConfusion h⟩
    rw [loopSetBody_n (c := ctxOf specLoopSet f s cu) ht]
    exact h0.advance specLoopSet
  | v =>
    have h1 := h0.setSplit (setLc (getSplit s cu.w cu.k) (f.d.toNat % 4) n)
    rw [loopSetBody_v (c := ctxOf specLoopSet f s cu) (n := n) ht rfl (congrArg (fun y => setLc y (f.d.toNat % 4) n) h0.split.symm), branchLanes_all]
    by_cases hn : n = 0
    · rw [if_pos hn]
      refine ⟨_, h1.sent specLoopSet false (mask_of_issues hi) _, fun h => Tag.noConfusion h, fun _ h => absurd hn h, fun _ _ => ⟨rfl, rfl, ?_⟩⟩
      exact (getLc_sent _ _ _ _ _).trans ((getLc_setLc_same _ _ _).trans hn)
    · rw [if_neg hn]
      exact ⟨_, h1.advance specLoopSet, fun h => Tag.noConfusion h, fun _ _ => rfl, fun _ h => absurd h hn⟩

/-! ### loop -/

/-- R156: looking at the loop buffer changes the quarters at most. -/
theorem loopNear_eq (c : Ctx) (u : State) : ∃ near qs, loopNear c u = (near, { u with quarters := qs }) := by
  unfold loopNear
  dsimp only
  split
  · exact ⟨true, u.quarters, rfl⟩
  · split
    · exact ⟨false, _, rfl⟩
    · exact ⟨false, u.quarters, rfl⟩

theorem loopBody_one {c : Ctx} (u : State) (hm : c.f.md.toInt ≤ 0) (hn : getLc c.sp (c.f.d.toNat % 4) = 1) :
    loopBody c u = advance c (setSplit u c.w c.k (setLc (getSplit u c.w c.k) (c.f.d.toNat % 4) 0)) := by
  unfold loopBody
  simp only [hn, if_neg (Int.not_lt.2 hm)]
  rfl

theorem loopBody_more {c : Ctx} (u : State) (hm : c.f.md.toInt ≤ 0) (hn : 1 < (getLc c.sp (c.f.d.toNat % 4)).toNat) :
    ∃ near qs, loopBody c u = divide c near [{ mask := c.sp.mask, target := some (branchTarget c), clear := none }]
      (setSplit { u with quarters := qs } c.w c.k (setLc (getSplit u c.w c.k) (c.f.d.toNat % 4) (getLc c.sp (c.f.d.toNat % 4) - 1))) := by
  obtain ⟨near, qs, h⟩ := loopNear_eq c u
  have h0 : getLc c.sp (c.f.d.toNat % 4) ≠ 0 := fun h => by rw [h] at hn; exact absurd hn (by decide)
  refine ⟨near, qs, ?_⟩
  unfold loopBody
  simp only [if_neg (Int.not_lt.2 hm), if_neg h0, if_pos hn, h]
  rfl

/-- R163: loop with a backward label. -/
theorem loopCountsDown : LoopCountsDown := by
  intro f s cu hi n hm hn
  suffices h : ∃ x, SplitBecomes x s cu (loopBody (ctxOf specLoop f s cu) (atIssue s cu)) ∧
      (n = 1 → x = { stepSplit (setLc (getSplit s cu.w cu.k) (f.d.toNat % 4) 0) with next := issueTime s cu.w cu.k + stallOf f }) ∧
      (1 < n.toNat → x.pc = branchAddr f s cu ∧ x.mask = (getSplit s cu.w cu.k).mask ∧ getLc x (f.d.toNat % 4) = n - 1 ∧ x.rem = 0) by
    obtain ⟨x, hb, hrest⟩ := h
    obtain ⟨hf, ho, hr, hs⟩ := hb.keepReplay specLoop (ctxOf specLoop f s cu) (atIssue s cu)
    exact ⟨_, issue_of_issues specLoop f s loopBody cu hi, hf, ho, hr, by rw [hs]; exact hrest⟩
  by_cases h1 : n = 1
  · have h0 := splitBecomes_atIssue (s := s) (cu := cu) (atIssue s cu).quarters
    rw [loopBody_one (c := ctxOf specLoop f s cu) _ hm h1, ctxOf_w, ctxOf_k, ctxOf_f, h0.split]
    exact ⟨_, (h0.setSplit _).advance specLoop, fun _ => rfl, fun h => absurd h (by rw [h1]; decide)⟩
  · have hgt : 1 < n.toNat := by
      have h0 : n.toNat ≠ 0 := fun h => hn (BitVec.eq_of_toNat_eq h)
      have h1' : n.toNat ≠ 1 := fun h => h1 (BitVec.eq_of_toNat_eq h)
      omega
    obtain ⟨near, qs, hb⟩ := loopBody_more (c := ctxOf specLoop f s cu) (atIssue s cu) hm hgt
    have h0 := splitBecomes_atIssue (s := s) (cu := cu) qs
    have hsent := (h0.setSplit (setLc (getSplit s cu.w cu.k) (f.d.toNat % 4) (n - 1))).sent specLoop (f := f) near (mask_of_issues hi) (branchAddr f s cu)
    have hgs : divide (ctxOf specLoop f s cu) near [{ mask := (getSplit s cu.w cu.k).mask, target := some (branchAddr f s cu), clear := none }]
        (setSplit { atIssue s cu with quarters := qs } cu.w cu.k (setLc (getSplit s cu.w cu.k) (f.d.toNat % 4) (n - 1))) =
        divide (ctxOf specLoop f s cu) near [fallGroup 0, sentGroup (getSplit s cu.w cu.k).mask (branchAddr f s cu) 0 none]
        (setSplit { atIssue s cu with quarters := qs } cu.w cu.k (setLc (getSplit s cu.w cu.k) (f.d.toNat % 4) (n - 1))) :=
      divide_congr _ _ _ (groups_without_lanes _ rfl).symm
    rw [← hgs] at hsent
    have hsp : getSplit (atIssue s cu) cu.w cu.k = getSplit s cu.w cu.k := getSplit_startIssue s cu _ cu.w cu.k
    rw [ctxOf_w, ctxOf_k, hsp] at hb
    rw [hb]
    refine ⟨_, hsent, fun h => absurd h h1, fun _ => ⟨rfl, rfl, ?_, rfl⟩⟩
    exact (getLc_sent _ _ _ _ _).trans (getLc_setLc_same _ _ _)

/-- Settles O12: loop.set by the tag and the value of its count, loop by the count that is left. -/
theorem loops : Obligations.Loops := ⟨loopSetsCounter, loopCountsDown⟩

end Sys2Proof.Machine
end

section
/-!
R157, R161, R162: jmp and call.
-/
namespace Sys2Proof.Machine
open Claims

/-! ### One target (R161) -/

/-- Each lane of a mask is nullified or names one target. -/
def OneTarget (m : Mask) (v : Nat → TWord) (a : Word) : Prop := ∀ l ∈ lanesOf m, (v l).tag = .n ∨ ((v l).tag = .v ∧ (v l).data = a)

/-- The lanes of a mask that transfer. -/
def jumping (m : Mask) (v : Nat → TWord) : Mask := maskOf (fun l => m.getLsbD l && decide ((v l).tag = .v))

theorem and_jumping (m : Mask) (v : Nat → TWord) : m &&& jumping m v = jumping m v :=
  and_maskOf fun l h => by rw [Bool.and_eq_true] at h; exact h.1

theorem jumpTrap_none {m : Mask} {v : Nat → TWord} {a : Word} (h : OneTarget m v a) (ha : a.toNat % 8 = 0) : jumpTrap m v = none := by
  have hx : poisonLanes m v = [] := poisonLanes_eq_nil fun l hl hx => by
    rcases h l hl with hn | ⟨hv, -⟩
    · rw [hn] at hx; cases hx
    · rw [hv] at hx; cases hx
  have hbad : maskOf (fun l => m.getLsbD l && decide ((v l).tag = .v) && decide ((v l).data.toNat % 8 ≠ 0)) = 0 := by
    refine mask_ext fun l hl => ?_
    rw [getLsbD_maskOf _ hl]
    cases hm : m.getLsbD l with
    | false => simp
    | true =>
      rcases h l ((mem_lanesOf _ _).2 ⟨hl, hm⟩) with hn | ⟨hv, hd⟩
      · simp [hn]
      · simp [hd, ha]
  unfold jumpTrap
  simp only [hx, hbad, ne_eq, not_true_eq_false, if_false]

/-- The lanes that an indirect transfer leaves: those that do not name a target. -/
theorem staying_eq {m : Mask} {v : Nat → TWord} {a : Word} (h : OneTarget m v a) :
    maskOf (fun l => m.getLsbD l && decide ((v l).tag = .n)) = m &&& ~~~jumping m v := by
  refine mask_ext fun l hl => ?_
  rw [getLsbD_maskOf _ hl, BitVec.getLsbD_and, BitVec.getLsbD_not, jumping, getLsbD_maskOf _ hl]
  cases hm : m.getLsbD l with
  | false => simp
  | true => rcases h l ((mem_lanesOf _ _).2 ⟨hl, hm⟩) with hn | ⟨hv, -⟩ <;> simp [*]

/-- The lanes that name the one target are all that transfer. -/
theorem sentLanes_eq {m : Mask} {v : Nat → TWord} {a : Word} (h : OneTarget m v a) :
    maskOf (fun l => m.getLsbD l && decide ((v l).tag ≠ .n) && decide ((v l).data = a)) = jumping m v := by
  refine maskOf_congr fun l hl => ?_
  cases hm : m.getLsbD l with
  | false => simp
  | true => rcases h l ((mem_lanesOf _ _).2 ⟨hl, hm⟩) with hn | ⟨hv, hd⟩ <;> simp [*]

/-- The targets named are the one target, or none where no lane transfers. -/
theorem targets_eq {m : Mask} {v : Nat → TWord} {a : Word} (h : OneTarget m v a) :
    (((lanesOf m).filter (fun l => (v l).tag ≠ .n)).map (fun l => (v l).data)).dedup = if jumping m v = 0 then [] else [a] := by
  have hall : ∀ b ∈ ((lanesOf m).filter (fun l => (v l).tag ≠ .n)).map (fun l => (v l).data), b = a := by
    intro b hb
    obtain ⟨l, hl, rfl⟩ := List.mem_map.1 hb
    obtain ⟨hl, hn⟩ := List.mem_filter.1 hl
    exact (h l hl).elim (fun h => absurd h (of_decide_eq_true hn)) (·.2)
  have hnil : ((lanesOf m).filter (fun l => (v l).tag ≠ .n)).map (fun l => (v l).data) = [] ↔ jumping m v = 0 := by
    rw [List.map_eq_nil_iff, List.filter_eq_nil_iff]
    constructor
    · intro hn
      refine mask_ext fun l hl => ?_
      rw [jumping, getLsbD_maskOf _ hl]
      cases hm : m.getLsbD l with
      | false => simp
      | true => simpa using fun hv : (v l).tag = .v => hn l ((mem_lanesOf _ _).2 ⟨hl, hm⟩) (by simp [hv])
    · intro h0 l hl hn
      obtain ⟨h32, hm⟩ := (mem_lanesOf _ _).1 hl
      have hv : (v l).tag = .v := (h l hl).elim (fun h => absurd h (of_decide_eq_true hn)) (·.1)
      have hbit := getLsbD_maskOf (fun l => m.getLsbD l && decide ((v l).tag = .v)) h32
      rw [← jumping, h0, hm, hv] at hbit
      simp at hbit
  split
  · next h0 => rw [hnil.2 h0, List.dedup_nil]
  · next h0 =>
    rw [List.eq_replicate_of_mem hall]
    exact List.replicate_dedup fun hl => h0 (hnil.1 (List.eq_nil_of_length_eq_zero hl))

/-- R161: with one target the groups of an indirect transfer are those of a branch of the lanes that name it. -/
theorem divide_jumpGroups (c : Ctx) (s : State) {m : Mask} {v : Nat → TWord} {a : Word} (h : OneTarget m v a) :
    divide c false (jumpGroups m v) s =
      divide c false [fallGroup (m &&& ~~~jumping m v), sentGroup (jumping m v) (a.truncate 56) (a.extractLsb' 56 8) none] s := by
  refine divide_congr _ _ _ ?_
  unfold jumpGroups
  simp only [targets_eq h, staying_eq h]
  by_cases h0 : jumping m v = 0
  · rw [if_pos h0, h0]
    simp [fallGroup, sentGroup, List.filter_cons]
  · rw [if_neg h0]
    simp only [List.map_cons, List.map_nil, sentLanes_eq h]
    rfl

/-! ### jmp (R161) -/

variable {f : Fields} {s : State} {cu : Cur} {a : Word}

theorem jmp_jumps (ha : a.toNat % 8 = 0) (hi : issues specJmp f s cu = true)
    (h : ∀ l ∈ activeLanes s cu, (inA specJmp f s cu l).tag = .n ∨ ((inA specJmp f s cu l).tag = .v ∧ (inA specJmp f s cu l).data = a)) :
    ∃ t, exec (.jmp f) s = .next t ∧ PopsQueues [f.a] s cu t ∧ t = { issueFrame s t with queues := t.queues } ∧
      Branches f s cu (lanesV specJmp f s cu) (a.truncate 56) (a.extractLsb' 56 8) none t := by
  have hone : OneTarget (getSplit s cu.w cu.k).mask (opA (atIssue s cu) (ctxOf specJmp f s cu)) a := h
  obtain ⟨t, ht, hrest⟩ := branch_holds specJmp f (a.truncate 56) (a.extractLsb' 56 8) none [f.a] (mask_of_issues hi)
    (and_lanesV (spec := specJmp) (f := f) (s := s) (cu := cu))
  refine ⟨t, (issue_of_issues specJmp f s jmpBody cu hi).trans ?_, hrest⟩
  rw [← ht]
  unfold jmpBody
  simp only [ctxOf_sp, jumpTrap_none hone ha, divide_jumpGroups _ _ hone]
  rfl

/-! ### call (R162) -/

/-- The words that name the targets of a call: the label in every lane, or the words of A. -/
def callTargets (c : Ctx) (s : State) : Nat → TWord :=
  if isImm c.f.c then fun _ => TWord.valid ((branchTarget c).zeroExtend 64) else opA s c

/-- The words that a call writes to a vector D: the return address, or the old data under N. -/
def callWords (c : Ctx) (s : State) : List (Nat × TWord) := (lanesOf c.sp.mask).map (fun l =>
  (l, if (callTargets c s l).tag = .n then (⟨.n, (rdReg s c.w c.f.d.toNat l).data⟩ : TWord) else TWord.valid ((returnAddr c.sp).zeroExtend 64)))

theorem callBody_writes {c : Ctx} {s : State} (hq : isQ c.f.d = false) (ht : jumpTrap c.sp.mask (callTargets c s) = none) :
    callBody c s = divide c false (jumpGroups c.sp.mask (callTargets c s))
      (writeFixed (popAll s c.w c.sp.mask (specCall.reads c.f)) c.w c.f.d.toNat c.t 3
        (if isS c.f.d then (callWords c s).take 1 else callWords c s)) := by
  unfold callTargets at ht
  unfold callBody
  simp only [ht, hq, Bool.false_eq_true, if_false]
  rfl

/-- A write that lands later is the register's word at once. -/
theorem rdReg_writeFixed_wrReg (s : State) (w code t lat : Nat) (ws : List (Nat × TWord)) (w' r l : Nat) :
    rdReg (writeFixed s w code t lat ws) w' r l = rdReg (wrReg s w code ws) w' r l := by
  rw [rdReg_writeFixed]
  split
  · rfl
  · next h =>
    unfold wrReg
    rw [if_neg (by omega), if_neg h]

/-- A write to active lanes changes no other register. -/
theorem keepsRegs_of_wrReg {t : State} {code : Nat} {ws : List (Nat × TWord)} (h : ∀ w r l, rdReg t w r l = rdReg (wrReg s cu.w code ws) w r l)
    (hs : ∀ e ∈ ws, e.1 ∈ activeLanes s cu) : KeepsRegs code s cu t := by
  intro w r l hl hne
  rw [h]
  refine rdReg_wrReg_other _ _ _ _ _ _ _ hl (fun e he => lanesOf_lt (hs e he)) ?_
  rintro ⟨rfl, rfl, hm⟩
  refine hne ⟨rfl, rfl, fun hv => ?_⟩
  obtain ⟨e, he, rfl⟩ := List.mem_map.1 (hm hv)
  exact ((mem_lanesOf _ _).1 (hs e he)).2

theorem mem_callWords {c : Ctx} {s : State} {e : Nat × TWord} (h : e ∈ callWords c s) : e.1 ∈ lanesOf c.sp.mask := by
  obtain ⟨l, hl, rfl⟩ := List.mem_map.1 h
  exact hl

/-- What a call whose lanes name one target leaves. -/
theorem call_jumps (ha : a.toNat % 8 = 0) (hi : issues specCall f s cu = true) (hq : isQ f.d = false) {taken : Mask}
    (hone : OneTarget (getSplit s cu.w cu.k).mask (callTargets (ctxOf specCall f s cu) (atIssue s cu)) a)
    (htaken : jumping (getSplit s cu.w cu.k).mask (callTargets (ctxOf specCall f s cu) (atIssue s cu)) = taken) :
    ∃ t, exec (.call f) s = .next t ∧
      (∀ w r l, rdReg t w r l = rdReg (wrReg s cu.w f.d.toNat (if isS f.d then (callWords (ctxOf specCall f s cu) (atIssue s cu)).take 1
        else callWords (ctxOf specCall f s cu) (atIssue s cu))) w r l) ∧
      t.fsr = s.fsr ∧ t.mem = s.mem ∧ Branches f s cu taken (a.truncate 56) (a.extractLsb' 56 8) none t := by
  have hsub := and_jumping (getSplit s cu.w cu.k).mask (callTargets (ctxOf specCall f s cu) (atIssue s cu))
  rw [htaken] at hsub
  obtain ⟨q, hpop⟩ := popAll_eq (atIssue s cu) cu.w (getSplit s cu.w cu.k).mask (specCall.reads f)
  obtain ⟨v, r, p, o, hwr⟩ := writeFixed_eq (popAll (atIssue s cu) cu.w (getSplit s cu.w cu.k).mask (specCall.reads f)) cu.w f.d.toNat
    (issueTime s cu.w cu.k) 3 (if isS f.d then (callWords (ctxOf specCall f s cu) (atIssue s cu)).take 1
      else callWords (ctxOf specCall f s cu) (atIssue s cu))
  have hregs := rdReg_writeFixed_wrReg (popAll (atIssue s cu) cu.w (getSplit s cu.w cu.k).mask (specCall.reads f)) cu.w f.d.toNat
    (issueTime s cu.w cu.k) 3 (if isS f.d then (callWords (ctxOf specCall f s cu) (atIssue s cu)).take 1
      else callWords (ctxOf specCall f s cu) (atIssue s cu))
  refine ⟨_, issue_of_issues specCall f s callBody cu hi, ?_⟩
  rw [callBody_writes (c := ctxOf specCall f s cu) hq (jumpTrap_none hone ha), ctxOf_sp, ctxOf_w, ctxOf_f, ctxOf_t, divide_jumpGroups _ _ hone,
    htaken]
  generalize writeFixed (popAll (atIssue s cu) cu.w (getSplit s cu.w cu.k).mask (specCall.reads f)) cu.w f.d.toNat (issueTime s cu.w cu.k) 3 _ = u
    at hwr hregs ⊢
  have hb := branches_divide specCall f (a.truncate 56) (a.extractLsb' 56 8) none (u := u) (by rw [hwr, hpop]) (mask_of_issues hi) hsub
  obtain ⟨x, hx⟩ := divide_eq (ctxOf specCall f s cu) false
    [fallGroup ((getSplit s cu.w cu.k).mask &&& ~~~taken), sentGroup taken (a.truncate 56) (a.extractLsb' 56 8) none] u
  refine ⟨fun w r l => ?_, ?_, ?_, branches_of_warps hb (keepReplay_warps _ _ _ _)⟩
  · rw [rdReg_keepReplay, hx]
    refine (hregs w r l).trans (rdReg_wrReg_congr ?_ ?_ _ _ _ _ _ _)
    · rw [hpop]; rfl
    · rw [hpop]; rfl
  · rw [keepReplay_fsr, hx, hwr, hpop]; rfl
  · rw [keepReplay_mem, hx, hwr, hpop]; rfl

/-- The words of A, or the label, name one target. -/
theorem callTargets_one
    (h : if isImm f.c then a = (branchAddr f s cu).setWidth 64
      else ∀ l ∈ activeLanes s cu, (inA specCall f s cu l).tag = .n ∨ ((inA specCall f s cu l).tag = .v ∧ (inA specCall f s cu l).data = a)) :
    OneTarget (getSplit s cu.w cu.k).mask (callTargets (ctxOf specCall f s cu) (atIssue s cu)) a := by
  intro l hl
  unfold callTargets
  rw [ctxOf_f]
  split at h
  · next hc => rw [if_pos hc]; exact .inr ⟨rfl, h.symm⟩
  · next hc => rw [if_neg hc]; exact h l hl

/-- A label sends every lane, words of A those that are V. -/
theorem jumping_callTargets : jumping (getSplit s cu.w cu.k).mask (callTargets (ctxOf specCall f s cu) (atIssue s cu)) =
    if isImm f.c then (getSplit s cu.w cu.k).mask else lanesV specCall f s cu := by
  unfold callTargets
  rw [ctxOf_f]
  split
  · refine mask_ext fun l hl => ?_
    rw [jumping, getLsbD_maskOf _ hl]
    simp [TWord.valid]
  · rfl

/-- The word that a call writes to a lane of a vector D. -/
theorem callWords_vector
    (hone : OneTarget (getSplit s cu.w cu.k).mask (callTargets (ctxOf specCall f s cu) (atIssue s cu)) a) {l : Nat} (hl : l ∈ activeLanes s cu) :
    (l, if isImm f.c = true ∨ (inA specCall f s cu l).tag = .v then TWord.valid ((returnAddr (getSplit s cu.w cu.k)).zeroExtend 64)
      else ⟨.n, (oldOf f s cu l).data⟩) ∈ callWords (ctxOf specCall f s cu) (atIssue s cu) := by
  refine List.mem_map.2 ⟨l, hl, congrArg (Prod.mk l) ?_⟩
  have h := hone l hl
  unfold callTargets at h ⊢
  rw [ctxOf_f] at *
  by_cases hc : isImm f.c = true
  · rw [if_pos (Or.inl hc), if_pos hc]; rfl
  · rw [if_neg hc] at h ⊢
    have hA : opA (atIssue s cu) (ctxOf specCall f s cu) l = inA specCall f s cu l := rfl
    rw [hA] at h ⊢
    rcases h with hn | ⟨hv, -⟩
    · rw [if_pos hn, if_neg (by simp [hc, hn])]; rfl
    · rw [if_neg (by simp [hv]), if_pos (Or.inr hv)]; rfl

theorem call_returns (ha : a.toNat % 8 = 0) (hi : issues specCall f s cu = true) (hq : isQ f.d = false)
    (h : if isImm f.c then a = (branchAddr f s cu).setWidth 64
      else ∀ l ∈ activeLanes s cu, (inA specCall f s cu l).tag = .n ∨ ((inA specCall f s cu l).tag = .v ∧ (inA specCall f s cu l).data = a)) :
    ∃ t, exec (.call f) s = .next t ∧
      (∀ l ∈ activeLanes s cu, isV f.d = true → rdReg t cu.w f.d.toNat l =
        if isImm f.c = true ∨ (inA specCall f s cu l).tag = .v then TWord.valid ((returnAddr (getSplit s cu.w cu.k)).zeroExtend 64)
        else ⟨.n, (oldOf f s cu l).data⟩) ∧
      KeepsRegs f.d.toNat s cu t ∧ t.fsr = s.fsr ∧ t.mem = s.mem ∧
      Branches f s cu (if isImm f.c then (getSplit s cu.w cu.k).mask else lanesV specCall f s cu) (a.truncate 56) (a.extractLsb' 56 8) none t := by
  have hone := callTargets_one h
  obtain ⟨t, ht, hregs, hfsr, hmem, hb⟩ := call_jumps ha hi hq hone jumping_callTargets
  refine ⟨t, ht, fun l hl hv => ?_, keepsRegs_of_wrReg hregs fun e he => ?_, hfsr, hmem, hb⟩
  · have hv' : f.d.toNat < 0xC0 := of_decide_eq_true hv
    have hs : isS f.d = false := decide_eq_false fun hd => by omega
    rw [hregs, hs, if_neg Bool.false_ne_true]
    refine rdReg_wrReg_vector _ _ _ _ _ _ hv' (callWords_vector hone hl) ?_
    rw [callWords, List.map_map]
    exact (List.map_id _).symm ▸ lanesOf_nodup _
  · refine mem_callWords (c := ctxOf specCall f s cu) (s := atIssue s cu) ?_
    split at he
    · exact List.mem_of_mem_take he
    · exact he

/-- Settles O11: with one target the groups of R161 are those of a branch, and call writes the return address before it divides. -/
theorem jumpsAndCalls : Obligations.JumpsAndCalls := fun _ _ _ _ ha => ⟨jmp_jumps ha, call_returns ha⟩

end Sys2Proof.Machine
end

section
/-!
R168: exit.
-/
namespace Sys2Proof.Machine
open Claims

/-! ### Threads that leave their barriers (R168, R261) -/

/-- What a claim about the end of a split's lanes reads: where the split stands and which lanes it has, the registers, flags and bytes. -/
def viewOf (w k : Nat) (s : State) := ((getSplit s w k).mask, (getSplit s w k).pc, s.vregs, s.sregs, s.fsr, s.mem)

/-- A satisfied wait changes nothing of a split but that wait. -/
theorem waitAfter_eq (k : Nat) (o : AObj) (sp : Split) (w : Nat) : ∃ x, (waitAfter k o sp w).1 = { sp with susp := x } := by
  unfold waitAfter
  split
  · split <;> exact ⟨_, rfl⟩
  · split <;> exact ⟨_, rfl⟩
  · split <;> exact ⟨_, rfl⟩
  · split <;> exact ⟨_, rfl⟩
  · split_ifs <;> exact ⟨_, rfl⟩
  · exact ⟨_, rfl⟩

/-- The splits of a block after an object's phase has ended waits. -/
theorem getSplit_woken (s : State) (b j : Nat) (o : AObj) (w k : Nat) :
    ∃ x, getSplit { s with warps := s.warps.map (fun e =>
      if blkOf e.1 = b then (e.1, { e.2 with splits := e.2.splits.map (fun x => (x.1, (waitAfter j o x.2 e.1).1)) }) else e) } w k =
      { getSplit s w k with susp := x } := by
  have hm : s.warps.map (fun e => if blkOf e.1 = b then
        (e.1, { e.2 with splits := e.2.splits.map (fun x => (x.1, (waitAfter j o x.2 e.1).1)) }) else e) =
      s.warps.map (fun e => (e.1, (if blkOf e.1 = b then
        { e.2 with splits := e.2.splits.map (fun x => (x.1, (waitAfter j o x.2 e.1).1)) } else e.2 : Warp))) :=
    List.map_congr_left fun e _ => by split <;> rfl
  unfold getSplit getWarp
  dsimp only
  rw [hm, sget_map_snd Warp.none (fun v x => if blkOf v = b then
      { x with splits := x.splits.map (fun y => (y.1, (waitAfter j o y.2 v).1)) } else x) s.warps w (by split <;> rfl)]
  split
  · dsimp only
    rw [sget_map_snd noSplit (fun _ y => (waitAfter j o y w).1) _ k rfl]
    exact waitAfter_eq _ _ _ _
  · exact ⟨_, rfl⟩

theorem viewOf_foldl {α : Type} {w k : Nat} {f : State → α → State} (hf : ∀ s a, viewOf w k (f s a) = viewOf w k s) (l : List α) (s : State) :
    viewOf w k (l.foldl f s) = viewOf w k s := by
  induction l generalizing s with
  | nil => rfl
  | cons a l ih => exact (ih _).trans (hf s a)

theorem viewOf_acquireAll (w k : Nat) (s : State) (b scope : Nat) (ms : List Mark) : viewOf w k (acquireAll s b scope ms) = viewOf w k s := by
  have h := behind_acquireAll s b scope ms
  unfold viewOf
  rw [h.getSplit, h.vregs, h.sregs, h.fsr, acquireAll_mem]

theorem viewOf_wakeWaits (w k : Nat) (s : State) (b j : Nat) (o : AObj) : viewOf w k (wakeWaits s b j o) = viewOf w k s := by
  obtain ⟨x, hx⟩ := getSplit_woken s b j o w k
  unfold wakeWaits
  refine (viewOf_foldl (fun t sc => viewOf_acquireAll w k t b sc o.prev) _ _).trans ?_
  unfold viewOf
  rw [hx]

theorem viewOf_putObj (w k : Nat) (s : State) (b j : Nat) (o : AObj) : viewOf w k (putObj s b j o) = viewOf w k s := by
  unfold putObj
  split
  · exact viewOf_foldl (fun t c => viewOf_wakeWaits w k t c 64 o) _ _
  · exact viewOf_wakeWaits w k _ b j o

theorem viewOf_leaveObj (w k : Nat) (s : State) (v j l : Nat) : viewOf w k (leaveObj s v j l) = viewOf w k s := by
  unfold leaveObj
  exact viewOf_putObj w k _ _ _ _

theorem viewOf_leaveLanes (w k : Nat) (s : State) (v : Nat) (m : Mask) : viewOf w k (leaveLanes s v m) = viewOf w k s :=
  viewOf_foldl (fun t l => (viewOf_leaveObj w k _ v 64 l).trans (viewOf_leaveObj w k t v 0 l)) _ _

theorem viewOf_endWarp (w k : Nat) (s : State) (v : Nat) : viewOf w k (endWarp s v) = viewOf w k s := by
  unfold endWarp
  dsimp only
  split
  · have hsp : getSplit (setWarp s v { getWarp s v with live := false }) w k = getSplit s w k := by
      unfold getSplit
      by_cases h : w = v
      · rw [h, getWarp_setWarp_same]
      · rw [getWarp_setWarp_ne _ _ _ _ h]
    unfold viewOf
    rw [hsp]
    rfl
  · rfl

theorem viewOf_keepReplay (w k : Nat) (spec : OpSpec) (c : Ctx) (s1 t : State) : viewOf w k (keepReplay spec c s1 t) = viewOf w k t := by
  rw [keepReplay_eq]
  rfl

/-! ### The lanes that go on -/

/-- A division into the lanes that fall through alone, some or none. -/
theorem divide_rest (c : Ctx) (s : State) (rest : Mask) : (getSplit (divide c false [fallGroup rest] s) c.w c.k).mask = rest ∧
    (rest ≠ 0 → (getSplit (divide c false [fallGroup rest] s) c.w c.k).pc = (getSplit s c.w c.k).pc + 8) := by
  by_cases h : rest = 0
  · subst h
    rw [divide_none c false _ s (groups_without_lanes [] rfl), getSplit_removeSplit]
    exact ⟨rfl, fun h => absurd rfl h⟩
  · rw [divide_single c false _ s (groups_with_lanes [] h), getSplit_setSplit_same, groupSplit_fall]
    obtain ⟨_, _, _, hst⟩ := stepSplit_eq (getSplit s c.w c.k)
    rw [hst]
    exact ⟨rfl, fun _ => rfl⟩

/-- A division after pops writes no register, flag or byte. -/
theorem divide_popAll_keeps (c : Ctx) (near : Bool) (gs : List Group) (s : State) (w : Nat) (m : Mask) (codes : List (BitVec 8)) :
    (divide c near gs (popAll s w m codes)).vregs = s.vregs ∧ (divide c near gs (popAll s w m codes)).sregs = s.sregs ∧
      (divide c near gs (popAll s w m codes)).fsr = s.fsr ∧ (divide c near gs (popAll s w m codes)).mem = s.mem := by
  obtain ⟨x, hx⟩ := divide_eq c near gs (popAll s w m codes)
  obtain ⟨q, hq⟩ := popAll_eq s w m codes
  rw [hx, hq]
  exact ⟨rfl, rfl, rfl, rfl⟩

/-- Reads depend on the registers alone. -/
theorem rdReg_of_regs {s t : State} (hv : t.vregs = s.vregs) (hs : t.sregs = s.sregs) (w r l : Nat) : rdReg t w r l = rdReg s w r l := by
  unfold rdReg
  rw [hv, hs]

theorem exitBody_of_not_poisoned {c : Ctx} {s : State} (hx : ∀ l ∈ lanesOf c.sp.mask, (opA s c l).tag ≠ .x) :
    exitBody c s = endWarp (leaveLanes (divide c false [fallGroup (c.sp.mask &&& ~~~jumping c.sp.mask (opA s c))]
      (popAll s c.w c.sp.mask (specExit.reads c.f))) c.w (jumping c.sp.mask (opA s c))) c.w := by
  unfold exitBody
  simp only [poisonLanes_eq_nil hx]
  rfl

/-- Settles O17: the lanes that end are divided from the split before they leave their barriers, which touches no split's lanes. -/
theorem exitEndsLanes : Obligations.ExitEndsLanes := by
  intro f s cu hi hx rest
  let u := popAll (atIssue s cu) cu.w (getSplit s cu.w cu.k).mask (specExit.reads f)
  have hu : u.warps = (atIssue s cu).warps := popAll_warps _ _ _ _
  obtain ⟨hmask, hpc⟩ := divide_rest (ctxOf specExit f s cu) u rest
  obtain ⟨hv0, hs0, hf0, hm0⟩ := divide_popAll_keeps (ctxOf specExit f s cu) false [fallGroup rest] (atIssue s cu) cu.w
    (getSplit s cu.w cu.k).mask (specExit.reads f)
  refine ⟨_, issue_of_issues specExit f s exitBody cu hi, ?_⟩
  rw [exitBody_of_not_poisoned (c := ctxOf specExit f s cu) hx]
  have hview := (viewOf_keepReplay cu.w cu.k specExit (ctxOf specExit f s cu) (atIssue s cu) _).trans
    ((viewOf_endWarp cu.w cu.k _ cu.w).trans (viewOf_leaveLanes cu.w cu.k (divide (ctxOf specExit f s cu) false [fallGroup rest] u) cu.w
      (lanesV specExit f s cu)))
  simp only [viewOf, Prod.mk.injEq] at hview
  obtain ⟨h1, h2, hv, hs, hf, hm⟩ := hview
  exact ⟨fun w r l _ _ => rdReg_of_regs (hv.trans hv0) (hs.trans hs0) w r l, hm.trans hm0, hf.trans hf0, h1.trans hmask,
    fun h0 => h2.trans ((hpc h0).trans (by rw [ctxOf_w, ctxOf_k, getSplit_of_issue hu]))⟩

end Sys2Proof.Machine
end

section
/-!
R169, R427, R429: ecall and brk.
-/
namespace Sys2Proof.Machine
open Claims

/-! ### Entering the user handler (R429) -/

theorem getWarp_writeUserTrap_ne (s : State) (w : Nat) (pc word : Word) (path : Nat) (r : TrapReq) {v : Nat} (h : v ≠ w) :
    getWarp (writeUserTrap s w pc word path r) v = getWarp s v := by
  unfold getWarp writeUserTrap
  exact sget_sset_ne _ _ _ _ _ h

/-- The registers of the warp that a trap to the user handler writes. -/
theorem getWarp_writeUserTrap (s : State) (w : Nat) (pc word : Word) (path : Nat) (r : TrapReq) :
    getWarp (writeUserTrap s w pc word path r) w = { getWarp s w with
      tcause := causeWord path r, tpc := pc, tmask := r.lanes.zeroExtend 64, tinfo := word } := by
  simp only [getWarp, writeUserTrap, setWarp, sget_sset_same]

/-- R432: the values of the trap, lane by lane. -/
theorem writeUserTrap_val (s : State) (w : Nat) (pc word : Word) (path : Nat) (r : TrapReq) {l : Nat} (hl : l < 32) :
    sget 0#64 (writeUserTrap s w pc word path r).tval (lkey w l) = if r.lanes.getLsbD l then r.val l else 0 := by
  simp only [writeUserTrap, sget_trapVals r w _ hl]

theorem getSplit_writeUserTrap (s : State) (w : Nat) (pc word : Word) (path : Nat) (r : TrapReq) (k : Nat) :
    getSplit (writeUserTrap s w pc word path r) w k = getSplit s w k := by
  unfold getSplit; rw [getWarp_writeUserTrap]

/-- The state after a trap of a split has entered the user handler at `addr`. -/
def enteredUser (s : State) (cu : Cur) (t path : Nat) (header : Bool) (word : Word) (r : TrapReq) (addr : Word) : State :=
  let sp := getSplit s cu.w cu.k
  enterHandler (writeUserTrap (landLanes s cu.w sp.mask) cu.w (vpc sp) word path r) cu.w cu.k t sp (handlerOf sp false header word r) addr

section
variable (s : State) (cu : Cur) (t path : Nat) (header : Bool) (word : Word) (r : TrapReq) (addr : Word)

theorem getWarp_enteredUser_ne {w : Nat} (h : w ≠ cu.w) : getWarp (enteredUser s cu t path header word r addr) w = getWarp s w := by
  unfold enteredUser enterHandler
  rw [getWarp_setSplit_ne _ _ _ _ _ h, getWarp_writeUserTrap_ne _ _ _ _ _ _ h]
  rfl

theorem getWarp_enteredUser : getWarp (enteredUser s cu t path header word r addr) cu.w =
    { getWarp (enteredUser s cu t path header word r addr) cu.w with
      tcause := causeWord path r, tpc := vpc (getSplit s cu.w cu.k), tmask := r.lanes.zeroExtend 64 } := by
  unfold enteredUser enterHandler
  rw [getWarp_setSplit_same, getWarp_writeUserTrap]

theorem getSplit_enteredUser : getSplit (enteredUser s cu t path header word r addr) cu.w cu.k =
    { sendTo (getSplit s cu.w cu.k) (addr.truncate 56) (t + 4) with
      sup := false, hs := handlerOf (getSplit s cu.w cu.k) false header word r :: (getSplit s cu.w cu.k).hs, far := addr.extractLsb' 56 8 } := by
  unfold enteredUser enterHandler
  rw [getSplit_setSplit_same]
  rfl

theorem getSplit_enteredUser_ne {k : Nat} (h : k ≠ cu.k) : getSplit (enteredUser s cu t path header word r addr) cu.w k = getSplit s cu.w k := by
  unfold enteredUser enterHandler
  rw [getSplit_setSplit_ne _ _ _ _ _ h, getSplit_writeUserTrap]
  rfl

/-- R92, R429, R432: what entering the user handler leaves. -/
theorem enteredUser_enters : Enters false addr r s cu (enteredUser s cu t path header word r addr) where
  pc := by rw [getSplit_enteredUser]; exact extractLsb'_append_truncate addr
  mode := by rw [getSplit_enteredUser]
  mask := by rw [getSplit_enteredUser]; rfl
  resume := by rw [getSplit_enteredUser]; exact ⟨_, rfl, rfl, rfl, rfl, rfl, rfl, rfl, rfl⟩
  cause := by rw [getWarp_enteredUser]; exact causeWord_low path r
  address := by rw [getWarp_enteredUser]; rfl
  lanes := by rw [getWarp_enteredUser]; rfl
  values := fun l hl => by rw [if_neg Bool.false_ne_true, enteredUser, enterHandler_tval]; exact writeUserTrap_val _ _ _ _ _ r hl
  regs := fun w x l _ _ => by simp [enteredUser, rdReg]
  flags := by simp [enteredUser]
  memory := by simp [enteredUser]
  others := fun _ hw => getWarp_enteredUser_ne s cu t path header word r addr hw
  rest := fun _ hk => getSplit_enteredUser_ne s cu t path header word r addr hk

end

theorem enters_keepReplay {sup : Bool} {vec : Word} {r : TrapReq} {s t : State} {cu : Cur} (spec : OpSpec) (c : Ctx) (s1 : State)
    (h : Enters sup vec r s cu t) : Enters sup vec r s cu (keepReplay spec c s1 t) := by
  rw [keepReplay_eq]
  exact ⟨h.pc, h.mode, h.mask, h.resume, h.cause, h.address, h.lanes, h.values, h.regs, h.flags, h.memory, h.others, h.rest⟩

/-! ### The handler of a code (R169, R427) -/

/-- A trap that neither is poison nor an extension's enters a handler in user mode: the user handler where R427 gives it the cause and no
split of the warp has one active, else the supervisor handler. -/
theorem takeTrap_chooses (s : State) (cu : Cur) (t path : Nat) (header : Bool) (word : Word) {r : TrapReq} (hs : (getSplit s cu.w cu.k).sup = false)
    (hp : r.cause ≠ causePoison) (he : r.cause ≠ causeExtEmulate) : takeTrap s cu.w cu.k t path header word r =
      if userCause (getWarp s cu.w) r && !warpUser s cu.w then enteredUser s cu t path header word r (userVec s cu)
      else enteredSup s cu t path header word r (supVec s cu) := by
  have hd : trapDest (landLanes s cu.w (getSplit s cu.w cu.k).mask) cu.w (getSplit s cu.w cu.k) r =
      if userCause (getWarp s cu.w) r && !warpUser s cu.w then .user else .supervisor := by
    unfold trapDest
    rw [if_neg fun h => hp h.1, if_neg (by simp [hs]), if_neg he]
    rfl
  unfold takeTrap
  by_cases hu : (userCause (getWarp s cu.w) r && !warpUser s cu.w) = true
  · rw [if_pos hu] at hd ⊢
    simp only [hd]
    rfl
  · rw [if_neg hu] at hd ⊢
    simp only [hd]
    rfl

variable {f : Fields} {s : State} {cu : Cur}

/-- The trap of ecall and of brk. -/
def codeReq (f : Fields) (s : State) (cu : Cur) (cause : Nat) : TrapReq := trapOf s cu cause 0 (fun _ => f.md.setWidth 64)

/-- Every active lane's value is the code. -/
theorem codeReq_val {cause : Nat} {l : Nat} (hl : l ∈ activeLanes s cu) : (codeReq f s cu cause).val l = f.md.setWidth 64 := by
  obtain ⟨x, hx⟩ := Option.isSome_iff_exists.1 (List.find?_isSome.2 ⟨(l, f.md.setWidth 64), List.mem_map.2 ⟨l, hl, rfl⟩, decide_eq_true rfl⟩ :
    ((codeReq f s cu cause).vals.find? (fun e => decide (e.1 = l))).isSome)
  obtain ⟨k, -, rfl⟩ := List.mem_map.1 (List.mem_of_find?_eq_some hx)
  unfold TrapReq.val
  rw [hx]
  rfl

/-- R427: the causes of ecall and brk that go to an enabled user handler. -/
theorem userCause_codeReq (hm : (getSplit s cu.w cu.k).mask ≠ 0) (wp : Warp) {cause : Nat} (hc : cause = causeEcall ∨ cause = causeBreak) :
    userCause wp (codeReq f s cu cause) = (wp.tvec.getLsbD 0 && (decide (cause = causeBreak) || decide (f.md.toNat < 2 ^ 15))) := by
  have hv : (codeReq f s cu cause).val (lowLane (codeReq f s cu cause).lanes) = f.md.setWidth 64 := codeReq_val (lowLane_mem hm)
  have hcause : (codeReq f s cu cause).cause = cause := rfl
  have hbit : f.md[15] = !decide (f.md.toNat < 2 ^ 15) := by
    rw [← decide_not, ← BitVec.getLsbD_eq_getElem, ← BitVec.msb_eq_getLsbD_last, BitVec.msb_eq_decide]
    simp only [Nat.not_lt]
  unfold userCause
  rw [hv, hcause]
  rcases hc with rfl | rfl
  · simp [causeEcall, causeStallShort, causeBreak, causePoison, causeRace, causeFpInvalid, hbit]
  · simp [causeStallShort, causeBreak, causePoison, causeRace, causeFpInvalid]

theorem codeTrap_enters {spec : OpSpec} {cause : Nat} (hc : cause = causeEcall ∨ cause = causeBreak) (hi : issues spec f s cu = true)
    (hs : (getSplit s cu.w cu.k).sup = false) :
    let toUser := (getWarp s cu.w).tvec.getLsbD 0 && (decide (cause = causeBreak) || decide (f.md.toNat < 2 ^ 15)) && !warpUser s cu.w
    ∃ t, issue spec f s (codeTrap cause) = .next t ∧
      Enters (!toUser) (if toUser then userVec s cu else supVec s cu) (codeReq f s cu cause) s cu t := by
  intro toUser
  have hsp : getSplit (atIssue s cu) cu.w cu.k = getSplit s cu.w cu.k := getSplit_startIssue s cu _ cu.w cu.k
  have hwp : getWarp (atIssue s cu) cu.w = { getWarp s cu.w with idle := 0 } := getWarp_startIssue_same s cu _
  have huser : warpUser (atIssue s cu) cu.w = warpUser s cu.w := by unfold warpUser validSplits; rw [hwp]
  have hp : cause ≠ causePoison ∧ cause ≠ causeExtEmulate := by rcases hc with rfl | rfl <;> decide
  have htrap := takeTrap_chooses (atIssue s cu) cu (issueTime s cu.w cu.k) (ctxOf spec f s cu).path false (ctxOf spec f s cu).word
    (r := codeReq f s cu cause) (by rw [hsp]; exact hs) hp.1 hp.2
  rw [userCause_codeReq (mask_of_issues hi) _ hc, huser, hwp] at htrap
  refine ⟨_, issue_of_issues spec f s _ cu hi, enters_keepReplay _ _ _ (enters_of_atIssue ?_)⟩
  have hbody : codeTrap cause (ctxOf spec f s cu) (atIssue s cu) = if toUser then
      enteredUser (atIssue s cu) cu (issueTime s cu.w cu.k) (ctxOf spec f s cu).path false (ctxOf spec f s cu).word (codeReq f s cu cause)
        (userVec (atIssue s cu) cu)
    else
      enteredSup (atIssue s cu) cu (issueTime s cu.w cu.k) (ctxOf spec f s cu).path false (ctxOf spec f s cu).word (codeReq f s cu cause)
        (supVec (atIssue s cu) cu) :=
    htrap
  have huv : userVec (atIssue s cu) cu = userVec s cu := by unfold userVec; rw [hwp]
  rw [hbody]
  cases toUser with
  | true => rw [if_pos rfl, if_pos rfl, huv]; exact enteredUser_enters _ _ _ _ _ _ _ _
  | false => exact enteredSup_enters _ _ _ _ _ _ _ _

/-- Settles O15: the trap of a code takes the user handler by R427, else the supervisor handler. -/
theorem callsToHandlers : Obligations.CallsToHandlers := by
  intro f s cu i spec cause hrow hi hs
  simp only [List.mem_cons, Prod.mk.injEq, List.not_mem_nil, or_false] at hrow
  rcases hrow with ⟨rfl, rfl, rfl⟩ | ⟨rfl, rfl, rfl⟩
  · exact codeTrap_enters (.inl rfl) hi hs
  · exact codeTrap_enters (.inr rfl) hi hs

end Sys2Proof.Machine
end

section
/-!
R24, R170 to R172: grow, its grants and its failures.
-/
namespace Sys2Proof.Machine
open Claims

variable {f : Fields} {s : State} {cu : Cur}

/-! ### One word for every lane of D (R75) -/

theorem wordsD_lanes {c : Ctx} {v : Nat → TWord} {e : Nat × TWord} (h : e ∈ wordsD c v) : e.1 ∈ lanesOf c.sp.mask := by
  obtain ⟨l, hl, rfl⟩ := List.mem_map.1 h
  unfold computeLanes at hl
  split at hl
  · exact List.mem_of_mem_take hl
  · exact hl

theorem rdReg_wrReg_wordsD (s : State) (w : Nat) {c : Ctx} (v : TWord) (hd : c.f.d.toNat < 0xE0) {l : Nat} (hl : l ∈ lanesOf c.sp.mask) :
    rdReg (wrReg s w c.f.d.toNat (wordsD c fun _ => v)) w c.f.d.toNat l = v := by
  unfold wordsD computeLanes
  by_cases hv : c.f.d.toNat < 0xC0
  · rw [isS, decide_eq_false (by omega), if_neg Bool.false_ne_true]
    refine rdReg_wrReg_vector _ _ _ _ _ _ hv (List.mem_map.2 ⟨l, hl, rfl⟩) ?_
    rw [List.map_map]
    exact (List.map_id _).symm ▸ lanesOf_nodup _
  · rw [isS, decide_eq_true ⟨by omega, hd⟩, if_pos rfl]
    cases hls : lanesOf c.sp.mask with
    | nil => rw [hls] at hl; cases hl
    | cons x xs => exact rdReg_wrReg_scalar _ _ _ _ _ _ (by omega) hd

/-! ### The request (R170) -/

/-- The total that a grow asks for. -/
def growTotal (c : Ctx) (s : State) : Nat := (opA s c (lowLane c.sp.mask)).data.toNat + (opB s c (lowLane c.sp.mask)).data.toNat

/-- The request of a grow that waits. -/
def growRequest (c : Ctx) (s : State) : GrowReq :=
  { core := coreOf s c.w, w := c.w, k := c.k, kind := c.f.ty.toNat, total := growTotal c s, d := c.f.d.toNat, word := c.word }

section
variable {c : Ctx} {u : State} (ha : (opA u c (lowLane c.sp.mask)).tag = .v) (hb : (opB u c (lowLane c.sp.mask)).tag = .v) (hq : isQ c.f.d = false)
include ha hb hq

theorem growBody_illegal (h : growLegal c.f.ty.toNat (growTotal c u) = false) :
    growBody c u = advance c (writeNow u c.w c.f.d.toNat (wordsD c fun _ => ⟨.n, 0⟩)) := by
  have ht := (tagRule_normal_iff [opA u c (lowLane c.sp.mask), opB u c (lowLane c.sp.mask)]).2 (by simp [ha, hb])
  unfold growTotal at h
  unfold growBody
  simp only [ht, h, Bool.not_false, if_true, answerNow, hq, Bool.false_eq_true, if_false]

theorem growBody_suffices (h : growLegal c.f.ty.toNat (growTotal c u) = true) (hle : growTotal c u ≤ growCurrent u c.w c.f.ty.toNat) :
    growBody c u = notBefore c (c.t + 3) (advance c (writeFixed u c.w c.f.d.toNat c.t 3
      (wordsD c fun _ => TWord.valid (BitVec.ofNat 64 (growCurrent u c.w c.f.ty.toNat))))) := by
  have ht := (tagRule_normal_iff [opA u c (lowLane c.sp.mask), opB u c (lowLane c.sp.mask)]).2 (by simp [ha, hb])
  unfold growTotal at h hle
  unfold growBody
  simp only [ht, h, Bool.not_true, Bool.false_eq_true, if_false, if_pos hle, answerLate, hq]

theorem growBody_waits (h : growLegal c.f.ty.toNat (growTotal c u) = true) (hlt : growCurrent u c.w c.f.ty.toNat < growTotal c u) :
    growBody c u = suspend c (.grow c.f.ty.toNat (growTotal c u)) { u with growQ := u.growQ ++ [growRequest c u] } := by
  have ht := (tagRule_normal_iff [opA u c (lowLane c.sp.mask), opB u c (lowLane c.sp.mask)]).2 (by simp [ha, hb])
  unfold growTotal at h hlt
  unfold growBody
  simp only [ht, h, Bool.not_true, Bool.false_eq_true, if_false, if_neg (Nat.not_le.2 hlt), pushGate, hq, Bool.not_false, if_true]
  rfl

end

/-- An allocation is the same at the issue. -/
theorem growCurrent_atIssue (kind : Nat) : growCurrent (atIssue s cu) cu.w kind = growCurrent s cu.w kind := by
  have hw : getWarp (atIssue s cu) cu.w = { getWarp s cu.w with idle := 0 } := getWarp_startIssue_same s cu _
  unfold growCurrent
  rw [hw]
  rfl

/-- The split of a grow that is answered late (R24). -/
theorem getSplit_notBefore (c : Ctx) (t : Nat) (u : State) :
    getSplit (notBefore c t (advance c u)) c.w c.k = { stepSplit (getSplit u c.w c.k) with next := max (c.t + stallOf c.f) t } := by
  rw [advance_eq, notBefore]
  dsimp only
  rw [getSplit_setSplit_same, getSplit_setSplit_same]

/-- One word written to D in the lanes that it has. -/
theorem wordsD_written {spec : OpSpec} {t : State} {v : TWord}
    (h : ∀ w r l, rdReg t w r l = rdReg (wrReg s cu.w f.d.toNat (wordsD (ctxOf spec f s cu) fun _ => v)) w r l) :
    KeepsRegs f.d.toNat s cu t ∧ ∀ l ∈ activeLanes s cu, f.d.toNat < 0xE0 → rdReg t cu.w f.d.toNat l = v :=
  ⟨keepsRegs_of_wrReg h fun _ he => wordsD_lanes he, fun _ hl hd => (h _ _ _).trans (rdReg_wrReg_wordsD (c := ctxOf spec f s cu) s cu.w v hd hl)⟩

/-- An answer at once. -/
theorem answered_now (v : TWord) {t : State} (ht : t = keepReplay specGrow (ctxOf specGrow f s cu) (atIssue s cu) (advance (ctxOf specGrow f s cu)
      (writeNow (atIssue s cu) cu.w f.d.toNat (wordsD (ctxOf specGrow f s cu) fun _ => v)))) :
    KeepsRegs f.d.toNat s cu t ∧ t.mem = s.mem ∧ Goes f s cu t ∧ ∀ l ∈ activeLanes s cu, f.d.toNat < 0xE0 → rdReg t cu.w f.d.toNat l = v := by
  have hregs : ∀ w r l, rdReg t w r l = rdReg (wrReg s cu.w f.d.toNat (wordsD (ctxOf specGrow f s cu) fun _ => v)) w r l := fun w r l => by
    rw [ht, rdReg_keepReplay, rdReg_of_regs (advance_vregs _ _) (advance_sregs _ _), rdReg_writeNow]
    exact rdReg_wrReg_congr (s := s) (u := atIssue s cu) rfl rfl _ _ _ _ _ _
  obtain ⟨hk, hv⟩ := wordsD_written hregs
  refine ⟨hk, ?_, ?_, hv⟩
  · rw [ht, keepReplay_mem, advance_mem, writeNow_mem]
    rfl
  · rw [ht]
    exact goes_keepReplay (goes_advance _ _ _ _ _ (writeNow_warps _ _ _ _))

/-- R24: an answer that lands before the split's next word. -/
theorem answered_late (v : TWord) {t : State} (ht : t = keepReplay specGrow (ctxOf specGrow f s cu) (atIssue s cu)
      (notBefore (ctxOf specGrow f s cu) (issueTime s cu.w cu.k + 3) (advance (ctxOf specGrow f s cu)
        (writeFixed (atIssue s cu) cu.w f.d.toNat (issueTime s cu.w cu.k) 3 (wordsD (ctxOf specGrow f s cu) fun _ => v))))) :
    KeepsRegs f.d.toNat s cu t ∧ t.mem = s.mem ∧ getSplit t cu.w cu.k =
        { stepSplit (getSplit s cu.w cu.k) with next := max (issueTime s cu.w cu.k + stallOf f) (issueTime s cu.w cu.k + 3) } ∧
      ∀ l ∈ activeLanes s cu, f.d.toNat < 0xE0 → rdReg t cu.w f.d.toNat l = v := by
  have hregs := rdReg_writeFixed_wrReg (atIssue s cu) cu.w f.d.toNat (issueTime s cu.w cu.k) 3 (wordsD (ctxOf specGrow f s cu) fun _ => v)
  obtain ⟨vs, rs, p, o, hw⟩ := writeFixed_eq (atIssue s cu) cu.w f.d.toNat (issueTime s cu.w cu.k) 3 (wordsD (ctxOf specGrow f s cu) fun _ => v)
  generalize writeFixed (atIssue s cu) cu.w f.d.toNat (issueTime s cu.w cu.k) 3 (wordsD (ctxOf specGrow f s cu) fun _ => v) = u at ht hregs hw
  have hread : ∀ w r l, rdReg t w r l = rdReg (wrReg s cu.w f.d.toNat (wordsD (ctxOf specGrow f s cu) fun _ => v)) w r l := fun w r l => by
    rw [ht, rdReg_keepReplay]
    exact (rdReg_of_regs (s := u) rfl rfl w r l).trans
      ((hregs w r l).trans (rdReg_wrReg_congr (s := s) (u := atIssue s cu) rfl rfl _ _ _ _ _ _))
  have hwarps : u.warps = (atIssue s cu).warps := by rw [hw]
  obtain ⟨hk, hv⟩ := wordsD_written hread
  refine ⟨hk, ?_, ?_, hv⟩
  · rw [ht, keepReplay_mem]
    show u.mem = s.mem
    rw [hw]
    rfl
  · have hsplit := getSplit_notBefore (ctxOf specGrow f s cu) (issueTime s cu.w cu.k + 3) u
    rw [ctxOf_w, ctxOf_k, getSplit_of_issue hwarps] at hsplit
    rw [ht, keepReplay_eq]
    exact hsplit

theorem growRequests : GrowRequests := by
  intro f s cu hi hq l a b total now ha hb
  have hnow : growCurrent (atIssue s cu) cu.w f.ty.toNat = now := growCurrent_atIssue _
  refine ⟨_, issue_of_issues specGrow f s growBody cu hi, ?_⟩
  by_cases hlegal : growLegal f.ty.toNat total = true
  · by_cases hle : total ≤ now
    · have hbody := growBody_suffices (c := ctxOf specGrow f s cu) (u := atIssue s cu) ha hb hq hlegal (hle.trans_eq hnow.symm)
      rw [ctxOf_w, ctxOf_f, ctxOf_t, hnow] at hbody
      obtain ⟨hk, hm, hs, hv⟩ := answered_late (TWord.valid (BitVec.ofNat 64 now)) rfl
      rw [hbody]
      exact ⟨hk, hm, fun h => absurd (hlegal.symm.trans h) (by decide), fun _ _ => ⟨hs, hv⟩, fun _ h => absurd hle (Nat.not_le.2 h)⟩
    · rw [growBody_waits (c := ctxOf specGrow f s cu) (u := atIssue s cu) ha hb hq hlegal (hnow.trans_lt (Nat.not_le.1 hle)), keepReplay_eq]
      refine ⟨fun _ _ _ _ _ => rfl, rfl, fun h => absurd (hlegal.symm.trans h) (by decide), fun _ h => absurd h hle, fun _ _ => ⟨?_, rfl⟩⟩
      exact congrArg Split.susp (getSplit_setSplit_same _ _ _ _)
  · have hno : growLegal f.ty.toNat total = false := Bool.eq_false_iff.2 hlegal
    obtain ⟨hk, hm, hg, hv⟩ := answered_now ⟨.n, 0⟩ rfl
    rw [growBody_illegal (c := ctxOf specGrow f s cu) (u := atIssue s cu) ha hb hq hno]
    exact ⟨hk, hm, fun _ => ⟨hg, hv⟩, fun h => absurd h hlegal, fun h => absurd h hlegal⟩

/-! ### The answer to a request that waits (R170 to R172) -/

/-- D of a request is a store stream. -/
def toStream (r : GrowReq) : Prop := 0xE0 ≤ r.d ∧ r.d < 0xE4

/-- The cycle from which an answered split may go on. -/
def answerTime (s : State) (r : GrowReq) : Nat := (getCore s r.core).cyc + 3

/-- The state in which an answer is written: the warp is held, and the request waits no more. -/
def answering (s : State) (r : GrowReq) : State := { holdWarp s r.w (answerTime s r) with growQ := s.growQ.filter (fun x => x ≠ r) }

theorem growAnswer_register {r : GrowReq} (h : ¬toStream r) (v : TWord) : growAnswer s r v =
    setSplit (writeNow (answering s r) r.w r.d ((if r.d ≥ 0xC0 then [0] else lanesOf (getSplit s r.w r.k).mask).map (fun l => (l, v)))) r.w r.k
      { stepSplit (getSplit s r.w r.k) with next := max (getSplit s r.w r.k).next (answerTime s r) } := if_neg h

theorem growAnswer_stream {r : GrowReq} (h : toStream r) (v : TWord) : growAnswer s r v =
    setSplit { answering s r with ops := s.ops ++ [pushedAnswer r v s], nextOp := s.nextOp + 1 } r.w r.k
      { getSplit s r.w r.k with susp := some (.op s.nextOp), next := max (getSplit s r.w r.k).next (answerTime s r) } := if_pos h

/-- What an answer leaves of the blocks and of the warp but its time, its splits and the queue of requests. -/
theorem growAnswer_keeps (s : State) (r : GrowReq) (v : TWord) : (growAnswer s r v).blocks = s.blocks ∧
    getWarp (growAnswer s r v) r.w = { getWarp s r.w with
      held := max (getWarp s r.w).held (answerTime s r), splits := (getWarp (growAnswer s r v) r.w).splits } ∧
    (growAnswer s r v).growQ = s.growQ.filter (fun x => x ≠ r) := by
  have hhold : getWarp (answering s r) r.w = { getWarp s r.w with held := max (getWarp s r.w).held (answerTime s r) } := getWarp_setWarp_same _ _ _
  by_cases h : toStream r
  · rw [growAnswer_stream h, getWarp_setSplit_same]
    exact ⟨rfl, hhold ▸ rfl, rfl⟩
  · rw [growAnswer_register h, getWarp_setSplit_same]
    obtain ⟨x, y, p, o, hw⟩ := writeNow_eq (answering s r) r.w r.d
      ((if r.d ≥ 0xC0 then [0] else lanesOf (getSplit s r.w r.k).mask).map (fun l => (l, v)))
    rw [hw]
    exact ⟨rfl, hhold ▸ rfl, rfl⟩

/-- R170: an answer in registers. -/
theorem growAnswer_answered {r : GrowReq} (h : ¬toStream r) (hq : s.growQ = [r]) (v : TWord) : Answered r v s (growAnswer s r v) := by
  obtain ⟨hblocks, hwarp, hqueue⟩ := growAnswer_keeps s r v
  have hregs : ∀ w x l, rdReg (growAnswer s r v) w x l =
      rdReg (writeNow s r.w r.d ((if r.d ≥ 0xC0 then [0] else lanesOf (getSplit s r.w r.k).mask).map (fun l => (l, v)))) w x l := fun w x l => by
    rw [growAnswer_register h, rdReg_writeNow]
    exact (rdReg_writeNow (answering s r) _ _ _ _ _ _).trans (rdReg_wrReg_congr (s := s) (u := answering s r) rfl rfl _ _ _ _ _ _)
  refine ⟨fun l hl hm hd => (hregs _ _ _).trans (rdReg_writeNow_lanes _ _ _ _ _ hd hl hm), fun w x l hl hn => ?_, ?_, ?_, ?_, ?_⟩
  · rw [hregs, rdReg_writeNow]
    refine rdReg_wrReg_other _ _ _ _ _ _ _ hl (fun e he => ?_) fun hc => hn ⟨hc.1, hc.2.1, fun hv => ?_⟩
    · obtain ⟨k, hk, rfl⟩ := List.mem_map.1 he
      split at hk
      · rw [List.mem_singleton.1 hk]; exact Nat.zero_lt_succ 31
      · exact lanesOf_lt hk
    · have hmem := hc.2.2 hv
      rw [if_neg (Nat.not_le.2 hv), List.map_map] at hmem
      obtain ⟨k, hk, rfl⟩ := List.mem_map.1 hmem
      exact ((mem_lanesOf _ _).1 hk).2
  · rw [growAnswer_register h, getSplit_setSplit_same]
    rfl
  · rw [hwarp]
    rfl
  · rw [hqueue, hq]
    simp
  · rw [growAnswer_register h]
    obtain ⟨x, y, p, o, hw⟩ := writeNow_eq (answering s r) r.w r.d
      ((if r.d ≥ 0xC0 then [0] else lanesOf (getSplit s r.w r.k).mask).map (fun l => (l, v)))
    rw [hw]
    rfl

/-- A request has its answer: in registers, or as an operation that pushes it. -/
def HasAnswer (r : GrowReq) (v : TWord) (s t : State) : Prop :=
  (¬toStream r → Answered r v s t) ∧
    (toStream r → t.ops = s.ops ++ [pushedAnswer r v s] ∧ t.growQ = [] ∧ t.vregs = s.vregs ∧ t.sregs = s.sregs)

theorem growAnswer_hasAnswer {r : GrowReq} (hq : s.growQ = [r]) (v : TWord) : HasAnswer r v s (growAnswer s r v) := by
  refine ⟨fun h => growAnswer_answered h hq v, fun h => ?_⟩
  rw [growAnswer_stream h]
  refine ⟨rfl, ?_, rfl, rfl⟩
  show s.growQ.filter (fun x => x ≠ r) = []
  rw [hq]
  simp

/-! ### GROW_GRANT (R171) -/

/-- The state with the allocation that a request asks for. -/
def raised (s : State) (r : GrowReq) : State :=
  if r.kind = 0 then setWarp s r.w { getWarp s r.w with vregs := max r.total (getWarp s r.w).vregs }
  else if r.kind = 1 then setBlock s (blkOf r.w) { getBlock s (blkOf r.w) with tsbytes := max r.total (getBlock s (blkOf r.w)).tsbytes }
  else setBlock s (blkOf r.w) { getBlock s (blkOf r.w) with tiles := max r.total (getBlock s (blkOf r.w)).tiles }

theorem growGrant_eq (s : State) (r : GrowReq) : growGrant s r = growAnswer (raised s r) r (TWord.valid (BitVec.ofNat 64 r.total)) := rfl

theorem raised_eq (s : State) (r : GrowReq) : ∃ x y, raised s r = { s with warps := x, blocks := y } := by
  unfold raised
  split
  · exact ⟨_, s.blocks, rfl⟩
  · split
    · exact ⟨s.warps, _, rfl⟩
    · exact ⟨s.warps, _, rfl⟩

/-- The warp of a raised allocation, but for its registers. -/
theorem getWarp_raised (s : State) (r : GrowReq) : getWarp (raised s r) r.w = { getWarp s r.w with vregs := (getWarp (raised s r) r.w).vregs } := by
  unfold raised
  split
  · rw [getWarp_setWarp_same]
  · split
    · rfl
    · rfl

theorem growCurrent_raised (s : State) (r : GrowReq) : growCurrent (raised s r) r.w r.kind = max r.total (growCurrent s r.w r.kind) := by
  have hb : ∀ x, getBlock (setBlock s (blkOf r.w) x) (blkOf r.w) = x := fun x => sget_sset_same _ _ _ _
  unfold growCurrent raised
  by_cases h0 : r.kind = 0
  · simp only [if_pos h0, getWarp_setWarp_same]
  · by_cases h1 : r.kind = 1
    · simp only [if_neg h0, if_pos h1, hb]
    · simp only [if_neg h0, if_neg h1, hb]

theorem growCurrent_growAnswer (s : State) (r : GrowReq) (v : TWord) (kind : Nat) : growCurrent (growAnswer s r v) r.w kind = growCurrent s r.w kind := by
  obtain ⟨hblocks, hwarp, -⟩ := growAnswer_keeps s r v
  unfold growCurrent getBlock
  rw [hblocks, hwarp]

/-- A raised allocation is no part of what an answer reads and leaves. -/
theorem HasAnswer.of_raised {r : GrowReq} {v : TWord} {t : State} (h : HasAnswer r v (raised s r) t) : HasAnswer r v s t := by
  obtain ⟨x, y, hs⟩ := raised_eq s r
  have hw := getWarp_raised s r
  have hsp : getSplit (raised s r) r.w r.k = getSplit s r.w r.k := by unfold getSplit; rw [hw]
  obtain ⟨hreg, hstream⟩ := h
  refine ⟨fun hn => ?_, fun hy => ?_⟩
  · obtain ⟨hv, hr, hsplit, hheld, hq, hf⟩ := hreg hn
    rw [hsp] at hv hr hsplit
    rw [hs] at hr hsplit hf
    rw [hw, hs] at hheld
    exact ⟨hv, hr, hsplit, hheld, hq, hf⟩
  · have hp : pushedAnswer r v (raised s r) = pushedAnswer r v s := by
      unfold pushedAnswer
      rw [hsp, hs]
    obtain ⟨hops, hq, hv, hr⟩ := hstream hy
    rw [hp] at hops
    rw [hs] at hops hv hr
    exact ⟨hops, hq, hv, hr⟩

theorem growGrant_hasAnswer {r : GrowReq} (hq : s.growQ = [r]) : HasAnswer r (TWord.valid (BitVec.ofNat 64 r.total)) s (growGrant s r) ∧
    growCurrent (growGrant s r) r.w r.kind = max r.total (growCurrent s r.w r.kind) := by
  obtain ⟨x, y, hs⟩ := raised_eq s r
  rw [growGrant_eq, growCurrent_growAnswer, growCurrent_raised]
  exact ⟨(growAnswer_hasAnswer (by rw [hs]; exact hq) _).of_raised, rfl⟩

theorem execGrowGrant_one {r : GrowReq} (hq : s.growQ = [r]) : execGrowGrant r.core s = .next (if growFits s r then growGrant s r else s) := by
  unfold execGrowGrant
  rw [hq]
  simp

/-! ### GROW_FAIL (R172) -/

theorem execGrowFail_one {r : GrowReq} (hq : s.growQ = [r]) :
    execGrowFail s = .next (if growStuck s r.core then growAnswer s r ⟨.n, 0⟩ else s) := by
  unfold execGrowFail
  rw [hq]
  cases h : growStuck s r.core with
  | false => simp [h]
  | true =>
    have hdisp : (getBlock s (blkOf r.w)).disp = false := by
      unfold growStuck at h
      rw [hq] at h
      simp at h
      exact h.1.1
    simp [h, hdisp]

theorem growRequestsAnswered : GrowRequestsAnswered := by
  intro s r hq stream answered
  rw [exec_growGrant, exec_growFail, execGrowGrant_one hq, execGrowFail_one hq]
  refine ⟨fun h => ⟨_, by rw [h, if_pos rfl], growGrant_hasAnswer hq⟩, fun h => by rw [h, if_neg Bool.false_ne_true],
    fun h => ⟨_, by rw [h, if_pos rfl], growAnswer_hasAnswer hq _, (growAnswer_keeps s r _).1⟩, fun h => by rw [h, if_neg Bool.false_ne_true]⟩

/-- Settles O14: a request by its total, and its answer by the room that its core has. -/
theorem resourceGrowth : Obligations.ResourceGrowth := ⟨growRequests, growRequestsAnswered⟩

end Sys2Proof.Machine
end

section
/-!
SUPPORT. What the work of memory leaves of nodes and blocks.
-/
namespace Sys2Proof.Machine
open Claims

/-- A block but for what the accesses of its threads and their releases record in it (R220, R221, R448). -/
def lifeOf (x : Block) : Block := { x with releases := 0, races := 0, saturated := false, committed := false }

/-- Memory has worked aside from the dispatch of blocks: the nodes, the next block's name and each block's life are as they were. -/
structure Aside (s t : State) : Prop where
  nodes : t.nodes = s.nodes
  next : t.nextBlk = s.nextBlk
  life : ∀ b, lifeOf (getBlock t b) = lifeOf (getBlock s b)

namespace Aside

theorem refl (s : State) : Aside s s := ⟨rfl, rfl, fun _ => rfl⟩

variable {s t u : State}

theorem trans (h : Aside s t) (h' : Aside t u) : Aside s u :=
  ⟨h'.nodes.trans h.nodes, h'.next.trans h.next, fun b => (h'.life b).trans (h.life b)⟩

theorem getNode (h : Aside s t) (n : Nat) : getNode t n = getNode s n := by unfold Machine.getNode; rw [h.nodes]

theorem ite {p : Prop} [Decidable p] (h : Aside s t) (h' : Aside s u) : Aside s (if p then t else u) := by
  split
  · exact h
  · exact h'

theorem foldl {α : Type} {f : State → α → State} (hf : ∀ s a, Aside s (f s a)) (l : List α) (s : State) : Aside s (l.foldl f s) := by
  induction l generalizing s with
  | nil => exact refl s
  | cons a r ih => exact (hf s a).trans (ih (f s a))

/-- A fold that also carries a value. -/
theorem foldl_fst {α β : Type} {f : State × β → α → State × β} (hf : ∀ p a, Aside p.1 (f p a).1) (l : List α) (p : State × β) :
    Aside p.1 (l.foldl f p).1 := by
  induction l generalizing p with
  | nil => exact refl p.1
  | cons a r ih => exact (hf p a).trans (ih (f p a))

end Aside

section
variable (s : State)

theorem aside_setBlock (b : Nat) {x : Block} (h : lifeOf x = lifeOf (getBlock s b)) : Aside s (setBlock s b x) where
  nodes := rfl
  next := rfl
  life c := by
    by_cases hc : c = b
    · rw [hc, getBlock, setBlock, sget_sset_same, h]
    · rw [getBlock, setBlock, sget_sset_ne _ _ _ _ _ hc]; rfl

/-! ### Acquires (R220, R221) -/

theorem aside_acquireMark (b scope : Nat) (m : Mark) : Aside s (acquireMark s b scope m) := by
  unfold acquireMark
  refine .ite (.refl s) (.foldl (fun t e => ?_) _ s)
  refine .ite (.refl t) (.ite (.refl t) (.ite (aside_setBlock t b rfl) ?_))
  exact ⟨rfl, rfl, fun _ => rfl⟩

theorem aside_acquireAll (b scope : Nat) (ms : List Mark) : Aside s (acquireAll s b scope ms) :=
  .foldl (fun t m => aside_acquireMark t b scope m) ms s

/-! ### Version regions and their frames (R316 to R321) -/

theorem aside_syncWords (ws : List Nat) : Aside s (syncWords s ws) := by
  refine .foldl (fun t k => .ite (.foldl (fun u i => ?_) _ t) (.refl t)) ws s
  obtain ⟨x, y, h⟩ := syncRegion_eq u ((k - t.pkg.vrtab.toNat) / 64 + i)
  rw [h]
  exact ⟨rfl, rfl, fun _ => rfl⟩

theorem aside_writeCells (cs : List Host.Cell) : Aside s (writeCells s cs) := by
  unfold writeCells
  refine Aside.trans ?_ (aside_syncWords _ _)
  exact ⟨rfl, rfl, fun _ => rfl⟩

theorem aside_wrMem (k n v : Nat) : Aside s (wrMem s k n v) := ⟨rfl, rfl, fun _ => rfl⟩

theorem aside_pushDead (v : Nat) : Aside s (pushDead s v).1 := by
  unfold pushDead
  refine Aside.foldl_fst (fun q j => ?_) _ (s, v)
  dsimp only
  split
  · exact ⟨rfl, rfl, fun _ => rfl⟩
  · exact .refl q.1

theorem aside_allocFrame {vdb : Nat} {t : State} (h : allocFrame s vdb = .ok t) : Aside s t := by
  have hplace : ∀ u src dst v, Aside u (putVdb (moveRecords u src dst) vdb v) := fun u src dst v => ⟨rfl, rfl, fun _ => rfl⟩
  have hclean : ∀ u f, Aside u (cleanFrame u f) := fun u f => ⟨rfl, rfl, fun _ => rfl⟩
  obtain ⟨p, hpd⟩ : ∃ p, pushDead s (rdVdb s vdb) = p := ⟨_, rfl⟩
  have hp : Aside s p.1 := hpd ▸ aside_pushDead s (rdVdb s vdb)
  simp only [allocFrame, hpd] at h
  split at h
  · cases h
  split at h
  · cases h
    exact hp.trans ((hclean _ _).trans (hplace _ _ _ _))
  split at h
  · cases h
  split at h
  · cases h
  · cases h
    exact hp.trans ((aside_wrMem _ _ _ _).trans (hplace _ _ _ _))

theorem aside_verFill (vdb off : Nat) (whole : Bool) : Aside s (verFill s vdb off whole) := by
  unfold verFill
  refine .ite (.refl s) (.trans ?_ (aside_wrMem _ _ _ _))
  exact .ite (.refl s) ⟨rfl, rfl, fun _ => rfl⟩

theorem aside_redirect {key : Nat} {r : State × Nat} (h : redirect s key = some r) : Aside s r.1 := by
  obtain ⟨home, hh⟩ : ∃ o, frameHome s (key / 2 ^ 16) = o := ⟨_, rfl⟩
  obtain ⟨working, hc⟩ : ∃ c : Nat → Bool, ∀ vdb, vdbWv (rdVdb s vdb) = c vdb := ⟨_, fun _ => rfl⟩
  simp only [redirect, hh, hc] at h
  split at h
  · cases h
  split at h
  · cases h
  next vdb _ _ s1 hs =>
    cases h
    refine Aside.trans ?_ (aside_verFill s1 _ _ _)
    split at hs
    · cases hs; exact .refl s
    · exact aside_allocFrame s hs

/-! ### Caches (R187 to R193, R204, R448) -/

theorem aside_commitBlock (b : Nat) : Aside s (commitBlock s b) := by
  unfold commitBlock
  refine Aside.trans (Aside.trans ?_ (aside_syncWords _ _)) (aside_setBlock _ b rfl)
  exact ⟨rfl, rfl, fun _ => rfl⟩

theorem aside_wbFrozen (die : Nat) (e : Nat × Byte) : Aside s (wbFrozen die s e) := by
  unfold wbFrozen
  split
  · exact .refl s
  next s1 k h =>
    refine (aside_redirect s h).trans (Aside.trans ?_ (aside_writeCells _ _))
    exact ⟨rfl, rfl, fun _ => rfl⟩

theorem aside_copyMarks (src dst : Nat → Nat) (ks : List Nat) : Aside s (copyMarks s src dst ks) :=
  .ite (.refl s) ⟨rfl, rfl, fun _ => rfl⟩

theorem aside_swc (x : List (Nat × Option (Byte × Bool))) : Aside s { s with swc := x } := ⟨rfl, rfl, fun _ => rfl⟩

theorem aside_wbL1 (p : Nat → Bool) (core : Nat) : Aside s (wbL1 p s core) := (aside_copyMarks s _ _ _).trans (aside_swc _ _)

theorem aside_wbDc (p : Nat → Bool) (die : Nat) : Aside s (wbDc p s die) := by
  unfold wbDc
  refine Aside.trans ?_ (Aside.foldl (fun t e => aside_wbFrozen t die e) _ _)
  refine Aside.trans ?_ (aside_writeCells _ _)
  refine Aside.trans ?_ (Aside.foldl (fun t e => .ite (.refl t) (.foldl aside_commitBlock _ t)) _ _)
  refine Aside.trans ?_ (Aside.foldl (fun t k => ?_) _ _)
  · refine Aside.trans ((aside_copyMarks s _ _ _).trans (aside_swc _ _)) (Aside.foldl (fun t k => ?_) _ _)
    exact ⟨rfl, rfl, fun _ => rfl⟩
  · split
    · exact ⟨rfl, rfl, fun _ => rfl⟩
    · exact .refl t

theorem aside_dropCache (p : Nat → Bool) (cache : Nat) : Aside s (dropCache p s cache) := aside_swc s _

theorem aside_acquireNow (w scope : Nat) : Aside s (acquireNow s w scope) := by
  refine .ite (.refl s) (.trans (t := wbScope s (dieOf s w) scope fun _ => true) ?_ ?_)
  · exact .ite (.refl s) ((Aside.foldl (fun t c => aside_wbL1 t _ c) _ s).trans (.foldl (fun t d => aside_wbDc t _ d) _ _))
  · exact (Aside.foldl (fun t _ => aside_dropCache t _ _) _ _).trans (.foldl (fun t _ => aside_dropCache t _ _) _ _)

end

end Sys2Proof.Machine
end

section
/-!
R348, R361: BLOCK_DISPATCH.
-/
namespace Sys2Proof.Machine
open Claims

/-! ### The warps of a new block (R348) -/

/-- The warps of a new block with their argument words. -/
def startWarps (b r : Nat) (args : List TWord) (sps : List Spot) (s : State) : State :=
  sps.foldl (fun s sp => { setWarp s (32 * b + sp.warp) (newWarp r sp) with
    sregs := ssetAll TWord.zero s.sregs ((args.zipIdx).map (fun e => (skey (32 * b + sp.warp) e.2, e.1))) }) s

theorem startWarps_eq (b r : Nat) (args : List TWord) (sps : List Spot) (s : State) :
    ∃ x y, startWarps b r args sps s = { s with warps := x, sregs := y } := by
  induction sps generalizing s with
  | nil => exact ⟨s.warps, s.sregs, rfl⟩
  | cons sp sps ih =>
    obtain ⟨x, y, h⟩ := ih { setWarp s (32 * b + sp.warp) (newWarp r sp) with
      sregs := ssetAll TWord.zero s.sregs ((args.zipIdx).map (fun e => (skey (32 * b + sp.warp) e.2, e.1))) }
    exact ⟨x, y, h⟩

/-- A warp that has started stays one that has started. -/
theorem startWarps_started {b r : Nat} {args : List TWord} (sps : List Spot) {s : State} {w : Nat} (h : ∃ sp, getWarp s w = newWarp r sp) :
    ∃ sp, getWarp (startWarps b r args sps s) w = newWarp r sp := by
  induction sps generalizing s with
  | nil => exact h
  | cons sp sps ih =>
    refine ih ?_
    by_cases hw : w = 32 * b + sp.warp
    · exact ⟨sp, hw ▸ getWarp_setWarp_same _ _ _⟩
    · obtain ⟨sp', h'⟩ := h
      exact ⟨sp', (getWarp_setWarp_ne _ _ _ _ hw).trans h'⟩

/-- Every warp that has its place starts. -/
theorem startWarps_starts {b r : Nat} {args : List TWord} {sps : List Spot} {s : State} {sp : Spot} (h : sp ∈ sps) :
    ∃ sp', getWarp (startWarps b r args sps s) (32 * b + sp.warp) = newWarp r sp' := by
  induction sps generalizing s with
  | nil => cases h
  | cons a sps ih =>
    rcases List.mem_cons.1 h with rfl | h
    · exact startWarps_started sps ⟨sp, getWarp_setWarp_same _ _ _⟩
    · exact ih h

/-! ### A new block (R348) -/

/-- The record of a new block that is a cluster of its own. -/
def newBlock (s : State) (num : Nat) (n : Node) (lin : Nat) (p : Placed) : Block :=
  let r := n.rcd
  { Block.none with
    state := 1, die := n.die, core := p.1, seq := sget 0 s.seqs n.die, lrec := n.lrec, launchid := BitVec.ofNat 64 (rcLaunchid r), blocklin := lin,
    aspace := BitVec.ofNat 21 n.asid, attempt := n.attempt, rst := rcRst r, dual := rcDual r, coop := rcCoop r && !isBatch n, prio := nodePrio s n,
    rank := lin % rcCluster r, cluster := s.nextBlk, csize := rcCluster r, node := num, warps := rcWarps r, tsbytes := 1024 * rcTsk r,
    tiles := rcTiles r, naos := rcNaos r, ncb := rcNcb r }

/-- The argument words of a launch. -/
def argWords (r : Nat) : List TWord := (List.range (rcNargs r)).map (fun j => TWord.valid (BitVec.ofNat 64 (rcArg r j)))

/-- The state with a new block before it acquires its launch. -/
def startedBlock (s : State) (num : Nat) (n : Node) (lin : Nat) (p : Placed) : State :=
  let b := s.nextBlk
  let s1 := setBlock { s with nextBlk := b + 1, seqs := sset 0 s.seqs n.die (sget 0 s.seqs n.die + 1) } b (newBlock s num n lin p)
  let s3 := setAo (startWarps b n.rcd (argWords n.rcd) p.2 s1) b 0 { AObj.init with expected := 32 * rcWarps n.rcd }
  setCbar s3 b { AObj.init with expected := 0 + 32 * rcWarps n.rcd }

theorem startBlock_eq (s : State) (num : Nat) (n : Node) (lin : Nat) (p : Placed) : startBlock s num n s.nextBlk lin p =
    acquireAll (acquireNow (startedBlock s num n lin p) (32 * s.nextBlk)
      (max (if n.after then 3 else 0) (rcScope (launchRec s n)))) s.nextBlk 7 n.marks := by
  unfold startBlock
  simp only [if_true]
  rfl

/-- What the dispatch of a block leaves of the nodes, the block and its warps. -/
structure Started (s : State) (num : Nat) (n : Node) (lin : Nat) (p : Placed) (t : State) : Prop where
  next : t.nextBlk = s.nextBlk + 1
  nodes : t.nodes = s.nodes
  state : (getBlock t s.nextBlk).state = 1
  die : (getBlock t s.nextBlk).die = n.die
  core : (getBlock t s.nextBlk).core = p.1
  lin : (getBlock t s.nextBlk).blocklin = lin
  node : (getBlock t s.nextBlk).node = num
  warps : (getBlock t s.nextBlk).warps = rcWarps n.rcd
  tsbytes : (getBlock t s.nextBlk).tsbytes = 1024 * rcTsk n.rcd
  tiles : (getBlock t s.nextBlk).tiles = rcTiles n.rcd
  starts : ∀ sp ∈ p.2, ∃ sp', getWarp t (32 * s.nextBlk + sp.warp) = newWarp n.rcd sp'

theorem started_startedBlock (s : State) (num : Nat) (n : Node) (lin : Nat) (p : Placed) : Started s num n lin p (startedBlock s num n lin p) := by
  obtain ⟨x, y, hw⟩ := startWarps_eq s.nextBlk n.rcd (argWords n.rcd) p.2
    (setBlock { s with nextBlk := s.nextBlk + 1, seqs := sset 0 s.seqs n.die (sget 0 s.seqs n.die + 1) } s.nextBlk (newBlock s num n lin p))
  have hx : ∃ ao cb, startedBlock s num n lin p = { s with
      nextBlk := s.nextBlk + 1, seqs := sset 0 s.seqs n.die (sget 0 s.seqs n.die + 1), warps := x, sregs := y, aos := ao, cbars := cb,
      blocks := sset Block.none s.blocks s.nextBlk (newBlock s num n lin p) } := by
    unfold startedBlock
    dsimp only
    rw [hw]
    exact ⟨_, _, rfl⟩
  obtain ⟨ao, cb, hx⟩ := hx
  have hb : getBlock (startedBlock s num n lin p) s.nextBlk = newBlock s num n lin p := by
    unfold getBlock
    rw [hx]
    exact sget_sset_same _ _ _ _
  refine ⟨by rw [hx], by rw [hx], by rw [hb]; rfl, by rw [hb]; rfl, by rw [hb]; rfl, by rw [hb]; rfl, by rw [hb]; rfl, by rw [hb]; rfl,
    by rw [hb]; rfl, by rw [hb]; rfl, fun sp hsp => ?_⟩
  exact startWarps_starts hsp

/-- Memory's work aside leaves a block that has started. -/
theorem Started.of_aside {s t u : State} {num : Nat} {n : Node} {lin : Nat} {p : Placed} (h : Started s num n lin p t) (ha : Aside t u) (hb : Behind t u) :
    Started s num n lin p u := by
  have hlife := ha.life s.nextBlk
  exact ⟨ha.next.trans h.next, ha.nodes.trans h.nodes, (congrArg Block.state hlife).trans h.state, (congrArg Block.die hlife).trans h.die,
    (congrArg Block.core hlife).trans h.core, (congrArg Block.blocklin hlife).trans h.lin, (congrArg Block.node hlife).trans h.node,
    (congrArg Block.warps hlife).trans h.warps, (congrArg Block.tsbytes hlife).trans h.tsbytes, (congrArg Block.tiles hlife).trans h.tiles,
    fun sp hsp => by rw [hb.getWarp]; exact h.starts sp hsp⟩

theorem started_startBlock (s : State) (num : Nat) (n : Node) (lin : Nat) (p : Placed) : Started s num n lin p (startBlock s num n s.nextBlk lin p) := by
  rw [startBlock_eq]
  exact ((started_startedBlock s num n lin p).of_aside (aside_acquireNow _ _ _) (behind_acquireNow _ _ _)).of_aside (aside_acquireAll _ _ _ _)
    (behind_acquireAll _ _ _ _)

/-! ### BLOCK_DISPATCH (R361) -/

/-- A node without saved blocks whose next group is one block. -/
theorem dispatchNode_one {s : State} {num : Nat} {n : Node} {lin : Nat} (p : Placed) (hs : n.saved = []) (hg : newGroups n = [[lin]]) :
    dispatchNode s num n [p] = startBlock (setNode s num (some { n with next := lin + 1 })) num n s.nextBlk lin p := by
  have hr : (savedReady s n).isEmpty = true := by unfold savedReady; rw [hs]; rfl
  unfold dispatchNode
  rw [if_pos hr, hg]
  rfl

theorem blockDispatch_starts {s : State} {die num : Nat} {n : Node} {lin : Nat} {p : Placed} (h : findPlace s (readyNodes s die) = some (num, n, [p]))
    (hs : n.saved = []) (hg : newGroups n = [[lin]]) : ∃ t, exec (.blockDispatch die) s = .next t ∧
      (getNode t num).map (fun x => x.next) = some (lin + 1) ∧ Started (setNode s num (some { n with next := lin + 1 })) num n lin p t := by
  have hst := started_startBlock (setNode s num (some { n with next := lin + 1 })) num n lin p
  refine ⟨_, ?_, ?_, hst⟩
  · rw [exec_blockDispatch, execBlockDispatch, blockDispatch, h]
    exact congrArg Host.Outcome.next (dispatchNode_one p hs hg)
  · unfold getNode
    rw [hst.nodes]
    exact congrArg (Option.map fun x : Node => x.next) (sget_sset_same _ _ _ _)

theorem blockDispatch_none {s : State} {die : Nat} (h : findPlace s (readyNodes s die) = none) : exec (.blockDispatch die) s = .next s := by
  rw [exec_blockDispatch, execBlockDispatch, blockDispatch, h]
  rfl

end Sys2Proof.Machine
end

section
/-!
R168, R446, R447: BLOCK_COMPLETE.
-/
namespace Sys2Proof.Machine
open Claims

/-! ### What the end of a block keeps until it is erased -/

/-- The operations and the registers of threads. -/
def workOf (s : State) := (s.ops, s.vregs, s.sregs)

theorem workOf_behind {s t : State} (h : Behind s t) : workOf t = workOf s := by
  unfold workOf
  rw [h.ops, h.vregs, h.sregs]

theorem workOf_foldl {α : Type} {f : State → α → State} (hf : ∀ s a, workOf (f s a) = workOf s) (l : List α) (s : State) :
    workOf (l.foldl f s) = workOf s := by
  induction l generalizing s with
  | nil => rfl
  | cons a l ih => exact (ih _).trans (hf s a)

theorem workOf_wakeWaits (s : State) (b k : Nat) (o : AObj) : workOf (wakeWaits s b k o) = workOf s := by
  unfold wakeWaits
  exact workOf_foldl (fun t sc => workOf_behind (behind_acquireAll t b sc o.prev)) _ _

theorem workOf_leaveCluster (s : State) (b cl : Nat) : workOf (leaveCluster s b cl) = workOf s := by
  unfold leaveCluster
  split
  · rfl
  · unfold putCbar
    exact workOf_foldl (fun t c => workOf_wakeWaits t c 64 _) _ _

theorem workOf_releaseRecords (s : State) (b : Nat) : workOf (releaseRecords s b) = workOf s := by
  unfold releaseRecords
  split
  · rfl
  · rfl

/-! ### Cuts and closes of a graph (R367, R370) -/

theorem cutBatch_eq (s : State) (gid : Nat) (g : Graph) (j n : Nat) : ∃ gs ns k, cutBatch s gid g j n = { s with graphs := gs, nodes := ns, nextNode := k } := by
  unfold cutBatch
  split
  · exact ⟨s.graphs, s.nodes, s.nextNode, rfl⟩
  · exact ⟨_, _, _, rfl⟩

theorem graphChange_eq {s t : State} {gid : Nat} {g : Graph} (h : graphChange s gid g = some t) :
    ∃ gs ns k, t = { s with graphs := gs, nodes := ns, nextNode := k } := by
  unfold graphChange at h
  rcases Option.or_eq_some_iff.1 h with h | ⟨-, h⟩
  · split at h
    · obtain ⟨i, -, hi⟩ := List.exists_of_findSome?_eq_some h
      split at hi
      · split at hi
        · cases hi; exact cutBatch_eq _ _ _ _ _
        · cases hi
      · cases hi
    · cases h
  · obtain ⟨i, -, hi⟩ := List.exists_of_findSome?_eq_some h
    split at hi
    · split at hi
      · cases hi; exact ⟨_, s.nodes, s.nextNode, rfl⟩
      · cases hi
    · cases hi

theorem graphTick_eq (gid n : Nat) (s : State) : ∃ gs ns k, graphTick gid n s = { s with graphs := gs, nodes := ns, nextNode := k } := by
  induction n generalizing s with
  | zero => exact ⟨s.graphs, s.nodes, s.nextNode, rfl⟩
  | succ n ih =>
    unfold graphTick
    split
    · exact ⟨s.graphs, s.nodes, s.nextNode, rfl⟩
    · split
      · exact ⟨s.graphs, s.nodes, s.nextNode, rfl⟩
      · next h =>
        obtain ⟨_, _, _, rfl⟩ := graphChange_eq h
        exact ih _

theorem tickGraph_eq (s : State) (gid : Nat) : ∃ gs ns k, tickGraph s gid = { s with graphs := gs, nodes := ns, nextNode := k } := by
  unfold tickGraph
  split
  · exact graphTick_eq _ _ _
  · exact ⟨s.graphs, s.nodes, s.nextNode, rfl⟩

/-! ### A block that ends and is not relaunched (R446) -/

/-- The release that the end of a block performs, with the marks that its node passes on; a killed block releases nothing. -/
def blockReleases (s : State) (b : Nat) : State × List Mark :=
  let s2 := if !(getBlock s b).killed && provisional s b then commitBlock s b else s
  if (getBlock s b).killed then (s2, []) else ((performRelease s2 b 7).1, [(performRelease s2 b 7).2])

/-- The state in which a block that ends has been counted in its node. -/
def blockCounted (s : State) (b : Nat) : State :=
  let s3 := releaseRecords (blockReleases s b).1 b
  match getNode s3 (getBlock s b).node with
  | some n => setNode s3 (getBlock s b).node (some (nodeAfter n b (getBlock s b) (blockReleases s b).2))
  | none => s3

theorem endBlock_eq {s : State} {b : Nat} (h : relaunches (getBlock s b) = false) : endBlock s b =
    .ok (match (getNode s (getBlock s b).node).bind (fun n => n.graph) with
      | some g => tickGraph (eraseBlock (leaveCluster (blockCounted s b) b (getBlock s b).cluster) b) g
      | none => eraseBlock (leaveCluster (blockCounted s b) b (getBlock s b).cluster) b) := by
  unfold endBlock
  simp only [h, Bool.false_eq_true, if_false]
  rfl

theorem workOf_blockReleases (s : State) (b : Nat) : workOf (blockReleases s b).1 = workOf s := by
  have hc : workOf (if !(getBlock s b).killed && provisional s b then commitBlock s b else s) = workOf s := by
    split
    · exact workOf_behind (behind_commitBlock s b)
    · rfl
  unfold blockReleases
  dsimp only
  split
  · exact hc
  · exact (workOf_behind (behind_performRelease _ b 7)).trans hc

theorem workOf_blockCounted (s : State) (b : Nat) : workOf (blockCounted s b) = workOf s := by
  unfold blockCounted
  dsimp only
  split
  · exact (workOf_releaseRecords _ b).trans (workOf_blockReleases s b)
  · exact (workOf_releaseRecords _ b).trans (workOf_blockReleases s b)

theorem endBlock_erases {s : State} {b : Nat} (h : relaunches (getBlock s b) = false) :
    ∃ u gs ns k, workOf u = workOf s ∧ endBlock s b = .ok { eraseBlock u b with graphs := gs, nodes := ns, nextNode := k } := by
  rw [endBlock_eq h]
  have hu : workOf (leaveCluster (blockCounted s b) b (getBlock s b).cluster) = workOf s :=
    (workOf_leaveCluster _ _ _).trans (workOf_blockCounted s b)
  generalize leaveCluster (blockCounted s b) b (getBlock s b).cluster = u at hu
  split
  · next g _ =>
    obtain ⟨gs, ns, k, ht⟩ := tickGraph_eq (eraseBlock u b) g
    exact ⟨u, gs, ns, k, hu, congrArg Except.ok ht⟩
  · exact ⟨u, _, _, _, hu, rfl⟩

/-- What outlives a block is told by the operation alone. -/
theorem outlives_congr (s t : State) (o : Op) : outlives s o = outlives t o := by
  unfold outlives opStays
  cases o.kind <;> rfl

/-- The operations of a block that is over outlive it, and it was killed. -/
theorem killed_of_blockOver {s : State} {b : Nat} (h : blockOver s b = true) {o : Op} (ho : o ∈ s.ops) (hb : blkOf o.w = b) :
    (getBlock s b).killed = true := by
  unfold blockOver at h
  simp only [Bool.and_eq_true, List.all_eq_true, Bool.or_eq_true, decide_eq_true_eq] at h
  rcases h.2 o ho with hn | ha
  · exact absurd hb hn
  · unfold opAbandoned at ha
    rw [hb, Bool.and_eq_true] at ha
    exact ha.1

/-! ### What is erased -/

theorem getWarp_eraseBlock (s : State) (b : Nat) {w : Nat} (h : blkOf w = b) : getWarp (eraseBlock s b) w = Warp.none := by
  show sget Warp.none (dropKeys s.warps (32 * b) 32) w = _
  rw [sget_dropKeys, if_neg (by unfold blkOf at h; omega)]

theorem rdReg_eraseBlock_own (s : State) {b w r l : Nat} (h : blkOf w = b) (hl : l < 32) (hr : r < 0xE0) : rdReg (eraseBlock s b) w r l = TWord.zero := by
  unfold blkOf at h
  have hv : r < 0xC0 → sget TWord.zero (dropKeys s.vregs (vkey (32 * b) 0 0) (32 * 32 * 192)) (vkey w l r) = TWord.zero := fun h0 => by
    rw [sget_dropKeys, if_neg (by unfold vkey; omega)]
  have hs : sget TWord.zero (dropKeys s.sregs (skey (32 * b) 0) (32 * 32)) (skey w (r - 0xC0)) = TWord.zero := by
    rw [sget_dropKeys, if_neg (by unfold skey; omega)]
  unfold rdReg
  by_cases h0 : r < 0xC0
  · rw [if_pos h0]
    exact hv h0
  · rw [if_neg h0, if_pos hr]
    exact hs

theorem rdReg_eraseBlock_ne (s : State) {b w r l : Nat} (h : blkOf w ≠ b) (hl : l < 32) : rdReg (eraseBlock s b) w r l = rdReg s w r l := by
  unfold blkOf at h
  have hv : r < 0xC0 → sget TWord.zero (dropKeys s.vregs (vkey (32 * b) 0 0) (32 * 32 * 192)) (vkey w l r) =
      sget TWord.zero s.vregs (vkey w l r) := fun h0 => by
    rw [sget_dropKeys, if_pos (by unfold vkey; omega)]
  have hs : r < 0xE0 → sget TWord.zero (dropKeys s.sregs (skey (32 * b) 0) (32 * 32)) (skey w (r - 0xC0)) =
      sget TWord.zero s.sregs (skey w (r - 0xC0)) := fun h0 => by
    rw [sget_dropKeys, if_pos (by unfold skey; omega)]
  unfold rdReg
  by_cases h0 : r < 0xC0
  · rw [if_pos h0, if_pos h0]
    exact hv h0
  · rw [if_neg h0, if_neg h0]
    by_cases h1 : r < 0xE0
    · rw [if_pos h1, if_pos h1]
      exact hs h1
    · rw [if_neg h1, if_neg h1]

/-- The operations of an erased block that are left outlive it. -/
theorem mem_ops_eraseBlock {s : State} {b : Nat} {o : Op} (h : o ∈ (eraseBlock s b).ops) (hb : blkOf o.w = b) : o ∈ s.ops ∧ outlives s o = true := by
  obtain ⟨ho, hk⟩ := List.mem_filter.1 h
  rw [Bool.or_eq_true, decide_eq_true_eq] at hk
  exact ⟨ho, hk.resolve_left fun hn => hn hb⟩

theorem getBlock_eraseBlock_state (s : State) (b : Nat) : (getBlock (eraseBlock s b) b).state = 0 := by
  have h : getBlock (eraseBlock s b) b = _ := sget_sset_same _ _ _ _
  rw [h]
  split
  · rfl
  · rfl

theorem getBlock_eraseBlock_none {s : State} {b : Nat} (h : ∀ o ∈ s.ops, blkOf o.w = b → outlives s o = false) :
    getBlock (eraseBlock s b) b = Block.none := by
  have hg : getBlock (eraseBlock s b) b = _ := sget_sset_same _ _ _ _
  have hk : s.ops.any (fun o => decide (blkOf o.w = b) && outlives s o) = false := by
    refine List.any_eq_false.2 fun o ho hc => ?_
    rw [Bool.and_eq_true, decide_eq_true_eq] at hc
    exact Bool.false_ne_true ((h o ho hc.1).symm.trans hc.2)
  rw [hg, hk]
  rfl

/-! ### BLOCK_COMPLETE -/

theorem blockComplete_none {s : State} {b : Nat} (h : blockOver s b = false) : exec (.blockComplete b) s = .next s := by
  rw [exec_blockComplete, execBlockComplete, h]
  rfl

theorem blockComplete_ends {s : State} {b : Nat} (ho : blockOver s b = true) (hr : relaunches (getBlock s b) = false) :
    ∃ t, exec (.blockComplete b) s = .next t ∧ (getBlock t b).state = 0 ∧
      (∀ o ∈ t.ops, blkOf o.w = b → outlives s o = true ∧ (getBlock s b).killed = true) ∧
      ((∀ o ∈ s.ops, blkOf o.w = b → outlives s o = false) → getBlock t b = Block.none) ∧
      (∀ w, blkOf w = b → getWarp t w = Warp.none ∧ ∀ r l, l < 32 → r < 0xE0 → rdReg t w r l = TWord.zero) ∧
      (∀ w r l, blkOf w ≠ b → l < 32 → rdReg t w r l = rdReg s w r l) := by
  obtain ⟨u, gs, ns, k, hu, he⟩ := endBlock_erases hr
  simp only [workOf, Prod.mk.injEq] at hu
  obtain ⟨hops, hv, hs⟩ := hu
  refine ⟨{ eraseBlock u b with graphs := gs, nodes := ns, nextNode := k }, ?_, getBlock_eraseBlock_state u b, fun o hot hb => ?_, fun h => ?_,
    fun w hw => ⟨getWarp_eraseBlock u b hw, fun r l hl hr0 => rdReg_eraseBlock_own u hw hl hr0⟩,
    fun w r l hw hl => (rdReg_eraseBlock_ne u hw hl).trans (rdReg_of_regs hv hs w r l)⟩
  · rw [exec_blockComplete, execBlockComplete, ho, he]
    rfl
  · obtain ⟨hou, hout⟩ := mem_ops_eraseBlock hot hb
    rw [hops] at hou
    exact ⟨(outlives_congr s u o).trans hout, killed_of_blockOver ho hou hb⟩
  · exact getBlock_eraseBlock_none fun o hou hb => (outlives_congr u s o).trans (h o (hops ▸ hou) hb)

end Sys2Proof.Machine
end

section
/-!
R350, R360: NODE_RETIRE.
-/
namespace Sys2Proof.Machine
open Claims

/-! ### The update of a completion record leaves the threads (R350) -/

theorem behind_touch (s : State) (a : Agent) (va : Nat) (l : Leaf) (write : Bool) : Behind s (touch s a va l write) := by
  obtain ⟨m, tl, o, h⟩ := touch_eq s a va l write
  rw [h]
  exact ⟨rfl, fun _ => rfl⟩

theorem behind_writeHome (s : State) (who key n v : Nat) : Behind s (writeHome s who key n v) := by
  unfold writeHome
  refine (behind_foreignCommit s who key n).trans (.ite (.refl _) (.trans ?_ (behind_syncRegions _ _ _)))
  exact ⟨rfl, fun _ => rfl⟩

theorem behind_writeMarks (s : State) (key n : Nat) (keep : Bool) (m : List Mark) : Behind s (writeMarks s key n keep m) :=
  .ite (.refl s) ⟨rfl, fun _ => rfl⟩

theorem behind_dwsWrite (s : State) (a : Agent) (ps : List (Leaf × Nat × Nat × Nat)) (v : Nat) (ms : List Mark) : Behind s (dwsWrite s a ps v ms) := by
  unfold dwsWrite
  refine Behind.trans ?_ (Behind.foldl_fst (fun p e => (behind_writeHome p.1 _ _ _ _).trans (behind_writeMarks _ _ _ _ _)) ps (dwsTouch s a true ps, v))
  exact Behind.foldl (fun t p => behind_touch t _ _ _ _) ps s

theorem behind_crecUpdate {s t : State} {die rec : Nat} {denied : List Nat} {blocks races relaunch state code : Nat} {ms : List Mark}
    (h : crecUpdate s die rec denied blocks races relaunch state code ms = .ok t) : Behind s t := by
  unfold crecUpdate at h
  split at h
  · cases h; exact .refl s
  · dsimp only at h
    split at h
    · cases h
    · cases h; exact .refl s
    · cases h
      exact (behind_wbScope s _ _ _).trans (behind_dwsWrite _ _ _ _ _)

/-! ### The nodes after a retirement (R360) -/

/-- A node after the retirement of another: it waits for it no more. -/
def releasedFrom (num : Nat) (n m : Node) : Node :=
  if m.deps.contains num then { m with deps := m.deps.filter (fun d => d ≠ num), marks := (n.out ++ m.marks).dedup, after := true } else m

theorem deps_releasedFrom (num : Nat) (n m : Node) : (releasedFrom num n m).deps.contains num = false := by
  unfold releasedFrom
  split
  · simp
  · next h => exact Bool.eq_false_iff.2 h

theorem getNode_releaseDeps (s : State) (num : Nat) (n : Node) (k : Nat) : getNode (releaseDeps s num n) k = (getNode s k).map (releasedFrom num n) :=
  sget_map_snd none (fun _ x => x.map (releasedFrom num n)) s.nodes k rfl

theorem getNode_setNode_releaseDeps (s : State) (num : Nat) (n : Node) : getNode (setNode (releaseDeps s num n) num none) num = none ∧
    ∀ k x, getNode (setNode (releaseDeps s num n) num none) k = some x → x.deps.contains num = false := by
  refine ⟨sget_sset_same _ _ _ _, fun k x hx => ?_⟩
  by_cases hk : k = num
  · rw [hk] at hx
    cases (sget_sset_same _ _ _ _).symm.trans hx
  · have hne : getNode (setNode (releaseDeps s num n) num none) k = getNode (releaseDeps s num n) k := sget_sset_ne _ _ _ _ _ hk
    rw [hne, getNode_releaseDeps] at hx
    obtain ⟨m, -, rfl⟩ := Option.map_eq_some_iff.1 hx
    exact deps_releasedFrom num n m

/-- What a retirement leaves of the registers and, where no batch retires, of the nodes. -/
theorem retireNode_leaves {s u : State} {num : Nat} {n : Node} (h : retireNode s num n = .ok u) : u.vregs = s.vregs ∧ u.sregs = s.sregs ∧
    (isBatch n = false → getNode u num = none ∧ ∀ k x, getNode u k = some x → x.deps.contains num = false) := by
  unfold retireNode at h
  dsimp only at h
  split at h
  · cases h
  · next s1 hs1 =>
    have hb := (behind_wbScope s _ _ _).trans (behind_crecUpdate hs1)
    generalize hs2 : (if n.nfy then postDws s1 n.die [0x503, n.id, rcLaunchid n.rcd, nodeState n, 0, 0, 0, 0] n.mask else s1) = s2 at h
    have hv : s2.vregs = s.vregs ∧ s2.sregs = s.sregs := by
      rw [← hs2]
      split
      · exact ⟨hb.vregs, hb.sregs⟩
      · exact ⟨hb.vregs, hb.sregs⟩
    have hnodes := getNode_setNode_releaseDeps s2 num n
    cases h
    split
    · next hbatch =>
      split
      · next g _ =>
        obtain ⟨gs, ns, k, ht⟩ := tickGraph_eq (setNode (releaseDeps s2 num n) num none) g
        rw [ht]
        exact ⟨hv.1, hv.2, fun hf => absurd (hbatch.symm.trans hf) (by decide)⟩
      · exact ⟨hv.1, hv.2, fun _ => hnodes⟩
    · split
      · exact ⟨hv.1, hv.2, fun _ => hnodes⟩
      · exact ⟨hv.1, hv.2, fun _ => hnodes⟩

theorem nodeRetire_stays {s : State} {die id num : Nat} {n : Node} (hn : nodeById s die id = some (num, n)) (h : nodeOver s n = false) :
    exec (.nodeRetire die id) s = .next s := by
  rw [exec_nodeRetire, execNodeRetire, hn]
  simp only [h, Bool.not_false, if_true]

theorem nodeRetire_retires {s u : State} {die id num : Nat} {n : Node} (hn : nodeById s die id = some (num, n)) (h : nodeOver s n = true)
    (hu : retireNode s num n = .ok u) : exec (.nodeRetire die id) s = .next u := by
  rw [exec_nodeRetire, execNodeRetire, hn]
  simp only [h, Bool.not_true, Bool.false_eq_true, if_false, hu]

/-! ### Blocks start and end -/

theorem blocksStartAndEnd : BlocksStartAndEnd := by
  refine ⟨fun s die => ⟨blockDispatch_none, fun num n lin p hp hs hg => ?_⟩, fun s b => ⟨blockComplete_none, blockComplete_ends⟩,
    fun s die id num n hn => ⟨nodeRetire_stays hn, fun ho u hu => ⟨u, nodeRetire_retires hn ho hu, retireNode_leaves hu⟩⟩⟩
  obtain ⟨t, ht, hnext, hst⟩ := blockDispatch_starts hp hs hg
  refine ⟨t, ht, hst.next, hnext, hst.state, hst.die, hst.core, hst.lin, hst.node, hst.warps, hst.tsbytes, hst.tiles, fun sp hsp => ?_⟩
  obtain ⟨sp', hw⟩ := hst.starts sp hsp
  have hw' : getWarp t (32 * s.nextBlk + sp.warp) = newWarp n.rcd sp' := hw
  unfold getSplit
  rw [hw']
  exact ⟨rfl, rfl, rfl⟩

end Sys2Proof.Machine
end

section
/-!
R362, R443 to R445: PRIORITY_PREEMPT.
-/
namespace Sys2Proof.Machine
open Claims

/-! ### A save leaves the nodes until its block is recorded (R443, R444) -/

theorem nodes_foldl {α : Type} {f : State → α → State} (hf : ∀ s a, (f s a).nodes = s.nodes) (l : List α) (s : State) :
    (l.foldl f s).nodes = s.nodes := by
  induction l generalizing s with
  | nil => rfl
  | cons a l ih => exact (ih _).trans (hf s a)

theorem nodes_wakeSatisfied (s : State) (w k obj : Nat) (d : Option Nat) (scope : Nat) : (wakeSatisfied s w k obj d scope).nodes = s.nodes := by
  have ha := (aside_acquireNow s w scope).nodes
  unfold wakeSatisfied
  dsimp only
  split
  · exact ha
  · split
    · exact ha
    · exact (writeNow_nodes _ _ _ _).trans ha

theorem nodes_saveSplit (w k : Nat) (s : State) : (saveSplit w k s).nodes = s.nodes := by
  unfold saveSplit
  dsimp only
  split
  case h_4 => exact nodes_wakeSatisfied _ _ _ _ _ _
  case h_8 => split <;> rfl
  all_goals rfl

theorem nodes_saveSplits (s : State) (b : Nat) : (saveSplits s b).nodes = s.nodes := by
  unfold saveSplits
  exact nodes_foldl (fun t (e : Nat × Warp) => nodes_foldl (fun u (x : Nat × Split) => nodes_saveSplit e.1 x.1 u) _ t) _ _

theorem nodes_fillMem (s : State) (lo n v : Nat) : (fillMem s lo n v).nodes = s.nodes := rfl

theorem nodes_copyMem (s : State) (src dst n : Nat) : (copyMem s src dst n).nodes = s.nodes := rfl

theorem nodes_fills {α : Type} (lo n v : α → Nat) (l : List α) (s : State) : (l.foldl (fun t a => fillMem t (lo a) (n a) (v a)) s).nodes = s.nodes :=
  nodes_foldl (fun t a => nodes_fillMem t (lo a) (n a) (v a)) l s

theorem nodes_saveWarp (s : State) (base w : Nat) : (saveWarp s base w).nodes = s.nodes := by
  unfold saveWarp
  dsimp only
  rw [nodes_fills, nodes_fillMem, nodes_fills, nodes_fillMem, nodes_fillMem]
  exact nodes_foldl (fun t (r : Nat) => (nodes_fillMem _ _ _ _).trans (nodes_fillMem t _ _ _)) _ s

theorem nodes_saveUnits (s : State) (b base : Nat) : (saveUnits s b base).nodes = s.nodes := by
  unfold saveUnits
  dsimp only
  refine (nodes_foldl (fun t (e : Nat × Warp) => nodes_fills _ _ _ _ t) _ _).trans ?_
  rw [nodes_fills, nodes_fills, nodes_fillMem, nodes_fills, nodes_fills, nodes_fills]

theorem nodes_saveCtx (s : State) (b slot : Nat) (held : Bool) : (saveCtx s b slot held).nodes = s.nodes := by
  unfold saveCtx
  dsimp only
  rw [nodes_copyMem, nodes_fills, nodes_copyMem, nodes_saveUnits]
  exact nodes_foldl (fun t (e : Nat × Warp) => nodes_saveWarp t _ _) _ _

/-! ### The end of a pre-emption (R445) -/

/-- The state in which a block's context stands in its slot. -/
def contextSaved (s : State) (b slot : Nat) (hold : Bool) : State :=
  let x := getBlock s b
  let s0 : State := { s with pend := s.pend.filter (fun p => blkOf p.w ≠ b), bnPend := s.bnPend.filter (fun p => blkOf p.w ≠ b) }
  saveCtx (dropCache (fun _ => true) (wbL1 (fun _ => true) (saveSplits s0 b) (48 * x.die + x.core)) (l1Of (48 * x.die + x.core))) b slot hold

/-- The state in which a block is saved, before its node may resume it. -/
def blockSaved (s : State) (b slot : Nat) (hold : Bool) : State :=
  let x := getBlock s b
  let s2 := contextSaved s b slot hold
  let ents := (s2.fwdEnts.filter (fun e => towards s2 e.2)) ++ (if towards s2 b then [(48 * x.die + x.core, b)] else [])
  setBlock { s2 with fwdEnts := ents, sslots := sset none s2.sslots (64 * x.die + slot) (some { blk := b, at_ := s2.nextOp }), nextOp := s2.nextOp + 1 } b
    { x with state := if hold then 3 else 2, saving := false }

theorem saveBlock_eq {s : State} {b : Nat} (slot : Nat) (hold : Bool) (h : (getBlock s b).killed = false) : saveBlock s b slot hold =
    if hold then blockSaved s b slot hold
    else match getNode (blockSaved s b slot hold) (getBlock s b).node with
      | some n => setNode (blockSaved s b slot hold) (getBlock s b).node (some { n with saved := n.saved ++ [b] })
      | none => blockSaved s b slot hold := by
  unfold saveBlock
  exact if_neg (by rw [h]; exact Bool.false_ne_true)

theorem nodes_blockSaved (s : State) (b slot : Nat) (hold : Bool) : (blockSaved s b slot hold).nodes = s.nodes := by
  show (contextSaved s b slot hold).nodes = _
  unfold contextSaved
  dsimp only
  rw [nodes_saveCtx, (aside_dropCache _ _ _).nodes, (aside_wbL1 _ _ _).nodes, nodes_saveSplits]

/-- What saving a block leaves of it, its slot and its node. -/
theorem saveBlock_leaves {s : State} {b : Nat} (slot : Nat) (hold : Bool) (h : (getBlock s b).killed = false) :
    getBlock (saveBlock s b slot hold) b = { getBlock s b with state := if hold then 3 else 2, saving := false } ∧
    ((sget none (saveBlock s b slot hold).sslots (64 * (getBlock s b).die + slot)).map (fun x => x.blk)) = some b ∧
    (hold = false → ∀ n, getNode s (getBlock s b).node = some n →
      getNode (saveBlock s b slot hold) (getBlock s b).node = some { n with saved := n.saved ++ [b] }) := by
  have hblk : getBlock (blockSaved s b slot hold) b = { getBlock s b with state := if hold then 3 else 2, saving := false } := sget_sset_same _ _ _ _
  have hslot : ((sget none (blockSaved s b slot hold).sslots (64 * (getBlock s b).die + slot)).map (fun x => x.blk)) = some b := by
    have hs : sget none (blockSaved s b slot hold).sslots (64 * (getBlock s b).die + slot) = some { blk := b, at_ := (contextSaved s b slot hold).nextOp } :=
      sget_sset_same _ _ _ _
    rw [hs]
    rfl
  have hnode : ∀ n, getNode (blockSaved s b slot hold) n = getNode s n := fun n => by unfold getNode; rw [nodes_blockSaved]
  rw [saveBlock_eq slot hold h]
  cases hold with
  | true => exact ⟨hblk, hslot, fun hf => absurd hf (by decide)⟩
  | false =>
    rw [if_neg Bool.false_ne_true, hnode]
    cases hn : getNode s (getBlock s b).node with
    | none => exact ⟨hblk, hslot, fun _ n h => by cases h⟩
    | some n =>
      refine ⟨hblk, hslot, fun _ m hm => ?_⟩
      cases hm
      exact sget_sset_same _ _ _ _

/-! ### PRIORITY_PREEMPT (R362) -/

theorem priorityPreempt_stays {s : State} (h : priorityPreempt s = none) : exec .priorityPreempt s = .next s := by
  rw [exec_priorityPreempt, execPriorityPreempt, h]
  rfl

theorem priorityPreempt_finishes {s : State} {r : SaveReq} (h : dwsSave s = some r) : exec .priorityPreempt s = .next (finishSave s r) := by
  rw [exec_priorityPreempt, execPriorityPreempt, priorityPreempt, h]
  rfl

theorem finishSave_one {s : State} {r : SaveReq} {b slot : Nat} (h : r.blks = [(b, slot)]) :
    finishSave s r = saveBlock { s with saves := s.saves.filter (fun x => x ≠ r) } b slot r.hold := by
  unfold finishSave
  rw [h]
  rfl

/-- R443: the beginning of a pre-emption names the block's mates and the slots that are free. -/
theorem beginSave_begins {s : State} {b : Nat} (hold : Bool) (who : Option (Nat × Nat)) (h : (matesOf s b).length ≤ (openSlots s (getBlock s b).die).length) :
    ∃ t, beginSave s b hold who = some t ∧
      t.saves = s.saves ++ [{ die := (getBlock s b).die, blks := (matesOf s b).zip (openSlots s (getBlock s b).die), hold := hold, who := who }] := by
  have hsaves : ∀ (l : List Nat) (u : State), (l.foldl (fun s x => setBlock s x { getBlock s x with saving := true }) u).saves = u.saves := by
    intro l
    induction l with
    | nil => exact fun _ => rfl
    | cons x l ih => exact fun u => ih _
  unfold beginSave
  dsimp only
  rw [if_neg (Nat.not_lt.2 h)]
  exact ⟨_, rfl, hsaves _ _⟩

theorem priorityPreempt_begins {s : State} {b : Nat} (h : dwsSave s = none) (hp : preemptOn s 0 = some b)
    (hr : (matesOf s b).length ≤ (openSlots s (getBlock s b).die).length) :
    ∃ t r, exec .priorityPreempt s = .next t ∧ t.saves = s.saves ++ [r] ∧ r.who = none ∧ r.blks.map (·.1) = matesOf s b ∧ r.die = (getBlock s b).die := by
  obtain ⟨t, ht, hs⟩ := beginSave_begins false none hr
  have hpre : priorityPreempt s = some t := by
    unfold priorityPreempt
    rw [h]
    show (List.range (3 + 1)).findSome? (fun d => (preemptOn s d).bind fun b => beginSave s b false none) = some t
    rw [List.range_succ_eq_map, List.findSome?_cons, hp, Option.bind_some, ht]
  refine ⟨t, _, ?_, hs, rfl, List.map_fst_zip hr, rfl⟩
  rw [exec_priorityPreempt, execPriorityPreempt, hpre]
  rfl

theorem priorityPreemptions : PriorityPreemptions := by
  refine fun s => ⟨priorityPreempt_stays, fun r b slot hr hb hk => ?_, fun b => priorityPreempt_begins⟩
  have hleaves := saveBlock_leaves (s := { s with saves := s.saves.filter (fun x => x ≠ r) }) slot r.hold hk
  rw [← finishSave_one hb] at hleaves
  exact ⟨_, priorityPreempt_finishes hr, hleaves⟩

/-- Settles O39: what a new block, an erased block, a retired node and a saved block leave behind the work of memory. -/
theorem blockLifetimes : Obligations.BlockLifetimes := ⟨blocksStartAndEnd, priorityPreemptions⟩

end Sys2Proof.Machine
end
